-- ==== Sys2Proof/Word.lean ====
section
/-!
DEFINITION. The word types of the SX8 (00 R8): bytes, 16-, 32- and 64-bit words, the 48-bit channel
physical address. Multi-byte fields are little-endian; bit 0 is the least significant bit.
-/
namespace Sys2Proof

abbrev Byte := BitVec 8
abbrev W16 := BitVec 16
abbrev W32 := BitVec 32
abbrev W64 := BitVec 64
/-- A 48-bit channel physical address (02 R53). -/
abbrev Addr := BitVec 48
/-- A global channel identifier (18 Table 18.4): 8 × MODID + die position. -/
abbrev ChanId := BitVec 16
/-- A channel of this module, ch0 to ch7. -/
abbrev Ch := Fin 8
/-- A core of a channel, c0 to c7. -/
abbrev Core := Fin 8
/-- A port of a channel, p0 to p3. -/
abbrev Port := Fin 4
/-- A DRAM stack or the Ablation engine beneath it, 0 to 3. -/
abbrev Stack := Fin 4
/-- A queue of a channel (02 Table 2.1). -/
abbrev QIdx := Fin 160
/-- A semaphore of a channel. -/
abbrev SemIdx := BitVec 8

end Sys2Proof
end

