-- ==== Sys2Proof/Syntax.lean ====
section
/-!
DEFINITION. The commands of the block: one constructor of `Instr` per row of spec/opcode_table.json,
with the row's operands. No row gives bits, so operands are structured data.
-/
namespace Sys2Proof

/-- An array of a core (01 Table 1.6). -/
inductive ArrayId where
  | rime | firnA | firnB
  deriving DecidableEq, Repr

/-- An engine of a channel (02 Table 2.1). -/
inductive Engine where
  | array (c : Core) | moraine (c : Core) | esker (c : Core)
  | confluence | ablation (a : Stack) | dispatcher
  deriving DecidableEq, Repr

/-- Where a command came from: a queue, or the dispatch input of an engine (02 R29). -/
inductive Src where
  | queue (q : QIdx)
  | input (e : Engine)
  deriving DecidableEq, Repr

/-- A BAR0 write: the value on the byte lanes of the register, and which bytes it enables (02 R442). -/
structure RegWrite where
  value  : W64
  enable : Byte
  deriving DecidableEq, Repr

/-- A register of a stream context (12 Table 12.5) that a configuration write names. -/
inductive CtxReg where
  | cfg | base | size | sem | rounds
  deriving DecidableEq, Repr

/-- A master of a channel (16 Table 16.2). -/
inductive Master where
  | engine (e : Engine)
  | context (c : Core) (x : Fin 16)
  | nunatak (n : Fin 4)
  | host
  deriving DecidableEq, Repr

/-- Who reads when a read meets an uncorrectable error (13 R295). -/
inductive Reader where
  | command (s : Src)
  | fill (c : Core) (x : Fin 16) (slot : Fin 16)
  | adori
  | host
  /-- an engine or port that reads an SRAM outside Névé (16 R353), for a command or for none -/
  | sram (s : Option Src)
  /-- the address guard, whose translation cache holds an entry of this page that fails its parity check (16 R353) -/
  | cache (page : Nat)
  deriving DecidableEq, Repr

/-- The word a faulty read meets (13 R293): the address read, and the symbols of its codeword in error. -/
structure WordRead where
  addr : Addr
  errs : List (BitVec 7)
  deriving DecidableEq, Repr

/-- A transfer that can meet an absent page (11 R262, 12 R286): a running command's, or a context's fill. -/
inductive Transfer where
  | command (s : Src)
  | fill (c : Core) (x : Fin 16) (slot : Fin 16)
  /-- a put's message that its receiving port holds (12 R276) -/
  | message (p : Port) (vc : Fin 4) (msgid : W16)
  deriving DecidableEq, Repr

/-- What a put's message tells of its command, for which Table 14.3 has no place (12 R274, R275; log 64): NDIM, FMT,
BS16, RAX and extents of the source; its layout (strided or not, RSTRIDE, both STR, COFF, EOFF, ORGR, ORGC); the
command's number at its channel; how many messages it sends. -/
structure PutInfo where
  agree  : List Nat
  layout : List Nat
  /-- the put comes from the sender's dispatch input, which has no part in the order of its queues (12 R275) -/
  input  : Bool := false
  serial : Nat
  total  : Nat
  deriving DecidableEq, Repr

/-- A Polvor flit (14 Table 14.1), its fields as sent. -/
structure Flit where
  kind    : BitVec 2
  vc      : Fin 4
  seq     : BitVec 12
  ack     : BitVec 12
  nack    : Bool
  crcum   : W16
  crvc    : Fin 4
  len     : Byte
  msgid   : W16
  frag    : BitVec 9
  last    : Bool
  payload : List Byte
  crc     : W32
  /-- what the first fragment of a put tells of its command, beside the bytes of Table 14.1 -/
  put     : Option PutInfo := none
  deriving DecidableEq, Repr

/-- A message header (14 Table 14.3). -/
structure MsgHdr where
  src    : ChanId
  dst    : ChanId
  type   : Byte
  order  : Byte
  rsem   : Byte
  rsig   : Bool
  noroute : Bool
  desc   : W64
  length : W32
  offs   : W32
  rinc   : W16
  hops   : Byte
  /-- a put's command (12 R274, R275) -/
  put    : Option PutInfo := none
  deriving DecidableEq, Repr

/-- What an MNACK rejects: the message of a header, or a late fragment of a message by its identifier on the link. -/
inductive NackOf where
  | message (h : MsgHdr) (noroute : Bool)
  | fragment (p : Port) (vc : Fin 4) (msgid : W16)
  deriving DecidableEq, Repr

/-- A whole message: header and body. -/
structure Msg where
  hdr  : MsgHdr
  body : List Byte
  deriving DecidableEq, Repr

/-- One superblock of a reduction message in the form it crosses a link (15 R337, Table 15.4). -/
structure SbForm where
  form  : BitVec 2
  bytes : List Byte
  /-- of a superblock as stored, the code of its format (log 26) -/
  fmt   : BitVec 5 := 0
  deriving DecidableEq, Repr

/-- The body of a reduction message (15 Table 15.3) and the leaf that sent it. -/
structure RedMsg where
  sender : ChanId
  rid    : W32
  group  : W16
  path   : Bool
  down   : Bool
  nf     : Bool
  shmis  : Bool
  step   : W32
  bucket : W32
  count  : W32
  first  : W16
  shape  : W32
  wait   : W16
  sbs    : List SbForm
  stats  : Option (List Byte)
  /-- the opcode of the collective, the fourth part of the key (15 R329) -/
  opc    : Byte
  deriving DecidableEq, Repr

/-- A step report (10 Table 10.6). -/
structure Report where
  step   : W32
  ver    : W32
  nf     : Bool
  bad    : Bool
  recomp : Bool
  chan   : ChanId
  deriving DecidableEq, Repr

/-- The kind of a step token (10 Table 10.7). -/
inductive TokKind where
  | start | commit | skip | rollback | halt
  deriving DecidableEq, Repr

/-- A step token (10 Table 10.7). -/
structure Token where
  ver    : W32
  step   : W32
  kind   : TokKind
  lsexp  : Byte
  dls    : Byte
  mepoch : W32
  batch  : W64
  deriving DecidableEq, Repr

/-- A heartbeat body (16 Table 16.3) and the channel it comes from. -/
structure Heartbeat where
  chan     : ChanId
  step     : W32
  ver      : W32
  mgen     : W32
  state    : BitVec 4
  fault    : Bool
  degraded : Bool
  ready    : Bool
  quiesced : Bool
  rebuild  : Bool
  removed  : Bool
  takeover : Bool
  fclass   : Byte
  faddr    : Addr
  strag    : W32
  degmask  : Byte
  hbseq    : W64
  /-- what Table 16.3 gives no place, but the rules have a heartbeat or reply tell (logs 79, 116): the standby that the manager
  has named (R359); the member whose fault or degradation a manager passes upward (R354, R361); that no START will come
  (R364); the stragglers named since the last heartbeat (R362) -/
  standby  : Option ChanId := none
  about    : Option ChanId := none
  nogroup  : Bool := false
  named    : List W32 := []
  /-- in a reply, the members that the manager reports as failed (15 R350) -/
  failed   : List ChanId := []
  /-- FAULT tells of a channel fault, which stands, not of one that only calls for a rollback (16 R352, R354; log 116) -/
  lasting  : Bool := false
  deriving DecidableEq, Repr

/-- A token's membership: the modules, drift managers and field managers in force at an epoch
(18 Table 18.3 MEMBERSHIP, 01 R25). -/
structure Membership where
  modules : List W16
  driftManagers : List ChanId
  fieldManagers : List ChanId
  mepoch  : W32
  deriving DecidableEq, Repr

/-- The level a manager acts at (01 R23). -/
inductive MgrLevel where
  | drift | field
  deriving DecidableEq, Repr

/-- A decision on its way between a manager of a level and its standby (10 R240, 18 R358): the token with the
membership in force where the message brings it to the standby, nothing where it is the acknowledgement. -/
structure Mirror where
  level    : MgrLevel
  decision : Option (Token × Membership)
  /-- channels that the manager has declared failed (16 R358, R360) -/
  failed   : List ChanId := []
  deriving DecidableEq, Repr

/-- An Ethernet frame as the port receives it (14 R323): its bytes from the destination address to the last byte
before the frame check sequence, whether that sequence is good, and whether the frame finds the port's receive buffer
full, which the rates of the wire and of the drain decide (log 82). -/
structure Frame where
  bytes : List Byte
  fcsOk : Bool
  full  : Bool
  deriving DecidableEq, Repr

/-- An ingest datagram (14 Table 14.5) with the IPv4 address and the UDP port of the other side. -/
structure Datagram where
  peerIp  : W32
  peerUdp : W16
  magic   : W16
  ver     : Byte
  type    : Byte
  win     : W16
  flags   : W16
  msgid   : W32
  seq     : W32
  offset  : W64
  len     : W32
  check   : W32
  payload : List Byte
  deriving DecidableEq, Repr

/-- A PLL of a channel (17 R376): a core's or PLL A. -/
inductive PllId where
  | core (c : Core) | chanA
  deriving DecidableEq, Repr

/-- The activity counts per clock that Katabatic forms over 10 µs (17 R382): of a core the groups issued by width and array,
the Névé accesses by port, elements converted, vector stages run; of the Ablation engines the elements. -/
structure Activity where
  groups : List Nat := []
  neve   : List Nat := []
  elems  : Nat := 0
  stages : Nat := 0
  deriving DecidableEq, Repr

/-- The verdict a link-control flit carries on its receiver (14 R309). -/
inductive Verdict where
  | none | isMatch | mismatch
  deriving DecidableEq, Repr

/-- What a port learns as it comes up again (14 R309, R313): the peer's channel and port, the credits its
link-control flit gives for VC 0-3, and the verdict it carries. -/
structure Retrain where
  port     : Port
  peer     : ChanId
  peerPort : Port
  credits  : List W16
  verdict  : Verdict
  deriving DecidableEq, Repr

/-- A message on its way over an ingest port (14 R326): its window and MSGID. -/
structure IngestMsgId where
  win   : Fin 16
  msgid : W32
  deriving DecidableEq, Repr

/-- A multicast stream (14 R321): its root, the key of the collective it serves (15 R329) and the path. -/
structure StreamId where
  root : ChanId
  rid  : W32
  path : Bool
  opc  : Byte
  group : W16
  step : W32
  deriving DecidableEq, Repr

/-- Which run of segments Adori issues next (10 R228, R230). -/
inductive SegKind where
  | fwd | bwd
  deriving DecidableEq, Repr

/-- An MCTP control message (18 R422): the endpoint it addresses and what it asks. -/
inductive MctpReq where
  | setEid (eid : Byte)
  | getEid
  | allocatePool (first : Byte)
  | getVersion
  | getMessageTypes
  | other (code : Byte)
  deriving DecidableEq, Repr

/-- The endpoint an SPDM or MCTP message reaches: the bridge or a channel (18 R416, R422). -/
inductive Endpoint where
  | bridge
  | channel (ch : Ch)
  deriving DecidableEq, Repr

/-- The transport connection an SPDM request comes over (18 R416, R418). -/
inductive Transport where
  | doe | mctp
  deriving DecidableEq, Repr

/-- The sensors of 18 Table 18.10 and the state sensor of R423. -/
inductive Sensor where
  | power | energy | coolant | stack | tj | clock | state
  deriving DecidableEq, Repr

/-- The steps of a PLDM Type 5 update (18 R423). -/
inductive FwUpdate where
  | start
  | data (offset : Nat) (bytes : List Byte)
  | finish
  deriving DecidableEq, Repr

/-- The commands of the block, in the order of spec/opcode_table.json. -/
inductive Instr where
  -- opcodes (02 Table 2.4): the command running from the source
  | nop (ch : Ch) (s : Src)
  | semWait (ch : Ch) (s : Src)
  | semSignal (ch : Ch) (s : Src)
  | semSet (ch : Ch) (s : Src)
  | flDefine (ch : Ch) (s : Src)
  | mmFwd (ch : Ch) (s : Src)
  | mmBwd2 (ch : Ch) (s : Src)
  | mmBwd (ch : Ch) (s : Src)
  | cvFreeze (ch : Ch) (s : Src)
  | cvThaw (ch : Ch) (s : Src)
  | vxChain (ch : Ch) (s : Src)
  | vxSave (ch : Ch) (s : Src)
  | vxRestore (ch : Ch) (s : Src)
  | stCopy (ch : Ch) (s : Src)
  | stGather (ch : Ch) (s : Src)
  | stScatter (ch : Ch) (s : Src)
  | stPrefetch (ch : Ch) (s : Src)
  | stCancel (ch : Ch) (s : Src)
  | stPut (ch : Ch) (s : Src)
  | cfReduce (ch : Ch) (s : Src)
  | cfBcast (ch : Ch) (s : Src)
  | cfBarrier (ch : Ch) (s : Src)
  | abUpdate (ch : Ch) (s : Src)
  | abFreeze (ch : Ch) (s : Src)
  | abScatter (ch : Ch) (s : Src)
  -- queues, the dispatcher and the host's accesses (02, 06)
  | commandStart (ch : Ch) (e : Engine)
  | commandComplete (ch : Ch) (s : Src)
  | completionRecordWrite (ch : Ch) (q : QIdx)
  | floeShareDelivery (ch : Ch) (s : Src) (member : Nat)
  | floeComplete (ch : Ch) (s : Src)
  | doorbell (ch : Ch) (q : QIdx) (w : RegWrite)
  | queueEnable (ch : Ch) (q : QIdx) (w : RegWrite)
  | queueDisable (ch : Ch) (q : QIdx) (w : RegWrite)
  | queueDrained (ch : Ch) (q : QIdx)
  | queueReset (ch : Ch) (q : QIdx) (w : RegWrite)
  | queueResume (ch : Ch) (q : QIdx) (w : RegWrite)
  | cqCplCiWrite (ch : Ch) (q : QIdx) (w : RegWrite)
  | cqSemAdd (ch : Ch) (sem : SemIdx) (w : RegWrite)
  | cqSemSet (ch : Ch) (sem : SemIdx) (w : RegWrite)
  | hbdStageBaseWrite (ch : Ch) (w : RegWrite)
  | bar2Access (ch : Ch) (off : BitVec 28) (len : Nat) (write : Option (List Byte))
  | registerWrite (fn : Fin 9) (off : BitVec 22) (size : Nat) (value : W64)
  | nmonEvrCiWrite (ch : Ch) (w : RegWrite)
  -- Moraine and the accumulator banks (04 R94, 07)
  | morPause (ch : Ch) (c : Core) (w : RegWrite)
  | morUnpause (ch : Ch) (c : Core) (w : RegWrite)
  | bankHandover (ch : Ch) (c : Core) (a : ArrayId)
  | bankRelease (ch : Ch) (c : Core) (a : ArrayId)
  -- Esker's contexts, fills and pages (11, 12)
  | eskCtxConfig (ch : Ch) (c : Core) (x : Fin 16) (r : CtxReg) (w : RegWrite)
  | fillLanded (ch : Ch) (c : Core) (x : Fin 16) (slot : Fin 16)
  | helperUnit (ch : Ch) (c : Core) (x : Fin 16) (slot : Fin 16) (helper : Core)
  | ringRelease (ch : Ch) (c : Core) (x : Fin 16)
  | rotatePush (ch : Ch) (c : Core) (x : Fin 16)
  | rotateSwap (ch : Ch) (c : Core) (x : Fin 16)
  | pageHalt (ch : Ch) (t : Transfer)
  | pageResume (ch : Ch) (t : Transfer) (entry : W64) (data : List Byte)
  | pgtmoExpiry (ch : Ch) (t : Transfer)
  | pageEntryUpdate (ch : Ch) (page : BitVec 27) (entry : W64)
  -- memory faults and care (13, 16)
  | addressGuardViolation (ch : Ch) (m : Master) (addr : Addr) (write : Bool)
  | uncorrectableRead (ch : Ch) (r : Reader) (word : WordRead)
  | badconnMark (ch : Ch) (st : Stack) (slice : BitVec 6) (symbol : BitVec 7)
  | patrolScrub (ch : Ch) (st : Stack) (addr : Addr) (errs : List (BitVec 7)) (lastOfPass : Bool)
  | neveScrub (ch : Ch) (c : Core) (addr : Addr) (errs : List (BitVec 7))
  | refresh (ch : Ch) (st : Stack) (due : Nat)
  | stackTempUpdate (ch : Ch) (st : Stack) (milliC : List Nat)
  | logicCheckFailure (ch : Ch)
  | watchdogExpiry (ch : Ch)
  -- links (14)
  | linkTrainingDone (ch : Ch) (p : Port)
  | linkControlFlit (ch : Ch) (p : Port) (peer : ChanId) (peerPort : Port) (credits : List W16) (v : Verdict)
  | payloadFlit (ch : Ch) (p : Port) (f : Flit) (uncorrectable : Bool)
  | nackReplay (ch : Ch) (p : Port) (f : Flit)
  | ackTimeout (ch : Ch) (p : Port)
  | portDown (ch : Ch) (p : Port)
  | portRetrained (ch : Ch) (link : Retrain)
  | messageComplete (ch : Ch) (p : Port) (vc : Fin 4) (msgid : W16)
  | messageForward (ch : Ch) (p : Port) (vc : Fin 4) (msgid : W16)
  | mack (ch : Ch) (h : MsgHdr) (status : Byte)
  | mnack (ch : Ch) (n : NackOf)
  | stalltmoExpiry (ch : Ch) (p : Port) (vc : Fin 4) (msgid : W16)
  | lateFragment (ch : Ch) (p : Port) (f : Flit)
  | multicastAck (ch : Ch) (st : StreamId) (child : ChanId)
  | mctmoExpiry (ch : Ch) (st : StreamId) (child : ChanId)
  | mdrop (ch : Ch) (st : StreamId) (first : Nat)
  | mfetch (ch : Ch) (st : StreamId) (child : ChanId) (first : Nat)
  | ethernetFrame (ch : Ch) (p : Port) (f : Frame)
  | ingestWrite (ch : Ch) (p : Port) (d : Datagram)
  | ingestRead (ch : Ch) (p : Port) (d : Datagram)
  | ingestStalltmoExpiry (ch : Ch) (p : Port) (msg : IngestMsgId)
  -- collectives (15)
  | reductionMessage (ch : Ch) (m : RedMsg)
  | resultDown (ch : Ch) (m : RedMsg)
  | skewRelease (ch : Ch) (s : Src) (c : Core)
  -- training (10)
  | trainingStart (ch : Ch) (w : RegWrite)
  | segmentIssue (ch : Ch) (k : SegKind)
  | forwardAdmission (ch : Ch)
  | updIssue (ch : Ch)
  | stripeContribution (ch : Ch) (unit : Nat)
  | parityContribution (ch : Ch) (pos : Nat) (unit : Nat) (isQ : Bool) (data : List Byte)
  | stepReport (ch : Ch)
  | reportForward (ch : Ch) (l : MgrLevel) (r : Report)
  | authorityDecide (ch : Ch)
  | mirrorAck (arrival : Ch × Mirror)
  | commitToken (ch : Ch) (t : Token) (m : Membership)
  | clockVote (ch : Ch)
  | heldTokenApply (ch : Ch)
  | skipToken (ch : Ch) (t : Token)
  | haltToken (ch : Ch) (t : Token)
  | rollbackToken (ch : Ch) (t : Token)
  | startToken (ch : Ch) (t : Token) (m : Membership)
  -- heartbeats, managers and recovery (16)
  | heartbeatSend (ch : Ch)
  | heartbeatReceive (ch : Ch) (l : MgrLevel) (h : Heartbeat)
  | heartbeatReply (ch : Ch) (h : Heartbeat) (t : Option Token) (m : Membership)
  | hbtmoExpiry (ch : Ch) (l : MgrLevel) (member : ChanId)
  | standbyTakeover (ch : Ch) (l : MgrLevel)
  | mirrorAckTimeout (ch : Ch) (l : MgrLevel)
  | newStandby (ch : Ch) (m : Mirror)
  | linktmoExpiry (ch : Ch) (p : Port)
  | channelFault (ch : Ch) (fclass : Byte) (addr : Addr)
  | rebuildRequest (ch : Ch) (unit : Nat) (requester : ChanId) (lost : List Nat) (units : List (Nat × List Byte)) (other : List Byte)
  | rebuildResult (ch : Ch) (unit : Nat) (data : List Byte)
  -- power and clocks (17)
  | governorTick (ch : Ch) (acts : List Activity)
  | pathMonitorMeasure (ch : Ch) (c : Core) (marginOk : List Bool) (holdsAt : Nat)
  | ageingRecordWrite (ch : Ch)
  | powerSample (ch : Ch) (deciwatts : Nat)
  | backstopStep (ch : Ch)
  | loanRecompute (busy : List Bool)
  | loanRecall (ch : Ch)
  | arbiterSilence (ch : Ch)
  | thcutUpdate (ch : Ch)
  | tjSample (ch : Ch) (c : Core) (tj : Nat)
  | droopDetect (ch : Ch) (c : Core)
  | droopRecover (ch : Ch) (c : Core)
  | pllWake (ch : Ch) (p : PllId)
  | pllIdle (ch : Ch) (p : PllId)
  | colddlyExpiry (ch : Ch) (c : Core)
  | arrayRowDisable (ch : Ch) (c : Core) (a : ArrayId)
  -- the module (19)
  | inletRead (celsius : Option Nat)
  | inputSwitchClose
  | inputSwitchOpen (aboveRange : Bool)
  | thermalTrip
  | modRstNAssert
  | modRstNRelease
  | perstNAssert
  | perstNRelease (refclk : Bool)
  -- host port, reset, flash, boot, mailbox (18)
  | hostPortReset
  | functionLevelReset (ch : Ch)
  | configRequest (ch : Ch)
  | hostPortReturn
  | bootCtrlReset (ch : Ch) (w : RegWrite)
  | hbdChReset (ch : Ch) (w : RegWrite)
  | hbdChHold (ch : Ch) (w : RegWrite)
  | flownClaim (ch : Ch) (w : RegWrite)
  | flashRead (ch : Ch) (w : RegWrite)
  | flashErase (ch : Ch) (w : RegWrite)
  | flashProgram (ch : Ch) (w : RegWrite)
  | flashCommandDone (ch : Ch)
  | channelBoot (ch : Ch)
  | mbxIdentity (ch : Ch) (w : RegWrite)
  | mbxConfigRead (ch : Ch) (w : RegWrite)
  | mbxMeasurements (ch : Ch) (w : RegWrite)
  | mbxUnknownRequest (ch : Ch) (w : RegWrite)
  -- trust and management (18)
  | hssBatchReserve (ch : Ch) (written : Bool)
  | hssTreeBuild (ch : Ch)
  | getVersion (ep : Endpoint) (tr : Transport)
  | getCapabilities (ep : Endpoint) (tr : Transport)
  | negotiateAlgorithms (ep : Endpoint) (tr : Transport)
  | getDigests (ep : Endpoint) (tr : Transport)
  | getCertificate (ep : Endpoint) (tr : Transport) (slot : Byte) (off : W16) (len : W16)
  | challenge (ep : Endpoint) (tr : Transport) (slot : Byte) (nonce : List Byte)
  | getMeasurements (ep : Endpoint) (tr : Transport) (index : Byte) (nonce : List Byte)
  | vendorDefinedRequest (ep : Endpoint) (tr : Transport) (code : Byte)
  | spdmUnsupportedRequest (ep : Endpoint) (tr : Transport) (code : Byte)
  | mctpControl (ep : Endpoint) (r : MctpReq)
  | pldmDiscovery (ep : Endpoint) (code : Byte)
  | pldmSensorRead (ch : Ch) (s : Sensor)
  | platformEventMessage (ch : Ch)
  | pldmHoldEffecter (ch : Ch) (hold : Bool)
  | pldmReset (ch : Ch)
  | pldmFirmwareUpdate (ch : Ch) (u : FwUpdate)
  | activateFirmware (ch : Ch)
  -- later rows
  | idleFlit (ch : Ch) (p : Port) (f : Flit)
  | newStandbyAck (ch : Ch) (l : MgrLevel) (chan : ChanId)
  | firstFaultHbtmoExpiry (ch : Ch)
  deriving DecidableEq, Repr

end Sys2Proof
end

