-- ==== Sys2Proof/Decode.lean ====
section
/-!
DEFINITION. Decoding by the opcode table's bits: no row of spec/opcode_table.json gives any, so no word spells a command.
-/
namespace Sys2Proof

/-- The command that a word spells by the table's bits: none, since the table gives no row any bits. -/
def decodeTableWord (_nbits _w : Nat) : Option Instr := none

end Sys2Proof
end

