-- ==== Sys2Proof/Config.lean ====
section
/-!
DEFINITION. The free values: what the spec leaves open. Each is a constant without a body, so nothing can be proved
of its value; each is named in a row of notes/assumptions. Those that differ from use to use are applied to the
model's own counter `freeCtr`.
-/
namespace Sys2Proof.Config

/-- Ticks of the channel's free-running counter that pass before the n-th sampling of it (log 16). -/
opaque elapsed : Nat → Nat
/-- Clocks a lane runs beyond one before its n-th sampling (08 R188; log 17). -/
opaque laneClocks : Nat → Nat
/-- SHA-384 of a byte string (18 R400; log 18). -/
opaque sha384 : List Byte → List Byte
/-- Of a firmware slot's bytes, as it lies sparse: its header is well formed; its version, security version, minimum security
version, and digest of header and body (18 R405 to R407; log 18). -/
opaque fwHeaderOk : List (Nat × Byte) → Bool
opaque fwVersion : List (Nat × Byte) → Nat
opaque fwSvn : List (Nat × Byte) → Nat
opaque fwMinSvn : List (Nat × Byte) → Nat
opaque fwDigest : List (Nat × Byte) → List Byte
/-- Of a firmware slot's bytes, whose header has no offsets in the spec: the two public keys, the body, the digest of the body
that the header carries, the bytes signed and the two signatures (18 R405; log 18). -/
opaque fwEcKey : List (Nat × Byte) → List Byte
opaque fwHssKey : List (Nat × Byte) → List Byte
opaque fwBody : List (Nat × Byte) → List Byte
opaque fwBodyDigest : List (Nat × Byte) → List Byte
opaque fwSigned : List (Nat × Byte) → List Byte
opaque fwEcSig : List (Nat × Byte) → List Byte
opaque fwHssSig : List (Nat × Byte) → List Byte
/-- The digests of Floriwin's two public keys, fused (18 R405; log 18). -/
opaque ecKeyHash : List Byte
opaque hssKeyHash : List Byte
/-- ECDSA P-384 and HSS verification of a message under a public key (FIPS 186-5, SP 800-208; 18 R405; log 18). -/
opaque ecdsaVerify : List Byte → List Byte → List Byte → Bool
opaque hssVerify : List Byte → List Byte → List Byte → Bool
/-- The stacks initialise well at power-up (18 Table 18.6, MEMINIT; log 18). -/
opaque stacksOk : Nat → Bool
/-- The ROM's digest, the debug and fuse state, and the bridge's own measurements (18 Table 18.8; log 18). -/
opaque romDigest : List Byte
opaque fuseState : List Byte
opaque bridgeMeasures : List (List Byte)
/-- A channel's fuses read well and its root of trust is sound (18 R405; log 18). -/
opaque fusesOk : Nat → Bool
/-- The unique device secret in the fuses of a root of trust: the bridge's, then the channels' (18 R411; log 18). -/
opaque uds : Nat → List Byte
/-- HMAC-SHA-384 of a key and a message, HKDF-SHA-384 of a secret, an ECDSA P-384 private key made of a seed and its public
key, and the seed of the HSS attestation key made of the device secret (18 R412; log 18). -/
opaque hmac384 : List Byte → List Byte → List Byte
opaque hkdf384 : List Byte → List Byte
opaque ecKey : List Byte → List Byte
opaque ecPublic : List Byte → List Byte
opaque hssSeed : List Byte → List Byte
/-- SHA-256, an ECDSA P-384 signature by key, nonce and message, and of HSS the top tree's signature over a lower tree by seed
and its number, and a lower tree's by seed, index and digest (18 R412 to R418; log 18). -/
opaque sha256 : List Byte → List Byte
opaque hssTopSign : List Byte → Nat → List Byte
opaque ecdsaSign : List Byte → List Byte → List Byte → List Byte
opaque hssSign : List Byte → Nat → List Byte → List Byte
/-- What the entropy source of a root of trust gives for its n-th seed, and the bits of an HMAC_DRBG by its seed and the
number of the request (18 R413; log 18). -/
opaque entropy : Nat → Nat → List Byte
opaque hmacDrbg : List Byte → Nat → List Byte
/-- The root and manufacturing CA certificates, the CA's certificate of a DeviceID public key, the HSS public key of a seed, and
the CA's ECDSA and HSS signatures over it (18 R412; log 18). -/
opaque caChain : List Byte
opaque caCertify : List Byte → List Byte
opaque hssPublic : List Byte → List Byte
opaque caEcdsaSign : List Byte → List Byte
opaque caHssSign : List Byte → List Byte
/-- The module's serial number, and the I3C provisional ID derived from it (19 R433; log 18). -/
opaque serial : List Byte
opaque provisionalId : List Byte → List Byte
/-- What a diagnostic log record says, by its number and the class and address of the fault it is written for (18 R400, 19
R428; log 118). -/
opaque diagContent : Nat → Nat → Nat → List Byte
/-- The nominal estimate, in 0.1 W, of a hot core at a step code from its activity: groups by width and array, Névé accesses by
port, elements, stages; of the Ablation engines by their elements at a code of PLL A; of fabric, stacks and ports (17
R382; log 19). -/
opaque coreEstimate : List Nat → List Nat → Nat → Nat → Nat → Nat
opaque ablationEstimate : Nat → Nat → Nat
opaque fixedEstimate : Nat
/-- The mean activity of the attempt just committed (17 R386; log 19). -/
opaque meanActivity : Nat → List Activity
/-- The fused values of a core, in units of 5 mV: its voltage at a step code, and VMAX (17 R380; log 19). -/
opaque tableVoltage : Nat → Nat → Nat
opaque vmax : Nat → Nat
/-- The lowest vote of the members of other modules on a version, as a code above 24 (17 R386; log 27). -/
opaque otherVotes : Nat → Nat
/-- The replica index of another module (16 R363; log 28). -/
opaque replicaOf : W16 → Nat
/-- The standbys of the managers of other drifts and of another field, which IDENTITY does not name (01 R23; log 116). -/
opaque standbyOf : ChanId → ChanId
opaque fieldStandbyOf : ChanId → ChanId
/-- The channel at a position of this channel's stripe group (16 R365; log 73). -/
opaque stripeMember : Nat → ChanId
/-- The queue that AGD_DF_CAUSE names for a share that another channel sent (11 Table 11.5; log 22). -/
opaque faultQueue : Nat → Byte
/-- The ideal biased exponent of a block of a B16 destination, by its largest magnitude in F32 (06 R143, R144; log 23). -/
opaque idealB16 : W32 → Nat
/-- INFO of a record whose status has no address the spec names (02 Table 2.5; log 3). -/
opaque freeInfo : Nat → W64
/-- The wait, in µs, of a leaf for the last partial of a bucket (15 R349; log 24). -/
opaque upstreamWait : Nat → W16
/-- The modules of a drift other than this channel's own as configured, by a manager or channel named of it (15 R328; log 25). -/
opaque driftModules : ChanId → List W16
/-- A module of another drift has left the membership by an epoch (15 R331, 16 R363; log 25). -/
opaque moduleLeft : Nat → W16 → Bool
/-- The drifts of a field other than this channel's own, as configured, by its manager (log 25). -/
opaque fieldDrifts : ChanId → List ChanId
/-- The leaves of a floe that fl.define installed on a channel of another module (log 25). -/
opaque remoteLeaves : ChanId → W16 → List ChanId
/-- Requests of Névé c that waited, and corrected FEC symbols of a port, since the last count (13 R305, 14 R311; log 61). -/
opaque neveWaits : Nat → Nat → Nat
opaque fecSymbols : Nat → Nat → Nat
/-- Bytes the spec leaves undefined, by the counter and a position (log 3). -/
opaque freeByte : Nat → Nat → Byte
/-- A 32-bit word the spec leaves undefined, by the counter. -/
opaque freeWord : Nat → W32

end Sys2Proof.Config
end

