-- ==== Sys2Proof/Machine/Num.lean ====
section
/-!
DEFINITION. Exact numbers and their single rounding (03 R57, R65, R75 to R77; 07 R167). A finite value is a sign,
a magnitude `m` and an exponent `e`, standing for ±m·2^e, so sums and products are exact and rounding happens
once, on the magnitude. A quotient, root or transcendental carries a sticky bit: the true magnitude then lies
strictly between m·2^e and (m+1)·2^e.
-/
namespace Sys2Proof.Machine

open Sys2Proof

/-- A value: the NaN, an infinity, or ±m·2^e (the sign of zero is kept, R65). -/
inductive Val where
  | nan
  | inf (neg : Bool)
  | fin (neg : Bool) (m : Nat) (e : Int)
  deriving DecidableEq, Repr

namespace Num

/-- +0. -/
def zero : Val := .fin false 0 0
/-- 1.0. -/
def one : Val := .fin false 1 0

/-- The signed integer of a finite value at exponent `e'`, where e' ≤ e. -/
def scaled (neg : Bool) (m : Nat) (e e' : Int) : Int :=
  let a : Int := (m * 2 ^ (e - e').toNat : Nat)
  if neg then -a else a

/-- A finite value from a signed integer at exponent e; zero takes the given sign. -/
def ofInt (zneg : Bool) (i : Int) (e : Int) : Val :=
  if i = 0 then .fin zneg 0 0 else .fin (decide (i < 0)) i.natAbs e

/-- −v (a NaN stays the NaN). -/
def neg : Val → Val
  | .nan => .nan
  | .inf n => .inf (!n)
  | .fin n m e => .fin (!n) m e

/-- The magnitude of v. -/
def abs : Val → Val
  | .nan => .nan
  | .inf _ => .inf false
  | .fin _ m e => .fin false m e

/-- The exact sum (R65): an infinity minus itself is NaN; an exact zero is +0 unless both operands are −0. -/
def add : Val → Val → Val
  | .nan, _ => .nan
  | _, .nan => .nan
  | .inf a, .inf b => if a = b then .inf a else .nan
  | .inf a, .fin .. => .inf a
  | .fin .., .inf b => .inf b
  | .fin n1 m1 e1, .fin n2 m2 e2 =>
    let e := min e1 e2
    ofInt (n1 && n2) (scaled n1 m1 e1 e + scaled n2 m2 e2 e) e

/-- a − b, exactly. -/
def sub (a b : Val) : Val := add a (neg b)

/-- The exact product (R65): infinity times zero is NaN. -/
def mul : Val → Val → Val
  | .nan, _ => .nan
  | _, .nan => .nan
  | .inf a, .inf b => .inf (a != b)
  | .inf a, .fin n m _ => if m = 0 then .nan else .inf (a != n)
  | .fin n m _, .inf b => if m = 0 then .nan else .inf (n != b)
  | .fin n1 m1 e1, .fin n2 m2 e2 => .fin (n1 != n2) (m1 * m2) (e1 + e2)

/-- v × 2^k, exactly. -/
def scale (k : Int) : Val → Val
  | .fin n m e => if m = 0 then .fin n 0 0 else .fin n m (e + k)
  | v => v

def isNan : Val → Bool
  | .nan => true
  | _ => false

/-- A NaN or an infinity. -/
def nonFinite : Val → Bool
  | .fin .. => false
  | _ => true

/-- ±0. -/
def isZero : Val → Bool
  | .fin _ m _ => m == 0
  | _ => false

/-- Ordering of two values that are not NaN; −0 and +0 are equal. -/
def lt (a b : Val) : Bool :=
  match a, b with
  | .nan, _ => false
  | _, .nan => false
  | .inf x, .inf y => x && !y
  | .inf x, .fin .. => x
  | .fin .., .inf y => !y
  | .fin n1 m1 e1, .fin n2 m2 e2 =>
    let e := min e1 e2
    decide (scaled n1 m1 e1 e < scaled n2 m2 e2 e)

/-- Equality as numbers. -/
def eq (a b : Val) : Bool :=
  match a, b with
  | .nan, _ => false
  | _, .nan => false
  | a, b => !lt a b && !lt b a

/-- Comparison of magnitudes m1·2^e1 ≤ m2·2^e2. -/
def magLe (m1 : Nat) (e1 : Int) (m2 : Nat) (e2 : Int) : Bool :=
  let e := min e1 e2
  decide (m1 * 2 ^ (e1 - e).toNat ≤ m2 * 2 ^ (e2 - e).toNat)

/-- floor(log2 (m·2^e)) of a nonzero magnitude. -/
def floorLog2 (m : Nat) (e : Int) : Int := (Nat.log2 m : Int) + e

/-- The rounding modes (R75); SR carries its bit count and this element's random word. -/
inductive Mode where
  | rne
  | sr (n : Nat) (r : Nat)
  | rtz
  deriving DecidableEq, Repr

/-- floor (m·2^e / 2^q) with the remainder as a fraction rem / 2^sh. -/
def splitAt (m : Nat) (e q : Int) : Nat × Nat × Nat :=
  if q ≤ e then (m * 2 ^ (e - q).toNat, 0, 0)
  else
    let sh := (q - e).toNat
    (m / 2 ^ sh, m % 2 ^ sh, sh)

/-- Whether the grid point above lo is taken (R75, R76). `odd` is the lowest bit of lo's grid code; `sticky` says
that the value lies above what the remainder shows. -/
def roundUp (mode : Mode) (odd : Bool) (rem sh : Nat) (sticky : Bool) : Bool :=
  match mode with
  | .rtz => false
  | .rne =>
    if sh = 0 then false
    else
      let half := 2 ^ (sh - 1)
      decide (half < rem) || (decide (rem = half) && (sticky || odd))
  | .sr n r =>
    let f := rem * 2 ^ n / 2 ^ sh
    decide (2 ^ n ≤ f + r % 2 ^ n)

/-- The grid code of a magnitude in a binary float grid with `mb` mantissa bits and least normal exponent `emin`:
codes rise with the magnitude, so the next grid point up is the next code, across binades too. -/
def gridFloat (mb : Nat) (emin : Int) (m : Nat) (e : Int) : Nat × Nat × Nat :=
  if m = 0 then (0, 0, 0)
  else
    let ex := max (floorLog2 m e) emin
    let (i, rem, sh) := splitAt m e (ex - mb)
    ((ex - emin).toNat * 2 ^ mb + i, rem, sh)

/-- Rounds a magnitude to a float grid and gives its code. -/
def roundFloat (mode : Mode) (mb : Nat) (emin : Int) (m : Nat) (e : Int) (sticky : Bool) : Nat :=
  let (c, rem, sh) := gridFloat mb emin m e
  if roundUp mode (c % 2 == 1) rem sh sticky then c + 1 else c

/-! ### F32 and B16 -/

/-- The canonical quiet NaN (R65). -/
def nan32 : W32 := 0x7FC00000
def nan16 : W16 := 0x7FC0

/-- Decodes a sign, a code and the format's mantissa width and least normal exponent. -/
def decodeFloat (neg : Bool) (mb : Nat) (emin : Int) (code : Nat) : Val :=
  let ef := code / 2 ^ mb
  let mf := code % 2 ^ mb
  if ef = 0 then .fin neg mf (if mf = 0 then 0 else emin - mb)
  else .fin neg (2 ^ mb + mf) (emin - mb + (ef - 1 : Nat))

/-- The value of an F32 word (R57, R65). -/
def dec32 (w : W32) : Val :=
  let n := w.toNat
  let s := decide (2 ^ 31 ≤ n)
  let c := n % 2 ^ 31
  if c < 0x7F800000 then decodeFloat s 23 (-126) c
  else if c = 0x7F800000 then .inf s else .nan

/-- The value of a B16 word. -/
def dec16 (w : W16) : Val :=
  let n := w.toNat
  let s := decide (2 ^ 15 ≤ n)
  let c := n % 2 ^ 15
  if c < 0x7F80 then decodeFloat s 7 (-126) c
  else if c = 0x7F80 then .inf s else .nan

/-- An F32 word from a sign and a magnitude code, at infinity when the code is past max finite. -/
def pack32 (neg : Bool) (code : Nat) : W32 :=
  BitVec.ofNat 32 ((if neg then 2 ^ 31 else 0) + min code 0x7F800000)

def pack16 (neg : Bool) (code : Nat) : W16 :=
  BitVec.ofNat 16 ((if neg then 2 ^ 15 else 0) + min code 0x7F80)

/-- Rounds a magnitude with a sticky bit to F32 under RNE. -/
def rnd32 (neg : Bool) (m : Nat) (e : Int) (sticky : Bool) : W32 :=
  pack32 neg (roundFloat .rne 23 (-126) m e sticky)

/-- Rounds an exact value to F32 under RNE (R65, R75). -/
def to32 : Val → W32
  | .nan => nan32
  | .inf n => pack32 n 0x7F800000
  | .fin n m e => rnd32 n m e false

/-- A conversion to B16 and whether it counts as an overflow or an RTZ saturation (R77). -/
structure B16Out where
  bits : W16
  counted : Bool
  /-- the result is an infinity made here (an overflow, R77) -/
  overflow : Bool
  deriving DecidableEq, Repr

/-- Rounds an exact value to B16 (R77, R82). -/
def to16 (mode : Mode) : Val → B16Out
  | .nan => ⟨nan16, false, false⟩
  | .inf n => ⟨pack16 n 0x7F80, false, false⟩
  | .fin n m e =>
    -- max finite is 255·2^120
    if magLe m e 255 120 then
      let c := roundFloat mode 7 (-126) m e false
      ⟨pack16 n c, decide (0x7F80 ≤ c), decide (0x7F80 ≤ c)⟩
    else
      match mode with
      | .rtz => ⟨pack16 n 0x7F7F, true, false⟩
      | .sr .. => ⟨pack16 n 0x7F80, true, true⟩
      | .rne =>
        let c := roundFloat .rne 7 (-126) m e false
        ⟨pack16 n c, decide (0x7F80 ≤ c), decide (0x7F80 ≤ c)⟩

/-- F32 sum, difference, product, fused multiply-add, each rounded once (07 R167). -/
def fadd (a b : W32) : W32 := to32 (add (dec32 a) (dec32 b))
def fsub (a b : W32) : W32 := to32 (sub (dec32 a) (dec32 b))
def fmul (a b : W32) : W32 := to32 (mul (dec32 a) (dec32 b))
def ffma (a b c : W32) : W32 := to32 (add (mul (dec32 a) (dec32 b)) (dec32 c))

/-! ### Roots, quotients, transcendentals (07 R167) -/

/-- floor of the square root, by bits: `fuel` bits of root. -/
def isqrtGo (n : Nat) : Nat → Nat → Nat
  | 0, r => r
  | k + 1, r =>
    let t := r + 2 ^ k
    isqrtGo n k (if t * t ≤ n then t else r)

/-- floor √n. -/
def isqrt (n : Nat) : Nat := isqrtGo n (Nat.log2 n / 2 + 1) 0

/-- F32 quotient (07 Table 7.6 div). -/
def fdiv (a b : W32) : W32 :=
  match dec32 a, dec32 b with
  | .nan, _ => nan32
  | _, .nan => nan32
  | .inf _, .inf _ => nan32
  | .inf s, .fin t _ _ => pack32 (s != t) 0x7F800000
  | .fin s _ _, .inf t => pack32 (s != t) 0
  | .fin s m1 e1, .fin t m2 e2 =>
    if m2 = 0 then (if m1 = 0 then nan32 else pack32 (s != t) 0x7F800000)
    else
      let k := 64 + Nat.log2 m2
      let n := m1 * 2 ^ k
      rnd32 (s != t) (n / m2) (e1 - e2 - k) (n % m2 != 0)

/-- F32 square root. -/
def fsqrt (a : W32) : W32 :=
  match dec32 a with
  | .nan => nan32
  | .inf s => if s then nan32 else a
  | .fin s m e =>
    if m = 0 then a
    else if s then nan32
    else
      let m' := if e % 2 = 0 then m else 2 * m
      let e' := if e % 2 = 0 then e else e - 1
      let n := m' * 2 ^ 128
      let r := isqrt n
      rnd32 false r (e' / 2 - 64) (r * r != n)

/-- F32 reciprocal square root. -/
def frsqrt (a : W32) : W32 :=
  match dec32 a with
  | .nan => nan32
  | .inf s => if s then nan32 else 0
  | .fin s m e =>
    if m = 0 then pack32 false 0x7F800000
    else if s then nan32
    else
      let m' := if e % 2 = 0 then m else 2 * m
      let e' := if e % 2 = 0 then e else e - 1
      let n := 2 ^ 256 / m'
      let r := isqrt n
      rnd32 false r (-(e' / 2) - 128) (r * r * m' != 2 ^ 256)

/-- Fraction bits of the fixed-point work behind exp2 and log2. -/
def fxBits : Nat := 512

/-- The product over the set bits of f (msb first, `n` left) of 2^(2^−i), in fixed point; `c` is the last constant. -/
def exp2Go (f : Nat) : Nat → Nat → Nat → Nat
  | 0, _, acc => acc
  | n + 1, c, acc =>
    let c' := isqrt (c * 2 ^ fxBits)
    exp2Go f n c' (if f.testBit n then acc * c' / 2 ^ fxBits else acc)

/-- 2^a, exactly rounded: an integer power is exact, any other is irrational and carries the sticky bit. -/
def fexp2 (a : W32) : W32 :=
  match dec32 a with
  | .nan => nan32
  | .inf s => if s then 0 else pack32 false 0x7F800000
  | .fin s m e =>
    if m = 0 then 0x3F800000
    else if 10 ≤ floorLog2 m e then (if s then 0 else pack32 false 0x7F800000)
    else
      let fb : Nat := 160
      let x := scaled s m e (-(fb : Int))
      let i := x.fdiv (2 ^ fb)
      let f := (x - i * 2 ^ fb).toNat
      if f = 0 then rnd32 false 1 i false
      else rnd32 false (exp2Go f fb (2 * 2 ^ fxBits) (2 ^ fxBits)) (i - fxBits) true

/-- Binary digits of log2 of the mantissa x ∈ [1, 2), by repeated squaring. -/
def log2Go : Nat → Nat → Nat → Nat
  | 0, _, acc => acc
  | n + 1, x, acc =>
    let y := x * x / 2 ^ fxBits
    if 2 * 2 ^ fxBits ≤ y then log2Go n (y / 2) (2 * acc + 1) else log2Go n y (2 * acc)

/-- log2 a, exactly rounded. -/
def flog2 (a : W32) : W32 :=
  match dec32 a with
  | .nan => nan32
  | .inf s => if s then nan32 else a
  | .fin s m e =>
    if m = 0 then pack32 true 0x7F800000
    else if s then nan32
    else
      let p := Nat.log2 m
      let k := (p : Int) + e
      if m = 2 ^ p then to32 (ofInt false k 0)
      else
        let fb : Nat := 160
        let frac := log2Go fb (m * 2 ^ fxBits / 2 ^ p) 0
        if 0 ≤ k then rnd32 false (k.toNat * 2 ^ fb + frac) (-(fb : Int)) true
        else rnd32 true ((-k).toNat * 2 ^ fb - frac - 1) (-(fb : Int)) true

/-- rint (07 Table 7.6): rounds to an integer value; MOD 0 RNE, 1 toward zero, 2 toward minus infinity. -/
def frint (mod : Nat) (a : W32) : W32 :=
  match dec32 a with
  | .nan => nan32
  | .inf _ => a
  | .fin s m e =>
    let (i, rem, sh) := splitAt m e 0
    let up :=
      if mod = 0 then roundUp .rne (i % 2 == 1) rem sh false
      else if mod = 2 then s && decide (0 < rem)
      else false
    to32 (.fin s (if up then i + 1 else i) 0)

/-- min and max (R167): NaN if either is NaN; −0 is below +0. -/
def fmin (a b : W32) : W32 :=
  let x := dec32 a
  let y := dec32 b
  if isNan x || isNan y then nan32
  else if lt x y then a
  else if lt y x then b
  else if a.msb then a else b

def fmax (a b : W32) : W32 :=
  let x := dec32 a
  let y := dec32 b
  if isNan x || isNan y then nan32
  else if lt x y then b
  else if lt y x then a
  else if a.msb then b else a

def fabs (a : W32) : W32 := to32 (abs (dec32 a))
def fneg (a : W32) : W32 := to32 (neg (dec32 a))

/-- scl: a × 2^imm. -/
def fscl (a : W32) (imm : Int) : W32 := to32 (scale imm (dec32 a))

/-- cmp (R167): MOD 0 eq, 1 lt, 2 le, 3 ne. -/
def fcmp (mod : Nat) (a b : W32) : W32 :=
  let x := dec32 a
  let y := dec32 b
  let r :=
    match mod with
    | 0 => eq x y
    | 1 => lt x y
    | 2 => lt x y || eq x y
    | _ => !eq x y
  if r then 0x3F800000 else 0

/-- sel: b unless a is ±0. -/
def fsel (a b c : W32) : W32 := if isZero (dec32 a) then c else b

/-! ### The normal transform (08 R199) -/

/-- Fraction bits of the work behind rndn. -/
def phBits : Nat := 320

/-- arctan (1/k) by its series, in fixed point. -/
def atanGo (k : Nat) : Nat → Nat → Nat → Int → Int
  | 0, _, _, acc => acc
  | n + 1, i, p, acc =>
    let term : Int := (p / (2 * i + 1) : Nat)
    atanGo k n (i + 1) (p / (k * k)) (if i % 2 = 0 then acc + term else acc - term)

/-- π·2^phBits by Machin's formula. -/
def piFx : Int := 16 * atanGo 5 160 0 (2 ^ phBits / 5) 0 - 4 * atanGo 239 60 0 (2 ^ phBits / 239) 0

/-- √(2π)·2^phBits. -/
def sqrt2piFx : Nat := isqrt ((2 * piFx).toNat * 2 ^ phBits)

/-- Σ (−1)^k y^(2k+1) / (k!·2^k·(2k+1)) in fixed point: √(2π)·(Φ(y) − 1/2). `t` is y^(2k+1)/(k!·2^k). -/
def phiGo (y2 : Nat) : Nat → Nat → Nat → Int → Int
  | 0, _, _, acc => acc
  | n + 1, k, t, acc =>
    let term : Int := (t / (2 * k + 1) : Nat)
    phiGo y2 n (k + 1) (t * y2 / 2 ^ phBits / (2 * (k + 1))) (if k % 2 = 0 then acc + term else acc - term)

/-- √(2π)·(Φ(y) − 1/2)·2^phBits for y = m·2^e ≥ 0. -/
def phiFx (m : Nat) (e : Int) : Int :=
  let y := (splitAt m e (-(phBits : Int))).1
  phiGo (y * y / 2 ^ phBits) 260 0 y 0

/-- The greatest F32 code whose value y has √(2π)(Φ(y) − 1/2) ≤ target, by bits. -/
def phiSearch (target : Int) : Nat → Nat → Nat
  | 0, c => c
  | k + 1, c =>
    let c' := c + 2 ^ k
    let ok :=
      if 0x40D00000 < c' then false
      else
        match decodeFloat false 23 (-126) c' with
        | .fin _ m e => decide (phiFx m e ≤ target)
        | _ => false
    phiSearch target k (if ok then c' else c)

/-- rne(Φ⁻¹((w + 0.5)·2^−32)) (R199): the odd symmetry halves the range; the comparison at the midpoint rounds. -/
def normal (w : Nat) : W32 :=
  let neg := decide (w < 2 ^ 31)
  let u := if neg then 2 ^ 32 - 1 - w else w
  -- Φ(y) − 1/2 = (2u + 1 − 2^32)·2^−33
  let target : Int := ((2 * u + 1 - 2 ^ 32) * sqrt2piFx / 2 ^ 33 : Nat)
  let c := phiSearch target 31 0
  -- midpoint of codes c and c + 1: one more mantissa bit
  let up :=
    match decodeFloat false 24 (-126) (2 * c + 1) with
    | .fin _ m e => decide (phiFx m e ≤ target)
    | _ => false
  pack32 neg (if up then c + 1 else c)

end Num
end Sys2Proof.Machine
end

