-- ==== Sys2Proof/Machine/Formats.lean ====
section
/-!
DEFINITION. Element formats and two-level block scales (03 R56 to R77): decoding, quantising one magnitude, packing,
and freezing one superblock with its counts.
-/
namespace Sys2Proof.Machine

open Sys2Proof

/-- Element formats (03 Table 3.1). -/
inductive Fmt where
  | f32 | b16 | f8a | f8b | f6a | f6b | f4 | i8 | i4 | i2t | i2s
  | mx8a | mx8b | mx6a | mx6b | mx4 | mxi8
  deriving DecidableEq, Repr

namespace Fmt

/-- The format a code names; `none` for a reserved code (R56). -/
def ofCode : Nat → Option Fmt
  | 0x00 => some .f32
  | 0x01 => some .b16
  | 0x02 => some .f8a
  | 0x03 => some .f8b
  | 0x04 => some .f6a
  | 0x05 => some .f6b
  | 0x06 => some .f4
  | 0x07 => some .i8
  | 0x08 => some .i4
  | 0x09 => some .i2t
  | 0x0A => some .i2s
  | 0x10 => some .mx8a
  | 0x11 => some .mx8b
  | 0x12 => some .mx6a
  | 0x13 => some .mx6b
  | 0x14 => some .mx4
  | 0x15 => some .mxi8
  | _ => none

/-- The code of a format (Table 3.1). -/
def code : Fmt → Nat
  | .f32 => 0x00
  | .b16 => 0x01
  | .f8a => 0x02
  | .f8b => 0x03
  | .f6a => 0x04
  | .f6b => 0x05
  | .f4 => 0x06
  | .i8 => 0x07
  | .i4 => 0x08
  | .i2t => 0x09
  | .i2s => 0x0A
  | .mx8a => 0x10
  | .mx8b => 0x11
  | .mx6a => 0x12
  | .mx6b => 0x13
  | .mx4 => 0x14
  | .mxi8 => 0x15

def isMx : Fmt → Bool
  | .mx8a | .mx8b | .mx6a | .mx6b | .mx4 | .mxi8 => true
  | _ => false

def isWide : Fmt → Bool
  | .f32 | .b16 => true
  | _ => false

/-- A native narrow format, carrying two-level scales. -/
def isNarrow (f : Fmt) : Bool := !f.isWide && !f.isMx

/-- The native format with the same elements (R73). -/
def elem : Fmt → Fmt
  | .mx8a => .f8a
  | .mx8b => .f8b
  | .mx6a => .f6a
  | .mx6b => .f6b
  | .mx4 => .f4
  | .mxi8 => .i8
  | f => f

/-- Width in bits. -/
def width (f : Fmt) : Nat :=
  match f.elem with
  | .f32 => 32
  | .b16 => 16
  | .f8a | .f8b | .i8 => 8
  | .f6a | .f6b => 6
  | .f4 | .i4 => 4
  | _ => 2

/-- Mantissa bits and least normal exponent of the narrow float formats (Table 3.2). -/
def floatParams : Fmt → Option (Nat × Int)
  | .f4 => some (1, 0)
  | .f6a => some (2, -2)
  | .f6b => some (3, 0)
  | .f8a => some (3, -6)
  | .f8b => some (2, -14)
  | _ => none

/-- The largest finite magnitude as m·2^e (Tables 3.2, 3.3). -/
def maxFinite : Fmt → Nat × Int
  | .f4 => (3, 1)
  | .f6a => (7, 2)
  | .f6b => (15, -1)
  | .f8a => (7, 6)
  | .f8b => (7, 13)
  | .i8 => (127, 0)
  | .i4 => (7, 0)
  | .i2t => (1, 0)
  | .i2s => (3, -1)
  | _ => (0, 0)

/-- emax and 128·smax (Table 3.7). -/
def topBinade : Fmt → Int × Nat
  | .f4 => (2, 192)
  | .f6a => (4, 224)
  | .f6b => (2, 240)
  | .f8a => (8, 224)
  | .f8b => (15, 224)
  | .i8 => (6, 254)
  | .i4 => (2, 224)
  | .i2t => (0, 128)
  | .i2s => (0, 192)
  | _ => (0, 0)

/-- Two's complement of w bits read as an integer. -/
def signed (w v : Nat) : Int := if v < 2 ^ (w - 1) then v else (v : Int) - 2 ^ w

/-- The value of an element's bits, without its block scale (R57, R58, Tables 3.2, 3.3). F8a NaN and F8b infinity
and NaN encodings give a non-finite value, which poisons the block (R64). -/
def decodeElem (f : Fmt) (bits : Nat) : Val :=
  match f.elem with
  | .i8 => Num.ofInt false (signed 8 (bits % 256)) 0
  | .i4 => Num.ofInt false (signed 4 (bits % 16)) 0
  | .i2t =>
    match bits % 4 with
    | 1 => .fin false 1 0
    | 3 => .fin true 1 0
    | _ => .fin false 0 0
  | .i2s => .fin (decide (2 ≤ bits % 4)) (if bits % 2 = 1 then 3 else 1) (-1)
  | g =>
    match g.floatParams with
    | none => .fin false 0 0
    | some (mb, emin) =>
      let w := g.width
      let neg := decide (2 ^ (w - 1) ≤ bits % 2 ^ w)
      let c := bits % 2 ^ (w - 1)
      if g = .f8a && c == 0x7F then .nan
      else if g = .f8b && c == 0x7C then .inf neg
      else if g = .f8b && decide (0x7C < c) then .nan
      else Num.decodeFloat neg mb emin c

/-- One quantised element: its bits and whether it saturated (R61). -/
structure Quant where
  bits : Nat
  sat : Bool
  deriving DecidableEq, Repr

/-- Bits of ±code in a narrow format; +0 for a zero (R62), except I2S, which has no zero (R59). -/
def pack (f : Fmt) (neg : Bool) (code : Nat) : Nat :=
  match f with
  | .i2s => (if neg then 2 else 0) + code
  | .i2t => if code = 0 then 0 else if neg then 3 else 1
  | .i8 => if neg && code != 0 then 256 - code else code
  | .i4 => if neg && code != 0 then 16 - code else code
  | _ => if neg && code != 0 then 2 ^ (f.width - 1) + code else code

/-- The code of the largest finite magnitude. -/
def maxCode : Fmt → Nat
  | .f4 => 7
  | .f6a => 31
  | .f6b => 31
  | .f8a => 0x7E
  | .f8b => 0x7B
  | .i8 => 127
  | .i4 => 7
  | .i2t => 1
  | .i2s => 1
  | _ => 0

/-- Quantises ±m·2^e, already divided by its block scale, to a narrow format (R59, R61, R62, R75, R76). -/
def quant (f : Fmt) (mode : Num.Mode) (neg : Bool) (m : Nat) (e : Int) : Quant :=
  let (mm, me) := f.maxFinite
  if !Num.magLe m e mm me then ⟨f.pack neg f.maxCode, true⟩
  else
    match f with
    | .i2s =>
      if m = 0 then ⟨0, false⟩
      else if Num.magLe m e 1 (-1) then ⟨f.pack neg 0, false⟩
      else
        -- magnitude − 1/2 on the unit grid
        let e' := min e (-1)
        let d := m * 2 ^ (e - e').toNat - 2 ^ (-1 - e').toNat
        let (i, rem, sh) := Num.splitAt d e' 0
        ⟨f.pack neg (if Num.roundUp mode (i % 2 == 1) rem sh false then i + 1 else i), false⟩
    | _ =>
      match f.floatParams with
      | some (mb, emin) => ⟨f.pack neg (Num.roundFloat mode mb emin m e false), false⟩
      | none =>
        let (i, rem, sh) := Num.splitAt m e 0
        ⟨f.pack neg (if Num.roundUp mode (i % 2 == 1) rem sh false then i + 1 else i), false⟩

/-- Whether an element's bits are a zero; never for I2S. -/
def isZeroBits (f : Fmt) (bits : Nat) : Bool := Num.isZero (f.decodeElem bits)

end Fmt

/-! ### Packing of element bits (R60) -/

/-- Packs elements of w bits, the first in the low bits, into bytes. -/
def packBits (w : Nat) (xs : List Nat) : Nat := xs.foldr (fun x acc => x % 2 ^ w + 2 ^ w * acc) 0

/-- n bytes of a number, little-endian (00 R8). -/
def toBytes : Nat → Nat → List Byte
  | 0, _ => []
  | n + 1, v => BitVec.ofNat 8 v :: toBytes n (v / 256)

/-- A little-endian number (00 R8). -/
def ofBytes : List Byte → Nat
  | [] => 0
  | b :: bs => b.toNat + 256 * ofBytes bs

/-- Bytes of a packed sequence of w-bit elements. -/
def packElems (w : Nat) (xs : List Nat) : List Byte := toBytes ((xs.length * w + 7) / 8) (packBits w xs)

/-- The n w-bit elements packed in bytes. -/
def unpackGo (w : Nat) : Nat → Nat → List Nat
  | 0, _ => []
  | n + 1, v => v % 2 ^ w :: unpackGo w n (v / 2 ^ w)

def unpackElems (w n : Nat) (bs : List Byte) : List Nat := unpackGo w n (ofBytes bs)

/-! ### Superblocks -/

/-- Half-lines (BS16) or lines of a superblock. -/
def splitBlocks {α : Type} (bs16 : Bool) (lines : List (List α)) : List (List α) :=
  if bs16 then lines.flatMap (fun l => [l.take 16, l.drop 16]) else lines

/-- Lines of a superblock from its blocks. -/
def joinBlocks {α : Type} (bs16 : Bool) : List (List α) → List (List α)
  | a :: b :: rest => if bs16 then (a ++ b) :: joinBlocks bs16 rest else a :: b :: joinBlocks bs16 rest
  | l => l

/-- A superblock as stored: E, block codes, element bits by line (R68, R69). For an MX format `codes` holds the 32
E8M0 bytes and E is unused; for a wide format only `elems` is used. -/
structure Sb where
  exp : Nat := 0
  codes : List Nat := []
  elems : List (List Nat) := []
  deriving DecidableEq, Repr

/-- How one block of a superblock was written, and what it counts. -/
structure BlkOut where
  code : Nat
  bits : List Nat
  poison : Bool := false
  clamp : Bool := false
  zblk : Bool := false
  sats : Nat := 0
  /-- the elements that saturated -/
  satAt : List Bool := []
  sblk : Bool := false
  live : Bool := false
  /-- biased ideal exponent of a live block (R143) -/
  ideal : Nat := 0
  /-- nonzero source elements, and those written as zero (R131) -/
  nz : Nat := 0
  uflow : Nat := 0
  /-- exact sum of squares of the finite written values (R150) -/
  sq : Val := Num.zero
  deriving DecidableEq, Repr

/-- The largest magnitude of a block as an exact value; zero if none. -/
def amax (xs : List Val) : Val :=
  xs.foldl (fun a v => let m := Num.abs v; if Num.lt a m then m else a) Num.zero

/-- block_exp of R71: the exponent of the finest power-of-two scale under which amax is in range. -/
def blockExp (f : Fmt) (a : Val) : Int :=
  match a with
  | .fin _ m e =>
    let fl := Num.floorLog2 m e
    let (emax, smax) := f.topBinade
    -- a / 2^fl ≤ smax / 128
    if Num.magLe m (e - fl) smax (-7) then fl - emax else fl - emax + 1
  | _ => 0

/-- Clamps an integer to lo..hi. -/
def clampI (lo hi x : Int) : Int := max lo (min hi x)

/-- Sum of exact values. -/
def sumVals (xs : List Val) : Val := xs.foldl Num.add Num.zero

/-- The random word of each element of a block, or none where no word is drawn. -/
abbrev Words := List Nat

/-- The rounding of one element from RCTL's mode and its word. -/
def modeWith (m : Num.Mode) (w : Nat) : Num.Mode :=
  match m with
  | .sr n _ => .sr n w
  | m => m

/-- The decoded value of written bits under a code and exponent (R68). -/
def scaledElem (f : Fmt) (E : Nat) (c : Nat) (bits : Nat) : Val :=
  Num.scale ((E : Int) - 127 - c) (f.decodeElem bits)

/-- Quantises one block whose code is 0x0 to 0xD; `xs` holds values, `none` at padding (R61, R70, R71). -/
def quantBlock (f : Fmt) (mode : Num.Mode) (E c : Nat) (xs : List (Option Val)) (ws : Words) : BlkOut :=
  let qs : List (Option (Fmt.Quant × Bool)) := (xs.zip (ws ++ List.replicate xs.length 0)).map fun (x, w) =>
    match x with
    | some (.fin n m e) =>
      some (f.quant (modeWith mode w) n m (e - ((E : Int) - 127 - c)), m == 0)
    | _ => none
  let bits := qs.map fun q => match q with | some (r, _) => r.bits | none => 0
  let present := qs.filterMap id
  let allZero := present.all fun p => f.isZeroBits p.1.bits
  let sats := (present.filter fun p => p.1.sat).length
  let nzs := present.filter fun p => !p.2
  { code := if allZero then 0xF else c
    bits := if allZero then bits.map (fun _ => 0) else bits
    zblk := allZero
    sats := sats
    satAt := qs.map fun q => match q with | some (x, _) => x.sat | none => false
    sblk := !nzs.isEmpty && nzs.all (fun p => p.1.sat)
    live := true
    nz := nzs.length
    uflow := (nzs.filter fun p => f.isZeroBits p.1.bits).length
    sq := if allZero then Num.zero
      else sumVals (present.map fun p => let v := scaledElem f E c p.1.bits; Num.mul v v) }

/-- A frozen superblock and its blocks' accounts. -/
structure FrozenSb where
  exp : Nat
  blks : List BlkOut
  deriving DecidableEq, Repr

/-- Freezes the blocks of one superblock (R63, R70, R71, R143). `tx b` is the tracked biased exponent of block b, 0
where the entry is not live or scales are current. -/
def freezeBlocks (f : Fmt) (mode : Num.Mode) (tx : Nat → Nat) (blks : List (List (Option Val)))
    (words : Nat → Words) : FrozenSb :=
  let info := blks.zipIdx.map fun (xs, b) =>
    let vs := xs.filterMap id
    let poison := vs.any Num.nonFinite
    let am := amax vs
    let zero := !poison && Num.isZero am
    let ideal := blockExp f am
    let x : Int := if 1 ≤ tx b && tx b ≤ 254 then (tx b : Int) - 127 else ideal
    (xs, b, poison, zero, x, ideal)
  let tops := info.filterMap fun (_, _, poison, zero, x, _) => if poison || zero then none else some x
  let E : Nat :=
    match tops with
    | [] => 0
    | t :: ts => (clampI 0 254 (ts.foldl max t + 127)).toNat
  { exp := E
    blks := info.map fun (xs, b, poison, zero, x, ideal) =>
      if poison then
        { code := 0xE, bits := xs.map (fun _ => 0), poison := true }
      else if zero then
        { code := 0xF, bits := xs.map (fun _ => 0) }
      else
        let d := max 0 ((E : Int) - 127 - x)
        let c := (min 13 d).toNat
        let q := quantBlock f mode E c xs (words b)
        { q with clamp := decide (13 < d), ideal := (clampI 1 254 (ideal + 127)).toNat } }

/-- The superblock as stored. -/
def FrozenSb.sb (z : FrozenSb) (bs16 : Bool) : Sb :=
  { exp := z.exp, codes := z.blks.map (·.code), elems := joinBlocks bs16 (z.blks.map (·.bits)) }

/-! ### Reading (R64, R66, R68, R72) -/

/-- The value of each element of a native or MX block under its code (or E8M0 byte); `valid` marks the valid
positions, which alone can poison. -/
def readBlock (f : Fmt) (E code : Nat) (bits : List Nat) (valid : List Bool) : List Val × Bool :=
  let raw := bits.map f.decodeElem
  let bad := (raw.zip valid).any fun (v, ok) => ok && Num.nonFinite v
  if f.isMx then
    if code = 0xFF || bad then (bits.map (fun _ => Val.nan), true)
    else
      let off : Int := if f = .mxi8 then 6 else 0
      (raw.map (Num.scale ((code : Int) - 127 - off)), false)
  else if E = 0xFF then (bits.map (fun _ => Val.nan), true)
  else if code = 0xE then (bits.map (fun _ => Val.nan), true)
  else if code = 0xF then (bits.map (fun _ => Num.zero), false)
  else if bad then (bits.map (fun _ => Val.nan), true)
  else (raw.map (Num.scale ((E : Int) - 127 - code)), false)

/-! ### MX conversions (R73, R74) -/

/-- Element bits with zero at padding (R70). -/
def maskBits (bits : List Nat) (ok : List Bool) : List Nat :=
  (bits.zip ok).map fun p => if p.2 then p.1 else 0

/-- MX to native (R73). A block re-rounded at code 13 whose elements all become zero is a zero block, code 0xF, and counts as
one rounded to zero, as R71 has it (log 104). Elements keep their bits where the code is 13 or less: an MXINT8 element 0x80 stays 0x80, which R58
would not have written (R73 step 3 preferred: the model's choice, log 104). -/
def mxToNative (f : Fmt) (mode : Num.Mode) (sb : Sb) (valid : List (List Bool)) (words : Nat → Words) : FrozenSb :=
  let off : Int := if f = .mxi8 then 6 else 0
  let g := f.elem
  let info := (sb.elems.zip (sb.codes.zip valid)).zipIdx.map fun ((bits, X, ok), b) =>
    let raw := bits.map f.decodeElem
    let poison := X == 0xFF || (raw.zip ok).any (fun (v, o) => o && Num.nonFinite v)
    let kept := maskBits bits ok
    let zero := !poison && kept.all (fun x => g.isZeroBits x)
    (kept, ok, b, (X : Int) - 127 - off, poison && ok.any id, zero || !(ok.any id))
  let live := info.filterMap fun (_, _, _, x, p, z) => if p || z then none else some x
  let E : Nat :=
    match live with
    | [] => 0
    | t :: ts => (clampI 0 254 (ts.foldl max t + 127)).toNat
  { exp := E
    blks := info.map fun (bits, ok, b, x, p, z) =>
      if p then { code := 0xE, bits := bits.map (fun _ => 0), poison := true }
      else if z then { code := 0xF, bits := bits.map (fun _ => 0) }
      else
        let d := (E : Int) - 127 - x
        if d ≤ 13 then
          let c := d.toNat
          { code := c, bits := bits, live := true
            nz := (bits.filter fun v => !g.isZeroBits v).length
            sq := sumVals (bits.map fun v => let q := scaledElem g E c v; Num.mul q q) }
        else
          let vals := (bits.zip ok).map fun (v, o) => if o then some (Num.scale x (g.decodeElem v)) else none
          let q := quantBlock g mode E 13 vals (words b)
          { q with clamp := true } }

/-- Native to MX (R74): one E8M0 byte per line. -/
def nativeToMx (f : Fmt) (mode : Num.Mode) (bs16 : Bool) (sb : Sb) (valid : List (List Bool)) (words : Nat → Words) :
    List BlkOut :=
  let g := f.elem
  let off : Int := if f = .mxi8 then 6 else 0
  let blocks := splitBlocks bs16 sb.elems
  let oks := splitBlocks bs16 valid
  let bl := (blocks.zip (sb.codes.zip oks)).map fun (bits, c, ok) =>
    let bad := (bits.zip ok).any fun (v, o) => o && Num.nonFinite (g.decodeElem v)
    let c := if !ok.any id then 0xF else if sb.exp = 0xFF then 0xE else if c < 0xE && bad then 0xE else c
    (maskBits bits ok, c, ok)
  let lines := if bs16 then
      (List.range 32).map fun l => (bl.getD (2 * l) ([], 0xF, []), bl[2 * l + 1]?)
    else bl.map fun b => (b, none)
  lines.zipIdx.map fun ((b0, b1?), l) =>
    let parts := b0 :: b1?.toList
    let allBits := parts.flatMap (·.1)
    if parts.any (fun p => p.2.1 == 0xE) then
      { code := 0xFF, bits := allBits.map (fun _ => 0), poison := true }
    else
      match parts.filter (fun p => p.2.1 != 0xF) with
      | [] => { code := 0x00, bits := allBits.map (fun _ => 0) }
      | q :: qs =>
        let c := qs.foldl (fun a p => min a p.2.1) q.2.1
        let want := (sb.exp : Int) - c + off
        let X := clampI 0 254 want
        -- the scale the elements stand against: 2^(X − 127 − off) = 2^(E' − 127 − 0)
        let E' := X - off
        let redo (p : List Nat × Nat × List Bool) (o : Nat) : List Fmt.Quant :=
          let ws := ((words l).drop o) ++ List.replicate 32 0
          (p.1.zip (p.2.2.zip ws)).map fun (v, k, w) =>
            if p.2.1 = 0xF || !k then ⟨0, false⟩
            else
              match Num.scale ((sb.exp : Int) - p.2.1 - E') (g.decodeElem v) with
              | .fin n m e => g.quant (modeWith mode w) n m e
              | _ => ⟨0, false⟩
        let step (acc : List Nat × Nat × List Bool × Bool) (p : List Nat × Nat × List Bool) :
            List Nat × Nat × List Bool × Bool :=
          let (bits, o, sats, ch) := acc
          if want = X && (p.2.1 = c || p.2.1 = 0xF) then
            (bits ++ (if p.2.1 = 0xF then p.1.map (fun _ => 0) else p.1), o + p.1.length,
              sats ++ p.1.map (fun _ => false), ch)
          else
            let qs := redo p o
            let nb := qs.map (·.bits)
            let changed := (nb.zip (p.1.zip p.2.2)).any fun (a, v, k) =>
              k && !Num.eq (g.decodeElem a |> Num.scale E') (g.decodeElem v |> Num.scale ((sb.exp : Int) - p.2.1))
            (bits ++ nb, o + p.1.length, sats ++ qs.map (·.sat), ch || changed)
        let (bits, _, sats, changed) := parts.foldl step ([], 0, [], false)
        -- nonzero valid source elements of live blocks
        let src := parts.flatMap fun p => p.1.map fun v => p.2.1 != 0xF && !g.isZeroBits v
        { code := X.toNat, bits := bits, sats := (sats.filter id).length, satAt := sats, live := true
          clamp := decide (want ≠ X) || changed
          zblk := bits.all g.isZeroBits
          sblk := src.any id && (src.zip sats).all fun p => !p.1 || p.2
          nz := (bits.filter fun v => !g.isZeroBits v).length
          sq := sumVals (bits.map fun v => let q := Num.scale (X - 127 - off) (g.decodeElem v); Num.mul q q) }

/-- One block of a freeze to an MX format (06 R139): the account of the native block k and of its conversion m, over the
source elements xs. An element saturates in either, a block is clamped once whichever clamps it (log 104), and what is
written as zero is told from the end. -/
def mxBlock (f : Fmt) (k m : BlkOut) (xs : List (Option Val)) : BlkOut :=
  let satAt := (k.satAt.zip (m.satAt ++ List.replicate k.satAt.length false)).map fun p => p.1 || p.2
  let nz := xs.map fun x => match x with | some v => !Num.nonFinite v && !Num.isZero v | none => false
  { m with
    poison := k.poison, clamp := k.clamp || m.clamp, zblk := k.zblk || (k.live && m.bits.all f.elem.isZeroBits)
    sats := (satAt.filter id).length, satAt := satAt
    sblk := k.live && nz.any id && (nz.zip satAt).all fun p => !p.1 || p.2
    live := k.live, ideal := k.ideal, nz := k.nz
    uflow := if k.live then ((nz.zip m.bits).filter fun p => p.1 && f.elem.isZeroBits p.2).length else 0 }

end Sys2Proof.Machine
end

