-- ==== Sys2Proof/Machine/State.lean ====
section
/-!
DEFINITION. The state of one SX8 module as plain data, its faults and refusals, and the state after reset.
INVENTORY.md '## State' lists every field with the rule that names it and its reset value.
Field defaults are the reset values; a default that the spec does not give is named in the assumption log.
-/
namespace Sys2Proof.Machine

open Sys2Proof

/-- Sparse memory: (address, byte) pairs, addresses rising, no listed byte equal to what an unlisted one reads as. -/
abbrev Mem := List Host.Cell

/-- Reasons a step stops with a fault: none. The block ends commands with a status and has no fault of its own; an
event whose occasion is absent changes nothing (log 2). -/
inductive Fault where
  deriving DecidableEq, Repr

/-- Reasons a step has no meaning. -/
inductive Refusal where
  /-- Raised by exec for a row that has no meaning yet, by name. Safe. -/
  | notModelled (mnemonic : String)
  deriving DecidableEq, Repr

/-! ### Queues and commands (02) -/

/-- A command, its 64 bytes split into fields (02 Table 2.2). -/
structure Command where
  opc : Byte := 0
  cpl : Bool := false
  irq : Bool := false
  waiten : Bool := false
  sigen : Bool := false
  strict : Bool := false
  split : BitVec 2 := 0
  floe : W16 := 0
  wsem : SemIdx := 0
  ssem : SemIdx := 0
  tag : W16 := 0
  wval : W32 := 0
  sinc : W16 := 0
  a0 : W64 := 0
  a1 : W64 := 0
  a2 : W64 := 0
  a3 : W64 := 0
  a4 : W64 := 0
  a5 : W64 := 0
  deriving DecidableEq, Repr

/-- How a command ended (02 Table 2.5): STATUS, DETAIL, INFO, NMEV, MEMBER. -/
structure Result where
  status : Byte := 0
  detail : W16 := 0
  info : W64 := 0
  nmev : Bool := false
  member : W32 := 0
  deriving DecidableEq, Repr

/-- Who waits for a share: nobody, or a floe command of this channel, or one of another channel (02 R51). -/
inductive FloeOwner where
  | here (id : Nat)
  | away (chan : ChanId) (id : Nat)
  /-- a command that Adori issued itself (09 R217): no record tells of it -/
  | adori
  deriving DecidableEq, Repr

/-- A member's share of a floe command: the owner and member index it answers to. -/
structure ShareRef where
  owner : FloeOwner
  member : Nat
  deriving DecidableEq, Repr

/-- A share on a dispatch input (02 R29): the command, its block range along the split axis (01 R13), the owner. -/
structure Share where
  cmd : Command
  blocks : Option (Nat × Nat) := none
  /-- extent of the split axis at the dispatcher (01 R13) -/
  extent : Option Nat := none
  ref : ShareRef
  /-- the floe identifier named on this channel, for a share at the dispatcher's input -/
  floe : W16 := 0
  /-- level of the floe whose member this is (01 R10) -/
  level : Nat := 0
  deriving DecidableEq, Repr

/-- Units of the array engine (01 Table 1.6). -/
inductive ArrUnit where
  | rime | firnA | firnB | rotator | fz0 | fz1a | fz1b | thaw
  deriving DecidableEq, Repr

/-- A command that an engine has started (02 R29). `result` is set when its row has run. -/
structure Running where
  src : Src
  seq : W32 := 0
  cmd : Command
  share : Option Share := none
  /-- NMON_STEP when the command started (06 R149, 08 R197) -/
  step : W32 := 0
  /-- VER of training when it started (15 R340) -/
  stpVer : W32 := 0
  /-- the descriptors it names, as they were when it started: address and bytes (11 R247) -/
  copies : List (Nat × List Byte) := []
  /-- the array units it holds until it completes (06 R135) -/
  units : List ArrUnit := []
  result : Option Result := none
  /-- the result it will have once its banks are handed over (04 R94) or its messages are acknowledged -/
  held : Option Result := none
  /-- walk position at which a chain began (07), once it has begun -/
  begun : Option Nat := none
  /-- bytes a transfer has moved so far (12 R286) -/
  moved : Nat := 0
  /-- moves done within the step or the bytes read of the message at which a transfer halted (12 R286) -/
  part : Nat := 0
  staged : List (Nat × List Byte) := []
  /-- entries of its block-coordinate list, read before its first write (11 R263) -/
  entries : Option (List (Nat × Nat × Nat)) := none
  /-- POS of a transfer halted on a page (12 R286) and the address -/
  halted : Option (Nat × Nat) := none
  /-- the transfer met a page halt at least once (12 Table 12.3) -/
  haltedOnce : Bool := false
  /-- stream-context slots the command reads (12 R278): context and slot -/
  slots : List (Nat × Nat) := []
  /-- the slots have been checked (12 R278) -/
  checked : Bool := false
  /-- messages sent and not yet acknowledged (14 R317) -/
  unacked : Nat := 0
  /-- the number of a st.put at its channel -/
  putId : Nat := 0
  /-- what a fl.define installs when it completes (02 R50): identifier and 32-byte entry -/
  defines : Option (Nat × List Byte) := none
  deriving DecidableEq, Repr

/-- A completion record that waits for its slot (02 R44). -/
structure Record where
  seq : W32
  tag : W16
  res : Result
  floe : Bool
  warn : Bool
  irq : Bool
  time : W64
  deriving DecidableEq, Repr

/-- A queue block (02 Table 2.12). -/
structure Queue where
  base : Addr := 0
  log2 : BitVec 5 := 6
  pi : W32 := 0
  ci : W32 := 0
  cplAddr : W64 := 0
  cplLoc : Bool := false
  cplLog2 : BitVec 5 := 6
  cplPi : W32 := 0
  cplCi : W32 := 0
  irqv : BitVec 6 := 0
  enable : Bool := false
  ciBad : Bool := false
  piOver : Bool := false
  piBack : Bool := false
  ringBad : Bool := false
  stopped : Bool := false
  frozen : Bool := false
  /-- the head command waits on its semaphore (02 R31) -/
  semWait : Bool := false
  /-- descriptors that Esker has read for the head command while it waits (12 R270) -/
  early : List (Nat × List Byte) := []
  /-- below this index a queued ab.* command ends with status 0x1A in its turn (09 R217) -/
  abTo : Option W32 := none
  /-- the same for cf.* commands at a rollback (15 R350) -/
  cfTo : Option W32 := none
  /-- the last transfer of a st.put within this channel with MERGE, that the next one's first run may be merged with (12 R271) -/
  tail : Option (Nat × Nat) := none
  /-- ENABLE was cleared while work ran (02 R43) -/
  draining : Bool := false
  faultSeq : W32 := 0
  /-- records of finished commands not yet written, oldest first (02 R44) -/
  waiting : List Record := []
  deriving DecidableEq, Repr

/-- A member of a floe: the channel and the floe identifier there (02 R48). -/
structure Member where
  chan : ChanId
  floe : W16
  deriving DecidableEq, Repr

/-- One member's part of a running floe command. -/
structure MemberState where
  member : Member
  blocks : Option (Nat × Nat) := none
  delivered : Bool := false
  /-- shares this member fans out to on this channel (an ab.* command goes to several engines) -/
  owed : Nat := 0
  result : Option Result := none
  deriving DecidableEq, Repr

/-- A floe command in progress at a dispatcher (01 R15, 02 R50). -/
structure FloeRun where
  id : Nat
  src : Src
  seq : W32
  cmd : Command
  level : Nat
  members : List MemberState
  extent : Option Nat := none
  parent : Option ShareRef := none
  deriving DecidableEq, Repr

/-! ### Numeric monitor and converters (06) -/

/-- Registers of Table 6.11. -/
structure Nmon where
  step : W32 := 0
  lstBase : Addr := 0
  lstCount : BitVec 17 := 0
  watchBase : Addr := 0
  trkBase : Addr := 0
  trkCount : W16 := 0
  evrBase : Addr := 0
  evrLog2 : BitVec 5 := 6
  evrPi : W32 := 0
  evrCi : W32 := 0
  evrLost : W32 := 0
  njdn : W16 := 2048
  njup : W16 := 1024
  warm : W16 := 16
  irqv : BitVec 6 := 0
  irqen : Bool := false
  fold : Bool := false
  ciBad : Bool := false
  layerOor : Bool := false
  evrOvf : Bool := false
  gbad : BitVec 24 := 16384
  gclean : W16 := 512
  deriving DecidableEq, Repr

/-- Converter totals of a core (Tables 6.12 and 6.13). -/
structure ConvTotals where
  fz0Sat : W64 := 0
  fz0Sb : W64 := 0
  fz1Sat : W64 := 0
  fz1Sb : W64 := 0
  pois0 : W32 := 0
  pois1 : W32 := 0
  thEl : W64 := 0
  thClamp : W32 := 0
  thExc : W32 := 0
  deriving DecidableEq, Repr

/-! ### Arrays (04, 05) -/

/-- One finished accumulator tile: its tile coordinates and the F32 values of its 32 × 32 units, row-major. -/
structure Tile where
  row : Nat
  col : Nat
  vals : List W32
  deriving DecidableEq, Repr

/-- A full accumulator bank: one or two tiles (04 R89) and the shape of the handing command's output. -/
structure Bank where
  tiles : List Tile
  rows : Nat
  cols : Nat
  orgr : Nat := 0
  orgc : Nat := 0
  goffr : Nat := 0
  goffc : Nat := 0
  gextr : Nat := 0
  gextc : Nat := 0
  /-- the last bank of the handing command (07 R169) -/
  last : Bool := false
  deriving DecidableEq, Repr

/-- An array of a core: banks full and still its own, banks handed to Moraine, how many of those are read. -/
structure ArrayState where
  full : List Bank := []
  handed : List Bank := []
  /-- banks released whose last elements wait in a strip that is not full yet (07 R161, R169) -/
  ahead : List Bank := []
  /-- elements already walked of the first of those, or else of the first bank handed and not read -/
  walked : Nat := 0
  /-- handed banks read and awaiting release (04 R94) -/
  read : Nat := 0
  rowsOn : Bool := false
  deriving DecidableEq, Repr

/-! ### Moraine (07) -/

/-- A scan or red carry (07 R172, Table 7.8). `sum` is the exact sum in units of 2^−149; `run` the max/min carry. -/
structure Carry where
  sum : Int := 0
  run : W32 := 0
  pinf : Bool := false
  ninf : Bool := false
  nan : Bool := false
  empty : Bool := true
  deriving DecidableEq, Repr

/-- A live context (07 R180, Table 7.7). -/
structure MorCtx where
  prog : Addr := 0
  pa : List W64 := []
  vlr : W16 := 0
  vl : W16 := 0
  pos : Nat := 0
  carries : List Carry := []
  permr : Bool := false
  vlclamp : Bool := false
  rseed : Bool := false
  /-- lane-mode random state belongs to the context (07 Table 7.7 LRS) -/
  lrs : Bool := false
  /-- the lanes as the last vx.chain or vx.restore of the source left them -/
  lanes : List (BitVec 128) := List.replicate 128 1
  /-- of the command that runs: perm elements out of range, and a NaN or infinity written (07 R177, R184) -/
  runPerm : Nat := 0
  runNonfin : Bool := false
  deriving DecidableEq, Repr

/-- Moraine of a core (07 Table 7.9). `live` holds the contexts of queues 0 to 3 and of the dispatch input. -/
structure Moraine where
  permr : Bool := false
  vlclamp : Bool := false
  rseed : Bool := false
  waitacc : Bool := false
  /-- the array whose bank WAITACC waits for -/
  waitArr : ArrayId := .rime
  pause : Bool := false
  elTotal : W64 := 0
  permTotal : W32 := 0
  live : List (Option MorCtx) := [none, none, none, none, none]
  deriving DecidableEq, Repr

/-- The lane generators of a core (08 Table 8.1); a lane holds 1 until it is seeded (log 13). -/
structure Lanes where
  moraine : List (BitVec 128) := List.replicate 128 1
  fz0 : List (BitVec 128) := List.replicate 256 1
  fz1a : List (BitVec 128) := List.replicate 256 1
  fz1b : List (BitVec 128) := List.replicate 256 1
  thaw : List (BitVec 128) := List.replicate 256 1
  deriving DecidableEq, Repr

/-- Sastrugi registers (08 Table 8.4). -/
structure Sas where
  lseed : W64 := 0
  epoch : W32 := 0
  zfix : Bool := false
  deriving DecidableEq, Repr

/-! ### Ablation (09) -/

/-- An Ablation engine (09 Table 9.5) and its lanes. -/
structure AblEngine where
  coll : Bool := false
  nonfin : Bool := false
  updTotal : W64 := 0
  frzTotal : W64 := 0
  scatTotal : W64 := 0
  nfTotal : W32 := 0
  lanes : List (BitVec 128) := List.replicate 128 1
  deriving DecidableEq, Repr

/-- Ablation channel registers (09 Table 9.6). -/
structure Abl where
  regBase : Addr := 0
  regCount : W32 := 0
  commitVer : W32 := 0
  rhi : W16 := BitVec.ofInt 16 (-1536)
  rlo : W16 := BitVec.ofInt 16 (-4608)
  uemax : Byte := 4
  uemin : Byte := 0
  /-- a commit token held under R216, with its membership -/
  heldTok : Option (Token × Membership) := none
  deriving DecidableEq, Repr

/-! ### Address guard and freezing (11, 16) -/

/-- Address guard registers (11 Table 11.5) and the translation cache, most recently used first (R262). -/
structure Agd where
  mode : Bool := false
  ptBase : Addr := 0
  tcHit : W64 := 0
  tcMiss : W64 := 0
  dfQueue : Byte := 0
  dfCause : BitVec 4 := 0
  dfDesc : Addr := 0
  dfCount : W32 := 0
  pterr : Bool := false
  df : Bool := false
  tc : List (Nat × W64) := []
  deriving DecidableEq, Repr

/-- Freeze registers (16 Table 16.6) and the frozen masters (R356). -/
structure Frz where
  write : Bool := false
  ctxv : Bool := false
  ctx : BitVec 4 := 0
  master : Byte := 0
  count : W32 := 0
  addr : Addr := 0
  frozen : List Master := []
  deriving DecidableEq, Repr

/-! ### Esker (12) -/

/-- A staging slot's state (12 Table 12.2). -/
inductive SlotSt where
  | empty | filling | full | faulted | cancelled
  deriving DecidableEq, Repr

/-- A staging slot: its state, readers (12 R278, R279), held fault (R287) and the fill under way. -/
structure Slot where
  st : SlotSt := .empty
  started : Nat := 0
  done : Nat := 0
  /-- readers running now -/
  runningNow : Nat := 0
  cancelAfter : Bool := false
  heldStatus : Byte := 0
  heldAddr : Addr := 0
  /-- the st.prefetch that fills it -/
  filler : Option Src := none
  fillBase : Nat := 0
  fillSpan : Nat := 0
  help : Bool := false
  /-- bytes landed from the start of the span, and units moved by helpers (12 R283, R286) -/
  pos : Nat := 0
  helped : Nat := 0
  /-- POS of a fill halted on a page (12 R286) and the address -/
  halted : Option (Nat × Nat) := none
  haltedOnce : Bool := false
  deriving DecidableEq, Repr

/-- Kinds of stream context (12 Table 12.5 MODE). -/
inductive CtxMode where
  | off | native | ring | rotate
  deriving DecidableEq, Repr

/-- A stream context (12 Table 12.5). -/
structure Ctx where
  mode : CtxMode := .off
  ruse : BitVec 4 := 1
  nslot : BitVec 5 := 0
  base : Addr := 0
  size : BitVec 25 := 0
  mask : Byte := 0
  fullsem : SemIdx := 0
  head : W16 := 0
  tail : W16 := 0
  cfgerr : Bool := false
  cancelling : Bool := false
  frozen : Bool := false
  steps : W32 := 0
  rounds : W32 := 0
  slots : List Slot := List.replicate 16 {}
  /-- fills in issue order whose FULLSEM addition is owed; true once landed (12 R280) -/
  order : List (Nat × Bool) := []
  /-- slots holding held faults, oldest first -/
  heldOrder : List Nat := []
  /-- this member's push of CUR has landed (12 R285) -/
  pushed : Bool := false
  /-- slot 0 has been filled and the rotation started -/
  started : Bool := false
  deriving DecidableEq, Repr

/-- Esker of a core (12 Table 12.4). -/
structure Esker where
  bytesTotal : W64 := 0
  mergeTotal : W64 := 0
  helpTotal : W64 := 0
  heldTotal : W32 := 0
  heldDrop : W32 := 0
  pgtmo : BitVec 7 := 10
  ctxs : Vector Ctx 16 := Vector.replicate 16 {}
  deriving DecidableEq, Repr

/-! ### Memory care (13) -/

/-- A stack's registers (13 Table 13.4) and refresh state. -/
structure StackState where
  temp : Byte := 0
  tmax : Byte := 0
  tf : Byte := 16
  ref2x : Bool := false
  overtemp : Bool := false
  ceTotal : W64 := 0
  ueTotal : W32 := 0
  ueAddr : Addr := 0
  badValid : Bool := false
  badSlice : BitVec 6 := 0
  badSymbol : BitVec 7 := 0
  scrub : W32 := 0
  stBadconn : Bool := false
  stOvertemp : Bool := false
  stUe : Bool := false
  /-- marked symbol of each slice that has one (13 R297) -/
  marked : List (BitVec 6 × BitVec 7) := []
  /-- positions that have failed in a slice with a marked one: their errors are uncorrectable (13 R297) -/
  second : List (BitVec 6 × BitVec 7) := []
  /-- corrections counted by slice and symbol (13 R297) -/
  corr : List ((BitVec 6 × BitVec 7) × Nat) := []
  /-- refresh intervals due and postponed, at most 8 (13 R301) -/
  owed : Nat := 0
  refreshes : Nat := 0
  deriving DecidableEq, Repr

/-- A Névé's registers (13 Table 13.5). -/
structure NeveState where
  ceTotal : W64 := 0
  ueTotal : W32 := 0
  ueAddr : Addr := 0
  waitTotal : W64 := 0
  stUe : Bool := false
  deriving DecidableEq, Repr

/-! ### Links (14) -/

/-- A port's mode and state (14 Table 14.6). -/
inductive PortMode where
  | off | polvor | ethernet
  deriving DecidableEq, Repr

inductive PortSt where
  | off | training | up | down | failed
  deriving DecidableEq, Repr

/-- A message being reassembled on one virtual channel (14 R316). -/
structure OpenMsg where
  vc : Fin 4
  msgid : W16
  bytes : List Byte
  /-- next fragment awaited -/
  frags : Nat
  complete : Bool := false
  /-- as MsgHdr.put, from the first fragment -/
  put : Option PutInfo := none
  /-- a put that waits for the page of this address (12 R276) -/
  halted : Option Nat := none
  deriving DecidableEq, Repr

/-- A message that this channel forwarded (14 R445): the port it arrived on, and what it is on the next link. -/
structure Relay where
  arrived : Port
  vc : Fin 4
  msgid : W16
  hdr : MsgHdr
  deriving DecidableEq, Repr

/-- A put of another channel as its receiver knows it (12 R274, R275): the descriptor as read for its first message, and
how many of its messages have landed. -/
structure PutRx where
  src : ChanId
  order : Byte
  input : Bool
  serial : Nat
  desc : List Byte
  landed : Nat
  deriving DecidableEq, Repr

/-- A message that this channel sent and that awaits MACK (14 R317). -/
structure InFlight where
  msg : Msg
  port : Port
  vc : Fin 4
  msgid : W16
  /-- the command it belongs to, if any -/
  owner : Option Src := none
  share : Option (Nat × Nat) := none
  deriving DecidableEq, Repr

/-- A window of an Ethernet port (14 Table 14.7) and its last 256 completed messages (R326). -/
structure Window where
  base : Addr := 0
  size : BitVec 40 := 0
  sem : SemIdx := 0
  rd : Bool := false
  wr : Bool := false
  plen : BitVec 8 := 0
  net : W32 := 0
  done : List W32 := []
  deriving DecidableEq, Repr

/-- An ingest WRITE message being reassembled (14 R325). -/
structure IngestMsg where
  win : Nat
  msgid : W32
  /-- datagrams held: SEQ, offset in the window, payload -/
  parts : List (Nat × Nat × List Byte)
  lastSeq : Option Nat := none
  deriving DecidableEq, Repr

/-- A port (14 Table 14.6), its link layer (R312 to R316) and its ingest side (R323 to R327). -/
structure PortState where
  mode : PortMode := .off
  st : PortSt := .off
  miswire : Bool := false
  retryx : Bool := false
  peerChan : ChanId := 0
  peerPort : BitVec 2 := 0
  trained : Bool := false
  txFlits : W64 := 0
  rxFlits : W64 := 0
  fecCorr : W64 := 0
  fecUnc : W32 := 0
  crcErr : W32 := 0
  replay : W32 := 0
  wctl : Byte := 1
  wmc : Byte := 2
  wred : Byte := 4
  wdata : Byte := 4
  stall : W16 := 20
  mctmo : W16 := 10
  stallDrop : W32 := 0
  lateDrop : W32 := 0
  mcDrop : W32 := 0
  routeDrop : W32 := 0
  ethMac : BitVec 48 := 0
  ethIp4 : W32 := 0
  vlanen : Bool := false
  vid : BitVec 12 := 0
  udp : W16 := 0
  ethRx : W64 := 0
  ethTx : W64 := 0
  ethDrop : W32 := 0
  ethBadchk : W32 := 0
  /-- credits held per virtual channel -/
  cred : List W16 := [0, 0, 0, 0]
  /-- CRCUM last taken from the peer, and CRCUM to report, per virtual channel -/
  crSeen : List W16 := [0, 0, 0, 0]
  crFreed : List W16 := [0, 0, 0, 0]
  crTurn : Fin 4 := 0
  txSeq : BitVec 12 := 0
  rxSeq : BitVec 12 := 0
  rxSome : Bool := false
  ackSeen : BitVec 12 := 0xFFF
  nackOut : Bool := false
  replays : Nat := 0
  nextMsgid : W16 := 0
  /-- payload flits sent and not acknowledged, oldest first (14 R312) -/
  replayBuf : List Flit := []
  /-- flits queued per virtual channel, oldest first -/
  txq : List (List Flit) := [[], [], [], []]
  /-- flits put on the wire, oldest first -/
  wire : List Flit := []
  open_ : List OpenMsg := []
  inFlight : List InFlight := []
  /-- messages forwarded on this port that may still be on their way (14 R445) -/
  relayed : List Relay := []
  /-- messages discarded incomplete (14 R318): virtual channel, identifier, header -/
  stalled : List (Fin 4 × W16 × MsgHdr) := []
  /-- round-robin position: virtual channel served and slots it has taken -/
  arb : Fin 4 × Nat := (0, 0)
  wins : Vector Window 16 := Vector.replicate 16 {}
  ingest : List IngestMsg := []
  /-- datagrams and frames sent, oldest first -/
  sentDatagrams : List Datagram := []
  sentFrames : List (List Byte) := []
  deriving DecidableEq, Repr

/-- A multicast stream at this channel (14 R321, R322). -/
structure Stream where
  id : StreamId
  children : List ChanId
  /-- messages of the stream this channel holds, in order -/
  msgs : List RedMsg := []
  /-- per child: messages sent and acknowledged -/
  sent : List Nat := []
  acked : List Nat := []
  dropped : List ChanId := []
  /-- members that the root serves point to point after MFETCH -/
  fetch : List ChanId := []
  /-- messages acknowledged to their senders -/
  ackedUp : Nat := 0
  /-- acknowledgements that the root still waits for from children dropped (14 R322) -/
  owed : List (ChanId × Nat) := []
  deriving DecidableEq, Repr

/-! ### Confluence (15) -/

/-- Confluence registers (15 Table 15.7). -/
structure Cfl where
  shmis : Bool := false
  strag : Bool := false
  dpmis : Bool := false
  nf : Bool := false
  redTotal : W64 := 0
  txBytes : W64 := 0
  rxBytes : W64 := 0
  dpSampled : W32 := 0
  dpMismatch : W32 := 0
  dpmisBucket : W32 := 0
  dpmisRid : W32 := 0
  thr : BitVec 10 := 20
  stragTotal : W32 := 0
  stragChan : W16 := 0
  stragWait : W16 := 0
  barTotal : W32 := 0
  nfTotal : W32 := 0
  deriving DecidableEq, Repr

/-- A collective running on this channel (15 R329): its key, its place in the fold, and what has arrived. -/
structure Collective where
  src : Src
  opc : Byte
  rid : W32
  group : W16
  step : W32
  /-- leaves in fold order (15 R336) and the root of the down tree -/
  leaves : List ChanId
  root : ChanId
  /-- whose partials this leaf adds, in order, and whether its own value is the left operand (15 R334) -/
  adds : List (ChanId × Bool)
  /-- where its partial goes; none at the holder of the final sum -/
  up : Option ChanId
  /-- partials received -/
  got : List RedMsg := []
  /-- results received -/
  results : List RedMsg := []
  /-- buckets whose partial has gone up, per path -/
  sentUp : List (Nat × Bool) := []
  /-- buckets written -/
  written : List Nat := []
  /-- results kept until all are there, where the destination's superblocks are others than the source's -/
  kept : List RedMsg := []
  nf : Bool := false
  sampled : Bool := false
  strag : Bool := false
  count : W32 := 0
  /-- statistics read when the command started, and summed (15 R342) -/
  stats0 : Option (List Byte) := none
  stats : Option (List Byte) := none
  /-- skewed additions still owed (15 R347) -/
  skew : List Core := []
  /-- what its record tells besides (15 Table 15.6): A3 was not 0, buckets, bytes written -/
  thin : Bool := false
  buckets : Nat := 0
  bytes : Nat := 0
  deriving DecidableEq, Repr

/-! ### Training (10) -/

/-- STP_STATE.STATE (10 Table 10.11). -/
inductive StpSt where
  | idle | starting | running | gated | reported | applying | rollback | halted | done
  deriving DecidableEq, Repr

/-- The plan as validated (10 Table 10.2). -/
structure Plan where
  nstage : Nat
  stage : Nat
  mb : Nat
  segt : Nat
  stash : Nat
  esize : Nat
  rsize : Nat
  c : Nat
  cr : Nat
  lag : Nat
  lowat : Nat
  lslist : Nat
  lscount : Nat
  nsteps : Nat
  deriving DecidableEq, Repr

/-- A finished reduction of the attempt: RID, GROUP, contributor count, non-finite bit (10 R234). -/
structure RedDone where
  rid : W32
  group : W16
  n : Nat
  nf : Bool
  deriving DecidableEq, Repr

/-- The part of a training attempt that is cleared at each start (10 R232). -/
structure Attempt where
  /-- variant chosen per admitted micro-batch, oldest first: true for FS -/
  variants : List Bool := []
  recomp : Bool := false
  /-- micro-batches whose forward, backward segment has been issued -/
  fwdIssued : Nat := 0
  bwdIssued : Nat := 0
  updIssued : Bool := false
  reported : Bool := false
  nf : Bool := false
  everRecomp : Bool := false
  reductions : List RedDone := []
  /-- gradient records computed and held for the commit: address and new first 8 bytes (10 R133) -/
  grads : List (Nat × W64) := []
  /-- units of the image not yet sent to their holders, once UPD is issued, and contributions sent that are not yet
  acknowledged: unit, is Q (16 R368) -/
  stripesOwed : List Nat := []
  stripesSent : List (Nat × Bool) := []
  /-- the gate of R234 has been passed: GSCALE written, gradient records computed -/
  gated : Bool := false
  /-- queue indices up to which a micro-batch's backward segment reaches: micro-batch, queue, index -/
  bwdMarks : List (Nat × QIdx × W32) := []
  updMarks : List (QIdx × W32) := []
  deriving DecidableEq, Repr

/-- Step registers (10 Table 10.11), the plan and the attempt. -/
structure Stp where
  st : StpSt := .idle
  planerr : Bool := false
  planBase : Addr := 0
  ver : W32 := 0
  batch : W64 := 0
  lsclean : W16 := 0
  lsexp : Byte := 16
  lsmax : Byte := 32
  lsmin : Byte := BitVec.ofInt 8 (-8)
  lsinit : Byte := 16
  lsgrow : W16 := 2000
  skipmax : W16 := 32
  skips : W16 := 0
  recompEv : W32 := 0
  recompMb : W32 := 0
  stall : W32 := 0
  skipTotal : W32 := 0
  rbTotal : W32 := 0
  plan : Option Plan := none
  att : Attempt := {}
  /-- loss-scale state of the last commit (10 R235, R241) -/
  lsexpCommit : Byte := 16
  lscleanCommit : W16 := 0
  /-- misfit state words copied at the last commit: address and word (10 R241) -/
  misfitCopy : List (Nat × W64) := []
  commits : Nat := 0
  /-- POLICY (18 Table 18.3) -/
  bound : W16 := 4096
  gfmt : Byte := 1
  /-- reports sent, oldest first -/
  sentReports : List Report := []
  /-- a ROLLBACK already applied in this attempt -/
  rolledBack : Bool := false
  /-- a SKIP or HALT whose backward segments are not finished (10 R241) -/
  skipPending : Option Token := none
  /-- the attempt after a SKIP starts once Adori's ab.freeze commands are done (09 R217) -/
  startOwed : Bool := false
  /-- a write of STP_CTRL that starts training waits for a stopped stack (13 R303) -/
  ctrlOwed : Bool := false
  deriving DecidableEq, Repr

/-! ### Faults and managers (16) -/

/-- A member table entry (16 Table 16.7). -/
structure MemberEntry where
  chan : ChanId
  live : Bool := false
  degraded : Bool := false
  removed : Bool := false
  standby : Bool := false
  fclass : Byte := 0
  stragn : W32 := 0
  lasthb : W64 := 0
  ready : Bool := false
  quiesced : Bool := false
  failed : Bool := false
  fault : Bool := false
  /-- its fault is a channel fault (16 R354) -/
  lasting : Bool := false
  /-- the straggler this member named last (16 R362) -/
  named : W32 := 0
  deriving DecidableEq, Repr

/-- One manager role (drift or field) of this channel (16 R357 to R364). -/
structure Mgr where
  acting : Bool := false
  standby : Bool := false
  table : List MemberEntry := []
  reports : List Report := []
  forwarded : Bool := false
  /-- the decision taken and mirrored, not yet acknowledged, with the membership it carries -/
  decision : Option (Token × Membership) := none
  /-- modules that the decision removes (16 R363, R373), and mirrors of it that the standby has not acknowledged -/
  leaving : List W16 := []
  unacked : Nat := 0
  /-- the latest token this manager holds -/
  latest : Option (Token × Membership) := none
  decided : Bool := false
  standbyChan : Option ChanId := none
  standbyAcked : Bool := true
  /-- a fault has been reported since the last START -/
  faultSeen : Bool := false
  faultHbtmo : Bool := false
  recovering : Bool := false
  /-- modules to be removed at the next membership (16 R354, R361, R363) -/
  removals : List W16 := []
  /-- state mirrored from the primary (01 R24) -/
  mirrored : Option (Token × Membership) := none
  sent : List (ChanId × Token) := []
  /-- channels whose degradation (0), fault (1) or lasting fault (2) has been passed upward since the last START -/
  told : List (ChanId × Nat) := []
  /-- at a field manager: the channel that acts for a drift, or a field, in place of the manager that names it in the
  membership (R359) -/
  successors : List (ChanId × ChanId) := []
  deriving DecidableEq, Repr

/-- Fault registers (16 Table 16.6) and a channel's recovery state. -/
structure Flt where
  fclass : Byte := 0
  nogroup : Bool := false
  takeover : Bool := false
  rebuild : Bool := false
  removed : Bool := false
  degraded : Bool := false
  fault : Bool := false
  faddr : Addr := 0
  mgen : W32 := 0
  hbtmo : W16 := 1000
  hbint : W16 := 250
  linktmo : BitVec 10 := 100
  repl : Byte := 0
  pos : Byte := 0
  g : Byte := 0
  stripeLen : BitVec 40 := 0
  stripeBase : Addr := 0
  rebuildTotal : W64 := 0
  serveTotal : W64 := 0
  recovLast : W32 := 0
  wdog : W16 := 500
  mtabBase : Addr := 0
  hbseq : W64 := 0
  ready : Bool := false
  quiesced : Bool := false
  strag : W32 := 0
  degmask : Byte := 0
  /-- the manager followed after a takeover (R359); none for the one that IDENTITY names -/
  mgrChan : Option ChanId := none
  /-- the standby that the manager followed has named (R359, R360) -/
  sbChan : Option ChanId := none
  /-- the same for the field managers: generation, manager, standby -/
  fgen : W32 := 0
  fmgrChan : Option ChanId := none
  fsbChan : Option ChanId := none
  /-- at the manager of a field that is not listed first: the same for the manager of the first field (01 R23) -/
  tgen : W32 := 0
  topChan : Option ChanId := none
  topSb : Option ChanId := none
  /-- stragglers named since the last heartbeat (15 R349, 16 R362) -/
  named : List W32 := []
  /-- heartbeats sent, oldest first -/
  sentHb : List Heartbeat := []
  /-- PFR_TIME at the ROLLBACK token -/
  rbTime : W64 := 0
  /-- the committed version that a ROLLBACK token tells of, where this channel has yet to reach it (10 R245; log 124) -/
  catchUp : Option W32 := none
  /-- units of this channel that are to be rebuilt -/
  lostUnits : List Nat := []
  /-- rebuilds asked of a parity holder: its position, the unit (R369) -/
  asked : List (Nat × Nat) := []
  /-- removed, and a commit has followed the removal: idle until it is reset (R363) -/
  retired : Bool := false
  /-- rebuilt units served: requester, unit, data -/
  served : List (ChanId × Nat × List Byte) := []
  /-- stripe contributions sent: holder position, unit, is Q, data -/
  stripesOut : List (Nat × Nat × Bool × List Byte) := []
  parityAcks : List (Nat × Nat × Bool) := []
  drift : Mgr := {}
  field : Mgr := {}
  members : Membership := ⟨[], [], [], 0⟩
  deriving DecidableEq, Repr

/-! ### Power and clocks (17) -/

inductive PllSt where
  | cold | warm | hot
  deriving DecidableEq, Repr

/-- Clock and voltage of a core (17 Table 17.7). -/
structure CorePower where
  voff : Byte := 0
  tj : Byte := 0
  pll : PllSt := .cold
  fmax : BitVec 7 := 0
  f : BitVec 7 := 0
  stretched : Bool := false
  /-- consecutive measurements below code 76 (17 R381), and that the core was reported degraded -/
  fails : Nat := 0
  degraded : Bool := false
  /-- Tj has reached 105 and not yet fallen to 100 (17 R397) -/
  hotTj : Bool := false
  /-- samples since heat last lowered the core's clock, at most 10 -/
  tjTicks : Nat := 10
  /-- the voltage of the core's regulator, in units of 5 mV (17 R379) -/
  volt : Nat := 0
  deriving DecidableEq, Repr

/-- Katabatic and Permafrost registers (17 Tables 17.7, 17.8). -/
structure Gov where
  backstop : Bool := false
  overalloc : Bool := false
  noarb : Bool := false
  gmode : BitVec 2 := 1
  loanch : Byte := 100
  ftop : BitVec 7 := 88
  lend : Bool := true
  thpol : BitVec 2 := 0
  allow : W16 := 450
  borrowed : W16 := 0
  grant : W16 := 450
  lent : W16 := 0
  /-- power samples of the last second, 0.1 W, newest first (R384) -/
  samples : List Nat := []
  p1ms : W16 := 0
  p1s : W16 := 0
  fsus : Byte := 0
  fceil : Byte := 88
  fpow : Byte := 0
  fg : Byte := 0
  cores : Vector CorePower 8 := Vector.replicate 8 {}
  pllA : PllSt := .cold
  droopTotal : W64 := 0
  backstopTotal : W32 := 0
  recallTotal : W32 := 0
  thcut : Byte := 0
  /-- the backstop has acted and the means are not yet within the limits again (R384) -/
  backstopActs : Bool := false
  tin : Byte := 0
  colddly : W16 := 10
  energy : W64 := 0
  energyRem : Nat := 0
  /-- the clock vote of the commit just applied is still to be reduced (17 R386) -/
  voteOwed : Bool := false
  time : W64 := 0
  resetTime : W64 := 0
  wakeTotal : W64 := 0
  /-- recomputations of the arbiter until this channel may lend again after a recall (17 R389) -/
  recallTicks : Nat := 0
  deriving DecidableEq, Repr

/-! ### Boot, trust, host port (18) -/

/-- HBD_CH_STATUS.STATE (18 Table 18.13). -/
inductive Life where
  | reset | booting | held | running
  deriving DecidableEq, Repr

/-- BOOT_STATUS.CAUSE (18 Table 18.6). -/
inductive Cause where
  | none | hold | nocfg | badcfg | fwsig | fwsvn | wdog | fuse | meminit
  deriving DecidableEq, Repr

/-- IDENTITY (18 Table 18.4). -/
structure Identity where
  chid : ChanId := 0
  modid : W16 := 0
  pdm : ChanId := 0
  sdm : ChanId := 0
  pfm : ChanId := 0
  sfm : ChanId := 0
  field : Byte := 0
  deriving DecidableEq, Repr

/-- A ROUTES entry (18 Table 18.3). -/
structure Route where
  dest : ChanId
  main : Port
  alt : Port
  altValid : Bool
  deriving DecidableEq, Repr

/-- The configuration block as read (18 R403). -/
structure Config where
  raw : List Byte := []
  ident : Identity := {}
  hasMembership : Bool := false
  /-- modules of the drift as its MEMBERSHIP section lists them -/
  modules : List W16 := []
  routes : List Route := []
  deriving DecidableEq, Repr

/-- An SPDM responder's connection (18 R416 to R418). -/
structure Spdm where
  /-- the last signed response on this connection -/
  lastSigned : Option (List Byte) := none
  /-- the HSS signature already made for it -/
  hssFor : Option (List Byte) := none
  deriving DecidableEq, Repr

/-- The random generator of a root of trust: seeds taken, and requests since the last (18 R413). -/
structure Drbg where
  seed : Nat := 0
  count : Nat := 0
  deriving DecidableEq, Repr

/-- HSS state (18 R414, R415). -/
structure Hss where
  next : Nat := 0
  limit : Nat := 0
  seq : Nat := 0
  /-- lower trees built and signed -/
  trees : Nat := 0
  off : Bool := false
  deriving DecidableEq, Repr

/-- Boot, flash, mailbox and trust state of a channel (18). -/
structure Boot where
  life : Life := .reset
  cause : Cause := .none
  resa : BitVec 4 := 0
  resb : BitVec 4 := 0
  hostHold : Bool := false
  bmcHold : Bool := false
  flown : Bool := false
  flAddr : BitVec 26 := 0
  flCmd : BitVec 3 := 0
  /-- the flash command that runs and the address it was given -/
  flOp : BitVec 3 := 0
  flAt : BitVec 26 := 0
  flErr : Bool := false
  flBusy : Bool := false
  flBuf : Mem := []
  flash : Mem := []
  fsvn : Nat := 0
  svnup : Bool := false
  fwver : W32 := 0
  svn : Byte := 0
  /-- digest of the firmware header and body of the image booted or last tried (18 Table 18.8) -/
  fwDig : List Byte := List.replicate 48 0
  slot : Byte := 0
  cslot : Byte := 0
  cseq : W32 := 0
  cfg : Config := {}
  mbxReq : Mem := []
  mbxRsp : Mem := []
  mbxCode : Byte := 0
  mbxOvr : Bool := false
  mbxBusy : Bool := false
  hss : Hss := {}
  drbg : Drbg := {}
  /-- the alias private key that Adori has received, and the alias certificate of this boot (18 R412) -/
  aliasKey : List Byte := []
  aliasCert : List Byte := []
  /-- number of the next diagnostic log record (18 R400) -/
  diagNext : Nat := 0
  /-- firmware slots that an update has written in part (18 R423), and the configuration slots, 2 and 3, that a torn program or
  erase has (19 R429) -/
  torn : List Nat := []
  spdmDoe : Spdm := {}
  spdmMctp : Spdm := {}
  /-- PLDM Type 5 update in progress (18 R424) -/
  fwUpdate : Bool := false
  /-- slot that ActivateFirmware marked for the next reset -/
  activated : Bool := false
  /-- stage-base of BAR2 (02 Table 2.13) -/
  stageBase : Addr := 0
  /-- VOFF values last written to the ageing record, and that the next record goes to its second copy (17 R380) -/
  ageing : List Byte := []
  ageCopy : Bool := false
  /-- the stacks were initialised since power-up (13 R299) -/
  memInit : Bool := false
  deriving DecidableEq, Repr

/-! ### The channel and the module -/

/-- A core's converters, arrays, Moraine, Esker, Névé registers and lanes. -/
structure CoreState where
  conv : ConvTotals := {}
  rime : ArrayState := {}
  firnA : ArrayState := {}
  firnB : ArrayState := {}
  mor : Moraine := {}
  esk : Esker := {}
  neve : NeveState := {}
  lanes : Lanes := {}
  deriving DecidableEq, Repr

/-- One channel. -/
structure Channel where
  boot : Boot := {}
  queues : Vector Queue 160 := Vector.replicate 160 {}
  sems : Vector W32 256 := Vector.replicate 256 0
  running : List Running := []
  inputs : List (Engine × Share) := []
  floes : List FloeRun := []
  nextFloe : Nat := 0
  /-- dispatch table: defined identifiers (02 R48) -/
  table : List (Nat × List Byte) := []
  /-- round-robin: for each engine the source index served last (02 R29) -/
  rr : List (Engine × Nat) := []
  mem : Mem := []
  /-- codewords and words that read as uncorrectable (13 R295, R296) -/
  bad : List Nat := []
  /-- model's own, within a row only, which clears it first and leaves it as it was: the uncorrectable word that the row's
  command first wrote in part (13 R296) -/
  poisonHit : Option Nat := none
  /-- model's own, as poisonHit: the row's command was about to write to a stack that has stopped its accesses (13 R303) -/
  waitHit : Bool := false
  /-- MSI-X vectors that wait for the host port, oldest first (01 R19, R20) -/
  irqWait : List Nat := []
  /-- BAR2 accesses that wait for a stopped stack, oldest first: address, bytes, data of a write (02 R54, 13 R303) -/
  hostWait : List (Nat × Nat × Option (List Byte)) := []
  /-- blocks that a read found poisoned by the encoding of a valid element (03 R64): no register shows the count -/
  poisRead : W64 := 0
  nmon : Nmon := {}
  cores : Vector CoreState 8 := Vector.replicate 8 {}
  sas : Sas := {}
  engines : Vector AblEngine 4 := Vector.replicate 4 {}
  abl : Abl := {}
  agd : Agd := {}
  frz : Frz := {}
  stk : Vector StackState 4 := Vector.replicate 4 {}
  ports : Vector PortState 4 := Vector.replicate 4 {}
  /-- puts that land here (12 R275), and the number of the next put from here -/
  putRx : List PutRx := []
  putNext : Nat := 0
  streams : List Stream := []
  /-- messages handed on to the row that takes them (14 R316) -/
  inbox : List Msg := []
  cfl : Cfl := {}
  colls : List Collective := []
  /-- reduction messages held for a key with no running command (15 R330) -/
  heldMsgs : List RedMsg := []
  stp : Stp := {}
  flt : Flt := {}
  gov : Gov := {}
  deriving DecidableEq, Repr

/-- Reference clock mode of the host port (19 R432). -/
inductive RefMode where
  | common | sris
  deriving DecidableEq, Repr

/-- The host bridge die and the module's pins (17, 18, 19). -/
structure Bridge where
  switchClosed : Bool := true
  tripLatched : Bool := false
  pgood : Bool := true
  modRst : Bool := false
  perst : Bool := false
  refMode : RefMode := .sris
  hostUp : Bool := true
  /-- MCTP endpoint IDs: the bridge's, then those of the channels (18 R422) -/
  eids : List Byte := List.replicate 9 0
  /-- the I3C target has its dynamic address (19 R433) -/
  i3cAddressed : Bool := false
  /-- the bridge's own root of trust: HSS state, its records, random generator (18 R413 to R416) -/
  hss : Hss := {}
  hssLog : Mem := []
  drbg : Drbg := {}
  spdmDoe : Spdm := {}
  spdmMctp : Spdm := {}
  /-- the function whose packet went out last (01 R19) -/
  served : Ch := 7
  /-- the arbiter has each channel's allowance (17 R388) -/
  allowKnown : List Bool := List.replicate 8 false
  deriving DecidableEq, Repr

/-- The machine: the module, the outside as far as it wrote there, and the commands waiting. -/
structure State where
  pending : List Instr := []
  chans : Vector Channel 8 := Vector.replicate 8 {}
  bridge : Bridge := {}
  /-- host memory as far as the bridge wrote it (02 R44) -/
  hostMem : Mem := []
  /-- MSI-X messages sent: function, vector -/
  msix : List (Nat × Nat) := []
  /-- data answered to the last host, SPDM, PLDM or MCTP request -/
  answer : List Byte := []
  /-- PlatformEventMessages sent: channel, cause, class (18 R423) -/
  events : List (Nat × Nat × Nat) := []
  /-- model's own: counts the free values drawn -/
  freeCtr : Nat := 0
  deriving DecidableEq, Repr

/-- The machine right after reset: every register at its table's reset value, every channel released from reset
and not yet booted, nothing waiting (18 Table 18.13 STATE 0). -/
def State.reset : State := {}

end Sys2Proof.Machine
end

