-- ==== Sys2Proof/Machine/Sastrugi.lean ====
section
/-!
DEFINITION. Sastrugi (08): keyed words, lane generators, their polynomials and seeds.
-/
namespace Sys2Proof.Machine

open Sys2Proof

namespace Sas

/-- The constants of R194. -/
def KM : W64 := 0x9C3F71A5E64B0D8B
def KS : W64 := 0x6A1ED94C3B70F285

/-- fmix (R194). -/
def fmix (x : W64) : W64 :=
  let x := (x ^^^ (x >>> 32)) * KM
  let x := (x ^^^ (x >>> 29)) * KM
  x ^^^ (x >>> 32)

/-- A keyed word (R194). -/
def keyedWord (seed : W64) (step tid : W32) (u : W64) (v : W32) (d : Byte) : W16 :=
  let h := fmix (seed ^^^ KS)
  let h := fmix (h ^^^ (step ++ tid))
  let h := fmix (h ^^^ u)
  let h := fmix (h ^^^ ((d.setWidth 32) ++ v))
  (h >>> 48).setWidth 16

/-- The Rotator's sign bit of logical column k (R97). -/
def signBit (rotseed : W64) (k : Nat) : Bool :=
  (keyedWord rotseed 0 0 (BitVec.ofNat 64 k) 0 0).getLsbD 0

/-! ### Polynomials (R187) -/

/-- a·x modulo x^128 + p(x). -/
def timesX (p a : BitVec 128) : BitVec 128 := if a.msb then (a <<< 1) ^^^ p else a <<< 1

/-- a·b modulo x^128 + p(x), over the low n bits of b, most significant first. -/
def polyMulGo (p a b : BitVec 128) : Nat → BitVec 128 → BitVec 128
  | 0, acc => acc
  | n + 1, acc =>
    let acc := timesX p acc
    polyMulGo p a b n (if b.getLsbD n then acc ^^^ a else acc)

def polyMul (p a b : BitVec 128) : BitVec 128 := polyMulGo p a b 128 0

/-- x^k modulo x^128 + p(x), over the low n bits of k. -/
def polyPowGo (p : BitVec 128) (k : Nat) : Nat → BitVec 128 → BitVec 128
  | 0, acc => acc
  | n + 1, acc =>
    let acc := polyMul p acc acc
    polyPowGo p k n (if k.testBit n then timesX p acc else acc)

def polyPow (p : BitVec 128) (k : Nat) : BitVec 128 := polyPowGo p k 128 1

/-- The prime factors of 2^128 − 1. -/
def factors : List Nat := [3, 5, 17, 257, 641, 65537, 274177, 6700417, 67280421310721]

/-- x^128 + p(x) is primitive over GF(2): x has order 2^128 − 1. -/
def isPrimitive (p : BitVec 128) : Bool :=
  polyPow p (2 ^ 128 - 1) == 1 && factors.all fun q => polyPow p ((2 ^ 128 - 1) / q) != 1

/-- The g-th primitive polynomial from candidate P on. -/
def polyFrom : Nat → Nat → Nat → BitVec 128
  | 0, _, _ => 0
  | fuel + 1, P, g =>
    if isPrimitive (BitVec.ofNat 128 P) then
      match g with
      | 0 => BitVec.ofNat 128 P
      | g' + 1 => polyFrom fuel (P + 1) g'
    else polyFrom fuel (P + 1) g

/-- P_g (R187). -/
def lanePoly (g : Nat) : BitVec 128 := polyFrom (2 ^ 128) 0 g

/-! ### Lanes (R186, R188) -/

/-- One Galois step. -/
def galois (pg s : BitVec 128) : BitVec 128 := if s.msb then (s <<< 1) ^^^ pg else s <<< 1

/-- n Galois steps. -/
def galoisN (pg : BitVec 128) : Nat → BitVec 128 → BitVec 128
  | 0, s => s
  | n + 1, s => galoisN pg n (galois pg s)

/-- The word a state stands for after its 16 steps (R186). -/
def laneOut (s : BitVec 128) : W16 :=
  let lo : W64 := s.setWidth 64
  let hi : W64 := (s >>> 64).setWidth 64
  let a : W16 := lo.setWidth 16
  let b : W16 := (lo >>> 24).setWidth 16
  let c : W16 := (hi >>> 7).setWidth 16
  let d : W16 := (hi >>> 40).setWidth 16
  let t := a ^^^ (b &&& c)
  let t := (t <<< 5) ||| (t >>> 11)
  t + d

/-- lane_word: 16 steps and the word (R186). -/
def laneWord (pg s : BitVec 128) : BitVec 128 × W16 :=
  let s' := galoisN pg 16 s
  (s', laneOut s')

/-- Advances a lane by n clocks, one word each (R188). -/
def laneRun (pg : BitVec 128) : Nat → BitVec 128 → BitVec 128
  | 0, s => s
  | n + 1, s => laneRun pg n (laneWord pg s).1

/-- Seeds lane g (R190). -/
def laneSeed (lseed : W64) (epoch : W32) (chid : ChanId) (g : Nat) : BitVec 128 :=
  let h := fmix (fmix (lseed ^^^ KS) ^^^ ((epoch ++ chid.setWidth 32)))
  let lo := fmix (h ^^^ BitVec.ofNat 64 (2 * g))
  let hi := fmix (h ^^^ BitVec.ofNat 64 (2 * g + 1))
  if (hi ||| lo) = 0 then 1 else hi ++ lo

/-- A unit that holds lanes (Table 8.1): its lane count and the lane index of its lane 0. -/
structure LaneUnit where
  count : Nat
  first : Nat
  deriving DecidableEq, Repr

/-- Every lane of a unit advances by the same n clocks (R188). -/
def LaneUnit.run (u : LaneUnit) (n : Nat) (lanes : List (BitVec 128)) : List (BitVec 128) :=
  lanes.zipIdx.map fun (s, l) => laneRun (lanePoly (u.first + l)) n s

/-- Clocks of the unit that pass before element i takes its first word: a free number, and enough of them that no lane
gives one word twice (R185, R188, log 17). -/
def clocksBefore (u : LaneUnit) (per i ctr : Nat) : Nat :=
  Config.laneClocks (ctr + i) + (if i % u.count != 0 then 0 else if i = 0 then 1 else per)

/-- Words of n elements in the unit's input order, element i from lane i mod count: one word, or for `per` = 2 two of
consecutive clocks, the second in bits 31..16 (R185, R188, R189). The lanes rest on the last clock used. For Moraine an
element's number is its place in its strip, which R185 does not say (DESIGN CHOICE, log 131). -/
def laneDraw (u : LaneUnit) (per : Nat) : Nat → Nat → Nat → List (BitVec 128) → List Nat × List (BitVec 128)
  | 0, _, _, lanes => ([], u.run (per - 1) lanes)
  | n + 1, i, ctr, lanes =>
    let l := i % u.count
    let lanes := u.run (clocksBefore u per i ctr) lanes
    let s := lanes.getD l 1
    let w0 := (laneOut s).toNat
    let v := if per = 1 then w0 else 65536 * (laneWord (lanePoly (u.first + l)) s).2.toNat + w0
    let (ws, lanes') := laneDraw u per n (i + 1) ctr lanes
    (v :: ws, lanes')

end Sas

/-- Lane units of a channel (Table 8.1). -/
def LaneUnit.moraine (c : Nat) : Sas.LaneUnit := ⟨128, 1152 * c⟩
def LaneUnit.fz0 (c : Nat) : Sas.LaneUnit := ⟨256, 1152 * c + 128⟩
def LaneUnit.fz1a (c : Nat) : Sas.LaneUnit := ⟨256, 1152 * c + 384⟩
def LaneUnit.fz1b (c : Nat) : Sas.LaneUnit := ⟨256, 1152 * c + 640⟩
def LaneUnit.thaw (c : Nat) : Sas.LaneUnit := ⟨256, 1152 * c + 896⟩
def LaneUnit.ablation (a : Nat) : Sas.LaneUnit := ⟨128, 9216 + 128 * a⟩

/-- All lanes of a unit seeded (R190). -/
def seedUnit (u : Sas.LaneUnit) (lseed : W64) (epoch : W32) (chid : ChanId) : List (BitVec 128) :=
  (List.range u.count).map fun l => Sas.laneSeed lseed epoch chid (u.first + l)

end Sys2Proof.Machine
end

