-- ==== Sys2Proof/Machine/Base.lean ====
section
/-!
DEFINITION. The named operations over memory, register bytes, the address map and the parts of a channel.
-/
namespace Sys2Proof.Machine

open Sys2Proof

/-! ### Memory -/

/-- One byte; an unlisted address reads as d. -/
def Mem.byte (d : Byte) (m : Mem) (a : Nat) : Byte := (m.lookup a).getD d

/-- Walks cells from address a on, none of them below a. -/
def Mem.readGo (d : Byte) : List Host.Cell → Nat → Nat → List Byte
  | _, _, 0 => []
  | [], a, n + 1 => d :: Mem.readGo d [] (a + 1) n
  | (k, b) :: rest, a, n + 1 =>
    if k = a then b :: Mem.readGo d rest (a + 1) n else d :: Mem.readGo d ((k, b) :: rest) (a + 1) n

/-- n bytes from address a. -/
def Mem.read (d : Byte) (m : Mem) (a n : Nat) : List Byte :=
  Mem.readGo d (m.filter fun c => decide (a ≤ c.1) && decide (c.1 < a + n)) a n

/-- Cells of a run of bytes, without those that an unlisted address reads as. -/
def Mem.cells (d : Byte) : Nat → List Byte → List Host.Cell
  | _, [] => []
  | a, b :: bs => if b = d then Mem.cells d (a + 1) bs else (a, b) :: Mem.cells d (a + 1) bs

/-- Writes a run of bytes at address a. -/
def Mem.write (d : Byte) (m : Mem) (a : Nat) (bs : List Byte) : Mem :=
  m.filter (fun c => decide (c.1 < a)) ++ Mem.cells d a bs ++ m.filter (fun c => decide (a + bs.length ≤ c.1))

/-- The canonical form: addresses strictly rising, no byte listed that an unlisted address reads as. -/
abbrev Mem.wf (d : Byte) (m : Mem) : Prop := m.Pairwise (fun a b => a.1 < b.1) ∧ ∀ c ∈ m, c.2 ≠ d

/-! ### Registers as bytes -/

/-- Bits hi..lo of a number. -/
def bits (v hi lo : Nat) : Nat := v / 2 ^ lo % 2 ^ (hi + 1 - lo)

def b2n (b : Bool) : Nat := if b then 1 else 0

/-- Saturating addition on w-bit counters. -/
def satAdd {w : Nat} (x : BitVec w) (n : Nat) : BitVec w := BitVec.ofNat w (min (x.toNat + n) (2 ^ w - 1))

/-- Pads with zeros to n bytes. -/
def padTo (n : Nat) (bs : List Byte) : List Byte := bs.take n ++ List.replicate (n - bs.length) 0

/-- A field of a block: n bytes at offset o, little-endian. -/
def fld (b : List Byte) (o n : Nat) : Nat := ofBytes ((b.drop o).take n)

/-- Merges the enabled bytes of a write into n bytes of an old value (02 R442). -/
def mergeGo (en new : Nat) : Nat → Nat → Nat → Nat
  | 0, _, _ => 0
  | n + 1, i, old =>
    (if en.testBit i then new / 256 ^ i % 256 else old % 256) + 256 * mergeGo en new n (i + 1) (old / 256)

def merge (w : RegWrite) (n old : Nat) : Nat := mergeGo w.enable.toNat w.value.toNat n 0 old

/-- The bits of a write whose bytes are enabled, the others zero (for WO, RW1C and RWH bits, 02 R442). -/
def enabledBits (w : RegWrite) (n : Nat) : Nat := merge w n 0

/-- Some byte of the write is enabled within the n bytes of the register. -/
def touches (w : RegWrite) (n : Nat) : Bool := w.enable.toNat % 2 ^ n != 0

/-! ### Address map (02 Table 2.10) -/

def dramSize : Nat := 0x2400000000
def neveBase (c : Nat) : Nat := 0x100000000000 + c * 0x2000000
def neveSize : Nat := 0x1800000
def regBase : Nat := 0x200000000000
def regSize : Nat := 0x4000000

/-- The populated regions, first address and length. -/
def regions : List (Nat × Nat) :=
  (0, dramSize) :: (regBase, regSize) :: (List.range 8).map fun c => (neveBase c, neveSize)

/-- The range lies wholly in one populated region. -/
def inRegion (a n : Nat) : Bool := regions.any fun r => decide (r.1 ≤ a) && decide (a + n ≤ r.1 + r.2) && decide (a < r.1 + r.2)

def inDram (a n : Nat) : Bool := decide (a + n ≤ dramSize) && decide (a < dramSize)
def inNeve (c a n : Nat) : Bool :=
  decide (neveBase c ≤ a) && decide (a + n ≤ neveBase c + neveSize) && decide (a < neveBase c + neveSize)

/-- The core whose Névé window holds address a. -/
def neveOf (a : Nat) : Option Nat := (List.range 8).find? fun c => inNeve c a 1

/-! ### Engines and queues (02 R28) -/

/-- The engine a queue feeds; none for a reserved index. -/
def queueEngine (q : Nat) : Option Engine :=
  if h : q < 128 then
    let c : Core := ⟨q / 16, by omega⟩
    match q % 16 / 4 with
    | 0 => some (.array c)
    | 1 => some (.moraine c)
    | 2 => some (.esker c)
    | _ => none
  else if q < 136 then some .confluence
  else if h : q < 144 then some (.ablation ⟨(q - 136) / 2, by omega⟩)
  else some .dispatcher

/-- The queues of an engine, in ascending order. -/
def engineQueues (e : Engine) : List Nat := (List.range 160).filter fun q => queueEngine q == some e

/-- The engine a source belongs to. -/
def srcEngine : Src → Option Engine
  | .queue q => queueEngine q.val
  | .input e => some e

/-- The core of an engine, if it is a core's. -/
def engineCore : Engine → Option Core
  | .array c | .moraine c | .esker c => some c
  | _ => none

/-- Master codes (16 Table 16.2). -/
def masterCode : Master → Nat
  | .engine (.array c) => 8 * c.val
  | .engine (.moraine c) => 8 * c.val + 1
  | .engine (.esker c) => 8 * c.val + 2
  | .engine .confluence => 0x40
  | .engine .dispatcher => 0x41
  | .engine (.ablation a) => 0x44 + a.val
  | .context c _ => 8 * c.val + 2
  | .nunatak n => 0x48 + n.val
  | .host => 0x50

/-! ### Changing one part of a channel -/

def Channel.modQ (c : Channel) (q : QIdx) (f : Queue → Queue) : Channel :=
  { c with queues := c.queues.set q (f c.queues[q]) }

def Channel.modCore (c : Channel) (k : Core) (f : CoreState → CoreState) : Channel :=
  { c with cores := c.cores.set k (f c.cores[k]) }

def Channel.modPort (c : Channel) (p : Port) (f : PortState → PortState) : Channel :=
  { c with ports := c.ports.set p (f c.ports[p]) }

def Channel.modStack (c : Channel) (i : Stack) (f : StackState → StackState) : Channel :=
  { c with stk := c.stk.set i (f c.stk[i]) }

def Channel.modEng (c : Channel) (i : Stack) (f : AblEngine → AblEngine) : Channel :=
  { c with engines := c.engines.set i (f c.engines[i]) }

def Channel.modCtx (c : Channel) (k : Core) (x : Fin 16) (f : Ctx → Ctx) : Channel :=
  c.modCore k fun cs => { cs with esk := { cs.esk with ctxs := cs.esk.ctxs.set x (f cs.esk.ctxs[x]) } }

/-- Bytes of channel memory (13 R299, R307: unlisted bytes are zero). -/
def Channel.rd (c : Channel) (a n : Nat) : List Byte := Mem.read 0 c.mem a n

/-- A little-endian number from channel memory. -/
def Channel.rdN (c : Channel) (a n : Nat) : Nat := ofBytes (c.rd a n)

/-- Bytes of a codeword of DRAM or a word of Névé (13 R292, R306). -/
def wordSize (k : Nat) : Nat := if k < dramSize then 64 else 8
/-- The codeword or word that holds address a. -/
def wordOf (a : Nat) : Nat := a - a % wordSize a

/-- The first uncorrectable word that an access meets: any it reads, or any it writes in part (13 R295, R296). -/
def Channel.badIn (c : Channel) (a n : Nat) (write : Bool) : Option Nat :=
  c.bad.find? fun k => decide (k < a + n) && decide (a < k + wordSize k) &&
    !(write && decide (a ≤ k) && decide (k + wordSize k ≤ a + n))

/-- Bytes as Adori or the host function reads them: an uncorrectable word reads as all ones (13 R295, R306). -/
def Channel.rdA (c : Channel) (a n : Nat) : List Byte :=
  if (c.badIn a n false).isNone then c.rd a n
  else (c.rd a n).zipIdx.map fun (b, i) => if (c.badIn (a + i) 1 false).isSome then 0xFF else b

def Channel.rdNA (c : Channel) (a n : Nat) : Nat := ofBytes (c.rdA a n)

/-- Writes bytes to channel memory. A codeword or word written whole is readable again; one written in part takes the
bytes and stays uncorrectable (13 R296). -/
def Channel.wr (c : Channel) (a : Nat) (bs : List Byte) : Channel :=
  { c with
    mem := Mem.write 0 c.mem a bs
    bad := c.bad.filter fun k => !(decide (a ≤ k) && decide (k + wordSize k ≤ a + bs.length)) }

/-- A stack that the range touches has its accesses stopped (13 R303). -/
def Channel.stopped (c : Channel) (a n : Nat) : Bool :=
  decide (0 < n) && (List.finRange 4).any fun i =>
    c.stk[i].overtemp && decide (a < 0x900000000 * (i.val + 1)) && decide (0x900000000 * i.val < a + n)

/-- A command's write: it notes the first uncorrectable word that it writes in part (13 R296), and a stack that has stopped
its accesses (R303). -/
def Channel.put (c : Channel) (a : Nat) (bs : List Byte) : Channel :=
  { c.wr a bs with poisonHit := c.poisonHit <|> c.badIn a bs.length true, waitHit := c.waitHit || c.stopped a bs.length }

/-- A write that belongs to no command has landed: no command hears of what it met. -/
def Channel.landed (c : Channel) : Channel := { c with poisonHit := none, waitHit := false }

/-- The registers of an uncorrectable read (13 R295, R298, R306); UE where Adori, the host or the scrubber read. -/
def Channel.noteUe (c : Channel) (a : Nat) (ue : Bool) : Channel :=
  if a < dramSize then
    c.modStack ⟨a / 0x900000000 % 4, Nat.mod_lt _ (by decide)⟩ fun t =>
      { t with ueAddr := BitVec.ofNat 48 (wordOf a), ueTotal := satAdd t.ueTotal 1, stUe := t.stUe || ue }
  else match neveOf a with
    | some k =>
      if h : k < 8 then c.modCore ⟨k, h⟩ fun cs => { cs with neve := { cs.neve with
        ueAddr := BitVec.ofNat 48 (wordOf a), ueTotal := satAdd cs.neve.ueTotal 1, stUe := cs.neve.stUe || ue } }
      else c
    | none => c

/-- Writes a little-endian number of n bytes. -/
def Channel.wrN (c : Channel) (a n v : Nat) : Channel := c.wr a (toBytes n v)
def Channel.putN (c : Channel) (a n v : Nat) : Channel := c.put a (toBytes n v)

end Sys2Proof.Machine
end

