-- ==== Sys2Proof/Machine/Wire.lean ====
section
/-!
DEFINITION. Messages on their way out (14): CRCs, flits and headers as bytes, credits, arbitration and retry of a port,
routes, and sending a message.
-/
namespace Sys2Proof.Machine

open Sys2Proof

/-! ### CRCs (R311, R324) -/

/-- A reflected CRC-32 with polynomial p: initial value and final complement all ones. -/
def crcBit (p : W32) (c : W32) : W32 := if c.getLsbD 0 then (c >>> 1) ^^^ p else c >>> 1
def crcByte (p : W32) (c : W32) (b : Byte) : W32 :=
  (List.range 8).foldl (fun c _ => crcBit p c) (c ^^^ b.setWidth 32)
def crc (p : W32) (bs : List Byte) : W32 := ~~~ (bs.foldl (crcByte p) 0xFFFFFFFF)
/-- IEEE 802.3, 0x04C11DB7 reflected. -/
def crc32 (bs : List Byte) : W32 := crc 0xEDB88320 bs
/-- CRC-32C, 0x1EDC6F41 reflected. -/
def crc32c (bs : List Byte) : W32 := crc 0x82F63B78 bs

/-! ### Flits and headers as bytes (Tables 14.1, 14.3) -/

/-- Bytes 0 to 251 of a flit. -/
def flitBytes (f : Flit) : List Byte :=
  toBytes 4 (f.kind.toNat + 4 * f.vc.val + 16 * f.seq.toNat + 2 ^ 16 * f.ack.toNat + 2 ^ 28 * b2n f.nack) ++
  toBytes 2 f.crcum.toNat ++ toBytes 1 f.crvc.val ++ toBytes 1 f.len.toNat ++ toBytes 2 f.msgid.toNat ++
  toBytes 2 (f.frag.toNat + 512 * b2n f.last) ++ padTo 240 f.payload

def hdrBytes (h : MsgHdr) : List Byte :=
  toBytes 2 h.src.toNat ++ toBytes 2 h.dst.toNat ++ [h.type, h.order, h.rsem] ++
  toBytes 1 (b2n h.rsig + 2 * b2n h.noroute) ++ toBytes 8 h.desc.toNat ++ toBytes 4 h.length.toNat ++
  toBytes 4 h.offs.toNat ++ toBytes 2 h.rinc.toNat ++ [h.hops] ++ toBytes 5 0

def hdrParse (b : List Byte) : MsgHdr :=
  let f := fld b 7 1
  { src := BitVec.ofNat 16 (fld b 0 2), dst := BitVec.ofNat 16 (fld b 2 2), type := BitVec.ofNat 8 (fld b 4 1)
    order := BitVec.ofNat 8 (fld b 5 1), rsem := BitVec.ofNat 8 (fld b 6 1), rsig := f.testBit 0, noroute := f.testBit 1
    desc := BitVec.ofNat 64 (fld b 8 8), length := BitVec.ofNat 32 (fld b 16 4), offs := BitVec.ofNat 32 (fld b 20 4)
    rinc := BitVec.ofNat 16 (fld b 24 2), hops := BitVec.ofNat 8 (fld b 26 1) }

/-- The same message apart from its forwardings. -/
def hdrSame (a b : MsgHdr) : Bool := { a with hops := 0, put := none } == { b with hops := 0, put := none }

/-! ### Sending: credits, arbitration, retry (R312 to R315) -/

def PortState.weight (s : PortState) (v : Fin 4) : Nat :=
  match v with
  | 0 => s.wdata.toNat
  | 1 => s.wred.toNat
  | 2 => s.wctl.toNat
  | 3 => s.wmc.toNat

/-- A virtual channel has a flit and a credit for it. -/
def PortState.ready (s : PortState) (v : Fin 4) : Bool := !(s.txq.getD v []).isEmpty && s.cred.getD v 0 != 0

/-- The rounds of R315 from the channel after v on. -/
def roundFrom (v : Fin 4) : List (Fin 4) :=
  match v with
  | 0 => [1, 3, 2, 0]
  | 1 => [3, 2, 0, 1]
  | 3 => [2, 0, 1, 3]
  | 2 => [0, 1, 3, 2]

/-- The virtual channel of the next slot, and the slots it has then taken in a row. -/
def PortState.pick (s : PortState) : Option (Fin 4 × Nat) :=
  let (v, n) := s.arb
  if s.ready v && decide (n < s.weight v) then some (v, n + 1)
  else ((roundFrom v).find? s.ready).map fun x => (x, 1)

/-- The fields a flit takes as it leaves: ACK, NACK, credits and the CRC. -/
def PortState.stamp (s : PortState) (f : Flit) : PortState × Flit :=
  let f := { f with ack := s.rxSeq - 1, nack := s.nackOut, crcum := s.crFreed.getD s.crTurn 0, crvc := s.crTurn }
  ({ s with nackOut := false, crTurn := s.crTurn + 1 }, { f with crc := crc32 (flitBytes f) })

/-- Puts the next payload flit of a virtual channel on the wire. -/
def PortState.emit (s : PortState) (v : Fin 4) (n : Nat) : PortState :=
  match s.txq.getD v [] with
  | [] => s
  | f :: rest =>
    let (s, f) := s.stamp { f with seq := s.txSeq }
    { s with
      txq := s.txq.set v rest, cred := s.cred.modify v (· - 1), arb := (v, n), txSeq := s.txSeq + 1
      wire := s.wire ++ [f], replayBuf := s.replayBuf ++ [f], txFlits := s.txFlits + 1 }

/-- Sends what credits, the window of 512 and the queues allow. -/
def PortState.pumpGo : Nat → PortState → PortState
  | 0, s => s
  | n + 1, s =>
    if s.st = .up && decide (s.replayBuf.length < 512) then
      match s.pick with
      | some (v, k) => PortState.pumpGo n (s.emit v k)
      | none => s
    else s

def PortState.pump (s : PortState) : PortState := s.pumpGo (s.txq.map List.length).sum

/-- Puts n idle flits on the wire, for slots that no virtual channel takes (R315): they carry ACK, NACK and credits. -/
def PortState.idle : Nat → PortState → PortState
  | 0, s => s
  | n + 1, s =>
    if s.st = .up then
      let (s, f) := s.stamp
        { kind := 0, vc := 0, seq := 0, ack := 0, nack := false, crcum := 0, crvc := 0, len := 0, msgid := 0, frag := 0
          last := false, payload := [], crc := 0 }
      PortState.idle n { s with wire := s.wire ++ [f] }
    else s

/-- Sends every unacknowledged flit again, in order (R312). -/
def PortState.replayAll (s : PortState) : PortState :=
  let (s, fs) := s.replayBuf.foldl (fun (s, out) f =>
    let (s, f) := s.stamp f
    (s, out ++ [f])) (s, ([] : List Flit))
  { s with wire := s.wire ++ fs, replayBuf := fs, replay := satAdd s.replay 1, replays := s.replays + 1 }

/-- Cuts a message into fragments (Table 14.1). -/
def fragsGo (vc : Fin 4) (id : W16) (ag : Option PutInfo) : Nat → Nat → List Byte → List Flit
  | 0, _, _ => []
  | n + 1, i, bs =>
    { kind := 1, vc := vc, seq := 0, ack := 0, nack := false, crcum := 0, crvc := 0
      len := BitVec.ofNat 8 (min 240 bs.length), msgid := id, frag := BitVec.ofNat 9 i
      last := decide (bs.length ≤ 240), payload := bs.take 240, crc := 0
      put := if i = 0 then ag else none } ::
      (if bs.length ≤ 240 then [] else fragsGo vc id ag n (i + 1) (bs.drop 240))

def fragments (vc : Fin 4) (id : W16) (m : Msg) : List Flit := fragsGo vc id m.hdr.put 300 0 (hdrBytes m.hdr ++ m.body)

/-- A port's queue takes a message: it waits there while the port trains (R446). -/
def PortState.enqueue (s : PortState) (vc : Fin 4) (m : Msg) : PortState × W16 :=
  let id := s.nextMsgid
  (({ s with nextMsgid := id + 1, txq := s.txq.modify vc (· ++ fragments vc id m) } : PortState).pump, id)

/-! ### Routes and messages of a channel (R445, R446) -/

def Channel.chid (c : Channel) : ChanId := c.boot.cfg.ident.chid

def Channel.route (c : Channel) (dst : ChanId) : Option Route := c.boot.cfg.routes.find? fun r => r.dest == dst

/-- The port of the main route to a destination is DOWN. -/
def Channel.mainDown (c : Channel) (dst : ChanId) : Bool :=
  match c.route dst with
  | some r => c.ports[r.main].mode == .polvor && c.ports[r.main].st == .down
  | none => false

/-- A port that takes a message to send: training or up. -/
def PortState.sendable (s : PortState) : Bool := s.mode == .polvor && (s.st == .training || s.st == .up)

/-- Messages that MACK answers (R317): put data, dispatch shares, reductions and multicast. -/
def acked (type : Byte) : Bool := type == 1 || type == 2 || type == 3 || type == 5

/-- Sends a message on a port, for a command or a member's share, if any; none where it cannot be sent. -/
def Channel.sendOn (c : Channel) (p : Port) (vc : Fin 4) (m : Msg) (owner : Option Src) (share : Option (Nat × Nat)) :
    Option Channel :=
  let s := c.ports[p]
  if s.sendable then
    let (s, id) := s.enqueue vc m
    let s := if acked m.hdr.type then
        { s with inFlight := s.inFlight ++ [⟨m, p, vc, id, owner, share⟩] }
      else s
    some (c.modPort p fun _ => s)
  else none

/-- Sends a message by its route: the main port, or the alternate where asked for and present. -/
def Channel.send (c : Channel) (vc : Fin 4) (m : Msg) (alt : Bool := false) (owner : Option Src := none)
    (share : Option (Nat × Nat) := none) : Option Channel :=
  match c.route m.hdr.dst with
  | some r => c.sendOn (if alt && r.altValid then r.alt else r.main) vc m owner share
  | none => none

/-- Sends a message for which nobody waits; dropped where it cannot be sent. -/
def Channel.post (c : Channel) (vc : Fin 4) (m : Msg) : Channel := (c.send vc m).getD c

/-- A header from this channel with nothing but a destination, type and length. -/
def Channel.hdr (c : Channel) (dst : ChanId) (type : Byte) (len : Nat) : MsgHdr :=
  { src := c.chid, dst := dst, type := type, order := 0, rsem := 0, rsig := false, noroute := false, desc := 0
    length := BitVec.ofNat 32 len, offs := 0, rinc := 0, hops := 0 }

end Sys2Proof.Machine
end

