-- ==== Sys2Proof/Machine/Ops.lean ====
section
/-!
DEFINITION. The named operations over semaphores, time, heartbeats, faults, freezing and running commands that every
meaning uses.
-/
namespace Sys2Proof.Machine

open Sys2Proof

/-! ### Semaphores (02 R37) -/

/-- A signal adds modulo 2^32. -/
def Channel.semAdd (c : Channel) (s : SemIdx) (n : Nat) : Channel :=
  { c with sems := c.sems.set s.toFin (c.sems[s.toFin] + BitVec.ofNat 32 n) }

def Channel.semSet (c : Channel) (s : SemIdx) (v : W32) : Channel :=
  { c with sems := c.sems.set s.toFin v }

def Channel.semVal (c : Channel) (s : SemIdx) : W32 := c.sems[s.toFin]

/-- A wait with threshold v is satisfied: the difference, as a signed word, is zero or greater. -/
def semOk (val thr : W32) : Bool := !(val - thr).msb

/-! ### Working on one channel -/

/-- A channel at work: its number, its state, the free-value counter, and MSI-X vectors to send, oldest first. -/
structure Wk where
  ch : Ch
  c : Channel
  ctr : Nat
  irqs : List Nat := []
  deriving DecidableEq, Repr

/-- Changes the channel. -/
def Wk.mod (w : Wk) (f : Channel → Channel) : Wk := { w with c := f w.c }

/-! ### The host port, one packet at a time (01 R19, R20) -/

def Queue.size (q : Queue) : Nat := 2 ^ q.log2.toNat
def Queue.cplSize (q : Queue) : Nat := 2 ^ q.cplLog2.toNat

/-- Every completion slot is taken (02 R44). -/
def Queue.cplFull (q : Queue) : Bool := (q.cplPi - q.cplCi).toNat == q.cplSize

/-- The channel is running: its engines, Adori and links act (18). -/
def Channel.up (c : Channel) : Bool := c.boot.life == .running

def Channel.isFrozen (c : Channel) (m : Master) : Bool := c.frz.frozen.contains m

/-- A record waits that could be written now: into channel DRAM, or to the host. -/
def Channel.recordReady (c : Channel) (q : QIdx) : Bool :=
  let x := c.queues[q]
  c.up && !x.waiting.isEmpty && !x.cplFull &&
    !(x.cplLoc && c.stopped (x.cplAddr.toNat + 32 * (x.cplPi.toNat % x.cplSize)) 32)

/-- A function has a packet for the host waiting: an MSI-X message or a record. -/
def Channel.hostWaits (c : Channel) : Bool :=
  !c.isFrozen .host && (!c.irqWait.isEmpty || (List.finRange 160).any fun q => c.recordReady q && !c.queues[q].cplLoc)

/-- It is function ch's turn at the host port: none that waits comes before it in the round (R19). -/
def State.hostTurn (s : State) (ch : Ch) : Bool :=
  (List.finRange 8).all fun x => !s.chans[x].hostWaits || decide ((ch - s.bridge.served - 1).val ≤ (x - s.bridge.served - 1).val)

/-- The host port serves the functions round-robin, a message at a time, until none waits or the turn is a record's, which
COMPLETION_RECORD_WRITE writes (R19, log 126). -/
def State.sendIrqsGo : Nat → State → State
  | 0, s => s
  | n + 1, s =>
    match (List.finRange 8).find? fun x => s.chans[x].hostWaits && s.hostTurn x with
    | none => s
    | some x =>
      match s.chans[x].irqWait with
      | [] => s
      | v :: rest => State.sendIrqsGo n { s with
          chans := s.chans.set x { s.chans[x] with irqWait := rest }
          bridge := { s.bridge with served := x }
          msix := s.msix ++ [(1 + x.val, v)] }

/-- MSI-X messages that wait go out while the host port is up (R20). -/
def State.sendIrqs (s : State) : State :=
  if s.bridge.hostUp then State.sendIrqsGo (s.chans.toList.map fun c => c.irqWait.length).sum s else s

/-- Runs an operation of channel ch in the machine; its MSI-X messages go out on function 1 + ch (01 R17). -/
def State.onCh (s : State) (ch : Ch) (f : Wk → Wk) : State :=
  let w := f { ch := ch, c := s.chans[ch], ctr := s.freeCtr }
  let t := { s with
    chans := s.chans.set ch { w.c with
      poisonHit := s.chans[ch].poisonHit, waitHit := s.chans[ch].waitHit, irqWait := w.c.irqWait ++ w.irqs }
    freeCtr := w.ctr }
  if w.irqs.isEmpty then t else t.sendIrqs

/-- Runs an operation that only changes the channel. -/
def State.modCh (s : State) (ch : Ch) (f : Channel → Channel) : State := s.onCh ch fun w => w.mod f

/-- Samples PFR_TIME: a free number of counts has passed (17 R398, log 16). -/
def Wk.time (w : Wk) : Wk × W64 :=
  let t := w.c.gov.time + BitVec.ofNat 64 (Config.elapsed w.ctr)
  ({ w with c := { w.c with gov := { w.c.gov with time := t } }, ctr := w.ctr + 1 }, t)

/-! ### Channel life (18) -/

/-- Attempts start or run (10 R227, R246). -/
def Channel.training (c : Channel) : Bool :=
  match c.stp.st with
  | .idle | .halted | .done => false
  | _ => true

/-- In training mode: a HALTED channel leaves it only through a reset (10 R237). -/
def Channel.inTraining (c : Channel) : Bool := c.training || c.stp.st == .halted

/-! ### Modules and replicas (01 R23, 16 R363) -/

def modOf (x : ChanId) : W16 := BitVec.ofNat 16 (x.toNat / 8)
def moduleChans (m : W16) : List ChanId := (List.range 8).map fun d => BitVec.ofNat 16 (8 * m.toNat + d)

/-- The replica of a module: the configuration block's for this channel's own (16 R363; log 28). -/
def Channel.replica (c : Channel) (m : W16) : Nat := if m = modOf c.chid then c.flt.repl.toNat else Config.replicaOf m

/-- A module whose removal is planned, with every module of its replica (16 R363). -/
def Channel.leaving (c : Channel) (rem : List W16) (m : W16) : Bool := rem.any fun x => x == m || c.replica x == c.replica m

/-- A manager of the membership list names this channel's own drift, or its own field: a removal leaves the drift's and the
field's names as they are (01 R23, log 116). -/
def Channel.ownDrift (c : Channel) (x : ChanId) : Bool := c.boot.cfg.modules.contains (modOf x)
def Channel.ownField (c : Channel) (x : ChanId) : Bool :=
  let i := c.boot.cfg.ident
  x == i.pfm || x == i.sfm || c.flt.fmgrChan == some x

/-- This channel's field is listed first (01 R23). -/
def Channel.firstField (c : Channel) : Bool := c.flt.members.fieldManagers.head?.any c.ownField

/-- A system of one drift: its field managers are its drift managers (01 R23). -/
def Channel.oneDrift (c : Channel) : Bool :=
  let i := c.boot.cfg.ident
  i.pdm == i.pfm && i.sdm == i.sfm && decide (c.flt.members.driftManagers.length ≤ 1) &&
    decide (c.flt.members.fieldManagers.length ≤ 1)

/-! ### Heartbeats and channel faults (16) -/

def stpCode : StpSt → Nat
  | .idle => 0
  | .starting => 1
  | .running => 2
  | .gated => 3
  | .reported => 4
  | .applying => 5
  | .rollback => 6
  | .halted => 7
  | .done => 8

/-- The heartbeat this channel sends now (16 Table 16.3); TAKEOVER is set in the replies of a takeover alone. -/
def Channel.heartbeat (c : Channel) : Heartbeat :=
  { chan := c.boot.cfg.ident.chid
    step := c.nmon.step
    ver := c.stp.ver
    mgen := c.flt.mgen
    state := BitVec.ofNat 4 (stpCode c.stp.st)
    fault := c.flt.fault
    degraded := c.flt.degraded
    ready := c.flt.ready
    quiesced := c.flt.quiesced
    rebuild := c.flt.rebuild
    removed := c.flt.removed
    takeover := false
    fclass := c.flt.fclass
    faddr := c.flt.faddr
    strag := c.flt.strag
    degmask := c.flt.degmask
    hbseq := c.flt.hbseq
    nogroup := c.flt.nogroup
    named := c.flt.named
    lasting := c.flt.fault }

/-- The 48 bytes of a heartbeat (16 Table 16.3). -/
def hbBytes (h : Heartbeat) : List Byte :=
  toBytes 4 h.step.toNat ++ toBytes 4 h.ver.toNat ++ toBytes 4 h.mgen.toNat ++ toBytes 1 h.state.toNat ++
  toBytes 1 (b2n h.fault + 2 * b2n h.degraded + 4 * b2n h.ready + 8 * b2n h.quiesced + 16 * b2n h.rebuild +
    32 * b2n h.removed + 64 * b2n h.takeover) ++
  [h.fclass, 0] ++ toBytes 8 h.faddr.toNat ++ toBytes 4 h.strag.toNat ++ [h.degmask, 0, 0, 0] ++
  toBytes 8 h.hbseq.toNat ++ toBytes 8 0

/-- The 16 bytes of a report (10 Table 10.6). -/
def reportBytes (r : Report) : List Byte :=
  toBytes 4 r.step.toNat ++ toBytes 4 r.ver.toNat ++ toBytes 1 (b2n r.nf + 2 * b2n r.bad + 4 * b2n r.recomp) ++
  toBytes 3 0 ++ toBytes 4 r.chan.toNat

def tokCode : TokKind → Nat
  | .start => 1
  | .commit => 2
  | .skip => 3
  | .rollback => 4
  | .halt => 5

/-- The 32 bytes of a token (10 Table 10.7). -/
def tokenBytes (t : Token) : List Byte :=
  toBytes 4 t.ver.toNat ++ toBytes 4 t.step.toNat ++ toBytes 1 (tokCode t.kind) ++ [t.lsexp, t.dls, 0] ++
  toBytes 4 t.mepoch.toNat ++ toBytes 8 t.batch.toNat ++ toBytes 8 0

/-- Sends a report or token: a message of TYPE 4 on the main route. -/
def Channel.sendCtl (c : Channel) (dst : ChanId) (body : List Byte) : Channel :=
  if dst = c.chid then c else c.post 2 ⟨c.hdr dst 4 body.length, body⟩

/-- Sends a heartbeat: by the alternate route where the main route's port is DOWN (R357, 14 R446). -/
def Channel.sendHbTo (c : Channel) (dst : ChanId) (body : List Byte) : Channel :=
  if dst = c.chid then c
  else (c.send 2 ⟨c.hdr dst 4 body.length, body⟩ (alt := c.mainDown dst)).getD c

/-- A manager followed and its standby: those that IDENTITY names, or since a takeover or a naming the new ones (R359). -/
def pairOf (mgr sb : Option ChanId) (p s : ChanId) : List ChanId :=
  mgr.getD p :: (match sb with | some x => [x] | none => if mgr.isNone then [s] else [])

/-- The drift manager that this channel follows, and its standby. -/
def Channel.driftPair (c : Channel) : List ChanId := pairOf c.flt.mgrChan c.flt.sbChan c.boot.cfg.ident.pdm c.boot.cfg.ident.sdm

/-- The managers above the manager of a field that is not listed first: the first field's (01 R23). -/
def Channel.topPair (c : Channel) : List ChanId :=
  let top := c.flt.members.fieldManagers.headD c.boot.cfg.ident.pfm
  if c.oneDrift || !c.flt.field.acting || c.firstField then []
  else pairOf c.flt.topChan c.flt.topSb top (Config.fieldStandbyOf top)

/-- The managers above a drift manager (01 R23): for a field manager its own standby, which knows the drifts by their
heartbeats (R357). -/
def Channel.fieldPair (c : Channel) : List ChanId :=
  let i := c.boot.cfg.ident
  if c.oneDrift then []
  else if c.flt.field.acting then c.flt.field.standbyChan.toList
  else if c.flt.drift.acting then pairOf c.flt.fmgrChan c.flt.fsbChan i.pfm i.sfm
  else []

/-- Every member that stays in a manager's charge has sent READY (R373). -/
def Channel.allReady (c : Channel) (g : Mgr) : Bool :=
  !g.acting || (g.table.filter fun e => !e.failed && !e.lasting && !c.leaving g.removals (modOf e.chan)).all (·.ready)

/-- Sends a heartbeat body to its managers (R357), but none in DONE (10 R246), and none once idle (R363); HBSEQ then counts
on. A manager is READY for the managers above it once its members are (R373, log 116). One about another channel goes
upward alone, and names no stragglers (R362). -/
def Channel.sendHbBody (c : Channel) (h : Heartbeat) : Channel :=
  if c.stp.st = .done || c.flt.retired then c
  else
  let up := { h with mgen := c.flt.fgen, ready := h.ready && c.allReady c.flt.drift }
  let top := { up with mgen := c.flt.tgen, ready := up.ready && c.allReady c.flt.field }
  let (fields, tops) := (c.fieldPair, c.topPair)
  let c := if h.about.isSome then c else c.driftPair.foldl (fun c d => c.sendHbTo d (hbBytes h)) c
  let c := fields.foldl (fun c d => c.sendHbTo d (hbBytes up)) c
  let c := tops.foldl (fun c d => c.sendHbTo d (hbBytes top)) c
  { c with flt := { c.flt with
      sentHb := c.flt.sentHb ++ [h], hbseq := c.flt.hbseq + 1, named := if h.about.isSome then c.flt.named else [] } }

def Channel.sendHb (c : Channel) : Channel := c.sendHbBody c.heartbeat

/-- A channel fault (R354): FAULT, the class and address, no more segments, a heartbeat at once. -/
def Channel.fault (c : Channel) (cls : Nat) (addr : Nat) : Channel :=
  let c := { c with flt := { c.flt with
    fault := true, fclass := BitVec.ofNat 8 cls, faddr := BitVec.ofNat 48 addr } }
  c.sendHb

/-- A detected fault that calls for a rollback only (16 Table 16.1): in training, a heartbeat with FAULT and its class. -/
def Channel.reportFault (c : Channel) (cls addr : Nat) : Channel :=
  let c := { c with flt := { c.flt with fclass := BitVec.ofNat 8 cls, faddr := BitVec.ofNat 48 addr } }
  if c.inTraining then c.sendHbBody { c.heartbeat with fault := true } else c

/-! ### Freezing (02 R53, 16 R356) -/

/-- Records a freeze: the first since reset in FLT_FRZ_INFO and FLT_FRZ_ADDR, every one counted. -/
def Frz.record (f : Frz) (m : Master) (addr : Nat) (write : Bool) : Frz :=
  let f' := if f.count = 0 then
      { f with
        write := write
        ctxv := match m with | .context .. => true | _ => false
        ctx := match m with | .context _ x => BitVec.ofNat 4 x.val | _ => 0
        master := BitVec.ofNat 8 (masterCode m)
        addr := BitVec.ofNat 48 addr }
    else f
  { f' with count := satAdd f.count 1, frozen := if f.frozen.contains m then f.frozen else f.frozen ++ [m] }

/-- Every queue of an engine shows FROZEN. -/
def Channel.freezeQueues (c : Channel) (e : Engine) : Channel :=
  (List.finRange 160).foldl
    (fun c q => if queueEngine q.val == some e then c.modQ q fun x => { x with frozen := true } else c) c

/-- The address guard freezes a master (R53, R356). -/
def Channel.freeze (c : Channel) (m : Master) (addr : Nat) (write : Bool) : Channel :=
  let c := { c with frz := c.frz.record m addr write }
  let c := match m with
    | .engine e => c.freezeQueues e
    | .context k x => c.modCtx k x fun t => { t with frozen := true }
    | _ => c
  match m with
  | .host => c
  | .nunatak _ => c.fault 0x04 addr
  | _ => if c.inTraining then c.fault 0x04 addr else c

/-! ### Command errors -/

/-! ### The head of a queue (02 R31, R44) -/

/-- No command starts: a record waits for a slot (R44), or as many records are held as the ring is deep (01 R20). -/
def Queue.cplBlocked (q : Queue) : Bool := !q.waiting.isEmpty && (q.cplFull || decide (q.cplSize ≤ q.waiting.length))

/-- Address of a queue's next command. -/
def Queue.headAddr (x : Queue) : Nat := x.base.toNat + 64 * (x.ci.toNat % x.size)

/-- A command as its 64 bytes give it (02 Table 2.2). -/
def Command.parse (b : List Byte) : Command :=
  let w := fld b 0 8
  let v := fld b 8 8
  { opc := BitVec.ofNat 8 w, cpl := w.testBit 8, irq := w.testBit 9, waiten := w.testBit 10, sigen := w.testBit 11
    strict := w.testBit 12, split := BitVec.ofNat 2 (bits w 14 13), floe := BitVec.ofNat 16 (bits w 31 16)
    wsem := BitVec.ofNat 8 (bits w 39 32), ssem := BitVec.ofNat 8 (bits w 47 40), tag := BitVec.ofNat 16 (bits w 63 48)
    wval := BitVec.ofNat 32 (bits v 31 0), sinc := BitVec.ofNat 16 (bits v 47 32)
    a0 := BitVec.ofNat 64 (fld b 16 8), a1 := BitVec.ofNat 64 (fld b 24 8), a2 := BitVec.ofNat 64 (fld b 32 8)
    a3 := BitVec.ofNat 64 (fld b 40 8), a4 := BitVec.ofNat 64 (fld b 48 8), a5 := BitVec.ofNat 64 (fld b 56 8) }

/-- The command at a queue's head. -/
def Channel.headCmd (c : Channel) (q : QIdx) : Command := Command.parse (c.rd c.queues[q].headAddr 64)

/-- The head of a queue can start, as far as its queue goes: it is there, its record has a slot, and its wait is
satisfied. -/
def Channel.headReady (c : Channel) (q : QIdx) : Bool :=
  let x := c.queues[q]
  let k := c.headCmd q
  x.enable && !x.stopped && !x.frozen && x.pi != x.ci && !x.cplBlocked && (!k.waiten || semOk (c.semVal k.wsem) k.wval)

/-! ### Translation (11 R261, R262) -/

/-- Addresses from a descriptor's BASE below 2^44 are virtual in translated mode. -/
def Channel.virtual (c : Channel) (a : Nat) : Bool := c.agd.mode && decide (a < 2 ^ 44)

/-- The page entry of a virtual page: the cached copy if there is one. -/
def Channel.pageEntry (c : Channel) (page : Nat) : W64 :=
  match c.agd.tc.lookup page with
  | some e => e
  | none => BitVec.ofNat 64 (c.rdN (c.agd.ptBase.toNat + 8 * page) 8)

/-- The physical address of a virtual one. -/
def Channel.tr (c : Channel) (a : Nat) : Nat :=
  if c.virtual a then
    bits (c.pageEntry (a / 2 ^ 21)).toNat 47 21 * 2 ^ 21 + a % 2 ^ 21
  else a

/-- Counts a translation and moves its entry to the front of the cache of 4,096 entries. -/
def Channel.cachePage (c : Channel) (page : Nat) : Channel :=
  let e := c.pageEntry page
  let hit := (c.agd.tc.lookup page).isSome
  let rest := c.agd.tc.filter fun p => p.1 != page
  { c with agd := { c.agd with
      tc := (page, e) :: rest.take 4095
      tcHit := if hit then c.agd.tcHit + 1 else c.agd.tcHit
      tcMiss := if hit then c.agd.tcMiss else c.agd.tcMiss + 1 } }

/-- How a command can end in error while it runs. -/
inductive ErrKind where
  /-- status 0x13 with a cause of Table 11.3 and the address of INFO -/
  | fault (cause addr : Nat)
  /-- status 0x14: the access at addr is not performed and freezes the engine -/
  | guard (addr : Nat) (write : Bool)
  /-- as guard, for an access that a page entry forbids (11 R262) -/
  | unmapped (addr : Nat) (write : Bool)
  /-- as guard, for a page entry whose FRAME lies outside DRAM: PTERR as well (11 R262) -/
  | frame (addr : Nat) (write : Bool)
  /-- status 0x16: the codeword or word at addr reads as uncorrectable (13 R295, R296) -/
  | ue (addr : Nat)
  /-- any other status, with INFO -/
  | status (code info : Nat)
  /-- translated mode: the page of this address is absent (11 R262) -/
  | absent (addr : Nat)
  /-- an access to a stack that has stopped its accesses waits (13 R303): the row changes nothing -/
  | wait
  deriving DecidableEq, Repr

/-- An error, with the address guard as the translations that went before it left it (11 R262). -/
structure Err where
  kind : ErrKind
  seen : Option Agd := none
  deriving DecidableEq, Repr

def Err.fault (cause addr : Nat) : Err := ⟨.fault cause addr, none⟩
def Err.guard (addr : Nat) (write : Bool) : Err := ⟨.guard addr write, none⟩
def Err.unmapped (addr : Nat) (write : Bool) : Err := ⟨.unmapped addr write, none⟩
def Err.frame (addr : Nat) (write : Bool) : Err := ⟨.frame addr write, none⟩
def Err.ue (addr : Nat) : Err := ⟨.ue addr, none⟩
def Err.status (code info : Nat) : Err := ⟨.status code info, none⟩
def Err.absent (addr : Nat) : Err := ⟨.absent addr, none⟩
def Err.wait : Err := ⟨.wait, none⟩

/-- An error that an access meets after the translations that a channel holds. -/
def Err.after (e : Err) (c : Channel) : Err := { e with seen := some c.agd }

/-- The translations that went before an error were performed, and count (11 R262). -/
def Channel.sees (c : Channel) (e : Err) : Channel :=
  match e.seen with
  | some g => { c with agd := g }
  | none => c

/-- The address of an absent page. -/
def Err.page (e : Err) : Option Nat := match e.kind with | .absent a => some a | _ => none
def Err.waits (e : Err) : Bool := e.kind == .wait

/-- The queue AGD_DF_CAUSE names: the command's, or the dispatcher queue that issued the share (log 22). -/
def Channel.faultQ (c : Channel) (r : Running) : Byte :=
  match r.src with
  | .queue q => BitVec.ofNat 8 q.val
  | .input _ =>
    match r.share with
    | some sh =>
      match sh.ref.owner with
      | .here id =>
        match c.floes.find? fun f => f.id == id with
        | some { src := .queue q, .. } => BitVec.ofNat 8 q.val
        | _ => Config.faultQueue r.seq.toNat
      | .away .. | .adori => Config.faultQueue r.seq.toNat
    | none => Config.faultQueue r.seq.toNat

/-- A descriptor fault (11 R260): AGD_DF_* and the status. -/
def Channel.descFault (c : Channel) (r : Running) (cause addr : Nat) : Channel × Result :=
  ({ c with agd := { c.agd with
      dfQueue := c.faultQ r, dfCause := BitVec.ofNat 4 cause, dfDesc := BitVec.ofNat 48 addr
      dfCount := satAdd c.agd.dfCount 1, df := true } },
   { status := 0x13, info := BitVec.ofNat 64 addr })

/-- The master of a running command. -/
def runMaster (r : Running) : Master := .engine ((srcEngine r.src).getD .dispatcher)

/-- Ends a command in error. A translation that fails is one too, and counts, as do those before it (11 R262). -/
def Channel.fail (c : Channel) (r : Running) (e : Err) : Channel × Result :=
  let c := c.sees e
  match e.kind with
  | .fault cause addr => c.descFault r cause addr
  | .guard addr write => (c.freeze (runMaster r) addr write, { status := 0x14, info := BitVec.ofNat 64 addr })
  | .unmapped addr write =>
    ((c.cachePage (addr / 2 ^ 21)).freeze (runMaster r) addr write, { status := 0x14, info := BitVec.ofNat 64 addr })
  | .frame addr write =>
    let c := c.cachePage (addr / 2 ^ 21)
    let c := { c with agd := { c.agd with pterr := true } }
    (c.freeze (runMaster r) addr write, { status := 0x14, info := BitVec.ofNat 64 addr })
  | .ue addr => (c.noteUe addr false, { status := 0x16, info := BitVec.ofNat 64 addr })
  | .status code info => (c, { status := BitVec.ofNat 8 code, info := BitVec.ofNat 64 info })
  | .absent addr => (c, { status := 0x15, info := BitVec.ofNat 64 addr })
  | .wait => (c, {})

abbrev Ck := Except Err

/-- Raises an error where the condition fails. -/
def need (p : Bool) (e : Err) : Ck Unit := if p then .ok () else .error e

/-- Physical bytes can be read now. -/
def Channel.canRead (c : Channel) (a n : Nat) : Ck Unit :=
  if !inRegion a n then .error (.guard a false)
  else if c.stopped a n then .error .wait
  else
    match c.badIn a n false with
    | some k => .error (.ue k)
    | none => .ok ()

/-- A checked read of physical bytes. -/
def Channel.get (c : Channel) (a n : Nat) : Ck (List Byte) := (c.canRead a n).map fun _ => c.rd a n

/-- A block that a rule places at an alignment (02 R439): checked, then read. -/
def Channel.getBlock (c : Channel) (a n align cause : Nat) : Ck (List Byte) :=
  if a % align != 0 then .error (.fault cause a) else c.get a n


/-! ### Running commands -/

def Channel.findRun (c : Channel) (s : Src) : Option Running := c.running.find? fun r => r.src == s

/-- Replaces the running command of a source. -/
def Channel.setRun (c : Channel) (r : Running) : Channel :=
  { c with running := c.running.map fun x => if x.src = r.src then r else x }

/-- A command halts at an absent page: after the bytes moved so far (11 R262). The translation counts. -/
def Channel.haltRun (c : Channel) (r : Running) (e : Err) (moved a : Nat) : Channel :=
  ((c.sees e).cachePage (a / 2 ^ 21)).setRun { r with halted := some (moved, a), haltedOnce := true }

/-- Ends the running command of a source with a result; COMMAND_COMPLETE carries it on. -/
def Channel.finish (c : Channel) (r : Running) (res : Result) : Channel := c.setRun { r with result := some res }

/-- What a row leaves: nothing changed where a write of its command waits for a stopped stack (13 R303), and the command
ended with status 0x16 where a write of it met an uncorrectable word in part (R296). -/
def Wk.settle (w : Wk) (src : Src) (before : Wk) : Wk :=
  if w.c.waitHit then before
  else
  match w.c.poisonHit with
  | none => w
  | some k =>
    let c := { w.c with poisonHit := none }
    match c.findRun src with
    | some r =>
      if (r.result.map fun q => q.status).getD 0 = 0 then
        let res : Result := { status := 0x16, info := BitVec.ofNat 64 k }
        { w with c := (c.noteUe k false).finish { r with held := none, halted := none } res }
      else { w with c := c }
    | none => { w with c := c }

/-- Runs the effect of an opcode's row: the source's running command has that opcode and has no result yet, its engine
is not frozen, and it is no floe command at the dispatcher, whose members run it; otherwise the event's occasion is absent and nothing happens (log 2). -/
def onRun (s : State) (ch : Ch) (src : Src) (opc : Byte) (f : Wk → Running → Wk) : State :=
  match s.chans[ch].findRun src with
  | some r =>
    if s.chans[ch].up && r.cmd.opc == opc && (srcEngine r.src != some .dispatcher || opc == 0x04) && r.result.isNone && r.held.isNone && r.halted.isNone && !s.chans[ch].isFrozen (runMaster r) then
      s.onCh ch fun w => let w := w.mod Channel.landed
        (f w r).settle src w
    else s
  | none => s

/-- An effect that ends its command with a result or an error. An absent page halts the command instead (11 R262):
PAGE_RESUME lets the row happen again, PGTMO_EXPIRY ends it. -/
def endWith (w : Wk) (r : Running) (x : Ck (Wk × Result)) : Wk :=
  match x with
  | .ok (w', res) => w'.mod fun c => c.finish r res
  | .error e =>
    match e.kind with
    | .absent a => w.mod fun c => c.haltRun r e 0 a
    | .wait => w
    | _ =>
      let (c, res) := w.c.fail r e
      { w with c := c.finish r res }

end Sys2Proof.Machine
end

