-- ==== Sys2Proof/Machine/Operands.lean ====
section
/-!
DEFINITION. Operands: tensor descriptors (11), their checks, addresses and translation, superblocks in memory,
split shares (01 R13), and rounding control (03 Table 3.8).
-/
namespace Sys2Proof.Machine

open Sys2Proof

/-- A tensor descriptor (11 Table 11.1) as read, with the address it was read at. -/
structure Desc where
  addr : Nat
  base : Nat
  fmtCode : Nat
  bs16 : Bool
  rax : Bool
  strided : Bool
  nd : Nat
  coff : Nat
  eoff : Nat
  rstride : Nat
  ext : List Nat
  str : List Nat
  goff : List Nat
  gext : List Nat
  orgr : Nat
  orgc : Nat
  padv : W32
  deriving DecidableEq, Repr

namespace Desc

/-- Splits the 128 bytes into fields (Table 11.1). -/
def parse (addr : Nat) (b : List Byte) : Desc :=
  let w0 := fld b 0 8
  { addr := addr
    base := bits w0 47 0
    fmtCode := bits w0 52 48
    bs16 := w0.testBit 53
    rax := w0.testBit 54
    strided := w0.testBit 55
    nd := bits w0 57 56 + 1
    coff := fld b 8 5
    eoff := fld b 16 5
    rstride := fld b 24 5
    ext := (List.range 4).map fun i => fld b (32 + 4 * i) 4
    str := (List.range 2).map fun i => fld b (48 + 8 * i) 5
    goff := (List.range 4).map fun i => fld b (64 + 4 * i) 4
    gext := (List.range 4).map fun i => fld b (80 + 4 * i) 4
    orgr := fld b 96 1 % 32
    orgc := fld b 97 1 % 32
    padv := BitVec.ofNat 32 (fld b 100 4) }

/-- The element format; F32 where the code is reserved, which the check refuses first. -/
def fmt (d : Desc) : Fmt := (Fmt.ofCode d.fmtCode).getD .f32

/-- Extents of the present dimensions. -/
def dims (d : Desc) : List Nat := d.ext.take d.nd
/-- What the two descriptors of a st.put must agree in (12 R274): NDIM, FMT, BS16, RAX, extents. -/
def agree (d : Desc) : List Nat := [d.nd, d.fmtCode, b2n d.bs16, b2n d.rax] ++ d.dims
/-- Extents of the whole tensor (R259). -/
def whole (d : Desc) : List Nat := (d.dims.zip d.gext).map fun (e, g) => if g = 0 then e else g
/-- Rows and columns of a plane (R248): one row for NDIM = 1. -/
def er (d : Desc) : Nat := if d.nd = 1 then 1 else d.ext.getD (d.nd - 2) 0
def ec (d : Desc) : Nat := d.ext.getD (d.nd - 1) 0
/-- Outer extents, outermost first. -/
def outer (d : Desc) : List Nat := d.ext.take (d.nd - 2)
def planes (d : Desc) : Nat := d.outer.foldl (· * ·) 1
/-- Block rows and columns of a plane (R249). -/
def br (d : Desc) : Nat := (d.orgr + d.er + 31) / 32
def bc (d : Desc) : Nat := (d.orgc + d.ec + 31) / 32
def nblocks (d : Desc) : Nat := d.planes * d.br * d.bc
/-- Block n as (plane, block row, block column) (R249). -/
def blockAt (d : Desc) (n : Nat) : Nat × Nat × Nat := (n / (d.br * d.bc), n / d.bc % d.br, n % d.bc)
def blockIdx (d : Desc) (p r c : Nat) : Nat := (p * d.br + r) * d.bc + c
/-- Bytes of a line and a block (Table 11.2). -/
def lb (d : Desc) : Nat := 4 * d.fmt.width
def bb (d : Desc) : Nat := 32 * d.lb
/-- Bytes of a block's entry in the code or scale array. -/
def cb (d : Desc) : Nat := if d.fmt.isMx then 32 else if d.bs16 then 32 else 16

/-- Indices of a plane in the outer dimensions. -/
def outerIdx (d : Desc) (p : Nat) : List Nat :=
  match d.outer with
  | [] => []
  | [_] => [p]
  | [_, b] => [p / b, p % b]
  | l => l

/-- Grid position (gi, gj) of block (r, c) lies in the valid region. -/
def valid (d : Desc) (r c gi gj : Nat) : Bool :=
  let i := 32 * r + gi
  let j := 32 * c + gj
  decide (d.orgr ≤ i) && decide (i < d.orgr + d.er) && decide (d.orgc ≤ j) && decide (j < d.orgc + d.ec)

/-- Valid positions of block n, by line and element (R250, R256). -/
def validLines (d : Desc) (n : Nat) : List (List Bool) :=
  let (_, r, c) := d.blockAt n
  (List.range 32).map fun l => (List.range 32).map fun k =>
    if d.rax then d.valid r c k l else d.valid r c l k

/-- Piece coordinates of line l, element k of block n. -/
def coord (d : Desc) (n l k : Nat) : List Nat :=
  let (p, r, c) := d.blockAt n
  let (gi, gj) := if d.rax then (k, l) else (l, k)
  let i := 32 * r + gi - d.orgr
  let j := 32 * c + gj - d.orgc
  if d.nd = 1 then [j] else d.outerIdx p ++ [i, j]

/-- Row-major index of coordinates against extents. -/
def rowMajor (xs es : List Nat) : Nat := (xs.zip es).foldl (fun a (x, e) => a * e + x) 0

/-- The keyed coordinate (u, v) of a piece coordinate (08 R195, 11 R259). -/
def keyed (d : Desc) (x : List Nat) : Nat × Nat :=
  let g := d.whole
  let x := (x.zip d.goff).map fun (a, o) => a + o
  -- the highest dimension whose extent exceeds 1
  match (List.range d.nd).reverse.find? (fun i => decide (1 < g.getD i 0)) with
  | none => (0, 0)
  | some h => (rowMajor (x.take h) (g.take h), x.getD h 0)

/-- Start of the row of grid row i in plane p, strided layout (R252). -/
def rowAddr (d : Desc) (p i : Nat) : Nat :=
  d.base + ((d.outerIdx p).zip d.str).foldl (fun a (x, s) => a + x * s) 0 + (if d.nd = 1 then 0 else i * d.rstride)

/-- Element runs of block n: (address, bytes, index), by line (tiled) or by grid row (strided) (R251, R252). -/
def runs (d : Desc) (n : Nat) : List (Nat × Nat) :=
  if d.strided then
    let (p, r, c) := d.blockAt n
    (List.range (if d.nd = 1 then 1 else 32)).map fun gi => (d.rowAddr p (32 * r + gi) + c * d.lb, d.lb)
  else (List.range 32).map fun l => (d.base + n * d.bb + l * d.lb, d.lb)

/-- Addresses of the code (or scale) entry and the exponent of block n (R251). -/
def codeAddr (d : Desc) (n : Nat) : Nat := d.base + d.coff + n * d.cb
def expAddr (d : Desc) (n : Nat) : Nat := d.base + d.eoff + n

/-- Packed length of the row of E_c elements, rounded up to the packing unit (R253). -/
def packedLen (d : Desc) : Nat :=
  match d.fmt.width with
  | 6 => (d.ec + 3) / 4 * 3
  | w => (d.ec * w + 7) / 8

/-- Row length of R253. -/
def rowLen (d : Desc) : Nat := if d.fmt.isWide then d.packedLen else d.bc * d.lb
/-- Bytes a plane spans in the strided layout (R253); every grid row for the range check of R260. -/
def planeSpan (d : Desc) (grid : Bool) : Nat :=
  if d.nd = 1 then (if grid then d.bc * d.lb else d.rowLen)
  else if grid then (32 * d.br - 1) * d.rstride + d.bc * d.lb
  else if d.fmt.isWide then (d.er - 1) * d.rstride + d.rowLen
  else (32 * d.br - 1) * d.rstride + d.rowLen

/-- Bytes of the element array from BASE (R260). -/
def elemSpan (d : Desc) : Nat :=
  if d.strided then
    (d.outer.zip d.str).foldl (fun a (e, s) => a + (e - 1) * s) (d.planeSpan true)
  else d.nblocks * d.bb

/-- The arrays of a tensor: first address and length. -/
def arrays (d : Desc) : List (Nat × Nat) :=
  (d.base, d.elemSpan) ::
    (if d.fmt.isWide then []
     else (d.base + d.coff, d.nblocks * d.cb) ::
      (if d.fmt.isMx then [] else [(d.base + d.eoff, d.nblocks)]))

/-- Two written positions of different planes of a strided layout share a byte (R253): rows of rowLen bytes at stride
RSTRIDE, planes at the outer strides. -/
def planesMeet (d : Desc) : Bool :=
  let (e0, s0, e1, s1) := match d.outer with
    | [e] => (1, 0, e, d.str.getD 0 0)
    | [a, b] => (a, d.str.getD 0 0, b, d.str.getD 1 0)
    | _ => (1, 0, 1, 0)
  let rows : Int := if d.fmt.isWide then d.er else 32 * d.br
  let r : Int := d.rstride
  (List.range e0).any fun (x0 : Nat) => (List.range (2 * e1 - 1)).any fun (k : Nat) =>
    let x1 : Int := (k : Int) - ((e1 : Int) - 1)
    (x0 != 0 || decide (0 < x1)) &&
      (let t : Int := (x0 : Int) * (s0 : Int) + x1 * (s1 : Int)
       let q : Int := (-t) / r
       [q, q + 1].any fun i =>
        let i := max (-(rows - 1)) (min i (rows - 1))
        decide ((t + i * r).natAbs < d.rowLen))

/-- The stride rule of R253: positions do not share a byte. Spans that nest meet it; the row rule holds whatever the
number of rows. -/
def stridesOk (d : Desc) : Bool :=
  d.nd == 1 ||
    (decide (d.rowLen ≤ d.rstride) &&
      ((match d.outer with
        | [] => true
        | [_] => decide (d.planeSpan false ≤ d.str.getD 0 0)
        | [_, e1] => decide (d.planeSpan false ≤ d.str.getD 1 0) &&
            decide ((e1 - 1) * d.str.getD 1 0 + d.planeSpan false ≤ d.str.getD 0 0)
        | _ => true) || !d.planesMeet))

/-- The descriptor check of R260: the cause of Table 11.3 of the first rule broken, taken in ascending cause, the
range check last. -/
def check (d : Desc) (translated : Bool) : Option Nat :=
  let f := d.fmt
  let narrow := !f.isWide
  if (Fmt.ofCode d.fmtCode).isNone || (f.isMx && d.bs16) then some 0x1
  else if d.dims.any (· == 0) || (d.ext.drop d.nd).any (· != 0)
      || decide (2 ^ 29 < d.er) || decide (2 ^ 29 < d.ec) || decide (65536 < d.planes)
      || (d.goff.drop d.nd).any (· != 0) || (d.gext.drop d.nd).any (· != 0)
      || (d.strided && (d.str.drop (d.nd - 2)).any (· != 0)) then some 0x2
  else if !d.strided && (d.rstride != 0 || d.str.any (· != 0)) then some 0x3
  else if d.strided && ((d.nd == 1 && d.rstride != 0) || (narrow && d.rax) || !d.stridesOk) then some 0x3
  else if (d.orgr != 0 || d.orgc != 0) && (narrow || d.strided) then some 0x4
  else if (f == .b16 && d.base % 2 != 0) || (f == .f32 && d.base % 4 != 0)
      || (narrow && d.coff % 64 != 0) || (f.isNarrow && d.eoff % 64 != 0) then some 0x6
  else if (List.range d.nd).any (fun i =>
      let g := d.gext.getD i 0
      let o := d.goff.getD i 0
      (g == 0 && o != 0) || (g != 0 && decide (g < o + d.ext.getD i 0)))
      || (narrow && ((d.nd != 1 && d.goff.getD (d.nd - 2) 0 % 32 != 0) || d.goff.getD (d.nd - 1) 0 % 32 != 0)) then
    some 0x7
  else if narrow && d.padv != 0 then some 0x9
  else if !translated && d.arrays.any (fun (a, n) => !inRegion a n) then some 0x5
  else none

end Desc

/-! ### Translation (11 R261, R262) -/

/-- The outcome of one page's translation (R262); its entry is read from the page table where it is not cached. -/
def Channel.checkPage (c : Channel) (page a : Nat) (write : Bool) : Ck Channel :=
  let e := (c.pageEntry page).toNat
  let frame := bits e 47 21 * 2 ^ 21
  let at_ := c.agd.ptBase.toNat + 8 * page
  if (c.agd.tc.lookup page).isNone && c.stopped at_ 8 then .error .wait
  else if (c.agd.tc.lookup page).isNone && (c.badIn at_ 8 false).isSome then .error ((Err.ue (wordOf at_)).after c)
  else if !e.testBit 0 then .error ((Err.unmapped a write).after c)
  else if !e.testBit 1 then .error ((Err.absent a).after c)
  else if write && !e.testBit 2 then .error ((Err.unmapped a write).after c)
  else if !inDram frame (2 ^ 21) then .error ((Err.frame a write).after c)
  else .ok (c.cachePage page)

/-- A range of addresses cut at page borders. -/
def pagesOf (a n : Nat) : List (Nat × Nat) :=
  if n = 0 then []
  else (List.range ((a + n - 1) / 2 ^ 21 - a / 2 ^ 21 + 1)).map fun i =>
    let lo := max a ((a / 2 ^ 21 + i) * 2 ^ 21)
    (lo, min (a + n) ((a / 2 ^ 21 + i + 1) * 2 ^ 21) - lo)

/-- The physical ranges of n bytes at an address a descriptor gives: page by page where virtual. -/
def Channel.phys (c : Channel) (a n : Nat) : List (Nat × Nat) :=
  if c.virtual a then (pagesOf a n).map fun r => (c.tr r.1, r.2) else [(a, n)]

/-- Checks an access to n bytes against the stopped stacks (13 R303), and a read against the uncorrectable words
(R295); a write into one takes effect (R296). -/
def Channel.accessWords (c : Channel) (a n : Nat) (write : Bool) : Ck Channel :=
  let rs := c.phys a n
  if rs.any fun r => c.stopped r.1 r.2 then .error .wait
  else if write then .ok c
  else
    match rs.findSome? fun r => c.badIn r.1 r.2 false with
    | some k => .error ((Err.ue k).after c)
    | none => .ok c

/-- Checks the regions and pages of an access to n bytes at an address a descriptor gives (R53, R262). What lies past the
virtual range is physical. -/
def Channel.accessMap (c : Channel) (a n : Nat) (write : Bool) : Ck Channel :=
  if n = 0 then .ok c
  else if c.virtual a then
    (pagesOf a n).foldlM (fun c r =>
      if c.virtual r.1 then c.checkPage (r.1 / 2 ^ 21) r.1 write
      else if inRegion r.1 r.2 then .ok c
      else .error ((Err.guard r.1 write).after c)) c
  else if inRegion a n then .ok c
  else .error ((Err.guard a write).after c)

/-- Checks an access to n bytes at an address a descriptor gives: its regions and pages, then its words. -/
def Channel.access (c : Channel) (a n : Nat) (write : Bool) : Ck Channel :=
  (c.accessMap a n write).bind fun c => c.accessWords a n write

/-- Reads n bytes at an address a descriptor gives, page by page where virtual. -/
def Channel.rdV (c : Channel) (a n : Nat) : List Byte := (c.phys a n).flatMap fun r => c.rd r.1 r.2

/-- A run of bytes laid over physical ranges. -/
def Channel.putRanges : Channel → List (Nat × Nat) → List Byte → Channel
  | c, [], _ => c
  | c, (a, n) :: rest, bs => putRanges (c.put a (bs.take n)) rest (bs.drop n)

/-- Writes bytes at an address a descriptor gives, page by page where virtual. -/
def Channel.wrV (c : Channel) (a : Nat) (bs : List Byte) : Channel := c.putRanges (c.phys a bs.length) bs

/-! ### Reading and checking a descriptor -/

/-- Reads and checks a descriptor that a command names (R247, R260): the copy the command holds since its start, if it
has one. -/
def Channel.desc (c : Channel) (a : Nat) (copies : List (Nat × List Byte) := []) : Ck Desc := do
  if a % 64 != 0 then throw (.fault 0x6 a)
  let b ← match copies.lookup a with
    | some b => pure b
    | none => c.get a 128
  let d := Desc.parse a b
  match d.check c.agd.mode with
  | some cause => throw (.fault cause a)
  | none => pure d

/-- A block a command's engine copied when it started, or reads now: its alignment is checked (02 R439). -/
def Channel.heldBlock (c : Channel) (copies : List (Nat × List Byte)) (a n align cause : Nat) : Ck (List Byte) :=
  if a % align != 0 then .error (.fault cause a)
  else match copies.lookup a with
    | some b => .ok (b.take n)
    | none => c.get a n

/-! ### Superblocks in memory -/

/-- Transposes a 32 × 32 grid. -/
def transpose32 {α : Type} (dflt : α) (g : List (List α)) : List (List α) :=
  (List.range 32).map fun j => g.map fun row => row.getD j dflt

/-- Element bits of block n by line (R250 to R252). -/
def Channel.rdElems (c : Channel) (d : Desc) (n : Nat) : List (List Nat) :=
  let w := d.fmt.width
  let raw := (d.runs n).map fun (a, k) => unpackElems w 32 (c.rdV a k)
  if d.strided then
    let grid := raw ++ List.replicate (32 - raw.length) (List.replicate 32 0)
    if d.rax then transpose32 0 grid else grid
  else raw

/-- Block, line and element of a position on a tensor. -/
def Desc.locate (d : Desc) (x : Nat × Nat × Nat) : Nat × Nat × Nat :=
  let (p, i, j) := x
  let gi := i + d.orgr
  let gj := j + d.orgc
  let n := d.blockIdx p (gi / 32) (gj / 32)
  if d.rax then (n, gj % 32, gi % 32) else (n, gi % 32, gj % 32)

/-- The address of a wide element. -/
def Desc.elemAddr (d : Desc) (x : Nat × Nat × Nat) : Nat :=
  let w := d.fmt.width / 8
  if d.strided then d.rowAddr x.1 x.2.1 + x.2.2 * w
  else
    let (n, l, k) := d.locate x
    d.base + n * d.bb + l * d.lb + k * w

/-- Positions (plane, row, column) of the valid elements of block n, by line and element. -/
def Desc.elems (d : Desc) (n : Nat) : List (Nat × Nat × Nat) :=
  let (p, r, c) := d.blockAt n
  (List.range 32).flatMap fun l => (List.range 32).filterMap fun k =>
    let (gi, gj) := if d.rax then (k, l) else (l, k)
    if d.valid r c gi gj then some (p, 32 * r + gi - d.orgr, 32 * c + gj - d.orgc) else none

/-- Joins ranges that follow one another. -/
def joinRanges : List (Nat × Nat) → List (Nat × Nat)
  | [] => []
  | (a, n) :: rest =>
    match joinRanges rest with
    | (b, m) :: more => if a + n = b then (a, n + m) :: more else (a, n) :: (b, m) :: more
    | [] => [(a, n)]

/-- Codes of block n in block order (R69), or its 32 E8M0 bytes. -/
def Channel.rdCodes (c : Channel) (d : Desc) (n : Nat) : List Nat :=
  if d.fmt.isWide then []
  else
    let b := c.rdV (d.codeAddr n) d.cb
    if d.fmt.isMx then b.map (·.toNat) else unpackElems 4 (2 * d.cb) b

/-- Block n as stored. -/
def Channel.rdSb (c : Channel) (d : Desc) (n : Nat) : Sb :=
  { exp := if d.fmt.isNarrow then ofBytes (c.rdV (d.expAddr n) 1) else 0
    codes := c.rdCodes d n
    elems := c.rdElems d n }

/-- Values of a superblock by line, and how many of its blocks are poisoned (R64, R66, R68). Padding reads +0. -/
def sbVals (f : Fmt) (bs16 : Bool) (sb : Sb) (ok : List (List Bool)) : List (List Val) × Nat :=
  let mask (vs : List (List Val)) : List (List Val) :=
    (vs.zip ok).map fun (l, o) => (l.zip o).map fun p => if p.2 then p.1 else Num.zero
  match f with
  | .f32 => (mask (sb.elems.map fun l => l.map fun x => Num.dec32 (BitVec.ofNat 32 x)), 0)
  | .b16 => (mask (sb.elems.map fun l => l.map fun x => Num.dec16 (BitVec.ofNat 16 x)), 0)
  | f =>
    let bs := splitBlocks bs16 sb.elems
    let oks := splitBlocks bs16 ok
    let rs := (bs.zip (sb.codes.zip oks)).map fun (b, code, o) => readBlock f sb.exp code b o
    (mask (joinBlocks bs16 (rs.map (·.1))), (rs.filter (·.2)).length)

/-- Blocks of superblock n that a read finds poisoned by an element's encoding, which R64 counts: those whose own code or
exponent says so are not among them. -/
def Channel.poisonsOf (c : Channel) (d : Desc) (n : Nat) : Nat :=
  if d.fmt.isNarrow && c.rdN (d.expAddr n) 1 != 0xFF then
    let sb := c.rdSb d n
    let oks := splitBlocks d.bs16 (d.validLines n)
    ((splitBlocks d.bs16 sb.elems).zip (sb.codes.zip oks)).countP fun (b, code, o) =>
      decide (code < 0xE) && (readBlock d.fmt sb.exp code b o).2
  else 0

/-- A read that finds n blocks poisoned counts them (R64). -/
def Channel.addPois (c : Channel) (n : Nat) : Channel := { c with poisRead := c.poisRead + BitVec.ofNat 64 n }

/-- A read of superblocks counts those it finds poisoned (R64). -/
def Channel.countPois (c : Channel) (d : Desc) (ns : List Nat) : Channel := c.addPois (ns.map (c.poisonsOf d)).sum

/-- Values of block n of a tensor. -/
def Channel.rdVals (c : Channel) (d : Desc) (n : Nat) : List (List Val) × Nat :=
  sbVals d.fmt d.bs16 (c.rdSb d n) (d.validLines n)

/-- The grid (row, column) view of lines. -/
def Desc.grid {α : Type} (d : Desc) (dflt : α) (lines : List (List α)) : List (List α) :=
  if d.rax then transpose32 dflt lines else lines

/-- The valid elements of a run of 32 elements at byte address a, which lie in one piece (R257): their address, the
first of them and their number. -/
def validPiece (a w : Nat) (ok : List Bool) : Nat × Nat × Nat :=
  let k0 := (ok.takeWhile (· == false)).length
  (a + k0 * w / 8, k0, ((ok.drop k0).takeWhile (· == true)).length)

/-- Joins runs of bytes that follow each other in memory. -/
def coalesce : List (Nat × List Byte) → List (Nat × List Byte)
  | [] => []
  | (a, b) :: rest =>
    match coalesce rest with
    | (a', b') :: more => if a + b.length = a' then (a, b ++ b') :: more else (a, b) :: (a', b') :: more
    | [] => [(a, b)]

/-- Element runs of block n by grid row in the strided layout, by line else, with their validity. -/
def Desc.validRuns (d : Desc) (n : Nat) : List ((Nat × Nat) × List Bool) :=
  let ok := d.validLines n
  (d.runs n).zip (if d.strided && d.rax then transpose32 false ok else ok)

/-- The element pieces that a write of block n writes (R257): the valid elements of a wide format, whole runs else;
pieces that follow one another are one. -/
def Desc.pieces (d : Desc) (n : Nat) (elems : List (List Nat)) : List (Nat × List Byte) :=
  let w := d.fmt.width
  let rows := if d.strided && d.rax then transpose32 0 elems else elems
  coalesce (((d.validRuns n).zip rows).filterMap fun ((r, o), xs) =>
    if d.fmt.isWide then
      let (a, k0, cnt) := validPiece r.1 w o
      if cnt = 0 then none else some (a, packElems w ((xs.drop k0).take cnt))
    else some (r.1, packElems w xs))

/-- All pieces that a write of block n writes: elements, codes, exponent (R251). -/
def Desc.sbPieces (d : Desc) (n : Nat) (sb : Sb) : List (Nat × List Byte) :=
  d.pieces n sb.elems ++
    (if d.fmt.isWide then []
     else if d.fmt.isMx then [(d.codeAddr n, sb.codes.map (BitVec.ofNat 8 ·))]
     else [(d.codeAddr n, packElems 4 sb.codes), (d.expAddr n, [BitVec.ofNat 8 sb.exp])])

/-- Writes pieces. -/
def Channel.wrPieces (c : Channel) (ps : List (Nat × List Byte)) : Channel := ps.foldl (fun c p => c.wrV p.1 p.2) c

/-- Writes block n: a wide format's valid elements only, a narrow or MX format's whole superblock (R251, R257). -/
def Channel.wrSb (c : Channel) (d : Desc) (n : Nat) (sb : Sb) : Channel := c.wrPieces (d.sbPieces n sb)

/-- Ranges that an access to block n touches: the valid elements of a wide format, else every run, the codes and the
exponent (R251, R256, R257). -/
def Desc.touched (d : Desc) (n : Nat) : List (Nat × Nat) :=
  let w := d.fmt.width
  ((d.validRuns n).filterMap fun (r, o) =>
    if d.fmt.isWide then
      let (a, _, cnt) := validPiece r.1 w o
      if cnt = 0 then none else some (a, cnt * w / 8)
    else some r) ++
  (if d.fmt.isWide then []
   else (d.codeAddr n, d.cb) :: (if d.fmt.isMx then [] else [(d.expAddr n, 1)]))

/-- Checks every access to block n (R53, R262). -/
def Channel.touchBlock (c : Channel) (d : Desc) (write : Bool) (n : Nat) : Ck Channel :=
  (d.touched n).foldlM (fun c r => c.access r.1 r.2 write) c

def Channel.touch (c : Channel) (d : Desc) (write : Bool) (ns : List Nat) : Ck Channel :=
  ns.foldlM (fun c n => c.touchBlock d write n) c

/-! ### Shares (01 R13) -/

/-- Blocks along a dimension: block columns, block rows, or groups of 32 indices of an outer dimension. -/
def Desc.blocksAlong (d : Desc) (dim : Nat) : Nat :=
  if dim + 1 = d.nd then d.bc
  else if dim + 2 = d.nd then d.br
  else (d.ext.getD dim 0 + 31) / 32

/-- A share's split: dimension, first block, count; none for the whole tensor. -/
structure Split where
  dim : Nat
  first : Nat
  count : Nat
  deriving DecidableEq, Repr

/-- The split of a running command's share. -/
def Running.split (r : Running) : Option Split :=
  match r.share with
  | some { blocks := some (f, n), .. } => some ⟨r.cmd.split.toNat, f, n⟩
  | _ => none

/-- Whether block n falls in a share. SPLIT names a dimension, as 02 Table 2.2 has it, whatever NDIM is (DESIGN CHOICE, log
38). -/
def Desc.inSplit (d : Desc) (s : Option Split) (n : Nat) : Bool :=
  match s with
  | none => true
  | some s =>
    let (p, r, c) := d.blockAt n
    let x :=
      if s.dim + 1 = d.nd then c
      else if s.dim + 2 = d.nd then r
      else (d.outerIdx p).getD s.dim 0 / 32
    decide (s.first ≤ x) && decide (x < s.first + s.count)

/-- The blocks of a share, in block order. -/
def Desc.blocks (d : Desc) (s : Option Split) : List Nat := (List.range d.nblocks).filter (d.inSplit s)

/-- A member whose split operand has another extent along the split axis ends in error (R13). -/
def checkExtent (r : Running) (d : Desc) : Ck Unit :=
  match r.share with
  | some { extent := some e, .. } => need (d.ext.getD r.cmd.split.toNat 0 == e) (.fault 0xF d.addr)
  | _ => .ok ()

/-- The shares of B blocks over M members (R13): first block and count of each. -/
def shares (B M : Nat) : List (Nat × Nat) :=
  (List.range M).map fun i =>
    let q := B / M
    let rem := B % M
    if i < rem then (i * (q + 1), q + 1) else (rem * (q + 1) + (i - rem) * q, q)

/-! ### Rounding control (03 Table 3.8) -/

structure Rctl where
  mode : Nat
  nbits : Nat
  keyed : Bool
  deriving DecidableEq, Repr

def Rctl.parse (v : Nat) : Rctl := ⟨bits v 1 0, bits v 7 4, v.testBit 8⟩

/-- RCTL obeys Table 3.8. -/
def Rctl.ok (r : Rctl) : Bool := r.mode != 3 && !(r.mode == 1 && decide (12 < r.nbits))

/-- The rounding mode; the word of SR is filled in per element. -/
def Rctl.toMode (r : Rctl) : Num.Mode :=
  match r.mode with
  | 0 => .rne
  | 1 => .sr r.nbits 0
  | _ => .rtz

end Sys2Proof.Machine
end

