-- ==== Sys2Proof/Machine/Flags.lean ====
section
/-!
DEFINITION. What a command reports: DETAIL, INFO and WARN (02 R441), how floe members' reports combine (01 R15,
04 R109), the layer statistics record (06 R149 to R152), norms, event records (R157) and tracker updates (R144).
-/
namespace Sys2Proof.Machine

open Sys2Proof

/-- STATUS codes that stop the queue (02 Table 2.6, R440). -/
def isError (st : Byte) : Bool := st != 0x00 && st != 0x19 && st != 0x1A

/-- Two INFO halves, each saturating at 32 bits. -/
def info2 (lo hi : Nat) : W64 := BitVec.ofNat 64 (min lo (2 ^ 32 - 1) + 2 ^ 32 * min hi (2 ^ 32 - 1))

/-- Members' INFO halves summed, each saturating (R109). -/
def infoSum (a b : W64) : W64 :=
  info2 (bits a.toNat 31 0 + bits b.toNat 31 0) (bits a.toNat 63 32 + bits b.toNat 63 32)

/-- The DETAIL bits that set WARN (R441): all of them, but for cf.* only those of 15 Table 15.6 that warn, and none
for vx.restore, whose chapter reports no warning. -/
def warnMask (opc : Byte) : W16 := if opc.toNat / 16 = 4 then 0b1001 else if opc = 0x22 then 0 else 0xFFFF

/-- WARN of a record (R441). -/
def warnOf (opc : Byte) (res : Result) : Bool := res.status == 0 && res.detail &&& warnMask opc != 0

/-! ### Layer statistics (Table 6.7) -/

/-- One addition to a field: byte offset, byte width, amount. -/
structure StatAdd where
  off : Nat
  width : Nat
  amount : Nat
  deriving DecidableEq, Repr

/-- The record of a layer in the bank of a step (R149). -/
def Channel.statAddr (c : Channel) (step : W32) (layer : Nat) : Nat :=
  c.nmon.lstBase.toNat + 384 * layer + 192 * (step.toNat % 2)

/-- Adds to one field, saturating at all ones. -/
def Channel.statAdd1 (c : Channel) (base : Nat) (a : StatAdd) : Channel :=
  if a.amount = 0 then c
  else c.putN (base + a.off) a.width (min (c.rdN (base + a.off) a.width + a.amount) (2 ^ (8 * a.width) - 1))

/-- Whether an addition sets NMEV (R152): nonzero, and neither NZ nor a norm. -/
def StatAdd.counts (a : StatAdd) : Bool := a.amount != 0 && a.off != 32 && decide (a.off < 96)

/-- Adds a command's counts to the layer's record (R149, R151, R152); true when NMEV is set by it. -/
def Channel.stats (c : Channel) (step : W32) (layer : Nat) (adds : List StatAdd) : Channel × Bool :=
  if layer < c.nmon.lstCount.toNat then
    (adds.foldl (fun c a => c.statAdd1 (c.statAddr step layer) a) c, adds.any StatAdd.counts)
  else ({ c with nmon := { c.nmon with layerOor := true } }, false)

/-- floor(s × 2^40) of a superblock's sum of squares rounded once to F32 (R150); an infinity saturates the field. -/
def normOf (sq : Val) : Nat :=
  match Num.dec32 (Num.to32 sq) with
  | .fin _ m e => (Num.splitAt m e (-40)).1
  | _ => 2 ^ 128

/-! ### Event records (R157) -/

/-- An event to record: TYPE, CORE, ORIGIN, LAYER, STEP, DATA0, DATA1 (Table 6.9). -/
structure Event where
  type : Nat
  core : Nat
  origin : Nat
  layer : Nat
  step : W32
  d0 : Nat
  d1 : Nat
  deriving DecidableEq, Repr

def Event.bytes (e : Event) (seq : W32) (phase : Bool) (time : W64) : List Byte :=
  toBytes 4 seq.toNat ++ toBytes 1 e.type ++ toBytes 1 (b2n phase + 2 * (e.core % 8) + 16 * (e.origin % 4)) ++
  toBytes 2 e.layer ++ toBytes 4 e.step.toNat ++ toBytes 4 time.toNat ++ toBytes 8 e.d0 ++ toBytes 8 e.d1

/-- PHASE of the record with a free-running index in a ring of 2^log2 slots (Table 2.5). -/
def phaseOf (idx : W32) (log2 : Nat) : Bool := idx.toNat / 2 ^ log2 % 2 == 0

/-- Writes an event record, or drops it where the ring is full (R157). -/
def Wk.event (w : Wk) (e : Event) : Wk :=
  let n := w.c.nmon
  let log2 := n.evrLog2.toNat
  if (n.evrPi - n.evrCi).toNat = 2 ^ log2 then
    { w with c := { w.c with nmon := { n with evrLost := satAdd n.evrLost 1, evrOvf := true } } }
  else
    let (w, t) := w.time
    let c := w.c.put (n.evrBase.toNat + 32 * (n.evrPi.toNat % 2 ^ log2)) (e.bytes n.evrPi (phaseOf n.evrPi log2) t)
    { w with
      c := { c with nmon := { n with evrPi := n.evrPi + 1 } }
      irqs := w.irqs ++ (if n.irqen then [n.irqv.toNat] else []) }

def Wk.events (w : Wk) (es : List Event) : Wk := es.foldl Wk.event w

/-! ### Trackers (R144) -/

/-- One live block's update of its accumulator entry. -/
structure TrkUpd where
  entry : Nat
  maxi : Nat
  sat : Bool
  zero : Bool
  deriving DecidableEq, Repr

/-- Applies an update: MAXI by maximum, SEEN, SAT and ZERO by setting (Table 6.5). -/
def Channel.trkApply (c : Channel) (tacc : Nat) (u : TrkUpd) : Channel :=
  let a := c.rdN (tacc + 2 * u.entry) 2
  let maxi := max (bits a 7 0) u.maxi
  let sat := a.testBit 8 || u.sat
  let zero := a.testBit 9 || u.zero
  c.putN (tacc + 2 * u.entry) 2 (maxi + 256 * b2n sat + 512 * b2n zero + 1024 + bits a 15 11 * 2048)

end Sys2Proof.Machine
end

