-- ==== Sys2Proof/Machine/Blocks.lean ====
section
/-!
DEFINITION. The parameter blocks of the arrays and converters (04 Table 4.7, 05 Table 5.3, 06 Table 6.2), and what they
say of where a command writes beside its tensors: tracker accumulators, capture groups, format map and state words.
-/
namespace Sys2Proof.Machine

open Sys2Proof

/-! ### The freeze parameter block (Table 6.2) -/

structure FzBlk where
  addr : Nat
  rctl : Rctl
  scale : Bool
  tidx : Bool
  norm : Bool
  unit : Bool
  port : Bool
  layer : Nat
  seed : W64
  tid : W32
  trk : Nat
  tacc : Nat
  epi : Nat
  deriving DecidableEq, Repr

def FzBlk.parse (a : Nat) (b : List Byte) : FzBlk :=
  let f := fld b 2 1
  { addr := a
    rctl := Rctl.parse (fld b 0 2)
    scale := f.testBit 0
    tidx := f.testBit 1
    norm := f.testBit 2
    unit := f.testBit 3
    port := f.testBit 4
    layer := fld b 4 2
    seed := BitVec.ofNat 64 (fld b 8 8)
    tid := BitVec.ofNat 32 (fld b 16 4)
    trk := fld b 24 6
    tacc := fld b 32 6
    epi := fld b 40 6 }

/-- The tracker entry of block b of superblock n (TIDX, R143). With TIDX = 1 the lines are counted over the whole grid,
padding lines among them, plane after plane (DESIGN CHOICE, log 114). -/
def Desc.trkEntry (d : Desc) (tidx : Bool) (n b : Nat) : Nat :=
  let (p, r, c) := d.blockAt n
  let per := if d.bs16 then 2 else 1
  let (red, lin, nlines, nspans) :=
    if d.rax then (r, 32 * c, 32 * d.bc, per * d.br) else (c, 32 * r, 32 * d.br, per * d.bc)
  let j := per * red + b % per
  if tidx then (p * nlines + lin + b / per) * nspans + j else j

/-- The tracker entries that a freeze of superblocks reaches, counted from the first. -/
def Desc.trkSpan (d : Desc) (tidx : Bool) (ns : List Nat) : Nat :=
  ns.foldl (fun m n => max m (d.trkEntry tidx n (if d.bs16 then 63 else 31) + 1)) 0

/-! ### The epilogue block (04 Table 4.7) -/

structure Epi where
  addr : Nat
  fzp : Nat
  rotseed : W64
  rot : Bool
  clip : Bool
  capt : Bool
  misfit : Bool
  kappa : Nat
  layer : Nat
  capbuf : Nat
  f8dst : Nat
  fmap : Nat
  mstate : Nat
  xalt : Nat
  deriving DecidableEq, Repr

def Epi.parse (a : Nat) (b : List Byte) : Epi :=
  let f := fld b 16 1
  { addr := a
    fzp := fld b 0 6
    rotseed := BitVec.ofNat 64 (fld b 8 8)
    rot := f.testBit 0
    clip := f.testBit 1
    capt := f.testBit 2
    misfit := f.testBit 3
    kappa := fld b 17 1
    layer := fld b 18 2
    capbuf := fld b 24 6
    f8dst := fld b 32 6
    fmap := fld b 40 6
    mstate := fld b 48 6
    xalt := fld b 56 6 }

/-- Columns of the piece that block n covers: the first, and beyond the last. -/
def Desc.colsOf (d : Desc) (n : Nat) : Nat × Nat :=
  let c := (d.blockAt n).2.2
  (32 * c - d.orgc, min d.ec (32 * c + 32 - d.orgc))

/-- The capture groups that block n falls in: its row block, and groups of 128 columns (R102; log 104 for a piece whose
origin is not 0). -/
def Desc.captureGroups (d : Desc) (n : Nat) : List (Nat × Nat) :=
  let (j0, j1) := d.colsOf n
  (List.range ((j1 + 127) / 128 - j0 / 128)).map fun q => ((d.blockAt n).2.1, j0 / 128 + q)

/-- The place of a capture group in its buffer (R102). -/
def Desc.groupAddr (d : Desc) (buf : Nat) (g : Nat × Nat) : Nat := buf + 512 * (g.1 * ((d.ec + 127) / 128) + g.2)

/-! ### The backward parameter block (05 Table 5.3) -/

structure Bwd where
  fzpx : Nat
  fzpw : Nat
  drainx : Nat
  drainw : Nat
  layer : Nat
  xalt : Nat
  grec : Nat
  deriving DecidableEq, Repr

def Bwd.parse (b : List Byte) : Bwd :=
  let f := fld b 16 1
  ⟨fld b 0 6, fld b 8 6, bits f 1 0, bits f 3 2, fld b 18 2, fld b 24 6, fld b 32 6⟩

/-! ### Shares of a product -/

/-- Block rows and columns of an output that a share covers: SPLIT 0 divides rows, 1 columns (R86). -/
def shareTiles (r : Running) (d : Desc) : List Nat × List Nat :=
  let rows := List.range d.br
  let cols := List.range d.bc
  match r.split with
  | some ⟨0, f, n⟩ => ((rows.drop f).take n, cols)
  | some ⟨_, f, n⟩ => (rows, (cols.drop f).take n)
  | none => (rows, cols)

/-- The superblocks of a product's share. -/
def shareBlocks (r : Running) (d : Desc) : List Nat :=
  let (rows, cols) := shareTiles r d
  rows.flatMap fun i => cols.map fun j => d.blockIdx 0 i j

/-! ### What a command writes beside its tensors (12 R278) -/

/-- The accumulator entries of a freeze under SCALE = 1 (06 R144). -/
def Channel.taccRange (c : Channel) (blk : Nat) (d : Desc) (ns : List Nat) : List (Nat × Nat) :=
  let f := FzBlk.parse blk (c.rd blk 64)
  if f.scale then [(f.tacc, 2 * d.trkSpan f.tidx ns)] else []

/-- The capture groups of an epilogue (04 R102). -/
def Epi.captures (e : Epi) (d : Desc) (ns : List Nat) : List (Nat × Nat) :=
  if e.clip && e.capt then ((ns.flatMap d.captureGroups).dedup).map fun g => (d.groupAddr e.capbuf g, 512) else []

/-- What mm.fwd writes beside Y: captures, accumulator entries, the format map and the core's state word (R102, R105). -/
def Channel.fwdSides (c : Channel) (r : Running) (core : Nat) (y : Desc) : List (Nat × Nat) :=
  let a := bits r.cmd.a3.toNat 47 0
  if bits r.cmd.a4.toNat 2 1 != 0 || a = 0 then []
  else
    let e := Epi.parse a (c.rd a 64)
    let ns := shareBlocks r y
    e.captures y ns ++ c.taccRange e.fzp y ns ++
      (if e.misfit then (e.mstate + 8 * core, 8) :: ns.map fun n => (e.fmap + n, 1) else [])

/-- What cv.* writes beside its destination: accumulator entries and captures (R144, R140). -/
def Channel.convSides (c : Channel) (r : Running) (d : Desc) : List (Nat × Nat) :=
  let a := bits r.cmd.a2.toNat 47 0
  let f := FzBlk.parse a (c.rd a 64)
  let ns := d.blocks r.split
  c.taccRange a d ns ++
    (if r.cmd.opc = 0x18 && f.epi != 0 then (Epi.parse f.epi (c.rd f.epi 64)).captures d ns else [])

/-- The accumulator entries of a product of mm.bwd2 or mm.bwd whose drain freezes. -/
def Channel.bwdSides (c : Channel) (r : Running) (w : Bool) (d : Desc) : List (Nat × Nat) :=
  let p := Bwd.parse (c.rd (bits r.cmd.a5.toNat 47 6 * 64) 64)
  if (if w then p.drainw else p.drainx) = 0 then c.taccRange (if w then p.fzpw else p.fzpx) d (shareBlocks r d) else []

/-- Ranges that a command of an array writes beside its tensors, for descriptors that pass their check. -/
def Channel.sideWrites (c : Channel) (r : Running) (core : Nat) : List (Nat × Nat) :=
  let of (a : W64) (f : Desc → List (Nat × Nat)) : List (Nat × Nat) :=
    match c.desc (bits a.toNat 47 0) r.copies with
    | .ok d => f d
    | .error _ => []
  match r.cmd.opc.toNat with
  | 0x10 => of r.cmd.a2 (c.fwdSides r core)
  | 0x11 => of r.cmd.a3 (c.bwdSides r false) ++ of r.cmd.a4 (c.bwdSides r true)
  | 0x12 => of r.cmd.a2 (c.bwdSides r (r.cmd.a5.getLsbD 1))
  | 0x18 | 0x19 => of r.cmd.a1 (c.convSides r)
  | _ => []

end Sys2Proof.Machine
end

