-- ==== Sys2Proof/Machine/Slots.lean ====
section
/-!
DEFINITION. Staging slots as every engine of a core sees them (12 R277 to R280): the check at a command's start, the
readers it counts, and the release of slots.
-/
namespace Sys2Proof.Machine

open Sys2Proof

/-- Address of slot i of a context. -/
def Ctx.slotAddr (x : Ctx) (i : Nat) : Nat := x.base.toNat + x.size.toNat * i

/-- Changes one slot. -/
def Ctx.modSlot (x : Ctx) (i : Nat) (f : Slot → Slot) : Ctx := { x with slots := x.slots.modify i f }
def Ctx.slot (x : Ctx) (i : Nat) : Slot := x.slots.getD i {}

/-! ### The descriptors a command names -/

/-- The live context a source uses: queues 0 to 3 of the core, 4 the dispatch input (07 R180). -/
def ctxIdx : Src → Nat
  | .queue q => q.val % 4
  | .input _ => 4

def Channel.liveCtx (c : Channel) (core : Core) (s : Src) : Option MorCtx :=
  (c.cores[core].mor.live.getD (ctxIdx s) none)

/-- The program and port arguments of a vx.chain: its own, or those of the live context it continues, if there is one
(07 R180). -/
def Channel.chainArgs (c : Channel) (s : Src) (k : Command) : Option (Nat × List W64) :=
  if k.a5.getLsbD 40 then
    (((srcEngine s).bind engineCore).bind fun core => c.liveCtx core s).map fun x => (x.prog.toNat, x.pa)
  else some (bits k.a0.toNat 47 0, [k.a1, k.a2, k.a3, k.a4])

/-- The F8a tensor of an alternate record (04 R107), and the F8a destination of the misfit rule (R106). -/
def altDescs (c : Channel) (xalt : Nat) : List (Nat × Bool) := if xalt = 0 then [] else [(c.rdN xalt 6, false)]

def fwdDescs (c : Channel) (epi : Nat) : List (Nat × Bool) :=
  if epi = 0 then []
  else altDescs c (c.rdN (epi + 56) 6) ++
    (if (c.rdN (epi + 16) 1).testBit 3 then [(c.rdN (epi + 32) 6, true)] else [])

/-- The tensors a command of a core's engine reads and writes: descriptor address, and whether it is written. -/
def operandDescs (c : Channel) (s : Src) (k : Command) : List (Nat × Bool) :=
  let ad (v : W64) : Nat := bits v.toNat 47 0
  let bwdAlt := altDescs c (c.rdN (bits k.a5.toNat 47 6 * 64 + 24) 6)
  match k.opc.toNat with
  | 0x10 => [(ad k.a0, false), (ad k.a1, false), (ad k.a2, true)] ++ fwdDescs c (ad k.a3)
  | 0x11 =>
    [(ad k.a0, false), (ad k.a1, false), (ad k.a2, false), (ad k.a3, true), (ad k.a4, true)] ++ bwdAlt
  | 0x12 => [(ad k.a0, false), (ad k.a1, false), (ad k.a2, true)] ++ (if k.a5.getLsbD 1 then bwdAlt else [])
  | 0x18 | 0x19 | 0x30 => [(ad k.a0, false), (ad k.a1, true)]
  | 0x31 | 0x32 => [(ad k.a0, false), (ad k.a2, true)]
  | 0x33 => [(ad k.a0, false)]
  | 0x35 => (ad k.a0, false) :: (if bits k.a1.toNat 63 48 = c.chid.toNat then [(ad k.a1, true)] else [])
  | 0x20 =>
    match c.chainArgs s k with
    | none => []
    | some (prog, pa) =>
      let h := c.rd prog 64
      (pa.zipIdx.filterMap fun (a, i) =>
        match bits (fld h (20 + i) 1) 2 0 with
        | 1 => some (ad a, false)
        | 2 => some (ad a, true)
        | 3 => some (ad a, true)
        | _ => none)
  | _ => []

/-- Every descriptor a command names: those of a core's engine, of Confluence (15 R332, R345) and of Ablation, whose
region header names its own (09 Table 9.1). -/
def namedDescs (c : Channel) (s : Src) (k : Command) : List Nat :=
  let ad (v : W64) : Nat := bits v.toNat 47 0
  let header (a : Nat) : List Nat := (List.range 6).map fun i => c.rdN (a + 8 * i) 6
  match k.opc.toNat with
  | 0x40 => [ad k.a0, ad k.a1] ++
    (if ad k.a3 = 0 then [] else [c.rdN (ad k.a3 + 8) 6, c.rdN (ad k.a3 + 16) 6])
  | 0x41 => [ad k.a0, ad k.a1]
  | 0x50 => ad k.a2 :: header (ad k.a1)
  | 0x51 => [ad k.a1, ad k.a2] ++ header (ad k.a0)
  | 0x52 => [ad k.a0, ad k.a2]
  | _ => (operandDescs c s k).map (·.1)

/-- What a command's engine copies of the descriptors it names when it starts (11 R247); one that cannot be read then is
met when its row runs. -/
def captureDescs (c : Channel) (s : Src) (k : Command) : List (Nat × List Byte) :=
  let take (a n align : Nat) : Option (Nat × List Byte) :=
    if a % align != 0 then none
    else match c.get a n with
      | .ok b => some (a, b)
      | .error _ => none
  -- a collective reads its blocks once: its messages come over many rows
  let blocks : List (Nat × Nat × Nat) :=
    if k.opc = 0x40 then [(bits k.a2.toNat 47 0, 64, 64), (bits k.a3.toNat 47 0, 32, 8)] else []
  ((namedDescs c s k).dedup.filterMap fun a => take a 128 64) ++ blocks.filterMap fun (a, n, al) => take a n al

/-- Blocks that a Moraine command writes and no descriptor describes: the area of vx.save and the results of a vx.chain. -/
def rawWrites (c : Channel) (s : Src) (k : Command) : List (Nat × Nat) :=
  match k.opc.toNat with
  | 0x21 =>
    let live := ((srcEngine s).bind engineCore).bind fun core => c.liveCtx core s
    [(bits k.a0.toNat 47 0, if live.isSome then 2304 else 64)]
  | 0x20 =>
    match c.chainArgs s k with
    | none => []
    | some (prog, _) =>
      let h := c.rd prog 64
      -- carry slots of scan and red stages in order, of which each red writes its own (07 R172, R176)
      let ops := ((List.range (fld h 0 1 % 32)).map fun i => c.rdN (prog + 64 + 8 * i) 1).filter fun o => o == 0x20 || o == 0x21
      (ops.zipIdx.filter fun p => p.1 == 0x21).map fun p => (fld h 56 6 + 8 * p.2, 8)
  | _ => []

/-- Ranges of the arrays of a command's tensors, for descriptors that pass their check, and of the blocks it writes. -/
def operandRanges (c : Channel) (r : Running) : List (Nat × Nat × Nat × Bool) :=
  ((operandDescs c r.src r.cmd).flatMap fun (a, wr) =>
    match c.desc a r.copies with
    | .ok d => d.arrays.map fun (b, n) => (d.addr, b, n, wr)
    | .error _ => []) ++
  (rawWrites c r.src r.cmd ++ c.sideWrites r ((((srcEngine r.src).bind engineCore).map (·.val)).getD 0)).map
    fun (a, n) => (a, a, n, true)

/-- How a slot answers a command that touches it (Table 12.2). -/
inductive SlotAns where
  | free | reader | bad (desc : Nat) | held (status : Byte) (addr : Nat) | cancelled
  deriving DecidableEq, Repr

def slotAnswer (x : Ctx) (i : Nat) (rs : List (Nat × Nat × Nat × Bool)) : SlotAns :=
  let lo := x.slotAddr i
  let hit := rs.filter fun (_, b, n, _) => decide (b < lo + x.size.toNat) && decide (lo < b + n)
  match hit.find? (fun h => h.2.2.2), hit with
  | some w, _ => .bad w.1
  | none, [] => .free
  | none, h :: _ =>
    let s := x.slot i
    match s.st with
    | .empty | .filling => .bad h.1
    | .full =>
      if s.cancelAfter then .cancelled else if s.started < x.ruse.toNat then .reader else .bad h.1
    | .faulted => .held s.heldStatus s.heldAddr.toNat
    | .cancelled => .cancelled

/-- All slots of a core that a command touches, with their answers. -/
def slotAnswers (c : Channel) (core : Core) (r : Running) : List (Fin 16 × Nat × SlotAns) :=
  let rs := operandRanges c r
  (List.finRange 16).flatMap fun x =>
    let t := c.cores[core].esk.ctxs[x]
    if t.mode = .off then []
    else (List.range t.nslot.toNat).filterMap fun i =>
      match slotAnswer t i rs with
      | .free => none
      | a => some (x, i, a)

/-- Blocks that a command of a core's engine names and a rule places at an alignment (02 R439), as far as they can be found
without reading one that is off its own: address, alignment, and the cause where it is off. -/
def Channel.blockNames (c : Channel) (r : Running) : List (Nat × Nat × Nat) :=
  let k := r.cmd
  let ad (v : W64) : Nat := bits v.toNat 47 0
  let in_ (a : Nat) (f : List Byte → List (Nat × Nat × Nat)) : List (Nat × Nat × Nat) :=
    match c.get a 64 with
    | .ok b => f b
    | .error _ => []
  let freezes (x w : Bool) : List (Nat × Nat × Nat) :=
    in_ (bits k.a5.toNat 47 6 * 64) fun b =>
      let p := Bwd.parse b
      (if x && p.drainx = 0 then [(p.fzpx, 64, 0xF)] else []) ++ if w && p.drainw = 0 then [(p.fzpw, 64, 0xF)] else []
  match k.opc.toNat with
  | 0x10 => if ad k.a3 = 0 || bits k.a4.toNat 2 1 != 0 then [] else in_ (ad k.a3) fun b => [((Epi.parse 0 b).fzp, 64, 0xF)]
  | 0x11 => freezes true true
  | 0x12 => freezes (!k.a5.getLsbD 1) (k.a5.getLsbD 1)
  | 0x18 | 0x19 => [(ad k.a2, 64, 0xF)]
  | 0x20 =>
    match c.chainArgs r.src k with
    | none => []
    | some (prog, _) => (prog, 64, 0xF) :: if prog % 64 = 0 then in_ prog fun b => [(fld b 56 6, 8, 0xF)] else []
  | 0x21 | 0x22 => [(ad k.a0, 64, 0xF)]
  | 0x31 | 0x32 => [(ad k.a1, 8, 0xA)]
  | _ => []

/-- The check of R278: the command goes on as a reader of its slots, or ends. One that names a block off its alignment ends
before anything is read of it (02 R439). -/
def checkSlots (c : Channel) (core : Core) (r : Running) : Channel × Running × Option Result :=
  match (c.blockNames r).find? fun b => b.1 % b.2.1 != 0 with
  | some (a, _, cause) =>
    let (c, res) := c.descFault r cause a
    (c, r, some res)
  | none =>
  let as := slotAnswers c core r
  match as.find? (fun a => a.2.2 != .reader) with
  | some (x, _, .held st addr) =>
    let c := if st = 0x14 then c.freeze (.context core x) addr false else c
    (c, r, some { status := st, info := BitVec.ofNat 64 addr })
  | some (_, _, .bad d) =>
    let (c, res) := c.descFault r 0xF d
    (c, r, some res)
  | some (_, _, .cancelled) => (c, r, some { status := 0x19 })
  | _ =>
    let r := { r with slots := as.map (fun a => (a.1.val, a.2.1)), checked := true }
    let c := as.foldl (fun c (x, i, _) => c.modCtx core x fun t =>
      t.modSlot i fun s => { s with started := s.started + 1, runningNow := s.runningNow + 1 }) c
    (c.setRun r, r, none)

/-- Runs the effect of an opcode of a core's engine, its slots checked the first time (R278); `enter` is what its start
changes whatever the checks find. -/
def onCoreRun (s : State) (ch : Ch) (src : Src) (opc : Byte) (f : Wk → Running → Wk)
    (enter : Wk → Running → Wk := fun w _ => w) : State :=
  onRun s ch src opc fun w r =>
    let w := enter w r
    match (srcEngine r.src).bind engineCore with
    | none => f w r
    | some core =>
      if r.begun.isSome || r.checked then f w r
      else
        match checkSlots w.c core r with
        | (c, r, some res) => { w with c := c.finish r res }
        | (c, r, none) => f { w with c := c } r

/-- Advances HEAD over released slots in ring order (R282). -/
def ringAdvance : Nat → Ctx → Ctx
  | 0, x => x
  | n + 1, x =>
    let i := x.head.toNat % x.nslot.toNat
    let s := x.slot i
    if x.head != x.tail && decide (x.ruse.toNat ≤ s.done) && (s.st == .full || s.st == .faulted) then
      ringAdvance n ({ x.modSlot i (fun _ => {}) with head := x.head + 1 })
    else x

/-- A reader of a slot has completed (R279, R288). -/
def Ctx.readerDone (x : Ctx) (i : Nat) : Ctx :=
  let x := x.modSlot i fun s => { s with done := s.done + 1, runningNow := s.runningNow - 1 }
  let s := x.slot i
  if s.cancelAfter && s.runningNow = 0 then x.modSlot i fun _ => { st := .cancelled }
  else if x.mode = .native && decide (x.ruse.toNat ≤ s.done) then x.modSlot i fun _ => {}
  else x

/-! ### The end of a cancel (R288, R289) -/

/-- The contexts a st.cancel names: those of its mask, a rotation's on every member of its group. -/
def Channel.cancelTargets (c : Channel) (core : Core) (mask : Nat) : List (Core × Fin 16) :=
  (List.finRange 16).flatMap fun i =>
    if mask.testBit i.val then
      let x := c.cores[core].esk.ctxs[i]
      if x.mode = .rotate then ((List.finRange 8).filter fun k => x.mask.getLsbD k.val).map fun k => (k, i)
      else [(core, i)]
    else []

/-- A reader of a slot of the context runs. -/
def Ctx.inUse (x : Ctx) : Bool := x.slots.any fun s => decide (0 < s.runningNow)

/-- A st.cancel that holds its result completes once no reader of its contexts runs; they are IDLE again. -/
def cancelDone (c : Channel) (r : Running) : Channel :=
  match r.held, (srcEngine r.src).bind engineCore with
  | some res, some core =>
    let ts := c.cancelTargets core r.cmd.a0.toNat
    if r.cmd.opc != 0x34 || r.result.isSome || ts.any (fun t => (c.cores[t.1].esk.ctxs[t.2]).inUse) then c
    else (ts.foldl (fun c t => c.modCtx t.1 t.2 fun x => { x with cancelling := false }) c).finish
      { r with held := none } res
  | _, _ => c

/-- Releases the slots a completed command read. -/
def releaseSlots (c : Channel) (r : Running) : Channel :=
  match (srcEngine r.src).bind engineCore with
  | none => c
  | some core =>
    if r.slots.isEmpty then c
    else
      let c := r.slots.foldl (fun c (x, i) =>
        if h : x < 16 then c.modCtx core ⟨x, h⟩ fun t => t.readerDone i else c) c
      c.running.foldl cancelDone c

end Sys2Proof.Machine
end

