-- ==== Sys2Proof/Machine/Convert.lean ====
section
/-!
DEFINITION. Freeze and Thaw (06): the parameter block, rotation, clipping and capture (04 R96 to R103), one freezing
pass over the superblocks of a share with all its counts, and the meanings of cv.freeze and cv.thaw.
-/
namespace Sys2Proof.Machine

open Sys2Proof

/-! ### Matrices of values -/

/-- One plane of a tensor's valid values, row by row. -/
abbrev Plane := Array (Array Val)

def Plane.at (m : Plane) (i j : Nat) : Val := (m.getD i #[]).getD j Num.zero

/-- The valid values of plane p (R256); `pick` gives the descriptor each block is read through (04 R107). -/
def Channel.planeBy (c : Channel) (d : Desc) (pick : Nat → Desc) (p : Nat) : Plane :=
  ((List.range d.br).flatMap fun r =>
    let grids := (List.range d.bc).map fun cc =>
      let n := d.blockIdx p r cc
      (pick n).grid Num.zero (c.rdVals (pick n) n).1
    (List.range 32).filterMap fun gi =>
      let i := 32 * r + gi
      if decide (d.orgr ≤ i) && decide (i < d.orgr + d.er) then
        let row := grids.flatMap fun g => g.getD gi []
        some ((row.drop d.orgc).take d.ec).toArray
      else none).toArray

def Channel.plane (c : Channel) (d : Desc) (p : Nat) : Plane := c.planeBy d (fun _ => d) p

/-- All planes of a tensor. -/
def Channel.tensor (c : Channel) (d : Desc) : Array Plane := ((List.range d.planes).map (c.plane d)).toArray

/-- Lines of block n of a tensor, taken from planes of values; none at padding. -/
def Desc.linesOf (d : Desc) (t : Array Plane) (n : Nat) : List (List (Option Val)) :=
  let (p, r, c) := d.blockAt n
  let m := t.getD p #[]
  (List.range 32).map fun l => (List.range 32).map fun k =>
    let (gi, gj) := if d.rax then (k, l) else (l, k)
    if d.valid r c gi gj then some (m.at (32 * r + gi - d.orgr) (32 * c + gj - d.orgc)) else none

/-! ### Rotation (04 R96) -/

/-- One butterfly stage of span h over the list, `fuel` chunks of 2h. -/
def butterfly (h : Nat) : Nat → List W32 → List W32
  | 0, xs => xs
  | n + 1, xs =>
    let a := xs.take h
    let b := (xs.drop h).take h
    (a.zip b).map (fun p => Num.fadd p.1 p.2) ++ (a.zip b).map (fun p => Num.fsub p.1 p.2) ++
      butterfly h n (xs.drop (2 * h))

/-- H: eight stages. -/
def hadamard (xs : List W32) : List W32 :=
  (List.range 8).foldl (fun xs s => butterfly (2 ^ s) (128 / 2 ^ s) xs) xs

/-- ×1/16, rounded. -/
def sixteenth (xs : List W32) : List W32 := xs.map fun x => Num.fmul x 0x3D800000

/-- Signs of D for 256 logical columns from col on (R97). -/
def flipSigns (seed : W64) (col : Nat) (xs : List W32) : List W32 :=
  xs.zipIdx.map fun (x, i) => if Sas.signBit seed (col + i) then Num.fneg x else x

/-- One segment rotated exactly as R96 does; `col` is its first logical column. -/
def rotate (seed : W64) (col : Nat) (xs : List W32) : List W32 := sixteenth (hadamard (flipSigns seed col xs))

/-- Rotates a row of 32-bit values in segments of 256; `col` is the row's first logical column. -/
def rotateRow (seed : W64) : Nat → Nat → List W32 → List W32
  | 0, _, _ => []
  | n + 1, col, xs => rotate seed col (xs.take 256) ++ rotateRow seed n (col + 256) (xs.drop 256)

/-! ### Clipping (04 R100, R101) -/

/-- Clips one block: the clipped values, and the residual of each clipped element by its place in the block. A sum
of magnitudes that is not finite clips nothing and poisons the block, but for a wide destination, which has no blocks
to poison (03 R82). -/
def clipBlock (wide : Bool) (kappa : Nat) (xs : List (Option Val)) : List (Option Val) × List (Nat × W32) :=
  let vs := xs.filterMap id
  let S := Num.to32 (sumVals (vs.map Num.abs))
  match Num.dec32 S with
  | .fin _ m _ =>
    if m = 0 then (xs, [])
    else
      let t := Num.fdiv (Num.to32 (Num.mul (.fin false kappa (-4)) (Num.dec32 S)))
        (Num.to32 (.fin false vs.length 0))
      let tv := Num.dec32 t
      let one (p : Option Val × Nat) : Option Val × Option (Nat × W32) :=
        match p.1 with
        | some (.fin n m e) =>
          if Num.lt tv (.fin false m e) then
            let cv := if n then Num.neg tv else tv
            (some cv, some (p.2, Num.to32 (Num.sub (.fin n m e) cv)))
          else (p.1, none)
        | v => (v, none)
      let rs := xs.zipIdx.map one
      (rs.map (·.1), rs.filterMap (·.2))
  | _ => (if wide then xs else xs.map fun x => x.map fun _ => Val.nan, [])

/-- Reads the block (R439). -/
def Channel.fzBlk (c : Channel) (a : Nat) : Ck FzBlk := do
  let b ← c.getBlock a 64 64 0xF
  pure (FzBlk.parse a b)

/-- The checks of R136. -/
def FzBlk.check (f : FzBlk) : Ck Unit :=
  need (f.rctl.ok && !(f.scale && (f.trk == 0 || f.tacc == 0))) (.fault 0xF f.addr)

/-- The conversion units (Table 6.1). -/
inductive FzUnit where
  | fz0 | fz1a | fz1b | thaw
  deriving DecidableEq, Repr

def FzUnit.lanes (u : FzUnit) (l : Lanes) : List (BitVec 128) :=
  match u with
  | .fz0 => l.fz0
  | .fz1a => l.fz1a
  | .fz1b => l.fz1b
  | .thaw => l.thaw

def FzUnit.setLanes (u : FzUnit) (l : Lanes) (x : List (BitVec 128)) : Lanes :=
  match u with
  | .fz0 => { l with fz0 := x }
  | .fz1a => { l with fz1a := x }
  | .fz1b => { l with fz1b := x }
  | .thaw => { l with thaw := x }

def FzUnit.laneUnit (u : FzUnit) (core : Nat) : Sas.LaneUnit :=
  match u with
  | .fz0 => LaneUnit.fz0 core
  | .fz1a => LaneUnit.fz1a core
  | .fz1b => LaneUnit.fz1b core
  | .thaw => LaneUnit.thaw core

/-- FZ1, either port. -/
def FzUnit.isFz1 : FzUnit → Bool
  | .fz1a | .fz1b => true
  | _ => false

/-! ### One freezing pass -/

/-- What a pass writes and how. -/
structure FzCfg where
  d : Desc
  /-- the format frozen to; an MX destination is frozen natively first (R139) -/
  fmt : Fmt
  fb : FzBlk
  unit : FzUnit
  core : Nat
  step : W32
  /-- KAPPA, CAPT, CAPBUF where CLIP = 1 -/
  clip : Option (Nat × Bool × Nat) := none
  /-- the format of the shadow freeze (R105, R131) -/
  shadow : Option Fmt := none
  /-- bad elements beyond which the pass is aborted (R105) -/
  limit : Option Nat := none
  deriving DecidableEq, Repr

/-- What a pass has written and counted so far. -/
structure FzAcc where
  /-- superblocks to write, latest first -/
  writes : List (Nat × Sb) := []
  sat : Nat := 0
  ovf : Nat := 0
  pois : Nat := 0
  clamp : Nat := 0
  zblk : Nat := 0
  sblk : Nat := 0
  nz : Nat := 0
  uflow : Nat := 0
  shsat : Nat := 0
  shufl : Nat := 0
  norm : Nat := 0
  nel : Nat := 0
  /-- tracker updates, latest first -/
  trk : List TrkUpd := []
  /-- capture groups touched, with their clips in order of production: index in the group, residual -/
  groups : List ((Nat × Nat) × List (Nat × W32)) := []
  /-- clips without a group (CAPT = 0) -/
  noCap : Nat := 0
  lanes : List (BitVec 128) := []
  ctr : Nat := 0
  aborted : Bool := false
  deriving DecidableEq, Repr

/-- Uncaptured clips seen so far (R102, R105). -/
def FzAcc.uncaptured (a : FzAcc) : Nat := a.noCap + (a.groups.map fun g => g.2.length - 64).sum
def FzAcc.captured (a : FzAcc) : Nat := (a.groups.map fun g => min 64 g.2.length).sum
/-- Bad elements of R105. -/
def FzAcc.bad (a : FzAcc) : Nat := a.sat + a.uncaptured

/-- The random words of superblock n by line (R137), and the lanes and counter after. -/
def FzCfg.words (g : FzCfg) (n : Nat) (lanes : List (BitVec 128)) (ctr : Nat) :
    List (List Nat) × List (BitVec 128) × Nat :=
  if g.fb.rctl.mode != 1 then (List.replicate 32 (List.replicate 32 0), lanes, ctr)
  else if g.fb.rctl.keyed then
    ((List.range 32).map fun l => (List.range 32).map fun k =>
      let (u, v) := g.d.keyed (g.d.coord n l k)
      (Sas.keyedWord g.fb.seed g.step g.fb.tid (BitVec.ofNat 64 u) (BitVec.ofNat 32 v) 0).toNat, lanes, ctr)
  else
    let (ws, lanes') := Sas.laneDraw (g.unit.laneUnit g.core) 1 1024 0 ctr lanes
    ((List.range 32).map fun l => (ws.drop (32 * l)).take 32, lanes', ctr + 1024)

/-- Adds clips to a capture group. -/
def addGroup (gs : List ((Nat × Nat) × List (Nat × W32))) (key : Nat × Nat) (es : List (Nat × W32)) :
    List ((Nat × Nat) × List (Nat × W32)) :=
  if gs.any (fun g => g.1 == key) then gs.map fun g => if g.1 == key then (key, g.2 ++ es) else g
  else gs ++ [(key, es)]

/-- The group, and the index in it, of a residual at row gi and column gj of block n. -/
def Desc.captureAt (d : Desc) (n : Nat) (x : Nat × Nat × W32) : (Nat × Nat) × (Nat × W32) :=
  let (_, r, c) := d.blockAt n
  let j := 32 * c + x.2.1 - d.orgc
  ((r, j / 128), (128 * x.1 + j % 128, x.2.2))

/-- Clips the blocks of superblock n; residuals by (row in block, column in block). -/
def FzCfg.clipSb (g : FzCfg) (xs : List (List (Option Val))) :
    List (List (Option Val)) × List (Nat × Nat × W32) :=
  match g.clip with
  | none => (xs, [])
  | some (kappa, _, _) =>
    let bs := splitBlocks g.d.bs16 xs
    let w := if g.d.bs16 then 16 else 32
    let rs := bs.map (clipBlock g.fmt.isWide kappa)
    let res := rs.zipIdx.flatMap fun (r, b) => r.2.map fun (k, v) =>
      let l := b * w / 32
      let kk := b * w % 32 + k
      if g.d.rax then (kk, l, v) else (l, kk, v)
    (joinBlocks g.d.bs16 (rs.map (·.1)), res)

/-- A B16 or F32 superblock: element bits, saturations (RTZ), overflows, underflows, nonzero sources, sum of squares. -/
structure WideOut where
  bits : List (List Nat)
  sat : Nat
  ovf : Nat
  nz : Nat
  uflow : Nat
  sq : Val
  deriving DecidableEq, Repr

/-- Rounds one element to a wide format: bits, RTZ saturation, overflow, the value written. -/
def wideElem (f : Fmt) (mode : Num.Mode) (v : Val) : Nat × Bool × Bool × Val :=
  match f with
  | .b16 =>
    let o := Num.to16 mode v
    (o.bits.toNat, o.counted && !o.overflow, o.overflow, Num.dec16 o.bits)
  | _ =>
    let w := Num.to32 v
    let x := Num.dec32 w
    (w.toNat, false, !Num.nonFinite v && Num.nonFinite x, x)

def freezeWide (f : Fmt) (mode : Num.Mode) (xs : List (List (Option Val))) (ws : List (List Nat)) : WideOut :=
  let es := (xs.zip ws).map fun (l, w) => (l.zip w).map fun (x, r) =>
    match x with
    | none => (none, 0, false, false, Num.zero)
    | some v => let o := wideElem f (modeWith mode r) v; (some v, o)
  let all := es.flatten
  let live := all.filter fun e => match e.1 with | some v => !Num.nonFinite v && !Num.isZero v | none => false
  { bits := es.map fun l => l.map fun e => e.2.1
    sat := (all.filter fun e => e.2.2.1).length
    ovf := (all.filter fun e => e.2.2.2.1).length
    nz := live.length
    uflow := (live.filter fun e => Num.isZero e.2.2.2.2).length
    sq := sumVals (all.filterMap fun e =>
      if e.1.isSome && !Num.nonFinite e.2.2.2.2 then some (Num.mul e.2.2.2.2 e.2.2.2.2) else none) }

/-- Freezes superblock n of a pass. The shadow freeze of a B16 destination, which has no blocks, takes its blocks by BS16 of
the destination's descriptor (log 104), and so does its tracker with SCALE = 1, where a block with a non-finite element
leaves its entry as it was (DESIGN CHOICE, log 23). -/
def FzCfg.one (g : FzCfg) (c : Channel) (src : Nat → List (List (Option Val))) (a : FzAcc) (n : Nat) : FzAcc :=
  if a.aborted then a
  else
    let d := g.d
    let (xs, res) := g.clipSb (src n)
    let (ws, lanes, ctr) := g.words n a.lanes a.ctr
    let groups :=
      match g.clip with
      | some (_, true, _) => res.foldl (fun gs x => let (k, e) := d.captureAt n x; addGroup gs k [e])
          ((d.captureGroups n).foldl (fun gs k => addGroup gs k []) a.groups)
      | _ => a.groups
    let noCap := match g.clip with | some (_, false, _) => a.noCap + res.length | _ => a.noCap
    let mode := g.fb.rctl.toMode
    let bs := splitBlocks d.bs16 xs
    let bw := splitBlocks d.bs16 ws
    let tx (b : Nat) : Nat := if g.fb.scale then c.rdN (g.fb.trk + g.d.trkEntry g.fb.tidx n b) 1 else 0
    let nel := a.nel + ((xs.flatten).filter Option.isSome).length
    let a := { a with groups := groups, noCap := noCap, lanes := lanes, ctr := ctr, nel := nel }
    let a :=
      if g.fmt.isWide then
        let o := freezeWide g.fmt mode xs ws
        let trk := if g.fb.scale then
            (bs.zip bw).zipIdx.filterMap fun ((x, w), b) =>
              let vs := x.filterMap id
              let am := amax vs
              if vs.any Num.nonFinite || Num.isZero am then none
              else
                let bo := freezeWide g.fmt mode [x] [w]
                some { entry := g.d.trkEntry g.fb.tidx n b
                       maxi := max 1 (min 254 (Config.idealB16 (Num.to32 am)))
                       sat := decide (0 < bo.sat + bo.ovf), zero := false }
          else []
        { a with
          writes := (n, { elems := o.bits }) :: a.writes
          sat := a.sat + o.sat, ovf := a.ovf + o.ovf, nz := a.nz + o.nz, uflow := a.uflow + o.uflow
          norm := a.norm + normOf o.sq, trk := trk.reverse ++ a.trk }
      else
        let z := freezeBlocks g.fmt mode tx bs (fun b => bw.getD b [])
        let native := z.sb d.bs16
        let (sb, blks) :=
          if d.fmt.isMx then
            let ml := nativeToMx d.fmt mode d.bs16 native (d.validLines n) (fun l => ws.getD l [])
            (({ codes := ml.map (·.code), elems := ml.map (·.bits) } : Sb),
              (z.blks.zip (ml.zip bs)).map fun (k, m, x) => mxBlock d.fmt k m x)
          else (native, z.blks)
        let trk := if g.fb.scale then
            (blks.zip z.blks).zipIdx.filterMap fun ((k, k0), b) =>
              if k.live then some { entry := g.d.trkEntry g.fb.tidx n b, maxi := k.ideal, sat := decide (0 < k.sats), zero := k0.zblk }
              else none
          else []
        let sums (f : BlkOut → Nat) : Nat := (blks.map f).sum
        { a with
          writes := (n, sb) :: a.writes
          sat := a.sat + sums (·.sats)
          pois := a.pois + sums (b2n ·.poison)
          clamp := a.clamp + sums (b2n ·.clamp)
          zblk := a.zblk + sums (b2n ·.zblk), sblk := a.sblk + sums (b2n ·.sblk)
          nz := a.nz + sums (·.nz), uflow := a.uflow + sums (·.uflow)
          norm := a.norm + normOf (sumVals (blks.map (·.sq))), trk := trk.reverse ++ a.trk }
    let a :=
      match g.shadow with
      | none => a
      | some sf =>
        -- non-finite sources of a B16 destination are left out (R447)
        let drop (l : List (Option Val)) : List (Option Val) :=
          if g.fmt.isWide then l.map fun x => x.bind fun v => if Num.nonFinite v then none else some v else l
        let z := freezeBlocks sf mode tx (bs.map drop) (fun b => bw.getD b [])
        { a with shsat := a.shsat + (z.blks.map (·.sats)).sum, shufl := a.shufl + (z.blks.map (·.uflow)).sum }
    match g.limit with
    | some lim => { a with aborted := decide (lim < a.bad) }
    | none => a

/-- Freezes the superblocks of a share in the order given. -/
def FzCfg.pass (g : FzCfg) (c : Channel) (src : Nat → List (List (Option Val))) (ns : List Nat)
    (lanes : List (BitVec 128)) (ctr : Nat) : FzAcc :=
  ns.foldl (g.one c src) { lanes := lanes, ctr := ctr }

/-- Checks the tables and capture regions a pass reads and writes (R53). -/
def FzCfg.checkTables (g : FzCfg) (c : Channel) (ns : List Nat) : Ck Channel := do
  let c ← c.touch g.d true ns
  if g.fb.scale then
    let k := g.d.trkSpan g.fb.tidx ns
    c.canRead g.fb.trk k
    need (k == 0 || inRegion g.fb.tacc (2 * k)) (.guard g.fb.tacc true)
  match g.clip with
  | some (_, true, buf) =>
    (ns.flatMap g.d.captureGroups).forM fun k =>
      let a := g.d.groupAddr buf k
      need (inRegion a 512) (.guard a true)
  | _ => pure ()
  pure c

/-- The 64 entries of a capture group: the lowest indices in order (R102, Table 4.5). -/
def captureBytes (es : List (Nat × W32)) : List Byte :=
  let sorted := (es.mergeSort fun a b => decide (a.1 ≤ b.1)).take 64
  let used := sorted.flatMap fun (i, v) => toBytes 8 (i + 2 ^ 16 + 2 ^ 32 * v.toNat)
  used ++ List.replicate (512 - used.length) 0

/-- Writes a pass's superblocks in order and its capture groups. -/
def FzCfg.write (g : FzCfg) (c : Channel) (a : FzAcc) (groups : Bool) : Channel :=
  let c := a.writes.reverse.foldl (fun c (n, sb) => c.wrSb g.d n sb) c
  match g.clip with
  | some (_, true, buf) =>
    if groups then
      a.groups.foldl (fun c (k, es) => c.put (g.d.groupAddr buf k) (captureBytes es)) c
    else c
  | _ => c

/-- The additions of a pass to the layer record (Table 6.7). SAT0 counts the saturations of R61, which a B16 destination
does not have (R77). -/
def FzCfg.statAdds (g : FzCfg) (a : FzAcc) : List StatAdd :=
  let n (x : Nat) : Nat := if g.fb.norm then x else 0
  match g.unit with
  | .fz0 =>
    [⟨0, 4, if g.fmt.isWide then 0 else a.sat⟩, ⟨4, 4, a.captured⟩, ⟨8, 4, a.uncaptured⟩, ⟨12, 4, a.pois⟩, ⟨16, 4, a.clamp⟩,
     ⟨20, 4, a.zblk⟩, ⟨24, 4, a.sblk⟩, ⟨96, 16, n a.norm⟩]
  | .thaw => [⟨72, 4, a.sat + a.ovf⟩, ⟨76, 4, a.clamp⟩, ⟨80, 4, a.pois⟩]
  | _ =>
    [⟨32, 8, a.nz⟩, ⟨40, 4, a.sat + a.ovf⟩, ⟨44, 4, a.uflow⟩, ⟨48, 4, a.shsat⟩, ⟨52, 4, a.shufl⟩, ⟨56, 4, a.pois⟩,
     ⟨60, 4, a.clamp⟩, ⟨64, 4, a.zblk⟩, ⟨68, 4, a.sblk⟩, ⟨112, 16, n a.norm⟩]

/-- The total counters of a unit (Tables 6.12, 6.13). FZ0's counts saturations alone, those of R77 among them; the
overflows of a B16 destination are left out of it (log 104). -/
def FzUnit.total (u : FzUnit) (t : ConvTotals) (a : FzAcc) : ConvTotals :=
  let s := a.sat + a.ovf
  match u with
  | .fz0 =>
    { t with fz0Sat := satAdd t.fz0Sat a.sat, fz0Sb := satAdd t.fz0Sb a.writes.length, pois0 := satAdd t.pois0 a.pois }
  | .thaw => { t with thEl := satAdd t.thEl a.nel, thClamp := satAdd t.thClamp a.clamp, thExc := satAdd t.thExc s }
  | _ =>
    { t with fz1Sat := satAdd t.fz1Sat s, fz1Sb := satAdd t.fz1Sb a.writes.length, pois1 := satAdd t.pois1 a.pois }

/-- The event records of a pass (R158, Table 6.10). OVF counts the overflows of a B16 write and no RTZ saturation, which 03 R77
does not name for the event (DESIGN CHOICE, log 104). -/
def FzCfg.eventList (g : FzCfg) (a : FzAcc) (layer : Nat) : List Event :=
  let origin := if g.unit = .thaw then 1 else 0
  let ev (t d0 d1 : Nat) : Event := ⟨t, g.core, origin, layer, g.step, d0, d1⟩
  let nOver := (a.groups.filter fun x => decide (64 < x.2.length)).length
  (if 0 < nOver then [ev 0x03 (a.uncaptured - a.noCap) nOver] else []) ++
  (if 0 < a.pois then [ev 0x04 a.pois g.d.addr] else []) ++
  (if 0 < a.sblk then [ev 0x05 a.sblk g.d.addr] else []) ++
  (if 0 < a.ovf && g.unit != .fz0 then [ev 0x06 a.ovf g.d.addr] else [])

/-- Applies a finished pass: data, tracker, totals, statistics, lanes; true where NMEV is set (R144, R151, R158). A pass that
is aborted, and not final, raises no event record (DESIGN CHOICE, log 40). -/
def FzCfg.apply (g : FzCfg) (w : Wk) (a : FzAcc) (core : Core) (layer : Nat) (final : Bool) : Wk × Bool :=
  let c := g.write w.c a final
  let c := a.trk.reverse.foldl (fun c u => c.trkApply g.fb.tacc u) c
  let c := c.modCore core fun cs =>
    { cs with conv := g.unit.total cs.conv a, lanes := g.unit.setLanes cs.lanes a.lanes }
  let (c, nm) := c.stats g.step layer (g.statAdds a)
  let es := if final then g.eventList a layer else []
  ({ w with c := c, ctr := a.ctr }.events es, nm || !es.isEmpty)

/-! ### The epilogue's checks (04 Table 4.7) -/

/-- The rules of R98, R103 and Table 4.7 on a share of Y: columns c0 to c1 of the piece. -/
def Epi.checkCols (e : Epi) (d : Desc) (colSplit : Bool) (c0 c1 : Nat) : Bool :=
  let g := d.goff.getD (d.nd - 1) 0
  (!e.rot || (d.ec % 256 == 0 && g % 256 == 0 && (!colSplit || (c0 % 256 == 0 && c1 % 256 == 0)))) &&
  (!e.clip || e.kappa != 0) &&
  (!e.capt || (e.clip && (!colSplit || (c0 % 128 == 0 && (c1 % 128 == 0 || c1 == d.ec)))))

def Epi.clipCfg (e : Epi) : Option (Nat × Bool × Nat) := if e.clip then some (e.kappa, e.capt, e.capbuf) else none

/-- Rows of F32 values rotated where ROT = 1; col0 is the logical column of column 0. -/
def Epi.rotated (e : Epi) (t : Array Plane) (col0 : Nat) : Array Plane :=
  if e.rot then
    t.map fun m => m.map fun row =>
      ((rotateRow e.rotseed ((row.size + 255) / 256) col0 (row.toList.map Num.to32)).map Num.dec32).toArray
  else t

/-! ### Meanings -/

/-- DETAIL and INFO of cv.* (R142). -/
def convResult (a : FzAcc) (nm : Bool) : Result :=
  { detail := BitVec.ofNat 16
      (b2n (decide (0 < a.sat + a.ovf)) + 2 * b2n (decide (0 < a.pois)) + 4 * b2n (decide (0 < a.clamp))
        + 8 * b2n (decide (0 < a.zblk)))
    info := info2 (a.sat + a.ovf) a.clamp
    nmev := nm }

/-- The core of a running array command. -/
def runCore (r : Running) : Core := (((srcEngine r.src).bind engineCore).getD 0)

/-- The shape rule of R139 and R141. -/
def sameShape (s d : Desc) : Bool := s.nd == d.nd && s.dims == d.dims

/-- The next format down, for shadow counts (R131, R447). -/
def shadowFmt : Fmt → Option Fmt
  | .b16 => some .f8b
  | .f8b => some .f8a
  | _ => none

/-- A share reads only its own rows of the source (01 R13): the elements, or the superblocks of a narrow source, that its
blocks of the destination take. -/
def Channel.touchShare (c : Channel) (s d : Desc) (split : Option Split) (ns : List Nat) : Ck Channel :=
  if split.isNone then c.touch s false (s.blocks none)
  else if s.fmt.isWide then
    (joinRanges ((ns.flatMap d.elems).map fun x => (s.elemAddr x, s.fmt.width / 8))).foldlM
      (fun c r => c.access r.1 r.2 false) c
  else c.touch s false ((ns.flatMap d.elems).map fun x => (s.locate x).1).dedup

/-- What a conversion takes: source and destination, the freeze, the epilogue and the layer of its statistics. -/
structure ConvOps where
  s : Desc
  g : FzCfg
  epi : Option Epi
  layer : Nat

/-- The checks of cv.freeze (R139, R140), and the channel as they leave it. -/
def freezeOps (c : Channel) (r : Running) : Ck (ConvOps × Channel) := do
  let core := runCore r
  let fb ← c.fzBlk (bits r.cmd.a2.toNat 47 0)
  let s ← c.desc (bits r.cmd.a0.toNat 47 0) r.copies
  let d ← c.desc (bits r.cmd.a1.toNat 47 0) r.copies
  fb.check
  need s.fmt.isWide (.fault 0xF s.addr)
  need (!d.fmt.isWide || (d.fmt == .b16 && s.fmt == .f32)) (.fault 0xF d.addr)
  need (sameShape s d) (.fault 0xF d.addr)
  checkExtent r d
  let epi ← if fb.epi = 0 then pure none else do
    let b ← c.get fb.epi 64
    let e := Epi.parse fb.epi b
    need (!fb.unit && !e.misfit && e.checkCols d false 0 d.ec && d.nd ≤ 2 && !d.rax) (.fault 0xF fb.epi)
    pure (some e)
  let unit : FzUnit := if fb.unit then (if fb.port then .fz1b else .fz1a) else .fz0
  let ns := d.blocks r.split
  let g : FzCfg :=
    { d := d, fmt := d.fmt.elem, fb := fb, unit := unit, core := core.val, step := r.step
      clip := epi.bind Epi.clipCfg
      shadow := if unit.isFz1 then shadowFmt d.fmt else none }
  let c ← c.touchShare s d r.split ns
  let c ← g.checkTables c ns
  pure (⟨s, g, epi, fb.layer⟩, c)

/-- cv.freeze on checked operands. -/
def freezeRun (w : Wk) (r : Running) (o : ConvOps) : Wk × Result :=
  let core := runCore r
  let d := o.g.d
  let t := w.c.tensor o.s
  let t := match o.epi with | some e => e.rotated t (d.goff.getD (d.nd - 1) 0) | none => t
  let a := o.g.pass w.c (d.linesOf t) (d.blocks r.split) (o.g.unit.lanes w.c.cores[core].lanes) w.ctr
  let (w, nm) := o.g.apply w a core o.layer true
  (w, convResult a nm)

/-- cv.freeze (R139, R140). -/
def cvFreeze (w : Wk) (r : Running) : Ck (Wk × Result) := do
  let (o, c) ← freezeOps w.c r
  pure (freezeRun { w with c := c } r o)

/-- The counts of one superblock converted to or from MX. -/
def mxAcc (a : FzAcc) (n : Nat) (sb : Sb) (bl : List BlkOut) : FzAcc :=
  { a with
    writes := (n, sb) :: a.writes
    sat := a.sat + (bl.map (·.sats)).sum
    pois := a.pois + (bl.map (b2n ·.poison)).sum
    clamp := a.clamp + (bl.map (b2n ·.clamp)).sum
    zblk := a.zblk + (bl.map (b2n ·.zblk)).sum
    sblk := a.sblk + (bl.map (b2n ·.sblk)).sum }

/-- The codes of the two half-blocks of a line with the code of its MX block (R73 step 5, R70): 0xF for a half that is all
padding or all zero, else the line's (log 41). -/
def halfCodes (g : Fmt) (k : BlkOut) (ok : List Bool) : List Nat :=
  let half (bits : List Nat) (ok : List Bool) : Nat :=
    if !ok.any id then 0xF
    else if k.poison then 0xE
    else if bits.all g.isZeroBits then 0xF
    else k.code
  [half (k.bits.take 16) (ok.take 16), half (k.bits.drop 16) (ok.drop 16)]

/-- One superblock of an MX to native conversion (R73). An MX block that becomes two half-blocks is counted once, and a half that
alone becomes zero not at all (DESIGN CHOICE, log 41). -/
def thawFromMx (g : FzCfg) (c : Channel) (s : Desc) (a : FzAcc) (n : Nat) : FzAcc :=
  let ok := s.validLines n
  let (ws, lanes, ctr) := g.words n a.lanes a.ctr
  let z := mxToNative s.fmt g.fb.rctl.toMode (c.rdSb s n) ok (fun l => ws.getD l [])
  let a := mxAcc a n
    { exp := z.exp
      codes := (z.blks.zip ok).flatMap fun (k, o) => if g.d.bs16 then halfCodes g.d.fmt k o else [k.code]
      elems := z.blks.map (·.bits) } z.blks
  { a with lanes := lanes, ctr := ctr, nel := a.nel + (ok.flatten.filter id).length }

/-- One superblock of a native to MX conversion (R74). -/
def thawToMx (g : FzCfg) (c : Channel) (s : Desc) (a : FzAcc) (n : Nat) : FzAcc :=
  let ok := s.validLines n
  let (ws, lanes, ctr) := g.words n a.lanes a.ctr
  let bl := nativeToMx g.d.fmt g.fb.rctl.toMode s.bs16 (c.rdSb s n) ok (fun l => ws.getD l [])
  let a := mxAcc a n { codes := bl.map (·.code), elems := bl.map (·.bits) } bl
  { a with lanes := lanes, ctr := ctr, nel := a.nel + (ok.flatten.filter id).length }

/-- A conversion from an MX format to its element format (R73), and back (R74). -/
def fromMx (s d : Desc) : Bool := s.fmt.isMx && d.fmt == s.fmt.elem && s.rax == d.rax
def toMx (s d : Desc) : Bool := s.fmt.isNarrow && d.fmt.isMx && d.fmt.elem == s.fmt && s.rax == d.rax

/-- The checks of cv.thaw (R141, Table 6.4), and the channel as they leave it. -/
def thawOps (c : Channel) (r : Running) : Ck (ConvOps × Channel) := do
  let core := runCore r
  let fb ← c.fzBlk (bits r.cmd.a2.toNat 47 0)
  let s ← c.desc (bits r.cmd.a0.toNat 47 0) r.copies
  let d ← c.desc (bits r.cmd.a1.toNat 47 0) r.copies
  need (!s.fmt.isWide) (.fault 0xF s.addr)
  let wide := s.fmt.isNarrow && d.fmt.isWide
  let both := s.fmt.isNarrow && d.fmt.isNarrow
  need (wide || fromMx s d || toMx s d || both) (.fault 0xF d.addr)
  -- a field that the conversion does not use is not checked: R73 and R74 round, and choose no scale
  if wide then pure () else if both then fb.check else need fb.rctl.ok (.fault 0xF fb.addr)
  need (sameShape s d) (.fault 0xF d.addr)
  checkExtent r d
  let fb := if wide then { fb with rctl := ⟨0, 0, false⟩, scale := false } else { fb with scale := fb.scale && both }
  let ns := d.blocks r.split
  let g : FzCfg := { d := d, fmt := d.fmt.elem, fb := fb, unit := .thaw, core := core.val, step := r.step }
  let c ← c.touchShare s d r.split ns
  let c ← g.checkTables c ns
  pure (⟨s, g, none, fb.layer⟩, c)

/-- cv.thaw on checked operands. -/
def thawRun (w : Wk) (r : Running) (o : ConvOps) : Wk × Result :=
  let c := w.c
  let core := runCore r
  let d := o.g.d
  let ns := d.blocks r.split
  let lanes := c.cores[core].lanes.thaw
  let a :=
    if fromMx o.s d then ns.foldl (thawFromMx o.g c o.s) { lanes := lanes, ctr := w.ctr }
    else if toMx o.s d then ns.foldl (thawToMx o.g c o.s) { lanes := lanes, ctr := w.ctr }
    else o.g.pass c (d.linesOf (c.tensor o.s)) ns lanes w.ctr
  let read := (if d.blocks r.split == d.blocks none then o.s.blocks none
    else ((ns.flatMap d.elems).map fun x => (o.s.locate x).1).dedup)
  let (w, nm) := o.g.apply (w.mod fun c => c.countPois o.s read) a core o.layer true
  (w, convResult a nm)

/-- cv.thaw (R141, Table 6.4). -/
def cvThaw (w : Wk) (r : Running) : Ck (Wk × Result) := do
  let (o, c) ← thawOps w.c r
  pure (thawRun { w with c := c } r o)

/-- CV_FREEZE. -/
def execCvFreeze (ch : Ch) (src : Src) (s : State) : Host.Outcome State Fault Refusal :=
  .next (onCoreRun s ch src 0x18 fun w r => endWith w r (cvFreeze w r))

/-- CV_THAW. -/
def execCvThaw (ch : Ch) (src : Src) (s : State) : Host.Outcome State Fault Refusal :=
  .next (onCoreRun s ch src 0x19 fun w r => endWith w r (cvThaw w r))

end Sys2Proof.Machine
end

