-- ==== Sys2Proof/Machine/Array.lean ====
section
/-!
DEFINITION. The arrays (04, 05): groups and accumulation (03 R79, R80), production order and drains, the misfit
rule, and the meanings of mm.fwd, mm.bwd2, mm.bwd, BANK_HANDOVER and BANK_RELEASE.
-/
namespace Sys2Proof.Machine

open Sys2Proof

/-! ### Products -/

/-- Positions a unit takes per clock for the wider operand's width (03 Table 3.10). -/
def rate (firn : Bool) (width : Nat) : Nat :=
  if firn then (if width ≤ 4 then 64 else if width ≤ 8 then 32 else 16)
  else (if width ≤ 2 then 64 else if width ≤ 4 then 32 else 16)

/-- Groups of one span taken at its own width. -/
def cutSpan (s w : Nat) : List (Nat × Nat) :=
  if w = 64 then [(32 * s, 32)] else (List.range (32 / w)).map fun i => (32 * s + i * w, w)

/-- Groups of R79 from the width W of each span, in ascending position: first position and length. -/
def groupsGo (s : Nat) : List Nat → List (Nat × Nat)
  | [] => []
  | [w] => if w = 64 then [(32 * s, 64)] else cutSpan s w
  | w1 :: w2 :: rest =>
    (if w1 = 64 && w2 = 64 then [(32 * s, 64)] else cutSpan s w1 ++ cutSpan (s + 1) w2) ++ groupsGo (s + 2) rest

/-- An operand as lines along the reduction axis, and the width of a line's elements in each span. -/
structure Operand where
  lines : Plane
  width : Nat → Nat → Nat

/-- acc + Σ a·b over one group, rounded once; an exact zero is +0 (R79, R80). -/
def groupStep (a b : Array Val) (acc : W32) (g : Nat × Nat) : W32 :=
  let sum := (List.range g.2).foldl (fun s i =>
    Num.add s (Num.mul (a.getD (g.1 + i) Num.zero) (b.getD (g.1 + i) Num.zero))) (Num.dec32 acc)
  match sum with
  | .fin _ 0 _ => 0
  | v => Num.to32 v

/-- The accumulator of line i of A and line j of B over K positions. -/
def accumulate (firn : Bool) (K : Nat) (A B : Operand) (i j : Nat) : W32 :=
  let ws := (List.range ((K + 31) / 32)).map fun s => rate firn (max (A.width i s) (B.width j s))
  (groupsGo 0 ws).foldl (groupStep (A.lines.getD i #[]) (B.lines.getD j #[])) 0

/-- Columns as lines. -/
def Plane.flip (m : Plane) (cols : Nat) : Plane :=
  ((List.range cols).map fun j => m.map fun row => row.getD j Num.zero).toArray

/-! ### Production order (04 R89) -/

/-- A list in pairs; an odd last element stands alone. -/
def pairs2 : List Nat → List (List Nat)
  | a :: b :: rest => [a, b] :: pairs2 rest
  | [a] => [[a]]
  | [] => []

/-- Tile pairs in production order: ROW pairing (COL = false) or COL pairing. -/
def tilePairs (col : Bool) (rows cols : List Nat) : List (List (Nat × Nat)) :=
  if col then rows.flatMap fun r => (pairs2 cols).map fun cs => cs.map fun c => (r, c)
  else (pairs2 rows).flatMap fun rs => cols.map fun c => rs.map fun r => (r, c)

/-- The extent rule of R13 for a product: rows for SPLIT 0, columns for 1. -/
def checkProductExtent (r : Running) (d : Desc) : Ck Unit :=
  match r.share with
  | some { extent := some e, .. } =>
    need ((if r.cmd.split = 0 then d.er else d.ec) == e) (.fault 0xF d.addr)
  | _ => .ok ()

/-! ### Alternate reads (04 R107) -/

/-- The alternate record: F8a descriptor and map. -/
structure Alt where
  d : Desc
  map : Nat
  deriving DecidableEq, Repr

/-- Reads and checks an alternate record against X. Its F8a tensor stands in for X, so it too lies in the core's Névé
window (04 R87, 05 R118 read for it: the model's choice, log 105). -/
def Channel.alt (c : Channel) (r : Running) (core a : Nat) (x : Desc) : Ck (Option Alt) :=
  if a = 0 then .ok none
  else do
    let b ← c.get a 16
    let d ← c.desc (fld b 0 6) r.copies
    need (d.arrays.all fun (a, n) => inNeve core a n) (.fault 0xF d.addr)
    need (d.fmt == .f8a && d.dims == x.dims && d.nd == x.nd && d.goff == x.goff && d.gext == x.gext
      && d.bs16 == x.bs16 && d.rax == x.rax) (.fault 0xF d.addr)
    pure (some ⟨d, fld b 8 6⟩)

/-- The map byte of block n. -/
def Channel.mapByte (c : Channel) (a : Alt) (n : Nat) : Nat := c.rdN (a.map + n) 1

/-- The descriptor a block of X is read through. -/
def Channel.pick (c : Channel) (x : Desc) (alt : Option Alt) (n : Nat) : Desc :=
  match alt with
  | some a => if c.mapByte a n = 0x02 then a.d else x
  | none => x

/-- X's values and the width of each of its blocks. -/
def Channel.altPlane (c : Channel) (x : Desc) (alt : Option Alt) : Plane := c.planeBy x (c.pick x alt) 0

def Channel.altWidth (c : Channel) (x : Desc) (alt : Option Alt) (n : Nat) : Nat := (c.pick x alt n).fmt.width

/-- Poisoned blocks among those that an array reads of an operand, each read once and through its map (03 R64). -/
def Channel.poisonsIn (c : Channel) (x : Desc) (alt : Option Alt) (ns : List Nat) : Nat :=
  (ns.dedup.map fun n => c.poisonsOf (c.pick x alt n) n).sum

/-- The first uncorrectable word of block n of a tensor in Névé. -/
def Channel.badBlock (c : Channel) (d : Desc) (n : Nat) : Option Nat :=
  if c.bad.isEmpty then none else (d.touched n).findSome? fun r => c.badIn r.1 r.2 false

/-- An array reads block n of an operand: through the map, whose byte it reads first and which names F8a or the operand's
own format (R107), and then the block itself. A byte that names neither is a fault of X's descriptor (log 112). -/
def Channel.readX (c : Channel) (x : Desc) (alt : Option Alt) (n : Nat) : Ck Unit := do
  match alt with
  | some a =>
    let m ← c.get (a.map + n) 1
    need (ofBytes m == 0x02 || ofBytes m == x.fmtCode) (.fault 0xF x.addr)
  | none => pure ()
  match c.badBlock (c.pick x alt n) n with
  | some k => throw (.ue k)
  | none => pure ()

/-- Pairs produced before the first that needs a block that cannot be read, and what ends the command there. -/
def donePairs (ok : List (Nat × Nat) → Ck Unit) : List (List (Nat × Nat)) → List (List (Nat × Nat)) × Option Err
  | [] => ([], none)
  | p :: rest =>
    match ok p with
    | .error e => ([], some e)
    | .ok _ => let (done, e) := donePairs ok rest; (p :: done, e)

/-- Blocks of 32 lines of an operand that tile t of an output with origin `org` and extent `ext` draws on. -/
def linesFor (org ext t : Nat) : List Nat :=
  ((List.range 32).filterMap fun g =>
    let i := 32 * t + g
    if decide (org ≤ i) && decide (i < org + ext) then some ((i - org) / 32) else none).dedup

/-! ### Drains -/

/-- Element bits of an F32 superblock from values. -/
def sbOfF32 (ls : List (List (Option Val))) : Sb :=
  { elems := ls.map fun l => l.map fun v => match v with | some x => (Num.to32 x).toNat | none => 0 }

/-- Writes tiles as F32 (DRAIN 1). -/
def Channel.drainF32 (c : Channel) (d : Desc) (t : Array Plane) (ns : List Nat) : Channel :=
  ns.foldl (fun c n => c.wrSb d n (sbOfF32 (d.linesOf t n))) c

/-- Adds tiles to the F32 destination, each element rounded once (05 R121 ACC). -/
def Channel.drainAcc (c : Channel) (d : Desc) (t : Array Plane) (ns : List Nat) : Channel :=
  ns.foldl (fun c n =>
    let old := (c.rdVals d n).1
    let new := (d.linesOf t n).zip old |>.map fun (l, o) => (l.zip o).map fun (v, u) => v.map (Num.add u)
    c.wrSb d n (sbOfF32 new)) c

/-- The bank of one pair (04 R92, 07 R169). -/
def bankOf (d : Desc) (t : Array Plane) (last : Bool) (pair : List (Nat × Nat)) : Bank :=
  { tiles := pair.map fun (r, c) =>
      ⟨r, c, ((d.linesOf t (d.blockIdx 0 r c)).flatten).map fun v => match v with | some x => Num.to32 x | none => 0⟩
    rows := d.er
    cols := d.ec
    orgr := d.orgr
    orgc := d.orgc
    goffr := if d.nd = 1 then 0 else d.goff.getD 0 0
    goffc := d.goff.getD (d.nd - 1) 0
    gextr := if d.nd = 1 then 1 else d.whole.getD 0 0
    gextc := d.whole.getD (d.nd - 1) 0
    last := last }

/-- The banks of a product in the order they fill. -/
def banksOf (d : Desc) (t : Array Plane) (ps : List (List (Nat × Nat))) : List Bank :=
  ps.zipIdx.map fun (p, i) => bankOf d t (i + 1 == ps.length) p

def CoreState.array (cs : CoreState) : ArrayId → ArrayState
  | .rime => cs.rime
  | .firnA => cs.firnA
  | .firnB => cs.firnB

def CoreState.modArray (cs : CoreState) (a : ArrayId) (f : ArrayState → ArrayState) : CoreState :=
  match a with
  | .rime => { cs with rime := f cs.rime }
  | .firnA => { cs with firnA := f cs.firnA }
  | .firnB => { cs with firnB := f cs.firnB }

/-- Puts a product's banks before Moraine (DRAIN 2). -/
def Channel.fillBanks (c : Channel) (core : Core) (a : ArrayId) (bs : List Bank) : Channel :=
  c.modCore core fun cs => cs.modArray a fun x => { x with full := x.full ++ bs }

/-- An array stalls a product while the bank that it needs next is still held (R94): both banks are, or one is and the
product fills more than the other. Held are the banks that Moraine has, and those that an ended product has left full (log
106). A product of one pair takes whichever bank is free: which of the two follows another product is not stated (DESIGN
CHOICE, log 127). -/
def Channel.bankFree (c : Channel) (core : Core) (a : ArrayId) (drain : Nat) (done : List (List (Nat × Nat))) : Ck Unit :=
  let x := c.cores[core].array a
  let held := x.handed.length + x.full.length
  need (drain == 2 || done.isEmpty || decide (held + min 2 done.length ≤ 2)) .wait

/-- Ends a product: with its result, or held until its banks are handed over. -/
def productEnd (w : Wk) (r : Running) (banks : Bool) (res : Result) : Wk :=
  if banks then w.mod fun c => c.setRun { r with held := some res } else w.mod fun c => c.finish r res

/-- A product that meets a block it cannot read: what was written stays (R107), and what was counted shows in NMEV
(06 R152). -/
def productErr (w : Wk) (r : Running) (e : Err) (nm : Bool) : Wk :=
  let (c, res) := w.c.fail r e
  { w with c := c.finish r { res with nmev := nm } }

/-- Ends a product that produced all its tiles, or met an error. -/
def productDone (w : Wk) (r : Running) (err : Option Err) (banks : Bool) (res : Result) : Wk :=
  match err with
  | some e => productErr w r e res.nmev
  | none => productEnd w r banks res

/-- A stopped stack holds the whole row up (13 R303). -/
def notStopped : Option Err → Ck Unit
  | some e => if e.waits then throw e else pure ()
  | none => pure ()

/-- Ends a product or its error while checking. -/
def productWith (w : Wk) (r : Running) (x : Ck Wk) : Wk :=
  match x with
  | .ok w' => w'
  | .error e => endWith w r (.error e)

/-- The arrays of a tensor lie in the core's Névé window (R87, R118). -/
def Desc.inWindow (d : Desc) (core : Nat) : Bool := d.arrays.all fun (a, n) => inNeve core a n

/-- Formats an array takes (03 R72, R83). -/
def arrayFmt (firn : Bool) (f : Fmt) : Bool :=
  match f with
  | .f8a | .f8b | .f6a | .f6b | .f4 | .i8 | .i4 | .mx8a | .mx8b | .mx4 => true
  | .i2t | .i2s => !firn
  | .b16 => firn
  | _ => false

/-! ### The misfit rule (04 R104 to R108) -/

/-- The state word of Table 4.6. -/
structure Misfit where
  bound : Nat
  clean : Nat
  mode : Bool
  events : Nat
  deriving DecidableEq, Repr

def Misfit.parse (v : Nat) : Misfit := ⟨bits v 15 0, bits v 20 16, v.testBit 24, bits v 63 32⟩
def Misfit.toNat (m : Misfit) : Nat := m.bound + m.clean * 2 ^ 16 + b2n m.mode * 2 ^ 24 + m.events * 2 ^ 32

/-- The state word after a share (R105): EVENTS already counts this share's misfit; true where it returns. -/
def Misfit.after (m : Misfit) (rerun : Bool) (shadow limit : Nat) : Misfit × Bool :=
  if rerun then ({ m with mode := true, clean := 0 }, false)
  else if m.mode then
    let cl := if shadow ≤ limit then m.clean + 1 else 0
    if cl = 16 then ({ m with mode := false, clean := 0 }, true) else ({ m with clean := cl }, false)
  else (m, false)

/-- Writes the format map bytes of the superblocks written. -/
def Channel.wrMap (c : Channel) (fmap : Nat) (code : Nat) (ns : List Nat) : Channel :=
  ns.foldl (fun c n => c.putN (fmap + n) 1 code) c

/-! ### mm.fwd -/

/-- The freeze of a forward product as its blocks and tables set it up, and under the misfit rule the F8a destination and
the core's state word. -/
structure FwdFz where
  g : FzCfg
  misfit : Option (Desc × Misfit)

/-- The checks of the freezing drain over the superblocks `ns` (R96 to R110). F8DST is checked with A2 wherever it may
come to be written, and A2 is not where F8a is the share's format (R106; log 105). -/
def Channel.fwdFz (c : Channel) (r : Running) (core : Core) (y : Desc) (e : Epi) (ns : List Nat) :
    Ck (FwdFz × Channel) := do
  let fb ← c.fzBlk e.fzp
  fb.check
  let g : FzCfg :=
    { d := y, fmt := y.fmt, fb := fb, unit := .fz0, core := core.val, step := r.step, clip := e.clipCfg }
  if !e.misfit then
    let c ← g.checkTables c ns
    pure (⟨g, none⟩, c)
  else
    let f8 ← c.desc e.f8dst r.copies
    need (f8.fmt == .f8a && sameShape f8 y && f8.bs16 == y.bs16 && !f8.rax) (.fault 0xF e.f8dst)
    let mb ← c.get (e.mstate + 8 * core.val) 8
    need (inRegion e.fmap y.nblocks) (.guard e.fmap true)
    let st := Misfit.parse (ofBytes mb)
    let c ← if st.mode then pure c else g.checkTables c ns
    let c ← ({ g with d := f8 } : FzCfg).checkTables c ns
    pure (⟨g, some (f8, st)⟩, c)

/-- The freezing drain of mm.fwd (R96 to R110): superblocks `ns` in production order of values `t`, of the share's
superblocks `share`. A share that an unreadable block of X cuts short stores no state word (R105). -/
def fwdFreeze (w : Wk) (r : Running) (core : Core) (y : Desc) (e : Epi) (o : FwdFz) (t : Array Plane)
    (ns share : List Nat) (cut : Bool) : Wk × Result :=
  let c := w.c
  let t := e.rotated t (y.goff.getD (y.nd - 1) 0)
  let lanes := c.cores[core].lanes.fz0
  let g := o.g
  match o.misfit with
  | none =>
    let a := g.pass c (y.linesOf t) ns lanes w.ctr
    let (w, nm) := g.apply w a core e.layer true
    (w, { detail := BitVec.ofNat 16 (2 * b2n (a.groups.any fun x => decide (64 < x.2.length)))
          info := info2 a.bad a.captured, nmev := nm })
  | some (f8, st) =>
    let ma := e.mstate + 8 * core.val
    let n := (share.map fun k => ((y.validLines k).flatten.filter id).length).sum
    let limit := n * st.bound / 2 ^ 24
    let gf : FzCfg := { g with d := f8, fmt := .f8a, shadow := some y.fmt }
    let ev (ty d0 d1 : Nat) : Event := ⟨ty, core.val, 0, e.layer, r.step, d0, d1⟩
    -- the first pass
    let first := if st.mode then gf else { g with limit := some limit }
    let a1 := first.pass c ((first.d).linesOf t) ns lanes w.ctr
    let code1 := if st.mode then 0x02 else y.fmtCode
    if a1.aborted then
      let st := { st with events := min (st.events + 1) (2 ^ 32 - 1) }
      let (w, nm1) := first.apply w a1 core e.layer false
      let w := w.mod fun c => c.wrMap e.fmap code1 (a1.writes.map (·.1))
      let w := w.event (ev 0x01 a1.bad st.events)
      let a2 := gf.pass w.c (f8.linesOf t) ns w.c.cores[core].lanes.fz0 w.ctr
      let (w, nm2) := gf.apply w a2 core e.layer true
      let (st, _) := st.after true 0 limit
      let w := w.mod fun c =>
        let c := c.wrMap e.fmap 0x02 ns
        if cut then c else c.putN ma 8 st.toNat
      let (c, nm3) := w.c.stats r.step e.layer [⟨28, 2, 1⟩]
      ({ w with c := c },
        { detail := BitVec.ofNat 16 (1 + 2 * b2n (a2.groups.any fun x => decide (64 < x.2.length)))
          info := info2 a2.bad a2.captured, nmev := nm1 || nm2 || nm3 || true })
    else
      let shadow := a1.shsat + a1.uncaptured
      let (st', back0) := st.after false shadow limit
      let back := back0 && !cut
      let (w, nm) := first.apply w a1 core e.layer true
      let w := w.mod fun c =>
        let c := c.wrMap e.fmap code1 ns
        if cut then c else c.putN ma 8 st'.toNat
      let w := if back then w.event (ev 0x02 0 st'.events) else w
      let (c, nm2) := w.c.stats r.step e.layer [⟨30, 2, b2n back⟩]
      ({ w with c := c },
        { detail := BitVec.ofNat 16
            (2 * b2n (a1.groups.any fun x => decide (64 < x.2.length)) + 4 * b2n back)
          info := info2 a1.bad a1.captured, nmev := nm || nm2 || back })

/-- The superblocks of the pairs produced, in order; under rotation only those of whole segments. -/
def producedBlocks (d : Desc) (rot : Bool) (done all : List (List (Nat × Nat))) : List Nat :=
  let ts := done.flatten
  let whole (t : Nat × Nat) : Bool :=
    !rot || all.flatten.all fun u => !(u.1 == t.1 && u.2 / 8 == t.2 / 8) || ts.contains u
  (ts.filter whole).map fun (r, c) => d.blockIdx 0 r c

/-- What a forward product takes: its operands, the pairs it can produce and what stops it there, and the drain's
freeze. -/
structure FwdOps where
  x : Desc
  wt : Desc
  y : Desc
  epi : Option Epi
  alt : Option Alt
  done : List (List (Nat × Nat))
  err : Option Err
  fz : Option FwdFz

/-- Poisoned blocks of X and W among those that the pairs produced draw on. -/
def FwdOps.poisons (o : FwdOps) (c : Channel) : Nat :=
  let ts := o.done.flatten
  c.poisonsIn o.x o.alt (ts.flatMap fun t => (linesFor o.y.orgr o.y.er t.1).flatMap fun i =>
    (List.range o.x.bc).map fun k => o.x.blockIdx 0 i k) +
  c.poisonsIn o.wt none (ts.flatMap fun t => (linesFor o.y.orgc o.y.ec t.2).flatMap fun i =>
    (List.range o.wt.bc).map fun k => o.wt.blockIdx 0 i k)

/-- The tile pairs of a forward share, in production order. -/
def fwdPairs (r : Running) (y : Desc) : List (List (Nat × Nat)) :=
  tilePairs (r.cmd.a4.toNat.testBit 0) (shareTiles r y).1 (shareTiles r y).2

/-- The superblocks a forward share produces of its pairs. -/
def fwdBlocks (r : Running) (y : Desc) (epi : Option Epi) (done : List (List (Nat × Nat))) : List Nat :=
  producedBlocks y (match epi with | some e => e.rot && bits r.cmd.a4.toNat 2 1 == 0 | none => false) done (fwdPairs r y)

/-- The checks of mm.fwd (R86 to R110), the blocks of its operands among them, and the channel as they leave it. A fault
that is of no one descriptor names Y's, and one of a field of the epilogue block names that block (log 112). -/
def fwdOps (c : Channel) (r : Running) : Ck (FwdOps × Channel) := do
  let core := runCore r
  let a4 := r.cmd.a4.toNat
  let drain := bits a4 2 1
  let epiA := bits r.cmd.a3.toNat 47 0
  let x ← c.desc (bits r.cmd.a0.toNat 47 0) r.copies
  let wt ← c.desc (bits r.cmd.a1.toNat 47 0) r.copies
  let y ← c.desc (bits r.cmd.a2.toNat 47 0) r.copies
  let bad (d : Desc) : Err := .fault 0xF d.addr
  need (x.inWindow core.val) (bad x)
  need (wt.inWindow core.val) (bad wt)
  [x, wt, y].forM fun d => need (decide (d.nd ≤ 2) && !d.rax) (bad d)
  need (x.ec == wt.ec && x.bs16 == wt.bs16) (bad wt)
  need (y.er == x.er && y.ec == wt.er) (bad y)
  need (drain != 3) (bad y)
  need (arrayFmt false x.fmt) (bad x)
  need (arrayFmt false wt.fmt) (bad wt)
  need (drain != 0 || (epiA != 0 && y.fmt.isNarrow)) (bad y)
  need (drain != 1 || y.fmt == .f32) (bad y)
  checkProductExtent r y
  let epi ← if epiA = 0 then pure none else do
    let b ← c.get epiA 64
    pure (some (Epi.parse epiA b))
  let cols := (shareTiles r y).2
  let colSplit := r.split.isSome && r.cmd.split == 1
  match epi with
  | some e =>
    if drain = 0 then
      let c0 := 32 * cols.headD 0
      let c1 := min y.ec (32 * (cols.getLastD 0 + 1))
      need (e.checkCols y colSplit c0 c1) (.fault 0xF epiA)
      need (!e.misfit || (decide (y.fmt.width ≤ 4) && e.f8dst != 0 && e.fmap != 0 && e.mstate != 0)) (.fault 0xF epiA)
    else need (!e.rot && !e.clip && !e.capt && !e.misfit) (.fault 0xF epiA)
  | none => pure ()
  let alt ← c.alt r core.val (match epi with | some e => e.xalt | none => 0) x
  let all := fwdPairs r y
  let okPair (p : List (Nat × Nat)) : Ck Unit :=
    p.forM fun (t, u) => do
      (linesFor y.orgr y.er t).forM fun xr => (List.range x.bc).forM fun xc => c.readX x alt (x.blockIdx 0 xr xc)
      (linesFor y.orgc y.ec u).forM fun wr => (List.range wt.bc).forM fun wc => c.readX wt none (wt.blockIdx 0 wr wc)
  let (done, err) := donePairs okPair all
  notStopped err
  let ns := fwdBlocks r y epi done
  c.bankFree core .rime drain done
  match drain, epi with
  | 0, some e =>
    let (fz, c) ← c.fwdFz r core y e ns
    pure (⟨x, wt, y, epi, alt, done, err, some fz⟩, c)
  | 1, _ =>
    let c ← c.touch y true ns
    pure (⟨x, wt, y, epi, alt, done, err, none⟩, c)
  | _, _ => pure (⟨x, wt, y, epi, alt, done, err, none⟩, c)

/-- A forward product on checked operands (R79, R86 to R110): what its drain leaves, and its result. -/
def fwdRun (w : Wk) (r : Running) (o : FwdOps) : Wk × Result :=
  let w := w.mod fun c => c.addPois (o.poisons c)
  let c := w.c
  let core := runCore r
  let (rows, cols) := shareTiles r o.y
  let A : Operand := ⟨c.altPlane o.x o.alt, fun i s => c.altWidth o.x o.alt (o.x.blockIdx 0 (i / 32) s)⟩
  let B : Operand := ⟨c.plane o.wt 0, fun _ _ => o.wt.fmt.width⟩
  let t : Array Plane := #[((List.range o.y.er).map fun i =>
    ((List.range o.y.ec).map fun j =>
      if rows.contains ((i + o.y.orgr) / 32) && cols.contains ((j + o.y.orgc) / 32) then
        Num.dec32 (accumulate false o.x.ec A B i j) else Num.zero).toArray).toArray]
  let ns := fwdBlocks r o.y o.epi o.done
  match o.fz, o.epi with
  | some fz, some e =>
    fwdFreeze w r core o.y e fz t ns ((fwdPairs r o.y).flatten.map fun (i, j) => o.y.blockIdx 0 i j) o.err.isSome
  | _, _ =>
    if bits r.cmd.a4.toNat 2 1 = 1 then ({ w with c := c.drainF32 o.y t ns }, {})
    else (w.mod fun c => c.fillBanks core .rime (banksOf o.y t o.done), {})

/-- mm.fwd (R86 to R110). -/
def mmFwd (w : Wk) (r : Running) : Ck Wk := do
  let (o, c) ← fwdOps w.c r
  let (w, res) := fwdRun { w with c := c } r o
  pure (productDone w r o.err (bits r.cmd.a4.toNat 2 1 == 2) res)

/-! ### mm.bwd2 and mm.bwd -/

/-- Gradient format codes (Table 5.7). -/
def gradFmt : Nat → Option Fmt
  | 0 => some .f8a
  | 1 => some .f8b
  | 2 => some .b16
  | _ => none

/-- The checks of R118 on one product's output: drain, format, gradient record. -/
def checkGrad (c : Channel) (b : Bwd) (drain fzp : Nat) (d : Desc) : Ck Unit := do
  need (decide (d.nd ≤ 2) && !d.rax) (.fault 0xF d.addr)
  if drain = 0 then
    need (fzp != 0 && (d.fmt == .f8a || d.fmt == .f8b || d.fmt == .b16)) (.fault 0xF d.addr)
    if b.grec != 0 then
      let g ← c.get b.grec 8
      need (gradFmt (ofBytes g % 4) == some d.fmt) (.fault 0xF d.addr)
  if drain = 1 || drain = 3 then need (d.fmt == .f32) (.fault 0xF d.addr)

/-- The superblocks of the pairs produced. -/
def pairBlocks (d : Desc) (done : List (List (Nat × Nat))) : List Nat :=
  done.flatten.map fun (i, j) => d.blockIdx 0 i j

/-- The checks of one backward product's drain (R121): its freeze where it has one, and the channel as they leave it. -/
def Channel.bwdDrainOk (c : Channel) (r : Running) (unit : FzUnit) (drain fzp : Nat) (d : Desc)
    (done : List (List (Nat × Nat))) : Ck (Option FzCfg × Channel) := do
  let ns := pairBlocks d done
  c.bankFree (runCore r) (if unit = .fz1b then .firnB else .firnA) drain done
  match drain with
  | 0 =>
    let fb ← c.fzBlk fzp
    fb.check
    let g : FzCfg :=
      { d := d, fmt := d.fmt, fb := fb, unit := unit, core := (runCore r).val, step := r.step
        shadow := shadowFmt d.fmt }
    let c ← g.checkTables c ns
    pure (some g, c)
  | 1 =>
    let c ← c.touch d true ns
    pure (none, c)
  | 2 => pure (none, c)
  | _ =>
    let c ← c.touch d false ns
    let c ← c.touch d true ns
    pure (none, c)

/-- One product drained: the work, the freeze's saturations and poison, and NMEV. -/
structure BwdOut where
  w : Wk
  sats : Nat
  pois : Bool
  nm : Bool

/-- Drains one backward product (R121). -/
def bwdDrain (w : Wk) (core : Core) (a : ArrayId) (g : Option FzCfg) (drain layer : Nat) (d : Desc)
    (t : Array Plane) (done : List (List (Nat × Nat))) : BwdOut :=
  let ns := pairBlocks d done
  match g, drain with
  | some g, _ =>
    let acc := g.pass w.c (d.linesOf t) ns (g.unit.lanes w.c.cores[core].lanes) w.ctr
    let (w, nm) := g.apply w acc core layer true
    ⟨w, acc.sat + acc.ovf, decide (0 < acc.pois), nm⟩
  | none, 1 => ⟨w.mod fun c => c.drainF32 d t ns, 0, false, false⟩
  | none, 2 => ⟨w.mod fun c => c.fillBanks core a (banksOf d t done), 0, false, false⟩
  | none, _ => ⟨w.mod fun c => c.drainAcc d t ns, 0, false, false⟩

/-- The values of a product over the tiles of a share. -/
def productPlane (K : Nat) (A B : Operand) (d : Desc) (rows cols : List Nat) : Array Plane :=
  #[((List.range d.er).map fun i => ((List.range d.ec).map fun j =>
    if rows.contains ((i + d.orgr) / 32) && cols.contains ((j + d.orgc) / 32) then
      Num.dec32 (accumulate true K A B i j) else Num.zero).toArray).toArray]

/-- What a backward product needs: its output, production, values, and what stopped it. -/
structure Product where
  d : Desc
  done : List (List (Nat × Nat))
  t : Array Plane
  err : Option Err
  xf8 : Bool
  /-- poisoned blocks of the operands read (03 R64) -/
  pois : Nat

/-- dX = dY × W on the direct operands (R117, R120). -/
def productDx (c : Channel) (r : Running) (col : Bool) (dy wt dx : Desc) : Product :=
  let (rows, cols) := shareTiles r dx
  let A : Operand := ⟨c.plane dy 0, fun _ _ => dy.fmt.width⟩
  let B : Operand := ⟨c.plane wt 0, fun _ _ => wt.fmt.width⟩
  let okPair (p : List (Nat × Nat)) : Ck Unit :=
    p.forM fun (t, u) => do
      (linesFor dx.orgr dx.er t).forM fun yr => (List.range dy.bc).forM fun yc => c.readX dy none (dy.blockIdx 0 yr yc)
      (linesFor dx.orgc dx.ec u).forM fun wr => (List.range wt.bc).forM fun wc => c.readX wt none (wt.blockIdx 0 wr wc)
  let (done, err) := donePairs okPair (tilePairs col rows cols)
  let ts := done.flatten
  ⟨dx, done, productPlane dy.ec A B dx rows cols, err, false,
    c.poisonsIn dy none (ts.flatMap fun t => (linesFor dx.orgr dx.er t.1).flatMap fun i =>
      (List.range dy.bc).map fun k => dy.blockIdx 0 i k) +
    c.poisonsIn wt none (ts.flatMap fun t => (linesFor dx.orgc dx.ec t.2).flatMap fun i =>
      (List.range wt.bc).map fun k => wt.blockIdx 0 i k)⟩

/-- dW = dYᵀ × X, both cross-read (R114, R117, R124). A span of X and its width are those of the block that holds its
positions counted from the first element (R114 for a B16 X whose origin is not 0; log 105). -/
def productDw (c : Channel) (r : Running) (col : Bool) (dy x dw : Desc) (alt : Option Alt) : Product :=
  let (rows, cols) := shareTiles r dw
  let A : Operand := ⟨(c.plane dy 0).flip dy.ec, fun _ _ => dy.fmt.width⟩
  let B : Operand := ⟨(c.altPlane x alt).flip x.ec, fun j s => c.altWidth x alt (x.blockIdx 0 s (j / 32))⟩
  let all := tilePairs col rows cols
  let blocksOf (t : Nat) : List Nat :=
    (linesFor dw.orgc dw.ec t).flatMap fun xc => (List.range x.br).map fun xr => x.blockIdx 0 xr xc
  let okPair (p : List (Nat × Nat)) : Ck Unit :=
    p.forM fun (t, u) => do
      (linesFor dw.orgr dw.er t).forM fun yc => (List.range dy.br).forM fun yr => c.readX dy none (dy.blockIdx 0 yr yc)
      (blocksOf u).forM (c.readX x alt)
  let (done, err) := donePairs okPair all
  let xf8 := match alt with
    | some a => done.flatten.any fun (_, t) => (blocksOf t).any fun n => c.mapByte a n == 0x02
    | none => false
  let ts := done.flatten
  ⟨dw, done, productPlane x.er A B dw rows cols, err, xf8,
    c.poisonsIn dy none (ts.flatMap fun t => (linesFor dw.orgr dw.er t.1).flatMap fun k =>
      (List.range dy.br).map fun i => dy.blockIdx 0 i k) +
    c.poisonsIn x alt (ts.flatMap fun t => blocksOf t.2)⟩

/-- The checks of R118 on the operands dY and one or both second operands. A B16 tensor has no blocks, so beside one the
block sizes are not compared (log 105). -/
def checkBwdOperands (core : Nat) (dy : Desc) (wt x : Option Desc) : Ck Unit := do
  let ds := dy :: (wt.toList ++ x.toList)
  ds.forM fun d => need (d.inWindow core && decide (d.nd ≤ 2) && !d.rax && arrayFmt true d.fmt) (.fault 0xF d.addr)
  match wt with
  | some t => need (t.ec == dy.ec && (dy.fmt.isWide || t.fmt.isWide || t.bs16 == dy.bs16)) (.fault 0xF t.addr)
  | none => pure ()
  match x with
  | some t => need (t.er == dy.er) (.fault 0xF t.addr)
  | none => pure ()

/-- Reads the backward parameter block (R118, Table 5.3); DRAINX is checked where dX is produced. The fault names dY's
descriptor where PBLK is 0, and the block where a drain is reserved (log 105). -/
def Channel.bwdBlk (c : Channel) (r : Running) (dx : Bool) : Ck Bwd := do
  let a := bits r.cmd.a5.toNat 47 6 * 64
  need (a != 0) (.fault 0xF (bits r.cmd.a0.toNat 47 0))
  let b ← c.get a 64
  let p := Bwd.parse b
  need (!dx || p.drainx != 3) (.fault 0xF a)
  pure p

/-- DETAIL and INFO of R129. -/
def bwdResult (xf8 pois : Bool) (sx sw : Nat) (nm : Bool) : Result :=
  { detail := BitVec.ofNat 16 (b2n xf8 + 2 * b2n pois), info := info2 sx sw, nmev := nm }

/-- What mm.bwd2 takes: its block, the two products, and the freezes of their drains. -/
structure Bwd2Ops where
  p : Bwd
  px : Product
  pw : Product
  gx : Option FzCfg
  gw : Option FzCfg

/-- The checks of mm.bwd2 (R117 to R121), and the channel as they leave it. -/
def bwd2Ops (c : Channel) (r : Running) : Ck (Bwd2Ops × Channel) := do
  let core := runCore r
  let p ← c.bwdBlk r true
  let dy ← c.desc (bits r.cmd.a0.toNat 47 0) r.copies
  let wt ← c.desc (bits r.cmd.a1.toNat 47 0) r.copies
  let x ← c.desc (bits r.cmd.a2.toNat 47 0) r.copies
  let dx ← c.desc (bits r.cmd.a3.toNat 47 0) r.copies
  let dw ← c.desc (bits r.cmd.a4.toNat 47 0) r.copies
  checkBwdOperands core.val dy (some wt) (some x)
  need (dx.er == dy.er && dx.ec == wt.er) (.fault 0xF dx.addr)
  need (dw.er == dy.ec && dw.ec == x.ec) (.fault 0xF dw.addr)
  need (wt.er == x.ec) (.fault 0xF wt.addr)
  checkGrad c p p.drainx p.fzpx dx
  checkGrad c p p.drainw p.fzpw dw
  let alt ← c.alt r core.val p.xalt x
  let px := productDx c r (r.cmd.a5.toNat.testBit 0) dy wt dx
  let pw := productDw c r (r.cmd.a5.toNat.testBit 1) dy x dw alt
  notStopped (px.err <|> pw.err)
  let (gx, c) ← c.bwdDrainOk r .fz1a p.drainx p.fzpx dx px.done
  let (gw, c) ← c.bwdDrainOk r .fz1b p.drainw p.fzpw dw pw.done
  pure (⟨p, px, pw, gx, gw⟩, c)

/-- mm.bwd2 on checked operands: both products drained, and its result (R129). -/
def bwd2Run (w : Wk) (r : Running) (o : Bwd2Ops) : Wk × Result :=
  let core := runCore r
  let w := w.mod fun c => c.addPois (o.px.pois + o.pw.pois)
  let o1 := bwdDrain w core .firnA o.gx o.p.drainx o.p.layer o.px.d o.px.t o.px.done
  let o2 := bwdDrain o1.w core .firnB o.gw o.p.drainw o.p.layer o.pw.d o.pw.t o.pw.done
  (o2.w, bwdResult o.pw.xf8 (o1.pois || o2.pois) o1.sats o2.sats (o1.nm || o2.nm))

/-- mm.bwd2 (R117 to R121, R129). A block that cannot be read ends it once dX, whose pairs go first, is written as far
as its own operands let it, and dW as far as its pairs before that block (R124; log 105). -/
def mmBwd2 (w : Wk) (r : Running) : Ck Wk := do
  let (o, c) ← bwd2Ops w.c r
  let (w, res) := bwd2Run { w with c := c } r o
  pure (productDone w r (o.px.err <|> o.pw.err) (o.p.drainx == 2 || o.p.drainw == 2) res)

/-- What mm.bwd takes: its block's drain and layer, the product it makes, and the freeze of its drain. -/
structure BwdOps where
  drain : Nat
  layer : Nat
  pr : Product
  g : Option FzCfg

/-- The checks of mm.bwd (R128), and the channel as they leave it. -/
def bwdOps (c : Channel) (r : Running) : Ck (BwdOps × Channel) := do
  let core := runCore r
  let p ← c.bwdBlk r (!r.cmd.a5.getLsbD 1)
  let a5 := r.cmd.a5.toNat
  let isW := a5.testBit 1
  let onB := a5.testBit 2
  let dy ← c.desc (bits r.cmd.a0.toNat 47 0) r.copies
  let o2 ← c.desc (bits r.cmd.a1.toNat 47 0) r.copies
  let d ← c.desc (bits r.cmd.a2.toNat 47 0) r.copies
  if isW then checkBwdOperands core.val dy none (some o2) else checkBwdOperands core.val dy (some o2) none
  need (if isW then d.er == dy.ec && d.ec == o2.ec else d.er == dy.er && d.ec == o2.er) (.fault 0xF d.addr)
  let drain := if isW then p.drainw else p.drainx
  let fzp := if isW then p.fzpw else p.fzpx
  checkGrad c p drain fzp d
  checkProductExtent r d
  let alt ← if isW then c.alt r core.val p.xalt o2 else pure none
  let pr := if isW then productDw c r (a5.testBit 0) dy o2 d alt else productDx c r (a5.testBit 0) dy o2 d
  notStopped pr.err
  let (g, c) ← c.bwdDrainOk r (if onB then .fz1b else .fz1a) drain fzp d pr.done
  pure (⟨drain, p.layer, pr, g⟩, c)

/-- mm.bwd on checked operands: its product drained, and its result (R129). -/
def bwdRun (w : Wk) (r : Running) (o : BwdOps) : Wk × Result :=
  let a : ArrayId := if r.cmd.a5.getLsbD 2 then .firnB else .firnA
  let x := bwdDrain (w.mod fun c => c.addPois o.pr.pois) (runCore r) a o.g o.drain o.layer o.pr.d o.pr.t o.pr.done
  (x.w, if r.cmd.a5.getLsbD 1 then bwdResult o.pr.xf8 x.pois 0 x.sats x.nm else bwdResult o.pr.xf8 x.pois x.sats 0 x.nm)

/-- mm.bwd (R128). -/
def mmBwd (w : Wk) (r : Running) : Ck Wk := do
  let (o, c) ← bwdOps w.c r
  let (w, res) := bwdRun { w with c := c } r o
  pure (productDone w r o.pr.err (o.drain == 2) res)

/-! ### Banks (04 R94) -/

/-- Whether a running command drains an array to Moraine. -/
def Running.usesArray (r : Running) (core : Core) (a : ArrayId) : Bool :=
  srcEngine r.src == some (.array core) && r.held.isSome &&
    match a with
    | .rime => r.cmd.opc == 0x10
    | .firnA => r.cmd.opc == 0x11 || (r.cmd.opc == 0x12 && !r.cmd.a5.getLsbD 2)
    | .firnB => r.cmd.opc == 0x11 || (r.cmd.opc == 0x12 && r.cmd.a5.getLsbD 2)

/-- A held product whose banks are all handed over ends with the result it holds. -/
def Channel.handDone (c : Channel) (core : Core) : Channel :=
  { c with running := c.running.map fun r =>
      let busy := [ArrayId.rime, .firnA, .firnB].any fun a =>
        r.usesArray core a && !(c.cores[core].array a).full.isEmpty
      if srcEngine r.src == some (.array core) && r.held.isSome && !busy &&
          (r.cmd.opc == 0x10 || r.cmd.opc == 0x11 || r.cmd.opc == 0x12) then
        { r with result := r.held, held := none }
      else r }

/-- Hands the next full bank to Moraine, while it holds fewer than two of the array (R94); a chain that waited for it waits no
more (07 R169). -/
def bankHandover (c : Channel) (core : Core) (a : ArrayId) : Channel :=
  let s := c.cores[core].array a
  match s.full with
  | b :: rest =>
    if s.handed.length < 2 then
      (c.modCore core fun cs =>
        let cs := cs.modArray a fun x => { x with full := rest, handed := x.handed ++ [b] }
        { cs with mor := { cs.mor with waitacc := cs.mor.waitacc && cs.mor.waitArr != a } }).handDone core
    else c
  | [] => c

/-- Releases a handed bank that a chain has read (R94). -/
def bankRelease (c : Channel) (core : Core) (a : ArrayId) : Channel :=
  c.modCore core fun cs => cs.modArray a fun x =>
    match x.read, x.handed with
    | n + 1, _ :: rest => { x with read := n, handed := rest }
    | _, _ => x

/-- MM_FWD. -/
def execMmFwd (ch : Ch) (src : Src) (s : State) : Host.Outcome State Fault Refusal :=
  .next (onCoreRun s ch src 0x10 fun w r => productWith w r (mmFwd w r))

/-- MM_BWD2. -/
def execMmBwd2 (ch : Ch) (src : Src) (s : State) : Host.Outcome State Fault Refusal :=
  .next (onCoreRun s ch src 0x11 fun w r => productWith w r (mmBwd2 w r))

/-- MM_BWD. -/
def execMmBwd (ch : Ch) (src : Src) (s : State) : Host.Outcome State Fault Refusal :=
  .next (onCoreRun s ch src 0x12 fun w r => productWith w r (mmBwd w r))

/-- BANK_HANDOVER. -/
def execBankHandover (ch : Ch) (core : Core) (a : ArrayId) (s : State) : Host.Outcome State Fault Refusal :=
  .next (if s.chans[ch].up then s.modCh ch fun c => bankHandover c core a else s)

/-- BANK_RELEASE. -/
def execBankRelease (ch : Ch) (core : Core) (a : ArrayId) (s : State) : Host.Outcome State Fault Refusal :=
  .next (if s.chans[ch].up then s.modCh ch fun c => bankRelease c core a else s)

end Sys2Proof.Machine
end

