-- ==== Sys2Proof/Machine/Moraine.lean ====
section
/-!
DEFINITION. Moraine (07): chain programs, their checks, strips, stages, scans and reductions, the walks, live
contexts, and the meanings of vx.chain, vx.save, vx.restore and of PAUSE.
-/
namespace Sys2Proof.Machine

open Sys2Proof

def MVL : Nat := 1024

/-- A port byte (Table 7.3). -/
structure PortB where
  mode : Nat
  arr : Nat
  lsel : Bool
  lax : Bool
  deriving DecidableEq, Repr

/-- A stage word (Table 7.4). -/
structure Stage where
  op : Nat
  dst : Nat
  sa : Nat
  sb : Nat
  sc : Nat
  md : Nat
  imm : Nat
  deriving DecidableEq, Repr

/-- A chain program (Table 7.2). -/
structure Chain where
  nstg : Nat
  iter : Bool
  vlr : Nat
  rctl : Rctl
  seed : W64
  tid : W32
  ports : List PortB
  ks : List W32
  res : Nat
  stages : List Stage
  deriving DecidableEq, Repr

def PortB.parse (b : Nat) : PortB := ⟨bits b 2 0, bits b 4 3, b.testBit 5, b.testBit 6⟩
def Stage.parse (v : Nat) : Stage :=
  ⟨bits v 7 0, bits v 12 8, bits v 17 13, bits v 22 18, bits v 27 23, bits v 31 28, bits v 47 32⟩

/-- The header; the stages follow it. -/
def Chain.parse (h : List Byte) (st : List Byte) : Chain :=
  let n := fld h 0 1 % 32
  { nstg := n
    iter := (fld h 1 1).testBit 0
    vlr := fld h 2 2
    rctl := Rctl.parse (fld h 4 2)
    seed := BitVec.ofNat 64 (fld h 8 8)
    tid := BitVec.ofNat 32 (fld h 16 4)
    ports := (List.range 4).map fun i => PortB.parse (fld h (20 + i) 1)
    ks := (List.range 8).map fun i => BitVec.ofNat 32 (fld h (24 + 4 * i) 4)
    res := fld h 56 6
    stages := (List.range n).map fun i => Stage.parse (fld st (8 * i) 8) }

def Chain.port (g : Chain) (i : Nat) : PortB := g.ports.getD i ⟨0, 0, false, false⟩

/-- How many of its sources an operation reads; scan's SB apart. -/
def Stage.arity (s : Stage) : Nat :=
  match s.op with
  | 0x01 | 0x08 | 0x09 | 0x0A | 0x0D | 0x11 | 0x12 | 0x13 | 0x14 | 0x21 => 1
  | 0x02 | 0x03 | 0x04 | 0x06 | 0x07 | 0x0B | 0x10 | 0x20 | 0x28 => 2
  | 0x05 | 0x0C => 3
  | _ => 0

/-- The sources an operation reads. -/
def Stage.sources (s : Stage) : List Nat := [s.sa, s.sb, s.sc].take s.arity

/-- OP and MOD are not reserved (Table 7.6). -/
def Stage.opOk (s : Stage) : Bool :=
  match s.op with
  | 0x01 | 0x02 | 0x03 | 0x04 | 0x05 | 0x06 | 0x07 | 0x08 | 0x09 | 0x0A | 0x0C | 0x10 | 0x11 | 0x12 | 0x13 | 0x14
  | 0x28 => true
  | 0x0B => decide (s.md ≤ 3)
  | 0x0D => decide (s.md ≤ 2)
  | 0x18 | 0x19 => decide (s.md ≤ 1)
  | 0x20 => s.md % 4 != 3 && decide (s.md < 8)
  | 0x21 => decide (s.md < 3)
  | _ => false

def Stage.carries (s : Stage) : Bool := s.op == 0x20 || s.op == 0x21

/-- Stage registers are written before they are read (R166). -/
def regsOk : List Stage → List Nat → Bool
  | [], _ => true
  | s :: rest, written =>
    s.sources.all (fun x => !decide (x < 16) || written.contains x) && regsOk rest (s.dst :: written)

/-- The rules of R166 that need no descriptor. -/
def Chain.ok (g : Chain) : Bool :=
  decide (1 ≤ g.nstg) && decide (g.nstg ≤ 16) &&
  g.ports.all (fun p => decide (p.mode ≤ 5) && !(p.mode == 4 && p.arr == 3)) &&
  g.stages.all (fun s => s.opOk && decide (s.dst < 20)) &&
  regsOk g.stages [] &&
  g.stages.all (fun s => s.sources.all fun x =>
    !(decide (16 ≤ x) && decide (x < 20)) || (g.port (x - 16)).mode == 1 || (g.port (x - 16)).mode == 4) &&
  g.stages.all (fun s => !decide (16 ≤ s.dst) || (g.port (s.dst - 16)).mode == 2 || (g.port (s.dst - 16)).mode == 3) &&
  (List.range 4).all (fun i =>
    !((g.port i).mode == 2 || (g.port i).mode == 3) || (g.stages.filter fun s => s.dst == 16 + i).length == 1) &&
  decide ((g.stages.filter Stage.carries).length ≤ 4) &&
  !((g.stages.any fun s => s.op == 0x21) && g.res == 0) &&
  g.rctl.ok &&
  (g.iter ||
    (g.stages.all (fun s => s.sources.all (· != 28)) &&
     g.ports.all (fun p => p.mode != 5) &&
     (g.ports.any fun p => decide (1 ≤ p.mode) && decide (p.mode ≤ 4)) &&
     decide ((g.ports.filter fun p => p.mode == 4).length ≤ 1)))

/-- Uses lane-mode random words: rnd, rndn, or SR at a B16 write. -/
def Chain.usesLanes (g : Chain) : Bool :=
  (g.stages.any fun s => (s.op == 0x18 || s.op == 0x19) && s.md % 2 == 0) || (g.rctl.mode == 1 && !g.rctl.keyed)

/-! ### Carries (R172, R173) -/

/-- A word as an F32 value: a NaN is the one NaN of 03 R65. -/
def asF32 (x : W32) : W32 := match Num.dec32 x with | .nan => Num.nan32 | _ => x

/-- A carry takes an element: kind 0 sum, 1 max, 2 min. -/
def Carry.take (k : Carry) (kind : Nat) (x : W32) : Carry :=
  match kind with
  | 0 =>
    match Num.dec32 x with
    | .nan => { k with nan := true, empty := false }
    | .inf true => { k with ninf := true, empty := false }
    | .inf false => { k with pinf := true, empty := false }
    | .fin n m e => { k with sum := k.sum + Num.scaled n m e (-149), empty := false }
  | 1 => { k with run := Num.fmax (if k.empty then x else k.run) x, empty := false }
  | _ => { k with run := Num.fmin (if k.empty then x else k.run) x, empty := false }

/-- What a carry shows, rounded once. -/
def Carry.out (k : Carry) (kind : Nat) : W32 :=
  match kind with
  | 0 =>
    if k.nan || (k.pinf && k.ninf) then Num.nan32
    else if k.pinf then 0x7F800000
    else if k.ninf then 0xFF800000
    else Num.to32 (Num.ofInt false k.sum (-149))
  | 1 => if k.empty then 0xFF800000 else asF32 k.run
  | _ => if k.empty then 0x7F800000 else asF32 k.run

/-- A scan stage over a strip: outputs and the carry after; `flags` marks segment starts. -/
def scanGo (kind : Nat) (excl : Bool) : List (W32 × Bool) → Carry → List W32 × Carry
  | [], k => ([], k)
  | (x, start) :: rest, k =>
    let k := if start then {} else k
    let k' := k.take kind x
    let (out, kn) := scanGo kind excl rest k'
    ((if excl then k.out kind else k'.out kind) :: out, kn)

/-! ### Strips -/

/-- One element of a strip: its position on each port (plane, row, column), its bank value, residual, keyed
coordinate, and walk index. -/
structure El where
  pos : List (Nat × Nat × Nat)
  bank : W32 := 0
  resid : W32 := 0
  uv : Nat × Nat := (0, 0)
  walk : Nat := 0
  deriving DecidableEq, Repr

/-- Elements of a tensor at positions, in F32 (R168); each block is read once. -/
def Channel.gatherF32 (c : Channel) (d : Desc) (xs : List (Nat × Nat × Nat)) : List W32 :=
  let locs := xs.map d.locate
  let blocks := (locs.map (·.1)).dedup.map fun n => (n, ((c.rdVals d n).1.map List.toArray).toArray)
  locs.map fun (n, l, k) =>
    match blocks.lookup n with
    | some g => Num.to32 ((g.getD l #[]).getD k Num.zero)
    | none => 0

/-- Keyed words of a strip for draw index d. -/
def keyedWords (g : Chain) (step : W32) (d : Nat) (els : List El) : List Nat :=
  els.map fun e =>
    (Sas.keyedWord g.seed step g.tid (BitVec.ofNat 64 e.uv.1) (BitVec.ofNat 32 e.uv.2) (BitVec.ofNat 8 d)).toNat

/-- A strip in progress: stage registers by number, port results, carries, lanes, out-of-range perm elements. -/
structure StripSt where
  regs : List (Nat × List W32) := []
  outs : List (Nat × List W32) := []
  carries : List Carry := []
  slot : Nat := 0
  lanes : List (BitVec 128) := []
  ctr : Nat := 0
  permBad : Nat := 0
  firstBad : Option Nat := none
  deriving DecidableEq, Repr

/-- The values a source selector names over a strip (Table 7.5). -/
def srcVals (g : Chain) (els : List El) (reads : List (Nat × List W32)) (st : StripSt) (x : Nat) : List W32 :=
  if x < 16 then (st.regs.lookup x).getD (els.map fun _ => 0)
  else if x < 20 then (reads.lookup (x - 16)).getD (els.map fun _ => 0)
  else if x < 28 then els.map fun _ => asF32 (g.ks.getD (x - 20) 0)
  else if x = 28 then els.map fun e => asF32 e.resid
  else if x = 29 then els.zipIdx.map fun p => Num.to32 (.fin false p.2 0)
  else if x = 30 then els.map fun e => Num.to32 (.fin false e.walk 0)
  else els.map fun _ => 0

/-- The strip position perm's index names, if it lies in the strip (R177). -/
def permIdx (vl : Nat) (b : W32) : Option Nat :=
  match Num.dec32 b with
  | .fin n m e =>
    if m = 0 then some 0
    else if n then none
    else
      let (i, rem, _) := Num.splitAt m e 0
      if rem = 0 && decide (i < vl) then some i else none
  | _ => none

def zip3 (f : W32 → W32 → W32 → W32) (a b c : List W32) : List W32 :=
  (a.zip (b.zip c)).map fun x => f x.1 x.2.1 x.2.2

/-- An operation of one element on its sources (Table 7.6): all but the random, scanning and permuting ones. -/
def Stage.fn (s : Stage) (a b c : W32) : W32 :=
  match s.op with
  | 0x02 => Num.fadd a b
  | 0x03 => Num.fsub a b
  | 0x04 => Num.fmul a b
  | 0x05 => Num.ffma a b c
  | 0x06 => Num.fmin a b
  | 0x07 => Num.fmax a b
  | 0x08 => Num.fabs a
  | 0x09 => Num.fneg a
  | 0x0A => Num.fscl a (Fmt.signed 16 s.imm)
  | 0x0B => Num.fcmp s.md a b
  | 0x0C => Num.fsel a b c
  | 0x0D => Num.frint s.md a
  | 0x10 => Num.fdiv a b
  | 0x11 => Num.fsqrt a
  | 0x12 => Num.frsqrt a
  | 0x13 => Num.fexp2 a
  | 0x14 => Num.flog2 a
  | _ => a

/-- A uniform value from a 16-bit word (rnd). -/
def uniform (w : Nat) : W32 := Num.to32 (.fin false w (-16))

/-- One stage over a strip (Table 7.6). -/
def runStage (g : Chain) (core : Nat) (step : W32) (els : List El) (reads : List (Nat × List W32)) (st : StripSt)
    (s : Stage) (idx : Nat) : StripSt :=
  let v := srcVals g els reads st
  let a := v s.sa
  let b := v s.sb
  let c := v s.sc
  let put (st : StripSt) (r : List W32) : StripSt :=
    if s.dst < 16 then { st with regs := (s.dst, r) :: st.regs } else { st with outs := (s.dst - 16, r) :: st.outs }
  match s.op with
  | 0x18 =>
    if s.md % 2 = 1 then put st ((keyedWords g step (2 * idx) els).map uniform)
    else
      let (ws, lanes) := Sas.laneDraw (LaneUnit.moraine core) 1 els.length 0 st.ctr st.lanes
      put { st with lanes := lanes, ctr := st.ctr + els.length } (ws.map uniform)
  | 0x19 =>
    if s.md % 2 = 1 then
      let w0 := keyedWords g step (2 * idx) els
      let w1 := keyedWords g step (2 * idx + 1) els
      put st (List.zipWith (fun x y => Num.normal (65536 * y + x)) w0 w1)
    else
      let (ws, lanes) := Sas.laneDraw (LaneUnit.moraine core) 2 els.length 0 st.ctr st.lanes
      put { st with lanes := lanes, ctr := st.ctr + els.length } (ws.map Num.normal)
  | 0x20 =>
    let starts := if s.sb = 31 then els.map fun e => e.walk == 0
      else List.zipWith (fun e x => e.walk == 0 || !Num.isZero (Num.dec32 x)) els b
    let (out, k) := scanGo (s.md % 4) (s.md.testBit 2) (a.zip starts) (st.carries.getD st.slot {})
    put { st with carries := st.carries.set st.slot k, slot := st.slot + 1 } out
  | 0x21 =>
    let k := a.foldl (fun k x => k.take (s.md % 4) x) (st.carries.getD st.slot {})
    put { st with carries := st.carries.set st.slot k, slot := st.slot + 1 } a
  | 0x28 =>
    let js := b.map (permIdx els.length)
    let bad := (js.zipIdx.filter fun p => p.1.isNone).map (·.2)
    let arr := a.toArray
    put { st with
        permBad := st.permBad + bad.length
        firstBad := match st.firstBad, bad with
          | some x, y :: _ => some (min x y)
          | none, y :: _ => some y
          | x, [] => x }
      (js.map fun j => match j with | some i => arr.getD i 0 | none => 0)
  | _ => put st (zip3 s.fn a b c)

/-- All stages over a strip. -/
def runStages (g : Chain) (core : Nat) (step : W32) (els : List El) (reads : List (Nat × List W32)) (st : StripSt) :
    StripSt :=
  g.stages.zipIdx.foldl (fun st (s, i) => runStage g core step els reads st s i) st

/-- The bytes a strip writes on one port, the lanes and counter after, and whether a NaN or infinity was written. -/
def portWrites (c : Channel) (g : Chain) (core : Nat) (step : W32) (els : List El) (st : StripSt) (i : Nat) (d : Desc) :
    List (Nat × List Byte) × StripSt × Bool :=
  let xs := els.map fun e => e.pos.getD i (0, 0, 0)
  let vals := (st.outs.lookup i).getD []
  let vals := if (g.port i).mode = 3 then List.zipWith Num.fadd (c.gatherF32 d xs) vals else vals
  let (ws, st) :=
    if d.fmt == Fmt.b16 && g.rctl.mode == 1 then
      if g.rctl.keyed then (keyedWords g step (32 + i) els, st)
      else
        let (ws, lanes) := Sas.laneDraw (LaneUnit.moraine core) 1 els.length 0 st.ctr st.lanes
        (ws, { st with lanes := lanes, ctr := st.ctr + els.length })
    else (els.map fun _ => 0, st)
  let out := (vals.zip ws).map fun (v, w) =>
    if d.fmt == Fmt.b16 then
      let o := Num.to16 (modeWith g.rctl.toMode w) (Num.dec32 v)
      (toBytes 2 o.bits.toNat, Num.nonFinite (Num.dec16 o.bits))
    else (toBytes 4 v.toNat, Num.nonFinite (Num.dec32 v))
  (coalesce ((xs.map d.elemAddr).zip (out.map (·.1))), st, out.any (·.2))

/-- What a walk reaches of a port: the elements of a wide format, the superblocks of a narrow one (R161, R168). -/
def Channel.touchWalk (c : Channel) (d : Desc) (write : Bool) (xs : List (Nat × Nat × Nat)) : Ck Channel :=
  if d.fmt.isWide then
    (joinRanges (xs.map fun x => (d.elemAddr x, d.fmt.width / 8))).foldlM (fun c r => c.access r.1 r.2 write) c
  else c.touch d write ((xs.map fun x => (d.locate x).1).dedup)

/-- Touches what a walk reaches of the tensors of a chain's ports (R53, R262). -/
def Channel.touchPorts (c : Channel) (g : Chain) (ds : List (Option Desc)) (els : List El) : Ck Channel :=
  (List.range 4).foldlM (fun c i =>
    match ds.getD i none with
    | some d => do
      let xs := els.map fun e => e.pos.getD i (0, 0, 0)
      let m := (g.port i).mode
      let c ← if m = 1 || m = 3 then c.touchWalk d false xs else pure c
      if m = 2 || m = 3 then c.touchWalk d true xs else pure c
    | none => pure c) c

/-- A chain's progress over its strips. -/
structure ChainSt where
  c : Channel
  carries : List Carry
  lanes : List (BitVec 128)
  ctr : Nat
  pos : Nat
  lastVl : Nat := 0
  permBad : Nat := 0
  nonfin : Bool := false
  /-- blocks of its ports read as poisoned (03 R64) -/
  pois : Nat := 0
  /-- walk index of the element that ended a STRICT chain -/
  stop : Option Nat := none
  /-- what the first strip that cannot be read or written meets -/
  err : Option Err := none

/-- One strip: every read before any write (R161). One that meets a word, address or page that it cannot use does nothing, and
the strips before it stand. -/
def oneStrip (g : Chain) (ds : List (Option Desc)) (core : Nat) (step : W32) (strict : Bool) (cs : ChainSt)
    (els : List El) : ChainSt :=
  if cs.stop.isSome || cs.err.isSome then cs
  else
  match cs.c.touchPorts g ds els with
  | .error e => { cs with err := some e }
  | .ok c =>
    let cs := { cs with c := c }
    let reads := (List.range 4).filterMap fun i =>
      match (g.port i).mode, ds.getD i none with
      | 1, some d => some (i, cs.c.gatherF32 d (els.map fun e => e.pos.getD i (0, 0, 0)))
      | 4, _ => some (i, els.map (·.bank))
      | _, _ => none
    let pois := ((List.range 4).map fun i =>
      match (g.port i).mode, ds.getD i none with
      | 1, some d => (((els.map fun e => (d.locate (e.pos.getD i (0, 0, 0))).1).dedup).map (cs.c.poisonsOf d)).sum
      | _, _ => 0).sum
    let cs := { cs with pois := cs.pois + pois }
    let st := runStages g core step els reads
      { carries := cs.carries, lanes := cs.lanes, ctr := cs.ctr }
    if strict && st.firstBad.isSome then
      { cs with
        stop := st.firstBad.map fun k => (els.getD k { pos := [] }).walk
        lanes := st.lanes, ctr := st.ctr, permBad := cs.permBad + st.permBad }
    else
      let (ws, st, nf) := (List.range 4).foldl (fun (ws, st, nf) i =>
        match (g.port i).mode, ds.getD i none with
        | 2, some d | 3, some d =>
          let (w, st, n) := portWrites cs.c g core step els st i d
          (ws ++ w, st, nf || n)
        | _, _ => (ws, st, nf)) (([] : List (Nat × List Byte)), st, false)
      { cs with
        c := ws.foldl (fun c (a, b) => c.wrV a b) cs.c
        carries := st.carries, lanes := st.lanes, ctr := st.ctr
        pos := cs.pos + els.length, lastVl := els.length
        permBad := cs.permBad + st.permBad, nonfin := cs.nonfin || nf }

/-- Cuts a walk into strips of at most vl elements; `fuel` bounds their number. -/
def strips (vl : Nat) : Nat → List El → List (List El)
  | 0, _ => []
  | _, [] => []
  | n + 1, l => l.take vl :: strips vl n (l.drop vl)

/-! ### Walks -/

/-- Positions of a tensor's valid elements in row-major order, those of a share only (R169). -/
def Desc.walk (d : Desc) (s : Option Split) : List (Nat × Nat × Nat) :=
  (List.range d.planes).flatMap fun p =>
    (List.range d.er).flatMap fun i =>
      (List.range d.ec).filterMap fun j =>
        let (n, _, _) := d.locate (p, i, j)
        if d.inSplit s n then some (p, i, j) else none

/-- The keyed coordinate of a position. -/
def Desc.uvAt (d : Desc) (x : Nat × Nat × Nat) : Nat × Nat :=
  d.keyed (if d.nd = 1 then [x.2.2] else d.outerIdx x.1 ++ [x.2.1, x.2.2])

/-- The keyed coordinate in a handing command's output (R195). -/
def bankUv (b : Bank) (i j : Nat) : Nat × Nat :=
  let r := i + b.goffr
  let c := j + b.goffc
  if 1 < b.gextc then (r, c) else if 1 < b.gextr then (0, r) else (0, 0)

/-- The elements of a bank: first tile, then second, each row-major, valid elements only. -/
def Bank.elems (b : Bank) : List (Nat × Nat × W32) :=
  b.tiles.flatMap fun t =>
    (List.range 32).flatMap fun gi => (List.range 32).filterMap fun gj =>
      let i := 32 * t.row + gi
      let j := 32 * t.col + gj
      if decide (b.orgr ≤ i) && decide (i < b.orgr + b.rows) && decide (b.orgc ≤ j) && decide (j < b.orgc + b.cols) then
        some (i - b.orgr, j - b.orgc, t.vals.getD (32 * gi + gj) 0)
      else none

/-- Banks up to and including the last of the handing command. -/
def untilLast : List Bank → List Bank
  | [] => []
  | b :: rest => if b.last then [b] else b :: untilLast rest

/-! ### Live contexts (R180) -/

def Channel.setCtx (c : Channel) (core : Core) (s : Src) (x : Option MorCtx) : Channel :=
  c.modCore core fun cs => { cs with mor := { cs.mor with live := cs.mor.live.set (ctxIdx s) x } }

/-- Reads a chain program and the descriptors its ports name. -/
def Channel.chain (c : Channel) (prog : Nat) : Ck Chain := do
  let h ← c.getBlock prog 64 64 0xF
  let n := fld h 0 1 % 32
  let st ← if n = 0 then pure [] else c.get (prog + 64) (8 * n)
  let g := Chain.parse h st
  need (g.res % 8 == 0) (.fault 0xF g.res)
  pure g

/-- The descriptors of the ports in MODE 1 to 3. -/
def Channel.portDescs (c : Channel) (r : Running) (g : Chain) (pa : List W64) : Ck (List (Option Desc)) :=
  (List.range 4).mapM fun i =>
    let m := (g.port i).mode
    if decide (1 ≤ m) && decide (m ≤ 3) then do
      let d ← c.desc (bits (pa.getD i 0).toNat 47 0) r.copies
      need (match m with
        | 1 => d.fmt.isWide || d.fmt.isNarrow
        | 2 => d.fmt.isWide
        | _ => d.fmt == .f32) (.fault 0xF d.addr)
      pure (some d)
    else pure none

/-- VL requested: VLR, MVL where it is 0 or larger (R159, R160). -/
def effVlr (v : Nat) : Nat := if v = 0 then MVL else min v MVL

/-- Writes each red stage's result (R176); `n` elements were reduced. -/
def Channel.writeRes (c : Channel) (g : Chain) (carries : List Carry) (n : Nat) : Channel :=
  ((g.stages.filter Stage.carries).zipIdx.filter fun p => p.1.op == 0x21).foldl (fun c (s, slot) =>
    c.put (g.res + 8 * slot)
      (toBytes 4 ((carries.getD slot {}).out (s.md % 4)).toNat ++ toBytes 4 (min n (2 ^ 32 - 1)))) c

/-- The state after strips: memory, lanes, totals, sticky status, live context; the lanes have run on a free number of
clocks (08 R188). -/
def chainSettle (w : Wk) (r : Running) (core : Core) (x : MorCtx) (cs : ChainSt) : Wk :=
  let walked := cs.pos - x.pos
  let bad := cs.permBad - x.runPerm
  let lanes := (LaneUnit.moraine core.val).run (Config.laneClocks cs.ctr) cs.lanes
  let c := (cs.c.addPois cs.pois).modCore core fun k =>
    { k with
      lanes := { k.lanes with moraine := lanes }
      mor := { k.mor with
        permr := k.mor.permr || decide (0 < bad)
        vlclamp := k.mor.vlclamp || x.vlclamp
        elTotal := satAdd k.mor.elTotal walked
        permTotal := satAdd k.mor.permTotal bad } }
  let x := { x with
    pos := cs.pos, carries := cs.carries, vl := BitVec.ofNat 16 cs.lastVl
    permr := x.permr || decide (0 < bad), lanes := lanes, runPerm := cs.permBad, runNonfin := cs.nonfin }
  { w with c := c.setCtx core r.src (some x), ctr := cs.ctr + 1 }

/-- DETAIL and INFO of R184. -/
def chainResult (x : MorCtx) (cs : ChainSt) (cont paused : Bool) : Result :=
  { detail := BitVec.ofNat 16
      (b2n (decide (0 < cs.permBad)) + 2 * b2n x.vlclamp + 4 * b2n (cont && x.rseed) + 8 * b2n paused + 16 * b2n cs.nonfin)
    info := BitVec.ofNat 64 (cs.pos % 2 ^ 40 + 2 ^ 40 * min cs.permBad (2 ^ 24 - 1)) }

/-- A STRICT chain that met an out-of-range index (R178), or an entry outside a line port (R170), with the INFO and
DETAIL of R184. -/
def chainStop (w : Wk) (r : Running) (prog info : Nat) (detail : W16) : Wk :=
  let (c, res) := w.c.descFault r 0xF prog
  { w with c := c.finish r { res with info := BitVec.ofNat 64 info, detail := detail } }

/-- A chain before its next strip, from a context. -/
def chainFrom (c : Channel) (core : Core) (x : MorCtx) (ctr : Nat) : ChainSt :=
  { c := c, carries := x.carries, lanes := c.cores[core].lanes.moraine, ctr := ctr, pos := x.pos, lastVl := x.vl.toNat
    permBad := x.runPerm, nonfin := x.runNonfin }

/-- Runs strips, one only while PAUSE is set (R181): whether it stops short of a strip, or of `more` of the walk. -/
def runStrips (g : Chain) (ds : List (Option Desc)) (core : Core) (r : Running) (pause more : Bool) (cs : ChainSt)
    (ss : List (List El)) : ChainSt × Bool :=
  ((if pause then ss.take 1 else ss).foldl (oneStrip g ds core.val r.step r.cmd.strict) cs,
    pause && !ss.isEmpty && (decide (1 < ss.length) || more))

/-- How a chain goes on after strips, from the state that holds them: STRICT stops it, or an error; at an absent page or a
stopped stack it goes on there later, from its live context (11 R262, 13 R303); else `go`. -/
def chainNext (w : Wk) (r : Running) (x : MorCtx) (cs : ChainSt) (go : Wk) : Wk :=
  let r' := { r with begun := some (r.begun.getD x.pos) }
  match cs.stop, cs.err with
  | some k, _ => chainStop w r x.prog.toNat k 1
  | none, none => go
  | none, some e =>
    match e.kind with
    | .wait => w.mod fun c => c.setRun r'
    | .absent a => w.mod fun c => c.haltRun r' e 0 a
    | _ =>
      let (c, res) := w.c.fail r e
      { w with c := c.finish r res }

/-- What a chain takes: the context, the program and the port descriptors. -/
structure ChainOps where
  x : MorCtx
  g : Chain
  ds : List (Option Desc)

/-- A vx.chain with CONT = 1. -/
def Running.cont (r : Running) : Bool := r.cmd.a5.getLsbD 40
/-- A vx.chain with CONT = 0 that has walked nothing yet. -/
def Running.freshChain (r : Running) : Bool := !r.cont && r.begun.isNone
/-- LIMIT of a vx.chain. -/
def Running.limit (r : Running) : Nat := bits r.cmd.a5.toNat 39 0

/-- Elements of LIMIT still owed to a command, of n at hand (R169, R180). -/
def Running.owed (r : Running) (x : MorCtx) (n : Nat) : Nat :=
  if r.limit = 0 then n else r.limit - (x.pos - r.begun.getD x.pos)

/-- The elements of a walk with a descriptor lead: from POS, LIMIT of them (R169, R180). -/
def walkEls (r : Running) (x : MorCtx) (lead : Desc) : List El :=
  let rest := (lead.walk r.split).drop x.pos
  let todo := rest.take (r.owed x rest.length)
  todo.zipIdx.map fun (q, k) => { pos := List.replicate 4 q, uv := lead.uvAt q, walk := x.pos + k : El }

/-- The checks of an element walk with a descriptor lead (R169). -/
def walkOps (r : Running) (o : ChainOps) (lead : Desc) : Ck Unit := do
  (o.ds.filterMap id).forM fun d => need (sameShape d lead) (.fault 0xF d.addr)
  checkExtent r lead

/-- An element-walk chain with a descriptor lead (R169). -/
def walkRun (w : Wk) (r : Running) (o : ChainOps) (lead : Desc) : Wk :=
  let core := runCore r
  let g := o.g
  let x := o.x
  let c := w.c
  let els := walkEls r x lead
  let (cs, paused) := runStrips g o.ds core r c.cores[core].mor.pause false (chainFrom c core x w.ctr)
    (strips (effVlr x.vlr.toNat) els.length els)
  let w' := chainSettle w r core x cs
  chainNext w' r x cs (w'.mod fun c => (c.writeRes g cs.carries cs.pos).finish r (chainResult x cs r.cont paused))

/-- The array a MODE 4 port names. -/
def PortB.array (p : PortB) : ArrayId := if p.arr = 0 then .rime else if p.arr = 1 then .firnA else .firnB

/-- The banks a chain can walk now: those handed over and not yet read (R169). -/
def Channel.banksNow (c : Channel) (core : Core) (a : ArrayId) : List Bank :=
  let arr := c.cores[core].array a
  arr.handed.drop arr.read

/-- A chain whose array has handed no bank over that it has not read waits for one (R169); a walk that begins here begins
at that bank's first element. -/
def banksWait (w : Wk) (r : Running) (o : ChainOps) (a : ArrayId) : Wk :=
  let core := runCore r
  w.mod fun c =>
    ((c.modCore core fun k =>
        { (if r.begun.isSome then k
           else k.modArray a fun y =>
            { y with ahead := [], walked := if r.freshChain || !y.ahead.isEmpty then 0 else y.walked }) with
          mor := { k.mor with waitacc := true, waitArr := a } }).setCtx core r.src (some o.x)).setRun
      { r with begun := some (r.begun.getD o.x.pos) }

/-- What a chain walks of the banks there are. -/
structure BankWalk where
  /-- banks read ahead, of which elements wait in a strip -/
  ahead : Nat
  /-- those, and the banks handed over, up to the last of the handing command -/
  banks : List Bank
  /-- elements of the first that are walked already -/
  walked : Nat
  els : List El
  /-- the walk goes on with banks still to come -/
  more : Bool

/-- The elements a chain walks of its banks: up to LIMIT, and whole strips only while more are to come (R161, R169). What a
chain that has ended read ahead is gone. -/
def bankWalk (c : Channel) (r : Running) (x : MorCtx) (a : ArrayId) (bs : List Bank) : BankWalk :=
  let y := c.cores[runCore r].array a
  let ahead := if r.begun.isSome then y.ahead else []
  let banks := untilLast (ahead ++ bs)
  let walked := if r.freshChain || (r.begun.isNone && !y.ahead.isEmpty) then 0 else y.walked
  let all := (banks.flatMap fun k => k.elems.map fun e => (k, e)).drop walked
  let owed := r.owed x all.length
  let vl := effVlr x.vlr.toNat
  let todo := all.take owed
  let more := !banks.any (·.last) && decide (all.length < owed || r.limit = 0)
  let todo := if more then todo.take (todo.length / vl * vl) else todo
  ⟨ahead.length, banks, walked, todo.zipIdx.map fun ((k, i, j, v), n) =>
    { pos := List.replicate 4 (0, i, j), bank := v, uv := bankUv k i j, walk := x.pos + n : El }, more⟩

/-- The checks of a bank walk against its first bank (R169). -/
def banksOps (o : ChainOps) (bs : List Bank) : Ck Unit :=
  (o.ds.filterMap id).forM fun d =>
    need (d.outer.all (· == 1) && bs.head?.all fun b => d.er == b.rows && d.ec == b.cols) (.fault 0xF d.addr)

/-- Banks of a list that n elements cover whole, and the elements left over. -/
def coveredBanks (n : Nat) : List Bank → Nat × Nat
  | [] => (0, n)
  | b :: rest =>
    let m := b.elems.length
    if m ≤ n then ((coveredBanks (n - m) rest).1 + 1, (coveredBanks (n - m) rest).2) else (0, n)

/-- An element-walk chain with a MODE 4 lead (R169): it walks the banks of its array as far as they go, and marks those
read whose last element it has taken. While more are to come it takes the elements that do not fill a strip as well, so
that their banks are released and the strip goes on with the next (R161). -/
def banksRun (w : Wk) (r : Running) (o : ChainOps) (a : ArrayId) (bs : List Bank) : Wk :=
  let core := runCore r
  let g := o.g
  let ds := o.ds
  let x := o.x
  let c := w.c
  let ⟨ahead, banks, walked, els, more⟩ := bankWalk c r x a bs
  let (cs, paused) := runStrips g ds core r c.cores[core].mor.pause more (chainFrom c core x w.ctr)
    (strips (effVlr x.vlr.toNat) els.length els)
  let (whole, left) := coveredBanks (walked + (cs.pos - x.pos)) banks
  let waits := more && !paused && cs.stop.isNone && cs.err.isNone
  let stays := waits || cs.err.any fun e => e.waits || e.page.isSome
  let w' := chainSettle w r core x cs
  let w' := w'.mod fun c => c.modCore core fun k =>
    { (k.modArray a fun y =>
        if waits then { y with read := y.read + (banks.length - ahead), ahead := banks.drop whole, walked := left }
        else { y with
          read := y.read + (whole - ahead), ahead := if stays then (banks.take ahead).drop whole else []
          walked := if !stays && decide (whole < ahead) then 0 else left }) with
      mor := { k.mor with waitacc := waits, waitArr := a } }
  chainNext w' r x cs
    (if waits then w'.mod fun c => c.setRun { r with begun := some (r.begun.getD x.pos) }
     else w'.mod fun c => (c.writeRes g cs.carries cs.pos).finish r (chainResult x cs r.cont paused))

/-- The entries of a capture list in order: (m, k, RESID) (R170, 05 R125). -/
def Channel.captureList (c : Channel) (buf rows groups : Nat) : Ck (List (Nat × Nat × W32)) := do
  let rs ← (List.range (rows * groups)).mapM fun n => c.get (buf + 512 * n) 512
  pure <| rs.zipIdx.flatMap fun (bs, n) =>
    let b := n / groups
    let q := n % groups
    (List.range 64).filterMap fun i =>
      let v := fld bs (8 * i) 8
      if v.testBit 16 then
        let ix := bits v 11 0
        some (32 * b + ix / 128, 128 * q + ix % 128, BitVec.ofNat 32 (bits v 63 32))
      else none

/-- Extent of a line port along an axis: dimension 1 its columns, 0 its rows. -/
def Desc.axis (d : Desc) (lax : Bool) : Nat := if lax then d.er else d.ec

/-- What a capture-driven chain walks: the lines of its ports, their length, and the entries. -/
structure IterOps where
  lines : List (Nat × Desc)
  len : Nat
  entries : List (Nat × Nat × W32)

/-- The element of a line port's lines that an entry fixes. -/
def Chain.fixed (g : Chain) (e : Nat × Nat × W32) (i : Nat) : Nat := if (g.port i).lsel then e.2.1 else e.1

/-- The entries before the first that lies outside a line port (R170). -/
def IterOps.good (i : IterOps) (g : Chain) : List (Nat × Nat × W32) :=
  i.entries.takeWhile fun e => i.lines.all fun (k, d) => decide (g.fixed e k < d.axis (!(g.port k).lax))

/-- The strips of a capture-driven chain, entry by entry (R170). -/
def iterStrips (g : Chain) (x : MorCtx) (i : IterOps) : List (List El) :=
  let wport := i.lines.find? fun p => (g.port p.1).mode != 1
  (i.good g).zipIdx.flatMap fun (e, n) =>
    let posOf (k p : Nat) : Nat × Nat × Nat := if (g.port p).lax then (0, k, g.fixed e p) else (0, g.fixed e p, k)
    strips (effVlr x.vlr.toNat) i.len ((List.range i.len).map fun k =>
      { pos := (List.range 4).map (posOf k), resid := e.2.2, walk := i.len * n + k
        uv := match wport with | some (p, d) => d.uvAt (posOf k p) | none => (0, 0) : El })

/-- The checks of a capture-driven chain (R170, R171). -/
def iterOps (c : Channel) (r : Running) (o : ChainOps) : Ck IterOps := do
  let g := o.g
  let ds := o.ds
  let x := o.x
  let bad : Err := .fault 0xF x.prog.toNat
  need ((g.ports.filter fun p => p.mode == 5).length == 1 && g.ports.all (fun p => p.mode != 4)) bad
  need (g.ports.any fun p => p.mode == 2 || p.mode == 3) bad
  (ds.filterMap id).forM fun d => need (d.nd != 1 && d.outer.all (· == 1)) (.fault 0xF d.addr)
  let lines := (List.range 4).filterMap fun i => (ds.getD i none).map fun d => (i, d)
  let L := match lines.find? fun p => (g.port p.1).mode != 1 with
    | some (i, d) => d.axis (g.port i).lax
    | none => 0
  lines.forM fun (i, d) => need (d.axis (g.port i).lax == L) (.fault 0xF d.addr)
  need (g.stages.all fun s => s.op != 0x20 && s.op != 0x21 && s.op != 0x28) bad
  need (r.limit == 0) bad
  let pi := (g.ports.findIdx? fun p => p.mode == 5).getD 0
  let cd ← c.get (bits (x.pa.getD pi 0).toNat 47 0) 16
  let buf := fld cd 0 6
  let rows := fld cd 8 4
  let groups := fld cd 12 4
  need (rows * groups == 0 || inRegion buf (512 * rows * groups)) (.guard buf false)
  let entries ← c.captureList buf rows groups
  pure ⟨lines, L, entries⟩

/-- A capture-driven chain on checked operands (R170, R171). -/
def iterRun (w : Wk) (r : Running) (o : ChainOps) (i : IterOps) : Wk :=
  let core := runCore r
  let g := o.g
  let x := if r.begun.isSome then o.x else { o.x with pos := 0 }
  let c := w.c
  let good := i.good g
  let past := decide (good.length < i.entries.length)
  -- a chain that goes on has done the strips before POS
  let ss := (iterStrips g x i).filter fun l => l.head?.all fun e => decide (x.pos ≤ e.walk)
  let (cs, paused) := runStrips g o.ds core r c.cores[core].mor.pause past (chainFrom c core x w.ctr) ss
  let w' := chainSettle w r core x cs
  let res := chainResult x cs false paused
  chainNext w' r x cs
    (if past && !paused then chainStop w' r x.prog.toNat good.length res.detail else w'.mod fun c => c.finish r res)

/-- The live context of a chain with CONT = 0 at its start; VLR and LRS are zero where the program cannot be read. Its VLR is
the header's, 0 where that is 0: whether Table 7.7 means MVL there is not stated (DESIGN CHOICE, log 128). -/
def Channel.startCtx (c : Channel) (core : Core) (r : Running) : MorCtx :=
  let prog := bits r.cmd.a0.toNat 47 0
  let x : MorCtx :=
    { prog := BitVec.ofNat 48 prog, pa := [r.cmd.a1, r.cmd.a2, r.cmd.a3, r.cmd.a4]
      carries := List.replicate 4 {}, lanes := c.cores[core].lanes.moraine }
  match c.chain prog with
  | .ok g => { x with vlr := BitVec.ofNat 16 (min g.vlr MVL), vlclamp := decide (MVL < g.vlr), lrs := g.usesLanes }
  | .error _ => x

/-- What the start of a chain changes whatever its checks find: it waits for no bank, CONT = 0 replaces the live context
(R180), and the counts of its record begin (R184). -/
def chainEnter (w : Wk) (r : Running) : Wk :=
  let core := runCore r
  w.mod fun c =>
    let c := c.modCore core fun k => { k with mor := { k.mor with waitacc := false } }
    if r.freshChain then c.setCtx core r.src (some (c.startCtx core r))
    else if r.begun.isSome then c
    else c.setCtx core r.src ((c.liveCtx core r.src).map fun x => { x with runPerm := 0, runNonfin := false })

/-- What the red stages of a program write: RES + 8 × slot each, from the first of them to the last (R176). -/
def Chain.resArea (g : Chain) : Nat × Nat :=
  let reds := (((g.stages.filter Stage.carries).zipIdx.filter fun p => p.1.op == 0x21)).map (·.2)
  match reds.head?, reds.getLast? with
  | some i, some j => (g.res + 8 * i, 8 * (j + 1 - i))
  | _, _ => (g.res, 0)

/-- The checks every chain has (R163, R180), from the state of `chainEnter`. -/
def chainOps (c : Channel) (r : Running) : Ck ChainOps := do
  let core := runCore r
  let x ← match c.liveCtx core r.src with
    | some x => pure x
    | none => throw (.fault 0xF (bits r.cmd.a0.toNat 47 0))
  let g ← c.chain x.prog.toNat
  need g.ok (.fault 0xF x.prog.toNat)
  need (!(g.iter && r.cont)) (.fault 0xF x.prog.toNat)
  let (a, n) := g.resArea
  need (n == 0 || inRegion a n) (.guard a true)
  need (!c.stopped a n) .wait
  let ds ← c.portDescs r g x.pa
  pure ⟨x, g, ds⟩

/-- The MODE 4 port of a program, which leads an element walk (R169). -/
def Chain.bankPort (g : Chain) : Option PortB := g.ports.find? fun p => p.mode == 4

/-- vx.chain (R163 to R184), from the state of `chainEnter`. -/
def vxChain (w : Wk) (r : Running) : Ck Wk := do
  let o ← chainOps w.c r
  if o.g.iter then
    let i ← iterOps w.c r o
    pure (iterRun w r o i)
  else
    match o.g.bankPort with
    | some p =>
      match w.c.banksNow (runCore r) p.array with
      | [] => pure (banksWait w r o p.array)
      | b :: more =>
        banksOps o (bankWalk w.c r o.x p.array (b :: more)).banks
        pure (banksRun w r o p.array (b :: more))
    | none =>
      match o.ds.findSome? id with
      | some lead =>
        walkOps r o lead
        pure (walkRun w r o lead)
      | none => throw (.fault 0xF o.x.prog.toNat)

/-! ### vx.save and vx.restore (R182, R183) -/

/-- 320-bit two's complement of a sum. -/
def accBytes (i : Int) : List Byte := toBytes 40 (i % 2 ^ 320).toNat
def accOf (bs : List Byte) : Int :=
  let n := ofBytes bs
  if n < 2 ^ 319 then n else (n : Int) - 2 ^ 320

/-- A carry as stored (Table 7.8); `kind` tells a sum from max and min. -/
def Carry.bytes (k : Carry) (kind : Nat) : List Byte :=
  (if kind = 0 then accBytes k.sum else toBytes 40 k.run.toNat) ++
  toBytes 8 (b2n k.pinf + 2 * b2n k.ninf + 4 * b2n k.nan + 8 * b2n k.empty)

def Carry.ofBytes (b : List Byte) : Carry :=
  let f := fld b 40 1
  { sum := accOf (b.take 40), run := BitVec.ofNat 32 (fld b 0 4)
    pinf := f.testBit 0, ninf := f.testBit 1, nan := f.testBit 2, empty := f.testBit 3 }

/-- The kind of each carry slot of a chain program in memory. -/
def Channel.slotKinds (c : Channel) (prog : Nat) : List Nat :=
  let h := c.rd prog 64
  let n := fld h 0 1 % 32
  (((Chain.parse h (c.rd (prog + 64) (8 * n))).stages.filter Stage.carries).map fun s => s.md % 4)

/-- A context as stored (Table 7.7). -/
def MorCtx.bytes (x : MorCtx) (kinds : List Nat) : List Byte :=
  toBytes 1 1 ++ toBytes 1 128 ++ toBytes 2 MVL ++ toBytes 2 x.vlr.toNat ++ toBytes 2 x.vl.toNat ++
  toBytes 8 x.pos ++ toBytes 8 x.prog.toNat ++ (List.range 4).flatMap (fun i => toBytes 8 (x.pa.getD i 0).toNat) ++
  toBytes 2 (b2n x.permr + 2 * b2n x.vlclamp + 4 * b2n x.rseed) ++ toBytes 1 (1 + 2 * b2n x.lrs) ++ toBytes 5 0 ++
  (List.range 4).flatMap (fun i => (x.carries.getD i {}).bytes (kinds.getD i 0)) ++
  x.lanes.flatMap fun s => toBytes 16 s.toNat

/-- vx.save (R182). LSTATE is the lane state the context recorded, whether or not LRS is set (log 108). -/
def vxSave (w : Wk) (r : Running) : Ck (Wk × Result) := do
  let c := w.c
  let core := runCore r
  let a := bits r.cmd.a0.toNat 47 0
  need (a % 64 == 0) (.fault 0xF a)
  match c.liveCtx core r.src with
  | none =>
    need (inRegion a 64) (.guard a true)
    need (!c.stopped a 64) .wait
    pure ({ w with c := c.putN (a + 58) 1 0 }, {})
  | some x =>
    need (inRegion a 2304) (.guard a true)
    need (!c.stopped a 2304) .wait
    pure ({ w with c := c.put a (x.bytes (c.slotKinds x.prog.toNat)) }, {})

/-- vx.restore (R182, R183, 08 R191, R192). -/
def vxRestore (w : Wk) (r : Running) : Ck (Wk × Result) := do
  let c := w.c
  let core := runCore r
  let a := bits r.cmd.a0.toNat 47 0
  let h ← c.getBlock a 256 64 0xF
  need (fld h 0 1 == 1) (.fault 0xF a)
  let flags := fld h 58 1
  if !flags.testBit 0 then pure ({ w with c := c.setCtx core r.src none }, {})
  else
    let lanes := fld h 1 1
    let mvl := fld h 2 2
    let vlr := fld h 4 2
    let st := fld h 56 2
    let lrs := flags.testBit 1
    let same := lanes == 128 && mvl == MVL
    let clamp := !same && decide (MVL < vlr)
    let reseed := !same && lrs
    let x : MorCtx :=
      { prog := BitVec.ofNat 48 (fld h 16 6)
        pa := (List.range 4).map fun i => BitVec.ofNat 64 (fld h (24 + 8 * i) 8)
        vlr := BitVec.ofNat 16 (if clamp then MVL else vlr)
        vl := BitVec.ofNat 16 (fld h 6 2)
        pos := fld h 8 5
        carries := (List.range 4).map fun i => Carry.ofBytes ((h.drop (64 + 48 * i)).take 48)
        permr := st.testBit 0
        vlclamp := st.testBit 1 || clamp
        rseed := st.testBit 2 || reseed
        lrs := lrs }
    let ls ← if same then c.get (a + 256) 2048 else pure []
    let c := if same then
        let raw := (List.range 128).map fun l => BitVec.ofNat 128 (fld ls (16 * l) 16)
        let c := c.modCore core fun k =>
          { k with lanes := { k.lanes with moraine := raw.map fun s => if s = 0 then 1 else s } }
        { c with sas := { c.sas with zfix := c.sas.zfix || raw.any (· == 0) } }
      else c
    let c := if reseed then
        let ep := c.sas.epoch + 1
        let c := { c with sas := { c.sas with epoch := ep } }
        c.modCore core fun k => { k with lanes := { k.lanes with
          moraine := seedUnit (LaneUnit.moraine core.val) c.sas.lseed ep c.boot.cfg.ident.chid } }
      else c
    let c := c.setCtx core r.src (some { x with lanes := c.cores[core].lanes.moraine })
    let c := c.modCore core fun k => { k with mor := { k.mor with
      vlclamp := k.mor.vlclamp || clamp, rseed := k.mor.rseed || reseed } }
    pure ({ w with c := c }, { detail := BitVec.ofNat 16 (2 * b2n clamp + 4 * b2n reseed) })

/-- A write of MOR_CTRL (Table 7.9): PAUSE. -/
def writeMorCtrl (c : Channel) (core : Core) (w : RegWrite) : Channel :=
  c.modCore core fun k => { k with mor := { k.mor with pause := (merge w 4 (b2n k.mor.pause)).testBit 0 } }

/-- VX_CHAIN. -/
def execVxChain (ch : Ch) (src : Src) (s : State) : Host.Outcome State Fault Refusal :=
  .next (onCoreRun s ch src 0x20 (enter := chainEnter) fun w r => productWith w r (vxChain w r))

/-- VX_SAVE. -/
def execVxSave (ch : Ch) (src : Src) (s : State) : Host.Outcome State Fault Refusal :=
  .next (onCoreRun s ch src 0x21 fun w r => endWith w r (vxSave w r))

/-- VX_RESTORE. -/
def execVxRestore (ch : Ch) (src : Src) (s : State) : Host.Outcome State Fault Refusal :=
  .next (onCoreRun s ch src 0x22 fun w r => endWith w r (vxRestore w r))

end Sys2Proof.Machine
end

