-- ==== Sys2Proof/Machine/Esker.lean ====
section
/-!
DEFINITION. Esker (12) and the block moves of 11: st.copy, st.gather, st.scatter, stream contexts, st.prefetch and its
fills, st.cancel, the ring and the rotation. st.put is in Links.lean, page halts in Pages.lean.
-/
namespace Sys2Proof.Machine

open Sys2Proof

/-! ### Moves in the destination's order (R271) -/

/-- One step of a move, in the destination's order: a block of a tiled destination; of a strided one a row, by plane,
row and block columns, and then, for a narrow or MX format, the code and exponent entries of a block (log 43). -/
inductive MoveStep where
  | block (n : Nat)
  | row (p i : Nat) (cols : List Nat)
  | tail (n : Nat)
  deriving DecidableEq, Repr

/-- The steps of a move to the blocks of a share; every grid row of a narrow strided destination is one. -/
def Desc.steps (d : Desc) (split : Option Split) : List MoveStep :=
  let ns := d.blocks split
  if !d.strided then ns.map MoveStep.block
  else
    let narrow := !d.fmt.isWide
    (((ns.map fun n => ((d.blockAt n).1, (d.blockAt n).2.1)).dedup).flatMap fun (p, r) =>
      let cols := ns.filterMap fun n => if (d.blockAt n).1 = p && (d.blockAt n).2.1 = r then some (d.blockAt n).2.2 else none
      (List.range (if d.nd = 1 then 1 else 32)).filterMap fun gi =>
        if narrow || 32 * r + gi < d.er then some (MoveStep.row p (32 * r + gi) cols) else none) ++
    (if narrow then ns.map MoveStep.tail else [])

/-- Reads ranges in order, each checked (R53, R262): the channel after the checks, and the bytes. -/
def Channel.readRanges (c : Channel) (rs : List (Nat × Nat)) : Ck (Channel × List Byte) := do
  let c ← rs.foldlM (fun c r => c.access r.1 r.2 false) c
  pure (c, rs.flatMap fun r => c.rdV r.1 r.2)

/-- What a step of a move reads and writes: the pieces for the destination, from memory as the step finds it. -/
abbrev StepRead (α : Type) := Channel → α → Ck (Channel × List (Nat × List Byte))

/-- A step cut small: source address and length, destination address and length, in the order of movement (R286); a move
without a source writes zeros. -/
abbrev StepMoves := List (Nat × Nat × Nat × Nat)

/-- How far a transfer came: the channel, steps done, moves of the step at which it stopped, bytes moved, the error. -/
structure Moved where
  c : Channel
  steps : Nat
  part : Nat
  bytes : Nat
  err : Option Err

/-- Makes the moves of a step one by one until one meets an error. -/
def runMoves (conv : List Byte → List Byte) : StepMoves → Moved → Moved
  | [], x => x
  | (a, n, b, m) :: rest, x =>
    match (x.c.access a n false).bind fun c => c.access b m true with
    | .ok c =>
      let bs := if n = 0 then List.replicate m 0 else conv (c.rdV a n)
      runMoves conv rest { x with c := c.wrV b bs, part := x.part + 1, bytes := x.bytes + m }
    | .error e => { x with err := some e }

/-- Runs a step whole. -/
def runStep {α : Type} (read : StepRead α) (m : α) (x : Moved) : Ck Moved := do
  let (c, ps) ← read x.c m
  let c ← ps.foldlM (fun c p => c.access p.1 p.2.length true) c
  pure { x with c := c.wrPieces ps, steps := x.steps + 1, bytes := x.bytes + (ps.map fun p => p.2.length).sum }

/-- Runs steps in order until one meets an error. Where its moves are given, a step that meets an absent page stops at the
faulting address, and goes on from there (R286). -/
def runSteps {α : Type} (read : StepRead α) (cut : Option ((List Byte → List Byte) × (α → StepMoves))) :
    List α → Moved → Moved
  | [], x => x
  | m :: rest, x =>
    let small (x : Moved) (conv : List Byte → List Byte) (f : α → StepMoves) : Moved :=
      runMoves conv ((f m).drop x.part) x
    let y : Moved :=
      match cut, x.part, runStep read m x with
      | some (conv, f), _ + 1, _ => small x conv f
      | some (conv, f), 0, .error e => if e.page.isSome then small x conv f else { x with err := some e }
      | none, _, .error e => { x with err := some e }
      | _, _, .ok y => y
    if y.err.isSome then y
    else runSteps read cut rest { y with part := 0, steps := x.steps + 1 }

/-- The run of a step (R271): the block of a tiled destination, or the packed bytes of a row of a strided one. -/
def Desc.stepRun (d : Desc) : MoveStep → Option (Nat × Nat)
  | .block n => some (d.base + n * d.bb, d.bb)
  | .row p i cols =>
    let c0 := cols.headD 0
    some (d.rowAddr p i + c0 * d.lb,
      if d.fmt.isWide then (min d.ec (32 * (c0 + cols.length)) - 32 * c0) * (d.fmt.width / 8) else cols.length * d.lb)
  | .tail _ => none

/-- Transfers after merging within one command, and the runs merged (R271). -/
def mergeRuns : List (Nat × Nat) → List (Nat × Nat) → Nat → List (Nat × Nat) × Nat
  | [], acc, k => (acc.reverse, k)
  | (a, n) :: rest, [], k => mergeRuns rest [(a, n)] k
  | (a, n) :: rest, (b, m) :: acc, k =>
    if n < 4096 && b + m = a && m + n ≤ 4096 then mergeRuns rest ((b, m + n) :: acc) (k + 1)
    else mergeRuns rest ((a, n) :: (b, m) :: acc) k

/-- Counts bytes and merges on a core's Esker. -/
def Channel.eskCount (c : Channel) (core : Core) (bytes merges : Nat) : Channel :=
  c.modCore core fun k => { k with esk := { k.esk with
    bytesTotal := satAdd k.esk.bytesTotal bytes, mergeTotal := satAdd k.esk.mergeTotal merges } }

/-- Runs a command's steps from where it halted, and ends it, halts it, or ends it in error. `run` gives the runs a
step moves, `prev` the transfer before the command that its first may merge with, `res` the result from the bytes moved in all and whether it ever halted. -/
def moveCommand {α : Type} (w : Wk) (r : Running) (core : Core) (read : StepRead α)
    (cut : Option ((List Byte → List Byte) × (α → StepMoves))) (run : α → List (Nat × Nat)) (ms : List α)
    (res : Nat → Bool → Result) (prev : List (Nat × Nat) := []) : Wk :=
  let k0 := r.begun.getD 0
  let x := runSteps read cut (ms.drop k0) ⟨w.c, 0, r.part, 0, none⟩
  let c := x.c.eskCount core x.bytes (mergeRuns (((ms.drop k0).take x.steps).flatMap run) (if k0 = 0 then prev else []) 0).2
  let r := { r with begun := some (k0 + x.steps), part := x.part, moved := r.moved + x.bytes }
  match x.err with
  | none => { w with c := c.finish r (res r.moved r.haltedOnce) }
  | some e =>
    match e.kind with
    | .absent a => { w with c := c.haltRun r e r.moved a }
    | .wait => { w with c := c.setRun r }
    | _ =>
      let (c, q) := c.fail r e
      { w with c := c.finish r q }

/-! ### st.copy (R273, R268, R269) -/

def permOf (a2 : Nat) (d : Nat) : Nat := bits a2 (2 * d + 1) (2 * d)

/-- The rules of R273 on descriptors and permutation. -/
def copyOk (s d : Desc) (a2 : Nat) (splitDim : Option Nat) : Bool :=
  let nd := s.nd
  let pm := (List.range nd).map (permOf a2)
  let isPerm := (List.range nd).all fun i => pm.contains i
  let restZero := ((List.range 4).drop nd).all fun i => permOf a2 i == 0
  let exts := (List.range nd).all fun i => d.ext.getD i 0 == s.ext.getD (permOf a2 i) 0
  let narrow := !s.fmt.isWide
  let keep := nd == 1 || (permOf a2 (nd - 1) == nd - 1 && permOf a2 (nd - 2) == nd - 2)
  let swap := nd != 1 && permOf a2 (nd - 1) == nd - 2 && permOf a2 (nd - 2) == nd - 1
  d.nd == nd && isPerm && restZero && exts && s.bs16 == d.bs16 &&
  (s.fmt == d.fmt || (s.fmt == .f32 && d.fmt == .b16) || (s.fmt == .b16 && d.fmt == .f32)) &&
  (!narrow || ((keep && s.rax == d.rax) || (swap && s.rax != d.rax))) &&
  (match splitDim with | some k => decide (k < nd) | none => true)

/-- Byte ranges of a tensor's arrays as they lie in physical memory, page by page in translated mode. -/
def Channel.physRanges (c : Channel) (d : Desc) : List (Nat × Nat) :=
  d.arrays.flatMap fun (a, n) => c.phys a n

/-- Any byte range of the one meets one of the other (R269). -/
def Channel.overlap (c : Channel) (s d : Desc) : Bool :=
  (c.physRanges s).any fun (a, n) => (c.physRanges d).any fun (b, m) => decide (a < b + m) && decide (b < a + n)

/-- A block transpose in place (R268). -/
def inPlace (s d : Desc) (a2 : Nat) : Bool :=
  let nd := s.nd
  nd != 1 && permOf a2 (nd - 1) == nd - 2 && permOf a2 (nd - 2) == nd - 1 &&
  ((List.range (nd - 2)).all fun i => permOf a2 i == i) &&
  !s.strided && !d.strided && s.er == s.ec && s.orgr == s.orgc && d.orgr == d.orgc && s.orgr == d.orgr &&
  s.arrays == d.arrays && (if s.fmt.isWide then s.rax == d.rax else s.rax != d.rax)

/-- Source coordinate of a destination coordinate under the permutation. -/
def permCoord (a2 : Nat) (nd : Nat) (x : List Nat) : List Nat :=
  (List.range nd).map fun k =>
    match (List.range nd).find? fun d => permOf a2 d == k with
    | some d => x.getD d 0
    | none => 0

/-- Position of a coordinate list as (plane, row, column). -/
def Desc.posOf (d : Desc) (x : List Nat) : Nat × Nat × Nat :=
  if d.nd = 1 then (0, 0, x.getD 0 0)
  else (Desc.rowMajor (x.take (d.nd - 2)) d.outer, x.getD (d.nd - 2) 0, x.getD (d.nd - 1) 0)

/-- Element bits of a wide value moved from one wide format to the other: bytes kept, F32 to B16 under RNE, B16 to
F32 exact (R273). -/
def convWide (s d : Fmt) (x : Nat) : Nat :=
  if s = d then x
  else if d == Fmt.b16 then (Num.to16 .rne (Num.dec32 (BitVec.ofNat 32 x))).bits.toNat
  else (Num.to32 (Num.dec16 (BitVec.ofNat 16 x))).toNat

/-- Elements of a wide destination in the order of a step: positions of the valid ones. -/
def Desc.stepElems (d : Desc) : MoveStep → List (Nat × Nat × Nat)
  | .block n => d.elems n
  | .row p i cols => cols.flatMap fun c => (List.range (min 32 (d.ec - 32 * c))).map fun k => (p, i, 32 * c + k)
  | .tail _ => []

/-- k runs of n bytes. -/
def chunks (n : Nat) : Nat → List Byte → List (List Byte)
  | 0, _ => []
  | k + 1, bs => bs.take n :: chunks n k (bs.drop n)

/-- A step of a wide copy: each element's bytes, converted (R273). -/
def wideRead (s d : Desc) (a2 : Nat) : StepRead MoveStep := fun c m => do
  let ws := s.fmt.width / 8
  let xs := d.stepElems m
  let at_ (x : Nat × Nat × Nat) : Nat :=
    s.elemAddr (s.posOf (permCoord a2 d.nd (if d.nd = 1 then [x.2.2] else d.outerIdx x.1 ++ [x.2.1, x.2.2])))
  let rs := joinRanges (xs.map fun x => (at_ x, ws))
  let (c, bytes) ← c.readRanges rs
  let vs := chunks ws xs.length bytes
  pure (c, coalesce ((xs.zip vs).map fun (x, v) =>
    (d.elemAddr x, toBytes (d.fmt.width / 8) (convWide s.fmt d.fmt (ofBytes v)))))

/-- The source block of destination block n of a narrow copy: a block moves whole. -/
def narrowFrom (s d : Desc) (a2 : Nat) (n : Nat) : Nat :=
  let (p, r, cc) := d.blockAt n
  let swap := d.nd != 1 && permOf a2 (d.nd - 1) == d.nd - 2
  let o := d.outerIdx p
  let so := (List.range (s.nd - 2)).map fun k =>
    match (List.range (d.nd - 2)).find? fun j => permOf a2 j == k with
    | some j => o.getD j 0
    | none => 0
  let sp := Desc.rowMajor so s.outer
  if swap then s.blockIdx sp cc r else s.blockIdx sp r cc

/-- A step of a narrow copy. -/
def narrowRead (s d : Desc) (a2 : Nat) : StepRead MoveStep := fun c m =>
  match m with
  | .block n => do
    let k := narrowFrom s d a2 n
    let c ← c.touchBlock s false k
    pure (c, d.sbPieces n (c.rdSb s k))
  | .row p i cols => do
    let rs := cols.map fun cc => (s.runs (narrowFrom s d a2 (d.blockIdx p (i / 32) cc))).getD (i % 32) (0, 0)
    let (c, bs) ← c.readRanges (joinRanges rs)
    pure (c, [(d.rowAddr p i + cols.headD 0 * d.lb, bs)])
  | .tail n => do
    let k := narrowFrom s d a2 n
    let (c, codes) ← c.readRanges [(s.codeAddr k, s.cb)]
    if s.fmt.isMx then pure (c, [(d.codeAddr n, codes)])
    else
      let (c, e) ← c.readRanges [(s.expAddr k, 1)]
      pure (c, [(d.codeAddr n, codes), (d.expAddr n, e)])

/-- A run of bytes that moves unchanged, cut where one of its ends crosses a page. -/
def byteMoves (a b n : Nat) : StepMoves :=
  if n = 0 then []
  else if a / 2 ^ 21 = (a + n - 1) / 2 ^ 21 && b / 2 ^ 21 == (b + n - 1) / 2 ^ 21 then [(a, n, b, n)]
  else (List.range n).map fun i => (a + i, 1, b + i, 1)

/-- Zeros, cut alike. -/
def zeroMoves (b n : Nat) : StepMoves := (pagesOf b n).map fun r => (0, 0, r.1, r.2)

/-- The moves of a step of a copy that permutes nothing: valid elements of a wide tensor, runs of a narrow one. -/
def stepMoves (s d : Desc) (m : MoveStep) : StepMoves :=
  if s.fmt.isWide then (d.stepElems m).map fun x => (s.elemAddr x, s.fmt.width / 8, d.elemAddr x, d.fmt.width / 8)
  else
    let ends (n : Nat) : StepMoves :=
      byteMoves (s.codeAddr n) (d.codeAddr n) s.cb ++
        (if s.fmt.isMx then [] else byteMoves (s.expAddr n) (d.expAddr n) 1)
    match m with
    | .block n =>
      -- lines that a strided source of one row does not have are padding
      let rs := s.runs n
      (d.runs n).zipIdx.flatMap (fun (x, i) =>
        match rs[i]? with
        | some y => byteMoves y.1 x.1 d.lb
        | none => zeroMoves x.1 d.lb) ++ ends n
    | .row p i cols =>
      cols.flatMap fun cc =>
        byteMoves ((s.runs (s.blockIdx p (i / 32) cc)).getD (i % 32) (0, 0)).1 (d.rowAddr p i + cc * d.lb) d.lb
    | .tail n => ends n

/-- How a step of a copy that permutes nothing is cut (R286). One that permutes has every page translated before its
first write (R269), and a transpose in place those of an exchange before it. -/
def copyCut (s d : Desc) (identity : Bool) : Option ((List Byte → List Byte) × (MoveStep → StepMoves)) :=
  if identity then
    some (fun b => if s.fmt == d.fmt then b else toBytes (d.fmt.width / 8) (convWide s.fmt d.fmt (ofBytes b)), stepMoves s d)
  else none

/-- Every page of a tensor's arrays is translated (R268, R269). -/
def Channel.translate (c : Channel) (d : Desc) : Ck Channel := d.arrays.foldlM (fun c r => c.accessMap r.1 r.2 false) c

/-- The copy permutes nothing. -/
def isIdentity (s : Desc) (a2 : Nat) : Bool := (List.range s.nd).all fun i => permOf a2 i == i

/-- The checks of st.copy (R268, R269, R273): source, destination, and the channel as they leave it. Where the
permutation is not the identity and the copy no transpose in place, every page that either range touches is translated
before anything is written. -/
def copyOps (c : Channel) (r : Running) : Ck ((Desc × Desc) × Channel) := do
  let a2 := r.cmd.a2.toNat
  let s ← c.desc (bits r.cmd.a0.toNat 47 0) r.copies
  let d ← c.desc (bits r.cmd.a1.toNat 47 0) r.copies
  need (copyOk s d a2 (r.split.map (·.dim))) (.fault 0xF d.addr)
  checkExtent r d
  let c ← if isIdentity s a2 || inPlace s d a2 then pure c else do
    let c ← c.translate s
    let c ← c.translate d
    need (!c.overlap s d) (.fault 0x8 d.addr)
    pure c
  pure ((s, d), c)

/-- The ranges of the split axis that the members of a split command take on this channel, whose memory they share. -/
def Channel.rangesHere (c : Channel) (own : Nat × Nat) : Nat → ShareRef → List (Nat × Nat)
  | 0, _ => [own]
  | n + 1, ref =>
    match ref.owner with
    | .here id =>
      match c.floes.find? fun f => f.id == id with
      | some f =>
        match f.parent with
        | some ⟨.here p, i⟩ => c.rangesHere own n ⟨.here p, i⟩
        | _ => f.members.filterMap fun m => if m.member.chan = c.chid then m.blocks else none
      | none => [own]
    | _ => [own]

/-- The steps of a transpose in place (R268): blocks of this channel's memory exchange places two by two, each pair once,
by the member that has the lower one. -/
def Channel.exchanges (c : Channel) (r : Running) (s d : Desc) (a2 : Nat) : List (List Nat) :=
  let here (m : Nat) : Bool :=
    match r.share, r.split with
    | some sh, some sp =>
      (c.rangesHere (sp.first, sp.count) 8 sh.ref).any fun x => d.inSplit (some ⟨sp.dim, x.1, x.2⟩) m
    | _, _ => true
  (d.blocks r.split).filterMap fun n =>
    let m := narrowFrom s d a2 n
    if m = n || !here m then some [n]
    else if n < m then some [n, m]
    else none

/-- A step of a transpose in place: all its blocks are read before one is written. -/
def exchRead (read : StepRead MoveStep) : StepRead (List Nat) := fun c ns =>
  ns.foldlM (fun x n => (read x.1 (.block n)).map fun y => (y.1, x.2 ++ y.2)) (c, [])

/-- st.copy on checked operands. -/
def copyRun (w : Wk) (r : Running) (s d : Desc) : Wk :=
  let a2 := r.cmd.a2.toNat
  let read := if s.fmt.isWide then wideRead s d a2 else narrowRead s d a2
  let res (b : Nat) (halted : Bool) : Result :=
    { detail := BitVec.ofNat 16 (b2n halted), info := BitVec.ofNat 64 (b % 2 ^ 40) }
  if inPlace s d a2 then
    moveCommand w r (runCore r) (exchRead read) none (fun ns => ns.filterMap fun n => d.stepRun (.block n))
      (w.c.exchanges r s d a2) res
  else
    moveCommand w r (runCore r) read (copyCut s d (isIdentity s a2)) (fun m => (d.stepRun m).toList) (d.steps r.split) res

/-- st.copy (R273). -/
def stCopy (w : Wk) (r : Running) : Ck Wk := do
  let ((s, d), c) ← copyOps w.c r
  pure (copyRun { w with c := c } r s d)

/-! ### st.gather, st.scatter (11 R263 to R267) -/

/-- A block-coordinate list: entries (plane, row, column). -/
def Channel.blockList (c : Channel) (a : Nat) : Ck (List (Nat × Nat × Nat)) := do
  let h ← c.getBlock a 8 8 0xA
  let n := fld h 0 4
  need (decide (1 ≤ n) && decide (n ≤ 65536)) (.fault 0xA a)
  let b ← c.get (a + 8) (8 * n)
  pure ((List.range n).map fun i =>
    let v := fld b (8 * i) 8
    (bits v 63 48, bits v 47 24, bits v 23 0))

def Desc.hasBlock (d : Desc) (e : Nat × Nat × Nat) : Bool :=
  decide (e.1 < d.planes) && decide (e.2.1 < d.br) && decide (e.2.2 < d.bc)

/-- A valid position of destination block n is padding of source block m (R265). -/
def padsIn (s d : Desc) (m n : Nat) : Bool :=
  ((s.validLines m).flatten.zip (d.validLines n).flatten).any fun x => x.2 && !x.1

/-- One block of a gather or scatter, position by position (R265). -/
def gatherRead (s d : Desc) : StepRead (Nat × Nat) := fun c (m, n) => do
  let c ← c.touchBlock s false m
  let sb := c.rdSb s m
  let sok := s.validLines m
  let dok := d.validLines n
  let pad := convWide .f32 d.fmt s.padv.toNat
  let el (x : Nat × Bool × Bool) : Nat :=
    if !x.2.2 then 0 else if x.2.1 then x.1 else if d.fmt.isWide then pad else 0
  let elems := (sb.elems.zip (sok.zip dok)).map fun (l, so, dd) => (l.zip (so.zip dd)).map el
  let codes :=
    if d.fmt.isWide then []
    else
      let oks := splitBlocks d.bs16 dok
      sb.codes.zipIdx.map fun (k, b) =>
        if ((oks.getD b []).any id) then k else 0xF
  pure (c, d.sbPieces n { exp := sb.exp, codes := codes, elems := elems })

/-- Entries that name a block named earlier. -/
def repeats (es : List (Nat × Nat × Nat)) : Nat := es.length - es.dedup.length

/-- What a gather or scatter takes: source, destination, and the entries of its list. -/
structure GatherOps where
  s : Desc
  d : Desc
  es : List (Nat × Nat × Nat)

/-- The checks of st.gather and st.scatter (R264 to R267, R269), and the channel as they leave it. The list is read once,
before the first write (R263). -/
def gatherOps (scatter : Bool) (c : Channel) (r : Running) : Ck (GatherOps × Channel) := do
  let la := bits r.cmd.a1.toNat 47 0
  let s ← c.desc (bits r.cmd.a0.toNat 47 0) r.copies
  let d ← c.desc (bits r.cmd.a2.toNat 47 0) r.copies
  let es ← match r.entries with | some es => pure es | none => c.blockList la
  need (s.fmt == d.fmt && s.bs16 == d.bs16 && s.rax == d.rax) (.fault 0xB d.addr)
  let (ix, side) := if scatter then (s, d) else (d, s)
  need (es.length == ix.nblocks && es.all side.hasBlock) (.fault 0xA la)
  let c ← c.translate s
  let c ← c.translate d
  need (!c.overlap s d) (.fault 0x8 d.addr)
  pure (⟨s, d, es⟩, c)

/-- st.gather and st.scatter on checked operands. -/
def gatherRun (scatter : Bool) (w : Wk) (r : Running) (o : GatherOps) : Wk :=
  let ⟨s, d, es⟩ := o
  let side := if scatter then d else s
  let ms := es.zipIdx.map fun (e, i) =>
    let b := side.blockIdx e.1 e.2.1 e.2.2
    if scatter then (i, b) else (b, i)
  let reps := repeats es
  let padrd := ms.any fun m => padsIn s d m.1 m.2
  moveCommand w { r with entries := some es } (runCore r) (gatherRead s d) none (fun m => (d.stepRun (.block m.2)).toList) ms fun _ _ =>
    { detail := BitVec.ofNat 16 (b2n (scatter && decide (0 < reps)) + 2 * b2n padrd), info := info2 es.length reps }

/-- st.gather and st.scatter (R264 to R267). -/
def stGatherScatter (scatter : Bool) (w : Wk) (r : Running) : Ck Wk := do
  let (o, c) ← gatherOps scatter w.c r
  pure (gatherRun scatter { w with c := c } r o)

/-! ### Stream contexts (R277 to R288) -/

def ctxModeOf : Nat → CtxMode
  | 0 => .off
  | 1 => .native
  | 2 => .ring
  | _ => .rotate

def ctxModeCode : CtxMode → Nat
  | .off => 0
  | .native => 1
  | .ring => 2
  | .rotate => 3

/-- STATE of Table 12.5. -/
def Ctx.state (x : Ctx) : Nat :=
  if x.frozen then 5
  else if x.mode = .off then 0
  else if x.cancelling then 4
  else if x.slots.any (fun s => s.halted.isSome) then 3
  else if x.slots.any (fun s => s.st == .filling) || (x.mode == .rotate && x.started && !(x.steps + 1 == x.rounds)) then 2
  else 1

/-- Slot count and place obey R277; a rotation group obeys R284. -/
def ctxValid (c : Channel) (core : Core) (i : Fin 16) (x : Ctx) : Bool :=
  let n := x.nslot.toNat
  (match x.mode with
    | .off => true
    | .native => decide (1 ≤ n) && decide (n ≤ 16)
    | .ring => decide (3 ≤ n) && decide (n ≤ 16)
    | .rotate => n == 2) &&
  (x.mode == .off ||
    (decide (64 ≤ x.size.toNat) && x.size.toNat % 64 == 0 && inNeve core.val x.base.toNat (x.size.toNat * n))) &&
  (x.mode != .rotate ||
    (x.mask.getLsbD core.val && decide (2 ≤ ((List.range 8).filter x.mask.getLsbD).length) &&
     (List.finRange 8).all fun k =>
       let y := c.cores[k].esk.ctxs[i]
       !(x.mask.getLsbD k.val) || k == core || y.mode != .rotate ||
         (y.size == x.size && y.ruse == x.ruse && y.rounds == x.rounds && y.mask == x.mask)))

/-- Held faults of a context, dropped (R287). -/
def Ctx.heldCount (x : Ctx) : Nat := (x.slots.filter fun s => s.st == .faulted).length

def Channel.dropHeld (c : Channel) (core : Core) (n : Nat) : Channel :=
  c.modCore core fun k => { k with esk := { k.esk with heldDrop := satAdd k.esk.heldDrop n } }

/-- A context turned OFF: every slot EMPTY, held faults discarded and counted. -/
def Ctx.turnOff (x : Ctx) : Ctx :=
  { x with mode := .off, slots := List.replicate 16 {}, order := [], heldOrder := [], pushed := false, started := false }

/-- The fields of a context register written (R442). -/
def Ctx.writeReg (x : Ctx) (r : CtxReg) (w : RegWrite) : Ctx :=
  match r with
  | .cfg =>
    let old := x.ruse.toNat * 2 ^ 20 + x.nslot.toNat * 2 ^ 8 + ctxModeCode x.mode
    let v := merge w 4 old
    { x with
      ruse := if bits v 23 20 = 0 then 1 else BitVec.ofNat 4 (bits v 23 20)
      nslot := BitVec.ofNat 5 (bits v 12 8)
      mode := ctxModeOf (bits v 1 0) }
  | .base => { x with base := BitVec.ofNat 48 (bits (merge w 8 x.base.toNat) 47 6 * 64) }
  | .size => { x with size := BitVec.ofNat 25 (bits (merge w 4 x.size.toNat) 24 6 * 64) }
  | .sem =>
    let v := merge w 4 (x.mask.toNat * 256 + x.fullsem.toNat)
    { x with mask := BitVec.ofNat 8 (bits v 15 8), fullsem := BitVec.ofNat 8 (bits v 7 0) }
  | .rounds => { x with rounds := BitVec.ofNat 32 (merge w 8 x.rounds.toNat % 2 ^ 32) }

/-- A configuration write (R277, R284): honoured only while OFF or IDLE. -/
def eskCtxConfig (c : Channel) (core : Core) (i : Fin 16) (r : CtxReg) (w : RegWrite) : Channel :=
  let x := c.cores[core].esk.ctxs[i]
  if x.state ≠ 0 && x.state ≠ 1 then c
  else
    let y := x.writeReg r w
    let fresh := if x.mode = .off && y.mode ≠ .off then
        { y with slots := List.replicate 16 {}, order := [], heldOrder := [], head := 0, tail := 0, steps := 0
                 pushed := false, started := false }
      else y
    if y.mode = .off then
      (c.modCtx core i fun _ => y.turnOff).dropHeld core x.heldCount
    else if ctxValid c core i y then c.modCtx core i fun _ => fresh
    else (c.modCtx core i fun _ => { y.turnOff with cfgerr := true }).dropHeld core x.heldCount

/-- Owed FULLSEM additions paid in issue order (R280). -/
def payFull : List (Nat × Bool) → List (Nat × Bool) × Nat
  | (_, true) :: rest => let (l, n) := payFull rest; (l, n + 1)
  | l => (l, 0)

/-- A fill has left its slot FULL or FAULTED: the additions that are now due. -/
def fillSignal (c : Channel) (core : Core) (i : Fin 16) (slot : Nat) : Channel :=
  let x := c.cores[core].esk.ctxs[i]
  let order := x.order.map fun p => if p.1 == slot then (slot, true) else p
  let (rest, n) := payFull order
  (c.modCtx core i fun y => { y with order := rest }).semAdd x.fullsem n

/-- The running st.prefetch that fills a slot. -/
def Channel.filler (c : Channel) (core : Core) (i : Fin 16) (slot : Nat) : Option Running :=
  match (c.cores[core].esk.ctxs[i].slot slot).filler with
  | some s => c.findRun s
  | none => none

/-- Span of a source (R281): from BASE to the end of its highest array. -/
def Desc.span (d : Desc) : Nat := d.arrays.foldl (fun m (a, n) => max m (a + n)) 0 - d.base

/-- st.prefetch (R281, R282): starts a fill, or waits for its slot. -/
def stPrefetch (w : Wk) (r : Running) : Ck Wk := do
  let c := w.c
  let core := runCore r
  let i : Fin 16 := ⟨bits r.cmd.a1.toNat 3 0 % 16, Nat.mod_lt _ (by decide)⟩
  let slotArg := bits r.cmd.a1.toNat 15 8
  let s ← c.desc (bits r.cmd.a0.toNat 47 0) r.copies
  let x := c.cores[core].esk.ctxs[i]
  let bad : Err := .fault 0xF s.addr
  need (x.mode != .off && !x.frozen) bad
  need (decide (s.span ≤ x.size.toNat)) bad
  need (neveOf s.base != some core.val) bad
  need (x.mode != .native || decide (slotArg < x.nslot.toNat)) bad
  need (x.mode != .rotate || (slotArg == 0 && !x.started)) bad
  let slot := match x.mode with | .ring => x.tail.toNat % x.nslot.toNat | _ => slotArg
  -- after a cancel a ring's slot is free only once its last reader is done (R288)
  let free := ((x.slot slot).st == .empty || (x.slot slot).st == .cancelled) &&
    (x.mode != .ring || (x.tail - x.head).toNat != x.nslot.toNat)
  if r.begun.isSome || !free || x.cancelling then pure w
  else
    let help := x.mode == .native && r.cmd.a2.getLsbD 0 && x.mask != 0
    let c := c.modCtx core i fun y =>
      let y := y.modSlot slot fun _ =>
        { st := .filling, filler := some r.src, fillBase := s.base, fillSpan := s.span, help := help }
      { y with
        order := y.order ++ [(slot, false)]
        tail := if y.mode = .ring then y.tail + 1 else y.tail
        steps := if y.mode = .rotate then 0 else y.steps
        started := if y.mode = .rotate then true else y.started }
    pure { w with c := c.setRun { r with begun := some slot } }

/-- What a st.prefetch reports (Table 12.3): HELD, HELPED, HALTED, the bytes staged and the units of helpers. -/
def fillResult (s : Slot) (held : Bool) : Result :=
  { detail := BitVec.ofNat 16 (b2n held + 2 * b2n (decide (0 < s.helped)) + 4 * b2n s.haltedOnce)
    info := BitVec.ofNat 64 (s.pos % 2 ^ 40 + 2 ^ 40 * (s.helped % 2 ^ 24)) }

/-- A fill meets a fault that is held (R287): the slot FAULTED, counted; the st.prefetch completes with HELD. -/
def holdFault (c : Channel) (core : Core) (i : Fin 16) (slot : Nat) (status : Byte) (addr : Nat) : Channel :=
  let f := c.filler core i slot
  let s := c.cores[core].esk.ctxs[i].slot slot
  let c := c.modCtx core i fun y =>
    { y.modSlot slot (fun s => { s with
        st := .faulted, heldStatus := status, heldAddr := BitVec.ofNat 48 addr, filler := none, halted := none }) with
      heldOrder := y.heldOrder ++ [slot] }
  let c := c.modCore core fun k => { k with esk := { k.esk with heldTotal := satAdd k.esk.heldTotal 1 } }
  let c := fillSignal c core i slot
  match f with
  | some r => if r.result.isNone then c.finish r (fillResult s true) else c
  | none => c

/-- Moves bytes of a fill from its source to address `dst`, page by page in translated mode: the channel, bytes moved,
and the error that stopped it (R286). -/
def fillBytes (c : Channel) (a n dst : Nat) : Channel × Nat × Option Err :=
  let rec go : List (Nat × Nat) → Channel → Nat → Channel × Nat × Option Err
    | [], c, k => (c, k, none)
    | (v, m) :: rest, c, k =>
      match c.access v m false with
      | .ok c => go rest (c.put (dst + k) (c.rdV v m)) (k + m)
      | .error e => (c, k, some e)
  go (if c.virtual a then pagesOf a n else [(a, n)]) c 0

/-- A fill, or a unit of it, moves n bytes from its POS on; a fault is held, an absent page halts it (R286, R287). -/
def fillMove (c : Channel) (core : Core) (i : Fin 16) (slot n : Nat) : Channel × Nat × Bool :=
  let x := c.cores[core].esk.ctxs[i]
  let s := x.slot slot
  let (c, k, err) := fillBytes c (s.fillBase + s.pos) n (x.slotAddr slot + s.pos)
  let c := c.modCtx core i fun y => y.modSlot slot fun s => { s with pos := s.pos + k }
  match err with
  | none => (c, k, true)
  | some e =>
    let c := c.sees e
    match e.kind with
    | .absent a =>
      ((c.cachePage (a / 2 ^ 21)).modCtx core i fun y => y.modSlot slot fun s => { s with halted := some (s.pos, a), haltedOnce := true }, k, false)
    | .guard a _ => (holdFault c core i slot 0x14 a, k, false)
    | .unmapped a _ => (holdFault (c.cachePage (a / 2 ^ 21)) core i slot 0x14 a, k, false)
    | .frame a _ =>
      let c := c.cachePage (a / 2 ^ 21)
      (holdFault { c with agd := { c.agd with pterr := true } } core i slot 0x14 a, k, false)
    | .ue a => (holdFault (c.noteUe a false) core i slot 0x16 a, k, false)
    | _ => (c, k, false)

/-- A write of a fill into its slot met an uncorrectable word in part: its st.prefetch ends with status 0x16 (13 R296). -/
def Channel.settleFill (c : Channel) (f : Option Running) : Channel :=
  match c.poisonHit with
  | none => c
  | some k =>
    let c := c.landed.noteUe k false
    match f with
    | some r => c.finish r { status := 0x16, info := BitVec.ofNat 64 k }
    | none => c

/-- FILL_LANDED: the bytes of a fill are in their slot (R280, R281), or the fill meets a fault or an absent page. -/
def fillLanded (c : Channel) (core : Core) (i : Fin 16) (slot : Nat) : Channel :=
  let c := c.landed
  let x := c.cores[core].esk.ctxs[i]
  let s := x.slot slot
  if s.st ≠ .filling || s.halted.isSome || x.frozen then c
  else
    let f := c.filler core i slot
    let (c, k, landed) := fillMove c core i slot (s.fillSpan - s.pos)
    let c := c.eskCount core k 0
    let c :=
      if !landed then c
      else
        let t := c.cores[core].esk.ctxs[i].slot slot
        let c := c.modCtx core i fun y => y.modSlot slot fun s => { s with st := .full, filler := none }
        let c := fillSignal c core i slot
        match f with
        | some r => if r.result.isNone then c.finish r (fillResult t false) else c
        | none => c
    c.settleFill f

/-- The running command of a source blocks it: halted on a page, waiting for its slot, or for acknowledgements. -/
def Running.blocked (r : Running) : Bool :=
  r.halted.isSome || r.held.isSome || (r.cmd.opc == 0x33 && r.begun.isNone && r.result.isNone)

/-- The fill of a st.prefetch is halted on a page. -/
def Channel.fillHalted (c : Channel) (core : Core) (r : Running) : Bool :=
  c.cores[core].esk.ctxs.toList.any fun x => x.slots.any fun s => s.filler == some r.src && s.halted.isSome

/-- A helper core's Esker has nothing to start (R283): every queue is empty or blocked, and so is its input. -/
def helperIdle (c : Channel) (h : Core) : Bool :=
  c.running.all (fun r => srcEngine r.src != some (.esker h) || r.blocked || c.fillHalted h r) &&
  (c.inputs.all (fun p => p.1 != .esker h) || (c.findRun (.input (.esker h))).isSome) &&
  (List.finRange 160).all fun q =>
    queueEngine q.val != some (.esker h) || !c.headReady q || (c.findRun (.queue q)).isSome

/-- HELPER_UNIT (R283): the next untaken 4 KiB unit of a fill is moved by a helper, or by the issuing core itself. -/
def helperUnit (c : Channel) (core : Core) (i : Fin 16) (slot : Nat) (h : Core) : Channel :=
  let c := c.landed
  let x := c.cores[core].esk.ctxs[i]
  let s := x.slot slot
  if x.mode = .native && s.st == .filling && s.help && s.halted.isNone && decide (s.pos < s.fillSpan) && !x.frozen
      && !c.isFrozen (.engine (.esker h)) && (h == core || (x.mask.getLsbD h.val && helperIdle c h)) then
    let f := c.filler core i slot
    let (c, k, done) := fillMove c core i slot (min (4096 - s.pos % 4096) (s.fillSpan - s.pos))
    let c := c.eskCount h k 0
    let c :=
      if done && h != core then
        (c.modCtx core i fun y => y.modSlot slot fun s => { s with helped := s.helped + 1 }).modCore h
          fun k => { k with esk := { k.esk with helpTotal := satAdd k.esk.helpTotal 1 } }
      else c
    c.settleFill f
  else c

/-- RING_RELEASE (R282). -/
def ringRelease (c : Channel) (core : Core) (i : Fin 16) : Channel :=
  c.modCtx core i fun x => if x.mode = .ring then ringAdvance 16 x else x

/-- Members of a rotation group in ascending core order (R284). -/
def Ctx.group (x : Ctx) : List Core := (List.finRange 8).filter fun k => x.mask.getLsbD k.val

/-- The predecessor of a core in its group: the member before it, the last for the first. -/
def Ctx.pred (x : Ctx) (core : Core) : Core :=
  let g := x.group
  let p := (g.idxOf core + g.length - 1) % g.length
  g.getD p core

def Ctx.cur (x : Ctx) : Nat := x.steps.toNat % 2
def Ctx.nxt (x : Ctx) : Nat := 1 - x.cur
def Ctx.lastStep (x : Ctx) : Bool := x.rounds != 0 && x.steps + 1 == x.rounds

/-- ROTATE_PUSH (R285): CUR copied into the predecessor's NXT. An uncorrectable word of CUR faults the slot it was
pushed to (R287 read for a push, log 107). -/
def rotatePush (c : Channel) (core : Core) (i : Fin 16) : Channel :=
  let x := c.cores[core].esk.ctxs[i]
  let p := x.pred core
  let y := c.cores[p].esk.ctxs[i]
  if x.mode = .rotate && y.mode == .rotate && !x.frozen && !y.frozen && !x.cancelling && x.started && !x.pushed
      && !x.lastStep && (x.slot x.cur).st == .full && !(x.slot x.cur).cancelAfter && (y.slot y.nxt).st == .empty
      && y.steps == x.steps && p != core then
    let from_ := x.slotAddr x.cur
    let n := x.size.toNat
    match c.badIn from_ n false with
    | some a => (holdFault (c.noteUe a false) p i y.nxt 0x16 a).modCtx core i fun t => { t with pushed := true }
    | none =>
      let c := c.wr (y.slotAddr y.nxt) (c.rd from_ n)
      let c := c.eskCount core n 0
      (c.modCtx p i fun t => t.modSlot y.nxt fun s => { s with st := .full }).modCtx core i fun t => { t with pushed := true }
  else c

/-- ROTATE_SWAP (R285): CUR and NXT exchange roles. -/
def rotateSwap (c : Channel) (core : Core) (i : Fin 16) : Channel :=
  let x := c.cores[core].esk.ctxs[i]
  if x.mode = .rotate && !x.frozen && x.pushed && !x.lastStep && decide (x.ruse.toNat ≤ (x.slot x.cur).done)
      && (x.slot x.nxt).st == .full then
    (c.modCtx core i fun t =>
      { (t.modSlot x.cur fun _ => {}).modSlot x.nxt (fun _ => { st := .full }) with
        steps := t.steps + 1, pushed := false }).semAdd x.fullsem 1
  else c

/-- One context cancelled (R288): CANCELLING until no reader of it runs. -/
def Ctx.cancel (x : Ctx) : Ctx :=
  let slots := x.slots.map fun s =>
    match s.st with
    | .filling | .full | .faulted =>
      if 0 < s.runningNow then { s with cancelAfter := true } else ({ st := .cancelled } : Slot)
    | _ => s
  { x with
    slots := slots, order := [], heldOrder := [], cancelling := true, pushed := false, started := false
    head := if x.mode = .ring then x.tail else x.head }

/-- The incomplete st.prefetch commands of a context. -/
def Channel.prefetches (c : Channel) (core : Core) (i : Fin 16) : List Running :=
  c.running.filter fun r => srcEngine r.src == some (.esker core) && r.cmd.opc == 0x33 && r.result.isNone &&
    bits r.cmd.a1.toNat 3 0 == i.val

/-- Cancels one context of a core: the channel, prefetches ended, held faults discarded. A FROZEN context keeps its
registers (R287). -/
def cancelCtx (c : Channel) (core : Core) (i : Fin 16) : Channel × Nat × Nat :=
  let x := c.cores[core].esk.ctxs[i]
  if x.mode = .off || x.frozen then (c, 0, 0)
  else
    let ps := c.prefetches core i
    let held := x.heldCount
    let c := ps.foldl (fun c r => c.finish r { status := 0x19 }) c
    ((c.modCtx core i Ctx.cancel).dropHeld core held, ps.length, held)

/-- st.cancel (R288, R289, Table 12.3): it completes at once, or when the last reader of its contexts does. -/
def stCancel (w : Wk) (r : Running) : Wk :=
  let core := runCore r
  let (c, n, h) := (w.c.cancelTargets core r.cmd.a0.toNat).foldl (fun (c, n, h) (k, i) =>
    let (c, a, b) := cancelCtx c k i
    (c, n + a, h + b)) (w.c, 0, 0)
  let r := { r with held := some { info := BitVec.ofNat 64 (n % 2 ^ 16 + 2 ^ 16 * (h % 2 ^ 16)) } }
  { w with c := cancelDone (c.setRun r) r }

/-! ### Meanings -/

/-- ST_COPY. -/
def execStCopy (ch : Ch) (src : Src) (s : State) : Host.Outcome State Fault Refusal :=
  .next (onCoreRun s ch src 0x30 fun w r => productWith w r (stCopy w r))

/-- ST_GATHER. -/
def execStGather (ch : Ch) (src : Src) (s : State) : Host.Outcome State Fault Refusal :=
  .next (onCoreRun s ch src 0x31 fun w r => productWith w r (stGatherScatter false w r))

/-- ST_SCATTER. -/
def execStScatter (ch : Ch) (src : Src) (s : State) : Host.Outcome State Fault Refusal :=
  .next (onCoreRun s ch src 0x32 fun w r => productWith w r (stGatherScatter true w r))

/-- ST_PREFETCH. -/
def execStPrefetch (ch : Ch) (src : Src) (s : State) : Host.Outcome State Fault Refusal :=
  .next (onRun s ch src 0x33 fun w r => productWith w r (stPrefetch w r))

/-- ST_CANCEL. -/
def execStCancel (ch : Ch) (src : Src) (s : State) : Host.Outcome State Fault Refusal :=
  .next (onRun s ch src 0x34 stCancel)

/-- ESK_CTX_CONFIG. -/
def execEskCtxConfig (ch : Ch) (core : Core) (i : Fin 16) (r : CtxReg) (w : RegWrite) (s : State) :
    Host.Outcome State Fault Refusal :=
  .next (if s.chans[ch].up && !s.chans[ch].isFrozen .host then s.modCh ch fun c => eskCtxConfig c core i r w else s)

/-- RING_RELEASE. -/
def execRingRelease (ch : Ch) (core : Core) (i : Fin 16) (s : State) : Host.Outcome State Fault Refusal :=
  .next (if s.chans[ch].up then s.modCh ch fun c => ringRelease c core i else s)

/-- ROTATE_SWAP. -/
def execRotateSwap (ch : Ch) (core : Core) (i : Fin 16) (s : State) : Host.Outcome State Fault Refusal :=
  .next (if s.chans[ch].up then s.modCh ch fun c => rotateSwap c core i else s)

end Sys2Proof.Machine
end

