-- ==== Sys2Proof/Machine/Ablation.lean ====
section
/-!
DEFINITION. The Ablation engines (09): region headers, which row blocks an engine owns, optimiser programs, and the
meanings of ab.update, ab.freeze and ab.scatter.
-/
namespace Sys2Proof.Machine

open Sys2Proof

/-! ### Region headers (Table 9.1) -/

structure Region where
  addr : Nat
  md : List Nat
  ad : List Nat
  bd : List Nat
  fwd : Nat
  trd : Nat
  fseed : W64
  ver : W32
  pver : W32
  copyver : W32
  cur : Nat
  pend : Bool
  bad : Bool
  stale : Bool
  uexp : Int
  layer : Nat
  hpb : Nat
  grid : W32
  ggroup : W16
  deriving DecidableEq, Repr

def Region.parse (a : Nat) (b : List Byte) : Region :=
  let f := fld b 84 1
  { addr := a
    md := [fld b 0 6, fld b 8 6], ad := [fld b 16 6, fld b 24 6], bd := [fld b 32 6, fld b 40 6]
    fwd := fld b 48 6, trd := fld b 56 6, fseed := BitVec.ofNat 64 (fld b 64 8)
    ver := BitVec.ofNat 32 (fld b 72 4), pver := BitVec.ofNat 32 (fld b 76 4), copyver := BitVec.ofNat 32 (fld b 80 4)
    cur := f % 2, pend := f.testBit 1, bad := f.testBit 2, stale := f.testBit 3
    uexp := Fmt.signed 8 (fld b 85 1)
    layer := fld b 86 2, hpb := fld b 88 6
    grid := BitVec.ofNat 32 (fld b 96 4), ggroup := BitVec.ofNat 16 (fld b 100 2) }

/-- Reads a header that a command names (R439). -/
def Channel.region (c : Channel) (a : Nat) : Ck Region := do
  let b ← c.getBlock a 128 64 0xF
  pure (Region.parse a b)

/-- What ab.update takes from the header at its start: byte 84 and UEXP (R204, R213). -/
def Channel.regionStart (c : Channel) (a : Nat) : Nat := c.rdN (a + 84) 2

/-- The header with byte 84 and UEXP as they stood at the start of the command. -/
def Region.atStart (h : Region) (v : Nat) : Region :=
  { h with cur := v % 2, pend := v.testBit 1, bad := v.testBit 2, stale := v.testBit 3, uexp := Fmt.signed 8 (bits v 15 8) }

/-! ### Ownership (R202) -/

/-- The stack that holds an address (13 R291). -/
def stackOf (a : Nat) : Option Nat := if a < dramSize then some (a / 0x900000000) else none

/-- The stack of the first byte of block row r of plane p. -/
def Channel.rowOwner (c : Channel) (d : Desc) (p r : Nat) : Option Nat :=
  stackOf (c.tr (if d.strided then d.rowAddr p (32 * r) else d.base + d.blockIdx p r 0 * d.bb))

/-- The rows of a master that an engine owns. -/
def Channel.ownRows (c : Channel) (d : Desc) (a : Nat) : List Nat :=
  (List.range d.er).filter fun i => c.rowOwner d 0 ((i + d.orgr) / 32) == some a

/-- The engines whose stack holds part of the region a command names (02 R36): the owners of its row blocks; engine 0
where nothing can be owned, which then reports why. -/
def Channel.abOwners (c : Channel) (k : Command) : List Stack :=
  let d : Option Desc :=
    match k.opc.toNat with
    | 0x52 => (c.desc (bits k.a2.toNat 47 0)).toOption
    | o =>
      let ha := bits (if o = 0x51 then k.a0 else k.a1).toNat 47 0
      let h := Region.parse ha (c.rd ha 128)
      let slot := if o = 0x51 && h.pend then 1 - h.cur else h.cur
      (c.desc (h.md.getD slot 0)).toOption
  let rows : List (Nat × Nat) :=
    match d with
    | none => []
    | some d =>
      if k.opc = 0x52 then
        match c.blockList (bits k.a1.toNat 47 0) with
        | .ok es => es.map fun e => (e.1, e.2.1)
        | .error _ => []
      else (List.range d.br).map fun r => (0, r)
  let own := rows.filterMap fun (p, r) => d.bind fun d => c.rowOwner d p r
  match (List.finRange 4).filter fun a => own.contains a.val with
  | [] => [0]
  | l => l

/-- The engine of a running ab.* command. -/
def ablOf (r : Running) : Stack :=
  match srcEngine r.src with
  | some (.ablation a) => a
  | _ => 0

/-- Blocks of the given rows of a two-dimensional tensor, in block order. -/
def Desc.blocksOfRows (d : Desc) (rows : List Nat) : List Nat :=
  ((rows.map fun i => (i + d.orgr) / 32).dedup).flatMap fun r => (List.range d.bc).map fun k => d.blockIdx 0 r k

/-- Block rows of a narrow tensor given to the owner of the row they begin at. -/
def Desc.narrowBlocks (d : Desc) (rows : List Nat) : List Nat :=
  ((List.range d.br).filter fun r => rows.contains (32 * r)).flatMap fun r =>
    (List.range d.bc).map fun k => d.blockIdx 0 r k

/-! ### Optimiser programs (R207, R208) -/

/-- An operation of Ablation's set. -/
def abOp (s : Stage) : Bool :=
  (decide (0x01 ≤ s.op) && decide (s.op ≤ 0x0C) && (s.op != 0x0B || decide (s.md ≤ 3))) ||
  s.op == 0x10 || s.op == 0x11 || s.op == 0x12 || (s.op == 0x18 && s.md % 2 == 1)

/-- Temporaries are written before they are read. -/
def tempsOk : List Stage → List Nat → Bool
  | [], _ => true
  | s :: rest, t => s.sources.all (fun x => !decide (x < 12) || t.contains x) && tempsOk rest (s.dst :: t)

/-- The rules of R207 on the words of a program. -/
def programOk (ws : List Stage) (hasA hasB : Bool) : Bool :=
  let stores (k : Nat) : Nat := (ws.filter fun s => s.dst == k).length
  ws.all (fun s => abOp s && s.sources.all (· != 19) && (decide (s.dst < 13) || s.dst == 14 || s.dst == 15)) &&
  tempsOk ws [] && stores 12 == 1 && stores 14 == b2n hasA && stores 15 == b2n hasB

/-- Runs a program on one element: what each destination holds after. -/
def runProgram (ws : List Stage) (src : Nat → W32) (rnd : Nat → W32) : List (Nat × W32) :=
  (ws.zipIdx.foldl (fun env (s, i) =>
    let v (x : Nat) : W32 := if x < 12 then (env.lookup x).getD 0 else src x
    (s.dst, if s.op = 0x18 then rnd i else s.fn (v s.sa) (v s.sb) (v s.sc)) :: env) ([] : List (Nat × W32)))

/-! ### ab.update (R204 to R213) -/

/-- The hyperparameter block (Table 9.2). -/
structure Hyper where
  rw : Rctl
  ra : Rctl
  rb : Rctl
  rot : Bool
  seed : W64
  tid : W32
  rotseed : W64
  gscale : W32
  lr : W32
  cs : List W32
  deriving DecidableEq, Repr

def Hyper.parse (b : List Byte) : Hyper :=
  { rw := Rctl.parse (fld b 0 2), ra := Rctl.parse (fld b 2 2), rb := Rctl.parse (fld b 4 2)
    rot := (fld b 6 1).testBit 0
    seed := BitVec.ofNat 64 (fld b 8 8), tid := BitVec.ofNat 32 (fld b 16 4)
    rotseed := BitVec.ofNat 64 (fld b 24 8)
    gscale := BitVec.ofNat 32 (fld b 32 4), lr := BitVec.ofNat 32 (fld b 36 4)
    cs := (List.range 12).map fun i => BitVec.ofNat 32 (fld b (40 + 4 * i) 4) }

/-- Applies Qᵀ to one segment: H, 1/16, then D (R206). -/
def unrotate (seed : W64) (col : Nat) (xs : List W32) : List W32 := flipSigns seed col (sixteenth (hadamard xs))

/-- Removes the rotation of a row, segment by segment. -/
def unrotateRow (seed : W64) : Nat → Nat → List W32 → List W32
  | 0, _, _ => []
  | n + 1, col, xs => unrotate seed col (xs.take 256) ++ unrotateRow seed n (col + 256) (xs.drop 256)

/-- The gradient operand of one row (R206); `col` is its first logical column. -/
def gradRow (h : Hyper) (col : Nat) (row : Array Val) : List W32 :=
  let x := row.toList.map Num.to32
  let x := if h.rot then unrotateRow h.rotseed ((x.length + 255) / 256) col x else x
  x.map fun v => Num.fmul v h.gscale

/-- The F32 results of a program over a matrix: W′, A′ and B′ by row and column. -/
structure UpdVals where
  w : Plane
  a : Plane
  b : Plane

/-- The rows an engine takes as its input, in the order it takes them, and their length: row-major, the place of an
element among them choosing its lane for every store of it (08 R185; log 115). -/
structure InOrder where
  rows : List Nat
  cols : Nat

/-- Random words of one store by element: under lane mode each element's lane is that of its place in the engine's input
order (R209, 08 R185). -/
def storeWords (rc : Rctl) (u : Sas.LaneUnit) (key : Nat × Nat → Nat) (o : InOrder) (lanes : List (BitVec 128)) (ctr : Nat) :
    (Nat × Nat → Nat) × List (BitVec 128) × Nat :=
  if rc.mode != 1 then (fun _ => 0, lanes, ctr)
  else if rc.keyed then (key, lanes, ctr)
  else
    let n := o.rows.length * o.cols
    let (ws, l) := Sas.laneDraw u 1 n 0 ctr lanes
    let ws := ws.toArray
    (fun x => if o.rows.contains x.1 && decide (x.2 < o.cols) then ws.getD (o.rows.idxOf x.1 * o.cols + x.2) 0 else 0,
      l, ctr + n)

/-- What the stores of ab.update have done so far. -/
structure AbSt where
  c : Channel
  lanes : List (BitVec 128)
  ctr : Nat
  nf : Nat := 0
  clamp : Nat := 0
  pois : Bool := false

/-- Writes wide elements one by one, adjoining ones together (R257). -/
def Channel.wrElems (c : Channel) (d : Desc) (es : List ((Nat × Nat × Nat) × Nat)) : Channel :=
  (coalesce (es.map fun e => (d.elemAddr e.1, toBytes (d.fmt.width / 8) e.2))).foldl (fun c x => c.wrV x.1 x.2) c

/-- Stores a matrix of F32 results over the rows an engine owns: rounded to B16, or frozen (R209, R210). -/
def abStore (s : AbSt) (u : Sas.LaneUnit) (rc : Rctl) (key : Nat × Nat → Nat) (o : InOrder) (d : Desc) (rows : List Nat)
    (m : Plane) : AbSt :=
  let (ws, lanes, ctr) := storeWords rc u key o s.lanes s.ctr
  if d.fmt.isWide then
    let els := rows.flatMap fun i => (List.range d.ec).map fun j => (i, j)
    let outs := els.map fun x => (x, (Num.to16 (modeWith rc.toMode (ws x)) (m.at x.1 x.2)).bits)
    { s with
      c := s.c.wrElems d (outs.map fun o => ((0, o.1.1, o.1.2), o.2.toNat))
      lanes := lanes, ctr := ctr
      nf := s.nf + (outs.filter fun o => Num.nonFinite (Num.dec16 o.2)).length }
  else
    (d.narrowBlocks rows).foldl (fun s n =>
      let xs := d.linesOf #[m] n
      let wl := splitBlocks d.bs16 ((List.range 32).map fun l => (List.range 32).map fun k =>
        let x := d.coord n l k
        ws (x.getD 0 0, x.getD 1 0))
      let z := freezeBlocks d.fmt rc.toMode (fun _ => 0) (splitBlocks d.bs16 xs) (fun b => wl.getD b [])
      { s with
        c := s.c.wrSb d n (z.sb d.bs16)
        nf := s.nf + ((xs.flatten.filterMap id).filter Num.nonFinite).length
        clamp := s.clamp + (z.blks.filter (·.clamp)).length
        pois := s.pois || z.blks.any (·.poison) }) { s with lanes := lanes, ctr := ctr }

/-- UNORM and WNORM over the superblocks written (R211). -/
def updNorms (d : Desc) (rows : List Nat) (old new : Plane) : Nat × Nat :=
  let per := (d.blocksOfRows rows).map fun n =>
    let els := (List.range 32).flatMap fun l => (List.range 32).filterMap fun k =>
      if ((d.validLines n).getD l []).getD k false then
        let x := d.coord n l k
        if rows.contains (x.getD 0 0) then some (old.at (x.getD 0 0) (x.getD 1 0), new.at (x.getD 0 0) (x.getD 1 0)) else none
      else none
    let els := els.filter fun e => !Num.nonFinite e.2
    let sq (v : Val) : Val := Num.mul v v
    (normOf (sumVals (els.map fun e => sq (Num.sub e.2 e.1))), normOf (sumVals (els.map fun e => sq e.2)))
  ((per.map (·.1)).sum, (per.map (·.2)).sum)

/-- Two descriptors of a moment: both or neither (R203). -/
def Channel.moment (c : Channel) (r : Running) (h : Region) (l : List Nat) (shape : List Nat) : Ck (Option (Desc × Desc)) := do
  match l with
  | [x, y] =>
    if x = 0 && y = 0 then pure none
    else
      need (x != 0 && y != 0) (.fault 0xF h.addr)
      let d ← c.desc x r.copies
      let e ← c.desc y r.copies
      need (d.fmt == e.fmt && (d.fmt == .f8a || d.fmt == .f8b || d.fmt == .i8 || d.fmt == .b16)) (.fault 0xF d.addr)
      need (d.nd == 2 && d.dims == shape) (.fault 0xF d.addr)
      need (e.nd == 2 && e.dims == shape) (.fault 0xF e.addr)
      pure (some (d, e))
  | _ => pure none

/-- Reads an optimiser program (R207). -/
def Channel.program (c : Channel) (a : Nat) (hasA hasB : Bool) : Ck (List Stage) := do
  let b ← c.getBlock a 16 64 0xF
  let n := fld b 0 1 % 64
  need (decide (1 ≤ n) && decide (n ≤ 32)) (.fault 0xF a)
  let t ← c.get (a + 16) (8 * n)
  let ws := (List.range n).map fun i => Stage.parse (fld t (8 * i) 8)
  need (programOk ws hasA hasB) (.fault 0xF a)
  pure ws

/-- What ab.update takes: the region's header as it was and as the command started, its master, moments and gradient,
the program and the hyperparameters. -/
structure UpdOps where
  h0 : Region
  h : Region
  m : Desc × Desc
  am : Option (Desc × Desc)
  bm : Option (Desc × Desc)
  ws : List Stage
  hp : Hyper
  grad : Desc

/-- The descriptor of a slot. -/
def pickSlot (x : Desc × Desc) (slot : Nat) : Desc := if slot = 0 then x.1 else x.2

/-- The checks of ab.update (R203 to R207), and the channel as they leave it. -/
def updOps (c : Channel) (r : Running) : Ck (UpdOps × Channel) := do
  let e := ablOf r
  let ha := bits r.cmd.a1.toNat 47 0
  let hpa := bits r.cmd.a3.toNat 47 0
  let h0 ← c.region ha
  let h := h0.atStart (r.begun.getD (c.regionStart ha))
  need (!h.stale) (.fault 0xF ha)
  let m0 ← c.desc (h.md.getD 0 0) r.copies
  let m1 ← c.desc (h.md.getD 1 0) r.copies
  need (m0.fmt == .b16 && m0.nd == 2) (.fault 0xF m0.addr)
  need (m1.fmt == .b16 && m1.nd == 2 && m1.dims == m0.dims) (.fault 0xF m1.addr)
  let am ← c.moment r h h.ad m0.dims
  let bm ← c.moment r h h.bd m0.dims
  let ws ← c.program (bits r.cmd.a0.toNat 47 0) am.isSome bm.isSome
  let hb ← c.getBlock hpa 128 64 0xF
  let hp := Hyper.parse hb
  need (hp.rw.ok && hp.ra.ok && hp.rb.ok) (.fault 0xF hpa)
  let g ← c.desc (bits r.cmd.a2.toNat 47 0) r.copies
  need ((g.fmt == .f32 || g.fmt == .b16 || g.fmt == .f8a || g.fmt == .f8b) && g.nd == 2 && g.dims == m0.dims)
    (.fault 0xF g.addr)
  need (!hp.rot || (m0.ec % 256 == 0 && g.goff.getD 1 0 % 256 == 0)) (.fault 0xF hpa)
  let pick := pickSlot
  let mc := pick (m0, m1) h.cur
  let mn := pick (m0, m1) (1 - h.cur)
  let rows := c.ownRows mc e.val
  let rd (d : Desc) (c : Channel) : Ck Channel := c.touch d false (d.blocksOfRows rows)
  let wr (d : Desc) (c : Channel) : Ck Channel :=
    c.touch d true (if d.fmt.isWide then d.blocksOfRows rows else d.narrowBlocks rows)
  let c ← rd mc c
  let c ← rd g c
  let c ← [am, bm].foldlM (fun c m => match m with | some x => rd (pick x h.cur) c | none => pure c) c
  let c ← wr mn c
  let c ← [am, bm].foldlM (fun c m => match m with | some x => wr (pick x (1 - h.cur)) c | none => pure c) c
  pure (⟨h0, h, (m0, m1), am, bm, ws, hp, g⟩, c)

/-- ab.update on checked operands (R204 to R213). -/
def updRun (w : Wk) (r : Running) (o : UpdOps) : Wk × Result :=
  let ⟨h0, h, m, am, bm, ws, hp, g⟩ := o
  let c := w.c
  let e := ablOf r
  let ha := bits r.cmd.a1.toNat 47 0
  let pick := pickSlot
  let mc := pick m h.cur
  let mn := pick m (1 - h.cur)
  let rows := c.ownRows mc e.val
  let c := ((pick · h.cur) <$> (am.toList ++ bm.toList)).foldl (fun c d => c.countPois d (d.blocksOfRows rows))
    (c.countPois g (g.blocksOfRows rows))
  let W := c.plane mc 0
  let G : Array (List W32) := (c.plane g 0).map (gradRow hp (g.goff.getD 1 0))
  let mom (m : Option (Desc × Desc)) : Option Plane := m.map fun x => c.plane (pick x h.cur) 0
  let A := mom am
  let B := mom bm
  let lre := Num.fscl hp.lr h.uexp
  let word (d : Nat) (i j : Nat) : Nat :=
    let (u, v) := mc.keyed [i, j]
    (Sas.keyedWord hp.seed r.step hp.tid (BitVec.ofNat 64 u) (BitVec.ofNat 32 v) (BitVec.ofNat 8 d)).toNat
  -- a moment the region does not have reads as a free value (log 3)
  let old (m : Option Plane) (i j : Nat) : W32 :=
    match m with
    | some p => Num.to32 (p.at i j)
    | none => Config.freeWord (w.ctr + i * mc.ec + j)
  let src (i j x : Nat) : W32 :=
    match x with
    | 12 => Num.to32 (W.at i j)
    | 13 => (G.getD i []).getD j 0
    | 14 => old A i j
    | 15 => old B i j
    | 16 => lre
    | 18 => 0x3F800000
    | x => if 20 ≤ x then hp.cs.getD (x - 20) 0 else 0
  let outs : Array (Array (List (Nat × W32))) := ((List.range mc.er).map fun i => ((List.range mc.ec).map fun j =>
    runProgram ws (src i j) (fun k => uniform (word (96 + k) i j))).toArray).toArray
  let out (k : Nat) : Plane := outs.map fun row => row.map fun o => Num.dec32 ((o.lookup k).getD 0)
  let u := LaneUnit.ablation e.val
  let s : AbSt := { c := c, lanes := c.engines[e].lanes, ctr := w.ctr + mc.er * mc.ec }
  let input : InOrder := ⟨(List.range mc.er).filter fun i => rows.contains i || rows.contains (i / 32 * 32), mc.ec⟩
  let s := abStore s u hp.rw (fun x => word 64 x.1 x.2) input mn rows (out 12)
  let s := match am with
    | some x => abStore s u hp.ra (fun y => word 65 y.1 y.2) input (pick x (1 - h.cur)) rows (out 14)
    | none => s
  let s := match bm with
    | some x => abStore s u hp.rb (fun y => word 66 y.1 y.2) input (pick x (1 - h.cur)) rows (out 15)
    | none => s
  let (un, wn) := updNorms mn rows W (s.c.plane mn 0)
  let (c, nm) := s.c.stats r.step h.layer [⟨128, 16, un⟩, ⟨144, 16, wn⟩]
  let bad := decide (0 < s.nf) || s.pois
  let c := c.putN (ha + 76) 4 (h0.ver + 1).toNat
  let b84 := c.rdN (ha + 84) 1
  let c := c.putN (ha + 84) 1 (b84 ||| (2 + 4 * b2n bad))
  let c := c.modEng e fun t => { t with
    updTotal := satAdd t.updTotal (rows.length * mc.ec), nfTotal := satAdd t.nfTotal s.nf
    nonfin := t.nonfin || bad, lanes := s.lanes }
  -- a region with BAD set is reported (R210, class 0x08)
  let c := if bad then c.reportFault 0x08 ha else c
  ({ w with c := c, ctr := s.ctr },
    { detail := BitVec.ofNat 16 (b2n bad + 2 * b2n h.pend), info := info2 s.nf s.clamp, nmev := nm })

/-- ab.update (R204 to R213). -/
def abUpdate (w : Wk) (r : Running) : Ck (Wk × Result) := do
  let (o, c) ← updOps w.c r
  pure (updRun { w with c := c } r o)

/-! ### ab.freeze (R219 to R221) -/

/-- A copy's descriptor: two-dimensional, reduction axis last, its shape and format. -/
def Channel.copyDesc (c : Channel) (copies : List (Nat × List Byte)) (a : Nat) (shape : List Nat) (ok : Fmt → Bool) :
    Ck (Option Desc) := do
  if a = 0 then pure none
  else
    let d ← c.desc a copies
    need (d.nd == 2 && !d.rax && d.dims == shape && ok d.fmt) (.fault 0xF a)
    pure (some d)

/-- Formats of a forward and of a transposed copy. -/
def fwdFmt (f : Fmt) : Bool := f.isNarrow || f == .mx4 || f == .mx8a || f == .mx8b
def trFmt : Fmt → Bool
  | .f8a | .f8b | .i8 | .f4 | .i4 | .f6a | .f6b | .b16 => true
  | _ => false

/-- Freezing without trackers or random words, under RNE with current scales. -/
def plainFreeze (d : Desc) (step : W32) : FzCfg :=
  { d := d, fmt := d.fmt.elem, unit := .thaw, core := 0, step := step
    fb := ⟨0, ⟨0, 0, false⟩, false, false, false, false, false, 0, 0, 0, 0, 0, 0⟩ }

/-- What ab.freeze takes: the region's header, its master, the copies to make and the superblocks of them that the engine
owns. -/
structure FrzOps where
  h : Region
  m : Desc
  fd : Option Desc
  td : Option Desc
  fns : List Nat
  tns : List Nat

/-- The checks of ab.freeze (R219, R220), and the channel as they leave it. -/
def frzOps (c : Channel) (copies : List (Nat × List Byte)) (e : Stack) (ha a1 a2 : Nat) (seed : W64) :
    Ck (FrzOps × Channel) := do
  let h ← c.region ha
  let slot := if h.pend then 1 - h.cur else h.cur
  let m ← c.desc (h.md.getD slot 0) copies
  need (m.fmt == .b16 && m.nd == 2) (.fault 0xF m.addr)
  need (a1 != 0 || a2 != 0) (.fault 0xF ha)
  let fd ← c.copyDesc copies a1 [m.er, m.ec] fwdFmt
  let td ← c.copyDesc copies a2 [m.ec, m.er] trFmt
  let off := match fd with | some d => d.goff.getD 1 0 | none => 0
  need (seed == 0 || a1 == 0 || (m.ec % 256 == 0 && off % 256 == 0)) (.fault 0xF a1)
  let rows := c.ownRows m e.val
  let c ← c.touch m false (m.blocksOfRows rows)
  let fns := match fd with | some d => d.narrowBlocks rows | none => []
  -- block columns of the transposed copy, by the master row they begin at
  let tns := match td with
    | some d => (List.range d.nblocks).filter fun n => rows.contains (32 * (d.blockAt n).2.2 - d.orgc)
    | none => []
  let c ← match fd with | some d => c.touch d true fns | none => pure c
  let c ← match td with | some d => c.touch d true tns | none => pure c
  pure (⟨h, m, fd, td, fns, tns⟩, c)

/-- ab.freeze on checked operands, by engine e (R219 to R221). -/
def frzRun (c : Channel) (step : W32) (e : Stack) (ha a1 a2 : Nat) (seed : W64) (o : FrzOps) : Channel × Result :=
  let ⟨h, m, fd, td, fns, tns⟩ := o
  let off := match fd with | some d => d.goff.getD 1 0 | none => 0
  let W := c.plane m 0
  let T := W.flip m.ec
  let F : Plane := if seed = 0 then W else W.map fun row =>
    ((rotateRow seed ((row.size + 255) / 256) off (row.toList.map Num.to32)).map Num.dec32).toArray
  let run (c : Channel) (d : Option Desc) (p : Plane) (ns : List Nat) : Channel × FzAcc :=
    match d with
    | none => (c, {})
    | some d =>
      let g := plainFreeze d step
      let a := g.pass c (d.linesOf #[p]) ns [] 0
      (g.write c a false, a)
  let (c, af) := run c fd F fns
  let (c, at_) := run c td T tns
  let c := ((c.putN (ha + 48) 8 a1).putN (ha + 56) 8 a2).putN (ha + 64) 8 seed.toNat
  let c := c.putN (ha + 80) 4 (if h.pend then h.pver else h.ver).toNat
  let c := c.modEng e fun t => { t with frzTotal := satAdd t.frzTotal ((c.ownRows m e.val).length * m.ec) }
  let pois := af.pois + at_.pois
  let clamp := af.clamp + at_.clamp
  (c,
    { detail := BitVec.ofNat 16
        (b2n (decide (0 < pois)) + 2 * b2n (decide (0 < clamp)) + 4 * b2n (decide (0 < af.zblk + at_.zblk)))
      info := info2 pois clamp })

/-- ab.freeze of the header at ha by engine e (R219, R220), with the descriptor copies the command holds. -/
def abFreezeOn (c : Channel) (copies : List (Nat × List Byte)) (step : W32) (e : Stack) (ha a1 a2 : Nat) (seed : W64) :
    Ck (Channel × Result) := do
  let (o, c) ← frzOps c copies e ha a1 a2 seed
  pure (frzRun c step e ha a1 a2 seed o)

/-- ab.freeze (R219). -/
def abFreeze (w : Wk) (r : Running) : Ck (Wk × Result) := do
  let (c, res) ← abFreezeOn w.c r.copies r.step (ablOf r) (bits r.cmd.a0.toNat 47 0) (bits r.cmd.a1.toNat 47 0)
    (bits r.cmd.a2.toNat 47 0) r.cmd.a3
  pure ({ w with c := c }, res)

/-! ### ab.scatter (R222 to R224) -/

/-- One entry: every valid element of the destination block takes the source block's value added, PADV where the source
position is padding (R222, 11 R256); how many non-finite values were written. -/
def scatterOne (s d : Desc) (c : Channel) (m n : Nat) : Channel × Nat :=
  let sv := s.grid Num.zero (c.rdVals s m).1
  let so := s.grid false (s.validLines m)
  let dv := (c.rdVals d n).1
  let els := (List.range 32).flatMap fun l => (List.range 32).filterMap fun k =>
    let (gi, gj) := if d.rax then (k, l) else (l, k)
    if ((d.validLines n).getD l []).getD k false then
      let x := if (so.getD gi []).getD gj false then (sv.getD gi []).getD gj Num.zero else Num.dec32 s.padv
      some (d.posOf (d.coord n l k), (Num.to32 (Num.add ((dv.getD l []).getD k Num.zero) x)).toNat)
    else none
  (c.wrElems d els, (els.filter fun e => Num.nonFinite (Num.dec32 (BitVec.ofNat 32 e.2))).length)

/-- What ab.scatter takes: source, destination, and the entries of its list that the engine owns, with their places. -/
structure ScatOps where
  s : Desc
  d : Desc
  mine : List ((Nat × Nat × Nat) × Nat)

/-- The block of the destination that an entry names. -/
def Desc.entry (d : Desc) (x : Nat × Nat × Nat) : Nat := d.blockIdx x.1 x.2.1 x.2.2

/-- The checks of ab.scatter (R222), and the channel as they leave it. -/
def scatOps (c : Channel) (r : Running) : Ck (ScatOps × Channel) := do
  let e := ablOf r
  let la := bits r.cmd.a1.toNat 47 0
  let s ← c.desc (bits r.cmd.a0.toNat 47 0) r.copies
  let d ← c.desc (bits r.cmd.a2.toNat 47 0) r.copies
  need (!s.fmt.isMx) (.fault 0xF s.addr)
  need (d.fmt == .f32) (.fault 0xF d.addr)
  let es ← c.blockList la
  need (es.length == s.nblocks && es.all d.hasBlock) (.fault 0xA la)
  let mine := es.zipIdx.filter fun (x, _) => c.rowOwner d x.1 x.2.1 == some e.val
  let c ← c.touch s false (mine.map (·.2))
  let c ← c.touch d false (mine.map fun x => d.entry x.1)
  let c ← c.touch d true (mine.map fun x => d.entry x.1)
  pure (⟨s, d, mine⟩, c)

/-- ab.scatter on checked operands (R222). -/
def scatRun (c : Channel) (r : Running) (o : ScatOps) : Channel × Result :=
  let ⟨s, d, mine⟩ := o
  let e := ablOf r
  let c := c.countPois s (mine.map (·.2))
  let (c, nf) := mine.foldl (fun (c, nf) (x, i) =>
    let (c, k) := scatterOne s d c i (d.entry x)
    (c, nf + k)) (c, 0)
  let reps := repeats (mine.map (·.1))
  let c := c.modEng e fun t => { t with
    scatTotal := satAdd t.scatTotal mine.length, nfTotal := satAdd t.nfTotal nf
    nonfin := t.nonfin || decide (0 < nf), coll := t.coll || decide (0 < reps) }
  (c, { detail := BitVec.ofNat 16 (b2n (decide (0 < nf)) + 2 * b2n (decide (0 < reps))), info := info2 mine.length reps })

/-- ab.scatter (R222). -/
def abScatter (w : Wk) (r : Running) : Ck (Wk × Result) := do
  let (o, c) ← scatOps w.c r
  let (c, res) := scatRun c r o
  pure ({ w with c := c }, res)

/-! ### Meanings -/

/-- AB_UPDATE. -/
def execAbUpdate (ch : Ch) (src : Src) (s : State) : Host.Outcome State Fault Refusal :=
  .next (onRun s ch src 0x50 fun w r => endWith w r (abUpdate w r))

/-- AB_FREEZE. -/
def execAbFreeze (ch : Ch) (src : Src) (s : State) : Host.Outcome State Fault Refusal :=
  .next (onRun s ch src 0x51 fun w r => endWith w r (abFreeze w r))

/-- AB_SCATTER. -/
def execAbScatter (ch : Ch) (src : Src) (s : State) : Host.Outcome State Fault Refusal :=
  .next (onRun s ch src 0x52 fun w r => endWith w r (abScatter w r))

end Sys2Proof.Machine
end

