-- ==== Sys2Proof/Machine/Regions.lean ====
section
/-!
DEFINITION. The region list as Adori reads it (09), the stripe image of its slots (16 R366), and how an uncorrectable
word is classified (R355).
-/
namespace Sys2Proof.Machine

open Sys2Proof

/-- Header addresses of the valid entries of the region list. -/
def Channel.regionList (c : Channel) : List Nat :=
  (List.range c.abl.regCount.toNat).filterMap fun i =>
    let e := c.rdNA (c.abl.regBase.toNat + 8 * i) 8
    if e.testBit 48 then some (bits e 47 0) else none

def Channel.regionAt (c : Channel) (a : Nat) : Region := Region.parse a (c.rdA a 128)
def Channel.regions (c : Channel) : List Region := c.regionList.map c.regionAt

/-- A descriptor as Adori reads it: an uncorrectable word reads as all ones (13 R295); none that fails its check. -/
def Channel.descA (c : Channel) (a : Nat) : Option Desc :=
  let d := Desc.parse a (c.rdA a 128)
  if a = 0 || a % 64 != 0 || !inRegion a 128 || (d.check c.agd.mode).isSome then none else some d

/-- The descriptors of a region's slot: master, first and second moment, as far as it has them. -/
def Channel.slotDescs (c : Channel) (h : Region) (slot : Nat) : List Desc :=
  ([h.md, h.ad, h.bd].map fun l => l.getD slot 0).filterMap c.descA

/-- Physical ranges of a region's slot. -/
def Channel.slotRanges (c : Channel) (h : Region) (slot : Nat) : List (Nat × Nat) :=
  (c.slotDescs h slot).flatMap fun d => d.arrays.flatMap fun r => c.phys r.1 r.2

/-- An address lies in a range of the list. -/
def inRanges (rs : List (Nat × Nat)) (a : Nat) : Bool := rs.any fun r => decide (r.1 ≤ a) && decide (a < r.1 + r.2)

/-! ### The stripe image (R366) -/

def stripeUnit : Nat := 65536
def roundUnit (n : Nat) : Nat := (n + stripeUnit - 1) / stripeUnit * stripeUnit

/-- Spans of the image at version v, first address and bytes, in image order. -/
def Channel.imageSpans (c : Channel) (v : W32) : List (Nat × Nat) :=
  c.regions.flatMap fun h =>
    (c.slotDescs h (if h.ver = v then h.cur else 1 - h.cur)).map fun d => (d.base, d.span)

def Channel.imageLen (c : Channel) (v : W32) : Nat := ((c.imageSpans v).map fun s => roundUnit s.2).sum

/-- The bytes of memory behind unit j: an address and a length, zeros follow; none past the spans. -/
def unitIn : List (Nat × Nat) → Nat → Option (Nat × Nat)
  | [], _ => none
  | (a, n) :: rest, j =>
    let k := roundUnit n / stripeUnit
    if j < k then some (a + stripeUnit * j, min stripeUnit (n - stripeUnit * j)) else unitIn rest (j - k)

/-- Unit j of the image at version v. -/
def Channel.imageUnit (c : Channel) (v : W32) (j : Nat) : List Byte :=
  match unitIn (c.imageSpans v) j with
  | some (a, n) => padTo stripeUnit ((c.phys a n).flatMap fun r => c.rdA r.1 r.2)
  | none => List.replicate stripeUnit 0

def Channel.writeUnit (c : Channel) (v : W32) (j : Nat) (data : List Byte) : Channel :=
  match unitIn (c.imageSpans v) j with
  | some (a, n) => (c.wrV a (data.take n)).landed
  | none => c

/-- The units of the image at version v that hold a physical address. -/
def Channel.unitsAt (c : Channel) (v : W32) (a : Nat) : List Nat :=
  (List.range (c.imageLen v / stripeUnit)).filter fun j =>
    match unitIn (c.imageSpans v) j with
    | some (b, n) => inRanges (c.phys b n) a
    | none => false

/-! ### Uncorrectable words (R355) -/

/-- The stash region of a plan (10 R228). -/
def Plan.stashRange (p : Plan) : Nat × Nat := (p.stash, p.esize * (p.c + 1) + p.rsize * p.cr)

/-- The region list and the headers it names. -/
def Channel.headerRanges (c : Channel) : List (Nat × Nat) :=
  (c.abl.regBase.toNat, 8 * c.abl.regCount.toNat) :: c.regionList.map fun a => (a, 128)

/-- The descriptors of every region's slots. -/
def Channel.slotDescRanges (c : Channel) : List (Nat × Nat) :=
  c.regions.flatMap fun h => ((h.md ++ h.ad ++ h.bd).filter (· != 0)).map fun a => (a, 128)

/-- The uncorrectable words that Adori meets: in a range it reads, or in part of one it writes (13 R295, R296). -/
def Channel.badMet (c : Channel) (rs : List (Nat × Nat)) (ws : List (Nat × Nat) := []) : List Nat :=
  let meets (k : Nat) (r : Nat × Nat) : Bool := decide (k < r.1 + r.2) && decide (r.1 < k + wordSize k)
  c.bad.filter fun k =>
    rs.any (meets k) || ws.any fun r => meets k r && !(decide (r.1 ≤ k) && decide (k + wordSize k ≤ r.1 + r.2))

/-- Adori classifies an uncorrectable word by its address: a fault that a rollback meets, or a channel fault. A word of the
region list, of a header or of a slot's descriptor, which it reads to classify, is a channel fault itself. -/
def Channel.classifyUe (c : Channel) (a : Nat) : Channel :=
  if dramSize ≤ a then c.reportFault 0x02 a
  else
    let c := ((c.badMet (c.headerRanges ++ c.slotDescRanges)).filter (· != wordOf a)).foldl
      (fun c k => (c.noteUe k true).fault 0x01 k) c
    let hs := c.regions
    if hs.any fun h => inRanges (c.slotRanges h h.cur) a then
      if c.flt.g = 0 then c.fault 0x01 a
      else
        let us := c.unitsAt c.stp.ver a
        ({ c with flt := { c.flt with lostUnits := (c.flt.lostUnits ++ us).dedup } } : Channel).reportFault 0x01 a
    else
      let soft := (hs.flatMap fun h => c.slotRanges h (1 - h.cur)) ++
        (match c.stp.plan with | some p => [p.stashRange] | none => []) ++
        ((List.finRange 4).flatMap fun p => c.ports[p].wins.toList.map fun x => (x.base.toNat, x.size.toNat))
      if inRanges soft a then c.reportFault 0x01 a else c.fault 0x01 a

/-- Adori classifies the word that a command, or a share of one, has met (R355). -/
def Channel.classifyEnd (c : Channel) (res : Result) : Channel :=
  if res.status = 0x16 && c.bad.contains (wordOf res.info.toNat) then c.classifyUe res.info.toNat else c

/-! ### Fills and pushes (12) -/

/-- A row of fills or pushes, after which Adori classifies the word that has faulted the slot (R355). -/
def Channel.filled (c : Channel) (core : Core) (i : Fin 16) (slot : Nat) (f : Channel → Channel) : Channel :=
  let d := f c
  let t := d.cores[core].esk.ctxs[i].slot slot
  if t.st == .faulted && t.heldStatus == 0x16 && (c.cores[core].esk.ctxs[i].slot slot).st != .faulted then
    d.classifyUe t.heldAddr.toNat
  else d

/-- FILL_LANDED. -/
def execFillLanded (ch : Ch) (core : Core) (i slot : Fin 16) (s : State) : Host.Outcome State Fault Refusal :=
  .next (if s.chans[ch].up then s.modCh ch fun c => c.filled core i slot.val fun c => fillLanded c core i slot.val else s)

/-- HELPER_UNIT. -/
def execHelperUnit (ch : Ch) (core : Core) (i slot : Fin 16) (h : Core) (s : State) : Host.Outcome State Fault Refusal :=
  .next (if s.chans[ch].up then s.modCh ch fun c => c.filled core i slot.val fun c => helperUnit c core i slot.val h else s)

/-- ROTATE_PUSH. -/
def execRotatePush (ch : Ch) (core : Core) (i : Fin 16) (s : State) : Host.Outcome State Fault Refusal :=
  .next (if s.chans[ch].up then
      s.modCh ch fun c =>
        let p := c.cores[core].esk.ctxs[i].pred core
        c.filled p i c.cores[p].esk.ctxs[i].nxt fun c => rotatePush c core i
    else s)

/-! ### Adori's own reads (13 R295) -/

/-- Adori has read physical ranges, and writes others: each uncorrectable word that it meets is noted and classified. -/
def Channel.adoriRead (c : Channel) (rs : List (Nat × Nat)) (ws : List (Nat × Nat) := []) : Channel :=
  (c.badMet rs ws).foldl (fun c k => (c.noteUe k true).classifyUe k) c

/-- Some range lies in a stack that has stopped its accesses (13 R303). -/
def Channel.anyStopped (c : Channel) (rs : List (Nat × Nat)) : Bool := rs.any fun r => c.stopped r.1 r.2

/-- Work of Adori that reads and writes physical ranges: it waits for a stack that has stopped its accesses (13 R303). -/
def Channel.adori (c : Channel) (rs : List (Nat × Nat)) (f : Channel → Channel) (ws : List (Nat × Nat) := []) : Channel :=
  if c.anyStopped (rs ++ ws) then c else f (c.adoriRead rs ws)

/-- The memory behind unit j of the image at version v, with the descriptors that tell where it lies. -/
def Channel.unitRanges (c : Channel) (v : W32) (j : Nat) : List (Nat × Nat) :=
  c.headerRanges ++ c.slotDescRanges ++
    match unitIn (c.imageSpans v) j with
    | some (a, n) => c.phys a n
    | none => []

end Sys2Proof.Machine
end

