-- ==== Sys2Proof/Machine/Links.lean ====
section
/-!
DEFINITION. Polvor links (14): receiving, acknowledgement and forwarding, training and failure of ports, st.put
(12 R271 to R276), and the commands, shares and reductions as they cross a link (02 R51, 15 Table 15.3).
-/
namespace Sys2Proof.Machine

open Sys2Proof

/-! ### Answers to messages -/

/-- Sends MACK for a message: its body carries the header acknowledged and the status (log 20). -/
def Channel.sendMack (c : Channel) (h : MsgHdr) (status : Byte) : Channel :=
  c.post 2 ⟨{ c.hdr h.src 6 33 with order := h.order }, hdrBytes h ++ [status]⟩

/-- Sends MNACK for a message (R445). A message that came round a loop to its own sender is answered at once. -/
def Channel.sendMnack (c : Channel) (h : MsgHdr) (noroute : Bool) : Channel :=
  let m : Msg := ⟨{ c.hdr h.src 7 32 with order := h.order, noroute := noroute }, hdrBytes h⟩
  if h.src = c.chid then { c with inbox := c.inbox ++ [m] } else c.post 2 m

/-- Takes a handed-on message of a type from the inbox, oldest first. -/
def Channel.takeMsg (c : Channel) (type : Byte) : Channel := { c with inbox := c.inbox.eraseP fun m => m.hdr.type == type }

/-! ### Reduction and multicast bodies (15 Tables 15.3, 15.4) -/

/-- The body of a reduction message. The opcode, a part of the key that Table 15.3 does not place, stands in byte 30
(log 20), and the format of a superblock as stored in bits 2 to 6 of its form word (log 26). -/
def redBody (m : RedMsg) : List Byte :=
  toBytes 4 m.rid.toNat ++ toBytes 2 m.group.toNat ++
  toBytes 2 (b2n m.path + 2 * b2n m.down + 4 * b2n m.nf + 8 * b2n m.shmis + 16 * b2n m.stats.isSome) ++
  toBytes 4 m.step.toNat ++ toBytes 4 m.bucket.toNat ++ toBytes 4 m.count.toNat ++ toBytes 2 m.first.toNat ++
  toBytes 2 m.sbs.length ++ toBytes 4 m.shape.toNat ++ toBytes 2 m.wait.toNat ++ [m.opc, 0] ++
  (m.sbs.flatMap fun x => toBytes 4 (x.form.toNat + 4 * x.fmt.toNat + 2 ^ 16 * x.bytes.length) ++ x.bytes) ++ m.stats.getD []

def redSbs : Nat → List Byte → List SbForm × List Byte
  | 0, b => ([], b)
  | n + 1, b =>
    let w := fld b 0 4
    let len := bits w 31 16
    let (l, rest) := redSbs n (b.drop (4 + len))
    (⟨BitVec.ofNat 2 w, (b.drop 4).take len, BitVec.ofNat 5 (w / 4)⟩ :: l, rest)

def redParse (from_ : ChanId) (b : List Byte) : RedMsg :=
  let f := fld b 6 2
  let (sbs, rest) := redSbs (fld b 22 2) (b.drop 32)
  { sender := from_, rid := BitVec.ofNat 32 (fld b 0 4), group := BitVec.ofNat 16 (fld b 4 2)
    path := f.testBit 0, down := f.testBit 1, nf := f.testBit 2, shmis := f.testBit 3
    step := BitVec.ofNat 32 (fld b 8 4), bucket := BitVec.ofNat 32 (fld b 12 4), count := BitVec.ofNat 32 (fld b 16 4)
    first := BitVec.ofNat 16 (fld b 20 2), shape := BitVec.ofNat 32 (fld b 24 4), wait := BitVec.ofNat 16 (fld b 28 2)
    sbs := sbs, stats := if f.testBit 4 then some (rest.take 56) else none, opc := BitVec.ofNat 8 (fld b 30 1) }

/-- The running collective of a message's key (15 R329). -/
def Channel.collOf (c : Channel) (m : RedMsg) : Option Collective :=
  c.colls.find? fun k => k.opc == m.opc && k.group == m.group && k.rid == m.rid && k.step == m.step &&
    ((c.findRun k.src).map fun r => r.result.isNone).getD false

/-! ### How commands end by their messages (R313, R317, R445) -/

/-- A command's messages still on their way no longer count for it. -/
def Channel.disown (c : Channel) (src : Src) : Channel :=
  { c with ports := c.ports.map fun p => { p with
      inFlight := p.inFlight.map fun e => if e.owner = some src then { e with owner := none } else e } }

/-- DETAIL and INFO of a collective (15 Table 15.6). -/
def Collective.report (k : Collective) : Result :=
  match k.opc.toNat with
  | 0x40 =>
    { detail := BitVec.ofNat 16 (b2n k.nf + 4 * b2n k.sampled + 8 * b2n k.strag + 16 * b2n k.thin)
      info := info2 k.count.toNat k.buckets }
  | 0x41 => { detail := BitVec.ofNat 16 (8 * b2n k.strag), info := BitVec.ofNat 64 (k.bytes % 2 ^ 40) }
  | _ => { detail := BitVec.ofNat 16 (8 * b2n k.strag), info := BitVec.ofNat 64 (min k.count.toNat (2 ^ 32 - 1)) }

/-- The result of a command that its messages end with a status: of a collective what Table 15.6 gives, and INFO of status
0x13 the address of the descriptor that failed at the receiver. -/
def Channel.endedBy (c : Channel) (r : Running) (status : Byte) (free : W64) : Result :=
  match c.colls.find? fun k => k.src == r.src with
  | some k => { k.report with status := status }
  | none => { status := status, info := if status = 0x13 then r.cmd.a1 &&& 0xFFFFFFFFFFFF else free }

/-- A sending command ends with a status. INFO of 0x13 is the address of the descriptor that failed at the receiver (11
R260, 12 R274), and of a collective as Table 15.6 has it (15 R351); for the others the spec names no address. -/
def Wk.endSender (w : Wk) (src : Src) (status : Byte) : Wk :=
  match w.c.findRun src with
  | some r =>
    let w := { w with c := w.c.disown src }
    if r.result.isNone then
      { w with
        c := w.c.finish { r with held := none, halted := none } (w.c.endedBy r status (Config.freeInfo w.ctr))
        ctr := w.ctr + 1 }
    else w
  | none => w

/-- One of a command's messages is acknowledged: the command ends when none is left. -/
def Channel.ackSender (c : Channel) (src : Src) : Channel :=
  match c.findRun src with
  | some r =>
    let r := { r with unacked := r.unacked - 1 }
    match r.unacked, r.held, r.result with
    | 0, some res, none => c.finish { r with held := none } res
    | _, _, _ => c.setRun r
  | none => c

/-! ### Results of shares (01 R15) -/

/-- INFO of two members or engines put together: 0 for Moraine, member 0's for Confluence (15 R351), else the sum of each
half (04 R109, 12 R290, 09). -/
def infoJoin (opc : Byte) (a b : W64) : W64 :=
  match opc.toNat with
  | 0x20 | 0x21 | 0x22 => 0
  | 0x40 | 0x41 | 0x42 => a
  | o => if o < 0x10 then 0 else infoSum a b

/-- The status of two parts of one share: an error before any other, then 0x1A, then 0x19. -/
def statusJoin (a b : Byte) : Byte :=
  if isError a then a else if isError b then b
  else if a = 0x1A || b = 0x1A then 0x1A else if a = 0x19 || b = 0x19 then 0x19 else 0

def resJoin (opc : Byte) (a b : Result) : Result :=
  { status := statusJoin a.status b.status, detail := a.detail ||| b.detail, info := infoJoin opc a.info b.info
    nmev := a.nmev || b.nmev }

/-- A part of a member's share has a result. -/
def MemberState.take (opc : Byte) (m : MemberState) (res : Result) : MemberState :=
  { m with
    owed := m.owed - 1
    result := some (match m.result with | some a => resJoin opc a res | none => res) }

/-- A member has its whole result. -/
def MemberState.done (m : MemberState) : Bool := m.delivered && m.owed == 0 && m.result.isSome

def Channel.modFloe (c : Channel) (id : Nat) (f : FloeRun → FloeRun) : Channel :=
  { c with floes := c.floes.map fun x => if x.id = id then f x else x }

/-- A result for member i of a floe command of this channel. -/
def Channel.memberDone (c : Channel) (id i : Nat) (res : Result) : Channel :=
  c.modFloe id fun f => { f with members := f.members.modify i fun m => m.take f.cmd.opc res }

/-! ### Commands and shares as bytes (02 Table 2.2; the share's and result's layout is the model's, log 20) -/

def Command.bytes (k : Command) : List Byte :=
  toBytes 8 (k.opc.toNat + 2 ^ 8 * b2n k.cpl + 2 ^ 9 * b2n k.irq + 2 ^ 10 * b2n k.waiten + 2 ^ 11 * b2n k.sigen
    + 2 ^ 12 * b2n k.strict + 2 ^ 13 * k.split.toNat + 2 ^ 16 * k.floe.toNat + 2 ^ 32 * k.wsem.toNat
    + 2 ^ 40 * k.ssem.toNat + 2 ^ 48 * k.tag.toNat) ++
  toBytes 8 (k.wval.toNat + 2 ^ 32 * k.sinc.toNat) ++
  toBytes 8 k.a0.toNat ++ toBytes 8 k.a1.toNat ++ toBytes 8 k.a2.toNat ++ toBytes 8 k.a3.toNat ++
  toBytes 8 k.a4.toNat ++ toBytes 8 k.a5.toNat

/-- A share for another channel's dispatcher. -/
def shareBody (k : Command) (floe : W16) (level id i : Nat) (blocks : Option (Nat × Nat)) (ext : Option Nat) : List Byte :=
  let (f, n) := blocks.getD (0, 0)
  0 :: k.bytes ++ toBytes 2 floe.toNat ++ toBytes 8 id ++ toBytes 2 i ++
  toBytes 1 (b2n blocks.isSome + 2 * b2n ext.isSome + 16 * level) ++ toBytes 8 f ++ toBytes 8 n ++ toBytes 8 (ext.getD 0)

def parseShare (from_ : ChanId) (b : List Byte) : Share :=
  let flags := fld b 77 1
  { cmd := Command.parse (b.drop 1)
    floe := BitVec.ofNat 16 (fld b 65 2)
    level := flags / 16
    ref := ⟨.away from_ (fld b 67 8), fld b 75 2⟩
    blocks := if flags.testBit 0 then some (fld b 78 8, fld b 86 8) else none
    extent := if flags.testBit 1 then some (fld b 94 8) else none }

/-- The result of such a share, sent back. -/
def resultBody (id i : Nat) (res : Result) : List Byte :=
  1 :: toBytes 8 id ++ toBytes 2 i ++ [res.status] ++ toBytes 2 res.detail.toNat ++ toBytes 8 res.info.toNat ++
  toBytes 1 (b2n res.nmev)

/-- The completion of a share goes to whoever waits for it. -/
def Channel.shareDone (c : Channel) (s : ShareRef) (res : Result) : Channel :=
  match s.owner with
  | .adori => c
  | .here id => c.memberDone id s.member res
  | .away chan id =>
    let b := resultBody id s.member res
    c.post 2 ⟨c.hdr chan 2 b.length, b⟩

/-- A message of a share is lost: its member ends with status 0x17 (02 R51). -/
def Wk.endShare (w : Wk) (s : Nat × Nat) (status : Byte) : Wk :=
  { w with c := w.c.memberDone s.1 s.2 { status := status, info := Config.freeInfo w.ctr }, ctr := w.ctr + 1 }

/-- Whoever waits for a message in flight learns that it failed. -/
def Wk.failFlight (w : Wk) (e : InFlight) (status : Byte) : Wk :=
  let w := match e.owner with | some s => w.endSender s status | none => w
  match e.share with | some s => w.endShare s status | none => w

/-! ### Receiving (R311, R312, R316) -/

/-- What every good flit brings: ACK and credits. -/
def PortState.takeHeader (s : PortState) (f : Flit) : PortState :=
  let first : BitVec 12 := s.txSeq - BitVec.ofNat 12 s.replayBuf.length
  let k := (f.ack - first + 1).toNat
  let s := if 0 < k && k ≤ s.replayBuf.length then
      { s with replayBuf := s.replayBuf.drop k, replays := 0, ackSeen := f.ack }
    else s
  let d := f.crcum - s.crSeen.getD f.crvc 0
  ({ s with cred := s.cred.modify f.crvc (· + d), crSeen := s.crSeen.set f.crvc f.crcum } : PortState).pump

/-- Buffers freed on a virtual channel. -/
def PortState.free (s : PortState) (vc : Fin 4) (n : Nat) : PortState :=
  { s with crFreed := s.crFreed.modify vc (· + BitVec.ofNat 16 n) }

/-- The open message of a fragment. -/
def PortState.findOpen (s : PortState) (vc : Fin 4) (id : W16) : Option OpenMsg :=
  s.open_.find? fun m => m.vc == vc && m.msgid == id

def PortState.dropOpen (s : PortState) (m : OpenMsg) : PortState :=
  ({ s with open_ := s.open_.filter fun x => !(x.vc == m.vc && x.msgid == m.msgid) } : PortState).free m.vc m.frags

def PortState.modOpen (s : PortState) (m : OpenMsg) (f : OpenMsg → OpenMsg) : PortState :=
  { s with open_ := s.open_.map fun x => if x.vc == m.vc && x.msgid == m.msgid then f x else x }

/-- A fragment that names no open slot (R318). -/
def PortState.isLate (s : PortState) (f : Flit) : Bool := f.frag != 0 && (s.findOpen f.vc f.msgid).isNone

/-- A fragment accepted in order joins its message. -/
def PortState.takeFragment (s : PortState) (f : Flit) : PortState :=
  let data := f.payload.take f.len.toNat
  if f.frag = 0 then
    { s with
      open_ := s.open_ ++ [{ vc := f.vc, msgid := f.msgid, bytes := data, frags := 1, complete := f.last, put := f.put }]
      stalled := s.stalled.filter fun x => !(x.1 == f.vc && x.2.1 == f.msgid) }
  else
    { s with open_ := s.open_.map fun m =>
        if m.vc = f.vc && m.msgid == f.msgid && !m.complete && m.frags == f.frag.toNat then
          { m with bytes := m.bytes ++ data, frags := m.frags + 1, complete := f.last }
        else m }

/-- The verdict on a flit (R311). -/
def flitBad (f : Flit) (unc : Bool) : Bool := unc || f.kind == 3 || crc32 (flitBytes f) != f.crc

/-- A late fragment is dropped, counted and answered with MNACK (R318): to the sender of its message where the port has
discarded that message and so knows its header (R445), else to the channel at the far end, by the identifier on the link
(log 109). -/
def Channel.dropLate (c : Channel) (p : Port) (f : Flit) : Channel :=
  let c := c.modPort p fun s => ({ s with lateDrop := satAdd s.lateDrop 1 } : PortState).free f.vc 1
  let s := c.ports[p]
  match s.stalled.find? fun x => x.1 == f.vc && x.2.1 == f.msgid with
  | some x =>
    (c.modPort p fun s => { s with stalled := s.stalled.filter fun y => !(y.1 == f.vc && y.2.1 == f.msgid) }).sendMnack
      x.2.2 false
  | none =>
    let b := toBytes 1 f.vc.val ++ toBytes 2 f.msgid.toNat ++ toBytes 1 s.peerPort.toNat
    (c.sendOn p 2 ⟨c.hdr s.peerChan 7 b.length, b⟩ none none).getD c

/-- A payload flit arrives (R312). What it leaves to acknowledge or reject goes out in the next flit (R315). -/
def Channel.rxPayload (c : Channel) (p : Port) (f : Flit) (unc : Bool) : Channel :=
  let s := c.ports[p]
  let c :=
    if s.st != .up then c
    else if flitBad f unc then
      c.modPort p fun s => { s with
        nackOut := true
        crcErr := if crc32 (flitBytes f) != f.crc then satAdd s.crcErr 1 else s.crcErr
        fecUnc := if unc then satAdd s.fecUnc 1 else s.fecUnc }
    else
      let c := c.modPort p fun s => s.takeHeader f
      if f.kind != 1 then c
      else if f.seq != c.ports[p].rxSeq then c.modPort p fun s => { s with nackOut := true }
      else
        let c := c.modPort p fun s => { s with rxSeq := s.rxSeq + 1, rxSome := true, rxFlits := s.rxFlits + 1 }
        if c.ports[p].isLate f then c.dropLate p f else c.modPort p fun s => s.takeFragment f
  c.modPort p fun s => s.idle 1

/-- The header of a message whose fragment 0 has arrived. -/
def OpenMsg.hdr (m : OpenMsg) : MsgHdr := { hdrParse m.bytes with put := m.put }

/-- It is a complete message's turn: no message of the same ORDER with an earlier MSGID is open on the link and virtual
channel. -/
def PortState.turn (s : PortState) (m : OpenMsg) : Bool :=
  s.open_.all fun x => !(x.vc == m.vc && (x.msgid - m.msgid).msb && x.hdr.order == m.hdr.order)

/-! ### A put at its receiver (12 R274 to R276) -/

/-- What a put's messages tell of the layout of their source (log 64). -/
def Desc.layout (d : Desc) : List Nat :=
  [b2n d.strided, d.rstride, d.str.getD 0 0, d.str.getD 1 0, d.coff, d.eoff, d.orgr, d.orgc]

/-- The source of a put as its receiver knows it, with offsets for addresses. -/
def Desc.putSource (d : Desc) (l : List Nat) : Desc :=
  let v (i : Nat) : Nat := l.getD i 0
  { d with
    base := 0, strided := v 0 == 1, rstride := v 1, str := [v 2, v 3], coff := v 4, eoff := v 5, orgr := v 6, orgc := v 7 }

/-- Where the parts of a narrow or MX source's superblocks go: offset in the source, address, length. -/
def narrowParts (s d : Desc) : List (Nat × Nat × Nat) :=
  (List.range d.nblocks).flatMap fun n =>
    ((s.runs n).zip (d.runs n)).map (fun (a, b) => (a.1, b.1, d.lb)) ++
    [(s.codeAddr n, d.codeAddr n, d.cb)] ++ (if d.fmt.isMx then [] else [(s.expAddr n, d.expAddr n, 1)])

/-- Lines of a tiled destination for which a strided source of one dimension has none: padding, zero (11 R257). -/
def paddingLines (s d : Desc) : List (Nat × Nat) :=
  (List.range d.nblocks).flatMap fun n => ((d.runs n).drop (s.runs n).length).map fun b => ((s.runs n).headD (0, 0) |>.1, b.1)

/-- The pieces that a message's bytes, from offset o of the source on, write at the destination. -/
def putPieces (s d : Desc) (o : Nat) (body : List Byte) : List (Nat × List Byte) :=
  let hi := o + body.length
  if d.fmt.isWide then
    let w := d.fmt.width / 8
    coalesce ((List.range s.nblocks).flatMap fun n => (s.elems n).filterMap fun x =>
      let a := s.elemAddr x
      if decide (o ≤ a) && decide (a + w ≤ hi) then some (d.elemAddr x, (body.drop (a - o)).take w) else none)
  else
    let data : List (Nat × List Byte) := (narrowParts s d).filterMap fun (a, b, n) =>
      let lo := max a o
      let top := min (a + n) hi
      if lo < top then some (b + (lo - a), (body.drop (lo - o)).take (top - lo)) else none
    let zeros : List (Nat × List Byte) := (paddingLines s d).filterMap fun (a, b) =>
      if decide (o ≤ a) && decide (a < hi) then some (b, List.replicate d.lb 0) else none
    data ++ zeros

/-- The receiver's record of a message's put. -/
def Channel.putOf (c : Channel) (h : MsgHdr) : Option PutRx :=
  c.putRx.find? fun x => x.src == h.src && x.order == h.order && some (x.input, x.serial) == h.put.map fun i => (i.input, i.serial)

/-- The record of a put whose descriptor has been read (12 R274), the records of earlier puts of its queue done with. -/
def Channel.notePut (c : Channel) (h : MsgHdr) (desc : List Byte) (n : Nat) : Channel :=
  match h.put with
  | none => c
  | some i =>
    let others := c.putRx.filter fun x => !(x.src == h.src && x.order == h.order && x.input == i.input)
    { c with putRx := others ++ [⟨h.src, h.order, i.input, i.serial, desc, n⟩] }

/-- A message that waits for its page, or for its stack, has had the put's descriptor read all the same. -/
def Channel.holdPut (c : Channel) (h : MsgHdr) : Channel :=
  let da := bits h.desc.toNat 47 0
  match c.putOf h, c.desc da with
  | none, .ok _ => c.notePut h (c.rd da 128) 0
  | _, _ => c

/-- One more message of a put has landed: RSEM is signalled with the last (12 R275). -/
def Channel.putLanded (c : Channel) (h : MsgHdr) (desc : List Byte) : Channel :=
  let n := ((c.putOf h).map (·.landed)).getD 0 + 1
  let done := match h.put with | some i => decide (i.total ≤ n) | none => true
  let c := c.notePut h desc n
  let c := if done then { c with putRx := c.putRx.filter fun x => some x != c.putOf h } else c
  if done && h.rsig then c.semAdd h.rsem h.rinc.toNat else c

/-- The message of a put is written whole, at the places its elements have in the destination (14 R316, R274 to R276);
its first message reads the descriptor. -/
def Channel.putWrite (c : Channel) (h : MsgHdr) (body : List Byte) : Ck Channel := do
  let da := bits h.desc.toNat 47 0
  let d ← c.desc da (match c.putOf h with | some x => [(da, x.desc)] | none => [])
  let o := h.offs.toNat
  let (agree, layout) := match h.put with | some i => (i.agree, i.layout) | none => (d.agree, d.layout)
  need (agree == d.agree) (.fault 0xF d.addr)
  let s := d.putSource layout
  need (decide (o + body.length ≤ s.span)) (.fault 0xF d.addr)
  let ps := putPieces s d o body
  let c ← ps.foldlM (fun c p => c.access p.1 p.2.length true) c
  let bytes := match c.putOf h with | some x => x.desc | none => c.rd da 128
  pure ((c.wrPieces ps).putLanded h bytes)

/-- A dispatch message: a share for the dispatcher's input, or a share's result (02 R51). -/
def Channel.takeDispatch (c : Channel) (h : MsgHdr) (b : List Byte) : Channel :=
  if fld b 0 1 = 0 then { c with inputs := c.inputs ++ [(Engine.dispatcher, parseShare h.src b)] }
  else
    c.memberDone (fld b 1 8) (fld b 9 2)
      { status := BitVec.ofNat 8 (fld b 11 1), detail := BitVec.ofNat 16 (fld b 12 2), info := BitVec.ofNat 64 (fld b 14 8)
        nmev := (fld b 22 1).testBit 0 }

/-- MESSAGE_COMPLETE (R316): a message for this channel is written or handed on, its buffers freed, MACK sent. A put
whose page is absent stays held (12 R276). -/
def messageComplete (w : Wk) (p : Port) (vc : Fin 4) (id : W16) : Wk :=
  let c := w.c.landed
  let s := c.ports[p]
  match s.findOpen vc id with
  | none => w
  | some m =>
    let h := m.hdr
    if !m.complete || h.dst != c.chid || m.halted.isSome || !s.turn m then w
    else
      let body := (m.bytes.drop 32).take h.length.toNat
      let freed := c.modPort p fun s => (s.dropOpen m).idle 4
      let mack (c : Channel) (st : Byte) : Channel := if acked h.type then c.sendMack h st else c
      if h.type = 1 && h.put.isNone && h.desc == 0 then
        -- a stripe contribution: its holder acknowledges it once it is in its slot (16 R368)
        { w with c := { freed with inbox := freed.inbox ++ [⟨h, body⟩] } }
      else if h.type = 1 then
        match freed.putWrite h body with
        | .ok c =>
          -- a write into part of an uncorrectable word ends the sender (13 R296)
          match c.poisonHit with
          | some k => { w with c := mack ((c.landed.noteUe k false).classifyUe k) 0x16 }
          | none => { w with c := mack c 0 }
        | .error e =>
          let freed := freed.sees e
          match e.kind with
          | .absent a =>
            let c := ((c.holdPut h).sees e).cachePage (a / 2 ^ 21)
            { w with c := c.modPort p fun s => s.modOpen m fun x => { x with halted := some a } }
          | .wait => { w with c := c.holdPut h }
          | .fault cause a =>
            let c := { freed with agd := { freed.agd with
              dfQueue := Config.faultQueue w.ctr, dfCause := BitVec.ofNat 4 cause, dfDesc := BitVec.ofNat 48 a
              dfCount := satAdd freed.agd.dfCount 1, df := true } }
            { w with c := mack c 0x13, ctr := w.ctr + 1 }
          | .unmapped a _ => { w with c := mack (freed.cachePage (a / 2 ^ 21)) 0x14 }
          | .frame a _ =>
            let c := freed.cachePage (a / 2 ^ 21)
            { w with c := mack { c with agd := { c.agd with pterr := true } } 0x14 }
          | .ue a => { w with c := mack ((freed.noteUe a false).classifyUe a) 0x16 }
          | _ => { w with c := mack freed 0x14 }
      else if h.type = 2 then { w with c := mack (freed.takeDispatch h body) 0 }
      else if h.type = 3 || h.type = 5 then
        -- held in its buffers until its command runs (15 R330); a multicast message is acknowledged later (R321)
        if (c.collOf (redParse h.src body)).isNone then w
        else
          let c := { freed with inbox := freed.inbox ++ [⟨h, body⟩] }
          { w with c := if h.type = 3 then c.sendMack h 0 else c }
      else { w with c := mack { freed with inbox := freed.inbox ++ [⟨h, body⟩] } 0 }

/-- A message takes the alternate route: the second path of a collective (15 R343), or a heartbeat whose main port is
DOWN (R357). -/
def Channel.altFor (c : Channel) (h : MsgHdr) (body : List Byte) : Bool :=
  ((h.type == 3 || h.type == 5) && (fld body 6 2).testBit 0) ||
  (h.type == 4 && body.length == 48 && c.mainDown h.dst)

/-- Flits of a message of the port wait or await their ACK. -/
def PortState.carries (s : PortState) (vc : Fin 4) (id : W16) : Bool :=
  (s.replayBuf ++ s.txq.getD vc []).any fun f => f.kind == 1 && f.vc == vc && f.msgid == id

/-- A forwarder discards a message: counted on the port it arrived on, and answered with MNACK NOROUTE (R445). -/
def Channel.routeDrop (c : Channel) (p : Port) (h : MsgHdr) : Channel :=
  (c.modPort p fun s => { s with routeDrop := satAdd s.routeDrop 1 }).sendMnack h true

/-- MESSAGE_FORWARD (R445): a message for another channel is sent on, or discarded with MNACK NOROUTE. -/
def messageForward (c : Channel) (p : Port) (vc : Fin 4) (id : W16) : Channel :=
  let s := c.ports[p]
  match s.findOpen vc id with
  | none => c
  | some m =>
    let h := m.hdr
    if !m.complete || h.dst == c.chid || !s.turn m then c
    else
      let c := c.modPort p fun s => (s.dropOpen m).idle 4
      let body := m.bytes.drop 32
      if h.hops = 15 then c.routeDrop p h
      else
        match c.route h.dst with
        | none => c.routeDrop p h
        | some r =>
          let q := if c.altFor h body && r.altValid then r.alt else r.main
          if c.ports[q].sendable then
            c.modPort q fun s =>
              let (s, id) := s.enqueue vc ⟨{ h with hops := h.hops + 1 }, body⟩
              { s with relayed := (s.relayed.filter fun x => s.carries x.vc x.msgid) ++ [⟨p, vc, id, h⟩] }
          else c.routeDrop p h

/-! ### Acknowledgements -/

/-- Removes the first message in flight that a test accepts. -/
def Channel.popFlight (c : Channel) (f : InFlight → Bool) : Option (InFlight × Channel) :=
  match (List.finRange 4).findSome? fun p => (c.ports[p].inFlight.find? f).map fun e => (p, e) with
  | some (p, e) => some (e, c.modPort p fun s => { s with inFlight := s.inFlight.eraseP f })
  | none => none

/-- A stripe contribution is acknowledged (16 R368). -/
def Channel.ackContribution (c : Channel) (h : MsgHdr) : Channel :=
  if h.type = 1 && h.put.isNone then
    { c with stp := { c.stp with att := { c.stp.att with
        stripesSent := c.stp.att.stripesSent.erase (h.offs.toNat, h.rinc == 1) } } }
  else c

/-- MACK (R317, 12 R274 to R276): a receiver's error ends the command with that status. A multicast message's is
MULTICAST_ACK. -/
def mack (w : Wk) (h : MsgHdr) (status : Byte) : Wk :=
  match if h.type = 5 then none else w.c.popFlight fun e => hdrSame e.msg.hdr h with
  | none => w
  | some (e, c) =>
    let w := { w with c := c.takeMsg 6 }
    if status = 0 then
      match e.owner with
      | some s => { w with c := w.c.ackSender s }
      | none => { w with c := w.c.ackContribution e.msg.hdr }
    else
      let w := match status, e.owner with
        -- a write that the receiver's guard rejects freezes the sending Esker (12 R276)
        | 0x14, some s =>
          match srcEngine s with
          | some (.esker k) => { w with c := w.c.freeze (.engine (.esker k)) (h.desc.toNat % 2 ^ 48) true }
          | _ => w
        | _, _ => w
      w.failFlight e status

/-- MNACK (R318, R371, R445): the message goes again under a new MSGID, or its command ends. -/
def mnack (w : Wk) (n : NackOf) : Wk :=
  let test (e : InFlight) : Bool :=
    match n with
    | .message h _ => hdrSame e.msg.hdr h
    | .fragment p vc id => e.port == p && e.vc == vc && e.msgid == id
  match w.c.popFlight test with
  | none => w
  | some (e, c) =>
    let w := { w with c := c.takeMsg 7 }
    let noroute := match n with | .message _ b => b | _ => false
    if noroute then w.failFlight e 0x17
    else if w.c.stp.st = .rollback then w.failFlight e 0x1A
    else
      match w.c.sendOn e.port e.vc e.msg e.owner e.share with
      | some c => { w with c := c }
      | none => w.failFlight e 0x17

/-! ### Training and failure of a port (R309, R313) -/

/-- The credits of an empty receiver (Table 14.2). -/
def fullCredits : List W16 := [1024, 1024, 64, 512]

/-- The link layer as it starts. -/
def PortState.fresh (s : PortState) : PortState :=
  { s with
    cred := [0, 0, 0, 0], crSeen := [0, 0, 0, 0], crFreed := [0, 0, 0, 0], crTurn := 0
    txSeq := 0, rxSeq := 0, rxSome := false, ackSeen := 0xFFF, nackOut := false, replays := 0, replayBuf := []
    arb := (0, 0) }

/-- The credits a port offers: its buffers less those that complete messages hold (R314). -/
def PortState.freeBuffers (s : PortState) : List W16 :=
  (List.finRange 4).map fun v =>
    fullCredits.getD v 0 - BitVec.ofNat 16 ((s.open_.filter fun m => m.vc == v).map (·.frags)).sum

/-- Sends a link-control flit: this side's identity, port, credits and verdict (its payload's layout is the model's). -/
def Channel.sendControl (c : Channel) (p : Port) (v : Verdict) : Channel :=
  let code := match v with | .none => 0 | .isMatch => 1 | .mismatch => 2
  let pl := toBytes 2 c.chid.toNat ++ toBytes 1 p.val ++ c.ports[p].freeBuffers.flatMap (fun x => toBytes 2 x.toNat) ++
    toBytes 1 code
  c.modPort p fun s =>
    let (s, f) := s.stamp
      { kind := 2, vc := 0, seq := 0, ack := 0, nack := false, crcum := 0, crvc := 0, len := 0, msgid := 0, frag := 0
        last := false, payload := pl, crc := 0 }
    { s with wire := s.wire ++ [f] }

/-- LINK_TRAINING_DONE (R309). An Ethernet port has no link-control flits to wait for and is up (log 30). -/
def linkTrainingDone (c : Channel) (p : Port) : Channel :=
  let s := c.ports[p]
  if s.mode = .polvor && s.st == .training && !s.trained then
    (c.modPort p fun s => { s with trained := true }).sendControl p .none
  else if s.mode = .ethernet && s.st == .training then c.modPort p fun s => { s with trained := true, st := .up }
  else c

/-- A port gives up what it was to send (R313, R446): its own commands end with status 0x17; a message it forwards is
discarded under R445. -/
def Wk.failPort (w : Wk) (p : Port) : Wk :=
  let s := w.c.ports[p]
  let w := { w with c := w.c.modPort p fun s =>
    { s with inFlight := [], relayed := [], txq := [[], [], [], []], replayBuf := [] } }
  let w := s.inFlight.foldl (fun w e => w.failFlight e 0x17) w
  { w with c := (s.relayed.filter fun x => s.carries x.vc x.msgid).foldl (fun c x => c.routeDrop x.arrived x.hdr) w.c }

/-- A miswired port is FAILED (R309), and sends nothing that waited for it (R446). -/
def Wk.miswired (w : Wk) (p : Port) : Wk :=
  ({ w with c := w.c.modPort p fun s => { s with st := .failed, miswire := true } } : Wk).failPort p

/-- The peer is the one configured. -/
def PortState.isPeer (s : PortState) (peer : ChanId) (pp : Port) : Bool := peer == s.peerChan && pp.val == s.peerPort.toNat

/-- The port is UP with the peer's credits. -/
def PortState.goUp (s : PortState) (credits : List W16) : PortState :=
  ({ s with st := .up, trained := true, cred := (List.range 4).map fun i => credits.getD i 0 } : PortState).pump

/-- LINK_CONTROL_FLIT (R309). -/
def linkControlFlit (w : Wk) (p : Port) (peer : ChanId) (pp : Port) (credits : List W16) (v : Verdict) : Wk :=
  let s := w.c.ports[p]
  if s.mode = .polvor && s.st == .training && s.trained then
    if !s.isPeer peer pp then (w.miswired p).mod fun c => c.sendControl p .mismatch
    else
      match v with
      | .mismatch => w.miswired p
      | .none => w.mod fun c => c.sendControl p .isMatch
      | .isMatch => w.mod fun c => (c.sendControl p .isMatch).modPort p fun s => s.goUp credits
  else w

/-- A port goes DOWN (R313): messages in flight fail, partial messages are discarded, class 0x06 is reported. -/
def Wk.portDown (w : Wk) (p : Port) : Wk :=
  let s := w.c.ports[p]
  if s.mode = .polvor && s.st == .up then
    let w := { w with c := w.c.modPort p fun s => { s with
      st := .down, retryx := true, trained := false, open_ := s.open_.filter (·.complete) } }
    let w := w.failPort p
    { w with c := (w.c.modPort p PortState.fresh).reportFault 0x06 0 }
  else w

/-- A replay, or the port down after 16 without an advance of ACK (R312, R313). -/
def Wk.replay (w : Wk) (p : Port) : Wk :=
  let s := w.c.ports[p]
  if s.st != .up || s.replayBuf.isEmpty then w
  else if 16 ≤ s.replays then w.portDown p
  else { w with c := w.c.modPort p PortState.replayAll }

/-- PORT_RETRAINED (R313): SEQ restarts at 0, identities, verdicts and credits are exchanged under R309, and the port is
UP; where a verdict is none of a match it stays DOWN (log 110). -/
def portRetrained (c : Channel) (p : Port) (peer : ChanId) (pp : Port) (credits : List W16) (v : Verdict) : Channel :=
  let s := c.ports[p]
  if s.mode = .polvor && s.st == .down then
    let c := (c.modPort p PortState.fresh).sendControl p (if s.isPeer peer pp then .isMatch else .mismatch)
    if s.isPeer peer pp && v == .isMatch then c.modPort p fun s => s.goUp credits else c
  else c

/-! ### st.put (12 R271 to R276) -/

/-- Element, code and exponent runs of a tensor as it lies, in ascending address (R271, R272). The sender knows its
source's layout alone, so its runs are the source's (log 64). -/
def Desc.putRuns (d : Desc) : List (Nat × Nat) :=
  let rest := if d.fmt.isWide then [] else d.arrays.drop 1
  ((d.steps none).filterMap d.stepRun ++ rest).mergeSort fun a b => decide (a.1 ≤ b.1)

/-- A run longer than 64 KiB leaves in pieces of 64 KiB (R272). -/
def pieces : Nat → Nat × Nat → List (Nat × Nat)
  | 0, r => [r]
  | n + 1, (a, k) => if k ≤ 65536 then [(a, k)] else (a, 65536) :: pieces n (a + 65536, k - 65536)

/-- The checks of st.put to a descriptor of this channel (R274). -/
def putLocalOps (c : Channel) (r : Running) : Ck (Desc × Desc) := do
  let s ← c.desc (bits r.cmd.a0.toNat 47 0) r.copies
  let d ← c.desc (bits r.cmd.a1.toNat 47 0) r.copies
  need (s.agree == d.agree) (.fault 0xF d.addr)
  pure (s, d)

/-- MERGE of a st.put (R274). -/
def Running.merge (r : Running) : Bool := r.cmd.a2.getLsbD 9

/-- The transfer of the queue's last st.put that a run of this one may be merged with: both have MERGE set, and both go to this
channel (R271; to another, log 53). -/
def Channel.mergeTail (c : Channel) (r : Running) : List (Nat × Nat) :=
  match r.src with
  | .queue q => if r.merge then c.queues[q].tail.toList else []
  | .input _ => []

/-- A st.put leaves its last transfer to be merged with, where MERGE is set. -/
def Channel.setTail (c : Channel) (r : Running) (t : Option (Nat × Nat)) : Channel :=
  match r.src with
  | .queue q => c.modQ q fun x => { x with tail := if r.merge then t else none }
  | .input _ => c

/-- st.put to a descriptor of this channel, on checked operands (R274). -/
def putLocalRun (w : Wk) (r : Running) (s d : Desc) : Wk :=
  let ident : Nat := 0xE4
  let ms := d.steps none
  let prev := w.c.mergeTail r
  let transfers := mergeRuns (ms.filterMap d.stepRun) prev 0
  let merged := decide (0 < transfers.2)
  let w' := moveCommand (prev := prev) w r (runCore r) (if s.fmt.isWide then wideRead s d ident else narrowRead s d ident)
    (copyCut s d true) (fun m => (d.stepRun m).toList) ms fun b halted =>
      { detail := BitVec.ofNat 16 (b2n merged + 2 * b2n halted), info := BitVec.ofNat 64 (b % 2 ^ 40) }
  let fin := match w'.c.findRun r.src with
    | some x => (match x.result with | some q => q.status == 0 | none => false)
    | none => false
  let w' := if fin then w'.mod fun c => c.setTail r transfers.1.getLast? else w'
  if fin && r.cmd.a2.getLsbD 8 then
    w'.mod fun c => c.semAdd (BitVec.ofNat 8 (bits r.cmd.a2.toNat 7 0)) (bits r.cmd.a2.toNat 31 16)
  else w'

/-- The parts of a range of a source that hold valid elements, codes or exponents; padding is never read (11 R256). -/
def Desc.dataIn (d : Desc) (a n : Nat) : List (Nat × Nat) :=
  if d.fmt.isWide && !d.strided then
    joinRanges (((List.range d.nblocks).flatMap d.touched).filterMap fun (b, k) =>
      let lo := max a b
      let hi := min (a + n) (b + k)
      if lo < hi then some (lo, hi - lo) else none)
  else [(a, n)]

/-- n bytes from address a with pieces laid in ascending order, zero between them. -/
def layBytes : Nat → Nat → List (Nat × List Byte) → List Byte
  | _, n, [] => List.replicate n 0
  | a, n, (b, x) :: rest => List.replicate (b - a) 0 ++ x ++ layBytes (b + x.length) (n - (b - a) - x.length) rest

/-- Reads ranges one by one until one meets an error, after those held already: the channel, the bytes, the error (R286). -/
def readOn : List (Nat × Nat) → Channel → List (Nat × List Byte) → Channel × List (Nat × List Byte) × Option Err
  | [], c, held => (c, held, none)
  | (a, n) :: rest, c, held =>
    match c.access a n false with
    | .ok c => readOn rest c (held ++ [(a, c.rdV a n)])
    | .error e => (c, held, some e)

/-- The header of a st.put's message of the source range (a, n), one of `total`. RSIG stands on each; the receiver
signals with the last to land (R275). -/
def putHdr (c : Channel) (r : Running) (s : Desc) (a n total : Nat) : MsgHdr :=
  let q := match r.src with | .queue q => q.val % 4 | .input _ => 0
  let a2 := r.cmd.a2.toNat
  { c.hdr (BitVec.ofNat 16 (bits r.cmd.a1.toNat 63 48)) 1 n with
    order := BitVec.ofNat 8 ((runCore r).val + 8 * q)
    rsem := BitVec.ofNat 8 (bits a2 7 0), rsig := a2.testBit 8, rinc := BitVec.ofNat 16 (bits a2 31 16)
    desc := BitVec.ofNat 64 (bits r.cmd.a1.toNat 47 0), offs := BitVec.ofNat 32 (a - s.base)
    put := some { agree := s.agree, layout := s.layout, input := r.share.isSome, serial := r.putId, total := total } }

/-- Sends the messages of a st.put from number i on, each read when it is sent (R272, R286): the command halts, waits, or
ends where one cannot be read or sent, and holds its result until the last is acknowledged. -/
def putGo (s : Desc) (res : Running → Result) (total : Nat) : List (Nat × Nat) → Nat → Wk → Running → Wk
  | [], _, w, r =>
    w.mod fun c => if r.unacked = 0 then c.finish r (res r) else c.setRun { r with held := some (res r) }
  | (a, n) :: rest, i, w, r =>
    let r := { r with begun := some i }
    let rs := (s.dataIn a n).flatMap fun x => if w.c.virtual x.1 then pagesOf x.1 x.2 else [x]
    let (c, held, err) := readOn (rs.drop r.staged.length) w.c r.staged
    match err with
    | some e =>
      match e.kind with
      | .absent p => { w with c := c.haltRun { r with staged := held } e (r.moved + (held.map fun x => x.2.length).sum) p }
      | .wait => { w with c := c.setRun { r with staged := held } }
      | _ =>
        let (c, q) := c.fail r e
        { w with c := c.finish r q }
    | none =>
      let m : Msg := ⟨putHdr c r s a n total, layBytes a n held⟩
      match c.send 0 m (owner := some r.src) with
      | some c =>
        putGo s res total rest (i + 1) { w with c := c.eskCount (runCore r) n 0 }
          { r with moved := r.moved + n, unacked := r.unacked + 1, staged := [] }
      | none => ({ w with c := c.setRun r } : Wk).endSender r.src 0x17

/-- The channel that a st.put sends to. -/
def Running.putDst (r : Running) : ChanId := BitVec.ofNat 16 (bits r.cmd.a1.toNat 63 48)

/-- st.put of a source to another channel (R272, R274). -/
def putRemoteRun (w : Wk) (r : Running) (s : Desc) : Wk :=
  let c := w.c
  let (ts, merges) := mergeRuns s.putRuns [] 0
  let ts := ts.flatMap fun t => pieces (t.2 / 65536 + 1) t
  let res (r : Running) : Result :=
    { detail := BitVec.ofNat 16 (b2n (decide (0 < merges)) + 2 * b2n r.haltedOnce)
      info := BitVec.ofNat 64 (r.moved % 2 ^ 40 + 2 ^ 40 * (ts.length % 2 ^ 24)) }
  let (c, r) := match r.begun with
    | some _ => (c, r)
    | none => ({ (c.setTail r none).eskCount (runCore r) 0 merges with putNext := c.putNext + 1 }, { r with putId := c.putNext })
  let k := r.begun.getD 0
  putGo s res ts.length (ts.drop k) k { w with c := c } r

/-- st.put (R274). -/
def stPut (w : Wk) (r : Running) : Ck Wk := do
  if r.putDst == w.c.chid then
    let (s, d) ← putLocalOps w.c r
    pure (putLocalRun w r s d)
  else
    let s ← w.c.desc (bits r.cmd.a0.toNat 47 0) r.copies
    pure (putRemoteRun w r s)

/-! ### Meanings -/

/-- Runs an operation of a running channel. -/
def onUp (s : State) (ch : Ch) (f : Wk → Wk) : State := if s.chans[ch].up then s.onCh ch f else s

/-- Runs an operation that only changes a running channel. -/
def modUp (s : State) (ch : Ch) (f : Channel → Channel) : State := if s.chans[ch].up then s.modCh ch f else s

/-- ST_PUT. -/
def execStPut (ch : Ch) (src : Src) (s : State) : Host.Outcome State Fault Refusal :=
  .next (onCoreRun s ch src 0x35 fun w r => productWith w r (stPut w r))

/-- LINK_TRAINING_DONE. -/
def execLinkTrainingDone (ch : Ch) (p : Port) (s : State) : Host.Outcome State Fault Refusal :=
  .next (modUp s ch fun c => linkTrainingDone c p)

/-- LINK_CONTROL_FLIT. -/
def execLinkControlFlit (ch : Ch) (p : Port) (peer : ChanId) (pp : Port) (cr : List W16) (v : Verdict) (s : State) :
    Host.Outcome State Fault Refusal :=
  .next (onUp s ch fun w => linkControlFlit w p peer pp cr v)

/-- PAYLOAD_FLIT. -/
def execPayloadFlit (ch : Ch) (p : Port) (f : Flit) (unc : Bool) (s : State) : Host.Outcome State Fault Refusal :=
  .next (modUp s ch fun c => c.rxPayload p f unc)

/-- IDLE_FLIT: an idle flit's ACK and credits. -/
def execIdleFlit (ch : Ch) (p : Port) (f : Flit) (s : State) : Host.Outcome State Fault Refusal :=
  .next (modUp s ch fun c =>
    if c.ports[p].st = .up && f.kind == 0 then
      if flitBad f false then
        c.modPort p fun s => ({ s with crcErr := satAdd s.crcErr 1, nackOut := true } : PortState).idle 1
      else c.modPort p fun s => s.takeHeader f
    else c)

/-- NACK_REPLAY: a good flit with NACK set; its ACK is taken first. -/
def execNackReplay (ch : Ch) (p : Port) (f : Flit) (s : State) : Host.Outcome State Fault Refusal :=
  .next (onUp s ch fun w =>
    if w.c.ports[p].st = .up && f.nack && !flitBad f false then
      ({ w with c := w.c.modPort p fun s => s.takeHeader f } : Wk).replay p
    else w)

/-- ACK_TIMEOUT. -/
def execAckTimeout (ch : Ch) (p : Port) (s : State) : Host.Outcome State Fault Refusal :=
  .next (onUp s ch fun w => w.replay p)

/-- PORT_DOWN. -/
def execPortDown (ch : Ch) (p : Port) (s : State) : Host.Outcome State Fault Refusal :=
  .next (onUp s ch fun w => w.portDown p)

/-- PORT_RETRAINED. -/
def execPortRetrained (ch : Ch) (link : Retrain) (s : State) :
    Host.Outcome State Fault Refusal :=
  .next (modUp s ch fun c => portRetrained c link.port link.peer link.peerPort link.credits link.verdict)

/-- MESSAGE_COMPLETE. -/
def execMessageComplete (ch : Ch) (p : Port) (vc : Fin 4) (id : W16) (s : State) : Host.Outcome State Fault Refusal :=
  .next (onUp s ch fun w => messageComplete w p vc id)

/-- MESSAGE_FORWARD. -/
def execMessageForward (ch : Ch) (p : Port) (vc : Fin 4) (id : W16) (s : State) : Host.Outcome State Fault Refusal :=
  .next (modUp s ch fun c => messageForward c p vc id)

/-- MACK. -/
def execMack (ch : Ch) (h : MsgHdr) (status : Byte) (s : State) : Host.Outcome State Fault Refusal :=
  .next (onUp s ch fun w => mack w h status)

/-- MNACK. -/
def execMnack (ch : Ch) (n : NackOf) (s : State) : Host.Outcome State Fault Refusal :=
  .next (onUp s ch fun w => mnack w n)

/-- STALLTMO_EXPIRY (R318). -/
def execStalltmoExpiry (ch : Ch) (p : Port) (vc : Fin 4) (id : W16) (s : State) : Host.Outcome State Fault Refusal :=
  .next (modUp s ch fun c =>
    match c.ports[p].findOpen vc id with
    | some m =>
      if m.complete then c
      else c.modPort p fun s =>
        ({ s.dropOpen m with stallDrop := satAdd s.stallDrop 1, stalled := s.stalled ++ [(vc, id, m.hdr)] } : PortState).idle 4
    | none => c)

/-- LATE_FRAGMENT (R318): a payload flit whose fragment names no open slot. -/
def execLateFragment (ch : Ch) (p : Port) (f : Flit) (s : State) : Host.Outcome State Fault Refusal :=
  .next (modUp s ch fun c => if f.kind = 1 && c.ports[p].isLate f then c.rxPayload p f false else c)

end Sys2Proof.Machine
end

