-- ==== Sys2Proof/Machine/Ingest.lean ====
section
/-!
DEFINITION. Ethernet ports (14 R323 to R327): the frame filter, the ingest header, windows, WRITE and READ.
-/
namespace Sys2Proof.Machine

open Sys2Proof

/-- Bytes of a number, the most significant first, as Ethernet and IPv4 lay them out (log 31). -/
def beBytes (n v : Nat) : List Byte := (toBytes n v).reverse
def beFld (b : List Byte) (o n : Nat) : Nat := ofBytes ((b.drop o).take n).reverse

/-- An Ethernet port that has its link. -/
def PortState.ethUp (s : PortState) : Bool := s.mode == .ethernet && s.st == .up

def PortState.ethDropped (s : PortState) : PortState := { s with ethDrop := satAdd s.ethDrop 1 }
def PortState.badChecked (s : PortState) : PortState := { s with ethBadchk := satAdd s.ethBadchk 1 }

/-! ### Frames (R323) -/

/-- What follows the addresses and the tag, if the frame is tagged as the port takes it (log 31). -/
def PortState.untag (s : PortState) (b : List Byte) : Option (List Byte) :=
  let tagged := beFld b 12 2 == 0x8100
  if s.vlanen then
    if tagged && beFld b 14 2 % 4096 == s.vid.toNat then some (b.drop 16) else none
  else if tagged then none else some (b.drop 12)

/-- IPv4 without options or fragments to the port's address, carrying UDP to its UDP port. -/
def PortState.udpOk (s : PortState) (b : List Byte) : Bool :=
  beFld b 0 2 == 0x0800 && beFld b 2 1 == 0x45 && beFld b 8 2 % 0x4000 == 0 && beFld b 11 1 == 17 &&
  beFld b 18 4 == s.ethIp4.toNat && beFld b 24 2 == s.udp.toNat

/-- An ARP request for the port's IPv4 address. -/
def PortState.arpOk (s : PortState) (b : List Byte) : Bool :=
  beFld b 0 2 == 0x0806 && beFld b 2 8 == 0x0001080006040001 && beFld b 26 4 == s.ethIp4.toNat

/-- The ARP reply to a request's body, to its sender. -/
def PortState.arpReply (s : PortState) (b : List Byte) : List Byte :=
  let mac := (b.drop 10).take 6
  let own := beBytes 6 s.ethMac.toNat
  mac ++ own ++ (if s.vlanen then beBytes 2 0x8100 ++ beBytes 2 s.vid.toNat else []) ++
  beBytes 10 0x08060001080006040002 ++ own ++ beBytes 4 s.ethIp4.toNat ++ mac ++ (b.drop 16).take 4

/-- A received frame: accepted, answered, or dropped and counted. -/
def PortState.ethFrame (s : PortState) (f : Frame) : PortState :=
  let n := f.bytes.length + 4
  if !f.fcsOk then s.badChecked
  else if f.full || n < 64 || 9216 < n then s.ethDropped
  else
    match s.untag f.bytes with
    | none => s.ethDropped
    | some b =>
      let dst := beFld f.bytes 0 6
      if s.arpOk b && (dst == s.ethMac.toNat || dst == 0xFFFFFFFFFFFF) then
        { s with ethRx := s.ethRx + 1, ethTx := s.ethTx + 1, sentFrames := s.sentFrames ++ [s.arpReply b] }
      else if s.udpOk b && dst == s.ethMac.toNat then { s with ethRx := s.ethRx + 1 }
      else s.ethDropped

/-! ### The ingest header (R324) -/

/-- Header bytes 0 to 27. -/
def dgHead (d : Datagram) : List Byte :=
  toBytes 2 d.magic.toNat ++ [d.ver, d.type] ++ toBytes 2 d.win.toNat ++ toBytes 2 d.flags.toNat ++
  toBytes 4 d.msgid.toNat ++ toBytes 4 d.seq.toNat ++ toBytes 8 d.offset.toNat ++ toBytes 4 d.len.toNat

def dgSum (d : Datagram) : W32 := crc32c (dgHead d ++ d.payload)

/-- The datagram keeps to Table 14.5, and to the sizes of R325, and is of a type that a port takes. -/
def dgOk (d : Datagram) : Bool :=
  d.magic == 0xF1D7 && d.ver == 1 && d.win.toNat < 16 && d.flags.toNat < 2 &&
  ((d.type == 1 && d.len.toNat == d.payload.length && d.len.toNat ≤ 8192 &&
      (d.flags == 1 || d.len.toNat % 64 == 0)) ||
    (d.type == 4 && d.payload.isEmpty))

/-- The window a datagram names. -/
def dgWindow (d : Datagram) (s : PortState) : Window := s.wins[Fin.ofNat 16 d.win.toNat]

/-- The source lies in the window's prefix. -/
def Window.admits (x : Window) (ip : W32) : Bool :=
  let n := min x.plen.toNat 32
  ip.toNat / 2 ^ (32 - n) == x.net.toNat / 2 ^ (32 - n)

/-- A datagram back to the sender of d. -/
def dgReply (d : Datagram) (type flags seq offset len : Nat) (payload : List Byte) : Datagram :=
  let r := { d with
    magic := 0xF1D7, ver := 1, type := BitVec.ofNat 8 type, flags := BitVec.ofNat 16 flags, seq := BitVec.ofNat 32 seq
    offset := BitVec.ofNat 64 offset, len := BitVec.ofNat 32 len, check := 0, payload := payload }
  { r with check := dgSum r }

def PortState.answer (s : PortState) (d : Datagram) : PortState :=
  { s with sentDatagrams := s.sentDatagrams ++ [d], ethTx := s.ethTx + 1 }

/-- NACK: 1 RESTART, 2 BUSY, 3 RANGE, 4 DENIED. -/
def PortState.nack (s : PortState) (d : Datagram) (reason : Nat) : PortState := s.answer (dgReply d 3 0 0 0 reason [])

/-- What every datagram passes: CHECK, Table 14.5, the source prefix. -/
def PortState.screen (s : PortState) (d : Datagram) : Option PortState :=
  if d.check != dgSum d then some s.badChecked
  else if !dgOk d || !(dgWindow d s).admits d.peerIp then some s.ethDropped
  else none

/-! ### WRITE (R325, R326) -/

def IngestMsg.key (m : IngestMsg) (d : Datagram) : Bool := m.win == d.win.toNat && m.msgid == d.msgid

/-- Every SEQ up to the LAST is present. -/
def IngestMsg.whole (m : IngestMsg) : Bool :=
  match m.lastSeq with
  | some n => (List.range (n + 1)).all fun i => (m.parts.find? fun x => x.1 == i).isSome
  | none => false

/-- A part at its offset, by SEQ; a SEQ already held stays. -/
def IngestMsg.take (m : IngestMsg) (d : Datagram) : IngestMsg :=
  if (m.parts.find? fun x => x.1 == d.seq.toNat).isSome then m
  else
    { m with
      parts := m.parts ++ [(d.seq.toNat, d.offset.toNat, d.payload)]
      lastSeq := if d.flags == 1 then some d.seq.toNat else m.lastSeq }

def IngestMsg.bytes (m : IngestMsg) : Nat := (m.parts.map fun x => x.2.2.length).sum

/-- The message is written whole, signalled and acknowledged. -/
def ingestDone (c : Channel) (p : Port) (m : IngestMsg) (d : Datagram) : Channel :=
  let x := dgWindow d c.ports[p]
  let c := m.parts.foldl (fun c (_, o, bs) => c.wr (x.base.toNat + o) bs) c
  let c := c.semAdd x.sem 1
  c.modPort p fun s =>
    let s := { s with
      ingest := s.ingest.filter fun e => !e.key d
      wins := s.wins.set (Fin.ofNat 16 d.win.toNat) { x with done := (d.msgid :: x.done).take 256 } }
    s.answer (dgReply d 2 0 0 c.stp.batch.toNat 0 [])

/-- A WRITE datagram that passed the screen. -/
def ingestWrite (c : Channel) (p : Port) (d : Datagram) : Channel :=
  let s := c.ports[p]
  let x := dgWindow d s
  if !x.wr then c.modPort p (·.nack d 4)
  else if x.done.contains d.msgid then c.modPort p (·.answer (dgReply d 2 0 0 c.stp.batch.toNat 0 []))
  else
    let old := s.ingest.find? fun m => m.key d
    let m := (old.getD { win := d.win.toNat, msgid := d.msgid, parts := [] }).take d
    if x.size.toNat < d.offset.toNat + d.payload.length || 65536 < m.bytes then
      c.modPort p fun s => ({ s with ingest := s.ingest.filter fun e => !e.key d } : PortState).nack d 3
    else if old.isNone && d.seq != 0 then
      c.modPort p fun s => ({ s with lateDrop := satAdd s.lateDrop 1 } : PortState).nack d 1
    else if old.isNone && decide (16 ≤ s.ingest.length) then c.modPort p (·.nack d 2)
    -- memory of a stack that has stopped its accesses cannot be written yet (13 R303)
    else if m.whole && m.parts.any (fun q => c.stopped (x.base.toNat + q.2.1) q.2.2.length) then c
    else if m.whole then ingestDone c p m d
    else
      c.modPort p fun s => { s with
        ingest := if old.isNone then s.ingest ++ [m] else s.ingest.map fun e => if e.key d then m else e }

/-! ### READ (R327) -/

/-- Bytes of memory as a reader outside the engines gets them: those of an uncorrectable word are free. -/
def Wk.rdFree (w : Wk) (a n : Nat) : Wk × List Byte :=
  match w.c.badIn a n false with
  | none => (w, w.c.rd a n)
  | some _ =>
    ({ w with ctr := w.ctr + 1 }, (w.c.rd a n).zipIdx.map fun (b, i) =>
      if w.c.bad.contains (wordOf (a + i)) then Config.freeByte w.ctr i else b)

/-- The DATA datagrams from offset o on, n bytes left. -/
def readGo (p : Port) (d : Datagram) (base : Nat) : Nat → Nat → Nat → Nat → Wk → Wk
  | 0, _, _, _, w => w
  | k + 1, seq, o, n, w =>
    let m := min n 8192
    let (w, bs) := w.rdFree (base + o) m
    let w := w.mod fun c => c.modPort p (·.answer (dgReply d 5 (b2n (decide (n ≤ 8192))) seq o m bs))
    if n ≤ 8192 then w else readGo p d base k (seq + 1) (o + m) (n - m) w

/-- A READ that passed the screen. -/
def ingestRead (w : Wk) (p : Port) (d : Datagram) : Wk :=
  let x := dgWindow d w.c.ports[p]
  if !x.rd then w.mod fun c => c.modPort p (·.nack d 4)
  else if 65536 < d.len.toNat || x.size.toNat < d.offset.toNat + d.len.toNat then w.mod fun c => c.modPort p (·.nack d 3)
  else if w.c.stopped (x.base.toNat + d.offset.toNat) d.len.toNat then w
  else
    -- an uncorrectable word is detected on the read (13 R295)
    let w := w.mod fun c => c.adoriRead [(x.base.toNat + d.offset.toNat, d.len.toNat)]
    readGo p d x.base.toNat 9 0 d.offset.toNat d.len.toNat w

/-- A datagram of a row: its port is an Ethernet port with a link; screened, then given to the row. -/
def onDatagram (s : State) (ch : Ch) (p : Port) (d : Datagram) (f : Wk → Wk) : State :=
  onUp s ch fun w =>
    let t := w.c.ports[p]
    if !t.ethUp then w
    else
      match t.screen d with
      | some t => w.mod fun c => c.modPort p fun _ => t
      | none => f w

/-! ### Rows -/

/-- ETHERNET_FRAME (R323). -/
def execEthernetFrame (ch : Ch) (p : Port) (f : Frame) (s : State) : Host.Outcome State Fault Refusal :=
  .next (modUp s ch fun c => if c.ports[p].ethUp then c.modPort p (·.ethFrame f) else c)

/-- INGEST_WRITE (R324 to R326): any datagram that is no READ. -/
def execIngestWrite (ch : Ch) (p : Port) (d : Datagram) (s : State) : Host.Outcome State Fault Refusal :=
  .next (if d.type == 4 then s else onDatagram s ch p d fun w => w.mod fun c => ingestWrite c p d)

/-- INGEST_READ (R327). -/
def execIngestRead (ch : Ch) (p : Port) (d : Datagram) (s : State) : Host.Outcome State Fault Refusal :=
  .next (if d.type == 4 then onDatagram s ch p d fun w => ingestRead w p d else s)

/-- INGEST_STALLTMO_EXPIRY (R326, R318). -/
def execIngestStalltmoExpiry (ch : Ch) (p : Port) (msg : IngestMsgId) (s : State) :
    Host.Outcome State Fault Refusal :=
  .next (modUp s ch fun c => c.modPort p fun t =>
    if t.ingest.any fun m => m.win == msg.win.val && m.msgid == msg.msgid then
      { t with ingest := t.ingest.eraseP (fun m => m.win == msg.win.val && m.msgid == msg.msgid), stallDrop := satAdd t.stallDrop 1 }
    else t)

end Sys2Proof.Machine
end

