-- ==== Sys2Proof/Machine/MemRas.lean ====
section
/-!
DEFINITION. Memory faults and care: address guard violations (02 R53, 16 R356), uncorrectable words, failed
connections, scrubbing, refresh and stack temperature (13), and the logic checks and the watchdog (16 R352 to R354).
-/
namespace Sys2Proof.Machine

open Sys2Proof

/-- The module is powered: its input switch is closed and its rails are good (19 R428). -/
def State.powered (s : State) : Bool := s.bridge.switchClosed && s.bridge.pgood

/-- Runs a memory controller's operation on a channel of a powered module. -/
def modPowered (s : State) (ch : Ch) (f : Channel → Channel) : State := if s.powered then s.modCh ch f else s

/-- The channel becomes degraded (16 R361): a heartbeat at once, with the class. -/
def Channel.degrade (c : Channel) (cls addr mask : Nat) : Channel :=
  let f := { c.flt with
    degraded := true, fclass := BitVec.ofNat 8 cls, faddr := BitVec.ofNat 48 addr
    degmask := c.flt.degmask ||| BitVec.ofNat 8 mask }
  let c := { c with flt := f }
  if c.up then c.sendHb else c

/-! ### Address guard (16 R356) -/

/-- The address lies outside every populated region, or the host function reaches register space (02 R54). -/
def violates (m : Master) (a : Nat) : Bool :=
  !inRegion a 1 || (m == .host && decide (regBase ≤ a) && decide (a < regBase + regSize))

/-- The command of a master that the violation ends: the oldest that runs without a result. -/
def Channel.victim (c : Channel) (m : Master) : Option Running :=
  match m with
  | .engine e => c.running.find? fun r => srcEngine r.src == some e && r.result.isNone
  | _ => none

def addressGuardViolation (c : Channel) (m : Master) (a : Nat) (write : Bool) : Channel :=
  if !violates m a || c.isFrozen m then c
  else
    let v := c.victim m
    let c := c.freeze m a write
    match v with
    | some r => c.finish { r with held := none } { status := 0x14, info := BitVec.ofNat 64 a }
    | none => c

/-! ### Uncorrectable words (13 R295, R298, R306; 16 R355) -/

/-- An address of DRAM or of a Névé. -/
def inMemory (a : Nat) : Bool := inDram a 1 || (neveOf a).isSome

/-- From now on the codeword or word of an address reads as uncorrectable. -/
def Channel.spoil (c : Channel) (a : Nat) : Channel :=
  if c.bad.contains (wordOf a) then c else { c with bad := c.bad ++ [wordOf a] }

/-- What a memory controller makes of a codeword or word it reads (R293, R306). -/
inductive Decoded where
  | clean
  /-- corrected, with the symbols put right -/
  | corrected (syms : List (BitVec 7))
  | uncorrectable
  /-- more symbols in error than the code is sure of: not seen, or taken for another error -/
  | unsure
  deriving DecidableEq, Repr

/-- The slice of an address (R292). -/
def sliceOf (a : Nat) : BitVec 6 :=
  let o := a % 0x900000000
  BitVec.ofNat 6 (bits o 13 8 ^^^ bits o 19 14 ^^^ bits o 25 20)

/-- Distinct symbols of a codeword, or bits of a Névé word, that are in error: there are 72. -/
def inError (errs : List (BitVec 7)) : List (BitVec 7) := (errs.filter fun x => decide (x.toNat < 72)).dedup

/-- The Reed–Solomon decoder (R293, R297): a marked symbol is an erasure, and one more in error is corrected,
but not one of a second failed position of the slice. -/
def StackState.decode (t : StackState) (a : Nat) (errs : List (BitVec 7)) : Decoded :=
  let es := inError errs
  let fresh := es.filter fun x => !t.marked.contains (sliceOf a, x)
  if es.isEmpty then .clean
  else if fresh.any fun x => t.second.contains (sliceOf a, x) then .uncorrectable
  else if fresh.length ≤ 1 then .corrected es
  else if es.length ≤ 7 then .uncorrectable
  else .unsure

/-- The SEC-DED decoder of Névé and the other SRAMs (R306, 16 R353). -/
def decodeSram (errs : List (BitVec 7)) : Decoded :=
  match (inError errs).length with
  | 0 => .clean
  | 1 => .corrected (inError errs)
  | 2 => .uncorrectable
  | _ => .unsure

/-- What is made of the word at an address; one that reads as uncorrectable is found so (R296). -/
def Channel.decodeAt (c : Channel) (a : Nat) (errs : List (BitVec 7)) : Decoded :=
  if c.bad.contains (wordOf a) then .uncorrectable
  else if a < dramSize then (c.stk[(⟨a / 0x900000000 % 4, Nat.mod_lt _ (by decide)⟩ : Stack)]).decode a errs
  else decodeSram errs

/-- A correction is counted, by slice and symbol in a stack (R294, R297, R306). -/
def Channel.corrected (c : Channel) (a : Nat) (syms : List (BitVec 7)) : Channel :=
  if a < dramSize then
    c.modStack ⟨a / 0x900000000 % 4, Nat.mod_lt _ (by decide)⟩ fun t =>
      { t with
        ceTotal := t.ceTotal + 1
        corr := syms.foldl (fun l x =>
          let k := (sliceOf a, x)
          (k, (l.lookup k).getD 0 + 1) :: l.filter fun y => y.1 != k) t.corr }
  else match neveOf a with
    | some k =>
      if h : k < 8 then c.modCore ⟨k, h⟩ fun s => { s with neve := { s.neve with ceTotal := s.neve.ceTotal + 1 } } else c
    | none => c

/-- Byte i of a word holds a symbol in error (R292), or bits in error of a Névé word. -/
def hitByte (a : Nat) (es : List (BitVec 7)) (i : Nat) : Bool :=
  es.any fun x => if a < dramSize then x.toNat == i else x.toNat / 8 == i

/-- The bytes in error of a word whose error was not seen, or was put right wrongly: free values (log 63). -/
def Wk.garble (w : Wk) (a : Nat) (es : List (BitVec 7)) : Wk :=
  let b := wordOf a
  { w with
    c := w.c.wr b ((List.range (wordSize a)).map fun i =>
      if hitByte a es i then Config.freeByte w.ctr i else Mem.byte 0 w.c.mem (b + i))
    ctr := w.ctr + 1 }

/-- A word is read and decoded: the work after, and whether it is uncorrectable. Of an error beyond the code's reach a
free choice says whether it is found, missed, or taken for a single one (R293; log 63). -/
def Wk.decode (w : Wk) (a : Nat) (errs : List (BitVec 7)) : Wk × Bool :=
  match w.c.decodeAt a errs with
  | .clean => (w, false)
  | .corrected es => (w.mod fun c => c.corrected a es, false)
  | .uncorrectable => (w.mod fun c => c.spoil a, true)
  | .unsure =>
    let x := (Config.freeByte w.ctr 0).toNat
    let w := { w with ctr := w.ctr + 1 }
    match x % 3 with
    | 0 => (w.mod fun c => c.spoil a, true)
    | 1 => (w.garble a (inError errs), false)
    | _ =>
      let y : BitVec 7 := BitVec.ofNat 7 (x / 3 % 72)
      ((w.garble a (y :: inError errs)).mod fun c => c.corrected a [y], false)

/-- The command of a source that has no result ends with status 0x16. -/
def Channel.endUe (c : Channel) (s : Src) (info : W64) : Channel :=
  match c.findRun s with
  | some x => if x.result.isSome then c else c.finish { x with held := none, halted := none } { status := 0x16, info := info }
  | none => c

/-- The read of UNCORRECTABLE_READ can be going on. -/
def Channel.reads (c : Channel) (r : Reader) (a : Nat) : Bool :=
  match r with
  | .command s => inMemory a && !c.stopped a 1 && ((c.findRun s).map fun x => x.result.isNone).getD false
  | .fill k x slot => inMemory a && !c.stopped a 1 && (c.cores[k].esk.ctxs[x].slot slot.val).st == .filling
  | .adori | .host => inMemory a && !c.stopped a 1
  | .sram s => match s with | some x => ((c.findRun x).map fun x => x.result.isNone).getD false | none => true
  | .cache _ => true

/-- UNCORRECTABLE_READ: a read meets a word with symbols or bits in error (R293 to R295, R306). The SRAMs outside Névé
have no address in the map: a command that meets one ends with a free INFO (16 R353; log 63). A translation cache entry
that fails its parity check is discarded, and the next translation re-reads it (16 R353). -/
def uncorrectableRead (w : Wk) (r : Reader) (addr : Nat) (errs : List (BitVec 7)) : Wk :=
  if !w.c.reads r addr then w
  else
    let a := wordOf addr
    match r with
    | .sram s =>
      let found := match decodeSram errs with
        | .uncorrectable => true
        | .unsure => (Config.freeByte w.ctr 0).toNat % 3 == 0
        | _ => false
      if !found then w
      else
        let c := match s with | some x => w.c.endUe x (Config.freeInfo w.ctr) | none => w.c
        { w with c := c.reportFault 0x02 0, ctr := w.ctr + 1 }
    | .cache page => w.mod fun c => { c with agd := { c.agd with tc := c.agd.tc.filter fun p => p.1 != page } }
    | _ =>
      match w.decode a errs with
      | (w, false) => w
      | (w, true) =>
        match r with
        | .command s => w.mod fun c => (c.noteUe a false).endUe s (BitVec.ofNat 64 a)
        | .fill k x slot => w.mod fun c => (holdFault (c.noteUe a false) k x slot.val 0x16 a).classifyUe a
        | _ => w.mod fun c => (c.noteUe a true).classifyUe a

/-- A scrubber reads a word (R298, R306). -/
def Wk.scrub (w : Wk) (a : Nat) (errs : List (BitVec 7)) : Wk :=
  match w.decode (wordOf a) errs with
  | (w, false) => w
  | (w, true) => w.mod fun c =>
    let c := c.noteUe a true
    if c.up then c.classifyUe (wordOf a) else c

/-- PATROL_SCRUB (R298): while TF is below 16/16 or accesses are stopped, none. -/
def patrolScrub (w : Wk) (i : Stack) (a : Nat) (errs : List (BitVec 7)) (last : Bool) : Wk :=
  let t := w.c.stk[i]
  if !inDram a 1 || a / 0x900000000 != i.val || t.tf != 16 || t.overtemp then w
  else
    let w := if last then w.mod fun c => c.modStack i fun t => { t with scrub := t.scrub + 1 } else w
    w.scrub a errs

/-- NEVE_SCRUB (R306). -/
def neveScrub (w : Wk) (k : Core) (a : Nat) (errs : List (BitVec 7)) : Wk :=
  if neveOf a != some k.val then w else w.scrub a errs

/-! ### Failed connections (R297) -/

/-- BADCONN_MARK: a symbol position corrected 16 times; that it was within 1 ms is the row's occasion (log 2). -/
def badconnMark (t : StackState) (slice : BitVec 6) (symbol : BitVec 7) : StackState :=
  if (t.corr.lookup (slice, symbol)).getD 0 < 16 || t.marked.contains (slice, symbol) then t
  else if t.marked.any fun m => m.1 == slice then
    if t.second.contains (slice, symbol) then t else { t with second := t.second ++ [(slice, symbol)] }
  else
    let t := { t with marked := t.marked ++ [(slice, symbol)], stBadconn := true }
    if t.badValid then t else { t with badValid := true, badSlice := slice, badSymbol := symbol }

/-! ### Refresh and temperature (R300 to R303) -/

/-- Of the intervals due, one is served, and as many more as exceed the 8 that may be postponed. -/
def refreshStack (t : StackState) (due : Nat) : StackState :=
  let n := t.owed + due
  let k := if n = 0 then 0 else max 1 (n - 8)
  { t with owed := n - k, refreshes := t.refreshes + k }

/-- TF of a reading up to 95 °C (Table 13.3). -/
def fractionAt (r : Nat) : Nat := if r ≤ 87 then 16 else if r ≤ 91 then 16 - 2 * (r - 87) else 99 - r

/-- A reading: the hottest die, rounded up to a whole degree. -/
def readingOf (milliC : List Nat) : Nat := min ((milliC.foldl max 0 + 999) / 1000) 255

/-- The registers at a new reading r; TF above 95 °C, where the spec gives none, is tf. -/
def StackState.update (t : StackState) (r : Nat) (tf : Byte) : StackState :=
  let hot := if 96 ≤ r then true else if r ≤ 92 then false else t.overtemp
  { t with
    temp := BitVec.ofNat 8 r
    tmax := if t.tmax.toNat < r then BitVec.ofNat 8 r else t.tmax
    ref2x := if 86 ≤ r then true else if r ≤ 83 then false else t.ref2x
    tf := if r ≤ 95 then BitVec.ofNat 8 (fractionAt r) else tf
    overtemp := hot
    stOvertemp := t.stOvertemp || decide (96 ≤ r) }

def stackTempUpdate (w : Wk) (i : Stack) (milliC : List Nat) : Wk :=
  let r := readingOf milliC
  let before := w.c.stk[i].overtemp
  let w := { w with
    c := w.c.modStack i fun t => t.update r (Config.freeByte w.ctr 0)
    ctr := w.ctr + 1 }
  if 96 ≤ r && !before then w.mod fun c => c.degrade 0x09 0 0 else w

/-! ### The watchdog (16 R354) -/

/-- An array with its rows disabled: they keep their accumulators (17 R393). -/
def noRows (a : ArrayState) : ArrayState := { a with rowsOn := false }

/-- The rows of a core's arrays are disabled. -/
def CoreState.rowsOff (s : CoreState) : CoreState := { s with rime := noRows s.rime, firnA := noRows s.firnA, firnB := noRows s.firnB }

/-- Every core PLL and PLL A COLD (17 R377), and so every row disabled (17 R393). -/
def Channel.allCold (c : Channel) : Channel :=
  { c with
    gov := { c.gov with pllA := .cold, cores := c.gov.cores.map fun k => { k with pll := .cold } }
    cores := c.cores.map CoreState.rowsOff }

/-- Permafrost holds the channel; its heartbeats stop. -/
def watchdogExpiry (c : Channel) : Channel :=
  let c := { c with
    boot := { c.boot with life := .held, cause := .wdog }
    flt := { c.flt with fault := true, fclass := 0x05, faddr := 0 } }
  c.allCold

/-! ### Rows -/

/-- ADDRESS_GUARD_VIOLATION (16 R356). -/
def execAddressGuardViolation (ch : Ch) (m : Master) (addr : Addr) (write : Bool) (s : State) :
    Host.Outcome State Fault Refusal :=
  .next (modUp s ch fun c => addressGuardViolation c m addr.toNat write)

/-- UNCORRECTABLE_READ (13 R295). -/
def execUncorrectableRead (ch : Ch) (r : Reader) (word : WordRead) (s : State) :
    Host.Outcome State Fault Refusal :=
  .next (onUp s ch fun w => uncorrectableRead w r word.addr.toNat word.errs)

/-- BADCONN_MARK (13 R297). -/
def execBadconnMark (ch : Ch) (i : Stack) (slice : BitVec 6) (symbol : BitVec 7) (s : State) :
    Host.Outcome State Fault Refusal :=
  .next (modPowered s ch fun c => c.modStack i fun t => badconnMark t slice symbol)

/-- PATROL_SCRUB (13 R298). -/
def execPatrolScrub (ch : Ch) (i : Stack) (addr : Addr) (errs : List (BitVec 7)) (last : Bool) (s : State) :
    Host.Outcome State Fault Refusal :=
  .next (if s.powered then s.onCh ch fun w => patrolScrub w i addr.toNat errs last else s)

/-- NEVE_SCRUB (13 R306). -/
def execNeveScrub (ch : Ch) (k : Core) (addr : Addr) (errs : List (BitVec 7)) (s : State) :
    Host.Outcome State Fault Refusal :=
  .next (if s.powered then s.onCh ch fun w => neveScrub w k addr.toNat errs else s)

/-- REFRESH (13 R301). -/
def execRefresh (ch : Ch) (i : Stack) (due : Nat) (s : State) : Host.Outcome State Fault Refusal :=
  .next (modPowered s ch fun c => c.modStack i fun t => refreshStack t due)

/-- WATCHDOG_EXPIRY (16 R354, 18 Table 18.6). -/
def execWatchdogExpiry (ch : Ch) (s : State) : Host.Outcome State Fault Refusal :=
  .next (modUp s ch watchdogExpiry)

end Sys2Proof.Machine
end

