-- ==== Sys2Proof/Machine/Clocks.lean ====
section
/-!
DEFINITION. Budgets, clock groups and PLL states (17) that other chapters' operations touch.
-/
namespace Sys2Proof.Machine

open Sys2Proof

/-- T_in: a thermistor open or short counts as 40 °C (19 R437). -/
def Gov.inlet (g : Gov) : Nat := if g.tin = 255 then 40 else g.tin.toNat

/-- P_th in watts; none where THPOL lifts the ceiling (R395). -/
def Gov.pth (g : Gov) : Option Nat :=
  match g.thpol.toNat with
  | 0 => some ((87 - g.inlet) * 1000 / 95)
  | 1 => some ((85 - g.inlet) * 1000 / 95)
  | _ => none

/-- A loan of n watts as far as the thermal ceiling lets it raise the budget (R395). -/
def Gov.loanCap (g : Gov) (n : Nat) : Nat :=
  match g.pth with
  | some p => min n (p - g.grant.toNat)
  | none => n

/-- The budget in watts: the grant and any loan, less the thermal cut; without an arbiter no loan, and the grant capped
at the allowance (R383, R391, R395, R396). -/
def Gov.budget (g : Gov) : Nat :=
  (if g.noarb then min g.grant.toNat g.allow.toNat else g.grant.toNat + g.loanCap g.borrowed.toNat) - 10 * g.thcut.toNat

/-- The newest n samples. -/
def Gov.last (g : Gov) (n : Nat) : List Nat := g.samples.take n

/-- A mean over samples exceeds num/den of the budget, exactly. -/
def Gov.exceeds (g : Gov) (xs : List Nat) (num den : Nat) : Bool := decide (num * (10 * g.budget) * xs.length < den * xs.sum)

/-- P1s exceeds the budget, or P1ms 11/9 of it (R384). -/
def Gov.overBudget (g : Gov) : Bool := g.exceeds (g.last 1000000) 1 1 || g.exceeds (g.last 1000) 11 9

/-- F_max of a core; a core not yet measured sets no limit (log 32). -/
def CorePower.cap (k : CorePower) : Nat := if k.fmax = 0 then 88 else k.fmax.toNat

/-- FCEIL as it is in force: FTOP outside training mode and before the first commit (R386). -/
def Channel.fceilNow (c : Channel) : Nat :=
  if c.inTraining && decide (0 < c.stp.commits) then c.gov.fceil.toNat else c.gov.ftop.toNat

/-! ### The nominal estimate (R382) -/

/-- The estimate of the channel with each hot core at a code of its own, the Ablation engines and PLL A at fg. -/
def estimate (xs : List (Activity × Nat)) (abl : Activity) (fg : Nat) : Nat :=
  (xs.map fun x => Config.coreEstimate x.1.groups x.1.neve x.1.elems x.1.stages x.2).sum +
    Config.ablationEstimate abl.elems fg + Config.fixedEstimate

/-- The highest permitted code up to top at which p holds; the lowest permitted one where it holds at none. -/
def highest (top : Nat) (p : Nat → Bool) : Nat :=
  (((List.range 65).map (24 + ·)).filter fun k => decide (k ≤ top) && p k).foldl max 24

/-- Activity of a core by its number; the ninth entry is that of the Ablation engines. -/
def actOf (acts : List Activity) (i : Nat) : Activity := acts.getD i {}

/-- The code at which the cores that p names, all at one code, fit a power (R382, R386). -/
def Channel.fits (c : Channel) (acts : List Activity) (p : CorePower → Bool) (watts : Nat) : Nat :=
  let xs := (List.finRange 8).filterMap fun k => if p c.gov.cores[k] then some (actOf acts k.val) else none
  highest 88 fun k => decide (estimate (xs.map fun a => (a, k)) (actOf acts 8) k ≤ 10 * watts)

/-! ### Frequency and voltage (R374, R379) -/

/-- The lowest permitted code bounds every clock from below (R374). -/
def clampCode (k : Nat) : BitVec 7 := BitVec.ofNat 7 (max 24 (min k 88))

/-- The fused voltage of a core at a step code (R380). -/
def Channel.fused (c : Channel) (k : Core) (code : Nat) : Nat := Config.tableVoltage (8 * c.chid.toNat + k.val) code

/-- One step of a core towards a code (R379): the voltage is raised before the frequency rises, and lowered after it has
fallen. A core that has no frequency yet comes to the lowest permitted one. -/
def CorePower.step (x : CorePower) (fused : Nat → Nat) (code : Nat) : CorePower :=
  let f := x.f.toNat
  if f < code then
    let up := max 24 (f + 1)
    { x with volt := max x.volt (fused up + x.voff.toNat), f := BitVec.ofNat 7 up }
  else if code < f then { x with f := BitVec.ofNat 7 (f - 1), volt := fused (f - 1) + x.voff.toNat }
  else x

/-- At most n steps towards a code. -/
def CorePower.glide (x : CorePower) (fused : Nat → Nat) (code : Nat) : Nat → CorePower
  | 0 => x
  | n + 1 => (x.step fused code).glide fused code n

/-- A core with its frequency moved to a code, step by step. -/
def Channel.moved (c : Channel) (k : Core) (code : BitVec 7) : CorePower := c.gov.cores[k].glide (c.fused k) code.toNat 128

/-- F_G of the CHANNEL and DRIFT modes before any lowering (R385). -/
def Channel.groupTarget (c : Channel) : Nat :=
  let g := c.gov
  let caps := (g.cores.toList.filter fun k => k.pll != .cold).map CorePower.cap
  let top := if g.gmode = 2 then min g.ftop.toNat c.fceilNow else g.ftop.toNat
  (caps.foldl min (min g.fpow.toNat top))

/-- Every hot core runs at F_G (R385, CHANNEL and DRIFT). -/
def Channel.setGroup (c : Channel) (k : BitVec 7) : Channel :=
  { c with gov := { c.gov with
    fg := k.setWidth 8
    cores := Vector.ofFn fun i : Core => if c.gov.cores[i].pll = .hot then c.moved i k else c.gov.cores[i] } }

/-- In CORE mode no hot core runs above its F_max or FTOP (R381, R385). -/
def Channel.capCores (c : Channel) : Channel :=
  { c with gov := { c.gov with cores := Vector.ofFn fun i : Core =>
    let x := c.gov.cores[i]
    let top := clampCode (min x.cap c.gov.ftop.toNat)
    if x.pll = .hot && top < x.f then c.moved i top else x } }

/-- In CORE mode F_G is the lowest frequency among the hot cores; with none hot it goes no higher than code 76 (R385). -/
def Channel.lowestHot (c : Channel) : Channel :=
  match (c.gov.cores.toList.filter fun k => k.pll == .hot).map fun k => k.f.toNat with
  | [] => { c with gov := { c.gov with fg := BitVec.ofNat 8 (min c.gov.fg.toNat 76) } }
  | f :: fs => { c with gov := { c.gov with fg := BitVec.ofNat 8 (fs.foldl min f) } }

/-- Katabatic does not raise a clock: the backstop acts, or a core of the group waits to cool (R384, R397). -/
def Channel.heldDown (c : Channel) : Bool :=
  c.gov.overBudget || (c.gov.gmode != 0 && c.gov.cores.toList.any fun k => k.hotTj)

/-- The clock group after cores or limits have changed. -/
def Channel.settle (c : Channel) : Channel :=
  if c.gov.gmode = 0 then c.capCores.lowestHot
  else
    let t := (clampCode c.groupTarget).toNat
    c.setGroup (clampCode (if c.heldDown then min t c.gov.fg.toNat else t))

/-- A PLL comes to HOT; from COLD it passes WARM and is counted (R376, Table 17.2). -/
def Channel.wake (c : Channel) (p : PllId) : Channel :=
  match p with
  | .chanA =>
    { c with gov := { c.gov with
      pllA := .hot, wakeTotal := if c.gov.pllA == .cold then c.gov.wakeTotal + 1 else c.gov.wakeTotal } }
  | .core k =>
    let x := c.gov.cores[k]
    if x.pll = .hot then c
    else
      let f := clampCode (min c.gov.fg.toNat (min x.cap c.gov.ftop.toNat))
      -- a core that waits to cool is not raised (R397)
      let f := if x.hotTj && x.f != 0 && x.f < f then x.f else f
      let c := { c with gov := { c.gov with
        cores := c.gov.cores.set k { c.moved k f with pll := .hot }
        wakeTotal := if x.pll = PllSt.cold then c.gov.wakeTotal + 1 else c.gov.wakeTotal } }
      c.settle

/-- The end of a core's cold condition: one of its queues is enabled, and its PLL goes from COLD to WARM (Table 17.2). -/
def Channel.leaveCold (c : Channel) (q : QIdx) : Channel :=
  match (queueEngine q.val).bind engineCore with
  | some k =>
    let x := c.gov.cores[k]
    if x.pll = .cold then
      { c with gov := { c.gov with cores := c.gov.cores.set k { x with pll := .warm }, wakeTotal := c.gov.wakeTotal + 1 } }.settle
    else c
  | none => c

/-- An ab.* opcode (02 Table 2.4). -/
def isAb (opc : Byte) : Bool := decide (0x50 ≤ opc.toNat) && decide (opc.toNat ≤ 0x52)

/-- The clock of an engine that starts a command: PLL A for ab.* only (R377). -/
def Channel.wakeFor (c : Channel) (e : Engine) (k : Command) : Channel :=
  match e with
  | .array k | .moraine k | .esker k => c.wake (.core k)
  | .ablation _ => if isAb k.opc then c.wake .chanA else c
  | _ => c

end Sys2Proof.Machine
end

