-- ==== Sys2Proof/Machine/Queues.lean ====
section
/-!
DEFINITION. Queues, the dispatcher and command lists (01, 02): starting and completing commands, completion records,
floes and their shares, doorbells and queue control, semaphores.
-/
namespace Sys2Proof.Machine

open Sys2Proof

/-! ### Queue state (02 Table 2.12) -/

/-- A command of the queue has started and not completed. -/
def Channel.busyQ (c : Channel) (q : QIdx) : Bool := (c.findRun (.queue q)).isSome

/-- CQ_STATUS.STATE. Where several apply, FROZEN and STOPPED come first, then the wait for a slot, then the wait on a
semaphore, then RUNNING: Table 2.12 gives no order (DESIGN CHOICE, log 113). -/
def Channel.stateQ (c : Channel) (q : QIdx) : Nat :=
  let x := c.queues[q]
  if x.frozen then 5
  else if x.stopped then 4
  else if x.cplBlocked then 3
  else if x.semWait then 2
  else if c.busyQ q || x.draining || !x.waiting.isEmpty || (x.enable && x.pi != x.ci) then 1
  else 0

/-- A reserved queue index (R28). -/
def reservedQ (q : QIdx) : Bool := (queueEngine q.val).isNone

/-! ### Floes (01 R10, 02 R48 to R50) -/

/-- A floe as it stands when a command reaches the dispatcher: the level of its members, and the members in order. -/
structure Floe where
  level : Nat
  members : List Member
  deriving DecidableEq, Repr

/-- LEVEL of an entry of the dispatch table (Table 2.7). -/
def entryLevel (b : List Byte) : Nat := bits (fld b 0 1) 3 1

/-- A member entry (Table 2.8). -/
def Member.parse (v : Nat) : Member := ⟨BitVec.ofNat 16 (bits v 31 16), BitVec.ofNat 16 (bits v 15 0)⟩

/-- The member list of an entry of the dispatch table: the dispatcher reads it in memory (13 R295, R303, 02 R53). -/
def Channel.memberList (c : Channel) (e : List Byte) : Ck (List Member) := do
  let n := fld e 1 1 % 128
  let l ← c.get (fld e 8 6) (4 * n)
  pure ((List.range n).map fun i => Member.parse (fld l (4 * i) 4))

/-- The predefined floes (Table 2.7, R48); none without a MEMBERSHIP section, or without a member left (R10). -/
def Channel.predefined (c : Channel) (id : W16) : Option Floe :=
  let me := c.chid
  let mem := c.flt.members
  let n := id.toNat
  let listed (f : Floe) : Option Floe := if c.boot.cfg.hasMembership && !f.members.isEmpty then some f else none
  if n = 0 then some ⟨0, (List.range 8).map fun i => ⟨me, BitVec.ofNat 16 (i + 1)⟩⟩
  else if n ≤ 8 then some ⟨0, [⟨me, id⟩]⟩
  else if n = 9 then
    some ⟨1, (List.range 8).map fun d => ⟨BitVec.ofNat 16 (8 * c.boot.cfg.ident.modid.toNat + d), 0⟩⟩
  else if n = 10 then listed ⟨2, mem.modules.map fun m => ⟨BitVec.ofNat 16 (8 * m.toNat + me.toNat % 8), 9⟩⟩
  else if n = 11 then listed ⟨3, mem.driftManagers.map fun m => ⟨m, 10⟩⟩
  else if n = 12 then listed ⟨4, mem.fieldManagers.map fun m => ⟨m, 11⟩⟩
  else none

/-- The members of an identifier (Table 2.7, R48); status 0x12 where it is not defined. -/
def Channel.floe (c : Channel) (id : W16) : Ck Floe :=
  match c.predefined id, c.table.lookup id.toNat with
  | some f, _ => .ok f
  | none, some e => (c.memberList e).map fun ms => ⟨entryLevel e, ms⟩
  | none, none => .error (.status 0x12 0)

/-- A member's identifier has the form its level calls for; one of this channel is checked in its table, with all that
nests in it (R49). `depth` bounds the nesting: an entry's level lies below that of the floe that names it. -/
def Channel.memberOkGo (c : Channel) : Nat → Nat → Member → Ck Bool
  | 0, _, _ => .ok false
  | depth + 1, level, m =>
    let n := m.floe.toNat
    if level = 0 then .ok (decide (1 ≤ n) && decide (n ≤ 8))
    else if n = 0 then .ok true
    else if n < 9 then .ok false
    else if n < 12 then .ok (level == n - 7 && (n == 9 || m.chan != c.chid || (c.predefined m.floe).isSome))
    else if n < 0x100 then .ok false
    else if m.chan != c.chid then .ok true
    else match c.table.lookup n with
      | some e =>
        if level ≤ entryLevel e then .ok false
        else do
          let ms ← c.memberList e
          let oks ← ms.mapM (c.memberOkGo depth (entryLevel e))
          pure (oks.all id)
      | none => .ok false

def Channel.memberOk (c : Channel) (level : Nat) (m : Member) : Ck Bool := c.memberOkGo (level + 1) level m

/-- What fl.define installs (R48, R49): identifier and entry. -/
def flDefine (c : Channel) (r : Running) : Ck (Nat × List Byte) := do
  let bad : Err := .status 0x12 0
  let a := bits r.cmd.a0.toNat 47 0
  let id := bits r.cmd.a1.toNat 15 0
  let b ← c.get a 32
  let f := fld b 0 1
  let level := bits f 3 1
  let n := fld b 1 1 % 128
  let list := fld b 8 6
  need (f.testBit 0 && decide (level ≤ 4) && decide (1 ≤ n) && decide (n ≤ 64) && list % 4 == 0 && decide (0x100 ≤ id)) bad
  let ms ← c.memberList b
  let oks ← ms.mapM (c.memberOk level)
  need (oks.all fun x => x) bad
  pure (id, b)

/-- A fl.define takes effect when it completes (R50). -/
def Channel.define (c : Channel) (r : Running) : Channel :=
  match r.defines with
  | some (id, b) => { c with table := (id, b) :: c.table.filter fun x => x.1 != id }
  | none => c

/-! ### Opcodes (Table 2.4) -/

/-- Codes of Table 2.3. -/
inductive Unit4 where
  | any | arr | mor | esk | cfl | abl | dsp
  deriving DecidableEq, Repr

/-- The engine of an opcode; none where Table 2.4 has no such opcode. -/
def opcUnit (o : Byte) : Option Unit4 :=
  match o.toNat with
  | 0x00 | 0x01 | 0x02 | 0x03 => some .any
  | 0x04 => some .dsp
  | 0x10 | 0x11 | 0x12 | 0x18 | 0x19 => some .arr
  | 0x20 | 0x21 | 0x22 => some .mor
  | 0x30 | 0x31 | 0x32 | 0x33 | 0x34 | 0x35 => some .esk
  | 0x40 | 0x41 | 0x42 => some .cfl
  | 0x50 | 0x51 | 0x52 => some .abl
  | _ => none

/-- The engine accepts the opcode; a dispatcher queue takes every opcode, for a floe. -/
def accepts (e : Engine) (u : Unit4) : Bool :=
  match e, u with
  | _, .any => true
  | .array _, .arr => true
  | .moraine _, .mor => true
  | .esker _, .esk => true
  | .confluence, .cfl => true
  | .ablation _, .abl => true
  | .dispatcher, _ => true
  | _, _ => false

/-- The SPLIT values of a split opcode; none where it is replicated. -/
def splits (o : Byte) : Option (List Nat) :=
  match o.toNat with
  | 0x10 => some [0, 1]
  | 0x12 | 0x18 | 0x19 | 0x20 => some [0]
  | 0x30 => some [0, 1, 2, 3]
  | _ => none

/-- The engine of core k that takes a member's share. -/
def coreEngine (o : Byte) (k : Core) : Engine :=
  match opcUnit o with
  | some .mor => .moraine k
  | some .esk => .esker k
  | _ => .array k

/-- A cf.barrier with SKEW = 1 (15 R347). -/
def Command.skewed (k : Command) : Bool := k.opc == 0x42 && k.a0.getLsbD 16

/-- The command as a share carries it: the floe alone waits, signals and writes a record (R39). The release of a cf.barrier
with SKEW makes its eight additions at every member all the same (15 R347; log 69). -/
def Command.forShare (k : Command) : Command :=
  { k with waiten := false, sigen := k.sigen && k.skewed, cpl := false, irq := false }

/-! ### Dispatching (01 R12 to R15) -/

/-- The program and ports of a floe vx.chain: its own or, with CONT = 1, those that its cores' dispatch inputs continue
(07 R180; log 113). -/
def Channel.floeChain (c : Channel) (k : Command) : Option (Nat × List W64) :=
  if k.a5.getLsbD 40 then
    (List.finRange 8).findSome? fun core =>
      (c.liveCtx core (.input (.moraine core))).map fun x => (x.prog.toNat, x.pa)
  else some (bits k.a0.toNat 47 0, [k.a1, k.a2, k.a3, k.a4])

/-- What a split command splits. -/
inductive SplitBy where
  /-- SPLIT says nothing: banks lead (07 R169) -/
  | ignored
  /-- nothing is split, as where no member has a context to continue, but SPLIT must be permitted; INFO then names this address (log 112) -/
  | checked (at_ : Nat)
  /-- the operand's descriptor, and the address INFO names where SPLIT is not permitted (log 112) -/
  | operand (desc at_ : Nat)
  deriving DecidableEq, Repr

/-- The split operand: the output of mm.*, the destination of cv.* and st.copy, the lead port of vx.chain (07 R169). -/
def Channel.splitOperand (c : Channel) (k : Command) (members : Nat) : Ck SplitBy := do
  let ad (v : W64) : Nat := bits v.toNat 47 0
  match k.opc.toNat with
  | 0x10 | 0x12 => pure (.operand (ad k.a2) (ad k.a2))
  | 0x18 | 0x19 | 0x30 => pure (.operand (ad k.a1) (ad k.a1))
  | _ =>
    match c.floeChain k with
    | none => pure (.checked (ad k.a0))
    | some (a, pa) =>
      let h ← c.getBlock a 64 64 0xF
      let g := Chain.parse h []
      if g.iter then do
        need (decide (members ≤ 1)) (.fault 0xF a)
        pure (.checked a)
      else if g.ports.any fun p => p.mode == 4 then pure .ignored
      else
        match (List.range 4).find? fun i => decide (1 ≤ (g.port i).mode) && decide ((g.port i).mode ≤ 3) with
        | some i => pure (.operand (ad (pa.getD i 0)) a)
        | none => pure (.checked a)

/-- Blocks and extent along the split axis of a descriptor (R13). -/
def splitExtent (k : Command) (d : Desc) : Ck (Nat × Nat) := do
  let dim := k.split.toNat
  if k.opc.toNat / 16 = 1 && k.opc.toNat < 0x18 then
    pure (if dim = 0 then (d.br, d.er) else (d.bc, d.ec))
  else
    need (decide (dim < d.nd)) (.fault 0xF d.addr)
    pure (d.blocksAlong dim, d.ext.getD dim 0)

/-- The members' shares of a command: the block range of each, and the extent of the axis. A share of another extent
along the axis ends here (R13). -/
def Channel.plan (c : Channel) (k : Command) (members : Nat) (given : Option (Nat × Nat)) (ext : Option Nat) :
    Ck (List (Option (Nat × Nat)) × Option Nat) := do
  let whole : List (Option (Nat × Nat)) × Option Nat := (List.replicate members given, ext)
  match splits k.opc with
  | none => pure whole
  | some ok =>
    match ← c.splitOperand k members with
    | .ignored => pure whole
    | .checked at_ => do
      need (ok.contains k.split.toNat) (.fault 0xF at_)
      pure whole
    | .operand a at_ =>
      need (ok.contains k.split.toNat) (.fault 0xF at_)
      let d ← c.desc a
      let (b, e) ← splitExtent k d
      match given with
      | some (f, n) =>
        need ((ext.map fun x => x == e).getD true) (.fault 0xF a)
        pure ((shares n members).map fun s => some (f + s.1, s.2), ext)
      | none => pure ((shares b members).map some, some e)

/-- The floe command of a share or a queue's command: membership fixed now (R50), empty shares complete at once (R14). -/
def Channel.makeFloe (c : Channel) (k : Command) (id : W16) (given : Option (Nat × Nat)) (ext : Option Nat)
    (remote : Bool) : Ck (Floe × List MemberState × Option Nat) := do
  let unit := opcUnit k.opc
  let whole := unit == some .cfl || unit == some .abl
  -- a cf.* or ab.* share for this channel as a member goes to its own engines (R36)
  let f ← if remote && id = 0 && whole then pure (⟨1, [⟨c.chid, 0⟩]⟩ : Floe) else
    c.floe id
  need (!(whole && f.level == 0)) (.status 0x12 0)
  let (bs, e) ← c.plan k f.members.length given ext
  pure (f, (f.members.zip bs).map fun (m, b) =>
    match b with
    | some (_, 0) => { member := m, blocks := b, delivered := true, result := some {} }
    | _ => { member := m, blocks := b }, e)

/-- The share for member i of a floe command. -/
def FloeRun.share (f : FloeRun) (i : Nat) (m : MemberState) : Share :=
  { cmd := f.cmd.forShare, blocks := m.blocks, extent := f.extent, ref := ⟨.here f.id, i⟩, floe := m.member.floe
    level := f.level }

/-- Delivers a member's share (R36, R51). -/
def Wk.deliver (w : Wk) (f : FloeRun) (i : Nat) (m : MemberState) : Wk :=
  let c := w.c
  let mark (c : Channel) (owed : Nat) : Channel :=
    c.modFloe f.id fun x => { x with members := x.members.modify i fun y => { y with delivered := true, owed := owed } }
  let sh := f.share i m
  if m.member.chan = c.chid then
    if f.level = 0 then
      let k : Core := ⟨(m.member.floe.toNat - 1) % 8, Nat.mod_lt _ (by decide)⟩
      { w with c := { mark c 1 with inputs := c.inputs ++ [(coreEngine f.cmd.opc k, sh)] } }
    else if m.member.floe = 0 && opcUnit f.cmd.opc = some .cfl then
      { w with c := { mark c 1 with inputs := c.inputs ++ [(.confluence, sh)] } }
    else if m.member.floe = 0 && opcUnit f.cmd.opc = some .abl then
      let own := c.abOwners f.cmd
      { w with c := { mark c own.length with inputs := c.inputs ++ own.map fun a => (Engine.ablation a, sh) } }
    else { w with c := { mark c 1 with inputs := c.inputs ++ [(.dispatcher, sh)] } }
  else
    let b := shareBody sh.cmd sh.floe sh.level f.id i sh.blocks sh.extent
    let c := mark c 1
    match c.send 2 ⟨c.hdr m.member.chan 2 b.length, b⟩ (share := some (f.id, i)) with
    | some c => { w with c := c }
    | none => ({ w with c := c } : Wk).endShare (f.id, i) 0x17

/-- The result of a floe command (R15): an error of the lowest-numbered failing member, else 0x1A, 0x19 or 0x00. -/
def FloeRun.result (f : FloeRun) : Result :=
  let rs := f.members.map fun m => m.result.getD {}
  let sum := match rs with
    | [] => ({} : Result)
    | r :: rest => rest.foldl (resJoin f.cmd.opc) { r with info := infoJoin f.cmd.opc r.info 0 }
  match f.members.zipIdx.find? fun (m, _) => (m.result.map fun r => isError r.status).getD false with
  | some (m, i) =>
    -- a floe vx.* writes INFO 0 whatever its status (07 R184), a floe cf.* that of member 0 (15 R351)
    let info := if opcUnit f.cmd.opc = some .mor then 0 else if opcUnit f.cmd.opc = some .cfl then sum.info
      else (m.result.getD {}).info
    { sum with status := 0x18, info := info, member := BitVec.ofNat 32 (m.member.chan.toNat * 2 ^ 16 + i) }
  | none => { sum with member := 0 }

/-! ### Starting commands (R29 to R33) -/

/-- The units a command holds from its start until it completes (04 R112, 05 R117, R128, 06 R135, R139, R141). -/
def Channel.unitsOf (c : Channel) (k : Command) : List ArrUnit :=
  match k.opc.toNat with
  | 0x10 => [.rime, .rotator, .fz0]
  | 0x11 => [.firnA, .firnB, .fz1a, .fz1b]
  | 0x12 => if k.a5.getLsbD 2 then [.firnB, .fz1b] else [.firnA, .fz1a]
  | 0x18 =>
    let f := c.rdN (bits k.a2.toNat 47 0 + 2) 1
    if f.testBit 3 then (if f.testBit 4 then [.fz1b] else [.fz1a]) else [.rotator, .fz0]
  | 0x19 => [.thaw]
  | _ => []

/-- The dispatcher waits for a stopped stack before it can form a floe command (13 R303). -/
def Channel.floeWaits (c : Channel) (k : Command) (id : W16) (given : Option (Nat × Nat)) (ext : Option Nat)
    (remote : Bool) : Bool :=
  match c.makeFloe k id given ext remote with
  | .error e => e.waits
  | _ => false

/-- The engine can take one more command now: free units, no PAUSE. -/
def Channel.canStart (c : Channel) (e : Engine) (k : Command) : Bool :=
  let mine := c.running.filter fun r => srcEngine r.src == some e
  match e with
  | .array _ => (c.unitsOf k).all fun u => mine.all fun r => !r.units.contains u
  | .moraine m => !c.cores[m].mor.pause && mine.isEmpty
  | .ablation _ => mine.isEmpty
  | _ => true

/-- The arrays that a command's units belong to, whose rows are enabled when it is selected (17 R393). -/
def Channel.rowsFor (c : Channel) (e : Engine) (us : List ArrUnit) : Channel :=
  match e with
  | .array m =>
    c.modCore m fun s => { s with
      rime := { s.rime with rowsOn := s.rime.rowsOn || us.contains .rime }
      firnA := { s.firnA with rowsOn := s.firnA.rowsOn || us.contains .firnA }
      firnB := { s.firnB with rowsOn := s.firnB.rowsOn || us.contains .firnB } }
  | _ => c

/-- A command starts: what it keeps from its start, or the status it ends with at once (R33). Its engine's clock runs
(17 R377). `early` holds descriptors its engine has read already (12 R270). -/
def Wk.begin (w : Wk) (e : Engine) (src : Src) (seq : W32) (k : Command) (sh : Option Share)
    (early : List (Nat × List Byte) := []) : Wk :=
  let us := match e with | .array _ => w.c.unitsOf k | _ => []
  let c := (w.c.wakeFor e k).rowsFor e us
  let r : Running :=
    { src := src, seq := seq, cmd := k, share := sh, step := c.nmon.step, stpVer := c.stp.ver
      copies := if early.isEmpty then captureDescs c src k else early, units := us
      begun := if k.opc = 0x50 then some (c.regionStart (bits k.a1.toNat 47 0)) else none }
  let add (c : Channel) (r : Running) : Wk := { w with c := { c with running := c.running ++ [r] } }
  match opcUnit k.opc with
  | none => add c { r with result := some { status := 0x10 } }
  | some u =>
    if !accepts e u || (u == .dsp && e != .dispatcher) then add c { r with result := some { status := 0x1B } }
    else if e = .dispatcher && u != .dsp then
      match c.makeFloe k k.floe none none false with
      | .ok (f, ms, ext) =>
        add { c with
          floes := c.floes ++ [⟨c.nextFloe, src, seq, k, f.level, ms, ext, none⟩], nextFloe := c.nextFloe + 1 } r
      | .error x =>
        let (c, res) := c.fail r x
        add c { r with result := some res }
    else add c r

/-- A share came from another channel. -/
def Share.remote (sh : Share) : Bool := match sh.ref.owner with | .away .. => true | .here _ | .adori => false

/-- The floe command that a share at the dispatcher's input becomes: a member that breaks R10 here ends with status 0x12
(R49). -/
def Channel.shareFloe (c : Channel) (sh : Share) : Ck (Floe × List MemberState × Option Nat) := do
  need (← c.memberOk sh.level ⟨c.chid, sh.floe⟩) (.status 0x12 0)
  c.makeFloe sh.cmd sh.floe sh.blocks sh.extent sh.remote

/-- A share at the dispatcher's own input becomes a floe command, or ends (R51). -/
def Wk.beginShare (w : Wk) (sh : Share) : Wk :=
  let c := w.c
  let src : Src := .input .dispatcher
  let r : Running := { src := src, cmd := sh.cmd, share := some sh }
  match c.shareFloe sh with
  | .ok (f, ms, ext) =>
    { w with c := { c with
      floes := c.floes ++ [⟨c.nextFloe, src, 0, sh.cmd, f.level, ms, ext, some sh.ref⟩], nextFloe := c.nextFloe + 1 } }
  | .error x =>
    let (c, res) := c.fail r x
    { w with c := (c.classifyEnd res).shareDone sh.ref res }

/-- The head of a queue is taken. -/
def Channel.popQ (c : Channel) (q : QIdx) : Channel :=
  c.modQ q fun x => { x with semWait := false, ci := x.ci + 1, early := [] }

/-- The head of a queue was to be ended with the attempt it belongs to (09 R217). -/
def Queue.aborts (x : Queue) (k : Command) : Bool :=
  let below (l : Option W32) : Bool := match l with | some p => (x.ci - p).msb | none => false
  (opcUnit k.opc == some .abl && below x.abTo) || (opcUnit k.opc == some .cfl && below x.cfTo)

/-- Tries the head of a queue: the work after, and whether a command started. One whose words cannot be read ends with
status 0x16 before anything of it is known (13 R295; log 63). -/
def Wk.tryQueue (w : Wk) (e : Engine) (q : QIdx) : Wk × Bool :=
  let c := w.c
  let x := c.queues[q]
  if !x.enable || x.stopped || x.frozen || x.pi == x.ci || c.busyQ q || x.cplBlocked || c.stopped x.headAddr 64 then
    (w, false)
  else
    match c.badIn x.headAddr 64 false with
    | some k =>
      let r : Running :=
        { src := .queue q, seq := x.ci, cmd := Command.parse [], step := c.nmon.step, stpVer := c.stp.ver
          result := some { status := 0x16, info := BitVec.ofNat 64 k } }
      let c := (c.popQ q).noteUe k false
      ({ w with c := { c with running := c.running ++ [r] } }, true)
    | none =>
      let k := Command.parse (c.rd x.headAddr 64)
      if x.aborts k then
        let r : Running :=
          { src := .queue q, seq := x.ci, cmd := k, step := c.nmon.step, stpVer := c.stp.ver, result := some { status := 0x1A } }
        ({ w with c := { c.popQ q with running := (c.popQ q).running ++ [r] } }, true)
      else if k.waiten && !semOk (c.semVal k.wsem) k.wval then
        -- Esker reads the descriptors while it waits (12 R270)
        let early := match e with
          | .esker _ => if x.early.isEmpty then captureDescs c (.queue q) k else x.early
          | _ => []
        ({ w with c := c.modQ q fun x => { x with semWait := true, early := early } }, false)
      else if !c.canStart e k || (e == .dispatcher && c.floeWaits k k.floe none none false) then (w, false)
      else (({ w with c := c.popQ q } : Wk).begin e (.queue q) x.ci k none x.early, true)

/-- A share waits for a stopped stack before the dispatcher can make a floe command of it (13 R303). -/
def Channel.shareWaits (c : Channel) (sh : Share) : Bool :=
  match c.shareFloe sh with
  | .error e => e.waits
  | _ => false

/-- Tries the dispatch input of an engine. -/
def Wk.tryInput (w : Wk) (e : Engine) : Wk × Bool :=
  let c := w.c
  match c.inputs.find? fun p => p.1 == e with
  | none => (w, false)
  | some (_, sh) =>
    let w' := { w with c := { c with inputs := c.inputs.eraseP fun p => p.1 == e } }
    if e = .dispatcher then
      if c.shareWaits sh then (w, false) else (w'.beginShare sh, true)
    else if (c.findRun (.input e)).isSome || !c.canStart e sh.cmd then (w, false)
    else (w'.begin e (.input e) 0 sh.cmd (some sh), true)

/-- Serves the first source that can start, in the order given; its index becomes the one served last. -/
def Wk.serve (w : Wk) (e : Engine) : List Nat → Wk
  | [] => w
  | i :: rest =>
    let (w, ok) := if h : i < 160 then w.tryQueue e ⟨i, h⟩ else w.tryInput e
    if ok then w.mod fun c => { c with rr := (e, i) :: c.rr.filter fun p => p.1 != e }
    else w.serve e rest

/-- The sources of an engine after the one served last, round-robin; 160 stands for the dispatch input. -/
def Channel.sources (c : Channel) (e : Engine) : List Nat :=
  let all := engineQueues e ++ [160]
  match c.rr.lookup e with
  | some l => all.filter (fun i => decide (l < i)) ++ all.filter (fun i => decide (i ≤ l))
  | none => all

/-! ### Completing commands (R39 to R47) -/

/-- A floe command: one of a dispatcher queue whose opcode goes to a floe (R12; FLOE of Table 2.5 also where it is
refused before it has members, log 54). -/
def Command.isFloe (k : Command) (q : QIdx) : Bool :=
  queueEngine q.val == some .dispatcher && (match opcUnit k.opc with | none | some .dsp => false | some _ => true)

def Record.bytes (r : Record) (q : QIdx) (phase : Bool) : List Byte :=
  toBytes 4 r.seq.toNat ++ toBytes 2 r.tag.toNat ++ [r.res.status] ++
  toBytes 1 (b2n phase + 2 * b2n r.floe + 4 * b2n r.res.nmev + 8 * b2n r.warn) ++
  toBytes 2 q.val ++ toBytes 4 r.res.member.toNat ++ toBytes 2 r.res.detail.toNat ++ toBytes 8 r.res.info.toNat ++
  toBytes 8 r.time.toNat

/-- A finished command of a queue signals, stops its queue on an error, and queues its record (R39, R42, R47). -/
def Wk.retire (w : Wk) (q : QIdx) (k : Command) (seq : W32) (res : Result) (floe : Bool) : Wk :=
  let (w, t) := w.time
  let c := w.c
  let frozen := match queueEngine q.val with | some e => c.isFrozen (.engine e) | none => false
  -- a cf.barrier with SKEW has made its additions (15 R347); a floe of them signals once, here (R39; log 69)
  let c := if res.status = 0 && k.sigen && !frozen && !(k.skewed && !floe) then c.semAdd k.ssem k.sinc.toNat else c
  let rec_ : Record :=
    { seq := seq, tag := k.tag, res := res, floe := floe, warn := warnOf k.opc res, irq := k.irq && k.cpl, time := t }
  let c := c.modQ q fun x =>
    let x := if isError res.status then { x with stopped := true, faultSeq := seq } else x
    let x := { x with tail := if k.opc = 0x35 && res.status = 0 then x.tail else none }
    if k.cpl || isError res.status then { x with waiting := x.waiting ++ [rec_] } else x
  { w with c := c }

/-- NEVE_WAIT_TOTAL and PVR_FEC_CORR count on by free numbers (log 61). -/
def Channel.tally (c : Channel) (n : Nat) : Channel :=
  { c with
    cores := Vector.ofFn fun k : Core => { c.cores[k] with neve := { c.cores[k].neve with
      waitTotal := c.cores[k].neve.waitTotal + BitVec.ofNat 64 (Config.neveWaits k.val n) } }
    ports := Vector.ofFn fun p : Port => { c.ports[p] with
      fecCorr := c.ports[p].fecCorr + BitVec.ofNat 64 (Config.fecSymbols p.val n) } }

/-- COMMAND_COMPLETE. -/
def commandComplete (w : Wk) (src : Src) : Wk :=
  match w.c.findRun src with
  | none => w
  | some r =>
    match r.result with
    | none => w
    | some res =>
      let c := (((releaseSlots w.c r).define r).disown src).tally w.ctr
      let c := { c with
        running := c.running.filter (fun x => x.src != src), colls := c.colls.filter fun k => k.src != src }
      let c := c.classifyEnd res
      match r.share, src with
      | some sh, _ => { w with c := c.shareDone sh.ref res }
      | none, .queue q => ({ w with c := c } : Wk).retire q r.cmd r.seq res (r.cmd.isFloe q)
      | none, .input _ => { w with c := c }

/-- FLOE_COMPLETE (R15): every member of the source's floe command has its result. -/
def floeComplete (w : Wk) (src : Src) : Wk :=
  match w.c.floes.find? fun f => f.src == src && f.members.all MemberState.done with
  | none => w
  | some f =>
    let res := f.result
    let c := { w.c with floes := w.c.floes.filter fun x => x.id != f.id }
    match f.parent, src with
    | some p, _ => { w with c := c.shareDone p res }
    | none, .queue q =>
      ({ w with c := { c with running := c.running.filter fun x => x.src != src } } : Wk).retire q f.cmd f.seq res true
    | none, .input _ => { w with c := c }

/-- FLOE_SHARE_DELIVERY (R51). -/
def floeShareDelivery (w : Wk) (src : Src) (i : Nat) : Wk :=
  let waits (f : FloeRun) : Bool := f.src == src && ((f.members[i]?).map fun m => !m.delivered).getD false
  match w.c.floes.find? waits with
  | none => w
  | some f =>
    match f.members[i]? with
    | some m => w.deliver f i m
    | none => w

/-- COMPLETION_RECORD_WRITE (R44): into channel DRAM or, while the host port is up and the function not frozen
(16 R356), host memory, one function at a time in rounds (01 R19). The record's MSI-X message follows it, and waits while
the host port is down (DESIGN CHOICE, log 126). -/
def completionRecordWrite (s : State) (ch : Ch) (q : QIdx) : State :=
  let x := s.chans[ch].queues[q]
  match x.waiting with
  | [] => s
  | r :: rest =>
    if !s.chans[ch].recordReady q || (!x.cplLoc && !(s.bridge.hostUp && !s.chans[ch].isFrozen .host && s.hostTurn ch)) then s
    else
      let a := x.cplAddr.toNat + 32 * (x.cplPi.toNat % x.cplSize)
      let b := r.bytes q (phaseOf x.cplPi x.cplLog2.toNat)
      let s := if x.cplLoc then s else { s with hostMem := Mem.write 0 s.hostMem a b, bridge := { s.bridge with served := ch } }
      let s := s.modCh ch fun c =>
        let c := c.modQ q fun x => { x with waiting := rest, cplPi := x.cplPi + 1 }
        let c := { c with irqWait := c.irqWait ++ if r.irq then [x.irqv.toNat] else [] }
        if x.cplLoc then c.wr a b else c
      s.sendIrqs

/-! ### The host's writes (R40, R43, R46) -/

/-- The host reaches BAR0 and BAR2 of a running channel whose function is not frozen (02 R54, 16 R356, 18 R420). -/
def State.hostOk (s : State) (ch : Ch) : Bool := s.bridge.hostUp && s.chans[ch].up && !s.chans[ch].isFrozen .host

/-- Runs a host write that only changes the channel. -/
def onHost (s : State) (ch : Ch) (f : Channel → Channel) : State := if s.hostOk ch then s.modCh ch f else s

/-- A write of CQ_PI (R40). -/
def doorbell (c : Channel) (q : QIdx) (w : RegWrite) : Channel :=
  if reservedQ q || !touches w 4 then c
  else
    c.modQ q fun x =>
      let p : W32 := BitVec.ofNat 32 (merge w 4 x.pi.toNat)
      let back := (p - x.pi).msb
      let past := decide (x.size < (p - x.ci).toNat)
      if back || past then { x with piBack := x.piBack || back, piOver := x.piOver || past } else { x with pi := p }

/-- A write of CQ_CPL_CI (R46). -/
def writeCplCi (c : Channel) (q : QIdx) (w : RegWrite) : Channel :=
  if reservedQ q || !touches w 4 then c
  else
    c.modQ q fun x =>
      let v : W32 := BitVec.ofNat 32 (merge w 4 x.cplCi.toNat)
      if (x.cplPi - v).msb || (v - x.cplCi).msb then { x with ciBad := true } else { x with cplCi := v }

/-- Both rings lie where R43 lets them. -/
def ringsOk (q : QIdx) (x : Queue) : Bool :=
  let a := x.base.toNat
  let n := 64 * x.size
  (inDram a n || (decide (q.val < 128) && inNeve (q.val / 16) a n)) && (!x.cplLoc || inDram x.cplAddr.toNat (32 * x.cplSize))

/-- A write of CQ_CTRL, judged against the state before it (R42, R43). -/
def writeCqCtrl (c : Channel) (q : QIdx) (w : RegWrite) : Channel :=
  if reservedQ q || !touches w 4 then c
  else
    let x := c.queues[q]
    let st := c.stateQ q
    let v := merge w 4 (b2n x.enable + 2 ^ 16 * x.irqv.toNat)
    let cmd := enabledBits w 4
    let old := x.enable
    let x := { x with irqv := BitVec.ofNat 6 (bits v 21 16) }
    let x := if cmd.testBit 2 && !x.enable && st == 0 then { x with 
        pi := 0, ci := 0, cplPi := 0, cplCi := 0, early := [], abTo := none, cfTo := none, tail := none } else x
    let x := if cmd.testBit 1 && st == 4 then { x with stopped := false } else x
    let en := v.testBit 0
    let x :=
      if en && !x.enable then (if ringsOk q x then { x with enable := true, draining := false } else { x with ringBad := true })
      else if !en && x.enable then { x with enable := false, semWait := false, early := [], draining := c.busyQ q || !x.waiting.isEmpty }
      else x
    let c := c.modQ q fun _ => x
    if x.enable && !old then c.leaveCold q else c

/-! ### Meanings -/

/-- NOP. -/
def execNop (ch : Ch) (src : Src) (s : State) : Host.Outcome State Fault Refusal :=
  .next (onRun s ch src 0x00 fun w r => w.mod fun c => c.finish r {})

/-- SEM_WAIT: the wait was met before the command started (R37). -/
def execSemWait (ch : Ch) (src : Src) (s : State) : Host.Outcome State Fault Refusal :=
  .next (onRun s ch src 0x01 fun w r => w.mod fun c => c.finish r {})

/-- SEM_SIGNAL: the addition follows at its completion (R39). -/
def execSemSignal (ch : Ch) (src : Src) (s : State) : Host.Outcome State Fault Refusal :=
  .next (onRun s ch src 0x02 fun w r => w.mod fun c => c.finish r {})

/-- SEM_SET (R37). -/
def execSemSet (ch : Ch) (src : Src) (s : State) : Host.Outcome State Fault Refusal :=
  .next (onRun s ch src 0x03 fun w r => w.mod fun c =>
    (c.semSet (r.cmd.a0.setWidth 8) (BitVec.ofNat 32 (bits r.cmd.a0.toNat 63 32))).finish r {})

/-- FL_DEFINE. -/
def execFlDefine (ch : Ch) (src : Src) (s : State) : Host.Outcome State Fault Refusal :=
  .next (onRun s ch src 0x04 fun w r => match flDefine w.c r with
    | .ok d => w.mod fun c => c.finish { r with defines := some d } {}
    | .error e => endWith w r (.error e))

/-- COMMAND_START (R29): one start of one engine. -/
def execCommandStart (ch : Ch) (e : Engine) (s : State) : Host.Outcome State Fault Refusal :=
  .next (onUp s ch fun w => if w.c.isFrozen (.engine e) then w else w.serve e (w.c.sources e))

/-- COMMAND_COMPLETE. -/
def execCommandComplete (ch : Ch) (src : Src) (s : State) : Host.Outcome State Fault Refusal :=
  .next (onUp s ch fun w => commandComplete w src)

/-- COMPLETION_RECORD_WRITE. -/
def execCompletionRecordWrite (ch : Ch) (q : QIdx) (s : State) : Host.Outcome State Fault Refusal :=
  .next (completionRecordWrite s ch q)

/-- FLOE_SHARE_DELIVERY. -/
def execFloeShareDelivery (ch : Ch) (src : Src) (i : Nat) (s : State) : Host.Outcome State Fault Refusal :=
  .next (onUp s ch fun w => if w.c.isFrozen (.engine .dispatcher) then w else floeShareDelivery w src i)

/-- FLOE_COMPLETE. -/
def execFloeComplete (ch : Ch) (src : Src) (s : State) : Host.Outcome State Fault Refusal :=
  .next (onUp s ch fun w => floeComplete w src)

/-- DOORBELL. -/
def execDoorbell (ch : Ch) (q : QIdx) (w : RegWrite) (s : State) : Host.Outcome State Fault Refusal :=
  .next (onHost s ch fun c => doorbell c q w)

/-- QUEUE_ENABLE: a write of CQ_CTRL. -/
def execQueueEnable (ch : Ch) (q : QIdx) (w : RegWrite) (s : State) : Host.Outcome State Fault Refusal :=
  .next (onHost s ch fun c => writeCqCtrl c q w)

/-- QUEUE_DISABLE: a write of CQ_CTRL. -/
def execQueueDisable (ch : Ch) (q : QIdx) (w : RegWrite) (s : State) : Host.Outcome State Fault Refusal :=
  .next (onHost s ch fun c => writeCqCtrl c q w)

/-- QUEUE_DRAINED (R43). -/
def execQueueDrained (ch : Ch) (q : QIdx) (s : State) : Host.Outcome State Fault Refusal :=
  .next (modUp s ch fun c =>
    if !c.queues[q].enable && !c.busyQ q && c.queues[q].waiting.isEmpty then
      c.modQ q fun x => { x with draining := false }
    else c)

/-- QUEUE_RESET: a write of CQ_CTRL. -/
def execQueueReset (ch : Ch) (q : QIdx) (w : RegWrite) (s : State) : Host.Outcome State Fault Refusal :=
  .next (onHost s ch fun c => writeCqCtrl c q w)

/-- QUEUE_RESUME: a write of CQ_CTRL. -/
def execQueueResume (ch : Ch) (q : QIdx) (w : RegWrite) (s : State) : Host.Outcome State Fault Refusal :=
  .next (onHost s ch fun c => writeCqCtrl c q w)

/-- CQ_CPL_CI_WRITE. -/
def execCqCplCiWrite (ch : Ch) (q : QIdx) (w : RegWrite) (s : State) : Host.Outcome State Fault Refusal :=
  .next (onHost s ch fun c => writeCplCi c q w)

/-- CQ_SEM_ADD (R37): the bytes written, as a WO register takes them (R442). -/
def execCqSemAdd (ch : Ch) (sem : SemIdx) (w : RegWrite) (s : State) : Host.Outcome State Fault Refusal :=
  .next (onHost s ch fun c => c.semAdd sem (enabledBits w 4))

/-- CQ_SEM_SET (R37): nothing where no byte of it is written. The register holds no value, and bytes that the write does not
enable count as 0 (DESIGN CHOICE, log 130). -/
def execCqSemSet (ch : Ch) (sem : SemIdx) (w : RegWrite) (s : State) : Host.Outcome State Fault Refusal :=
  .next (onHost s ch fun c => if touches w 4 then c.semSet sem (BitVec.ofNat 32 (enabledBits w 4)) else c)

end Sys2Proof.Machine
end

