-- ==== Sys2Proof/Machine/Power.lean ====
section
/-!
DEFINITION. Power, clocks and heat (17): the governor, ageing, power measurement and the backstop, the supply arbiter,
the thermal limits, droop, PLL states and array rows.
-/
namespace Sys2Proof.Machine

open Sys2Proof

/-! ### The governor (R382, R385) -/

/-- The hot cores of a channel with their activity, in core order. -/
def Channel.hotActs (c : Channel) (acts : List Activity) : List (Core × Activity) :=
  (List.finRange 8).filterMap fun k => if c.gov.cores[k].pll = .hot then some (k, actOf acts k.val) else none

/-- One core raised by a step, if its cap and the estimate let it (R385). -/
def raiseOne (budget : Nat) (abl : Activity) (xs : List (Activity × Nat × Nat)) (i : Nat) : List (Activity × Nat × Nat) :=
  match xs[i]? with
  | none => xs
  | some (a, cap, f) =>
    let ys := xs.set i (a, cap, f + 1)
    let fg := (ys.map fun y => y.2.2).foldl min 88
    if f < cap && decide (estimate (ys.map fun y => (y.1, y.2.2)) abl fg ≤ 10 * budget) then ys else xs

/-- Rounds over the hot cores in ascending order, from the lowest code up (R385, CORE). -/
def raiseAll (budget : Nat) (abl : Activity) (xs : List (Activity × Nat × Nat)) : List (Activity × Nat × Nat) :=
  (List.range 64).foldl (fun xs _ => (List.range xs.length).foldl (raiseOne budget abl) xs) xs

/-- GOVERNOR_TICK: F_pow, then the clocks of the mode. -/
def governorTick (c : Channel) (acts : List Activity) : Channel :=
  let g := c.gov
  let hot := c.hotActs acts
  let c := { c with gov := { g with fpow := BitVec.ofNat 8 (c.fits acts (fun x => x.pll == PllSt.hot) g.budget) } }
  if g.gmode != 0 then c.settle
  else if hot.isEmpty then
    { c with gov := { c.gov with
      fg := BitVec.ofNat 8 (highest 76 fun k => decide (estimate [] (actOf acts 8) k ≤ 10 * g.budget)) } }
  else
    let caps (k : Core) : Nat := (clampCode (min g.cores[k].cap g.ftop.toNat)).toNat
    let fs := raiseAll g.budget (actOf acts 8) (hot.map fun x => (x.2, caps x.1, 24))
    let c := (hot.zip fs).foldl (fun c x =>
      let k := x.1.1
      let y := c.gov.cores[k]
      let f := if g.overBudget || y.hotTj then min x.2.2.2 y.f.toNat else x.2.2.2
      { c with gov := { c.gov with cores := c.gov.cores.set k (c.moved k (clampCode f)) } }) c
    c.lowestHot

/-- One step down of the clock group: of F_G, or of every hot core in CORE mode (R384). -/
def Channel.stepDown (c : Channel) : Channel :=
  if c.gov.gmode = 0 then
    let lower (k : Core) : CorePower :=
      let x := c.gov.cores[k]
      if x.pll = .hot then c.moved k (clampCode (x.f.toNat - 1)) else x
    ({ c with gov := { c.gov with cores := Vector.ofFn lower } } : Channel).lowestHot
  else c.setGroup (clampCode (c.gov.fg.toNat - 1))

/-! ### Ageing (R380, R381) -/

/-- F_max (R380): the highest code at which the fused voltage and VOFF stay within VMAX, of those at which every monitor has
its margin and Tj stays at or below 105 °C, up to the code that the measurement gives. -/
def Channel.fmaxOf (c : Channel) (k : Core) (voff : Byte) (holdsAt : Nat) : Nat :=
  highest (min holdsAt 88) fun code => decide (c.fused k code + voff.toNat ≤ Config.vmax (8 * c.chid.toNat + k.val))

/-- PATH_MONITOR_MEASURE: VOFF, and with it the core's voltage, rises by 5 mV where a monitor lacks its margin. -/
def pathMonitorMeasure (c : Channel) (k : Core) (marginOk : List Bool) (holdsAt : Nat) : Channel :=
  let x := c.gov.cores[k]
  let rise := if marginOk.all id then 0 else 1
  let voff := satAdd x.voff rise
  let fmax := c.fmaxOf k voff holdsAt
  let fails := if fmax < 76 then x.fails + 1 else 0
  let report := fails == 4
  let x := { x with
    voff := voff, volt := if x.f = 0 then x.volt else x.volt + (voff - x.voff).toNat
    fmax := BitVec.ofNat 7 fmax, fails := fails, degraded := x.degraded || report }
  let c := ({ c with gov := { c.gov with cores := c.gov.cores.set k x } } : Channel).settle
  if report then c.degrade 0x0A 0 (2 ^ k.val) else c

/-- The ageing record's two copies in flash (18 Table 18.1). -/
def ageingAddr (second : Bool) : Nat := if second then 0x30000 else 0x20000

/-- AGEING_RECORD_WRITE: VOFF of every core, in the copy whose turn it is (its layout is the model's, log 20). -/
def ageingRecordWrite (c : Channel) : Channel :=
  let v := c.gov.cores.toList.map (·.voff)
  { c with boot := { c.boot with
    ageing := v, ageCopy := !c.boot.ageCopy, flash := Mem.write 0xFF c.boot.flash (ageingAddr c.boot.ageCopy) v } }

/-! ### Measured power (R384) -/

/-- The mean of samples, rounded down. -/
def mean (xs : List Nat) : Nat := xs.sum / xs.length

/-- The backstop begins to act where a mean passes its limit, once until both are within (R384). -/
def Gov.backstopped (g : Gov) : Gov :=
  if !g.overBudget then { g with backstopActs := false }
  else if g.backstopActs then g
  else { g with backstopActs := true, backstop := true, backstopTotal := satAdd g.backstopTotal 1 }

/-- POWER_SAMPLE: P1ms, P1s and the energy; the backstop acts from the sample that passes a limit. -/
def powerSample (g : Gov) (p : Nat) : Gov :=
  let g := { g with samples := (p :: g.samples).take 1000000 }
  let e := g.energyRem + p
  let g : Gov := { g with
    p1ms := BitVec.ofNat 16 (min (mean (g.last 1000)) 65535), p1s := BitVec.ofNat 16 (min (mean g.samples) 65535)
    energy := g.energy + BitVec.ofNat 64 (e / 10000), energyRem := e % 10000 }
  g.backstopped

/-- BACKSTOP_STEP: one step down while a mean is past its limit, also where the budget has fallen since the last sample. -/
def backstopStep (c : Channel) : Channel :=
  let c := { c with gov := c.gov.backstopped }
  if c.gov.overBudget then c.stepDown else c

/-! ### The supply arbiter (R388 to R391, R395) -/

/-- H_ch, in 0.1 W: the highest P1ms of the last 10 ms. -/
def Gov.high (g : Gov) : Nat := ((List.range 10000).map fun i => mean ((g.samples.drop i).take 1000)).foldl max 0

/-- The most that a channel may borrow. -/
def Gov.mayBorrow (g : Gov) : Nat := g.loanCap g.loanch.toNat

/-- F_pow alone limits F_G (R389). -/
def Channel.powLimited (c : Channel) : Bool :=
  let caps := (c.gov.cores.toList.filter fun k => k.pll != .cold).map CorePower.cap
  let others := caps.foldl min (if c.gov.gmode = 2 then min c.gov.ftop.toNat c.fceilNow else c.gov.ftop.toNat)
  decide (c.gov.fpow.toNat < others)

/-- Changes the governor of a channel. -/
def Channel.modGov (c : Channel) (f : Gov → Gov) : Channel := { c with gov := f c.gov }

/-- Changes every channel. -/
def State.modAll (s : State) (f : Ch → Channel → Channel) : State :=
  { s with chans := Vector.ofFn fun ch => f ch s.chans[ch] }

/-- The sum of the allowances that the arbiter has. -/
def State.sumAllow (s : State) : Nat :=
  ((List.finRange 8).map fun ch => if s.bridge.allowKnown.getD ch.val false then s.chans[ch].gov.allow.toNat else 0).sum

/-- The grants (R388). -/
def State.regrant (s : State) : State :=
  let a := s.sumAllow
  s.modAll fun ch c =>
    let g := c.gov
    if !s.bridge.allowKnown.getD ch.val false then c.modGov fun g => { g with overalloc := decide (3600 < a) }
    else if 3600 < a then
      c.modGov fun _ => { g with grant := BitVec.ofNat 16 (g.allow.toNat * 3600 / a), overalloc := true, borrowed := 0, lent := 0 }
    else c.modGov fun _ => { g with grant := g.allow, overalloc := false }

/-- What is left of a pool for each of the channels in order: as much as it can give. -/
def takeUp : Nat → List Nat → List Nat
  | _, [] => []
  | n, x :: xs => min n x :: takeUp (n - min n x) xs

/-- Equal shares of n whole watts among the channels asked for, the remainder to the lower-numbered. -/
def evenShares (n : Nat) (who : List Bool) : List Nat :=
  let k := (who.filter id).length
  (who.zipIdx).map fun (w, i) =>
    if w then n / k + (if ((who.take i).filter id).length < n % k then 1 else 0) else 0

/-- The arbiter acts: the module has power and the host bridge die is not in reset. -/
def State.arbiterUp (s : State) : Bool := s.powered && !s.bridge.modRst

/-- LOAN_RECOMPUTE: the grants, then the loans of R389; a grant message reaches every channel. -/
def loanRecompute (s : State) (busy : List Bool) : State :=
  let s := s.regrant
  let chs := List.finRange 8
  let known (ch : Ch) : Bool := s.bridge.allowKnown.getD ch.val false
  let wants := chs.map fun ch => known ch && s.chans[ch].up && busy.getD ch.val false && s.chans[ch].powLimited
  let lend := chs.map fun ch =>
    let g := s.chans[ch].gov
    if known ch && g.lend && g.recallTicks = 0 && !g.overalloc && !wants.getD ch.val false then
      g.allow.toNat - (g.high + 9) / 10 - 50
    else 0
  let pool := min 400 lend.sum
  let caps := chs.map fun ch => s.chans[ch].gov.mayBorrow
  let loans := ((evenShares pool wants).zip caps).map fun (a, b) => min a b
  let parts := takeUp loans.sum lend
  s.modAll fun ch c =>
    if known ch then
      c.modGov fun g => { g with
        borrowed := BitVec.ofNat 16 (loans.getD ch.val 0), lent := BitVec.ofNat 16 (parts.getD ch.val 0)
        noarb := false, recallTicks := g.recallTicks - 1 }
    else c

/-- LOAN_RECALL: the lender's loan leaves the borrowers' budgets, the rest of their loans shared as before. -/
def loanRecall (s : State) (ch : Ch) : State :=
  let g := s.chans[ch].gov
  let xs := g.last 10
  let l := g.lent.toNat
  if l = 0 || xs.sum ≤ (g.allow.toNat - l - 25) * 10 * xs.length then s
  else
    let chs := List.finRange 8
    let held := chs.map fun k => s.chans[k].gov.borrowed.toNat
    let left := ((evenShares (held.sum - l) (held.map fun x => x != 0)).zip held).map fun (a, b) => min a b
    let s := s.modAll fun k c => c.modGov fun g => { g with borrowed := BitVec.ofNat 16 (left.getD k.val 0) }
    s.modCh ch fun c => c.modGov fun g => { g with lent := 0, recallTotal := satAdd g.recallTotal 1, recallTicks := 1000 }

/-- ARBITER_SILENCE (R391). -/
def arbiterSilence (g : Gov) : Gov :=
  { g with borrowed := 0, lent := 0, grant := BitVec.ofNat 16 (min g.grant.toNat g.allow.toNat), noarb := true }

/-! ### Heat (R396, R397) -/

/-- THCUT_UPDATE. -/
def thcutUpdate (c : Channel) : Channel :=
  let ts := c.stk.toList.map fun t => t.temp.toNat
  c.modGov fun g => { g with
    thcut :=
      if ts.any fun t => decide (90 ≤ t) then BitVec.ofNat 8 (min 20 (g.thcut.toNat + 1))
      else if ts.all fun t => decide (t ≤ 87) then BitVec.ofNat 8 (g.thcut.toNat - 1)
      else g.thcut }

/-- TJ_SAMPLE: at 105 °C one step down at once and then every 100 µs, none up until 100 °C (R397). In CHANNEL or DRIFT mode it
is F_G that steps, at most once in 100 µs whichever core is hot. -/
def tjSample (c : Channel) (k : Core) (tj : Nat) : Channel :=
  let x := c.gov.cores[k]
  let hot := if 105 ≤ tj then true else if tj ≤ 100 then false else x.hotTj
  let ticks := min 10 (x.tjTicks + 1)
  let down := decide (105 ≤ tj) && ticks == 10
  let x := { x with tj := BitVec.ofNat 8 (min tj 255), hotTj := hot, tjTicks := if down then 0 else ticks }
  let c := c.modGov fun g => { g with cores := g.cores.set k x }
  if !down then c
  else if c.gov.gmode = 0 then
    (c.modGov fun g => { g with cores := g.cores.set k (c.moved k (clampCode (x.f.toNat - 1))) }).lowestHot
  else
    (c.modGov fun g => { g with cores := g.cores.map fun y => { y with tjTicks := 0 } }).setGroup (clampCode (c.gov.fg.toNat - 1))

/-! ### PLLs and rows (R376, R377, R393) -/

/-- What keeps a core's PLL HOT (R377). -/
def Channel.keepsHot (c : Channel) (k : Core) : Bool :=
  let mine (e : Option Engine) : Bool := match e with | some e => engineCore e == some k | none => false
  c.running.any (fun r => mine (srcEngine r.src)) || c.inputs.any (fun p => mine (some p.1)) ||
  (List.finRange 160).any (fun q =>
    match queueEngine q.val with
    | some e => engineCore e == some k && c.headReady q && c.canStart e (c.headCmd q)
    | none => false) ||
  c.cores[k].esk.ctxs.toList.any (fun x => x.state == 2 || x.state == 3) || c.cores[k].mor.waitacc

/-- An ab.* command runs or is queued, at an Ablation engine or, issued to a floe, at the dispatcher (R377). -/
def Channel.keepsA (c : Channel) : Bool :=
  let queued (x : Queue) : Bool := (List.range (x.pi - x.ci).toNat).any fun i =>
    isAb (Command.parse (c.rd (x.base.toNat + 64 * ((x.ci.toNat + i) % x.size)) 64)).opc
  c.running.any (fun r => isAb r.cmd.opc) || c.inputs.any (fun p => isAb p.2.cmd.opc) ||
  (List.finRange 160).any (fun q =>
    (match queueEngine q.val with | some (.ablation _) | none => true | _ => false) && c.queues[q].enable && queued c.queues[q])

/-- PLL_IDLE: HOT to WARM; the rows of a core that leaves HOT are disabled (R393). -/
def pllIdle (c : Channel) (p : PllId) : Channel :=
  match p with
  | .chanA => if c.gov.pllA = .hot && !c.keepsA then c.modGov fun g => { g with pllA := .warm } else c
  | .core k =>
    let x := c.gov.cores[k]
    if x.pll = .hot && !c.keepsHot k then
      let c := c.modGov fun g => { g with cores := g.cores.set k { x with pll := .warm } }
      let c := c.modCore k CoreState.rowsOff
      c.settle
    else c

/-- The cold condition of a core (R377). -/
def Channel.coldOk (c : Channel) (k : Core) : Bool :=
  (List.finRange 160).all (fun q => !(q.val / 16 == k.val && q.val < 128 && q.val % 16 < 12) || !c.queues[q].enable) &&
  c.cores[k].esk.ctxs.toList.all fun x => x.state == 0 || x.state == 1

/-- COLDDLY_EXPIRY. -/
def colddlyExpiry (c : Channel) (k : Core) : Channel :=
  let x := c.gov.cores[k]
  if c.gov.colddly != 0 && x.pll == .warm && c.coldOk k then
    (c.modGov fun g => { g with cores := g.cores.set k { x with pll := .cold } }).settle
  else c

/-- ARRAY_ROW_DISABLE: 2,048 clocks without a group. -/
def arrayRowDisable (c : Channel) (k : Core) (a : ArrayId) : Channel :=
  c.modCore k fun s =>
    match a with
    | .rime => { s with rime := noRows s.rime }
    | .firnA => { s with firnA := noRows s.firnA }
    | .firnB => { s with firnB := noRows s.firnB }

/-- DROOP_DETECT: the clock of a hot core is stretched (R394). -/
def droopDetect (g : Gov) (k : Core) : Gov :=
  let x := g.cores[k]
  if x.pll = .hot && !x.stretched then
    { g with cores := g.cores.set k { x with stretched := true }, droopTotal := g.droopTotal + 1 }
  else g

def droopRecover (g : Gov) (k : Core) : Gov := { g with cores := g.cores.set k { g.cores[k] with stretched := false } }

/-! ### Rows -/

/-- GOVERNOR_TICK (R382, R385). -/
def execGovernorTick (ch : Ch) (acts : List Activity) (s : State) : Host.Outcome State Fault Refusal :=
  .next (modUp s ch fun c => governorTick c acts)

/-- PATH_MONITOR_MEASURE (R380, R381). -/
def execPathMonitorMeasure (ch : Ch) (k : Core) (ok : List Bool) (holdsAt : Nat) (s : State) :
    Host.Outcome State Fault Refusal :=
  .next (modUp s ch fun c => pathMonitorMeasure c k ok holdsAt)

/-- AGEING_RECORD_WRITE (R380). -/
def execAgeingRecordWrite (ch : Ch) (s : State) : Host.Outcome State Fault Refusal := .next (modUp s ch ageingRecordWrite)

/-- POWER_SAMPLE (R384). -/
def execPowerSample (ch : Ch) (p : Nat) (s : State) : Host.Outcome State Fault Refusal :=
  .next (modUp s ch fun c => c.modGov fun g => powerSample g p)

/-- BACKSTOP_STEP (R384). -/
def execBackstopStep (ch : Ch) (s : State) : Host.Outcome State Fault Refusal :=
  .next (modUp s ch fun c => backstopStep c)

/-- LOAN_RECOMPUTE (R388, R389, R395). -/
def execLoanRecompute (busy : List Bool) (s : State) : Host.Outcome State Fault Refusal :=
  .next (if s.arbiterUp then loanRecompute s busy else s)

/-- LOAN_RECALL (R390). -/
def execLoanRecall (ch : Ch) (s : State) : Host.Outcome State Fault Refusal :=
  .next (if s.arbiterUp && s.chans[ch].up then loanRecall s ch else s)

/-- ARBITER_SILENCE (R391). -/
def execArbiterSilence (ch : Ch) (s : State) : Host.Outcome State Fault Refusal :=
  .next (modUp s ch fun c => c.modGov arbiterSilence)

/-- THCUT_UPDATE (R396). -/
def execThcutUpdate (ch : Ch) (s : State) : Host.Outcome State Fault Refusal := .next (modUp s ch thcutUpdate)

/-- The reading of a core whose channel does not run: it acts on no clock, and counts for the trip (19 R434). -/
def tjRead (c : Channel) (k : Core) (tj : Nat) : Channel :=
  c.modGov fun g => { g with cores := g.cores.set k { g.cores[k] with tj := BitVec.ofNat 8 (min tj 255) } }

/-- TJ_SAMPLE (R397). -/
def execTjSample (ch : Ch) (k : Core) (tj : Nat) (s : State) : Host.Outcome State Fault Refusal :=
  .next (if s.chans[ch].up then s.modCh ch fun c => tjSample c k tj else modPowered s ch fun c => tjRead c k tj)

/-- DROOP_DETECT (R394). -/
def execDroopDetect (ch : Ch) (k : Core) (s : State) : Host.Outcome State Fault Refusal :=
  .next (modUp s ch fun c => c.modGov fun g => droopDetect g k)

/-- DROOP_RECOVER (R394). -/
def execDroopRecover (ch : Ch) (k : Core) (s : State) : Host.Outcome State Fault Refusal :=
  .next (modUp s ch fun c => c.modGov fun g => droopRecover g k)

/-- PLL_WAKE (R376, R377). -/
def execPllWake (ch : Ch) (p : PllId) (s : State) : Host.Outcome State Fault Refusal :=
  .next (modUp s ch fun c => c.wake p)

/-- PLL_IDLE (R376). -/
def execPllIdle (ch : Ch) (p : PllId) (s : State) : Host.Outcome State Fault Refusal :=
  .next (modUp s ch fun c => pllIdle c p)

/-- COLDDLY_EXPIRY (R377). -/
def execColddlyExpiry (ch : Ch) (k : Core) (s : State) : Host.Outcome State Fault Refusal :=
  .next (modUp s ch fun c => colddlyExpiry c k)

/-- ARRAY_ROW_DISABLE (R393). -/
def execArrayRowDisable (ch : Ch) (k : Core) (a : ArrayId) (s : State) : Host.Outcome State Fault Refusal :=
  .next (modUp s ch fun c => arrayRowDisable c k a)

end Sys2Proof.Machine
end

