-- ==== Sys2Proof/Machine/Confluence.lean ====
section
/-!
DEFINITION. Confluence (15): groups and fold order, forms of a superblock, cf.reduce, cf.bcast, cf.barrier, top-k
thinning, the down tree with its multicast streams (14 R321, R322), and their messages.
-/
namespace Sys2Proof.Machine

open Sys2Proof

/-! ### Groups (R328, R331) -/

/-- A removal has taken a module (16 R363): of this channel's drift its own lists tell, of another drift the epoch in force,
and none before the first (log 25). -/
def Channel.moduleGone (c : Channel) (m : W16) : Bool :=
  if c.boot.cfg.modules.contains m then !c.flt.members.modules.contains m
  else c.flt.members.mepoch != 0 && Config.moduleLeft c.flt.members.mepoch.toNat m

/-- The modules of the drift a channel belongs to: this channel's own drift, or another's (log 25). -/
def Channel.modulesOf (c : Channel) (x : ChanId) : List W16 :=
  if c.boot.cfg.modules.contains (modOf x) then c.flt.members.modules
  else (Config.driftModules x).filter fun m => !c.moduleGone m

/-- The drifts of a field, by its manager: of another field those that modules are left of (log 25). -/
def Channel.driftsOf (c : Channel) (fm : ChanId) : List ChanId :=
  if c.ownField fm then c.flt.members.driftManagers
  else (Config.fieldDrifts fm).filter fun d => !(c.modulesOf d).isEmpty

/-- Leaves of a floe named on a channel of another module (R328). -/
def Channel.farLeaves (c : Channel) (x : ChanId) (id : W16) : List ChanId :=
  match id.toNat with
  | 0 => [x]
  | 9 => moduleChans (modOf x)
  | 10 => (c.modulesOf x).flatMap moduleChans
  | 11 => (c.driftsOf x).flatMap fun d => (c.modulesOf d).flatMap moduleChans
  | _ => Config.remoteLeaves x id

/-- A floe as another channel of the module reads it: what it cannot read there ends the command without an entry in
this channel's registers. -/
def awayErr {α : Type} (x : Ck α) : Ck α :=
  match x with
  | .ok a => .ok a
  | .error e =>
    match e.kind with
    | .ue a => .error (.status 0x16 a)
    | .wait => .error .wait
    | _ => .error (.status 0x12 0)

/-- Flattens a member; status 0x12 where it names a core or is not defined. -/
def leavesGo (chans : Vector Channel 8) (c : Channel) : Nat → ChanId → W16 → Ck (List ChanId)
  | 0, _, _ => .error (.status 0x12 0)
  | n + 1, x, id =>
    if id = 0 then .ok [x]
    else if id.toNat ≤ 8 then .error (.status 0x12 0)
    else if modOf x != modOf c.chid then .ok (c.farLeaves x id)
    else do
      let f ← if x = c.chid then c.floe id else awayErr ((chans[x.toNat % 8]'(Nat.mod_lt _ (by decide))).floe id)
      need (f.level != 0) (.status 0x12 0)
      let ls ← f.members.mapM fun m => leavesGo chans c n m.chan m.floe
      pure ls.flatten

/-- A leaf that no commit has removed (R331, 16 R363). -/
def Channel.stays (c : Channel) (x : ChanId) : Bool := !c.boot.cfg.hasMembership || !c.moduleGone (modOf x)

/-- Where a module stands: its field, its drift, its place in the drift's list (R334, R336). A module that no list
names stands where the group names it. -/
def Channel.place (c : Channel) (seen : List W16) (m : W16) : Nat × Nat × Nat :=
  let all := c.flt.members.fieldManagers.zipIdx.flatMap fun (fm, f) =>
    (c.driftsOf fm).zipIdx.flatMap fun (dm, d) => (c.modulesOf dm).zipIdx.map fun (x, i) => (x, (f, d, i))
  match all.lookup m with
  | some p => p
  | none =>
    let own := c.flt.members.modules
    (0, 0, if own.contains m then own.idxOf m else own.length + seen.idxOf m)

/-! ### The fold (R334) -/

/-- How partials are combined and at which channel each sum is formed. -/
inductive Fold where
  | leaf (c : ChanId)
  | add (l r : Fold) (at_ : ChanId)
  deriving DecidableEq, Repr

def Fold.holder : Fold → ChanId
  | .leaf c => c
  | .add _ _ a => a

/-- Pairs two sides at the lower-numbered one; a side without participants passes the other. -/
def Fold.pair : Option Fold → Option Fold → Option Fold
  | some a, some b => some (.add a b a.holder)
  | some a, none => some a
  | none, b => b

/-- The module stage: three levels by channel number. -/
def Fold.module (m : W16) (ls : List ChanId) : Option Fold :=
  let at_ (i : Nat) : Option Fold :=
    let x : ChanId := BitVec.ofNat 16 (8 * m.toNat + i)
    if ls.contains x then some (.leaf x) else none
  let l1 (i : Nat) : Option Fold := Fold.pair (at_ (2 * i)) (at_ (2 * i + 1))
  Fold.pair (Fold.pair (l1 0) (l1 1)) (Fold.pair (l1 2) (l1 3))

/-- A list of partials folded in order; the sum moves to the holder of the last. -/
def Fold.chain : List Fold → Option Fold
  | [] => none
  | f :: fs => some (fs.foldl (fun s x => .add s x x.holder) f)

/-- Leaves in fold order and the fold of a group. -/
def Channel.foldOf (c : Channel) (ls : List ChanId) : List ChanId × Option Fold :=
  let ms := (ls.map modOf).dedup
  let placed := (ms.map fun m => (c.place ms m, m)).mergeSort fun a b =>
    decide (a.1.1 < b.1.1 ∨ (a.1.1 = b.1.1 ∧ (a.1.2.1 < b.1.2.1 ∨ (a.1.2.1 = b.1.2.1 ∧ a.1.2.2 ≤ b.1.2.2))))
  let order := placed.flatMap fun p => (moduleChans p.2).filter fun x => ls.contains x
  let drift (key : Nat × Nat) : Option Fold :=
    Fold.chain ((placed.filter fun p => (p.1.1, p.1.2.1) == key).filterMap fun p => Fold.module p.2 ls)
  let field (f : Nat) : Option Fold :=
    let ds := ((placed.filter fun p => p.1.1 == f).map fun p => p.1.2.1).dedup
    Fold.chain (ds.filterMap fun d => drift (f, d))
  let fs := (placed.map fun p => p.1.1).dedup
  (order, Fold.chain (fs.filterMap field))

/-- A leaf's part in a fold: whose partials it adds, in order, with its own value left or right, and where it sends its
own; none where it is no leaf. -/
def Fold.part (x : ChanId) : Fold → Option (List (ChanId × Bool) × Option ChanId)
  | .leaf c => if c = x then some ([], none) else none
  | .add l r a =>
    let climb (p : List (ChanId × Bool) × Option ChanId) (other : Fold) (left : Bool) :
        List (ChanId × Bool) × Option ChanId :=
      match p.2 with
      | some d => (p.1, some d)
      | none => if a = x then (p.1 ++ [(other.holder, left)], none) else (p.1, some a)
    match l.part x with
    | some p => some (climb p r true)
    | none =>
      match r.part x with
      | some p => some (climb p l false)
      | none => none

/-- Children of a leaf in the down tree: position 0 is the root, the others in fold order (R338). -/
def treeChildren (leaves : List ChanId) (root x : ChanId) : List ChanId :=
  let pos := root :: leaves.filter fun l => l != root
  let j := pos.idxOf x
  (List.range 4).filterMap fun i => pos[4 * j + 1 + i]?

/-! ### Values and forms of a superblock (R335, R337) -/

/-- A superblock's values by index p = 32l + k; none where no value is held. -/
abbrev SbV := List (Option W32)

def SbV.nonFinite (v : SbV) : Bool := v.any fun x => match x with | some w => Num.nonFinite (Num.dec32 w) | none => false
def SbV.marked (v : SbV) : Nat := (v.filter (·.isSome)).length

/-- One addition; the present side's value where only one side holds a position. -/
def SbV.add (a b : SbV) : SbV :=
  (a.zip b).map fun p =>
    match p with
    | (some x, some y) => some (Num.fadd x y)
    | (some x, none) => some x
    | (none, y) => y

/-- Bytes of a superblock: elements by line, then codes, then the exponent. -/
def sbPack (f : Fmt) (sb : Sb) : List Byte :=
  sb.elems.flatMap (packElems f.width) ++
    (if f.isWide then [] else if f.isMx then sb.codes.map (BitVec.ofNat 8 ·)
     else packElems 4 sb.codes ++ [BitVec.ofNat 8 sb.exp])

def sbUnpack (f : Fmt) (bs16 : Bool) (b : List Byte) : Sb :=
  let n := 4 * f.width
  let codes := b.drop (32 * n)
  let nc := if bs16 then 64 else 32
  { elems := (List.range 32).map fun l => unpackElems f.width 32 ((b.drop (n * l)).take n)
    codes := if f.isWide then [] else if f.isMx then (codes.take 32).map (·.toNat) else unpackElems 4 nc (codes.take (nc / 2))
    exp := if f.isNarrow then fld codes (nc / 2) 1 else 0 }

/-- Lines of 32 from a superblock's values; padding is absent. -/
def SbV.lines (v : SbV) (ok : List (List Bool)) : List (List (Option Val)) :=
  ok.zipIdx.map fun (o, l) => o.zipIdx.map fun (b, k) =>
    if b then some (Num.dec32 ((v.getD (32 * l + k) none).getD 0)) else none

/-- A superblock frozen or rounded into a format under RNE with current scales (R337). -/
def SbV.freeze (v : SbV) (f : Fmt) (bs16 : Bool) (ok : List (List Bool)) : Sb :=
  let xs := v.lines ok
  if f.isWide then
    { elems := (freezeWide f .rne xs (List.replicate 32 (List.replicate 32 0))).bits }
  else (freezeBlocks f .rne (fun _ => 0) (splitBlocks bs16 xs) (fun _ => List.replicate 32 0)).sb bs16

/-- Values of a superblock in a format, all held, and whether any is non-finite. -/
def sbHeld (f : Fmt) (bs16 : Bool) (sb : Sb) (ok : List (List Bool)) : SbV × Bool :=
  let (vs, pois) := sbVals f bs16 sb ok
  let v := vs.flatten.map fun x => some (Num.to32 x)
  (v, decide (0 < pois) || SbV.nonFinite v)

def maskBytes (v : SbV) : List Byte :=
  (List.range 128).map fun i => BitVec.ofNat 8 ((List.range 8).foldl (fun a j =>
    a + 2 ^ j * b2n ((v.getD (8 * i + j) none).isSome)) 0)

def sparseBytes (v : SbV) : List Byte := maskBytes v ++ (v.filterMap id).flatMap fun x => toBytes 4 x.toNat

def sparseParse (b : List Byte) : SbV :=
  ((List.range 1024).foldl (fun (acc, i) p =>
    if ((b.getD (p / 8) 0).getLsbD (p % 8)) then (some (BitVec.ofNat 32 (fld b (128 + 4 * i) 4)) :: acc, i + 1)
    else (none :: acc, i)) (([] : SbV), 0)).1.reverse

/-- The sparse form is shorter than the dense one in TFMT. -/
def SbV.sparse (v : SbV) (tfmt : Fmt) : Bool :=
  decide (128 + 4 * v.marked < (match tfmt with | .f32 => 4096 | .b16 => 2048 | _ => 1041))

/-! ### A collective's operands -/

/-- What a running collective reads from its operands. -/
structure CollCtx where
  /-- superblocks of the tensor -/
  blocks : Nat
  src : Option Desc := none
  dst : Option Desc := none
  tfmt : Fmt := .f32
  /-- K and the residual slots now and next (R340) -/
  thin : Option (Nat × Desc × Desc) := none
  layer : Option Nat := none
  shape : W32 := 0

def CollCtx.buckets (x : CollCtx) : Nat := max 1 ((x.blocks + 63) / 64)
/-- Superblocks of bucket b. -/
def CollCtx.size (x : CollCtx) (b : Nat) : Nat := min 64 (x.blocks - 64 * b)

/-- Source and destination have the same superblocks: origins may differ (R332). -/
def CollCtx.sameGrid (x : CollCtx) : Bool :=
  match x.src, x.dst with
  | some s, some d => s.orgr == d.orgr && s.orgc == d.orgc
  | _, _ => true

/-- A narrow destination whose superblocks are others than the source's: each is frozen once all its elements
are there (log 26). -/
def CollCtx.regroup (x : CollCtx) : Bool :=
  !x.sameGrid && match x.dst with | some d => !d.fmt.isWide | none => false

/-- SHAPE of Table 15.3. -/
def Desc.shapeCrc (d : Desc) : W32 :=
  crc32c (d.ext.flatMap (toBytes 4) ++ toBytes 1 (b2n d.bs16 + 2 * b2n d.rax))

def redFmt (f : Fmt) : Bool := f == .f32 || f == .b16 || f == .f8a || f == .f8b

/-- Operands of cf.reduce, checked (R332), as they were when the command started. -/
def reduceCtx (c : Channel) (r : Running) : Ck CollCtx := do
  let s ← c.desc (bits r.cmd.a0.toNat 47 0) r.copies
  let d ← c.desc (bits r.cmd.a1.toNat 47 0) r.copies
  let pa := bits r.cmd.a2.toNat 47 0
  let ka := bits r.cmd.a3.toNat 47 0
  let p ← c.heldBlock r.copies pa 64 64 0xF
  need (redFmt s.fmt) (.fault 0xF s.addr)
  need (redFmt d.fmt && d.nd == s.nd && d.dims == s.dims && d.bs16 == s.bs16 && d.rax == s.rax) (.fault 0xF d.addr)
  let t ← match Fmt.ofCode (fld p 6 1 % 32) with
    | some f => if redFmt f then pure f else throw (.fault 0xF pa)
    | none => throw (.fault 0xF pa)
  let thin ←
    if ka = 0 then pure none
    else do
      let b ← c.heldBlock r.copies ka 32 8 0xF
      let k := fld b 0 2 % 2048
      need (decide (1 ≤ k) && decide (k ≤ 1024)) (.fault 0xF ka)
      let r0 ← c.desc (fld b 8 6) r.copies
      let r1 ← c.desc (fld b 16 6) r.copies
      need (r0.fmt == .f32 && r0.nd == s.nd && r0.dims == s.dims) (.fault 0xF r0.addr)
      need (r1.fmt == .f32 && r1.nd == s.nd && r1.dims == s.dims) (.fault 0xF r1.addr)
      pure (some (k, if r.stpVer.toNat % 2 = 0 then (r0, r1) else (r1, r0)))
  pure { blocks := s.nblocks, src := some s, dst := some d, tfmt := t, thin := thin
         layer := if (fld p 7 1).testBit 0 then some (fld p 8 2) else none
         shape := s.shapeCrc }

/-- The destination of cf.bcast (R345). Its superblocks travel on the grid that begins at the tensor's origin, the same
at every leaf. -/
def bcastCtx (c : Channel) (r : Running) : Ck CollCtx := do
  let d ← c.desc (bits r.cmd.a1.toNat 47 0) r.copies
  let g : Desc := { d with orgr := 0, orgc := 0 }
  pure { blocks := g.nblocks, src := some g, dst := some d }

/-- The source of cf.bcast, read on the root alone. -/
def bcastSource (c : Channel) (r : Running) (d : Desc) : Ck Desc := do
  let s ← c.desc (bits r.cmd.a0.toNat 47 0) r.copies
  need (s.fmt == d.fmt && s.nd == d.nd && s.dims == d.dims && s.bs16 == d.bs16 && s.rax == d.rax) (.fault 0xF d.addr)
  pure s

/-- Superblock n of a grid from a tensor of its shape: a wide format's elements by their coordinates. -/
def Channel.onGrid (c : Channel) (s g : Desc) (n : Nat) : Sb :=
  if s.orgr = g.orgr ∧ s.orgc = g.orgc then c.rdSb s n
  else
    { exp := 0, codes := []
      elems := (g.validLines n).zipIdx.map fun (os, l) => os.zipIdx.map fun (o, k) =>
        if o then ofBytes (c.rdV (s.elemAddr (s.posOf (g.coord n l k))) (s.fmt.width / 8)) else 0 }

/-- The operands of a running collective. -/
def collCtx (c : Channel) (r : Running) : Ck CollCtx :=
  match r.cmd.opc.toNat with
  | 0x40 => reduceCtx c r
  | 0x41 => bcastCtx c r
  | _ => pure { blocks := 0 }

/-! ### Contributions and thinning (R335, R340) -/

/-- Selection of R340 over the held values: true where kept. -/
def topK (k : Nat) (v : SbV) : List Bool :=
  let key (w : W32) : Nat := if Num.isNan (Num.dec32 w) then 2 ^ 32 else w.toNat % 2 ^ 31
  let held := v.zipIdx.filterMap fun (x, i) => x.map fun w => (key w, i)
  let kept := ((held.mergeSort fun a b => decide (b.1 < a.1 ∨ (a.1 = b.1 ∧ a.2 ≤ b.2))).take k).map (·.2)
  (List.range v.length).map fun i => kept.contains i

/-- The residual's address of a position of the source. -/
def resPos (s res : Desc) (n p : Nat) : Nat := res.elemAddr (res.posOf (s.coord n (p / 32) (p % 32)))

/-- x = rne(source + residual) at the valid positions of a superblock. -/
def thinValues (c : Channel) (s cur : Desc) (n : Nat) : SbV :=
  let ok := (s.validLines n).flatten
  let vs := (c.rdVals s n).1.flatten
  (List.range 1024).map fun p =>
    if ok.getD p false then
      some (Num.fadd (Num.to32 (vs.getD p Num.zero)) (BitVec.ofNat 32 (ofBytes (c.rdV (resPos s cur n p) 4))))
    else none

/-- This leaf's contribution of superblock n, and NF (R342). -/
def CollCtx.own (x : CollCtx) (c : Channel) (n : Nat) : SbV × Bool :=
  match x.src with
  | none => ([], false)
  | some s =>
    match x.thin with
    | none => sbHeld s.fmt s.bs16 (c.rdSb s n) (s.validLines n)
    | some (k, cur, _) =>
      let v := thinValues c s cur n
      let v' : SbV := (v.zip (topK k v)).map fun (w, b) => if b then w else none
      (v', SbV.nonFinite v' || (sbHeld s.fmt s.bs16 (c.rdSb s n) (s.validLines n)).2)

/-- Writes the next residual slot: +0 where selected, x elsewhere (R340). -/
def CollCtx.writeResidual (x : CollCtx) (c : Channel) : Channel :=
  match x.src, x.thin with
  | some s, some (k, cur, next) =>
    let rows := (List.range s.nblocks).map fun n =>
      let v := thinValues c s cur n
      (n, (v.zip (topK k v)).zipIdx)
    rows.foldl (fun c (n, es) =>
      c.wrElems next (es.filterMap fun ((w, b), p) =>
        w.map fun w => (next.posOf (s.coord n (p / 32) (p % 32)), if b then 0 else w.toNat))) c
  | _, _ => c

/-- The form in which this leaf's partial of superblock n crosses a link, and NF of the conversion. -/
def CollCtx.form (x : CollCtx) (c : Channel) (n : Nat) (v : SbV) (alone : Bool) : SbForm × Bool :=
  match x.src with
  | none => (⟨0, [], 0⟩, false)
  | some s =>
    let ok := s.validLines n
    if v.sparse x.tfmt then (⟨2, sparseBytes v, 0⟩, false)
    else if alone && x.thin.isNone then (⟨0, sbPack s.fmt (c.rdSb s n), BitVec.ofNat 5 s.fmtCode⟩, false)
    else
      let sb := v.freeze x.tfmt s.bs16 ok
      (⟨1, sbPack x.tfmt sb, 0⟩, (sbHeld x.tfmt s.bs16 sb ok).2)

/-- The form of a final superblock (R337). -/
def CollCtx.resultForm (x : CollCtx) (n : Nat) (v : SbV) : SbForm × Bool :=
  match x.dst with
  | none => (⟨0, [], 0⟩, false)
  | some d =>
    if v.sparse x.tfmt || x.regroup then (⟨2, sparseBytes v, 0⟩, false)
    else
      let ok := (if x.sameGrid then d else x.src.getD d).validLines n
      let sb := v.freeze d.fmt d.bs16 ok
      (⟨3, sbPack d.fmt sb, 0⟩, (sbHeld d.fmt d.bs16 sb ok).2)

/-- The values of a received superblock. One as stored names its format (log 26). -/
def CollCtx.decode (x : CollCtx) (n : Nat) (f : SbForm) : SbV :=
  match x.src with
  | none => []
  | some s =>
    let ok := s.validLines n
    let as (g : Fmt) : SbV := (sbHeld g s.bs16 (sbUnpack g s.bs16 f.bytes) ok).1
    match f.form.toNat with
    | 0 => as ((Fmt.ofCode f.fmt.toNat).getD s.fmt)
    | 1 => as x.tfmt
    | _ => sparseParse f.bytes

/-! ### The statistics block (R342) -/

def statWidths : List Nat := [8, 4, 4, 4, 4, 4, 4, 4, 4, 16]

def statJoin : List Nat → List Byte → List Byte → List Byte
  | [], _, _ => []
  | w :: ws, a, b =>
    toBytes w (min (fld a 0 w + fld b 0 w) (2 ^ (8 * w) - 1)) ++ statJoin ws (a.drop w) (b.drop w)

/-- The backward section and GNORM of a layer in the bank of a step. -/
def Channel.layerStats (c : Channel) (step : W32) (layer : Nat) : List Byte :=
  if layer < c.nmon.lstCount.toNat then
    c.rd (c.statAddr step layer + 32) 40 ++ c.rd (c.statAddr step layer + 112) 16
  else List.replicate 56 0

def Channel.writeLayerStats (c : Channel) (step : W32) (layer : Nat) (b : List Byte) : Channel :=
  if layer < c.nmon.lstCount.toNat then
    (c.wr (c.statAddr step layer + 32) (b.take 40)).wr (c.statAddr step layer + 112) ((b.drop 40).take 16)
  else { c with nmon := { c.nmon with layerOor := true } }

/-! ### Messages -/

/-- Splits superblocks into messages of at most 64 KiB with their headers and a statistics block (R333). -/
def splitSbs (fs : List SbForm) : List (List SbForm) :=
  let r := fs.foldl (fun (parts, cur, n) f =>
    let m := 4 + f.bytes.length
    if !cur.isEmpty && decide (65536 - 88 < n + m) then (parts ++ [cur], [f], m) else (parts, cur ++ [f], n + m))
    (([] : List (List SbForm)), ([] : List SbForm), 0)
  r.1 ++ [r.2.1]

/-- The messages of one bucket on one path. -/
def bucketMsgs (base : RedMsg) (sbs : List SbForm) (stats : Option (List Byte)) : List RedMsg :=
  let parts := splitSbs sbs
  let firsts := parts.foldl (fun (acc, n) p => (acc ++ [n], n + p.length)) (([] : List Nat), 0)
  (parts.zip firsts.1).zipIdx.map fun ((p, f), i) =>
    { base with sbs := p, first := BitVec.ofNat 16 f, stats := if i + 1 = parts.length then stats else none }

/-- Superblocks of a bucket's messages in order, once all are there. -/
def gather (ms : List RedMsg) (size : Nat) : Option (List SbForm) :=
  let s := ms.mergeSort fun a b => decide (a.first.toNat ≤ b.first.toNat)
  let l := s.flatMap (·.sbs)
  if !ms.isEmpty && decide (size ≤ l.length) then some l else none

def Channel.coll (c : Channel) (src : Src) : Option Collective := c.colls.find? fun k => k.src == src
def Channel.setColl (c : Channel) (k : Collective) : Channel :=
  { c with colls := c.colls.map fun x => if x.src = k.src then k else x }

def Collective.streamId (k : Collective) (path : Bool) : StreamId := ⟨k.root, k.rid, path, k.opc, k.group, k.step⟩

/-- A bucket is checked on two paths (R343). -/
def Collective.isSampled (k : Collective) (b : Nat) : Bool :=
  k.opc == 0x40 && (b + k.step.toNat + k.rid.toNat) % 256 == 0

/-- A message of this collective without payload. -/
def Collective.msg (k : Collective) (me : ChanId) (path down : Bool) (b : Nat) (shape : W32) : RedMsg :=
  { sender := me, rid := k.rid, group := k.group, path := path, down := down, nf := false, shmis := false
    step := k.step, bucket := BitVec.ofNat 32 b, count := 0, first := 0, shape := shape, wait := 0, sbs := []
    stats := none, opc := k.opc }

/-! ### Multicast streams (14 R321, R322) -/

/-- The operands of the collective that a message belongs to. -/
def Channel.ctxOf (c : Channel) (k : Collective) : Option CollCtx :=
  (c.findRun k.src).bind fun r => (collCtx c r).toOption

/-- The shape of the pieces is known to fit: a message of bucket 0 has come (R333). -/
def Collective.shapeKnown (k : Collective) : Bool :=
  k.opc != 0x40 || k.written.contains 0 || k.results.any fun m => m.bucket == 0

/-- Superblocks that a message holds. -/
def blocksOf (m : RedMsg) : List Nat := List.range' (64 * m.bucket.toNat + m.first.toNat) m.sbs.length

/-- Superblocks of the source that a destination superblock on another grid takes elements of. -/
def CollCtx.feeds (x : CollCtx) (n : Nat) : List Nat :=
  match x.src, x.dst with
  | some s, some d =>
    (((d.validLines n).zipIdx.flatMap fun (ok, l) => ok.zipIdx.filterMap fun (o, k) =>
      if o then some (s.locate (s.posOf (d.coord n l k))).1 else none)).dedup
  | _, _ => []

/-- Every element of a destination superblock is in these messages. -/
def CollCtx.fed (x : CollCtx) (ms : List RedMsg) (n : Nat) : Bool :=
  (x.feeds n).all fun b => ms.any fun m => (blocksOf m).contains b

/-- Destination superblocks that take elements of these messages. -/
def CollCtx.fedBy (x : CollCtx) (ms : List RedMsg) : List Nat :=
  (List.range ((x.dst.map (·.nblocks)).getD 0)).filter fun n =>
    (x.feeds n).any fun b => ms.any fun m => (blocksOf m).contains b

/-- A message taken into a collective is written, for all that its acknowledgement can wait for (14 R321): its bucket is
written; or it was written as it came; or, on another grid of superblocks, every superblock it feeds is; or its command has
ended. Of what waits for the second path or for another grid of superblocks, the oldest counts as written once the window
of 3 is full and more of it is to come on the same stream, which would otherwise stand still (log 68). -/
def Channel.writtenHere (c : Channel) (s : Stream) (m : RedMsg) : Bool :=
  match c.collOf m with
  | none => true
  | some k =>
    match c.ctxOf k with
    | none => true
    | some x =>
      let b := m.bucket.toNat
      let whole (b : Nat) : Bool := k.written.contains b ||
        (gather (k.results.filter fun y => y.bucket.toNat == b && y.path == m.path) (x.size b)).isSome
      let written :=
        if m.shmis then true
        else if x.regroup then
          (k.kept.any fun y => y.bucket == m.bucket && y.first == m.first) && (x.fedBy [m]).all fun n => x.fed k.kept n
        else k.written.contains b || (!k.isSampled b && (b == 0 || k.shapeKnown))
      written || (decide (3 ≤ s.msgs.length - s.ackedUp) &&
        (if x.regroup then (List.range x.buckets).any fun b => !whole b else !whole b))


/-- Sends a message of a collective for its command, if that still runs; the command ends with 0x17 where it cannot be
sent (R350). The command waits for its acknowledgement only where it is the command's own: a partial, or what a root
sends (R317, R339, R345). -/
def Wk.sendColl (w : Wk) (src : Option Src) (vc : Fin 4) (dst : ChanId) (type : Byte) (m : RedMsg) (alt own : Bool) : Wk :=
  let b := redBody m
  let h := w.c.hdr dst type b.length
  match w.c.send vc ⟨h, b⟩ alt src none with
  | some c =>
    let c := { c with cfl := { c.cfl with txBytes := c.cfl.txBytes + BitVec.ofNat 64 b.length } }
    match src.bind c.findRun with
    | some r => { w with c := if own then c.setRun { r with unacked := r.unacked + 1 } else c }
    | none => { w with c := c }
  | none => match src with | some s => w.endSender s 0x17 | none => w

def Channel.stream (c : Channel) (id : StreamId) : Option Stream := c.streams.find? fun s => s.id == id
def Channel.setStream (c : Channel) (s : Stream) : Channel :=
  { c with streams := c.streams.map fun x => if x.id = s.id then s else x }

/-- The running collective of a stream. -/
def Channel.collOfStream (c : Channel) (id : StreamId) : Option Collective :=
  c.colls.find? fun k => k.root == id.root && k.rid == id.rid && k.opc == id.opc && k.group == id.group && k.step == id.step

/-- The command that a stream's messages are sent for, while it has no result. -/
def Channel.streamSrc (c : Channel) (id : StreamId) : Option Src :=
  ((c.collOfStream id).bind fun k => c.findRun k.src).bind fun r => if r.result.isNone then some r.src else none

/-- Children still in a stream, with their places. -/
def Stream.live (s : Stream) : List (Nat × ChanId) :=
  (s.children.zipIdx.map fun (x, i) => (i, x)).filter fun p => !s.dropped.contains p.2

def Stream.slowest (s : Stream) : Nat := s.live.foldl (fun m p => min m (s.acked.getD p.1 0)) s.msgs.length
def Stream.next (s : Stream) : Nat := s.live.foldl (fun m p => min m (s.sent.getD p.1 0)) s.msgs.length

/-- Sends what R321 allows: message n after the slowest child has acknowledged message n − 3. -/
def Wk.pumpStream (w : Wk) (id : StreamId) : Nat → Wk
  | 0 => w
  | k + 1 =>
    match w.c.stream id with
    | none => w
    | some s =>
      let n := s.next
      match s.msgs[n]? with
      | none => w
      | some m =>
        if n < s.slowest + 3 then
          let m := { m with sender := w.c.chid }
          let own := id.root == w.c.chid
          let w := s.live.foldl (fun w p => w.sendColl (w.c.streamSrc id) 3 p.2 5 m id.path own) w
          let s := { s with sent := s.live.foldl (fun l p => l.set p.1 (n + 1)) s.sent }
          ({ w with c := w.c.setStream s } : Wk).pumpStream id k
        else w

/-- Acknowledges to their senders the messages that are written here and that every remaining child has acknowledged (R321). -/
def Wk.ackStream (w : Wk) (id : StreamId) : Nat → Wk
  | 0 => w
  | k + 1 =>
    match w.c.stream id with
    | none => w
    | some s =>
      match s.msgs[s.ackedUp]? with
      | none => w
      | some m =>
        if s.ackedUp < s.slowest && w.c.writtenHere s m then
          let c := w.c.setStream { s with ackedUp := s.ackedUp + 1 }
          let c :=
            if m.sender = c.chid then c
            else c.sendMack { c.hdr c.chid 5 (redBody m).length with src := m.sender } 0
          ({ w with c := c } : Wk).ackStream id k
        else w

/-- A message joins a stream at this channel, and goes on to its children and to members that fetch it. -/
def Wk.joinStream (w : Wk) (k : Collective) (m : RedMsg) : Wk :=
  let id := k.streamId m.path
  let kids := treeChildren k.leaves k.root w.c.chid
  let c :=
    match w.c.stream id with
    | some _ => w.c
    | none => { w.c with streams := w.c.streams ++
        [{ id := id, children := kids, sent := kids.map fun _ => 0, acked := kids.map fun _ => 0 }] }
  let w := { w with c := c }
  match c.stream id with
  | none => w
  | some s =>
    let w := { w with c := c.setStream { s with msgs := s.msgs ++ [m] } }
    let w := s.fetch.foldl (fun w x => w.sendColl (w.c.streamSrc id) 0 x 5 { m with sender := w.c.chid } m.path true) w
    w.pumpStream id (s.msgs.length + 1)

/-- Acknowledges what a collective's streams now can: a message written on one path may release one of the other. -/
def Wk.ackBoth (w : Wk) (k : Collective) : Wk :=
  [false, true].foldl (fun w p =>
    let id := k.streamId p
    w.ackStream id (((w.c.stream id).map (·.msgs.length + 1)).getD 0)) w

/-! ### Ending a collective (R339, R342, R351) -/

/-- The result of a collective that has written everything. -/
def collResult (k : Collective) (x : CollCtx) : Result :=
  let bytes := match x.dst with
    | some d => ((List.range d.nblocks).map fun n => ((d.touched n).map (·.2)).sum).sum
    | none => 0
  ({ k with thin := x.thin.isSome, buckets := x.buckets, bytes := bytes } : Collective).report

/-- Everything is written: counters, the summed statistics, what training awaits; the command ends, or ends when its
last message is acknowledged (R317). -/
def Wk.collDone (w : Wk) (src : Src) (x : CollCtx) : Wk :=
  match w.c.coll src, w.c.findRun src with
  | some k, some r =>
    if r.result.isSome || r.held.isSome then w
    else
      let c := w.c
      let c := match x.layer, k.stats with
        | some l, some b => c.writeLayerStats k.step l b
        | _, _ => c
      let c := { c with cfl := { c.cfl with
        redTotal := if k.opc = 0x40 then c.cfl.redTotal + 1 else c.cfl.redTotal
        barTotal := if k.opc = 0x42 then satAdd c.cfl.barTotal 1 else c.cfl.barTotal
        nf := c.cfl.nf || k.nf, nfTotal := if k.nf then satAdd c.cfl.nfTotal 1 else c.cfl.nfTotal } }
      let c :=
        if k.opc = 0x40 && c.training then
          { c with stp := { c.stp with att := { c.stp.att with
            nf := c.stp.att.nf || k.nf
            reductions := c.stp.att.reductions ++ [⟨k.rid, k.group, k.count.toNat, k.nf⟩] } } }
        else c
      let res := collResult k x
      { w with c := if r.unacked = 0 then c.finish r res else c.setRun { r with held := some res } }
  | _, _ => w

/-- A collective ends in error: its result, and the bits of CFL_STATUS. -/
def Wk.collFail (w : Wk) (src : Src) (e : Err) : Wk :=
  match w.c.findRun src with
  | some r =>
    let (c, res) := w.c.fail r e
    { w with c := c.finish { r with held := none } res }
  | none => w

/-! ### Results (R338, R339, R344) -/

/-- Writes the superblocks of a result message into the destination; where its origin differs from the source's,
element by element at the same coordinates. -/
def CollCtx.writeMsg (x : CollCtx) (c : Channel) (m : RedMsg) : Channel :=
  match x.dst with
  | none => c
  | some d =>
    let g := if x.sameGrid then d else x.src.getD d
    if x.regroup then c
    else m.sbs.zipIdx.foldl (fun c (f, i) =>
      let n := 64 * m.bucket.toNat + m.first.toNat + i
      if g.nblocks ≤ n then c
      else
        let ok := g.validLines n
        let sb := if f.form = 2 then (sparseParse f.bytes).freeze d.fmt d.bs16 ok else sbUnpack d.fmt d.bs16 f.bytes
        if x.sameGrid then c.wrSb d n sb
        else c.wrElems d ((sb.elems.zip ok).zipIdx.flatMap fun ((xs, os), l) =>
          (xs.zip os).zipIdx.filterMap fun ((v, o), k) => if o then some (d.posOf (g.coord n l k), v) else none)) c

/-- Bytes of the destination that a result message writes. -/
def CollCtx.msgBytes (x : CollCtx) (m : RedMsg) : Nat :=
  match x.dst with
  | none => 0
  | some d =>
    let g := if x.sameGrid then d else x.src.getD d
    ((List.range m.sbs.length).map fun i =>
      let n := 64 * m.bucket.toNat + m.first.toNat + i
      if g.nblocks ≤ n then 0
      else if d.fmt.isWide then ((g.validLines n).map fun l => (l.filter id).length).sum * (d.fmt.width / 8)
      else ((g.touched n).map (·.2)).sum).sum

/-- Freezes the superblocks of a narrow destination on another grid that new messages complete, from all that came. -/
def CollCtx.writeGroups (x : CollCtx) (c : Channel) (ms new : List RedMsg) : Channel :=
  match x.src, x.dst with
  | some s, some d =>
    let vals := ms.flatMap fun m => (blocksOf m).zip (m.sbs.map fun f => sparseParse f.bytes)
    ((x.fedBy new).filter fun n => x.fed ms n).foldl (fun c n =>
      let ok := d.validLines n
      let v : SbV := (List.range 1024).map fun p =>
        if (ok.flatten).getD p false then
          let (b, l, k) := s.locate (s.posOf (d.coord n (p / 32) (p % 32)))
          (vals.lookup b).bind fun y => y.getD (32 * l + k) none
        else none
      c.wrSb d n (v.freeze d.fmt d.bs16 ok)) c
  | _, _ => c

/-- Writes messages of a result that stand: as they are, or with what came before them on another grid. -/
def Wk.putMsgs (w : Wk) (k : Collective) (x : CollCtx) (ms : List RedMsg) : Wk × Collective :=
  if x.regroup then
    let k := { k with kept := k.kept ++ ms }
    ({ w with c := x.writeGroups w.c k.kept ms }, k)
  else ({ w with c := ms.foldl x.writeMsg w.c }, k)

/-- A bucket's results on both paths differ in a superblock or a sideband field (R342, R344); the path itself and the
member that passed a message on are no part of what is compared. -/
def resultsDiffer (a b : List RedMsg) : Bool :=
  let f (l : List RedMsg) : List RedMsg :=
    (l.mergeSort fun x y => decide (x.first.toNat ≤ y.first.toNat)).map fun m => { m with path := false, sender := 0 }
  f a != f b

/-- Takes a result message: writes what may be written, and ends the command when all is written. Of cf.reduce nothing
is written before the first message of bucket 0, whose SHAPE may end the command (R333). -/
def Wk.takeOne (w : Wk) (src : Src) (x : CollCtx) (m : RedMsg) : Wk :=
  match w.c.coll src, w.c.findRun src with
  | some k, some r =>
    let b := m.bucket.toNat
    let k := { k with results := k.results ++ [m] }
    if r.result.isSome || r.held.isSome then w
    else if b != 0 && !k.shapeKnown then { w with c := w.c.setColl k }
    else
      let of (p : Bool) : List RedMsg := k.results.filter fun y => y.bucket == m.bucket && y.path == p
      let full (p : Bool) : Bool := (of p).any (·.shmis) || (gather (of p) (x.size b)).isSome
      let misfit (w : Wk) : Wk :=
        let c := { w.c with cfl := { w.c.cfl with shmis := true } }
        ({ w with c := c } : Wk).collFail src (.fault 0xF ((x.src.map (·.addr)).getD 0))
      let done (w : Wk) (k : Collective) : Wk :=
        let main := of false
        let k := { k with
          written := k.written ++ [b]
          results := k.results.filter fun y => y.bucket != m.bucket
          nf := k.nf || main.any (·.nf)
          count := m.count
          stats := match main.findSome? (·.stats) with | some s => some s | none => k.stats }
        let w := { w with c := w.c.setColl k }
        if k.written.length < x.buckets then w
        else
          match w.c.findRun src with
          | some r =>
            if r.cmd.skewed && r.cmd.sigen then { w with c := w.c.setColl { k with skew := List.finRange 8 } }
            else w.collDone src x
          | none => w
      if k.isSampled b then
        if full false && full true then
          let cf := w.c.cfl
          if resultsDiffer (of false) (of true) then
            let c := { w.c with cfl := { cf with
              dpSampled := satAdd cf.dpSampled 1, dpMismatch := satAdd cf.dpMismatch 1, dpmis := true
              dpmisBucket := m.bucket, dpmisRid := k.rid } }
            let c := (c.setColl k).reportFault 0x07 0
            match c.findRun src with
            | some r =>
              let res : Result :=
                { status := 0x17
                  detail := BitVec.ofNat 16 (b2n k.nf + 2 + 4 + 8 * b2n k.strag + 16 * b2n x.thin.isSome)
                  info := info2 m.count.toNat b }
              { w with c := c.finish { r with held := none } res }
            | none => { w with c := c }
          else if m.shmis then misfit w
          else
            let c := { w.c with cfl := { cf with dpSampled := satAdd cf.dpSampled 1 } }
            let (w, k) := ({ w with c := c } : Wk).putMsgs k x (of false)
            done w { k with sampled := true }
        else { w with c := w.c.setColl k }
      else if m.shmis then misfit w
      else
        let k := { k with bytes := k.bytes + x.msgBytes m }
        let (w, k) := w.putMsgs k x [m]
        if full false then done w k else { w with c := w.c.setColl k }
  | _, _ => w

/-- Takes a result message, and with the first of bucket 0 what was held for it. -/
def Wk.takeResult (w : Wk) (src : Src) (x : CollCtx) (m : RedMsg) : Wk :=
  let known (w : Wk) : Bool := ((w.c.coll src).map Collective.shapeKnown).getD false
  let v := w.takeOne src x m
  match v.c.coll src with
  | some k =>
    if known v && !known w then
      let held := k.results.filter fun y => y.bucket != 0
      held.foldl (fun v m => v.takeOne src x m)
        { v with c := v.c.setColl { k with results := k.results.filter fun y => y.bucket == 0 } }
    else v
  | none => v

/-- A result message goes on down the tree, into the destination, and is acknowledged. -/
def Wk.passResult (w : Wk) (k : Collective) (src : Src) (x : CollCtx) (m : RedMsg) : Wk :=
  ((w.joinStream k m).takeResult src x m).ackBoth k

/-- The accesses that writing a result message takes (R53, R303). -/
def CollCtx.reach (x : CollCtx) (c : Channel) (b first n : Nat) : Ck Channel :=
  match x.dst with
  | none => .ok c
  | some d =>
    c.touch d true (if x.sameGrid then (List.range' (64 * b + first) n).filter fun i => decide (i < d.nblocks)
                    else List.range d.nblocks)
/-! ### Partials (R334, R336, R342, R349) -/

/-- A superblock's sum at this leaf: its own value with each incoming one, in order; NF of the additions. -/
def sumSb (x : CollCtx) (c : Channel) (n : Nat) (ins : List (SbForm × Bool)) : SbV × Bool :=
  let (v, nf) := x.own c n
  ins.foldl (fun (v, nf) (f, left) =>
    let y := x.decode n f
    let s := if left then SbV.add v y else SbV.add y v
    (s, nf || SbV.nonFinite s)) (v, nf)

/-- A straggler is named in the next heartbeat (R349, 16 R362). -/
def Flt.name (f : Flt) (x : ChanId) (wait : W16) : Flt :=
  let s := BitVec.ofNat 32 (x.toNat * 2 ^ 16 + wait.toNat)
  { f with strag := s, named := f.named ++ [s] }

/-- The straggler rule of R349 for one bucket. -/
def Wk.straggle (w : Wk) (src : Src) (wait : W16) (last : Option RedMsg) : Wk :=
  match last with
  | none => w
  | some m =>
    let thr := w.c.cfl.thr.toNat
    if thr < wait.toNat && decide (m.wait.toNat ≤ thr) then
      let cf := w.c.cfl
      let c := { w.c with
        cfl := { cf with stragTotal := satAdd cf.stragTotal 1, stragChan := m.sender, stragWait := wait, strag := true }
        flt := w.c.flt.name m.sender wait }
      { w with c := match c.coll src with | some k => c.setColl { k with strag := true } | none => c }
    else w

/-- Sends the partial of bucket b on a path up, or, at the holder of the final sum, starts the down tree. -/
def Wk.foldBucket (w : Wk) (src : Src) (x : CollCtx) (path : Bool) (b : Nat) (ins : List (List RedMsg × Bool)) : Wk :=
  match w.c.coll src with
  | none => w
  | some k =>
    let c := w.c
    let me := c.chid
    let last := (k.got.filter fun m => m.bucket.toNat == b && m.path == path).getLast?
    let wait : W16 := if k.adds.isEmpty then 0 else Config.upstreamWait w.ctr
    let w := { w with
      c := match x.src with | some s => w.c.countPois s (List.range' (64 * b) (x.size b)) | none => w.c
      ctr := if k.adds.isEmpty then w.ctr else w.ctr + 1 }
    let all := ins.flatMap (·.1)
    let shmis := all.any fun m => m.shmis || (b == 0 && k.opc == 0x40 && m.shape != x.shape)
    let forms : List (List SbForm × Bool) := ins.map fun (ms, l) => ((gather ms (x.size b)).getD [], l)
    let sums := (List.range (x.size b)).map fun i =>
      sumSb x c (64 * b + i) (forms.map fun (l, left) => (l.getD i ⟨2, [], 0⟩, left))
    let alone := k.adds.isEmpty
    let out := sums.zipIdx.map fun ((v, nf), i) =>
      let (f, g) := if k.up.isSome then x.form c (64 * b + i) v alone else x.resultForm (64 * b + i) v
      (f, nf || g)
    let count := 1 + (ins.map fun (ms, _) => ((ms.head?.map fun m => m.count.toNat).getD 0)).sum
    let stats :=
      if b + 1 = x.buckets then
        k.stats0.map fun s => all.foldl (fun a m => match m.stats with | some y => statJoin statWidths a y | none => a) s
      else none
    let base := { k.msg me path k.up.isNone b x.shape with
      nf := all.any (·.nf) || (!shmis && out.any (·.2)), shmis := shmis, count := BitVec.ofNat 32 count,
      wait := if k.up.isSome then wait else 0 }
    let ms := bucketMsgs base (if shmis then [] else out.map (·.1)) stats
    let k := { k with
      sentUp := k.sentUp ++ [(b, path)]
      got := k.got.filter fun m => !(m.bucket.toNat == b && m.path == path) }
    let w := ({ w with c := w.c.setColl k } : Wk).straggle src wait last
    match k.up with
    | some d => ms.foldl (fun w m => w.sendColl (some src) 1 d 3 m path true) w
    | none => ms.foldl (fun w m => w.passResult k src x m) w

/-- Whether this leaf has all it adds for bucket b on a path. A partial of another shape counts as it comes (R333). -/
def Collective.ready (k : Collective) (x : CollCtx) (path : Bool) (b : Nat) : Option (List (List RedMsg × Bool)) :=
  k.adds.mapM fun (s, left) =>
    let ms := k.got.filter fun m => m.sender == s && m.path == path && m.bucket.toNat == b
    let odd := ms.any fun m => m.shmis || (b == 0 && k.opc == 0x40 && m.shape != x.shape)
    if odd || (gather ms (x.size b)).isSome then some (ms, left) else none

/-- What forming bucket b reads and, at the root, writes can be accessed now. -/
def CollCtx.canFold (x : CollCtx) (c : Channel) (b : Nat) (root : Bool) : Ck Channel := do
  let c ← match x.src with
    | some s => c.touch s false ((List.range' (64 * b) (x.size b)).filter fun i => decide (i < s.nblocks))
    | none => pure c
  let c ← match x.thin with
    | some (_, cur, _) => c.touch cur false (List.range cur.nblocks)
    | none => pure c
  if root then x.reach c b 0 (x.size b) else pure c

/-- Buckets move in ascending order: goes on until one is not ready, or must wait for its memory, or the command has
ended. -/
def Wk.foldPath (w : Wk) (src : Src) (x : CollCtx) (path : Bool) : List Nat → Wk
  | [] => w
  | b :: rest =>
    match w.c.coll src with
    | none => w
    | some k =>
      if ((w.c.findRun src).bind (·.result)).isSome then w
      else if k.sentUp.contains (b, path) || (path && !k.isSampled b) then w.foldPath src x path rest
      else
        match k.ready x path b with
        | some ins =>
          match x.canFold w.c b k.up.isNone with
          | .ok c => (({ w with c := c } : Wk).foldBucket src x path b ins).foldPath src x path rest
          | .error e => if e.waits || e.page.isSome then w else w.collFail src e
        | none => w

/-- Moves a collective on as far as it goes. -/
def Wk.foldAll (w : Wk) (src : Src) (x : CollCtx) : Wk :=
  let bs := List.range x.buckets
  (w.foldPath src x false bs).foldPath src x true bs

/-! ### Starting (R328 to R332, R345 to R347) -/

/-- Joins a collective: the group, the key, the fold. -/
def joinColl (chans : Vector Channel 8) (c : Channel) (r : Running) (group : W16) (rid : W32) (root : Option Nat) :
    Ck Collective := do
  let bad : Err := .status 0x12 0
  let ls ← if group.toNat ≤ 8 then throw bad else
    (leavesGo chans c 8 c.chid group).map fun l => l.dedup.filter c.stays
  need (ls.contains c.chid) bad
  let (order, fold) := c.foldOf ls
  let (adds, up) := ((fold.bind fun f => f.part c.chid).getD ([], none))
  let top ← match root with
    | none => pure ((fold.map Fold.holder).getD c.chid)
    | some i => match order[i]? with | some x => pure x | none => throw bad
  let dup := c.colls.any fun k => k.opc == r.cmd.opc && k.group == group && k.rid == rid && k.step == r.step &&
    k.src != r.src && ((c.findRun k.src).map fun q => q.result.isNone).getD false
  need (!dup) (.fault 0xF (bits r.cmd.a0.toNat 47 0))
  let bcast := root.isSome
  pure { src := r.src, opc := r.cmd.opc, rid := rid, group := group, step := r.step, leaves := order, root := top
         adds := if bcast then [] else adds
         up := if bcast then (if top = c.chid then none else some top) else up
         count := BitVec.ofNat 32 order.length }

/-- Registers a collective and takes the messages held for its key (R330). -/
def Wk.register (w : Wk) (r : Running) (k : Collective) : Wk × List RedMsg :=
  let c := w.c.setRun { r with begun := some 0 }
  let mine (m : RedMsg) : Bool := m.opc == k.opc && m.group == k.group && m.rid == k.rid && m.step == k.step
  let held := c.heldMsgs.filter mine
  ({ w with c := { c with
      colls := (c.colls.filter fun x => x.src != k.src) ++ [{ k with got := held.filter fun m => !m.down }]
      heldMsgs := c.heldMsgs.filter fun m => !mine m
      streams := c.streams.filter fun s => !(s.id == k.streamId false || s.id == k.streamId true) } },
   held.filter (·.down))

/-- A result message for a running collective: on down the tree, then into the destination. One that came before (R322)
is acknowledged to the member that sent it again: at once where the first was acknowledged, else with the stream (R321). -/
def Wk.resultFor (w : Wk) (k : Collective) (x : CollCtx) (m : RedMsg) : Wk :=
  let same (y : RedMsg) : Bool := y.bucket == m.bucket && y.path == m.path && y.first == m.first
  let ack (w : Wk) : Wk :=
    { w with c := w.c.sendMack { w.c.hdr w.c.chid 5 (redBody m).length with src := m.sender } 0 }
  if k.results.any same || k.kept.any same || k.written.contains m.bucket.toNat then
    match w.c.stream (k.streamId m.path) with
    | none => ack w
    | some s =>
      match s.msgs.findIdx? same with
      | none => ack w
      | some n =>
        if n < s.ackedUp then ack w
        else { w with c := w.c.setStream { s with msgs := s.msgs.modify n fun y => { y with sender := m.sender } } }
  else w.passResult k k.src x m

def Wk.start (w : Wk) (r : Running) (k : Collective) (x : CollCtx) : Wk :=
  let (w, down) := w.register r k
  let w := if k.opc = 0x41 then w else w.foldAll k.src x
  down.foldl (fun w m => match w.c.collOf m with | some k => w.resultFor k x m | none => w) w

/-- Checks the access to every superblock of a tensor. -/
def Channel.touchAll (c : Channel) (d : Desc) (write : Bool) : Ck Channel := c.touch d write (List.range d.nblocks)

/-- The checks of cf.reduce (R332): the collective it joins, its operands, and the channel as they leave it. -/
def reduceOps (chans : Vector Channel 8) (c : Channel) (r : Running) : Ck ((Collective × CollCtx) × Channel) := do
  let x ← reduceCtx c r
  let p ← c.heldBlock r.copies (bits r.cmd.a2.toNat 47 0) 64 64 0xF
  let k ← joinColl chans c r (BitVec.ofNat 16 (fld p 4 2)) (BitVec.ofNat 32 (fld p 0 4)) none
  let c ← match x.src with | some d => c.touchAll d false | none => pure c
  let c ← match x.dst with | some d => c.touchAll d true | none => pure c
  let c ← match x.thin with
    | some (_, cur, next) => do
      let c ← c.touchAll cur false
      c.touchAll next true
    | none => pure c
  match x.layer with
    | some l => if l < c.nmon.lstCount.toNat then c.canRead (c.statAddr r.step l) 192
    | none => pure ()
  pure (({ k with
    stats0 := x.layer.map fun l => c.layerStats r.step l, thin := x.thin.isSome, buckets := x.buckets }, x), c)

/-- cf.reduce on checked operands: its next residual is written, and its collective goes on as far as it can. -/
def reduceRun (w : Wk) (r : Running) (k : Collective) (x : CollCtx) : Wk :=
  (w.mod x.writeResidual).start r k x

/-- cf.reduce (R332). -/
def cfReduce (chans : Vector Channel 8) (w : Wk) (r : Running) : Ck Wk := do
  if r.begun.isSome then pure w
  else
    let ((k, x), c) ← reduceOps chans w.c r
    pure (reduceRun { w with c := c } r k x)

/-- The checks of cf.bcast (R345): the collective it joins, its operands, at the root the tensor that goes down, and the
channel as they leave it. -/
def bcastOps (chans : Vector Channel 8) (c : Channel) (r : Running) :
    Ck ((Collective × CollCtx × Option Desc) × Channel) := do
  let a2 := r.cmd.a2.toNat
  let k ← joinColl chans c r (BitVec.ofNat 16 (bits a2 31 16)) (BitVec.ofNat 32 (bits a2 63 32)) (some (bits a2 15 0))
  let x ← bcastCtx c r
  let c ← match x.dst with | some d => c.touchAll d true | none => pure c
  match k.up, x.dst with
  | none, some d =>
    let s ← bcastSource c r d
    let c ← c.touchAll s false
    pure ((k, x, some s), c)
  | _, _ => pure ((k, x, none), c)

/-- cf.bcast on checked operands: at the root every superblock goes down as it is stored; elsewhere it waits for them. -/
def bcastRun (w : Wk) (r : Running) (k : Collective) (x : CollCtx) (s : Option Desc) : Wk :=
  match s, x.src with
  | some s, some g =>
    let c := w.c
    let (w, _) := w.register r k
    let ms := (List.range x.buckets).flatMap fun b =>
      bucketMsgs { k.msg c.chid false true b 0 with count := k.count }
        ((List.range (x.size b)).map fun i =>
          (⟨0, sbPack s.fmt (c.onGrid s g (64 * b + i)), BitVec.ofNat 5 s.fmtCode⟩ : SbForm)) none
    ms.foldl (fun w m => match w.c.coll r.src with | some k => w.passResult k r.src x m | none => w) w
  | _, _ => w.start r k x

/-- cf.bcast (R345). -/
def cfBcast (chans : Vector Channel 8) (w : Wk) (r : Running) : Ck Wk := do
  if r.begun.isSome then pure w
  else
    let ((k, x, s), c) ← bcastOps chans w.c r
    pure (bcastRun { w with c := c } r k x s)

/-- The checks of cf.barrier (R346, R347): the collective it joins. -/
def barrierOps (chans : Vector Channel 8) (c : Channel) (r : Running) : Ck Collective := do
  let a0 := r.cmd.a0.toNat
  need (!(a0.testBit 16 && decide (248 < r.cmd.ssem.toNat))) (.fault 0xF 0)
  joinColl chans c r (BitVec.ofNat 16 (bits a0 15 0)) (BitVec.ofNat 32 (bits a0 63 32)) none

/-- cf.barrier (R346, R347). -/
def cfBarrier (chans : Vector Channel 8) (w : Wk) (r : Running) : Ck Wk := do
  if r.begun.isSome then pure w
  else
    let k ← barrierOps chans w.c r
    pure (w.start r k { blocks := 0 })

/-! ### Messages that arrive -/

def Channel.rxCount (c : Channel) (m : RedMsg) : Channel :=
  { c with cfl := { c.cfl with rxBytes := c.cfl.rxBytes + BitVec.ofNat 64 (redBody m).length } }

/-- REDUCTION_MESSAGE (R330, R334). -/
def reductionMessage (w : Wk) (m : RedMsg) : Wk :=
  let w := w.mod Channel.landed
  let c := (w.c.takeMsg 3).rxCount m
  match c.collOf m with
  | none => { w with c := { c with heldMsgs := c.heldMsgs ++ [m] } }
  | some k =>
    match c.ctxOf k with
    | none => { w with c := c }
    | some x => (({ w with c := c.setColl { k with got := k.got ++ [m] } } : Wk).foldAll k.src x).settle k.src w

/-- RESULT_DOWN (R338). A message for memory that cannot be accessed now waits (13 R303, 11 R262). -/
def resultDown (w : Wk) (m : RedMsg) : Wk :=
  let w := w.mod Channel.landed
  let c := (w.c.takeMsg 5).rxCount m
  match c.collOf m with
  | none => { w with c := { c with heldMsgs := c.heldMsgs ++ [m] } }
  | some k =>
    match c.ctxOf k with
    | none => { w with c := c }
    | some x =>
      match x.reach c m.bucket.toNat m.first.toNat m.sbs.length with
      | .ok c => (({ w with c := c } : Wk).resultFor k x m).settle k.src w
      | .error e => if e.waits || e.page.isSome then w else ({ w with c := c } : Wk).collFail k.src e

/-- SKEW_RELEASE (R347): the addition for one core; the record follows the last. -/
def skewRelease (w : Wk) (src : Src) (core : Core) : Wk :=
  match w.c.coll src, w.c.findRun src with
  | some k, some r =>
    if k.skew.contains core && r.result.isNone then
      let k := { k with skew := k.skew.erase core }
      let c := (w.c.setColl k).semAdd (r.cmd.ssem + BitVec.ofNat 8 core.val) r.cmd.sinc.toNat
      let w := { w with c := c }
      if k.skew.isEmpty then w.collDone src { blocks := 0 } else w
    else w
  | _, _ => w

/-! ### Multicast rows (14 R321, R322) -/

def isMcTo (id : StreamId) (child : ChanId) (e : InFlight) : Bool :=
  e.msg.hdr.type == 5 && e.msg.hdr.dst == child &&
    (let m := redParse e.msg.hdr.src e.msg.body
     m.rid == id.rid && m.path == id.path && m.opc == id.opc && m.group == id.group && m.step == id.step)

/-- MULTICAST_ACK: a child has acknowledged its oldest unacknowledged message. -/
def multicastAck (w : Wk) (id : StreamId) (child : ChanId) : Wk :=
  match w.c.popFlight (isMcTo id child) with
  | none => w
  | some (e, c) =>
    let c := c.takeMsg 6
    let paid (w : Wk) : Wk :=
      match e.owner with
      | some s => if id.root = w.c.chid then { w with c := w.c.ackSender s } else w
      | none => w
    match c.stream id with
    | none => paid { w with c := c }
    | some s =>
      let c := match s.live.find? fun p => p.2 == child with
        | some (i, _) => c.setStream { s with acked := s.acked.modify i (· + 1) }
        | none => c
      let n := s.msgs.length + 1
      paid ((({ w with c := c } : Wk).pumpStream id n).ackStream id n)

/-- The body that names a stream and a message of it, in MDROP and MFETCH (the model's layout, log 20). -/
def streamBody (id : StreamId) (first : Nat) : List Byte :=
  toBytes 2 id.root.toNat ++ toBytes 4 id.rid.toNat ++ toBytes 1 (b2n id.path) ++ toBytes 4 first ++
    toBytes 1 id.opc.toNat ++ toBytes 2 id.group.toNat ++ toBytes 4 id.step.toNat

/-- Drops what is in flight to a child of a stream, and counts what its command waited for. -/
def Channel.dropFlights (id : StreamId) (child : ChanId) : Nat → Channel → Channel × Nat
  | 0, c => (c, 0)
  | n + 1, c =>
    match c.popFlight (isMcTo id child) with
    | none => (c, 0)
    | some (e, c) =>
      let (c, k) := Channel.dropFlights id child n c
      (c, k + b2n e.owner.isSome)

/-- MCTMO_EXPIRY (R322): the slow child is dropped. A root goes on waiting for what it owed the child. -/
def mctmoExpiry (w : Wk) (id : StreamId) (child : ChanId) : Wk :=
  match w.c.stream id with
  | none => w
  | some s =>
    match s.live.find? fun p => p.2 == child with
    | none => w
    | some (i, _) =>
      let done := s.acked.getD i 0
      if s.sent.getD i 0 ≤ done then w
      else
        let wait := Config.upstreamWait w.ctr
        let c := w.c.setStream { s with dropped := s.dropped ++ [child] }
        let c := match c.route child with
          | some r => c.modPort r.main fun p => { p with mcDrop := satAdd p.mcDrop 1 }
          | none => c
        let b := streamBody id done
        let c := c.post 2 ⟨c.hdr child 8 b.length, b⟩
        let cf := c.cfl
        let c := { c with
          cfl := { cf with stragTotal := satAdd cf.stragTotal 1, stragChan := child, stragWait := wait, strag := true }
          flt := c.flt.name child wait }
        let c := match c.collOfStream id with | some k => c.setColl { k with strag := true } | none => c
        let (c, owed) := Channel.dropFlights id child 8 c
        let c := match c.stream id with
          | some s => if id.root = c.chid && 0 < owed then c.setStream { s with owed := s.owed ++ [(child, owed)] } else c
          | none => c
        let n := s.msgs.length + 1
        (({ w with c := c, ctr := w.ctr + 1 } : Wk).pumpStream id n).ackStream id n

/-- MDROP: the dropped child asks the root for the rest. -/
def mdrop (c : Channel) (id : StreamId) (first : Nat) : Channel :=
  let c := c.takeMsg 8
  let b := streamBody id first
  c.post 2 ⟨c.hdr id.root 9 b.length, b⟩

/-- A root no longer waits for n acknowledgements that it owed a dropped child. -/
def Wk.releaseOwed (id : StreamId) : Nat → Wk → Wk
  | 0, w => w
  | n + 1, w =>
    match w.c.streamSrc id with
    | some s => Wk.releaseOwed id n { w with c := w.c.ackSender s }
    | none => w

/-- MFETCH: the root, which keeps the stream's messages, sends the rest point to point on the data virtual channel. -/
def mfetch (w : Wk) (id : StreamId) (child : ChanId) (first : Nat) : Wk :=
  let c := w.c.takeMsg 9
  match c.stream id with
  | some s =>
    if id.root != c.chid || s.fetch.contains child then { w with c := c }
    else
      let owed := ((s.owed.filter fun o => o.1 == child).map (·.2)).sum
      let c := c.setStream { s with fetch := s.fetch ++ [child], owed := s.owed.filter fun o => o.1 != child }
      let w := (s.msgs.drop first).foldl
        (fun w m => w.sendColl (w.c.streamSrc id) 0 child 5 { m with sender := w.c.chid } id.path true) { w with c := c }
      Wk.releaseOwed id owed w
  | none => { w with c := c }

/-! ### Meanings -/

/-- Runs an operation of Confluence on a running channel. -/
def onCfl (s : State) (ch : Ch) (f : Wk → Wk) : State :=
  onUp s ch fun w => if w.c.isFrozen (.engine .confluence) then w else f w

/-- CF_REDUCE. -/
def execCfReduce (ch : Ch) (src : Src) (s : State) : Host.Outcome State Fault Refusal :=
  .next (onRun s ch src 0x40 fun w r => productWith w r (cfReduce s.chans w r))

/-- CF_BCAST. -/
def execCfBcast (ch : Ch) (src : Src) (s : State) : Host.Outcome State Fault Refusal :=
  .next (onRun s ch src 0x41 fun w r => productWith w r (cfBcast s.chans w r))

/-- CF_BARRIER. -/
def execCfBarrier (ch : Ch) (src : Src) (s : State) : Host.Outcome State Fault Refusal :=
  .next (onRun s ch src 0x42 fun w r => productWith w r (cfBarrier s.chans w r))

/-- REDUCTION_MESSAGE. -/
def execReductionMessage (ch : Ch) (m : RedMsg) (s : State) : Host.Outcome State Fault Refusal :=
  .next (onCfl s ch fun w => reductionMessage w m)

/-- RESULT_DOWN. -/
def execResultDown (ch : Ch) (m : RedMsg) (s : State) : Host.Outcome State Fault Refusal :=
  .next (onCfl s ch fun w => resultDown w m)

/-- SKEW_RELEASE. -/
def execSkewRelease (ch : Ch) (src : Src) (core : Core) (s : State) : Host.Outcome State Fault Refusal :=
  .next (onCfl s ch fun w => skewRelease w src core)

/-- MULTICAST_ACK. -/
def execMulticastAck (ch : Ch) (id : StreamId) (child : ChanId) (s : State) : Host.Outcome State Fault Refusal :=
  .next (onCfl s ch fun w => multicastAck w id child)

/-- MCTMO_EXPIRY. -/
def execMctmoExpiry (ch : Ch) (id : StreamId) (child : ChanId) (s : State) : Host.Outcome State Fault Refusal :=
  .next (onCfl s ch fun w => mctmoExpiry w id child)

/-- MDROP. -/
def execMdrop (ch : Ch) (id : StreamId) (first : Nat) (s : State) : Host.Outcome State Fault Refusal :=
  .next (modUp s ch fun c => mdrop c id first)

/-- MFETCH. -/
def execMfetch (ch : Ch) (id : StreamId) (child : ChanId) (first : Nat) (s : State) : Host.Outcome State Fault Refusal :=
  .next (onCfl s ch fun w => mfetch w id child first)

end Sys2Proof.Machine
end

