-- ==== Sys2Proof/Machine/Pages.lean ====
section
/-!
DEFINITION. Absent pages (11 R262, 12 R286): halting a transfer, bringing the page in, giving up.
-/
namespace Sys2Proof.Machine

open Sys2Proof

def stateOf (x : Host.Outcome State Fault Refusal) (s : State) : State :=
  match x with
  | .next t => t
  | _ => s

/-- Runs the row of a running command's opcode. -/
def runRow (s : State) (ch : Ch) (src : Src) (opc : Byte) : State :=
  let x := match opc.toNat with
    | 0x10 => execMmFwd ch src s
    | 0x11 => execMmBwd2 ch src s
    | 0x12 => execMmBwd ch src s
    | 0x18 => execCvFreeze ch src s
    | 0x19 => execCvThaw ch src s
    | 0x20 => execVxChain ch src s
    | 0x30 => execStCopy ch src s
    | 0x31 => execStGather ch src s
    | 0x32 => execStScatter ch src s
    | 0x35 => execStPut ch src s
    | 0x40 => execCfReduce ch src s
    | 0x41 => execCfBcast ch src s
    | 0x50 => execAbUpdate ch src s
    | 0x51 => execAbFreeze ch src s
    | 0x52 => execAbScatter ch src s
    | _ => .next s
  stateOf x s

/-- The address at which a transfer is halted. -/
def Channel.haltedAt (c : Channel) : Transfer → Option Nat
  | .command src => (c.findRun src).bind fun r => r.halted.map (·.2)
  | .fill k x slot => ((c.cores[k].esk.ctxs[x].slot slot.val).halted).map (·.2)
  | .message p vc id => (c.ports[p].findOpen vc id).bind (·.halted)

/-- The transfer goes on. -/
def Channel.unhalt (c : Channel) : Transfer → Channel
  | .command src =>
    match c.findRun src with
    | some r => c.setRun { r with halted := none }
    | none => c
  | .fill k x slot => c.modCtx k x fun y => y.modSlot slot.val fun s => { s with halted := none }
  | .message p vc id =>
    match c.ports[p].findOpen vc id with
    | some m => c.modPort p fun s => s.modOpen m fun x => { x with halted := none }
    | none => c

/-- Where the entry of a page lies. -/
def Channel.entryRange (c : Channel) (page : Nat) : Nat × Nat := (c.agd.ptBase.toNat + 8 * page, 8)

/-- Adori invalidates the cached copy of an entry and changes it (R262). -/
def Channel.setPage (c : Channel) (page : Nat) (entry : W64) : Channel :=
  ({ c with agd := { c.agd with tc := c.agd.tc.filter fun p => p.1 != page } } : Channel).wrN
    (c.entryRange page).1 8 entry.toNat

/-- PAGE_HALT: the transfer meets an absent page; what its row does short of a halt does not happen here. -/
def pageHalt (s : State) (ch : Ch) (t : Transfer) : State :=
  if (s.chans[ch].haltedAt t).isSome then s
  else
    let s' := match t with
      | .command src =>
        match s.chans[ch].findRun src with
        | some r => runRow s ch src r.cmd.opc
        | none => s
      | .fill k x slot => stateOf (execFillLanded ch k x slot s) s
      | .message p vc id => stateOf (execMessageComplete ch p vc id s) s
    if (s'.chans[ch].haltedAt t).isSome then s' else s

/-- PAGE_RESUME: Adori brings the page in, writes its entry and resumes the transfer at POS. -/
def pageResume (c : Channel) (t : Transfer) (entry : W64) (data : List Byte) : Channel :=
  match c.haltedAt t with
  | none => c
  | some a =>
    let frame := bits entry.toNat 47 21 * 2 ^ 21
    let page := (frame, (data.take (2 ^ 21)).length)
    c.adori [] (ws := c.entryRange (a / 2 ^ 21) :: if inDram frame (2 ^ 21) then [page] else []) fun c =>
    let c := c.setPage (a / 2 ^ 21) entry
    let c := if inDram frame (2 ^ 21) then c.wr frame (data.take (2 ^ 21)) else c
    c.unhalt t

/-- PGTMO_EXPIRY: the transfer ends with status 0x15; a fill's is a held fault (R287); a message is dropped and its sender
told (R276). -/
def pgtmoExpiry (c : Channel) (t : Transfer) : Channel :=
  match c.haltedAt t with
  | none => c
  | some a =>
    match t with
    | .command src =>
      match c.findRun src with
      | some r => (c.unhalt t).finish { r with halted := none } { status := 0x15, info := BitVec.ofNat 64 a }
      | none => c
    | .fill k x slot => holdFault c k x slot.val 0x15 a
    | .message p vc id =>
      match c.ports[p].findOpen vc id with
      | some m => (c.modPort p fun s => (s.dropOpen m).idle 4).sendMack m.hdr 0x15
      | none => c

/-! ### Meanings -/

/-- PAGE_HALT. -/
def execPageHalt (ch : Ch) (t : Transfer) (s : State) : Host.Outcome State Fault Refusal := .next (pageHalt s ch t)

/-- PAGE_RESUME. -/
def execPageResume (ch : Ch) (t : Transfer) (entry : W64) (data : List Byte) (s : State) :
    Host.Outcome State Fault Refusal :=
  .next (modUp s ch fun c => pageResume c t entry data)

/-- PGTMO_EXPIRY. -/
def execPgtmoExpiry (ch : Ch) (t : Transfer) (s : State) : Host.Outcome State Fault Refusal :=
  .next (modUp s ch fun c => pgtmoExpiry c t)

/-- PAGE_ENTRY_UPDATE. -/
def execPageEntryUpdate (ch : Ch) (page : BitVec 27) (entry : W64) (s : State) : Host.Outcome State Fault Refusal :=
  .next (modUp s ch fun c => c.adori [] (ws := [c.entryRange page.toNat]) fun c => c.setPage page.toNat entry)

end Sys2Proof.Machine
end

