-- ==== Sys2Proof/Machine/Training.lean ====
section
/-!
DEFINITION. The training step (10): plans and segments, admission to the stash, the update gate, stripes (16 R365 to
R368), reports and their way up, the authority's decision, and the tokens COMMIT, SKIP, HALT and START, with what
Adori does at a commit (05 R132 to R134, 06 R146 to R158, 09 R205, R214 to R217).
-/
namespace Sys2Proof.Machine

open Sys2Proof

/-! ### The plan (Tables 10.2 to 10.4) -/

def Plan.parse (b : List Byte) : Plan :=
  { nstage := fld b 0 2, stage := fld b 2 2, mb := fld b 4 4, segt := fld b 8 6, stash := fld b 16 6
    esize := fld b 24 4, rsize := fld b 28 4, c := fld b 32 2, cr := fld b 34 2, lag := fld b 36 2, lowat := fld b 38 2
    lslist := fld b 40 6, lscount := fld b 48 4, nsteps := fld b 52 4 }

/-- The ranges of Table 10.2 and the rules of R229 on the header's fields. -/
def Plan.ok (p : Plan) : Bool :=
  decide (1 ≤ p.nstage) && decide (p.nstage ≤ 256) && decide (p.stage < p.nstage) && decide (1 ≤ p.mb) &&
  decide (p.mb ≤ 65536) && p.segt % 32 == 0 && p.stash % 64 == 0 && p.esize % 64 == 0 && p.rsize % 64 == 0 &&
  decide (p.c ≤ 4096) && decide (p.cr ≤ 4096) && decide (1 ≤ p.lag) && decide (p.lag ≤ 4096) && p.lslist % 8 == 0 &&
  p.c + p.cr != 0 && (p.c == 0 || decide (p.lowat < p.c))

/-- A segment table entry (Table 10.3). -/
structure Seg where
  addr : Nat
  count : Nat
  queue : Nat
  patch : Nat
  pcount : Nat
  next : Nat
  /-- where the entry lies -/
  entry : Nat
  deriving DecidableEq, Repr

def Seg.parse (entry : Nat) (b : List Byte) : Seg :=
  ⟨fld b 0 6, fld b 8 4, fld b 12 2, fld b 16 6, fld b 24 4, fld b 28 4, entry⟩

def Channel.seg (c : Channel) (p : Plan) (i : Nat) : Seg :=
  let a := p.segt + 32 * i
  Seg.parse a (c.rdA a 32)

/-- The entries of a segment in order; none where its NEXT chain loops or leaves memory (log 72). -/
def Channel.chainGo (c : Channel) (p : Plan) : Nat → List Nat → Nat → Option (List Seg)
  | 0, _, _ => none
  | n + 1, seen, i =>
    if i = 0xFFFFFFFF then some []
    else if seen.contains i || !inRegion (p.segt + 32 * i) 32 then none
    else (c.chainGo p n (i :: seen) (c.seg p i).next).map fun l => c.seg p i :: l

def Channel.segments (c : Channel) (p : Plan) (head : Nat) : Option (List Seg) := c.chainGo p (2 ^ 32) [] head

/-- The commands of a segment table entry. -/
def Channel.segCmds (c : Channel) (s : Seg) : List Command :=
  (List.range s.count).map fun i => Command.parse (c.rdA (s.addr + 64 * i) 64)

/-- A segment's queues are not reserved, and no dispatcher queue carries a command for a floe below 0x0009 (R229). -/
def Channel.segOk (c : Channel) (s : Seg) : Bool :=
  match queueEngine s.queue with
  | none => false
  | some e => decide (s.queue < 160) && decide (s.count ≤ 65536) &&
      (c.gov.gmode != 2 || s.queue != 135) &&
      (e != .dispatcher || (c.segCmds s).all fun k => opcUnit k.opc == some .dsp || decide (9 ≤ k.floe.toNat))

/-- Indices of the head entries. -/
def Plan.heads (p : Plan) : List Nat := List.range (4 * p.mb + 1)

/-- The validation of R229, with what R205, R365 and 17 R386 add. -/
def Channel.planOk (c : Channel) (p : Plan) : Bool :=
  p.ok && c.boot.cfg.hasMembership &&
  (p.heads.all fun i => match c.segments p i with | some l => l.all c.segOk | none => false) &&
  (c.regions.all fun h => h.hpb != 0) &&
  (c.flt.g == 0 || decide (c.imageLen c.stp.ver ≤ c.flt.stripeLen.toNat))

/-- The queues that a plan names. -/
def Channel.planQueues (c : Channel) : List QIdx :=
  match c.stp.plan with
  | none => []
  | some p =>
    let qs := (p.heads.flatMap fun i => (c.segments p i).getD []).map (·.queue)
    (List.finRange 160).filter fun q => qs.contains q.val

/-- Layers' gradient records and misfit state words, as the plan's commands name them: (layer, record), (first word). -/
def Channel.planRecords (c : Channel) (p : Plan) : List (Nat × Nat) × List Nat :=
  let cmds (heads : List Nat) : List Command :=
    (heads.flatMap fun i => (c.segments p i).getD []).flatMap c.segCmds
  let bw := (cmds p.heads).filterMap fun k =>
    if k.opc = 0x11 || k.opc = 0x12 then
      let b := Bwd.parse (c.rdA (bits k.a5.toNat 47 6 * 64) 64)
      if b.grec = 0 then none else some (b.layer, b.grec)
    else none
  let fw := (cmds ((List.range p.mb).flatMap fun i => [4 * i, 4 * i + 1])).filterMap fun k =>
    let a := bits k.a3.toNat 47 0
    if k.opc = 0x10 && a != 0 then
      let e := Epi.parse a (c.rdA a 64)
      if e.misfit && e.mstate != 0 then some e.mstate else none
    else none
  (bw.dedup, fw.dedup)

/-- Ranges that Adori reads of segments: their entries, commands and patch lists. -/
def segRanges (ss : List Seg) : List (Nat × Nat) :=
  ss.flatMap fun s => [(s.entry, 32), (s.addr, 64 * s.count), (s.patch, 16 * s.pcount)]

/-- Ranges that Adori reads of the records of layers (05 Table 5.7), and of the misfit state words. -/
def recordRanges (rs : List (Nat × Nat)) : List (Nat × Nat) := rs.map fun r => (r.2, 56)
def misfitRanges (bases : List Nat) : List (Nat × Nat) := bases.map fun b => (b, 64)

/-- The backward and epilogue blocks that Adori reads of a plan's commands, for what they name. -/
def Channel.planBlocks (c : Channel) (p : Plan) : List (Nat × Nat) :=
  (((p.heads.flatMap fun i => (c.segments p i).getD []).flatMap c.segCmds).filterMap fun k =>
    if k.opc = 0x11 || k.opc = 0x12 then some (bits k.a5.toNat 47 6 * 64, 64)
    else if k.opc = 0x10 && bits k.a3.toNat 47 0 != 0 then some (bits k.a3.toNat 47 0, 64)
    else none).dedup

/-- Ranges that Adori reads of a plan. -/
def Channel.planRanges (c : Channel) (p : Plan) : List (Nat × Nat) :=
  (p.segt, 32 * (4 * p.mb + 1)) :: (p.heads.flatMap fun i => segRanges ((c.segments p i).getD [])) ++ c.planBlocks p

/-- Words of misfit state: eight per layer, one per core (04 R104). -/
def misfitWords (bases : List Nat) : List Nat := bases.flatMap fun b => (List.range 8).map fun k => b + 8 * k

/-! ### Starting an attempt (R134, R236, R367) -/

/-- Address i of the loss-scale list. -/
def Channel.lossAddr (c : Channel) (p : Plan) (i : Nat) : Nat := bits (c.rdNA (p.lslist + 8 * i) 8) 47 0

/-- Writes 2^e to every address of the loss-scale list (R236). -/
def Channel.writeLossScale (c : Channel) (p : Plan) : Channel :=
  let v := Num.to32 (Num.scale (Fmt.signed 8 c.stp.lsexp.toNat) Num.one)
  (List.range p.lscount).foldl (fun c i => c.wrN (c.lossAddr p i) 4 v.toNat) c

/-- Sets the element format of every descriptor that the gradient records name (R134). -/
def Channel.rewriteFormats (c : Channel) (recs : List (Nat × Nat)) : Channel :=
  recs.foldl (fun c (_, a) =>
    match gradFmt (c.rdNA a 1 % 4) with
    | none => c
    | some f =>
      (List.range 6).foldl (fun c i =>
        let d := c.rdNA (a + 8 + 8 * i) 6
        if d = 0 then c else c.wrN (d + 6) 1 (c.rdNA (d + 6) 1 / 32 * 32 + f.code)) c) c

/-- The bytes of one parity half of a slot, and where unit j's parity lies: P in the first half, Q in the second
(16 R367; the layout within the parity area is the model's, log 29). -/
def Channel.parityHalf (c : Channel) : Nat :=
  (c.flt.stripeLen.toNat / stripeUnit + c.flt.g.toNat - 1) / max 1 c.flt.g.toNat * stripeUnit
def Channel.parityAddr (c : Channel) (v : W32) (j : Nat) (isQ : Bool) : Nat :=
  c.flt.stripeBase.toNat + v.toNat % 2 * (2 * c.parityHalf) + (if isQ then c.parityHalf else 0) +
    j / max 1 c.flt.g.toNat * stripeUnit

/-- Zeroes the pending parity slot (R367). -/
def Channel.zeroParity (c : Channel) : Channel :=
  if c.flt.g = 0 then c
  else c.wr (c.parityAddr (c.stp.ver + 1) 0 false) (List.replicate (2 * c.parityHalf) 0)

/-- Ranges that Adori reads as it starts an attempt: the plan, the loss-scale list, the gradient records and the
descriptors they name. -/
def Channel.startRanges (c : Channel) (p : Plan) : List (Nat × Nat) :=
  let recs := (c.planRecords p).1
  c.planRanges p ++ (p.lslist, 8 * p.lscount) :: recordRanges recs ++
    recs.flatMap fun r => ((List.range 6).map fun i => c.rdNA (r.2 + 8 + 8 * i) 6).filterMap fun d =>
      if d = 0 then none else some (d + 6, 1)

/-- Ranges that Adori writes as it starts an attempt: the loss scales, the formats and the pending parity. -/
def Channel.startWrites (c : Channel) (p : Plan) : List (Nat × Nat) :=
  ((List.range p.lscount).map fun i => (c.lossAddr p i, 4)) ++
    if c.flt.g = 0 then [] else [(c.parityAddr (c.stp.ver + 1) 0 false, 2 * c.parityHalf)]

/-- Adori's ab.freeze commands of a rollback or a skip are not all done (09 R217). -/
def Channel.refreezing (c : Channel) : Bool :=
  (c.inputs.any fun p => p.2.ref.owner == .adori) || c.running.any fun r => (r.share.map fun sh => sh.ref.owner) == some .adori

/-- Starts the next attempt with an empty stash. It waits for Adori's ab.freeze commands, and for a stack that Adori reads
or writes (13 R303). -/
def Channel.startAttempt (c : Channel) : Channel :=
  match c.stp.plan with
  | none => c
  | some p =>
    if c.refreezing || c.anyStopped (c.startRanges p ++ c.startWrites p) then
      { c with stp := { c.stp with st := .applying, startOwed := true, skipPending := none } }
    else
      let c := c.adoriRead (c.startRanges p) (c.startWrites p)
      let c := (c.writeLossScale p).rewriteFormats (c.planRecords p).1
      let c := c.zeroParity
      { c with stp := { c.stp with
          st := .running, att := {}, rolledBack := false, skipPending := none, startOwed := false } }

/-- Goes on with an attempt that waited to start. -/
def Channel.goOnStart (c : Channel) : Channel :=
  if c.stp.startOwed && !c.flt.fault then c.startAttempt else c

/-- Adori has read the misfit state words. -/
def Channel.misfitRead (c : Channel) : Channel :=
  match c.stp.plan with
  | none => c
  | some p => c.adoriRead (c.planBlocks p ++ misfitRanges (c.planRecords p).2)

/-- Copies every shared misfit state word (R241). -/
def Channel.copyMisfit (c : Channel) : Channel :=
  match c.stp.plan with
  | none => c
  | some p =>
    { c with stp := { c.stp with
        misfitCopy := (misfitWords (c.planRecords p).2).map fun a => (a, BitVec.ofNat 64 (c.rdNA a 8)) } }

/-- Initialises gradient records and misfit state words before the first step (04 R104, 05 R130). -/
def Channel.initRecords (c : Channel) (p : Plan) : Channel :=
  let (gs, ms) := c.planRecords p
  let c := gs.foldl (fun c (_, a) => c.wrN a 8 (c.stp.gfmt.toNat % 4)) c
  (misfitWords ms).foldl (fun c a => c.wrN a 8 c.stp.bound.toNat) c

/-! ### TRAINING_START (R227, R229, R246) -/

/-- Ranges that Adori reads to validate a plan, and the records that the first start initialises. -/
def Channel.checkRanges (c : Channel) (p : Plan) : List (Nat × Nat) :=
  (c.stp.planBase.toNat, 64) :: c.headerRanges ++ c.planRanges p ++ if c.flt.g = 0 then [] else c.slotDescRanges
def Channel.initWrites (c : Channel) (p : Plan) : List (Nat × Nat) :=
  if c.stp.st = .idle then ((c.planRecords p).1.map (·.2) ++ misfitWords (c.planRecords p).2).map fun a => (a, 8) else []

/-- Misfit words that only a plan started from DONE names keep what they hold (log 106). A start waits for a stack that
it reads or writes (13 R303), and is done once that resumes. -/
def trainingStart (c : Channel) (w : RegWrite) : Channel :=
  let p := Plan.parse (c.rdA c.stp.planBase.toNat 64)
  let c := { c with stp := { c.stp with ctrlOwed := false } }
  if (c.stp.st = .idle || c.stp.st == .done) && (enabledBits w 4).testBit 0 then
    if c.anyStopped (c.checkRanges p ++ c.initWrites p) then { c with stp := { c.stp with ctrlOwed := true } }
    else
    let c := c.adoriRead (c.checkRanges p) (c.initWrites p)
    if c.planOk p then
      let c := if c.stp.st = .idle then c.initRecords p else c
      { c with
        stp := { c.stp with st := .starting, plan := some p, commits := 0 }
        gov := { c.gov with voteOwed := false }
        flt := { c.flt with ready := true, hbseq := 0 } }.sendHb
    else { c with stp := { c.stp with planerr := true } }
  else c

/-! ### Admission (R232) -/

/-- A command index of a queue has been completed. -/
def Channel.reached (c : Channel) (q : QIdx) (i : W32) : Bool :=
  !(c.queues[q].ci - i).msb &&
    (match c.findRun (.queue q) with | some r => !(r.seq - i).msb | none => true)

/-- The backward segment of micro-batch j has been issued, and its last command has completed. -/
def Channel.bwdDone (c : Channel) (j : Nat) : Bool :=
  decide (j < c.stp.att.bwdIssued) && (c.stp.att.bwdMarks.all fun m => m.1 != j || c.reached m.2.1 m.2.2)

/-- Micro-batches of one variant, in order of admission. -/
def Attempt.ofKind (a : Attempt) (full : Bool) : List Nat :=
  (a.variants.zipIdx.filter fun v => v.1 == full).map (·.2)

/-- The entry, in ring order, of micro-batch i among those of its variant; and whether that entry is free for it. -/
def Channel.entryOf (c : Channel) (i : Nat) (full : Bool) (size : Nat) : Nat × Bool :=
  let l := c.stp.att.ofKind full
  let k := l.idxOf i
  (k % max 1 size, decide (k < size) || c.bwdDone (l.getD (k - size) 0))

/-- The attempt goes on and no channel fault stops it. -/
def Channel.issuing (c : Channel) : Bool :=
  (c.stp.st == .running || c.stp.st == .gated || c.stp.st == .reported || c.stp.st == .applying) &&
    !c.flt.fault && !c.gov.voteOwed && !c.stp.startOwed

/-- FORWARD_ADMISSION: the variant of the next micro-batch is chosen when it becomes issuable. -/
def forwardAdmission (c : Channel) : Channel :=
  match c.stp.plan with
  | none => c
  | some p =>
    let a := c.stp.att
    let i := a.variants.length
    if !c.issuing || p.mb ≤ i || a.fwdIssued != i || (decide (p.lag ≤ i) && !c.bwdDone (i - p.lag)) then c
    else
      let recent := a.variants.drop (i + 1 - p.lag)
      let occ := (recent.filter id).length
      let rocc := (recent.filter (!·)).length
      let recomp := a.recomp && !decide (occ ≤ p.lowat)
      if !recomp && decide (occ < p.c) then
        { c with stp := { c.stp with att := { a with recomp := recomp, variants := a.variants ++ [true] } } }
      else if p.cr = 0 then
        let a' := { a with recomp := recomp, variants := a.variants ++ [true] }
        let c' := { c with stp := { c.stp with att := a' } }
        if (c'.entryOf i true p.c).2 then c' else { c' with stp := { c'.stp with stall := satAdd c'.stp.stall 1 } }
      else
        { c with stp := { c.stp with
            recompEv := if recomp then c.stp.recompEv else satAdd c.stp.recompEv 1
            recompMb := satAdd c.stp.recompMb 1
            stall := if p.cr ≤ rocc then satAdd c.stp.stall 1 else c.stp.stall
            att := { a with recomp := true, everRecomp := true, variants := a.variants ++ [false] } } }

/-! ### Issuing segments (R228, R230) -/

/-- The rings of the segment's queues have room for its commands. -/
def Channel.roomFor (c : Channel) (ss : List Seg) : Bool :=
  (List.finRange 160).all fun q =>
    let n := ((ss.filter fun s => s.queue == q.val).map (·.count)).sum
    decide (n ≤ c.queues[q].size - (c.queues[q].pi - c.queues[q].ci).toNat)

/-- Where a segment's commands go in their rings, in command order of each queue, and the descriptors' addresses that its
patch lists set. -/
def Channel.issueWrites (c : Channel) (ss : List Seg) : List (Nat × Nat) :=
  ((List.finRange 160).flatMap fun q =>
    let x := c.queues[q]
    (List.range ((ss.filter fun s => s.queue == q.val).map (·.count)).sum).map fun i =>
      (x.base.toNat + 64 * ((x.pi + BitVec.ofNat 32 i).toNat % x.size), 64)) ++
  ss.flatMap fun s => if s.patch = 0 then [] else
    (List.range s.pcount).map fun i => (fld (c.rdA (s.patch + 16 * i) 16) 0 6, 6)

/-- Sets the address field of each patch entry's descriptor: bases of full entry, recompute entry, scratch. -/
def Channel.patch (c : Channel) (s : Seg) (bases : Nat → Nat) : Channel :=
  if s.patch = 0 then c
  else
    (List.range s.pcount).foldl (fun c i =>
      let b := c.rdA (s.patch + 16 * i) 16
      c.wrN (fld b 0 6) 6 ((bases (fld b 12 1 % 4) + fld b 8 4) % 2 ^ 48)) c

/-- Copies a segment's commands into their rings and moves each producer index once. -/
def Channel.issue (c : Channel) (ss : List Seg) (bases : Nat → Nat) : Channel :=
  let c := ss.foldl (fun c s => c.patch s bases) c
  (List.finRange 160).foldl (fun c q =>
    let bs := (ss.filter fun s => s.queue == q.val).flatMap fun s =>
      (List.range s.count).map fun i => c.rdA (s.addr + 64 * i) 64
    if bs.isEmpty then c
    else
      let x := c.queues[q]
      let c := bs.zipIdx.foldl (fun c (b, i) =>
        c.wr (x.base.toNat + 64 * ((x.pi + BitVec.ofNat 32 i).toNat % x.size)) b) c
      c.modQ q fun x => { x with pi := x.pi + BitVec.ofNat 32 bs.length }) c

/-- The queue indices that a segment just issued reaches. -/
def Channel.marks (c : Channel) (ss : List Seg) : List (QIdx × W32) :=
  ((List.finRange 160).filter fun q => ss.any fun s => s.queue == q.val && s.count != 0).map fun q => (q, c.queues[q].pi)

/-- Bases of the entries of micro-batch i (R228). -/
def Channel.bases (c : Channel) (p : Plan) (i : Nat) (full : Bool) : Nat → Nat
  | 0 => p.stash + p.esize * (if full then (c.entryOf i true p.c).1 else 0)
  | 2 => p.stash + p.esize * p.c
  | _ => p.stash + p.esize * (p.c + 1) + p.rsize * (if full then 0 else (c.entryOf i false p.cr).1)

/-- SEGMENT_ISSUE. -/
def segmentIssue (c : Channel) (k : SegKind) : Channel :=
  match c.stp.plan with
  | none => c
  | some p =>
    let a := c.stp.att
    let i := match k with | .fwd => a.fwdIssued | .bwd => a.bwdIssued
    match a.variants[i]? with
    | none => c
    | some full =>
      let head := 4 * i + (match k with | .fwd => 0 | .bwd => 2) + (if full then 0 else 1)
      match c.segments p head with
      | none => c
      | some ss =>
        let free := k == .bwd || (c.entryOf i full (if full then p.c else p.cr)).2
        if !c.issuing || !free || !c.roomFor ss then c
        else
          c.adori (segRanges ss) (ws := c.issueWrites ss) fun c =>
          let c := c.issue ss (c.bases p i full)
          match k with
          | .fwd => { c with stp := { c.stp with att := { c.stp.att with fwdIssued := i + 1 } } }
          | .bwd => { c with stp := { c.stp with att := { c.stp.att with
              bwdIssued := i + 1, bwdMarks := c.stp.att.bwdMarks ++ (c.marks ss).map fun m => (i, m.1, m.2) } } }

/-! ### The gate (R234) -/

/-- Every backward segment is issued and complete, and no collective of the step runs. -/
def Channel.backwardDone (c : Channel) (p : Plan) : Bool :=
  c.stp.att.bwdIssued == p.mb && (List.range p.mb).all c.bwdDone &&
  c.running.all fun r => opcUnit r.cmd.opc != some .cfl || r.step != c.nmon.step

/-- The reduction that forms a region's gradient, if it has completed. -/
def Channel.reductionOf (c : Channel) (h : Region) : Option RedDone :=
  c.stp.att.reductions.find? fun d => d.rid == h.grid && d.group == h.ggroup

/-- GSCALE = rne(2^−e / n) (09 R205). -/
def gscale (e : Int) (n : Nat) : W32 :=
  let k := 64 + Nat.log2 n
  Num.rnd32 false (2 ^ k / n) (-e - k) (2 ^ k % n != 0)

/-- A gradient record (05 Table 5.7) after a step's counts (R132); the product wraps at 64 bits, as the rule's code. -/
def gsel (v gbad gclean nz sat uflow shsat shufl : Nat) : Nat :=
  let fmt := v % 4
  let clean := bits v 23 8
  let changes := bits v 63 32
  let lim := nz * gbad % 2 ^ 64 / 2 ^ 24
  let pack (f c ch : Nat) : Nat := f + 2 ^ 8 * c + 2 ^ 32 * ch
  let more := if changes = 2 ^ 32 - 1 then changes else changes + 1
  if fmt ≠ 2 && decide (lim < sat + uflow) then pack (fmt + 1) 0 more
  else if gclean ≠ 0 && fmt ≠ 0 && decide (shsat + shufl ≤ lim / 4) then
    if clean + 1 = gclean then pack (fmt - 1) 0 more else pack fmt (clean + 1) changes
  else pack fmt 0 changes

/-- A layer's record after the step now in the bank. One of a layer past the statistics has no counts, and stays (DESIGN
CHOICE, log 125). -/
def Channel.gselOf (c : Channel) (layer a : Nat) : W64 :=
  let v := c.rdNA a 8
  if layer < c.nmon.lstCount.toNat then
    let s := c.statAddr c.nmon.step layer
    BitVec.ofNat 64 (gsel v c.nmon.gbad.toNat c.nmon.gclean.toNat (c.rdNA (s + 32) 8) (c.rdNA (s + 40) 4) (c.rdNA (s + 44) 4)
      (c.rdNA (s + 48) 4) (c.rdNA (s + 52) 4))
  else BitVec.ofNat 64 v

/-- UPD_ISSUE (R234): writes GSCALE, computes the gradient records, and issues the update tail. -/
def updIssue (c : Channel) : Channel :=
  match c.stp.plan with
  | none => c
  | some p =>
    let a := c.stp.att
    match c.segments p (4 * p.mb) with
    | none => c
    | some ss =>
      if c.stp.st != .running || c.flt.fault || a.updIssued || a.nf || c.stp.skipPending.isSome || !c.backwardDone p ||
          !(c.regions.all fun h => (c.reductionOf h).isSome) || !c.roomFor ss then c
      else
        let recs := (c.planRecords p).1
        let stats := recs.map fun r => (c.statAddr c.nmon.step r.1, 192)
        let scales := c.regions.map fun h => (h.hpb + 32, 4)
        let image := if c.flt.g = 0 then [] else c.slotDescRanges
        c.adori (c.headerRanges ++ segRanges ss ++ c.planBlocks p ++ recordRanges recs ++ stats ++ image)
          (ws := scales ++ c.issueWrites ss) fun c =>
        let e := Fmt.signed 8 c.stp.lsexp.toNat
        let c := c.regions.foldl (fun c h =>
          match c.reductionOf h with
          | some d => c.wrN (h.hpb + 32) 4 (gscale e d.n).toNat
          | none => c) c
        let grads := (c.planRecords p).1.map fun (l, g) => (g, c.gselOf l g)
        -- the scratch stands whatever the micro-batch; the update tail has no entry of the rings
        let c := c.issue ss fun k => if k = 2 then c.bases p 0 true 2 else 0
        let units := if c.flt.g = 0 then [] else List.range (c.imageLen (c.stp.ver + 1) / stripeUnit)
        { c with stp := { c.stp with
            st := .gated
            att := { c.stp.att with
              updIssued := true, gated := true, grads := grads, stripesOwed := units, updMarks := c.marks ss } } }

def Channel.updCommandsDone (c : Channel) : Bool :=
  c.stp.att.updIssued && c.stp.att.updMarks.all fun m => c.reached m.1 m.2

/-! ### Stripes (16 R367, R368) -/

/-- Product in GF(2^8) under 0x11D. -/
def gfMul (a b : Byte) : Byte :=
  ((List.range 8).foldl (fun (acc, x) i =>
    (if b.getLsbD i then acc ^^^ x else acc, if x.msb then (x <<< 1) ^^^ 0x1D else x <<< 1)) ((0 : Byte), a)).1

def gfPow (g : Byte) : Nat → Byte
  | 0 => 1
  | n + 1 => gfMul g (gfPow g n)

/-- The position that holds the parity of unit j (R367). -/
def holderOf (g j : Nat) (isQ : Bool) : Nat := (if isQ then j + 1 else j) % max 1 g

/-- Adds a member's unit to this holder's pending slot. -/
def Channel.addParity (c : Channel) (pos j : Nat) (isQ : Bool) (data : List Byte) : Channel :=
  let a := c.parityAddr (c.stp.ver + 1) j isQ
  let f := if isQ then gfPow 2 pos else 1
  c.wr a (((c.rdA a stripeUnit).zip (padTo stripeUnit data)).map fun (x, y) => x ^^^ gfMul f y)

/-- A stripe contribution as a message: put data without a descriptor; the unit in OFFS, Q told by RINC, the sender's
position in ORDER (log 73). -/
def Channel.stripeMsg (c : Channel) (j : Nat) (isQ : Bool) (d : List Byte) : Msg :=
  ⟨{ c.hdr (Config.stripeMember (holderOf c.flt.g.toNat j isQ)) 1 d.length with
      order := c.flt.pos, offs := BitVec.ofNat 32 j, rinc := BitVec.ofNat 16 (b2n isQ) }, d⟩

/-- A contribution leaves for the holder of one parity; this channel's own joins its slot at once. -/
def Channel.contribute (c : Channel) (j : Nat) (d : List Byte) (isQ : Bool) : Channel :=
  let h := holderOf c.flt.g.toNat j isQ
  let c := { c with flt := { c.flt with stripesOut := c.flt.stripesOut ++ [(h, j, isQ, d)] } }
  if h = c.flt.pos.toNat then c.addParity h j isQ d
  else
    let c := { c with stp := { c.stp with att := { c.stp.att with stripesSent := c.stp.att.stripesSent ++ [(j, isQ)] } } }
    c.post 0 (c.stripeMsg j isQ d)

/-- STRIPE_CONTRIBUTION: a unit of the image of version VER + 1 goes to its two holders, which acknowledge it. -/
def stripeContribution (c : Channel) (j : Nat) : Channel :=
  if c.updCommandsDone && c.stp.att.stripesOwed.contains j && !c.flt.fault then
    let own := [false, true].filter fun q => holderOf c.flt.g.toNat j q == c.flt.pos.toNat
    c.adori (c.unitRanges (c.stp.ver + 1) j ++
      own.map fun q => (c.parityAddr (c.stp.ver + 1) j q, stripeUnit)) fun c =>
    let d := c.imageUnit (c.stp.ver + 1) j
    let c := { c with stp := { c.stp with att := { c.stp.att with
      stripesOwed := c.stp.att.stripesOwed.filter (· != j) } } }
    (c.contribute j d false).contribute j d true
  else c

/-- The first contribution handed on for a unit and a position. -/
def isContribution (pos j : Nat) (isQ : Bool) (m : Msg) : Bool :=
  m.hdr.type == 1 && m.hdr.put.isNone && m.hdr.order.toNat == pos && m.hdr.offs.toNat == j && m.hdr.rinc.toNat == b2n isQ

/-- PARITY_CONTRIBUTION: this holder adds a member's unit to its pending slot and acknowledges it. -/
def parityContribution (c : Channel) (pos j : Nat) (isQ : Bool) (data : List Byte) : Channel :=
  let g := c.flt.g.toNat
  if g = 0 || holderOf g j isQ != c.flt.pos.toNat || c.flt.stripeLen.toNat ≤ stripeUnit * j || c.flt.fault then c
  else
    c.adori [(c.parityAddr (c.stp.ver + 1) j isQ, stripeUnit)] fun c =>
    let c := c.addParity pos j isQ data
    let c := { c with flt := { c.flt with parityAcks := c.flt.parityAcks ++ [(pos, j, isQ)] } }
    match c.inbox.find? (isContribution pos j isQ) with
    | some m => { c with inbox := c.inbox.eraseP (isContribution pos j isQ) }.sendMack m.hdr 0
    | none => c

/-! ### Reports (R238) -/

/-- STEP_REPORT: once per attempt, when UPD is complete or withheld. -/
def stepReport (c : Channel) : Channel :=
  let a := c.stp.att
  let done := c.updCommandsDone && a.stripesOwed.isEmpty && a.stripesSent.isEmpty
  if (c.stp.st = .running || c.stp.st == .gated) && !c.flt.fault && !a.reported && ((a.nf && !a.updIssued) || done) then
    c.adori c.headerRanges fun c =>
    if c.flt.fault then c
    else
    let r : Report :=
      { step := c.nmon.step, ver := c.stp.ver, nf := a.nf && !a.updIssued, bad := c.regions.any (·.bad)
        recomp := a.everRecomp, chan := c.chid }
    let c := c.sendCtl (c.flt.mgrChan.getD c.boot.cfg.ident.pdm) (reportBytes r)
    { c with stp := { c.stp with
        st := .reported, att := { a with reported := true }, sentReports := c.stp.sentReports ++ [r] } }
  else c

def Channel.mgr (c : Channel) : MgrLevel → Mgr
  | .drift => c.flt.drift
  | .field => c.flt.field

def Channel.modMgr (c : Channel) (l : MgrLevel) (f : Mgr → Mgr) : Channel :=
  match l with
  | .drift => { c with flt := { c.flt with drift := f c.flt.drift } }
  | .field => { c with flt := { c.flt with field := f c.flt.field } }

/-- The level at which this channel is the commit authority (01 R23); the two roles act as one in a system of one
drift. -/
def Channel.authority (c : Channel) : Option MgrLevel :=
  if c.oneDrift then (if c.flt.drift.acting then some .drift else none)
  else if c.flt.field.acting && c.firstField then some .field
  else none

/-- The channel that acts for a drift or field whose manager the membership lists (16 R359). -/
def Channel.actsFor (c : Channel) (x : ChanId) : ChanId := (c.flt.field.successors.lookup x).getD x

/-- The direct members of a manager, in list order (01 R22, R23). -/
def Channel.directMembers (c : Channel) (l : MgrLevel) : List ChanId :=
  let m := c.flt.members
  match l with
  | .drift => m.modules.flatMap moduleChans
  | .field => (m.driftManagers ++ if c.firstField then m.fieldManagers.drop 1 else []).map c.actsFor

/-- The step of the attempt that follows a token. -/
def tokenNext (t : Token) : W32 :=
  match t.kind with
  | .commit | .skip | .halt => t.step + 1
  | _ => t.step

/-- The step whose reports a manager takes: it follows the tokens the manager has given, which its own channel may yet
have to apply. -/
def Channel.expect (c : Channel) (g : Mgr) : W32 :=
  match g.latest with
  | some (t, _) => tokenNext t
  | none => c.nmon.step

/-- The manager above a manager: of a drift its field's, of a field that is not listed first the first one's (01 R23). -/
def Channel.above (c : Channel) (l : MgrLevel) : ChanId :=
  let i := c.boot.cfg.ident
  match l with
  | .drift => if c.flt.field.acting then c.chid else c.flt.fmgrChan.getD i.pfm
  | .field => c.flt.topChan.getD (c.flt.members.fieldManagers.headD i.pfm)

/-- REPORT_FORWARD: a manager takes a report; unless it decides, it forwards a combined one. -/
def reportForward (c : Channel) (l : MgrLevel) (r : Report) : Channel :=
  let c := c.takeMsg 4
  let m := c.mgr l
  if !m.acting || m.decided || r.step != c.expect m || m.reports.any (fun x => x.chan == r.chan) then c
  else
    let rs := m.reports ++ [r]
    let c := c.modMgr l fun m => { m with reports := rs }
    let all := (c.directMembers l).all fun x => rs.any fun y => y.chan == x
    if c.authority = some l || m.forwarded || !(r.nf || all) then c
    else
      let up := c.above l
      let f : Report :=
        { r with nf := rs.any (·.nf), bad := rs.any (·.bad), recomp := rs.any (·.recomp), chan := c.chid }
      let c := (c.sendCtl up (reportBytes f)).modMgr l fun m => { m with forwarded := true }
      { c with stp := { c.stp with sentReports := c.stp.sentReports ++ [f] } }

/-! ### Deciding (R235, R237, R239, R240) -/

/-- The new e, and dls (R235). -/
def lsDecide (s : Stp) (k : TokKind) : Byte × Byte :=
  let e := Fmt.signed 8 s.lsexp.toNat
  match k with
  | .commit =>
    if s.lsclean + 1 = s.lsgrow && decide (e < Fmt.signed 8 s.lsmax.toNat) then (s.lsexp + 1, 1) else (s.lsexp, 0)
  | .skip | .halt => if Fmt.signed 8 s.lsmin.toNat < e then (s.lsexp - 1, 0xFF) else (s.lsexp, 0)
  | _ => (s.lsexpCommit, 0)

/-- The channel that manages a drift or field after a removal: the one that acts for it, its manager as the membership
names it, or its standby, the first of them that stays; none where a pair leaves whole (16 R359, R363; log 116). -/
def Channel.heir (c : Channel) (rem : List W16) (l : MgrLevel) (x : ChanId) : Option ChanId :=
  let i := c.boot.cfg.ident
  let pair := match l with
    | .drift => if c.ownDrift x then c.actsFor x :: c.driftPair else [c.actsFor x, x, Config.standbyOf x]
    | .field =>
      if c.oneDrift then c.driftPair
      else if c.ownField x then pairOf c.flt.fmgrChan c.flt.fsbChan i.pfm i.sfm
      else [c.actsFor x, x, Config.fieldStandbyOf x]
  pair.find? fun y => !c.leaving rem (modOf y)

/-- The membership without the modules that leave (16 R363), and without the drifts and fields that no manager is left of. -/
def Channel.shrunk (c : Channel) (rem : List W16) : Membership :=
  let m := c.flt.members
  if rem.isEmpty then m
  else
    { modules := m.modules.filter fun x => !c.leaving rem x
      driftManagers := m.driftManagers.filter fun x => (c.heir rem .drift x).isSome
      fieldManagers := m.fieldManagers.filter fun x => (c.heir rem .field x).isSome
      mepoch := m.mepoch + 1 }

/-- No module is left (R364). -/
def noneLeft (m : Membership) : Bool := m.modules.isEmpty && m.driftManagers.isEmpty

/-- The decision that the reports and faults call for (R239). -/
def Channel.verdict (c : Channel) (l : MgrLevel) : Option TokKind :=
  let m := c.mgr l
  if m.faultSeen || m.reports.any (·.bad) then some .rollback
  else if m.reports.any (·.nf) then some (if c.stp.skipmax.toNat ≤ c.stp.skips.toNat + 1 then .halt else .skip)
  else if (c.directMembers l).all fun x => m.reports.any fun y => y.chan == x then some .commit
  else none

/-- The token of a decision. -/
def Channel.token (c : Channel) (k : TokKind) (mepoch : W32) : Token :=
  let (e, d) := lsDecide c.stp k
  let commit := k == .commit
  { ver := if commit then c.stp.ver + 1 else c.stp.ver, step := c.nmon.step, kind := k, lsexp := e, dls := d
    mepoch := mepoch, batch := if commit then c.stp.batch + 1 else c.stp.batch }

/-- A manager sends a token to its direct members and holds it as its latest (R240). -/
def Channel.sendToken (c : Channel) (l : MgrLevel) (t : Token) (m : Membership) : Channel :=
  let ds := c.directMembers l
  let c := ds.foldl (fun c d => c.sendCtl d (tokenBytes t)) c
  c.modMgr l fun g => { g with latest := some (t, m), sent := g.sent ++ ds.map fun d => (d, t) }

/-- A manager after a token has gone to its members: it waits for the reports of the attempt that follows. A ROLLBACK
holds that attempt back until START, which settles the faults seen. `next` are its members from now on; of the removals
planned those are settled of which `gone` holds. -/
def Mgr.took (g : Mgr) (t : Token) (next : List ChanId) (gone : W16 → Bool) : Mgr :=
  let g := { g with
    reports := [], forwarded := false, decision := none, leaving := [], unacked := 0, decided := t.kind == .rollback
    recovering := t.kind == .rollback
    table := next.map fun x => (g.table.find? fun e => e.chan == x).getD { chan := x }
    removals := g.removals.filter fun m => !gone m
    standbyChan := g.standbyChan.filter next.contains, standbyAcked := g.standbyAcked && g.standbyChan.all next.contains }
  match t.kind with
  | .start => { g with
      faultSeen := false, faultHbtmo := false, told := []
      table := g.table.map fun e => { e with ready := false, quiesced := false } }
  | _ => g

/-- At a field manager, the drifts and fields whose acting manager leaves have their heirs act for them (log 116). -/
def Channel.inherit (c : Channel) (rem : List W16) : Channel :=
  let heirs (l : MgrLevel) (xs : List ChanId) : List (ChanId × ChanId) :=
    (xs.filter fun x => c.leaving rem (modOf (c.actsFor x))).filterMap fun x => (c.heir rem l x).map fun y => (x, y)
  let m := c.flt.members
  c.modMgr .field fun g => { g with
    successors := heirs .drift m.driftManagers ++ heirs .field (m.fieldManagers.drop 1) ++ g.successors }

/-- A token goes out to the direct members; the manager goes on with those that the membership it carries leaves it. -/
def Channel.issueToken (c : Channel) (l : MgrLevel) (t : Token) (m : Membership) : Channel :=
  let rem := (c.mgr l).leaving
  let gone (x : W16) : Bool := rem.contains x || (c.boot.cfg.modules.contains x && !m.modules.contains x)
  let c := c.sendToken l t m
  let c := if l = .field then c.inherit rem else c
  let next := { c with flt := { c.flt with members := m } }.directMembers l
  c.modMgr l fun g => g.took t next gone

/-- The bytes of a mirrored decision: as a reply's (the model's layout, log 20). -/
def Channel.mirrorBytes (c : Channel) (t : Token) : List Byte := hbBytes c.heartbeat ++ tokenBytes t

/-- The authority takes a decision: it is mirrored and waits for the standby's acknowledgement (R240); a ROLLBACK goes
out at once where no standby can acknowledge (16 R360). `rem` are the modules that it removes. -/
def Channel.adopt (c : Channel) (l : MgrLevel) (t : Token) (mem : Membership) (rem : List W16 := []) : Channel :=
  let m := c.mgr l
  if m.standbyAcked then
    let c := c.modMgr l fun g => { g with
      decided := true, decision := some (t, mem), leaving := rem, unacked := g.unacked + 1 }
    match m.standbyChan with
    | some x => c.sendCtl x (c.mirrorBytes t)
    | none => c
  else if t.kind = .rollback then c.issueToken l t mem
  else c

/-- AUTHORITY_DECIDE. The authority's own channel has applied the token before (its loss scale and counts decide). -/
def authorityDecide (c : Channel) : Channel :=
  match c.authority with
  | none => c
  | some l =>
    let m := c.mgr l
    if m.decided || !c.training || c.stp.st = .starting || c.nmon.step != c.expect m then c
    else
      match c.verdict l with
      | none => c
      | some k =>
        -- a commit carries the removals that wait for it (R361); a rollback leaves them to START (R373)
        let mem := if k = .commit then c.shrunk m.removals else c.flt.members
        -- no replica would be left: the group stays at its committed version, without START (R364)
        if noneLeft mem then
          let c := { c with flt := { c.flt with nogroup := true } }
          c.adopt l (c.token .rollback c.flt.members.mepoch) c.flt.members
        else c.adopt l (c.token k mem.mepoch) mem (if k = .commit then m.removals else [])

/-- The manager of a level that this channel follows. -/
def Channel.managerOf (c : Channel) (l : MgrLevel) : ChanId :=
  match l with
  | .drift => c.flt.mgrChan.getD c.boot.cfg.ident.pdm
  | .field => c.flt.fmgrChan.getD c.boot.cfg.ident.pfm

def Mgr.modEntry (m : Mgr) (x : ChanId) (f : MemberEntry → MemberEntry) : Mgr :=
  { m with table := m.table.map fun e => if e.chan = x then f e else e }

/-- The failures that a manager has declared stand at its standby too (16 R358). -/
def Mgr.takeFailed (m : Mgr) (xs : List ChanId) : Mgr :=
  xs.foldl (fun m x => m.modEntry x fun e => { e with live := false, failed := true, fclass := 0x0B }) m

/-- MIRROR_ACK: at the standby the mirrored decision arrives and is acknowledged; at the authority the acknowledgement
arrives and the token goes down (R240, 01 R24). Of a START mirrored anew the last acknowledgement counts (16 R373). -/
def mirrorAck (c : Channel) (m : Mirror) : Channel :=
  let l := m.level
  match m.decision with
  | some (t, mem) =>
    if (c.mgr l).standby then
      (c.modMgr l fun g => { g.takeFailed m.failed with mirrored := some (t, mem) }).sendCtl (c.managerOf l) (c.mirrorBytes t)
    else c
  | none =>
    match c.authority with
    | none => c
    | some l =>
      match (c.mgr l).decision with
      | none => c
      | some (t, mem) =>
        if 1 < (c.mgr l).unacked then c.modMgr l fun g => { g with unacked := g.unacked - 1 } else c.issueToken l t mem

/-- A token follows another that a manager holds: a START never follows the decision on its own step. -/
def tokenFollows (t u : Token) : Bool :=
  t != u && !(t.step - u.step).msb &&
    !(t.step == u.step && t.kind == .start && (u.kind == .commit || u.kind == .skip || u.kind == .halt))

/-- Work of a manager: it runs on Nunatak core n3, and a frozen master issues nothing further (01 R22, 16 R356). -/
def Channel.duty (c : Channel) (f : Channel → Channel) : Channel := if c.isFrozen (.nunatak 3) then c else f c

/-- A manager that is a member of another holds the token it is given, whether or not its own channel can apply it yet,
and passes it on (R240); without an acknowledged standby only a ROLLBACK, another waits for NEW_STANDBY_ACK (16 R360). -/
def Channel.relay (c : Channel) (t : Token) (m : Membership) : Channel :=
  c.duty fun c =>
  [MgrLevel.drift, MgrLevel.field].foldl (fun c l =>
    let g := c.mgr l
    if g.acting && c.authority != some l && (g.latest.all fun u => tokenFollows t u.1) then
      if g.standbyAcked || t.kind == .rollback then c.issueToken l t m
      else c.modMgr l fun g => { g with decision := some (t, m) }
    else c) c

/-! ### The tracker fold (06 R146 to R148) -/

structure Trk where
  trk : Nat
  tacc : Nat
  n : Nat
  lsf : Bool
  deriving DecidableEq, Repr

def Channel.trackers (c : Channel) : List Trk :=
  (List.range c.nmon.trkCount.toNat).filterMap fun i =>
    let b := c.rdA (c.nmon.trkBase.toNat + 32 * i) 32
    let f := fld b 20 1
    if f.testBit 1 then some ⟨fld b 0 6, fld b 8 6, fld b 16 4, f.testBit 0⟩ else none

/-- One entry of the fold: the new TX and whether it was clamped (R147). -/
def trkStep (tx acc : Nat) (commit : Bool) (dls : Int) (lsf : Bool) : Nat × Bool :=
  let t : Int := if tx = 255 then 0 else tx
  let mi : Int := acc % 256
  let t :=
    if commit && acc.testBit 10 then
      if t = 0 then mi else if acc.testBit 8 then t + 1 else if mi < t then t - 1 else t
    else t
  let live := t != 0
  let t := if live && lsf then t + dls else t
  if live && decide (t < 1) then (1, true)
  else if 254 < t then (254, true)
  else (t.toNat, false)

/-- Folds one tracker, and records the entries clamped (TRKLIM). A tracker names no layer, and Adori no
core: LAYER and CORE of the event are 0 (DESIGN CHOICE, log 114). -/
def Wk.foldTracker (w : Wk) (commit : Bool) (dls : Int) (k : Trk) : Wk :=
  let es := (List.range k.n).map fun i =>
    trkStep (w.c.rdNA (k.trk + i) 1) (w.c.rdNA (k.tacc + 2 * i) 2) commit dls k.lsf
  let step := w.c.nmon.step
  let c := (w.c.wr k.trk (es.map fun e => BitVec.ofNat 8 e.1)).wr k.tacc (List.replicate (2 * k.n) 0)
  let lim := (es.filter (·.2)).length
  let w := { w with c := c }
  if lim = 0 then w else (w.event ⟨0x13, 0, 2, 0, step, lim, k.trk⟩).mod Channel.landed

def Wk.foldTrackers (w : Wk) (commit : Bool) (dls : Byte) : Wk :=
  w.c.trackers.foldl (fun w k => w.foldTracker commit (Fmt.signed 8 dls.toNat) k) w

/-! ### Watch records (06 R154 to R156) and UEXP (09 R214) -/

/-- lg of a norm field (R154); none for zero. -/
def lgNorm (x : Nat) : Option Int :=
  if x = 0 then none
  else
    let p := Nat.log2 x
    let f := if 8 ≤ p then x / 2 ^ (p - 8) % 256 else x * 2 ^ (8 - p) % 256
    some (256 * ((p : Int) - 40) + f)

/-- One watch of a norm: reference, count, event (R155). -/
def nwatch (ref : Int) (cnt : Nat) (lg : Option Int) (up dn : Int) (warm : Nat) : Int × Nat × Nat :=
  match lg with
  | none => (ref, cnt, 0)
  | some l =>
    if cnt = 0 then (l, 1, 0)
    else
      let d := l - ref
      let ev := if warm ≤ cnt then (if up < d then 1 else if d < -dn then 2 else 0) else 0
      (ref + d / 16, if cnt = 0xFFFF then cnt else cnt + 1, ev)

/-- RATIO (R156). -/
def ratioOf (u w : Nat) : Option Int :=
  match lgNorm u, lgNorm w with
  | some a, some b => some (clampI (-32767) 32767 ((a - b) / 2))
  | _, _ => none

def i32 (x : Int) : Nat := (BitVec.ofInt 32 x).toNat

/-- Updates a layer's watch record (R155, R156) and writes its jump events. The signed reference stands in DATA1 as its 32
bits, zeros above them up to bit 62 (DESIGN CHOICE, log 114). -/
def Wk.watchLayer (w : Wk) (layer : Nat) : Wk :=
  let c := w.c
  let n := c.nmon
  let s := c.statAddr n.step layer
  let a := n.watchBase.toNat + 32 * layer
  let norm (o : Nat) : Nat := c.rdNA (s + o) 16
  let lo := lgNorm (norm 96)
  let lg := lgNorm (norm 112)
  let ref (o : Nat) : Int := Fmt.signed 32 (c.rdNA (a + o) 4)
  let up : Int := n.njup.toNat
  let dn : Int := n.njdn.toNat
  let (oref, ocnt, oev) := nwatch (ref 0) (c.rdNA (a + 8) 2) lo up dn n.warm.toNat
  let (gref, gcnt, gev) := nwatch (ref 4) (c.rdNA (a + 10) 2) lg up dn n.warm.toNat
  let ratio := match ratioOf (norm 128) (norm 144) with
    | some r => (BitVec.ofInt 16 r).toNat
    | none => 0x8000
  let show_ (l : Option Int) : Nat := match l with | some x => i32 x | none => 0x80000000
  let flags := b2n (oev == 1) + 2 * b2n (oev == 2) + 4 * b2n (gev == 1) + 8 * b2n (gev == 2)
  let rec_ := toBytes 4 (i32 oref) ++ toBytes 4 (i32 gref) ++ toBytes 2 ocnt ++ toBytes 2 gcnt ++ toBytes 2 ratio ++
    toBytes 2 flags ++ toBytes 4 (show_ lo) ++ toBytes 4 (show_ lg) ++ toBytes 4 n.step.toNat
  let ev (e : Nat) (l : Option Int) (r : Int) (g : Bool) : List Event :=
    if e = 0 then []
    else [⟨0x0F + e, 0, 2, layer, n.step, (BitVec.ofInt 64 (l.getD 0)).toNat, i32 r + b2n g * 2 ^ 63⟩]
  ({ w with c := c.wr a rec_ } : Wk).events (ev oev lo (ref 0) false ++ ev gev lg (ref 4) true) |>.mod Channel.landed

/-- UEXP of a region after a commit (09 R214). -/
def uexpSteer (ue : Int) (ratio : Option Int) (rlo rhi umin umax : Int) : Int :=
  match ratio with
  | none => ue
  | some r => if r < rlo && ue < umax then ue + 1 else if rhi < r && umin < ue then ue - 1 else ue

def Channel.steer (c : Channel) (h : Region) : Channel :=
  if h.layer < c.nmon.lstCount.toNat then
    let s := c.statAddr c.nmon.step h.layer
    let ue := uexpSteer h.uexp (ratioOf (c.rdNA (s + 128) 16) (c.rdNA (s + 144) 16)) (Fmt.signed 16 c.abl.rlo.toNat)
      (Fmt.signed 16 c.abl.rhi.toNat) (Fmt.signed 8 c.abl.uemin.toNat) (Fmt.signed 8 c.abl.uemax.toNat)
    c.wrN (h.addr + 85) 1 (BitVec.ofInt 8 ue).toNat
  else c

/-- Zeroes the bank of the step (06 R153). -/
def Channel.zeroBank (c : Channel) : Channel :=
  (List.range c.nmon.lstCount.toNat).foldl (fun c l => c.wr (c.statAddr c.nmon.step l) (List.replicate 192 0)) c

/-! ### Regions at a commit and at a rollback (09 R215 to R217) -/

/-- R215 on one region. -/
def Channel.commitRegion (c : Channel) (v : W32) (h : Region) : Channel :=
  if (v - h.ver).msb || v == h.ver then c
  else
    let b := c.rdNA (h.addr + 84) 1
    if h.pend && h.pver == v && !h.bad then
      (c.wrN (h.addr + 72) 4 v.toNat).wrN (h.addr + 84) 1 (b / 4 * 4 + (1 - h.cur))
    else c.wrN (h.addr + 84) 1 (b ||| 8)

/-- An ab.update has started on a listed region and not completed, a floe's among them while any share of it runs or
waits (R216). -/
def Channel.updating (c : Channel) : Bool :=
  let of (k : Command) : Bool := k.opc == 0x50 && c.regionList.contains (bits k.a1.toNat 47 0)
  (c.running.any fun r => of r.cmd && r.result.isNone) || c.floes.any fun f => of f.cmd

/-- Ends a queued command that has not started, with status 0x1A. -/
def Wk.dropHead (w : Wk) (q : QIdx) : Wk :=
  let x := w.c.queues[q]
  let k := Command.parse (w.c.rdA x.headAddr 64)
  let w := { w with c := w.c.popQ q }
  w.retire q k x.ci { status := 0x1A } (k.isFloe q)

/-- Ends the queued commands of a queue while a test accepts the head. -/
def Wk.dropQueued (w : Wk) (q : QIdx) (f : Command → Bool) : Nat → Wk
  | 0 => w
  | n + 1 =>
    let x := w.c.queues[q]
    if x.pi = x.ci || !f (Command.parse (w.c.rdA x.headAddr 64)) then w
    else (w.dropHead q).dropQueued q f n

/-- Ends running commands that a test accepts, with status 0x1A. Banks that a product has filled or handed over stay
(log 106). -/
def Channel.endRunning (c : Channel) (f : Running → Bool) : Channel :=
  { c with running := c.running.map fun r =>
      if r.result.isNone && f r then { r with held := none, halted := none, result := some { status := 0x1A } } else r }

/-- Ends floe commands that a test accepts, with their members' shares that still wait here. -/
def Channel.dropFloes (c : Channel) (f : FloeRun → Bool) : Channel :=
  let out := c.floes.filter f
  let c := { c with floes := c.floes.filter fun x => !f x }
  let c := c.endRunning fun r => r.share.isNone && out.any fun x => x.parent.isNone && x.src == r.src
  out.foldl (fun c x => match x.parent with | some p => c.shareDone p { status := 0x1A } | none => c) c

/-- Ends shares that wait on a dispatch input, with status 0x1A. -/
def Channel.dropShares (c : Channel) (f : Share → Bool) : Channel :=
  ((c.inputs.map (·.2)).filter f).foldl (fun c sh => c.shareDone sh.ref { status := 0x1A })
    { c with inputs := c.inputs.filter fun p => !f p.2 }

/-- Ends every running or queued ab.* command of the plan's queues and inputs with status 0x1A (R217 step 1): those
queued behind others end in their turn. -/
def Wk.dropAb (w : Wk) : Wk :=
  let c := ((w.c.endRunning fun r => isAb r.cmd.opc).dropFloes fun x => isAb x.cmd.opc).dropShares fun sh => isAb sh.cmd.opc
  let w := c.planQueues.foldl (fun w q => w.dropQueued q (fun k => isAb k.opc) 65536) { w with c := c }
  { w with c := c.planQueues.foldl (fun c q => c.modQ q fun x => if x.pi = x.ci then x else { x with abTo := some x.pi }) w.c }

/-- A copy refrozen from the committed slot by every engine that owns part of it (R217 step 3). The command is Adori's
own: no record tells of an error, which counts, freezes and is classified as any, and COPYVER stays (log 75). One that meets
an absent page or a stopped stack waits on its engine's dispatch input and runs as any ab.freeze (11 R262, 13 R303). -/
def Channel.refreeze (c : Channel) (h : Region) : Channel :=
  let k : Command :=
    { opc := 0x51, a0 := BitVec.ofNat 64 h.addr, a1 := BitVec.ofNat 64 h.fwd, a2 := BitVec.ofNat 64 h.trd, a3 := h.fseed }
  (c.abOwners k).foldl (fun c e =>
    let later : Channel := { c with inputs := c.inputs ++ [(.ablation e, { cmd := k, ref := ⟨.adori, 0⟩ })] }
    match abFreezeOn c.landed [] c.nmon.step e h.addr h.fwd h.trd h.fseed with
    | .ok (c', _) =>
      if c'.waitHit then later
      else
        match c'.poisonHit with
        | some a => (c'.landed.noteUe a false).classifyUe a
        | none => c'
    | .error x =>
      match x.kind with
      | .absent _ | .wait => later
      | .ue a => ((c.sees x).noteUe a false).classifyUe a
      | _ => (c.fail { src := .input (.ablation e), cmd := k } x).1) c

/-- R217: ab.* commands end, PEND and BAD are cleared, copies of another version are frozen again. -/
def Wk.discardPending (w : Wk) : Wk :=
  let w := w.dropAb
  let c := w.c.regions.foldl (fun c h => c.wrN (h.addr + 84) 1 (c.rdNA (h.addr + 84) 1 &&& 0xF9)) w.c
  { w with c := c.regions.foldl (fun c h => if h.copyver != h.ver then c.refreeze h else c) c }

/-! ### Applying tokens (R241) -/

/-- This channel's module is outside a membership (16 R363). -/
def Channel.outside (c : Channel) (m : Membership) : Bool := !m.modules.contains (modOf c.chid)

/-- The gradient records held for the commit, and their GFMT events (05 R133). -/
def Wk.commitGrads (w : Wk) : Wk :=
  let recs := match w.c.stp.plan with | some p => (w.c.planRecords p).1 | none => []
  w.c.stp.att.grads.foldl (fun w (a, v) =>
    let old := w.c.rdNA a 1 % 4
    let layer := ((recs.find? fun r => r.2 == a).map (·.1)).getD 0
    let step := w.c.nmon.step
    let w := { w with c := w.c.wrN a 8 v.toNat }
    if old = v.toNat % 4 then w else (w.event ⟨0x12, 0, 2, layer, step, old, v.toNat % 4⟩).mod Channel.landed) w

/-- Ranges that Adori reads as it applies a token: headers, trackers, statistics, watches, gradient records and misfit
state. -/
def Channel.tokenRanges (c : Channel) : List (Nat × Nat) :=
  let n := c.nmon
  c.headerRanges ++ (n.trkBase.toNat, 32 * n.trkCount.toNat) ::
    (c.trackers.flatMap fun k => [(k.trk, k.n), (k.tacc, 2 * k.n)]) ++
    ((List.range n.lstCount.toNat).flatMap fun l => [(c.statAddr n.step l, 192), (n.watchBase.toNat + 32 * l, 32)]) ++
    match c.stp.plan with
    | some p => c.planRanges p ++ recordRanges (c.planRecords p).1 ++ misfitRanges (c.planRecords p).2
    | none => []

/-! ### Units to rebuild (16 R369) -/

/-- The units of a STALE region's version VER, which are to be rebuilt (R369). -/
def Channel.staleUnits (c : Channel) : List Nat :=
  let spans := c.regions.flatMap fun h =>
    (c.slotDescs h (if h.ver = c.stp.ver then h.cur else 1 - h.cur)).map fun d => (h.stale, roundUnit d.span / stripeUnit)
  (spans.foldl (fun (out, n) (st, k) =>
    (if st then out ++ (List.range k).map (n + ·) else out, n + k)) (([] : List Nat), 0)).1

/-- The position whose holder is asked to rebuild unit j: P's, or Q's where P's is this channel or lost (R369). -/
def Channel.askFor (c : Channel) (j : Nat) : Nat :=
  let g := c.flt.g.toNat
  let p := holderOf g j false
  if p = c.flt.pos.toNat || !c.stays (Config.stripeMember p) then holderOf g j true else p

/-- Each lost unit is asked for once. -/
def Channel.askUnits (c : Channel) : Channel :=
  let new := c.flt.lostUnits.filter fun j => !c.flt.asked.any fun x => x.2 == j
  if c.flt.lostUnits.isEmpty then c
  else { c with flt := { c.flt with rebuild := true, asked := c.flt.asked ++ new.map fun j => (c.askFor j, j) } }

/-- Units are found lost. -/
def Channel.lose (c : Channel) (us : List Nat) : Channel :=
  { c with flt := { c.flt with lostUnits := (c.flt.lostUnits ++ us).dedup } }

/-- The regions that a commit leaves STALE are rebuilt (R369); without stripes nothing tells of their bytes. -/
def Channel.loseStale (c : Channel) : Channel :=
  if c.flt.g = 0 || !c.regions.any (·.stale) then c
  else
    let c := c.adoriRead c.slotDescRanges
    (c.lose c.staleUnits).askUnits

/-- This member's clock vote (17 R386): F_sus is what the grant carries at the mean activity of the attempt just committed,
within FTOP and every cap. -/
def Channel.castVote (c : Channel) (n : Nat) : Channel :=
  let g := c.gov
  let caps := g.ftop.toNat :: g.cores.toList.map CorePower.cap
  let own := caps.foldl min (c.fits (Config.meanActivity n) (fun x => x.pll != .cold) g.grant.toNat)
  { c with gov := { g with voteOwed := true, fsus := BitVec.ofNat 8 own } }

/-- COMMIT's work (R241 steps 1 to 7), and what follows it; none where Adori meets a channel fault (16 R354). -/
def Wk.applyCommit (w : Wk) (t : Token) (m : Membership) : Wk :=
  let w := { w with c := w.c.adoriRead w.c.tokenRanges }
  if w.c.flt.fault then w
  else
  let c := w.c.regions.foldl (fun c h => c.commitRegion t.ver h) w.c
  let c := { c with abl := { c.abl with commitVer := t.ver, heldTok := none } }
  let w := ({ w with c := c } : Wk).commitGrads
  let w := w.foldTrackers true t.dls
  let w := (List.range w.c.nmon.lstCount.toNat).foldl (fun w l => w.watchLayer l) w
  let c := w.c.regions.foldl (fun c h => c.steer h) w.c
  let c := c.zeroBank
  let out := c.outside m
  let clean := c.stp.lsclean + 1
  let c := { c with
    nmon := { c.nmon with step := c.nmon.step + 1 }
    flt := { c.flt with members := m, removed := out }
    stp := { c.stp with
      ver := t.ver, batch := t.batch, lsexp := t.lsexp, lsexpCommit := t.lsexp
      lsclean := if clean = c.stp.lsgrow then 0 else clean
      lscleanCommit := if clean = c.stp.lsgrow then 0 else clean
      skips := 0, commits := c.stp.commits + 1, skipPending := none } }
  let c := c.copyMisfit.loseStale
  let last := match c.stp.plan with | some p => p.nsteps != 0 && decide (p.nsteps ≤ c.stp.commits) | none => true
  let drift := c.gov.gmode == 2
  let done :=
    if out then { c with stp := { c.stp with st := .halted } }.sendHb
    else
      let c := if drift then c.castVote w.ctr else c
      if last then { c with stp := { c.stp with st := .done }, flt := { c.flt with ready := false } }
      else if drift then { c with stp := { c.stp with st := .applying } }
      else c.startAttempt
  { w with c := done, ctr := if drift then w.ctr + 1 else w.ctr }

/-- A token is newer than the committed version (R241). -/
def Channel.newer (c : Channel) (t : Token) : Bool := t.ver != c.stp.ver && !(t.ver - c.stp.ver).msb

/-- COMMIT_TOKEN: applied, or held while an ab.update runs (R216) or a stack that it reads is stopped (13 R303). A
manager passes it on at once; a channel with a channel fault takes no further part (16 R354). -/
def commitToken (w : Wk) (t : Token) (m : Membership) : Wk :=
  let w := { w with c := w.c.takeMsg 4 }
  let w := if t.kind = .commit then { w with c := w.c.relay t m } else w
  if t.kind = .commit && w.c.training && !w.c.flt.fault && w.c.stp.st != .starting && w.c.stp.st != .rollback && w.c.newer t then
    if w.c.updating || w.c.anyStopped w.c.tokenRanges then
      { w with c := { w.c with
          abl := { w.c.abl with heldTok := some (t, m) }, stp := { w.c.stp with st := .applying } } }
    else w.applyCommit t m
  else w

/-- HELD_TOKEN_APPLY. -/
def heldTokenApply (w : Wk) : Wk :=
  match w.c.abl.heldTok with
  | some (t, m) =>
    if w.c.updating || w.c.flt.fault || !w.c.newer t || w.c.anyStopped w.c.tokenRanges then w else w.applyCommit t m
  | none => w

/-- The leaves of the vote, floe 0x000A as it stands (R386). -/
def Channel.voters (chans : Vector Channel 8) (c : Channel) : List ChanId :=
  match leavesGo chans c 8 c.chid 0x000A with
  | .ok ls => ls.dedup.filter c.stays
  | .error _ => []

/-- The other leaves that this module holds and that vote: they run, train in DRIFT mode, and no fault has stopped them. -/
def Channel.votersHere (chans : Vector Channel 8) (c : Channel) : List Channel :=
  ((c.voters chans).filter fun x => modOf x == modOf c.chid && x != c.chid).filterMap fun x =>
    let d := chans[x.toNat % 8]'(Nat.mod_lt _ (by decide))
    let votes := d.training || (d.stp.st == .done && d.stp.ver == c.stp.ver)
    if d.up && d.gov.gmode == 2 && !d.flt.fault && votes then some d else none

/-- The votes of the leaves: this member's, those of its module, and the lowest of the other modules', which is the same
to every member that votes on the version (log 27). -/
def Channel.votes (chans : Vector Channel 8) (c : Channel) : List Nat :=
  c.gov.fsus.toNat :: (c.votersHere chans).map (·.gov.fsus.toNat) ++
    if (c.voters chans).any fun x => modOf x != modOf c.chid then [24 + Config.otherVotes c.stp.ver.toNat % 65] else []

/-- CLOCK_VOTE (17 R386): the reduction of the votes completes once every leaf has cast its own; FCEIL is the lowest, and
the next attempt starts under it. -/
def clockVote (chans : Vector Channel 8) (w : Wk) : Wk :=
  let c := w.c
  if c.gov.voteOwed && (c.votersHere chans).all fun d => d.stp.ver == c.stp.ver then
    let low := max 24 ((c.votes chans).foldl min 88)
    let c := { c with
      gov := { c.gov with voteOwed := false, fceil := BitVec.ofNat 8 low }
      cfl := { c.cfl with redTotal := c.cfl.redTotal + 1 } }
    { w with c := if c.stp.st = .applying then c.settle.startAttempt else c.settle }
  else w

/-- The skip itself, once the attempt's backward segments are done (R241). -/
def Wk.applySkip (w : Wk) (t : Token) : Wk :=
  let w := { w with c := w.c.adoriRead w.c.tokenRanges }
  if w.c.flt.fault then w
  else
  let w := w.discardPending.foldTrackers false t.dls
  let c := w.c.zeroBank
  let c := { c with
    nmon := { c.nmon with step := c.nmon.step + 1 }
    abl := { c.abl with heldTok := none }
    stp := { c.stp with
      lsexp := t.lsexp, lsclean := 0, skips := c.stp.skips + 1, skipTotal := satAdd c.stp.skipTotal 1, skipPending := none } }
  { w with c := if t.kind = .halt then { c with stp := { c.stp with st := .halted } } else c.startAttempt }

/-- Goes on with a skip that waits for the attempt's backward segments. -/
def Wk.goOnSkip (w : Wk) : Wk :=
  match w.c.stp.skipPending, w.c.stp.plan with
  | some t, some p =>
    let c := (List.range (p.mb + 1)).foldl (fun c _ => segmentIssue c .bwd) w.c
    let w := { w with c := c }
    if c.backwardDone p && !c.anyStopped c.tokenRanges then w.applySkip t else w
  | _, _ => w

/-- SKIP_TOKEN and HALT_TOKEN (R237, R241). -/
def skipToken (w : Wk) (k : TokKind) (t : Token) : Wk :=
  let w := { w with c := w.c.takeMsg 4 }
  let w := if t.kind = k then { w with c := w.c.relay t w.c.flt.members } else w
  let st := w.c.stp.st
  if t.kind = k && w.c.training && !w.c.flt.fault && st != .starting && st != .rollback && t.step == w.c.nmon.step && !w.c.newer t then
    ({ w with c := { w.c with stp := { w.c.stp with st := .applying, skipPending := some t } } } : Wk).goOnSkip
  else w

/-- START_TOKEN (16 R373, R363): membership, VER, BATCH and LSEXP are taken and the attempt starts; none while NOGROUP
stands (16 R364). After a rollback the channel is at the token's step, which differs from its own only where it had missed
tokens (log 124). -/
def startToken (w : Wk) (t : Token) (m : Membership) : Wk :=
  let w := { w with c := w.c.takeMsg 4 }
  let w := if t.kind = .start then { w with c := w.c.relay t m } else w
  let st := w.c.stp.st
  if t.kind = .start && !w.c.flt.fault && !w.c.flt.nogroup && (st = .starting || (st == .rollback && w.c.flt.ready)) then
    let (w, now) := w.time
    let c := w.c
    let us := (now - c.flt.rbTime).toNat / 50
    let first := st == .starting
    let out := c.outside m
    let c := { c with
      flt := { c.flt with
        members := m, removed := out, quiesced := false
        recovLast := if first then c.flt.recovLast else BitVec.ofNat 32 (min us (2 ^ 32 - 1)) }
      stp := { c.stp with
        ver := t.ver, batch := t.batch, lsexp := t.lsexp, lsexpCommit := t.lsexp
        lscleanCommit := if first then c.stp.lsclean else c.stp.lscleanCommit }
      nmon := { c.nmon with step := if first then c.nmon.step else t.step } }
    let c := (List.finRange 8).foldl (fun c k => c.modCore k fun x => { x with mor := { x.mor with pause := false } }) c
    let c := if first then c.misfitRead.copyMisfit else c
    { w with c := if out then { c with stp := { c.stp with st := .halted } }.sendHb else c.startAttempt }
  else w

/-! ### Meanings -/

/-- TRAINING_START: a write of STP_CTRL. -/
def execTrainingStart (ch : Ch) (w : RegWrite) (s : State) : Host.Outcome State Fault Refusal :=
  .next (onHost s ch fun c => trainingStart c w)

/-- SEGMENT_ISSUE. -/
def execSegmentIssue (ch : Ch) (k : SegKind) (s : State) : Host.Outcome State Fault Refusal :=
  .next (modUp s ch fun c => segmentIssue c k)

/-- FORWARD_ADMISSION. -/
def execForwardAdmission (ch : Ch) (s : State) : Host.Outcome State Fault Refusal := .next (modUp s ch forwardAdmission)

/-- UPD_ISSUE. -/
def execUpdIssue (ch : Ch) (s : State) : Host.Outcome State Fault Refusal := .next (modUp s ch updIssue)

/-- STRIPE_CONTRIBUTION. -/
def execStripeContribution (ch : Ch) (j : Nat) (s : State) : Host.Outcome State Fault Refusal :=
  .next (modUp s ch fun c => stripeContribution c j)

/-- PARITY_CONTRIBUTION. -/
def execParityContribution (ch : Ch) (pos j : Nat) (isQ : Bool) (data : List Byte) (s : State) :
    Host.Outcome State Fault Refusal :=
  .next (modUp s ch fun c => parityContribution c pos j isQ data)

/-- STEP_REPORT. -/
def execStepReport (ch : Ch) (s : State) : Host.Outcome State Fault Refusal := .next (modUp s ch stepReport)

/-- REPORT_FORWARD. -/
def execReportForward (ch : Ch) (l : MgrLevel) (r : Report) (s : State) : Host.Outcome State Fault Refusal :=
  .next (modUp s ch fun c => c.duty fun c => reportForward c l r)

/-- AUTHORITY_DECIDE. -/
def execAuthorityDecide (ch : Ch) (s : State) : Host.Outcome State Fault Refusal := .next (modUp s ch fun c => c.duty authorityDecide)

/-- MIRROR_ACK. -/
def execMirrorAck (arrival : Ch × Mirror) (s : State) :
    Host.Outcome State Fault Refusal :=
  .next (modUp s arrival.1 fun c => c.duty fun c => mirrorAck c arrival.2)

/-- COMMIT_TOKEN. -/
def execCommitToken (ch : Ch) (t : Token) (m : Membership) (s : State) : Host.Outcome State Fault Refusal :=
  .next (onUp s ch fun w => commitToken w t m)

/-- CLOCK_VOTE. -/
def execClockVote (ch : Ch) (s : State) : Host.Outcome State Fault Refusal := .next (onUp s ch (clockVote s.chans))

/-- HELD_TOKEN_APPLY. -/
def execHeldTokenApply (ch : Ch) (s : State) : Host.Outcome State Fault Refusal := .next (onUp s ch heldTokenApply)

/-- SKIP_TOKEN. -/
def execSkipToken (ch : Ch) (t : Token) (s : State) : Host.Outcome State Fault Refusal :=
  .next (onUp s ch fun w => skipToken w .skip t)

/-- HALT_TOKEN. -/
def execHaltToken (ch : Ch) (t : Token) (s : State) : Host.Outcome State Fault Refusal :=
  .next (onUp s ch fun w => skipToken w .halt t)

/-- START_TOKEN. -/
def execStartToken (ch : Ch) (t : Token) (m : Membership) (s : State) : Host.Outcome State Fault Refusal :=
  .next (onUp s ch fun w => startToken w t m)

end Sys2Proof.Machine
end

