-- ==== Sys2Proof/Machine/Recovery.lean ====
section
/-!
DEFINITION. Heartbeats, managers, rollback and rebuild (16 R352 to R373).
-/
namespace Sys2Proof.Machine

open Sys2Proof

/-! ### Rollback at a member (R371) -/

/-- A Moraine command whose array has handed over no bank (07 R169). -/
def Channel.waitsBank (c : Channel) (r : Running) : Bool :=
  r.cmd.opc == 0x20 &&
    match chainOps c r with
    | .ok o => !o.g.iter && o.g.bankPort.any fun p => (c.banksNow (runCore r) p.array).isEmpty
    | .error _ => false

/-- A running command that R217 or R350 ends, or one of the plan that waits on a bank, a slot, a peer or a held message.
One halted on an absent page, or that waits for a stopped stack, is none of these and runs on. -/
def Channel.endsInRollback (c : Channel) (r : Running) : Bool :=
  let u := opcUnit r.cmd.opc
  let plan := match r.src with | .queue q => c.planQueues.contains q | .input _ => true
  u == some .abl || u == some .cfl ||
    (plan && r.halted.isNone && (r.held.isSome || (r.cmd.opc == 0x33 && r.begun.isNone) || c.waitsBank r))

/-- Discards held and partly received messages of puts, shares and collectives, each answered with MNACK (R371 step 3). What
comes on the control channel besides, the acknowledgements awaited among it, stays. -/
def Channel.discardMessages (c : Channel) : Channel :=
  let data (t : Byte) : Bool := t == 1 || t == 2 || t == 3 || t == 5
  let drop (m : OpenMsg) : Bool := if m.bytes.length < 32 then m.vc != 2 else data m.hdr.type
  let c := (List.finRange 4).foldl (fun c p =>
    ((c.ports[p].open_).filter drop).foldl (fun c m =>
      let c := c.modPort p fun s => s.dropOpen m
      if m.bytes.length < 32 then c else c.sendMnack m.hdr false) c) c
  let c := (c.inbox.filter fun m => data m.hdr.type).foldl (fun c m => c.sendMnack m.hdr false) c
  let c := c.heldMsgs.foldl (fun c m =>
    c.sendMnack { c.hdr c.chid (if m.down then 5 else 3) (redBody m).length with src := m.sender } false) c
  { c with inbox := c.inbox.filter (fun m => !data m.hdr.type), heldMsgs := [] }

/-- A floe command of the plan, or a share's. -/
def Channel.planFloe (c : Channel) (f : FloeRun) : Bool :=
  match f.src with
  | .queue q => c.planQueues.contains q
  | .input _ => true

/-- A share on a dispatch input that has not started ends with status 0x1A. -/
def Channel.dropInputs (c : Channel) : Channel :=
  c.dropShares fun sh =>
    match sh.ref.owner with
    | .away .. => true
    | .adori => false
    | .here id => ((c.floes.find? fun f => f.id == id).map c.planFloe).getD true

/-- Floe commands of the plan at a rollback: those of ab.* and cf.* end, and those that wait on another channel; of the
others the shares not yet delivered end. -/
def Channel.rollbackFloes (c : Channel) : Channel :=
  let ends (f : FloeRun) : Bool :=
    opcUnit f.cmd.opc == some .abl || opcUnit f.cmd.opc == some .cfl ||
      (c.planFloe f && f.members.any fun m => m.member.chan != c.chid && !m.done)
  let c := c.dropFloes ends
  { c with floes := c.floes.map fun f =>
      if c.planFloe f then
        { f with members := f.members.map fun m =>
            if m.delivered then m else { m with delivered := true, owed := 0, result := some { status := 0x1A } } }
      else f }

/-- Every cf.* command still queued ends with status 0x1A, in whatever queue it stands (15 R350): those queued behind others
in their turn. -/
def Wk.dropCf (w : Wk) : Wk :=
  let isCf (o : Byte) : Bool := opcUnit o == some .cfl
  let w := ({ w with c := w.c.dropShares fun sh => isCf sh.cmd.opc } : Wk)
  let qs := (List.finRange 160).filter fun q => w.c.queues[q].pi != w.c.queues[q].ci
  let w := qs.foldl (fun w q => w.dropQueued q (fun k => isCf k.opc) 65536) w
  { w with c := qs.foldl (fun c q => c.modQ q fun x => if x.pi = x.ci then x else { x with cfTo := some x.pi }) w.c }

/-- Steps 1 to 3: no more segments, Moraine paused, contexts cancelled, waiting and queued commands ended, messages
discarded. -/
def Wk.quiesce (w : Wk) : Wk :=
  let c := (List.finRange 8).foldl (fun c k =>
    (List.finRange 16).foldl (fun c i => (cancelCtx c k i).1)
      (c.modCore k fun x => { x with mor := { x.mor with pause := true } })) w.c
  let c := (c.endRunning c.endsInRollback).rollbackFloes
  let w := c.planQueues.foldl (fun w q => w.dropQueued q (fun _ => true) 65536) { w with c := c }
  let w := w.dropCf
  { w with c := w.c.dropInputs.discardMessages }

/-- STALE regions whose units are all back: the switch that R215 could not make (R369). -/
def Channel.switchStale (c : Channel) : Channel :=
  c.regions.foldl (fun c h =>
    if h.stale then
      (c.wrN (h.addr + 72) 4 c.stp.ver.toNat).wrN (h.addr + 84) 1 (c.rdNA (h.addr + 84) 1 / 16 * 16 + (1 - h.cur) + 4 * b2n h.bad)
    else c) c

/-- Everything the member sent is answered, or went to a channel since removed, and no command of the plan runs (R371 step
3). -/
def Channel.quiet (c : Channel) : Bool :=
  let qs := c.planQueues
  (c.running.all fun r => r.result.isSome || (match r.src with | .queue q => !qs.contains q | .input _ => false)) &&
  c.ports.toList.all fun p => p.inFlight.all fun e => !c.stays e.msg.hdr.dst

/-- READY, once no unit is left to rebuild; until then each is asked for once (steps 6 and 7). -/
def Channel.readyNow (c : Channel) : Channel :=
  if c.flt.lostUnits.isEmpty then
    let c := c.switchStale
    { c with flt := { c.flt with ready := true, rebuild := false, hbseq := 0, asked := [] } }.sendHb
  else c.askUnits

/-- Goes on once quiesced: READY when Adori's ab.freeze commands are done and nothing is left to rebuild. -/
def Channel.goOnReady (c : Channel) : Channel :=
  if c.stp.st = .rollback && c.flt.quiesced && !c.flt.ready && !c.flt.fault && !c.refreezing then c.readyNow else c

/-- A member that missed the COMMIT before a ROLLBACK comes to its version in every region that can, and the others are
STALE (R215, 10 R245; log 124). -/
def Channel.reach (c : Channel) : Channel :=
  match c.flt.catchUp with
  | none => c
  | some v =>
    let c := c.regions.foldl (fun c h => c.commitRegion v h) c
    { c with abl := { c.abl with commitVer := v }, stp := { c.stp with ver := v }, flt := { c.flt with catchUp := none } }

/-- Steps 4 to 7: QUIESCED, the rollback of 10 R241, the rebuild, READY. A channel with a channel fault takes no further
part (R354). -/
def Wk.recover (w : Wk) : Wk :=
  let w :=
    if w.c.stp.st = .rollback && !w.c.flt.quiesced && !w.c.flt.fault && w.c.quiet &&
        !w.c.anyStopped (w.c.tokenRanges ++ w.c.slotDescRanges) then
      let c := w.c.adoriRead (w.c.tokenRanges ++ w.c.slotDescRanges)
      if c.flt.fault then { w with c := c }
      else
        let c := { c with flt := { c.flt with quiesced := true } }.sendHb.reach
        let w := ({ w with c := c } : Wk).discardPending
        let c := w.c.trackers.foldl (fun c k => c.wr k.tacc (List.replicate (2 * k.n) 0)) w.c
        let c := c.zeroBank
        let c := c.stp.misfitCopy.foldl (fun c (a, v) => c.wrN a 8 v.toNat) c
        let c := { c with
          colls := [], streams := [], abl := { c.abl with heldTok := none }
          gov := { c.gov with voteOwed := false }
          stp := { c.stp with
            lsexp := c.stp.lsexpCommit, lsclean := c.stp.lscleanCommit, att := {}, skipPending := none, startOwed := false }
        }
        { w with c := c.lose c.staleUnits }
    else w
  { w with c := w.c.goOnReady }

/-- ROLLBACK_TOKEN. A second one for the same attempt only lets the member go on. It has no condition of a step or version:
one that missed the COMMIT before it rolls back too (log 124). -/
def rollbackToken (w : Wk) (t : Token) : Wk :=
  let w := { w with c := w.c.takeMsg 4 }
  let w := if t.kind = .rollback then { w with c := w.c.relay t w.c.flt.members } else w
  let st := w.c.stp.st
  if t.kind != .rollback || !w.c.training || st = .starting || w.c.flt.fault then w
  else if st = .rollback then w.recover
  else
    let (w, now) := w.time
    let c := { w.c with
      stp := { w.c.stp with st := .rollback, rolledBack := true, rbTotal := satAdd w.c.stp.rbTotal 1 }
      flt := { w.c.flt with
        ready := false, quiesced := false, rbTime := now, catchUp := if w.c.newer t then some t.ver else none } }
    ({ w with c := c } : Wk).quiesce.recover

/-! ### Heartbeats (R357, R358) -/

/-- HEARTBEAT_SEND: from READY until the channel leaves training mode; first what the member can go on with. -/
def heartbeatSend (w : Wk) : Wk :=
  if w.c.inTraining then
    let w := w.goOnSkip.recover
    { w with c := w.c.goOnStart.sendHb }
  else w

/-- The table of a manager's direct members, none of them heard yet. -/
def Channel.freshTable (c : Channel) (l : MgrLevel) : List MemberEntry :=
  (c.directMembers l).map fun x => { chan := x, standby := some x == (c.mgr l).standbyChan }

/-- Members that the manager holds as live, more than half of them. -/
def Mgr.majority (m : Mgr) : Bool :=
  decide (m.table.length < 2 * (m.table.filter fun e => e.live && !e.failed).length)

/-- Modules that START removes: those of members that failed or have a channel fault (R354, R373). -/
def Mgr.faulted (m : Mgr) : List W16 :=
  ((m.table.filter fun e => e.failed || e.lasting).map fun e => modOf e.chan).dedup

/-- The members that a manager reports as failed (15 R350). -/
def Mgr.reported (m : Mgr) : List ChanId := (m.table.filter fun e => e.failed || e.lasting).map (·.chan)

/-- The manager has given START for the step its channel is at. -/
def Channel.startGiven (c : Channel) (g : Mgr) : Bool :=
  match g.latest with
  | some (t, _) => t.kind == .start && t.step == c.nmon.step
  | none => false

/-- The authority decides START when R373 lets it: after a rollback, or at the first start of training (R227). As any
token it is mirrored first (R240). With NOGROUP set it decides none until it is reset (R364). -/
def Channel.tryStart (c : Channel) (l : MgrLevel) : Channel :=
  let m := c.mgr l
  let first := c.stp.st == .starting && !m.decided && !c.startGiven m
  if c.authority != some l || c.flt.nogroup || m.decision.isSome || !m.standbyChan.isSome || !m.standbyAcked || !((m.recovering && m.faultHbtmo) || first) then c
  else
    let rem := (m.removals ++ m.faulted).dedup
    let stay := m.table.filter fun e => !c.leaving rem (modOf e.chan)
    let mem := c.shrunk rem
    if stay.isEmpty || noneLeft mem then { c with flt := { c.flt with nogroup := true } }
    else if !stay.all (·.ready) then c
    else
      let t : Token :=
        { ver := c.stp.ver, step := c.nmon.step, kind := .start
          lsexp := if first then c.stp.lsexp else c.stp.lsexpCommit, dls := 0, mepoch := mem.mepoch, batch := c.stp.batch }
      c.adopt l t mem rem

/-- A START that the standby has not acknowledged is decided anew where a fault reported since adds to the removal
(R373). -/
def Channel.reviseStart (c : Channel) (l : MgrLevel) : Channel :=
  let m := c.mgr l
  match m.decision with
  | some (t, _) =>
    if t.kind = .start && c.authority == some l && (m.removals ++ m.faulted).dedup != m.leaving then
      (c.modMgr l fun g => { g with decision := none, leaving := [], decided := g.recovering }).tryStart l
    else c
  | none => c

/-- What a manager passes upward of a member: its degradation, a fault, or a channel fault (R354, R361). -/
inductive Told where
  | degraded | fault | lasting
  deriving DecidableEq, Repr

def Told.code : Told → Nat
  | .degraded => 0
  | .fault => 1
  | .lasting => 2

/-- A manager that does not decide passes a member's fault, or degradation, upward once, in a heartbeat of its own that
names the member (R354, R361; log 116). -/
def Channel.passUp (c : Channel) (l : MgrLevel) (x : ChanId) (k : Told) (cls : Byte) : Channel :=
  if c.authority = some l || (c.mgr l).told.contains (x, k.code) then c
  else
    (c.modMgr l fun g => { g with told := g.told ++ [(x, k.code)] }).sendHbBody { c.heartbeat with
      fault := k != .degraded, lasting := k == .lasting, degraded := k == .degraded || c.flt.degraded
      fclass := cls, about := some x, named := [] }

/-- A manager plans to remove a module. -/
def Mgr.plan (g : Mgr) (m : W16) : Mgr := { g with removals := if g.removals.contains m then g.removals else g.removals ++ [m] }

/-- A fault shows to a manager: of a direct member, whose entry tells of it, or of a channel below one, whose module is
planned to go where it is a channel fault (R354, R373). -/
def Channel.managerFault (c : Channel) (l : MgrLevel) (x : ChanId) (cls : Byte) (lasting : Bool := true) : Channel :=
  let c := c.modMgr l fun g =>
    let g := { g with faultSeen := true }
    if !lasting || g.table.any fun e => e.chan == x then g else g.plan (modOf x)
  (c.passUp l x (if lasting then .lasting else .fault) cls).reviseStart l

/-- The generation of manager that a channel follows at a level. -/
def Channel.gen (c : Channel) : MgrLevel → W32
  | .drift => c.flt.mgen
  | .field => c.flt.fgen

/-- A generation and its manager are followed from now on. -/
def Channel.follow (c : Channel) (l : MgrLevel) (gen : W32) (mgr : ChanId) : Channel :=
  match l with
  | .drift => { c with flt := { c.flt with mgen := gen, mgrChan := some mgr, sbChan := none } }
  | .field => { c with flt := { c.flt with fgen := gen, fmgrChan := some mgr, fsbChan := none } }

/-- A manager's duties end when another of a higher generation of the same level shows (R359). -/
def Channel.yieldTo (c : Channel) (l : MgrLevel) (mgen : W32) : Channel :=
  if (c.gen l).toNat < mgen.toNat then
    let c := match l with
      | .drift => { c with flt := { c.flt with mgen := mgen } }
      | .field => { c with flt := { c.flt with fgen := mgen } }
    c.modMgr l fun g => { g with acting := false }
  else c

/-- At a field manager, a heartbeat from another channel than those that act for its members: of one of its drifts, that
channel acts for the drift; of none, for the field listed second (R359, log 116). -/
def Channel.succeed (c : Channel) (l : MgrLevel) (x : ChanId) : Channel :=
  let ms := c.flt.members
  if l = .drift || (c.directMembers .field).contains x then c
  else
    let name := match ms.driftManagers.find? fun d => (c.modulesOf d).contains (modOf x) with
      | some d => some d
      | none => if c.firstField then ms.fieldManagers[1]? else none
    match name with
    | none => c
    | some d =>
      let old := c.actsFor d
      c.modMgr .field fun g =>
        { g.modEntry old fun e => { chan := x, stragn := e.stragn } with
          successors := (d, x) :: g.successors.filter fun p => p.1 != d }

/-- What a heartbeat tells of its sender, or of a member below it, in the sender's entry. -/
def MemberEntry.hear (e : MemberEntry) (h : Heartbeat) : MemberEntry :=
  let e := { e with
    live := !e.failed, lasthb := h.hbseq, ready := h.ready, quiesced := h.quiesced, removed := h.removed }
  if h.about.isSome then e
  else { e with degraded := h.degraded, fclass := h.fclass, fault := h.fault, lasting := h.fault && h.lasting, named := h.strag }

/-- Stragglers that a heartbeat names anew: those it lists, or STRAG where it differs from the last (R362). -/
def MemberEntry.names (e : MemberEntry) (h : Heartbeat) : List W32 :=
  if h.about.isSome then [] else if !h.named.isEmpty then h.named else if h.strag != 0 && e.named != h.strag then [h.strag] else []

/-- HEARTBEAT_RECEIVE: a manager or its standby records a heartbeat; the manager replies with its latest token. -/
def heartbeatReceive (c : Channel) (l : MgrLevel) (h : Heartbeat) : Channel :=
  let c := (c.takeMsg 4).yieldTo l h.mgen
  if !((c.mgr l).acting || (c.mgr l).standby) then c
  else
    let c := c.succeed l h.chan
    let m := c.mgr l
    let old := m.table.find? fun e => e.chan == h.chan
    let named := match old with | some e => e.names h | none => []
    let c := c.modMgr l fun g =>
      named.foldl (fun g x => g.modEntry (BitVec.ofNat 16 (bits x.toNat 31 16)) fun e => { e with stragn := satAdd e.stragn 1 })
        (g.modEntry h.chan fun e => e.hear h)
    if !m.acting then c
    else
      let x := h.about.getD h.chan
      let c :=
        if old.isNone then c
        else if h.fault then c.managerFault l x h.fclass h.lasting
        else if h.degraded then (c.modMgr l fun g => g.plan (modOf x)).passUp l x .degraded h.fclass
        else c
      let tok := match (c.mgr l).latest with | some (t, _) => tokenBytes t | none => List.replicate 32 0
      let c := c.sendCtl h.chan (hbBytes { c.heartbeat with mgen := c.gen l, standby := (c.mgr l).standbyChan, failed := (c.mgr l).reported } ++ tok)
      c.tryStart l

/-- A reply reports the members that its manager holds for failed, and of its sender's own channel a channel fault: a collective
with one of them among its leaves ends with status 0x17 (15 R350; log 70). -/
def Wk.leafFailed (w : Wk) (h : Heartbeat) : Wk :=
  let out := h.failed ++ if h.fault && h.lasting then [h.chan] else []
  (w.c.colls.filter fun k => k.leaves.any out.contains).foldl (fun w k => w.endSender k.src 0x17) w

/-- The manager that a reply comes from (01 R23): of this channel's drift, of its field, or of the first field, whose member
the manager of another field is. -/
inductive Above where
  | level (l : MgrLevel)
  | top
  deriving DecidableEq, Repr

/-- Whom a reply comes from: a drift manager is a member of its field's managers, and they lie in other drifts, or act in its
own drift besides; the manager of a field that is not listed first has replies of that field's channels only from a manager
that has taken over. -/
def Channel.replyFrom (c : Channel) (x : ChanId) : Above :=
  let i := c.boot.cfg.ident
  let fields := [i.pfm, i.sfm] ++ c.flt.fmgrChan.toList ++ c.flt.fsbChan.toList
  if c.oneDrift || !c.flt.drift.acting || x == c.chid || c.driftPair.contains x then .level .drift
  else if c.topPair.contains x then .top
  else if fields.contains x || (c.directMembers .field).contains x then .level .field
  else if c.ownDrift x then .level .drift
  else if c.flt.field.acting && !c.firstField then .top
  else .level .field

/-- The generation of the managers that a reply's sender is one of, as this channel follows it. -/
def Channel.genOf (c : Channel) : Above → W32
  | .level l => c.gen l
  | .top => c.flt.tgen

/-- What a reply tells of the managers: a member follows the highest generation and the channel that acts in it, and the
standby its manager names (R359). -/
def Channel.takeReply (c : Channel) (a : Above) (h : Heartbeat) : Channel :=
  let newer (followed : ChanId) : Bool := decide ((c.genOf a).toNat < h.mgen.toNat) || h.mgen == c.genOf a && h.chan != followed
  let c := match a with
    | .level l => if newer (c.managerOf l) then (c.yieldTo l h.mgen).follow l h.mgen h.chan else c
    | .top =>
      if newer (c.above .field) then
        { c with flt := { c.flt with tgen := h.mgen, topChan := some h.chan, topSb := none } }
      else c
  let c := match a, h.standby with
    | .level .drift, some x => { c with flt := { c.flt with sbChan := some x } }
    | .level .field, some x => { c with flt := { c.flt with fsbChan := some x } }
    | .top, some x => { c with flt := { c.flt with topSb := some x } }
    | _, none => c
  { c with flt := { c.flt with nogroup := c.flt.nogroup || (h.nogroup && c.stp.st == .rollback) } }

/-- A removed channel serves its stripe units until the first commit after its removal (R363). -/
def Channel.retireAfter (c : Channel) (t : Option Token) : Channel :=
  match t with
  | some t =>
    if c.flt.removed && t.kind == .commit && c.newer t then { c with flt := { c.flt with retired := true } } else c
  | none => c

/-- HEARTBEAT_REPLY: a member follows the highest generation, mirrors as standby, and applies a token it missed. -/
def heartbeatReply (w : Wk) (h : Heartbeat) (t : Option Token) (m : Membership) : Wk :=
  let c := w.c.takeMsg 4
  let a := c.replyFrom h.chan
  if h.mgen.toNat < (c.genOf a).toNat then { w with c := c }
  else
    let w := Wk.leafFailed { w with c := c } h
    let c := (w.c.takeReply a h).retireAfter t
    let mirror (c : Channel) (l : MgrLevel) : Channel :=
      match t with
      | some t =>
        if (c.mgr l).standby && (c.mgr l).mirrored.all (fun u => tokenFollows t u.1) then
          c.modMgr l fun g => { g with mirrored := some (t, m) }
        else c
      | none => c
    let w := { w with c := mirror (mirror c .drift) .field }
    match t with
    | none => w
    | some t =>
      match t.kind with
      | .commit => commitToken w t m
      | .skip => skipToken w .skip t
      | .halt => skipToken w .halt t
      | .rollback => rollbackToken w t
      | .start => startToken w t m

/-- A manager is without its standby: the decision that waited for its acknowledgement is taken anew (R240, R360). -/
def Mgr.loseStandby (g : Mgr) : Mgr :=
  { g with
    standbyChan := none, standbyAcked := false, decided := g.decided && g.decision.isNone, decision := none
    leaving := [], unacked := 0 }

/-- HBTMO_EXPIRY (R358): the silent member is failed, class 0x0B; a standby only holds it for silent. -/
def hbtmoExpiry (c : Channel) (l : MgrLevel) (x : ChanId) : Channel :=
  let m := c.mgr l
  if m.acting && m.table.any fun e => e.chan == x && !e.failed then
    let c := c.modMgr l fun g => g.modEntry x fun e => { e with live := false, failed := true, fclass := 0x0B }
    let c := if m.standbyChan = some x then c.modMgr l Mgr.loseStandby else c
    let c := c.managerFault l x 0x0B
    if m.standbyChan = some x then authorityDecide c else c
  else if m.standby then c.modMgr l fun g => g.modEntry x fun e => { e with live := false }
  else c

/-! ### Manager pairs (R359, R360) -/

/-- STANDBY_TAKEOVER: the standby acts, tells every member, sends the mirrored token again or decides ROLLBACK. -/
def standbyTakeover (c : Channel) (l : MgrLevel) : Channel :=
  let m := c.mgr l
  if !m.standby || !m.majority then c
  else
    let primary := c.managerOf l
    let c := ({ c with flt := { c.flt with takeover := true } } : Channel).follow l (c.gen l + 1) c.chid
    let c := c.modMgr l fun g => { (g.modEntry primary fun e => { e with live := false, failed := true, fclass := 0x0C }) with
      acting := true, standby := false, standbyChan := none, standbyAcked := false, latest := g.mirrored
      reports := [], forwarded := false, decision := none, leaving := [], unacked := 0
      decided := (g.mirrored.map fun u => u.1.kind == .rollback).getD false
      recovering := (g.mirrored.map fun u => u.1.kind == .rollback).getD false }
    let tok := match m.mirrored with | some (t, _) => tokenBytes t | none => List.replicate 32 0
    let body := hbBytes { c.heartbeat with takeover := true, mgen := c.gen l } ++ tok
    let c := (c.directMembers l).foldl (fun c d => c.sendCtl d body) c
    -- the decision mirrored is sent again; the attempt after it is undecided, and rolls back
    let c := match m.mirrored with
      | some (t, _) => c.modMgr l fun g => { g with sent := g.sent ++ (c.directMembers l).map fun d => (d, t) }
      | none => c
    authorityDecide (c.managerFault l primary 0x0C)

/-- MIRROR_ACK_TIMEOUT: the primary declares its standby failed, class 0x0C, or stops. -/
def mirrorAckTimeout (c : Channel) (l : MgrLevel) : Channel :=
  let m := c.mgr l
  match m.acting, m.standbyChan with
  | true, some x =>
    if m.majority then
      authorityDecide ((c.modMgr l fun g =>
        (g.modEntry x fun e => { e with live := false, failed := true, fclass := 0x0C, standby := false }).loseStandby).managerFault
          l x 0x0C)
    else c.modMgr l fun g => { g with acting := false, decision := none }
  | _, _ => c

/-- The channel that a manager names its standby: the first live one of another module that stays (R360). -/
def Channel.nextStandby (c : Channel) (l : MgrLevel) : Option MemberEntry :=
  let m := c.mgr l
  m.table.find? fun e =>
    e.live && !e.failed && modOf e.chan != modOf c.chid && !c.leaving (m.removals ++ m.faulted) (modOf e.chan)

/-- NEW_STANDBY: a manager without a standby names one, and sends it the mirror; without one it sends no START (R364). At
the channel so named, the mirror arrives and is acknowledged. -/
def newStandby (c : Channel) (x : Mirror) : Channel :=
  let l := x.level
  let m := c.mgr l
  if m.acting then
    if m.standbyChan.isSome then c
    else
      match c.nextStandby l with
      | some e =>
        let tok := match m.latest with | some (t, _) => tokenBytes t | none => List.replicate 32 0
        (c.sendCtl e.chan (hbBytes { c.heartbeat with mgen := c.gen l } ++ tok)).modMgr l fun g =>
          { (g.modEntry e.chan fun e => { e with standby := true }) with standbyChan := some e.chan, standbyAcked := false }
      | none => { c with flt := { c.flt with nogroup := true } }
  else if m.standby then c
  else
    (c.modMgr l fun g =>
      { ({ g with standby := true, table := c.freshTable l } : Mgr).takeFailed x.failed with mirrored := x.decision }).sendHbTo
        (c.managerOf l) (hbBytes c.heartbeat)

/-- NEW_STANDBY_ACK: what waited for it goes on (R360, R373). -/
def newStandbyAck (c : Channel) (l : MgrLevel) (x : ChanId) : Channel :=
  let m := c.mgr l
  if m.acting && m.standbyChan == some x then
    let c := c.modMgr l fun g => { g with standbyAcked := true }
    let c := match m.decision with
      | some (t, mem) => if c.authority = some l then c else c.issueToken l t mem
      | none => c
    (authorityDecide c).tryStart l
  else c

/-- FIRST_FAULT_HBTMO_EXPIRY (R373). -/
def firstFaultHbtmo (c : Channel) : Channel :=
  match c.authority with
  | some l =>
    if (c.mgr l).recovering then (c.modMgr l fun g => { g with faultHbtmo := true }).tryStart l else c
  | none => c

/-- LINKTMO_EXPIRY (R354): charged to the end with the higher identifier. -/
def linktmoExpiry (c : Channel) (p : Port) : Channel :=
  let s := c.ports[p]
  if s.mode = .polvor && s.st == .down && decide (s.peerChan.toNat < c.chid.toNat) then c.fault 0x06 0 else c

/-! ### Rebuild (R367, R369) -/

def xorBytes (a b : List Byte) : List Byte := (a.zip b).map fun (x, y) => x ^^^ y
def scaleBytes (f : Byte) (a : List Byte) : List Byte := a.map (gfMul f)
/-- The inverse in GF(2^8). -/
def gfInv (a : Byte) : Byte := gfPow a 254

/-- A parity minus the units held, each with its factor. -/
def strip (par : List Byte) (units : List (Nat × List Byte)) (q : Bool) : List Byte :=
  units.foldl (fun a (m, d) => xorBytes a (if q then scaleBytes (gfPow 2 m) d else d)) par

/-- Solves for the first lost member's unit from P, from Q, or from both when two are lost. -/
def solve (p q : List Byte) (haveP : Bool) (lost : List Nat) (units : List (Nat × List Byte)) : Option (List Byte) :=
  match lost with
  | [x] => some (if haveP then strip p units false else scaleBytes (gfInv (gfPow 2 x)) (strip q units true))
  | [x, y] =>
    let gx := gfPow 2 x
    let gy := gfPow 2 y
    some (scaleBytes (gfInv (gx ^^^ gy)) (xorBytes (strip q units true) (scaleBytes gy (strip p units false))))
  | _ => none

/-- A unit of this channel that a peer's request names as lost is asked for too (R369); READY waits for it (R371). -/
def Channel.loseUnit (c : Channel) (j : Nat) : Channel :=
  let c := (c.lose [j]).askUnits
  { c with flt := { c.flt with ready := c.flt.ready && c.stp.st != .rollback } }

/-- REBUILD_REQUEST: the holder of a parity of unit j solves for the requester's unit. `lost` names the positions lost,
the requester's first; `units` are the other live members' units and `other` the other parity, as gathered. -/
def rebuildRequest (c : Channel) (j : Nat) (requester : ChanId) (lost : List Nat) (units : List (Nat × List Byte))
    (other : List Byte) : Channel :=
  let g := c.flt.g.toNat
  let pos := c.flt.pos.toNat
  let isP := decide (0 < g) && j % max 1 g == pos
  let isQ := decide (0 < g) && (j + 1) % max 1 g == pos
  if (!isP && !isQ) || c.flt.retired then c
  else
    let c := if lost.contains pos then c.loseUnit j else c
    let at_ := c.parityAddr c.stp.ver j (!isP)
    c.adori ((at_, stripeUnit) :: c.unitRanges c.stp.ver j) fun c =>
    let mine := c.rdA at_ stripeUnit
    let fix (d : List Byte) : List Byte := padTo stripeUnit d
    let us := (units.filter fun u => u.1 != pos && !lost.contains u.1).map fun u => (u.1, fix u.2)
    let us := if lost.contains pos then us else (pos, c.imageUnit c.stp.ver j) :: us
    let p := if isP then mine else fix other
    let q := if isP then fix other else mine
    match solve p q isP lost us with
    | some d => { c with flt := { c.flt with
        served := c.flt.served ++ [(requester, j, d)], serveTotal := c.flt.serveTotal + 1 } }
    | none => c

/-- REBUILD_RESULT: the unit is written back in place; with the last, STALE regions switch, and a member in recovery is
READY. -/
def rebuildResult (c : Channel) (j : Nat) (data : List Byte) : Channel :=
  if c.flt.lostUnits.contains j then
    c.adori (c.headerRanges ++ c.slotDescRanges) (ws := c.unitRanges c.stp.ver j) fun c =>
    let c := c.writeUnit c.stp.ver j (padTo stripeUnit data)
    let c := { c with flt := { c.flt with
      lostUnits := c.flt.lostUnits.filter (· != j), rebuildTotal := c.flt.rebuildTotal + 65536 } }
    if c.stp.st = .rollback then c.goOnReady
    else if c.flt.lostUnits.isEmpty then
      let c := c.switchStale
      { c with flt := { c.flt with rebuild := false, asked := [] } }
    else c
  else c

/-! ### Meanings -/

/-- ROLLBACK_TOKEN. -/
def execRollbackToken (ch : Ch) (t : Token) (s : State) : Host.Outcome State Fault Refusal :=
  .next (onUp s ch fun w => rollbackToken w t)

/-- HEARTBEAT_SEND. -/
def execHeartbeatSend (ch : Ch) (s : State) : Host.Outcome State Fault Refusal := .next (onUp s ch heartbeatSend)

/-- HEARTBEAT_RECEIVE. -/
def execHeartbeatReceive (ch : Ch) (l : MgrLevel) (h : Heartbeat) (s : State) : Host.Outcome State Fault Refusal :=
  .next (modUp s ch fun c => c.duty fun c => heartbeatReceive c l h)

/-- HEARTBEAT_REPLY. -/
def execHeartbeatReply (ch : Ch) (h : Heartbeat) (t : Option Token) (m : Membership) (s : State) :
    Host.Outcome State Fault Refusal :=
  .next (onUp s ch fun w => heartbeatReply w h t m)

/-- HBTMO_EXPIRY. -/
def execHbtmoExpiry (ch : Ch) (l : MgrLevel) (x : ChanId) (s : State) : Host.Outcome State Fault Refusal :=
  .next (modUp s ch fun c => c.duty fun c => hbtmoExpiry c l x)

/-- STANDBY_TAKEOVER. -/
def execStandbyTakeover (ch : Ch) (l : MgrLevel) (s : State) : Host.Outcome State Fault Refusal :=
  .next (modUp s ch fun c => c.duty fun c => standbyTakeover c l)

/-- MIRROR_ACK_TIMEOUT. -/
def execMirrorAckTimeout (ch : Ch) (l : MgrLevel) (s : State) : Host.Outcome State Fault Refusal :=
  .next (modUp s ch fun c => c.duty fun c => mirrorAckTimeout c l)

/-- NEW_STANDBY. -/
def execNewStandby (ch : Ch) (m : Mirror) (s : State) :
    Host.Outcome State Fault Refusal :=
  .next (modUp s ch fun c => c.duty fun c => newStandby c m)

/-- NEW_STANDBY_ACK. -/
def execNewStandbyAck (ch : Ch) (l : MgrLevel) (x : ChanId) (s : State) : Host.Outcome State Fault Refusal :=
  .next (modUp s ch fun c => c.duty fun c => newStandbyAck c l x)

/-- FIRST_FAULT_HBTMO_EXPIRY. -/
def execFirstFaultHbtmoExpiry (ch : Ch) (s : State) : Host.Outcome State Fault Refusal :=
  .next (modUp s ch fun c => c.duty firstFaultHbtmo)

/-- LINKTMO_EXPIRY. -/
def execLinktmoExpiry (ch : Ch) (p : Port) (s : State) : Host.Outcome State Fault Refusal :=
  .next (modUp s ch fun c => linktmoExpiry c p)

/-- The classes that are a channel fault, or are charged as one: a freeze (R356), a word that R355 assigns to the channel, and
a link that stays DOWN for LINKTMO among them (R354). Class 0x05 is WATCHDOG_EXPIRY's. -/
def isChannelFault (cls : Byte) : Bool := [0x01, 0x03, 0x04, 0x06, 0x0B].contains cls.toNat

/-- REBUILD_REQUEST. -/
def execRebuildRequest (ch : Ch) (j : Nat) (requester : ChanId) (lost : List Nat) (units : List (Nat × List Byte))
    (other : List Byte) (s : State) : Host.Outcome State Fault Refusal :=
  .next (modUp s ch fun c => rebuildRequest c j requester lost units other)

/-- REBUILD_RESULT. -/
def execRebuildResult (ch : Ch) (j : Nat) (data : List Byte) (s : State) : Host.Outcome State Fault Refusal :=
  .next (modUp s ch fun c => rebuildResult c j data)

end Sys2Proof.Machine
end

