-- ==== Sys2Proof/Machine/Boot.lean ====
section
/-!
DEFINITION. Reset and boot of a channel (18): what a reset keeps, the firmware slots, the configuration block and the
fields it loads.
-/
namespace Sys2Proof.Machine

open Sys2Proof

/-! ### Reset (R410, 13 R299, R307, 17 R398) -/

def flashSize : Nat := 0x4000000

/-- Bytes that the spec leaves open. -/
def freeBytes (ctr n : Nat) : List Byte := (List.range n).map (Config.freeByte ctr)

/-- A random generator taken up again after a reset, with a seed of its own (R413). -/
def Drbg.renew (d : Drbg) : Drbg := { seed := d.seed + 1 }

/-- What a reset leaves of the boot state: fuses, flash, HOLD bits, function 0's registers, HSS state. -/
def Boot.afterReset (b : Boot) : Boot :=
  { hostHold := b.hostHold, bmcHold := b.bmcHold, flown := b.flown, flAddr := b.flAddr, flCmd := b.flCmd, flErr := b.flErr
    flBuf := b.flBuf, flash := b.flash, fsvn := b.fsvn, hss := { b.hss with off := false }, drbg := b.drbg.renew, torn := b.torn
    ageing := b.ageing, ageCopy := b.ageCopy, memInit := b.memInit, activated := b.activated }

/-- A stack's registers after a reset of its channel: refresh goes on, patrol passes count on. -/
def StackState.afterReset (t : StackState) : StackState := { owed := t.owed, refreshes := t.refreshes, scrub := t.scrub }

/-- The governor after a reset: PFR_TIME runs on, the allowance and its grant stay with the arbiter (17 R388). -/
def Gov.afterReset (g : Gov) : Gov := { time := g.time, allow := g.allow, grant := g.grant, overalloc := g.overalloc }

/-- A range that function 0's programs and erases never change: identity region, ageing record, HSS state (R424), and what
Table 18.1 has never written or written by Adori alone, the first 64 KiB and the diagnostic log. -/
def protectedAt (a : Nat) : Bool := decide (a < 0x80000) || (decide (0x180000 ≤ a) && decide (a < 0x1000000))

/-- The erase or program that runs is refused: off its alignment, or in a protected range. -/
def Boot.flashRefused (b : Boot) : Bool :=
  let a := b.flAt.toNat
  (b.flOp == 2 && (a % 0x10000 != 0 || protectedAt a)) || (b.flOp == 3 && (a % 0x1000 != 0 || protectedAt a))

/-- The slot that holds a flash address (Table 18.1): a firmware slot, or 2 and 3 for the configuration slots. -/
def slotAt (a : Nat) : List Nat :=
  if 0x80000 ≤ a && a < 0x100000 then [2] else if 0x100000 ≤ a && a < 0x180000 then [3]
  else if 0x1000000 ≤ a && a < 0x2800000 then [0] else if 0x2800000 ≤ a then [1] else []

/-- A flash command under way is cut off: the bytes of a program or erase are left open, and its
slot is left written in part (19 R428, R429). -/
def Wk.tear (w : Wk) : Wk :=
  let b := w.c.boot
  let n := if b.flOp = 2 then 0x10000 else if b.flOp = 3 then 0x1000 else 0
  if !b.flBusy then w
  else
    let flash := if b.flashRefused || n = 0 then b.flash else Mem.write 0xFF b.flash b.flAt.toNat (freeBytes w.ctr n)
    let cut := if b.flashRefused || n = 0 then [] else slotAt b.flAt.toNat
    { w with
      c := { w.c with boot := { b with flash := flash, flBusy := false, torn := (cut ++ b.torn).dedup } }
      ctr := w.ctr + 1 }

/-- Every Névé word written with zero and valid check bits (13 R307). -/
def Channel.clearNeve (c : Channel) : Channel :=
  { c with mem := c.mem.filter fun x => decide (x.1 < dramSize), bad := c.bad.filter fun a => decide (a < dramSize) }

/-- A reset of the channel: DRAM is kept and the floe table in it (02 R48), Névé is not; a flash command under way is cut
off. -/
def Wk.reset (w : Wk) : Wk :=
  w.tear.mod fun c =>
    { boot := c.boot.afterReset
      table := c.table, mem := c.clearNeve.mem, bad := c.clearNeve.bad
      stk := c.stk.map StackState.afterReset, gov := c.gov.afterReset }

/-- The reset ends: the channel boots (Table 18.5), PFR_RESET_TIME is taken. -/
def Wk.release (w : Wk) : Wk :=
  let (w, t) := w.time
  w.mod fun c => { c with boot := { c.boot with life := .booting }, gov := { c.gov with resetTime := t } }

/-- A reset that is over at once (R410). -/
def State.resetChan (s : State) (ch : Ch) : State := s.onCh ch fun w => w.reset.release

/-! ### Firmware (R405 to R407) -/

/-- The listed bytes of a flash range, by their offsets in it. -/
def slotCells (flash : Mem) (a n : Nat) : List (Nat × Byte) :=
  flash.filterMap fun c => if a ≤ c.1 && c.1 < a + n then some (c.1 - a, c.2) else none

def fwSize : Nat := 0x1800000
def fwBase (slot : Nat) : Nat := if slot = 0 then 0x1000000 else 0x2800000
def Boot.fwCells (b : Boot) (slot : Nat) : List (Nat × Byte) := slotCells b.flash (fwBase slot) fwSize

/-- The conditions of R405 other than the security version: key hashes, body digest, both signatures. -/
def fwOk (x : List (Nat × Byte)) : Bool :=
  Config.sha384 (Config.fwEcKey x) == Config.ecKeyHash && Config.sha384 (Config.fwHssKey x) == Config.hssKeyHash &&
  Config.sha384 (Config.fwBody x) == Config.fwBodyDigest x &&
  Config.ecdsaVerify (Config.fwEcKey x) (Config.fwSigned x) (Config.fwEcSig x) &&
  Config.hssVerify (Config.fwHssKey x) (Config.fwSigned x) (Config.fwHssSig x)

/-- The result of trying a slot (BOOT_STATUS): 1 accepted, 2 SIG, 3 SVN, 4 header. A slot that an update has left written in
part fails (R423). -/
def Boot.tryFw (b : Boot) (slot : Nat) : Nat :=
  let x := b.fwCells slot
  if !Config.fwHeaderOk x then 4 else if !fwOk x || b.torn.contains slot then 2 else if Config.fwSvn x < b.fsvn then 3 else 1

/-- The slot tried first: the one well formed whose version is higher (R406). -/
def Boot.firstSlot (b : Boot) : Nat :=
  let ok i := Config.fwHeaderOk (b.fwCells i)
  if ok 1 && (!ok 0 || decide (Config.fwVersion (b.fwCells 0) < Config.fwVersion (b.fwCells 1))) then 1 else 0

/-- The slot booted, if any, and the results of both. -/
def Boot.chooseFw (b : Boot) : Option Nat × Nat × Nat :=
  let i := b.firstSlot
  let r := b.tryFw i
  let put (x y : Nat) : Nat × Nat := if i = 0 then (x, y) else (y, x)
  if r = 1 then (some i, put r 0)
  else
    let r' := b.tryFw (1 - i)
    (if r' = 1 then some (1 - i) else none, put r r')

/-! ### Logs in flash (R400, R415, 19 R428) -/

/-- Writes record n of a log: one that begins a sector comes after that sector's erase. -/
def logWrite (flash : Mem) (base size n : Nat) (record : List Byte) : Mem :=
  let a := base + record.length * n % size
  let flash := if a % 0x10000 = 0 then flash.filter fun c => !(decide (a ≤ c.1) && decide (c.1 < a + 0x10000)) else flash
  Mem.write 0xFF flash a record

/-- The last four bytes of a record are its CRC-32C. -/
def crcOk (r : List Byte) : Bool := (crc32c (r.take (r.length - 4))).toNat == fld r (r.length - 4) 4

/-- The records of a log that pass their CRC; those that fail it are skipped. -/
def logRead (flash : Mem) (base size width : Nat) : List (List Byte) :=
  ((((slotCells flash base size).map fun c => c.1 / width).dedup).map fun i => Mem.read 0xFF flash (base + width * i) width).filter crcOk

/-- The record with the highest number, which stands at an offset of it. -/
def newest (rs : List (List Byte)) (o n : Nat) : Option (List Byte) :=
  rs.foldl (fun x r => match x with
    | some y => if fld y o n < fld r o n then some r else x
    | none => some r) none

/-! #### HSS state (R414, R415) -/

/-- A state record: LIMIT, the first index of the top tree not reserved, sequence number, CRC-32C (the layout is the
model's, log 20). -/
def hssRecord (limit top seq : Nat) : List Byte :=
  let b := toBytes 4 limit ++ toBytes 4 top ++ toBytes 4 seq
  b ++ toBytes 4 (crc32c b).toNat

/-- Writes the next record of the HSS log. -/
def hssWrite (flash : Mem) (limit top seq : Nat) : Mem := logWrite flash 0x40000 0x40000 seq (hssRecord limit top seq)

def hssAll : Nat := 1073741824

/-- A record with the limits of both levels, its number used up. -/
def Hss.record (h : Hss) (flash : Mem) (limit top : Nat) : Hss × Mem :=
  ({ h with limit := limit, seq := h.seq + 1 }, hssWrite flash limit top h.seq)

/-- Reserves a batch of 64 indices, where none is left; a record that cannot be written turns HSS off. -/
def Hss.reserve (h : Hss) (flash : Mem) (written : Bool) : Hss × Mem :=
  if h.off || h.next != h.limit then (h, flash)
  else if !written || hssAll ≤ h.limit then ({ h with off := true }, flash)
  else h.record flash (h.limit + 64) h.trees

/-- Builds the next lower tree and signs it with the top tree's index of its number (Config.hssTopSign), once a record covers
that index (R415). -/
def Hss.grow (h : Hss) (flash : Mem) : Hss × Mem :=
  let (h, flash) := h.record flash h.limit (h.trees + 1)
  ({ h with trees := h.trees + 1 }, flash)

/-- HSS_TREE_BUILD: when 1,024 or fewer indices of the last tree remain. -/
def Hss.build (h : Hss) (flash : Mem) : Hss × Mem :=
  if !h.off && h.trees < 32768 && h.trees * 32768 ≤ h.next + 1024 then h.grow flash else (h, flash)

/-- The next index, used once; none where HSS is off. A tree that is not yet there is built first. -/
def Hss.index (h : Hss) (flash : Mem) : Option Nat × Hss × Mem :=
  let (h, flash) := h.reserve flash true
  if h.off then (none, h, flash)
  else
    let (g, flash) := if h.trees ≤ h.next / 32768 then h.grow flash else (h, flash)
    (some h.next, { g with next := h.next + 1 }, flash)

/-- At boot the root of trust starts at the LIMIT of the newest valid record, with the lower trees whose top tree indices it
covers (R415; log 129). -/
def Hss.start (h : Hss) (flash : Mem) : Hss :=
  match newest (logRead flash 0x40000 0x40000 16) 8 4 with
  | some r => { h with next := fld r 0 4, limit := fld r 0 4, trees := fld r 4 4, seq := fld r 8 4 + 1 }
  | none => { h with next := 0, limit := 0, trees := 0, seq := 0 }

/-! #### The diagnostic log (R400, 19 R428) -/

/-- A record of the diagnostic log: its number, what it says, CRC-32C (the layout is the model's, log 118). -/
def diagRecord (n : Nat) (content : List Byte) : List Byte :=
  let b := toBytes 8 n ++ padTo 52 content
  b ++ toBytes 4 (crc32c b).toNat

/-- Adori writes the next record, for a fault with its class and address. -/
def Boot.diagnose (b : Boot) (cls addr : Nat) : Boot :=
  { b with
    flash := logWrite b.flash 0x180000 0xE80000 b.diagNext (diagRecord b.diagNext (Config.diagContent b.diagNext cls addr))
    diagNext := b.diagNext + 1 }

/-- The records that Adori reads: it skips one that fails its CRC. -/
def Boot.diagnostics (b : Boot) : List (List Byte) := logRead b.flash 0x180000 0xE80000 64

/-- What a boot reads of the logs. -/
def Boot.readLogs (b : Boot) : Boot :=
  { b with
    hss := b.hss.start b.flash
    diagNext := match newest b.diagnostics 0 8 with | some r => fld r 0 8 + 1 | none => 0 }

/-! ### Keys and random bits (R411 to R413) -/

/-- The bits of the next request, of which the generator is reseeded every 2^20. -/
def Drbg.draw (d : Drbg) (root : Nat) : List Byte × Drbg :=
  (Config.hmacDrbg (Config.entropy root d.seed) d.count,
    if d.count + 1 < 2 ^ 20 then { d with count := d.count + 1 } else { seed := d.seed + 1 })

/-- DeviceID, of the device secret alone. -/
def deviceKey (root : Nat) : List Byte := Config.ecKey (Config.hkdf384 (Config.uds root))

/-- Alias, of CDI and so of measurements 1 to 4. -/
def aliasKeyOf (root : Nat) (ms : List (List Byte)) : List Byte :=
  Config.ecKey (Config.hmac384 (Config.uds root) (Config.sha384 (ms.take 4).flatten))

/-- The alias certificate: the alias public key and measurements 1 to 4, signed by DeviceID. -/
def aliasCertOf (root : Nat) (ms : List (List Byte)) (nonce : List Byte) : List Byte :=
  let body := Config.ecPublic (aliasKeyOf root ms) ++ (ms.take 4).flatten
  body ++ Config.ecdsaSign (deviceKey root) nonce body

/-! #### The identity region (R399, R412) -/

/-- The certificates of slot 0 that manufacture left: root, CA, and the CA's of DeviceID. -/
def deviceChain (root : Nat) : List Byte := Config.caChain ++ Config.caCertify (Config.ecPublic (deviceKey root))

/-- The HSS public key, certified by a statement with an ECDSA and an HSS signature of the CA. -/
def hssStatement (root : Nat) : List Byte :=
  let key := Config.hssPublic (Config.hssSeed (Config.uds root))
  key ++ Config.caEcdsaSign key ++ Config.caHssSign key

/-- What manufacture wrote into the identity region, and nothing writes later (its order is the model's, log 20). -/
def identityRegion (root : Nat) : List Byte := deviceChain root ++ hssStatement root

/-- Bytes of a channel's flash as function 0 reads them. -/
def Boot.flashBytes (b : Boot) (root a n : Nat) : List Byte :=
  let id := identityRegion root
  (Mem.read 0xFF b.flash a n).zipIdx.map fun (x, i) =>
    if 0x10000 ≤ a + i && a + i < 0x20000 then id.getD (a + i - 0x10000) 0xFF else x

/-! ### The configuration block (R401 to R404) -/

def cfgBase (slot : Nat) : Nat := if slot = 0 then 0x80000 else 0x100000

def Boot.flashRd (b : Boot) (a n : Nat) : List Byte := Mem.read 0xFF b.flash a n

/-- The block of a slot whose header and CRC meet Table 18.2. One that is left written in part fails its CRC (19 R429). -/
def Boot.cfgBlock (b : Boot) (slot : Nat) : Option (List Byte) :=
  let h := b.flashRd (cfgBase slot) 64
  let len := fld h 12 4
  if b.torn.contains (2 + slot) then none
  else if fld h 0 4 = 0x42435746 && fld h 4 2 = 1 && 64 ≤ len && len ≤ 524288 && len % 8 = 0 then
    let x := b.flashRd (cfgBase slot) len
    if (crc32c (x.take 16 ++ [0, 0, 0, 0] ++ x.drop 20)).toNat = fld x 16 4 then some x else none
  else none

/-- The sections of a block: n of them, type and body, which end where the block ends. -/
def sections : Nat → List Byte → Option (List (Nat × List Byte))
  | 0, [] => some []
  | 0, _ => none
  | n + 1, b =>
    let len := fld b 4 4
    if b.length < 8 + len || len % 8 != 0 then none
    else (sections n (b.drop (8 + len))).map ((fld b 0 2, (b.drop 8).take len) :: ·)

/-- 16-bit words of a body. -/
def words16 (b : List Byte) (o n : Nat) : List Nat := (List.range n).map fun i => fld b (o + 2 * i) 2

def Identity.parse (b : List Byte) : Identity :=
  { chid := BitVec.ofNat 16 (fld b 0 2), modid := BitVec.ofNat 16 (fld b 2 2), pdm := BitVec.ofNat 16 (fld b 4 2)
    sdm := BitVec.ofNat 16 (fld b 6 2), pfm := BitVec.ofNat 16 (fld b 8 2), sfm := BitVec.ofNat 16 (fld b 10 2)
    field := BitVec.ofNat 8 (fld b 12 1) }

/-- A MEMBERSHIP body: modules, drift managers, field managers, zero padding. -/
def parseMembership (b : List Byte) : Option Membership :=
  let n := fld b 0 2
  let m := fld b (2 + 2 * n) 2
  let k := fld b (4 + 2 * n + 2 * m) 2
  let len := 6 + 2 * (n + m + k)
  -- a drift has up to 64 modules, a field up to 64 drifts (01 R10)
  if b.length = (len + 7) / 8 * 8 && n ≤ 64 && m ≤ 64 && (k = 1 || k = 2) && (b.drop len).all (· == 0) then
    some ⟨(words16 b 2 n).map (BitVec.ofNat 16), (words16 b (4 + 2 * n) m).map (BitVec.ofNat 16),
      (words16 b (6 + 2 * (n + m)) k).map (BitVec.ofNat 16), 0⟩
  else none

/-- A PORTS entry: mode, peer port, peer channel. -/
def portEntry (b : List Byte) (p : Nat) : Nat × Nat × Nat := (fld b (8 * p) 1, fld b (8 * p + 1) 1, fld b (8 * p + 2) 2)

def parseRoutes (b : List Byte) : Option (List Route) :=
  let n := fld b 0 4
  if b.length = (4 + 4 * n + 7) / 8 * 8 then
    some ((List.range n).map fun i =>
      let w := fld b (4 + 4 * i) 4
      ⟨BitVec.ofNat 16 w, Fin.ofNat 4 (bits w 17 16), Fin.ofNat 4 (bits w 19 18), w.testBit 20⟩)
  else none

/-! #### Register records (R404) -/

/-- A configuration field: highest and lowest bit, signed or not, least and greatest value. -/
structure CfgField where
  hi : Nat
  lo : Nat
  least : Int
  most : Int
  deriving DecidableEq, Repr

/-- A field that takes every value of its width. -/
def anyField (hi lo : Nat) : CfgField := ⟨hi, lo, 0, 2 ^ (hi + 1 - lo) - 1⟩
def signedField (hi lo : Nat) : CfgField := ⟨hi, lo, -2 ^ (hi - lo), 2 ^ (hi - lo) - 1⟩

/-- The value of a field, signed where its range has negative values. -/
def CfgField.value (f : CfgField) (v : Nat) : Int :=
  let x := bits v f.hi f.lo
  if f.least < 0 && x.testBit (f.hi - f.lo) then (x : Int) - 2 ^ (f.hi + 1 - f.lo) else x

/-- The configuration fields of a port's or window's register, by its offset in the port's block. -/
def portFields (o : Nat) : List CfgField :=
  if 0x200 ≤ o && o < 0x400 then
    match o % 0x20 with
    | 0x00 => [anyField 47 6]
    | 0x08 => [anyField 39 6]
    | 0x10 => [anyField 15 8, anyField 1 1, anyField 0 0]
    | 0x18 => [⟨39, 32, 0, 32⟩, anyField 31 0]
    | _ => []
  else
    match o with
    | 0x2C => [⟨31, 24, 1, 255⟩, ⟨23, 16, 1, 255⟩, ⟨15, 8, 1, 255⟩, ⟨7, 0, 1, 255⟩]
    | 0x38 => [⟨31, 16, 1, 500⟩, ⟨15, 0, 1, 100⟩]
    | 0x100 => [anyField 47 0]
    | 0x108 => [anyField 31 0]
    | 0x10C => [anyField 28 28, anyField 27 16, anyField 15 0]
    | _ => []

/-- The configuration fields of the register at a BAR0 offset; none where it has none. -/
def cfgFields (o : Nat) : List CfgField :=
  if 0x50000 ≤ o && o < 0x58000 then (if o % 0x1000 = 0x48 then [⟨6, 0, 1, 100⟩] else [])
  else if 0xA0000 ≤ o && o < 0xA4000 then portFields (o % 0x1000)
  else
    match o with
    | 0x20008 => [anyField 47 6]
    | 0x20010 => [⟨16, 0, 0, 65536⟩]
    | 0x20018 => [anyField 47 5]
    | 0x20020 => [anyField 47 5]
    | 0x20028 => [anyField 15 0]
    | 0x20030 => [anyField 47 5]
    | 0x20038 => [⟨4, 0, 6, 16⟩]
    | 0x20048 => [anyField 31 16, anyField 15 0]
    | 0x2004C => [anyField 15 0]
    | 0x20058 => [anyField 23 0]
    | 0x2005C => [anyField 15 0]
    | 0x23000 => [anyField 63 0]
    | 0x70000 => [anyField 0 0]
    | 0x70008 => [anyField 47 26]
    | 0x80030 => [⟨9, 0, 1, 1000⟩]
    | 0xB0400 => [anyField 47 3]
    | 0xB0408 => [anyField 31 0]
    | 0xB0410 => [signedField 31 16, signedField 15 0]
    | 0xB0414 => [⟨15, 8, -8, 8⟩, ⟨7, 0, -8, 8⟩]
    | 0xB1024 => [signedField 23 16, signedField 15 8, signedField 7 0]
    | 0xB1028 => [anyField 15 0]
    | 0xB102C => [anyField 31 16]
    | 0xB2008 => [⟨31, 16, 500, 1500⟩, ⟨15, 0, 100, 500⟩]
    | 0xB200C => [⟨9, 0, 10, 1000⟩]
    | 0xB2020 => [anyField 23 16, anyField 15 8, ⟨7, 0, 0, 16⟩]
    | 0xB2028 => [anyField 39 0]
    | 0xB2030 => [anyField 47 16]
    | 0xC0000 => [⟨1, 0, 0, 2⟩]
    | 0xC0004 => [anyField 23 16, ⟨15, 9, 76, 88⟩, anyField 8 8, ⟨1, 0, 0, 2⟩]
    | 0xC0008 => [anyField 15 0]
    | 0xC0054 => [anyField 15 0]
    | _ => []

/-- A record names a register with configuration fields, sets no other bit, and keeps to the ranges. -/
def recordOk (o v : Nat) : Bool :=
  let fs := cfgFields o
  !fs.isEmpty && decide (v = (fs.map fun f => bits v f.hi f.lo * 2 ^ f.lo).sum) &&
  fs.all fun f => decide (f.least ≤ f.value v) && decide (f.value v ≤ f.most)

/-- Sets a port's or window's configuration register. -/
def PortState.setReg (s : PortState) (o v : Nat) : PortState :=
  if 0x200 ≤ o && o < 0x400 then
    let i : Fin 16 := Fin.ofNat 16 ((o - 0x200) / 0x20)
    let x := s.wins[i]
    let x := match o % 0x20 with
      | 0x00 => { x with base := BitVec.ofNat 48 v }
      | 0x08 => { x with size := BitVec.ofNat 40 v }
      | 0x10 => { x with sem := BitVec.ofNat 8 (bits v 15 8), rd := v.testBit 1, wr := v.testBit 0 }
      | 0x18 => { x with plen := BitVec.ofNat 8 (bits v 39 32), net := BitVec.ofNat 32 v }
      | _ => x
    { s with wins := s.wins.set i x }
  else
    match o with
    | 0x2C => { s with
        wctl := BitVec.ofNat 8 (bits v 31 24), wmc := BitVec.ofNat 8 (bits v 23 16)
        wred := BitVec.ofNat 8 (bits v 15 8), wdata := BitVec.ofNat 8 v }
    | 0x38 => { s with stall := BitVec.ofNat 16 (bits v 31 16), mctmo := BitVec.ofNat 16 v }
    | 0x100 => { s with ethMac := BitVec.ofNat 48 v }
    | 0x108 => { s with ethIp4 := BitVec.ofNat 32 v }
    | 0x10C => { s with vlanen := v.testBit 28, vid := BitVec.ofNat 12 (bits v 27 16), udp := BitVec.ofNat 16 v }
    | _ => s

/-- Sets the configuration fields of the register at a BAR0 offset to the bits of a value. -/
def Channel.setReg (c : Channel) (o v : Nat) : Channel :=
  let nmon (f : Nmon → Nmon) : Channel := { c with nmon := f c.nmon }
  let stp (f : Stp → Stp) : Channel := { c with stp := f c.stp }
  let flt (f : Flt → Flt) : Channel := { c with flt := f c.flt }
  if 0x50000 ≤ o && o < 0x58000 then
    c.modCore (Fin.ofNat 8 ((o - 0x50000) / 0x1000)) fun k => { k with esk := { k.esk with pgtmo := BitVec.ofNat 7 v } }
  else if 0xA0000 ≤ o && o < 0xA4000 then
    c.modPort (Fin.ofNat 4 ((o - 0xA0000) / 0x1000)) fun s => s.setReg (o % 0x1000) v
  else
    match o with
    | 0x20008 => nmon fun n => { n with lstBase := BitVec.ofNat 48 v }
    | 0x20010 => nmon fun n => { n with lstCount := BitVec.ofNat 17 v }
    | 0x20018 => nmon fun n => { n with watchBase := BitVec.ofNat 48 v }
    | 0x20020 => nmon fun n => { n with trkBase := BitVec.ofNat 48 v }
    | 0x20028 => nmon fun n => { n with trkCount := BitVec.ofNat 16 v }
    | 0x20030 => nmon fun n => { n with evrBase := BitVec.ofNat 48 v }
    | 0x20038 => nmon fun n => { n with evrLog2 := BitVec.ofNat 5 v }
    | 0x20048 => nmon fun n => { n with njdn := BitVec.ofNat 16 (bits v 31 16), njup := BitVec.ofNat 16 v }
    | 0x2004C => nmon fun n => { n with warm := BitVec.ofNat 16 v }
    | 0x20058 => nmon fun n => { n with gbad := BitVec.ofNat 24 v }
    | 0x2005C => nmon fun n => { n with gclean := BitVec.ofNat 16 v }
    | 0x23000 => { c with sas := { c.sas with lseed := BitVec.ofNat 64 v } }
    | 0x70000 => { c with agd := { c.agd with mode := v.testBit 0 } }
    | 0x70008 => { c with agd := { c.agd with ptBase := BitVec.ofNat 48 v } }
    | 0x80030 => { c with cfl := { c.cfl with thr := BitVec.ofNat 10 v } }
    | 0xB0400 => { c with abl := { c.abl with regBase := BitVec.ofNat 48 v } }
    | 0xB0408 => { c with abl := { c.abl with regCount := BitVec.ofNat 32 v } }
    | 0xB0410 => { c with abl := { c.abl with rhi := BitVec.ofNat 16 (bits v 31 16), rlo := BitVec.ofNat 16 v } }
    | 0xB0414 => { c with abl := { c.abl with uemax := BitVec.ofNat 8 (bits v 15 8), uemin := BitVec.ofNat 8 v } }
    | 0xB1024 => stp fun s => { s with
        lsmax := BitVec.ofNat 8 (bits v 23 16), lsmin := BitVec.ofNat 8 (bits v 15 8), lsinit := BitVec.ofNat 8 v }
    | 0xB1028 => stp fun s => { s with lsgrow := BitVec.ofNat 16 v }
    | 0xB102C => stp fun s => { s with skipmax := BitVec.ofNat 16 (bits v 31 16) }
    | 0xB2008 => flt fun f => { f with hbtmo := BitVec.ofNat 16 (bits v 31 16), hbint := BitVec.ofNat 16 v }
    | 0xB200C => flt fun f => { f with linktmo := BitVec.ofNat 10 v }
    | 0xB2020 => flt fun f => { f with
        repl := BitVec.ofNat 8 (bits v 23 16), pos := BitVec.ofNat 8 (bits v 15 8), g := BitVec.ofNat 8 v }
    | 0xB2028 => flt fun f => { f with stripeLen := BitVec.ofNat 40 v }
    | 0xB2030 => flt fun f => { f with stripeBase := BitVec.ofNat 48 v }
    | 0xC0000 => c.modGov fun g => { g with gmode := BitVec.ofNat 2 v }
    | 0xC0004 => c.modGov fun g => { g with
        loanch := BitVec.ofNat 8 (bits v 23 16), ftop := BitVec.ofNat 7 (bits v 15 9), lend := v.testBit 8
        thpol := BitVec.ofNat 2 v }
    | 0xC0008 => c.modGov fun g => { g with allow := BitVec.ofNat 16 v }
    | 0xC0054 => c.modGov fun g => { g with colddly := BitVec.ofNat 16 v }
    | _ => c

/-- The records of a REGISTERS body: offset and value. -/
def records (b : List Byte) : List (Nat × Nat) :=
  (List.range (b.length / 16)).map fun i => (fld b (16 * i) 3, fld b (16 * i + 8) 8)

/-- The relations that hold between fields once every record has been applied (09 R214, 14 R325, 16 R358, R365). -/
def Channel.relationsOk (c : Channel) : Bool :=
  let f := c.flt
  decide (c.abl.uemin.toInt ≤ c.abl.uemax.toInt) && decide (2 * f.hbint.toNat ≤ f.hbtmo.toNat) &&
  (f.g == 0 || (decide (4 ≤ f.g.toNat) && decide (f.pos.toNat < f.g.toNat))) && f.stripeLen.toNat % 65536 == 0 &&
  (List.finRange 4).all fun p => c.ports[p].wins.toList.all fun x => x.size == 0 || inDram x.base.toNat x.size.toNat

/-! #### The block as a whole -/

def bodyOf (ss : List (Nat × List Byte)) (t : Nat) : Option (List Byte) := (ss.find? fun s => s.1 == t).map Prod.snd

/-- R23, R401 and R403 for the identity: die position, managers on distinct modules and on the lists. A field manager is one
of the field's drift managers: in a system of one drift it is the drift's of its name, and one on a module of the
drift is one of the drift's two; of another drift one block does not tell the standby. A block without MEMBERSHIP
must name its managers on distinct modules too (log 98). -/
def identityOk (ch : Ch) (i : Identity) (m : Option Membership) : Bool :=
  i.chid.toNat == 8 * i.modid.toNat + ch.val && decide (i.modid.toNat ≤ 8191) && decide (i.field.toNat ≤ 1) &&
  modOf i.pdm != modOf i.sdm && modOf i.pfm != modOf i.sfm &&
  match m with
  | none => true
  | some m =>
    m.modules.contains i.modid && m.driftManagers.contains i.pdm && m.fieldManagers.contains i.pfm &&
    m.modules.contains (modOf i.pdm) && m.modules.contains (modOf i.sdm) &&
    (m.driftManagers.length != 1 || m.fieldManagers.length != 1 || (i.pfm == i.pdm && i.sfm == i.sdm)) &&
    [i.pfm, i.sfm].all fun x =>
      x == i.pdm || x == i.sdm || (m.driftManagers.length != 1 && !m.modules.contains (modOf x))

/-- Applies a block's sections to a channel just out of reset; none where the block breaks a rule. -/
def Channel.configure (c : Channel) (ch : Ch) (raw : List Byte) : Option Channel := do
  let ss ← sections (fld raw 6 2) (raw.drop 64)
  let n := fld raw 6 2
  guard (1 ≤ n && n ≤ 64)
  let known := ss.filter fun s => decide (s.1 < 0x80)
  guard (ss.all fun s => decide (s.1 < 0x100) && (decide (0x80 ≤ s.1) || (decide (1 ≤ s.1) && decide (s.1 ≤ 6))))
  guard ((known.map Prod.fst).dedup.length == known.length)
  let ib ← bodyOf known 1
  guard (ib.length == 16)
  let ident := Identity.parse ib
  let mem ← match bodyOf known 3 with | some b => (parseMembership b).map some | none => some none
  guard (identityOk ch ident mem)
  let pb := (bodyOf known 4).getD (List.replicate 32 0)
  guard (pb.length == 32 && (List.range 4).all fun p =>
    decide ((portEntry pb p).1 ≤ 2) && ((portEntry pb p).1 != 1 || decide ((portEntry pb p).2.1 ≤ 3)))
  let routes ← match bodyOf known 5 with | some b => parseRoutes b | none => some []
  guard (routes.all fun r => (portEntry pb r.main.val).1 == 1 && (!r.altValid || (portEntry pb r.alt.val).1 == 1))
  let pol := bodyOf known 6
  guard (pol.all fun b => b.length == 8 && decide (fld b 2 1 ≤ 2))
  let rs := records ((bodyOf known 2).getD [])
  guard (((bodyOf known 2).getD []).length % 16 == 0 && rs.all fun r => recordOk r.1 r.2)
  -- the allowance that a reset leaves is the arbiter's; a block that sets none means the table's (R404)
  let c := rs.foldl (fun c r => c.setReg r.1 r.2) (c.modGov fun g => { g with allow := 450 })
  guard c.relationsOk
  let ports := Vector.ofFn fun p : Port =>
    let (m, q, peer) := portEntry pb p.val
    { c.ports[p] with
      mode := if m = 1 then .polvor else if m = 2 then .ethernet else .off
      st := if m = 0 then .off else .training
      peerChan := BitVec.ofNat 16 peer, peerPort := BitVec.ofNat 2 q }
  let stp := match pol with
    | some b => { c.stp with bound := BitVec.ofNat 16 (fld b 0 2), gfmt := BitVec.ofNat 8 (fld b 2 1) }
    | none => c.stp
  pure { c with
    ports := ports
    stp := { stp with lsexp := stp.lsinit, lsexpCommit := stp.lsinit }
    flt := { c.flt with members := mem.getD ⟨[], [], [], 0⟩ }
    boot := { c.boot with cfg := { raw := raw, ident := ident, hasMembership := mem.isSome, modules := (mem.map (·.modules)).getD [], routes := routes } } }

/-- The block's sequence number. -/
def cfgSeq (raw : List Byte) : W32 := BitVec.ofNat 32 (fld raw 8 4)

/-- The slot selected and the channel it configures, or the held cause (R402). -/
def Channel.chooseCfg (c : Channel) (ch : Ch) : Except Cause (Nat × Channel) :=
  let block (i : Nat) := c.boot.cfgBlock i
  let made (i : Nat) : Option (W32 × Channel) := do
    let raw ← block i
    let c' ← c.configure ch raw
    pure (cfgSeq raw, c')
  match made 0, made 1 with
  | some (s0, c0), some (s1, c1) => .ok (if (s0 - s1).msb then (1, c1) else (0, c0))
  | some (_, c0), none => .ok (0, c0)
  | none, some (_, c1) => .ok (1, c1)
  | none, none => .error (if (block 0).isSome || (block 1).isSome then .badcfg else .nocfg)

/-! ### What a channel says of itself (Tables 18.8, 18.11, 18.12) -/

def causeCode : Cause → Nat
  | .none => 0
  | .hold => 1
  | .nocfg => 2
  | .badcfg => 3
  | .fwsig => 4
  | .fwsvn => 5
  | .wdog => 6
  | .fuse => 7
  | .meminit => 8

def Boot.status (b : Boot) : Nat := causeCode b.cause + 16 * b.resa.toNat + 256 * b.resb.toNat

/-- The identity record, 64 bytes. -/
def Boot.identityRecord (b : Boot) : List Byte :=
  padTo 64 (toBytes 2 b.cfg.ident.chid.toNat ++ toBytes 2 b.cfg.ident.modid.toNat ++ toBytes 4 b.fwver.toNat ++
    [b.svn] ++ toBytes 1 b.fsvn ++ [b.slot, b.cslot] ++ toBytes 4 b.cseq.toNat ++
    [8, 8, 64, 64, 2, 1, 2, 128, 16, 24, 4, 4, 4, 16, 16, 64] ++ toBytes 2 144 ++ toBytes 2 256)

/-- The measurement blocks, index 1 first (R416, R417). -/
def Boot.measures (b : Boot) : List (List Byte) :=
  [ Config.romDigest, b.fwDig,
    toBytes 4 b.fwver.toNat ++ [b.svn] ++ toBytes 1 b.fsvn ++ [0, 0],
    if b.cfg.raw.isEmpty then List.replicate 48 0 else Config.sha384 b.cfg.raw,
    toBytes 4 b.status, Config.fuseState ]

/-! ### Leaving the held state (R408, Table 18.5) -/

/-- Lanes seeded with epoch 0 (08 R190). -/
def Channel.seedLanes (c : Channel) : Channel :=
  let seed (u : Sas.LaneUnit) := seedUnit u c.sas.lseed 0 c.chid
  { c with
    sas := { c.sas with epoch := 0 }
    cores := Vector.ofFn fun k : Core => { c.cores[k] with lanes := {
      moraine := seed (LaneUnit.moraine k.val), fz0 := seed (LaneUnit.fz0 k.val), fz1a := seed (LaneUnit.fz1a k.val)
      fz1b := seed (LaneUnit.fz1b k.val), thaw := seed (LaneUnit.thaw k.val) } }
    engines := Vector.ofFn fun a : Stack => { c.engines[a] with lanes := seed (LaneUnit.ablation a.val) } }

/-- Manager roles (R403): the channel acts, or stands by, where its identifier is named. -/
def Channel.takeRoles (c : Channel) : Channel :=
  let i := c.boot.cfg.ident
  let role (c : Channel) (l : MgrLevel) (p s : ChanId) : Channel :=
    let c := c.modMgr l fun m => { m with
      acting := c.chid == p, standby := c.chid == s, standbyChan := if c.chid = p then some s else none }
    if c.chid = p || c.chid = s then c.modMgr l fun m => { m with table := c.freshTable l } else c
  role (role c .drift i.pdm i.sdm) .field i.pfm i.sfm

/-- Zeros written to n bytes at an address. -/
def Channel.zero (c : Channel) (a n : Nat) : Channel :=
  { c with
    mem := c.mem.filter fun x => !(decide (a ≤ x.1) && decide (x.1 < a + n))
    bad := c.bad.filter fun k => !(decide (a ≤ k) && decide (k + wordSize k ≤ a + n)) }

/-- The event ring filled with zeros (06 R157). -/
def Channel.clearEvents (c : Channel) : Channel := c.zero c.nmon.evrBase.toNat (32 * 2 ^ c.nmon.evrLog2.toNat)

/-- VOFF of the ageing record (17 R380). -/
def Gov.withAgeing (g : Gov) (v : List Byte) : Gov :=
  { g with cores := Vector.ofFn fun k : Core => { g.cores[k] with voff := v.getD k.val 0 } }

/-- The channel held with a cause; clocks cold. -/
def Channel.hold (c : Channel) (cause : Cause) : Channel :=
  { c with boot := { c.boot with life := .held, cause := cause } }.allCold

/-- The image booted or last tried (Table 18.8). -/
def Boot.describes (b : Boot) (slot : Nat) : Boot :=
  { b with
    fwver := BitVec.ofNat 32 (Config.fwVersion (b.fwCells slot)), svn := BitVec.ofNat 8 (Config.fwSvn (b.fwCells slot))
    fwDig := Config.fwDigest (b.fwCells slot), slot := BitVec.ofNat 8 slot }

/-- The identity of this boot: the alias key and its certificate (R412). -/
def Channel.identify (c : Channel) (root : Nat) : Channel :=
  let b := c.boot
  let (n, d) := b.drbg.draw root
  { c with boot := { b with drbg := d, aliasKey := aliasKeyOf root b.measures, aliasCert := aliasCertOf root b.measures n } }

/-- The stacks are written with zeros and valid check symbols before the channel first leaves the held state (13 R299). -/
def Channel.initStacks (c : Channel) : Channel :=
  if c.boot.memInit then c
  else { c with
    mem := c.mem.filter fun x => decide (dramSize ≤ x.1), bad := c.bad.filter fun k => decide (dramSize ≤ k)
    boot := { c.boot with memInit := true } }

/-- Boot of a channel whose reset has ended, up to its identity. -/
def Wk.bootUp (w : Wk) : Wk :=
  let c := w.c
  let b := c.boot
  if !Config.fusesOk w.ch.val then w.mod fun c => c.hold .fuse
  else if b.hostHold || b.bmcHold then w.mod fun c => c.hold .hold
  else if !b.memInit && !Config.stacksOk w.ctr then { w with c := c.hold .meminit, ctr := w.ctr + 1 }
  else
    let c := c.initStacks
    let (slot, ra, rb) := b.chooseFw
    let b := { b with memInit := true, activated := false, resa := BitVec.ofNat 4 ra, resb := BitVec.ofNat 4 rb }
    let w := { w with ctr := w.ctr + 1 }
    match slot with
    | none =>
      let cause := if (ra = 3 || ra = 0) && (rb = 3 || rb = 0) then Cause.fwsvn else Cause.fwsig
      { w with c := { c with boot := b.describes (1 - b.firstSlot) }.hold cause }
    | some slot =>
      let fw := b.fwCells slot
      let b := b.describes slot
      match ({ c with boot := b } : Channel).chooseCfg w.ch with
      | .error cause => { w with c := { c with boot := b }.hold cause }
      | .ok (i, c') =>
        let up := decide (b.fsvn < Config.fwMinSvn fw)
        let boot := { c'.boot with
          life := .running, cause := .none, cslot := BitVec.ofNat 8 i, cseq := cfgSeq c'.boot.cfg.raw
          svnup := up, fsvn := if up then min 64 (Config.fwMinSvn fw) else b.fsvn }
        let c' := ({ c' with boot := boot, gov := c'.gov.withAgeing b.ageing } : Channel)
        { w with c := c'.clearNeve.seedLanes.takeRoles.clearEvents.modGov fun g => { g with pllA := .warm, wakeTotal := g.wakeTotal + 1 } }

/-- The boot: it reads the logs in flash, and derives the identity also where the channel ends held (R417). -/
def Wk.boot (w : Wk) : Wk :=
  ((w.mod fun c => { c with boot := c.boot.readLogs }).bootUp).mod fun c => c.identify (1 + w.ch.val)

/-- CHANNEL_BOOT: the boot, then the allowance to the arbiter (17 R388). -/
def channelBoot (s : State) (ch : Ch) : State :=
  let s := s.onCh ch Wk.boot
  if s.chans[ch].up then
    ({ s with bridge := { s.bridge with allowKnown := s.bridge.allowKnown.set ch.val true } } : State).regrant
  else s

/-- A channel fault that Adori reports and writes a diagnostic record of (16 R354; log 118). -/
def Channel.loggedFault (c : Channel) (cls addr : Nat) : Channel :=
  let c := c.fault cls addr
  { c with boot := c.boot.diagnose cls addr }

/-- LOGIC_CHECK_FAILURE (16 R353, R354). -/
def execLogicCheckFailure (ch : Ch) (s : State) : Host.Outcome State Fault Refusal :=
  .next (modUp s ch fun c => c.loggedFault 0x03 0)

/-- CHANNEL_FAULT (16 R354). -/
def execChannelFault (ch : Ch) (fclass : Byte) (addr : Addr) (s : State) : Host.Outcome State Fault Refusal :=
  .next (modUp s ch fun c => if isChannelFault fclass then c.loggedFault fclass.toNat addr.toNat else c)

/-- CHANNEL_BOOT (18 R399 to R412): of a channel that is out of reset and has not booted. -/
def execChannelBoot (ch : Ch) (s : State) : Host.Outcome State Fault Refusal :=
  let l := s.chans[ch].boot.life
  .next (if s.powered && !s.bridge.modRst && (l == .reset || l == .booting) then channelBoot s ch else s)

end Sys2Proof.Machine
end

