-- ==== Sys2Proof/Machine/Trust.lean ====
section
/-!
DEFINITION. The mailbox, HSS state, SPDM responders, MCTP and PLDM (18). Message codes that the spec takes from the
SPDM, MCTP and PLDM standards are PRESUMED from them (log 33); the layout of replies that no table gives is the
model's (log 20).
-/
namespace Sys2Proof.Machine

open Sys2Proof

/-! ### The mailbox (R421) -/

def Boot.mbxCodeOf (b : Boot) : Nat := (Mem.byte 0 b.mbxReq 0).toNat

/-- A reply in MBX_RSP; its first n bytes are new. -/
def Boot.reply (b : Boot) (code : Byte) (bs : List Byte) : Boot :=
  { b with mbxCode := code, mbxRsp := Mem.write 0 b.mbxRsp 0 (bs.take 1024) }

/-- Bytes of the configuration block as read; past its end they are free (log 34). -/
def Boot.cfgBytes (b : Boot) (ctr o n : Nat) : List Byte :=
  (List.range (min n 1024)).map fun i => b.cfg.raw.getD (o + i) (Config.freeByte ctr i)

/-- A write of MBX_CTRL: GO with the request code of the row. -/
def Wk.mailbox (w : Wk) (x : RegWrite) (codeOk : Nat → Bool) : Wk :=
  let b := w.c.boot
  if !(enabledBits x 4).testBit 0 then w
  else if b.mbxBusy then w.mod fun c => { c with boot := { b with mbxOvr := true } }
  else if !codeOk b.mbxCodeOf then w
  else
    let b' :=
      match b.mbxCodeOf with
      | 1 => b.reply 0 b.identityRecord
      | 2 =>
        let r := Mem.read 0 b.mbxReq 0 12
        b.reply 0 (b.cfgBytes w.ctr (fld r 4 4) (fld r 8 4))
      | 3 => b.reply 0 b.measures.flatten
      | _ => { b with mbxCode := 1 }
    { w with c := { w.c with boot := b' }, ctr := w.ctr + 1 }

/-! ### SPDM (R416 to R418) -/

def State.bridgeOn (s : State) : Bool := s.powered && !s.bridge.modRst

/-- The responder is reached over the transport. A channel that boots is in interval 1 until CHANNEL_BOOT, which does the rest
of its boot, and no message reaches it (R422). -/
def State.reaches (s : State) (ep : Endpoint) (tr : Transport) : Bool :=
  s.bridgeOn &&
  (match tr with | .doe => s.bridge.hostUp | .mctp => true) &&
  match ep with
  | .bridge => true
  | .channel ch => match tr with | .doe => s.chans[ch].up | .mctp => s.chans[ch].boot.life == .held || s.chans[ch].boot.life == .running

def epCode : Endpoint → Nat
  | .bridge => 0
  | .channel ch => 1 + ch.val

/-- The connection of a responder over a transport. -/
def State.spdm (s : State) (ep : Endpoint) (tr : Transport) : Spdm :=
  match ep, tr with
  | .bridge, .doe => s.bridge.spdmDoe
  | .bridge, .mctp => s.bridge.spdmMctp
  | .channel ch, .doe => s.chans[ch].boot.spdmDoe
  | .channel ch, .mctp => s.chans[ch].boot.spdmMctp

def State.setSpdm (s : State) (ep : Endpoint) (tr : Transport) (x : Spdm) : State :=
  match ep, tr with
  | .bridge, .doe => { s with bridge := { s.bridge with spdmDoe := x } }
  | .bridge, .mctp => { s with bridge := { s.bridge with spdmMctp := x } }
  | .channel ch, .doe => s.modCh ch fun c => { c with boot := { c.boot with spdmDoe := x } }
  | .channel ch, .mctp => s.modCh ch fun c => { c with boot := { c.boot with spdmMctp := x } }

def State.say (s : State) (bs : List Byte) : State := { s with answer := bs }

/-- ERROR: 1 InvalidRequest, 7 UnsupportedRequest. -/
def State.error (s : State) (code : Byte) : State := s.say [0x7F, code]

/-- A responder's answer, where the responder is reached. -/
def onSpdm (s : State) (ep : Endpoint) (tr : Transport) (f : State → State) : State := if s.reaches ep tr then f s else s

/-- The measurement blocks of an endpoint. -/
def State.measures (s : State) : Endpoint → List (List Byte)
  | .bridge => Config.bridgeMeasures
  | .channel ch => s.chans[ch].boot.measures

/-- The alias key of an endpoint, and its alias certificate; the bridge's measurements are fixed, and so are its two. -/
def State.aliasKey (s : State) : Endpoint → List Byte
  | .bridge => aliasKeyOf 0 Config.bridgeMeasures
  | .channel ch => s.chans[ch].boot.aliasKey

def State.aliasCert (s : State) : Endpoint → List Byte
  | .bridge => aliasCertOf 0 Config.bridgeMeasures (Config.entropy 0 0)
  | .channel ch => s.chans[ch].boot.aliasCert

/-- The certificates of slot 0: root, CA, DeviceID, from the identity region, and alias (Table 18.7). -/
def State.certs (s : State) (ep : Endpoint) : List Byte := deviceChain (epCode ep) ++ s.aliasCert ep

/-- The next random bits of an endpoint's root of trust (R413). -/
def State.draw (s : State) (ep : Endpoint) : List Byte × State :=
  match ep with
  | .bridge =>
    let (x, d) := s.bridge.drbg.draw 0
    (x, { s with bridge := { s.bridge with drbg := d } })
  | .channel ch =>
    let (x, d) := s.chans[ch].boot.drbg.draw (epCode ep)
    (x, s.modCh ch fun c => { c with boot := { c.boot with drbg := d } })

/-- A response signed by the alias key: kept as the last one of the connection. Its bytes take a nonce of the responder's
own, and the signature one more. -/
def State.signed (s : State) (ep : Endpoint) (tr : Transport) (content : List Byte → List Byte) : State :=
  let (x, s) := s.draw ep
  let (k, s) := s.draw ep
  let full := content x ++ Config.ecdsaSign (s.aliasKey ep) k (content x)
  (s.setSpdm ep tr { lastSigned := some full, hssFor := none }).say full

/-- CHALLENGE: slot 0 only. -/
def challenge (s : State) (ep : Endpoint) (tr : Transport) (slot : Byte) (nonce : List Byte) : State :=
  if slot != 0 then s.error 1
  else
    s.signed ep tr fun own => [0x03, slot] ++ Config.sha384 (s.certs ep) ++ own ++ nonce ++ Config.sha384 (s.measures ep).flatten

/-- GET_MEASUREMENTS: one block, or all of them for 0xFF; for 0 their number. -/
def getMeasurements (s : State) (ep : Endpoint) (tr : Transport) (index : Byte) (nonce : List Byte) : State :=
  let ms := s.measures ep
  let i := index.toNat
  let reply (m : List Byte) : State := s.signed ep tr fun own => [0x60, BitVec.ofNat 8 ms.length] ++ own ++ nonce ++ m
  if i = 0 then reply []
  else if i = 255 then reply ms.flatten
  else
    match ms[i - 1]? with
    | some m => reply m
    | none => s.error 1

/-- The HSS state of an endpoint's root of trust with the memory of its records. -/
def State.hss (s : State) : Endpoint → Hss × Mem
  | .bridge => (s.bridge.hss, s.bridge.hssLog)
  | .channel ch => (s.chans[ch].boot.hss, s.chans[ch].boot.flash)

def State.setHss (s : State) (ep : Endpoint) (h : Hss) (m : Mem) : State :=
  match ep with
  | .bridge => { s with bridge := { s.bridge with hss := h, hssLog := m } }
  | .channel ch => s.modCh ch fun c => { c with boot := { c.boot with hss := h, flash := m } }

/-- The HSS signature of an index: the top tree's over the lower tree of the index, and that tree's over the SHA-256 of the
message (R414, R418). -/
def hssSignature (root q : Nat) (msg : List Byte) : List Byte :=
  let seed := Config.hssSeed (Config.uds root)
  Config.hssTopSign seed (q / 32768) ++ Config.hssSign seed q (Config.sha256 msg)

/-- The HSS signature over a response, under a fresh index (R414). -/
def hssSigned (s : State) (ep : Endpoint) (tr : Transport) (x : Spdm) (msg : List Byte) : State :=
  match (s.hss ep).1.index (s.hss ep).2 with
  | (some q, h, m) =>
    let sig := hssSignature (epCode ep) q msg
    ((s.setHss ep h m).setSpdm ep tr { x with hssFor := some sig }).say (0x7E :: sig)
  | (none, h, m) =>
    ({ s.setHss ep h m with freeCtr := s.freeCtr + 1 } : State).say [0x7F, Config.freeByte s.freeCtr 0]

/-- VENDOR_DEFINED_REQUEST: the same signature for a repeated request (R418). -/
def vendorDefined (s : State) (ep : Endpoint) (tr : Transport) (code : Byte) : State :=
  if code != 1 then s.error 7
  else
    let x := s.spdm ep tr
    match x.lastSigned, x.hssFor with
    | none, _ => s.error 1
    | some _, some sig => s.say (0x7E :: sig)
    | some msg, none => hssSigned s ep tr x msg

/-! ### MCTP and PLDM (R422 to R424) -/

/-- An endpoint is reached over MCTP. -/
def onMctp (s : State) (ep : Endpoint) (f : State → State) : State := onSpdm s ep .mctp f

/-- What the I3C target presents before it has a dynamic address: a provisional ID of the serial number (19 R433). -/
def Bridge.provisional (b : Bridge) : Option (List Byte) :=
  if b.i3cAddressed then none else some (Config.provisionalId Config.serial)

/-- MCTP_CONTROL: endpoint IDs, the pool of 8, the message types. A message that arrives shows that the I3C target has its
dynamic address. -/
def mctpControl (s : State) (ep : Endpoint) (r : MctpReq) : State :=
  let s := { s with bridge := { s.bridge with i3cAddressed := true } }
  let set (l : List Byte) : State := { s with bridge := { s.bridge with eids := l } }
  match r with
  | .setEid e => (set (s.bridge.eids.set (epCode ep) e)).say [0, e]
  | .getEid => s.say [0, s.bridge.eids.getD (epCode ep) 0]
  | .allocatePool e =>
    match ep with
    | .bridge => (set (s.bridge.eids.take 1 ++ (List.range 8).map fun i => e + BitVec.ofNat 8 i)).say [0, 8]
    | .channel _ => s.say [5]
  | .getVersion => { s with answer := 0 :: freeBytes s.freeCtr 4, freeCtr := s.freeCtr + 1 }
  | .getMessageTypes => s.say [0, 3, 0x00, 0x01, 0x05]
  | .other _ => s.say [5]

/-- PLDM Type 0: a channel's types are 0, 2 and 5; other fixed answers, and the bridge's types, are free. -/
def pldmDiscovery (s : State) (ep : Endpoint) (code : Byte) : State :=
  if code = 4 && ep == .bridge then { s with answer := 0 :: freeBytes s.freeCtr 8, freeCtr := s.freeCtr + 1 }
  else if code = 4 then s.say [0, 0x25, 0, 0, 0, 0, 0, 0, 0]
  else if code = 1 || code = 2 || code = 3 || code = 5 then
    { s with answer := 0 :: freeBytes s.freeCtr 4, freeCtr := s.freeCtr + 1 }
  else s.say [5]

/-- A numeric sensor's value (Table 18.10), none where the sensor is unavailable. -/
def Channel.sensor (c : Channel) : Sensor → Option Nat
  | .power => some (c.gov.p1s.toNat / 10)
  | .energy => some (c.gov.energy.toNat / 1000)
  | .coolant => if c.gov.tin = 255 then none else some c.gov.tin.toNat
  | .stack => some ((c.stk.toList.map fun t => t.temp.toNat).foldl max 0)
  | .tj => some ((c.gov.cores.toList.map fun k => k.tj.toNat).foldl max 0)
  | .clock => some (c.gov.fg.toNat * 25)
  | .state => some (causeCode c.boot.cause + 256 * c.flt.fclass.toNat)

/-- The state sensor's pair. -/
def Channel.statePair (c : Channel) : Nat × Nat := (causeCode c.boot.cause, c.flt.fclass.toNat)

/-- The pair last sent for a channel. -/
def State.lastEvent (s : State) (ch : Ch) : Nat × Nat :=
  match (s.events.filter fun e => e.1 == ch.val).getLast? with
  | some (_, a, b) => (a, b)
  | none => (0, 0)

/-- PLATFORM_EVENT_MESSAGE: the state sensor has changed since it was last sent. -/
def platformEvent (s : State) (ch : Ch) : State :=
  let p := s.chans[ch].statePair
  if p = s.lastEvent ch then s else { s with events := s.events ++ [(ch.val, p.1, p.2)] }

/-- PLDM Type 5: the update writes the slot that did not boot (R423); refused while function 0 holds the flash (R424). -/
def Boot.firmware (b : Boot) : FwUpdate → Boot
  | .start =>
    if b.flown then b
    else { b with fwUpdate := true, torn := ((1 - b.slot.toNat) :: b.torn).dedup }
  | .data o bs =>
    if b.fwUpdate && o + bs.length ≤ fwSize then { b with flash := Mem.write 0xFF b.flash (fwBase (1 - b.slot.toNat) + o) bs }
    else b
  | .finish =>
    if b.fwUpdate then { b with fwUpdate := false, torn := b.torn.filter fun i => i != 1 - b.slot.toNat } else b

/-- Changes the boot state of a channel reached over MCTP. -/
def modBoot (s : State) (ch : Ch) (f : Boot → Boot) : State :=
  onMctp s (.channel ch) fun s => s.modCh ch fun c => { c with boot := f c.boot }

/-! ### Rows -/

/-- MBX_IDENTITY (R421, code 0x01). -/
def execMbxIdentity (ch : Ch) (w : RegWrite) (s : State) : Host.Outcome State Fault Refusal :=
  .next (if s.hostOk ch then s.onCh ch fun k => k.mailbox w (· == 1) else s)

/-- MBX_CONFIG_READ (R421, code 0x02). -/
def execMbxConfigRead (ch : Ch) (w : RegWrite) (s : State) : Host.Outcome State Fault Refusal :=
  .next (if s.hostOk ch then s.onCh ch fun k => k.mailbox w (· == 2) else s)

/-- MBX_MEASUREMENTS (R421, code 0x03). -/
def execMbxMeasurements (ch : Ch) (w : RegWrite) (s : State) : Host.Outcome State Fault Refusal :=
  .next (if s.hostOk ch then s.onCh ch fun k => k.mailbox w (· == 3) else s)

/-- MBX_UNKNOWN_REQUEST (R421, every other code). -/
def execMbxUnknownRequest (ch : Ch) (w : RegWrite) (s : State) : Host.Outcome State Fault Refusal :=
  .next (if s.hostOk ch then s.onCh ch fun k => k.mailbox w fun c => c == 0 || decide (3 < c) else s)

/-- HSS_BATCH_RESERVE (R414). -/
def execHssBatchReserve (ch : Ch) (written : Bool) (s : State) : Host.Outcome State Fault Refusal :=
  .next (modBoot s ch fun b =>
    let (h, m) := b.hss.reserve b.flash written
    { b with hss := h, flash := m })

/-- HSS_TREE_BUILD (R415). -/
def execHssTreeBuild (ch : Ch) (s : State) : Host.Outcome State Fault Refusal :=
  .next (modBoot s ch fun b =>
    let (h, m) := b.hss.build b.flash
    { b with hss := h, flash := m })

/-- GET_VERSION: version 1.3; the connection begins anew. -/
def execGetVersion (ep : Endpoint) (tr : Transport) (s : State) : Host.Outcome State Fault Refusal :=
  .next (onSpdm s ep tr fun s => (s.setSpdm ep tr {}).say [0x04, 0x13])

/-- GET_CAPABILITIES: CERT_CAP, CHAL_CAP, signed MEAS_CAP (Table 18.7). -/
def execGetCapabilities (ep : Endpoint) (tr : Transport) (s : State) : Host.Outcome State Fault Refusal :=
  .next (onSpdm s ep tr fun s => s.say (0x61 :: toBytes 4 0x16))

/-- NEGOTIATE_ALGORITHMS: ECDSA P-384, SHA-384, SHA-384 measurements (Table 18.7). -/
def execNegotiateAlgorithms (ep : Endpoint) (tr : Transport) (s : State) : Host.Outcome State Fault Refusal :=
  .next (onSpdm s ep tr fun s => s.say (0x63 :: (toBytes 4 0x80 ++ toBytes 4 0x02 ++ toBytes 4 0x04)))

/-- GET_DIGESTS: the digest of slot 0's chain. -/
def execGetDigests (ep : Endpoint) (tr : Transport) (s : State) : Host.Outcome State Fault Refusal :=
  .next (onSpdm s ep tr fun s => s.say (0x01 :: 0x01 :: Config.sha384 (s.certs ep)))

/-- GET_CERTIFICATE: bytes of slot 0's chain from an offset. -/
def execGetCertificate (ep : Endpoint) (tr : Transport) (slot : Byte) (off len : W16) (s : State) :
    Host.Outcome State Fault Refusal :=
  .next (onSpdm s ep tr fun s =>
    if slot != 0 then s.error 1
    else
      let rest := (s.certs ep).drop off.toNat
      let bs := rest.take len.toNat
      s.say ([0x02, slot] ++ toBytes 2 bs.length ++ toBytes 2 (rest.length - bs.length) ++ bs))

/-- CHALLENGE. -/
def execChallenge (ep : Endpoint) (tr : Transport) (slot : Byte) (nonce : List Byte) (s : State) :
    Host.Outcome State Fault Refusal :=
  .next (onSpdm s ep tr fun s => challenge s ep tr slot nonce)

/-- GET_MEASUREMENTS. -/
def execGetMeasurements (ep : Endpoint) (tr : Transport) (index : Byte) (nonce : List Byte) (s : State) :
    Host.Outcome State Fault Refusal :=
  .next (onSpdm s ep tr fun s => getMeasurements s ep tr index nonce)

/-- VENDOR_DEFINED_REQUEST. -/
def execVendorDefinedRequest (ep : Endpoint) (tr : Transport) (code : Byte) (s : State) : Host.Outcome State Fault Refusal :=
  .next (onSpdm s ep tr fun s => vendorDefined s ep tr code)

/-- SPDM_UNSUPPORTED_REQUEST: ERROR UnsupportedRequest. -/
def execSpdmUnsupportedRequest (ep : Endpoint) (tr : Transport) (_code : Byte) (s : State) :
    Host.Outcome State Fault Refusal :=
  .next (onSpdm s ep tr fun s => s.error 7)

/-- MCTP_CONTROL (R422). -/
def execMctpControl (ep : Endpoint) (r : MctpReq) (s : State) : Host.Outcome State Fault Refusal :=
  .next (onMctp s ep fun s => mctpControl s ep r)

/-- PLDM_DISCOVERY (R423). -/
def execPldmDiscovery (ep : Endpoint) (code : Byte) (s : State) : Host.Outcome State Fault Refusal :=
  .next (onMctp s ep fun s => pldmDiscovery s ep code)

/-- PLDM_SENSOR_READ (R423): 0 and the value, or 1 for a sensor that is unavailable. -/
def execPldmSensorRead (ch : Ch) (x : Sensor) (s : State) : Host.Outcome State Fault Refusal :=
  .next (onMctp s (.channel ch) fun s =>
    match s.chans[ch].sensor x with
    | some v => s.say (0 :: toBytes 8 v)
    | none => s.say [1])

/-- PLATFORM_EVENT_MESSAGE (R423). -/
def execPlatformEventMessage (ch : Ch) (s : State) : Host.Outcome State Fault Refusal :=
  .next (onMctp s (.channel ch) fun s => platformEvent s ch)

/-- PLDM_HOLD_EFFECTER (R423). -/
def execPldmHoldEffecter (ch : Ch) (hold : Bool) (s : State) : Host.Outcome State Fault Refusal :=
  .next (modBoot s ch fun b => { b with bmcHold := hold })

/-- PLDM_RESET (R410). -/
def execPldmReset (ch : Ch) (s : State) : Host.Outcome State Fault Refusal :=
  .next (onMctp s (.channel ch) fun s => s.resetChan ch)

/-- PLDM_FIRMWARE_UPDATE (R423). -/
def execPldmFirmwareUpdate (ch : Ch) (u : FwUpdate) (s : State) : Host.Outcome State Fault Refusal :=
  .next (modBoot s ch fun b => b.firmware u)

/-- ACTIVATE_FIRMWARE (R423). -/
def execActivateFirmware (ch : Ch) (s : State) : Host.Outcome State Fault Refusal :=
  .next (modBoot s ch fun b => if b.fwUpdate then b else { b with activated := true })

end Sys2Proof.Machine
end

