-- ==== Sys2Proof/Machine/Module.lean ====
section
/-!
DEFINITION. The module's pins and power (19), the host port and function 0 (18 R410, R420, R424), and the return of the
host port (01 R20).
-/
namespace Sys2Proof.Machine

open Sys2Proof

/-! ### Function 0's registers (Table 18.13) -/

/-- Function 0's registers of a channel at their reset values. -/
def Boot.noFunction0 (b : Boot) : Boot :=
  { b with hostHold := false, flown := false, flAddr := 0, flCmd := 0, flErr := false, flBuf := [] }

/-- The host bridge's PCI Express state and function 0's registers are reset; the port is down (R420). -/
def hostPortReset (s : State) : State :=
  let s := (List.finRange 8).foldl (fun s ch => s.onCh ch fun w => w.tear.mod fun c =>
    { c with boot := c.boot.noFunction0 }) s
  { s with bridge := { s.bridge with hostUp := false, spdmDoe := {} } }

/-- Function 0 answers: the module is powered and out of reset, and the port is up. -/
def State.function0 (s : State) : Bool := s.bridgeOn && s.bridge.hostUp

/-- A write of HBD_CH_CTRL: HOLD, FLOWN while held, then RESET. A claim is refused while a PLDM update runs (R424). -/
def writeChCtrl (s : State) (ch : Ch) (w : RegWrite) : State :=
  if !s.function0 || !touches w 4 then s
  else
    let b := s.chans[ch].boot
    let v := merge w 4 (b2n b.hostHold + 4 * b2n b.flown)
    let byte := w.enable.getLsbD 0
    let flown := if b.life != .held || !byte then b.flown else v.testBit 2 && !(b.fwUpdate && !b.flown)
    let s := s.modCh ch fun c => { c with boot := { b with hostHold := v.testBit 0, flown := flown } }
    if byte && w.value.getLsbD 1 then s.resetChan ch else s

/-! ### The flash through function 0 (R424) -/

/-- A write of HBD_FL_CMD with the row's command, while held and claimed: the register takes it, and it begins unless a
command runs, which goes on alone (log 117). -/
def flashCommand (s : State) (ch : Ch) (w : RegWrite) (code : Nat) : State :=
  let b := s.chans[ch].boot
  let v := merge w 4 b.flCmd.toNat % 8
  if !s.function0 || !w.enable.getLsbD 0 || b.life != .held || !b.flown || v != code then s
  else if b.flBusy then s.modCh ch fun c => { c with boot := { b with flCmd := BitVec.ofNat 3 code } }
  else
    s.modCh ch fun c => { c with boot := { b with
      flCmd := BitVec.ofNat 3 code, flOp := BitVec.ofNat 3 code, flAt := b.flAddr, flBusy := true } }

/-- The command of function 0 finishes; one that is refused sets ERR and changes nothing. -/
def flashDone (w : Wk) : Wk :=
  let b := w.c.boot
  if !b.flBusy then w
  else
    let a := b.flAt.toNat
    -- the bytes, and no longer an update left unfinished, say what a slot that function 0 writes holds
    let rest := b.torn.filter fun i => !(slotAt a).contains i
    let b' :=
      if b.flashRefused then { b with flErr := true }
      else if b.flOp = 1 then
        let bs := b.flashBytes (1 + w.ch.val) a (min 0x1000 (flashSize - a))
        { b with flBuf := Mem.write 0 b.flBuf 0 (bs ++ freeBytes w.ctr (0x1000 - bs.length)) }
      else if b.flOp = 2 then
        { b with flash := b.flash.filter fun c => !(decide (a ≤ c.1) && decide (c.1 < a + 0x10000)), torn := rest }
      else if b.flOp = 3 then { b with flash := Mem.write 0xFF b.flash a (Mem.read 0 b.flBuf 0 0x1000), torn := rest }
      else b
    { w with c := { w.c with boot := { b' with flBusy := false } }, ctr := w.ctr + 1 }

/-! ### Power and module reset (19 R428, R429, R434) -/

/-- Every channel reset and left in reset, with a change of its own. -/
def State.resetAll (s : State) (f : Channel → Channel) : State :=
  (List.finRange 8).foldl (fun s ch => s.onCh ch fun w => w.reset.mod f) s

/-- The bridge die at reset: its pins stay as they are. -/
def Bridge.afterReset (b : Bridge) : Bridge :=
  { switchClosed := b.switchClosed, tripLatched := b.tripLatched, pgood := b.pgood, modRst := b.modRst, perst := b.perst
    refMode := b.refMode, hostUp := false, drbg := b.drbg.renew, hssLog := b.hssLog, hss := { b.hss.start b.hssLog with off := false } }

/-- Power is lost: memory and every register with it; flash, fuses and the BMC's and host's bits stay as R428 has them. -/
def Channel.powerOff (c : Channel) : Channel :=
  { boot := { c.boot.noFunction0 with memInit := false, bmcHold := false } }

/-- The input switch opens: PGOOD falls and every channel stops without warning. -/
def State.switchOpen (s : State) : State :=
  let s := s.resetAll Channel.powerOff
  { s with bridge := { s.bridge.afterReset with switchClosed := false, pgood := false } }

/-- Every channel leaves reset and boots; the host bridge starts (Table 19.2, intervals 3 to 5). -/
def State.releaseAll (s : State) : State :=
  let s := (List.finRange 8).foldl (fun s ch => s.onCh ch Wk.release) s
  { s with bridge := { s.bridge with hostUp := !s.bridge.perst } }

/-- INPUT_SWITCH_CLOSE: power-up; PFR_TIME starts at 0; MOD_RST_N holds the channels in reset while it is low. -/
def switchClose (s : State) : State :=
  let s := { s with bridge := { s.bridge with switchClosed := true, pgood := true } }
  if s.bridge.modRst then s else s.releaseAll

/-- The bytes of the mailbox and HOLD bit of function 0 fall with a module reset too. -/
def moduleReset (s : State) : State :=
  let s := s.resetAll fun c => { c with boot := c.boot.noFunction0, gov := { c.gov with allow := 450, grant := 450, overalloc := false } }
  { s with bridge := { s.bridge.afterReset with modRst := true } }

/-! ### The host port's return (01 R20) -/

/-- One record goes out, of the function whose turn it is (01 R19). -/
def drainOne (s : State) : State :=
  match (List.finRange 8).find? fun ch => s.chans[ch].hostWaits && s.hostTurn ch with
  | some ch =>
    match (List.finRange 160).find? fun q => s.chans[ch].recordReady q && !s.chans[ch].queues[q].cplLoc with
    | some q => completionRecordWrite s ch q
    | none => s
  | none => s

/-- Records held in all channels. -/
def State.heldRecords (s : State) : Nat :=
  ((List.finRange 8).map fun ch => ((List.finRange 160).map fun q => s.chans[ch].queues[q].waiting.length).sum).sum

/-- The host port returns: what the channels hold, records and MSI-X messages, goes out in rounds over the functions (01 R19,
R20). -/
def hostPortReturn (s : State) : State :=
  (List.range s.heldRecords).foldl (fun s _ => drainOne s)
    ({ s with bridge := { s.bridge with hostUp := true } } : State).sendIrqs

/-! ### Rows -/

/-- INLET_READ (19 R437): the coolant inlet, or 255 for an open or short thermistor. -/
def execInletRead (celsius : Option Nat) (s : State) : Host.Outcome State Fault Refusal :=
  .next (if s.bridgeOn then
      s.modAll fun _ c => c.modGov fun g => { g with tin := match celsius with | some t => BitVec.ofNat 8 (min t 254) | none => 255 }
    else s)

/-- INPUT_SWITCH_CLOSE (19 R428). -/
def execInputSwitchClose (s : State) : Host.Outcome State Fault Refusal :=
  .next (if s.bridge.switchClosed || s.bridge.tripLatched then s else switchClose s)

/-- INPUT_SWITCH_OPEN (19 R428, R434): P44 falls below 38.0 V, or rises above 54 V; the fall ends a latched trip. -/
def execInputSwitchOpen (above : Bool) (s : State) : Host.Outcome State Fault Refusal :=
  let s := if s.bridge.switchClosed then s.switchOpen else s
  .next (if above then s else { s with bridge := { s.bridge with tripLatched := false } })

/-- A logic Tj reads 115 °C or more, or a stack 105 (19 R434). -/
def State.tooHot (s : State) : Bool :=
  (List.finRange 8).any fun ch =>
    s.chans[ch].gov.cores.toList.any (fun k => decide (115 ≤ k.tj.toNat)) ||
    s.chans[ch].stk.toList.any fun t => decide (105 ≤ t.temp.toNat)

/-- THERMAL_TRIP (19 R434). -/
def execThermalTrip (s : State) : Host.Outcome State Fault Refusal :=
  .next (if s.bridge.switchClosed && s.tooHot then
      let s := s.switchOpen
      { s with bridge := { s.bridge with tripLatched := true } }
    else s)

/-- MOD_RST_N_ASSERT (19 R429). -/
def execModRstNAssert (s : State) : Host.Outcome State Fault Refusal :=
  .next (if s.bridge.modRst then s
    else if s.powered then moduleReset s
    else { s with bridge := { s.bridge with modRst := true } })

/-- MOD_RST_N_RELEASE (19 R429). -/
def execModRstNRelease (s : State) : Host.Outcome State Fault Refusal :=
  .next (if !s.bridge.modRst then s
    else
      let s := { s with bridge := { s.bridge with modRst := false } }
      if s.powered then s.releaseAll else s)

/-- PERST_N_ASSERT (19 R430). -/
def execPerstNAssert (s : State) : Host.Outcome State Fault Refusal :=
  .next (if s.bridge.perst then s
    else
      let s := hostPortReset s
      { s with bridge := { s.bridge with perst := true } })

/-- PERST_N_RELEASE (19 R430, R432). -/
def execPerstNRelease (refclk : Bool) (s : State) : Host.Outcome State Fault Refusal :=
  .next (if !s.bridge.perst then s
    else
      let s := { s with bridge := { s.bridge with perst := false, refMode := if refclk then .common else .sris } }
      if s.bridgeOn then hostPortReturn s else s)

/-- HOST_PORT_RESET (18 R420). -/
def execHostPortReset (s : State) : Host.Outcome State Fault Refusal :=
  .next (if s.bridgeOn then hostPortReset s else s)

/-- HOST_PORT_RETURN (01 R20). -/
def execHostPortReturn (s : State) : Host.Outcome State Fault Refusal :=
  .next (if s.bridgeOn && !s.bridge.perst then hostPortReturn s else s)

/-- FUNCTION_LEVEL_RESET of a channel function (18 R410, R420). -/
def execFunctionLevelReset (ch : Ch) (s : State) : Host.Outcome State Fault Refusal :=
  .next (if s.function0 && s.chans[ch].up then s.resetChan ch else s)

/-- A function of the host port (18 Table 18.9): Device ID, bytes of BAR0 and BAR2, MSI-X vectors. -/
structure HostFunction where
  device : W16
  bar0 : Nat
  bar2 : Nat
  vectors : Nat
  deriving DecidableEq, Repr

def hostFunction (fn : Fin 9) : HostFunction :=
  if fn = 0 then ⟨0x5800, 0x10000, 0, 16⟩ else ⟨0x5808, 0x400000, 0x10000000, 64⟩

/-- CONFIG_REQUEST (18 R420): answered with PCI Express's completion status, 0 success, 1 UR, 2 CRS; with success the
function's Device ID (Table 18.9; log 119). -/
def execConfigRequest (ch : Ch) (s : State) : Host.Outcome State Fault Refusal :=
  .next (if s.function0 then
      match s.chans[ch].boot.life with
      | .running => s.say (0 :: toBytes 2 (hostFunction 1).device.toNat)
      | .held => s.say [1]
      | .reset | .booting => s.say [2]
    else s)

/-- BOOT_CTRL_RESET (18 R410, Table 18.12): 0xA5 resets the channel. -/
def execBootCtrlReset (ch : Ch) (w : RegWrite) (s : State) : Host.Outcome State Fault Refusal :=
  .next (if s.hostOk ch && w.enable.getLsbD 0 && enabledBits w 1 == 0xA5 then s.resetChan ch else s)

/-- HBD_CH_RESET (18 R410, Table 18.13): a write of HBD_CH_CTRL. -/
def execHbdChReset (ch : Ch) (w : RegWrite) (s : State) : Host.Outcome State Fault Refusal := .next (writeChCtrl s ch w)

/-- HBD_CH_HOLD (18 R410): a write of HBD_CH_CTRL. -/
def execHbdChHold (ch : Ch) (w : RegWrite) (s : State) : Host.Outcome State Fault Refusal := .next (writeChCtrl s ch w)

/-- FLOWN_CLAIM (18 R424): a write of HBD_CH_CTRL. -/
def execFlownClaim (ch : Ch) (w : RegWrite) (s : State) : Host.Outcome State Fault Refusal := .next (writeChCtrl s ch w)

/-- FLASH_READ (18 R424, CMD 1). -/
def execFlashRead (ch : Ch) (w : RegWrite) (s : State) : Host.Outcome State Fault Refusal := .next (flashCommand s ch w 1)

/-- FLASH_ERASE (18 R424, CMD 2). -/
def execFlashErase (ch : Ch) (w : RegWrite) (s : State) : Host.Outcome State Fault Refusal := .next (flashCommand s ch w 2)

/-- FLASH_PROGRAM (18 R424, CMD 3). -/
def execFlashProgram (ch : Ch) (w : RegWrite) (s : State) : Host.Outcome State Fault Refusal := .next (flashCommand s ch w 3)

/-- FLASH_COMMAND_DONE (18 R424). -/
def execFlashCommandDone (ch : Ch) (s : State) : Host.Outcome State Fault Refusal :=
  .next (if s.powered then s.onCh ch flashDone else s)

end Sys2Proof.Machine
end

