-- ==== Sys2Proof/Machine/Registers.lean ====
section
/-!
DEFINITION. BAR0 of a channel function as the host reads it (02 R54, R442): the value of every register of the spec's
register tables, by its offset. A read has no side effect and is no command of the block.
-/
namespace Sys2Proof.Machine

open Sys2Proof

/-- A register: its size in bytes and its value. -/
abbrev Reg := Option (Nat × Nat)

def r4 (v : Nat) : Reg := some (4, v)
def r8 (v : Nat) : Reg := some (8, v)

/-- A queue block (02 Table 2.12). -/
def Channel.queueReg (c : Channel) (q : QIdx) (o : Nat) : Reg :=
  let x := c.queues[q]
  let v (n : Nat) : Nat := if reservedQ q then 0 else n
  match o with
  | 0x00 => r8 (v x.base.toNat)
  | 0x08 => r4 (v x.log2.toNat)
  | 0x10 => r4 (v x.pi.toNat)
  | 0x14 => r4 (v x.ci.toNat)
  | 0x18 => r8 (v (x.cplAddr.toNat + b2n x.cplLoc))
  | 0x20 => r4 (v x.cplLog2.toNat)
  | 0x24 => r4 (v x.cplPi.toNat)
  | 0x28 => r4 (v x.cplCi.toNat)
  | 0x30 => r4 (v (x.irqv.toNat * 2 ^ 16 + b2n x.enable))
  | 0x34 => r4 (v (c.stateQ q + 8 * b2n x.ringBad + 256 * b2n x.piBack + 512 * b2n x.piOver + 1024 * b2n x.ciBad))
  | 0x38 => r4 (v x.faultSeq.toNat)
  | _ => none

/-- Numeric monitor (06 Table 6.11). -/
def Nmon.reg (n : Nmon) (o : Nat) : Reg :=
  match o with
  | 0x00 => r4 n.step.toNat
  | 0x08 => r8 n.lstBase.toNat
  | 0x10 => r4 n.lstCount.toNat
  | 0x18 => r8 n.watchBase.toNat
  | 0x20 => r8 n.trkBase.toNat
  | 0x28 => r4 n.trkCount.toNat
  | 0x30 => r8 n.evrBase.toNat
  | 0x38 => r4 n.evrLog2.toNat
  | 0x3C => r4 n.evrPi.toNat
  | 0x40 => r4 n.evrCi.toNat
  | 0x44 => r4 n.evrLost.toNat
  | 0x48 => r4 (n.njdn.toNat * 2 ^ 16 + n.njup.toNat)
  | 0x4C => r4 n.warm.toNat
  | 0x50 => r4 (n.irqv.toNat * 2 ^ 16 + b2n n.irqen)
  | 0x54 => r4 (b2n n.evrOvf + 2 * b2n n.layerOor + 4 * b2n n.ciBad + 8 * b2n n.fold)
  | 0x58 => r4 n.gbad.toNat
  | 0x5C => r4 n.gclean.toNat
  | _ => none

/-- Units that the commands of a core's array engine hold. -/
def Channel.heldUnits (c : Channel) (k : Core) : List ArrUnit :=
  (c.running.filter fun r => srcEngine r.src == some (.array k)).flatMap fun r => c.unitsOf r.cmd

/-- Freeze and Thaw (06 Tables 6.12, 6.13). -/
def Channel.freezeReg (c : Channel) (k : Core) (o : Nat) : Reg :=
  let t := c.cores[k].conv
  let us := c.heldUnits k
  match o with
  | 0x00 => r4 (b2n (us.contains .fz0) + 2 * b2n (us.contains .fz1a) + 4 * b2n (us.contains .fz1b) +
      8 * b2n (us.contains .rotator))
  | 0x08 => r8 t.fz0Sat.toNat
  | 0x10 => r8 t.fz0Sb.toNat
  | 0x18 => r8 t.fz1Sat.toNat
  | 0x20 => r8 t.fz1Sb.toNat
  | 0x28 => r8 (t.pois1.toNat * 2 ^ 32 + t.pois0.toNat)
  | _ => none

def Channel.thawReg (c : Channel) (k : Core) (o : Nat) : Reg :=
  let t := c.cores[k].conv
  match o with
  | 0x00 => r4 (b2n ((c.heldUnits k).contains .thaw))
  | 0x08 => r8 t.thEl.toNat
  | 0x10 => r8 (t.thClamp.toNat * 2 ^ 32 + t.thExc.toNat)
  | _ => none

/-- Sastrugi (08 Table 8.4). -/
def Sas.reg (x : Sas) (o : Nat) : Reg :=
  match o with
  | 0x00 => r8 x.lseed.toNat
  | 0x08 => r4 x.epoch.toNat
  | 0x0C => r4 (b2n x.zfix)
  | 0x10 => r4 9728
  | _ => none

/-- Moraine (07 Table 7.9). -/
def Channel.moraineReg (c : Channel) (k : Core) (o : Nat) : Reg :=
  let m := c.cores[k].mor
  let busy := c.running.any fun r => srcEngine r.src == some (.moraine k)
  match o with
  | 0x00 => r4 (1024 * 256 + 128)
  | 0x04 => r4 (b2n busy + 2 * b2n m.waitacc + 4 * b2n (m.pause && !busy) + 256 * b2n m.permr + 512 * b2n m.vlclamp +
      1024 * b2n m.rseed)
  | 0x08 => r4 (b2n m.pause)
  | 0x10 => r8 m.elTotal.toNat
  | 0x18 => r4 m.permTotal.toNat
  | _ => none

def slotCode : SlotSt → Nat
  | .empty => 0
  | .filling => 1
  | .full => 2
  | .faulted => 3
  | .cancelled => 4

/-- A stream context (12 Table 12.5). -/
def Ctx.reg (x : Ctx) (o : Nat) : Reg :=
  let oldest := (x.heldOrder.head?).map x.slot
  match o with
  | 0x00 => r4 (x.ruse.toNat * 2 ^ 20 + x.nslot.toNat * 2 ^ 8 + ctxModeCode x.mode)
  | 0x08 => r8 x.base.toNat
  | 0x10 => r4 x.size.toNat
  | 0x14 => r4 (x.mask.toNat * 256 + x.fullsem.toNat)
  | 0x18 => r4 (x.head.toNat * 2 ^ 16 + x.tail.toNat)
  | 0x1C => r4 (x.state + 8 * b2n (decide (0 < x.heldCount)) + 16 * b2n x.cfgerr +
      256 * ((oldest.map fun s => s.heldStatus.toNat).getD 0))
  | 0x20 => r8 ((x.slots.findSome? fun s => s.halted.map Prod.fst).getD 0)
  | 0x28 => r8 ((oldest.map fun s => s.heldAddr.toNat).getD 0)
  | 0x30 => r8 ((x.slots.zipIdx.map fun (s, i) => slotCode s.st * 8 ^ i).sum)
  | 0x38 => r8 (x.steps.toNat * 2 ^ 32 + x.rounds.toNat)
  | _ => none

/-- Esker of a core (12 Table 12.4). -/
def Channel.eskerReg (c : Channel) (k : Core) (o : Nat) : Reg :=
  let e := c.cores[k].esk
  let run (q : Nat) : Option Running :=
    c.running.find? fun r => match r.src with | .queue i => i.val == 16 * k.val + 8 + q | .input _ => false
  let bitsOf (p : Running → Bool) : Nat := ((List.range 4).map fun q => b2n ((run q).any p) * 2 ^ q).sum
  let pos (q : Nat) : Reg := r8 ((((run q).bind fun r => r.halted).map Prod.fst).getD 0)
  if 0x100 ≤ o then e.ctxs[Fin.ofNat 16 ((o - 0x100) / 0x40)].reg (o % 0x40)
  else
    match o with
    | 0x00 => r4 (bitsOf (fun r => r.result.isNone) + 16 * bitsOf fun r => r.halted.isSome)
    | 0x08 => r8 e.bytesTotal.toNat
    | 0x10 => r8 e.mergeTotal.toNat
    | 0x18 => r8 e.helpTotal.toNat
    | 0x20 => r4 e.heldTotal.toNat
    | 0x24 => r4 e.heldDrop.toNat
    | 0x28 => pos 0
    | 0x30 => pos 1
    | 0x38 => pos 2
    | 0x40 => pos 3
    | 0x48 => r4 e.pgtmo.toNat
    | _ => none

/-- Address guard (11 Table 11.5). -/
def Agd.reg (a : Agd) (o : Nat) : Reg :=
  match o with
  | 0x00 => r4 (b2n a.mode)
  | 0x08 => r8 a.ptBase.toNat
  | 0x10 => r8 a.tcHit.toNat
  | 0x18 => r8 a.tcMiss.toNat
  | 0x20 => r4 (a.dfQueue.toNat * 256 + a.dfCause.toNat)
  | 0x28 => r8 a.dfDesc.toNat
  | 0x30 => r4 a.dfCount.toNat
  | 0x34 => r4 (b2n a.df + 2 * b2n a.pterr)
  | _ => none

/-- Messages held for a key with no running command (15 R330): those in the ports' buffers, and those taken from them. -/
def Channel.heldCount (c : Channel) : Nat :=
  c.heldMsgs.length + ((List.finRange 4).map fun p => (c.ports[p].open_.filter fun m =>
    m.complete && m.hdr.dst == c.chid && (m.hdr.type == 3 || m.hdr.type == 5) &&
    (c.collOf (redParse m.hdr.src ((m.bytes.drop 32).take m.hdr.length.toNat))).isNone).length).sum

/-- Confluence (15 Table 15.7). -/
def Channel.cflReg (c : Channel) (o : Nat) : Reg :=
  let x := c.cfl
  let busy := ((List.finRange 160).map fun q =>
    if 128 ≤ q.val && q.val < 136 && c.busyQ q then 2 ^ (q.val - 128) else 0).sum
  match o with
  | 0x00 => r4 (b2n x.nf + 2 * b2n x.dpmis + 4 * b2n x.strag + 8 * b2n x.shmis + 256 * busy)
  | 0x08 => r8 x.redTotal.toNat
  | 0x10 => r8 x.txBytes.toNat
  | 0x18 => r8 x.rxBytes.toNat
  | 0x20 => r4 x.dpSampled.toNat
  | 0x24 => r4 x.dpMismatch.toNat
  | 0x28 => r8 (x.dpmisBucket.toNat * 2 ^ 32 + x.dpmisRid.toNat)
  | 0x30 => r4 x.thr.toNat
  | 0x34 => r4 x.stragTotal.toNat
  | 0x38 => r4 (x.stragChan.toNat * 2 ^ 16 + x.stragWait.toNat)
  | 0x3C => r4 x.barTotal.toNat
  | 0x40 => r4 x.nfTotal.toNat
  | 0x44 => r4 (min c.heldCount 65535)
  | _ => none

def modeCode : PortMode → Nat
  | .off => 0
  | .polvor => 1
  | .ethernet => 2

def portStCode : PortSt → Nat
  | .off => 0
  | .training => 1
  | .up => 2
  | .down => 3
  | .failed => 4

/-- A port and its windows (14 Tables 14.6, 14.7). -/
def PortState.reg (s : PortState) (o : Nat) : Reg :=
  let cr (v : Nat) : Nat := (s.cred.getD v 0).toNat
  if 0x200 ≤ o && o < 0x400 then
    let x := s.wins[Fin.ofNat 16 ((o - 0x200) / 0x20)]
    match o % 0x20 with
    | 0x00 => r8 x.base.toNat
    | 0x08 => r8 x.size.toNat
    | 0x10 => r4 (x.sem.toNat * 256 + 2 * b2n x.rd + b2n x.wr)
    | 0x18 => r8 (x.plen.toNat * 2 ^ 32 + x.net.toNat)
    | _ => none
  else
    match o with
    | 0x00 => r4 (portStCode s.st + 256 * modeCode s.mode + 1024 * b2n s.retryx + 2048 * b2n s.miswire)
    | 0x04 => r4 (s.peerChan.toNat * 2 ^ 16 + s.peerPort.toNat)
    | 0x08 => r8 s.txFlits.toNat
    | 0x10 => r8 s.rxFlits.toNat
    | 0x18 => r8 s.fecCorr.toNat
    | 0x20 => r4 s.fecUnc.toNat
    | 0x24 => r4 s.crcErr.toNat
    | 0x28 => r4 s.replay.toNat
    | 0x2C => r4 (s.wctl.toNat * 2 ^ 24 + s.wmc.toNat * 2 ^ 16 + s.wred.toNat * 2 ^ 8 + s.wdata.toNat)
    | 0x30 => r8 (cr 3 * 2 ^ 48 + cr 2 * 2 ^ 32 + cr 1 * 2 ^ 16 + cr 0)
    | 0x38 => r4 (s.stall.toNat * 2 ^ 16 + s.mctmo.toNat)
    | 0x3C => r4 s.stallDrop.toNat
    | 0x40 => r4 s.lateDrop.toNat
    | 0x44 => r4 s.mcDrop.toNat
    | 0x48 => r4 s.routeDrop.toNat
    | 0x100 => r8 s.ethMac.toNat
    | 0x108 => r4 s.ethIp4.toNat
    | 0x10C => r4 (b2n s.vlanen * 2 ^ 28 + s.vid.toNat * 2 ^ 16 + s.udp.toNat)
    | 0x110 => r8 s.ethRx.toNat
    | 0x118 => r8 s.ethTx.toNat
    | 0x120 => r4 s.ethDrop.toNat
    | 0x124 => r4 s.ethBadchk.toNat
    | _ => none

/-- An Ablation engine (09 Table 9.5). -/
def Channel.ablReg (c : Channel) (a : Stack) (o : Nat) : Reg :=
  let e := c.engines[a]
  match o with
  | 0x00 => r4 (b2n (c.running.any fun r => srcEngine r.src == some (.ablation a)) + 2 * b2n e.nonfin + 4 * b2n e.coll)
  | 0x08 => r8 e.updTotal.toNat
  | 0x10 => r8 e.frzTotal.toNat
  | 0x18 => r8 e.scatTotal.toNat
  | 0x20 => r4 e.nfTotal.toNat
  | _ => none

/-- Ablation of the channel (09 Table 9.6). -/
def Channel.ablChanReg (c : Channel) (o : Nat) : Reg :=
  let a := c.abl
  match o with
  | 0x00 => r8 a.regBase.toNat
  | 0x08 => r4 a.regCount.toNat
  | 0x0C => r4 a.commitVer.toNat
  | 0x10 => r4 (a.rhi.toNat * 2 ^ 16 + a.rlo.toNat)
  | 0x14 => r4 (a.uemax.toNat * 256 + a.uemin.toNat)
  | 0x18 => r4 (b2n a.heldTok.isSome + 2 * b2n (c.regions.any fun h => h.stale))
  | _ => none

/-- Stash entries in use: full ones and recompute ones (10 R232). -/
def Channel.stashUse (c : Channel) (full : Bool) : Nat :=
  (c.stp.att.variants.zipIdx.filter fun (v, i) => v == full && !c.bwdDone i).length

/-- Training (10 Table 10.11). -/
def Channel.stpReg (c : Channel) (o : Nat) : Reg :=
  let x := c.stp
  match o with
  | 0x00 => r4 (stpCode x.st + 16 * b2n x.att.recomp + 32 * b2n x.att.nf + 64 * b2n x.planerr)
  | 0x04 => r4 0
  | 0x08 => r8 x.planBase.toNat
  | 0x10 => r4 x.ver.toNat
  | 0x18 => r8 x.batch.toNat
  | 0x20 => r4 (x.lsclean.toNat * 256 + x.lsexp.toNat)
  | 0x24 => r4 (x.lsmax.toNat * 2 ^ 16 + x.lsmin.toNat * 2 ^ 8 + x.lsinit.toNat)
  | 0x28 => r4 x.lsgrow.toNat
  | 0x2C => r4 (x.skipmax.toNat * 2 ^ 16 + x.skips.toNat)
  | 0x30 => r4 (c.stashUse false * 2 ^ 16 + c.stashUse true)
  | 0x34 => r4 x.recompEv.toNat
  | 0x38 => r4 x.recompMb.toNat
  | 0x3C => r4 x.stall.toNat
  | 0x40 => r4 x.skipTotal.toNat
  | 0x44 => r4 x.rbTotal.toNat
  | _ => none

/-- Faults (16 Table 16.6). -/
def Channel.fltReg (c : Channel) (o : Nat) : Reg :=
  let f := c.flt
  match o with
  | 0x00 => r4 (b2n f.fault + 2 * b2n f.degraded + 4 * b2n f.removed + 8 * b2n f.rebuild +
      16 * b2n (f.drift.acting || f.field.acting) + 32 * b2n (f.drift.standby || f.field.standby) + 64 * b2n f.takeover +
      128 * b2n f.nogroup + 256 * f.fclass.toNat)
  | 0x04 => r4 f.mgen.toNat
  | 0x08 => r4 (f.hbtmo.toNat * 2 ^ 16 + f.hbint.toNat)
  | 0x0C => r4 f.linktmo.toNat
  | 0x10 => r4 (c.frz.master.toNat + 2 ^ 8 * c.frz.ctx.toNat + 2 ^ 12 * b2n c.frz.ctxv + 2 ^ 13 * b2n c.frz.write)
  | 0x14 => r4 c.frz.count.toNat
  | 0x18 => r8 c.frz.addr.toNat
  | 0x20 => r4 (f.repl.toNat * 2 ^ 16 + f.pos.toNat * 2 ^ 8 + f.g.toNat)
  | 0x28 => r8 f.stripeLen.toNat
  | 0x30 => r8 f.stripeBase.toNat
  | 0x38 => r8 f.rebuildTotal.toNat
  | 0x40 => r8 f.serveTotal.toNat
  | 0x48 => r4 f.recovLast.toNat
  | 0x4C => r4 f.wdog.toNat
  | 0x50 => r8 f.mtabBase.toNat
  | 0x58 => r4 ((if f.drift.acting || f.drift.standby then f.drift.table.length else 0) +
      (if f.field.acting || f.field.standby then f.field.table.length else 0))
  | _ => none

def pllCode : PllSt → Nat
  | .cold => 0
  | .warm => 1
  | .hot => 2

/-- Katabatic (17 Table 17.7). -/
def Channel.govReg (c : Channel) (o : Nat) : Reg :=
  let g := c.gov
  if 0x20 ≤ o && o < 0x40 && o % 4 = 0 then
    let k := g.cores[Fin.ofNat 8 ((o - 0x20) / 4)]
    r4 (k.voff.toNat * 2 ^ 24 + k.tj.toNat * 2 ^ 16 + pllCode k.pll * 2 ^ 14 + k.fmax.toNat * 2 ^ 7 + k.f.toNat)
  else
    match o with
    | 0x00 => r4 (g.gmode.toNat + 4 * b2n (g.borrowed != 0) + 8 * b2n (g.lent != 0) + 16 * b2n (g.thcut != 0) +
        32 * b2n g.noarb + 64 * b2n g.overalloc + 128 * b2n g.backstop +
        256 * (g.cores.toList.zipIdx.map fun (k, i) => b2n (k.fmax != 0 && decide (k.fmax.toNat < 76)) * 2 ^ i).sum)
    | 0x04 => r4 (g.loanch.toNat * 2 ^ 16 + g.ftop.toNat * 2 ^ 9 + b2n g.lend * 2 ^ 8 + g.thpol.toNat)
    | 0x08 => r4 g.allow.toNat
    | 0x0C => r4 (g.borrowed.toNat * 2 ^ 16 + g.grant.toNat)
    | 0x10 => r4 g.lent.toNat
    | 0x14 => r4 g.p1ms.toNat
    | 0x18 => r4 g.p1s.toNat
    | 0x1C => r4 (g.fsus.toNat * 2 ^ 24 + c.fceilNow * 2 ^ 16 + g.fpow.toNat * 2 ^ 8 + g.fg.toNat)
    | 0x40 => r8 g.droopTotal.toNat
    | 0x48 => r4 g.backstopTotal.toNat
    | 0x4C => r4 g.recallTotal.toNat
    | 0x50 => r4 (g.thcut.toNat * 256 + g.tin.toNat)
    | 0x54 => r4 g.colddly.toNat
    | 0x58 => r8 g.energy.toNat
    | _ => none

/-- Permafrost (17 Table 17.8). PFR_TIME as last sampled (log 16). -/
def Gov.pfrReg (g : Gov) (o : Nat) : Reg :=
  match o with
  | 0x00 => r8 g.time.toNat
  | 0x08 => r8 g.resetTime.toNat
  | 0x10 => r8 g.wakeTotal.toNat
  | _ => none

/-- A stack (13 Table 13.4). -/
def StackState.reg (t : StackState) (o : Nat) : Reg :=
  match o with
  | 0x00 => r4 (t.temp.toNat + 2 ^ 8 * t.tmax.toNat + 2 ^ 16 * t.tf.toNat + 2 ^ 24 * b2n t.ref2x +
      2 ^ 25 * b2n (decide (t.tf.toNat < 16)) + 2 ^ 26 * b2n t.overtemp)
  | 0x08 => r8 t.ceTotal.toNat
  | 0x10 => r4 t.ueTotal.toNat
  | 0x18 => r8 t.ueAddr.toNat
  | 0x20 => r4 (b2n t.badValid * 2 ^ 31 + t.badSlice.toNat * 2 ^ 7 + t.badSymbol.toNat)
  | 0x28 => r4 t.scrub.toNat
  | 0x2C => r4 (b2n t.stUe + 2 * b2n t.stOvertemp + 4 * b2n t.stBadconn)
  | _ => none

/-- A Névé (13 Table 13.5). -/
def NeveState.reg (n : NeveState) (o : Nat) : Reg :=
  match o with
  | 0x00 => r8 n.ceTotal.toNat
  | 0x08 => r4 n.ueTotal.toNat
  | 0x10 => r8 n.ueAddr.toNat
  | 0x18 => r8 n.waitTotal.toNat
  | 0x20 => r4 (b2n n.stUe)
  | _ => none

/-- Identity, boot and mailbox (18 Tables 18.11, 18.12). -/
def Boot.reg (b : Boot) (o : Nat) : Reg :=
  if o < 0x40 then (if o % 8 = 0 then r8 (fld b.identityRecord o 8) else none)
  else if 0x1B800 ≤ o && o < 0x1BC00 then (if o % 8 = 0 then r8 (ofBytes (Mem.read 0 b.mbxReq (o - 0x1B800) 8)) else none)
  else if 0x1BC00 ≤ o && o < 0x1C000 then (if o % 8 = 0 then r8 (ofBytes (Mem.read 0 b.mbxRsp (o - 0x1BC00) 8)) else none)
  else
    match o with
    | 0x100 => r4 b.status
    | 0x104 => r4 0
    | 0x108 => r4 (b2n b.svnup + 2 * b2n b.hss.off)
    | 0x1B000 => r8 b.stageBase.toNat
    | 0x1B100 => r4 0
    | 0x1B104 => r4 (b2n b.mbxBusy + 2 * b2n b.mbxOvr + 256 * b.mbxCode.toNat)
    | _ => none

/-- The register of a channel function that begins at a BAR0 offset (02 Table 2.11). -/
def Channel.reg (c : Channel) (o : Nat) : Reg :=
  if o < 0x10000 then c.boot.reg o
  else if h : o < 0x1A000 then c.queueReg ⟨(o - 0x10000) / 0x100, by omega⟩ (o % 0x100)
  else if o < 0x1B000 then
    (if o % 0x10 = 0 then r4 (c.semVal (BitVec.ofNat 8 ((o - 0x1A000) / 0x10))).toNat
      else if o % 0x10 = 4 || o % 0x10 = 8 || o % 0x10 = 12 then r4 0 else none)
  else if o < 0x20000 then c.boot.reg o
  else if o < 0x21000 then c.nmon.reg (o % 0x1000)
  else if o < 0x22000 then (if o % 0x1000 < 0x800 then c.freezeReg (Fin.ofNat 8 (o % 0x1000 / 0x100)) (o % 0x100) else none)
  else if o < 0x23000 then (if o % 0x1000 < 0x200 then c.thawReg (Fin.ofNat 8 (o % 0x1000 / 0x40)) (o % 0x40) else none)
  else if o < 0x40000 then c.sas.reg (o - 0x23000)
  else if o < 0x50000 then (if o - 0x40000 < 0x800 then c.moraineReg (Fin.ofNat 8 ((o - 0x40000) / 0x100)) (o % 0x100) else none)
  else if o < 0x58000 then (if o % 0x1000 < 0x500 then c.eskerReg (Fin.ofNat 8 ((o - 0x50000) / 0x1000)) (o % 0x1000) else none)
  else if 0x70000 ≤ o && o < 0x80000 then c.agd.reg (o - 0x70000)
  else if 0x80000 ≤ o && o < 0xA0000 then c.cflReg (o - 0x80000)
  else if 0xA0000 ≤ o && o < 0xA4000 then c.ports[(Fin.ofNat 4 ((o - 0xA0000) / 0x1000))].reg (o % 0x1000)
  else if 0xB0000 ≤ o && o < 0xB0400 then c.ablReg (Fin.ofNat 4 ((o - 0xB0000) / 0x100)) (o % 0x100)
  else if 0xB0400 ≤ o && o < 0xB1000 then c.ablChanReg (o - 0xB0400)
  else if 0xB1000 ≤ o && o < 0xB2000 then c.stpReg (o - 0xB1000)
  else if 0xB2000 ≤ o && o < 0xB3000 then c.fltReg (o - 0xB2000)
  else if 0xC0000 ≤ o && o < 0xD0000 then c.govReg (o - 0xC0000)
  else if 0xD0000 ≤ o && o < 0xE0000 then c.gov.pfrReg (o - 0xD0000)
  else if 0xE0000 ≤ o && o < 0xE0400 then c.stk[(Fin.ofNat 4 ((o - 0xE0000) / 0x100))].reg (o % 0x100)
  else if 0xE0800 ≤ o && o < 0xE0A00 then c.cores[(Fin.ofNat 8 ((o - 0xE0800) / 0x40))].neve.reg (o % 0x40)
  else none

/-- Where a byte offset lies: the register's first offset, size and value. -/
def Channel.regAt (c : Channel) (o : Nat) : Option (Nat × Nat × Nat) :=
  let a := o - o % 4
  match c.reg a with
  | some (n, v) => some (a, n, v)
  | none =>
    let b := o - o % 8
    match c.reg b with
    | some (8, v) => some (b, 8, v)
    | _ => none

/-- A naturally aligned access of n bytes lies within the register (02 R442). -/
def accessOk (o n base size : Nat) : Bool := (n == 1 || n == 2 || n == 4 || n == 8) && o % n == 0 && decide (o + n ≤ base + size)

/-- A BAR0 read of n bytes at offset o, where R442 permits it (02 R442); a reserved offset reads zero, and a frozen host
function reads all ones (16 R356). -/
def Channel.bar0 (c : Channel) (o n : Nat) : Option Nat :=
  if c.isFrozen .host then (if accessOk o n 0 0x400000 then some (256 ^ n - 1) else none)
  else match c.regAt o with
  | some (b, size, v) => if accessOk o n b size then some (v / 256 ^ (o - b) % 256 ^ n) else none
  | none => if accessOk o n 0 0x400000 then some 0 else none

end Sys2Proof.Machine
end

