-- ==== Sys2Proof/Machine/HostPort.lean ====
section
/-!
DEFINITION. The host's accesses (02 R54, R55, R442): BAR2, the registers with rows of their own that no other file
writes, and every other writable register through REGISTER_WRITE.
-/
namespace Sys2Proof.Machine

open Sys2Proof

/-! ### BAR2 (R54) -/

/-- All-ones data. -/
def ones (n : Nat) : List Byte := List.replicate n 0xFF

/-- The range lies in DRAM or one Névé window. -/
def stagingOk (a n : Nat) : Bool := inRegion a n && decide (a < regBase)

/-- A BAR2 access at a channel address: the host function is checked as any master is; a violation freezes it. An
access to a stack that has stopped its accesses waits, and is made once it resumes (13 R303). -/
def bar2 (s : State) (ch : Ch) (a n : Nat) (write : Option (List Byte)) : State :=
  let c := s.chans[ch]
  let say (s : State) (bs : List Byte) : State := if write.isSome then s else s.say bs
  if c.isFrozen .host then say s (ones n)
  else if !stagingOk a n then say (s.modCh ch fun c => c.freeze .host a write.isSome) (ones n)
  else if c.stopped a n then s.modCh ch fun c => { c with hostWait := c.hostWait ++ [(a, n, write)] }
  else
    match write with
    | some bs =>
      match c.badIn a bs.length true with
      | some k => s.modCh ch fun c => (((c.wr a bs).noteUe k true).classifyUe k)
      | none => s.modCh ch fun c => c.wr a bs
    | none =>
      match c.badIn a n false with
      | some _ => (s.modCh ch fun c => c.adoriRead [(a, n)]).say (c.rdA a n)
      | none => s.say (c.rd a n)

/-- What waited for a stack that has resumed is done in order: the host's accesses, and a start of training (13 R303). -/
def stackResumed (s : State) (ch : Ch) : State :=
  let c := s.chans[ch]
  let goes (x : Nat × Nat × Option (List Byte)) : Bool := !c.stopped x.1 x.2.1
  let s := if c.hostWait.isEmpty then s else s.modCh ch fun c => { c with hostWait := c.hostWait.filter fun x => !goes x }
  let s := (c.hostWait.filter goes).foldl (fun s x => bar2 s ch x.1 x.2.1 x.2.2) s
  if c.stp.ctrlOwed then modUp s ch fun c => trainingStart c { value := 1, enable := 0xF } else s

/-- The first address of an access at a BAR2 offset (R54, R55). -/
def Channel.bar2Addr (c : Channel) (off : BitVec 28) : Nat := c.boot.stageBase.toNat + off.toNat

/-! ### Registers with rows of their own -/

/-- HBD_STAGE_BASE: 256 MiB aligned. -/
def writeStageBase (c : Channel) (w : RegWrite) : Channel :=
  let v := merge w 8 c.boot.stageBase.toNat
  { c with boot := { c.boot with stageBase := BitVec.ofNat 48 (bits v 47 28 * 2 ^ 28) } }

/-- NMON_EVR_CI: neither ahead of PI nor behind its old value (06 R157). -/
def writeEvrCi (n : Nmon) (w : RegWrite) : Nmon :=
  let v : W32 := BitVec.ofNat 32 (merge w 4 n.evrCi.toNat)
  if !touches w 4 then n
  else if (n.evrPi - v).msb || (v - n.evrCi).msb then { n with ciBad := true }
  else { n with evrCi := v }

/-! ### Every other writable register (R442) -/

/-- A bit after a write of 1 to clear it. -/
def clr (b : Bool) (w : RegWrite) (i : Nat) : Bool := b && !(enabledBits w 8).testBit i

/-- LOG2 of a ring: 6 to 16, any other value reads back as 6. -/
def ringLog2 (v : Nat) : BitVec 5 := if 6 ≤ v % 32 && v % 32 ≤ 16 then BitVec.ofNat 5 v else 6

/-- A queue block: its ring registers while it is disabled and idle (R43), and the RW1C bits of CQ_STATUS. -/
def writeQueue (c : Channel) (q : QIdx) (o : Nat) (w : RegWrite) : Channel :=
  let x := c.queues[q]
  let free := !x.enable && c.stateQ q == 0
  if reservedQ q then c
  else
    match o with
    | 0x00 => if free then c.modQ q fun x => { x with base := BitVec.ofNat 48 (bits (merge w 8 x.base.toNat) 47 12 * 4096) } else c
    | 0x08 => if free then c.modQ q fun x => { x with log2 := ringLog2 (merge w 4 x.log2.toNat) } else c
    | 0x18 =>
      if free then
        c.modQ q fun x =>
          let v := merge w 8 (x.cplAddr.toNat + b2n x.cplLoc)
          { x with cplAddr := BitVec.ofNat 64 (v / 32 * 32), cplLoc := v.testBit 0 }
      else c
    | 0x20 => if free then c.modQ q fun x => { x with cplLog2 := ringLog2 (merge w 4 x.cplLog2.toNat) } else c
    | 0x34 => c.modQ q fun x => { x with
        ringBad := clr x.ringBad w 3, piBack := clr x.piBack w 8, piOver := clr x.piOver w 9, ciBad := clr x.ciBad w 10 }
    | _ => c

/-- The numeric monitor: NMON_CTRL and NMON_STATUS. -/
def writeNmon (n : Nmon) (o : Nat) (w : RegWrite) : Nmon :=
  match o with
  | 0x50 =>
    let v := merge w 4 (n.irqv.toNat * 2 ^ 16 + b2n n.irqen)
    { n with irqv := BitVec.ofNat 6 (bits v 21 16), irqen := v.testBit 0 }
  | 0x54 => { n with evrOvf := clr n.evrOvf w 0, layerOor := clr n.layerOor w 1, ciBad := clr n.ciBad w 2 }
  | _ => n

/-- STP_STATE.PLANERR, and STP_PLAN_BASE while IDLE or DONE. -/
def writeStp (x : Stp) (o : Nat) (w : RegWrite) : Stp :=
  match o with
  | 0x00 => { x with planerr := clr x.planerr w 6 }
  | 0x08 =>
    if x.st = .idle || x.st = .done then
      { x with planBase := BitVec.ofNat 48 (bits (merge w 8 x.planBase.toNat) 47 6 * 64) }
    else x
  | _ => x

/-- A write to the register of a channel function that begins at an offset; registers with a row of their own, and
read-only ones, are left alone. -/
def Channel.writeReg (c : Channel) (o : Nat) (w : RegWrite) : Channel :=
  if h : 0x10000 ≤ o ∧ o < 0x1A000 then writeQueue c ⟨(o - 0x10000) / 0x100, by omega⟩ (o % 0x100) w
  else if 0x1B800 ≤ o && o < 0x1BC00 then
    let a := o - 0x1B800
    let old := ofBytes (Mem.read 0 c.boot.mbxReq a 8)
    { c with boot := { c.boot with mbxReq := Mem.write 0 c.boot.mbxReq a (toBytes 8 (merge w 8 old)) } }
  else if o = 0x1B104 then { c with boot := { c.boot with mbxOvr := clr c.boot.mbxOvr w 1 } }
  else if 0x20000 ≤ o && o < 0x21000 then { c with nmon := writeNmon c.nmon (o - 0x20000) w }
  else if o = 0x2300C then { c with sas := { c.sas with zfix := clr c.sas.zfix w 0 } }
  else if 0x40000 ≤ o && o < 0x40800 && o % 0x100 = 4 then
    c.modCore (Fin.ofNat 8 ((o - 0x40000) / 0x100)) fun k => { k with mor := { k.mor with
      permr := clr k.mor.permr w 8, vlclamp := clr k.mor.vlclamp w 9, rseed := clr k.mor.rseed w 10 } }
  else if 0x50000 ≤ o && o < 0x58000 && 0x100 ≤ o % 0x1000 && o % 0x1000 < 0x500 && o % 0x40 = 0x1C then
    c.modCtx (Fin.ofNat 8 ((o - 0x50000) / 0x1000)) (Fin.ofNat 16 ((o % 0x1000 - 0x100) / 0x40)) fun x =>
      { x with cfgerr := clr x.cfgerr w 4 }
  else if o = 0x70034 then { c with agd := { c.agd with df := clr c.agd.df w 0, pterr := clr c.agd.pterr w 1 } }
  else if o = 0x80000 then
    { c with cfl := { c.cfl with
      nf := clr c.cfl.nf w 0, dpmis := clr c.cfl.dpmis w 1, strag := clr c.cfl.strag w 2, shmis := clr c.cfl.shmis w 3 } }
  else if 0xA0000 ≤ o && o < 0xA4000 && o % 0x1000 = 0 then
    c.modPort (Fin.ofNat 4 ((o - 0xA0000) / 0x1000)) fun s =>
      { s with retryx := clr s.retryx w 10, miswire := clr s.miswire w 11 }
  else if 0xB0000 ≤ o && o < 0xB0400 && o % 0x100 = 0 then
    c.modEng (Fin.ofNat 4 ((o - 0xB0000) / 0x100)) fun e => { e with nonfin := clr e.nonfin w 1, coll := clr e.coll w 2 }
  else if 0xB1000 ≤ o && o < 0xB1100 then { c with stp := writeStp c.stp (o - 0xB1000) w }
  else if o = 0xB2000 then { c with flt := { c.flt with takeover := clr c.flt.takeover w 6 } }
  else if o = 0xC0000 then { c with gov := { c.gov with backstop := clr c.gov.backstop w 7 } }
  else if 0xE0000 ≤ o && o < 0xE0400 && o % 0x100 = 0x2C then
    c.modStack (Fin.ofNat 4 ((o - 0xE0000) / 0x100)) fun t =>
      { t with stUe := clr t.stUe w 0, stOvertemp := clr t.stOvertemp w 1, stBadconn := clr t.stBadconn w 2 }
  else if 0xE0800 ≤ o && o < 0xE0A00 && o % 0x40 = 0x20 then
    c.modCore (Fin.ofNat 8 ((o - 0xE0800) / 0x40)) fun k => { k with neve := { k.neve with stUe := clr k.neve.stUe w 0 } }
  else c

/-- The byte lanes of an access of n bytes at offset d within a register. -/
def lanes (d n : Nat) (v : W64) : RegWrite :=
  { value := v <<< (8 * d), enable := BitVec.ofNat 8 ((2 ^ n - 1) * 2 ^ d) }

/-- A register of function 0 (18 Table 18.13): size and value. -/
def State.func0Reg (s : State) (o : Nat) : Reg :=
  if 0x100 ≤ o && o < 0x300 then
    let c := s.chans[(Fin.ofNat 8 ((o - 0x100) / 0x40) : Ch)]
    let b := c.boot
    match (o - 0x100) % 0x40 with
    | 0x00 => r4 (b2n b.hostHold + 4 * b2n b.flown)
    | 0x04 => r4 ((match b.life with | .reset => 0 | .booting => 1 | .held => 2 | .running => 3) + 16 * causeCode b.cause +
        256 * b2n b.bmcHold)
    | 0x08 => r4 b.flAddr.toNat
    | 0x0C => r4 b.flCmd.toNat
    | 0x10 => r4 (b2n b.flBusy + 2 * b2n b.flErr)
    | _ => none
  else if 0x1000 ≤ o && o < 0x9000 then
    let b := s.chans[(Fin.ofNat 8 ((o - 0x1000) / 0x1000) : Ch)].boot
    if o % 8 = 0 then r8 (ofBytes (Mem.read 0 b.flBuf (o % 0x1000) 8)) else none
  else none

/-- A write to function 0: HBD_FL_ADDR while held, HBD_FL_CMD with a value that is no command while held and claimed,
HBD_FL_STAT.ERR, the data buffers. -/
def writeFunc0 (s : State) (o : Nat) (w : RegWrite) : State :=
  if 0x100 ≤ o && o < 0x300 then
    s.modCh (Fin.ofNat 8 ((o - 0x100) / 0x40)) fun c =>
      let b := c.boot
      match (o - 0x100) % 0x40 with
      | 0x08 => if b.life = .held then { c with boot := { b with flAddr := BitVec.ofNat 26 (merge w 4 b.flAddr.toNat) } } else c
      | 0x0C =>
        let v := merge w 4 b.flCmd.toNat % 8
        if b.life = .held && b.flown && !(v == 1 || v == 2 || v == 3) then { c with boot := { b with flCmd := BitVec.ofNat 3 v } }
        else c
      | 0x10 => { c with boot := { b with flErr := clr b.flErr w 1 } }
      | _ => c
  else if 0x1000 ≤ o && o < 0x9000 then
    s.modCh (Fin.ofNat 8 ((o - 0x1000) / 0x1000)) fun c =>
      let a := o % 0x1000
      let old := ofBytes (Mem.read 0 c.boot.flBuf a 8)
      { c with boot := { c.boot with flBuf := Mem.write 0 c.boot.flBuf a (toBytes 8 (merge w 8 old)) } }
  else s

/-- Where a byte offset of function 0 lies: the register's first offset and size. -/
def State.func0At (s : State) (o : Nat) : Option (Nat × Nat) :=
  match s.func0Reg (o - o % 4) with
  | some (n, _) => some (o - o % 4, n)
  | none =>
    match s.func0Reg (o - o % 8) with
    | some (8, _) => some (o - o % 8, 8)
    | _ => none

/-- REGISTER_WRITE: an access that R442 permits reaches its register's byte lanes. -/
def registerWrite (s : State) (fn : Fin 9) (o n : Nat) (v : W64) : State :=
  if h : fn.val = 0 then
    match s.func0At o with
    | some (b, size) => if s.function0 && accessOk o n b size then writeFunc0 s b (lanes (o - b) n v) else s
    | none => s
  else
    let ch : Ch := ⟨fn.val - 1, by omega⟩
    match s.chans[ch].regAt o with
    | some (b, size, _) => if accessOk o n b size then onHost s ch fun c => c.writeReg b (lanes (o - b) n v) else s
    | none => s

/-! ### Rows -/

/-- STACK_TEMP_UPDATE (13 R300 to R303). -/
def execStackTempUpdate (ch : Ch) (i : Stack) (milliC : List Nat) (s : State) : Host.Outcome State Fault Refusal :=
  .next (if s.powered then stackResumed (s.onCh ch fun w => stackTempUpdate w i milliC) ch else s)

/-- HBD_STAGE_BASE_WRITE (R54, R55). -/
def execHbdStageBaseWrite (ch : Ch) (w : RegWrite) (s : State) : Host.Outcome State Fault Refusal :=
  .next (onHost s ch fun c => writeStageBase c w)

/-- BAR2_ACCESS (R54): a write of bytes, or a read of len bytes. -/
def execBar2Access (ch : Ch) (off : BitVec 28) (len : Nat) (write : Option (List Byte)) (s : State) :
    Host.Outcome State Fault Refusal :=
  let n := match write with | some bs => bs.length | none => len
  .next (if s.bridge.hostUp && s.chans[ch].up then bar2 s ch (s.chans[ch].bar2Addr off) n write else s)

/-- NMON_EVR_CI_WRITE (06 R157). -/
def execNmonEvrCiWrite (ch : Ch) (w : RegWrite) (s : State) : Host.Outcome State Fault Refusal :=
  .next (onHost s ch fun c => { c with nmon := writeEvrCi c.nmon w })

/-- MOR_PAUSE (07 R181). -/
def execMorPause (ch : Ch) (k : Core) (w : RegWrite) (s : State) : Host.Outcome State Fault Refusal :=
  .next (onHost s ch fun c => writeMorCtrl c k w)

/-- MOR_UNPAUSE (07 R181). -/
def execMorUnpause (ch : Ch) (k : Core) (w : RegWrite) (s : State) : Host.Outcome State Fault Refusal :=
  .next (onHost s ch fun c => writeMorCtrl c k w)

/-- REGISTER_WRITE (R442). -/
def execRegisterWrite (fn : Fin 9) (off : BitVec 22) (size : Nat) (value : W64) (s : State) :
    Host.Outcome State Fault Refusal :=
  .next (registerWrite s fn off.toNat size value)

end Sys2Proof.Machine
end

