-- ==== Sys2Proof/Machine/Dispatch.lean ====
section
/-!
DEFINITION. One arm per command: its meaning.
-/
namespace Sys2Proof.Machine

open Sys2Proof

/-- The effect of a command on everything but the queue. -/
def exec (i : Instr) (s : State) : Host.Outcome State Fault Refusal :=
  match i with
  | .nop ch src => Sys2Proof.Machine.execNop ch src s
  | .semWait ch src => Sys2Proof.Machine.execSemWait ch src s
  | .semSignal ch src => Sys2Proof.Machine.execSemSignal ch src s
  | .semSet ch src => Sys2Proof.Machine.execSemSet ch src s
  | .flDefine ch src => Sys2Proof.Machine.execFlDefine ch src s
  | .mmFwd ch src => Sys2Proof.Machine.execMmFwd ch src s
  | .mmBwd2 ch src => Sys2Proof.Machine.execMmBwd2 ch src s
  | .mmBwd ch src => Sys2Proof.Machine.execMmBwd ch src s
  | .cvFreeze ch src => Sys2Proof.Machine.execCvFreeze ch src s
  | .cvThaw ch src => Sys2Proof.Machine.execCvThaw ch src s
  | .vxChain ch src => Sys2Proof.Machine.execVxChain ch src s
  | .vxSave ch src => Sys2Proof.Machine.execVxSave ch src s
  | .vxRestore ch src => Sys2Proof.Machine.execVxRestore ch src s
  | .stCopy ch src => Sys2Proof.Machine.execStCopy ch src s
  | .stGather ch src => Sys2Proof.Machine.execStGather ch src s
  | .stScatter ch src => Sys2Proof.Machine.execStScatter ch src s
  | .stPrefetch ch src => Sys2Proof.Machine.execStPrefetch ch src s
  | .stCancel ch src => Sys2Proof.Machine.execStCancel ch src s
  | .stPut ch src => Sys2Proof.Machine.execStPut ch src s
  | .cfReduce ch src => Sys2Proof.Machine.execCfReduce ch src s
  | .cfBcast ch src => Sys2Proof.Machine.execCfBcast ch src s
  | .cfBarrier ch src => Sys2Proof.Machine.execCfBarrier ch src s
  | .abUpdate ch src => Sys2Proof.Machine.execAbUpdate ch src s
  | .abFreeze ch src => Sys2Proof.Machine.execAbFreeze ch src s
  | .abScatter ch src => Sys2Proof.Machine.execAbScatter ch src s
  | .commandStart ch e => Sys2Proof.Machine.execCommandStart ch e s
  | .commandComplete ch src => Sys2Proof.Machine.execCommandComplete ch src s
  | .completionRecordWrite ch q => Sys2Proof.Machine.execCompletionRecordWrite ch q s
  | .floeShareDelivery ch src member => Sys2Proof.Machine.execFloeShareDelivery ch src member s
  | .floeComplete ch src => Sys2Proof.Machine.execFloeComplete ch src s
  | .doorbell ch q w => Sys2Proof.Machine.execDoorbell ch q w s
  | .queueEnable ch q w => Sys2Proof.Machine.execQueueEnable ch q w s
  | .queueDisable ch q w => Sys2Proof.Machine.execQueueDisable ch q w s
  | .queueDrained ch q => Sys2Proof.Machine.execQueueDrained ch q s
  | .queueReset ch q w => Sys2Proof.Machine.execQueueReset ch q w s
  | .queueResume ch q w => Sys2Proof.Machine.execQueueResume ch q w s
  | .cqCplCiWrite ch q w => Sys2Proof.Machine.execCqCplCiWrite ch q w s
  | .cqSemAdd ch sem w => Sys2Proof.Machine.execCqSemAdd ch sem w s
  | .cqSemSet ch sem w => Sys2Proof.Machine.execCqSemSet ch sem w s
  | .hbdStageBaseWrite ch w => Sys2Proof.Machine.execHbdStageBaseWrite ch w s
  | .bar2Access ch off len write => Sys2Proof.Machine.execBar2Access ch off len write s
  | .registerWrite fn off size value => Sys2Proof.Machine.execRegisterWrite fn off size value s
  | .nmonEvrCiWrite ch w => Sys2Proof.Machine.execNmonEvrCiWrite ch w s
  | .morPause ch c w => Sys2Proof.Machine.execMorPause ch c w s
  | .morUnpause ch c w => Sys2Proof.Machine.execMorUnpause ch c w s
  | .bankHandover ch c a => Sys2Proof.Machine.execBankHandover ch c a s
  | .bankRelease ch c a => Sys2Proof.Machine.execBankRelease ch c a s
  | .eskCtxConfig ch c x r w => Sys2Proof.Machine.execEskCtxConfig ch c x r w s
  | .fillLanded ch c x slot => Sys2Proof.Machine.execFillLanded ch c x slot s
  | .helperUnit ch c x slot helper => Sys2Proof.Machine.execHelperUnit ch c x slot helper s
  | .ringRelease ch c x => Sys2Proof.Machine.execRingRelease ch c x s
  | .rotatePush ch c x => Sys2Proof.Machine.execRotatePush ch c x s
  | .rotateSwap ch c x => Sys2Proof.Machine.execRotateSwap ch c x s
  | .pageHalt ch t => Sys2Proof.Machine.execPageHalt ch t s
  | .pageResume ch t entry data => Sys2Proof.Machine.execPageResume ch t entry data s
  | .pgtmoExpiry ch t => Sys2Proof.Machine.execPgtmoExpiry ch t s
  | .pageEntryUpdate ch page entry => Sys2Proof.Machine.execPageEntryUpdate ch page entry s
  | .addressGuardViolation ch m addr write => Sys2Proof.Machine.execAddressGuardViolation ch m addr write s
  | .uncorrectableRead ch r word => Sys2Proof.Machine.execUncorrectableRead ch r word s
  | .badconnMark ch st slice symbol => Sys2Proof.Machine.execBadconnMark ch st slice symbol s
  | .patrolScrub ch st addr errs lastOfPass => Sys2Proof.Machine.execPatrolScrub ch st addr errs lastOfPass s
  | .neveScrub ch c addr errs => Sys2Proof.Machine.execNeveScrub ch c addr errs s
  | .refresh ch st due => Sys2Proof.Machine.execRefresh ch st due s
  | .stackTempUpdate ch st milliC => Sys2Proof.Machine.execStackTempUpdate ch st milliC s
  | .logicCheckFailure ch => Sys2Proof.Machine.execLogicCheckFailure ch s
  | .watchdogExpiry ch => Sys2Proof.Machine.execWatchdogExpiry ch s
  | .linkTrainingDone ch p => Sys2Proof.Machine.execLinkTrainingDone ch p s
  | .linkControlFlit ch p peer peerPort credits v => Sys2Proof.Machine.execLinkControlFlit ch p peer peerPort credits v s
  | .payloadFlit ch p f uncorrectable => Sys2Proof.Machine.execPayloadFlit ch p f uncorrectable s
  | .nackReplay ch p f => Sys2Proof.Machine.execNackReplay ch p f s
  | .ackTimeout ch p => Sys2Proof.Machine.execAckTimeout ch p s
  | .portDown ch p => Sys2Proof.Machine.execPortDown ch p s
  | .portRetrained ch link => Sys2Proof.Machine.execPortRetrained ch link s
  | .messageComplete ch p vc msgid => Sys2Proof.Machine.execMessageComplete ch p vc msgid s
  | .messageForward ch p vc msgid => Sys2Proof.Machine.execMessageForward ch p vc msgid s
  | .mack ch h status => Sys2Proof.Machine.execMack ch h status s
  | .mnack ch n => Sys2Proof.Machine.execMnack ch n s
  | .stalltmoExpiry ch p vc msgid => Sys2Proof.Machine.execStalltmoExpiry ch p vc msgid s
  | .lateFragment ch p f => Sys2Proof.Machine.execLateFragment ch p f s
  | .multicastAck ch st child => Sys2Proof.Machine.execMulticastAck ch st child s
  | .mctmoExpiry ch st child => Sys2Proof.Machine.execMctmoExpiry ch st child s
  | .mdrop ch st first => Sys2Proof.Machine.execMdrop ch st first s
  | .mfetch ch st child first => Sys2Proof.Machine.execMfetch ch st child first s
  | .ethernetFrame ch p f => Sys2Proof.Machine.execEthernetFrame ch p f s
  | .ingestWrite ch p d => Sys2Proof.Machine.execIngestWrite ch p d s
  | .ingestRead ch p d => Sys2Proof.Machine.execIngestRead ch p d s
  | .ingestStalltmoExpiry ch p msg => Sys2Proof.Machine.execIngestStalltmoExpiry ch p msg s
  | .reductionMessage ch m => Sys2Proof.Machine.execReductionMessage ch m s
  | .resultDown ch m => Sys2Proof.Machine.execResultDown ch m s
  | .skewRelease ch src c => Sys2Proof.Machine.execSkewRelease ch src c s
  | .trainingStart ch w => Sys2Proof.Machine.execTrainingStart ch w s
  | .segmentIssue ch k => Sys2Proof.Machine.execSegmentIssue ch k s
  | .forwardAdmission ch => Sys2Proof.Machine.execForwardAdmission ch s
  | .updIssue ch => Sys2Proof.Machine.execUpdIssue ch s
  | .stripeContribution ch unit => Sys2Proof.Machine.execStripeContribution ch unit s
  | .parityContribution ch pos unit isQ data => Sys2Proof.Machine.execParityContribution ch pos unit isQ data s
  | .stepReport ch => Sys2Proof.Machine.execStepReport ch s
  | .reportForward ch l r => Sys2Proof.Machine.execReportForward ch l r s
  | .authorityDecide ch => Sys2Proof.Machine.execAuthorityDecide ch s
  | .mirrorAck arrival => Sys2Proof.Machine.execMirrorAck arrival s
  | .commitToken ch t m => Sys2Proof.Machine.execCommitToken ch t m s
  | .clockVote ch => Sys2Proof.Machine.execClockVote ch s
  | .heldTokenApply ch => Sys2Proof.Machine.execHeldTokenApply ch s
  | .skipToken ch t => Sys2Proof.Machine.execSkipToken ch t s
  | .haltToken ch t => Sys2Proof.Machine.execHaltToken ch t s
  | .rollbackToken ch t => Sys2Proof.Machine.execRollbackToken ch t s
  | .startToken ch t m => Sys2Proof.Machine.execStartToken ch t m s
  | .heartbeatSend ch => Sys2Proof.Machine.execHeartbeatSend ch s
  | .heartbeatReceive ch l h => Sys2Proof.Machine.execHeartbeatReceive ch l h s
  | .heartbeatReply ch h t m => Sys2Proof.Machine.execHeartbeatReply ch h t m s
  | .hbtmoExpiry ch l member => Sys2Proof.Machine.execHbtmoExpiry ch l member s
  | .standbyTakeover ch l => Sys2Proof.Machine.execStandbyTakeover ch l s
  | .mirrorAckTimeout ch l => Sys2Proof.Machine.execMirrorAckTimeout ch l s
  | .newStandby ch m => Sys2Proof.Machine.execNewStandby ch m s
  | .linktmoExpiry ch p => Sys2Proof.Machine.execLinktmoExpiry ch p s
  | .channelFault ch fclass addr => Sys2Proof.Machine.execChannelFault ch fclass addr s
  | .rebuildRequest ch unit requester lost units other => Sys2Proof.Machine.execRebuildRequest ch unit requester lost units other s
  | .rebuildResult ch unit data => Sys2Proof.Machine.execRebuildResult ch unit data s
  | .governorTick ch acts => Sys2Proof.Machine.execGovernorTick ch acts s
  | .pathMonitorMeasure ch c marginOk holdsAt => Sys2Proof.Machine.execPathMonitorMeasure ch c marginOk holdsAt s
  | .ageingRecordWrite ch => Sys2Proof.Machine.execAgeingRecordWrite ch s
  | .powerSample ch deciwatts => Sys2Proof.Machine.execPowerSample ch deciwatts s
  | .backstopStep ch => Sys2Proof.Machine.execBackstopStep ch s
  | .loanRecompute busy => Sys2Proof.Machine.execLoanRecompute busy s
  | .loanRecall ch => Sys2Proof.Machine.execLoanRecall ch s
  | .arbiterSilence ch => Sys2Proof.Machine.execArbiterSilence ch s
  | .thcutUpdate ch => Sys2Proof.Machine.execThcutUpdate ch s
  | .tjSample ch c tj => Sys2Proof.Machine.execTjSample ch c tj s
  | .droopDetect ch c => Sys2Proof.Machine.execDroopDetect ch c s
  | .droopRecover ch c => Sys2Proof.Machine.execDroopRecover ch c s
  | .pllWake ch p => Sys2Proof.Machine.execPllWake ch p s
  | .pllIdle ch p => Sys2Proof.Machine.execPllIdle ch p s
  | .colddlyExpiry ch c => Sys2Proof.Machine.execColddlyExpiry ch c s
  | .arrayRowDisable ch c a => Sys2Proof.Machine.execArrayRowDisable ch c a s
  | .inletRead celsius => Sys2Proof.Machine.execInletRead celsius s
  | .inputSwitchClose => Sys2Proof.Machine.execInputSwitchClose s
  | .inputSwitchOpen aboveRange => Sys2Proof.Machine.execInputSwitchOpen aboveRange s
  | .thermalTrip => Sys2Proof.Machine.execThermalTrip s
  | .modRstNAssert => Sys2Proof.Machine.execModRstNAssert s
  | .modRstNRelease => Sys2Proof.Machine.execModRstNRelease s
  | .perstNAssert => Sys2Proof.Machine.execPerstNAssert s
  | .perstNRelease refclk => Sys2Proof.Machine.execPerstNRelease refclk s
  | .hostPortReset => Sys2Proof.Machine.execHostPortReset s
  | .functionLevelReset ch => Sys2Proof.Machine.execFunctionLevelReset ch s
  | .configRequest ch => Sys2Proof.Machine.execConfigRequest ch s
  | .hostPortReturn => Sys2Proof.Machine.execHostPortReturn s
  | .bootCtrlReset ch w => Sys2Proof.Machine.execBootCtrlReset ch w s
  | .hbdChReset ch w => Sys2Proof.Machine.execHbdChReset ch w s
  | .hbdChHold ch w => Sys2Proof.Machine.execHbdChHold ch w s
  | .flownClaim ch w => Sys2Proof.Machine.execFlownClaim ch w s
  | .flashRead ch w => Sys2Proof.Machine.execFlashRead ch w s
  | .flashErase ch w => Sys2Proof.Machine.execFlashErase ch w s
  | .flashProgram ch w => Sys2Proof.Machine.execFlashProgram ch w s
  | .flashCommandDone ch => Sys2Proof.Machine.execFlashCommandDone ch s
  | .channelBoot ch => Sys2Proof.Machine.execChannelBoot ch s
  | .mbxIdentity ch w => Sys2Proof.Machine.execMbxIdentity ch w s
  | .mbxConfigRead ch w => Sys2Proof.Machine.execMbxConfigRead ch w s
  | .mbxMeasurements ch w => Sys2Proof.Machine.execMbxMeasurements ch w s
  | .mbxUnknownRequest ch w => Sys2Proof.Machine.execMbxUnknownRequest ch w s
  | .hssBatchReserve ch written => Sys2Proof.Machine.execHssBatchReserve ch written s
  | .hssTreeBuild ch => Sys2Proof.Machine.execHssTreeBuild ch s
  | .getVersion ep tr => Sys2Proof.Machine.execGetVersion ep tr s
  | .getCapabilities ep tr => Sys2Proof.Machine.execGetCapabilities ep tr s
  | .negotiateAlgorithms ep tr => Sys2Proof.Machine.execNegotiateAlgorithms ep tr s
  | .getDigests ep tr => Sys2Proof.Machine.execGetDigests ep tr s
  | .getCertificate ep tr slot off len => Sys2Proof.Machine.execGetCertificate ep tr slot off len s
  | .challenge ep tr slot nonce => Sys2Proof.Machine.execChallenge ep tr slot nonce s
  | .getMeasurements ep tr index nonce => Sys2Proof.Machine.execGetMeasurements ep tr index nonce s
  | .vendorDefinedRequest ep tr code => Sys2Proof.Machine.execVendorDefinedRequest ep tr code s
  | .spdmUnsupportedRequest ep tr code => Sys2Proof.Machine.execSpdmUnsupportedRequest ep tr code s
  | .mctpControl ep r => Sys2Proof.Machine.execMctpControl ep r s
  | .pldmDiscovery ep code => Sys2Proof.Machine.execPldmDiscovery ep code s
  | .pldmSensorRead ch src => Sys2Proof.Machine.execPldmSensorRead ch src s
  | .platformEventMessage ch => Sys2Proof.Machine.execPlatformEventMessage ch s
  | .pldmHoldEffecter ch hold => Sys2Proof.Machine.execPldmHoldEffecter ch hold s
  | .pldmReset ch => Sys2Proof.Machine.execPldmReset ch s
  | .pldmFirmwareUpdate ch u => Sys2Proof.Machine.execPldmFirmwareUpdate ch u s
  | .activateFirmware ch => Sys2Proof.Machine.execActivateFirmware ch s
  | .idleFlit ch p f => Sys2Proof.Machine.execIdleFlit ch p f s
  | .newStandbyAck ch l chan => Sys2Proof.Machine.execNewStandbyAck ch l chan s
  | .firstFaultHbtmoExpiry ch => Sys2Proof.Machine.execFirstFaultHbtmoExpiry ch s

end Sys2Proof.Machine
end

