-- ==== Sys2Proof/Safety.lean ====
section
/-!
DEFINITION. The terms that claims about the machine use: the channel a command is of, a channel at work and the state it
leaves, when a command's row has its occasion, and the invariant of the module's pins, host port and host memory.
-/
namespace Sys2Proof.Machine

open Sys2Proof

/-! ### Whose command -/

/-- The channel of an endpoint, if it is a channel's. -/
def endpointChan : Endpoint → Option Ch
  | .bridge => none
  | .channel ch => some ch

/-- The one channel that a command can change; none for the commands of the module, the bridge and the arbiter, and for
the boot of a channel, which moves the grants of all (17 R388). -/
def chanOf : Instr → Option Ch
  | .nop ch _ | .semWait ch _ | .semSignal ch _ | .semSet ch _ | .flDefine ch _ | .mmFwd ch _ | .mmBwd2 ch _
  | .mmBwd ch _ | .cvFreeze ch _ | .cvThaw ch _ | .vxChain ch _ | .vxSave ch _ | .vxRestore ch _ | .stCopy ch _
  | .stGather ch _ | .stScatter ch _ | .stPrefetch ch _ | .stCancel ch _ | .stPut ch _ | .cfReduce ch _ | .cfBcast ch _
  | .cfBarrier ch _ | .abUpdate ch _ | .abFreeze ch _ | .abScatter ch _ | .commandStart ch _ | .commandComplete ch _
  | .completionRecordWrite ch _ | .floeShareDelivery ch _ _ | .floeComplete ch _ | .doorbell ch _ _
  | .queueEnable ch _ _ | .queueDisable ch _ _ | .queueDrained ch _ | .queueReset ch _ _ | .queueResume ch _ _
  | .cqCplCiWrite ch _ _ | .cqSemAdd ch _ _ | .cqSemSet ch _ _ | .hbdStageBaseWrite ch _ | .bar2Access ch _ _ _
  | .nmonEvrCiWrite ch _ | .morPause ch _ _ | .morUnpause ch _ _ | .bankHandover ch _ _ | .bankRelease ch _ _
  | .eskCtxConfig ch _ _ _ _ | .fillLanded ch _ _ _ | .helperUnit ch _ _ _ _ | .ringRelease ch _ _
  | .rotatePush ch _ _ | .rotateSwap ch _ _ | .pageHalt ch _ | .pageResume ch _ _ _ | .pgtmoExpiry ch _
  | .pageEntryUpdate ch _ _ | .addressGuardViolation ch _ _ _ | .uncorrectableRead ch _ _ | .badconnMark ch _ _ _
  | .patrolScrub ch _ _ _ _ | .neveScrub ch _ _ _ | .refresh ch _ _ | .stackTempUpdate ch _ _ | .logicCheckFailure ch
  | .watchdogExpiry ch | .linkTrainingDone ch _ | .linkControlFlit ch _ _ _ _ _ | .payloadFlit ch _ _ _
  | .nackReplay ch _ _ | .ackTimeout ch _ | .portDown ch _ | .portRetrained ch _ | .messageComplete ch _ _ _
  | .messageForward ch _ _ _ | .mack ch _ _ | .mnack ch _ | .stalltmoExpiry ch _ _ _ | .lateFragment ch _ _
  | .multicastAck ch _ _ | .mctmoExpiry ch _ _ | .mdrop ch _ _ | .mfetch ch _ _ _ | .ethernetFrame ch _ _
  | .ingestWrite ch _ _ | .ingestRead ch _ _ | .ingestStalltmoExpiry ch _ _ | .reductionMessage ch _
  | .resultDown ch _ | .skewRelease ch _ _ | .trainingStart ch _ | .segmentIssue ch _ | .forwardAdmission ch
  | .updIssue ch | .stripeContribution ch _ | .parityContribution ch _ _ _ _ | .stepReport ch | .reportForward ch _ _
  | .authorityDecide ch | .mirrorAck ⟨ch, _⟩ | .commitToken ch _ _ | .clockVote ch | .heldTokenApply ch | .skipToken ch _
  | .haltToken ch _ | .rollbackToken ch _ | .startToken ch _ _ | .heartbeatSend ch | .heartbeatReceive ch _ _
  | .heartbeatReply ch _ _ _ | .hbtmoExpiry ch _ _ | .standbyTakeover ch _ | .mirrorAckTimeout ch _ | .newStandby ch _
  | .linktmoExpiry ch _ | .channelFault ch _ _ | .rebuildRequest ch _ _ _ _ _ | .rebuildResult ch _ _
  | .governorTick ch _ | .pathMonitorMeasure ch _ _ _ | .ageingRecordWrite ch | .powerSample ch _ | .backstopStep ch
  | .arbiterSilence ch | .thcutUpdate ch | .tjSample ch _ _ | .droopDetect ch _ | .droopRecover ch _ | .pllWake ch _
  | .pllIdle ch _ | .colddlyExpiry ch _ | .arrayRowDisable ch _ _ | .functionLevelReset ch | .configRequest ch
  | .bootCtrlReset ch _ | .hbdChReset ch _ | .hbdChHold ch _ | .flownClaim ch _ | .flashRead ch _ | .flashErase ch _
  | .flashProgram ch _ | .flashCommandDone ch | .mbxIdentity ch _ | .mbxConfigRead ch _ | .mbxMeasurements ch _
  | .mbxUnknownRequest ch _ | .hssBatchReserve ch _ | .hssTreeBuild ch | .pldmSensorRead ch _
  | .platformEventMessage ch | .pldmHoldEffecter ch _ | .pldmReset ch | .pldmFirmwareUpdate ch _ | .activateFirmware ch
  | .idleFlit ch _ _ | .newStandbyAck ch _ _ | .firstFaultHbtmoExpiry ch => some ch
  | .registerWrite fn _ _ _ => if h : fn.val = 0 then none else some ⟨fn.val - 1, by omega⟩
  | .getVersion ep _ | .getCapabilities ep _ | .negotiateAlgorithms ep _ | .getDigests ep _ | .getCertificate ep _ _ _ _
  | .challenge ep _ _ _ | .getMeasurements ep _ _ _ | .vendorDefinedRequest ep _ _ | .spdmUnsupportedRequest ep _ _
  | .mctpControl ep _ | .pldmDiscovery ep _ => endpointChan ep
  | .channelBoot _ | .loanRecompute _ | .loanRecall _ | .inletRead _ | .inputSwitchClose | .inputSwitchOpen _
  | .thermalTrip | .modRstNAssert | .modRstNRelease | .perstNAssert | .perstNRelease _ | .hostPortReset
  | .hostPortReturn => none

/-! ### A channel at work -/

/-- Channel ch as an operation finds it. -/
def State.work (s : State) (ch : Ch) : Wk := { ch := ch, c := s.chans[ch], ctr := s.freeCtr }

/-- Channel ch as a command's row finds it: no write of it has met an uncorrectable word. -/
def State.fresh (s : State) (ch : Ch) : Wk := (s.work ch).mod Channel.landed

/-- The state that an operation on channel ch leaves behind: its channel, the free values drawn, the MSI-X messages of
function 1 + ch (01 R17). The model's note of a write that met an uncorrectable word is gone with its row. -/
def State.after (s : State) (ch : Ch) (w : Wk) : State :=
  let t := { s with
    chans := s.chans.set ch { w.c with
      poisonHit := s.chans[ch].poisonHit, waitHit := s.chans[ch].waitHit, irqWait := w.c.irqWait ++ w.irqs }
    freeCtr := w.ctr }
  if w.irqs.isEmpty then t else t.sendIrqs

/-- s with another channel ch, and nothing else changed. -/
def State.put (s : State) (ch : Ch) (c : Channel) : State :=
  { s with chans := s.chans.set ch { c with poisonHit := s.chans[ch].poisonHit, waitHit := s.chans[ch].waitHit } }

/-- The command r runs from src on channel ch, has the opcode, and can have its row's effect now: the channel runs, no
result or held result or page halt stands, and the engine is not frozen. -/
structure Runs (s : State) (ch : Ch) (src : Src) (opc : Byte) (r : Running) : Prop where
  up : s.chans[ch].up = true
  run : s.chans[ch].findRun src = some r
  code : r.cmd.opc = opc
  home : srcEngine r.src ≠ some .dispatcher ∨ opc = 0x04
  noResult : r.result = none
  notHeld : r.held = none
  notHalted : r.halted = none
  thawed : s.chans[ch].isFrozen (runMaster r) = false

/-- As Runs, for a command of a core's engine whose staging slots have been checked: its channel and the command as the
check leaves them are c and q (12 R278). `enter` is what the start of the command changes before the check. -/
structure RunsChecked (s : State) (ch : Ch) (src : Src) (opc : Byte) (r : Running) (c : Channel) (q : Running)
    (enter : Wk → Running → Wk := fun w _ => w) : Prop where
  runs : Runs s ch src opc r
  checked : ∃ k, (srcEngine r.src).bind engineCore = some k ∧
    ((r.begun = none ∧ r.checked = false ∧ checkSlots (enter (s.fresh ch) r).c k r = (c, q, none)) ∨
     ((r.begun.isSome = true ∨ r.checked = true) ∧ c = (enter (s.fresh ch) r).c ∧ q = r))

/-- The status with which a source's running command has ended, once it has. -/
def State.statusOf (s : State) (ch : Ch) (src : Src) : Option Byte :=
  (s.chans[ch].findRun src).bind fun r => r.result.map fun res => res.status

/-- The status with which a check that fails ends its command (02 Table 2.6); none for an absent page, at which the
command halts, and for a stopped stack, for which it waits. -/
def errStatus (e : Err) : Option Byte :=
  match e.kind with
  | .fault .. => some 0x13
  | .guard .. | .unmapped .. | .frame .. => some 0x14
  | .ue _ => some 0x16
  | .status code _ => some (BitVec.ofNat 8 code)
  | .absent _ | .wait => none

/-- Memory is sound: no word of it reads as uncorrectable, and no stack has stopped its accesses (13 R295, R303). -/
structure Channel.sound (c : Channel) : Prop where
  words : c.bad = []
  served : ∀ i : Stack, c.stk[i].overtemp = false

/-! ### The sources of an engine -/

/-- The head of queue q can be looked at: the queue is enabled, runs nothing, is neither stopped, frozen, empty nor held
for a completion slot, and no stopped stack holds its head (02 R29, R43, R44, 13 R303). -/
def Channel.offers (c : Channel) (q : QIdx) : Bool :=
  let x := c.queues[q]
  x.enable && !x.stopped && !x.frozen && x.pi != x.ci && !c.busyQ q && !x.cplBlocked && !c.stopped x.headAddr 64

/-- The command at the head of queue q. -/
def Channel.headOf (c : Channel) (q : QIdx) : Command := Command.parse (c.rd c.queues[q].headAddr 64)

/-- The head of queue q can be looked at, read, and belongs to no attempt that was ended (02 R29, 09 R217, 13 R295). -/
def Channel.offersLive (c : Channel) (q : QIdx) : Prop :=
  c.offers q = true ∧ c.badIn c.queues[q].headAddr 64 false = none ∧ c.queues[q].aborts (c.headOf q) = false

/-- The head of queue q waits on its semaphore (02 R30). -/
def Channel.waitsOnSem (c : Channel) (q : QIdx) : Prop :=
  c.offersLive q ∧ (c.headOf q).waiten = true ∧ semOk (c.semVal (c.headOf q).wsem) (c.headOf q).wval = false

/-- The head of queue q is ready, and its engine cannot take it now: its units are held, its Moraine pauses, or a stopped
stack holds the table of its floe (02 R29, 07 R181, 13 R303). -/
def Channel.heldUp (c : Channel) (e : Engine) (q : QIdx) : Prop :=
  c.offersLive q ∧ ((c.headOf q).waiten = true → semOk (c.semVal (c.headOf q).wsem) (c.headOf q).wval = true) ∧
  (c.canStart e (c.headOf q) = false ∨
    e = .dispatcher ∧ c.floeWaits (c.headOf q) (c.headOf q).floe none none false = true)

/-- The engine's dispatch input has no share that could start (01 R12, 02 R29). -/
def Channel.inputIdle (c : Channel) (e : Engine) : Prop :=
  match c.inputs.find? fun p => p.1 == e with
  | none => True
  | some (_, sh) =>
    if e = .dispatcher then c.shareWaits sh = true
    else (c.findRun (.input e)).isSome = true ∨ c.canStart e sh.cmd = false

/-- The channel m that an engine leaves when it has passed over sources in order, none of which can start: a queue that
waits on its semaphore is marked, and Esker has read its descriptors (12 R270); the rest leave nothing. 160 stands for the
dispatch input. -/
inductive PassedOver (e : Engine) : Channel → List Nat → Channel → Prop where
  | done (c : Channel) : PassedOver e c [] c
  | queue (c m : Channel) (q : QIdx) (l : List Nat) : c.offers q = false ∨ c.heldUp e q → PassedOver e c l m →
      PassedOver e c (q.val :: l) m
  | waits (c m : Channel) (q : QIdx) (l : List Nat) (early : List (Nat × List Byte)) : c.waitsOnSem q →
      early = (match e with
        | .esker _ => if c.queues[q].early.isEmpty then captureDescs c (.queue q) (c.headOf q) else c.queues[q].early
        | _ => []) →
      PassedOver e (c.modQ q fun x => { x with semWait := true, early := early }) l m → PassedOver e c (q.val :: l) m
  | input (c m : Channel) (l : List Nat) : c.inputIdle e → PassedOver e c l m → PassedOver e c (160 :: l) m

/-! ### The invariant of the module -/

/-- The pins, the host port and host memory agree: power is good exactly while the input switch is closed (19 R428), a
latched trip keeps the switch open (19 R434), the host port is up only on a powered module out of both resets (19 R429,
R430, 18 R420), no channel has left reset while the bridge is off (19 R428, R429), host memory keeps its canonical form,
and MSI-X messages come from channel functions only (01 R17). -/
structure ModuleOk (s : State) : Prop where
  power : s.bridge.pgood = s.bridge.switchClosed
  trip : s.bridge.tripLatched = true → s.bridge.switchClosed = false
  port : s.bridge.hostUp = true → s.bridgeOn = true ∧ s.bridge.perst = false
  off : s.bridgeOn = false → ∀ ch : Ch, s.chans[ch].boot.life = .reset
  hostMem : Mem.wf 0 s.hostMem
  functions : ∀ m ∈ s.msix, 1 ≤ m.1 ∧ m.1 ≤ 8
  ids : s.bridge.eids.length = 9 ∧ s.bridge.allowKnown.length = 8

end Sys2Proof.Machine
end

