-- ==== Sys2Proof/Certificates/Slice0/Obligations.lean ====
section
/-!
DEFINITION. The statements about the SX8 model: the module as a whole, then its commands in the order of the opcode
table. A completion statement names the next state of a command by the parts of State that the rules change; State.put
and State.after leave every other part as it was.
-/
open Sys2Proof Sys2Proof.Machine

/-! ### The module as a whole -/

/-- A step runs the command at the front of the queue on the rest of it, and idles on an empty queue. The block's form
of "a step runs the decoded instruction"; the idle step is the model's choice (log 35). -/
def Obligations.StepRunsFront : Prop :=
  (∀ (i : Instr) (rest : List Instr) (s : State),
    step { s with pending := i :: rest } = exec i { s with pending := rest }) ∧
  (∀ s : State, s.pending = [] → step s = .next s)

/-- No command, whatever its outcome, changes the queue of waiting commands but by having been taken from it. -/
def Obligations.ExecKeepsQueue : Prop := ∀ (i : Instr) (s t : State), exec i s = .next t → t.pending = s.pending

/-- The machine after reset has the module's invariant. -/
def Obligations.ResetIsModuleOk : Prop := ModuleOk State.reset

/-- From every state in which pins, power, resets, host port and host memory agree, every step gives such a state: no
command closes the switch on a latched trip, lets the host port answer on a module without power or in reset, lets a
channel leave reset there, or breaks the canonical form of host memory. -/
def Obligations.StepKeepsModuleOk : Prop := ∀ s t : State, ModuleOk s → step s = .next t → ModuleOk t

/-- A command of one channel changes nothing of another channel of the module, but that MSI-X messages which wait there
for the host port may go out, the earliest first (that they wait, and in what order they go: logs 82 and 126). -/
def Obligations.ChannelsStayApart : Prop :=
  ∀ (i : Instr) (ch k : Ch) (s t : State), chanOf i = some ch → k ≠ ch → exec i s = .next t →
    t.chans[k] = { s.chans[k] with irqWait := t.chans[k].irqWait } ∧
    ∃ sent, s.chans[k].irqWait = sent ++ t.chans[k].irqWait

/-! ### Encodings -/

/-- The 64 bytes of a command: every field of Table 2.2 is read back as it was written. -/
def Obligations.CommandRoundTrip : Prop := ∀ k : Command, k.bytes.length = 64 ∧ Command.parse k.bytes = k

/-! ### Opcodes (02 to 09, 11, 12, 15) -/

/-- nop, sem.wait and sem.signal end with status 0x00 and change nothing else (the signal follows at completion);
sem.set ends so too and has written A0[63:32] into semaphore A0[7:0]. fl.define ends with status 0x00 where VALID is
set, LEVEL is at most 4, COUNT is 1 to 64, LIST is 4-byte aligned, the identifier is 0x0100 or above and every member
suits LEVEL with all that nests in it, and takes its 32 bytes along; where the entry fails one of these it ends with
status 0x12. The entry stands under A1[15:0], and under no other identifier, once the command completes, and not before.
(A sem.wait without WAITEN ends at once, log 56.) -/
def Obligations.DispatcherOpcodes : Prop :=
  (∀ (s : State) (ch : Ch) (src : Src) (r : Running),
    (Runs s ch src 0x00 r → exec (.nop ch src) s = .next (s.put ch (s.chans[ch].finish r {}))) ∧
    (Runs s ch src 0x01 r → exec (.semWait ch src) s = .next (s.put ch (s.chans[ch].finish r {}))) ∧
    (Runs s ch src 0x02 r → exec (.semSignal ch src) s = .next (s.put ch (s.chans[ch].finish r {}))) ∧
    (Runs s ch src 0x03 r → exec (.semSet ch src) s =
      .next (s.put ch ((s.chans[ch].semSet (BitVec.ofNat 8 r.cmd.a0.toNat)
        (BitVec.ofNat 32 (r.cmd.a0.toNat / 2 ^ 32))).finish r {})))) ∧
  (∀ (s : State) (ch : Ch) (src : Src) (r : Running) (c : Channel) (b : List Byte) (f n list id : Nat),
    Runs s ch src 0x04 r → s.chans[ch] = c →
    c.get (bits r.cmd.a0.toNat 47 0) 32 = .ok b →
    f = fld b 0 1 → n = fld b 1 1 % 128 → list = fld b 8 6 → id = bits r.cmd.a1.toNat 15 0 →
    (f.testBit 0 = true ∧ bits f 3 1 ≤ 4 ∧ 1 ≤ n ∧ n ≤ 64 ∧ list % 4 = 0 ∧ 0x100 ≤ id →
      ∀ l : List Byte, c.get list (4 * n) = .ok l →
      ((∀ i < n, c.memberOk (bits f 3 1)
          ⟨BitVec.ofNat 16 (bits (fld l (4 * i) 4) 31 16), BitVec.ofNat 16 (bits (fld l (4 * i) 4) 15 0)⟩ = .ok true) →
        exec (.flDefine ch src) s = .next (s.put ch (c.finish { r with defines := some (id, b) } {}))) ∧
      ((∀ i < n, ∃ ok, c.memberOk (bits f 3 1)
          ⟨BitVec.ofNat 16 (bits (fld l (4 * i) 4) 31 16), BitVec.ofNat 16 (bits (fld l (4 * i) 4) 15 0)⟩ = .ok ok) →
        (∃ i < n, c.memberOk (bits f 3 1)
          ⟨BitVec.ofNat 16 (bits (fld l (4 * i) 4) 31 16), BitVec.ofNat 16 (bits (fld l (4 * i) 4) 15 0)⟩ = .ok false) →
        exec (.flDefine ch src) s = .next (s.put ch (c.finish r { status := 0x12 })))) ∧
    (¬(f.testBit 0 = true ∧ bits f 3 1 ≤ 4 ∧ 1 ≤ n ∧ n ≤ 64 ∧ list % 4 = 0 ∧ 0x100 ≤ id) →
      exec (.flDefine ch src) s = .next (s.put ch (c.finish r { status := 0x12 })))) ∧
  (∀ (s : State) (ch : Ch) (src : Src) (r : Running) (res : Result) (id : Nat) (b : List Byte),
    s.chans[ch].up = true → s.chans[ch].findRun src = some r → r.result = some res → r.defines = some (id, b) →
    ∃ t, exec (.commandComplete ch src) s = .next t ∧
      ∀ j, t.chans[ch].table.lookup j = if j = id then some b else s.chans[ch].table.lookup j)

/-- mm.fwd, mm.bwd2 and mm.bwd complete wherever their operands pass the checks of their chapters and every block of
them can be read: the products are drained, and the command ends with status 0x00, or with DRAIN 2 holds that result
until its banks are handed over. cv.freeze, cv.thaw, ab.update, ab.freeze and ab.scatter complete wherever their
operands pass the checks of their chapters: the command ends with what the conversion or the engine computes of them,
and the status is 0x00. (A write of the row that meets an uncorrectable word in part, which `settle` finds, ends any of
them with status 0x16.) -/
def Obligations.DataCommandsComplete : Prop :=
  (∀ (s : State) (ch : Ch) (src : Src) (r q : Running) (c d : Channel),
    (∀ o : FwdOps, RunsChecked s ch src 0x10 r c q → fwdOps c q = .ok (o, d) → o.err = none →
      ∃ w res, fwdRun { s.fresh ch with c := d } q o = (w, res) ∧ res.status = 0 ∧
        exec (.mmFwd ch src) s = .next (s.after ch ((productEnd w q (bits q.cmd.a4.toNat 2 1 == 2) res).settle src (s.fresh ch)))) ∧
    (∀ o : Bwd2Ops, RunsChecked s ch src 0x11 r c q → bwd2Ops c q = .ok (o, d) → o.px.err = none → o.pw.err = none →
      ∃ w res, bwd2Run { s.fresh ch with c := d } q o = (w, res) ∧ res.status = 0 ∧
        exec (.mmBwd2 ch src) s =
          .next (s.after ch ((productEnd w q (o.p.drainx == 2 || o.p.drainw == 2) res).settle src (s.fresh ch)))) ∧
    (∀ o : BwdOps, RunsChecked s ch src 0x12 r c q → bwdOps c q = .ok (o, d) → o.pr.err = none →
      ∃ w res, bwdRun { s.fresh ch with c := d } q o = (w, res) ∧ res.status = 0 ∧
        exec (.mmBwd ch src) s = .next (s.after ch ((productEnd w q (o.drain == 2) res).settle src (s.fresh ch))))) ∧
  (∀ (s : State) (ch : Ch) (src : Src) (r q : Running) (c d : Channel),
    (∀ o : ConvOps, RunsChecked s ch src 0x18 r c q → freezeOps c q = .ok (o, d) →
      ∃ w res, freezeRun { s.fresh ch with c := d } q o = (w, res) ∧ res.status = 0 ∧
        exec (.cvFreeze ch src) s = .next (s.after ch ((w.mod fun c => c.finish q res).settle src (s.fresh ch)))) ∧
    (∀ o : ConvOps, RunsChecked s ch src 0x19 r c q → thawOps c q = .ok (o, d) →
      ∃ w res, thawRun { s.fresh ch with c := d } q o = (w, res) ∧ res.status = 0 ∧
        exec (.cvThaw ch src) s = .next (s.after ch ((w.mod fun c => c.finish q res).settle src (s.fresh ch)))) ∧
    (∀ o : UpdOps, Runs s ch src 0x50 r → updOps (s.fresh ch).c r = .ok (o, d) →
      ∃ w res, updRun { s.fresh ch with c := d } r o = (w, res) ∧ res.status = 0 ∧
        exec (.abUpdate ch src) s = .next (s.after ch ((w.mod fun c => c.finish r res).settle src (s.fresh ch)))) ∧
    (∀ o : FrzOps, Runs s ch src 0x51 r →
      frzOps (s.fresh ch).c r.copies (ablOf r) (bits r.cmd.a0.toNat 47 0) (bits r.cmd.a1.toNat 47 0)
        (bits r.cmd.a2.toNat 47 0) r.cmd.a3 = .ok (o, d) →
      ∃ e res, frzRun d r.step (ablOf r) (bits r.cmd.a0.toNat 47 0) (bits r.cmd.a1.toNat 47 0)
          (bits r.cmd.a2.toNat 47 0) r.cmd.a3 o = (e, res) ∧ res.status = 0 ∧
        exec (.abFreeze ch src) s =
          .next (s.after ch (({ s.fresh ch with c := e.finish r res } : Wk).settle src (s.fresh ch)))) ∧
    (∀ o : ScatOps, Runs s ch src 0x52 r → scatOps (s.fresh ch).c r = .ok (o, d) →
      ∃ e res, scatRun d r o = (e, res) ∧ res.status = 0 ∧
        exec (.abScatter ch src) s =
          .next (s.after ch (({ s.fresh ch with c := e.finish r res } : Wk).settle src (s.fresh ch)))))

/-- vx.chain, whose program, ports and port descriptors pass the checks of chapter 07, runs: a capture-driven chain over the
entries of its list, an element walk over its lead, a chain with a MODE 4 port over the banks its array has handed
over that it has not read, for which it waits where there are none. An element walk that neither a STRICT index nor an
error stops ends with status 0x00 in the memory that its strips leave. st.copy, st.gather,
st.scatter and st.put, whose descriptors and lists pass the checks of chapters 11 and 12, move their steps in the
order of the destination; a transpose in place exchanges its blocks two by two; a copy whose steps all move ends with status 0x00, in the memory that they leave, and INFO
tells the bytes moved. st.put to another channel sends its messages. -/
def Obligations.ChainsAndTransfersComplete : Prop :=
  (∀ (s : State) (ch : Ch) (src : Src) (r q : Running) (c : Channel) (o : ChainOps),
    RunsChecked s ch src 0x20 r c q chainEnter → chainOps c q = .ok o →
    (∀ i : IterOps, o.g.iter = true → iterOps c q o = .ok i →
      exec (.vxChain ch src) s = .next (s.after ch ((iterRun { s.fresh ch with c := c } q o i).settle src (s.fresh ch)))) ∧
    (∀ p : PortB, o.g.iter = false → o.g.bankPort = some p →
      (c.banksNow (runCore q) p.array = [] →
        exec (.vxChain ch src) s =
          .next (s.after ch ((banksWait { s.fresh ch with c := c } q o p.array).settle src (s.fresh ch)))) ∧
      (∀ b more, c.banksNow (runCore q) p.array = b :: more →
        banksOps o (bankWalk c q o.x p.array (b :: more)).banks = .ok () →
        exec (.vxChain ch src) s =
          .next (s.after ch ((banksRun { s.fresh ch with c := c } q o p.array (b :: more)).settle src (s.fresh ch))))) ∧
    (∀ lead : Desc, o.g.iter = false → o.g.bankPort = none → o.ds.findSome? id = some lead →
      walkOps q o lead = .ok () →
      ∃ t cs paused, exec (.vxChain ch src) s = .next t ∧
        t = s.after ch ((walkRun { s.fresh ch with c := c } q o lead).settle src (s.fresh ch)) ∧
        (cs, paused) = runStrips o.g o.ds (runCore q) q c.cores[runCore q].mor.pause false
          (chainFrom c (runCore q) o.x s.freeCtr)
          (strips (effVlr o.x.vlr.toNat) (walkEls q o.x lead).length (walkEls q o.x lead)) ∧
        (cs.stop = none → cs.err = none → cs.c.poisonHit = none → cs.c.waitHit = false → o.g.resArea.2 = 0 →
          t.statusOf ch src = some 0x00 ∧ t.chans[ch].mem = cs.c.mem))) ∧
  (∀ (s : State) (ch : Ch) (src : Src) (r q : Running) (c d : Channel) (x y : Desc) (o : GatherOps),
    (RunsChecked s ch src 0x30 r c q → copyOps c q = .ok ((x, y), d) →
      ∃ t, exec (.stCopy ch src) s = .next t ∧
        t = s.after ch ((copyRun { s.fresh ch with c := d } q x y).settle src (s.fresh ch)) ∧
        ∀ (read : StepRead MoveStep) (m : Moved),
          read = (if x.fmt.isWide then wideRead x y q.cmd.a2.toNat else narrowRead x y q.cmd.a2.toNat) →
          m = (if inPlace x y q.cmd.a2.toNat then
              runSteps (exchRead read) none ((d.exchanges q x y q.cmd.a2.toNat).drop (q.begun.getD 0))
                ⟨d, 0, q.part, 0, none⟩
            else runSteps read (copyCut x y (isIdentity x q.cmd.a2.toNat)) ((y.steps q.split).drop (q.begun.getD 0))
              ⟨d, 0, q.part, 0, none⟩) →
          m.err = none → m.c.poisonHit = none → m.c.waitHit = false →
          t.statusOf ch src = some 0x00 ∧ t.chans[ch].mem = m.c.mem ∧
          ((t.chans[ch].findRun src).bind fun p => p.result.map (·.info)) =
            some (BitVec.ofNat 64 ((q.moved + m.bytes) % 2 ^ 40))) ∧
    (RunsChecked s ch src 0x31 r c q → gatherOps false c q = .ok (o, d) →
      exec (.stGather ch src) s = .next (s.after ch ((gatherRun false { s.fresh ch with c := d } q o).settle src (s.fresh ch)))) ∧
    (RunsChecked s ch src 0x32 r c q → gatherOps true c q = .ok (o, d) →
      exec (.stScatter ch src) s = .next (s.after ch ((gatherRun true { s.fresh ch with c := d } q o).settle src (s.fresh ch)))) ∧
    (RunsChecked s ch src 0x35 r c q → q.putDst = c.chid → putLocalOps c q = .ok (x, y) →
      exec (.stPut ch src) s = .next (s.after ch ((putLocalRun { s.fresh ch with c := c } q x y).settle src (s.fresh ch)))) ∧
    (RunsChecked s ch src 0x35 r c q → q.putDst ≠ c.chid → c.desc (bits q.cmd.a0.toNat 47 0) q.copies = .ok x →
      exec (.stPut ch src) s = .next (s.after ch ((putRemoteRun { s.fresh ch with c := c } q x).settle src (s.fresh ch)))))

/-- vx.save stores the live context at A0, 64-byte aligned, in the 2,304 bytes of Table 7.7 (128 lanes), or only clears
LIVE where there is none. vx.restore of a block whose LIVE is 0 leaves no live context, and of a version other than 1
ends with status 0x13; of a live one saved at the same LANES and MVL it makes the saved program, position and flags the
live context and the saved lane states, a zero one as 1, those of the core's lanes. Of one saved at other LANES or MVL it
keeps position and carries, clamps VLR to MVL and sets VLCLAMP where it exceeds it, and where LRS is 1 seeds every lane of
the core anew under the next epoch and sets RSEED; the lanes are else left as they are. -/
def Obligations.ContextSaveRestore : Prop :=
  (∀ (x : MorCtx) (kinds : List Nat), x.lanes.length = 128 → (x.bytes kinds).length = 2304) ∧
  (∀ (s : State) (ch : Ch) (src : Src) (r q : Running) (c : Channel) (a : Nat),
    a = bits r.cmd.a0.toNat 47 0 → q.cmd = r.cmd → q.src = r.src →
    (RunsChecked s ch src 0x21 r c q → a % 64 = 0 → c.liveCtx (runCore q) q.src = none → inRegion a 64 = true →
      c.stopped a 64 = false →
      exec (.vxSave ch src) s =
        .next (s.after ch (({ s.fresh ch with c := (c.putN (a + 58) 1 0).finish q {} } : Wk).settle src (s.fresh ch)))) ∧
    (∀ x : MorCtx, RunsChecked s ch src 0x21 r c q → a % 64 = 0 → c.liveCtx (runCore q) q.src = some x →
      inRegion a 2304 = true → c.stopped a 2304 = false →
      exec (.vxSave ch src) s = .next (s.after ch
        (({ s.fresh ch with c := (c.put a (x.bytes (c.slotKinds x.prog.toNat))).finish q {} } : Wk).settle src (s.fresh ch)))) ∧
    (∀ h : List Byte, RunsChecked s ch src 0x22 r c q → c.getBlock a 256 64 0xF = .ok h → fld h 0 1 = 1 →
      (fld h 58 1).testBit 0 = false →
      exec (.vxRestore ch src) s = .next (s.put ch ((c.setCtx (runCore q) q.src none).finish q {}))) ∧
    (∀ h ls : List Byte, RunsChecked s ch src 0x22 r c q → c.getBlock a 256 64 0xF = .ok h → fld h 0 1 = 1 →
      (fld h 58 1).testBit 0 = true → fld h 1 1 = 128 → fld h 2 2 = MVL → c.get (a + 256) 2048 = .ok ls →
      c.cores[runCore q].mor.live.length = 5 →
      ∃ t x, exec (.vxRestore ch src) s = .next t ∧ t.statusOf ch src = some 0x00 ∧
        t.chans[ch].liveCtx (runCore q) q.src = some x ∧ x.prog = BitVec.ofNat 48 (fld h 16 6) ∧ x.pos = fld h 8 5 ∧
        x.vlr = BitVec.ofNat 16 (fld h 4 2) ∧ x.lrs = (fld h 58 1).testBit 1 ∧
        x.lanes = (List.range 128).map (fun l =>
          if BitVec.ofNat 128 (fld ls (16 * l) 16) = 0 then 1 else BitVec.ofNat 128 (fld ls (16 * l) 16)) ∧
        t.chans[ch].cores[runCore q].lanes.moraine = x.lanes ∧ t.chans[ch].mem = c.mem) ∧
    (∀ (h : List Byte) (k : Core) (clamp reseed : Bool), RunsChecked s ch src 0x22 r c q →
      c.getBlock a 256 64 0xF = .ok h → fld h 0 1 = 1 → (fld h 58 1).testBit 0 = true →
      fld h 1 1 ≠ 128 ∨ fld h 2 2 ≠ MVL → k = runCore q → c.cores[k].mor.live.length = 5 →
      clamp = decide (MVL < fld h 4 2) → reseed = (fld h 58 1).testBit 1 →
      ∃ t d x, exec (.vxRestore ch src) s = .next t ∧ t.statusOf ch src = some 0x00 ∧ t.chans[ch] = d ∧
        d.liveCtx k q.src = some x ∧ x.prog = BitVec.ofNat 48 (fld h 16 6) ∧ x.pos = fld h 8 5 ∧
        x.carries = ((List.range 4).map fun i => Carry.ofBytes ((h.drop (64 + 48 * i)).take 48)) ∧
        x.vlr.toNat = min MVL (fld h 4 2) ∧ x.lrs = reseed ∧
        x.vlclamp = ((fld h 56 2).testBit 1 || clamp) ∧ d.cores[k].mor.vlclamp = (c.cores[k].mor.vlclamp || clamp) ∧
        x.rseed = ((fld h 56 2).testBit 2 || reseed) ∧ d.cores[k].mor.rseed = (c.cores[k].mor.rseed || reseed) ∧
        d.sas.epoch = c.sas.epoch + (if reseed then 1 else 0) ∧ d.sas.zfix = c.sas.zfix ∧
        d.cores[k].lanes.moraine = (if reseed then seedUnit (LaneUnit.moraine k.val) c.sas.lseed d.sas.epoch c.chid
          else c.cores[k].lanes.moraine) ∧
        x.lanes = d.cores[k].lanes.moraine ∧ d.mem = c.mem) ∧
    (∀ h : List Byte, RunsChecked s ch src 0x22 r c q → c.getBlock a 256 64 0xF = .ok h → fld h 0 1 ≠ 1 →
      ∃ t, exec (.vxRestore ch src) s = .next t ∧ t.statusOf ch src = some 0x13))

/-- st.prefetch whose source fits the context starts a fill of a free slot: the slot is FILLING with the source's base
and span, owes its FULLSEM addition last, and in RING mode TAIL moves on; where the slot is not free, or the context is
being cancelled, the command waits and nothing changes. st.cancel of one context that is neither OFF, FROZEN nor
rotating sets its slots to CANCELLED, in RING mode HEAD to TAIL; it ends at once with the counts of prefetches ended and
held faults dropped, and the context is IDLE, where no reader of a slot runs, and else holds that result. -/
def Obligations.PrefetchAndCancel : Prop :=
  ∀ (s : State) (ch : Ch) (src : Src) (r : Running) (c : Channel) (k : Core) (i : Fin 16) (x : Ctx),
    (s.fresh ch).c = c → (srcEngine r.src).bind engineCore = some k → c.cores[k].esk.ctxs[i] = x →
    (∀ (d : Desc) (slot : Nat), Runs s ch src 0x33 r → c.desc (bits r.cmd.a0.toNat 47 0) r.copies = .ok d →
      bits r.cmd.a1.toNat 3 0 = i.val → x.mode ≠ .off → x.frozen = false → d.span ≤ x.size.toNat →
      neveOf d.base ≠ some k.val →
      ((x.mode = .native ∧ slot = bits r.cmd.a1.toNat 15 8 ∧ slot < x.nslot.toNat) ∨
       (x.mode = .ring ∧ slot = x.tail.toNat % x.nslot.toNat) ∨
       (x.mode = .rotate ∧ slot = 0 ∧ bits r.cmd.a1.toNat 15 8 = 0 ∧ x.started = false)) →
      (∀ free : Bool, (free = (((x.slot slot).st == .empty || (x.slot slot).st == .cancelled) &&
          (x.mode != .ring || (x.tail - x.head).toNat != x.nslot.toNat) && !x.cancelling)) →
        (free = true → r.begun = none → ∃ t y,
          exec (.stPrefetch ch src) s = .next t ∧ t.chans[ch].cores[k].esk.ctxs[i] = y ∧
          y.slots = x.slots.modify slot (fun _ => { st := .filling, filler := some r.src, fillBase := d.base
                                                    fillSpan := d.span
                                                    help := x.mode == .native && r.cmd.a2.getLsbD 0 && x.mask != 0 }) ∧
          y.order = x.order ++ [(slot, false)] ∧ y.tail = (if x.mode = .ring then x.tail + 1 else x.tail) ∧
          t.chans[ch].findRun src = some { r with begun := some slot } ∧ t.chans[ch].mem = c.mem) ∧
        (free = false → exec (.stPrefetch ch src) s = .next s))) ∧
    (∀ res : Result, Runs s ch src 0x34 r → (∀ j : Fin 16, r.cmd.a0.getLsbD j.val = decide (j = i)) → x.mode ≠ .off →
      x.mode ≠ .rotate → x.frozen = false → src ∉ (c.prefetches k i).map Running.src →
      res = { info := BitVec.ofNat 64 ((c.prefetches k i).length % 2 ^ 16 + 2 ^ 16 * (x.heldCount % 2 ^ 16)) } →
      ∃ t y, exec (.stCancel ch src) s = .next t ∧ t.chans[ch].cores[k].esk.ctxs[i] = y ∧ t.chans[ch].mem = c.mem ∧
        y.order = [] ∧ y.heldOrder = [] ∧ y.head = (if x.mode = .ring then x.tail else x.head) ∧
        t.chans[ch].cores[k].esk.heldDrop = satAdd c.cores[k].esk.heldDrop x.heldCount ∧ t.chans[ch].sems = c.sems ∧
        (x.inUse = false → y.cancelling = false ∧ (∀ z ∈ y.slots, z.st = .empty ∨ z.st = .cancelled) ∧
          t.chans[ch].findRun src = some { r with result := some res }) ∧
        (x.inUse = true → y.cancelling = true ∧ t.chans[ch].findRun src = some { r with held := some res }))

/-- A check that fails ends its command with the status of Table 2.6, for every opcode whose operands are checked: where
an opcode's checks give an error, its row ends the command with that error's status; an absent page, at which the command
halts, and a stopped stack, for which it waits, leave it without a result. (What a check compares is its chapter's.) Before
them a core's engine checks the blocks that the command names and the slots of the staging window that it touches: one block
off its alignment ends it with 0x13 and the block's address (02 R439), a faulted slot with what the slot holds, a cancelled
one with 0x19, one it may not touch with 0x13 (12 R278), and nothing of it is run. -/
def Obligations.FailedChecksEndCommands : Prop :=
  (∀ (s : State) (ch : Ch) (src : Src) (r q : Running) (c d : Channel) (e : Err) (ended : Instr → Prop),
    (∀ i, ended i ↔ ∃ t, exec i s = .next t ∧ t.statusOf ch src = errStatus e) → d = (s.fresh ch).c →
    (Runs s ch src 0x04 r → flDefine d r = .error e → ended (.flDefine ch src)) ∧
    (RunsChecked s ch src 0x10 r c q → fwdOps c q = .error e → ended (.mmFwd ch src)) ∧
    (RunsChecked s ch src 0x11 r c q → bwd2Ops c q = .error e → ended (.mmBwd2 ch src)) ∧
    (RunsChecked s ch src 0x12 r c q → bwdOps c q = .error e → ended (.mmBwd ch src)) ∧
    (RunsChecked s ch src 0x18 r c q → freezeOps c q = .error e → ended (.cvFreeze ch src)) ∧
    (RunsChecked s ch src 0x19 r c q → thawOps c q = .error e → ended (.cvThaw ch src)) ∧
    (RunsChecked s ch src 0x20 r c q chainEnter → chainOps c q = .error e → ended (.vxChain ch src)) ∧
    (∀ o : ChainOps, RunsChecked s ch src 0x20 r c q chainEnter → chainOps c q = .ok o →
      (o.g.iter = true → iterOps c q o = .error e → ended (.vxChain ch src)) ∧
      (∀ p b more, o.g.iter = false → o.g.bankPort = some p → c.banksNow (runCore q) p.array = b :: more →
        banksOps o (bankWalk c q o.x p.array (b :: more)).banks = .error e → ended (.vxChain ch src)) ∧
      (∀ lead : Desc, o.g.iter = false → o.g.bankPort = none → o.ds.findSome? id = some lead →
        walkOps q o lead = .error e → ended (.vxChain ch src)) ∧
      (o.g.iter = false → o.g.bankPort = none → o.ds.findSome? id = none → errStatus e = some 0x13 →
        ended (.vxChain ch src))) ∧
    (∀ a : Nat, RunsChecked s ch src 0x21 r c q → a = bits q.cmd.a0.toNat 47 0 →
      (a % 64 ≠ 0 → errStatus e = some 0x13 → ended (.vxSave ch src)) ∧
      (a % 64 = 0 → inRegion a 64 = false → errStatus e = some 0x14 → ended (.vxSave ch src))) ∧
    (RunsChecked s ch src 0x22 r c q → c.getBlock (bits q.cmd.a0.toNat 47 0) 256 64 0xF = .error e →
      ended (.vxRestore ch src))) ∧
  (∀ (s : State) (ch : Ch) (src : Src) (r q : Running) (c d : Channel) (e : Err) (ended : Instr → Prop),
    (∀ i, ended i ↔ ∃ t, exec i s = .next t ∧ t.statusOf ch src = errStatus e) → d = (s.fresh ch).c →
    (RunsChecked s ch src 0x30 r c q → copyOps c q = .error e → ended (.stCopy ch src)) ∧
    (RunsChecked s ch src 0x31 r c q → gatherOps false c q = .error e → ended (.stGather ch src)) ∧
    (RunsChecked s ch src 0x32 r c q → gatherOps true c q = .error e → ended (.stScatter ch src)) ∧
    (Runs s ch src 0x33 r → d.desc (bits r.cmd.a0.toNat 47 0) r.copies = .error e → ended (.stPrefetch ch src)) ∧
    (RunsChecked s ch src 0x35 r c q → q.putDst = c.chid → putLocalOps c q = .error e → ended (.stPut ch src)) ∧
    (RunsChecked s ch src 0x35 r c q → q.putDst ≠ c.chid → c.desc (bits q.cmd.a0.toNat 47 0) q.copies = .error e →
      ended (.stPut ch src)) ∧
    (Runs s ch src 0x40 r → r.begun = none → reduceOps s.chans d r = .error e → ended (.cfReduce ch src)) ∧
    (Runs s ch src 0x41 r → r.begun = none → bcastOps s.chans d r = .error e → ended (.cfBcast ch src)) ∧
    (Runs s ch src 0x42 r → r.begun = none → barrierOps s.chans d r = .error e → ended (.cfBarrier ch src)) ∧
    (Runs s ch src 0x50 r → updOps d r = .error e → ended (.abUpdate ch src)) ∧
    (Runs s ch src 0x51 r → frzOps d r.copies (ablOf r) (bits r.cmd.a0.toNat 47 0) (bits r.cmd.a1.toNat 47 0)
      (bits r.cmd.a2.toNat 47 0) r.cmd.a3 = .error e → ended (.abFreeze ch src)) ∧
    (Runs s ch src 0x52 r → scatOps d r = .error e → ended (.abScatter ch src))) ∧
  (∀ (w : Wk) (r : Running) (e : Err), w.c.findRun r.src = some r → r.result = none →
    ((endWith w r (.error e)).c.findRun r.src).bind (fun x => x.result.map fun res => res.status) = errStatus e) ∧
  (∀ (s : State) (ch : Ch) (src : Src) (r x : Running) (k : Core) (w : Wk) (c : Channel) (res : Result) (i : Instr) (opc : Byte),
    (i, opc) ∈ [(.mmFwd ch src, 0x10), (.mmBwd2 ch src, 0x11), (.mmBwd ch src, 0x12), (.cvFreeze ch src, 0x18),
      (.cvThaw ch src, 0x19), (.vxChain ch src, 0x20), (.vxSave ch src, 0x21), (.vxRestore ch src, 0x22), (.stCopy ch src, 0x30),
      (.stGather ch src, 0x31), (.stScatter ch src, 0x32), (.stPut ch src, (0x35 : Byte))] →
    Runs s ch src opc r → (srcEngine r.src).bind engineCore = some k → r.begun = none → r.checked = false →
    w = (if opc = 0x20 then chainEnter (s.fresh ch) r else s.fresh ch) → checkSlots w.c k r = (c, x, some res) →
    exec i s = .next (s.after ch (({ w with c := c.finish x res } : Wk).settle src (s.fresh ch)))) ∧
  (∀ (c : Channel) (k : Core) (r : Running),
    (∀ a n cause, (c.blockNames r).find? (fun b => b.1 % b.2.1 != 0) = some (a, n, cause) →
      ∃ d, checkSlots c k r = (d, r, some { status := 0x13, info := BitVec.ofNat 64 a }) ∧
        d = { c with agd := d.agd } ∧ d.agd.df = true ∧ d.agd.dfCause = BitVec.ofNat 4 cause ∧
        d.agd.dfDesc = BitVec.ofNat 48 a) ∧
    (∀ y i n, (∀ b ∈ c.blockNames r, b.1 % b.2.1 = 0) →
      (slotAnswers c k r).find? (fun a => a.2.2 != .reader) = some (y, i, n) →
      (∀ st a, n = .held st a → st ≠ 0x14 → checkSlots c k r = (c, r, some { status := st, info := BitVec.ofNat 64 a })) ∧
      (∀ a, n = .held 0x14 a → checkSlots c k r =
        (c.freeze (.context k y) a false, r, some { status := 0x14, info := BitVec.ofNat 64 a })) ∧
      (∀ a, n = .bad a → ∃ d, checkSlots c k r = (d, r, some { status := 0x13, info := BitVec.ofNat 64 a }) ∧
        d = { c with agd := d.agd }) ∧
      (n = .cancelled → checkSlots c k r = (c, r, some { status := 0x19 }))))

/-! ### Queues and the dispatcher (01, 02) -/

/-- COMMAND_START serves the first ready source in round-robin order, and that source is served last next time. The
sources before it that are empty, disabled, stopped, waiting on a semaphore or otherwise unable to start are passed over:
none of that changes a thing but that a queue found waiting on its semaphore is marked so; where all are passed over,
nothing starts. The head of a queue starts: CI moves on by one, the command runs with its index and NMON_STEP, and ends at
once with status 0x10 for an opcode absent from Table 2.4 and 0x1B for one its engine does not accept; at the dispatcher a
floe whose membership can be fixed begins with it, and one of an undefined identifier ends with 0x12. A head whose words
cannot be read ends with 0x16, an ab.* of an attempt that was ended with 0x1A. A share on the engine's dispatch input
starts in the same way; at the dispatcher it becomes a floe command. The other queues, the semaphores and memory stay.
(How the commands of an ended attempt are found: log 75; an uncorrectable head: logs 63 and 102; where the rotation
begins: log 9.) -/
def Obligations.CommandStart : Prop :=
  (∀ (e : Engine) (c m : Channel) (l : List Nat), PassedOver e c l m → m = { c with queues := m.queues } ∧
    ∀ j : QIdx, (∃ b ear, m.queues[j] = { c.queues[j] with semWait := b, early := ear }) ∧
      (j.val ∉ l ∨ ¬c.waitsOnSem j → m.queues[j] = c.queues[j]) ∧
      (j.val ∈ l → c.waitsOnSem j → m.queues[j].semWait = true)) ∧
  (∀ (s : State) (ch : Ch) (e : Engine) (front rest : List Nat) (c m : Channel),
    s.chans[ch] = c → c.up = true → c.isFrozen (.engine e) = false → PassedOver e c front m →
    (c.sources e = front → exec (.commandStart ch e) s = .next (s.put ch m)) ∧
    (∀ (q : QIdx) (x : Queue) (k : Command), c.sources e = front ++ q.val :: rest → m.queues[q] = x → k = m.headOf q →
      m.offers q = true →
      (∀ a, m.badIn x.headAddr 64 false = some a → ∃ t r, exec (.commandStart ch e) s = .next t ∧
        t.chans[ch].findRun (.queue q) = some r ∧ r.result = some { status := 0x16, info := BitVec.ofNat 64 a } ∧
        t.chans[ch].queues[q].ci = x.ci + 1 ∧ t.chans[ch].rr.lookup e = some q.val) ∧
      (m.badIn x.headAddr 64 false = none → x.aborts k = true → ∃ t r, exec (.commandStart ch e) s = .next t ∧
        t.chans[ch].findRun (.queue q) = some r ∧ r.cmd = k ∧ r.result = some { status := 0x1A } ∧
        t.chans[ch].queues[q].ci = x.ci + 1 ∧ t.chans[ch].rr.lookup e = some q.val) ∧
      (∀ c2 : Channel, c2 = (m.popQ q).wakeFor e k → m.offersLive q → ¬m.waitsOnSem q → ¬m.heldUp e q →
        ∃ t r, exec (.commandStart ch e) s = .next t ∧ t.chans[ch].findRun (.queue q) = some r ∧
          r.cmd = k ∧ r.seq = x.ci ∧ r.step = c.nmon.step ∧ r.share = none ∧
          t.chans[ch].rr.lookup e = some q.val ∧ t.chans[ch].sems = c.sems ∧ t.chans[ch].mem = c.mem ∧
          (opcUnit k.opc = none → r.result = some { status := 0x10 }) ∧
          (∀ u, opcUnit k.opc = some u → accepts e u = false → r.result = some { status := 0x1B }) ∧
          (∀ u, opcUnit k.opc = some u → accepts e u = true → e ≠ .dispatcher ∨ u = .dsp → r.result = none) ∧
          (∀ u f ms ext, opcUnit k.opc = some u → e = .dispatcher → u ≠ .dsp →
            c2.makeFloe k k.floe none none false = .ok (f, ms, ext) → r.result = none ∧
            t.chans[ch].floes = c.floes ++ [⟨c.nextFloe, .queue q, x.ci, k, f.level, ms, ext, none⟩]) ∧
          (∀ u, opcUnit k.opc = some u → e = .dispatcher → u ≠ .dsp →
            c2.makeFloe k k.floe none none false = .error (.status 0x12 0) →
            r.result = some { status := 0x12 } ∧ t.chans[ch].floes = c.floes) ∧
          (e ≠ .dispatcher ∨ (∃ y, c2.makeFloe k k.floe none none false = .ok y) →
            t.chans[ch].queues[q] = { x with semWait := false, ci := x.ci + 1, early := [] } ∧
            ∀ j, j ≠ q → t.chans[ch].queues[j] = m.queues[j]))) ∧
    (∀ sh : Share, c.sources e = front ++ 160 :: rest → c.inputs.find? (fun p => p.1 == e) = some (e, sh) →
      (e ≠ .dispatcher → c.findRun (.input e) = none → m.canStart e sh.cmd = true →
        ∃ t r, exec (.commandStart ch e) s = .next t ∧ t.chans[ch].findRun (.input e) = some r ∧
          r.cmd = sh.cmd ∧ r.share = some sh ∧ r.step = c.nmon.step ∧
          (∀ u, opcUnit sh.cmd.opc = some u → accepts e u = true → r.result = none) ∧
          t.chans[ch].inputs = c.inputs.eraseP (fun p => p.1 == e) ∧ t.chans[ch].queues = m.queues ∧
          t.chans[ch].rr.lookup e = some 160 ∧ t.chans[ch].sems = c.sems ∧ t.chans[ch].mem = c.mem) ∧
      (∀ f ms ext, e = .dispatcher → m.shareFloe sh = .ok (f, ms, ext) →
        ∃ t, exec (.commandStart ch e) s = .next t ∧
          t.chans[ch].inputs = c.inputs.eraseP (fun p => p.1 == e) ∧ t.chans[ch].queues = m.queues ∧
          t.chans[ch].rr.lookup e = some 160 ∧ t.chans[ch].sems = c.sems ∧ t.chans[ch].mem = c.mem ∧
          ∃ g ∈ t.chans[ch].floes, g = ⟨c.nextFloe, .input .dispatcher, 0, sh.cmd, f.level, ms, ext, some sh.ref⟩)))

/-- COMMAND_COMPLETE of a command of a queue: it runs no more; it signals only with status 0x00; an error stops the
queue and is named; a record is queued where CPL is set or the command ended in error. A cf.barrier with SKEW that is no
floe command has signalled already (15 R347); a floe one signals once, here (log 69). FLOE of the record is set for a
command of a dispatcher queue whose opcode goes to a floe, also where it was refused before it had members (log 54).
Memory stays. -/
def Obligations.CommandComplete : Prop :=
  ∀ (s : State) (ch : Ch) (q : QIdx) (r : Running) (res : Result) (c : Channel) (x : Queue) (err : Bool),
    s.chans[ch] = c → c.queues[q] = x → c.up = true → c.findRun (.queue q) = some r → r.result = some res →
    r.share = none →
    (err = (res.status != 0x00 && res.status != 0x19 && res.status != 0x1A)) →
    ∃ t y, exec (.commandComplete ch (.queue q)) s = .next t ∧ t.chans[ch].queues[q] = y ∧
      t.chans[ch].findRun (.queue q) = none ∧ y.stopped = (err || x.stopped) ∧
      y.faultSeq = (if err then r.seq else x.faultSeq) ∧
      y.waiting = x.waiting ++ (if r.cmd.cpl || err then
        [{ seq := r.seq, tag := r.cmd.tag, res := res, floe := r.cmd.isFloe q, warn := warnOf r.cmd.opc res
           irq := r.cmd.irq && r.cmd.cpl, time := c.gov.time + BitVec.ofNat 64 (Config.elapsed s.freeCtr) }] else []) ∧
      (∀ i, t.chans[ch].semVal i = c.semVal i +
        (if i = r.cmd.ssem ∧ res.status = 0 ∧ r.cmd.sigen = true ∧
            (∀ e, queueEngine q.val = some e → c.isFrozen (.engine e) = false) ∧
            ¬(r.cmd.opc = 0x42 ∧ r.cmd.a0.getLsbD 16 = true ∧ r.cmd.isFloe q = false) then BitVec.ofNat 32 r.cmd.sinc.toNat else 0)) ∧
      t.chans[ch].mem = c.mem ∧ (∀ j, j ≠ q → t.chans[ch].queues[j] = c.queues[j])

/-- The 32 bytes of a completion record hold the fields of Table 2.5 at their places. COMPLETION_RECORD_WRITE: the
oldest record of a queue goes into the slot of CQ_CPL_PI, in channel DRAM or, when the host port is up, the function is
not frozen and it is its turn, in host memory, as 32 bytes and no other; CQ_CPL_PI moves on, and the MSI-X message the
record asked for waits behind the function's others, and goes out in the turns of the host port. The functions take turns:
of those with a record or a message for the host the first after the one served last has it, and no other. Messages go out
one by one while the host port is up, until the turn is that of a record; they wait while it is down (log 126). -/
def Obligations.RecordWrite : Prop :=
  (∀ (r : Record) (q : QIdx) (phase : Bool),
    (r.bytes q phase).length = 32 ∧
    fld (r.bytes q phase) 0 4 = r.seq.toNat ∧ fld (r.bytes q phase) 4 2 = r.tag.toNat ∧
    fld (r.bytes q phase) 6 1 = r.res.status.toNat ∧
    (fld (r.bytes q phase) 7 1).testBit 0 = phase ∧ (fld (r.bytes q phase) 7 1).testBit 1 = r.floe ∧
    (fld (r.bytes q phase) 7 1).testBit 2 = r.res.nmev ∧ (fld (r.bytes q phase) 7 1).testBit 3 = r.warn ∧
    fld (r.bytes q phase) 8 2 = q.val ∧ fld (r.bytes q phase) 10 4 = r.res.member.toNat ∧
    fld (r.bytes q phase) 14 2 = r.res.detail.toNat ∧ fld (r.bytes q phase) 16 8 = r.res.info.toNat ∧
    fld (r.bytes q phase) 24 8 = r.time.toNat) ∧
  (∀ (s : State) (ch : Ch) (q : QIdx) (c : Channel) (x : Queue) (r : Record) (rest : List Record) (a : Nat)
    (b : List Byte),
    s.chans[ch] = c → c.queues[q] = x → x.waiting = r :: rest → c.up = true → x.cplFull = false →
    a = x.cplAddr.toNat + 32 * (x.cplPi.toNat % x.cplSize) →
    (x.cplLoc = true ∧ c.stopped a 32 = false) ∨ (x.cplLoc = false ∧ s.bridge.hostUp = true ∧ c.isFrozen .host = false ∧ s.hostTurn ch = true) →
    b = r.bytes q (decide (x.cplPi.toNat / x.cplSize % 2 = 0)) →
    ∃ t : State, exec (.completionRecordWrite ch q) s = .next t.sendIrqs ∧
      t.chans[ch].queues[q] = { x with waiting := rest, cplPi := x.cplPi + 1 } ∧
      t.chans[ch].irqWait = c.irqWait ++ (if r.irq then [x.irqv.toNat] else []) ∧ t.msix = s.msix ∧
      (∀ i, Mem.byte 0 t.chans[ch].mem i =
        if x.cplLoc = true ∧ a ≤ i ∧ i < a + 32 then b.getD (i - a) 0 else Mem.byte 0 c.mem i) ∧
      (∀ i, Mem.byte 0 t.hostMem i =
        if x.cplLoc = false ∧ a ≤ i ∧ i < a + 32 then b.getD (i - a) 0 else Mem.byte 0 s.hostMem i) ∧
      t.bridge.served = (if x.cplLoc = true then s.bridge.served else ch)) ∧
  (∀ (s : State) (ch : Ch), s.chans[ch].hostWaits = true → ∃ k : Ch, s.chans[k].hostWaits = true ∧ s.hostTurn k = true ∧
    ∀ j : Ch, s.chans[j].hostWaits = true → s.hostTurn j = true → j = k) ∧
  (∀ (s : State) (x : Ch), (s.bridge.hostUp = false → s.sendIrqs = s) ∧
    (s.chans[x].hostWaits = true → s.hostTurn x = true → s.chans[x].irqWait = [] → s.sendIrqs = s) ∧
    (∀ v rest, s.bridge.hostUp = true → s.chans[x].hostWaits = true → s.hostTurn x = true →
      s.chans[x].irqWait = v :: rest →
      s.sendIrqs = State.sendIrqs { s with
        chans := s.chans.set x { s.chans[x] with irqWait := rest }, bridge := { s.bridge with served := x }
        msix := s.msix ++ [(1 + x.val, v)] }))

/-- FLOE_SHARE_DELIVERY puts the share of a member core on the dispatch input of its engine; FLOE_COMPLETE ends a floe
command once every member has its result, and COMMAND_COMPLETE of a share hands its result to the member. A split
gives the members contiguous ranges of whole blocks in member order: the first B mod M of them one block more than the
rest, B in all. A floe command with a member in error ends with status 0x18 and names the lowest-numbered of them, with
that member's INFO, but 0 for vx.* and the first member's for cf.* (log 54); with none, any member at 0x1A makes it 0x1A,
else any at 0x19 makes it 0x19, else it is 0x00. -/
def Obligations.FloeSharing : Prop :=
  (∀ (s : State) (ch : Ch) (src : Src) (c : Channel) (f : FloeRun), s.chans[ch] = c → c.up = true →
    (∀ (i : Nat) (m : MemberState), c.isFrozen (.engine .dispatcher) = false →
      c.floes.find? (fun f => f.src == src && ((f.members[i]?).map fun m => !m.delivered).getD false) = some f →
      f.members[i]? = some m → f.level = 0 → m.member.chan = c.chid →
      exec (.floeShareDelivery ch src i) s = .next (s.put ch
        { c.modFloe f.id (fun x => { x with members := x.members.modify i fun y => { y with delivered := true, owed := 1 } })
          with
          inputs := c.inputs ++
            [(coreEngine f.cmd.opc (Fin.ofNat 8 ((m.member.floe.toNat - 1) % 8)),
              { cmd := f.cmd.forShare, blocks := m.blocks, extent := f.extent, ref := ⟨.here f.id, i⟩, floe := m.member.floe })] })) ∧
    (∀ (q : QIdx), src = .queue q → f.parent = none →
      c.floes.find? (fun f => f.src == src && f.members.all MemberState.done) = some f →
      ∃ t, exec (.floeComplete ch src) s = .next t ∧ t.chans[ch].findRun src = none ∧
        t.chans[ch].floes = c.floes.filter (fun x => x.id != f.id) ∧
        t.chans[ch].queues[q].stopped = (isError f.result.status || c.queues[q].stopped)) ∧
    (∀ (r : Running) (res : Result) (sh : Share) (id : Nat), c.findRun src = some r → r.result = some res →
      r.share = some sh → sh.ref.owner = .here id →
      ∃ t, exec (.commandComplete ch src) s = .next t ∧ t.chans[ch].findRun src = none ∧
        t.chans[ch].floes = c.floes.map fun x => if x.id = id then
          { x with members := x.members.modify sh.ref.member fun m => m.take x.cmd.opc res } else x)) ∧
  (∀ B M : Nat, 0 < M → (shares B M).length = M ∧ ((shares B M).map Prod.snd).sum = B ∧
    ∀ i (h : i < M) (h' : i < (shares B M).length),
      ((shares B M)[i]).2 = B / M + (if i < B % M then 1 else 0) ∧
      ((shares B M)[i]).1 = (((shares B M).take i).map Prod.snd).sum) ∧
  (∀ f : FloeRun, f.members.length ≤ 64 → (∀ m ∈ f.members, m.result.isSome = true) →
    (∀ (i : Nat) (m : MemberState) (r : Result), f.members[i]? = some m → m.result = some r → isError r.status = true →
      (∀ j n, j < i → f.members[j]? = some n → isError ((n.result.getD {}).status) = false) →
      f.result.status = 0x18 ∧
      f.result.info = (if opcUnit f.cmd.opc = some .mor then 0
        else if opcUnit f.cmd.opc = some .cfl then (((f.members.head?).bind (·.result)).getD {}).info else r.info) ∧
      f.result.member = BitVec.ofNat 32 (m.member.chan.toNat * 2 ^ 16 + i)) ∧
    ((∀ m ∈ f.members, isError ((m.result.getD {}).status) = false) →
      f.result.member = 0 ∧
      f.result.status = (if ∃ m ∈ f.members, (m.result.getD {}).status = 0x1A then 0x1A
        else if ∃ m ∈ f.members, (m.result.getD {}).status = 0x19 then 0x19 else 0x00)))

/-! ### The host's writes to queues and registers (02, 06, 07) -/

/-- If the host driver writes CQ_CPL_CI with a value ahead of CQ_CPL_PI, or behind its previous value, the write is
ignored and CI_BAD is set; any other value is taken. (Ahead and behind are the sign of the difference of 32 bits: the
model's reading, log 101.) -/
def Obligations.CplCi : Prop :=
  ∀ (s : State) (ch : Ch) (q : QIdx) (w : RegWrite) (c : Channel) (x : Queue) (v : W32),
    s.hostOk ch = true → s.chans[ch] = c → c.queues[q] = x → reservedQ q = false → touches w 4 = true →
    v = BitVec.ofNat 32 (merge w 4 x.cplCi.toNat) →
    ((x.cplPi - v).toInt < 0 ∨ (v - x.cplCi).toInt < 0 →
      exec (.cqCplCiWrite ch q w) s = .next (s.put ch (c.modQ q fun x => { x with ciBad := true }))) ∧
    (0 ≤ (x.cplPi - v).toInt → 0 ≤ (v - x.cplCi).toInt →
      exec (.cqCplCiWrite ch q w) s = .next (s.put ch (c.modQ q fun x => { x with cplCi := v })))

/-- A register write of a register of n bytes: each enabled byte is the new one, each other byte the old one.
DOORBELL: a producer index behind the old one sets PI_BACK, one more than the ring ahead of CI sets PI_OVER, one that is
both sets both, and none of them changes CQ_PI; any other is taken. A write of a reserved block, or of no byte of CQ_PI,
changes nothing. Writes of CQ_CTRL, in every combination of their bits, judged against the state before them. Setting
ENABLE enables the queue where both rings lie as they must, and its core, if COLD, is WARM; else it sets RING_BAD.
Clearing it stops new starts, and the queue drains while work of it is left; once none is, QUEUE_DRAINED ends that. RESET,
while the queue is disabled and idle, sets the four indices to zero, and with ENABLE = 1 beside it the queue is then
enabled from index 0. RESUME, while it is stopped, clears STOPPED, whatever else the write carries. IRQV takes the value
written. (A producer index that fails both tests sets both flags, log 36; a waiting command of a disabled queue does not
start, log 99; the values of STATE: log 113.) -/
def Obligations.QueueWrites : Prop :=
  (∀ (w : RegWrite) (n old i : Nat), i < n → n ≤ 8 →
    merge w n old / 256 ^ i % 256 =
      if w.enable.toNat.testBit i then w.value.toNat / 256 ^ i % 256 else old / 256 ^ i % 256) ∧
  (∀ (s : State) (ch : Ch) (q : QIdx) (w : RegWrite) (c : Channel) (x : Queue) (p : W32),
    s.hostOk ch = true → s.chans[ch] = c → c.queues[q] = x → p = BitVec.ofNat 32 (merge w 4 x.pi.toNat) →
    (reservedQ q = false → touches w 4 = true →
      ((p - x.pi).toInt < 0 → (p - x.ci).toNat ≤ x.size →
        exec (.doorbell ch q w) s = .next (s.put ch (c.modQ q fun x => { x with piBack := true }))) ∧
      (0 ≤ (p - x.pi).toInt → x.size < (p - x.ci).toNat →
        exec (.doorbell ch q w) s = .next (s.put ch (c.modQ q fun x => { x with piOver := true }))) ∧
      ((p - x.pi).toInt < 0 → x.size < (p - x.ci).toNat →
        exec (.doorbell ch q w) s = .next (s.put ch (c.modQ q fun x => { x with piBack := true, piOver := true }))) ∧
      (0 ≤ (p - x.pi).toInt → (p - x.ci).toNat ≤ x.size →
        exec (.doorbell ch q w) s = .next (s.put ch (c.modQ q fun x => { x with pi := p })))) ∧
    (reservedQ q = true ∨ touches w 4 = false → exec (.doorbell ch q w) s = .next s)) ∧
  (∀ (s : State) (ch : Ch) (q : QIdx) (w : RegWrite) (c : Channel) (x : Queue) (v : Nat),
    s.hostOk ch = true → s.chans[ch] = c → c.queues[q] = x → reservedQ q = false → touches w 4 = true →
    v = merge w 4 ((if x.enable then 1 else 0) + 2 ^ 16 * x.irqv.toNat) →
    (∀ (i : Instr) (x0 x1 x2 : Queue),
      i = .queueEnable ch q w ∨ i = .queueDisable ch q w ∨ i = .queueReset ch q w ∨ i = .queueResume ch q w →
      x0 = { x with irqv := BitVec.ofNat 6 (v / 2 ^ 16) } →
      x1 = { x0 with pi := 0, ci := 0, cplPi := 0, cplCi := 0, early := [], abTo := none, cfTo := none, tail := none } →
      x2 = { x0 with stopped := false } →
      (((enabledBits w 4).testBit 2 = false ∨ x.enable = true ∨ c.stateQ q ≠ 0) →
        ((enabledBits w 4).testBit 1 = false ∨ x.frozen = true ∨ x.stopped = false) →
        (v.testBit 0 = x.enable → exec i s = .next (s.put ch (c.modQ q fun _ => x0))) ∧
        (v.testBit 0 = true → x.enable = false →
          (ringsOk q x = true → exec i s = .next (s.put ch
            ((c.modQ q fun _ => { x0 with enable := true, draining := false }).leaveCold q))) ∧
          (ringsOk q x = false → exec i s = .next (s.put ch (c.modQ q fun _ => { x0 with ringBad := true })))) ∧
        (v.testBit 0 = false → x.enable = true → exec i s = .next (s.put ch (c.modQ q fun _ =>
          { x0 with
            enable := false, semWait := false, early := []
            draining := (c.findRun (.queue q)).isSome || !x.waiting.isEmpty })))) ∧
      ((enabledBits w 4).testBit 2 = true → x.enable = false → c.stateQ q = 0 →
        (v.testBit 0 = false → exec i s = .next (s.put ch (c.modQ q fun _ => x1))) ∧
        (v.testBit 0 = true →
          (ringsOk q x = true → exec i s = .next (s.put ch
            ((c.modQ q fun _ => { x1 with enable := true, draining := false }).leaveCold q))) ∧
          (ringsOk q x = false → exec i s = .next (s.put ch (c.modQ q fun _ => { x1 with ringBad := true }))))) ∧
      ((enabledBits w 4).testBit 1 = true → x.frozen = false → x.stopped = true →
        (v.testBit 0 = x.enable → exec i s = .next (s.put ch (c.modQ q fun _ => x2))) ∧
        (v.testBit 0 = true → x.enable = false →
          (ringsOk q x = true → exec i s = .next (s.put ch
            ((c.modQ q fun _ => { x2 with enable := true, draining := false }).leaveCold q))) ∧
          (ringsOk q x = false → exec i s = .next (s.put ch (c.modQ q fun _ => { x2 with ringBad := true })))) ∧
        (v.testBit 0 = false → x.enable = true → exec i s = .next (s.put ch (c.modQ q fun _ =>
          { x2 with
            enable := false, semWait := false, early := []
            draining := (c.findRun (.queue q)).isSome || !x.waiting.isEmpty }))))) ∧
    (x.enable = false → c.findRun (.queue q) = none → x.waiting = [] →
      exec (.queueDrained ch q) s = .next (s.put ch (c.modQ q fun x => { x with draining := false }))))

/-- The host's semaphore writes: CQ_SEM_ADD adds the value modulo 2^32, CQ_SEM_SET writes it; no other semaphore and
nothing else of the module changes. A wait is met when value minus threshold, as a signed word, is zero or greater.
NMON_EVR_CI is checked as CQ_CPL_CI is, against NMON_EVR_PI. (Bytes of CQ_SEM_SET that are not written are 0: the model's
choice, log 130; ahead and behind of NMON_EVR_CI are the sign of the difference of 32 bits: the model's reading, log 101.) -/
def Obligations.SemaphoresAndEventRing : Prop :=
  (∀ (s : State) (ch : Ch) (sem : SemIdx) (w : RegWrite), s.hostOk ch = true → touches w 4 = true →
    (∃ d, exec (.cqSemAdd ch sem w) s = .next (s.put ch d) ∧ d = { s.chans[ch] with sems := d.sems } ∧
      ∀ i, d.semVal i = if i = sem then s.chans[ch].semVal i + BitVec.ofNat 32 (enabledBits w 4) else s.chans[ch].semVal i) ∧
    (∃ d, exec (.cqSemSet ch sem w) s = .next (s.put ch d) ∧ d = { s.chans[ch] with sems := d.sems } ∧
      ∀ i, d.semVal i = if i = sem then BitVec.ofNat 32 (enabledBits w 4) else s.chans[ch].semVal i) ∧
    (∀ v thr : W32, semOk v thr = true ↔ 0 ≤ (v - thr).toInt)) ∧
  (∀ (s : State) (ch : Ch) (w : RegWrite) (n : Nmon) (v : W32),
    s.hostOk ch = true → s.chans[ch].nmon = n → touches w 4 = true → v = BitVec.ofNat 32 (merge w 4 n.evrCi.toNat) →
    ((n.evrPi - v).toInt < 0 ∨ (v - n.evrCi).toInt < 0 →
      exec (.nmonEvrCiWrite ch w) s = .next (s.put ch { s.chans[ch] with nmon := { n with ciBad := true } })) ∧
    (0 ≤ (n.evrPi - v).toInt → 0 ≤ (v - n.evrCi).toInt →
      exec (.nmonEvrCiWrite ch w) s = .next (s.put ch { s.chans[ch] with nmon := { n with evrCi := v } })))

/-- BAR2 reaches the channel address HBD_STAGE_BASE plus the offset. A write in DRAM or a Névé window stores its bytes
and no others, and a word uncorrectable before it that it writes only in part stays so; a read answers the bytes there
and changes no channel, but an uncorrectable word reads as all ones. Each uncorrectable word that an access meets is noted,
which sets UE of its stack or Névé, and classified as Adori's own reads are. An access to a stack that has stopped its
accesses waits. An access elsewhere, read or write, freezes the host function and changes no memory, and a read of it
answers all ones; an access of a frozen function changes nothing and answers so. (Bytes read of an uncorrectable word, and
that the access waits: logs 3 and 102.) -/
def Obligations.Bar2 : Prop :=
  ∀ (s : State) (ch : Ch) (off : BitVec 28) (len a : Nat) (bs : List Byte) (c : Channel) (noted : Channel → Nat → Prop),
    s.bridge.hostUp = true → s.chans[ch] = c → c.up = true → a = c.boot.stageBase.toNat + off.toNat →
    (∀ d k, noted d k ↔ (k < dramSize → ∀ i : Stack, i.val = k / 0x900000000 % 4 → (d.stk[i]).stUe = true) ∧
      (dramSize ≤ k → ∀ m : Core, neveOf k = some m.val → (d.cores[m]).neve.stUe = true)) →
    (c.isFrozen .host = false → stagingOk a bs.length = true → c.stopped a bs.length = false →
      c.badIn a bs.length true = none →
      ∃ d, exec (.bar2Access ch off len (some bs)) s = .next (s.put ch d) ∧
        d = { c with mem := d.mem, bad := d.bad } ∧
        ∀ i, Mem.byte 0 d.mem i = if a ≤ i ∧ i < a + bs.length then bs.getD (i - a) 0 else Mem.byte 0 c.mem i) ∧
    (∀ k, c.isFrozen .host = false → stagingOk a bs.length = true → c.stopped a bs.length = false →
      c.badIn a bs.length true = some k →
      ∃ d, exec (.bar2Access ch off len (some bs)) s = .next (s.put ch d) ∧ k ∈ d.bad ∧ noted d k ∧
        d = ((c.wr a bs).noteUe k true).classifyUe k ∧
        ∀ i, Mem.byte 0 d.mem i = if a ≤ i ∧ i < a + bs.length then bs.getD (i - a) 0 else Mem.byte 0 c.mem i) ∧
    (c.isFrozen .host = false → stagingOk a len = true → c.stopped a len = false → c.badIn a len false = none →
      exec (.bar2Access ch off len none) s = .next { s with answer := c.rd a len }) ∧
    (∀ k, c.isFrozen .host = false → stagingOk a len = true → c.stopped a len = false → c.badIn a len false = some k →
      ∃ d, exec (.bar2Access ch off len none) s = .next { s.put ch d with answer := c.rdA a len } ∧
        d = c.adoriRead [(a, len)] ∧ (∀ k ∈ c.badMet [(a, len)] [], noted d k) ∧
        d.mem = c.mem ∧ d.queues = c.queues ∧ d.sems = c.sems ∧
        ∀ i, i < len → (c.badIn (a + i) 1 false).isSome = true → (c.rdA a len)[i]? = some 0xFF) ∧
    (∀ n wr, n = (wr.map List.length).getD len → c.isFrozen .host = false → stagingOk a n = true → c.stopped a n = true →
      exec (.bar2Access ch off len wr) s = .next (s.put ch { c with hostWait := c.hostWait ++ [(a, n, wr)] })) ∧
    (c.isFrozen .host = false → stagingOk a bs.length = false →
      ∃ d, exec (.bar2Access ch off len (some bs)) s = .next (s.put ch d) ∧
        d.isFrozen .host = true ∧ d.mem = c.mem ∧ d.frz.count = satAdd c.frz.count 1) ∧
    (c.isFrozen .host = false → stagingOk a len = false →
      ∃ d, exec (.bar2Access ch off len none) s = .next { s.put ch d with answer := List.replicate len 0xFF } ∧
        d.isFrozen .host = true ∧ d.mem = c.mem ∧ d.frz.count = satAdd c.frz.count 1) ∧
    (c.isFrozen .host = true →
      exec (.bar2Access ch off len (some bs)) s = .next s ∧
      exec (.bar2Access ch off len none) s = .next { s with answer := List.replicate len 0xFF })

/-- REGISTER_WRITE, HBD_STAGE_BASE_WRITE, MOR_PAUSE and MOR_UNPAUSE: an access that R442 permits reaches its register
with its byte lanes, one that it does not permit, or of a reserved offset, reaches none; HBD_STAGE_BASE takes the
value in units of 256 MiB; PAUSE takes bit 0 of the write of MOR_CTRL. -/
def Obligations.RegisterWrites : Prop :=
  ∀ (s : State) (ch : Ch) (off : BitVec 22) (n : Nat) (v : W64) (b size old : Nat) (fn : Fin 9) (w lanes : RegWrite)
    (k : Core),
    lanes = { value := v <<< (8 * (off.toNat - b)), enable := BitVec.ofNat 8 ((2 ^ n - 1) * 2 ^ (off.toNat - b)) } →
    (fn.val = 1 + ch.val → s.hostOk ch = true →
      (s.chans[ch].regAt off.toNat = some (b, size, old) →
        (accessOk off.toNat n b size = true →
          exec (.registerWrite fn off n v) s = .next (s.put ch (s.chans[ch].writeReg b lanes))) ∧
        (accessOk off.toNat n b size = false → exec (.registerWrite fn off n v) s = .next s)) ∧
      (s.chans[ch].regAt off.toNat = none → exec (.registerWrite fn off n v) s = .next s)) ∧
    (fn.val = 0 → s.function0 = true → s.func0At off.toNat = some (b, size) →
      (accessOk off.toNat n b size = true → exec (.registerWrite fn off n v) s = .next (writeFunc0 s b lanes)) ∧
      (accessOk off.toNat n b size = false → exec (.registerWrite fn off n v) s = .next s)) ∧
    (s.hostOk ch = true →
      exec (.hbdStageBaseWrite ch w) s = .next (s.put ch { s.chans[ch] with boot := { s.chans[ch].boot with
        stageBase := BitVec.ofNat 48 (merge w 8 s.chans[ch].boot.stageBase.toNat / 2 ^ 28 * 2 ^ 28) } }) ∧
      ((enabledBits w 4).testBit 0 = true → exec (.morPause ch k w) s = .next (s.put ch (s.chans[ch].modCore k fun x =>
        { x with mor := { x.mor with pause := true } }))) ∧
      (w.enable.toNat.testBit 0 = true → w.value.toNat.testBit 0 = false →
        exec (.morUnpause ch k w) s = .next (s.put ch (s.chans[ch].modCore k fun x =>
          { x with mor := { x.mor with pause := false } }))))

/-! ### Banks, stream contexts and pages (04, 11, 12) -/

/-- ESK_CTX_CONFIG is honoured only while the context is OFF or IDLE. A valid configuration is taken, a context that
leaves OFF starting empty with HEAD, TAIL and STEPS at zero; an invalid one leaves the context OFF with CFGERR set;
one that turns it OFF empties its slots and counts the held faults dropped. BANK_HANDOVER gives the next full bank of
an array to Moraine while Moraine holds fewer than two of it, and waits otherwise, and a chain that waited for a bank of
it shows so no more; BANK_RELEASE takes back the oldest
bank that a chain has read. -/
def Obligations.ContextConfigAndBanks : Prop :=
  (∀ (s : State) (ch : Ch) (k : Core) (i : Fin 16) (r : CtxReg) (w : RegWrite) (c : Channel) (x y : Ctx),
    s.chans[ch] = c → c.up = true → c.isFrozen .host = false → c.cores[k].esk.ctxs[i] = x → x.writeReg r w = y →
    (x.state ≠ 0 → x.state ≠ 1 → exec (.eskCtxConfig ch k i r w) s = .next s) ∧
    (x.state = 0 ∨ x.state = 1 →
      (y.mode ≠ .off → ctxValid c k i y = true → x.mode ≠ .off →
        exec (.eskCtxConfig ch k i r w) s = .next (s.put ch (c.modCtx k i fun _ => y))) ∧
      (y.mode ≠ .off → ctxValid c k i y = true → x.mode = .off →
        ∃ z, exec (.eskCtxConfig ch k i r w) s = .next (s.put ch (c.modCtx k i fun _ => z)) ∧
          z = { y with slots := List.replicate 16 {}, order := [], heldOrder := [], head := 0, tail := 0, steps := 0,
                       pushed := false, started := false }) ∧
      (y.mode ≠ .off → ctxValid c k i y = false →
        ∃ d, exec (.eskCtxConfig ch k i r w) s = .next (s.put ch d) ∧ d.cores[k].esk.ctxs[i].mode = .off ∧
          d.cores[k].esk.ctxs[i].cfgerr = true ∧ d.cores[k].esk.heldDrop = satAdd c.cores[k].esk.heldDrop x.heldCount) ∧
      (y.mode = .off →
        ∃ d, exec (.eskCtxConfig ch k i r w) s = .next (s.put ch d) ∧ d.cores[k].esk.ctxs[i].mode = .off ∧
          d.cores[k].esk.ctxs[i].slots = List.replicate 16 {} ∧
          d.cores[k].esk.heldDrop = satAdd c.cores[k].esk.heldDrop x.heldCount))) ∧
  (∀ (s : State) (ch : Ch) (k : Core) (a : ArrayId) (c : Channel) (x : ArrayState) (b : Bank) (rest : List Bank),
    s.chans[ch] = c → c.up = true → c.cores[k].array a = x →
    (x.full = b :: rest → x.handed.length < 2 →
      ∃ d, exec (.bankHandover ch k a) s = .next (s.put ch d) ∧
        d.cores[k].array a = { x with full := rest, handed := x.handed ++ [b] } ∧
        d.cores[k].mor.waitacc = (c.cores[k].mor.waitacc && c.cores[k].mor.waitArr != a) ∧
        d = { c with cores := d.cores, running := d.running } ∧ ∀ j, j ≠ k → d.cores[j] = c.cores[j]) ∧
    (x.full = b :: rest → 2 ≤ x.handed.length → exec (.bankHandover ch k a) s = .next s) ∧
    (∀ n, x.read = n + 1 → x.handed = b :: rest →
      ∃ d, exec (.bankRelease ch k a) s = .next (s.put ch d) ∧
        d.cores[k].array a = { x with read := n, handed := rest } ∧
        d = { c with cores := d.cores } ∧ ∀ j, j ≠ k → d.cores[j] = c.cores[j]))

/-- FILL_LANDED of a filling slot moves the bytes still to come, page by page in translated mode, into the slot and
nowhere else: the slot is FULL, and the st.prefetch ends with the span and the units of helpers in INFO. An
address-guard violation or an uncorrectable word of the source is held in the slot, which is FAULTED, and the
st.prefetch ends HELD with status 0x00 and the bytes staged so far; at an absent page the fill halts with POS after the
bytes moved. HELPER_UNIT moves one 4 KiB unit of a fill in NATIVE mode, by a helper that has nothing to start, which
counts it, or by the issuing core. FULLSEM rises by 1 for a fill that leaves its slot FULL or FAULTED, in the order in
which the fills were issued: one that lands before an earlier fill is paid with it, and one that all earlier fills have
landed before pays itself and the landed ones that wait behind it. -/
def Obligations.Fills : Prop :=
  ∀ (s : State) (ch : Ch) (k h : Core) (i slot : Fin 16) (c c' : Channel) (x : Ctx) (t : Slot) (r : Running)
    (a n m dst : Nat) (order : List (Nat × Bool)) (paid : Channel → Prop),
    order = x.order.map (fun p => if p.1 = slot.val then (slot.val, true) else p) →
    (∀ d, paid d ↔ d.cores[k].esk.ctxs[i].order = order.dropWhile Prod.snd ∧
      ∀ q, d.semVal q = c.semVal q + if q = x.fullsem then BitVec.ofNat 32 (order.takeWhile Prod.snd).length else 0) →
    s.chans[ch].landed = c → c.up = true → c.cores[k].esk.ctxs[i] = x → x.slot slot.val = t → x.frozen = false →
    t.st = .filling → t.halted = none → t.filler = some r.src → c.findRun r.src = some r → r.result = none →
    a = t.fillBase + t.pos → dst = x.slotAddr slot.val + t.pos →
    (n = t.fillSpan - t.pos → c'.poisonHit = none →
      (fillBytes c a n dst = (c', m, none) →
        ∃ d, exec (.fillLanded ch k i slot) s = .next (s.put ch d) ∧
          (d.cores[k].esk.ctxs[i].slot slot.val).st = .full ∧ paid d ∧ d.mem = c'.mem ∧
          d.findRun r.src = some { r with result := some (fillResult { t with pos := t.pos + m } false) }) ∧
      (∀ e y w, fillBytes c a n dst = (c', m, some e) → e.kind = .guard y w →
        ∃ d, exec (.fillLanded ch k i slot) s = .next (s.put ch d) ∧
          (d.cores[k].esk.ctxs[i].slot slot.val).st = .faulted ∧
          (d.cores[k].esk.ctxs[i].slot slot.val).heldStatus = 0x14 ∧
          (d.cores[k].esk.ctxs[i].slot slot.val).heldAddr = BitVec.ofNat 48 y ∧
          d.cores[k].esk.heldTotal = satAdd c'.cores[k].esk.heldTotal 1 ∧ paid d ∧ d.mem = c'.mem ∧ d.frz = c'.frz ∧
          d.findRun r.src = some { r with result := some (fillResult { t with pos := t.pos + m } true) }) ∧
      (∀ e y, fillBytes c a n dst = (c', m, some e) → e.kind = .ue y →
        ∃ d, exec (.fillLanded ch k i slot) s = .next (s.put ch d) ∧
          (d.cores[k].esk.ctxs[i].slot slot.val).st = .faulted ∧
          (d.cores[k].esk.ctxs[i].slot slot.val).heldStatus = 0x16 ∧
          (d.cores[k].esk.ctxs[i].slot slot.val).heldAddr = BitVec.ofNat 48 y ∧ paid d ∧ d.mem = c'.mem ∧
          d.findRun r.src = some { r with result := some (fillResult { t with pos := t.pos + m } true) }) ∧
      (∀ e y, fillBytes c a n dst = (c', m, some e) → e.kind = .absent y →
        ∃ d, exec (.fillLanded ch k i slot) s = .next (s.put ch d) ∧ d.mem = c'.mem ∧ d.running = c'.running ∧
          d.sems = c.sems ∧
          d.cores[k].esk.ctxs[i].slot slot.val =
            { t with pos := t.pos + m, halted := some (t.pos + m, y), haltedOnce := true })) ∧
    (n = min (4096 - t.pos % 4096) (t.fillSpan - t.pos) → c'.poisonHit = none → x.mode = .native → t.help = true →
      t.pos < t.fillSpan → c.isFrozen (.engine (.esker h)) = false →
      h = k ∨ (x.mask.getLsbD h.val = true ∧ helperIdle c h = true) → fillBytes c a n dst = (c', m, none) →
      ∃ d, exec (.helperUnit ch k i slot h) s = .next (s.put ch d) ∧ d = { c' with cores := d.cores } ∧
        d.cores[k].esk.ctxs[i].slot slot.val =
          { t with pos := t.pos + m, helped := if h = k then t.helped else t.helped + 1 } ∧
        d.cores[h].esk.helpTotal = (if h = k then c'.cores[h].esk.helpTotal else satAdd c'.cores[h].esk.helpTotal 1) ∧
        ∀ j, j ≠ k → j ≠ h → d.cores[j] = c'.cores[j]) ∧
    (c.virtual a = false → c.access a n false = .ok c → c.badIn dst n true = none →
      fillBytes c a n dst = (c.put dst (c.rd a n), n, none) ∧ (c.put dst (c.rd a n)).poisonHit = none ∧
        ∀ j, Mem.byte 0 (c.put dst (c.rd a n)).mem j =
          if dst ≤ j ∧ j < dst + n then Mem.byte 0 c.mem (a + (j - dst)) else Mem.byte 0 c.mem j)

/-- RING_RELEASE moves HEAD over every slot at the head that its readers have left, and empties it; where the slot at
HEAD is not released it changes nothing. ROTATE_PUSH copies CUR of a member into the empty NXT of its predecessor,
which is then FULL, or FAULTED where a word of CUR is uncorrectable (log 107); ROTATE_SWAP exchanges the roles of the
two, empties the old CUR, and adds 1 to FULLSEM. -/
def Obligations.RingsAndRotation : Prop :=
  ∀ (s : State) (ch : Ch) (k p : Core) (i : Fin 16) (c : Channel) (x y : Ctx) (j : Nat),
    s.chans[ch] = c → c.up = true → c.cores[k].esk.ctxs[i] = x → c.cores[p].esk.ctxs[i] = y →
    j = x.head.toNat % x.nslot.toNat →
    (x.mode = .ring → x.head ≠ x.tail → x.ruse.toNat ≤ (x.slot j).done → (x.slot j).st = .full ∨ (x.slot j).st = .faulted →
      exec (.ringRelease ch k i) s = .next (s.put ch (c.modCtx k i fun x =>
        ringAdvance 15 { x with slots := x.slots.modify j fun _ => {}, head := x.head + 1 }))) ∧
    (x.mode ≠ .ring ∨ x.head = x.tail ∨ (x.slot j).done < x.ruse.toNat →
      exec (.ringRelease ch k i) s = .next s) ∧
    (x.mode = .rotate → y.mode = .rotate → x.frozen = false → y.frozen = false → x.cancelling = false →
      x.started = true → x.pushed = false → x.lastStep = false → y.steps = x.steps → x.pred k = p → p ≠ k →
      (x.slot x.cur).st = .full → (x.slot x.cur).cancelAfter = false → (y.slot y.nxt).st = .empty →
      y.nxt < y.slots.length →
      (c.badIn (x.slotAddr x.cur) x.size.toNat false = none →
        ∃ d, exec (.rotatePush ch k i) s = .next (s.put ch d) ∧ (d.cores[p].esk.ctxs[i].slot y.nxt).st = .full ∧
          d.cores[k].esk.ctxs[i] = { x with pushed := true } ∧
          (∀ b, Mem.byte 0 d.mem b = if y.slotAddr y.nxt ≤ b ∧ b < y.slotAddr y.nxt + x.size.toNat then
            (c.rd (x.slotAddr x.cur) x.size.toNat).getD (b - y.slotAddr y.nxt) 0 else Mem.byte 0 c.mem b)) ∧
      (∀ a, c.badIn (x.slotAddr x.cur) x.size.toNat false = some a →
        ∃ d, exec (.rotatePush ch k i) s = .next (s.put ch d) ∧ (d.cores[p].esk.ctxs[i].slot y.nxt).st = .faulted ∧
          (d.cores[p].esk.ctxs[i].slot y.nxt).heldStatus = 0x16 ∧ d.cores[k].esk.ctxs[i].pushed = true ∧ d.mem = c.mem)) ∧
    (x.mode = .rotate → x.frozen = false → x.pushed = true → x.lastStep = false → x.ruse.toNat ≤ (x.slot x.cur).done →
      (x.slot x.nxt).st = .full →
      ∃ d, exec (.rotateSwap ch k i) s = .next (s.put ch d) ∧ d.cores[k].esk.ctxs[i].steps = x.steps + 1 ∧
        d.cores[k].esk.ctxs[i].pushed = false ∧ (d.cores[k].esk.ctxs[i].slot x.cur).st = .empty ∧
        (∀ q, d.semVal q = c.semVal q + if q = x.fullsem then 1 else 0) ∧ d.mem = c.mem)

/-- PAGE_HALT: a conversion that meets an absent page as it checks its operands, a fill and the message of a put halt
there, and the translations count, those that went before it too (that a conversion halts before its first write, with
position 0, and that these translations count, is the model's choice, log 43). PAGE_RESUME writes the entry of the page at its place in the table, puts the 2 MiB of the page into its frame,
drops the cached copy of the entry and lets the transfer go on; PGTMO_EXPIRY ends a command with status 0x15 and the
address in INFO, holds it as the fault of a fill's slot, and drops a message; PAGE_ENTRY_UPDATE writes an entry and drops
its cached copy. The two that write wait for a stack that has stopped its accesses. -/
def Obligations.Pages : Prop :=
  (∀ (s : State) (ch : Ch) (c d : Channel) (src : Src) (r q : Running) (a : Nat) (e : Err), s.chans[ch] = c →
    c.up = true → e.kind = .absent a →
    (RunsChecked s ch src 0x18 r d q → freezeOps d q = .error e →
      exec (.pageHalt ch (.command src)) s = .next (s.put ch
        (((d.sees e).cachePage (a / 2 ^ 21)).setRun { q with halted := some (0, a), haltedOnce := true }))) ∧
    (∀ (k : Core) (i slot : Fin 16) (x : Ctx) (t : Slot) (c' : Channel) (m : Nat),
      c.cores[k].esk.ctxs[i] = x → x.slot slot.val = t → x.frozen = false → t.st = .filling → t.halted = none →
      fillBytes c.landed (t.fillBase + t.pos) (t.fillSpan - t.pos) (x.slotAddr slot.val + t.pos) =
        (c', m, some e) →
      exec (.pageHalt ch (.fill k i slot)) s = exec (.fillLanded ch k i slot) s ∧
        ∃ d, exec (.pageHalt ch (.fill k i slot)) s = .next (s.put ch d) ∧
          (d.cores[k].esk.ctxs[i].slot slot.val).halted = some (t.pos + m, a)) ∧
    (∀ (p : Port) (vc : Fin 4) (id : W16) (m : OpenMsg), c.ports[p].findOpen vc id = some m → m.complete = true →
      m.hdr.dst = c.chid → m.hdr.type = 1 → (m.hdr.put.isSome = true ∨ m.hdr.desc ≠ 0) → m.halted = none → c.ports[p].turn m = true →
      (c.landed.modPort p fun y => (y.dropOpen m).idle 4).putWrite m.hdr ((m.bytes.drop 32).take m.hdr.length.toNat) =
        .error e →
      ∃ d, exec (.pageHalt ch (.message p vc id)) s = .next (s.put ch d) ∧
        d = { ((c.landed.holdPut m.hdr).sees e).cachePage (a / 2 ^ 21) with ports := d.ports } ∧
        d.ports[p].findOpen vc id = some { m with halted := some a })) ∧
  (∀ (s : State) (ch : Ch) (c : Channel) (t : Transfer) (a frame slotAt : Nat) (entry : W64) (data : List Byte)
    (page : BitVec 27),
    s.chans[ch] = c → c.up = true → slotAt = c.agd.ptBase.toNat + 8 * (a / 2 ^ 21) →
    (c.haltedAt t = some a → frame = entry.toNat / 2 ^ 21 % 2 ^ 27 * 2 ^ 21 → inDram frame (2 ^ 21) = true →
      data.length = 2 ^ 21 → c.stopped slotAt 8 = false → c.stopped frame (2 ^ 21) = false →
      ∃ d, exec (.pageResume ch t entry data) s = .next (s.put ch d) ∧ d.haltedAt t = none ∧
        d.agd.tc.lookup (a / 2 ^ 21) = none ∧
        (slotAt + 8 ≤ frame ∨ frame + 2 ^ 21 ≤ slotAt → d.rdN slotAt 8 = entry.toNat) ∧
        (∀ b, frame ≤ b → b < frame + 2 ^ 21 → Mem.byte 0 d.mem b = data.getD (b - frame) 0) ∧
        (∀ b, (b < slotAt ∨ slotAt + 8 ≤ b) → (b < frame ∨ frame + 2 ^ 21 ≤ b) →
          Mem.byte 0 d.mem b = Mem.byte 0 c.mem b)) ∧
    (∀ src r pos, t = .command src → c.findRun src = some r → r.halted = some (pos, a) →
      ∃ d, exec (.pgtmoExpiry ch t) s = .next (s.put ch d) ∧ d = { c with running := d.running } ∧
        d.findRun src = some { r with halted := none, result := some { status := 0x15, info := BitVec.ofNat 64 a } }) ∧
    (∀ k i slot, t = .fill k i slot → c.haltedAt t = some a →
      ∃ d y, exec (.pgtmoExpiry ch t) s = .next (s.put ch d) ∧ d.cores[k].esk.ctxs[i].slot slot.val = y ∧
        y.st = .faulted ∧ y.heldStatus = 0x15 ∧ y.heldAddr = BitVec.ofNat 48 a ∧ d.mem = c.mem) ∧
    (∀ p vc id m, t = .message p vc id → c.ports[p].findOpen vc id = some m → m.halted = some a →
      exec (.pgtmoExpiry ch t) s =
        .next (s.put ch ((c.modPort p fun s => (s.dropOpen m).idle 4).sendMack m.hdr 0x15))) ∧
    (c.haltedAt t = none → exec (.pageResume ch t entry data) s = .next s ∧ exec (.pgtmoExpiry ch t) s = .next s) ∧
    (c.stopped slotAt 8 = true → exec (.pageResume ch t entry data) s = .next s) ∧
    (c.stopped (c.agd.ptBase.toNat + 8 * page.toNat) 8 = true → exec (.pageEntryUpdate ch page entry) s = .next s) ∧
    (c.stopped (c.agd.ptBase.toNat + 8 * page.toNat) 8 = false → ∃ d,
      exec (.pageEntryUpdate ch page entry) s = .next (s.put ch d) ∧
      d.rdN (c.agd.ptBase.toNat + 8 * page.toNat) 8 = entry.toNat ∧ d.agd.tc.lookup page.toNat = none ∧
      ∀ b, (b < c.agd.ptBase.toNat + 8 * page.toNat ∨ c.agd.ptBase.toNat + 8 * page.toNat + 8 ≤ b) →
        Mem.byte 0 d.mem b = Mem.byte 0 c.mem b))

/-! ### Memory faults and care (13, 16) -/

/-- ADDRESS_GUARD_VIOLATION of a master not yet frozen freezes it and counts the freeze, the first of them leaving its
address in FLT_FRZ_ADDR and its master code in FLT_FRZ_INFO; the access is not performed, and the command of a frozen
engine ends with status 0x14 and the address in INFO. An address that the master may reach freezes nothing.
UNCORRECTABLE_READ by a command ends it with status 0x16 and the codeword or word in INFO, which reads as
uncorrectable from then on; the stack counts it; an error of a second failed position of a marked slice is one (R297;
log 121). One symbol in error is corrected and counted. -/
def Obligations.MemoryFaults : Prop :=
  (∀ (s : State) (ch : Ch) (m : Master) (a : Addr) (write : Bool) (c : Channel),
    s.chans[ch] = c → c.up = true →
    (violates m a.toNat = true → c.isFrozen m = false →
      ∃ d, exec (.addressGuardViolation ch m a write) s = .next (s.put ch d) ∧ d.isFrozen m = true ∧
        d.frz.count = satAdd c.frz.count 1 ∧
        (c.frz.count = 0 → d.frz.addr = a ∧ d.frz.master = BitVec.ofNat 8 (masterCode m) ∧ d.frz.write = write) ∧
        d.mem = c.mem ∧ d.sems = c.sems ∧
        (∀ e r, m = .engine e → c.victim m = some r → c.findRun r.src = some r →
          (d.findRun r.src).bind (fun r => r.result.map fun q => (q.status, q.info)) = some (0x14, a.setWidth 64) ∧
          ∀ q : QIdx, queueEngine q.val = some e → d.queues[q].frozen = true)) ∧
    (violates m a.toNat = false ∨ c.isFrozen m = true → exec (.addressGuardViolation ch m a write) s = .next s)) ∧
  (∀ (s : State) (ch : Ch) (src : Src) (a : Addr) (k : Nat) (errs : List (BitVec 7)) (c : Channel) (r : Running)
    (i : Stack),
    s.chans[ch] = c → c.up = true → c.findRun src = some r → r.result = none → inDram a.toNat 1 = true →
    c.stopped a.toNat 1 = false → a.toNat / 0x900000000 = i.val → k = a.toNat - a.toNat % 64 →
    (k ∈ c.bad ∨ (2 ≤ (inError errs).length ∧ (inError errs).length ≤ 7 ∧ ∀ m ∈ c.stk[i].marked, m.1 ≠ sliceOf k) ∨
        (∃ x ∈ inError errs, (sliceOf k, x) ∈ c.stk[i].second ∧ (sliceOf k, x) ∉ c.stk[i].marked) →
      ∃ d, exec (.uncorrectableRead ch (.command src) ⟨a, errs⟩) s = .next (s.put ch d) ∧
        d.findRun src = some { r with
          held := none, halted := none, result := some { status := 0x16, info := BitVec.ofNat 64 k } } ∧
        k ∈ d.bad ∧ d.stk[i].ueTotal = satAdd c.stk[i].ueTotal 1 ∧ d.stk[i].ueAddr = BitVec.ofNat 48 k ∧
        d.stk[i].stUe = c.stk[i].stUe ∧ d.mem = c.mem) ∧
    (k ∉ c.bad → (inError errs).length = 1 → (∀ x ∈ inError errs, (sliceOf k, x) ∉ c.stk[i].second) →
      ∃ d, exec (.uncorrectableRead ch (.command src) ⟨a, errs⟩) s = .next (s.put ch d) ∧ d = { c with stk := d.stk } ∧
        d.stk[i].ceTotal = c.stk[i].ceTotal + 1 ∧ d.stk[i].ueTotal = c.stk[i].ueTotal ∧ d.stk[i].stUe = c.stk[i].stUe) ∧
    (k ∉ c.bad → inError errs = [] → exec (.uncorrectableRead ch (.command src) ⟨a, errs⟩) s = .next s))

/-- BADCONN_MARK of a symbol corrected 16 times marks the first of its slice and keeps the first of all in the register;
another of the slice is from then on no longer corrected (log 121).
PATROL_SCRUB and NEVE_SCRUB count a correction, and a word found uncorrectable reads so from then on and sets UE; the
patrol rests while TF is below 16/16 or accesses are stopped. (That a scrub counts in UE_TOTAL is the model's reading,
log 83; corrections count towards the 16 without the window of 1 ms, log 102.) REFRESH serves the intervals due so that at most 8 stay
postponed. STACK_TEMP_UPDATE: TEMP is the hottest die rounded up to a whole degree and TMAX its maximum; the refresh rate
doubles from 86 °C and halves again at 83; TF falls by two sixteenths a degree from 88 to 91 and by one to 95; accesses
stop from 96 °C and go on at 92, those of the host that waited among them; memory stays where none waited. -/
def Obligations.MemoryCareAndHeat : Prop :=
  (∀ (s : State) (ch : Ch) (i : Stack) (k : Core) (c : Channel) (t : StackState) (slice : BitVec 6) (symbol : BitVec 7)
    (a : Addr) (x : Nat) (errs : List (BitVec 7)) (last : Bool) (due : Nat),
    s.powered = true → s.chans[ch] = c → c.stk[i] = t → x = wordOf a.toNat →
    (16 ≤ (t.corr.lookup (slice, symbol)).getD 0 → (∀ m ∈ t.marked, m.1 ≠ slice) →
      exec (.badconnMark ch i slice symbol) s = .next (s.put ch (c.modStack i fun t => { t with
        marked := t.marked ++ [(slice, symbol)], stBadconn := true, badValid := true
        badSlice := if t.badValid then t.badSlice else slice, badSymbol := if t.badValid then t.badSymbol else symbol }))) ∧
    ((t.corr.lookup (slice, symbol)).getD 0 < 16 ∨ (slice, symbol) ∈ t.marked →
      exec (.badconnMark ch i slice symbol) s = .next s) ∧
    (16 ≤ (t.corr.lookup (slice, symbol)).getD 0 → (slice, symbol) ∉ t.marked → (∃ y, (slice, y) ∈ t.marked) →
      (slice, symbol) ∉ t.second →
      exec (.badconnMark ch i slice symbol) s = .next (s.put ch (c.modStack i fun t =>
        { t with second := t.second ++ [(slice, symbol)] }))) ∧
    (inDram a.toNat 1 = true → a.toNat / 0x900000000 = i.val → t.tf = 16 → t.overtemp = false →
      (x ∉ c.bad → inError errs = [] → exec (.patrolScrub ch i a errs last) s = .next (s.put ch (c.modStack i fun t =>
        { t with scrub := if last then t.scrub + 1 else t.scrub }))) ∧
      (x ∉ c.bad → (inError errs).length = 1 → (∀ y ∈ inError errs, (sliceOf x, y) ∉ t.second) →
        ∃ d, exec (.patrolScrub ch i a errs last) s = .next (s.put ch d) ∧ d = { c with stk := d.stk } ∧
          d.stk[i].ceTotal = t.ceTotal + 1 ∧ d.stk[i].scrub = (if last then t.scrub + 1 else t.scrub) ∧
          d.stk[i].ueTotal = t.ueTotal ∧ d.stk[i].stUe = t.stUe) ∧
      (x ∈ c.bad ∨ (2 ≤ (inError errs).length ∧ (inError errs).length ≤ 7 ∧ ∀ m ∈ t.marked, m.1 ≠ sliceOf x) →
        ∃ d, exec (.patrolScrub ch i a errs last) s = .next (s.put ch d) ∧ x ∈ d.bad ∧ d.stk[i].stUe = true ∧
          d.stk[i].ueTotal = satAdd t.ueTotal 1 ∧ d.mem = c.mem)) ∧
    (t.tf ≠ 16 ∨ t.overtemp = true → exec (.patrolScrub ch i a errs last) s = .next s) ∧
    (neveOf a.toNat = some k.val → x ∉ c.bad → (inError errs).length = 1 →
      exec (.neveScrub ch k a errs) s = .next (s.put ch (c.modCore k fun x =>
        { x with neve := { x.neve with ceTotal := x.neve.ceTotal + 1 } }))) ∧
    (neveOf a.toNat = some k.val → x ∈ c.bad ∨ (inError errs).length = 2 →
      ∃ d, exec (.neveScrub ch k a errs) s = .next (s.put ch d) ∧ x ∈ d.bad ∧ d.cores[k].neve.stUe = true ∧
        d.cores[k].neve.ueTotal = satAdd c.cores[k].neve.ueTotal 1 ∧ d.mem = c.mem) ∧
    (∃ d, exec (.refresh ch i due) s = .next (s.put ch d) ∧
      d.stk[i].owed ≤ 8 ∧ d.stk[i].owed + d.stk[i].refreshes = t.owed + due + t.refreshes ∧
      (0 < t.owed + due → t.refreshes < d.stk[i].refreshes))) ∧
  (∀ (s : State) (ch : Ch) (i : Stack) (ms : List Nat) (t : StackState) (r : Nat),
    s.powered = true → s.chans[ch].stk[i] = t → r = (ms.foldl max 0 + 999) / 1000 → r ≤ 255 →
    ∃ u y, exec (.stackTempUpdate ch i ms) s = .next u ∧ u.chans[ch].stk[i] = y ∧
      y.temp.toNat = r ∧ y.tmax.toNat = max t.tmax.toNat r ∧
      y.ref2x = (decide (86 ≤ r) || (decide (84 ≤ r) && t.ref2x)) ∧
      (r ≤ 87 → y.tf = 16) ∧ (88 ≤ r → r ≤ 91 → y.tf.toNat = 16 - 2 * (r - 87)) ∧
      (92 ≤ r → r ≤ 95 → y.tf.toNat = 8 - (r - 91)) ∧
      y.overtemp = (decide (96 ≤ r) || (decide (93 ≤ r) && t.overtemp)) ∧
      y.stOvertemp = (t.stOvertemp || decide (96 ≤ r)) ∧
      u.chans[ch].hostWait = s.chans[ch].hostWait.filter (fun x => u.chans[ch].stopped x.1 x.2.1) ∧
      (s.chans[ch].hostWait = [] → s.chans[ch].stp.ctrlOwed = false → u.chans[ch].mem = s.chans[ch].mem))

/-- Channel faults: LOGIC_CHECK_FAILURE sets FAULT with class 0x03, CHANNEL_FAULT with its class and address,
LINKTMO_EXPIRY with class 0x06 at the end of the higher identifier and nothing at the other; each sends a heartbeat
with FAULT at once, but none in DONE (10 R246); the first two write a record of the diagnostic log (18 R400, log 118). A
class that is no channel fault's changes nothing. WATCHDOG_EXPIRY holds the channel with cause WDOG, its PLLs cold. -/
def Obligations.ChannelFaults : Prop :=
  ∀ (s : State) (ch : Ch) (c : Channel) (cls : Byte) (a : Addr) (p : Port), s.chans[ch] = c → c.up = true →
    (∀ i (x : Byte) (b : Addr), (i = .logicCheckFailure ch ∧ x = 0x03 ∧ b = 0) ∨
        (i = .channelFault ch cls a ∧ isChannelFault cls = true ∧ x = cls ∧ b = a) ∨
        (i = .linktmoExpiry ch p ∧ x = 0x06 ∧ b = 0 ∧ c.ports[p].mode = .polvor ∧ c.ports[p].st = .down ∧
          c.ports[p].peerChan.toNat < c.chid.toNat) →
      ∃ d, exec i s = .next (s.put ch d) ∧ d.flt.fault = true ∧ d.flt.fclass = x ∧ d.flt.faddr = b ∧
        (c.stp.st ≠ .done → c.flt.retired = false → d.flt.hbseq = c.flt.hbseq + 1 ∧
          ∃ h, d.flt.sentHb = c.flt.sentHb ++ [h] ∧ h.fault = true ∧ h.fclass = x ∧ h.faddr = b) ∧
        (c.stp.st = .done → d.flt.sentHb = c.flt.sentHb ∧ d.ports = c.ports) ∧
        (i ≠ .linktmoExpiry ch p → d.boot = c.boot.diagnose x.toNat b.toNat) ∧
        d.mem = c.mem ∧ d.sems = c.sems ∧ d.queues = c.queues) ∧
    (isChannelFault cls = false → exec (.channelFault ch cls a) s = .next s) ∧
    (c.chid.toNat ≤ c.ports[p].peerChan.toNat → exec (.linktmoExpiry ch p) s = .next s) ∧
    (∃ d, exec (.watchdogExpiry ch) s = .next (s.put ch d) ∧ d.boot.life = .held ∧ d.boot.cause = .wdog ∧
      d.flt.fault = true ∧ d.flt.fclass = 0x05 ∧ d.gov.pllA = .cold ∧ (∀ k : Core, d.gov.cores[k].pll = .cold) ∧
      d.mem = c.mem)

/-! ### Links (14) -/

/-- What a port sends as it may: payload flits in SEQ order, each once on the wire and once in the replay buffer,
which never passes 512 flits, one credit of its virtual channel spent on each, and nothing while the port is not UP. A
port that is UP sends until its replay buffer is full or no virtual channel has both a flit and a credit; so one with a
flit, a credit and room sends. The slots go by weighted rounds of data, reduction, multicast and control: a virtual channel
that can send takes its next slot up to its weight in a row, and then, or when it has nothing it can send, the next in the
round that can takes one.
-/
def Obligations.PortSends : Prop :=
  ∀ s : PortState, s.replayBuf.length ≤ 512 → s.cred.length = 4 → s.txq.length = 4 →
    ∃ fs : List Flit, s.pump.wire = s.wire ++ fs ∧ s.pump.replayBuf = s.replayBuf ++ fs ∧
      s.pump.replayBuf.length ≤ 512 ∧ (s.st ≠ .up → s.pump = s) ∧
      (∀ i (h : i < fs.length), fs[i].seq = s.txSeq + BitVec.ofNat 12 i ∧ fs[i].crc = crc32 (flitBytes fs[i])) ∧
      (∀ f ∈ fs, ∃ v, ∃ g ∈ s.txq.getD v [], f.payload = g.payload ∧ f.msgid = g.msgid ∧ f.frag = g.frag ∧ f.last = g.last) ∧
      ((∀ v : Fin 4, ∀ f ∈ s.txq.getD v [], f.vc = v) →
        (∀ v : Fin 4, (s.pump.cred.getD v 0).toNat + (fs.filter fun f => f.vc = v).length = (s.cred.getD v 0).toNat ∧
          (s.pump.txq.getD v []).length + (fs.filter fun f => f.vc = v).length = (s.txq.getD v []).length) ∧
        ∃ slots : List (Fin 4 × Nat), slots.map Prod.fst = fs.map (·.vc) ∧
          ∀ (i n : Nat) (v : Fin 4) (ready : Fin 4 → Bool), i < fs.length →
            (s.arb :: slots)[i]? = some (v, n) →
            (∀ u, ready u = (decide (((fs.take i).filter fun f => f.vc = u).length < (s.txq.getD u []).length) &&
              decide (((fs.take i).filter fun f => f.vc = u).length < (s.cred.getD u 0).toNat))) →
            (ready v = true → n < s.weight v → slots[i]? = some (v, n + 1)) ∧
            (ready v = false ∨ s.weight v ≤ n → ∃ u, (roundFrom v).find? ready = some u ∧ slots[i]? = some (u, 1))) ∧
      (s.st = .up → s.pump.replayBuf.length = 512 ∨ ∀ v : Fin 4, s.pump.txq.getD v [] = [] ∨ s.pump.cred.getD v 0 = 0) ∧
      (s.st = .up → s.replayBuf.length < 512 → (∃ v : Fin 4, s.txq.getD v [] ≠ [] ∧ s.cred.getD v 0 ≠ 0) → fs ≠ [])

/-- Flits. PAYLOAD_FLIT with the SEQ expected is accepted: the SEQ expected moves on by one, and fragment 0 opens its
message while a later one is added to it. A bad flit, and one with another SEQ, is discarded: no message changes, the
SEQ expected stays, and the next flit, an idle one, carries NACK. IDLE_FLIT brings ACK and credits and nothing else, and
a bad one NACK. (A NACK that a payload flit brings is NACK_REPLAY's, log 59.) -/
def Obligations.Flits : Prop :=
  ∀ (s : State) (ch : Ch) (p : Port) (f : Flit) (unc : Bool) (c : Channel) (x : PortState),
    s.chans[ch] = c → c.up = true → c.ports[p] = x → x.st = .up →
    (flitBad f unc = false → f.kind = 1 → f.seq = x.rxSeq →
      (f.frag = 0 → x.findOpen f.vc f.msgid = none →
        ∃ d, exec (.payloadFlit ch p f unc) s = .next (s.put ch d) ∧ d.ports[p].rxSeq = x.rxSeq + 1 ∧
          d.ports[p].rxFlits = x.rxFlits + 1 ∧ d.ports[p].findOpen f.vc f.msgid = some
            { vc := f.vc, msgid := f.msgid, bytes := f.payload.take f.len.toNat, frags := 1, complete := f.last
              put := f.put }) ∧
      (∀ m, f.frag ≠ 0 → x.findOpen f.vc f.msgid = some m → m.complete = false → m.frags = f.frag.toNat →
        ∃ d, exec (.payloadFlit ch p f unc) s = .next (s.put ch d) ∧ d.ports[p].rxSeq = x.rxSeq + 1 ∧
          d.ports[p].findOpen f.vc f.msgid = some
            { m with bytes := m.bytes ++ f.payload.take f.len.toNat, frags := m.frags + 1, complete := f.last })) ∧
    (flitBad f unc = true →
      ∃ d g, exec (.payloadFlit ch p f unc) s = .next (s.put ch d) ∧ d.ports[p].wire = x.wire ++ [g] ∧ g.kind = 0 ∧
        g.nack = true ∧ d.ports[p].rxSeq = x.rxSeq ∧ d.ports[p].open_ = x.open_ ∧ d.ports[p].cred = x.cred ∧
        d.ports[p].fecUnc = (if unc then satAdd x.fecUnc 1 else x.fecUnc)) ∧
    (flitBad f unc = false → f.kind = 1 → f.seq ≠ x.rxSeq →
      ∃ d g, exec (.payloadFlit ch p f unc) s = .next (s.put ch d) ∧ d.ports[p].wire.getLast? = some g ∧ g.kind = 0 ∧
        g.nack = true ∧ d.ports[p].rxSeq = x.rxSeq ∧ d.ports[p].open_ = x.open_) ∧
    (flitBad f false = false → f.kind = 0 →
      exec (.idleFlit ch p f) s = .next (s.put ch (c.modPort p fun x => x.takeHeader f)) ∧
      (x.takeHeader f).rxSeq = x.rxSeq ∧ (x.takeHeader f).open_ = x.open_) ∧
    (flitBad f false = true → f.kind = 0 →
      ∃ d g, exec (.idleFlit ch p f) s = .next (s.put ch d) ∧ d.ports[p].wire = x.wire ++ [g] ∧ g.nack = true ∧
        d.ports[p].crcErr = satAdd x.crcErr 1 ∧ d.ports[p].cred = x.cred)

/-- MESSAGE_COMPLETE: the message of a put that its descriptor admits is written whole and acknowledged with status
0x00, its buffers freed; a dispatch share goes to the dispatcher's input; a reduction or multicast message whose
collective runs, and every other message, is handed on, and one whose collective does not run stays in its buffers. A
message whose turn has not come, or that is incomplete, halted or for another channel, stays. MESSAGE_FORWARD of a
message for another channel sends it on by its route with HOPS raised by one, or discards, counts and rejects it where
HOPS is 15 or the next port cannot send. STALLTMO_EXPIRY discards an incomplete message, frees its buffers and counts it
in PVR_STALL_DROP, and leaves a complete one alone; LATE_FRAGMENT, a fragment other than the first that names no open
message, is dropped and counted in PVR_LATE_DROP. Neither writes a byte. -/
def Obligations.MessagesArrive : Prop :=
  (∀ (s : State) (ch : Ch) (p q : Port) (vc : Fin 4) (id : W16) (c c' freed : Channel) (x : PortState) (m : OpenMsg)
    (h : MsgHdr) (body : List Byte),
    s.chans[ch] = c → c.up = true → c.ports[p] = x → x.findOpen vc id = some m → m.hdr = h →
    freed = c.modPort p (fun y => (y.dropOpen m).idle 4) → body = (m.bytes.drop 32).take h.length.toNat →
    (m.complete = true → h.dst = c.chid → m.halted = none → x.turn m = true →
      (h.type = 1 → (h.put.isSome = true ∨ h.desc ≠ 0) → freed.landed.putWrite h body = .ok c' → c'.poisonHit = none →
        exec (.messageComplete ch p vc id) s = .next (s.put ch (c'.sendMack h 0))) ∧
      (h.type = 2 → fld body 0 1 = 0 → ∃ d, exec (.messageComplete ch p vc id) s = .next (s.put ch d) ∧
        d.inputs = c.inputs ++ [(Engine.dispatcher, parseShare h.src body)] ∧ d.mem = c.mem) ∧
      (h.type = 3 ∨ h.type = 5 → c.collOf (redParse h.src body) = none →
        exec (.messageComplete ch p vc id) s = .next s) ∧
      ((h.type = 1 → h.put = none ∧ h.desc = 0) → h.type ≠ 2 → (h.type = 3 ∨ h.type = 5 → (c.collOf (redParse h.src body)).isSome = true) →
        ∃ d, exec (.messageComplete ch p vc id) s = .next (s.put ch d) ∧ d.inbox = c.inbox ++ [⟨h, body⟩] ∧
          d.mem = c.mem)) ∧
    (m.complete = false ∨ h.dst ≠ c.chid ∨ m.halted.isSome = true ∨ x.turn m = false →
      exec (.messageComplete ch p vc id) s = .next s) ∧
    (m.complete = true → h.dst ≠ c.chid → x.turn m = true →
      (∀ r, h.hops ≠ 15 → c.route h.dst = some r →
        q = (if c.altFor h (m.bytes.drop 32) = true ∧ r.altValid = true then r.alt else r.main) →
        (c.ports[q].sendable = true → q ≠ p →
          ∃ d i, exec (.messageForward ch p vc id) s = .next (s.put ch d) ∧ d.mem = c.mem ∧
            d.ports[p] = (x.dropOpen m).idle 4 ∧ ⟨p, vc, i, h⟩ ∈ d.ports[q].relayed ∧
            c.ports[q].enqueue vc ⟨{ h with hops := h.hops + 1 }, m.bytes.drop 32⟩ =
              ({ d.ports[q] with relayed := c.ports[q].relayed }, i)) ∧
        (c.ports[q].sendable = false →
          exec (.messageForward ch p vc id) s = .next (s.put ch (freed.routeDrop p h)))) ∧
      (h.hops = 15 ∨ c.route h.dst = none →
        exec (.messageForward ch p vc id) s = .next (s.put ch (freed.routeDrop p h))) ∧
      (freed.routeDrop p h).ports[p].routeDrop = satAdd x.routeDrop 1)) ∧
  (∀ (s : State) (ch : Ch) (p : Port) (vc : Fin 4) (id : W16) (c : Channel) (x : PortState) (f : Flit),
    s.chans[ch] = c → c.up = true → c.ports[p] = x →
    (∀ m, x.findOpen vc id = some m → m.complete = false →
      ∃ d, exec (.stalltmoExpiry ch p vc id) s = .next (s.put ch d) ∧ d = { c with ports := d.ports } ∧
        d.ports[p].open_ = x.open_.filter (fun z => !(z.vc == m.vc && z.msgid == m.msgid)) ∧
        d.ports[p].crFreed = x.crFreed.modify m.vc (· + BitVec.ofNat 16 m.frags) ∧
        d.ports[p].stallDrop = satAdd x.stallDrop 1) ∧
    (∀ m, x.findOpen vc id = some m → m.complete = true → exec (.stalltmoExpiry ch p vc id) s = .next s) ∧
    (x.st = .up → f.kind = 1 → f.frag ≠ 0 → x.findOpen f.vc f.msgid = none → flitBad f false = false → f.seq = x.rxSeq →
      ∃ d, exec (.lateFragment ch p f) s = .next (s.put ch d) ∧ d.ports[p].lateDrop = satAdd x.lateDrop 1 ∧
        d.ports[p].rxSeq = x.rxSeq + 1 ∧ d.ports[p].open_ = x.open_ ∧ d.mem = c.mem))

/-- MACK with status 0x00 takes one message off those its command waits for, and the command ends with the result it
holds when none is left; any other status ends it with that status. MNACK with NOROUTE ends it with status 0x17; without,
the message is sent again on its port under a new MSGID, but during a rollback its command ends with status 0x1A. (MNACK in a rollback: log 55.) -/
def Obligations.Acknowledgements : Prop :=
  ∀ (s : State) (ch : Ch) (c c' : Channel) (h : MsgHdr) (e : InFlight) (src : Src) (r : Running) (res : Result),
    s.chans[ch] = c → c.up = true → e.owner = some src → e.share = none → c.findRun src = some r → r.result = none →
    r.held = some res →
    (h.type ≠ 5 → c.popFlight (fun e => hdrSame e.msg.hdr h) = some (e, c') →
      (r.unacked = 1 → ∃ d, exec (.mack ch h 0) s = .next (s.put ch d) ∧
        d.findRun src = some { r with unacked := 0, held := none, result := some res }) ∧
      (2 ≤ r.unacked → ∃ d, exec (.mack ch h 0) s = .next (s.put ch d) ∧
        d.findRun src = some { r with unacked := r.unacked - 1 }) ∧
      (∀ st : Byte, st ≠ 0 → ∃ t, exec (.mack ch h st) s = .next t ∧ t.statusOf ch src = some st ∧
        t.chans[ch].mem = c.mem)) ∧
    (∀ n : NackOf, (∃ b, n = .message h b ∧ c.popFlight (fun e => hdrSame e.msg.hdr h) = some (e, c')) ∨
        (∃ p vc id, n = .fragment p vc id ∧
          c.popFlight (fun e => e.port == p && e.vc == vc && e.msgid == id) = some (e, c')) →
      (n = .message h true → ∃ t, exec (.mnack ch n) s = .next t ∧ t.statusOf ch src = some 0x17) ∧
      (n ≠ .message h true → c.stp.st = .rollback →
        ∃ t, exec (.mnack ch n) s = .next t ∧ t.statusOf ch src = some 0x1A) ∧
      (∀ d, n ≠ .message h true → c.stp.st ≠ .rollback →
        (c'.takeMsg 7).sendOn e.port e.vc e.msg (some src) none = some d → exec (.mnack ch n) s = .next (s.put ch d)))

/-- LINK_TRAINING_DONE of a POLVOR port in training sends a link-control flit and the port stays in TRAINING; an
ETHERNET port is UP (log 30). LINK_CONTROL_FLIT of a peer that the configuration does not list, or with a verdict of
mismatch, makes the port FAILED with MISWIRE, its queues empty and the commands of its messages ended; one with a verdict
of match makes it UP with the peer's credits; one without a verdict is answered with this side's and the port stays in
TRAINING. PORT_DOWN empties the port's queues and replay buffer, keeps complete messages only, and ends with status 0x17
every command of a message in flight on it; PORT_RETRAINED restarts the link with SEQ 0, and where both verdicts are of a
match the port is UP with the peer's credits, else it stays DOWN (log 110). ACK_TIMEOUT, and a good flit with NACK
(NACK_REPLAY), send every unacknowledged flit again in order, and after 16 replays without an advance of ACK the port
goes DOWN. -/
def Obligations.LinkLife : Prop :=
  (∀ (s : State) (ch : Ch) (p : Port) (c : Channel) (x : PortState) (peer : ChanId) (pp : Port) (cr : List W16) (v : Verdict),
    s.chans[ch] = c → c.up = true → c.ports[p] = x → x.st = .training →
    (x.mode = .polvor → x.trained = false →
      ∃ d, exec (.linkTrainingDone ch p) s = .next (s.put ch d) ∧ d.ports[p].trained = true ∧
        d.ports[p].st = .training ∧ ∃ f, d.ports[p].wire = x.wire ++ [f] ∧ f.kind = 2) ∧
    (x.mode = .ethernet → exec (.linkTrainingDone ch p) s = .next (s.put ch (c.modPort p fun x =>
      { x with trained := true, st := .up }))) ∧
    (x.mode = .polvor → x.trained = true →
      (peer ≠ x.peerChan ∨ pp.val ≠ x.peerPort.toNat ∨ v = .mismatch →
        ∃ t, exec (.linkControlFlit ch p peer pp cr v) s = .next t ∧ t.chans[ch].ports[p].st = .failed ∧
          t.chans[ch].ports[p].miswire = true ∧ t.chans[ch].ports[p].txq = [[], [], [], []] ∧
          t.chans[ch].ports[p].inFlight = [] ∧
          ∀ e src r, e ∈ x.inFlight → e.owner = some src → c.findRun src = some r → r.result = none →
            t.statusOf ch src = some 0x17) ∧
      (peer = x.peerChan → pp.val = x.peerPort.toNat →
        (v = .isMatch → cr.length = 4 → ∃ d, exec (.linkControlFlit ch p peer pp cr v) s = .next (s.put ch d) ∧
          d.ports[p].st = .up ∧ d.ports[p].miswire = x.miswire ∧
          (x.txq = [[], [], [], []] → d.ports[p].cred = cr)) ∧
        (v = .none → ∃ d, exec (.linkControlFlit ch p peer pp cr v) s = .next (s.put ch d) ∧
          d.ports[p].st = .training ∧ ∃ f, d.ports[p].wire = x.wire ++ [f] ∧ f.kind = 2)))) ∧
  (∀ (s : State) (ch : Ch) (p : Port) (c : Channel) (x : PortState) (f : Flit) (peer : ChanId) (pp : Port)
    (cr : List W16) (v : Verdict),
    s.chans[ch] = c → c.up = true → c.ports[p] = x → x.mode = .polvor →
    (x.st = .up →
      ∃ t, exec (.portDown ch p) s = .next t ∧ t.chans[ch].ports[p].st = .down ∧ t.chans[ch].ports[p].retryx = true ∧
        t.chans[ch].ports[p].replayBuf = [] ∧ t.chans[ch].ports[p].inFlight = [] ∧
        t.chans[ch].ports[p].txq = [[], [], [], []] ∧ t.chans[ch].ports[p].open_ = x.open_.filter (·.complete) ∧
        ∀ e src r, e ∈ x.inFlight → e.owner = some src → c.findRun src = some r → r.result = none →
          t.statusOf ch src = some 0x17) ∧
    (x.st = .down → x.txq = [[], [], [], []] → peer = x.peerChan → pp.val = x.peerPort.toNat → v = .isMatch →
      cr.length = 4 →
      ∃ d, exec (.portRetrained ch ⟨p, peer, pp, cr, v⟩) s = .next (s.put ch d) ∧ d.ports[p].st = .up ∧
        d.ports[p].txSeq = 0 ∧ d.ports[p].rxSeq = 0 ∧ d.ports[p].replayBuf = [] ∧ d.ports[p].cred = cr) ∧
    (x.st = .down → peer ≠ x.peerChan ∨ pp.val ≠ x.peerPort.toNat ∨ v ≠ .isMatch →
      ∃ d, exec (.portRetrained ch ⟨p, peer, pp, cr, v⟩) s = .next (s.put ch d) ∧ d.ports[p].st = .down ∧
        d.ports[p].open_ = x.open_) ∧
    (x.st = .up → x.replayBuf ≠ [] → x.replays < 16 →
      ∃ d fs, exec (.ackTimeout ch p) s = .next (s.put ch d) ∧ d.ports[p].wire = x.wire ++ fs ∧
        fs.map (fun f => (f.seq, f.vc, f.msgid, f.frag, f.payload)) =
          x.replayBuf.map (fun f => (f.seq, f.vc, f.msgid, f.frag, f.payload)) ∧
        d.ports[p].cred = x.cred ∧ d.ports[p].replay = satAdd x.replay 1 ∧ d.ports[p].replays = x.replays + 1) ∧
    (x.st = .up → x.replayBuf ≠ [] → 16 ≤ x.replays →
      exec (.ackTimeout ch p) s = exec (.portDown ch p) s) ∧
    (x.st = .up → f.nack = true → flitBad f false = false → (x.takeHeader f).replayBuf ≠ [] →
      (x.takeHeader f).replays < 16 →
      exec (.nackReplay ch p f) s = .next (s.put ch (c.modPort p fun y => (y.takeHeader f).replayAll))))

/-! ### Multicast, ingest and collectives (14, 15) -/

/-- MULTICAST_ACK counts one more message acknowledged by a child; MCTMO_EXPIRY of a child that owes an
acknowledgement drops it from the stream, counts the drop at its port and counts it as the straggler; MDROP asks the
root for the rest; MFETCH of a child that was dropped puts it on the root's point-to-point list, and the root sends it
the stream's messages from that index on, in order, on the data virtual channel. No stream runs more than three messages
ahead of its slowest child. (The bodies of MDROP and MFETCH are the model's, log 20.) -/
def Obligations.Multicast : Prop :=
  ∀ (s : State) (ch : Ch) (id : StreamId) (child : ChanId) (first i : Nat) (c c' : Channel) (x : Stream) (e : InFlight),
    s.chans[ch] = c → c.up = true →
    (c.isFrozen (.engine .confluence) = false → c.stream id = some x → x.live.find? (fun p => p.2 == child) = some (i, child) →
      (c.popFlight (isMcTo id child) = some (e, c') →
        ∃ t y, exec (.multicastAck ch id child) s = .next t ∧ t.chans[ch].stream id = some y ∧
          y.acked = x.acked.modify i (· + 1) ∧ y.msgs = x.msgs ∧ y.children = x.children ∧ y.dropped = x.dropped) ∧
      (c.popFlight (isMcTo id child) = none → exec (.multicastAck ch id child) s = .next s) ∧
      (x.acked.getD i 0 < x.sent.getD i 0 →
        ∃ t y, exec (.mctmoExpiry ch id child) s = .next t ∧ t.chans[ch].stream id = some y ∧
          y.dropped = x.dropped ++ [child] ∧ y.msgs = x.msgs ∧ y.acked = x.acked ∧ t.chans[ch].cfl.strag = true ∧
          t.chans[ch].cfl.stragTotal = satAdd c.cfl.stragTotal 1 ∧ t.chans[ch].cfl.stragChan = child ∧
          ∀ r, c.route child = some r → t.chans[ch].ports[r.main].mcDrop = satAdd c.ports[r.main].mcDrop 1)) ∧
    (c.isFrozen (.engine .confluence) = false → c.stream id = some x → id.root = c.chid → child ∈ x.dropped →
      child ∉ x.fetch →
      ∃ t y, exec (.mfetch ch id child first) s = .next t ∧ t.chans[ch].stream id = some y ∧
        y.fetch = x.fetch ++ [child] ∧ y.msgs = x.msgs ∧
        ∀ r p, c.route child = some r → p = (if id.path = true ∧ r.altValid = true then r.alt else r.main) →
          c.ports[p].sendable = true →
          t.chans[ch].ports[p].inFlight.map (fun e => (e.msg, e.vc)) = c.ports[p].inFlight.map (fun e => (e.msg, e.vc)) ++
            (x.msgs.drop first).map fun m =>
              let b := redBody { m with sender := c.chid }
              (⟨c.hdr child 5 b.length, b⟩, 0)) ∧
    exec (.mdrop ch id first) s = .next (s.put ch ((c.takeMsg 8).post 2
      ⟨c.hdr id.root 9 (streamBody id first).length, streamBody id first⟩)) ∧
    (∀ (w : Wk) (n : Nat), w.c.stream id = some x → (∀ p ∈ x.live, x.sent.getD p.1 0 ≤ x.slowest + 3) →
      ∃ y, (w.pumpStream id n).c.stream id = some y ∧ ∀ p ∈ y.live, y.sent.getD p.1 0 ≤ y.slowest + 3)

/-- ETHERNET_FRAME: a bad check sequence is counted in PVR_ETH_BADCHK; a good frame to the port's MAC address that
carries UDP to its address and port is counted as received, an ARP request for its address is answered; any other, and
a good one that finds the receive buffer full, is counted in PVR_ETH_DROP. (That a bad one is counted in PVR_ETH_BADCHK
also where the buffer is full is the model's order, log 82; the byte layouts of the frame are the model's, log 31.) Ingest. A WRITE of one datagram within a writable window is written whole at the window's base plus its
offset, and nowhere else, adds 1 to the window's semaphore and is acknowledged; a first datagram without LAST is held
and writes nothing; a window without WR denies it. A READ of a readable window answers its bytes and changes no memory.
A bad CHECK is counted and answered with nothing. INGEST_STALLTMO_EXPIRY discards a held message. -/
def Obligations.EthernetIngest : Prop :=
  (∀ (s : State) (ch : Ch) (p : Port) (f : Frame) (c : Channel) (x : PortState) (b : List Byte),
    s.chans[ch] = c → c.up = true → c.ports[p] = x → x.mode = .ethernet → x.st = .up →
    (f.fcsOk = false → exec (.ethernetFrame ch p f) s = .next (s.put ch (c.modPort p fun x =>
      { x with ethBadchk := satAdd x.ethBadchk 1 }))) ∧
    (f.fcsOk = true → f.full = true → exec (.ethernetFrame ch p f) s =
      .next (s.put ch (c.modPort p fun x => { x with ethDrop := satAdd x.ethDrop 1 }))) ∧
    (f.fcsOk = true → f.full = false → 60 ≤ f.bytes.length → f.bytes.length ≤ 9212 → x.untag f.bytes = some b →
      (x.udpOk b = true → beFld f.bytes 0 6 = x.ethMac.toNat → exec (.ethernetFrame ch p f) s =
        .next (s.put ch (c.modPort p fun x => { x with ethRx := x.ethRx + 1 }))) ∧
      (x.arpOk b = true → beFld f.bytes 0 6 = 0xFFFFFFFFFFFF → exec (.ethernetFrame ch p f) s =
        .next (s.put ch (c.modPort p fun y => { y with
          ethRx := y.ethRx + 1, ethTx := y.ethTx + 1, sentFrames := y.sentFrames ++ [x.arpReply b] }))) ∧
      (x.udpOk b = false → x.arpOk b = false → exec (.ethernetFrame ch p f) s =
        .next (s.put ch (c.modPort p fun x => { x with ethDrop := satAdd x.ethDrop 1 })))) ∧
    (f.fcsOk = true → x.untag f.bytes = none → exec (.ethernetFrame ch p f) s =
      .next (s.put ch (c.modPort p fun x => { x with ethDrop := satAdd x.ethDrop 1 })))) ∧
  (∀ (s : State) (ch : Ch) (p : Port) (d : Datagram) (c : Channel) (x : PortState) (w : Window) (a : Nat),
    s.chans[ch] = c → c.up = true → c.ports[p] = x → x.mode = .ethernet → x.st = .up → dgWindow d x = w →
    a = w.base.toNat + d.offset.toNat →
    (d.check = dgSum d → dgOk d = true → w.admits d.peerIp = true →
      (d.type = 1 → w.wr = true → d.msgid ∉ w.done → x.ingest.find? (fun m => m.key d) = none → x.ingest.length < 16 →
        d.seq = 0 → d.offset.toNat + d.payload.length ≤ w.size.toNat → c.stopped a d.payload.length = false →
        (d.flags = 1 → ∃ e, exec (.ingestWrite ch p d) s = .next (s.put ch e) ∧
          (∀ i, Mem.byte 0 e.mem i = if a ≤ i ∧ i < a + d.payload.length then d.payload.getD (i - a) 0
            else Mem.byte 0 c.mem i) ∧
          (∀ q, e.semVal q = c.semVal q + if q = w.sem then 1 else 0) ∧
          (∃ r, e.ports[p].sentDatagrams = x.sentDatagrams ++ [r] ∧ r.type = 2 ∧ r.msgid = d.msgid ∧
            r.offset = c.stp.batch) ∧ d.msgid ∈ (dgWindow d e.ports[p]).done) ∧
        (d.flags = 0 → exec (.ingestWrite ch p d) s = .next (s.put ch (c.modPort p fun x => { x with
          ingest := x.ingest ++ [⟨d.win.toNat, d.msgid, [(0, d.offset.toNat, d.payload)], none⟩] })))) ∧
      (d.type = 1 → w.wr = false → ∃ r, exec (.ingestWrite ch p d) s = .next (s.put ch (c.modPort p fun x => { x with
          sentDatagrams := x.sentDatagrams ++ [r], ethTx := x.ethTx + 1 })) ∧ r.type = 3 ∧ r.len = 4) ∧
      (d.type = 4 → w.rd = true → d.len.toNat ≤ 8192 → d.offset.toNat + d.len.toNat ≤ w.size.toNat →
        c.stopped a d.len.toNat = false → c.badIn a d.len.toNat false = none →
        ∃ r, exec (.ingestRead ch p d) s = .next (s.put ch (c.modPort p fun x => { x with
          sentDatagrams := x.sentDatagrams ++ [r], ethTx := x.ethTx + 1 })) ∧ r.type = 5 ∧ r.flags = 1 ∧
          r.payload = c.rd a d.len.toNat ∧ r.offset = d.offset ∧ r.check = dgSum r)) ∧
    (d.check ≠ dgSum d → d.type = 1 → exec (.ingestWrite ch p d) s = .next (s.put ch (c.modPort p fun x => { x with
      ethBadchk := satAdd x.ethBadchk 1 }))) ∧
    (∀ m rest i, x.ingest = m :: rest → m.win = Fin.val i → exec (.ingestStalltmoExpiry ch p ⟨i, m.msgid⟩) s = .next (s.put ch (c.modPort p fun x =>
      { x with ingest := rest, stallDrop := satAdd x.stallDrop 1 }))))

/-- cf.reduce, cf.bcast and cf.barrier: where the operands pass the checks of the chapter, the collective is
registered and moved on as far as the messages at hand allow; one that has begun is moved on by its messages alone.
REDUCTION_MESSAGE and RESULT_DOWN: a message whose key no command of the channel runs is held; one whose key runs is
taken into its collective, which moves on as far as it goes. Either adds its bytes to CFL_RX_BYTES. SKEW_RELEASE adds
SINC to the semaphore of one core and of no other. -/
def Obligations.Collectives : Prop :=
  (∀ (s : State) (ch : Ch) (src : Src) (r : Running) (k : Collective) (x : CollCtx) (d : Channel),
    (Runs s ch src 0x40 r → r.begun = none → reduceOps s.chans (s.fresh ch).c r = .ok ((k, x), d) →
      exec (.cfReduce ch src) s = .next (s.after ch ((reduceRun { s.fresh ch with c := d } r k x).settle src (s.fresh ch)))) ∧
    (∀ a : Option Desc, Runs s ch src 0x41 r → r.begun = none →
      bcastOps s.chans (s.fresh ch).c r = .ok ((k, x, a), d) →
      exec (.cfBcast ch src) s = .next (s.after ch ((bcastRun { s.fresh ch with c := d } r k x a).settle src (s.fresh ch)))) ∧
    (Runs s ch src 0x42 r → r.begun = none → barrierOps s.chans (s.fresh ch).c r = .ok k →
      exec (.cfBarrier ch src) s = .next (s.after ch (((s.fresh ch).start r k { blocks := 0 }).settle src (s.fresh ch)))) ∧
    (r.begun.isSome = true → (Runs s ch src 0x40 r → exec (.cfReduce ch src) s = .next s) ∧
      (Runs s ch src 0x41 r → exec (.cfBcast ch src) s = .next s) ∧
      (Runs s ch src 0x42 r → exec (.cfBarrier ch src) s = .next s))) ∧
  (∀ (s : State) (ch : Ch) (m : RedMsg) (c c3 c5 c6 : Channel) (k : Collective) (x : CollCtx) (src : Src) (r : Running)
    (core : Core),
    s.chans[ch] = c → c.up = true → c.isFrozen (.engine .confluence) = false →
    c3 = (c.landed.takeMsg 3).rxCount m → c5 = (c.landed.takeMsg 5).rxCount m →
    (c.collOf m = none →
      exec (.reductionMessage ch m) s = .next (s.put ch { c3 with heldMsgs := c.heldMsgs ++ [m] }) ∧
      exec (.resultDown ch m) s = .next (s.put ch { c5 with heldMsgs := c.heldMsgs ++ [m] })) ∧
    (c.collOf m = some k →
      (c3.ctxOf k = some x → exec (.reductionMessage ch m) s = .next (s.after ch
        ((({ s.work ch with c := c3.setColl { k with got := k.got ++ [m] } } : Wk).foldAll k.src x).settle k.src (s.fresh ch)))) ∧
      (c5.ctxOf k = some x → x.reach c5 m.bucket.toNat m.first.toNat m.sbs.length = .ok c6 →
        exec (.resultDown ch m) s =
          .next (s.after ch ((({ s.work ch with c := c6 } : Wk).resultFor k x m).settle k.src (s.fresh ch))))) ∧
    (c3.cfl.rxBytes = c.cfl.rxBytes + BitVec.ofNat 64 (redBody m).length ∧ c3.mem = c.mem) ∧
    (c.coll src = some k → c.findRun src = some r → r.result = none → core ∈ k.skew →
      ∃ t, exec (.skewRelease ch src core) s = .next t ∧
        (∀ q, t.chans[ch].semVal q = c.semVal q +
          if q = r.cmd.ssem + BitVec.ofNat 8 core.val then BitVec.ofNat 32 r.cmd.sinc.toNat else 0)))

/-- The fold of a group has every leaf of the group and no other, in an order that lists each once; each leaf but one
sends its partial to another, and that one holds the sum. -/
def Obligations.FoldOfAGroup : Prop :=
  ∀ (c : Channel) (ls : List ChanId), ls ≠ [] →
    (c.foldOf ls).1.Perm ls.dedup ∧
    ∃ f, (c.foldOf ls).2 = some f ∧ (∀ x, (f.part x).isSome = true ↔ x ∈ ls) ∧
      ∀ x ∈ ls, (∃ adds, f.part x = some (adds, none)) ↔ x = f.holder

/-! ### Training (06, 09, 10) -/

/-- TRAINING_START, while the channel is IDLE or DONE: a plan that passes validation puts it in STARTING and READY,
and a heartbeat tells so; one that fails sets PLANERR and changes nothing else. In any other state it is ignored. (A start
that waited for a stopped stack waits no more.)
FORWARD_ADMISSION of a micro-batch that may issue chooses the full variant while the attempt does not recompute and
fewer than C full ones are held, and counts a recompute one otherwise; SEGMENT_ISSUE of an admitted micro-batch, with
room in its rings and a free entry, issues its segment once. (Memory is sound: no word of it reads as uncorrectable,
and no stack has stopped its accesses, so that Adori's reads find what stands there.) -/
def Obligations.TrainingAndSegments : Prop :=
  (∀ (s : State) (ch : Ch) (w : RegWrite) (c : Channel) (p : Plan),
    s.hostOk ch = true → s.chans[ch] = c → c.sound → (enabledBits w 4).testBit 0 = true →
    p = Plan.parse (c.rd c.stp.planBase.toNat 64) →
    (c.stp.st = .idle ∨ c.stp.st = .done →
      (c.flt.retired = false → c.planOk p = true → ∃ d, exec (.trainingStart ch w) s = .next (s.put ch d) ∧ d.stp.st = .starting ∧
        d.stp.plan = some p ∧ d.stp.commits = 0 ∧ d.flt.ready = true ∧ d.flt.hbseq = 1 ∧
        (∃ h, d.flt.sentHb = c.flt.sentHb ++ [h] ∧ h.ready = true ∧ h.hbseq = 0) ∧ d.queues = c.queues ∧
        d.sems = c.sems) ∧
      (c.planOk p = false → exec (.trainingStart ch w) s =
        .next (s.put ch { c with stp := { c.stp with planerr := true, ctrlOwed := false } }))) ∧
    (c.stp.st ≠ .idle → c.stp.st ≠ .done →
      exec (.trainingStart ch w) s = .next (s.put ch { c with stp := { c.stp with ctrlOwed := false } }))) ∧
  (∀ (s : State) (ch : Ch) (c : Channel) (p : Plan) (a : Attempt) (i : Nat) (ss : List Seg),
    s.chans[ch] = c → c.up = true → c.sound → c.stp.plan = some p → c.stp.att = a → c.issuing = true →
    (a.variants.length = i → i < p.mb → a.fwdIssued = i → (i < p.lag ∨ c.bwdDone (i - p.lag) = true) →
      (a.recomp = false → ((a.variants.drop (i + 1 - p.lag)).filter id).length < p.c →
        exec (.forwardAdmission ch) s = .next (s.put ch { c with stp := { c.stp with
          att := { a with variants := a.variants ++ [true] } } })) ∧
      (a.recomp = false → p.c ≤ ((a.variants.drop (i + 1 - p.lag)).filter id).length → p.cr ≠ 0 →
        ∃ d, exec (.forwardAdmission ch) s = .next (s.put ch d) ∧ d = { c with stp := d.stp } ∧
          d.stp.att.variants = a.variants ++ [false] ∧ d.stp.att.recomp = true ∧
          d.stp.recompMb = satAdd c.stp.recompMb 1)) ∧
    (∀ full, a.variants[i]? = some full → a.fwdIssued = i → c.segments p (4 * i + (if full then 0 else 1)) = some ss →
      (c.entryOf i full (if full then p.c else p.cr)).2 = true → c.roomFor ss = true →
      ∃ d, exec (.segmentIssue ch .fwd) s = .next (s.put ch d) ∧ d.stp.att = { a with fwdIssued := i + 1 } ∧
        (∀ q : QIdx, d.queues[q].pi = c.queues[q].pi +
          BitVec.ofNat 32 ((ss.filter fun x => x.queue == q.val).map (·.count)).sum)) ∧
    (∀ full, a.variants[i]? = some full → a.bwdIssued = i → c.segments p (4 * i + 2 + (if full then 0 else 1)) = some ss →
      c.roomFor ss = true → ∃ d, exec (.segmentIssue ch .bwd) s = .next (s.put ch d) ∧ d.stp.att.bwdIssued = i + 1 ∧
        d.stp.att.fwdIssued = a.fwdIssued) ∧
    (∀ full, a.variants[i]? = some full → a.fwdIssued = i → c.segments p (4 * i + (if full then 0 else 1)) = some ss →
      c.roomFor ss = false → exec (.segmentIssue ch .fwd) s = .next s))

/-- The end of a member's step. UPD_ISSUE once the gate is passed issues the update tail and the member is GATED.
STRIPE_CONTRIBUTION sends a unit of the new image to its P and Q holders, each unit once: where this channel is the
holder it joins its own parity, else its acknowledgement is waited for. PARITY_CONTRIBUTION adds a unit, times its power
of 2 for Q, into the holder's parity and nowhere else. STEP_REPORT reports once, NF where the update was withheld, and
else once every contribution has been acknowledged. A member with a channel fault does none of it. (Memory is sound. That
GATED begins when UPD is issued is the model's reading, log 71; the place of the parity halves is the model's, log 29; a
contribution's message is the model's, log 73.) -/
def Obligations.StepEnd : Prop :=
  ∀ (s : State) (ch : Ch) (c : Channel) (a : Attempt) (pos j : Nat) (isQ : Bool) (data : List Byte) (g b : Nat),
    s.chans[ch] = c → c.up = true → c.sound → c.stp.att = a → c.flt.g.toNat = g →
    (∀ p ss, c.stp.plan = some p → c.segments p (4 * p.mb) = some ss → c.stp.st = .running → c.flt.fault = false →
      a.updIssued = false → a.nf = false → c.stp.skipPending = none → c.backwardDone p = true →
      (∀ h ∈ c.regions, (c.reductionOf h).isSome = true) → c.roomFor ss = true →
      ∃ d, exec (.updIssue ch) s = .next (s.put ch d) ∧ d.stp.st = .gated ∧ d.stp.att.updIssued = true ∧
        d.stp.ver = c.stp.ver) ∧
    (c.flt.fault = true → exec (.updIssue ch) s = .next s ∧ exec (.stripeContribution ch j) s = .next s ∧
      exec (.parityContribution ch pos j isQ data) s = .next s ∧ exec (.stepReport ch) s = .next s) ∧
    (c.flt.fault = false → c.updCommandsDone = true → a.stripesOwed.contains j = true → 1 ≤ g →
      ∃ d, exec (.stripeContribution ch j) s = .next (s.put ch d) ∧ j ∉ d.stp.att.stripesOwed ∧
        d.flt.stripesOut = c.flt.stripesOut ++ [(j % g, j, false, c.imageUnit (c.stp.ver + 1) j),
          ((j + 1) % g, j, true, c.imageUnit (c.stp.ver + 1) j)] ∧
        d.stp.att.stripesSent = a.stripesSent ++
          (if j % g = c.flt.pos.toNat then [] else [(j, false)]) ++ (if (j + 1) % g = c.flt.pos.toNat then [] else [(j, true)]) ∧
        (j % g ≠ c.flt.pos.toNat → (j + 1) % g ≠ c.flt.pos.toNat → d.mem = c.mem) ∧
        (∀ q : Bool, 2 ≤ g → (if q then j + 1 else j) % g = c.flt.pos.toNat →
          d.mem = (c.addParity c.flt.pos.toNat j q (c.imageUnit (c.stp.ver + 1) j)).mem)) ∧
    (c.flt.fault = false → 1 ≤ g → (if isQ then (j + 1) % g else j % g) = c.flt.pos.toNat → stripeUnit * j < c.flt.stripeLen.toNat →
      data.length = stripeUnit → b = c.parityAddr (c.stp.ver + 1) j isQ →
      ∃ d, exec (.parityContribution ch pos j isQ data) s = .next (s.put ch d) ∧
        (∀ i, Mem.byte 0 d.mem i = if b ≤ i ∧ i < b + stripeUnit then
          (c.rd b stripeUnit).getD (i - b) 0 ^^^ gfMul (if isQ then gfPow 2 pos else 1) (data.getD (i - b) 0)
          else Mem.byte 0 c.mem i) ∧
        d.flt.parityAcks = c.flt.parityAcks ++ [(pos, j, isQ)]) ∧
    (c.stp.st = .running ∨ c.stp.st = .gated → c.flt.fault = false → a.reported = false →
      (a.nf = true ∧ a.updIssued = false) ∨ (c.updCommandsDone = true ∧ a.stripesOwed = [] ∧ a.stripesSent = []) →
      ∃ d, exec (.stepReport ch) s = .next (s.put ch d) ∧ d.stp.st = .reported ∧ d.stp.att.reported = true ∧
        ∃ r, d.stp.sentReports = c.stp.sentReports ++ [r] ∧ r.step = c.nmon.step ∧ r.ver = c.stp.ver ∧
          r.nf = (a.nf && !a.updIssued) ∧ r.chan = c.chid)

/-- Reports and the decision. REPORT_FORWARD takes one report of each member for the step that the manager expects; a
manager that does not decide sends one combined report, NF where any is, once all are in or one is NF. AUTHORITY_DECIDE,
once its own channel is at that step, takes a rollback before a skip or halt and that before a commit, once, and mirrors
it to a standby that has acknowledged; a rollback without one goes out at once. A commit that would leave no module
becomes a rollback, and NOGROUP is set (16 R364). MIRROR_ACK: the standby takes the mirror and the failures with it; at
the authority the acknowledgement sends the token to every direct member, and of a decision mirrored anew the last one does. With n3 frozen no manager does any of it. (The rows of the mirror: log 111.) -/
def Obligations.Decisions : Prop :=
  ∀ (s : State) (ch : Ch) (c : Channel) (l : MgrLevel) (r : Report) (m : Mgr) (k : TokKind) (t : Token) (mem : Membership)
    (fs : List ChanId),
    s.chans[ch] = c → c.up = true → c.mgr l = m →
    (c.isFrozen (.nunatak 3) = true → exec (.reportForward ch l r) s = .next s ∧ exec (.authorityDecide ch) s = .next s ∧
      exec (.mirrorAck (ch, ⟨l, none, fs⟩)) s = .next s) ∧
    (c.isFrozen (.nunatak 3) = false →
    (m.acting = true → m.decided = false → r.step = c.expect m → m.reports.all (fun x => x.chan != r.chan) = true →
      ∃ d, exec (.reportForward ch l r) s = .next (s.put ch d) ∧ (d.mgr l).reports = m.reports ++ [r] ∧
        (c.authority ≠ some l → m.forwarded = false →
          r.nf = true ∨ (∀ x ∈ c.directMembers l, ∃ y ∈ m.reports ++ [r], y.chan = x) →
          (d.mgr l).forwarded = true ∧ ∃ f, d.stp.sentReports = c.stp.sentReports ++ [f] ∧
            f.nf = (m.reports ++ [r]).any (·.nf) ∧ f.bad = (m.reports ++ [r]).any (·.bad) ∧ f.chan = c.chid)) ∧
    (c.authority = some l → m.decided = false → c.training = true → c.stp.st ≠ .starting → c.nmon.step = c.expect m →
      c.verdict l = some k → mem = (if k = .commit then c.shrunk m.removals else c.flt.members) →
      (noneLeft mem = true → ∃ d, exec (.authorityDecide ch) s = .next (s.put ch d) ∧ d.flt.nogroup = true ∧
        (m.standbyAcked = true →
          (d.mgr l).decision = some (c.token .rollback c.flt.members.mepoch, c.flt.members)) ∧
        (m.standbyAcked = false →
          (d.mgr l).latest = some (c.token .rollback c.flt.members.mepoch, c.flt.members))) ∧
      (noneLeft mem = false →
      (m.standbyAcked = true → ∃ d, exec (.authorityDecide ch) s = .next (s.put ch d) ∧ (d.mgr l).decided = true ∧
        (d.mgr l).decision = some (c.token k mem.mepoch, mem)) ∧
      (m.standbyAcked = false → k = .rollback → ∃ d, exec (.authorityDecide ch) s = .next (s.put ch d) ∧
        (d.mgr l).decided = true ∧ (d.mgr l).latest = some (c.token k mem.mepoch, mem) ∧
        (d.mgr l).sent = m.sent ++ (c.directMembers l).map fun x => (x, c.token k mem.mepoch)) ∧
      (m.standbyAcked = false → k ≠ .rollback → exec (.authorityDecide ch) s = .next s))) ∧
    ((m.faultSeen = true ∨ m.reports.any (·.bad) = true → c.verdict l = some .rollback) ∧
      (m.faultSeen = false → m.reports.any (·.bad) = false → m.reports.any (·.nf) = true →
        c.verdict l = some (if c.stp.skipmax.toNat ≤ c.stp.skips.toNat + 1 then .halt else .skip)) ∧
      (m.faultSeen = false → (∀ y ∈ m.reports, y.bad = false ∧ y.nf = false) →
        ((∀ x ∈ c.directMembers l, ∃ y ∈ m.reports, y.chan = x) ↔ c.verdict l = some .commit))) ∧
    (m.decided = true → c.authority = some l → exec (.authorityDecide ch) s = .next s) ∧
    (c.authority = some l → m.decision = some (t, mem) → 1 < m.unacked →
      exec (.mirrorAck (ch, ⟨l, none, fs⟩)) s = .next (s.put ch (c.modMgr l fun g => { g with unacked := g.unacked - 1 }))) ∧
    (c.authority = some l → m.decision = some (t, mem) → m.unacked ≤ 1 →
      ∃ d, exec (.mirrorAck (ch, ⟨l, none, fs⟩)) s = .next (s.put ch d) ∧ (d.mgr l).decision = none ∧
        (d.mgr l).latest = some (t, mem) ∧ (d.mgr l).sent = m.sent ++ (c.directMembers l).map fun x => (x, t)) ∧
    (m.standby = true →
      ∃ d, exec (.mirrorAck (ch, ⟨l, some (t, mem), fs⟩)) s = .next (s.put ch d) ∧
        (d.mgr l).mirrored = some (t, mem) ∧ (d.mgr l).table = m.table.map fun e =>
          if e.chan ∈ fs then { e with live := false, failed := true, fclass := 0x0B } else e) ∧
    (m.standby = false → exec (.mirrorAck (ch, ⟨l, some (t, mem), fs⟩)) s = .next s))

/-- COMMIT_TOKEN of a version newer than the committed one is applied, or held while an ab.update runs on a listed
region or a stack that it reads is stopped; HELD_TOKEN_APPLY then applies it. A manager passes it on at once. Applied,
the channel is at the token's version, batch and loss scale, one step on, without skips, in the token's membership. One
that is not newer is only taken and passed on.
In DRIFT mode a commit casts the member's vote, F_sus, which is above neither FTOP nor a cap. CLOCK_VOTE, once every member
of the module that votes has cast its vote for the version, sets F_ceil to the lowest of the votes, between 24 and 88, and
lets the next attempt start; it waits for them else. (The votes of other modules are free, log 27; the next attempt waits
for the vote: log 77.) -/
def Obligations.CommitTokens : Prop :=
  ∀ (s : State) (ch : Ch) (c c1 : Channel) (t : Token) (m : Membership) (w : Wk) (stop : Bool),
    s.chans[ch] = c → c.up = true →
    c1 = (c.takeMsg 4).relay t m → stop = (c.tokenRanges.any fun r => c.stopped r.1 r.2) →
    (t.kind = .commit → c.training = true → c.flt.fault = false → c.stp.st ≠ .starting → c.stp.st ≠ .rollback →
      (c.newer t = true → c.updating = false → stop = false →
        exec (.commitToken ch t m) s = .next (s.after ch (({ s.work ch with c := c1 } : Wk).applyCommit t m))) ∧
      (c.newer t = true → c.updating = true ∨ stop = true → ∃ d, exec (.commitToken ch t m) s = .next (s.put ch d) ∧
        d.abl.heldTok = some (t, m) ∧ d.stp = { c.stp with st := .applying } ∧ d.nmon = c.nmon ∧ d.mem = c.mem) ∧
      (c.newer t = false → exec (.commitToken ch t m) s = .next (s.put ch c1))) ∧
    (c.abl.heldTok = some (t, m) → c.updating = false → c.flt.fault = false → stop = false → c.newer t = true →
      exec (.heldTokenApply ch) s = .next (s.after ch ((s.work ch).applyCommit t m))) ∧
    ((w.c.adoriRead w.c.tokenRanges).flt.fault = false →
      (w.applyCommit t m).c.stp.ver = t.ver ∧ (w.applyCommit t m).c.stp.batch = t.batch ∧
      (w.applyCommit t m).c.stp.lsexp = t.lsexp ∧ (w.applyCommit t m).c.stp.skips = 0 ∧
      (w.applyCommit t m).c.abl.commitVer = t.ver ∧ (w.applyCommit t m).c.abl.heldTok = none ∧
      (w.applyCommit t m).c.nmon.step = w.c.nmon.step + 1 ∧ (w.applyCommit t m).c.flt.members = m ∧
      (w.applyCommit t m).c.stp.commits = w.c.stp.commits + 1 ∧
      (w.c.gov.gmode = 2 → w.c.outside m = false → (w.applyCommit t m).c.gov.voteOwed = true ∧
        (w.applyCommit t m).c.gov.fsus.toNat ≤ (w.applyCommit t m).c.gov.ftop.toNat ∧
        ∀ k : Core, (w.applyCommit t m).c.gov.fsus.toNat ≤ ((w.applyCommit t m).c.gov.cores[k]).cap)) ∧
    (c.gov.voteOwed = true → (∃ d ∈ c.votersHere s.chans, d.stp.ver ≠ c.stp.ver) → exec (.clockVote ch) s = .next s) ∧
    (c.gov.voteOwed = true → (∀ d ∈ c.votersHere s.chans, d.stp.ver = c.stp.ver) →
      ∃ u, exec (.clockVote ch) s = .next u ∧ u.chans[ch].gov.voteOwed = false ∧
        u.chans[ch].gov.fceil.toNat = max 24 ((c.votes s.chans).foldl min 88) ∧
        24 ≤ u.chans[ch].gov.fceil.toNat ∧ u.chans[ch].gov.fceil.toNat ≤ 88 ∧
        u.chans[ch].gov.fceil.toNat ≤ max 24 c.gov.fsus.toNat ∧
        (∀ d ∈ c.votersHere s.chans, u.chans[ch].gov.fceil.toNat ≤ max 24 d.gov.fsus.toNat) ∧
        u.chans[ch].cfl.redTotal = c.cfl.redTotal + 1 ∧
        (c.stp.st ≠ .applying → u.chans[ch].stp = c.stp) ∧
        (c.stp.st = .applying → c.stp.plan.isSome = true → c.refreezing = false →
          (∀ i : Stack, c.stk[i].overtemp = false) → u.chans[ch].stp.st = .running))

/-- SKIP_TOKEN and HALT_TOKEN of the present step wait for the attempt's backward segments; then the attempt is
dropped: the step moves on by one, the version stays, the skip is counted, and a HALT leaves the channel HALTED.
START_TOKEN takes the token's membership, version, batch and loss scale, unpauses Moraine and starts the attempt, or
halts a channel whose module has left; with NOGROUP it does none of it. ROLLBACK_TOKEN stops the attempt, whatever its
step and version: the channel is in ROLLBACK, counted once, and every Moraine is paused; a second one lets it go on. (When
a waiting skip goes on: log 74; a member that had missed the COMMIT before comes to its version once it has quiesced, and
to the step of START: log 124.) -/
def Obligations.OtherTokens : Prop :=
  (∀ (s : State) (ch : Ch) (c c1 d : Channel) (t : Token) (p : Plan) (w : Wk) (i : Instr) (stop : Bool),
    s.chans[ch] = c → c.up = true → (i = .skipToken ch t ∧ t.kind = .skip ∨ i = .haltToken ch t ∧ t.kind = .halt) →
    c.training = true → c.flt.fault = false → c.stp.st ≠ .starting → c.stp.st ≠ .rollback →
    t.step = c.nmon.step → c.newer t = false →
    c.stp.plan = some p →
    c1 = (c.takeMsg 4).relay t c.flt.members →
    d = (List.range (p.mb + 1)).foldl (fun c _ => segmentIssue c .bwd)
      { c1 with stp := { c.stp with st := .applying, skipPending := some t } } →
    stop = (d.tokenRanges.any fun r => d.stopped r.1 r.2) →
    (d.backwardDone p = true → stop = false → exec i s = .next (s.after ch (({ s.work ch with c := d } : Wk).applySkip t))) ∧
    (d.backwardDone p = false ∨ stop = true → exec i s = .next (s.put ch d)) ∧
    ((w.c.adoriRead w.c.tokenRanges).flt.fault = false →
      (w.applySkip t).c.stp.ver = w.c.stp.ver ∧ (w.applySkip t).c.stp.lsexp = t.lsexp ∧
      (w.applySkip t).c.stp.lsclean = 0 ∧ (w.applySkip t).c.stp.skips = w.c.stp.skips + 1 ∧
      (w.applySkip t).c.nmon.step = w.c.nmon.step + 1 ∧ (w.applySkip t).c.stp.skipTotal = satAdd w.c.stp.skipTotal 1 ∧
      (t.kind = .halt → (w.applySkip t).c.stp.st = .halted))) ∧
  (∀ (s : State) (ch : Ch) (c : Channel) (t : Token) (m : Membership),
    s.chans[ch] = c → c.up = true →
    (t.kind = .start → c.flt.nogroup = true → exec (.startToken ch t m) s = .next (s.put ch ((c.takeMsg 4).relay t m))) ∧
    (t.kind = .start → c.flt.fault = false → c.flt.nogroup = false →
      c.stp.st = .starting ∨ (c.stp.st = .rollback ∧ c.flt.ready = true) →
      ∃ u d, exec (.startToken ch t m) s = .next u ∧ u.chans[ch] = d ∧ d.stp.ver = t.ver ∧ d.stp.batch = t.batch ∧
        d.stp.lsexp = t.lsexp ∧ d.flt.members = m ∧ d.flt.removed = c.outside m ∧
        d.nmon.step = (if c.stp.st = .starting then c.nmon.step else t.step) ∧
        (∀ k : Core, d.cores[k].mor.pause = false) ∧ (c.outside m = true → d.stp.st = .halted) ∧
        (c.outside m = false → c.stp.plan.isSome = true → c.refreezing = false → (∀ i : Stack, c.stk[i].overtemp = false) →
          d.stp.st = .running ∧ d.stp.att = {})) ∧
    (t.kind = .rollback → c.training = true → c.stp.st ≠ .starting → c.flt.fault = false →
      (c.stp.st ≠ .rollback → ∃ u d, exec (.rollbackToken ch t) s = .next u ∧ u.chans[ch] = d ∧ d.stp.st = .rollback ∧
        d.stp.rolledBack = true ∧ d.stp.rbTotal = satAdd c.stp.rbTotal 1 ∧
        d.stp.ver = (if d.flt.quiesced = true ∧ c.newer t = true then t.ver else c.stp.ver) ∧
        d.nmon.step = c.nmon.step ∧ ∀ k : Core, d.cores[k].mor.pause = true) ∧
      (c.stp.st = .rollback →
        exec (.rollbackToken ch t) s =
          .next (s.after ch (({ s.work ch with c := (c.takeMsg 4).relay t c.flt.members } : Wk).recover)))))

/-- The log of a norm field, lg(x): with p the place of its most significant 1 and f the 8 bits below it, zeros
supplied below bit 0, it is 256 × (p − 40) + f; zero has none. -/
def Obligations.NormLog : Prop :=
  lgNorm 0 = none ∧
  ∀ x p f : Nat, 2 ^ p ≤ x → x < 2 ^ (p + 1) → f = (x * 2 ^ 8) / 2 ^ p % 2 ^ 8 →
    lgNorm x = some (256 * ((p : Int) - 40) + f)

/-! ### Heartbeats, managers and rebuild (16) -/

/-- HEARTBEAT_SEND in training sends the channel's heartbeat, HBSEQ then one more; out of training it sends none.
HEARTBEAT_RECEIVE at an acting manager records what the heartbeat tells of its member, and a fault in it; with n3 frozen
it does nothing. HEARTBEAT_REPLY of a generation lower than its sender's level's changes nothing but the message taken; of a
higher one the channel follows its sender, in its drift, its field, or the field listed first; it names the manager's
standby, and NOGROUP to a channel in rollback; the token in it is applied as if it had come by itself. A running collective
with a leaf that the reply reports as failed, or whose sender has a channel fault, ends with status 0x17 (which channels a
reply reports, and how it names a standby: logs 70 and 116). -/
def Obligations.Heartbeats : Prop :=
  ∀ (s : State) (ch : Ch) (c : Channel) (l : MgrLevel) (h : Heartbeat) (t : Token) (mem : Membership) (m : Mgr)
    (e : MemberEntry) (k : Collective) (r : Running) (z : ChanId),
    s.chans[ch] = c → c.up = true → c.mgr l = m →
    (c.inTraining = true → c.stp.skipPending = none → c.stp.startOwed = false → c.flt.retired = false →
      c.stp.st ≠ .rollback →
      ∃ d, exec (.heartbeatSend ch) s = .next (s.put ch d) ∧ d.flt.sentHb = c.flt.sentHb ++ [c.heartbeat] ∧
        d.flt.hbseq = c.flt.hbseq + 1 ∧ d.mem = c.mem ∧ d.stp = c.stp) ∧
    (c.inTraining = false → exec (.heartbeatSend ch) s = .next s) ∧
    (c.isFrozen (.nunatak 3) = true → exec (.heartbeatReceive ch l h) s = .next s) ∧
    (c.isFrozen (.nunatak 3) = false → h.mgen.toNat ≤ (c.gen l).toNat →
      (m.acting = true → e ∈ m.table → e.chan = h.chan → h.about = none →
        l = .drift ∨ h.chan ∈ c.directMembers .field → c.authority ≠ some l →
        ∃ d, exec (.heartbeatReceive ch l h) s = .next (s.put ch d) ∧
          (∃ y ∈ (d.mgr l).table, y.chan = h.chan ∧ y.ready = h.ready ∧ y.quiesced = h.quiesced ∧ y.degraded = h.degraded ∧
            y.fault = h.fault ∧ y.lasting = (h.fault && h.lasting) ∧ y.fclass = h.fclass ∧ y.lasthb = h.hbseq ∧ y.live = !e.failed) ∧
          (h.fault = true → (d.mgr l).faultSeen = true)) ∧
      (m.acting = false → m.standby = false →
        exec (.heartbeatReceive ch l h) s = .next (s.put ch (c.takeMsg 4)))) ∧
    (h.mgen.toNat < (c.genOf (c.replyFrom h.chan)).toNat →
      exec (.heartbeatReply ch h (some t) mem) s = .next (s.put ch (c.takeMsg 4))) ∧
    ((c.genOf (c.replyFrom h.chan)).toNat < h.mgen.toNat →
      ∃ w, exec (.heartbeatReply ch h none mem) s = .next (s.after ch w) ∧
        (c.replyFrom h.chan = .level .drift → w.c.flt.mgen = h.mgen ∧ w.c.flt.mgrChan = some h.chan ∧
          w.c.flt.drift.acting = false) ∧
        (c.replyFrom h.chan = .level .field →
          w.c.flt.fgen = h.mgen ∧ w.c.flt.fmgrChan = some h.chan ∧ w.c.flt.field.acting = false) ∧
        (c.replyFrom h.chan = .top → w.c.flt.tgen = h.mgen ∧ w.c.flt.topChan = some h.chan)) ∧
    (h.mgen = c.genOf (c.replyFrom h.chan) →
      (∃ w, exec (.heartbeatReply ch h none mem) s = .next (s.after ch w) ∧
        (c.replyFrom h.chan = .level .drift → h.standby = some z → w.c.flt.sbChan = some z) ∧
        (c.replyFrom h.chan = .level .field → h.standby = some z → w.c.flt.fsbChan = some z) ∧
        (c.replyFrom h.chan = .top → h.standby = some z → w.c.flt.topSb = some z) ∧
        (h.nogroup = true → c.stp.st = .rollback → w.c.flt.nogroup = true)) ∧
      (c.colls = [k] → z ∈ k.leaves → z ∈ h.failed ∨ (h.fault = true ∧ h.lasting = true ∧ z = h.chan) → c.findRun k.src = some r →
        r.result = none → ∃ w x q, exec (.heartbeatReply ch h none mem) s = .next (s.after ch w) ∧
          w.c.findRun k.src = some x ∧ x.result = some q ∧ q.status = 0x17) ∧
      (c.flt.drift.standby = false → c.flt.field.standby = false → h.standby = none → h.nogroup = false → t.kind = .start →
        (∀ l, c.replyFrom h.chan = .level l → h.chan = c.managerOf l) → (c.replyFrom h.chan = .top → h.chan = c.above .field) →
        exec (.heartbeatReply ch h (some t) mem) s =
          .next (s.after ch (startToken (Wk.leafFailed { s.work ch with c := c.takeMsg 4 } h) t mem))))

/-- HBTMO_EXPIRY: the silent member is failed with class 0x0B and the manager has a fault to decide on; where it was the
standby, the manager has none; a standby only holds it for silent. MIRROR_ACK_TIMEOUT of a primary that sees no majority
ends its duties, and of one that sees one ends its standby's. NEW_STANDBY names the first live, not failed member of
another module that stays, or sets NOGROUP; at the channel named the mirror arrives with the failures declared.
NEW_STANDBY_ACK is taken from the channel named alone, and lets go what waited for it. FIRST_FAULT_HBTMO_EXPIRY, and
NEW_STANDBY_ACK after it, let a recovering authority decide START once every member that stays is READY.
STANDBY_TAKEOVER of a standby that sees a majority raises its level's generation by one, acts, sets TAKEOVER and holds
the old primary failed with class 0x0C; without a majority it does nothing. With n3 frozen a manager does none of it.
With NOGROUP set no START is decided. (That NEW_STANDBY at a channel that is no manager is the arrival of the mirror there,
with the failures declared, is the model's reading, log 79; the generations, the standby named and the failures that the
messages carry are its layout, logs 20 and 116.) -/
def Obligations.ManagersChange : Prop :=
  (∀ (s : State) (ch : Ch) (c : Channel) (l : MgrLevel) (x : ChanId) (m : Mgr) (e : MemberEntry)
    (mir : Option (Token × Membership)) (fs : List ChanId) (front back : List MemberEntry) (t : Token) (mem : Membership)
    (rem : List W16) (stays : MemberEntry → Prop),
    s.chans[ch] = c → c.up = true → c.isFrozen (.nunatak 3) = false → c.mgr l = m →
    (∀ z, stays z ↔ (z.live = true ∧ z.failed = false ∧ modOf z.chan ≠ modOf c.chid ∧
      c.leaving (m.removals ++ m.faulted) (modOf z.chan) = false)) →
    rem = (m.removals ++ m.faulted).dedup →
    (m.acting = true → e ∈ m.table → e.chan = x → e.failed = false →
      ∃ d, exec (.hbtmoExpiry ch l x) s = .next (s.put ch d) ∧ (d.mgr l).faultSeen = true ∧
        (m.standbyChan ≠ some x →
          (d.mgr l).table = m.table.map fun y => if y.chan = x then { y with live := false, failed := true, fclass := 0x0B }
            else y) ∧
        (m.standbyChan = some x → (d.mgr l).standbyChan = none)) ∧
    (m.acting = false → m.standby = true → exec (.hbtmoExpiry ch l x) s =
      .next (s.put ch (c.modMgr l fun g => g.modEntry x fun y => { y with live := false }))) ∧
    (m.acting = false → m.standby = false → exec (.hbtmoExpiry ch l x) s = .next s) ∧
    (m.acting = true → m.standbyChan = some x → m.majority = false →
      ∃ d, exec (.mirrorAckTimeout ch l) s = .next (s.put ch d) ∧ (d.mgr l).acting = false ∧ (d.mgr l).decision = none) ∧
    (m.acting = true → m.standbyChan = some x → m.majority = true →
      ∃ d, exec (.mirrorAckTimeout ch l) s = .next (s.put ch d) ∧ (d.mgr l).standbyChan = none ∧
        (d.mgr l).faultSeen = true) ∧
    (m.acting = true → m.standbyChan = none → m.table = front ++ e :: back → (∀ z ∈ front, ¬ stays z) → stays e →
      ∃ d, exec (.newStandby ch ⟨l, mir, fs⟩) s = .next (s.put ch d) ∧ (d.mgr l).standbyChan = some e.chan ∧
        (d.mgr l).standbyAcked = false ∧ d.flt.nogroup = c.flt.nogroup) ∧
    (m.acting = true → m.standbyChan = none → (∀ z ∈ m.table, ¬ stays z) →
      exec (.newStandby ch ⟨l, mir, fs⟩) s = .next (s.put ch { c with flt := { c.flt with nogroup := true } })) ∧
    (m.acting = false → m.standby = false → ∃ d, exec (.newStandby ch ⟨l, mir, fs⟩) s = .next (s.put ch d) ∧
      (d.mgr l).standby = true ∧ (d.mgr l).acting = false ∧ (d.mgr l).mirrored = mir ∧
      (d.mgr l).table.map (·.chan) = c.directMembers l ∧
      ∀ y ∈ (d.mgr l).table, y.failed = decide (y.chan ∈ fs)) ∧
    (m.acting = false → m.standby = true → exec (.newStandby ch ⟨l, mir, fs⟩) s = .next s) ∧
    (m.acting = true → m.standbyChan = some x → c.authority = none → m.decision = none →
      exec (.newStandbyAck ch l x) s = .next (s.put ch (c.modMgr l fun g => { g with standbyAcked := true }))) ∧
    (m.acting = true → m.standbyChan = some x → c.authority = none → m.decision = some (t, mem) →
      ∃ d, exec (.newStandbyAck ch l x) s = .next (s.put ch d) ∧ (d.mgr l).latest = some (t, mem) ∧
        (d.mgr l).sent = m.sent ++ (c.directMembers l).map fun y => (y, t)) ∧
    (m.acting = false ∨ m.standbyChan ≠ some x → exec (.newStandbyAck ch l x) s = .next s) ∧
    (c.authority = some l → m.recovering = true →
      (m.standbyChan = none ∨ c.flt.nogroup = true →
        exec (.firstFaultHbtmoExpiry ch) s = .next (s.put ch (c.modMgr l fun g => { g with faultHbtmo := true }))) ∧
      (m.standbyChan = some x → c.flt.nogroup = false → m.decision = none → noneLeft (c.shrunk rem) = false →
        (∃ z ∈ m.table, c.leaving rem (modOf z.chan) = false) →
        (∀ z ∈ m.table, c.leaving rem (modOf z.chan) = false → z.ready = true) →
        (m.standbyAcked = true → ∃ d u, exec (.firstFaultHbtmoExpiry ch) s = .next (s.put ch d) ∧
          (d.mgr l).decision = some (u, c.shrunk rem) ∧ u.kind = .start ∧ u.ver = c.stp.ver ∧ u.step = c.nmon.step ∧
          u.batch = c.stp.batch ∧ u.mepoch = (c.shrunk rem).mepoch) ∧
        (m.acting = true → m.faultHbtmo = true → m.decided = true →
          ∃ d u, exec (.newStandbyAck ch l x) s = .next (s.put ch d) ∧
          (d.mgr l).decision = some (u, c.shrunk rem) ∧ u.kind = .start ∧ u.ver = c.stp.ver ∧ u.step = c.nmon.step ∧
          u.batch = c.stp.batch ∧ u.mepoch = (c.shrunk rem).mepoch)))) ∧
  (∀ (s : State) (ch : Ch) (c : Channel) (l : MgrLevel) (m : Mgr) (x : ChanId) (mir : Mirror),
    s.chans[ch] = c → c.up = true → c.mgr l = m →
    (c.isFrozen (.nunatak 3) = true → exec (.standbyTakeover ch l) s = .next s ∧ exec (.hbtmoExpiry ch l x) s = .next s ∧
      exec (.mirrorAckTimeout ch l) s = .next s ∧ exec (.newStandby ch mir) s = .next s ∧
      exec (.newStandbyAck ch l x) s = .next s ∧ exec (.firstFaultHbtmoExpiry ch) s = .next s) ∧
    (c.isFrozen (.nunatak 3) = false → m.standby = true → m.majority = true →
      ∃ d, exec (.standbyTakeover ch l) s = .next (s.put ch d) ∧ d.gen l = c.gen l + 1 ∧ d.flt.takeover = true ∧
        d.managerOf l = c.chid ∧ (d.mgr l).acting = true ∧ (d.mgr l).standby = false ∧ (d.mgr l).faultSeen = true ∧
        ((∃ y ∈ m.table, y.chan = c.managerOf l) → ∀ y ∈ (d.mgr l).table, y.chan = c.managerOf l →
          y.failed = true ∧ y.fclass = 0x0C)) ∧
    (m.standby = false ∨ m.majority = false → exec (.standbyTakeover ch l) s = .next s))

/-- Rebuilding: a member's unit is the P parity less the other members' units; it is the Q parity less theirs, each
times its power of 2, divided by its own power of 2; and P and Q together give either of two lost units. -/
def Obligations.RebuildSolves : Prop :=
  ∀ (n x y : Nat) (d e : List Byte) (us : List (Nat × List Byte)) (p q p' q' : List Byte),
    d.length = n → e.length = n → (∀ u ∈ us, u.1 < 16 ∧ u.2.length = n) → x < 16 → y < 16 → x ≠ y →
    p = us.foldl (fun a u => xorBytes a u.2) d →
    q = us.foldl (fun a u => xorBytes a (scaleBytes (gfPow 2 u.1) u.2)) (scaleBytes (gfPow 2 x) d) →
    p' = xorBytes p e → q' = xorBytes q (scaleBytes (gfPow 2 y) e) →
    solve p q' true [x] us = some d ∧ solve p' q false [x] us = some d ∧
    solve p' q' true [x, y] us = some d ∧ solve p' q' false [x, y] us = some d

/-- REBUILD_REQUEST at the holder of a parity of the unit, of P or of Q, with one or two units lost: it serves what its
parity, the other parity as gathered, its own unit and the live members' units give, counted in FLT_SERVE_TOTAL; where its
own unit is among those lost, it leaves that out, holds it for lost too and asks for it. Elsewhere, and after the first
commit past the channel's removal, it serves nothing. REBUILD_RESULT of a lost unit writes it in place, counts its 64 KiB,
and takes it off those lost; with the last the STALE regions switch. A quiesced member in ROLLBACK is then READY and tells
so. (Memory is sound. That the gathered units and the other parity come with the row is the model's reading, log 73.) -/
def Obligations.Rebuild : Prop :=
  ∀ (s : State) (ch : Ch) (c : Channel) (j g pos : Nat) (req : ChanId) (lost : List Nat) (us own : List (Nat × List Byte))
    (other data par pp qq : List Byte) (isP : Bool) (e : Channel),
    s.chans[ch] = c → c.up = true → c.sound → c.flt.g.toNat = g → c.flt.pos.toNat = pos → 2 ≤ g →
    (c.flt.retired = true → exec (.rebuildRequest ch j req lost us other) s = .next s) ∧
    (isP = decide (j % g = pos) → par = c.rd (c.parityAddr c.stp.ver j (!isP)) stripeUnit →
      pp = (if isP then par else padTo stripeUnit other) → qq = (if isP then padTo stripeUnit other else par) →
      own = (if pos ∈ lost then [] else [(pos, c.imageUnit c.stp.ver j)]) ++
        (us.filter fun u => u.1 != pos && !lost.contains u.1).map (fun u => (u.1, padTo stripeUnit u.2)) →
      c.flt.retired = false → j % g = pos ∨ (j + 1) % g = pos →
      ((∃ x, lost = [x]) ∨ (∃ x y, lost = [x, y]) → (solve pp qq isP lost own).isSome = true) ∧
      (∀ out, solve pp qq isP lost own = some out → ∃ d, exec (.rebuildRequest ch j req lost us other) s = .next (s.put ch d) ∧
        d.flt.served = c.flt.served ++ [(req, j, out)] ∧ d.flt.serveTotal = c.flt.serveTotal + 1 ∧ d.mem = c.mem ∧
        (pos ∉ lost → d = { c with flt := { c.flt with
          served := c.flt.served ++ [(req, j, out)], serveTotal := c.flt.serveTotal + 1 } }) ∧
        (pos ∈ lost → j ∈ d.flt.lostUnits ∧ d.flt.rebuild = true ∧ (∃ h, (h, j) ∈ d.flt.asked) ∧
          (c.stp.st = .rollback → d.flt.ready = false)))) ∧
    (j % g ≠ pos → (j + 1) % g ≠ pos → exec (.rebuildRequest ch j req lost us other) s = .next s) ∧
    (c.flt.lostUnits.contains j = true → data.length = stripeUnit → e = c.writeUnit c.stp.ver j data →
      ∃ d, exec (.rebuildResult ch j data) s = .next (s.put ch d) ∧
        d.flt.lostUnits = c.flt.lostUnits.filter (· != j) ∧ d.flt.rebuildTotal = c.flt.rebuildTotal + 65536 ∧
        (c.flt.lostUnits.filter (· != j) ≠ [] → d.mem = e.mem ∧ d.flt.ready = c.flt.ready) ∧
        (c.stp.st ≠ .rollback → c.flt.lostUnits.filter (· != j) = [] → d.mem = e.switchStale.mem ∧ d.flt.rebuild = false) ∧
        (c.stp.st = .rollback → c.flt.quiesced = true → c.flt.ready = false → c.flt.fault = false → c.flt.retired = false →
          c.refreezing = false → c.flt.lostUnits.filter (· != j) = [] → d.mem = e.switchStale.mem ∧ d.flt.rebuild = false ∧
            d.flt.ready = true ∧ d.flt.hbseq = 1 ∧ ∃ h, d.flt.sentHb = c.flt.sentHb ++ [h] ∧ h.ready = true)) ∧
    (c.flt.lostUnits.contains j = false → exec (.rebuildResult ch j data) s = .next s)

/-! ### Power, clocks and heat (17) -/

/-- GOVERNOR_TICK: FPOW is the highest code from 24 to 88 at which the estimate is within the budget, or 24. In
CHANNEL and DRIFT mode every hot core runs at F_G, which is the lowest of FPOW, FTOP, the cap of every core that is not
cold and, in DRIFT mode, FCEIL as it is in force, but not below 24; while it is held down it keeps to them and does not rise.
In CORE mode every hot core keeps to its own cap and FTOP, and rises not while
the backstop acts or it waits to cool, and F_G is the lowest of the hot cores' codes, with none hot the highest up to 76 at
which the estimate is within the budget. The rounds of CORE mode leave every core's cap standing and end within the budget,
or with every core where it began. (A core not yet measured sets no limit, log 32; the terms of the estimate are free
functions, log 19.) -/
def Obligations.GovernorTick : Prop :=
  (∀ (s : State) (ch : Ch) (acts : List Activity) (c : Channel) (g : Gov) (est : Nat → Nat),
    s.chans[ch] = c → c.up = true → c.gov = g →
    est = (fun k => estimate (((c.hotActs acts).map Prod.snd).map fun a => (a, k)) (actOf acts 8) k) →
    ∃ d, exec (.governorTick ch acts) s = .next (s.put ch d) ∧ d = { c with gov := d.gov } ∧
      24 ≤ d.gov.fpow.toNat ∧ d.gov.fpow.toNat ≤ 88 ∧
      (∀ k, 24 ≤ k → k ≤ 88 → est k ≤ 10 * g.budget → k ≤ d.gov.fpow.toNat) ∧
      (est d.gov.fpow.toNat ≤ 10 * g.budget ∨ d.gov.fpow.toNat = 24) ∧
      (g.gmode ≠ 0 → 24 ≤ d.gov.fg.toNat ∧ d.gov.fg.toNat ≤ d.gov.fpow.toNat ∧ d.gov.fg.toNat ≤ max 24 g.ftop.toNat ∧
        (g.gmode = 2 → d.gov.fg.toNat ≤ max 24 c.fceilNow) ∧
        (c.heldDown = true → d.gov.fg.toNat ≤ max 24 g.fg.toNat) ∧
        (c.heldDown = false → ∀ n, n ≤ d.gov.fpow.toNat → n ≤ g.ftop.toNat → (g.gmode = 2 → n ≤ c.fceilNow) →
          (∀ k : Core, g.cores[k].pll ≠ .cold → n ≤ g.cores[k].cap) → n ≤ d.gov.fg.toNat) ∧
        (∀ k : Core, g.cores[k].pll ≠ .cold → d.gov.fg.toNat ≤ max 24 g.cores[k].cap) ∧
        (∀ k : Core, g.cores[k].pll = .hot → d.gov.cores[k].f.toNat = d.gov.fg.toNat)) ∧
      (g.gmode = 0 → (∃ k : Core, g.cores[k].pll = .hot) →
        (∃ k : Core, g.cores[k].pll = .hot ∧ d.gov.fg.toNat = d.gov.cores[k].f.toNat) ∧
        ∀ k : Core, g.cores[k].pll = .hot → d.gov.fg.toNat ≤ d.gov.cores[k].f.toNat) ∧
      (g.gmode = 0 → (∀ k : Core, g.cores[k].pll ≠ .hot) → 24 ≤ d.gov.fg.toNat ∧ d.gov.fg.toNat ≤ 76 ∧
        (∀ k, 24 ≤ k → k ≤ 76 → est k ≤ 10 * g.budget → k ≤ d.gov.fg.toNat) ∧
        (est d.gov.fg.toNat ≤ 10 * g.budget ∨ d.gov.fg.toNat = 24)) ∧
      (g.gmode = 0 → ∀ k : Core,
        (g.cores[k].pll = .hot → 24 ≤ d.gov.cores[k].f.toNat ∧
          d.gov.cores[k].f.toNat ≤ max 24 (min g.cores[k].cap g.ftop.toNat) ∧
          (g.overBudget = true ∨ g.cores[k].hotTj = true → d.gov.cores[k].f.toNat ≤ max 24 g.cores[k].f.toNat)) ∧
        (g.cores[k].pll ≠ .hot → d.gov.cores[k] = g.cores[k]))) ∧
  (∀ (budget : Nat) (abl : Activity) (xs ys : List (Activity × Nat × Nat)), (∀ x ∈ xs, x.2.2 ≤ x.2.1) →
    ys = raiseAll budget abl xs →
    ys.map (fun y => (y.1, y.2.1)) = xs.map (fun x => (x.1, x.2.1)) ∧ (∀ y ∈ ys, y.2.2 ≤ y.2.1) ∧
    (ys = xs ∨ estimate (ys.map fun y => (y.1, y.2.2)) abl ((ys.map fun y => y.2.2).foldl min 88) ≤ 10 * budget))

/-- POWER_SAMPLE keeps the last 1,000,000 samples; P1s and P1ms are the means of all of them and of the last 1,000, in
whole tenths of a watt; the energy counts on; the backstop is set and counted when P1s passes the budget or P1ms 11/9 of
it, once until both are within. BACKSTOP_STEP then lowers F_G, in CORE mode every hot core, by one code, and lowers
nothing while both are within. PATH_MONITOR_MEASURE raises VOFF by one step of 5 mV where a monitor lacks its margin and
takes as F_max the highest code up to the measured one whose fused voltage and VOFF stay within VMAX; no hot core runs
above it; the fourth consecutive F_max below code 76 reports the core degraded in a heartbeat, class 0x0A. (The fused
table and VMAX are free values, log 19.) AGEING_RECORD_WRITE stores VOFF of every core in the copy of the record whose turn it is, and no other byte of
the flash (its layout is the model's, log 20). (Means and onset: log 84.) -/
def Obligations.PowerAndAgeing : Prop :=
  (∀ (s : State) (ch : Ch) (p : Nat) (c : Channel) (g : Gov) (xs ms : List Nat),
    s.chans[ch] = c → c.up = true → c.gov = g → xs = (p :: g.samples).take 1000000 → ms = xs.take 1000 →
    (∃ h, exec (.powerSample ch p) s = .next (s.put ch { c with gov := h }) ∧ h.samples = xs ∧
      h.p1s.toNat = min (xs.sum / xs.length) 65535 ∧ h.p1ms.toNat = min (ms.sum / ms.length) 65535 ∧
      h.energyRem < 10000 ∧
      h.energy = g.energy + BitVec.ofNat 64 ((g.energyRem + p) / 10000) ∧ h.energyRem = (g.energyRem + p) % 10000 ∧
      h.budget = g.budget ∧
      (h.overBudget = true ↔ 10 * g.budget * xs.length < xs.sum ∨ 11 * (10 * g.budget) * ms.length < 9 * ms.sum) ∧
      h.backstopActs = h.overBudget ∧
      (h.overBudget = true → g.backstopActs = false →
        h.backstop = true ∧ h.backstopTotal = satAdd g.backstopTotal 1) ∧
      (h.overBudget = false ∨ g.backstopActs = true → h.backstop = g.backstop ∧ h.backstopTotal = g.backstopTotal)) ∧
    (g.overBudget = true → g.fg.toNat ≤ 88 → (∀ k : Core, g.cores[k].f.toNat ≤ 88) →
      ∃ d, exec (.backstopStep ch) s = .next (s.put ch d) ∧ d = { c with gov := d.gov } ∧
        (g.backstopActs = false → d.gov.backstop = true ∧ d.gov.backstopTotal = satAdd g.backstopTotal 1) ∧
        (g.backstopActs = true → d.gov.backstop = g.backstop ∧ d.gov.backstopTotal = g.backstopTotal) ∧
        (g.gmode ≠ 0 → d.gov.fg.toNat = max 24 (g.fg.toNat - 1) ∧
          ∀ k : Core, g.cores[k].pll = .hot → d.gov.cores[k].f.toNat = d.gov.fg.toNat) ∧
        (g.gmode = 0 → ∀ k : Core, g.cores[k].pll = .hot → d.gov.cores[k].f.toNat = max 24 (g.cores[k].f.toNat - 1)) ∧
        ∀ k : Core, g.cores[k].pll ≠ .hot → d.gov.cores[k] = g.cores[k]) ∧
    (g.overBudget = false → exec (.backstopStep ch) s =
      .next (s.put ch { c with gov := { g with backstopActs := false } }))) ∧
  (∀ (s : State) (ch : Ch) (k : Core) (ok : List Bool) (at_ : Nat) (c : Channel) (x : CorePower) (fits : Nat → Byte → Prop),
    s.chans[ch] = c → c.up = true → c.gov.cores[k] = x →
    (∀ n v, fits n v ↔ Config.tableVoltage (8 * c.chid.toNat + k.val) n + v.toNat ≤ Config.vmax (8 * c.chid.toNat + k.val)) →
    (∃ d y, exec (.pathMonitorMeasure ch k ok at_) s = .next (s.put ch d) ∧ d.gov.cores[k] = y ∧
      y.voff = (if ok.all id then x.voff else satAdd x.voff 1) ∧
      24 ≤ y.fmax.toNat ∧ y.fmax.toNat ≤ max 24 (min at_ 88) ∧ (fits y.fmax.toNat y.voff ∨ y.fmax = 24) ∧
      (∀ n, 24 ≤ n → n ≤ min at_ 88 → fits n y.voff → n ≤ y.fmax.toNat) ∧ (x.pll = .hot → y.f.toNat ≤ y.fmax.toNat) ∧
      y.fails = (if y.fmax.toNat < 76 then x.fails + 1 else 0) ∧ d.mem = c.mem ∧ d.queues = c.queues ∧
      (y.fmax.toNat < 76 → x.fails = 3 → y.degraded = true ∧ d.flt.degraded = true ∧ d.flt.fclass = 0x0A ∧
        d.flt.degmask = c.flt.degmask ||| BitVec.ofNat 8 (2 ^ k.val) ∧
        (c.stp.st ≠ .done → c.flt.retired = false →
          ∃ h, d.flt.sentHb = c.flt.sentHb ++ [h] ∧ h.degraded = true ∧ h.degmask = d.flt.degmask)) ∧
      (76 ≤ y.fmax.toNat ∨ x.fails ≠ 3 → y.degraded = x.degraded ∧ d.flt = c.flt)) ∧
    (∃ d, exec (.ageingRecordWrite ch) s = .next (s.put ch d) ∧ d = { c with boot := d.boot } ∧
      d.boot.ageing = c.gov.cores.toList.map (·.voff) ∧ d.boot.ageCopy = !c.boot.ageCopy ∧
      ∀ a, Mem.byte 0xFF d.boot.flash a =
        if ageingAddr c.boot.ageCopy ≤ a ∧ a < ageingAddr c.boot.ageCopy + 8 then
          (c.gov.cores.toList.map (·.voff)).getD (a - ageingAddr c.boot.ageCopy) 0
        else Mem.byte 0xFF c.boot.flash a))

/-- LOAN_RECOMPUTE, while the arbiter acts: each channel that it knows is granted its allowance, or its part of 3,600
W where the allowances exceed that, when nothing is lent; the grants are within 3,600 W together; what is lent is what
is borrowed, 400 W at most, no lender giving more than its allowance leaves over its highest use and 50 W, no borrower
taking more than LOANCH or the heat ceiling lets it. A channel it does not know is only told whether the allowances
exceed 3,600 W. LOAN_RECALL of a lender
whose mean power of the last 10 samples passes what its loan leaves it, less 25 W: its loan ends, counted, the
borrowers' loans fall by it together and none of them rises; otherwise nothing changes. (The sharing of what is left
is the model's choice, log 85.) -/
def Obligations.LoansAndRecall : Prop :=
  (∀ (s : State) (busy : List Bool) (known : Ch → Bool) (a : Nat) (tot : (Ch → Nat) → Nat),
    known = (fun ch => s.bridge.allowKnown.getD ch.val false) →
    tot = (fun f => ((List.finRange 8).map fun ch => if known ch then f ch else 0).sum) →
    a = tot (fun ch => s.chans[ch].gov.allow.toNat) →
    (s.arbiterUp = false → exec (.loanRecompute busy) s = .next s) ∧
    (s.arbiterUp = true → ∃ t, exec (.loanRecompute busy) s = .next t ∧ t.bridge = s.bridge ∧
      (∀ ch : Ch, known ch = false → t.chans[ch] = { s.chans[ch] with gov := { s.chans[ch].gov with
        overalloc := decide (3600 < a) } }) ∧
      (∀ ch : Ch, known ch = true → t.chans[ch] = { s.chans[ch] with gov := t.chans[ch].gov } ∧
        t.chans[ch].gov.noarb = false ∧ t.chans[ch].gov.allow = s.chans[ch].gov.allow ∧
        t.chans[ch].gov.overalloc = decide (3600 < a) ∧
        t.chans[ch].gov.grant.toNat = (if 3600 < a then s.chans[ch].gov.allow.toNat * 3600 / a
          else s.chans[ch].gov.allow.toNat) ∧
        (3600 < a → t.chans[ch].gov.borrowed = 0 ∧ t.chans[ch].gov.lent = 0) ∧
        t.chans[ch].gov.borrowed.toNat ≤ s.chans[ch].gov.loanch.toNat ∧
        (∀ p, s.chans[ch].gov.pth = some p → t.chans[ch].gov.borrowed.toNat ≤ p - t.chans[ch].gov.grant.toNat) ∧
        (t.chans[ch].gov.lent ≠ 0 → s.chans[ch].gov.lend = true ∧ t.chans[ch].gov.borrowed = 0 ∧
          t.chans[ch].gov.lent.toNat + 50 + (s.chans[ch].gov.high + 9) / 10 ≤ s.chans[ch].gov.allow.toNat)) ∧
      tot (fun ch => t.chans[ch].gov.grant.toNat) ≤ 3600 ∧
      tot (fun ch => t.chans[ch].gov.borrowed.toNat) = tot (fun ch => t.chans[ch].gov.lent.toNat) ∧
      tot (fun ch => t.chans[ch].gov.lent.toNat) ≤ 400)) ∧
  (∀ (s : State) (ch : Ch) (c : Channel) (xs : List Nat),
    s.chans[ch] = c → s.arbiterUp = true → c.up = true → xs = c.gov.samples.take 10 →
    (c.gov.lent ≠ 0 → (c.gov.allow.toNat - c.gov.lent.toNat - 25) * 10 * xs.length < xs.sum →
      ∃ t, exec (.loanRecall ch) s = .next t ∧ t.bridge = s.bridge ∧ t.chans[ch].gov.lent = 0 ∧
        t.chans[ch].gov.recallTotal = satAdd c.gov.recallTotal 1 ∧
        (∀ k : Ch, t.chans[k].gov.grant = s.chans[k].gov.grant ∧
          t.chans[k].gov.borrowed.toNat ≤ s.chans[k].gov.borrowed.toNat ∧ t.chans[k].mem = s.chans[k].mem ∧
          (k ≠ ch → t.chans[k].gov.lent = s.chans[k].gov.lent)) ∧
        ((List.finRange 8).map fun k : Ch => t.chans[k].gov.borrowed.toNat).sum ≤
          ((List.finRange 8).map fun k : Ch => s.chans[k].gov.borrowed.toNat).sum - c.gov.lent.toNat) ∧
    (c.gov.lent = 0 ∨ xs.sum ≤ (c.gov.allow.toNat - c.gov.lent.toNat - 25) * 10 * xs.length →
      exec (.loanRecall ch) s = .next s))

/-- If a channel has received no grant message from the arbiter for 200 µs (ARBITER_SILENCE), it drops every loan,
takes its budget as its last grant capped at its allowance, less the thermal cut that lowers every budget, and sets
NOARB; nothing else of the module changes but the grant kept. -/
def Obligations.ArbiterSilence : Prop :=
  ∀ (s : State) (ch : Ch) (c : Channel), s.chans[ch] = c → c.up = true →
    ∃ d, exec (.arbiterSilence ch) s = .next (s.put ch d) ∧
      d = { c with gov := { c.gov with borrowed := 0, lent := 0, noarb := true, grant := d.gov.grant } } ∧
      d.gov.budget = min c.gov.grant.toNat c.gov.allow.toNat - 10 * c.gov.thcut.toNat

/-- THCUT_UPDATE moves the thermal cut by one step of 10 W: up, to 200 W at most, where a stack reads 90 °C or more,
down where all read 87 °C or less. TJ_SAMPLE at 105 °C lowers the core's frequency, outside CORE mode F_G, by one code
at once and the next time with the tenth sample after; from there to 100 °C no clock of the group rises, and in CORE mode
not the core's own; at 100 °C or less the core is cool again (that the first step comes at once, and the restart of every
core's count outside CORE mode, are the model's reading, log 86). Of a powered channel that does not run TJ_SAMPLE takes the
reading alone. DROOP_DETECT stretches the clock of a hot core and counts the event, once until DROOP_RECOVER ends it. PLL_WAKE
makes a PLL HOT and counts one that was COLD; PLL_IDLE makes a HOT one WARM unless something keeps it, with the rows
of a core's arrays disabled and their accumulators kept, and in CORE mode with no core hot any more F_G at 76 at most; COLDDLY_EXPIRY makes a WARM core COLD where nothing forbids
it. ARRAY_ROW_DISABLE disables the rows of one array and keeps its accumulators. -/
def Obligations.HeatAndClocks : Prop :=
  (∀ (s : State) (ch : Ch) (k : Core) (tj : Nat) (c : Channel) (x : CorePower),
    s.chans[ch] = c → c.up = true → c.gov.cores[k] = x → tj ≤ 255 →
    (∀ v : Byte, c.gov.thcut.toNat ≤ 20 →
      ((∃ i : Stack, 90 ≤ c.stk[i].temp.toNat) ∧ v.toNat = min 20 (c.gov.thcut.toNat + 1)) ∨
      ((∀ i : Stack, c.stk[i].temp.toNat ≤ 87) ∧ v.toNat = c.gov.thcut.toNat - 1) ∨
      ((∀ i : Stack, c.stk[i].temp.toNat < 90) ∧ (∃ i : Stack, 87 < c.stk[i].temp.toNat) ∧ v = c.gov.thcut) →
      exec (.thcutUpdate ch) s = .next (s.put ch { c with gov := { c.gov with thcut := v } })) ∧
    (105 ≤ tj → 9 ≤ x.tjTicks →
      ∃ d, exec (.tjSample ch k tj) s = .next (s.put ch d) ∧ d = { c with gov := d.gov } ∧
        d.gov.cores[k].hotTj = true ∧ d.gov.cores[k].tj.toNat = tj ∧ d.gov.cores[k].tjTicks = 0 ∧
        (c.gov.gmode = 0 → x.f.toNat ≤ 88 → d.gov.cores[k].f.toNat = max 24 (x.f.toNat - 1) ∧
          ∀ j : Core, j ≠ k → d.gov.cores[j] = c.gov.cores[j]) ∧
        (c.gov.gmode ≠ 0 → c.gov.fg.toNat ≤ 88 → d.gov.fg.toNat = max 24 (c.gov.fg.toNat - 1) ∧
          ∀ j : Core, d.gov.cores[j].tjTicks = 0 ∧
            (c.gov.cores[j].pll = .hot → d.gov.cores[j].f.toNat = d.gov.fg.toNat))) ∧
    (tj < 105 ∨ x.tjTicks < 9 → exec (.tjSample ch k tj) s = .next (s.put ch { c with gov := { c.gov with
      cores := c.gov.cores.set k { x with
        tj := BitVec.ofNat 8 tj, hotTj := decide (105 ≤ tj) || (x.hotTj && decide (100 < tj))
        tjTicks := min 10 (x.tjTicks + 1) } } })) ∧
    (c.gov.gmode ≠ 0 → (∃ j : Core, c.gov.cores[j].hotTj = true) → c.settle.gov.fg.toNat ≤ max 24 c.gov.fg.toNat) ∧
    (c.gov.gmode = 0 → (∀ j : Core, c.settle.gov.cores[j].f.toNat ≤ c.gov.cores[j].f.toNat) ∧
      (x.hotTj = true → x.f ≠ 0 → ∀ acts,
        (∃ d, exec (.pllWake ch (.core k)) s = .next (s.put ch d) ∧ d.gov.cores[k].f.toNat ≤ x.f.toNat) ∧
        (∃ d, exec (.governorTick ch acts) s = .next (s.put ch d) ∧ d.gov.cores[k].f.toNat ≤ max 24 x.f.toNat)))) ∧
  (∀ (s : State) (ch : Ch) (k : Core) (tj : Nat) (c : Channel), s.chans[ch] = c → c.up = false → tj ≤ 255 →
    (s.powered = true → exec (.tjSample ch k tj) s = .next (s.put ch { c with gov := { c.gov with
      cores := c.gov.cores.set k { c.gov.cores[k] with tj := BitVec.ofNat 8 tj } } })) ∧
    (s.powered = false → exec (.tjSample ch k tj) s = .next s)) ∧
  (∀ (s : State) (ch : Ch) (k : Core) (a : ArrayId) (c : Channel) (x : CorePower),
    s.chans[ch] = c → c.up = true → c.gov.cores[k] = x →
    (x.pll = .hot → x.stretched = false → exec (.droopDetect ch k) s = .next (s.put ch { c with gov := { c.gov with
      cores := c.gov.cores.set k { x with stretched := true }, droopTotal := c.gov.droopTotal + 1 } })) ∧
    (x.pll ≠ .hot ∨ x.stretched = true → exec (.droopDetect ch k) s = .next s) ∧
    exec (.droopRecover ch k) s = .next (s.put ch { c with gov := { c.gov with
      cores := c.gov.cores.set k { x with stretched := false } } }) ∧
    (∃ d, exec (.pllWake ch (.core k)) s = .next (s.put ch d) ∧ d = { c with gov := d.gov } ∧
      d.gov.cores[k].pll = .hot ∧ (∀ j : Core, j ≠ k → d.gov.cores[j].pll = c.gov.cores[j].pll) ∧
      d.gov.wakeTotal = c.gov.wakeTotal + if x.pll = .cold then 1 else 0) ∧
    exec (.pllWake ch .chanA) s = .next (s.put ch { c with gov := { c.gov with
      pllA := .hot, wakeTotal := c.gov.wakeTotal + if c.gov.pllA = .cold then 1 else 0 } }) ∧
    (c.gov.pllA = .hot → c.keepsA = false → exec (.pllIdle ch .chanA) s =
      .next (s.put ch { c with gov := { c.gov with pllA := .warm } })) ∧
    (c.gov.pllA ≠ .hot ∨ c.keepsA = true → exec (.pllIdle ch .chanA) s = .next s) ∧
    (x.pll = .hot → c.keepsHot k = false →
      ∃ d, exec (.pllIdle ch (.core k)) s = .next (s.put ch d) ∧ d = { c with gov := d.gov, cores := d.cores } ∧
        d.gov.cores[k].pll = .warm ∧ (∀ j : Core, j ≠ k → d.cores[j] = c.cores[j] ∧ d.gov.cores[j].pll = c.gov.cores[j].pll) ∧
        (c.gov.gmode = 0 → (∀ j : Core, j ≠ k → c.gov.cores[j].pll ≠ .hot) → d.gov.fg.toNat = min c.gov.fg.toNat 76) ∧
        ∀ b : ArrayId, d.cores[k].array b = { c.cores[k].array b with rowsOn := false }) ∧
    (x.pll ≠ .hot ∨ c.keepsHot k = true → exec (.pllIdle ch (.core k)) s = .next s) ∧
    (c.gov.colddly ≠ 0 → x.pll = .warm → c.coldOk k = true →
      ∃ d, exec (.colddlyExpiry ch k) s = .next (s.put ch d) ∧ d = { c with gov := d.gov } ∧ d.gov.cores[k].pll = .cold ∧
        ∀ j : Core, j ≠ k → d.gov.cores[j].pll = c.gov.cores[j].pll) ∧
    (c.gov.colddly = 0 ∨ x.pll ≠ .warm ∨ c.coldOk k = false → exec (.colddlyExpiry ch k) s = .next s) ∧
    (∃ d, exec (.arrayRowDisable ch k a) s = .next (s.put ch d) ∧ d = { c with cores := d.cores } ∧
      d.cores[k].array a = { c.cores[k].array a with rowsOn := false } ∧
      (∀ b, b ≠ a → d.cores[k].array b = c.cores[k].array b) ∧ ∀ j : Core, j ≠ k → d.cores[j] = c.cores[j]))

/-! ### Pins, host port, resets and flash (17 to 19) -/

/-- INLET_READ passes the coolant reading to every channel, 255 for an open or short thermistor. INPUT_SWITCH_CLOSE
powers the module up, every channel booting unless MOD_RST_N holds it, and does nothing while a trip is latched.
INPUT_SWITCH_OPEN, and THERMAL_TRIP where a logic Tj reads 115 °C or a stack 105 °C, lose every channel's registers and memory but its flash and fuses, the trip latched
until P44 falls. MOD_RST_N and PERST_N act on their edges: a module reset keeps DRAM, a release boots, PERST_N touches
only the host port and function 0, and picks the clock mode as it rises. HOST_PORT_RESET takes the host port down and
resets function 0's registers, no channel. HOST_PORT_RETURN brings it up and writes the records held for the host of
every queue as far as the ring has room, and sends the MSI-X messages that wait, but of a frozen host function. CONFIG_REQUEST answers success with the Device ID
0x5808, UR for a channel held, CRS for one resetting or booting (the codes are PCI Express's, log 33; the answer's bytes
are the model's, log 119). (When the host port is back: log 92.) -/
def Obligations.PinsAndHostPort : Prop :=
  (∀ s : State,
    (∀ x : Option Nat, (∀ t, x = some t → t ≤ 254) →
      (s.bridgeOn = true → ∃ u, exec (.inletRead x) s = .next u ∧ u.bridge = s.bridge ∧ ∀ ch : Ch,
        u.chans[ch] = { s.chans[ch] with gov := { s.chans[ch].gov with tin := BitVec.ofNat 8 (x.getD 255) } }) ∧
      (s.bridgeOn = false → exec (.inletRead x) s = .next s)) ∧
    (s.bridge.switchClosed = true ∨ s.bridge.tripLatched = true → exec .inputSwitchClose s = .next s) ∧
    (s.bridge.switchClosed = false → s.bridge.tripLatched = false →
      ∃ u, exec .inputSwitchClose s = .next u ∧ u.bridge.switchClosed = true ∧ u.bridge.pgood = true ∧
        (s.bridge.modRst = false → u.bridge.hostUp = !s.bridge.perst ∧ ∀ ch : Ch, u.chans[ch].boot.life = .booting) ∧
        (s.bridge.modRst = true → u.chans = s.chans)) ∧
    (s.tooHot = true ↔ ∃ ch : Ch, (∃ k : Core, 115 ≤ s.chans[ch].gov.cores[k].tj.toNat) ∨
      ∃ i : Stack, 105 ≤ s.chans[ch].stk[i].temp.toNat) ∧
    (s.tooHot = false → exec .thermalTrip s = .next s) ∧
    (∀ i : Instr, ((i = .thermalTrip ∧ s.tooHot = true) ∨ ∃ above, i = .inputSwitchOpen above) → s.bridge.switchClosed = true →
      ∃ u, exec i s = .next u ∧ u.bridge.switchClosed = false ∧ u.bridge.pgood = false ∧ u.bridge.hostUp = false ∧
        (i = .thermalTrip → u.bridge.tripLatched = true) ∧
        (i = .inputSwitchOpen true → u.bridge.tripLatched = s.bridge.tripLatched) ∧
        (i = .inputSwitchOpen false → u.bridge.tripLatched = false) ∧
        ∀ ch : Ch, u.chans[ch] = { boot := u.chans[ch].boot, poisonHit := s.chans[ch].poisonHit, waitHit := s.chans[ch].waitHit } ∧
          u.chans[ch].boot.life = .reset ∧ u.chans[ch].mem = [] ∧
          u.chans[ch].queues = Vector.replicate 160 {} ∧ u.chans[ch].sems = Vector.replicate 256 0 ∧
          u.chans[ch].running = [] ∧ u.chans[ch].irqWait = [] ∧ u.chans[ch].boot.memInit = false ∧
          u.chans[ch].boot.hostHold = false ∧ u.chans[ch].boot.bmcHold = false ∧ u.chans[ch].boot.cfg = {} ∧
          u.chans[ch].boot.fsvn = s.chans[ch].boot.fsvn ∧
          (s.chans[ch].boot.flBusy = false → u.chans[ch].boot.flash = s.chans[ch].boot.flash)) ∧
    (s.bridge.switchClosed = false → exec .thermalTrip s = .next s ∧ exec (.inputSwitchOpen true) s = .next s ∧
      exec (.inputSwitchOpen false) s = .next { s with bridge := { s.bridge with tripLatched := false } }) ∧
    (s.bridge.modRst = true → exec .modRstNAssert s = .next s) ∧
    (s.bridge.modRst = false → s.powered = true →
      ∃ u, exec .modRstNAssert s = .next u ∧ u.bridge.modRst = true ∧ u.bridge.hostUp = false ∧
        ∀ ch : Ch, u.chans[ch].boot.life = .reset ∧ u.chans[ch].boot.hostHold = false ∧
          u.chans[ch].boot.bmcHold = s.chans[ch].boot.bmcHold ∧ u.chans[ch].gov.grant = 450 ∧
          ∀ a, Mem.byte 0 u.chans[ch].mem a = if a < dramSize then Mem.byte 0 s.chans[ch].mem a else 0) ∧
    (s.bridge.modRst = false → exec .modRstNRelease s = .next s) ∧
    (s.powered = false → s.bridge.modRst = false →
      exec .modRstNAssert s = .next { s with bridge := { s.bridge with modRst := true } }) ∧
    (s.powered = false → s.bridge.modRst = true →
      exec .modRstNRelease s = .next { s with bridge := { s.bridge with modRst := false } }) ∧
    (s.bridge.modRst = true → s.powered = true →
      ∃ u, exec .modRstNRelease s = .next u ∧ u.bridge.modRst = false ∧ u.bridge.hostUp = !s.bridge.perst ∧
        ∀ ch : Ch, u.chans[ch].boot.life = .booting ∧ u.chans[ch].mem = s.chans[ch].mem) ∧
    (s.bridge.perst = true → exec .perstNAssert s = .next s) ∧
    (s.bridge.perst = false → ∃ u, exec .perstNAssert s = .next u ∧ u.bridge.perst = true ∧ u.bridge.hostUp = false ∧
      ∀ ch : Ch, u.chans[ch].boot.life = s.chans[ch].boot.life ∧ u.chans[ch].mem = s.chans[ch].mem ∧
        u.chans[ch].boot.hostHold = false ∧ u.chans[ch].boot.flown = false ∧ u.chans[ch].queues = s.chans[ch].queues) ∧
    (∀ r, s.bridge.perst = false → exec (.perstNRelease r) s = .next s) ∧
    (∀ r, s.bridge.perst = true → ∃ u, exec (.perstNRelease r) s = .next u ∧ u.bridge.perst = false ∧
      u.bridge.refMode = (if r then .common else .sris) ∧ (s.bridgeOn = true → u.bridge.hostUp = true) ∧
      (s.bridgeOn = false → u.chans = s.chans))) ∧
  (∀ s : State,
    (s.bridgeOn = true → ∃ u, exec .hostPortReset s = .next u ∧ u.bridge.hostUp = false ∧ u.hostMem = s.hostMem ∧
      ∀ ch : Ch, u.chans[ch].boot.life = s.chans[ch].boot.life ∧ u.chans[ch].mem = s.chans[ch].mem ∧
        u.chans[ch].queues = s.chans[ch].queues ∧ u.chans[ch].boot.hostHold = false ∧ u.chans[ch].boot.flown = false ∧
        u.chans[ch].boot.flAddr = 0 ∧ u.chans[ch].boot.bmcHold = s.chans[ch].boot.bmcHold) ∧
    (s.bridgeOn = false → exec .hostPortReset s = .next s) ∧
    (s.bridgeOn = true → s.bridge.perst = false → ∃ u, exec .hostPortReturn s = .next u ∧ u.bridge.hostUp = true ∧
      (∀ ch : Ch, s.chans[ch].isFrozen .host = false → u.chans[ch].irqWait = []) ∧
      ∀ (ch : Ch) (q : QIdx), s.chans[ch].up = true → s.chans[ch].isFrozen .host = false → s.chans[ch].queues[q].cplLoc = false →
        u.chans[ch].queues[q].waiting = [] ∨ u.chans[ch].queues[q].cplFull = true) ∧
    (s.bridgeOn = false ∨ s.bridge.perst = true → exec .hostPortReturn s = .next s) ∧
    (∀ ch : Ch, (s.function0 = true →
      (s.chans[ch].boot.life = .running → exec (.configRequest ch) s = .next { s with answer := [0, 0x08, 0x58] }) ∧
      (s.chans[ch].boot.life = .held → exec (.configRequest ch) s = .next { s with answer := [1] }) ∧
      (s.chans[ch].boot.life = .reset ∨ s.chans[ch].boot.life = .booting →
        exec (.configRequest ch) s = .next { s with answer := [2] })) ∧
      (s.function0 = false → exec (.configRequest ch) s = .next s)))

/-- FUNCTION_LEVEL_RESET, BOOT_CTRL_RESET with 0xA5, HBD_CH_RESET with RESET and PLDM_RESET reset their channel and no
other: it boots; DRAM is kept, the floe table in it too, and Névé is not; queues, semaphores, commands and training begin anew; the flash, unless
a command was cutting into it, the fuses, the BMC's HOLD bit and the HSS limit stay; PFR_TIME runs on. -/
def Obligations.Resets : Prop :=
  ∀ (s : State) (ch : Ch) (w : RegWrite) (i : Instr) (c : Channel), s.chans[ch] = c →
    (i = .functionLevelReset ch ∧ s.function0 = true ∧ c.up = true) ∨
    (i = .bootCtrlReset ch w ∧ s.hostOk ch = true ∧ w.enable.getLsbD 0 = true ∧ w.value.toNat % 256 = 0xA5) ∨
    (i = .hbdChReset ch w ∧ s.function0 = true ∧ w.enable.getLsbD 0 = true ∧ w.value.getLsbD 1 = true) ∨
    (i = .pldmReset ch ∧ s.reaches (.channel ch) .mctp = true) →
    ∃ u d, exec i s = .next u ∧ u.chans[ch] = d ∧ u.bridge = s.bridge ∧ (∀ k : Ch, k ≠ ch → u.chans[k] = s.chans[k]) ∧
      d.boot.life = .booting ∧ d.boot.cause = .none ∧
      (∀ a, Mem.byte 0 d.mem a = if a < dramSize then Mem.byte 0 c.mem a else 0) ∧
      d.table = c.table ∧ d.queues = Vector.replicate 160 {} ∧ d.sems = Vector.replicate 256 0 ∧ d.running = [] ∧ d.floes = [] ∧ d.stp = {} ∧
      d.flt = {} ∧ d.frz = {} ∧ (c.boot.flBusy = false → d.boot.flash = c.boot.flash) ∧ d.boot.fsvn = c.boot.fsvn ∧
      d.boot.bmcHold = c.boot.bmcHold ∧ d.boot.hss.limit = c.boot.hss.limit ∧ d.gov.allow = c.gov.allow ∧
      (∃ n, d.gov.time = c.gov.time + BitVec.ofNat 64 n) ∧ d.gov.resetTime = d.gov.time ∧
      d.boot.hostHold = (if i = .hbdChReset ch w then w.value.getLsbD 0 else c.boot.hostHold)

/-- HBD_CH_HOLD, FLOWN_CLAIM and a write of HBD_CH_CTRL without RESET: HOLD takes bit 0; FLOWN takes bit 2 while the
channel is held, but a new claim is refused during a PLDM update. FLASH_READ, FLASH_ERASE and FLASH_PROGRAM start
their command, at the address of that moment, while the channel is held, the flash claimed and none runs; while one runs
only HBD_FL_CMD takes the code, and it goes on alone (the model's choice, log 117). FLASH_COMMAND_DONE ends it: a read
fills the buffer, an erase leaves the 64 KiB at 0xFF, a program writes the buffer's 4 KiB, each nowhere else; one that is
misaligned or in a protected range sets ERR and changes no byte; a slot so written is judged by its bytes
again (the model's reading, log 98, as is that the ranges Table 18.1 has never written or written by Adori alone are
protected, log 123). A read finds the identity region as manufacture left it (its order is the model's, log 20). (Erased
bytes read 0xFF, log 7.) -/
def Obligations.FlashThroughFunction0 : Prop :=
  ∀ (s : State) (ch : Ch) (w : RegWrite) (i : Instr) (code a : Nat) (c : Channel) (b : Boot),
    s.chans[ch] = c → c.boot = b → a = b.flAt.toNat →
    (i = .hbdChHold ch w ∨ i = .flownClaim ch w ∨ i = .hbdChReset ch w → s.function0 = true →
      w.enable.getLsbD 0 = true → w.value.getLsbD 1 = false →
      exec i s = .next (s.put ch { c with boot := { b with
        hostHold := w.value.getLsbD 0
        flown := if b.life = .held ∧ ¬(b.fwUpdate = true ∧ b.flown = false) then w.value.getLsbD 2 else b.flown } })) ∧
    (i = .hbdChHold ch w ∨ i = .flownClaim ch w ∨ i = .hbdChReset ch w → s.function0 = false → exec i s = .next s) ∧
    ((i = .flashRead ch w ∧ code = 1) ∨ (i = .flashErase ch w ∧ code = 2) ∨ (i = .flashProgram ch w ∧ code = 3) →
      (s.function0 = true ∧ w.enable.getLsbD 0 = true ∧ b.life = .held ∧ b.flown = true ∧ b.flBusy = false ∧
          w.value.toNat % 8 = code →
        exec i s = .next (s.put ch { c with boot := { b with
          flCmd := BitVec.ofNat 3 code, flOp := BitVec.ofNat 3 code, flAt := b.flAddr, flBusy := true } })) ∧
      (s.function0 = true ∧ w.enable.getLsbD 0 = true ∧ b.life = .held ∧ b.flown = true ∧ b.flBusy = true ∧
          w.value.toNat % 8 = code →
        exec i s = .next (s.put ch { c with boot := { b with flCmd := BitVec.ofNat 3 code } })) ∧
      (s.function0 = false ∨ w.enable.getLsbD 0 = false ∨ b.life ≠ .held ∨ b.flown = false ∨
          w.value.toNat % 8 ≠ code → exec i s = .next s)) ∧
    (s.powered = true → b.flBusy = true →
      (b.flashRefused = true → exec (.flashCommandDone ch) s = .next { s.put ch { c with boot := { b with
        flErr := true, flBusy := false } } with freeCtr := s.freeCtr + 1 }) ∧
      (b.flashRefused = false → ∃ d, exec (.flashCommandDone ch) s = .next { s.put ch { c with boot := d } with
          freeCtr := s.freeCtr + 1 } ∧ d = { b with flBusy := false, flash := d.flash, flBuf := d.flBuf, torn := d.torn } ∧
        (b.flOp = 1 → d.torn = b.torn) ∧
        (b.flOp = 2 ∨ b.flOp = 3 → d.torn = b.torn.filter fun i => !(slotAt a).contains i) ∧
        (b.flOp = 1 → a + 4096 ≤ flashSize → d.flash = b.flash ∧
          ∀ j, j < 4096 → Mem.byte 0 d.flBuf j = (b.flashBytes (1 + ch.val) a 4096).getD j 0) ∧
        (∀ j, (b.flashBytes (1 + ch.val) a 4096)[j]? = if j < 4096 then some
          (if 0x10000 ≤ a + j ∧ a + j < 0x20000 then
            (deviceChain (1 + ch.val) ++ hssStatement (1 + ch.val)).getD (a + j - 0x10000) 0xFF
          else Mem.byte 0xFF b.flash (a + j)) else none) ∧
        (b.flOp = 2 → ∀ j, Mem.byte 0xFF d.flash j =
          if a ≤ j ∧ j < a + 65536 then 0xFF else Mem.byte 0xFF b.flash j) ∧
        (b.flOp = 3 → ∀ j, Mem.byte 0xFF d.flash j =
          if a ≤ j ∧ j < a + 4096 then (Mem.read 0 b.flBuf 0 4096).getD (j - a) 0 else Mem.byte 0xFF b.flash j))) ∧
    (b.flBusy = false → s.powered = true → exec (.flashCommandDone ch) s = .next s)

/-! ### Boot and trust (18) -/

/-- Which firmware slot boots: the one taken is accepted, and where both are, neither has the higher version; none is
taken exactly where neither is accepted. An image is accepted with a good header, both keys of the fused hashes, the
body's digest, both signatures, a security version not below the fused one, and no update left unfinished in its slot (the
image's parts and the checks are free functions, log 18). The configuration slot taken is valid and, where both are, its sequence
number is not behind the other's. (Ties: log 89.) -/
def Obligations.BootSelection : Prop :=
  ∀ (b : Boot) (i : Nat) (c d : Channel) (ch : Ch),
    (b.chooseFw.1 = some i → b.tryFw i = 1 ∧ i ≤ 1 ∧
      (b.tryFw (1 - i) = 1 → Config.fwVersion (b.fwCells (1 - i)) ≤ Config.fwVersion (b.fwCells i))) ∧
    (b.chooseFw.1 = none ↔ b.tryFw 0 ≠ 1 ∧ b.tryFw 1 ≠ 1) ∧
    (∀ x, x = b.fwCells i → (b.tryFw i = 1 ↔ Config.fwHeaderOk x = true ∧ i ∉ b.torn ∧ b.fsvn ≤ Config.fwSvn x ∧
      Config.sha384 (Config.fwEcKey x) = Config.ecKeyHash ∧ Config.sha384 (Config.fwHssKey x) = Config.hssKeyHash ∧
      Config.sha384 (Config.fwBody x) = Config.fwBodyDigest x ∧
      Config.ecdsaVerify (Config.fwEcKey x) (Config.fwSigned x) (Config.fwEcSig x) = true ∧
      Config.hssVerify (Config.fwHssKey x) (Config.fwSigned x) (Config.fwHssSig x) = true)) ∧
    (c.chooseCfg ch = .ok (i, d) → i ≤ 1 ∧ ∃ raw, c.boot.cfgBlock i = some raw ∧ c.configure ch raw = some d ∧
      ∀ raw' d', c.boot.cfgBlock (1 - i) = some raw' → c.configure ch raw' = some d' →
        (cfgSeq raw' - cfgSeq raw).toInt ≤ 0) ∧
    (∀ k, c.chooseCfg ch = .error k →
      (k = .nocfg ↔ c.boot.cfgBlock 0 = none ∧ c.boot.cfgBlock 1 = none) ∧ (k ≠ .nocfg → k = .badcfg) ∧
      ∀ j raw, j ≤ 1 → c.boot.cfgBlock j = some raw → c.configure ch raw = none)

/-- CHANNEL_BOOT of a channel out of reset and not booted ends with it held or running. Held, it names the cause, its
clocks cold; a HOLD bit holds it (fuses and stack initialisation permitting, which are free, log 18). Running, it has
no cause, the slots it took, the configuration, the fused SVN raised to the image's minimum and never lowered, its lanes
at epoch 0, PLL A warm; the arbiter knows its allowance. The first boot after power-up fills DRAM with zeros, where
fuses, HOLD bits and stacks let it; else DRAM changes in the event ring only. Either way HSS starts at the
limit of the newest valid record in flash, and the alias key is the one that measurements 1 to 4 give (the key
derivations are free functions, log 18). (Ties and the order of the checks: log 89.) -/
def Obligations.ChannelBoot : Prop :=
  ∀ (s : State) (ch : Ch) (c : Channel), s.chans[ch] = c → s.powered = true → s.bridge.modRst = false →
    s.bridge.allowKnown.length = 8 → c.boot.fsvn ≤ 64 →
    (c.boot.life = .reset ∨ c.boot.life = .booting →
      ∃ u d, exec (.channelBoot ch) s = .next u ∧ u.chans[ch] = d ∧ u.hostMem = s.hostMem ∧
        d.boot.hss = c.boot.hss.start c.boot.flash ∧ d.boot.hss.next = d.boot.hss.limit ∧
        d.boot.aliasKey = aliasKeyOf (1 + ch.val) d.boot.measures ∧
        (c.boot.hostHold = true ∨ c.boot.bmcHold = true → d.boot.life = .held ∧
          d.boot.cause = if Config.fusesOk ch.val = true then .hold else .fuse) ∧
        (d.boot.life = .held ∧ d.boot.cause ≠ .none ∧ d.gov.pllA = .cold ∧ (∀ k : Core, d.gov.cores[k].pll = .cold) ∧
          (c.boot.memInit = true ∨ d.boot.memInit = false → d.mem = c.mem) ∧
          (c.boot.memInit = false → d.boot.memInit = true → ∀ a, a < dramSize → Mem.byte 0 d.mem a = 0) ∧
          d.boot.flash = c.boot.flash ∧ d.boot.fsvn = c.boot.fsvn ∧
          (∀ k : Ch, k ≠ ch → u.chans[k] = s.chans[k])
        ∨ d.boot.life = .running ∧ d.boot.cause = .none ∧ Config.fusesOk ch.val = true ∧
          (∃ (i j : Nat) (b : Boot) (c' : Channel), c.boot.chooseFw.1 = some i ∧ d.boot.slot = BitVec.ofNat 8 i ∧
            b.flash = c.boot.flash ∧ b.torn = c.boot.torn ∧ ({ c.initStacks with boot := b } : Channel).chooseCfg ch = .ok (j, c') ∧
            d.boot.cslot = BitVec.ofNat 8 j ∧ d.boot.cfg = c'.boot.cfg ∧ d.ports = c'.ports ∧ d.nmon = c'.nmon ∧
            d.agd = c'.agd ∧ d.stp = c'.stp ∧
            d.boot.fsvn = max c.boot.fsvn (min 64 (Config.fwMinSvn (c.boot.fwCells i)))) ∧
          d.sas.epoch = 0 ∧ d.gov.pllA = .warm ∧
          u.bridge.allowKnown.getD ch.val false = true ∧
          ∀ a, a < dramSize → a < d.nmon.evrBase.toNat ∨ d.nmon.evrBase.toNat + 32 * 2 ^ d.nmon.evrLog2.toNat ≤ a →
            Mem.byte 0 d.mem a = if c.boot.memInit = true then Mem.byte 0 c.mem a else 0)) ∧
    (c.boot.life = .held ∨ c.boot.life = .running → exec (.channelBoot ch) s = .next s)

/-- HSS indices. A signature takes the next index, which is never past the limit that a state record holds, and no index
is taken twice. HSS_BATCH_RESERVE, where no index is left, writes the record of the next 64 and raises the limit; a record
that could not be written turns HSS off. HSS_TREE_BUILD builds the next tree while 1,024 or fewer indices of the last
remain, after a record of its own that covers the top tree's index, as a signature does whose tree is not yet there; a boot
knows the trees that the newest record covers (how it tells is the model's, log 129). Of the memory of the records nothing
else changes but the sector that a record begins. (The record's layout is the model's, log 20.) (When the first batch is reserved: log 91.) -/
def Obligations.HssIndices : Prop :=
  (∀ (h h' : Hss) (m m' : Mem) (q : Nat), h.next ≤ h.limit → h.index m = (some q, h', m') →
    q = h.next ∧ h'.next = q + 1 ∧ h'.next ≤ h'.limit ∧ h.off = false ∧ h'.off = false ∧
    (h.next < h.limit → h'.limit = h.limit) ∧ (h.next = h.limit → h'.limit = h.limit + 64) ∧
    (h.next / 32768 < h.trees → h'.trees = h.trees) ∧ (h.trees ≤ h.next / 32768 → h'.trees = h.trees + 1) ∧
    (h.next < h.limit → h.next / 32768 < h.trees → m' = m) ∧
    (h.next = h.limit → ∀ j, j < 16 → Mem.byte 0xFF m' (0x40000 + 16 * h.seq % 0x40000 + j) =
      (hssRecord h'.limit h.trees h.seq).getD j 0) ∧
    (h.next < h.limit → h.trees ≤ h.next / 32768 → ∀ j, j < 16 → Mem.byte 0xFF m' (0x40000 + 16 * h.seq % 0x40000 + j) =
      (hssRecord h.limit (h.trees + 1) h.seq).getD j 0)) ∧
  (∀ limit top seq : Nat, (hssRecord limit top seq).length = 16 ∧ crcOk (hssRecord limit top seq) = true ∧
    (limit < 2 ^ 32 → fld (hssRecord limit top seq) 0 4 = limit) ∧ (top < 2 ^ 32 → fld (hssRecord limit top seq) 4 4 = top) ∧
    (seq < 2 ^ 32 → fld (hssRecord limit top seq) 8 4 = seq)) ∧
  (∀ (h : Hss) (flash : Mem) (r : List Byte), newest (logRead flash 0x40000 0x40000 16) 8 4 = some r →
    h.start flash = { h with next := fld r 0 4, limit := fld r 0 4, trees := fld r 4 4, seq := fld r 8 4 + 1 }) ∧
  (∀ (s : State) (ch : Ch) (c : Channel) (h : Hss) (a : Nat), s.chans[ch] = c → c.boot.hss = h →
    s.reaches (.channel ch) .mctp = true → a = 0x40000 + 16 * h.seq % 0x40000 →
    (h.off = false → h.next = h.limit → h.limit < hssAll →
      (∃ f, exec (.hssBatchReserve ch true) s = .next (s.put ch { c with boot := { c.boot with
          flash := f, hss := { h with limit := h.limit + 64, seq := h.seq + 1 } } }) ∧
        (∀ j, j < 16 → Mem.byte 0xFF f (a + j) = (hssRecord (h.limit + 64) h.trees h.seq).getD j 0) ∧
        ∀ x, x < a ∨ a + 0x10000 ≤ x → Mem.byte 0xFF f x = Mem.byte 0xFF c.boot.flash x) ∧
      exec (.hssBatchReserve ch false) s = .next (s.put ch { c with boot := { c.boot with hss := { h with off := true } } })) ∧
    (h.off = true ∨ h.next ≠ h.limit → ∀ wr, exec (.hssBatchReserve ch wr) s = .next s) ∧
    (h.off = false → h.trees < 32768 → h.trees * 32768 ≤ h.next + 1024 →
      ∃ f, exec (.hssTreeBuild ch) s = .next (s.put ch { c with boot := { c.boot with
          flash := f, hss := { h with trees := h.trees + 1, seq := h.seq + 1 } } }) ∧
        (∀ j, j < 16 → Mem.byte 0xFF f (a + j) = (hssRecord h.limit (h.trees + 1) h.seq).getD j 0) ∧
        ∀ x, x < a ∨ a + 0x10000 ≤ x → Mem.byte 0xFF f x = Mem.byte 0xFF c.boot.flash x) ∧
    (h.next + 1024 < h.trees * 32768 → exec (.hssTreeBuild ch) s = .next s))

/-- The SPDM responders, where they are reached: each request that Table 18.7 supports is answered with what it names,
one outside it with ERROR UnsupportedRequest, one for another slot or an absent measurement with InvalidRequest; a
signed answer carries a nonce of the responder's generator, is signed with the alias key, and is kept for its connection;
no bits of the generator are used twice; a new connection begins with none. The codes are SPDM's (log 33), keys and
signatures free functions (log 18). An endpoint not reached answers nothing. VENDOR_DEFINED_REQUEST with code 0x01
signs the SHA-256 of the last signed answer of the connection with HSS under the next index of the endpoint's root of trust,
which it uses up, with the top tree's signature of the index's tree before it; a request repeated gets the same signature and uses no index. Any other code, or no signed answer before, is an error.
(The bridge's records lie in a memory of its own, log 91.) -/
def Obligations.SpdmResponders : Prop :=
  (∀ (s : State) (ep : Endpoint) (tr : Transport) (code slot index : Byte) (off len : W16) (nonce full rest own key : List Byte)
    (s1 s2 : State),
    s.draw ep = (own, s1) → s1.draw ep = (key, s2) →
    (s.reaches ep tr = true →
      (∃ u, exec (.getVersion ep tr) s = .next u ∧ u.answer = [0x04, 0x13] ∧ u.spdm ep tr = {} ∧
        u.hostMem = s.hostMem ∧ u.freeCtr = s.freeCtr) ∧
      exec (.getCapabilities ep tr) s = .next { s with answer := [0x61, 0x16, 0, 0, 0] } ∧
      exec (.negotiateAlgorithms ep tr) s =
        .next { s with answer := [0x63, 0x80, 0, 0, 0, 0x02, 0, 0, 0, 0x04, 0, 0, 0] } ∧
      exec (.getDigests ep tr) s =
        .next { s with answer := 0x01 :: 0x01 :: Config.sha384 (s.certs ep) } ∧
      (rest = (s.certs ep).drop off.toNat →
        full = [0x02, 0] ++ toBytes 2 (rest.take len.toNat).length ++
          toBytes 2 (rest.length - (rest.take len.toNat).length) ++ rest.take len.toNat →
        exec (.getCertificate ep tr 0 off len) s = .next { s with answer := full }) ∧
      (slot ≠ 0 → exec (.getCertificate ep tr slot off len) s = .next { s with answer := [0x7F, 1] } ∧
        exec (.challenge ep tr slot nonce) s = .next { s with answer := [0x7F, 1] }) ∧
      (∃ u body, exec (.challenge ep tr 0 nonce) s = .next u ∧
        body = [0x03, 0] ++ Config.sha384 (s.certs ep) ++ own ++ nonce ++ Config.sha384 (s.measures ep).flatten ∧
        u.answer = body ++ Config.ecdsaSign (s.aliasKey ep) key body ∧ u.spdm ep tr = { lastSigned := some u.answer } ∧
        u.freeCtr = s.freeCtr ∧ (u.draw ep).1 = (s2.draw ep).1) ∧
      (∀ m, (index = 0 ∧ m = []) ∨ (index = 255 ∧ m = (s.measures ep).flatten) ∨
          (index ≠ 0 ∧ index ≠ 255 ∧ (s.measures ep)[index.toNat - 1]? = some m) →
        ∃ u body, exec (.getMeasurements ep tr index nonce) s = .next u ∧
          body = [0x60, BitVec.ofNat 8 (s.measures ep).length] ++ own ++ nonce ++ m ∧
          u.answer = body ++ Config.ecdsaSign (s.aliasKey ep) key body ∧ u.spdm ep tr = { lastSigned := some u.answer } ∧
          u.freeCtr = s.freeCtr ∧ (u.draw ep).1 = (s2.draw ep).1) ∧
      (index ≠ 0 → index ≠ 255 → (s.measures ep)[index.toNat - 1]? = none →
        exec (.getMeasurements ep tr index nonce) s = .next { s with answer := [0x7F, 1] }) ∧
      exec (.spdmUnsupportedRequest ep tr code) s = .next { s with answer := [0x7F, 7] }) ∧
    (s.reaches ep tr = false → ∀ i : Instr,
      (i = .getVersion ep tr ∨ i = .getCapabilities ep tr ∨ i = .negotiateAlgorithms ep tr ∨ i = .getDigests ep tr ∨
        i = .getCertificate ep tr slot off len ∨ i = .challenge ep tr slot nonce ∨ i = .getMeasurements ep tr index nonce ∨
        i = .vendorDefinedRequest ep tr code ∨ i = .spdmUnsupportedRequest ep tr code) → exec i s = .next s)) ∧
  (∀ (s : State) (ep : Endpoint) (tr : Transport) (code : Byte) (msg sig g : List Byte) (q : Nat) (h : Hss) (m : Mem),
    s.reaches ep tr = true →
    (s.spdm ep tr = { lastSigned := some msg } → (s.hss ep).1.index (s.hss ep).2 = (some q, h, m) →
      g = Config.hssTopSign (Config.hssSeed (Config.uds (epCode ep))) (q / 32768) ++
        Config.hssSign (Config.hssSeed (Config.uds (epCode ep))) q (Config.sha256 msg) →
      ∃ u, exec (.vendorDefinedRequest ep tr 1) s = .next u ∧ u.answer = 0x7E :: g ∧ u.hss ep = (h, m) ∧
        u.spdm ep tr = { lastSigned := some msg, hssFor := some g } ∧
        exec (.vendorDefinedRequest ep tr 1) u = .next u) ∧
    (s.spdm ep tr = { lastSigned := some msg } → (s.hss ep).1.index (s.hss ep).2 = (none, h, m) →
      ∃ u, exec (.vendorDefinedRequest ep tr 1) s = .next u ∧ u.answer.head? = some 0x7F ∧ u.hss ep = (h, m) ∧
        u.spdm ep tr = s.spdm ep tr) ∧
    (s.spdm ep tr = { lastSigned := some msg, hssFor := some sig } →
      exec (.vendorDefinedRequest ep tr 1) s = .next { s with answer := 0x7E :: sig }) ∧
    ((s.spdm ep tr).lastSigned = none → exec (.vendorDefinedRequest ep tr 1) s = .next { s with answer := [0x7F, 1] }) ∧
    (code ≠ 1 → exec (.vendorDefinedRequest ep tr code) s = .next { s with answer := [0x7F, 7] }))

/-- The mailbox. With GO set, MBX_IDENTITY answers the 64-byte identity record, MBX_CONFIG_READ the bytes asked for of
the configuration block in force, MBX_MEASUREMENTS the six measurement blocks, each with code 0x00 and no other byte
of MBX_RSP changed; any other request gets code 0x01. A GO while BUSY sets MBX_OVR; without GO nothing changes. (The
layout of the replies is the model's where no table gives it, log 20.) MCTP control messages set and tell endpoint
IDs, the bridge's pool giving eight consecutive ones to the channels, and name the types control, PLDM and SPDM. The
codes are MCTP's (log 33); a message that comes shows the I3C target addressed. An endpoint not reached answers nothing.
PLDM, where the endpoint is reached over MCTP. PLDM_DISCOVERY at a channel names types 0, 2 and 5; PLDM_SENSOR_READ answers a sensor's reading, or that it is unavailable;
PLATFORM_EVENT_MESSAGE is sent when the state sensor's pair is another than the one last sent, once;
PLDM_HOLD_EFFECTER sets the BMC's HOLD bit; PLDM_FIRMWARE_UPDATE begins unless function 0 holds the flash, writes the
slot that did not boot and no other byte, marks that slot as written in part until it ends; ACTIVATE_FIRMWARE marks the slot once the update has ended.
Response codes and sensor scales beyond the tables are logs 20 and 33. -/
def Obligations.MailboxAndPldm : Prop :=
  (∀ (s : State) (ch : Ch) (w : RegWrite) (c : Channel) (b : Boot) (i : Instr) (o n : Nat),
    s.hostOk ch = true → s.chans[ch] = c → c.boot = b →
    (i = .mbxIdentity ch w ∨ i = .mbxConfigRead ch w ∨ i = .mbxMeasurements ch w ∨ i = .mbxUnknownRequest ch w →
      ((enabledBits w 4).testBit 0 = false → exec i s = .next s) ∧
      ((enabledBits w 4).testBit 0 = true → b.mbxBusy = true →
        exec i s = .next (s.put ch { c with boot := { b with mbxOvr := true } }))) ∧
    ((enabledBits w 4).testBit 0 = true → b.mbxBusy = false →
      (b.mbxCodeOf = 1 → ∃ d, exec (.mbxIdentity ch w) s = .next { s.put ch { c with boot := { b with
          mbxCode := 0, mbxRsp := d } } with freeCtr := s.freeCtr + 1 } ∧
        ∀ j, Mem.byte 0 d j = if j < 64 then b.identityRecord.getD j 0 else Mem.byte 0 b.mbxRsp j) ∧
      (b.mbxCodeOf = 2 → o = fld (Mem.read 0 b.mbxReq 0 12) 4 4 → n = fld (Mem.read 0 b.mbxReq 0 12) 8 4 → n ≤ 1024 →
        o + n ≤ b.cfg.raw.length →
        ∃ d, exec (.mbxConfigRead ch w) s = .next { s.put ch { c with boot := { b with
          mbxCode := 0, mbxRsp := d } } with freeCtr := s.freeCtr + 1 } ∧
        ∀ j, Mem.byte 0 d j = if j < n then b.cfg.raw.getD (o + j) 0 else Mem.byte 0 b.mbxRsp j) ∧
      (b.mbxCodeOf = 3 → ∃ d, exec (.mbxMeasurements ch w) s = .next { s.put ch { c with boot := { b with
          mbxCode := 0, mbxRsp := d } } with freeCtr := s.freeCtr + 1 } ∧
        ∀ j, Mem.byte 0 d j =
          if j < min 1024 b.measures.flatten.length then b.measures.flatten.getD j 0 else Mem.byte 0 b.mbxRsp j) ∧
      (b.mbxCodeOf = 0 ∨ 3 < b.mbxCodeOf → exec (.mbxUnknownRequest ch w) s = .next { s.put ch { c with boot := { b with
          mbxCode := 1 } } with freeCtr := s.freeCtr + 1 }))) ∧
  (∀ (s : State) (ep : Endpoint) (e : Byte) (r : MctpReq),
    (s.reaches ep .mctp = true →
      exec (.mctpControl ep (.setEid e)) s = .next { s with
        bridge := { s.bridge with eids := s.bridge.eids.set (epCode ep) e, i3cAddressed := true }, answer := [0, e] } ∧
      exec (.mctpControl ep .getEid) s = .next { s with
        bridge := { s.bridge with i3cAddressed := true }, answer := [0, s.bridge.eids.getD (epCode ep) 0] } ∧
      exec (.mctpControl ep .getMessageTypes) s = .next { s with
        bridge := { s.bridge with i3cAddressed := true }, answer := [0, 3, 0x00, 0x01, 0x05] } ∧
      (∃ u, exec (.mctpControl ep .getVersion) s = .next u ∧ u.answer.head? = some 0 ∧ u.chans = s.chans ∧
        u.bridge = { s.bridge with i3cAddressed := true }) ∧
      (∀ code, ∃ u, exec (.pldmDiscovery ep code) s = .next u ∧ u.chans = s.chans ∧ u.events = s.events ∧
        u.bridge = s.bridge) ∧
      (s.bridge.eids.length = 9 → ∃ u, exec (.mctpControl .bridge (.allocatePool e)) s = .next u ∧ u.chans = s.chans ∧
        u.bridge.eids.length = 9 ∧ u.bridge.eids[0]? = s.bridge.eids[0]? ∧
        ∀ ch : Ch, u.bridge.eids[1 + ch.val]? = some (e + BitVec.ofNat 8 ch.val))) ∧
    (s.reaches ep .mctp = false → exec (.mctpControl ep r) s = .next s)) ∧
  (∀ (s : State) (ch : Ch) (c : Channel) (b : Boot) (x : Sensor) (hold : Bool) (o : Nat) (bs : List Byte) (i : Instr),
    s.chans[ch] = c → c.boot = b →
    (s.reaches (.channel ch) .mctp = true →
      exec (.pldmDiscovery (.channel ch) 4) s = .next { s with answer := [0, 0x25, 0, 0, 0, 0, 0, 0, 0] } ∧
      (∀ v, c.sensor x = some v → exec (.pldmSensorRead ch x) s = .next { s with answer := 0 :: toBytes 8 v }) ∧
      (c.sensor x = none → exec (.pldmSensorRead ch x) s = .next { s with answer := [1] }) ∧
      (c.statePair ≠ s.lastEvent ch → ∃ u, exec (.platformEventMessage ch) s = .next u ∧
        u = { s with events := s.events ++ [(ch.val, c.statePair.1, c.statePair.2)] } ∧
        exec (.platformEventMessage ch) u = .next u) ∧
      (c.statePair = s.lastEvent ch → exec (.platformEventMessage ch) s = .next s) ∧
      exec (.pldmHoldEffecter ch hold) s = .next (s.put ch { c with boot := { b with bmcHold := hold } }) ∧
      (b.flown = false → exec (.pldmFirmwareUpdate ch .start) s =
        .next (s.put ch { c with boot := { b with
          fwUpdate := true, torn := ((1 - b.slot.toNat) :: b.torn).dedup } })) ∧
      (b.flown = true → exec (.pldmFirmwareUpdate ch .start) s = .next s) ∧
      (b.fwUpdate = true → o + bs.length ≤ fwSize →
        ∃ f, exec (.pldmFirmwareUpdate ch (.data o bs)) s = .next (s.put ch { c with boot := { b with flash := f } }) ∧
          ∀ a, Mem.byte 0xFF f a = if fwBase (1 - b.slot.toNat) + o ≤ a ∧ a < fwBase (1 - b.slot.toNat) + o + bs.length
            then bs.getD (a - (fwBase (1 - b.slot.toNat) + o)) 0 else Mem.byte 0xFF b.flash a) ∧
      (b.fwUpdate = false → exec (.pldmFirmwareUpdate ch (.data o bs)) s = .next s) ∧
      (b.fwUpdate = false → exec (.pldmFirmwareUpdate ch .finish) s = .next s) ∧
      (b.fwUpdate = true → exec (.pldmFirmwareUpdate ch .finish) s = .next (s.put ch { c with boot := { b with
        fwUpdate := false, torn := b.torn.filter fun i => i != 1 - b.slot.toNat } })) ∧
      (b.fwUpdate = false → exec (.activateFirmware ch) s = .next (s.put ch { c with boot := { b with activated := true } })) ∧
      (b.fwUpdate = true → exec (.activateFirmware ch) s = .next s)) ∧
    (s.reaches (.channel ch) .mctp = false → (i = .pldmDiscovery (.channel ch) 4 ∨ i = .pldmSensorRead ch x ∨
        i = .platformEventMessage ch ∨ i = .pldmHoldEffecter ch hold ∨ i = .pldmReset ch ∨
        i = .pldmFirmwareUpdate ch (.data o bs) ∨ i = .activateFirmware ch) → exec i s = .next s))
end

