-- ==== Sys2Proof/Laws/Memory.lean ====
section
/-!
SUPPORT. The laws of memory: every operation keeps the canonical form, a read after a write to the same place gives what
was written, and a write leaves every other place alone.
-/
namespace Sys2Proof.Machine

open Sys2Proof

/-- Cells of a run lie in the run and hold no byte that an unlisted address reads as. -/
theorem Mem.mem_cells {d : Byte} : ∀ {a : Nat} {bs : List Byte} {c : Host.Cell}, c ∈ Mem.cells d a bs →
    a ≤ c.1 ∧ c.1 < a + bs.length ∧ c.2 ≠ d
  | _, [], _, h => by simp [Mem.cells] at h
  | a, b :: bs, c, h => by
    simp only [Mem.cells] at h
    split at h
    · have := Mem.mem_cells h
      simp only [List.length_cons]
      exact ⟨by omega, by omega, this.2.2⟩
    · rcases List.mem_cons.mp h with rfl | h
      · simp only [List.length_cons]
        exact ⟨le_refl _, by omega, ‹_›⟩
      · have := Mem.mem_cells h
        simp only [List.length_cons]
        exact ⟨by omega, by omega, this.2.2⟩

theorem Mem.cells_rising (d : Byte) : ∀ (a : Nat) (bs : List Byte),
    (Mem.cells d a bs).Pairwise fun x y => x.1 < y.1
  | _, [] => by simp [Mem.cells]
  | a, b :: bs => by
    simp only [Mem.cells]
    split
    · exact Mem.cells_rising d (a + 1) bs
    · refine List.pairwise_cons.mpr ⟨fun c h => ?_, Mem.cells_rising d (a + 1) bs⟩
      have := (Mem.mem_cells h).1
      change a < c.1
      omega

/-- Empty memory is canonical. -/
theorem Mem.wf_nil (d : Byte) : Mem.wf d [] := ⟨List.Pairwise.nil, by simp⟩

/-- Forgetting cells keeps the canonical form. -/
theorem Mem.wf_filter {d : Byte} {m : Mem} (h : Mem.wf d m) (p : Host.Cell → Bool) : Mem.wf d (m.filter p) :=
  ⟨h.1.filter p, fun c hc => h.2 c (List.mem_filter.mp hc).1⟩

/-- A write keeps the canonical form. -/
theorem Mem.wf_write {d : Byte} {m : Mem} (h : Mem.wf d m) (a : Nat) (bs : List Byte) :
    Mem.wf d (Mem.write d m a bs) := by
  refine ⟨?_, fun c hc => ?_⟩
  · refine List.pairwise_append.mpr ⟨List.pairwise_append.mpr ⟨h.1.filter _, Mem.cells_rising d a bs, ?_⟩,
      h.1.filter _, ?_⟩
    · intro x hx y hy
      have := (Mem.mem_cells hy).1
      have := (List.mem_filter.mp hx).2
      simp only [decide_eq_true_eq] at this
      omega
    · intro x hx y hy
      have hy := (List.mem_filter.mp hy).2
      simp only [decide_eq_true_eq] at hy
      rcases List.mem_append.mp hx with hx | hx
      · have := (List.mem_filter.mp hx).2
        simp only [decide_eq_true_eq] at this
        omega
      · have := (Mem.mem_cells hx).2.1
        omega
  · rcases List.mem_append.mp hc with hc | hc
    · rcases List.mem_append.mp hc with hc | hc
      · exact h.2 c (List.mem_filter.mp hc).1
      · exact (Mem.mem_cells hc).2.2
    · exact h.2 c (List.mem_filter.mp hc).1

/-! ### Reading -/

theorem Mem.lookup_filter_true {m : Mem} {x : Nat} {p : Host.Cell → Bool} (h : ∀ b, p (x, b) = true) :
    (m.filter p).lookup x = m.lookup x := by
  induction m with
  | nil => rfl
  | cons c rest ih =>
    obtain ⟨k, b⟩ := c
    by_cases hk : x = k
    · subst hk
      simp [h b, List.lookup]
    · have hk' : (x == k) = false := by simpa using hk
      by_cases hp : p (k, b) = true
      · simp [hp, List.lookup, hk', ih]
      · simp only [Bool.not_eq_true] at hp
        simp [hp, List.lookup, hk', ih]

theorem Mem.lookup_none {m : Mem} {x : Nat} (h : ∀ c ∈ m, c.1 ≠ x) : m.lookup x = none := by
  induction m with
  | nil => rfl
  | cons c rest ih =>
    obtain ⟨k, b⟩ := c
    have : (x == k) = false := by simpa using (h (k, b) (by simp)).symm
    simp only [List.lookup, this]
    exact ih fun c hc => h c (by simp [hc])

theorem Mem.lookup_cells (d : Byte) : ∀ (a : Nat) (bs : List Byte) (x : Nat), a ≤ x → x < a + bs.length →
    ((Mem.cells d a bs).lookup x).getD d = bs.getD (x - a) d
  | _, [], _, h, h' => by simp at h'; omega
  | a, b :: bs, x, h, h' => by
    simp only [List.length_cons] at h'
    by_cases hx : x = a
    · subst hx
      simp only [Mem.cells]
      split
      · rename_i hb
        rw [Mem.lookup_none fun c hc => by have := (Mem.mem_cells hc).1; omega]
        simp [hb]
      · simp [List.lookup]
    · have e : x - a = (x - (a + 1)) + 1 := by omega
      have ih := Mem.lookup_cells d (a + 1) bs x (by omega) (by omega)
      have hx' : (x == a) = false := by simpa using hx
      simp only [Mem.cells]
      rw [e, List.getD_cons_succ]
      split
      · exact ih
      · simp only [List.lookup, hx']
        exact ih

/-- A byte after a write: what was written inside the run, what was there before outside it. -/
theorem Mem.byte_write (d : Byte) (m : Mem) (a : Nat) (bs : List Byte) (x : Nat) :
    Mem.byte d (Mem.write d m a bs) x =
      if a ≤ x ∧ x < a + bs.length then bs.getD (x - a) d else Mem.byte d m x := by
  unfold Mem.byte Mem.write
  rw [List.lookup_append, List.lookup_append]
  by_cases hlo : x < a
  · rw [Mem.lookup_filter_true (p := fun c => decide (c.1 < a)) (by simpa using hlo),
      Mem.lookup_none (m := Mem.cells d a bs) fun c hc => by have := (Mem.mem_cells hc).1; omega,
      Mem.lookup_none (m := m.filter fun c => decide (a + bs.length ≤ c.1)) fun c hc => by
        have := (List.mem_filter.mp hc).2
        simp only [decide_eq_true_eq] at this
        omega]
    rw [if_neg (by omega)]
    simp
  · rw [Mem.lookup_none (m := m.filter fun c => decide (c.1 < a)) fun c hc => by
      have := (List.mem_filter.mp hc).2
      simp only [decide_eq_true_eq] at this
      omega]
    by_cases hhi : x < a + bs.length
    · rw [Mem.lookup_none (m := m.filter fun c => decide (a + bs.length ≤ c.1)) fun c hc => by
        have := (List.mem_filter.mp hc).2
        simp only [decide_eq_true_eq] at this
        omega, if_pos ⟨by omega, hhi⟩]
      simpa using Mem.lookup_cells d a bs x (by omega) hhi
    · rw [Mem.lookup_none (m := Mem.cells d a bs) fun c hc => by have := (Mem.mem_cells hc).2.1; omega,
        Mem.lookup_filter_true (p := fun c => decide (a + bs.length ≤ c.1)) (by simpa using Nat.le_of_not_lt hhi),
        if_neg (by omega)]
      simp

theorem Mem.byte_write_outside {d : Byte} {m : Mem} {a : Nat} {bs : List Byte} {x : Nat}
    (h : x < a ∨ a + bs.length ≤ x) : Mem.byte d (Mem.write d m a bs) x = Mem.byte d m x := by
  rw [Mem.byte_write, if_neg (by omega)]

theorem Mem.byte_write_inside {d : Byte} {m : Mem} {a : Nat} {bs : List Byte} {i : Nat} (h : i < bs.length) :
    Mem.byte d (Mem.write d m a bs) (a + i) = bs[i] := by
  rw [Mem.byte_write, if_pos ⟨by omega, by omega⟩]
  simp [h]

/-- Walking canonical cells gives the bytes one by one. -/
theorem Mem.readGo_eq (d : Byte) : ∀ (n : Nat) (m : Mem) (a : Nat), m.Pairwise (fun x y => x.1 < y.1) →
    (∀ c ∈ m, a ≤ c.1) → Mem.readGo d m a n = (List.range n).map fun i => Mem.byte d m (a + i)
  | 0, _, _, _, _ => by simp [Mem.readGo]
  | n + 1, [], a, _, _ => by
    rw [Mem.readGo, Mem.readGo_eq d n [] (a + 1) List.Pairwise.nil (by simp), List.range_succ_eq_map]
    simp [Mem.byte, List.map_map, Function.comp_def]
  | n + 1, (k, b) :: rest, a, hp, hlo => by
    have hk : a ≤ k := hlo (k, b) (by simp)
    have hrest : ∀ c ∈ rest, k < c.1 := (List.pairwise_cons.mp hp).1
    rw [List.range_succ_eq_map, List.map_cons, List.map_map]
    by_cases e : k = a
    · subst e
      rw [Mem.readGo, if_pos rfl, Mem.readGo_eq d n rest (k + 1) (List.pairwise_cons.mp hp).2 fun c hc => hrest c hc]
      refine congrArg₂ _ (by simp [Mem.byte, List.lookup]) (List.map_congr_left fun i _ => ?_)
      have e : (k + (i + 1) == k) = false := by simp
      simp [Mem.byte, List.lookup, e, Nat.add_assoc, Nat.add_comm 1 i]
    · rw [Mem.readGo, if_neg e, Mem.readGo_eq d n ((k, b) :: rest) (a + 1) hp fun c hc => by
        rcases List.mem_cons.mp hc with rfl | hc
        · change a + 1 ≤ k
          omega
        · have := hrest c hc
          omega]
      refine congrArg₂ _ ?_ (List.map_congr_left fun i _ => ?_)
      · have : (a == k) = false := by simpa using fun h => e h.symm
        have hn : Mem.byte d rest a = d := by
          unfold Mem.byte
          rw [Mem.lookup_none fun c hc => by have := hrest c hc; omega]
          rfl
        simpa [Mem.byte, List.lookup, this] using hn.symm
      · simp [Nat.add_assoc, Nat.add_comm 1 i]

theorem Mem.lookup_window {m : Mem} {a n x : Nat} (h : a ≤ x) (h' : x < a + n) :
    (m.filter fun c => decide (a ≤ c.1) && decide (c.1 < a + n)).lookup x = m.lookup x :=
  Mem.lookup_filter_true (by simp [h, h'])

/-- A read of canonical memory, byte by byte. -/
theorem Mem.read_eq {d : Byte} {m : Mem} (h : m.Pairwise fun x y => x.1 < y.1) (a n : Nat) :
    Mem.read d m a n = (List.range n).map fun i => Mem.byte d m (a + i) := by
  unfold Mem.read
  rw [Mem.readGo_eq d n _ a (h.filter _) fun c hc => by
    have := (List.mem_filter.mp hc).2
    simp only [Bool.and_eq_true, decide_eq_true_eq] at this
    exact this.1]
  refine List.map_congr_left fun i hi => ?_
  have := List.mem_range.mp hi
  unfold Mem.byte
  rw [Mem.lookup_window (by omega) (by omega)]

/-- A read after a write of the same run gives what was written. -/
theorem Mem.read_write {d : Byte} {m : Mem} (h : Mem.wf d m) (a : Nat) (bs : List Byte) :
    Mem.read d (Mem.write d m a bs) a bs.length = bs := by
  rw [Mem.read_eq (Mem.wf_write h a bs).1]
  refine List.ext_getElem (by simp) fun i h1 h2 => ?_
  simp only [List.getElem_map, List.getElem_range]
  exact Mem.byte_write_inside h2

/-! ### A channel's memory -/

theorem Channel.wr_wf {c : Channel} (h : Mem.wf 0 c.mem) (a : Nat) (bs : List Byte) : Mem.wf 0 (c.wr a bs).mem :=
  Mem.wf_write h a bs

theorem Channel.wrN_wf {c : Channel} (h : Mem.wf 0 c.mem) (a n v : Nat) : Mem.wf 0 (c.wrN a n v).mem :=
  Mem.wf_write h a _

/-- A command's write: memory as after a plain one (13 R296). -/
@[simp] theorem Channel.put_mem (c : Channel) (a : Nat) (bs : List Byte) : (c.put a bs).mem = (c.wr a bs).mem := rfl

theorem Channel.put_wf {c : Channel} (h : Mem.wf 0 c.mem) (a : Nat) (bs : List Byte) : Mem.wf 0 (c.put a bs).mem :=
  Mem.wf_write h a bs

theorem Channel.wr_byte (c : Channel) (a : Nat) (bs : List Byte) (x : Nat) :
    Mem.byte 0 (c.wr a bs).mem x =
      if a ≤ x ∧ x < a + bs.length then bs.getD (x - a) 0 else Mem.byte 0 c.mem x :=
  Mem.byte_write 0 c.mem a bs x

end Sys2Proof.Machine
end

