-- ==== Sys2Proof/Laws/State.lean ====
section
/-!
SUPPORT. Frame lemmas of the record updates: for each part of a channel and each update of another part, that it stays,
true by definition and tagged for simp, so that no proof unfolds an update to see this.
-/
namespace Sys2Proof.Machine

open Sys2Proof


/-! ### Channel.modQ -/

@[simp] theorem Channel.modQ_boot (c : Channel) (q : QIdx) (f : Queue → Queue) : (c.modQ q f).boot = c.boot := rfl
@[simp] theorem Channel.modQ_sems (c : Channel) (q : QIdx) (f : Queue → Queue) : (c.modQ q f).sems = c.sems := rfl
@[simp] theorem Channel.modQ_running (c : Channel) (q : QIdx) (f : Queue → Queue) : (c.modQ q f).running = c.running := rfl
@[simp] theorem Channel.modQ_inputs (c : Channel) (q : QIdx) (f : Queue → Queue) : (c.modQ q f).inputs = c.inputs := rfl
@[simp] theorem Channel.modQ_floes (c : Channel) (q : QIdx) (f : Queue → Queue) : (c.modQ q f).floes = c.floes := rfl
@[simp] theorem Channel.modQ_nextFloe (c : Channel) (q : QIdx) (f : Queue → Queue) : (c.modQ q f).nextFloe = c.nextFloe := rfl
@[simp] theorem Channel.modQ_table (c : Channel) (q : QIdx) (f : Queue → Queue) : (c.modQ q f).table = c.table := rfl
@[simp] theorem Channel.modQ_rr (c : Channel) (q : QIdx) (f : Queue → Queue) : (c.modQ q f).rr = c.rr := rfl
@[simp] theorem Channel.modQ_mem (c : Channel) (q : QIdx) (f : Queue → Queue) : (c.modQ q f).mem = c.mem := rfl
@[simp] theorem Channel.modQ_bad (c : Channel) (q : QIdx) (f : Queue → Queue) : (c.modQ q f).bad = c.bad := rfl
@[simp] theorem Channel.modQ_poisonHit (c : Channel) (q : QIdx) (f : Queue → Queue) : (c.modQ q f).poisonHit = c.poisonHit := rfl
@[simp] theorem Channel.modQ_waitHit (c : Channel) (q : QIdx) (f : Queue → Queue) : (c.modQ q f).waitHit = c.waitHit := rfl
@[simp] theorem Channel.modQ_irqWait (c : Channel) (q : QIdx) (f : Queue → Queue) : (c.modQ q f).irqWait = c.irqWait := rfl
@[simp] theorem Channel.modQ_hostWait (c : Channel) (q : QIdx) (f : Queue → Queue) : (c.modQ q f).hostWait = c.hostWait := rfl
@[simp] theorem Channel.modQ_poisRead (c : Channel) (q : QIdx) (f : Queue → Queue) : (c.modQ q f).poisRead = c.poisRead := rfl
@[simp] theorem Channel.modQ_nmon (c : Channel) (q : QIdx) (f : Queue → Queue) : (c.modQ q f).nmon = c.nmon := rfl
@[simp] theorem Channel.modQ_cores (c : Channel) (q : QIdx) (f : Queue → Queue) : (c.modQ q f).cores = c.cores := rfl
@[simp] theorem Channel.modQ_sas (c : Channel) (q : QIdx) (f : Queue → Queue) : (c.modQ q f).sas = c.sas := rfl
@[simp] theorem Channel.modQ_engines (c : Channel) (q : QIdx) (f : Queue → Queue) : (c.modQ q f).engines = c.engines := rfl
@[simp] theorem Channel.modQ_abl (c : Channel) (q : QIdx) (f : Queue → Queue) : (c.modQ q f).abl = c.abl := rfl
@[simp] theorem Channel.modQ_agd (c : Channel) (q : QIdx) (f : Queue → Queue) : (c.modQ q f).agd = c.agd := rfl
@[simp] theorem Channel.modQ_frz (c : Channel) (q : QIdx) (f : Queue → Queue) : (c.modQ q f).frz = c.frz := rfl
@[simp] theorem Channel.modQ_stk (c : Channel) (q : QIdx) (f : Queue → Queue) : (c.modQ q f).stk = c.stk := rfl
@[simp] theorem Channel.modQ_ports (c : Channel) (q : QIdx) (f : Queue → Queue) : (c.modQ q f).ports = c.ports := rfl
@[simp] theorem Channel.modQ_putRx (c : Channel) (q : QIdx) (f : Queue → Queue) : (c.modQ q f).putRx = c.putRx := rfl
@[simp] theorem Channel.modQ_putNext (c : Channel) (q : QIdx) (f : Queue → Queue) : (c.modQ q f).putNext = c.putNext := rfl
@[simp] theorem Channel.modQ_streams (c : Channel) (q : QIdx) (f : Queue → Queue) : (c.modQ q f).streams = c.streams := rfl
@[simp] theorem Channel.modQ_inbox (c : Channel) (q : QIdx) (f : Queue → Queue) : (c.modQ q f).inbox = c.inbox := rfl
@[simp] theorem Channel.modQ_cfl (c : Channel) (q : QIdx) (f : Queue → Queue) : (c.modQ q f).cfl = c.cfl := rfl
@[simp] theorem Channel.modQ_colls (c : Channel) (q : QIdx) (f : Queue → Queue) : (c.modQ q f).colls = c.colls := rfl
@[simp] theorem Channel.modQ_heldMsgs (c : Channel) (q : QIdx) (f : Queue → Queue) : (c.modQ q f).heldMsgs = c.heldMsgs := rfl
@[simp] theorem Channel.modQ_stp (c : Channel) (q : QIdx) (f : Queue → Queue) : (c.modQ q f).stp = c.stp := rfl
@[simp] theorem Channel.modQ_flt (c : Channel) (q : QIdx) (f : Queue → Queue) : (c.modQ q f).flt = c.flt := rfl
@[simp] theorem Channel.modQ_gov (c : Channel) (q : QIdx) (f : Queue → Queue) : (c.modQ q f).gov = c.gov := rfl

/-! ### Channel.modCore -/

@[simp] theorem Channel.modCore_boot (c : Channel) (k : Core) (f : CoreState → CoreState) : (c.modCore k f).boot = c.boot := rfl
@[simp] theorem Channel.modCore_queues (c : Channel) (k : Core) (f : CoreState → CoreState) : (c.modCore k f).queues = c.queues := rfl
@[simp] theorem Channel.modCore_sems (c : Channel) (k : Core) (f : CoreState → CoreState) : (c.modCore k f).sems = c.sems := rfl
@[simp] theorem Channel.modCore_running (c : Channel) (k : Core) (f : CoreState → CoreState) : (c.modCore k f).running = c.running := rfl
@[simp] theorem Channel.modCore_inputs (c : Channel) (k : Core) (f : CoreState → CoreState) : (c.modCore k f).inputs = c.inputs := rfl
@[simp] theorem Channel.modCore_floes (c : Channel) (k : Core) (f : CoreState → CoreState) : (c.modCore k f).floes = c.floes := rfl
@[simp] theorem Channel.modCore_nextFloe (c : Channel) (k : Core) (f : CoreState → CoreState) : (c.modCore k f).nextFloe = c.nextFloe := rfl
@[simp] theorem Channel.modCore_table (c : Channel) (k : Core) (f : CoreState → CoreState) : (c.modCore k f).table = c.table := rfl
@[simp] theorem Channel.modCore_rr (c : Channel) (k : Core) (f : CoreState → CoreState) : (c.modCore k f).rr = c.rr := rfl
@[simp] theorem Channel.modCore_mem (c : Channel) (k : Core) (f : CoreState → CoreState) : (c.modCore k f).mem = c.mem := rfl
@[simp] theorem Channel.modCore_bad (c : Channel) (k : Core) (f : CoreState → CoreState) : (c.modCore k f).bad = c.bad := rfl
@[simp] theorem Channel.modCore_poisonHit (c : Channel) (k : Core) (f : CoreState → CoreState) : (c.modCore k f).poisonHit = c.poisonHit := rfl
@[simp] theorem Channel.modCore_waitHit (c : Channel) (k : Core) (f : CoreState → CoreState) : (c.modCore k f).waitHit = c.waitHit := rfl
@[simp] theorem Channel.modCore_irqWait (c : Channel) (k : Core) (f : CoreState → CoreState) : (c.modCore k f).irqWait = c.irqWait := rfl
@[simp] theorem Channel.modCore_hostWait (c : Channel) (k : Core) (f : CoreState → CoreState) : (c.modCore k f).hostWait = c.hostWait := rfl
@[simp] theorem Channel.modCore_poisRead (c : Channel) (k : Core) (f : CoreState → CoreState) : (c.modCore k f).poisRead = c.poisRead := rfl
@[simp] theorem Channel.modCore_nmon (c : Channel) (k : Core) (f : CoreState → CoreState) : (c.modCore k f).nmon = c.nmon := rfl
@[simp] theorem Channel.modCore_sas (c : Channel) (k : Core) (f : CoreState → CoreState) : (c.modCore k f).sas = c.sas := rfl
@[simp] theorem Channel.modCore_engines (c : Channel) (k : Core) (f : CoreState → CoreState) : (c.modCore k f).engines = c.engines := rfl
@[simp] theorem Channel.modCore_abl (c : Channel) (k : Core) (f : CoreState → CoreState) : (c.modCore k f).abl = c.abl := rfl
@[simp] theorem Channel.modCore_agd (c : Channel) (k : Core) (f : CoreState → CoreState) : (c.modCore k f).agd = c.agd := rfl
@[simp] theorem Channel.modCore_frz (c : Channel) (k : Core) (f : CoreState → CoreState) : (c.modCore k f).frz = c.frz := rfl
@[simp] theorem Channel.modCore_stk (c : Channel) (k : Core) (f : CoreState → CoreState) : (c.modCore k f).stk = c.stk := rfl
@[simp] theorem Channel.modCore_ports (c : Channel) (k : Core) (f : CoreState → CoreState) : (c.modCore k f).ports = c.ports := rfl
@[simp] theorem Channel.modCore_putRx (c : Channel) (k : Core) (f : CoreState → CoreState) : (c.modCore k f).putRx = c.putRx := rfl
@[simp] theorem Channel.modCore_putNext (c : Channel) (k : Core) (f : CoreState → CoreState) : (c.modCore k f).putNext = c.putNext := rfl
@[simp] theorem Channel.modCore_streams (c : Channel) (k : Core) (f : CoreState → CoreState) : (c.modCore k f).streams = c.streams := rfl
@[simp] theorem Channel.modCore_inbox (c : Channel) (k : Core) (f : CoreState → CoreState) : (c.modCore k f).inbox = c.inbox := rfl
@[simp] theorem Channel.modCore_cfl (c : Channel) (k : Core) (f : CoreState → CoreState) : (c.modCore k f).cfl = c.cfl := rfl
@[simp] theorem Channel.modCore_colls (c : Channel) (k : Core) (f : CoreState → CoreState) : (c.modCore k f).colls = c.colls := rfl
@[simp] theorem Channel.modCore_heldMsgs (c : Channel) (k : Core) (f : CoreState → CoreState) : (c.modCore k f).heldMsgs = c.heldMsgs := rfl
@[simp] theorem Channel.modCore_stp (c : Channel) (k : Core) (f : CoreState → CoreState) : (c.modCore k f).stp = c.stp := rfl
@[simp] theorem Channel.modCore_flt (c : Channel) (k : Core) (f : CoreState → CoreState) : (c.modCore k f).flt = c.flt := rfl
@[simp] theorem Channel.modCore_gov (c : Channel) (k : Core) (f : CoreState → CoreState) : (c.modCore k f).gov = c.gov := rfl

/-! ### Channel.modPort -/

@[simp] theorem Channel.modPort_boot (c : Channel) (p : Port) (f : PortState → PortState) : (c.modPort p f).boot = c.boot := rfl
@[simp] theorem Channel.modPort_queues (c : Channel) (p : Port) (f : PortState → PortState) : (c.modPort p f).queues = c.queues := rfl
@[simp] theorem Channel.modPort_sems (c : Channel) (p : Port) (f : PortState → PortState) : (c.modPort p f).sems = c.sems := rfl
@[simp] theorem Channel.modPort_running (c : Channel) (p : Port) (f : PortState → PortState) : (c.modPort p f).running = c.running := rfl
@[simp] theorem Channel.modPort_inputs (c : Channel) (p : Port) (f : PortState → PortState) : (c.modPort p f).inputs = c.inputs := rfl
@[simp] theorem Channel.modPort_floes (c : Channel) (p : Port) (f : PortState → PortState) : (c.modPort p f).floes = c.floes := rfl
@[simp] theorem Channel.modPort_nextFloe (c : Channel) (p : Port) (f : PortState → PortState) : (c.modPort p f).nextFloe = c.nextFloe := rfl
@[simp] theorem Channel.modPort_table (c : Channel) (p : Port) (f : PortState → PortState) : (c.modPort p f).table = c.table := rfl
@[simp] theorem Channel.modPort_rr (c : Channel) (p : Port) (f : PortState → PortState) : (c.modPort p f).rr = c.rr := rfl
@[simp] theorem Channel.modPort_mem (c : Channel) (p : Port) (f : PortState → PortState) : (c.modPort p f).mem = c.mem := rfl
@[simp] theorem Channel.modPort_bad (c : Channel) (p : Port) (f : PortState → PortState) : (c.modPort p f).bad = c.bad := rfl
@[simp] theorem Channel.modPort_poisonHit (c : Channel) (p : Port) (f : PortState → PortState) : (c.modPort p f).poisonHit = c.poisonHit := rfl
@[simp] theorem Channel.modPort_waitHit (c : Channel) (p : Port) (f : PortState → PortState) : (c.modPort p f).waitHit = c.waitHit := rfl
@[simp] theorem Channel.modPort_irqWait (c : Channel) (p : Port) (f : PortState → PortState) : (c.modPort p f).irqWait = c.irqWait := rfl
@[simp] theorem Channel.modPort_hostWait (c : Channel) (p : Port) (f : PortState → PortState) : (c.modPort p f).hostWait = c.hostWait := rfl
@[simp] theorem Channel.modPort_poisRead (c : Channel) (p : Port) (f : PortState → PortState) : (c.modPort p f).poisRead = c.poisRead := rfl
@[simp] theorem Channel.modPort_nmon (c : Channel) (p : Port) (f : PortState → PortState) : (c.modPort p f).nmon = c.nmon := rfl
@[simp] theorem Channel.modPort_cores (c : Channel) (p : Port) (f : PortState → PortState) : (c.modPort p f).cores = c.cores := rfl
@[simp] theorem Channel.modPort_sas (c : Channel) (p : Port) (f : PortState → PortState) : (c.modPort p f).sas = c.sas := rfl
@[simp] theorem Channel.modPort_engines (c : Channel) (p : Port) (f : PortState → PortState) : (c.modPort p f).engines = c.engines := rfl
@[simp] theorem Channel.modPort_abl (c : Channel) (p : Port) (f : PortState → PortState) : (c.modPort p f).abl = c.abl := rfl
@[simp] theorem Channel.modPort_agd (c : Channel) (p : Port) (f : PortState → PortState) : (c.modPort p f).agd = c.agd := rfl
@[simp] theorem Channel.modPort_frz (c : Channel) (p : Port) (f : PortState → PortState) : (c.modPort p f).frz = c.frz := rfl
@[simp] theorem Channel.modPort_stk (c : Channel) (p : Port) (f : PortState → PortState) : (c.modPort p f).stk = c.stk := rfl
@[simp] theorem Channel.modPort_putRx (c : Channel) (p : Port) (f : PortState → PortState) : (c.modPort p f).putRx = c.putRx := rfl
@[simp] theorem Channel.modPort_putNext (c : Channel) (p : Port) (f : PortState → PortState) : (c.modPort p f).putNext = c.putNext := rfl
@[simp] theorem Channel.modPort_streams (c : Channel) (p : Port) (f : PortState → PortState) : (c.modPort p f).streams = c.streams := rfl
@[simp] theorem Channel.modPort_inbox (c : Channel) (p : Port) (f : PortState → PortState) : (c.modPort p f).inbox = c.inbox := rfl
@[simp] theorem Channel.modPort_cfl (c : Channel) (p : Port) (f : PortState → PortState) : (c.modPort p f).cfl = c.cfl := rfl
@[simp] theorem Channel.modPort_colls (c : Channel) (p : Port) (f : PortState → PortState) : (c.modPort p f).colls = c.colls := rfl
@[simp] theorem Channel.modPort_heldMsgs (c : Channel) (p : Port) (f : PortState → PortState) : (c.modPort p f).heldMsgs = c.heldMsgs := rfl
@[simp] theorem Channel.modPort_stp (c : Channel) (p : Port) (f : PortState → PortState) : (c.modPort p f).stp = c.stp := rfl
@[simp] theorem Channel.modPort_flt (c : Channel) (p : Port) (f : PortState → PortState) : (c.modPort p f).flt = c.flt := rfl
@[simp] theorem Channel.modPort_gov (c : Channel) (p : Port) (f : PortState → PortState) : (c.modPort p f).gov = c.gov := rfl

/-! ### Channel.modStack -/

@[simp] theorem Channel.modStack_boot (c : Channel) (i : Stack) (f : StackState → StackState) : (c.modStack i f).boot = c.boot := rfl
@[simp] theorem Channel.modStack_queues (c : Channel) (i : Stack) (f : StackState → StackState) : (c.modStack i f).queues = c.queues := rfl
@[simp] theorem Channel.modStack_sems (c : Channel) (i : Stack) (f : StackState → StackState) : (c.modStack i f).sems = c.sems := rfl
@[simp] theorem Channel.modStack_running (c : Channel) (i : Stack) (f : StackState → StackState) : (c.modStack i f).running = c.running := rfl
@[simp] theorem Channel.modStack_inputs (c : Channel) (i : Stack) (f : StackState → StackState) : (c.modStack i f).inputs = c.inputs := rfl
@[simp] theorem Channel.modStack_floes (c : Channel) (i : Stack) (f : StackState → StackState) : (c.modStack i f).floes = c.floes := rfl
@[simp] theorem Channel.modStack_nextFloe (c : Channel) (i : Stack) (f : StackState → StackState) : (c.modStack i f).nextFloe = c.nextFloe := rfl
@[simp] theorem Channel.modStack_table (c : Channel) (i : Stack) (f : StackState → StackState) : (c.modStack i f).table = c.table := rfl
@[simp] theorem Channel.modStack_rr (c : Channel) (i : Stack) (f : StackState → StackState) : (c.modStack i f).rr = c.rr := rfl
@[simp] theorem Channel.modStack_mem (c : Channel) (i : Stack) (f : StackState → StackState) : (c.modStack i f).mem = c.mem := rfl
@[simp] theorem Channel.modStack_bad (c : Channel) (i : Stack) (f : StackState → StackState) : (c.modStack i f).bad = c.bad := rfl
@[simp] theorem Channel.modStack_poisonHit (c : Channel) (i : Stack) (f : StackState → StackState) : (c.modStack i f).poisonHit = c.poisonHit := rfl
@[simp] theorem Channel.modStack_waitHit (c : Channel) (i : Stack) (f : StackState → StackState) : (c.modStack i f).waitHit = c.waitHit := rfl
@[simp] theorem Channel.modStack_irqWait (c : Channel) (i : Stack) (f : StackState → StackState) : (c.modStack i f).irqWait = c.irqWait := rfl
@[simp] theorem Channel.modStack_hostWait (c : Channel) (i : Stack) (f : StackState → StackState) : (c.modStack i f).hostWait = c.hostWait := rfl
@[simp] theorem Channel.modStack_poisRead (c : Channel) (i : Stack) (f : StackState → StackState) : (c.modStack i f).poisRead = c.poisRead := rfl
@[simp] theorem Channel.modStack_nmon (c : Channel) (i : Stack) (f : StackState → StackState) : (c.modStack i f).nmon = c.nmon := rfl
@[simp] theorem Channel.modStack_cores (c : Channel) (i : Stack) (f : StackState → StackState) : (c.modStack i f).cores = c.cores := rfl
@[simp] theorem Channel.modStack_sas (c : Channel) (i : Stack) (f : StackState → StackState) : (c.modStack i f).sas = c.sas := rfl
@[simp] theorem Channel.modStack_engines (c : Channel) (i : Stack) (f : StackState → StackState) : (c.modStack i f).engines = c.engines := rfl
@[simp] theorem Channel.modStack_abl (c : Channel) (i : Stack) (f : StackState → StackState) : (c.modStack i f).abl = c.abl := rfl
@[simp] theorem Channel.modStack_agd (c : Channel) (i : Stack) (f : StackState → StackState) : (c.modStack i f).agd = c.agd := rfl
@[simp] theorem Channel.modStack_frz (c : Channel) (i : Stack) (f : StackState → StackState) : (c.modStack i f).frz = c.frz := rfl
@[simp] theorem Channel.modStack_ports (c : Channel) (i : Stack) (f : StackState → StackState) : (c.modStack i f).ports = c.ports := rfl
@[simp] theorem Channel.modStack_putRx (c : Channel) (i : Stack) (f : StackState → StackState) : (c.modStack i f).putRx = c.putRx := rfl
@[simp] theorem Channel.modStack_putNext (c : Channel) (i : Stack) (f : StackState → StackState) : (c.modStack i f).putNext = c.putNext := rfl
@[simp] theorem Channel.modStack_streams (c : Channel) (i : Stack) (f : StackState → StackState) : (c.modStack i f).streams = c.streams := rfl
@[simp] theorem Channel.modStack_inbox (c : Channel) (i : Stack) (f : StackState → StackState) : (c.modStack i f).inbox = c.inbox := rfl
@[simp] theorem Channel.modStack_cfl (c : Channel) (i : Stack) (f : StackState → StackState) : (c.modStack i f).cfl = c.cfl := rfl
@[simp] theorem Channel.modStack_colls (c : Channel) (i : Stack) (f : StackState → StackState) : (c.modStack i f).colls = c.colls := rfl
@[simp] theorem Channel.modStack_heldMsgs (c : Channel) (i : Stack) (f : StackState → StackState) : (c.modStack i f).heldMsgs = c.heldMsgs := rfl
@[simp] theorem Channel.modStack_stp (c : Channel) (i : Stack) (f : StackState → StackState) : (c.modStack i f).stp = c.stp := rfl
@[simp] theorem Channel.modStack_flt (c : Channel) (i : Stack) (f : StackState → StackState) : (c.modStack i f).flt = c.flt := rfl
@[simp] theorem Channel.modStack_gov (c : Channel) (i : Stack) (f : StackState → StackState) : (c.modStack i f).gov = c.gov := rfl

/-! ### Channel.modEng -/

@[simp] theorem Channel.modEng_boot (c : Channel) (i : Stack) (f : AblEngine → AblEngine) : (c.modEng i f).boot = c.boot := rfl
@[simp] theorem Channel.modEng_queues (c : Channel) (i : Stack) (f : AblEngine → AblEngine) : (c.modEng i f).queues = c.queues := rfl
@[simp] theorem Channel.modEng_sems (c : Channel) (i : Stack) (f : AblEngine → AblEngine) : (c.modEng i f).sems = c.sems := rfl
@[simp] theorem Channel.modEng_running (c : Channel) (i : Stack) (f : AblEngine → AblEngine) : (c.modEng i f).running = c.running := rfl
@[simp] theorem Channel.modEng_inputs (c : Channel) (i : Stack) (f : AblEngine → AblEngine) : (c.modEng i f).inputs = c.inputs := rfl
@[simp] theorem Channel.modEng_floes (c : Channel) (i : Stack) (f : AblEngine → AblEngine) : (c.modEng i f).floes = c.floes := rfl
@[simp] theorem Channel.modEng_nextFloe (c : Channel) (i : Stack) (f : AblEngine → AblEngine) : (c.modEng i f).nextFloe = c.nextFloe := rfl
@[simp] theorem Channel.modEng_table (c : Channel) (i : Stack) (f : AblEngine → AblEngine) : (c.modEng i f).table = c.table := rfl
@[simp] theorem Channel.modEng_rr (c : Channel) (i : Stack) (f : AblEngine → AblEngine) : (c.modEng i f).rr = c.rr := rfl
@[simp] theorem Channel.modEng_mem (c : Channel) (i : Stack) (f : AblEngine → AblEngine) : (c.modEng i f).mem = c.mem := rfl
@[simp] theorem Channel.modEng_bad (c : Channel) (i : Stack) (f : AblEngine → AblEngine) : (c.modEng i f).bad = c.bad := rfl
@[simp] theorem Channel.modEng_poisonHit (c : Channel) (i : Stack) (f : AblEngine → AblEngine) : (c.modEng i f).poisonHit = c.poisonHit := rfl
@[simp] theorem Channel.modEng_waitHit (c : Channel) (i : Stack) (f : AblEngine → AblEngine) : (c.modEng i f).waitHit = c.waitHit := rfl
@[simp] theorem Channel.modEng_irqWait (c : Channel) (i : Stack) (f : AblEngine → AblEngine) : (c.modEng i f).irqWait = c.irqWait := rfl
@[simp] theorem Channel.modEng_hostWait (c : Channel) (i : Stack) (f : AblEngine → AblEngine) : (c.modEng i f).hostWait = c.hostWait := rfl
@[simp] theorem Channel.modEng_poisRead (c : Channel) (i : Stack) (f : AblEngine → AblEngine) : (c.modEng i f).poisRead = c.poisRead := rfl
@[simp] theorem Channel.modEng_nmon (c : Channel) (i : Stack) (f : AblEngine → AblEngine) : (c.modEng i f).nmon = c.nmon := rfl
@[simp] theorem Channel.modEng_cores (c : Channel) (i : Stack) (f : AblEngine → AblEngine) : (c.modEng i f).cores = c.cores := rfl
@[simp] theorem Channel.modEng_sas (c : Channel) (i : Stack) (f : AblEngine → AblEngine) : (c.modEng i f).sas = c.sas := rfl
@[simp] theorem Channel.modEng_abl (c : Channel) (i : Stack) (f : AblEngine → AblEngine) : (c.modEng i f).abl = c.abl := rfl
@[simp] theorem Channel.modEng_agd (c : Channel) (i : Stack) (f : AblEngine → AblEngine) : (c.modEng i f).agd = c.agd := rfl
@[simp] theorem Channel.modEng_frz (c : Channel) (i : Stack) (f : AblEngine → AblEngine) : (c.modEng i f).frz = c.frz := rfl
@[simp] theorem Channel.modEng_stk (c : Channel) (i : Stack) (f : AblEngine → AblEngine) : (c.modEng i f).stk = c.stk := rfl
@[simp] theorem Channel.modEng_ports (c : Channel) (i : Stack) (f : AblEngine → AblEngine) : (c.modEng i f).ports = c.ports := rfl
@[simp] theorem Channel.modEng_putRx (c : Channel) (i : Stack) (f : AblEngine → AblEngine) : (c.modEng i f).putRx = c.putRx := rfl
@[simp] theorem Channel.modEng_putNext (c : Channel) (i : Stack) (f : AblEngine → AblEngine) : (c.modEng i f).putNext = c.putNext := rfl
@[simp] theorem Channel.modEng_streams (c : Channel) (i : Stack) (f : AblEngine → AblEngine) : (c.modEng i f).streams = c.streams := rfl
@[simp] theorem Channel.modEng_inbox (c : Channel) (i : Stack) (f : AblEngine → AblEngine) : (c.modEng i f).inbox = c.inbox := rfl
@[simp] theorem Channel.modEng_cfl (c : Channel) (i : Stack) (f : AblEngine → AblEngine) : (c.modEng i f).cfl = c.cfl := rfl
@[simp] theorem Channel.modEng_colls (c : Channel) (i : Stack) (f : AblEngine → AblEngine) : (c.modEng i f).colls = c.colls := rfl
@[simp] theorem Channel.modEng_heldMsgs (c : Channel) (i : Stack) (f : AblEngine → AblEngine) : (c.modEng i f).heldMsgs = c.heldMsgs := rfl
@[simp] theorem Channel.modEng_stp (c : Channel) (i : Stack) (f : AblEngine → AblEngine) : (c.modEng i f).stp = c.stp := rfl
@[simp] theorem Channel.modEng_flt (c : Channel) (i : Stack) (f : AblEngine → AblEngine) : (c.modEng i f).flt = c.flt := rfl
@[simp] theorem Channel.modEng_gov (c : Channel) (i : Stack) (f : AblEngine → AblEngine) : (c.modEng i f).gov = c.gov := rfl

/-! ### Channel.modCtx -/

@[simp] theorem Channel.modCtx_boot (c : Channel) (k : Core) (x : Fin 16) (f : Ctx → Ctx) : (c.modCtx k x f).boot = c.boot := rfl
@[simp] theorem Channel.modCtx_queues (c : Channel) (k : Core) (x : Fin 16) (f : Ctx → Ctx) : (c.modCtx k x f).queues = c.queues := rfl
@[simp] theorem Channel.modCtx_sems (c : Channel) (k : Core) (x : Fin 16) (f : Ctx → Ctx) : (c.modCtx k x f).sems = c.sems := rfl
@[simp] theorem Channel.modCtx_running (c : Channel) (k : Core) (x : Fin 16) (f : Ctx → Ctx) : (c.modCtx k x f).running = c.running := rfl
@[simp] theorem Channel.modCtx_inputs (c : Channel) (k : Core) (x : Fin 16) (f : Ctx → Ctx) : (c.modCtx k x f).inputs = c.inputs := rfl
@[simp] theorem Channel.modCtx_floes (c : Channel) (k : Core) (x : Fin 16) (f : Ctx → Ctx) : (c.modCtx k x f).floes = c.floes := rfl
@[simp] theorem Channel.modCtx_nextFloe (c : Channel) (k : Core) (x : Fin 16) (f : Ctx → Ctx) : (c.modCtx k x f).nextFloe = c.nextFloe := rfl
@[simp] theorem Channel.modCtx_table (c : Channel) (k : Core) (x : Fin 16) (f : Ctx → Ctx) : (c.modCtx k x f).table = c.table := rfl
@[simp] theorem Channel.modCtx_rr (c : Channel) (k : Core) (x : Fin 16) (f : Ctx → Ctx) : (c.modCtx k x f).rr = c.rr := rfl
@[simp] theorem Channel.modCtx_mem (c : Channel) (k : Core) (x : Fin 16) (f : Ctx → Ctx) : (c.modCtx k x f).mem = c.mem := rfl
@[simp] theorem Channel.modCtx_bad (c : Channel) (k : Core) (x : Fin 16) (f : Ctx → Ctx) : (c.modCtx k x f).bad = c.bad := rfl
@[simp] theorem Channel.modCtx_poisonHit (c : Channel) (k : Core) (x : Fin 16) (f : Ctx → Ctx) : (c.modCtx k x f).poisonHit = c.poisonHit := rfl
@[simp] theorem Channel.modCtx_waitHit (c : Channel) (k : Core) (x : Fin 16) (f : Ctx → Ctx) : (c.modCtx k x f).waitHit = c.waitHit := rfl
@[simp] theorem Channel.modCtx_irqWait (c : Channel) (k : Core) (x : Fin 16) (f : Ctx → Ctx) : (c.modCtx k x f).irqWait = c.irqWait := rfl
@[simp] theorem Channel.modCtx_hostWait (c : Channel) (k : Core) (x : Fin 16) (f : Ctx → Ctx) : (c.modCtx k x f).hostWait = c.hostWait := rfl
@[simp] theorem Channel.modCtx_poisRead (c : Channel) (k : Core) (x : Fin 16) (f : Ctx → Ctx) : (c.modCtx k x f).poisRead = c.poisRead := rfl
@[simp] theorem Channel.modCtx_nmon (c : Channel) (k : Core) (x : Fin 16) (f : Ctx → Ctx) : (c.modCtx k x f).nmon = c.nmon := rfl
@[simp] theorem Channel.modCtx_sas (c : Channel) (k : Core) (x : Fin 16) (f : Ctx → Ctx) : (c.modCtx k x f).sas = c.sas := rfl
@[simp] theorem Channel.modCtx_engines (c : Channel) (k : Core) (x : Fin 16) (f : Ctx → Ctx) : (c.modCtx k x f).engines = c.engines := rfl
@[simp] theorem Channel.modCtx_abl (c : Channel) (k : Core) (x : Fin 16) (f : Ctx → Ctx) : (c.modCtx k x f).abl = c.abl := rfl
@[simp] theorem Channel.modCtx_agd (c : Channel) (k : Core) (x : Fin 16) (f : Ctx → Ctx) : (c.modCtx k x f).agd = c.agd := rfl
@[simp] theorem Channel.modCtx_frz (c : Channel) (k : Core) (x : Fin 16) (f : Ctx → Ctx) : (c.modCtx k x f).frz = c.frz := rfl
@[simp] theorem Channel.modCtx_stk (c : Channel) (k : Core) (x : Fin 16) (f : Ctx → Ctx) : (c.modCtx k x f).stk = c.stk := rfl
@[simp] theorem Channel.modCtx_ports (c : Channel) (k : Core) (x : Fin 16) (f : Ctx → Ctx) : (c.modCtx k x f).ports = c.ports := rfl
@[simp] theorem Channel.modCtx_putRx (c : Channel) (k : Core) (x : Fin 16) (f : Ctx → Ctx) : (c.modCtx k x f).putRx = c.putRx := rfl
@[simp] theorem Channel.modCtx_putNext (c : Channel) (k : Core) (x : Fin 16) (f : Ctx → Ctx) : (c.modCtx k x f).putNext = c.putNext := rfl
@[simp] theorem Channel.modCtx_streams (c : Channel) (k : Core) (x : Fin 16) (f : Ctx → Ctx) : (c.modCtx k x f).streams = c.streams := rfl
@[simp] theorem Channel.modCtx_inbox (c : Channel) (k : Core) (x : Fin 16) (f : Ctx → Ctx) : (c.modCtx k x f).inbox = c.inbox := rfl
@[simp] theorem Channel.modCtx_cfl (c : Channel) (k : Core) (x : Fin 16) (f : Ctx → Ctx) : (c.modCtx k x f).cfl = c.cfl := rfl
@[simp] theorem Channel.modCtx_colls (c : Channel) (k : Core) (x : Fin 16) (f : Ctx → Ctx) : (c.modCtx k x f).colls = c.colls := rfl
@[simp] theorem Channel.modCtx_heldMsgs (c : Channel) (k : Core) (x : Fin 16) (f : Ctx → Ctx) : (c.modCtx k x f).heldMsgs = c.heldMsgs := rfl
@[simp] theorem Channel.modCtx_stp (c : Channel) (k : Core) (x : Fin 16) (f : Ctx → Ctx) : (c.modCtx k x f).stp = c.stp := rfl
@[simp] theorem Channel.modCtx_flt (c : Channel) (k : Core) (x : Fin 16) (f : Ctx → Ctx) : (c.modCtx k x f).flt = c.flt := rfl
@[simp] theorem Channel.modCtx_gov (c : Channel) (k : Core) (x : Fin 16) (f : Ctx → Ctx) : (c.modCtx k x f).gov = c.gov := rfl

/-! ### Channel.wr -/

@[simp] theorem Channel.wr_boot (c : Channel) (a : Nat) (bs : List Byte) : (c.wr a bs).boot = c.boot := rfl
@[simp] theorem Channel.wr_queues (c : Channel) (a : Nat) (bs : List Byte) : (c.wr a bs).queues = c.queues := rfl
@[simp] theorem Channel.wr_sems (c : Channel) (a : Nat) (bs : List Byte) : (c.wr a bs).sems = c.sems := rfl
@[simp] theorem Channel.wr_running (c : Channel) (a : Nat) (bs : List Byte) : (c.wr a bs).running = c.running := rfl
@[simp] theorem Channel.wr_inputs (c : Channel) (a : Nat) (bs : List Byte) : (c.wr a bs).inputs = c.inputs := rfl
@[simp] theorem Channel.wr_floes (c : Channel) (a : Nat) (bs : List Byte) : (c.wr a bs).floes = c.floes := rfl
@[simp] theorem Channel.wr_nextFloe (c : Channel) (a : Nat) (bs : List Byte) : (c.wr a bs).nextFloe = c.nextFloe := rfl
@[simp] theorem Channel.wr_table (c : Channel) (a : Nat) (bs : List Byte) : (c.wr a bs).table = c.table := rfl
@[simp] theorem Channel.wr_rr (c : Channel) (a : Nat) (bs : List Byte) : (c.wr a bs).rr = c.rr := rfl
@[simp] theorem Channel.wr_poisonHit (c : Channel) (a : Nat) (bs : List Byte) : (c.wr a bs).poisonHit = c.poisonHit := rfl
@[simp] theorem Channel.wr_waitHit (c : Channel) (a : Nat) (bs : List Byte) : (c.wr a bs).waitHit = c.waitHit := rfl
@[simp] theorem Channel.wr_irqWait (c : Channel) (a : Nat) (bs : List Byte) : (c.wr a bs).irqWait = c.irqWait := rfl
@[simp] theorem Channel.wr_hostWait (c : Channel) (a : Nat) (bs : List Byte) : (c.wr a bs).hostWait = c.hostWait := rfl
@[simp] theorem Channel.wr_poisRead (c : Channel) (a : Nat) (bs : List Byte) : (c.wr a bs).poisRead = c.poisRead := rfl
@[simp] theorem Channel.wr_nmon (c : Channel) (a : Nat) (bs : List Byte) : (c.wr a bs).nmon = c.nmon := rfl
@[simp] theorem Channel.wr_cores (c : Channel) (a : Nat) (bs : List Byte) : (c.wr a bs).cores = c.cores := rfl
@[simp] theorem Channel.wr_sas (c : Channel) (a : Nat) (bs : List Byte) : (c.wr a bs).sas = c.sas := rfl
@[simp] theorem Channel.wr_engines (c : Channel) (a : Nat) (bs : List Byte) : (c.wr a bs).engines = c.engines := rfl
@[simp] theorem Channel.wr_abl (c : Channel) (a : Nat) (bs : List Byte) : (c.wr a bs).abl = c.abl := rfl
@[simp] theorem Channel.wr_agd (c : Channel) (a : Nat) (bs : List Byte) : (c.wr a bs).agd = c.agd := rfl
@[simp] theorem Channel.wr_frz (c : Channel) (a : Nat) (bs : List Byte) : (c.wr a bs).frz = c.frz := rfl
@[simp] theorem Channel.wr_stk (c : Channel) (a : Nat) (bs : List Byte) : (c.wr a bs).stk = c.stk := rfl
@[simp] theorem Channel.wr_ports (c : Channel) (a : Nat) (bs : List Byte) : (c.wr a bs).ports = c.ports := rfl
@[simp] theorem Channel.wr_putRx (c : Channel) (a : Nat) (bs : List Byte) : (c.wr a bs).putRx = c.putRx := rfl
@[simp] theorem Channel.wr_putNext (c : Channel) (a : Nat) (bs : List Byte) : (c.wr a bs).putNext = c.putNext := rfl
@[simp] theorem Channel.wr_streams (c : Channel) (a : Nat) (bs : List Byte) : (c.wr a bs).streams = c.streams := rfl
@[simp] theorem Channel.wr_inbox (c : Channel) (a : Nat) (bs : List Byte) : (c.wr a bs).inbox = c.inbox := rfl
@[simp] theorem Channel.wr_cfl (c : Channel) (a : Nat) (bs : List Byte) : (c.wr a bs).cfl = c.cfl := rfl
@[simp] theorem Channel.wr_colls (c : Channel) (a : Nat) (bs : List Byte) : (c.wr a bs).colls = c.colls := rfl
@[simp] theorem Channel.wr_heldMsgs (c : Channel) (a : Nat) (bs : List Byte) : (c.wr a bs).heldMsgs = c.heldMsgs := rfl
@[simp] theorem Channel.wr_stp (c : Channel) (a : Nat) (bs : List Byte) : (c.wr a bs).stp = c.stp := rfl
@[simp] theorem Channel.wr_flt (c : Channel) (a : Nat) (bs : List Byte) : (c.wr a bs).flt = c.flt := rfl
@[simp] theorem Channel.wr_gov (c : Channel) (a : Nat) (bs : List Byte) : (c.wr a bs).gov = c.gov := rfl

/-! ### Channel.semAdd -/

@[simp] theorem Channel.semAdd_boot (c : Channel) (i : SemIdx) (n : Nat) : (c.semAdd i n).boot = c.boot := rfl
@[simp] theorem Channel.semAdd_queues (c : Channel) (i : SemIdx) (n : Nat) : (c.semAdd i n).queues = c.queues := rfl
@[simp] theorem Channel.semAdd_running (c : Channel) (i : SemIdx) (n : Nat) : (c.semAdd i n).running = c.running := rfl
@[simp] theorem Channel.semAdd_inputs (c : Channel) (i : SemIdx) (n : Nat) : (c.semAdd i n).inputs = c.inputs := rfl
@[simp] theorem Channel.semAdd_floes (c : Channel) (i : SemIdx) (n : Nat) : (c.semAdd i n).floes = c.floes := rfl
@[simp] theorem Channel.semAdd_nextFloe (c : Channel) (i : SemIdx) (n : Nat) : (c.semAdd i n).nextFloe = c.nextFloe := rfl
@[simp] theorem Channel.semAdd_table (c : Channel) (i : SemIdx) (n : Nat) : (c.semAdd i n).table = c.table := rfl
@[simp] theorem Channel.semAdd_rr (c : Channel) (i : SemIdx) (n : Nat) : (c.semAdd i n).rr = c.rr := rfl
@[simp] theorem Channel.semAdd_mem (c : Channel) (i : SemIdx) (n : Nat) : (c.semAdd i n).mem = c.mem := rfl
@[simp] theorem Channel.semAdd_bad (c : Channel) (i : SemIdx) (n : Nat) : (c.semAdd i n).bad = c.bad := rfl
@[simp] theorem Channel.semAdd_poisonHit (c : Channel) (i : SemIdx) (n : Nat) : (c.semAdd i n).poisonHit = c.poisonHit := rfl
@[simp] theorem Channel.semAdd_waitHit (c : Channel) (i : SemIdx) (n : Nat) : (c.semAdd i n).waitHit = c.waitHit := rfl
@[simp] theorem Channel.semAdd_irqWait (c : Channel) (i : SemIdx) (n : Nat) : (c.semAdd i n).irqWait = c.irqWait := rfl
@[simp] theorem Channel.semAdd_hostWait (c : Channel) (i : SemIdx) (n : Nat) : (c.semAdd i n).hostWait = c.hostWait := rfl
@[simp] theorem Channel.semAdd_poisRead (c : Channel) (i : SemIdx) (n : Nat) : (c.semAdd i n).poisRead = c.poisRead := rfl
@[simp] theorem Channel.semAdd_nmon (c : Channel) (i : SemIdx) (n : Nat) : (c.semAdd i n).nmon = c.nmon := rfl
@[simp] theorem Channel.semAdd_cores (c : Channel) (i : SemIdx) (n : Nat) : (c.semAdd i n).cores = c.cores := rfl
@[simp] theorem Channel.semAdd_sas (c : Channel) (i : SemIdx) (n : Nat) : (c.semAdd i n).sas = c.sas := rfl
@[simp] theorem Channel.semAdd_engines (c : Channel) (i : SemIdx) (n : Nat) : (c.semAdd i n).engines = c.engines := rfl
@[simp] theorem Channel.semAdd_abl (c : Channel) (i : SemIdx) (n : Nat) : (c.semAdd i n).abl = c.abl := rfl
@[simp] theorem Channel.semAdd_agd (c : Channel) (i : SemIdx) (n : Nat) : (c.semAdd i n).agd = c.agd := rfl
@[simp] theorem Channel.semAdd_frz (c : Channel) (i : SemIdx) (n : Nat) : (c.semAdd i n).frz = c.frz := rfl
@[simp] theorem Channel.semAdd_stk (c : Channel) (i : SemIdx) (n : Nat) : (c.semAdd i n).stk = c.stk := rfl
@[simp] theorem Channel.semAdd_ports (c : Channel) (i : SemIdx) (n : Nat) : (c.semAdd i n).ports = c.ports := rfl
@[simp] theorem Channel.semAdd_putRx (c : Channel) (i : SemIdx) (n : Nat) : (c.semAdd i n).putRx = c.putRx := rfl
@[simp] theorem Channel.semAdd_putNext (c : Channel) (i : SemIdx) (n : Nat) : (c.semAdd i n).putNext = c.putNext := rfl
@[simp] theorem Channel.semAdd_streams (c : Channel) (i : SemIdx) (n : Nat) : (c.semAdd i n).streams = c.streams := rfl
@[simp] theorem Channel.semAdd_inbox (c : Channel) (i : SemIdx) (n : Nat) : (c.semAdd i n).inbox = c.inbox := rfl
@[simp] theorem Channel.semAdd_cfl (c : Channel) (i : SemIdx) (n : Nat) : (c.semAdd i n).cfl = c.cfl := rfl
@[simp] theorem Channel.semAdd_colls (c : Channel) (i : SemIdx) (n : Nat) : (c.semAdd i n).colls = c.colls := rfl
@[simp] theorem Channel.semAdd_heldMsgs (c : Channel) (i : SemIdx) (n : Nat) : (c.semAdd i n).heldMsgs = c.heldMsgs := rfl
@[simp] theorem Channel.semAdd_stp (c : Channel) (i : SemIdx) (n : Nat) : (c.semAdd i n).stp = c.stp := rfl
@[simp] theorem Channel.semAdd_flt (c : Channel) (i : SemIdx) (n : Nat) : (c.semAdd i n).flt = c.flt := rfl
@[simp] theorem Channel.semAdd_gov (c : Channel) (i : SemIdx) (n : Nat) : (c.semAdd i n).gov = c.gov := rfl

/-! ### Channel.semSet -/

@[simp] theorem Channel.semSet_boot (c : Channel) (i : SemIdx) (v : W32) : (c.semSet i v).boot = c.boot := rfl
@[simp] theorem Channel.semSet_queues (c : Channel) (i : SemIdx) (v : W32) : (c.semSet i v).queues = c.queues := rfl
@[simp] theorem Channel.semSet_running (c : Channel) (i : SemIdx) (v : W32) : (c.semSet i v).running = c.running := rfl
@[simp] theorem Channel.semSet_inputs (c : Channel) (i : SemIdx) (v : W32) : (c.semSet i v).inputs = c.inputs := rfl
@[simp] theorem Channel.semSet_floes (c : Channel) (i : SemIdx) (v : W32) : (c.semSet i v).floes = c.floes := rfl
@[simp] theorem Channel.semSet_nextFloe (c : Channel) (i : SemIdx) (v : W32) : (c.semSet i v).nextFloe = c.nextFloe := rfl
@[simp] theorem Channel.semSet_table (c : Channel) (i : SemIdx) (v : W32) : (c.semSet i v).table = c.table := rfl
@[simp] theorem Channel.semSet_rr (c : Channel) (i : SemIdx) (v : W32) : (c.semSet i v).rr = c.rr := rfl
@[simp] theorem Channel.semSet_mem (c : Channel) (i : SemIdx) (v : W32) : (c.semSet i v).mem = c.mem := rfl
@[simp] theorem Channel.semSet_bad (c : Channel) (i : SemIdx) (v : W32) : (c.semSet i v).bad = c.bad := rfl
@[simp] theorem Channel.semSet_poisonHit (c : Channel) (i : SemIdx) (v : W32) : (c.semSet i v).poisonHit = c.poisonHit := rfl
@[simp] theorem Channel.semSet_waitHit (c : Channel) (i : SemIdx) (v : W32) : (c.semSet i v).waitHit = c.waitHit := rfl
@[simp] theorem Channel.semSet_irqWait (c : Channel) (i : SemIdx) (v : W32) : (c.semSet i v).irqWait = c.irqWait := rfl
@[simp] theorem Channel.semSet_hostWait (c : Channel) (i : SemIdx) (v : W32) : (c.semSet i v).hostWait = c.hostWait := rfl
@[simp] theorem Channel.semSet_poisRead (c : Channel) (i : SemIdx) (v : W32) : (c.semSet i v).poisRead = c.poisRead := rfl
@[simp] theorem Channel.semSet_nmon (c : Channel) (i : SemIdx) (v : W32) : (c.semSet i v).nmon = c.nmon := rfl
@[simp] theorem Channel.semSet_cores (c : Channel) (i : SemIdx) (v : W32) : (c.semSet i v).cores = c.cores := rfl
@[simp] theorem Channel.semSet_sas (c : Channel) (i : SemIdx) (v : W32) : (c.semSet i v).sas = c.sas := rfl
@[simp] theorem Channel.semSet_engines (c : Channel) (i : SemIdx) (v : W32) : (c.semSet i v).engines = c.engines := rfl
@[simp] theorem Channel.semSet_abl (c : Channel) (i : SemIdx) (v : W32) : (c.semSet i v).abl = c.abl := rfl
@[simp] theorem Channel.semSet_agd (c : Channel) (i : SemIdx) (v : W32) : (c.semSet i v).agd = c.agd := rfl
@[simp] theorem Channel.semSet_frz (c : Channel) (i : SemIdx) (v : W32) : (c.semSet i v).frz = c.frz := rfl
@[simp] theorem Channel.semSet_stk (c : Channel) (i : SemIdx) (v : W32) : (c.semSet i v).stk = c.stk := rfl
@[simp] theorem Channel.semSet_ports (c : Channel) (i : SemIdx) (v : W32) : (c.semSet i v).ports = c.ports := rfl
@[simp] theorem Channel.semSet_putRx (c : Channel) (i : SemIdx) (v : W32) : (c.semSet i v).putRx = c.putRx := rfl
@[simp] theorem Channel.semSet_putNext (c : Channel) (i : SemIdx) (v : W32) : (c.semSet i v).putNext = c.putNext := rfl
@[simp] theorem Channel.semSet_streams (c : Channel) (i : SemIdx) (v : W32) : (c.semSet i v).streams = c.streams := rfl
@[simp] theorem Channel.semSet_inbox (c : Channel) (i : SemIdx) (v : W32) : (c.semSet i v).inbox = c.inbox := rfl
@[simp] theorem Channel.semSet_cfl (c : Channel) (i : SemIdx) (v : W32) : (c.semSet i v).cfl = c.cfl := rfl
@[simp] theorem Channel.semSet_colls (c : Channel) (i : SemIdx) (v : W32) : (c.semSet i v).colls = c.colls := rfl
@[simp] theorem Channel.semSet_heldMsgs (c : Channel) (i : SemIdx) (v : W32) : (c.semSet i v).heldMsgs = c.heldMsgs := rfl
@[simp] theorem Channel.semSet_stp (c : Channel) (i : SemIdx) (v : W32) : (c.semSet i v).stp = c.stp := rfl
@[simp] theorem Channel.semSet_flt (c : Channel) (i : SemIdx) (v : W32) : (c.semSet i v).flt = c.flt := rfl
@[simp] theorem Channel.semSet_gov (c : Channel) (i : SemIdx) (v : W32) : (c.semSet i v).gov = c.gov := rfl

/-! ### Channel.setRun -/

@[simp] theorem Channel.setRun_boot (c : Channel) (r : Running) : (c.setRun r).boot = c.boot := rfl
@[simp] theorem Channel.setRun_queues (c : Channel) (r : Running) : (c.setRun r).queues = c.queues := rfl
@[simp] theorem Channel.setRun_sems (c : Channel) (r : Running) : (c.setRun r).sems = c.sems := rfl
@[simp] theorem Channel.setRun_inputs (c : Channel) (r : Running) : (c.setRun r).inputs = c.inputs := rfl
@[simp] theorem Channel.setRun_floes (c : Channel) (r : Running) : (c.setRun r).floes = c.floes := rfl
@[simp] theorem Channel.setRun_nextFloe (c : Channel) (r : Running) : (c.setRun r).nextFloe = c.nextFloe := rfl
@[simp] theorem Channel.setRun_table (c : Channel) (r : Running) : (c.setRun r).table = c.table := rfl
@[simp] theorem Channel.setRun_rr (c : Channel) (r : Running) : (c.setRun r).rr = c.rr := rfl
@[simp] theorem Channel.setRun_mem (c : Channel) (r : Running) : (c.setRun r).mem = c.mem := rfl
@[simp] theorem Channel.setRun_bad (c : Channel) (r : Running) : (c.setRun r).bad = c.bad := rfl
@[simp] theorem Channel.setRun_poisonHit (c : Channel) (r : Running) : (c.setRun r).poisonHit = c.poisonHit := rfl
@[simp] theorem Channel.setRun_waitHit (c : Channel) (r : Running) : (c.setRun r).waitHit = c.waitHit := rfl
@[simp] theorem Channel.setRun_irqWait (c : Channel) (r : Running) : (c.setRun r).irqWait = c.irqWait := rfl
@[simp] theorem Channel.setRun_hostWait (c : Channel) (r : Running) : (c.setRun r).hostWait = c.hostWait := rfl
@[simp] theorem Channel.setRun_poisRead (c : Channel) (r : Running) : (c.setRun r).poisRead = c.poisRead := rfl
@[simp] theorem Channel.setRun_nmon (c : Channel) (r : Running) : (c.setRun r).nmon = c.nmon := rfl
@[simp] theorem Channel.setRun_cores (c : Channel) (r : Running) : (c.setRun r).cores = c.cores := rfl
@[simp] theorem Channel.setRun_sas (c : Channel) (r : Running) : (c.setRun r).sas = c.sas := rfl
@[simp] theorem Channel.setRun_engines (c : Channel) (r : Running) : (c.setRun r).engines = c.engines := rfl
@[simp] theorem Channel.setRun_abl (c : Channel) (r : Running) : (c.setRun r).abl = c.abl := rfl
@[simp] theorem Channel.setRun_agd (c : Channel) (r : Running) : (c.setRun r).agd = c.agd := rfl
@[simp] theorem Channel.setRun_frz (c : Channel) (r : Running) : (c.setRun r).frz = c.frz := rfl
@[simp] theorem Channel.setRun_stk (c : Channel) (r : Running) : (c.setRun r).stk = c.stk := rfl
@[simp] theorem Channel.setRun_ports (c : Channel) (r : Running) : (c.setRun r).ports = c.ports := rfl
@[simp] theorem Channel.setRun_putRx (c : Channel) (r : Running) : (c.setRun r).putRx = c.putRx := rfl
@[simp] theorem Channel.setRun_putNext (c : Channel) (r : Running) : (c.setRun r).putNext = c.putNext := rfl
@[simp] theorem Channel.setRun_streams (c : Channel) (r : Running) : (c.setRun r).streams = c.streams := rfl
@[simp] theorem Channel.setRun_inbox (c : Channel) (r : Running) : (c.setRun r).inbox = c.inbox := rfl
@[simp] theorem Channel.setRun_cfl (c : Channel) (r : Running) : (c.setRun r).cfl = c.cfl := rfl
@[simp] theorem Channel.setRun_colls (c : Channel) (r : Running) : (c.setRun r).colls = c.colls := rfl
@[simp] theorem Channel.setRun_heldMsgs (c : Channel) (r : Running) : (c.setRun r).heldMsgs = c.heldMsgs := rfl
@[simp] theorem Channel.setRun_stp (c : Channel) (r : Running) : (c.setRun r).stp = c.stp := rfl
@[simp] theorem Channel.setRun_flt (c : Channel) (r : Running) : (c.setRun r).flt = c.flt := rfl
@[simp] theorem Channel.setRun_gov (c : Channel) (r : Running) : (c.setRun r).gov = c.gov := rfl

/-! ### Channel.finish -/

@[simp] theorem Channel.finish_boot (c : Channel) (r : Running) (res : Result) : (c.finish r res).boot = c.boot := rfl
@[simp] theorem Channel.finish_queues (c : Channel) (r : Running) (res : Result) : (c.finish r res).queues = c.queues := rfl
@[simp] theorem Channel.finish_sems (c : Channel) (r : Running) (res : Result) : (c.finish r res).sems = c.sems := rfl
@[simp] theorem Channel.finish_inputs (c : Channel) (r : Running) (res : Result) : (c.finish r res).inputs = c.inputs := rfl
@[simp] theorem Channel.finish_floes (c : Channel) (r : Running) (res : Result) : (c.finish r res).floes = c.floes := rfl
@[simp] theorem Channel.finish_nextFloe (c : Channel) (r : Running) (res : Result) : (c.finish r res).nextFloe = c.nextFloe := rfl
@[simp] theorem Channel.finish_table (c : Channel) (r : Running) (res : Result) : (c.finish r res).table = c.table := rfl
@[simp] theorem Channel.finish_rr (c : Channel) (r : Running) (res : Result) : (c.finish r res).rr = c.rr := rfl
@[simp] theorem Channel.finish_mem (c : Channel) (r : Running) (res : Result) : (c.finish r res).mem = c.mem := rfl
@[simp] theorem Channel.finish_bad (c : Channel) (r : Running) (res : Result) : (c.finish r res).bad = c.bad := rfl
@[simp] theorem Channel.finish_poisonHit (c : Channel) (r : Running) (res : Result) : (c.finish r res).poisonHit = c.poisonHit := rfl
@[simp] theorem Channel.finish_waitHit (c : Channel) (r : Running) (res : Result) : (c.finish r res).waitHit = c.waitHit := rfl
@[simp] theorem Channel.finish_irqWait (c : Channel) (r : Running) (res : Result) : (c.finish r res).irqWait = c.irqWait := rfl
@[simp] theorem Channel.finish_hostWait (c : Channel) (r : Running) (res : Result) : (c.finish r res).hostWait = c.hostWait := rfl
@[simp] theorem Channel.finish_poisRead (c : Channel) (r : Running) (res : Result) : (c.finish r res).poisRead = c.poisRead := rfl
@[simp] theorem Channel.finish_nmon (c : Channel) (r : Running) (res : Result) : (c.finish r res).nmon = c.nmon := rfl
@[simp] theorem Channel.finish_cores (c : Channel) (r : Running) (res : Result) : (c.finish r res).cores = c.cores := rfl
@[simp] theorem Channel.finish_sas (c : Channel) (r : Running) (res : Result) : (c.finish r res).sas = c.sas := rfl
@[simp] theorem Channel.finish_engines (c : Channel) (r : Running) (res : Result) : (c.finish r res).engines = c.engines := rfl
@[simp] theorem Channel.finish_abl (c : Channel) (r : Running) (res : Result) : (c.finish r res).abl = c.abl := rfl
@[simp] theorem Channel.finish_agd (c : Channel) (r : Running) (res : Result) : (c.finish r res).agd = c.agd := rfl
@[simp] theorem Channel.finish_frz (c : Channel) (r : Running) (res : Result) : (c.finish r res).frz = c.frz := rfl
@[simp] theorem Channel.finish_stk (c : Channel) (r : Running) (res : Result) : (c.finish r res).stk = c.stk := rfl
@[simp] theorem Channel.finish_ports (c : Channel) (r : Running) (res : Result) : (c.finish r res).ports = c.ports := rfl
@[simp] theorem Channel.finish_putRx (c : Channel) (r : Running) (res : Result) : (c.finish r res).putRx = c.putRx := rfl
@[simp] theorem Channel.finish_putNext (c : Channel) (r : Running) (res : Result) : (c.finish r res).putNext = c.putNext := rfl
@[simp] theorem Channel.finish_streams (c : Channel) (r : Running) (res : Result) : (c.finish r res).streams = c.streams := rfl
@[simp] theorem Channel.finish_inbox (c : Channel) (r : Running) (res : Result) : (c.finish r res).inbox = c.inbox := rfl
@[simp] theorem Channel.finish_cfl (c : Channel) (r : Running) (res : Result) : (c.finish r res).cfl = c.cfl := rfl
@[simp] theorem Channel.finish_colls (c : Channel) (r : Running) (res : Result) : (c.finish r res).colls = c.colls := rfl
@[simp] theorem Channel.finish_heldMsgs (c : Channel) (r : Running) (res : Result) : (c.finish r res).heldMsgs = c.heldMsgs := rfl
@[simp] theorem Channel.finish_stp (c : Channel) (r : Running) (res : Result) : (c.finish r res).stp = c.stp := rfl
@[simp] theorem Channel.finish_flt (c : Channel) (r : Running) (res : Result) : (c.finish r res).flt = c.flt := rfl
@[simp] theorem Channel.finish_gov (c : Channel) (r : Running) (res : Result) : (c.finish r res).gov = c.gov := rfl

/-! ### Channel.modGov -/

@[simp] theorem Channel.modGov_boot (c : Channel) (f : Gov → Gov) : (c.modGov f).boot = c.boot := rfl
@[simp] theorem Channel.modGov_queues (c : Channel) (f : Gov → Gov) : (c.modGov f).queues = c.queues := rfl
@[simp] theorem Channel.modGov_sems (c : Channel) (f : Gov → Gov) : (c.modGov f).sems = c.sems := rfl
@[simp] theorem Channel.modGov_running (c : Channel) (f : Gov → Gov) : (c.modGov f).running = c.running := rfl
@[simp] theorem Channel.modGov_inputs (c : Channel) (f : Gov → Gov) : (c.modGov f).inputs = c.inputs := rfl
@[simp] theorem Channel.modGov_floes (c : Channel) (f : Gov → Gov) : (c.modGov f).floes = c.floes := rfl
@[simp] theorem Channel.modGov_nextFloe (c : Channel) (f : Gov → Gov) : (c.modGov f).nextFloe = c.nextFloe := rfl
@[simp] theorem Channel.modGov_table (c : Channel) (f : Gov → Gov) : (c.modGov f).table = c.table := rfl
@[simp] theorem Channel.modGov_rr (c : Channel) (f : Gov → Gov) : (c.modGov f).rr = c.rr := rfl
@[simp] theorem Channel.modGov_mem (c : Channel) (f : Gov → Gov) : (c.modGov f).mem = c.mem := rfl
@[simp] theorem Channel.modGov_bad (c : Channel) (f : Gov → Gov) : (c.modGov f).bad = c.bad := rfl
@[simp] theorem Channel.modGov_poisonHit (c : Channel) (f : Gov → Gov) : (c.modGov f).poisonHit = c.poisonHit := rfl
@[simp] theorem Channel.modGov_waitHit (c : Channel) (f : Gov → Gov) : (c.modGov f).waitHit = c.waitHit := rfl
@[simp] theorem Channel.modGov_irqWait (c : Channel) (f : Gov → Gov) : (c.modGov f).irqWait = c.irqWait := rfl
@[simp] theorem Channel.modGov_hostWait (c : Channel) (f : Gov → Gov) : (c.modGov f).hostWait = c.hostWait := rfl
@[simp] theorem Channel.modGov_poisRead (c : Channel) (f : Gov → Gov) : (c.modGov f).poisRead = c.poisRead := rfl
@[simp] theorem Channel.modGov_nmon (c : Channel) (f : Gov → Gov) : (c.modGov f).nmon = c.nmon := rfl
@[simp] theorem Channel.modGov_cores (c : Channel) (f : Gov → Gov) : (c.modGov f).cores = c.cores := rfl
@[simp] theorem Channel.modGov_sas (c : Channel) (f : Gov → Gov) : (c.modGov f).sas = c.sas := rfl
@[simp] theorem Channel.modGov_engines (c : Channel) (f : Gov → Gov) : (c.modGov f).engines = c.engines := rfl
@[simp] theorem Channel.modGov_abl (c : Channel) (f : Gov → Gov) : (c.modGov f).abl = c.abl := rfl
@[simp] theorem Channel.modGov_agd (c : Channel) (f : Gov → Gov) : (c.modGov f).agd = c.agd := rfl
@[simp] theorem Channel.modGov_frz (c : Channel) (f : Gov → Gov) : (c.modGov f).frz = c.frz := rfl
@[simp] theorem Channel.modGov_stk (c : Channel) (f : Gov → Gov) : (c.modGov f).stk = c.stk := rfl
@[simp] theorem Channel.modGov_ports (c : Channel) (f : Gov → Gov) : (c.modGov f).ports = c.ports := rfl
@[simp] theorem Channel.modGov_putRx (c : Channel) (f : Gov → Gov) : (c.modGov f).putRx = c.putRx := rfl
@[simp] theorem Channel.modGov_putNext (c : Channel) (f : Gov → Gov) : (c.modGov f).putNext = c.putNext := rfl
@[simp] theorem Channel.modGov_streams (c : Channel) (f : Gov → Gov) : (c.modGov f).streams = c.streams := rfl
@[simp] theorem Channel.modGov_inbox (c : Channel) (f : Gov → Gov) : (c.modGov f).inbox = c.inbox := rfl
@[simp] theorem Channel.modGov_cfl (c : Channel) (f : Gov → Gov) : (c.modGov f).cfl = c.cfl := rfl
@[simp] theorem Channel.modGov_colls (c : Channel) (f : Gov → Gov) : (c.modGov f).colls = c.colls := rfl
@[simp] theorem Channel.modGov_heldMsgs (c : Channel) (f : Gov → Gov) : (c.modGov f).heldMsgs = c.heldMsgs := rfl
@[simp] theorem Channel.modGov_stp (c : Channel) (f : Gov → Gov) : (c.modGov f).stp = c.stp := rfl
@[simp] theorem Channel.modGov_flt (c : Channel) (f : Gov → Gov) : (c.modGov f).flt = c.flt := rfl

/-! ### Channel.takeMsg -/

@[simp] theorem Channel.takeMsg_boot (c : Channel) (t : Byte) : (c.takeMsg t).boot = c.boot := rfl
@[simp] theorem Channel.takeMsg_queues (c : Channel) (t : Byte) : (c.takeMsg t).queues = c.queues := rfl
@[simp] theorem Channel.takeMsg_sems (c : Channel) (t : Byte) : (c.takeMsg t).sems = c.sems := rfl
@[simp] theorem Channel.takeMsg_running (c : Channel) (t : Byte) : (c.takeMsg t).running = c.running := rfl
@[simp] theorem Channel.takeMsg_inputs (c : Channel) (t : Byte) : (c.takeMsg t).inputs = c.inputs := rfl
@[simp] theorem Channel.takeMsg_floes (c : Channel) (t : Byte) : (c.takeMsg t).floes = c.floes := rfl
@[simp] theorem Channel.takeMsg_nextFloe (c : Channel) (t : Byte) : (c.takeMsg t).nextFloe = c.nextFloe := rfl
@[simp] theorem Channel.takeMsg_table (c : Channel) (t : Byte) : (c.takeMsg t).table = c.table := rfl
@[simp] theorem Channel.takeMsg_rr (c : Channel) (t : Byte) : (c.takeMsg t).rr = c.rr := rfl
@[simp] theorem Channel.takeMsg_mem (c : Channel) (t : Byte) : (c.takeMsg t).mem = c.mem := rfl
@[simp] theorem Channel.takeMsg_bad (c : Channel) (t : Byte) : (c.takeMsg t).bad = c.bad := rfl
@[simp] theorem Channel.takeMsg_poisonHit (c : Channel) (t : Byte) : (c.takeMsg t).poisonHit = c.poisonHit := rfl
@[simp] theorem Channel.takeMsg_waitHit (c : Channel) (t : Byte) : (c.takeMsg t).waitHit = c.waitHit := rfl
@[simp] theorem Channel.takeMsg_irqWait (c : Channel) (t : Byte) : (c.takeMsg t).irqWait = c.irqWait := rfl
@[simp] theorem Channel.takeMsg_hostWait (c : Channel) (t : Byte) : (c.takeMsg t).hostWait = c.hostWait := rfl
@[simp] theorem Channel.takeMsg_poisRead (c : Channel) (t : Byte) : (c.takeMsg t).poisRead = c.poisRead := rfl
@[simp] theorem Channel.takeMsg_nmon (c : Channel) (t : Byte) : (c.takeMsg t).nmon = c.nmon := rfl
@[simp] theorem Channel.takeMsg_cores (c : Channel) (t : Byte) : (c.takeMsg t).cores = c.cores := rfl
@[simp] theorem Channel.takeMsg_sas (c : Channel) (t : Byte) : (c.takeMsg t).sas = c.sas := rfl
@[simp] theorem Channel.takeMsg_engines (c : Channel) (t : Byte) : (c.takeMsg t).engines = c.engines := rfl
@[simp] theorem Channel.takeMsg_abl (c : Channel) (t : Byte) : (c.takeMsg t).abl = c.abl := rfl
@[simp] theorem Channel.takeMsg_agd (c : Channel) (t : Byte) : (c.takeMsg t).agd = c.agd := rfl
@[simp] theorem Channel.takeMsg_frz (c : Channel) (t : Byte) : (c.takeMsg t).frz = c.frz := rfl
@[simp] theorem Channel.takeMsg_stk (c : Channel) (t : Byte) : (c.takeMsg t).stk = c.stk := rfl
@[simp] theorem Channel.takeMsg_ports (c : Channel) (t : Byte) : (c.takeMsg t).ports = c.ports := rfl
@[simp] theorem Channel.takeMsg_putRx (c : Channel) (t : Byte) : (c.takeMsg t).putRx = c.putRx := rfl
@[simp] theorem Channel.takeMsg_putNext (c : Channel) (t : Byte) : (c.takeMsg t).putNext = c.putNext := rfl
@[simp] theorem Channel.takeMsg_streams (c : Channel) (t : Byte) : (c.takeMsg t).streams = c.streams := rfl
@[simp] theorem Channel.takeMsg_cfl (c : Channel) (t : Byte) : (c.takeMsg t).cfl = c.cfl := rfl
@[simp] theorem Channel.takeMsg_colls (c : Channel) (t : Byte) : (c.takeMsg t).colls = c.colls := rfl
@[simp] theorem Channel.takeMsg_heldMsgs (c : Channel) (t : Byte) : (c.takeMsg t).heldMsgs = c.heldMsgs := rfl
@[simp] theorem Channel.takeMsg_stp (c : Channel) (t : Byte) : (c.takeMsg t).stp = c.stp := rfl
@[simp] theorem Channel.takeMsg_flt (c : Channel) (t : Byte) : (c.takeMsg t).flt = c.flt := rfl
@[simp] theorem Channel.takeMsg_gov (c : Channel) (t : Byte) : (c.takeMsg t).gov = c.gov := rfl

/-! ### Channel.modFloe -/

@[simp] theorem Channel.modFloe_boot (c : Channel) (id : Nat) (f : FloeRun → FloeRun) : (c.modFloe id f).boot = c.boot := rfl
@[simp] theorem Channel.modFloe_queues (c : Channel) (id : Nat) (f : FloeRun → FloeRun) : (c.modFloe id f).queues = c.queues := rfl
@[simp] theorem Channel.modFloe_sems (c : Channel) (id : Nat) (f : FloeRun → FloeRun) : (c.modFloe id f).sems = c.sems := rfl
@[simp] theorem Channel.modFloe_running (c : Channel) (id : Nat) (f : FloeRun → FloeRun) : (c.modFloe id f).running = c.running := rfl
@[simp] theorem Channel.modFloe_inputs (c : Channel) (id : Nat) (f : FloeRun → FloeRun) : (c.modFloe id f).inputs = c.inputs := rfl
@[simp] theorem Channel.modFloe_nextFloe (c : Channel) (id : Nat) (f : FloeRun → FloeRun) : (c.modFloe id f).nextFloe = c.nextFloe := rfl
@[simp] theorem Channel.modFloe_table (c : Channel) (id : Nat) (f : FloeRun → FloeRun) : (c.modFloe id f).table = c.table := rfl
@[simp] theorem Channel.modFloe_rr (c : Channel) (id : Nat) (f : FloeRun → FloeRun) : (c.modFloe id f).rr = c.rr := rfl
@[simp] theorem Channel.modFloe_mem (c : Channel) (id : Nat) (f : FloeRun → FloeRun) : (c.modFloe id f).mem = c.mem := rfl
@[simp] theorem Channel.modFloe_bad (c : Channel) (id : Nat) (f : FloeRun → FloeRun) : (c.modFloe id f).bad = c.bad := rfl
@[simp] theorem Channel.modFloe_poisonHit (c : Channel) (id : Nat) (f : FloeRun → FloeRun) : (c.modFloe id f).poisonHit = c.poisonHit := rfl
@[simp] theorem Channel.modFloe_waitHit (c : Channel) (id : Nat) (f : FloeRun → FloeRun) : (c.modFloe id f).waitHit = c.waitHit := rfl
@[simp] theorem Channel.modFloe_irqWait (c : Channel) (id : Nat) (f : FloeRun → FloeRun) : (c.modFloe id f).irqWait = c.irqWait := rfl
@[simp] theorem Channel.modFloe_hostWait (c : Channel) (id : Nat) (f : FloeRun → FloeRun) : (c.modFloe id f).hostWait = c.hostWait := rfl
@[simp] theorem Channel.modFloe_poisRead (c : Channel) (id : Nat) (f : FloeRun → FloeRun) : (c.modFloe id f).poisRead = c.poisRead := rfl
@[simp] theorem Channel.modFloe_nmon (c : Channel) (id : Nat) (f : FloeRun → FloeRun) : (c.modFloe id f).nmon = c.nmon := rfl
@[simp] theorem Channel.modFloe_cores (c : Channel) (id : Nat) (f : FloeRun → FloeRun) : (c.modFloe id f).cores = c.cores := rfl
@[simp] theorem Channel.modFloe_sas (c : Channel) (id : Nat) (f : FloeRun → FloeRun) : (c.modFloe id f).sas = c.sas := rfl
@[simp] theorem Channel.modFloe_engines (c : Channel) (id : Nat) (f : FloeRun → FloeRun) : (c.modFloe id f).engines = c.engines := rfl
@[simp] theorem Channel.modFloe_abl (c : Channel) (id : Nat) (f : FloeRun → FloeRun) : (c.modFloe id f).abl = c.abl := rfl
@[simp] theorem Channel.modFloe_agd (c : Channel) (id : Nat) (f : FloeRun → FloeRun) : (c.modFloe id f).agd = c.agd := rfl
@[simp] theorem Channel.modFloe_frz (c : Channel) (id : Nat) (f : FloeRun → FloeRun) : (c.modFloe id f).frz = c.frz := rfl
@[simp] theorem Channel.modFloe_stk (c : Channel) (id : Nat) (f : FloeRun → FloeRun) : (c.modFloe id f).stk = c.stk := rfl
@[simp] theorem Channel.modFloe_ports (c : Channel) (id : Nat) (f : FloeRun → FloeRun) : (c.modFloe id f).ports = c.ports := rfl
@[simp] theorem Channel.modFloe_putRx (c : Channel) (id : Nat) (f : FloeRun → FloeRun) : (c.modFloe id f).putRx = c.putRx := rfl
@[simp] theorem Channel.modFloe_putNext (c : Channel) (id : Nat) (f : FloeRun → FloeRun) : (c.modFloe id f).putNext = c.putNext := rfl
@[simp] theorem Channel.modFloe_streams (c : Channel) (id : Nat) (f : FloeRun → FloeRun) : (c.modFloe id f).streams = c.streams := rfl
@[simp] theorem Channel.modFloe_inbox (c : Channel) (id : Nat) (f : FloeRun → FloeRun) : (c.modFloe id f).inbox = c.inbox := rfl
@[simp] theorem Channel.modFloe_cfl (c : Channel) (id : Nat) (f : FloeRun → FloeRun) : (c.modFloe id f).cfl = c.cfl := rfl
@[simp] theorem Channel.modFloe_colls (c : Channel) (id : Nat) (f : FloeRun → FloeRun) : (c.modFloe id f).colls = c.colls := rfl
@[simp] theorem Channel.modFloe_heldMsgs (c : Channel) (id : Nat) (f : FloeRun → FloeRun) : (c.modFloe id f).heldMsgs = c.heldMsgs := rfl
@[simp] theorem Channel.modFloe_stp (c : Channel) (id : Nat) (f : FloeRun → FloeRun) : (c.modFloe id f).stp = c.stp := rfl
@[simp] theorem Channel.modFloe_flt (c : Channel) (id : Nat) (f : FloeRun → FloeRun) : (c.modFloe id f).flt = c.flt := rfl
@[simp] theorem Channel.modFloe_gov (c : Channel) (id : Nat) (f : FloeRun → FloeRun) : (c.modFloe id f).gov = c.gov := rfl

/-! ### What an update puts in its own place -/

theorem Channel.modQ_get (c : Channel) (q : QIdx) (f : Queue → Queue) (j) :
    (c.modQ q f).queues[j] = if j = q then f c.queues[q] else c.queues[j] := by
  simp only [Channel.modQ, Fin.getElem_fin, Vector.getElem_set, Fin.ext_iff, eq_comm]
@[simp] theorem Channel.modQ_self (c : Channel) (q : QIdx) (f : Queue → Queue) : (c.modQ q f).queues[q] = f c.queues[q] := by
  simp [Channel.modQ]
theorem Channel.modCore_get (c : Channel) (k : Core) (f : CoreState → CoreState) (j) :
    (c.modCore k f).cores[j] = if j = k then f c.cores[k] else c.cores[j] := by
  simp only [Channel.modCore, Fin.getElem_fin, Vector.getElem_set, Fin.ext_iff, eq_comm]
@[simp] theorem Channel.modCore_self (c : Channel) (k : Core) (f : CoreState → CoreState) : (c.modCore k f).cores[k] = f c.cores[k] := by
  simp [Channel.modCore]
theorem Channel.modPort_get (c : Channel) (p : Port) (f : PortState → PortState) (j) :
    (c.modPort p f).ports[j] = if j = p then f c.ports[p] else c.ports[j] := by
  simp only [Channel.modPort, Fin.getElem_fin, Vector.getElem_set, Fin.ext_iff, eq_comm]
@[simp] theorem Channel.modPort_self (c : Channel) (p : Port) (f : PortState → PortState) : (c.modPort p f).ports[p] = f c.ports[p] := by
  simp [Channel.modPort]
theorem Channel.modStack_get (c : Channel) (i : Stack) (f : StackState → StackState) (j) :
    (c.modStack i f).stk[j] = if j = i then f c.stk[i] else c.stk[j] := by
  simp only [Channel.modStack, Fin.getElem_fin, Vector.getElem_set, Fin.ext_iff, eq_comm]
@[simp] theorem Channel.modStack_self (c : Channel) (i : Stack) (f : StackState → StackState) : (c.modStack i f).stk[i] = f c.stk[i] := by
  simp [Channel.modStack]
theorem Channel.modEng_get (c : Channel) (i : Stack) (f : AblEngine → AblEngine) (j) :
    (c.modEng i f).engines[j] = if j = i then f c.engines[i] else c.engines[j] := by
  simp only [Channel.modEng, Fin.getElem_fin, Vector.getElem_set, Fin.ext_iff, eq_comm]
@[simp] theorem Channel.modEng_self (c : Channel) (i : Stack) (f : AblEngine → AblEngine) : (c.modEng i f).engines[i] = f c.engines[i] := by
  simp [Channel.modEng]
@[simp] theorem Channel.semAdd_val (c : Channel) (i : SemIdx) (n : Nat) :
    (c.semAdd i n).semVal i = c.semVal i + BitVec.ofNat 32 n := by
  simp [Channel.semAdd, Channel.semVal]
@[simp] theorem Channel.semSet_val (c : Channel) (i : SemIdx) (v : W32) : (c.semSet i v).semVal i = v := by
  simp [Channel.semSet, Channel.semVal]
@[simp] theorem Channel.modGov_gov (c : Channel) (f : Gov → Gov) : (c.modGov f).gov = f c.gov := rfl

/-! ### The machine -/

@[simp] theorem State.modCh_pending (s : State) (ch : Ch) (f : Channel → Channel) : (s.modCh ch f).pending = s.pending := rfl
@[simp] theorem State.modCh_bridge (s : State) (ch : Ch) (f : Channel → Channel) : (s.modCh ch f).bridge = s.bridge := rfl
@[simp] theorem State.modCh_hostMem (s : State) (ch : Ch) (f : Channel → Channel) : (s.modCh ch f).hostMem = s.hostMem := rfl
@[simp] theorem State.modCh_answer (s : State) (ch : Ch) (f : Channel → Channel) : (s.modCh ch f).answer = s.answer := rfl
@[simp] theorem State.modCh_events (s : State) (ch : Ch) (f : Channel → Channel) : (s.modCh ch f).events = s.events := rfl
@[simp] theorem State.modCh_freeCtr (s : State) (ch : Ch) (f : Channel → Channel) : (s.modCh ch f).freeCtr = s.freeCtr := rfl
@[simp] theorem State.put_pending (s : State) (ch : Ch) (c : Channel) : (s.put ch c).pending = s.pending := rfl
@[simp] theorem State.put_bridge (s : State) (ch : Ch) (c : Channel) : (s.put ch c).bridge = s.bridge := rfl
@[simp] theorem State.put_hostMem (s : State) (ch : Ch) (c : Channel) : (s.put ch c).hostMem = s.hostMem := rfl
@[simp] theorem State.put_answer (s : State) (ch : Ch) (c : Channel) : (s.put ch c).answer = s.answer := rfl
@[simp] theorem State.put_events (s : State) (ch : Ch) (c : Channel) : (s.put ch c).events = s.events := rfl
@[simp] theorem State.put_freeCtr (s : State) (ch : Ch) (c : Channel) : (s.put ch c).freeCtr = s.freeCtr := rfl
@[simp] theorem State.put_msix (s : State) (ch : Ch) (c : Channel) : (s.put ch c).msix = s.msix := rfl
@[simp] theorem State.say_pending (s : State) (bs : List Byte) : (s.say bs).pending = s.pending := rfl
@[simp] theorem State.say_chans (s : State) (bs : List Byte) : (s.say bs).chans = s.chans := rfl
@[simp] theorem State.say_bridge (s : State) (bs : List Byte) : (s.say bs).bridge = s.bridge := rfl
@[simp] theorem State.say_hostMem (s : State) (bs : List Byte) : (s.say bs).hostMem = s.hostMem := rfl
@[simp] theorem State.say_msix (s : State) (bs : List Byte) : (s.say bs).msix = s.msix := rfl
@[simp] theorem State.say_events (s : State) (bs : List Byte) : (s.say bs).events = s.events := rfl
@[simp] theorem State.say_freeCtr (s : State) (bs : List Byte) : (s.say bs).freeCtr = s.freeCtr := rfl
@[simp] theorem State.modAll_pending (s : State) (f : Ch → Channel → Channel) : (s.modAll f).pending = s.pending := rfl
@[simp] theorem State.modAll_hostMem (s : State) (f : Ch → Channel → Channel) : (s.modAll f).hostMem = s.hostMem := rfl
@[simp] theorem State.modAll_msix (s : State) (f : Ch → Channel → Channel) : (s.modAll f).msix = s.msix := rfl
@[simp] theorem State.modAll_events (s : State) (f : Ch → Channel → Channel) : (s.modAll f).events = s.events := rfl
@[simp] theorem State.modAll_freeCtr (s : State) (f : Ch → Channel → Channel) : (s.modAll f).freeCtr = s.freeCtr := rfl
@[simp] theorem State.modAll_answer (s : State) (f : Ch → Channel → Channel) : (s.modAll f).answer = s.answer := rfl
@[simp] theorem State.modAll_bridge (s : State) (f : Ch → Channel → Channel) : (s.modAll f).bridge = s.bridge := rfl

end Sys2Proof.Machine
end

