-- ==== Sys2Proof/Laws/Work.lean ====
section
/-!
SUPPORT. One lemma per shared operation: what running an operation on a channel leaves behind, when a command's row has
its effect, how commands end, and what keeps the invariant of the module.
-/
namespace Sys2Proof.Machine

open Sys2Proof

/-! ### Operations on one channel -/

theorem State.onCh_eq (s : State) (ch : Ch) (f : Wk → Wk) : s.onCh ch f = s.after ch (f (s.work ch)) := rfl

theorem State.modCh_eq (s : State) (ch : Ch) (f : Channel → Channel) : s.modCh ch f = s.put ch (f s.chans[ch]) := by
  simp [State.modCh, State.onCh, State.put, Wk.mod]

/-- Storing a channel that has not changed changes nothing. -/
@[simp] theorem State.put_same (s : State) (ch : Ch) : s.put ch s.chans[ch] = s := by
  change { s with chans := s.chans.set ch s.chans[ch] } = s
  simp

/-- s after the message v of channel x, of which `rest` stay, has gone out at the host port. -/
def State.sentIrq (s : State) (x : Ch) (v : Nat) (rest : List Nat) : State :=
  { s with
    chans := s.chans.set x { s.chans[x] with irqWait := rest }
    bridge := { s.bridge with served := x }
    msix := s.msix ++ [(1 + x.val, v)] }

/-- What a round of the host port does: nothing, or the message of the channel whose turn it is goes out (01 R19). -/
theorem State.sendIrqsGo_cases (n : Nat) (s : State) :
    s.sendIrqsGo (n + 1) = s ∨ ∃ x v rest, s.chans[x].hostWaits = true ∧ s.hostTurn x = true ∧
      s.chans[x].irqWait = v :: rest ∧ s.sendIrqsGo (n + 1) = (s.sentIrq x v rest).sendIrqsGo n := by
  cases hf : (List.finRange 8).find? fun x => s.chans[x].hostWaits && s.hostTurn x with
  | none => exact .inl (by simp only [State.sendIrqsGo, hf])
  | some x =>
    cases hq : s.chans[x].irqWait with
    | nil => exact .inl (by simp only [State.sendIrqsGo, hf, hq])
    | cons v rest =>
      have h := List.find?_some hf
      simp only [Bool.and_eq_true] at h
      exact .inr ⟨x, v, rest, h.1, h.2, hq, by simp only [State.sendIrqsGo, hf, hq]; rfl⟩

theorem State.sentIrq_chan (s : State) (x k : Ch) (v : Nat) (rest : List Nat) :
    (s.sentIrq x v rest).chans[k] = if k = x then { s.chans[x] with irqWait := rest } else s.chans[k] := by
  simp only [State.sentIrq, Fin.getElem_fin, Vector.getElem_set, Fin.ext_iff, eq_comm]

/-- Sending the messages that wait changes only them, the round's place and what was sent (01 R19, R20). -/
theorem State.sendIrqsGo_frame (n : Nat) (s : State) :
    s.sendIrqsGo n = { s with
      chans := (s.sendIrqsGo n).chans, msix := (s.sendIrqsGo n).msix
      bridge := { s.bridge with served := (s.sendIrqsGo n).bridge.served } } ∧
    ∀ k : Ch, (s.sendIrqsGo n).chans[k] = { s.chans[k] with irqWait := (s.sendIrqsGo n).chans[k].irqWait } := by
  induction n generalizing s with
  | zero => exact ⟨rfl, fun _ => rfl⟩
  | succ n ih =>
    rcases s.sendIrqsGo_cases n with e | ⟨x, v, rest, -, -, -, e⟩
    · rw [e]
      exact ⟨rfl, fun _ => rfl⟩
    · rw [e]
      obtain ⟨h1, h2⟩ := ih (s.sentIrq x v rest)
      refine ⟨h1, fun k => ?_⟩
      rw [h2 k, State.sentIrq_chan]
      split
      · next hk => rw [hk]
      · rfl

theorem State.sendIrqs_frame (s : State) :
    s.sendIrqs = { s with
      chans := s.sendIrqs.chans, msix := s.sendIrqs.msix
      bridge := { s.bridge with served := s.sendIrqs.bridge.served } } ∧
    ∀ k : Ch, s.sendIrqs.chans[k] = { s.chans[k] with irqWait := s.sendIrqs.chans[k].irqWait } := by
  unfold State.sendIrqs
  split
  · exact s.sendIrqsGo_frame _
  · exact ⟨rfl, fun _ => rfl⟩

theorem State.after_chan (s : State) (ch k : Ch) (w : Wk) :
    (s.after ch w).chans[k] = if k = ch then
      { w.c with
        poisonHit := s.chans[ch].poisonHit, waitHit := s.chans[ch].waitHit, irqWait := (s.after ch w).chans[k].irqWait }
      else { s.chans[k] with irqWait := (s.after ch w).chans[k].irqWait } := by
  have set_ (d : Channel) : (s.chans.set ch d)[k] = if k = ch then d else s.chans[k] := by
    simp only [Fin.getElem_fin, Vector.getElem_set, Fin.ext_iff, eq_comm]
  unfold State.after
  dsimp only
  split
  · rw [set_]
    split <;> rfl
  · rw [(State.sendIrqs_frame _).2 k]
    dsimp only
    rw [set_]
    split <;> rfl

theorem State.put_chan (s : State) (ch k : Ch) (c : Channel) :
    (s.put ch c).chans[k] = if k = ch then { c with poisonHit := s.chans[ch].poisonHit, waitHit := s.chans[ch].waitHit } else s.chans[k] := by
  simp only [State.put, Fin.getElem_fin, Vector.getElem_set, Fin.ext_iff, eq_comm]

@[simp] theorem State.put_self (s : State) (ch : Ch) (c : Channel) :
    (s.put ch c).chans[ch] = { c with poisonHit := s.chans[ch].poisonHit, waitHit := s.chans[ch].waitHit } := by
  simp [State.put]

theorem State.after_self (s : State) (ch : Ch) (w : Wk) :
    (s.after ch w).chans[ch] = { w.c with
      poisonHit := s.chans[ch].poisonHit, waitHit := s.chans[ch].waitHit, irqWait := (s.after ch w).chans[ch].irqWait } := by
  have h := s.after_chan ch ch w
  rwa [if_pos rfl] at h

/-- What an operation on one channel leaves of the rest of the module: all but channels, free values, messages and the round's place. -/
theorem State.after_frame (s : State) (ch : Ch) (w : Wk) :
    s.after ch w = { s with
      chans := (s.after ch w).chans, freeCtr := w.ctr, msix := (s.after ch w).msix
      bridge := { s.bridge with served := (s.after ch w).bridge.served } } := by
  unfold State.after
  dsimp only
  split
  · rfl
  · conv_lhs => rw [(State.sendIrqs_frame _).1]

@[simp] theorem State.after_pending (s : State) (ch : Ch) (w : Wk) : (s.after ch w).pending = s.pending := by
  rw [State.after_frame]
@[simp] theorem State.after_hostMem (s : State) (ch : Ch) (w : Wk) : (s.after ch w).hostMem = s.hostMem := by
  rw [State.after_frame]
@[simp] theorem State.after_answer (s : State) (ch : Ch) (w : Wk) : (s.after ch w).answer = s.answer := by
  rw [State.after_frame]
@[simp] theorem State.after_events (s : State) (ch : Ch) (w : Wk) : (s.after ch w).events = s.events := by
  rw [State.after_frame]
@[simp] theorem State.after_freeCtr (s : State) (ch : Ch) (w : Wk) : (s.after ch w).freeCtr = w.ctr := by
  rw [State.after_frame]

theorem onUp_eq {s : State} {ch : Ch} (h : s.chans[ch].up = true) (f : Wk → Wk) :
    onUp s ch f = s.after ch (f (s.work ch)) := by rw [onUp, if_pos h, State.onCh_eq]

theorem onUp_off {s : State} {ch : Ch} (h : s.chans[ch].up = false) (f : Wk → Wk) : onUp s ch f = s := by
  rw [onUp, if_neg (by rw [h]; decide)]

theorem modUp_eq {s : State} {ch : Ch} (h : s.chans[ch].up = true) (f : Channel → Channel) :
    modUp s ch f = s.put ch (f s.chans[ch]) := by rw [modUp, if_pos h, State.modCh_eq]

theorem modUp_off {s : State} {ch : Ch} (h : s.chans[ch].up = false) (f : Channel → Channel) : modUp s ch f = s := by
  rw [modUp, if_neg (by rw [h]; decide)]

theorem onHost_eq {s : State} {ch : Ch} (h : s.hostOk ch = true) (f : Channel → Channel) :
    onHost s ch f = s.put ch (f s.chans[ch]) := by rw [onHost, if_pos h, State.modCh_eq]

theorem onCfl_eq {s : State} {ch : Ch} (h : s.chans[ch].up = true)
    (hf : s.chans[ch].isFrozen (.engine .confluence) = false) (f : Wk → Wk) :
    onCfl s ch f = s.after ch (f (s.work ch)) := by
  have hw : ¬ (s.work ch).c.isFrozen (.engine .confluence) = true := by
    change ¬ s.chans[ch].isFrozen (.engine .confluence) = true
    rw [hf]
    decide
  rw [onCfl, onUp_eq h, if_neg hw]

theorem modPowered_eq {s : State} {ch : Ch} (h : s.powered = true) (f : Channel → Channel) :
    modPowered s ch f = s.put ch (f s.chans[ch]) := by rw [modPowered, if_pos h, State.modCh_eq]

/-! ### Running commands -/

/-- The running command of a source belongs to it. -/
theorem Channel.findRun_src {c : Channel} {src : Src} {r : Running} (h : c.findRun src = some r) : r.src = src := by
  have := List.find?_some h
  simpa using this

/-- A command's row acts on it exactly when it has its occasion. -/
theorem onRun_eq {s : State} {ch : Ch} {src : Src} {opc : Byte} {r : Running} (h : Runs s ch src opc r)
    (f : Wk → Running → Wk) : onRun s ch src opc f = s.after ch ((f (s.fresh ch) r).settle src (s.fresh ch)) := by
  unfold onRun
  rw [h.run]
  have hh : (srcEngine r.src != some .dispatcher || opc == 0x04) = true := by
    rcases h.home with h | h <;> simp [h]
  have hc : (r.cmd.opc == opc) = true := by rw [h.code]; simp
  simp only []
  rw [if_pos (by rw [h.up, hc, hh, h.noResult, h.notHeld, h.notHalted, h.thawed]; rfl), State.onCh_eq]
  rfl

theorem onCoreRun_eq {s : State} {ch : Ch} {src : Src} {opc : Byte} {r q : Running} {c : Channel}
    (h : RunsChecked s ch src opc r c q) (f : Wk → Running → Wk) :
    onCoreRun s ch src opc f = s.after ch ((f { s.fresh ch with c := c } q).settle src (s.fresh ch)) := by
  unfold onCoreRun
  rw [onRun_eq h.runs]
  obtain ⟨k, hk, h' | ⟨h1, rfl, rfl⟩⟩ := h.checked
  · obtain ⟨h1, h2, h3⟩ := h'
    have e : (r.begun.isSome || r.checked) = false := by simp [h1, h2]
    have h4 : checkSlots (s.fresh ch).c k r = (c, q, none) := h3
    simp only [hk, e, h4]
    rfl
  · have : (q.begun.isSome || q.checked) = true := by
      rcases h1 with h | h <;> simp [h]
    simp only [hk, this]
    rfl

/-- A row whose command met no uncorrectable word in part leaves what it did. -/
@[simp] theorem Wk.settle_clean {w : Wk} (h : w.c.poisonHit = none) (hw : w.c.waitHit = false) (src : Src) (b : Wk) :
    w.settle src b = w := by
  rw [Wk.settle, if_neg (by rw [hw]; decide), h]

@[simp] theorem endWith_ok (w w' : Wk) (r : Running) (res : Result) :
    endWith w r (.ok (w', res)) = w'.mod fun c => c.finish r res := rfl

@[simp] theorem productWith_ok (w w' : Wk) (r : Running) : productWith w r (.ok w') = w' := rfl

/-- Sequencing of checks: both parts are good. -/
theorem Ck.bind_ok {α β : Type} {x : Ck α} {f : α → Ck β} {b : β} (h : (x >>= f) = .ok b) :
    ∃ a, x = .ok a ∧ f a = .ok b := by
  cases x with
  | error e => cases h
  | ok a => exact ⟨a, rfl, h⟩

theorem need_ok {p : Bool} {e : Err} {u : Unit} (h : need p e = .ok u) : p = true := by
  unfold need at h
  split at h
  · assumption
  · cases h

theorem findRun_setRun {l : List Running} {src : Src} {r q : Running} (h : l.find? (fun x => x.src == src) = some r)
    (hq : q.src = src) : (l.map fun x => if x.src = q.src then q else x).find? (fun x => x.src == src) = some q := by
  induction l with
  | nil => simp at h
  | cons x rest ih =>
    by_cases hx : x.src = src
    · simp [hx, hq]
    · have hb : (x.src == src) = false := by simpa using hx
      rw [List.find?_cons, hb] at h
      simp only [List.map_cons, hq, hx, if_false, List.find?_cons, hb]
      simpa [hq] using ih h

theorem Channel.setRun_findRun {c : Channel} {src : Src} {r q : Running} (h : c.findRun src = some r)
    (hq : q.src = src) : (c.setRun q).findRun src = some q := findRun_setRun h hq

/-- A finished command shows its result. -/
theorem Channel.finish_findRun {c : Channel} {src : Src} {r q : Running} (res : Result) (h : c.findRun src = some r)
    (hq : q.src = src) : (c.finish q res).findRun src = some { q with result := some res } :=
  Channel.setRun_findRun (q := { q with result := some res }) h hq

/-! ### What keeps the invariant of the module -/

theorem ModuleOk.sendIrqsGo {s : State} (h : ModuleOk s) (n : Nat) : ModuleOk (s.sendIrqsGo n) := by
  induction n generalizing s with
  | zero => exact h
  | succ n ih =>
    rcases s.sendIrqsGo_cases n with e | ⟨x, v, rest, -, -, -, e⟩
    · rw [e]
      exact h
    · rw [e]
      refine ih ⟨h.power, h.trip, h.port, fun hb k => ?_, h.hostMem, fun m hm => ?_, h.ids⟩
      · rw [State.sentIrq_chan]
        split
        · exact h.off hb x
        · exact h.off hb k
      · rcases List.mem_append.mp hm with hm | hm
        · exact h.functions m hm
        · have := x.isLt
          rw [List.mem_singleton.mp hm]
          refine ⟨?_, ?_⟩ <;> dsimp only <;> omega

/-- Sending what waits keeps it. -/
theorem ModuleOk.sendIrqs {s : State} (h : ModuleOk s) : ModuleOk s.sendIrqs := by
  unfold State.sendIrqs
  split
  · exact h.sendIrqsGo _
  · exact h

/-- An operation on one channel keeps it, where the channel stays in reset while the bridge is off. -/
theorem ModuleOk.after {s : State} (h : ModuleOk s) (ch : Ch) (w : Wk)
    (hl : s.bridgeOn = false → w.c.boot.life = .reset) : ModuleOk (s.after ch w) := by
  have ht : ModuleOk { s with
      chans := s.chans.set ch { w.c with
        poisonHit := s.chans[ch].poisonHit, waitHit := s.chans[ch].waitHit, irqWait := w.c.irqWait ++ w.irqs }
      freeCtr := w.ctr } := by
    refine ⟨h.power, h.trip, h.port, fun hb k => ?_, h.hostMem, h.functions, h.ids⟩
    by_cases hk : k = ch
    · subst hk
      simpa using hl hb
    · have e : ch.val ≠ k.val := fun e => hk (Fin.ext e.symm)
      simpa [Vector.getElem_set, e] using h.off hb k
  unfold State.after
  dsimp only
  split
  · exact ht
  · exact ht.sendIrqs

theorem ModuleOk.put {s : State} (h : ModuleOk s) (ch : Ch) (c : Channel)
    (hl : s.bridgeOn = false → c.boot.life = .reset) : ModuleOk (s.put ch c) where
  power := h.power
  trip := h.trip
  port := h.port
  off hb k := by
    rw [State.put_chan]
    split
    · exact hl hb
    · exact h.off hb k
  hostMem := h.hostMem
  functions := h.functions
  ids := h.ids

/-- While the bridge is off no channel runs. -/
theorem ModuleOk.notUp {s : State} (h : ModuleOk s) (ho : s.bridgeOn = false) (ch : Ch) : s.chans[ch].up = false := by
  rw [Channel.up, h.off ho ch]
  rfl

theorem ModuleOk.onUp {s : State} (h : ModuleOk s) (ch : Ch) (f : Wk → Wk) : ModuleOk (onUp s ch f) := by
  cases hu : s.chans[ch].up with
  | false => rwa [onUp_off hu]
  | true =>
    rw [onUp_eq hu]
    exact h.after ch _ fun ho => absurd (h.notUp ho ch) (by rw [hu]; decide)

theorem ModuleOk.modUp {s : State} (h : ModuleOk s) (ch : Ch) (f : Channel → Channel) : ModuleOk (modUp s ch f) := by
  cases hu : s.chans[ch].up with
  | false => rwa [modUp_off hu]
  | true =>
    rw [modUp_eq hu]
    exact h.put ch _ fun ho => absurd (h.notUp ho ch) (by rw [hu]; decide)

end Sys2Proof.Machine
end

