-- ==== Sys2Proof/WellFormed.lean ====
section
/-!
DEFINITION. Well-formed commands: operands as the spec lays them out. A command's meaning is total; these checks say
which terms stand for something that can reach the block.
-/
namespace Sys2Proof

/-- A payload of 1 to 240 bytes, LEN of them (14 Table 14.1); none in an idle flit. -/
def Flit.wf (f : Flit) : Bool :=
  decide (f.payload.length ≤ 240) && (f.kind != 1 || (decide (1 ≤ f.len.toNat) && decide (f.len.toNat ≤ 240)))

/-- A reduction message holds 1 to 64 superblocks of a bucket, or none where it carries no data (15 Table 15.3). -/
def RedMsg.wf (m : RedMsg) : Bool :=
  decide (m.sbs.length ≤ 64) && decide (m.first.toNat + m.sbs.length ≤ 64) && m.stats.all fun b => b.length == 56

/-- The header's LEN is the payload's (14 Table 14.5). -/
def Datagram.wf (d : Datagram) : Bool := decide (d.payload.length ≤ 9000)

/-- A register access of 1, 2, 4 or 8 bytes within the 4 MiB of a function (02 R442). -/
def accessWf (off : BitVec 22) (size : Nat) : Bool :=
  (size == 1 || size == 2 || size == 4 || size == 8) && decide (off.toNat + size ≤ 2 ^ 22)

/-- A BAR2 access of at least one byte within the 256 MiB of the BAR (02 R54). -/
def bar2Wf (off : BitVec 28) (n : Nat) : Bool := decide (1 ≤ n) && decide (off.toNat + n ≤ 2 ^ 28)

/-- The operands of a command have the sizes the spec gives them. -/
def Instr.wf : Instr → Bool
  | .bar2Access _ off len none => bar2Wf off len
  | .bar2Access _ off _ (some bs) => bar2Wf off bs.length
  | .registerWrite _ off size _ => accessWf off size
  | .pageResume _ _ _ data => data.length == 2097152
  | .stackTempUpdate _ _ milliC => milliC.length == 12
  | .linkControlFlit _ _ _ _ credits _ | .portRetrained _ ⟨_, _, _, credits, _⟩ => credits.length == 4
  | .payloadFlit _ _ f _ | .nackReplay _ _ f | .lateFragment _ _ f => f.wf
  | .idleFlit _ _ f => f.wf && f.kind == 0
  | .ingestWrite _ _ d | .ingestRead _ _ d => d.wf
  | .reductionMessage _ m | .resultDown _ m => m.wf
  | .parityContribution _ _ _ _ data | .rebuildResult _ _ data => data.length == 65536
  | .rebuildRequest _ _ _ lost _ other => decide (1 ≤ lost.length) && decide (lost.length ≤ 2) && other.length == 65536
  | .governorTick _ acts => acts.length == 9
  | .pathMonitorMeasure _ _ marginOk _ => marginOk.length == 16
  | .loanRecompute busy => busy.length == 8
  | .tjSample _ _ tj => decide (tj ≤ 255)
  | .inletRead celsius => celsius.all fun t => decide (t ≤ 254)
  | .challenge _ _ _ nonce | .getMeasurements _ _ _ nonce => nonce.length == 32
  | .pldmFirmwareUpdate _ (.data offset bytes) => decide (offset + bytes.length ≤ 25165824)
  | .pldmFirmwareUpdate _ .start | .pldmFirmwareUpdate _ .finish => true
  | .nop .. | .semWait .. | .semSignal .. | .semSet .. | .flDefine .. | .mmFwd .. | .mmBwd2 .. | .mmBwd ..
  | .cvFreeze .. | .cvThaw .. | .vxChain .. | .vxSave .. | .vxRestore .. | .stCopy .. | .stGather .. | .stScatter ..
  | .stPrefetch .. | .stCancel .. | .stPut .. | .cfReduce .. | .cfBcast .. | .cfBarrier .. | .abUpdate .. | .abFreeze ..
  | .abScatter .. | .commandStart .. | .commandComplete .. | .completionRecordWrite .. | .floeShareDelivery ..
  | .floeComplete .. | .doorbell .. | .queueEnable .. | .queueDisable .. | .queueDrained .. | .queueReset ..
  | .queueResume .. | .cqCplCiWrite .. | .cqSemAdd .. | .cqSemSet .. | .hbdStageBaseWrite .. | .nmonEvrCiWrite ..
  | .morPause .. | .morUnpause .. | .bankHandover .. | .bankRelease .. | .eskCtxConfig .. | .fillLanded ..
  | .helperUnit .. | .ringRelease .. | .rotatePush .. | .rotateSwap .. | .pageHalt .. | .pgtmoExpiry ..
  | .pageEntryUpdate .. | .addressGuardViolation .. | .uncorrectableRead .. | .badconnMark .. | .patrolScrub ..
  | .neveScrub .. | .refresh .. | .logicCheckFailure .. | .watchdogExpiry .. | .linkTrainingDone .. | .ackTimeout ..
  | .portDown .. | .messageComplete .. | .messageForward .. | .mack .. | .mnack ..
  | .stalltmoExpiry .. | .multicastAck .. | .mctmoExpiry .. | .mdrop .. | .mfetch .. | .ethernetFrame ..
  | .ingestStalltmoExpiry .. | .skewRelease .. | .trainingStart .. | .segmentIssue .. | .forwardAdmission ..
  | .updIssue .. | .stripeContribution .. | .stepReport .. | .reportForward .. | .authorityDecide .. | .mirrorAck ..
  | .commitToken .. | .clockVote .. | .heldTokenApply .. | .skipToken .. | .haltToken .. | .rollbackToken ..
  | .startToken .. | .heartbeatSend .. | .heartbeatReceive .. | .heartbeatReply .. | .hbtmoExpiry ..
  | .standbyTakeover .. | .mirrorAckTimeout .. | .newStandby .. | .linktmoExpiry .. | .channelFault ..
  | .ageingRecordWrite .. | .powerSample .. | .backstopStep .. | .loanRecall .. | .arbiterSilence .. | .thcutUpdate ..
  | .droopDetect .. | .droopRecover .. | .pllWake .. | .pllIdle .. | .colddlyExpiry .. | .arrayRowDisable ..
  | .inputSwitchClose | .inputSwitchOpen .. | .thermalTrip | .modRstNAssert | .modRstNRelease | .perstNAssert
  | .perstNRelease .. | .hostPortReset | .functionLevelReset .. | .configRequest .. | .hostPortReturn
  | .bootCtrlReset .. | .hbdChReset .. | .hbdChHold .. | .flownClaim .. | .flashRead .. | .flashErase ..
  | .flashProgram .. | .flashCommandDone .. | .channelBoot .. | .mbxIdentity .. | .mbxConfigRead ..
  | .mbxMeasurements .. | .mbxUnknownRequest .. | .hssBatchReserve .. | .hssTreeBuild .. | .getVersion ..
  | .getCapabilities .. | .negotiateAlgorithms .. | .getDigests .. | .getCertificate .. | .vendorDefinedRequest ..
  | .spdmUnsupportedRequest .. | .mctpControl .. | .pldmDiscovery .. | .pldmSensorRead .. | .platformEventMessage ..
  | .pldmHoldEffecter .. | .pldmReset .. | .activateFirmware .. | .newStandbyAck .. | .firstFaultHbtmoExpiry .. => true

end Sys2Proof
end

