-- ==== Sys2Proof/Tests/Slice0.lean ====
section
/-!
SUPPORT. Tests: an ill-formed term for every check of WellFormed, worked values from the spec, and for each statement
concrete states and operands that meet its hypotheses, clause by clause. Every expected value comes from the spec's rules
or tables, named in the test's comment.
-/
namespace Sys2Proof.Tests

set_option Elab.async false

open Sys2Proof Sys2Proof.Machine

/-! ### Small states -/

/-- Memory with little-endian fields: address, bytes, value. -/
def fields (xs : List (Nat × Nat × Nat)) : Mem := xs.foldl (fun m x => Mem.write 0 m x.1 (toBytes x.2.1 x.2.2)) []

/-- A matrix descriptor at an address: base, format, rows, columns; codes and exponents 0x1000 and 0x2000 on. -/
def matrix (a base fmt e0 e1 : Nat) : List (Nat × Nat × Nat) :=
  [(a, 8, base + fmt * 2 ^ 48 + 2 ^ 56), (a + 32, 4, e0), (a + 36, 4, e1)] ++
  (if fmt < 2 then [] else [(a + 8, 5, 0x1000), (a + 16, 5, 0x2000)])

/-- A running channel with nothing to do. -/
def chan : Channel := { boot := { life := .running } }

/-- The module after reset with channel 0 as given. -/
def st (c : Channel) : State := State.reset.put 0 c

def cmd (o : Byte) (a : List Nat) : Command :=
  let x (i : Nat) : W64 := BitVec.ofNat 64 (a.getD i 0)
  { opc := o, a0 := x 0, a1 := x 1, a2 := x 2, a3 := x 3, a4 := x 4, a5 := x 5 }

def run (q : QIdx) (k : Command) : Running := { src := .queue q, cmd := k }

/-- Channel 0 with memory and one command running. -/
def busy (m : Mem) (r : Running) : Channel := { chan with mem := m, running := [r] }

/-- The whole of a register written. -/
def wr (v : Nat) : RegWrite := { value := BitVec.ofNat 64 v, enable := 0xFF }

/-- Runs, as a condition that evaluates. -/
def runsB (s : State) (ch : Ch) (src : Src) (opc : Byte) (r : Running) : Bool :=
  s.chans[ch].up && decide (s.chans[ch].findRun src = some r) && decide (r.cmd.opc = opc) &&
  (decide (srcEngine r.src ≠ some .dispatcher) || decide (opc = 0x04)) && decide (r.result = none) &&
  decide (r.held = none) && decide (r.halted = none) && !s.chans[ch].isFrozen (runMaster r)

theorem runs_of {s : State} {ch : Ch} {src : Src} {opc : Byte} {r : Running} (h : runsB s ch src opc r = true) :
    Runs s ch src opc r := by
  simp only [runsB, Bool.and_eq_true, Bool.or_eq_true, decide_eq_true_eq, Bool.not_eq_true'] at h
  obtain ⟨⟨⟨⟨⟨⟨⟨a, b⟩, c⟩, d⟩, e⟩, f⟩, g⟩, i⟩ := h
  exact ⟨a, b, c, d, e, f, g, i⟩

/-- A core's command on its first run has its slots checked. -/
theorem runsChecked_of {s : State} {ch : Ch} {src : Src} {opc : Byte} {r : Running} {k : Core}
    (h : runsB s ch src opc r = true) (hk : (srcEngine r.src).bind engineCore = some k)
    (hf : r.begun = none ∧ r.checked = false)
    (hc : (checkSlots (s.fresh ch).c k r).2.2 = none) :
    RunsChecked s ch src opc r (checkSlots (s.fresh ch).c k r).1 (checkSlots (s.fresh ch).c k r).2.1 :=
  ⟨runs_of h, k, hk, .inl ⟨hf.1, hf.2, Prod.ext rfl (Prod.ext rfl hc)⟩⟩

/-! ### WellFormed: one ill-formed term for each check -/

theorem wf_bar2_empty : Instr.wf (.bar2Access 0 0 0 none) = false := by decide
theorem wf_bar2_past : Instr.wf (.bar2Access 0 0xFFFFFFF 0 (some [1, 2])) = false := by decide
theorem wf_access_size : Instr.wf (.registerWrite 1 0 3 0) = false := by decide
theorem wf_access_past : Instr.wf (.registerWrite 1 0x3FFFFC 8 0) = false := by decide
theorem wf_page_data : Instr.wf (.pageResume 0 (.command (.queue 0)) 0 []) = false := by decide
theorem wf_stack_dies : Instr.wf (.stackTempUpdate 0 0 [80000]) = false := by decide
theorem wf_retrain : Instr.wf (.portRetrained 0 ⟨0, 0, 0, [1, 2, 3], .none⟩) = false := by decide
theorem wf_credits : Instr.wf (.linkControlFlit 0 0 0 0 [1, 2, 3] .none) = false := by decide

/-- A flit of fragment f of message 1 on virtual channel 0. -/
def flit (kind : BitVec 2) (seq : BitVec 12) (frag : BitVec 9) (last : Bool) (bytes : List Byte) : Flit :=
  let f : Flit :=
    { kind := kind, vc := 0, seq := seq, ack := 0xFFF, nack := false, crcum := 0, crvc := 0
      len := BitVec.ofNat 8 bytes.length, msgid := 1, frag := frag, last := last, payload := padTo 240 bytes, crc := 0 }
  { f with crc := crc32 (flitBytes f) }

/-- A flit that carries its own check sequence is good. -/
theorem flit_good {kind : BitVec 2} (h : kind ≠ 3) (seq : BitVec 12) (frag : BitVec 9) (last : Bool) (bytes : List Byte) :
    flitBad (flit kind seq frag last bytes) false = false := by
  simpa [flitBad, flit, flitBytes] using h

theorem wf_flit_len : Instr.wf (.payloadFlit 0 0 (flit 1 0 0 true []) false) = false := by decide +kernel
theorem wf_flit_long : Instr.wf (.nackReplay 0 0 { flit 1 0 0 true [1] with payload := List.replicate 241 0 }) = false := by
  decide +kernel
theorem wf_idle_kind : Instr.wf (.idleFlit 0 0 (flit 1 0 0 true [1])) = false := by decide +kernel

/-- A datagram of one type to window 0 of port 0, its check made. -/
def datagram (type : Byte) (flags : W16) (seq : W32) (offset : W64) (bytes : List Byte) : Datagram :=
  let d : Datagram :=
    { peerIp := 1, peerUdp := 9, magic := 0xF1D7, ver := 1, type := type, win := 0, flags := flags, msgid := 7, seq := seq
      offset := offset, len := BitVec.ofNat 32 bytes.length, check := 0, payload := bytes }
  { d with check := dgSum d }

theorem wf_datagram : Instr.wf (.ingestWrite 0 0 { datagram 1 1 0 0 [] with payload := List.replicate 9001 0 }) = false := by
  decide +kernel

/-- A reduction message of one core's key with sbs superblocks. -/
def redMsg (sender : ChanId) (group : W16) (sbs : List SbForm) : RedMsg :=
  { sender := sender, rid := 0, group := group, path := false, down := false, nf := false, shmis := false, step := 0
    bucket := 0, count := 1, first := 0, shape := 0, wait := 0, sbs := sbs, stats := none, opc := 0x40 }

theorem wf_reduction : Instr.wf (.reductionMessage 0 (redMsg 0 0 (List.replicate 65 ⟨0, [], 0⟩))) = false := by decide +kernel
theorem wf_result_stats : Instr.wf (.resultDown 0 { redMsg 0 0 [] with stats := some [0] }) = false := by decide
theorem wf_parity_unit : Instr.wf (.parityContribution 0 0 0 false []) = false := by decide
theorem wf_rebuild_unit : Instr.wf (.rebuildResult 0 0 []) = false := by decide
theorem wf_rebuild_lost : Instr.wf (.rebuildRequest 0 0 0 [] [] []) = false := by decide
theorem wf_governor_cores : Instr.wf (.governorTick 0 []) = false := by decide
theorem wf_path_monitors : Instr.wf (.pathMonitorMeasure 0 0 [true] 76) = false := by decide
theorem wf_loan_channels : Instr.wf (.loanRecompute [true]) = false := by decide
theorem wf_tj : Instr.wf (.tjSample 0 0 256) = false := by decide
theorem wf_inlet : Instr.wf (.inletRead (some 255)) = false := by decide
theorem wf_nonce : Instr.wf (.challenge .bridge .doe 0 []) = false := by decide
theorem wf_firmware_data : Instr.wf (.pldmFirmwareUpdate 0 (.data 0x1800000 [0])) = false := by decide
theorem wf_nop : Instr.wf (.nop 0 (.queue 0)) = true := by decide

/-! ### The module as a whole -/

/-- No row gives bits (opcode_table.json). -/
theorem test_no_word : decodeTableWord 32 0 = none := rfl

theorem witness_step_idle : State.reset.pending = [] := rfl

theorem witness_exec_next : exec (.nop 0 (.queue 0)) State.reset = .next State.reset := rfl

/-- A module after reset whose host port is down. -/
def quiet : State := { State.reset with bridge := { State.reset.bridge with hostUp := false } }

theorem witness_module_ok : ModuleOk quiet ∧ step quiet = .next quiet :=
  ⟨⟨rfl, fun h => (by cases h), fun h => (by cases h), fun h => (by cases h), ⟨.nil, fun _ h => (by cases h)⟩,
    fun _ h => (by cases h), ⟨rfl, rfl⟩⟩, rfl⟩

theorem witness_channels_apart :
    chanOf (.nop 0 (.queue 0)) = some 0 ∧ (1 : Ch) ≠ 0 ∧ exec (.nop 0 (.queue 0)) State.reset = .next State.reset :=
  ⟨rfl, by decide, rfl⟩

/-! ### Opcodes -/

theorem witness_semaphore_opcodes : ∀ o ∈ ([0x00, 0x01, 0x02, 0x03] : List Byte),
    runsB (st (busy [] (run 0 (cmd o [])))) 0 (.queue 0) o (run 0 (cmd o [])) = true := by decide +kernel

/-- An entry of level 0 with one member, core 1 of this channel, and its list. -/
def entryMem : Mem := fields [(0x1000, 1, 1), (0x1001, 1, 1), (0x1008, 6, 0x2000), (0x2000, 4, 1)]
def defineRun : Running := run 144 (cmd 0x04 [0x1000, 0x100])

theorem witness_fl_define : runsB (st (busy entryMem defineRun)) 0 (.queue 144) 0x04 defineRun = true ∧
    ((busy entryMem defineRun).get 0x1000 32).isOk = true ∧ ((busy entryMem defineRun).get 0x2000 4).isOk = true ∧
    (chan.memberOk 0 ⟨0, 1⟩).toOption = some true ∧ (chan.memberOk 0 ⟨0, 9⟩).toOption = some false ∧
    (let r : Running := { defineRun with result := some {}, defines := some (0x100, List.replicate 32 1) }
     (busy [] r).up = true ∧ (busy [] r).findRun (.queue 144) = some r ∧ r.result = some {}) := by decide +kernel

/-- Operands of the products: X, W and X again in Névé, F32 destinations, a backward block that drains F32. -/
def productMem : Mem :=
  fields (matrix 0x1000 (neveBase 0) 2 1 1 ++ matrix 0x1080 (neveBase 0 + 0x10000) 2 1 1 ++
    matrix 0x1100 (neveBase 0 + 0x20000) 2 1 1 ++ matrix 0x1180 0x20000 0 1 1 ++ matrix 0x1200 0x30000 0 1 1 ++
    [(0x2010, 1, 5)])
/-- Two F32 matrices, a narrow one, a block list of one entry and a chain that moves port 0 to port 1. -/
def moveMem : Mem :=
  fields (matrix 0x1000 0x20000 0 1 1 ++ matrix 0x1080 0x30000 0 1 1 ++ matrix 0x1100 0x40000 2 1 1 ++
    [(0x3000, 4, 1), (0x2000, 1, 1), (0x2002, 2, 64), (0x2014, 1, 1), (0x2015, 1, 2), (0x2040, 4, 1 + 17 * 256 + 16 * 8192)])
/-- A region of B16 masters, a gradient, a copy, and a program that keeps W. -/
def updateMem : Mem :=
  fields (matrix 0x1000 0x20000 1 1 1 ++ matrix 0x1080 0x30000 1 1 1 ++ matrix 0x1100 0x40000 0 1 1 ++
    matrix 0x1180 0x50000 2 1 1 ++
    [(0x2000, 8, 0x1000), (0x2008, 8, 0x1080), (0x2100, 1, 1), (0x2110, 4, 1 + 12 * 256 + 12 * 8192)])

/-- A command of a core runs, its slots pass, and its operands pass. -/
def coreOk (m : Mem) (r : Running) (k : Core) (f : Channel → Running → Bool) : Bool :=
  let s := st (busy m r)
  let x := checkSlots (s.fresh 0).c k r
  runsB s 0 r.src r.cmd.opc r && x.2.2.isNone && f x.1 x.2.1

theorem witness_mm_fwd : coreOk productMem (run 0 (cmd 0x10 [0x1000, 0x1080, 0x1180, 0, 2])) 0
    (fun c q => match fwdOps c q with | .ok (o, _) => o.err.isNone | .error _ => false) = true := by decide +kernel
theorem witness_mm_bwd2 : coreOk productMem (run 0 (cmd 0x11 [0x1000, 0x1080, 0x1100, 0x1180, 0x1200, 0x2000])) 0
    (fun c q => match bwd2Ops c q with | .ok (o, _) => o.px.err.isNone && o.pw.err.isNone | .error _ => false) = true := by
  decide +kernel
theorem witness_mm_bwd : coreOk productMem (run 0 (cmd 0x12 [0x1000, 0x1080, 0x1180, 0, 0, 0x2000])) 0
    (fun c q => match bwdOps c q with | .ok (o, _) => o.pr.err.isNone | .error _ => false) = true := by decide +kernel
theorem witness_cv_freeze : coreOk moveMem (run 0 (cmd 0x18 [0x1000, 0x1100, 0x4000])) 0
    (fun c q => (freezeOps c q).isOk) = true := by decide +kernel
theorem witness_cv_thaw : coreOk moveMem (run 0 (cmd 0x19 [0x1100, 0x1000, 0x4000])) 0
    (fun c q => (thawOps c q).isOk) = true := by decide +kernel

/-- A chain is entered and its slots pass. -/
def chainIn (m : Mem) (r : Running) (f : Channel → Running → Bool) : Bool :=
  let s := st (busy m r)
  let x := checkSlots (chainEnter (s.fresh 0) r).c 0 r
  runsB s 0 r.src r.cmd.opc r && x.2.2.isNone && f x.1 x.2.1

/-- A chain passes, and so do the operands of its shape: an iteration, a bank port, an element walk. -/
def chainOk (m : Mem) (r : Running) (f : Channel → Running → ChainOps → Bool) : Bool :=
  chainIn m r fun c q => match chainOps c q with | .ok o => f c q o | .error _ => false

/-- A command of a core whose slots were checked in an earlier row. -/
def againOk (m : Mem) (r : Running) (f : Channel → Running → Bool) : Bool :=
  let q := { r with checked := true }
  let s := st (busy m q)
  runsB s 0 r.src r.cmd.opc q && f (s.fresh 0).c q

/-- A chain that moves port 0 to port 1, port 0 read as the program's header says: from memory, from the banks of Rime, or
for each entry of a list. -/
def walkRow : Running := run 4 (cmd 0x20 [0x2000, 0x1000, 0x1080])
def bankMem : Mem := Mem.write 0 moveMem 0x2014 [4]
def iterMem : Mem :=
  Mem.write 0 (Mem.write 0 (Mem.write 0 moveMem 0x2001 [1]) 0x2014 [5, 2]) 0x2040 (toBytes 4 (1 + 17 * 256 + 28 * 8192))
def iterRow : Running := run 4 (cmd 0x20 [0x2000, 0x7000, 0x1080])

theorem witness_chain_walk : chainOk moveMem walkRow (fun c q o =>
    !o.g.iter && o.g.bankPort.isNone &&
    match o.ds.findSome? id with | some lead => (walkOps q o lead).isOk | none => false) = true := by decide +kernel
theorem witness_chain_banks : chainOk bankMem walkRow (fun c q o =>
    !o.g.iter && match o.g.bankPort with
      | some p => (c.banksNow (runCore q) p.array).isEmpty && (banksOps o
          [{ tiles := [⟨0, 0, List.replicate 1024 0⟩], rows := 1, cols := 1 }]).isOk
      | none => false) = true := by decide +kernel
/-- Rime with two banks handed over, one of them read. -/
theorem witness_banks_now :
    (chan.modCore 0 fun k => { k with rime := { handed := [{ tiles := [], rows := 1, cols := 1 }, { tiles := [], rows := 2, cols := 1 }], read := 1 } }).banksNow
      0 .rime = [{ tiles := [], rows := 2, cols := 1 }] := by decide +kernel
theorem witness_chain_iter : chainOk iterMem iterRow (fun c q o =>
    o.g.iter && (iterOps c q o).isOk) = true := by decide +kernel

theorem witness_st_copy : coreOk moveMem (run 8 (cmd 0x30 [0x1000, 0x1080, 4])) 0
    (fun c q => (copyOps c q).isOk) = true := by decide +kernel
theorem witness_st_gather : coreOk moveMem (run 8 (cmd 0x31 [0x1000, 0x3000, 0x1080])) 0
    (fun c q => (gatherOps false c q).isOk) = true := by decide +kernel
theorem witness_st_scatter : coreOk moveMem (run 8 (cmd 0x32 [0x1000, 0x3000, 0x1080])) 0
    (fun c q => (gatherOps true c q).isOk) = true := by decide +kernel
theorem witness_st_put : coreOk moveMem (run 8 (cmd 0x35 [0x1000, 0x1080])) 0
    (fun c q => decide (q.putDst = c.chid) && (putLocalOps c q).isOk) = true := by decide +kernel
theorem witness_st_put_away : coreOk moveMem (run 8 (cmd 0x35 [0x1000, 0x1080 + 2 ^ 48])) 0
    (fun c q => decide (q.putDst ≠ c.chid) && (c.desc (bits q.cmd.a0.toNat 47 0) q.copies).isOk) = true := by decide +kernel

/-- A command of another engine runs and its operands pass. Identifier 0x100 names this channel alone. -/
def engineOk (m : Mem) (r : Running) (f : Channel → Running → Bool) : Bool :=
  let s := st { busy m r with table := [(0x100, [3, 1, 0, 0, 0, 0, 0, 0, 0, 0x50] ++ List.replicate 22 0)] }
  runsB s 0 r.src r.cmd.opc r && f (s.fresh 0).c r

theorem witness_ab_update : engineOk updateMem (run 136 (cmd 0x50 [0x2100, 0x2000, 0x1100, 0x2200]))
    (fun c r => (updOps c r).isOk) = true := by decide +kernel
theorem witness_ab_freeze : engineOk updateMem (run 136 (cmd 0x51 [0x2000, 0x1180]))
    (fun c r => (frzOps c r.copies (ablOf r) (bits r.cmd.a0.toNat 47 0) (bits r.cmd.a1.toNat 47 0) (bits r.cmd.a2.toNat 47 0)
      r.cmd.a3).isOk) = true := by decide +kernel
theorem witness_ab_scatter : engineOk moveMem (run 136 (cmd 0x52 [0x1000, 0x3000, 0x1080]))
    (fun c r => (scatOps c r).isOk) = true := by decide +kernel

/-- The reduction parameters with GROUP 0x100 beside two F32 matrices; the group's list is all zeros. -/
def reduceMem : Mem :=
  fields (matrix 0x1000 0x20000 0 1 1 ++ matrix 0x1080 0x30000 0 1 1 ++ [(0x2004, 2, 0x100)])

theorem witness_cf_reduce : engineOk reduceMem (run 128 (cmd 0x40 [0x1000, 0x1080, 0x2000]))
    (fun c r => r.begun.isNone && (reduceOps (st c).chans c r).isOk) = true := by decide +kernel
theorem witness_cf_bcast : engineOk reduceMem (run 128 (cmd 0x41 [0x1000, 0x1080, 0x1000000]))
    (fun c r => r.begun.isNone && (bcastOps (st c).chans c r).isOk) = true := by decide +kernel
theorem witness_cf_barrier : engineOk reduceMem (run 128 (cmd 0x42 [0x100]))
    (fun c r => r.begun.isNone && (barrierOps (st c).chans c r).isOk) = true := by decide +kernel
theorem witness_cf_begun : ∀ o ∈ ([0x40, 0x41, 0x42] : List Byte),
    engineOk [] { run 128 (cmd o []) with begun := some 0 } (fun _ r => r.begun.isSome) = true := by decide +kernel

/-- Channel 0 with a live Moraine context of queue 4. -/
def liveChan (m : Mem) (r : Running) : Channel :=
  (busy m r).modCore 0 fun k => { k with mor := { k.mor with live := [some {}, none, none, none, none] } }
def saveRun : Running := run 4 (cmd 0x21 [0x4000])
def restoreRun : Running := run 4 (cmd 0x22 [0x4000])
/-- A saved block of version 1 without a live context, and one with: 128 lanes, LIVE. -/
def versionOne : Mem := fields [(0x4000, 1, 1)]
def savedLive : Mem := fields [(0x4000, 1, 1), (0x4001, 1, 128), (0x4002, 2, 0x400), (0x403A, 1, 1)]

theorem witness_lanes : ({} : MorCtx).lanes.length = 128 := List.length_replicate
theorem witness_vx_save : coreOk [] saveRun 0 (fun c q =>
    (c.liveCtx (runCore q) q.src).isNone && inRegion 0x4000 64 && !c.stopped 0x4000 64 && decide (q.cmd = saveRun.cmd) &&
    decide (q.src = saveRun.src)) = true := by decide +kernel
theorem witness_vx_save_live :
    runsB (st (liveChan [] saveRun)) 0 (.queue 4) 0x21 saveRun = true ∧
    (let x := checkSlots ((st (liveChan [] saveRun)).fresh 0).c 0 saveRun
     x.2.2.isNone = true ∧ (x.1.liveCtx 0 (.queue 4)).isSome = true ∧ inRegion 0x4000 2304 = true ∧
     x.1.stopped 0x4000 2304 = false) := by decide +kernel
/-- What a vx.restore finds: version, LIVE, lanes and MVL. -/
def savedBlock (c : Channel) : Option (Nat × Bool × Nat × Nat) :=
  match c.getBlock 0x4000 256 64 0xF with
  | .ok h => some (fld h 0 1, (fld h 58 1).testBit 0, fld h 1 1, fld h 2 2)
  | .error _ => none
theorem witness_vx_restore : coreOk versionOne restoreRun 0 (fun c _ => savedBlock c == some (1, false, 0, 0)) = true := by
  decide +kernel
theorem witness_vx_restore_live : coreOk savedLive restoreRun 0 (fun c q =>
    savedBlock c == some (1, true, 128, MVL) && (c.get 0x4100 2048).isOk &&
    decide (c.cores[runCore q].mor.live.length = 5)) = true := by decide +kernel
theorem witness_vx_restore_version : coreOk [] restoreRun 0 (fun c _ => savedBlock c == some (0, false, 0, 0)) = true := by
  decide +kernel

/-- Channel 0 with stream context 0 of core 0 as given. -/
def ctxChan (x : Ctx) (m : Mem) (rs : List Running) : Channel :=
  { chan with mem := m, running := rs }.modCtx 0 0 fun _ => x
def nativeCtx : Ctx := { mode := .native, nslot := 4, size := 0x1000, base := BitVec.ofNat 48 (neveBase 0) }
def ringCtx : Ctx := { nativeCtx with mode := .ring, tail := 1 }
def rotateCtx : Ctx := { nativeCtx with mode := .rotate, nslot := 2, mask := 3 }
def fetchRun : Running := run 8 (cmd 0x33 [0x1000, 0x100])

theorem witness_prefetch : ∀ x ∈ [nativeCtx, ringCtx, { rotateCtx with slots := List.replicate 16 {} }],
    let s := st (ctxChan x moveMem [fetchRun])
    runsB s 0 (.queue 8) 0x33 fetchRun = true ∧ (s.fresh 0).c.cores[(0 : Core)].esk.ctxs[(0 : Fin 16)] = x ∧
    (match (s.fresh 0).c.desc 0x1000 [] with
      | .ok d => decide (d.span ≤ x.size.toNat) && neveOf d.base != some 0 | .error _ => false) = true ∧
    fetchRun.begun = none ∧ x.cancelling = false := by decide +kernel
theorem witness_prefetch_slots :
    (nativeCtx.slot 1).st = .empty ∧ (1 < nativeCtx.nslot.toNat) ∧ (ringCtx.tail - ringCtx.head).toNat ≠ 4 ∧
    (({ ringCtx with tail := 4 } : Ctx).tail - ringCtx.head).toNat = 4 ∧ rotateCtx.started = false ∧
    ({ nativeCtx with cancelling := true } : Ctx).cancelling = true := by decide
/-- A context that st.cancel names, no slot of it read, and one of it read by a running command. -/
theorem witness_cancel : ∀ x ∈ [nativeCtx, ringCtx, { nativeCtx with slots := [{ st := .full, runningNow := 1 }] }],
    let r := run 8 (cmd 0x34 [1])
    let s := st (ctxChan x [] [r])
    runsB s 0 (.queue 8) 0x34 r = true ∧ (s.fresh 0).c.cores[(0 : Core)].esk.ctxs[(0 : Fin 16)] = x ∧
    (∀ j : Fin 16, (1 : W64).getLsbD j.val = decide (j = 0)) ∧ x.frozen = false ∧
    (.queue 8) ∉ ((s.fresh 0).c.prefetches 0 0).map Running.src := by decide +kernel
theorem witness_cancel_use :
    nativeCtx.inUse = false ∧ ({ nativeCtx with slots := [{ st := .full, runningNow := 1 }] } : Ctx).inUse = true := by decide

theorem witness_failed_check : (st (busy [] saveRun)).chans[(0 : Ch)].findRun (.queue 4) = some saveRun ∧
    saveRun.result = none := by decide +kernel

/-- A check that ends a command of a core with status 0x13: its first operand address is misaligned. -/
def refused {α : Type} (x : Except Err α) : Bool := match x with | .error e => errStatus e == some 0x13 | .ok _ => false

theorem witness_failed_checks_core :
    coreOk productMem (run 0 (cmd 0x10 [0x1001])) 0 (fun c q => refused (fwdOps c q)) = true ∧
    coreOk productMem (run 0 (cmd 0x11 [0x1001])) 0 (fun c q => refused (bwd2Ops c q)) = true ∧
    coreOk productMem (run 0 (cmd 0x12 [0x1001])) 0 (fun c q => refused (bwdOps c q)) = true ∧
    coreOk moveMem (run 0 (cmd 0x18 [0x1001])) 0 (fun c q => refused (freezeOps c q)) = true ∧
    coreOk moveMem (run 0 (cmd 0x19 [0x1001])) 0 (fun c q => refused (thawOps c q)) = true ∧
    coreOk moveMem (run 8 (cmd 0x30 [0x1001])) 0 (fun c q => refused (copyOps c q)) = true ∧
    coreOk moveMem (run 8 (cmd 0x31 [0x1001])) 0 (fun c q => refused (gatherOps false c q)) = true ∧
    coreOk moveMem (run 8 (cmd 0x32 [0x1001])) 0 (fun c q => refused (gatherOps true c q)) = true ∧
    coreOk moveMem (run 8 (cmd 0x35 [0x1001, 0x1080])) 0
      (fun c q => decide (q.putDst = c.chid) && refused (putLocalOps c q)) = true ∧
    coreOk moveMem (run 8 (cmd 0x35 [0x1001, 0x1080 + 2 ^ 48])) 0
      (fun c q => decide (q.putDst ≠ c.chid) && refused (c.desc (bits q.cmd.a0.toNat 47 0) q.copies)) = true ∧
    againOk [] (run 4 (cmd 0x22 [0x4001])) (fun c _ => refused (c.getBlock 0x4001 256 64 0xF)) = true ∧
    againOk [] (run 4 (cmd 0x21 [0x4001])) (fun _ q => decide (q.cmd.a0.toNat % 64 ≠ 0)) = true ∧
    coreOk [] (run 4 (cmd 0x21 [0x2400000000])) 0 (fun _ _ => !inRegion 0x2400000000 64) = true := by decide +kernel

theorem witness_failed_checks_others :
    engineOk updateMem (run 136 (cmd 0x50 [0x2101])) (fun c r => refused (updOps c r)) = true ∧
    engineOk updateMem (run 136 (cmd 0x51 [0x2001, 0x1180])) (fun c r => refused (frzOps c r.copies (ablOf r)
      (bits r.cmd.a0.toNat 47 0) (bits r.cmd.a1.toNat 47 0) (bits r.cmd.a2.toNat 47 0) r.cmd.a3)) = true ∧
    engineOk moveMem (run 136 (cmd 0x52 [0x1001])) (fun c r => refused (scatOps c r)) = true ∧
    engineOk moveMem (run 8 (cmd 0x33 [0x1001])) (fun c r => refused (c.desc 0x1001 r.copies)) = true ∧
    engineOk reduceMem (run 128 (cmd 0x40 [0x1001, 0x1080, 0x2000]))
      (fun c r => r.begun.isNone && refused (reduceOps (st c).chans c r)) = true ∧
    engineOk reduceMem (run 128 (cmd 0x41 [0x1001, 0x1080, 0x1000000]))
      (fun c r => r.begun.isNone && refused (bcastOps (st c).chans c r)) = true ∧
    engineOk reduceMem (run 128 (cmd 0x42 [0x200]))
      (fun c r => r.begun.isNone && (barrierOps (st c).chans c r).isOk == false) = true ∧
    engineOk [] (run 144 (cmd 0x04 [0x2400000000])) (fun c r => (flDefine c r).isOk == false) = true ∧
    errStatus (.fault 1 0) = some 0x13 ∧ errStatus (.guard 0 false) = some 0x14 := by decide +kernel

/-- Chains that a check ends: a misaligned port descriptor, a list of no region, a port of another shape than the bank's. -/
theorem witness_failed_checks_chain :
    chainIn moveMem (run 4 (cmd 0x20 [0x2000, 0x1001, 0x1080])) (fun c q => refused (chainOps c q)) = true ∧
    chainOk iterMem (run 4 (cmd 0x20 [0x2000, 0x2400000000, 0x1080])) (fun c q o => o.g.iter && (iterOps c q o).isOk == false) = true ∧
    chainOk bankMem walkRow (fun _ _ o =>
      !o.g.iter && match o.g.bankPort with
        | some _ => refused (banksOps o [{ tiles := [⟨0, 0, List.replicate 1024 0⟩], rows := 2, cols := 1 }])
        | none => false) = true := by decide +kernel

/-- Slot 0 of a context of core 0 that holds a fault, is cancelled, or is empty, under a descriptor in it; a chain and a
vx.save whose blocks lie off their alignment. -/
theorem witness_slot_checks :
    (∀ t ∈ ([({ st := .faulted, heldStatus := 0x16, heldAddr := 5 }, SlotAns.held 0x16 5),
        ({ st := .faulted, heldStatus := 0x14, heldAddr := 5 }, .held 0x14 5), ({ st := .cancelled }, .cancelled),
        ({}, .bad 0x1000)] : List (Slot × SlotAns)),
      let r := run 8 (cmd 0x30 [0x1000, 0x1080])
      let x : Ctx := { nativeCtx with slots := [t.1, { st := .full }, { st := .full }, { st := .full }] }
      let c := ((st (ctxChan x (fields (matrix 0x1000 (neveBase 0) 0 1 1 ++ matrix 0x1080 0x30000 0 1 1)) [r])).fresh 0).c
      runsB (st c) 0 (.queue 8) 0x30 r = true ∧ (c.blockNames r).all (fun b => b.1 % b.2.1 == 0) = true ∧
      (slotAnswers c 0 r).find? (fun a => a.2.2 != .reader) = some (0, 0, t.2) ∧ r.begun = none ∧ r.checked = false) ∧
    (∀ r ∈ [run 4 (cmd 0x21 [0x4001]), run 4 (cmd 0x20 [0x2001, 0x1000, 0x1080])],
      ((busy moveMem r).blockNames r).find? (fun b => b.1 % b.2.1 != 0) = some (bits r.cmd.a0.toNat 47 0, 64, 0xF) ∧
      runsB (st (busy moveMem r)) 0 (.queue 4) r.cmd.opc r = true ∧
      (checkSlots ((st (busy moveMem r)).fresh 0).c 0 r).2.2.isSome = true) := by decide +kernel

/-! ### Queues, the dispatcher and the host -/

/-- Channel 0 with one queue as given. -/
def qChan (q : QIdx) (x : Queue) (m : Mem := []) : Channel := { chan with mem := m }.modQ q fun _ => x

/-- A queue at 0x10000 with one command waiting in it. -/
def ready : Queue := { base := 0x10000, enable := true, pi := 1 }

/-- COMMAND_START's conditions on the head of a queue, whether or not it is read and starts. -/
def headOk (c : Channel) (e : Engine) (q : QIdx) : Bool :=
  let x := c.queues[q]
  c.up && !c.isFrozen (.engine e) && (c.sources e).head? == some q.val && x.enable && !x.stopped && !x.frozen &&
  x.pi != x.ci && (c.findRun (.queue q)).isNone && !x.cplBlocked && !c.stopped x.headAddr 64
def headOf (c : Channel) (q : QIdx) : Command := Command.parse (c.rd c.queues[q].headAddr 64)
def startOk (c : Channel) (e : Engine) (q : QIdx) : Bool :=
  let x := c.queues[q]
  let k := headOf c q
  headOk c e q && (c.badIn x.headAddr 64 false).isNone && !x.aborts k && (!k.waiten || semOk (c.semVal k.wsem) k.wval) &&
  c.canStart e k && (e != .dispatcher || !c.floeWaits k k.floe none none false)

/-- An accepted opcode, one absent from Table 2.4, one of another engine, and floes at the dispatcher, one of them of an
undefined identifier; a head that cannot be read; an ab.* of an attempt that was ended. -/
theorem witness_start :
    startOk (qChan 0 ready) (.array 0) 0 = true ∧
    startOk (qChan 0 ready (fields [(0x10000, 1, 0x7F)])) (.array 0) 0 = true ∧ opcUnit 0x7F = none ∧
    startOk (qChan 0 ready (fields [(0x10000, 1, 0x20)])) (.array 0) 0 = true ∧
    opcUnit 0x20 = some .mor ∧ accepts (.array 0) .mor = false ∧
    startOk (qChan 144 ready (fields [(0x10000, 1, 0x04)])) .dispatcher 144 = true ∧
    startOk (qChan 144 ready (fields [(0x10000, 1, 0x20)])) .dispatcher 144 = true ∧
    (((qChan 144 ready).popQ 144).makeFloe { opc := 0x20 } 0 none none false).isOk = true ∧
    startOk (qChan 144 ready (fields [(0x10000, 1, 0x20), (0x10002, 2, 0x100)])) .dispatcher 144 = true ∧
    (match ((qChan 144 ready).popQ 144).makeFloe { opc := 0x20 } 0x100 none none false with
      | .error (.status c a) => c == 0x12 && a == 0 | _ => false) = true ∧
    headOk { qChan 0 ready with bad := [0x10000] } (.array 0) 0 = true ∧
    ({ qChan 0 ready with bad := [0x10000] } : Channel).badIn 0x10000 64 false = some 0x10000 ∧
    headOk (qChan 136 { ready with abTo := some 1 } (fields [(0x10000, 1, 0x50)])) (.ablation 0) 136 = true ∧
    ({ ready with abTo := some 1 } : Queue).aborts { opc := 0x50 } = true := by decide +kernel

/-- A share waits at the input of the array engine, whose queue 3 was served last. -/
def inputChan : Channel :=
  { chan with inputs := [(.array 0, { cmd := {}, ref := ⟨.here 0, 0⟩ })], rr := [(.array 0, 3)] }

theorem witness_start_input : (inputChan.sources (.array 0)).head? = some 160 ∧
    (inputChan.inputs.find? fun p => p.1 == .array 0).isSome = true ∧ (inputChan.findRun (.input (.array 0))).isNone = true ∧
    inputChan.canStart (.array 0) {} = true := by decide +kernel

/-- A command of queue 0 that has ended, well and in error. -/
theorem witness_complete : ∀ x ∈ ([0x00, 0x13, 0x16, 0x19] : List Byte),
    let r : Running := { run 0 {} with result := some { status := x } }
    (busy [] r).up = true ∧ (busy [] r).findRun (.queue 0) = some r ∧ r.share = none := by decide +kernel

def oneRecord : Record := { seq := 0, tag := 0, res := {}, floe := false, warn := false, irq := false, time := 0 }

theorem witness_record : ∀ loc ∈ [true, false],
    let x : Queue := { ready with waiting := [oneRecord], cplLoc := loc, cplAddr := 0x8000 }
    let c := qChan 0 x
    c.up = true ∧ c.queues[(0 : QIdx)].cplFull = false ∧ (st c).bridge.hostUp = true ∧ c.stopped 0x8000 32 = false ∧
    (loc = false → c.hostWaits = true ∧ (st c).hostTurn 0 = true) := by decide +kernel

/-- A floe command with one member, core 1, whose share is still to go, and the same with its result. -/
def floeRun (m : MemberState) : FloeRun := { id := 0, src := .queue 144, seq := 0, cmd := {}, level := 0, members := [m] }
def due : MemberState := { member := ⟨0, 1⟩ }

theorem witness_floe_share :
    (({ chan with floes := [floeRun due] } : Channel).floes.find? fun f =>
      f.src == .queue 144 && ((f.members[0]?).map fun m => !m.delivered).getD false) = some (floeRun due) ∧
    due.member.chan = chan.chid ∧ (floeRun due).level = 0 := by decide +kernel
theorem witness_floe_complete :
    let m : MemberState := { due with delivered := true, result := some {} }
    (({ chan with floes := [floeRun m] } : Channel).floes.find? fun f => f.src == .queue 144 && f.members.all MemberState.done) =
      some (floeRun m) := by decide +kernel
theorem witness_floe_member :
    let r : Running := { src := .input (.array 0), cmd := {}, result := some {}, share := some { cmd := {}, ref := ⟨.here 0, 0⟩ } }
    ({ chan with running := [r] } : Channel).findRun (.input (.array 0)) = some r := by decide +kernel

/-- 01 R13: 7 blocks over 3 members go 3, 2, 2. -/
theorem test_shares : shares 7 3 = [(0, 3), (3, 2), (5, 2)] := by decide

/-- 01 R15: the lowest-numbered failing member is named. -/
theorem test_floe_result :
    let ok : MemberState := { due with result := some {} }
    let bad : MemberState := { due with result := some { status := 0x13, info := 5 } }
    (FloeRun.result { floeRun ok with members := [ok, bad, bad] }).status = 0x18 ∧
    (FloeRun.result { floeRun ok with members := [ok, bad, bad] }).member = 1 ∧
    (∀ x ∈ [ok, bad], x.result.isSome = true) ∧ isError 0x13 = true ∧ isError 0x19 = false := by decide +kernel

/-- CQ_CPL_CI at, ahead of and behind its bounds. -/
theorem witness_cpl_ci :
    let x : Queue := { ready with cplPi := 5, cplCi := 2 }
    (st (qChan 0 x)).hostOk 0 = true ∧ reservedQ 0 = false ∧ touches (wr 5) 4 = true ∧
    BitVec.ofNat 32 (merge (wr 5) 4 2) = 5 ∧ 0 ≤ (x.cplPi - 5).toInt ∧ 0 ≤ (5 - x.cplCi).toInt ∧
    (x.cplPi - 6).toInt < 0 ∧ (1 - x.cplCi).toInt < 0 := by decide +kernel

/-- Producer indices behind, one too far ahead, both at once, and at the ring's size; a reserved block. -/
theorem witness_doorbell :
    let x : Queue := { ready with pi := 3 }
    (st (qChan 0 x)).hostOk 0 = true ∧ reservedQ 0 = false ∧ touches (wr 3) 4 = true ∧
    ((2 : W32) - x.pi).toInt < 0 ∧ ((2 : W32) - x.ci).toNat ≤ x.size ∧ 0 ≤ ((65 : W32) - x.pi).toInt ∧
    x.size < ((65 : W32) - x.ci).toNat ∧ ((-1 : W32) - x.pi).toInt < 0 ∧ x.size < ((-1 : W32) - x.ci).toNat ∧
    0 ≤ ((64 : W32) - x.pi).toInt ∧ ((64 : W32) - x.ci).toNat ≤ x.size ∧ reservedQ 12 = true ∧
    touches { wr 3 with enable := 0 } 4 = false := by decide +kernel

/-- CQ_CTRL: enabling with rings that lie well and ill, disabling, RESET, RESUME. -/
theorem witness_queue_control :
    let off : Queue := { base := 0x10000 }
    let ill : Queue := { base := 0xFFFFFFFFFFC0 }
    (st (qChan 0 off)).hostOk 0 = true ∧ ringsOk 0 off = true ∧ ringsOk 0 ill = false ∧
    (enabledBits (wr 1) 4).testBit 1 = false ∧ (enabledBits (wr 1) 4).testBit 2 = false ∧
    (merge (wr 1) 4 0).testBit 0 = true ∧ (merge (wr 0) 4 1).testBit 0 = false ∧
    (enabledBits (wr 4) 4).testBit 2 = true ∧ (merge (wr 4) 4 0).testBit 0 = false ∧
    (qChan 0 off).stateQ 0 = 0 ∧ (qChan 0 { off with stopped := true }).stateQ 0 ≠ 0 ∧
    (enabledBits (wr 2) 4).testBit 1 = true ∧ (enabledBits (wr 3) 4).testBit 1 = true ∧
    (merge (wr 3) 4 1).testBit 0 = true := by decide +kernel

theorem witness_queue_drained : (qChan 0 { draining := true }).findRun (.queue 0) = none := by decide +kernel

theorem witness_semaphores : (st chan).hostOk 0 = true ∧ touches (wr 7) 4 = true := by decide +kernel
/-- 02 R37: a wait is met at the threshold and across the wrap. -/
theorem test_sem_wait : semOk 5 5 = true ∧ semOk 4 5 = false ∧ semOk 1 0xFFFFFFFF = true := by decide

theorem witness_event_ring :
    let n : Nmon := { evrPi := 5, evrCi := 2 }
    (st { chan with nmon := n }).hostOk 0 = true ∧ 0 ≤ (n.evrPi - 5).toInt ∧ 0 ≤ (5 - n.evrCi).toInt ∧
    (n.evrPi - 6).toInt < 0 ∧ (1 - n.evrCi).toInt < 0 := by decide +kernel

theorem witness_bar2 :
    (st chan).bridge.hostUp = true ∧ chan.up = true ∧ chan.isFrozen .host = false ∧ stagingOk 0x1000 8 = true ∧
    chan.stopped 0x1000 8 = false ∧ chan.badIn 0x1000 8 true = none ∧ chan.badIn 0x1000 8 false = none ∧
    (let c : Channel := { chan with bad := [0x1000] }
     c.badIn 0x1000 8 true = some 0x1000 ∧ c.badIn 0x1000 8 false = some 0x1000) ∧
    stagingOk (0x2400000000 - 4) 8 = false ∧ stagingOk regBase 8 = false ∧
    ({ chan with frz := { frozen := [.host] } }).isFrozen .host = true := by decide +kernel

/-- CQ_PI of queue 0 by halves; an access off its alignment; a reserved offset; HBD_CH_CTRL of channel 0. -/
theorem witness_registers : (st chan).hostOk 0 = true ∧ (st chan).function0 = true ∧
    (chan.regAt 0x20008).isSome = true ∧ accessOk 0x20008 4 0x20008 8 = true ∧ accessOk 0x2000A 4 0x20008 8 = false ∧
    chan.regAt 0x3FFFF0 = none ∧ ((List.range 0x2000).any fun o => ((st chan).func0At (4 * o)).isSome) = true := by
  decide +kernel

/-! ### Banks, contexts, pages -/

/-- Channel 0 with the Rime array of core 0 as given. -/
def rimeChan (a : ArrayState) : Channel := chan.modCore 0 fun k => { k with rime := a }
def bank : Bank := { tiles := [], rows := 1, cols := 1 }

theorem witness_banks :
    let x : ArrayState := { full := [bank], handed := [bank, bank], read := 1 }
    (rimeChan x).up = true ∧ (rimeChan x).cores[(0 : Core)].array .rime = x ∧ 2 ≤ x.handed.length ∧
    ({ x with handed := [] } : ArrayState).handed.length < 2 := by decide +kernel

/-- A context off and idle takes a valid configuration, refuses an ill one; a filling one is left alone. -/
theorem witness_context_config :
    let off : Ctx := { nativeCtx with mode := .off }
    let c := ctxChan off [] []
    off.state = 0 ∧ nativeCtx.state = 1 ∧
    ({ nativeCtx with slots := [{ st := .filling }] } : Ctx).state = 2 ∧
    (off.writeReg .cfg (wr 0x100401)).mode = .native ∧ ctxValid c 0 0 (off.writeReg .cfg (wr 0x100401)) = true ∧
    (off.writeReg .cfg (wr 0x100001)).mode = .native ∧ ctxValid c 0 0 (off.writeReg .cfg (wr 0x100001)) = false ∧
    (nativeCtx.writeReg .cfg (wr 0)).mode = .off := by decide +kernel

/-- Slot 1 of the context fills from DRAM, from an address that no region holds, from an uncorrectable word, and from an
absent page. -/
def fillCtx (base : Nat) : Ctx :=
  { nativeCtx with
    mask := 2, slots := [{}, { st := .filling, filler := some (.queue 8), fillBase := base, fillSpan := 100, help := true }] }
def paged : Agd := { mode := true, ptBase := 0x4000000 }
def fillChan (base : Nat) : Channel := ctxChan (fillCtx base) (fields [(0x4000000, 1, 1)]) [fetchRun]

/-- How a fill of that channel ends: bytes moved, and the error that ends it. -/
def fillEnd (c : Channel) (base : Nat) : Nat × Option ErrKind :=
  let x := fillBytes c.landed base 100 ((fillCtx base).slotAddr 1)
  if x.1.poisonHit.isNone then (x.2.1, x.2.2.map (·.kind)) else (0, some .wait)

theorem witness_fill :
    (∀ c ∈ [fillChan 0x20000, { fillChan 0x20000 with bad := [0x20000] }, { fillChan 0x20000 with agd := paged }],
      let t := (fillCtx 0x20000).slot 1
      c.landed.up = true ∧ c.landed.cores[(0 : Core)].esk.ctxs[(0 : Fin 16)] = fillCtx 0x20000 ∧ t.st = .filling ∧
      (fillCtx 0x20000).frozen = false ∧ t.halted = none ∧ t.filler = some fetchRun.src ∧
      c.landed.findRun (.queue 8) = some fetchRun ∧ fetchRun.result = none) ∧
    fillEnd (fillChan 0x20000) 0x20000 = (100, none) ∧
    fillEnd (fillChan 0x2400000000) 0x2400000000 = (0, some (.guard 0x2400000000 false)) ∧
    fillEnd { fillChan 0x20000 with bad := [0x20000] } 0x20000 = (0, some (.ue 0x20000)) ∧
    fillEnd { fillChan 0x20000 with agd := paged } 0x20000 = (0, some (.absent 0x20000)) := by decide +kernel
/-- A helper, and the issuing core; the page of an address that is not translated. -/
theorem witness_unit :
    let c := (fillChan 0x20000).landed
    (fillCtx 0x20000).mode = .native ∧ ((fillCtx 0x20000).slot 1).help = true ∧ (fillCtx 0x20000).mask.getLsbD 1 = true ∧
    helperIdle c 1 = true ∧ (∀ h : Core, c.isFrozen (.engine (.esker h)) = false) ∧ min (4096 - 0 % 4096) (100 - 0) = 100 ∧
    c.virtual 0x20000 = false ∧ c.access 0x20000 100 false = .ok c ∧ c.badIn (neveBase 0 + 0x1000) 100 true = none := by
  decide +kernel

/-- A ring whose head slot is released, and one whose slot is not. -/
theorem witness_ring :
    let x : Ctx := { ringCtx with slots := [{ st := .full, done := 1 }, {}, {}, {}] }
    let j := x.head.toNat % x.nslot.toNat
    x.mode = .ring ∧ x.head ≠ x.tail ∧ x.ruse.toNat ≤ (x.slot j).done ∧ (x.slot j).st = .full ∧
    ((ringCtx.slot 0).done < ringCtx.ruse.toNat) := by decide +kernel

/-- Two members rotate: core 1 pushes to core 0, then may swap. -/
theorem witness_rotate :
    let x : Ctx := { rotateCtx with started := true, rounds := 3, slots := [{ st := .full, done := 1 }, {}] }
    let y : Ctx := { x with base := BitVec.ofNat 48 (neveBase 1) }
    let z : Ctx := { x with pushed := true, slots := [{ st := .full, done := 1 }, { st := .full }] }
    let bad : Channel := { chan with bad := [neveBase 1] }
    x.mode = .rotate ∧ x.cancelling = false ∧ x.frozen = false ∧ x.pushed = false ∧ x.started = true ∧
    y.lastStep = false ∧ y.pred 1 = 0 ∧ (y.slot y.cur).st = .full ∧ (y.slot y.cur).cancelAfter = false ∧
    (x.slot x.nxt).st = .empty ∧ chan.badIn (y.slotAddr y.cur) y.size.toNat false = none ∧
    bad.badIn (y.slotAddr y.cur) y.size.toNat false = some (neveBase 1) ∧
    x.nxt < x.slots.length ∧ z.lastStep = false ∧ z.ruse.toNat ≤ (z.slot z.cur).done ∧ (z.slot z.nxt).st = .full := by
  decide +kernel

/-- A freeze, a fill and a put that meet an absent page; a command halted on one. -/
theorem witness_pages :
    let k := run 0 (cmd 0x18 [0x1000, 0x1100, 0x4000])
    let s := st { busy (fields (matrix 0x1000 0x600000 0 1 1 ++ matrix 0x1100 0x40000 2 1 1 ++
      [(0x4000000, 8, 7), (0x4000018, 8, 1)])) k with agd := paged }
    let x := checkSlots (s.fresh 0).c 0 k
    runsB s 0 (.queue 0) 0x18 k = true ∧ x.2.2.isNone = true ∧
    (match freezeOps x.1 x.2.1 with | .error e => e.kind == .absent 0x600000 | _ => false) = true ∧
    fillEnd { fillChan 0x20000 with agd := paged } 0x20000 = (0, some (.absent 0x20000)) := by decide +kernel
theorem witness_page_returns :
    let r : Running := { run 8 {} with halted := some (0, 0x200000) }
    (busy [] r).findRun (.queue 8) = some r ∧ (busy [] r).haltedAt (.command (.queue 8)) = some 0x200000 ∧
    (busy [] (run 8 {})).haltedAt (.command (.queue 8)) = none ∧
    (let x : Ctx := { nativeCtx with slots := [{ st := .filling, filler := some (.queue 8), halted := some (0, 0x200000) }] }
     (ctxChan x [] [fetchRun]).haltedAt (.fill 0 0 0) = some 0x200000) ∧
    inDram (0x600007 / 2 ^ 21 % 2 ^ 27 * 2 ^ 21) (2 ^ 21) = true ∧ 8 + 8 ≤ 0x600000 := by decide +kernel

/-! ### Memory faults and care -/

theorem witness_guard :
    violates (.engine (.array 0)) 0x2400000000 = true ∧ violates (.engine (.array 0)) 0 = false ∧
    chan.isFrozen (.engine (.array 0)) = false ∧
    (busy [] (run 0 {})).victim (.engine (.array 0)) = some (run 0 {}) := by decide +kernel

/-- A read of a clean codeword, of one with a symbol in error, with two, and of one that reads as uncorrectable. -/
theorem witness_uncorrectable :
    inDram 0x900000040 1 = true ∧ 0x900000040 / 0x900000000 = 1 ∧ chan.stopped 0x900000040 1 = false ∧
    (busy [] (run 0 {})).findRun (.queue 0) = some (run 0 {}) ∧ (run 0 {}).result = none ∧ inError [] = [] ∧
    (inError [3, 3, 90]).length = 1 ∧ (inError [3, 4]).length = 2 ∧ (inError [0, 1, 2, 3, 4, 5, 6]).length = 7 ∧
    chan.stk[(1 : Stack)].marked = [] ∧ 0x900000040 ∈ ({ chan with bad := [0x900000040] } : Channel).bad ∧
    0x900000040 ∉ chan.bad := by decide +kernel

theorem witness_memory_care :
    let t : StackState := { corr := [((5, 7), 16)] }
    (st chan).powered = true ∧ 16 ≤ (t.corr.lookup (5, 7)).getD 0 ∧ t.marked = [] ∧ (t.corr.lookup (5, 8)).getD 0 < 16 ∧
    inDram 0x40 1 = true ∧ 0x40 / 0x900000000 = 0 ∧ wordOf 0x47 = 0x40 ∧ 0x40 ∉ chan.bad ∧ neveOf (neveBase 3) = some 3 ∧
    chan.stk[(0 : Stack)].tf = 16 ∧ chan.stk[(0 : Stack)].overtemp = false ∧ ({ tf := 8 } : StackState).tf ≠ 16 := by
  decide +kernel

/-- 13 R301, R302: 90,001 thousandths read as 91 °C: refresh doubles and TF is 16 − 8. -/
theorem test_stack_temperature :
    let t := match exec (.stackTempUpdate 0 1 [80000, 90001]) (st chan) with
      | .next s => s.chans[(0 : Ch)].stk[(1 : Stack)] | _ => {}
    t.temp = 91 ∧ t.ref2x = true ∧ t.tf = 8 ∧ t.overtemp = false := by decide +kernel

/-- A channel in training and one in DONE. -/
theorem witness_channel_faults :
    chan.up = true ∧ chan.stp.st ≠ .done ∧ ({ chan with stp := { st := .done } } : Channel).stp.st = .done := by decide +kernel

theorem witness_linktmo :
    let c : Channel := { chan with boot := { chan.boot with cfg := { ident := { chid := 9 } } } }.modPort 0 fun p =>
      { p with mode := .polvor, st := .down, peerChan := 3 }
    c.up = true ∧ c.ports[(0 : Port)].peerChan.toNat < c.chid.toNat ∧ chan.chid.toNat ≤ c.ports[(0 : Port)].peerChan.toNat := by
  decide +kernel

/-! ### Links, Ethernet and collectives -/

/-- Channel 0 with port 0 as given. -/
def portChan (x : PortState) : Channel := chan.modPort 0 fun _ => x
def linkUp : PortState := { mode := .polvor, st := .up, peerChan := 1, cred := [1024, 1024, 64, 512] }

/-- Two flits to send on one credit of virtual channel 0. -/
theorem witness_port_sends :
    let x : PortState := { linkUp with cred := [1, 0, 0, 0], txq := [[flit 1 0 0 false [1], flit 1 0 1 true [2]], [], [], []] }
    x.replayBuf.length ≤ 512 ∧ x.cred.length = 4 ∧ x.txq.length = 4 ∧
    (∀ v : Fin 4, ∀ f ∈ x.txq.getD v [], f.vc = v) ∧ x.pump.replayBuf.length = 1 := by decide +kernel

/-- Flits expected and not, first and later fragments, good, bad and idle. -/
theorem witness_flits :
    let m : OpenMsg := { vc := 0, msgid := 1, bytes := [1], frags := 1 }
    let x : PortState := { linkUp with open_ := [m] }
    (portChan linkUp).up = true ∧ linkUp.st = .up ∧ (flit 1 0 0 false [1]).seq = linkUp.rxSeq ∧
    linkUp.findOpen 0 1 = none ∧ x.findOpen 0 1 = some m ∧ m.complete = false ∧
    m.frags = (flit 1 0 1 true [2]).frag.toNat ∧ (flit 1 0 1 true [2]).frag ≠ 0 ∧ flitBad (flit 1 0 0 true [1]) true = true ∧
    (flit 1 5 0 true [1]).seq ≠ linkUp.rxSeq := by decide +kernel
/-- An idle flit whose check sequence is wrong. -/
theorem witness_flit_bad : ∃ f : Flit, f.kind = 0 ∧ flitBad f false = true :=
  ⟨{ flit 0 0 0 true [] with crc := crc32 (flitBytes (flit 0 0 0 true [])) + 1 }, rfl, by
    simp [flitBad, flit, flitBytes]⟩
theorem witness_flits_good :
    flitBad (flit 1 0 0 false [1]) false = false ∧ flitBad (flit 1 0 1 true [2]) false = false ∧
    flitBad (flit 1 5 0 true [1]) false = false ∧ flitBad (flit 0 0 0 true []) false = false :=
  ⟨flit_good (by decide) .., flit_good (by decide) .., flit_good (by decide) .., flit_good (by decide) ..⟩

/-- 14 Table 14.1: CRC-32 of the letter a, its published value. -/
theorem test_crc32 : crc32 [0x61] = 0xE8B7BE43 := by decide +kernel

def header (dst : ChanId) (type hops : Byte) : MsgHdr :=
  { src := 1, dst := dst, type := type, order := 0, rsem := 0, rsig := false, noroute := false, desc := 0x1000, length := 4
    offs := 0, rinc := 0, hops := hops
    put := some { agree := [2, 0, 0, 0, 1, 1], layout := [], serial := 0, total := 1 } }
/-- A complete message of one fragment. -/
def message (h : MsgHdr) (body : List Byte) : OpenMsg :=
  { vc := 0, msgid := 1, bytes := hdrBytes h ++ body, frags := 1, complete := true, put := h.put }

/-- A channel whose port 0 holds one message, with a route to channel 2 by port 1. -/
def messageChan (m : OpenMsg) (x : PortState) : Channel :=
  let c := (portChan { linkUp with open_ := [m] }).modPort 1 fun _ => x
  { c with
    mem := fields (matrix 0x1000 0x20000 0 1 1)
    boot := { c.boot with cfg := { routes := [⟨2, 1, 0, false⟩] } } }

/-- The message of a put, a share, a reduction message whose collective does not run here and one whose does. -/
theorem witness_messages :
    let put := message (header 0 1 0) [1, 2, 3, 4]
    let share := message (header 0 2 0) [0, 0, 0, 0]
    let red := message { header 0 3 0 with length := 32 } (redBody (redMsg 1 0x100 []))
    let c := messageChan put linkUp
    let k : Collective :=
      { src := .queue 128, opc := 0x40, rid := 0, group := 0x100, step := 0, leaves := [0, 1], root := 0, adds := [], up := none }
    let running : Channel := { messageChan red linkUp with colls := [k], running := [run 128 {}] }
    put.hdr = header 0 1 0 ∧ put.complete = true ∧ put.halted = none ∧ put.hdr.dst = c.chid ∧
    c.ports[(0 : Port)].findOpen 0 1 = some put ∧ c.ports[(0 : Port)].turn put = true ∧
    (match (c.modPort 0 fun y => (y.dropOpen put).idle 4).landed.putWrite put.hdr [1, 2, 3, 4] with
      | .ok d => d.poisonHit.isNone | .error _ => false) = true ∧
    share.hdr.type = 2 ∧ fld ((share.bytes.drop 32).take 4) 0 1 = 0 ∧ red.hdr.type = 3 ∧
    c.collOf (redParse 1 ((red.bytes.drop 32).take 32)) = none ∧
    (running.collOf (redParse 1 ((red.bytes.drop 32).take 32))).isSome = true := by decide +kernel

/-- A message to forward by its main port, one of the second fold by the alternate one, one that has gone too far, one
whose port cannot send. -/
theorem witness_forward :
    let far := message (header 2 1 14) [1, 2, 3, 4]
    let c := messageChan far linkUp
    let dual := redBody { redMsg 1 0x100 [] with path := true }
    far.complete = true ∧ far.hdr = header 2 1 14 ∧ far.hdr.dst ≠ c.chid ∧ c.ports[(0 : Port)].turn far = true ∧
    far.hdr.hops ≠ 15 ∧ c.route 2 = some ⟨2, 1, 0, false⟩ ∧ c.altFor far.hdr (far.bytes.drop 32) = false ∧
    c.altFor (header 2 3 0) dual = true ∧ c.ports[(1 : Port)].sendable = true ∧ (1 : Port) ≠ 0 ∧
    (messageChan far {}).ports[(1 : Port)].sendable = false ∧ (message (header 2 1 15) []).hdr.hops = 15 ∧
    c.route 9 = none := by decide +kernel

theorem witness_stall :
    let m : OpenMsg := { message (header 0 1 0) [1] with complete := false }
    let x : PortState := { linkUp with open_ := [m] }
    x.findOpen 0 1 = some m ∧ m.complete = false ∧ linkUp.findOpen 0 1 = none ∧ (flit 1 0 3 true [1]).frag ≠ 0 ∧
    linkUp.st = .up ∧ (flit 1 0 3 true [1]).seq = linkUp.rxSeq := by
  decide +kernel
theorem witness_late : flitBad (flit 1 0 3 true [1]) false = false := flit_good (by decide) ..

/-- A copy to another channel waits for one message, or for two; its message is found by its header and by its place on
the port; in a rollback and not. -/
theorem witness_acknowledgements :
    let h := { header 2 1 0 with src := 0 }
    let e : InFlight := { msg := ⟨h, [1, 2, 3, 4]⟩, port := 0, vc := 3, msgid := 0, owner := some (.queue 8) }
    let r (n : Nat) : Running := { run 8 (cmd 0x35 []) with held := some {}, unacked := n }
    let c : Channel := { portChan { linkUp with inFlight := [e] } with running := [r 1] }
    let by_ (f : InFlight → Bool) : Bool := match c.popFlight f with
      | some (g, d) => g == e && ((d.takeMsg 7).sendOn g.port g.vc g.msg (some (.queue 8)) none).isSome | none => false
    by_ (fun e => hdrSame e.msg.hdr h) = true ∧ by_ (fun e => e.port == 0 && e.vc == 3 && e.msgid == 0) = true ∧
    e.share = none ∧ c.up = true ∧ h.type ≠ 5 ∧ c.findRun (.queue 8) = some (r 1) ∧ (r 1).result = none ∧
    (r 2).unacked = 2 ∧ c.stp.st ≠ .rollback ∧ ({ c with stp := { st := .rollback } } : Channel).stp.st = .rollback := by
  decide +kernel

theorem witness_links :
    let t : PortState := { linkUp with st := .training }
    let x : PortState := { linkUp with replayBuf := [flit 1 0 0 true [1]], txSeq := 1 }
    let nack : Flit := { flit 0 0 0 true [] with nack := true }
    (portChan t).up = true ∧ t.mode = .polvor ∧ t.trained = false ∧ ({ t with trained := true, mode := .ethernet } : PortState).st = .training ∧
    (2 : ChanId) ≠ t.peerChan ∧ (1 : Port).val ≠ t.peerPort.toNat ∧ (0 : Port).val = t.peerPort.toNat ∧
    t.txq = [[], [], [], []] ∧ x.replayBuf ≠ [] ∧ x.replays < 16 ∧
    16 ≤ ({ x with replays := 16 } : PortState).replays ∧ ({ linkUp with st := .down } : PortState).st = .down ∧
    ({ linkUp with st := .down } : PortState).txq = [[], [], [], []] ∧ linkUp.cred.length = 4 ∧
    ({ t with trained := true } : PortState).trained = true ∧
    (x.takeHeader nack).replayBuf ≠ [] ∧ (x.takeHeader nack).replays < 16 := by decide +kernel
/-- A flit with NACK whose check sequence is right. -/
theorem witness_nack : ∃ f : Flit, f.nack = true ∧ f.kind = 0 ∧ flitBad f false = false :=
  ⟨{ ({ flit 0 0 0 true [] with nack := true } : Flit) with crc := crc32 (flitBytes { flit 0 0 0 true [] with nack := true }) },
    rfl, rfl, by simp [flitBad, flit, flitBytes]⟩

/-- A command ends with the message in flight on a port that goes down. -/
theorem witness_port_down :
    let e : InFlight := { msg := ⟨header 2 1 0, []⟩, port := 0, vc := 3, msgid := 0, owner := some (.queue 8) }
    let x : PortState := { linkUp with inFlight := [e] }
    e ∈ x.inFlight ∧ ({ portChan x with running := [run 8 {}] } : Channel).findRun (.queue 8) = some (run 8 {}) := by
  decide +kernel

/-- A stream of the root, channel 0, with a child that owes an acknowledgement and another that does not. -/
theorem witness_multicast :
    let m := redMsg 0 0x100 []
    let id : StreamId := ⟨0, 0, false, 0x40, 0x100, 0⟩
    let y : Stream := { id := id, children := [1, 2], msgs := [m], sent := [1, 1], acked := [0, 1] }
    let k : Collective :=
      { src := .queue 128, opc := 0x40, rid := 0, group := 0x100, step := 0, leaves := [0, 1, 2], root := 0, adds := [], up := none }
    let h : MsgHdr := { header 1 5 0 with src := 0 }
    let e : InFlight := { msg := ⟨h, redBody m⟩, port := 0, vc := 1, msgid := 0 }
    let c : Channel := { portChan { linkUp with inFlight := [e] } with streams := [y], colls := [k], running := [run 128 {}] }
    c.isFrozen (.engine .confluence) = false ∧ c.stream id = some y ∧ (y.live.find? (fun p => p.2 == 1)) = some (0, 1) ∧
    ((c.popFlight (isMcTo id 1)).map (·.1)) = some e ∧ y.acked.getD 0 0 < y.sent.getD 0 0 ∧ c.collOfStream id = some k ∧
    id.root = c.chid ∧ (1 : ChanId) ∉ y.fetch ∧ (∀ p ∈ y.live, y.sent.getD p.1 0 ≤ y.slowest + 3) := by decide +kernel

/-- At the root: a child that was dropped and asks for the rest, with a port to it that sends; no message of the stream is
in flight to it. -/
theorem witness_mfetch :
    let m := redMsg 0 0x100 []
    let id : StreamId := ⟨0, 0, false, 0x40, 0x100, 0⟩
    let y : Stream := { id := id, children := [2, 3], msgs := [m, m], sent := [2, 1], acked := [2, 0], dropped := [3, 2] }
    let c : Channel := { messageChan (message (header 0 1 0) []) linkUp with streams := [y] }
    c.up = true ∧ c.isFrozen (.engine .confluence) = false ∧ c.stream id = some y ∧ id.root = c.chid ∧
    (2 : ChanId) ∈ y.dropped ∧ (2 : ChanId) ∉ y.fetch ∧ c.route 2 = some ⟨2, 1, 0, false⟩ ∧ id.path = false ∧
    c.ports[(1 : Port)].sendable = true ∧ (c.popFlight (isMcTo id 2)).isNone = true ∧
    ({ y with dropped := [] } : Stream).live.find? (fun p => p.2 == 2) = some (0, 2) := by decide +kernel

/-- A frame that names VLAN type and nothing else, one in UDP, an ARP request, and one that is neither (the layouts of
the model, log 31). -/
def etherPort : PortState := { mode := .ethernet, st := .up, ethMac := 0x020000000001, ethIp4 := 0x0A000001, udp := 0x1234 }
def etherHead (dst type : Nat) : List Byte := (toBytes 6 dst).reverse ++ [2, 0, 0, 0, 0, 9] ++ (toBytes 2 type).reverse
def udpFrame : List Byte :=
  etherHead 0x020000000001 0x0800 ++ [0x45, 0, 0, 46, 0, 0, 0, 0, 64, 17, 0, 0, 10, 0, 0, 9, 10, 0, 0, 1, 0, 9, 0x12, 0x34, 0, 26, 0, 0] ++
    List.replicate 18 0
def arpFrame : List Byte :=
  etherHead 0xFFFFFFFFFFFF 0x0806 ++ [0, 1, 8, 0, 6, 4, 0, 1, 2, 0, 0, 0, 0, 9, 10, 0, 0, 9, 0, 0, 0, 0, 0, 0, 10, 0, 0, 1] ++
    List.replicate 18 0

/-- Whether a frame that the port takes is UDP to it, or an ARP request for it. -/
def ethKind (b : List Byte) : Option (Bool × Bool) := (etherPort.untag b).map fun b => (etherPort.udpOk b, etherPort.arpOk b)

theorem witness_frames :
    (portChan etherPort).up = true ∧ udpFrame.length = 60 ∧ ethKind udpFrame = some (true, false) ∧
    (beFld udpFrame 0 6 == etherPort.ethMac.toNat) = true ∧ arpFrame.length = 60 ∧ ethKind arpFrame = some (false, true) ∧
    (beFld arpFrame 0 6 == 0xFFFFFFFFFFFF) = true ∧
    ethKind (etherHead 0 0x86DD ++ List.replicate 46 0) = some (false, false) ∧
    ethKind (etherHead 0 0x8100 ++ List.replicate 46 0) = none := by
  decide +kernel

/-- Window 0 of port 0: 64 KiB at 0x100000, for every source. -/
def window : Window := { base := 0x100000, size := 0x10000, rd := true, wr := true }
def ingestPort : PortState := { etherPort with wins := etherPort.wins.set 0 window }

theorem witness_ingest :
    let w : Window := { window with wr := false }
    let m : IngestMsg := ⟨0, 7, [(0, 64, [5])], none⟩
    (portChan ingestPort).up = true ∧ ingestPort.mode = .ethernet ∧ ingestPort.st = .up ∧
    dgWindow (datagram 1 1 0 64 [5]) ingestPort = window ∧ window.admits 1 = true ∧ w.admits 1 = true ∧ w.wr = false ∧
    window.wr = true ∧ window.rd = true ∧ dgOk (datagram 1 1 0 64 [5]) = true ∧
    dgOk (datagram 1 0 0 64 (List.replicate 64 5)) = true ∧ dgOk { datagram 4 0 0 64 [] with len := 100 } = true ∧
    (7 : W32) ∉ window.done ∧ ingestPort.ingest.find? (fun m => m.key (datagram 1 1 0 64 [5])) = none ∧
    ingestPort.ingest.length < 16 ∧ 64 + 100 ≤ window.size.toNat ∧ (portChan ingestPort).stopped 0x100040 100 = false ∧
    (portChan ingestPort).badIn 0x100040 100 false = none ∧
    ({ ingestPort with ingest := [m] } : PortState).ingest = [m] ∧ m.win = Fin.val (0 : Fin 16) := by decide +kernel
/-- A datagram whose check is another than its sum. -/
theorem witness_ingest_bad : ∃ d : Datagram, d.type = 1 ∧ d.check ≠ dgSum d :=
  ⟨{ datagram 1 1 0 64 [5] with check := dgSum (datagram 1 1 0 64 [5]) + 1 }, rfl, by
    simp [datagram, dgSum, dgHead]⟩
theorem witness_ingest_check : (datagram 1 1 0 64 [5]).check = dgSum (datagram 1 1 0 64 [5]) := by
  simp only [datagram, dgSum, dgHead]

/-- Channels 0 and 1 of a reduction that runs here, and one whose key runs nowhere. -/
theorem witness_collectives :
    let m := redMsg 1 0x100 []
    let k : Collective :=
      { src := .queue 128, opc := 0x40, rid := 0, group := 0x100, step := 0, leaves := [0, 1], root := 0, adds := [(1, false)]
        up := none, skew := [3] }
    let r := run 128 (cmd 0x40 [0x1000, 0x1080, 0x2000])
    let c : Channel := { busy reduceMem r with colls := [k] }
    let c5 := (c.landed.takeMsg 5).rxCount m
    c.up = true ∧ c.isFrozen (.engine .confluence) = false ∧ c.collOf m = some k ∧ chan.collOf m = none ∧
    (((c.landed.takeMsg 3).rxCount m).ctxOf k).isSome = true ∧
    (match c5.ctxOf k with | some x => (x.reach c5 m.bucket.toNat m.first.toNat m.sbs.length).isOk | none => false) = true ∧
    c.coll (.queue 128) = some k ∧ c.findRun (.queue 128) = some r ∧ r.result = none ∧ (3 : Core) ∈ k.skew := by decide +kernel

theorem witness_fold : ([0, 3, 8] : List ChanId) ≠ [] := by decide

/-! ### Training and recovery -/

/-- A plan of one stage and two micro-batches at 0x8000, its segments empty but the backward ones of queue 0. -/
def planMem : Mem :=
  fields ([(0x8000, 2, 1), (0x8004, 4, 2), (0x8008, 6, 0x9000), (0x8010, 6, 0x100000), (0x8018, 4, 64), (0x801C, 4, 64),
    (0x8020, 2, 1), (0x8022, 2, 1), (0x8024, 2, 2), (0x8034, 4, 8)] ++
    ((List.range 9).flatMap fun i => [(0x9000 + 32 * i, 6, 0xA000), (0x9000 + 32 * i + 8, 4, 1), (0x9000 + 32 * i + 28, 4, 0xFFFFFFFF)]))
def plan : Plan := Plan.parse (Mem.read 0 planMem 0x8000 64)
/-- Channel 0 with that plan, in training. -/
def trainChan (x : StpSt) (a : Attempt) : Channel :=
  { chan with
    mem := planMem
    boot := { chan.boot with cfg := { hasMembership := true } }
    stp := { st := x, planBase := 0x8000, plan := some plan, att := a } }

/-- Memory of these channels is sound. -/
theorem witness_sound (x : StpSt) (a : Attempt) : (trainChan x a).sound :=
  ⟨rfl, show ∀ i : Stack, ({} : Channel).stk[i].overtemp = false by decide⟩

theorem witness_training_start :
    let c := trainChan .idle {}
    (st c).hostOk 0 = true ∧ (enabledBits (wr 1) 4).testBit 0 = true ∧ c.planOk plan = true ∧
    ({ c with boot := chan.boot } : Channel).planOk plan = false ∧ (trainChan .done {}).planOk plan = true ∧
    (trainChan .running {}).stp.st ≠ .idle := by decide +kernel

/-- The first micro-batch may be admitted full; the second finds the one full entry taken. Rings with room and without. -/
theorem witness_segments :
    let c := trainChan .running {}
    let d := trainChan .running { variants := [true], fwdIssued := 1 }
    let e := trainChan .running { variants := [true] }
    let full : Queue := { enable := true, pi := 64 }
    c.issuing = true ∧ c.stp.att.variants.length = 0 ∧ 0 < plan.mb ∧ 0 < plan.lag ∧ 0 < plan.c ∧
    d.stp.att.fwdIssued = 1 ∧ 1 < plan.lag ∧ plan.c ≤ ((d.stp.att.variants.drop (1 + 1 - plan.lag)).filter id).length ∧ plan.cr ≠ 0 ∧
    e.stp.att.variants[0]? = some true ∧ (e.entryOf 0 true plan.c).2 = true ∧
    (match e.segments plan 0 with | some ss => e.roomFor ss && !(e.modQ 0 fun _ => full).roomFor ss | none => false) = true ∧
    (match e.segments plan 2 with | some ss => e.roomFor ss | none => false) = true := by decide +kernel

theorem witness_step_end :
    let c := trainChan .running { bwdIssued := 2 }
    let d := trainChan .gated { updIssued := true, stripesOwed := [0] }
    (match c.segments plan (4 * plan.mb) with | some ss => c.roomFor ss | none => false) = true ∧ c.backwardDone plan = true ∧
    (∀ h ∈ c.regions, (c.reductionOf h).isSome = true) ∧ d.updCommandsDone = true ∧ d.stp.att.stripesOwed.contains 0 = true ∧
    (0 + 1) % 2 = 1 ∧ (trainChan .gated { updIssued := true }).updCommandsDone = true := by decide +kernel

/-- Three positions: a unit whose parities both lie elsewhere, one whose P lies here, one whose Q does. -/
theorem witness_stripes :
    let a : Attempt := { updIssued := true, stripesOwed := [0, 1, 2] }
    let c : Channel := { trainChan .gated a with flt := { g := 3, stripeLen := 0x30000 } }
    c.up = true ∧ c.updCommandsDone = true ∧ (∀ j ∈ [0, 1, 2], a.stripesOwed.contains j = true) ∧ 1 ≤ c.flt.g.toNat ∧
    2 ≤ c.flt.g.toNat ∧ (1 % 3 ≠ c.flt.pos.toNat ∧ (1 + 1) % 3 ≠ c.flt.pos.toNat) ∧ 0 % 3 = c.flt.pos.toNat ∧
    (2 + 1) % 3 = c.flt.pos.toNat ∧ stripeUnit * 2 < c.flt.stripeLen.toNat ∧ ({ updIssued := true } : Attempt).stripesSent = [] ∧
    c.flt.fault = false ∧ a.reported = false ∧ ({ nf := true } : Attempt).updIssued = false := by decide +kernel
theorem witness_stripes_sound : ({ trainChan .gated {} with flt := { g := 3, stripeLen := 0x30000 } } : Channel).sound :=
  ⟨rfl, show ∀ i : Stack, ({} : Channel).stk[i].overtemp = false by decide⟩

/-- 10 R232: with one full entry the second of two forward segments recomputes. -/
theorem test_recompute :
    (forwardAdmission (trainChan .running { variants := [true], fwdIssued := 1 })).stp.att.variants = [true, false] := by
  decide +kernel

def report (nf bad : Bool) (x : ChanId) : Report := { step := 0, ver := 0, nf := nf, bad := bad, recomp := false, chan := x }
def token (k : TokKind) (ver : W32) : Token := { ver := ver, step := 0, kind := k, lsexp := 16, dls := 0, mepoch := 0, batch := 0 }
/-- Channel 0 acts as the manager of one module, in training. -/
def mgrChan (m : Mgr) : Channel :=
  let c := trainChan .running {}
  { c with flt := { c.flt with drift := m, members := ⟨[0], [], [], 0⟩ } }

theorem witness_decisions :
    let m : Mgr := { acting := true }
    let f : Channel := { chan with flt := { chan.flt with field := m, members := ⟨[], [1], [], 0⟩ } }
    (mgrChan m).authority = some .drift ∧ (mgrChan m).oneDrift = true ∧
    (report false false 1).step = (mgrChan m).expect m ∧ (mgrChan m).nmon.step = (mgrChan m).expect m ∧
    (mgrChan m).training = true ∧ (mgrChan m).stp.st ≠ .starting ∧ m.decided = false ∧ m.standbyAcked = true ∧
    ({ m with standbyAcked := false } : Mgr).standbyAcked = false ∧
    f.authority ≠ some .field ∧ f.directMembers .field = [1] ∧ m.forwarded = false ∧ (report false false 1).chan = 1 ∧
    (report false false 1).step = f.expect m ∧
    (mgrChan { m with faultSeen := true }).verdict .drift = some .rollback ∧
    (mgrChan { m with reports := [report true false 1] }).verdict .drift = some .skip ∧
    (mgrChan { m with reports := [report true true 1] }).verdict .drift = some .rollback ∧
    (mgrChan { m with reports := [report false false 1] }).verdict .drift = none ∧
    (mgrChan { m with reports := (List.range 8).map fun i => report false false (BitVec.ofNat 16 i) }).verdict .drift = some .commit ∧
    (mgrChan { m with decision := some (token .commit 1, ⟨[], [], [], 0⟩) }).authority = some .drift ∧
    ({ m with decision := some (token .commit 1, ⟨[], [], [], 0⟩) } : Mgr).decision.isSome = true ∧
    ({ m with acting := false, standby := true } : Mgr).standby = true := by decide +kernel

/-- n3 frozen; a commit that would leave no module, and one that leaves one. -/
theorem witness_decisions_bounds :
    let m : Mgr := { acting := true, removals := [0] }
    let rs := (List.range 8).map fun i => report false false (BitVec.ofNat 16 i)
    ({ mgrChan m with frz := { frozen := [.nunatak 3] } } : Channel).isFrozen (.nunatak 3) = true ∧
    (mgrChan m).isFrozen (.nunatak 3) = false ∧ (mgrChan { m with reports := rs }).verdict .drift = some .commit ∧
    noneLeft ((mgrChan m).shrunk [0]) = true ∧ noneLeft ((mgrChan m).shrunk []) = false ∧
    ({ chan := 3, live := true } : MemberEntry).chan ∈ [(3 : ChanId)] := by decide +kernel

/-- 10 R237: the skip that makes SKIPMAX of them in a row is a HALT. -/
theorem test_halt :
    let c := mgrChan { acting := true, reports := [report true false 1] }
    ({ c with stp := { c.stp with skips := 30 } } : Channel).verdict .drift = some .skip ∧
    ({ c with stp := { c.stp with skips := 31 } } : Channel).verdict .drift = some .halt := by decide +kernel

/-- Channel 0 in training with one region listed, and the region's step of an update on stack 0. -/
def regionChan (x : StpSt) (a : Attempt) : Channel :=
  let c := trainChan x a
  { c with mem := fields [(0x7000, 8, 0x2000 + 2 ^ 48)], abl := { c.abl with regBase := 0x7000, regCount := 1 } }

/-- Newer and no newer tokens, no update and one on a listed region, a stack that serves and one that is stopped. -/
theorem witness_commit :
    let c := regionChan .running {}
    let u : Channel := { c with running := [run 136 (cmd 0x50 [0, 0x2000])] }
    let hot : Channel := { c with stk := c.stk.set 0 { c.stk[(0 : Stack)] with overtemp := true } }
    let stop (c : Channel) : Bool := c.tokenRanges.any fun r => c.stopped r.1 r.2
    c.up = true ∧ c.training = true ∧ c.stp.st ≠ .starting ∧ c.stp.st ≠ .rollback ∧ c.newer (token .commit 1) = true ∧
    c.newer (token .commit 0) = false ∧ c.updating = false ∧ u.updating = true ∧ stop c = false ∧ stop hot = true ∧
    ({ c with abl := { c.abl with heldTok := some (token .commit 1, ⟨[], [], [], 0⟩) } } : Channel).newer (token .commit 1) = true ∧
    ({ c with gov := { c.gov with voteOwed := true } } : Channel).gov.voteOwed = true ∧ c.stp.plan.isSome = true := by
  decide +kernel

/-- What Adori reads as it applies a token is sound; no ab.freeze of its own runs, and every stack serves. -/
theorem witness_applied :
    let c := regionChan .running {}
    (c.adoriRead c.tokenRanges).flt.fault = false ∧ c.refreezing = false ∧ (∀ i : Stack, c.stk[i].overtemp = false) ∧
    c.flt.fault = false := by decide +kernel

/-- The channel as SKIP or HALT leaves it to wait, and whether its stacks serve what the token reads. -/
def skipped (c : Channel) (t : Token) : Channel :=
  (List.range (plan.mb + 1)).foldl (fun c _ => segmentIssue c .bwd)
    { (c.takeMsg 4).relay t c.flt.members with stp := { c.stp with st := .applying, skipPending := some t } }
def served (c : Channel) : Bool := !c.tokenRanges.any fun r => c.stopped r.1 r.2

theorem witness_tokens :
    let c := trainChan .running {}
    let t := token .skip 0
    c.up = true ∧ t.step = c.nmon.step ∧ c.newer t = false ∧ c.training = true ∧ c.stp.plan = some plan ∧
    (skipped (trainChan .running { bwdIssued := 2 }) t).backwardDone plan = true ∧
    served (skipped (trainChan .running { bwdIssued := 2 }) t) = true ∧ (skipped c t).backwardDone plan = false ∧
    (token .halt 0).kind = .halt ∧ (trainChan .starting {}).stp.st = .starting ∧
    ({ trainChan .rollback {} with flt := { ready := true } } : Channel).flt.ready = true ∧
    c.outside ⟨[0], [], [], 0⟩ = false ∧ c.outside ⟨[1], [], [], 0⟩ = true ∧ (trainChan .rollback {}).training = true ∧
    c.flt.fault = false := by
  decide +kernel

/-- 10 R154: 1 has place 0; 3 · 2^39 has place 40 and 0x80 below it. -/
theorem test_lg : lgNorm 0 = none ∧ lgNorm 1 = some (-10240) ∧ lgNorm (3 * 2 ^ 39) = some 128 := by decide +kernel

theorem witness_norm_log : 2 ^ 40 ≤ 3 * 2 ^ 39 ∧ 3 * 2 ^ 39 < 2 ^ 41 ∧ 128 = 3 * 2 ^ 39 * 2 ^ 8 / 2 ^ 40 % 2 ^ 8 := by decide

def beat (x : ChanId) (mgen : W32) (fault : Bool) : Heartbeat :=
  { chan.heartbeat with chan := x, mgen := mgen, fault := fault, lasting := fault }
/-- A table of two channels, the second on another module. -/
def twoMembers : List MemberEntry := [{ chan := 1, live := true }, { chan := 8, live := true }]

theorem witness_heartbeats :
    (trainChan .running {}).training = true ∧ chan.training = false ∧ (mgrChan { acting := true, table := twoMembers }).up = true ∧
    ({ chan := 1, live := true } : MemberEntry) ∈ twoMembers ∧ (beat 1 0 true).strag = 0 ∧ chan.authority ≠ some .field ∧
    (beat 1 0 false).mgen.toNat < ({ chan with flt := { mgen := 1 } } : Channel).flt.mgen.toNat ∧
    chan.flt.mgen.toNat < (beat 1 2 false).mgen.toNat ∧ (beat 1 0 false).mgen = chan.flt.mgen ∧
    (trainChan .running {}).stp.skipPending = none ∧ chan.flt.drift.acting = false ∧ chan.flt.field.standby = false ∧
    chan.flt.drift.standby = false := by decide +kernel

/-- A drift manager of a system of two drifts, whose field manager is channel 9. -/
def lowerMgr : Channel :=
  let c := mgrChan { acting := true, table := twoMembers }
  { c with
    boot := { c.boot with cfg := { c.boot.cfg with ident := { c.boot.cfg.ident with pfm := 9, sfm := 10 } } }
    flt := { c.flt with members := { c.flt.members with driftManagers := [0, 9], fieldManagers := [9] } } }

/-- The manager of the field listed second, whose first field's manager is channel 17. -/
def secondField : Channel :=
  { lowerMgr with
    boot := { lowerMgr.boot with cfg := { lowerMgr.boot.cfg with ident := { lowerMgr.boot.cfg.ident with pfm := 0, sfm := 10 } } }
    flt := { lowerMgr.flt with field := { acting := true }, members := { lowerMgr.flt.members with fieldManagers := [17, 0] } } }

/-- Replies of every level, of a lower, the same and a higher generation, that name a standby, no group, failures. -/
theorem witness_replies :
    lowerMgr.up = true ∧ chan.replyFrom 1 = .level .drift ∧ lowerMgr.replyFrom 9 = .level .field ∧ secondField.replyFrom 17 = .top ∧
    secondField.above .field = 17 ∧ lowerMgr.flt.field.acting = false ∧ (beat 17 2 false).mgen.toNat > (secondField.genOf .top).toNat ∧
    (beat 9 2 false).mgen.toNat > (lowerMgr.gen .field).toNat ∧ (beat 1 0 false).mgen = chan.genOf (chan.replyFrom 1) ∧
    chan.managerOf .drift = 0 ∧
    (beat 1 0 false).about = none ∧ (beat 1 0 false).standby = none ∧ (beat 1 0 false).nogroup = false ∧
    ({ beat 1 0 false with standby := some 8, nogroup := true } : Heartbeat).standby = some 8 ∧
    (trainChan .rollback {}).stp.st = .rollback ∧ (trainChan .running {}).inTraining = true ∧ chan.inTraining = false ∧
    (trainChan .running {}).stp.startOwed = false ∧ (trainChan .running {}).flt.retired = false ∧
    (2 : ChanId) ∈ ({ beat 1 0 false with failed := [2] } : Heartbeat).failed ∧ lowerMgr.authority ≠ some .drift ∧
    ({ chan with frz := { frozen := [.nunatak 3] } } : Channel).isFrozen (.nunatak 3) = true := by decide +kernel

/-- A reply from channel 2 with the FAULT of a channel fault ends a reduction that has it among its leaves (15 R350). -/
theorem witness_leaf_failed :
    let k : Collective :=
      { src := .queue 128, opc := 0x40, rid := 1, group := 0, step := 0, leaves := [1, 2], root := 1, adds := [], up := none }
    let r := run 128 {}
    let c : Channel := { chan with colls := [k], running := [r] }
    (beat 2 0 true).mgen = c.flt.mgen ∧ (2 : ChanId) ∈ k.leaves ∧ c.findRun k.src = some r ∧ r.result = none ∧
    ((Wk.leafFailed { ch := 1, c := c, ctr := 0 } (beat 2 0 true)).c.findRun k.src).bind (fun x => x.result.map (·.status)) = some 0x17 ∧
    ((Wk.leafFailed { ch := 1, c := c, ctr := 0 } (beat 3 0 true)).c.findRun k.src) = some r := by decide +kernel

theorem witness_managers :
    let half : List MemberEntry := [{ chan := 1 }, { chan := 8, failed := true }]
    let m : Mgr := { acting := true, standbyChan := some 8, table := twoMembers }
    ({ chan := 8, live := true } : MemberEntry) ∈ twoMembers ∧ ({ chan := 8 } : MemberEntry).failed = false ∧
    ({ table := half } : Mgr).majority = false ∧ ({ table := twoMembers } : Mgr).majority = true ∧
    modOf 8 ≠ modOf chan.chid ∧ chan.leaving ([] ++ ({ table := twoMembers } : Mgr).faulted) (modOf 8) = false ∧
    modOf 1 = modOf chan.chid ∧ (mgrChan { acting := true, recovering := true }).authority = some .drift ∧
    ({ acting := true, recovering := true } : Mgr).standbyChan = none ∧
    (m.acting = true ∧ m.standbyChan = some 8 ∧ m.standbyChan ≠ some 9) ∧
    ({ chan with flt := { chan.flt with field := m } } : Channel).authority ≠ some .field ∧
    ({ acting := false, standby := true, table := twoMembers } : Mgr).standby = true := by decide +kernel

/-- The second of two members is the first that stays; none stays; a standby named, and one that waits for START. -/
theorem witness_new_standby :
    let stays (z : MemberEntry) : Bool := z.live && !z.failed && modOf z.chan != modOf chan.chid && !chan.leaving [] (modOf z.chan)
    let m : Mgr := { acting := true, recovering := true, standbyChan := some 8, faultHbtmo := true, decided := true
                     table := [{ chan := 8, live := true, ready := true }] }
    let c := mgrChan m
    let rem := (m.removals ++ m.faulted).dedup
    twoMembers = [{ chan := 1, live := true }] ++ { chan := 8, live := true } :: [] ∧
    (∀ z ∈ [({ chan := 1, live := true } : MemberEntry)], stays z = false) ∧ stays { chan := 8, live := true } = true ∧
    c.authority = some .drift ∧ m.decision = none ∧ noneLeft (c.shrunk rem) = false ∧
    (∀ z ∈ m.table, c.leaving rem (modOf z.chan) = false) ∧ (∀ z ∈ m.table, z.ready = true) ∧ m.standbyAcked = true ∧
    c.isFrozen (.nunatak 3) = false ∧ lowerMgr.authority = none ∧ lowerMgr.flt.drift.decision = none ∧
    ({ standby := true, table := twoMembers } : Mgr).acting = false := by decide +kernel

/-- 16 R367: under 0x11D, 2 times 0x80 is 0x1D. -/
theorem test_field : gfMul 2 0x80 = 0x1D ∧ gfMul 0x80 2 = 0x1D := by decide +kernel

theorem witness_rebuild_solves :
    (∀ u ∈ [((2 : Nat), [(3 : Byte)])], u.1 < 16 ∧ u.2.length = 1) ∧
    xorBytes [1] [3] = [((2, [3]) : Nat × List Byte)].foldl (fun a u => xorBytes a u.2) [(1 : Byte)] := by decide

theorem witness_rebuild :
    ({ chan with flt := { chan.flt with g := 3 } } : Channel).sound := ⟨rfl, by decide⟩
theorem witness_rebuild_units :
    let c : Channel := { chan with flt := { g := 3, lostUnits := [5] } }
    c.flt.g.toNat = 3 ∧ c.flt.pos.toNat = 0 ∧ 0 % 3 = 0 ∧ 4 % 3 ≠ 0 ∧ (4 + 1) % 3 ≠ 0 ∧ c.flt.lostUnits.contains 5 = true ∧
    c.flt.lostUnits.contains 4 = false ∧ c.stp.st ≠ .rollback ∧ (List.replicate stripeUnit (0 : Byte)).length = stripeUnit := by
  refine ⟨by decide, by decide, by decide, by decide, by decide, by decide, by decide, by decide, List.length_replicate⟩

/-- A holder of P of unit 3, one that holds neither parity of unit 1, a channel that has left. -/
theorem witness_rebuild_requests :
    let c : Channel := { chan with flt := { g := 3 } }
    c.up = true ∧ c.flt.retired = false ∧ 2 ≤ c.flt.g.toNat ∧ 3 % 3 = c.flt.pos.toNat ∧ (1 : Nat) ≠ c.flt.pos.toNat ∧
    1 % 3 ≠ c.flt.pos.toNat ∧ (1 + 1) % 3 ≠ c.flt.pos.toNat ∧ ({ c with flt := { g := 3, retired := true } } : Channel).flt.retired = true := by
  decide +kernel

/-! ### Worked values of the spec -/

/-- Line r of 03's worked quantisation: (k − 16) · 0.1875 · 2^−r. -/
def line (r : Nat) : List (Option Val) := (List.range 32).map fun k => some (Num.ofInt false (3 * ((k : Int) - 16)) (-4 - r))

/-- 03, the worked quantisation: lines 0 and 17 as packed, under E = 126. -/
theorem test_quantise :
    (quantBlock .f4 .rne 126 0 (line 0) []).code = 0 ∧
    packElems 4 (quantBlock .f4 .rne 126 0 (line 0) []).bits =
      [0xFF, 0xEF, 0xEE, 0xDE, 0xDD, 0xCC, 0xAB, 0x9A, 0x10, 0x22, 0x43, 0x54, 0x55, 0x66, 0x66, 0x77] ∧
    packElems 4 (quantBlock .f4 .rne 126 13 (line 17) []).bits =
      [0x99, 0x99, 0x99, 0, 0, 0, 0, 0, 0, 0, 0, 0, 0, 0x10, 0x11, 0x11] := by decide +kernel

/-- 03, Table 3.12: line 18 rounds entirely to zero; the ideal exponents of lines 0 and 14 are −1 and −15. -/
theorem test_zero_block :
    (quantBlock .f4 .rne 126 13 (line 18) []).code = 0xF ∧ (quantBlock .f4 .rne 126 13 (line 18) []).zblk = true ∧
    blockExp .f4 (amax ((line 0).filterMap id)) = -1 ∧ blockExp .f4 (amax ((line 14).filterMap id)) = -15 := by decide +kernel

/-- 03: the same element under SR, with r = 0x0F5A and r = 0x20C3. -/
theorem test_stochastic :
    (Fmt.quant .f4 (.sr 8 0x0F5A) true 21 (-2)).bits = 0xE ∧ (Fmt.quant .f4 (.sr 8 0x20C3) true 21 (-2)).bits = 0xF := by
  decide +kernel

/-- 09, the worked update: 131,049 · 2^−17 to B16 under SR of 12 bits. -/
theorem test_update_store :
    (Num.to16 (.sr 12 0x0A3C) (.fin false 131049 (-17))).bits = 0x3F80 ∧
    (Num.to16 (.sr 12 0x70A5) (.fin false 131049 (-17))).bits = 0x3F7F := by decide +kernel

/-- 15, the worked fold: 2^24 + 1 is a tie and goes to 2^24. -/
theorem test_fold_sums :
    Num.fadd 0x3F800000 0x4B800000 = 0x4B800000 ∧ Num.fadd 0xCB800000 0x4B800000 = 0 ∧ Num.fadd 0 0x3F800000 = 0x3F800000 := by
  decide +kernel

/-- 15, the worked fold: module A adds ch0 and ch1, then ch2; the drift folds B, A, C, and C.ch3 holds the sum. -/
theorem test_fold_order :
    match Fold.chain ([1, 0, 2].filterMap fun m => Fold.module m [0, 1, 2, 13, 19]) with
    | some f => f.holder = 19 ∧ f.part 0 = some ([(1, true), (2, true), (13, false)], some 19) ∧
        f.part 13 = some ([], some 0) ∧ f.part 19 = some ([(0, false)], none)
    | none => False := ⟨rfl, by decide, by decide, by decide⟩

/-- 06 Table 6.6: four folds of one tracker entry, the last with the loss scale doubled, and the skipped variant. -/
theorem test_tracker :
    (trkStep 117 (118 + 0x500) true 0 true).1 = 118 ∧ (trkStep 118 (116 + 0x400) true 0 true).1 = 117 ∧
    (trkStep 117 (116 + 0x400) true 0 true).1 = 116 ∧ (trkStep 116 (116 + 0x400) true 1 true).1 = 117 ∧
    (trkStep 116 (116 + 0x400) false (-1) true).1 = 115 := by decide

/-- 06, the worked jump of GNORM: lg 1,680 against 384, then 384 against 465. -/
theorem test_norm_watch :
    nwatch 384 100 (some 1680) 1024 2048 16 = (465, 101, 1) ∧ nwatch 465 101 (some 384) 1024 2048 16 = (459, 102, 0) := by
  decide

/-- 01 Table 1.2: 157 blocks over eight cores. -/
theorem test_share_table : (shares 157 8).map (·.2) = [20, 20, 20, 20, 20, 19, 19, 19] := by decide

/-! ### Power, clocks and heat -/

theorem witness_power :
    let g : Gov := { samples := [4501] }
    let h : Gov := { gmode := 0, samples := [4500] }
    chan.up = true ∧ g.overBudget = true ∧ h.overBudget = false ∧ g.fg.toNat ≤ 88 ∧
    (∀ x ∈ [(({ groups := [10], neve := [20] } : Activity), 88, 24)], x.2.2 ≤ x.2.1) ∧ (chan.gov.cores[(0 : Core)].fails = 0) := by decide +kernel

/-- Modes of the governor; a hot core held down; the onset of the backstop and its end. -/
theorem witness_governor :
    let hot : CorePower := { pll := .hot, hotTj := true }
    let g : Gov := { gmode := 0, samples := [4501], cores := (Vector.replicate 8 {}).set 0 hot }
    ({ chan with gov := { g with gmode := 2 } } : Channel).heldDown = true ∧ chan.heldDown = false ∧ g.backstopActs = false ∧
    ({ g with backstopActs := true } : Gov).overBudget = true ∧ g.cores[(0 : Core)].pll = .hot ∧ g.cores[(1 : Core)].pll ≠ .hot ∧
    g.fg.toNat ≤ 88 ∧ (∀ k : Core, g.cores[k].f.toNat ≤ 88) ∧ (0 : Nat) < 76 ∧ ({ fails := 3 } : CorePower).fails = 3 := by
  decide +kernel

/-- 17 R384: nine readings of 450 W and one of 460 W pass a budget of 450 W. -/
theorem test_budget :
    ({ samples := 4600 :: List.replicate 9 4500 } : Gov).overBudget = true ∧
    ({ samples := List.replicate 10 4500 } : Gov).overBudget = false := by decide

theorem witness_loans :
    let g : Gov := { lent := 100, samples := [5000] }
    State.reset.arbiterUp = true ∧ ({ State.reset with bridge := { State.reset.bridge with modRst := true } } : State).arbiterUp = false ∧
    (g.allow.toNat - g.lent.toNat - 25) * 10 * 1 < 5000 ∧ 3250 ≤ (g.allow.toNat - g.lent.toNat - 25) * 10 * 1 := by decide +kernel

theorem witness_heat :
    let hot : Channel := chan.modStack 0 fun t => { t with temp := 90 }
    let mid : Channel := chan.modStack 0 fun t => { t with temp := 88 }
    let p : CorePower := { pll := .hot }
    let w : Channel := { chan with gov := { chan.gov with cores := chan.gov.cores.set 0 { p with pll := .warm } } }
    90 ≤ hot.stk[(0 : Stack)].temp.toNat ∧ (∀ i : Stack, chan.stk[i].temp.toNat ≤ 87) ∧
    (∀ i : Stack, mid.stk[i].temp.toNat < 90) ∧ 87 < mid.stk[(0 : Stack)].temp.toNat ∧
    p.hotTj = false ∧ 9 ≤ p.tjTicks ∧ ({ p with tjTicks := 3 } : CorePower).tjTicks < 9 ∧ chan.keepsHot 0 = false ∧ chan.keepsA = false ∧
    (busy [] (run 0 {})).keepsHot 0 = true ∧ (busy [] (run 136 { opc := 0x50 })).keepsA = true ∧ w.coldOk 0 = true ∧
    (w.modQ 0 fun x => { x with enable := true }).coldOk 0 = false ∧ w.gov.colddly ≠ 0 := by decide +kernel

/-! ### Pins, resets, flash, boot and trust -/

theorem witness_pins :
    let b := State.reset.bridge
    let off : State := { State.reset with bridge := { b with switchClosed := false, pgood := false, hostUp := false } }
    let trip : State := { off with bridge := { off.bridge with tripLatched := true } }
    let rst : State := { State.reset with bridge := { b with modRst := true, hostUp := false } }
    let perst : State := { State.reset with bridge := { b with perst := true, hostUp := false } }
    State.reset.bridgeOn = true ∧ off.bridgeOn = false ∧ off.powered = false ∧ trip.bridge.tripLatched = true ∧
    rst.powered = true ∧ perst.bridge.perst = true ∧ State.reset.function0 = true ∧ perst.function0 = false ∧
    b.switchClosed = true ∧ b.modRst = false ∧ b.perst = false := by decide +kernel

/-- A core at 115 °C and a stack at 105 °C, and neither. -/
theorem witness_too_hot :
    (st { chan with gov := { chan.gov with cores := chan.gov.cores.set 0 { tj := 115 } } }).tooHot = true ∧
    (st (chan.modStack 0 fun t => { t with temp := 105 })).tooHot = true ∧ State.reset.tooHot = false ∧
    (st (chan.modStack 0 fun t => { t with temp := 104 })).tooHot = false := by decide +kernel

/-- A queue whose records go to host memory. -/
theorem witness_host_return :
    State.reset.bridgeOn = true ∧ State.reset.bridge.perst = false ∧ (st (qChan 0 ready)).chans[(0 : Ch)].up = true ∧
    (qChan 0 ready).queues[(0 : QIdx)].cplLoc = false := by decide +kernel

theorem witness_resets :
    (st chan).function0 = true ∧ (st chan).hostOk 0 = true ∧ (wr 0xA5).enable.getLsbD 0 = true ∧
    (wr 0xA5).value.toNat % 256 = 0xA5 ∧ (wr 3).value.getLsbD 1 = true ∧ (wr 1).value.getLsbD 1 = false ∧
    (st chan).reaches (.channel 0) .mctp = true := by decide +kernel

theorem witness_flash :
    let b : Boot := { life := .held, flown := true }
    let run (op : BitVec 3) (a : BitVec 26) : Boot := { b with flBusy := true, flOp := op, flAt := a }
    (wr 2).value.toNat % 8 = 2 ∧ (wr 2).enable.getLsbD 0 = true ∧ (wr 1).value.getLsbD 1 = false ∧ (st chan).function0 = true ∧
    (run 2 0x80000).flashRefused = false ∧ (run 2 0x80001).flashRefused = true ∧ (run 3 0x80000).flashRefused = false ∧
    (run 3 1).flashRefused = true ∧ (run 1 1).flashRefused = false ∧ 1 + 4096 ≤ flashSize := by
  decide +kernel

/-- A flash command while one runs; a slot that an erase judges anew. -/
theorem witness_flash_busy :
    let b : Boot := { life := .held, flown := true, flBusy := true }
    (wr 2).value.toNat % 8 = 2 ∧ (wr 2).enable.getLsbD 0 = true ∧ b.flBusy = true ∧ slotAt 0x1000000 = [0] ∧
    slotAt 0x2800000 = [1] ∧ slotAt 0x80000 = [2] ∧ slotAt 0xFFFFF = [2] ∧ slotAt 0x100000 = [3] ∧ slotAt 0x180000 = [] ∧ (st { chan with boot := b }).powered = true := by decide +kernel

theorem witness_boot :
    State.reset.bridge.allowKnown.length = 8 ∧ State.reset.chans[(0 : Ch)].boot.fsvn ≤ 64 ∧
    ({ chan with boot := {} } : Channel).boot.cfgBlock 0 = none ∧
    (match ({ chan with boot := {} } : Channel).chooseCfg 0 with | .error k => decide (k = .nocfg) | .ok _ => false) = true := by
  decide +kernel

theorem witness_hss :
    let h : Hss := { next := 64, limit := 64 }
    h.limit < hssAll ∧ ({ trees := 1, next := 32768 - 1024 } : Hss).trees * 32768 ≤ 32768 - 1024 + 1024 ∧
    ({ trees := 1, next := 10 } : Hss).next + 1024 < 32768 ∧ (({ next := 5, limit := 64, trees := 1 } : Hss).index []).1 = some 5 ∧
    (({ off := true } : Hss).index []).1 = none := by decide +kernel

/-- The next index begins a tree that is not yet there; a record is due; trees enough. -/
theorem witness_hss_trees :
    let h : Hss := { next := 32768, limit := 32768, trees := 1 }
    h.next ≤ h.limit ∧ h.off = false ∧ h.trees ≤ h.next / 32768 ∧ (h.index []).1 = some 32768 ∧ (h.index []).2.1.trees = 2 ∧
    ({ next := 5, limit := 64, trees := 1 } : Hss).next / 32768 < 1 ∧ h.trees * 32768 ≤ h.next + 1024 := by decide +kernel

theorem witness_responders :
    (st chan).reaches .bridge .mctp = true ∧ (st chan).reaches (.channel 0) .doe = true ∧ (st chan).reaches (.channel 1) .doe = false ∧
    (st chan).spdm .bridge .doe = {} ∧ (0 : Byte) ≠ 255 := by decide +kernel

/-- A signed answer before, with an index of HSS left and with none, and one that HSS has signed. -/
theorem witness_vendor :
    let s := State.reset.setSpdm .bridge .mctp { lastSigned := some [1] }
    s.reaches .bridge .mctp = true ∧ s.spdm .bridge .mctp = { lastSigned := some [1] } ∧
    (s.hss .bridge).1.off = false ∧ ((s.hss .bridge).1.index (s.hss .bridge).2).1.isSome = true ∧
    (({ off := true } : Hss).index []).1.isNone = true ∧ (State.reset.spdm .bridge .mctp).lastSigned = none ∧
    (State.reset.setSpdm .bridge .mctp { lastSigned := some [1], hssFor := some [2] }).spdm .bridge .mctp =
      { lastSigned := some [1], hssFor := some [2] } := by decide +kernel

theorem witness_mailbox :
    let req (xs : List (Nat × Nat × Nat)) : Boot := { chan.boot with mbxReq := fields xs, cfg := { raw := List.replicate 64 0 } }
    (st chan).hostOk 0 = true ∧ (enabledBits (wr 1) 4).testBit 0 = true ∧ (enabledBits (wr 0) 4).testBit 0 = false ∧
    (req [(0, 1, 1)]).mbxCodeOf = 1 ∧ (req [(0, 1, 3)]).mbxCodeOf = 3 ∧ (req [(0, 1, 4)]).mbxCodeOf = 4 ∧ (req []).mbxCodeOf = 0 ∧
    (req [(0, 1, 2), (4, 4, 16), (8, 4, 8)]).mbxCodeOf = 2 ∧
    fld (Mem.read 0 (req [(0, 1, 2), (4, 4, 16), (8, 4, 8)]).mbxReq 0 12) 4 4 = 16 ∧
    fld (Mem.read 0 (req [(0, 1, 2), (4, 4, 16), (8, 4, 8)]).mbxReq 0 12) 8 4 = 8 := by decide +kernel

theorem witness_pldm :
    chan.statePair = (st chan).lastEvent 0 ∧
    ({ chan with boot := { chan.boot with cause := .wdog } } : Channel).statePair ≠ (st chan).lastEvent 0 ∧
    0x1000 + 1 ≤ fwSize ∧ (st chan).reaches (.channel 0) .mctp = true ∧ chan.boot.flown = false ∧ chan.boot.fwUpdate = false ∧
    ({ chan.boot with fwUpdate := true } : Boot).fwUpdate = true ∧ (st chan).bridge.eids.length = 9 := by decide +kernel

/-! ### More clauses -/

/-- Queue 0 is empty, queue 1 waits on semaphore 0 below its threshold, queue 2 has a command. -/
def waitCmd : Command := { cmd 0 [] with waiten := true, wval := 1 }
def passChan : Channel :=
  (({ chan with mem := Mem.write 0 [] 0x20000 waitCmd.bytes } : Channel).modQ 1 fun _ => { ready with base := 0x20000 }).modQ 2
    fun _ => ready

theorem witness_passed : ∃ m, PassedOver (.array 0) passChan [0, 1] m ∧ m.queues[(1 : QIdx)].semWait = true ∧
    passChan.sources (.array 0) = [0, 1] ++ 2 :: [3, 160] ∧ m.offers 2 = true := by
  refine ⟨_, .queue _ _ 0 _ (.inl (by decide +kernel)) (.waits _ _ 1 _ [] ⟨⟨by decide +kernel, by decide +kernel, by decide +kernel⟩,
    by decide +kernel, by decide +kernel⟩ rfl (.done _)), by decide +kernel, by decide +kernel, by decide +kernel⟩

/-- CQ_CTRL with RESET and ENABLE, and with RESUME beside ENABLE, beside RESET and alone. -/
theorem witness_queue_combined :
    let off : Queue := { base := 0x10000 }
    let halt : Queue := { off with stopped := true }
    (enabledBits (wr 5) 4).testBit 2 = true ∧ (merge (wr 5) 4 0).testBit 0 = true ∧ (qChan 0 off).stateQ 0 = 0 ∧
    ringsOk 0 off = true ∧ ringsOk 0 { off with base := 0xFFFFFFFFFFC0 } = false ∧
    (enabledBits (wr 3) 4).testBit 1 = true ∧ (merge (wr 3) 4 0).testBit 0 = true ∧ (enabledBits (wr 7) 4).testBit 1 = true ∧
    (merge (wr 2) 4 1).testBit 0 = false ∧ halt.frozen = false ∧ (qChan 0 halt).stateQ 0 ≠ 0 := by decide +kernel

/-- 12 R280: additions to FULLSEM are paid in the order of issue. -/
theorem test_fullsem_order :
    let x : Ctx := { fillCtx 0x20000 with order := [(0, false), (1, false), (2, true)] }
    let y : Ctx := { x with order := [(1, false), (2, true), (3, false)] }
    let land (x : Ctx) : Option (W32 × List (Nat × Bool)) :=
      match exec (.fillLanded 0 0 0 1) (st (ctxChan x (fields [(0x4000000, 1, 1)]) [fetchRun])) with
      | .next s => some (s.chans[(0 : Ch)].semVal x.fullsem, s.chans[(0 : Ch)].cores[(0 : Core)].esk.ctxs[(0 : Fin 16)].order)
      | _ => none
    land x = some (0, [(0, false), (1, true), (2, true)]) ∧ land y = some (2, [(3, false)]) := by decide +kernel

/-- 14 R315: three flits of data, one of reduction on two credits, one of multicast go out in rounds. -/
def roundPort : PortState :=
  { linkUp with
    cred := [3, 2, 0, 1]
    txq := [[flit 1 0 0 false [1], flit 1 0 1 false [2], flit 1 0 2 true [3]], [{ flit 1 0 0 true [4] with vc := 1 }], [],
      [{ flit 1 0 0 true [5] with vc := 3 }]] }
theorem test_rounds : roundPort.pump.wire.map (·.vc) = [0, 0, 0, 1, 3] ∧
    ({ roundPort with wdata := 2 } : PortState).pump.wire.map (·.vc) = [0, 0, 1, 3, 0] := by decide +kernel
theorem witness_rounds : roundPort.st = .up ∧ roundPort.replayBuf.length < 512 ∧ roundPort.txq.getD 0 [] ≠ [] ∧
    roundPort.cred.getD 0 0 ≠ 0 ∧ (∀ v : Fin 4, ∀ f ∈ roundPort.txq.getD v [], f.vc = v) := by decide +kernel

/-- A saved context of 64 lanes and MVL 512, its VLR and flags as given. -/
def savedOther (vlr flags : Nat) : Mem :=
  fields [(0x4000, 1, 1), (0x4001, 1, 64), (0x4002, 2, 512), (0x4004, 2, vlr), (0x4008, 4, 7), (0x403A, 1, flags)]
theorem witness_restore_other : ∀ f ∈ [1, 3], coreOk (savedOther 2048 f) restoreRun 0 (fun c q =>
    savedBlock c == some (1, true, 64, 512) && decide (c.cores[runCore q].mor.live.length = 5)) = true := by decide +kernel
/-- 07 R183: VLR is clamped and a context with LRS reseeds; one of VLR 512 without LRS comes back as it was. -/
theorem test_restore_other :
    let back (vlr flags : Nat) : Option (W16 × Bool × Bool × W32) :=
      match exec (.vxRestore 0 (.queue 4)) (st (busy (savedOther vlr flags) restoreRun)) with
      | .next s => (s.chans[(0 : Ch)].liveCtx 0 (.queue 4)).map fun (x : MorCtx) => (x.vlr, x.vlclamp, x.rseed, s.chans[(0 : Ch)].sas.epoch)
      | _ => none
    back 2048 3 = some (1024, true, true, 1) ∧ back 512 1 = some (512, false, false, 0) := by decide +kernel

/-- 13 R301 to R303: TF at 87, 88, 91, 92 and 95 °C, accesses that stop at 96 and go on at 92. -/
theorem test_stack_temperatures :
    let read (x : Bool × Nat) : Byte × Bool :=
      match exec (.stackTempUpdate 0 0 [x.2]) (st (chan.modStack 0 fun t => { t with overtemp := x.1 })) with
      | .next s => (s.chans[(0 : Ch)].stk[(0 : Stack)].tf.setWidth 8, s.chans[(0 : Ch)].stk[(0 : Stack)].overtemp)
      | _ => (0, false)
    [(false, 87000), (false, 87001), (false, 91000), (false, 92000), (false, 95000)].map read =
      [(16, false), (14, false), (8, false), (7, false), (4, false)] ∧
    [(false, 95001), (true, 92001), (true, 92000)].map (fun x => (read x).2) = [true, true, false] := by decide +kernel

/-- 19 R434: a Tj of 115 °C counts for the trip of a channel that is held. -/
def heldChan : Channel := { chan with boot := { life := .held } }
theorem test_held_tj : heldChan.up = false ∧ (st heldChan).powered = true ∧
    (match exec (.tjSample 0 0 115) (st heldChan) with | .next s => s.tooHot | _ => false) = true := by decide +kernel

/-- No hot core in CORE mode; a group that is not held down, in CHANNEL and DRIFT mode. -/
theorem witness_group : ∀ m ∈ ([1, 2] : List (BitVec 2)),
    ({ chan with gov := { gmode := m } } : Channel).heldDown = false ∧
    (∀ k : Core, ({ gmode := 0 } : Gov).cores[k].pll ≠ .hot) := by decide +kernel

/-- Unit 2 of three positions has its Q here; a request that names two lost, this member among them; a member that goes on
with the last unit it asked for. -/
theorem witness_rebuild_more :
    let c : Channel := { trainChan .rollback {} with flt := { g := 3, quiesced := true, rebuild := true, lostUnits := [5] } }
    (2 + 1) % c.flt.g.toNat = c.flt.pos.toNat ∧ 2 % c.flt.g.toNat ≠ c.flt.pos.toNat ∧ c.flt.pos.toNat ∈ [1, 0] ∧
    c.stp.st = .rollback ∧ c.flt.ready = false ∧ c.flt.fault = false ∧ c.flt.retired = false ∧ c.refreezing = false ∧
    c.flt.lostUnits.filter (· != 5) = [] ∧ c.up = true ∧ (solve [1] [1] false [1, 0] []).isSome = true := by decide +kernel

/-- A member of the module whose vote is due, and another that has cast its own for the version, or not yet. -/
def voter (ver : W32) : Channel :=
  let c := trainChan .running {}
  { c with
    boot := { c.boot with cfg := { c.boot.cfg with modules := [0] } }
    stp := { c.stp with ver := ver }
    flt := { members := ⟨[0], [], [], 0⟩ }
    gov := { gmode := 2, fsus := 70, voteOwed := true } }
theorem witness_votes :
    let at_ (ver : W32) : List W32 :=
      ((voter 1).votersHere ((State.reset.put 0 (voter 1)).put 1 { voter ver with boot := { (voter ver).boot with cfg := { (voter ver).boot.cfg with ident := { chid := 1 } } } }).chans).map
        (·.stp.ver)
    at_ 1 = [1] ∧ at_ 0 = [0] := by decide +kernel

/-- NOGROUP at a channel in ROLLBACK; a ROLLBACK newer than the version, by one step. -/
theorem witness_late_rollback :
    let c : Channel := { trainChan .rollback {} with flt := { nogroup := true, ready := true } }
    c.flt.nogroup = true ∧ (token .start 0).kind = .start ∧ (trainChan .running {}).newer (token .rollback 1) = true ∧
    (trainChan .running {}).stp.st ≠ .rollback := by decide +kernel

/-- Records of both levels read back at a boot. -/
theorem test_hss_start :
    let x := ({ trees := 1 } : Hss).reserve [] true
    newest (logRead x.2 0x40000 0x40000 16) 8 4 = some (hssRecord 64 1 0) ∧
    (({} : Hss).start x.2).limit = 64 ∧ (({} : Hss).start x.2).trees = 1 := by decide +kernel

/-- MSI-X messages that wait while the host port is down, and the function whose turn it is. -/
theorem witness_messages_wait :
    let c : Channel := { chan with irqWait := [3, 4] }
    (st c).chans[(0 : Ch)].hostWaits = true ∧ (st c).hostTurn 0 = true ∧ c.isFrozen .host = false ∧
    (st c).sendIrqs.msix = [(1, 3), (1, 4)] := by decide +kernel

/-- A host access that waits for a stack, and one done as the stack goes on. -/
theorem test_host_wait :
    let c : Channel := chan.modStack 0 fun t => { t with overtemp := true, temp := 96 }
    let s := match exec (.bar2Access 0 0x100 0 (some [7])) (st c) with | .next s => s | _ => st c
    let u := match exec (.stackTempUpdate 0 0 [92000]) s with | .next u => u | _ => s
    s.chans[(0 : Ch)].hostWait = [(0x100, 1, some [7])] ∧ s.chans[(0 : Ch)].mem = [] ∧ u.chans[(0 : Ch)].hostWait = [] ∧
    u.chans[(0 : Ch)].mem = [(0x100, 7)] := by decide +kernel

end Sys2Proof.Tests
end

