-- ==== Sys2Proof/Proofs/CompletionIndex.lean ====
section
/-!
SUPPORT. The host's write of CQ_CPL_CI (02 R46): what it leaves of its queue in each of its two outcomes, and the
statement about it.
-/
namespace Sys2Proof.Machine

open Sys2Proof

/-- Two updates of a queue that agree on the queue as it stands are one update of the channel. -/
theorem Channel.modQ_congr {c : Channel} {q : QIdx} {f g : Queue → Queue} (h : f c.queues[q] = g c.queues[q]) :
    c.modQ q f = c.modQ q g := by rw [Channel.modQ, Channel.modQ, h]

theorem exec_cqCplCiWrite {s : State} {ch : Ch} (h : s.hostOk ch = true) (q : QIdx) (w : RegWrite) :
    exec (.cqCplCiWrite ch q w) s = .next (s.put ch (writeCplCi s.chans[ch] q w)) := by
  change Host.Outcome.next (onHost s ch fun c => writeCplCi c q w) = _
  rw [onHost_eq h]

/-- The test of `writeCplCi` on a value v, in the terms of R46: v is ahead of the producer index, or behind the old
consumer index. -/
theorem cplCi_test_iff (x : Queue) (v : W32) :
    ((x.cplPi - v).msb || (v - x.cplCi).msb) = true ↔ (x.cplPi - v).toInt < 0 ∨ (v - x.cplCi).toInt < 0 := by
  simp only [BitVec.msb_eq_toInt, Bool.or_eq_true, decide_eq_true_eq]

section
variable {c : Channel} {q : QIdx} {w : RegWrite} {v : W32}
  (hq : reservedQ q = false) (hw : touches w 4 = true) (hv : v = BitVec.ofNat 32 (merge w 4 c.queues[q].cplCi.toNat))
include hq hw hv

theorem writeCplCi_ignored (h : (c.queues[q].cplPi - v).toInt < 0 ∨ (v - c.queues[q].cplCi).toInt < 0) :
    writeCplCi c q w = c.modQ q fun x => { x with ciBad := true } := by
  rw [writeCplCi, if_neg (by simp [hq, hw])]
  refine Channel.modQ_congr ?_
  subst hv
  exact if_pos ((cplCi_test_iff _ _).mpr h)

theorem writeCplCi_taken (hpi : 0 ≤ (c.queues[q].cplPi - v).toInt) (hci : 0 ≤ (v - c.queues[q].cplCi).toInt) :
    writeCplCi c q w = c.modQ q fun x => { x with cplCi := v } := by
  have hgood : ¬((c.queues[q].cplPi - v).toInt < 0 ∨ (v - c.queues[q].cplCi).toInt < 0) := by omega
  rw [writeCplCi, if_neg (by simp [hq, hw])]
  refine Channel.modQ_congr ?_
  subst hv
  exact if_neg fun hbad => hgood ((cplCi_test_iff _ _).mp hbad)
end

/-- Settles O17: the write goes to the queue's channel, and each outcome of `writeCplCi` is its own lemma. -/
theorem cplCi : Obligations.CplCi := by
  unfold Obligations.CplCi
  rintro s ch q w _ _ v hs rfl rfl hq hw hv
  rw [exec_cqCplCiWrite hs]
  constructor
  · intro hbad
    rw [writeCplCi_ignored hq hw hv hbad]
  · intro hpi hci
    rw [writeCplCi_taken hq hw hv hpi hci]

end Sys2Proof.Machine
end

