-- ==== Sys2Proof/Proofs/NormLog.lean ====
section
/-!
SUPPORT. The log of a norm field (06 R154): the two branches of `lgNorm` for the 8 bits below the most significant 1 read
one field, that of x with zeros supplied below bit 0; and the statement about it.
-/
namespace Sys2Proof.Machine

open Sys2Proof

/-- With 8 bits or more below place p, the 8 directly below it begin at place p − 8. -/
theorem mul_two_pow_eight_div_of_le {p : Nat} (x : Nat) (h : 8 ≤ p) : x * 2 ^ 8 / 2 ^ p = x / 2 ^ (p - 8) := by
  rw [← Nat.pow_sub_mul_pow 2 h, Nat.mul_div_mul_right _ _ (by decide)]

/-- With fewer, all p of them are there, and 8 − p zeros are supplied below bit 0. -/
theorem mul_two_pow_eight_div_of_lt {p : Nat} (x : Nat) (h : p < 8) : x * 2 ^ 8 / 2 ^ p = x * 2 ^ (8 - p) := by
  rw [← Nat.pow_sub_mul_pow 2 h.le, ← Nat.mul_assoc, Nat.mul_div_cancel _ (Nat.two_pow_pos p)]

@[simp] theorem lgNorm_zero : lgNorm 0 = none := if_pos rfl

/-- `lgNorm` of a field that is not zero, the place of its most significant 1 as `Nat.log2` gives it. -/
theorem lgNorm_of_ne_zero {x : Nat} (h : x ≠ 0) :
    lgNorm x = some (256 * ((Nat.log2 x : Int) - 40) + (x * 2 ^ 8 / 2 ^ Nat.log2 x % 2 ^ 8 : Nat)) := by
  rw [lgNorm, if_neg h]
  by_cases hp : 8 ≤ Nat.log2 x
  · rw [mul_two_pow_eight_div_of_le x hp]
    simp [hp]
  · rw [mul_two_pow_eight_div_of_lt x (Nat.lt_of_not_le hp)]
    simp [hp]

/-- Settles O43: the bounds on x make it nonzero and p its `Nat.log2`. -/
theorem normLog : Obligations.NormLog := by
  unfold Obligations.NormLog
  refine ⟨lgNorm_zero, ?_⟩
  rintro x p _ hlo hhi rfl
  have hx : x ≠ 0 := (Nat.two_pow_pos p |>.trans_le hlo).ne'
  have hp : Nat.log2 x = p := (Nat.log2_eq_iff hx).mpr ⟨hlo, hhi⟩
  rw [lgNorm_of_ne_zero hx, hp]

end Sys2Proof.Machine
end

