-- ==== Sys2Proof/Proofs/ArbiterSilence.lean ====
section
/-!
SUPPORT. ARBITER_SILENCE (17 R391): what it leaves of a governor, the budget that follows from it with the thermal cut of
R396, and the statement about it.
-/
namespace Sys2Proof.Machine

open Sys2Proof

/-- The smaller of two words is a word again. -/
theorem toNat_ofNat_min {n : Nat} (x y : BitVec n) : (BitVec.ofNat n (min x.toNat y.toNat)).toNat = min x.toNat y.toNat := by
  rw [BitVec.toNat_ofNat, Nat.mod_eq_of_lt ((Nat.min_le_left _ _).trans_lt x.isLt)]

/-- Without an arbiter the loans are no part of the budget. -/
theorem Gov.budget_of_noarb {g : Gov} (h : g.noarb = true) :
    g.budget = min g.grant.toNat g.allow.toNat - 10 * g.thcut.toNat := by
  rw [Gov.budget, if_pos h]

@[simp] theorem arbiterSilence_noarb (g : Gov) : (arbiterSilence g).noarb = true := rfl
@[simp] theorem arbiterSilence_allow (g : Gov) : (arbiterSilence g).allow = g.allow := rfl
@[simp] theorem arbiterSilence_thcut (g : Gov) : (arbiterSilence g).thcut = g.thcut := rfl

@[simp] theorem arbiterSilence_grant (g : Gov) : (arbiterSilence g).grant.toNat = min g.grant.toNat g.allow.toNat :=
  toNat_ofNat_min g.grant g.allow

/-- Both the operation and the budget without an arbiter cap the grant at the allowance: the second cap changes nothing. -/
theorem arbiterSilence_budget (g : Gov) :
    (arbiterSilence g).budget = min g.grant.toNat g.allow.toNat - 10 * g.thcut.toNat := by
  rw [Gov.budget_of_noarb (arbiterSilence_noarb g)]
  simp

theorem exec_arbiterSilence {s : State} {ch : Ch} (h : s.chans[ch].up = true) :
    exec (.arbiterSilence ch) s = .next (s.put ch (s.chans[ch].modGov arbiterSilence)) := by
  change Host.Outcome.next (modUp s ch fun c => c.modGov arbiterSilence) = _
  rw [modUp_eq h]

/-- Settles O51: the channel stored is the old one with `arbiterSilence` of its governor. (The bare name is the operation's.) -/
theorem arbiterSilence_spec : Obligations.ArbiterSilence := by
  unfold Obligations.ArbiterSilence
  rintro s ch _ rfl hup
  exact ⟨s.chans[ch].modGov arbiterSilence, exec_arbiterSilence hup, rfl, arbiterSilence_budget s.chans[ch].gov⟩

end Sys2Proof.Machine
end

