-- ==== Sys2Proof/Proofs/Noted.lean ====
section
/-!
SUPPORT. What a channel's reports and memory checks leave alone: `Reported` says it of messages, heartbeats and faults, `Noted`
of the notes of uncorrectable words and Adori's reads too; and what of these and the memory rows keeps the boot state.
-/
namespace Sys2Proof.Machine

open Sys2Proof

/-- A fold whose steps all keep a part keeps it. -/
theorem foldl_keeps {α β γ : Type} (p : α → γ) {f : α → β → α} (h : ∀ a b, p (f a b) = p a) (l : List β) (a : α) :
    p (l.foldl f a) = p a := by
  induction l generalizing a with
  | nil => rfl
  | cons b l ih => rw [List.foldl_cons, ih, h]

/-- d is c after messages and reports of faults: these change registers of ports and faults alone. -/
def Reported (c d : Channel) : Prop := d = { c with ports := d.ports, flt := d.flt }

namespace Reported

variable {c d e : Channel}

theorem refl (c : Channel) : Reported c c := rfl

theorem trans (h : Reported c d) (h' : Reported d e) : Reported c e := by
  unfold Reported at *
  rw [h']
  rw [h]

theorem ite {p : Prop} [Decidable p] (h : p → Reported c d) (h' : ¬p → Reported c e) : Reported c (if p then d else e) := by
  split
  · exact h ‹_›
  · exact h' ‹_›

theorem foldl {α : Type} {f : Channel → α → Channel} (h : ∀ c a, Reported c (f c a)) (l : List α) (c : Channel) :
    Reported c (l.foldl f c) := by
  induction l generalizing c with
  | nil => exact refl c
  | cons a l ih => exact (h c a).trans (ih _)

theorem cores (h : Reported c d) : d.cores = c.cores := by rw [h]
theorem stk (h : Reported c d) : d.stk = c.stk := by rw [h]

theorem withFlt (c : Channel) (f : Flt) : Reported c { c with flt := f } := rfl

theorem modPort (c : Channel) (p : Port) (f : PortState → PortState) : Reported c (c.modPort p f) := rfl

theorem sendOn {p : Port} {vc : Fin 4} {m : Msg} {o : Option Src} {sh : Option (Nat × Nat)}
    (h : c.sendOn p vc m o sh = some d) : Reported c d := by
  simp only [Channel.sendOn, Option.ite_none_right_eq_some, Option.some.injEq] at h
  rw [← h.2]
  exact modPort c p _

theorem send {vc : Fin 4} {m : Msg} {alt : Bool} {o : Option Src} {sh : Option (Nat × Nat)}
    (h : c.send vc m alt o sh = some d) : Reported c d := by
  unfold Channel.send at h
  split at h
  · exact sendOn h
  · cases h

theorem getD_send (c : Channel) (vc : Fin 4) (m : Msg) (alt : Bool) : Reported c ((c.send vc m alt).getD c) := by
  cases h : c.send vc m alt with
  | none => exact refl c
  | some d => exact send h

theorem post (c : Channel) (vc : Fin 4) (m : Msg) : Reported c (c.post vc m) := getD_send c vc m false

theorem sendHbTo (c : Channel) (d : ChanId) (body : List Byte) : Reported c (c.sendHbTo d body) :=
  ite (fun _ => refl c) fun _ => getD_send c _ _ _

theorem sendHbBody (c : Channel) (h : Heartbeat) : Reported c (c.sendHbBody h) := by
  have sends (l : List ChanId) (b : List Byte) (c : Channel) : Reported c (l.foldl (fun c d => c.sendHbTo d b) c) :=
    foldl (fun c d => sendHbTo c d b) l c
  unfold Channel.sendHbBody
  refine ite (fun _ => refl c) fun _ => ?_
  dsimp only
  refine trans (trans (trans ?_ (sends _ _ _)) (sends _ _ _)) (withFlt _ _)
  exact ite (fun _ => refl c) fun _ => sends _ _ _

theorem sendHb (c : Channel) : Reported c c.sendHb := sendHbBody c _

theorem fault (c : Channel) (cls a : Nat) : Reported c (c.fault cls a) := trans (withFlt c _) (sendHb _)

theorem reportFault (c : Channel) (cls a : Nat) : Reported c (c.reportFault cls a) := by
  unfold Channel.reportFault
  exact ite (fun _ => trans (withFlt c _) (sendHbBody _ _)) fun _ => withFlt c _

theorem degrade (c : Channel) (cls a m : Nat) : Reported c (c.degrade cls a m) := by
  unfold Channel.degrade
  exact ite (fun _ => trans (withFlt c _) (sendHb _)) fun _ => withFlt c _

end Reported

/-- d is c after these and notes of uncorrectable words, which change registers of stacks and cores too. -/
def Noted (c d : Channel) : Prop := d = { c with stk := d.stk, cores := d.cores, ports := d.ports, flt := d.flt }

namespace Noted

variable {c d e : Channel}

theorem refl (c : Channel) : Noted c c := rfl

theorem of_reported (h : Reported c d) : Noted c d := by
  unfold Reported at h
  unfold Noted
  rw [h]

theorem trans (h : Noted c d) (h' : Noted d e) : Noted c e := by
  unfold Noted at *
  rw [h']
  rw [h]

theorem ite {p : Prop} [Decidable p] (h : p → Noted c d) (h' : ¬p → Noted c e) : Noted c (if p then d else e) := by
  split
  · exact h ‹_›
  · exact h' ‹_›

theorem foldl {α : Type} {f : Channel → α → Channel} (h : ∀ c a, Noted c (f c a)) (l : List α) (c : Channel) :
    Noted c (l.foldl f c) := by
  induction l generalizing c with
  | nil => exact refl c
  | cons a l ih => exact (h c a).trans (ih _)

theorem boot (h : Noted c d) : d.boot = c.boot := by rw [h]
theorem queues (h : Noted c d) : d.queues = c.queues := by rw [h]
theorem sems (h : Noted c d) : d.sems = c.sems := by rw [h]
theorem running (h : Noted c d) : d.running = c.running := by rw [h]
theorem inputs (h : Noted c d) : d.inputs = c.inputs := by rw [h]
theorem floes (h : Noted c d) : d.floes = c.floes := by rw [h]
theorem table (h : Noted c d) : d.table = c.table := by rw [h]
theorem mem (h : Noted c d) : d.mem = c.mem := by rw [h]
theorem bad (h : Noted c d) : d.bad = c.bad := by rw [h]
theorem frz (h : Noted c d) : d.frz = c.frz := by rw [h]
theorem gov (h : Noted c d) : d.gov = c.gov := by rw [h]
theorem stp (h : Noted c d) : d.stp = c.stp := by rw [h]
theorem agd (h : Noted c d) : d.agd = c.agd := by rw [h]
theorem abl (h : Noted c d) : d.abl = c.abl := by rw [h]
theorem poisonHit (h : Noted c d) : d.poisonHit = c.poisonHit := by rw [h]
theorem waitHit (h : Noted c d) : d.waitHit = c.waitHit := by rw [h]

theorem noteUe (c : Channel) (a : Nat) (ue : Bool) : Noted c (c.noteUe a ue) := by
  unfold Channel.noteUe
  refine ite (fun _ => rfl) fun _ => ?_
  split
  · split <;> rfl
  · rfl

/-- Whatever holds of a channel through notes and reports holds through a classification. -/
theorem classifyUe_induct {p : Channel → Channel → Prop} (refl : ∀ c, p c c) (trans : ∀ {c d e}, p c d → p d e → p c e)
    (note : ∀ c k, p c (c.noteUe k true)) (report : ∀ {c d}, Reported c d → p c d) (c : Channel) (a : Nat) :
    p c (c.classifyUe a) := by
  have met (l : List Nat) (c : Channel) : p c (l.foldl (fun c k => (c.noteUe k true).fault 0x01 k) c) := by
    induction l generalizing c with
    | nil => exact refl c
    | cons k l ih => exact trans (trans (note c k) (report (Reported.fault _ _ _))) (ih _)
  unfold Channel.classifyUe
  split
  · exact report (Reported.reportFault c _ _)
  dsimp only
  generalize hd : List.foldl _ c _ = d
  refine trans (hd ▸ met _ c : p c d) (report ?_)
  refine Reported.ite (fun _ => Reported.ite (fun _ => Reported.fault d _ _) fun _ => ?_) fun _ =>
    Reported.ite (fun _ => Reported.reportFault d _ _) fun _ => Reported.fault d _ _
  exact Reported.trans (Reported.withFlt d _) (Reported.reportFault _ _ _)

theorem classifyUe (c : Channel) (a : Nat) : Noted c (c.classifyUe a) :=
  classifyUe_induct refl trans (fun c k => noteUe c k true) of_reported c a

theorem adoriRead (c : Channel) (rs ws : List (Nat × Nat)) : Noted c (c.adoriRead rs ws) :=
  foldl (fun c k => (noteUe c k true).trans (classifyUe _ k)) _ c

theorem corrected (c : Channel) (a : Nat) (l : List (BitVec 7)) : Noted c (c.corrected a l) := by
  unfold Channel.corrected
  refine ite (fun _ => rfl) fun _ => ?_
  split
  · split <;> rfl
  · rfl

end Noted

/-! ### The boot state -/

@[simp] theorem Channel.noteUe_boot (c : Channel) (a : Nat) (ue : Bool) : (c.noteUe a ue).boot = c.boot := (Noted.noteUe c a ue).boot
@[simp] theorem Channel.fault_boot (c : Channel) (cls a : Nat) : (c.fault cls a).boot = c.boot :=
  (Noted.of_reported (Reported.fault c cls a)).boot
@[simp] theorem Channel.classifyUe_boot (c : Channel) (a : Nat) : (c.classifyUe a).boot = c.boot := (Noted.classifyUe c a).boot
@[simp] theorem Channel.adoriRead_boot (c : Channel) (rs ws : List (Nat × Nat)) : (c.adoriRead rs ws).boot = c.boot :=
  (Noted.adoriRead c rs ws).boot
@[simp] theorem Channel.degrade_boot (c : Channel) (cls a m : Nat) : (c.degrade cls a m).boot = c.boot :=
  (Noted.of_reported (Reported.degrade c cls a m)).boot
@[simp] theorem Channel.corrected_boot (c : Channel) (a : Nat) (l : List (BitVec 7)) : (c.corrected a l).boot = c.boot :=
  (Noted.corrected c a l).boot

@[simp] theorem Channel.freezeQueues_boot (c : Channel) (e : Engine) : (c.freezeQueues e).boot = c.boot :=
  foldl_keeps Channel.boot (fun c q => by split <;> rfl) _ c

@[simp] theorem Channel.freeze_boot (c : Channel) (m : Master) (a : Nat) (w : Bool) : (c.freeze m a w).boot = c.boot := by
  unfold Channel.freeze
  cases m <;> simp <;> split <;> simp [Channel.modCtx]

@[simp] theorem Channel.spoil_boot (c : Channel) (a : Nat) : (c.spoil a).boot = c.boot := by
  unfold Channel.spoil
  split <;> rfl

@[simp] theorem Wk.decode_boot (w : Wk) (a : Nat) (errs : List (BitVec 7)) : (w.decode a errs).1.c.boot = w.c.boot := by
  unfold Wk.decode
  split
  · rfl
  · simp [Wk.mod]
  · simp [Wk.mod]
  · dsimp only
    split <;> simp [Wk.mod, Wk.garble]

@[simp] theorem Wk.scrub_boot (w : Wk) (a : Nat) (errs : List (BitVec 7)) : (w.scrub a errs).c.boot = w.c.boot := by
  have h := w.decode_boot (wordOf a) errs
  unfold Wk.scrub
  split
  · next e => rw [← h, e]
  · next e =>
    rw [← h, e]
    simp only [Wk.mod]
    split <;> simp

@[simp] theorem patrolScrub_boot (w : Wk) (i : Stack) (a : Nat) (errs : List (BitVec 7)) (last : Bool) :
    (patrolScrub w i a errs last).c.boot = w.c.boot := by
  unfold patrolScrub
  dsimp only
  split
  · rfl
  · split <;> simp [Wk.mod]

@[simp] theorem neveScrub_boot (w : Wk) (k : Core) (a : Nat) (errs : List (BitVec 7)) :
    (neveScrub w k a errs).c.boot = w.c.boot := by
  unfold neveScrub
  split <;> simp

@[simp] theorem stackTempUpdate_boot (w : Wk) (i : Stack) (milliC : List Nat) :
    (stackTempUpdate w i milliC).c.boot = w.c.boot := by
  unfold stackTempUpdate
  dsimp only
  split <;> simp [Wk.mod]

/-- FLASH_COMMAND_DONE leaves the channel's life as it is. -/
@[simp] theorem flashDone_life (w : Wk) : (flashDone w).c.boot.life = w.c.boot.life := by
  unfold flashDone
  dsimp only
  split
  · rfl
  · dsimp only
    split_ifs <;> rfl

@[simp] theorem Wk.tear_life (w : Wk) : w.tear.c.boot.life = w.c.boot.life := by
  unfold Wk.tear
  dsimp only
  split <;> rfl

end Sys2Proof.Machine
end

