-- ==== Sys2Proof/Proofs/Confined.lean ====
section
/-!
SUPPORT. What a command may leave behind: `Confined ch s t` says of two states that the step from s to t is one of channel ch
alone. Every command of one channel is confined to it, which gives the statements that a command changes no other channel and
that no command changes the queue or breaks the module's invariant.
-/
namespace Sys2Proof.Machine

open Sys2Proof

/-- t follows from s by an operation of channel `who`, or of the module where that is none: the commands that wait stay, the
module's invariant is kept, and every channel but `who` stays, save for messages that went out. -/
structure Confined (who : Option Ch) (s t : State) : Prop where
  pending : t.pending = s.pending
  ok : ModuleOk s → ModuleOk t
  apart : ∀ ch k : Ch, who = some ch → k ≠ ch → t.chans[k] = { s.chans[k] with irqWait := t.chans[k].irqWait }
  sent : ∀ ch k : Ch, who = some ch → k ≠ ch → ∃ out, s.chans[k].irqWait = out ++ t.chans[k].irqWait

namespace Confined

variable {who : Option Ch} {s t u : State}

theorem refl (who : Option Ch) (s : State) : Confined who s s :=
  ⟨rfl, id, fun _ _ _ _ => rfl, fun _ _ _ _ => ⟨[], rfl⟩⟩

theorem trans (h : Confined who s t) (h' : Confined who t u) : Confined who s u where
  pending := h'.pending.trans h.pending
  ok hs := h'.ok (h.ok hs)
  apart ch k hw hk := by
    have e := h'.apart ch k hw hk
    rw [h.apart ch k hw hk] at e
    exact e
  sent ch k hw hk := by
    obtain ⟨a, ha⟩ := h.sent ch k hw hk
    obtain ⟨b, hb⟩ := h'.sent ch k hw hk
    exact ⟨a ++ b, by rw [ha, hb, List.append_assoc]⟩

/-- An operation of the module may change every channel. -/
theorem of_module (hp : t.pending = s.pending) (ok : ModuleOk s → ModuleOk t) : Confined none s t :=
  ⟨hp, ok, nofun, nofun⟩

theorem module (h : Confined who s t) : Confined none s t := of_module h.pending h.ok

/-- A change of nothing but the parts that no channel holds is confined where it keeps the invariant. -/
theorem of_chans_eq (hp : t.pending = s.pending) (hc : t.chans = s.chans) (ok : ModuleOk s → ModuleOk t) :
    Confined who s t where
  pending := hp
  ok := ok
  apart _ k _ _ := by rw [hc]
  sent _ k _ _ := ⟨[], by rw [hc]; rfl⟩

theorem ite {p : Prop} [Decidable p] (h : p → Confined who s t) (h' : ¬p → Confined who s u) :
    Confined who s (if p then t else u) := by
  split
  · exact h ‹_›
  · exact h' ‹_›

/-- What is done in turn for each of a list is confined where each of it is. -/
theorem foldl {α : Type} {f : State → α → State} (h : ∀ s a, Confined who s (f s a)) (l : List α) (s : State) :
    Confined who s (l.foldl f s) := by
  induction l generalizing s with
  | nil => exact refl who s
  | cons a l ih => exact (h s a).trans (ih (f s a))

end Confined

/-! ### Messages that go out -/

theorem State.sentIrq_out (s : State) (x k : Ch) (v : Nat) (rest : List Nat) (h : s.chans[x].irqWait = v :: rest) :
    ∃ out, s.chans[k].irqWait = out ++ (s.sentIrq x v rest).chans[k].irqWait := by
  rw [State.sentIrq_chan]
  split
  · next hk => exact ⟨[v], by rw [hk, h]; rfl⟩
  · exact ⟨[], rfl⟩

theorem State.sendIrqsGo_out (n : Nat) (s : State) (k : Ch) :
    ∃ out, s.chans[k].irqWait = out ++ (s.sendIrqsGo n).chans[k].irqWait := by
  induction n generalizing s with
  | zero => exact ⟨[], rfl⟩
  | succ n ih =>
    rcases s.sendIrqsGo_cases n with e | ⟨x, v, rest, -, -, hx, e⟩
    · exact ⟨[], by rw [e]; rfl⟩
    · obtain ⟨a, ha⟩ := s.sentIrq_out x k v rest hx
      obtain ⟨b, hb⟩ := ih (s.sentIrq x v rest)
      exact ⟨a ++ b, by rw [e, ha, hb, List.append_assoc]⟩

/-- What waits after the messages have gone out is the end of what waited before. -/
theorem State.sendIrqs_out (s : State) (k : Ch) : ∃ out, s.chans[k].irqWait = out ++ s.sendIrqs.chans[k].irqWait := by
  unfold State.sendIrqs
  split
  · exact s.sendIrqsGo_out _ k
  · exact ⟨[], rfl⟩

@[simp] theorem State.sendIrqs_pending (s : State) : s.sendIrqs.pending = s.pending := by
  rw [s.sendIrqs_frame.1]

theorem Confined.sendIrqs (who : Option Ch) (s : State) : Confined who s s.sendIrqs where
  pending := s.sendIrqs_pending
  ok := ModuleOk.sendIrqs
  apart _ k _ _ := s.sendIrqs_frame.2 k
  sent _ k _ _ := s.sendIrqs_out k

/-! ### Operations of one channel -/

theorem State.set_chan_of_ne {v : Vector Channel 8} {ch k : Ch} (h : k ≠ ch) (d : Channel) : (v.set ch d)[k] = v[k] := by
  have e : ch.val ≠ k.val := fun e => h (Fin.ext e.symm)
  simp [e]

theorem State.after_out (s : State) {ch k : Ch} (h : k ≠ ch) (w : Wk) :
    ∃ out, s.chans[k].irqWait = out ++ (s.after ch w).chans[k].irqWait := by
  unfold State.after
  dsimp only
  split
  · exact ⟨[], by dsimp only; rw [State.set_chan_of_ne h]; rfl⟩
  · obtain ⟨out, e⟩ := State.sendIrqs_out { s with
      chans := s.chans.set ch { w.c with
        poisonHit := s.chans[ch].poisonHit, waitHit := s.chans[ch].waitHit, irqWait := w.c.irqWait ++ w.irqs }
      freeCtr := w.ctr } k
    dsimp only at e
    rw [State.set_chan_of_ne h] at e
    exact ⟨out, e⟩

namespace Confined

variable {s : State} {ch : Ch}

/-- An operation on one channel, which keeps the channel in reset while the bridge is off. -/
theorem after (w : Wk) (hl : ModuleOk s → s.bridgeOn = false → w.c.boot.life = .reset) : Confined (some ch) s (s.after ch w) where
  pending := s.after_pending ch w
  ok hs := hs.after ch w (hl hs)
  apart _ k hw hk := by
    cases hw
    have e := s.after_chan ch k w
    rwa [if_neg hk] at e
  sent _ k hw hk := by
    cases hw
    exact s.after_out hk w

theorem after_of_up (h : s.chans[ch].up = true) (w : Wk) : Confined (some ch) s (s.after ch w) :=
  after w fun hs ho => absurd (hs.notUp ho ch) (by rw [h]; decide)

theorem after_of_on (h : s.bridgeOn = true) (w : Wk) : Confined (some ch) s (s.after ch w) :=
  after w fun _ ho => absurd ho (by rw [h]; decide)

theorem onCh_of_up (h : s.chans[ch].up = true) (f : Wk → Wk) : Confined (some ch) s (s.onCh ch f) := after_of_up h _

theorem onCh_of_on (h : s.bridgeOn = true) (f : Wk → Wk) : Confined (some ch) s (s.onCh ch f) := after_of_on h _

/-- An operation that leaves the channel's life as it is. -/
theorem onCh_of_life {f : Wk → Wk} (h : (f (s.work ch)).c.boot.life = s.chans[ch].boot.life) : Confined (some ch) s (s.onCh ch f) :=
  after _ fun hs ho => h.trans (hs.off ho ch)

theorem modCh_of_up (h : s.chans[ch].up = true) (f : Channel → Channel) : Confined (some ch) s (s.modCh ch f) := onCh_of_up h _

theorem modCh_of_on (h : s.bridgeOn = true) (f : Channel → Channel) : Confined (some ch) s (s.modCh ch f) := onCh_of_on h _

theorem modCh_of_life {f : Channel → Channel} (h : (f s.chans[ch]).boot.life = s.chans[ch].boot.life) :
    Confined (some ch) s (s.modCh ch f) := onCh_of_life h

theorem resetChan (h : s.bridgeOn = true) : Confined (some ch) s (s.resetChan ch) := onCh_of_on h _

/-! ### The shared forms of rows -/

theorem onUp (f : Wk → Wk) : Confined (some ch) s (onUp s ch f) := ite (fun h => onCh_of_up h f) fun _ => refl _ s

theorem modUp (f : Channel → Channel) : Confined (some ch) s (modUp s ch f) := ite (fun h => modCh_of_up h f) fun _ => refl _ s

theorem up_of_hostOk (h : s.hostOk ch = true) : s.chans[ch].up = true := by
  simp only [State.hostOk, Bool.and_eq_true] at h
  exact h.1.2

theorem onHost (f : Channel → Channel) : Confined (some ch) s (onHost s ch f) :=
  ite (fun h => modCh_of_up (up_of_hostOk h) f) fun _ => refl _ s

theorem onRun (src : Src) (opc : Byte) (f : Wk → Running → Wk) : Confined (some ch) s (onRun s ch src opc f) := by
  unfold Machine.onRun
  split
  · refine ite (fun h => onCh_of_up ?_ _) fun _ => refl _ s
    simp only [Bool.and_eq_true] at h
    exact h.1.1.1.1.1.1
  · exact refl _ s

theorem onCoreRun (src : Src) (opc : Byte) (f enter : Wk → Running → Wk) : Confined (some ch) s (onCoreRun s ch src opc f enter) :=
  onRun src opc _

theorem onCfl (f : Wk → Wk) : Confined (some ch) s (onCfl s ch f) := onUp _

theorem onDatagram (p : Port) (d : Datagram) (f : Wk → Wk) : Confined (some ch) s (onDatagram s ch p d f) := onUp _

theorem modPowered {f : Channel → Channel} (h : (f s.chans[ch]).boot.life = s.chans[ch].boot.life) :
    Confined (some ch) s (modPowered s ch f) := ite (fun _ => modCh_of_life h) fun _ => refl _ s

theorem say (who : Option Ch) (bs : List Byte) : Confined who s (s.say bs) :=
  of_chans_eq rfl rfl fun hs => ⟨hs.power, hs.trip, hs.port, hs.off, hs.hostMem, hs.functions, hs.ids⟩

end Confined

end Sys2Proof.Machine
end

