-- ==== Sys2Proof/Proofs/Rows.lean ====
section
/-!
SUPPORT. Every command is confined: one lemma per row that is not one of the shared forms, then the case split over the
commands, and the statements that follow from it.
-/
namespace Sys2Proof.Machine

open Sys2Proof

namespace Confined

variable {s : State} {ch : Ch}

/-! ### Rows of queues, pages and the host's accesses -/

/-- A record goes to host memory, which keeps its canonical form. -/
theorem hostWrite (who : Option Ch) (a : Nat) (bs : List Byte) (x : Ch) : Confined who s
    { s with hostMem := Mem.write 0 s.hostMem a bs, bridge := { s.bridge with served := x } } :=
  of_chans_eq rfl rfl fun hs => ⟨hs.power, hs.trip, hs.port, hs.off, Mem.wf_write hs.hostMem a bs, hs.functions, hs.ids⟩

theorem completionRecordWrite (q : QIdx) : Confined (some ch) s (completionRecordWrite s ch q) := by
  unfold Machine.completionRecordWrite
  dsimp only
  split
  · exact refl _ s
  · refine ite (fun _ => refl _ s) fun _ => ?_
    refine trans ?_ (Confined.sendIrqs _ _)
    refine trans (ite (t := s) (fun _ => refl _ s) fun _ => hostWrite _ _ _ ch) (modCh_of_life ?_)
    split <;> rfl

theorem stateOf_next {who : Option Ch} {x : Host.Outcome State Fault Refusal} (h : ∃ t, x = .next t ∧ Confined who s t) :
    Confined who s (stateOf x s) := by
  obtain ⟨t, rfl, ht⟩ := h
  exact ht

theorem runRow (src : Src) (opc : Byte) : Confined (some ch) s (runRow s ch src opc) := by
  refine stateOf_next ?_
  split
  iterate 10 exact ⟨_, rfl, onCoreRun _ _ _ _⟩
  iterate 5 exact ⟨_, rfl, onRun _ _ _⟩
  exact ⟨_, rfl, refl _ s⟩

theorem pageHalt (t : Transfer) : Confined (some ch) s (pageHalt s ch t) := by
  unfold Machine.pageHalt
  refine ite (fun _ => refl _ s) fun _ => ite (fun _ => ?_) fun _ => refl _ s
  cases t with
  | command src =>
    dsimp only
    split
    · exact runRow src _
    · exact refl _ s
  | fill k x slot => exact modUp (s := s) (ch := ch) _
  | message p vc id => exact onUp (s := s) (ch := ch) _

theorem bar2 (a n : Nat) (write : Option (List Byte)) : Confined (some ch) s (bar2 s ch a n write) := by
  have answers (t : State) (h : Confined (some ch) s t) (bs : List Byte) :
      Confined (some ch) s (if write.isSome then t else t.say bs) :=
    ite (fun _ => h) fun _ => h.trans (say _ bs)
  unfold Machine.bar2
  refine ite (fun _ => answers s (refl _ s) _) fun _ => ite (fun _ => answers _ (modCh_of_life (by simp)) _) fun _ =>
    ite (fun _ => modCh_of_life rfl) fun _ => ?_
  split
  · split <;> exact modCh_of_life (by simp)
  · split
    · exact (modCh_of_life (by simp)).trans (say _ _)
    · exact say _ _

theorem stackResumed : Confined (some ch) s (stackResumed s ch) := by
  unfold Machine.stackResumed
  have waited := ite (p := s.chans[ch].hostWait.isEmpty = true) (u := s.modCh ch fun c =>
    { c with hostWait := c.hostWait.filter fun x => !!s.chans[ch].stopped x.1 x.2.1 })
    (fun _ => refl (some ch) s) fun _ => modCh_of_life rfl
  have made := waited.trans (foldl (f := fun s x => Machine.bar2 s ch x.1 x.2.1 x.2.2) (fun s x => bar2 x.1 x.2.1 x.2.2)
    (s.chans[ch].hostWait.filter fun x => !s.chans[ch].stopped x.1 x.2.1) _)
  exact ite (fun _ => made.trans (modUp _)) fun _ => made

theorem writeFunc0 (o : Nat) (w : RegWrite) : Confined none s (writeFunc0 s o w) := by
  unfold Machine.writeFunc0
  refine ite (fun _ => (modCh_of_life ?_).module) fun _ => ite (fun _ => (modCh_of_life rfl).module) fun _ => refl _ s
  dsimp only
  split
  · split <;> rfl
  · split <;> rfl
  · rfl
  · rfl

theorem registerWrite_function0 {fn : Fin 9} (h : fn.val = 0) (o n : Nat) (v : W64) :
    Confined none s (registerWrite s fn o n v) := by
  unfold Machine.registerWrite
  rw [dif_pos h]
  split
  · exact ite (fun _ => writeFunc0 _ _) fun _ => refl _ s
  · exact refl _ s

theorem registerWrite_channel {fn : Fin 9} (h : ¬fn.val = 0) (o n : Nat) (v : W64) :
    Confined (some ⟨fn.val - 1, by omega⟩) s (registerWrite s fn o n v) := by
  unfold Machine.registerWrite
  rw [dif_neg h]
  dsimp only
  split
  · exact ite (fun _ => onHost _) fun _ => refl _ s
  · exact refl _ s

/-! ### Function 0, resets and the flash -/

theorem on_of_function0 {p : Bool} (h : (s.function0 && p) = true) : s.bridgeOn = true := by
  simp only [State.function0, Bool.and_eq_true] at h
  exact h.1.1

theorem writeChCtrl (w : RegWrite) : Confined (some ch) s (writeChCtrl s ch w) := by
  unfold Machine.writeChCtrl
  refine ite (fun _ => refl _ s) fun h => ?_
  have on : s.bridgeOn = true := on_of_function0 (p := touches w 4) (by simpa using h)
  have held := modCh_of_on (ch := ch) on
  exact ite (fun _ => (held _).trans (resetChan on)) fun _ => held _

theorem flashCommand (w : RegWrite) (code : Nat) : Confined (some ch) s (flashCommand s ch w code) := by
  unfold Machine.flashCommand
  exact ite (fun _ => refl _ s) fun _ => ite (fun _ => modCh_of_life rfl) fun _ => modCh_of_life rfl

theorem mailbox (w : RegWrite) (ok : Nat → Bool) :
    Confined (some ch) s (if s.hostOk ch then s.onCh ch fun k => k.mailbox w ok else s) :=
  ite (fun h => onCh_of_up (up_of_hostOk h) _) fun _ => refl _ s

/-! ### Responders -/

section
variable {ep : Endpoint}

theorem onSpdm {who : Option Ch} {tr : Transport} {f : State → State} (h : s.bridgeOn = true → Confined who s (f s)) :
    Confined who s (onSpdm s ep tr f) := by
  refine ite (fun hr => h ?_) fun _ => refl _ s
  simp only [State.reaches, Bool.and_eq_true] at hr
  exact hr.1.1

/-- A change of the bridge that leaves its pins, its host port and the sizes of its lists. -/
theorem bridge {who : Option Ch} {b : Bridge}
    (h : (b.switchClosed, b.tripLatched, b.pgood, b.modRst, b.perst, b.hostUp, b.eids.length, b.allowKnown.length) =
      (s.bridge.switchClosed, s.bridge.tripLatched, s.bridge.pgood, s.bridge.modRst, s.bridge.perst, s.bridge.hostUp,
        s.bridge.eids.length, s.bridge.allowKnown.length)) :
    Confined who s { s with bridge := b } := by
  simp only [Prod.mk.injEq] at h
  obtain ⟨hsw, htr, hpg, hmr, hpe, hup, hei, hal⟩ := h
  have on : State.bridgeOn { s with bridge := b } = s.bridgeOn := by
    simp [State.bridgeOn, State.powered, hsw, hpg, hmr]
  refine of_chans_eq rfl rfl fun hs => ⟨?_, ?_, ?_, ?_, hs.hostMem, hs.functions, ?_⟩
  · simpa [hsw, hpg] using hs.power
  · simpa [htr, hsw] using hs.trip
  · rw [on]
    simpa [hup, hpe] using hs.port
  · rw [on]
    exact hs.off
  · simpa [hei, hal] using hs.ids

theorem setSpdm (tr : Transport) (x : Spdm) : Confined (endpointChan ep) s (s.setSpdm ep tr x) := by
  cases ep <;> cases tr
  · exact bridge rfl
  · exact bridge rfl
  · exact modCh_of_life rfl
  · exact modCh_of_life rfl

theorem draw : Confined (endpointChan ep) s (s.draw ep).2 := by
  cases ep
  · exact bridge rfl
  · exact modCh_of_life rfl

theorem setHss (h : Hss) (m : Mem) : Confined (endpointChan ep) s (s.setHss ep h m) := by
  cases ep
  · exact bridge rfl
  · exact modCh_of_life rfl

theorem signed (tr : Transport) (f : List Byte → List Byte) : Confined (endpointChan ep) s (s.signed ep tr f) :=
  draw.trans (draw.trans ((setSpdm tr _).trans (say _ _)))

theorem free {who : Option Ch} (n : Nat) (bs : List Byte) : Confined who s { s with answer := bs, freeCtr := n } :=
  of_chans_eq rfl rfl fun hs => ⟨hs.power, hs.trip, hs.port, hs.off, hs.hostMem, hs.functions, hs.ids⟩

theorem challenge (tr : Transport) (slot : Byte) (nonce : List Byte) :
    Confined (endpointChan ep) s (challenge s ep tr slot nonce) :=
  ite (fun _ => say _ _) fun _ => signed tr _

theorem getMeasurements (tr : Transport) (i : Byte) (nonce : List Byte) :
    Confined (endpointChan ep) s (getMeasurements s ep tr i nonce) := by
  unfold Machine.getMeasurements
  refine ite (fun _ => signed tr _) fun _ => ite (fun _ => signed tr _) fun _ => ?_
  split
  · exact signed tr _
  · exact say _ _

theorem hssSigned (tr : Transport) (x : Spdm) (msg : List Byte) :
    Confined (endpointChan ep) s (hssSigned s ep tr x msg) := by
  unfold Machine.hssSigned
  split
  · exact (setHss _ _).trans ((setSpdm tr _).trans (say _ _))
  · exact (setHss _ _).trans (free _ _)

theorem vendorDefined (tr : Transport) (code : Byte) : Confined (endpointChan ep) s (vendorDefined s ep tr code) := by
  unfold Machine.vendorDefined
  refine ite (fun _ => say _ _) fun _ => ?_
  dsimp only
  split
  · exact say _ _
  · exact say _ _
  · exact hssSigned tr _ _

theorem getCertificate (slot : Byte) (off len : W16) : Confined (endpointChan ep) s
    (if slot != 0 then s.error 1
    else
      let rest := (s.certs ep).drop off.toNat
      let bs := rest.take len.toNat
      s.say ([0x02, slot] ++ toBytes 2 bs.length ++ toBytes 2 (rest.length - bs.length) ++ bs)) :=
  ite (fun _ => say _ _) fun _ => say _ _

theorem pldmDiscovery {who : Option Ch} (code : Byte) : Confined who s (pldmDiscovery s ep code) :=
  ite (fun _ => free _ _) fun _ => ite (fun _ => say _ _) fun _ => ite (fun _ => free _ _) fun _ => say _ _

/-- A change of the endpoint IDs that keeps their number; the I3C target is addressed. -/
theorem eids {who : Option Ch} {l : List Byte} (h : s.bridge.eids.length = 9 → l.length = 9) (bs : List Byte) :
    Confined who s { s with bridge := { s.bridge with i3cAddressed := true, eids := l }, answer := bs } :=
  of_chans_eq rfl rfl fun hs =>
    ⟨hs.power, hs.trip, hs.port, hs.off, hs.hostMem, hs.functions, h hs.ids.1, hs.ids.2⟩

theorem mctpControl (r : MctpReq) : Confined (endpointChan ep) s (mctpControl s ep r) := by
  have addressed : Confined (endpointChan ep) s { s with bridge := { s.bridge with i3cAddressed := true } } := bridge rfl
  cases r with
  | setEid e => exact eids (by simp) _
  | getEid => exact addressed.trans (say _ _)
  | allocatePool e =>
    cases ep with
    | bridge => exact eids (fun h => by simp [h]) _
    | channel => exact addressed.trans (say _ _)
  | getVersion => exact addressed.trans (free _ _)
  | getMessageTypes => exact addressed.trans (say _ _)
  | other => exact addressed.trans (say _ _)

theorem modBoot (f : Boot → Boot) : Confined (some ch) s (modBoot s ch f) := by
  unfold Machine.modBoot onMctp
  exact onSpdm fun on => modCh_of_on on _

theorem platformEvent : Confined (some ch) s (platformEvent s ch) :=
  ite (fun _ => refl _ s) fun _ =>
    of_chans_eq rfl rfl fun hs => ⟨hs.power, hs.trip, hs.port, hs.off, hs.hostMem, hs.functions, hs.ids⟩

end

/-! ### The module: the arbiter, boot, pins and power, the host port -/

/-- A change of every channel that keeps each channel's life. -/
theorem modAll {f : Ch → Channel → Channel} (h : ∀ k c, (f k c).boot.life = c.boot.life) : Confined none s (s.modAll f) :=
  of_module rfl fun hs => ⟨hs.power, hs.trip, hs.port, fun ho k => by
    have e : (s.modAll f).chans[k] = f k s.chans[k] := by simp [State.modAll]
    rw [e, h]
    exact hs.off ho k, hs.hostMem, hs.functions, hs.ids⟩

theorem regrant : Confined none s s.regrant := by
  unfold State.regrant
  refine modAll fun k c => ?_
  dsimp only
  split
  · rw [Channel.modGov_boot]
  · split <;> rw [Channel.modGov_boot]

theorem loanRecompute (busy : List Bool) : Confined none s (loanRecompute s busy) := by
  unfold Machine.loanRecompute
  refine regrant.trans (modAll fun k c => ?_)
  dsimp only
  split
  · rw [Channel.modGov_boot]
  · rfl

theorem loanRecall : Confined none s (loanRecall s ch) := by
  unfold Machine.loanRecall
  refine ite (fun _ => refl _ s) fun _ => trans (modAll ?_) (modCh_of_life ?_).module
  · intros
    rfl
  · rfl

theorem channelBoot (h : s.bridgeOn = true) : Confined none s (channelBoot s ch) := by
  have booted : Confined none s (s.onCh ch Wk.boot) := (onCh_of_on h _).module
  have known (t : State) : Confined none t
      { t with bridge := { t.bridge with allowKnown := t.bridge.allowKnown.set ch.val true } } := bridge (by simp)
  exact ite (fun _ => (booted.trans (known _)).trans regrant) fun _ => booted

/-- Each channel in turn has an operation that keeps its life. -/
theorem foldl_onCh {f : Wk → Wk} (h : ∀ w, (f w).c.boot.life = w.c.boot.life) (l : List Ch) (s : State) :
    Confined none s (l.foldl (fun s ch => s.onCh ch f) s) :=
  foldl (fun s _ => (onCh_of_life (h (s.work _))).module) l s

/-- The host port goes down; its connection is forgotten. -/
theorem portDown (x : Spdm) : Confined none s { s with bridge := { s.bridge with hostUp := false, spdmDoe := x } } :=
  of_chans_eq rfl rfl fun hs => ⟨hs.power, hs.trip, nofun, hs.off, hs.hostMem, hs.functions, hs.ids⟩

theorem hostPortReset : Confined none s (hostPortReset s) := by
  unfold Machine.hostPortReset
  dsimp only
  generalize ht : List.foldl _ s _ = t
  have torn : Confined none s t := by
    rw [← ht]
    refine foldl_onCh (fun w => ?_) _ s
    exact w.tear_life
  exact torn.trans (portDown {})

theorem drainOne : Confined none s (drainOne s) := by
  unfold Machine.drainOne
  split
  · split
    · exact (completionRecordWrite _).module
    · exact refl _ s
  · exact refl _ s

theorem hostPortReturn (on : s.bridgeOn = true) (hp : s.bridge.perst = false) : Confined none s (hostPortReturn s) := by
  have back : Confined none s { s with bridge := { s.bridge with hostUp := true } } :=
    of_module rfl fun hs => ⟨hs.power, hs.trip, fun _ => ⟨on, hp⟩, hs.off, hs.hostMem, hs.functions, hs.ids⟩
  exact (back.trans (Confined.sendIrqs _ _)).trans (foldl (fun _ _ => drainOne) _ _)

end Confined

end Sys2Proof.Machine
end

