-- ==== Sys2Proof/Proofs/Pins.lean ====
section
/-!
SUPPORT. The rows of the module's pins and power (19 R428 to R434): each keeps the queue of waiting commands and the invariant
of the module.
-/
namespace Sys2Proof.Machine

open Sys2Proof

@[simp] theorem State.after_bridgeOn (s : State) (ch : Ch) (w : Wk) : (s.after ch w).bridgeOn = s.bridgeOn := by
  rw [State.after_frame]
  rfl

@[simp] theorem State.onCh_bridgeOn (s : State) (ch : Ch) (f : Wk → Wk) : (s.onCh ch f).bridgeOn = s.bridgeOn :=
  s.after_bridgeOn ch _

/-- A channel's life after an operation on one channel. -/
theorem State.onCh_life (s : State) (ch k : Ch) (f : Wk → Wk) :
    (s.onCh ch f).chans[k].boot.life = if k = ch then (f (s.work ch)).c.boot.life else s.chans[k].boot.life := by
  rw [State.onCh_eq, State.after_chan]
  split <;> rfl

theorem Wk.reset_life (w : Wk) : w.reset.c.boot.life = .reset := rfl

namespace Confined

variable {s : State}

/-- Operations of the channels in turn that leave each of them in reset. -/
theorem foldl_reset {f : Wk → Wk} (h : ∀ w, (f w).c.boot.life = .reset) (l : List Ch) (s : State) :
    Confined none s (l.foldl (fun s ch => s.onCh ch f) s) ∧
    ∀ k : Ch, k ∈ l ∨ s.chans[k].boot.life = .reset →
      (l.foldl (fun s ch => s.onCh ch f) s).chans[k].boot.life = .reset := by
  induction l generalizing s with
  | nil => exact ⟨refl none s, fun k hk => hk.resolve_left (by simp)⟩
  | cons ch l ih =>
    obtain ⟨hc, hl⟩ := ih (s.onCh ch f)
    have first : Confined none s (s.onCh ch f) := (after (ch := ch) (f (s.work ch)) fun _ _ => h _).module
    refine ⟨first.trans hc, fun k hk => hl k ?_⟩
    rw [State.onCh_life]
    by_cases e : k = ch
    · exact .inr (by rw [if_pos e, h])
    · rw [if_neg e]
      exact hk.imp_left fun hm => (List.mem_cons.mp hm).resolve_left e

/-- Every channel is reset and stays in reset. -/
theorem resetAll {f : Channel → Channel} (h : ∀ c, c.boot.life = .reset → (f c).boot.life = .reset) (s : State) :
    Confined none s (s.resetAll f) ∧ ∀ k : Ch, (s.resetAll f).chans[k].boot.life = .reset := by
  have stays (w : Wk) : (w.reset.mod f).c.boot.life = .reset := h w.reset.c w.reset_life
  unfold State.resetAll
  obtain ⟨hc, hl⟩ := foldl_reset stays (List.finRange 8) s
  exact ⟨hc, fun k => hl k (.inl (List.mem_finRange k))⟩

/-- A new state of the bridge die, its host port down, while every channel is in reset. -/
theorem bridgeReset {b : Bridge} (hl : ∀ k : Ch, s.chans[k].boot.life = .reset)
    (hp : ModuleOk s → b.pgood = b.switchClosed) (ht : ModuleOk s → b.tripLatched = true → b.switchClosed = false)
    (hu : b.hostUp = false) (he : b.eids.length = 9 ∧ b.allowKnown.length = 8) :
    Confined none s { s with bridge := b } :=
  of_module rfl fun hs =>
    ⟨hp hs, ht hs, fun h => absurd (hu.symm.trans h) (by decide), fun _ => hl, hs.hostMem, hs.functions, he⟩

theorem switchOpen : Confined none s s.switchOpen := by
  obtain ⟨hc, hl⟩ := resetAll (f := Channel.powerOff) (fun _ h => h) s
  unfold State.switchOpen
  dsimp only
  generalize s.resetAll Channel.powerOff = t at hc hl ⊢
  exact hc.trans (bridgeReset hl (fun _ => rfl) (fun _ _ => rfl) rfl ⟨rfl, rfl⟩)

/-- The trip latches as the switch is open. -/
theorem tripped (h : s.bridge.switchClosed = false) : Confined none s { s with bridge := { s.bridge with tripLatched := true } } :=
  of_module rfl fun hs => ⟨hs.power, fun _ => h, hs.port, hs.off, hs.hostMem, hs.functions, hs.ids⟩

theorem moduleReset : Confined none s (moduleReset s) := by
  obtain ⟨hc, hl⟩ := resetAll (f := fun c => { c with
    boot := c.boot.noFunction0, gov := { c.gov with allow := 450, grant := 450, overalloc := false } }) (fun _ h => h) s
  unfold Machine.moduleReset
  dsimp only
  generalize State.resetAll s _ = t at hc hl ⊢
  exact hc.trans (bridgeReset hl (fun hs => hs.power) (fun hs => hs.trip) rfl ⟨rfl, rfl⟩)

/-- Every channel leaves reset in turn, while the bridge is on. -/
theorem foldl_release (on : s.bridgeOn = true) (l : List Ch) :
    Confined none s (l.foldl (fun s ch => s.onCh ch Wk.release) s) ∧
    (l.foldl (fun s ch => s.onCh ch Wk.release) s).bridgeOn = true := by
  induction l generalizing s with
  | nil => exact ⟨refl none s, on⟩
  | cons ch l ih =>
    have on' : (s.onCh ch Wk.release).bridgeOn = true := by rw [State.onCh_bridgeOn, on]
    obtain ⟨hc, ho⟩ := ih on'
    exact ⟨(onCh_of_on on _).module.trans hc, ho⟩

theorem releaseAll (on : s.bridgeOn = true) : Confined none s s.releaseAll := by
  obtain ⟨hc, ho⟩ := foldl_release on (List.finRange 8)
  unfold State.releaseAll
  dsimp only
  generalize List.foldl _ s _ = t at hc ho ⊢
  refine hc.trans (of_module rfl fun hs => ⟨hs.power, hs.trip, fun h => ⟨ho, ?_⟩, hs.off, hs.hostMem, hs.functions, hs.ids⟩)
  simpa using h

/-- The input switch closes on a module whose trip is not latched. -/
theorem switchClose (h : s.bridge.switchClosed = false) (ht : s.bridge.tripLatched = false) :
    Confined none s (switchClose s) := by
  have off : s.bridgeOn = false := by simp [State.bridgeOn, State.powered, h]
  have closed : Confined none s { s with bridge := { s.bridge with switchClosed := true, pgood := true } } := by
    refine of_module rfl fun hs => ⟨rfl, fun h => ?_, fun h => ?_, fun _ => hs.off off, hs.hostMem, hs.functions, hs.ids⟩
    · exact absurd ht (by rw [h]; decide)
    · exact absurd (hs.port h).1 (by rw [off]; decide)
  unfold Machine.switchClose
  refine ite (fun _ => closed) fun hm => closed.trans (releaseAll ?_)
  simpa [State.bridgeOn, State.powered] using hm

/-- A pin changes while the module stays off: nothing else follows. -/
theorem unpowered {m : Bool} (h : s.powered = false) : Confined none s { s with bridge := { s.bridge with modRst := m } } := by
  have off : s.bridgeOn = false := by simp [State.bridgeOn, h]
  have off' : State.bridgeOn { s with bridge := { s.bridge with modRst := m } } = false := by
    change (s.powered && !m) = false
    simp [h]
  refine of_module rfl fun hs => ⟨hs.power, hs.trip, fun hu => ?_, fun _ => hs.off off, hs.hostMem, hs.functions, hs.ids⟩
  exact absurd (hs.port hu).1 (by rw [off]; decide)

/-! ### Rows -/

theorem inputSwitchOpen (above : Bool) : ∃ t, execInputSwitchOpen above s = .next t ∧ Confined none s t := by
  refine ⟨_, rfl, ?_⟩
  have opened : Confined none s (if s.bridge.switchClosed then s.switchOpen else s) :=
    ite (fun _ => switchOpen) fun _ => refl none s
  refine ite (fun _ => opened) fun _ => opened.trans ?_
  exact of_module rfl fun hs => ⟨hs.power, nofun, hs.port, hs.off, hs.hostMem, hs.functions, hs.ids⟩

theorem thermalTrip : ∃ t, execThermalTrip s = .next t ∧ Confined none s t :=
  ⟨_, rfl, ite (fun _ => switchOpen.trans (tripped rfl)) fun _ => refl none s⟩

theorem inputSwitchClose : ∃ t, execInputSwitchClose s = .next t ∧ Confined none s t := by
  refine ⟨_, rfl, ite (fun _ => refl none s) fun h => ?_⟩
  simp only [Bool.or_eq_true, not_or, Bool.not_eq_true] at h
  exact switchClose h.1 h.2

theorem modRstNAssert : ∃ t, execModRstNAssert s = .next t ∧ Confined none s t :=
  ⟨_, rfl, ite (fun _ => refl none s) fun _ => ite (fun _ => moduleReset) fun h => unpowered (by simpa using h)⟩

theorem modRstNRelease : ∃ t, execModRstNRelease s = .next t ∧ Confined none s t := by
  refine ⟨_, rfl, ite (fun _ => refl none s) fun hm => ?_⟩
  have hm : s.bridge.modRst = true := by simpa using hm
  have off : s.bridgeOn = false := by simp [State.bridgeOn, hm]
  have released : Confined none s { s with bridge := { s.bridge with modRst := false } } :=
    of_module rfl fun hs => ⟨hs.power, hs.trip, fun hu => absurd (hs.port hu).1 (by rw [off]; decide), fun _ => hs.off off,
      hs.hostMem, hs.functions, hs.ids⟩
  refine ite (fun hp => released.trans (releaseAll ?_)) fun _ => released
  change (s.powered && !false) = true
  change (s.powered) = true at hp
  simpa using hp

theorem perstNAssert : ∃ t, execPerstNAssert s = .next t ∧ Confined none s t := by
  refine ⟨_, rfl, ite (fun _ => refl none s) fun _ => hostPortReset.trans ?_⟩
  have down : (Machine.hostPortReset s).bridge.hostUp = false := rfl
  generalize Machine.hostPortReset s = t at down ⊢
  exact of_module rfl fun hs => ⟨hs.power, hs.trip, fun hu => absurd (down.symm.trans hu) (by decide), hs.off, hs.hostMem, hs.functions, hs.ids⟩

theorem perstNRelease (refclk : Bool) : ∃ t, execPerstNRelease refclk s = .next t ∧ Confined none s t := by
  refine ⟨_, rfl, ite (fun _ => refl none s) fun _ => ?_⟩
  have pin : Confined none s { s with
      bridge := { s.bridge with perst := false, refMode := if refclk then .common else .sris } } :=
    of_module rfl fun hs => ⟨hs.power, hs.trip, fun hu => ⟨(hs.port hu).1, rfl⟩, hs.off, hs.hostMem, hs.functions, hs.ids⟩
  exact ite (fun on => pin.trans (hostPortReturn on rfl)) fun _ => pin

theorem hostPortReturn_row : ∃ t, execHostPortReturn s = .next t ∧ Confined none s t := by
  refine ⟨_, rfl, ite (fun h => ?_) fun _ => refl none s⟩
  simp only [Bool.and_eq_true, Bool.not_eq_true'] at h
  exact hostPortReturn h.1 h.2

theorem channelBoot_row (ch : Ch) : ∃ t, execChannelBoot ch s = .next t ∧ Confined none s t := by
  refine ⟨_, rfl, ite (fun h => channelBoot ?_) fun _ => refl none s⟩
  simp only [Bool.and_eq_true] at h
  simpa [State.bridgeOn] using h.1

theorem stackTempUpdate (ch : Ch) (i : Stack) (milliC : List Nat) :
    ∃ t, execStackTempUpdate ch i milliC s = .next t ∧ Confined (some ch) s t := by
  refine ⟨_, rfl, ite (fun _ => ?_) fun _ => refl _ s⟩
  exact (onCh_of_life (by rw [stackTempUpdate_boot]; rfl)).trans stackResumed

theorem functionLevelReset (ch : Ch) : ∃ t, execFunctionLevelReset ch s = .next t ∧ Confined (some ch) s t :=
  ⟨_, rfl, ite (fun h => resetChan (on_of_function0 h)) fun _ => refl _ s⟩

theorem bootCtrlReset (ch : Ch) (w : RegWrite) : ∃ t, execBootCtrlReset ch w s = .next t ∧ Confined (some ch) s t := by
  refine ⟨_, rfl, ite (fun h => onCh_of_up (up_of_hostOk ?_) _) fun _ => refl _ s⟩
  simp only [Bool.and_eq_true] at h
  exact h.1.1

theorem configRequest (ch : Ch) : ∃ t, execConfigRequest ch s = .next t ∧ Confined (some ch) s t := by
  refine ⟨_, rfl, ite (fun _ => ?_) fun _ => refl _ s⟩
  split <;> exact say _ _

end Confined

end Sys2Proof.Machine
end

