-- ==== Sys2Proof/Proofs/ModuleSteps.lean ====
section
/-!
SUPPORT. The case split over the commands, and the statements about every command that follow from it.
-/
namespace Sys2Proof.Machine

open Sys2Proof

theorem State.powered_ite_onCh {s : State} {ch : Ch} {f : Wk → Wk}
    (h : (f (s.work ch)).c.boot.life = s.chans[ch].boot.life) :
    Confined (some ch) s (if s.powered then s.onCh ch f else s) :=
  Confined.ite (fun _ => Confined.onCh_of_life h) fun _ => Confined.refl _ s

/-- Every command has a next state, and is confined to its channel where it is a channel's. -/
theorem exec_confined (i : Instr) (s : State) : ∃ t, exec i s = .next t ∧ Confined (chanOf i) s t := by
  cases i with
  | nop | semWait | semSignal | semSet | flDefine | stPrefetch | stCancel | cfReduce | cfBcast | cfBarrier | abUpdate
  | abFreeze | abScatter => exact ⟨_, rfl, Confined.onRun _ _ _⟩
  | mmFwd | mmBwd2 | mmBwd | cvFreeze | cvThaw | vxChain | vxSave | vxRestore | stCopy | stGather | stScatter | stPut =>
    exact ⟨_, rfl, Confined.onCoreRun _ _ _ _⟩
  | commandStart | commandComplete | floeShareDelivery | floeComplete | uncorrectableRead | linkControlFlit | nackReplay
  | ackTimeout | portDown | messageComplete | mack | mnack | commitToken | clockVote | heldTokenApply | skipToken | haltToken
  | rollbackToken | startToken | heartbeatSend | heartbeatReply => exact ⟨_, rfl, Confined.onUp _⟩
  | reductionMessage | resultDown | skewRelease | multicastAck | mctmoExpiry | mfetch => exact ⟨_, rfl, Confined.onCfl _⟩
  | doorbell | queueEnable | queueDisable | queueReset | queueResume | cqCplCiWrite | cqSemAdd | cqSemSet
  | hbdStageBaseWrite | nmonEvrCiWrite | morPause | morUnpause | trainingStart => exact ⟨_, rfl, Confined.onHost _⟩
  | queueDrained | bankHandover | bankRelease | fillLanded | helperUnit | ringRelease | rotatePush | rotateSwap | pageResume
  | pgtmoExpiry | pageEntryUpdate | addressGuardViolation | logicCheckFailure | watchdogExpiry | linkTrainingDone
  | payloadFlit | portRetrained | messageForward | stalltmoExpiry | lateFragment | mdrop | ethernetFrame
  | ingestStalltmoExpiry | segmentIssue | forwardAdmission | updIssue | stripeContribution | parityContribution | stepReport
  | reportForward | authorityDecide | mirrorAck | heartbeatReceive | hbtmoExpiry | standbyTakeover | mirrorAckTimeout
  | newStandby | linktmoExpiry | channelFault | rebuildRequest | rebuildResult | governorTick | pathMonitorMeasure
  | ageingRecordWrite | powerSample | backstopStep | arbiterSilence | thcutUpdate | droopDetect | droopRecover | pllWake
  | pllIdle | colddlyExpiry | arrayRowDisable | idleFlit | newStandbyAck | firstFaultHbtmoExpiry =>
    exact ⟨_, rfl, Confined.modUp _⟩
  | completionRecordWrite ch q => exact ⟨_, rfl, Confined.completionRecordWrite q⟩
  | bar2Access ch off len write => exact ⟨_, rfl, Confined.ite (fun _ => Confined.bar2 _ _ _) fun _ => Confined.refl _ s⟩
  | registerWrite fn off size value =>
    refine ⟨_, rfl, ?_⟩
    by_cases h : fn.val = 0
    · have e : chanOf (.registerWrite fn off size value) = none := dif_pos h
      rw [e]
      exact Confined.registerWrite_function0 h _ _ _
    · have e : chanOf (.registerWrite fn off size value) = some ⟨fn.val - 1, by omega⟩ := dif_neg h
      rw [e]
      exact Confined.registerWrite_channel h _ _ _
  | eskCtxConfig ch core x r w =>
    refine ⟨_, rfl, Confined.ite (fun h => Confined.modCh_of_up ?_ _) fun _ => Confined.refl _ s⟩
    simp only [Bool.and_eq_true] at h
    exact h.1
  | pageHalt ch t => exact ⟨_, rfl, Confined.pageHalt t⟩
  | badconnMark | refresh => exact ⟨_, rfl, Confined.modPowered rfl⟩
  | patrolScrub ch st addr errs last => exact ⟨_, rfl, State.powered_ite_onCh (by rw [patrolScrub_boot]; rfl)⟩
  | neveScrub ch c addr errs => exact ⟨_, rfl, State.powered_ite_onCh (by rw [neveScrub_boot]; rfl)⟩
  | stackTempUpdate ch st milliC => exact Confined.stackTempUpdate ch st milliC
  | ingestWrite ch p d => exact ⟨_, rfl, Confined.ite (fun _ => Confined.refl _ s) fun _ => Confined.onDatagram _ _ _⟩
  | ingestRead ch p d => exact ⟨_, rfl, Confined.ite (fun _ => Confined.onDatagram _ _ _) fun _ => Confined.refl _ s⟩
  | tjSample ch c tj =>
    exact ⟨_, rfl, Confined.ite (fun h => Confined.modCh_of_up h _) fun _ => Confined.modPowered rfl⟩
  | loanRecompute busy => exact ⟨_, rfl, Confined.ite (fun _ => Confined.loanRecompute busy) fun _ => Confined.refl _ s⟩
  | loanRecall ch => exact ⟨_, rfl, Confined.ite (fun _ => Confined.loanRecall) fun _ => Confined.refl _ s⟩
  | inletRead celsius =>
    exact ⟨_, rfl, Confined.ite (fun _ => Confined.modAll fun _ c => by rw [Channel.modGov_boot]) fun _ => Confined.refl _ s⟩
  | inputSwitchClose => exact Confined.inputSwitchClose
  | inputSwitchOpen above => exact Confined.inputSwitchOpen above
  | thermalTrip => exact Confined.thermalTrip
  | modRstNAssert => exact Confined.modRstNAssert
  | modRstNRelease => exact Confined.modRstNRelease
  | perstNAssert => exact Confined.perstNAssert
  | perstNRelease refclk => exact Confined.perstNRelease refclk
  | hostPortReset => exact ⟨_, rfl, Confined.ite (fun _ => Confined.hostPortReset) fun _ => Confined.refl _ s⟩
  | hostPortReturn => exact Confined.hostPortReturn_row
  | functionLevelReset ch => exact Confined.functionLevelReset ch
  | configRequest ch => exact Confined.configRequest ch
  | bootCtrlReset ch w => exact Confined.bootCtrlReset ch w
  | hbdChReset | hbdChHold | flownClaim => exact ⟨_, rfl, Confined.writeChCtrl _⟩
  | flashRead | flashErase | flashProgram => exact ⟨_, rfl, Confined.flashCommand _ _⟩
  | flashCommandDone ch => exact ⟨_, rfl, State.powered_ite_onCh (by rw [flashDone_life]; rfl)⟩
  | channelBoot ch => exact Confined.channelBoot_row ch
  | mbxIdentity | mbxConfigRead | mbxMeasurements | mbxUnknownRequest => exact ⟨_, rfl, Confined.mailbox _ _⟩
  | hssBatchReserve | hssTreeBuild | pldmHoldEffecter | pldmFirmwareUpdate | activateFirmware =>
    exact ⟨_, rfl, Confined.modBoot _⟩
  | getVersion ep tr => exact ⟨_, rfl, Confined.onSpdm fun _ => (Confined.setSpdm tr {}).trans (Confined.say _ _)⟩
  | getCapabilities | negotiateAlgorithms | getDigests | spdmUnsupportedRequest =>
    exact ⟨_, rfl, Confined.onSpdm fun _ => Confined.say _ _⟩
  | getCertificate ep tr slot off len => exact ⟨_, rfl, Confined.onSpdm fun _ => Confined.getCertificate slot off len⟩
  | challenge ep tr slot nonce => exact ⟨_, rfl, Confined.onSpdm fun _ => Confined.challenge tr slot nonce⟩
  | getMeasurements ep tr i nonce => exact ⟨_, rfl, Confined.onSpdm fun _ => Confined.getMeasurements tr i nonce⟩
  | vendorDefinedRequest ep tr code => exact ⟨_, rfl, Confined.onSpdm fun _ => Confined.vendorDefined tr code⟩
  | mctpControl ep r => exact ⟨_, rfl, Confined.onSpdm fun _ => Confined.mctpControl r⟩
  | pldmDiscovery ep code => exact ⟨_, rfl, Confined.onSpdm fun _ => Confined.pldmDiscovery code⟩
  | pldmSensorRead ch x =>
    refine ⟨_, rfl, Confined.onSpdm fun _ => ?_⟩
    split <;> exact Confined.say _ _
  | platformEventMessage ch => exact ⟨_, rfl, Confined.onSpdm fun _ => Confined.platformEvent⟩
  | pldmReset ch => exact ⟨_, rfl, Confined.onSpdm fun on => Confined.resetChan on⟩

/-- The next state of a command is the one that `exec_confined` speaks of. -/
theorem confined_of_next {i : Instr} {s t : State} (h : exec i s = .next t) : Confined (chanOf i) s t := by
  obtain ⟨u, hu, hc⟩ := exec_confined i s
  rw [hu] at h
  cases h
  exact hc

/-- Taking the front of the queue keeps the invariant, which says nothing of it. -/
theorem ModuleOk.pending {s : State} (h : ModuleOk s) (l : List Instr) : ModuleOk { s with pending := l } :=
  ⟨h.power, h.trip, h.port, h.off, h.hostMem, h.functions, h.ids⟩

/-- Settles O1: both cases are the two branches of `step`. -/
theorem stepRunsFront : Obligations.StepRunsFront := by
  unfold Obligations.StepRunsFront
  refine ⟨fun i rest s => rfl, fun s h => ?_⟩
  rw [step, h]

/-- Settles O2: every command is confined, which keeps the queue. -/
theorem execKeepsQueue : Obligations.ExecKeepsQueue := by
  unfold Obligations.ExecKeepsQueue
  exact fun i s t h => (confined_of_next h).pending

/-- Settles O3: at reset the switch is closed, no trip is latched, and nothing was written or sent. -/
theorem resetIsModuleOk : Obligations.ResetIsModuleOk := by
  unfold Obligations.ResetIsModuleOk
  exact ⟨rfl, nofun, fun _ => ⟨rfl, rfl⟩, nofun, Mem.wf_nil 0, nofun, ⟨rfl, rfl⟩⟩

/-- Settles O4: a step idles or runs a command, and every command is confined, which keeps the invariant. -/
theorem stepKeepsModuleOk : Obligations.StepKeepsModuleOk := by
  unfold Obligations.StepKeepsModuleOk
  intro s t hs h
  unfold step at h
  split at h
  · cases h
    exact hs
  · exact (confined_of_next h).ok (hs.pending _)

/-- Settles O5: every command of a channel is confined to it. -/
theorem channelsStayApart : Obligations.ChannelsStayApart := by
  unfold Obligations.ChannelsStayApart
  intro i ch k s t hi hk h
  have hc := confined_of_next h
  exact ⟨hc.apart ch k hi hk, hc.sent ch k hi hk⟩

end Sys2Proof.Machine
end

