-- ==== Sys2Proof/Proofs/Bytes.lean ====
section
/-!
SUPPORT. Numbers as bytes, fields of blocks, and the 64 bytes of a command (02 Table 2.2).
-/
namespace Sys2Proof.Machine

open Sys2Proof

@[simp] theorem toBytes_length (n v : Nat) : (toBytes n v).length = n := by
  induction n generalizing v with
  | zero => rfl
  | succ n ih => rw [toBytes, List.length_cons, ih]

/-- The bytes of a number give it back, as far as they go. -/
@[simp] theorem ofBytes_toBytes (n v : Nat) : ofBytes (toBytes n v) = v % 256 ^ n := by
  induction n generalizing v with
  | zero => simp [toBytes, ofBytes, Nat.mod_one]
  | succ n ih =>
    rw [toBytes, ofBytes, ih, BitVec.toNat_ofNat]
    exact (by rw [Nat.pow_succ', Nat.mod_mul] : v % 256 ^ (n + 1) = v % 256 + 256 * (v / 256 % 256 ^ n)).symm

/-- A field at the front of a block. -/
@[simp] theorem fld_toBytes (n v : Nat) (b : List Byte) : fld (toBytes n v ++ b) 0 n = v % 256 ^ n := by
  simp [fld]

@[simp] theorem fld_toBytes_all (n v : Nat) : fld (toBytes n v) 0 n = v % 256 ^ n := by
  simpa using fld_toBytes n v []

/-- A field behind the first bytes of a block. -/
theorem fld_append {a b : List Byte} {o : Nat} (h : a.length ≤ o) (n : Nat) : fld (a ++ b) o n = fld b (o - a.length) n := by
  rw [fld, fld, List.drop_append, List.drop_eq_nil_of_le h, List.nil_append]

@[simp] theorem fld_skip {k v o : Nat} {b : List Byte} (h : k ≤ o) (n : Nat) :
    fld (toBytes k v ++ b) o n = fld b (o - k) n := by
  have e := fld_append (a := toBytes k v) (b := b) (o := o) (by simpa using h) n
  rwa [toBytes_length] at e

theorem b2n_lt (b : Bool) : b2n b < 2 := by cases b <;> decide

@[simp] theorem b2n_eq_one (b : Bool) : decide (b2n b = 1) = b := by cases b <;> rfl

/-- A command's first word, and its second (02 Table 2.2). -/
def Command.word0 (k : Command) : Nat :=
  k.opc.toNat + 2 ^ 8 * b2n k.cpl + 2 ^ 9 * b2n k.irq + 2 ^ 10 * b2n k.waiten + 2 ^ 11 * b2n k.sigen
    + 2 ^ 12 * b2n k.strict + 2 ^ 13 * k.split.toNat + 2 ^ 16 * k.floe.toNat + 2 ^ 32 * k.wsem.toNat
    + 2 ^ 40 * k.ssem.toNat + 2 ^ 48 * k.tag.toNat

def Command.word1 (k : Command) : Nat := k.wval.toNat + 2 ^ 32 * k.sinc.toNat

theorem Command.bytes_eq (k : Command) : k.bytes = toBytes 8 k.word0 ++ (toBytes 8 k.word1 ++ (toBytes 8 k.a0.toNat ++
    (toBytes 8 k.a1.toNat ++ (toBytes 8 k.a2.toNat ++ (toBytes 8 k.a3.toNat ++ (toBytes 8 k.a4.toNat ++
      toBytes 8 k.a5.toNat)))))) := by
  simp only [Command.bytes, Command.word0, Command.word1, List.append_assoc]

theorem Command.bytes_length (k : Command) : k.bytes.length = 64 := by simp [Command.bytes_eq]

/-- A part of a number that is below 2^64 is what its 8 bytes give. -/
theorem BitVec.ofNat_toNat_mod (x : W64) : BitVec.ofNat 64 (x.toNat % 0x10000000000000000) = x := by
  have := x.isLt
  rw [Nat.mod_eq_of_lt (by omega), BitVec.ofNat_toNat, BitVec.setWidth_eq]

/-- The fields of the first word come apart. -/
theorem Command.word0_fields (k : Command) :
    k.word0 < 0x10000000000000000 ∧ k.word0 % 0x100 = k.opc.toNat ∧ k.word0 / 0x100 % 2 = b2n k.cpl ∧ k.word0 / 0x200 % 2 = b2n k.irq ∧
    k.word0 / 0x400 % 2 = b2n k.waiten ∧ k.word0 / 0x800 % 2 = b2n k.sigen ∧ k.word0 / 0x1000 % 2 = b2n k.strict ∧
    k.word0 / 0x2000 % 4 = k.split.toNat ∧ k.word0 / 0x10000 % 0x10000 = k.floe.toNat ∧
    k.word0 / 0x100000000 % 0x100 = k.wsem.toNat ∧ k.word0 / 0x10000000000 % 0x100 = k.ssem.toNat ∧
    k.word0 / 0x1000000000000 % 0x10000 = k.tag.toNat := by
  have := k.opc.isLt
  have := b2n_lt k.cpl
  have := b2n_lt k.irq
  have := b2n_lt k.waiten
  have := b2n_lt k.sigen
  have := b2n_lt k.strict
  have := k.split.isLt
  have := k.floe.isLt
  have := k.wsem.isLt
  have := k.ssem.isLt
  have := k.tag.isLt
  unfold Command.word0
  omega

theorem Command.word1_fields (k : Command) :
    k.word1 < 0x10000000000000000 ∧ k.word1 % 0x100000000 = k.wval.toNat ∧ k.word1 / 0x100000000 % 0x10000 = k.sinc.toNat := by
  have := k.wval.isLt
  have := k.sinc.isLt
  unfold Command.word1
  omega

theorem Command.parse_bytes (k : Command) : Command.parse k.bytes = k := by
  obtain ⟨h, hopc, hcpl, hirq, hwaiten, hsigen, hstrict, hsplit, hfloe, hwsem, hssem, htag⟩ := k.word0_fields
  obtain ⟨h', hwval, hsinc⟩ := k.word1_fields
  have e0 : fld k.bytes 0 8 = k.word0 := by simp [k.bytes_eq, Nat.mod_eq_of_lt h]
  have e1 : fld k.bytes 8 8 = k.word1 := by simp [k.bytes_eq, Nat.mod_eq_of_lt h']
  have opc : BitVec.ofNat 8 k.word0 = k.opc := BitVec.eq_of_toNat_eq (by rw [BitVec.toNat_ofNat, hopc])
  unfold Command.parse
  rw [e0, e1, k.bytes_eq]
  simp [Nat.testBit_eq_decide_div_mod_eq, bits, opc, hcpl, hirq, hwaiten, hsigen, hstrict, hsplit, hfloe, hwsem, hssem, htag,
    hwval, hsinc, BitVec.ofNat_toNat_mod]

/-- Settles O6: the eight words stand one behind the other, and each field at its place in its word. -/
theorem commandRoundTrip : Obligations.CommandRoundTrip := by
  unfold Obligations.CommandRoundTrip
  exact fun k => ⟨k.bytes_length, k.parse_bytes⟩

end Sys2Proof.Machine
end

