-- ==== Sys2Proof/Proofs/Completion.lean ====
section
/-!
SUPPORT. Rows that end a command at once, and COMMAND_COMPLETE: what is tidied up behind a finished command, and what retiring
a queue's command changes (02 R39, R42, R47).
-/
namespace Sys2Proof.Machine

open Sys2Proof

/-! ### Rows that only change the channel -/

/-- An operation that draws no free value and sends no message stores its channel. -/
theorem State.after_eq_put {s : State} {ch : Ch} {w : Wk} (hi : w.irqs = []) (hc : w.ctr = s.freeCtr) :
    s.after ch w = s.put ch w.c := by
  simp [State.after, State.put, hi, hc]

/-- A command's row that only changes the channel, and meets no uncorrectable word in part and no stopped stack. -/
theorem onRun_put {s : State} {ch : Ch} {src : Src} {opc : Byte} {r : Running} (h : Runs s ch src opc r)
    {f : Wk → Running → Wk} {d : Channel} (hf : f (s.fresh ch) r = { s.fresh ch with c := d }) (hp : d.poisonHit = none)
    (hw : d.waitHit = false) : onRun s ch src opc f = s.put ch d := by
  rw [onRun_eq h, hf, Wk.settle_clean hp hw]
  exact State.after_eq_put rfl rfl

theorem onRun_finish {s : State} {ch : Ch} {src : Src} {opc : Byte} {r : Running} (h : Runs s ch src opc r) :
    onRun s ch src opc (fun w r => w.mod fun c => c.finish r {}) = s.put ch (s.chans[ch].finish r {}) :=
  onRun_put h (d := s.chans[ch].landed.finish r {}) rfl rfl rfl

/-! ### The channel that an operation leaves -/

@[simp] theorem State.after_self_queues (s : State) (ch : Ch) (w : Wk) : (s.after ch w).chans[ch].queues = w.c.queues := by
  rw [State.after_self]
@[simp] theorem State.after_self_sems (s : State) (ch : Ch) (w : Wk) : (s.after ch w).chans[ch].sems = w.c.sems := by
  rw [State.after_self]
@[simp] theorem State.after_self_running (s : State) (ch : Ch) (w : Wk) : (s.after ch w).chans[ch].running = w.c.running := by
  rw [State.after_self]
@[simp] theorem State.after_self_inputs (s : State) (ch : Ch) (w : Wk) : (s.after ch w).chans[ch].inputs = w.c.inputs := by
  rw [State.after_self]
@[simp] theorem State.after_self_floes (s : State) (ch : Ch) (w : Wk) : (s.after ch w).chans[ch].floes = w.c.floes := by
  rw [State.after_self]
@[simp] theorem State.after_self_table (s : State) (ch : Ch) (w : Wk) : (s.after ch w).chans[ch].table = w.c.table := by
  rw [State.after_self]
@[simp] theorem State.after_self_rr (s : State) (ch : Ch) (w : Wk) : (s.after ch w).chans[ch].rr = w.c.rr := by
  rw [State.after_self]
@[simp] theorem State.after_self_mem (s : State) (ch : Ch) (w : Wk) : (s.after ch w).chans[ch].mem = w.c.mem := by
  rw [State.after_self]

theorem State.after_self_findRun (s : State) (ch : Ch) (w : Wk) (src : Src) :
    (s.after ch w).chans[ch].findRun src = w.c.findRun src := by
  rw [Channel.findRun, State.after_self_running, Channel.findRun]

theorem State.after_self_semVal (s : State) (ch : Ch) (w : Wk) (i : SemIdx) :
    (s.after ch w).chans[ch].semVal i = w.c.semVal i := by
  rw [Channel.semVal, State.after_self_sems, Channel.semVal]

/-! ### Lists of checks -/

theorem Ck.mapM_ok {α β : Type} {f : α → Ck β} {g : α → β} {l : List α} (h : ∀ x ∈ l, f x = .ok (g x)) :
    l.mapM f = .ok (l.map g) := by
  induction l with
  | nil => rfl
  | cons x l ih =>
    rw [List.mapM_cons, h x (by simp), ih fun y hy => h y (by simp [hy])]
    rfl

theorem Ck.ok_bind {α β : Type} (a : α) (f : α → Ck β) : ((Except.ok a : Ck α) >>= f) = f a := rfl
theorem Ck.error_bind {α β : Type} (e : Err) (f : α → Ck β) : ((Except.error e : Ck α) >>= f) = .error e := rfl
theorem need_true {p : Bool} (h : p = true) (e : Err) : need p e = .ok () := if_pos h
theorem need_false {p : Bool} (h : p = false) (e : Err) : need p e = .error e := if_neg (by rw [h]; decide)

/-! ### fl.define (02 R48 to R50) -/

/-- What a check reads of the dispatch table and of memory does not look at the row's own notes. -/
theorem Channel.memberOkGo_landed (c : Channel) (n level : Nat) (m : Member) :
    c.landed.memberOkGo n level m = c.memberOkGo n level m := by
  induction n generalizing level m with
  | zero => rfl
  | succ n ih =>
    unfold Channel.memberOkGo
    have e : c.landed.memberOkGo n = c.memberOkGo n := funext fun l => funext fun m => ih l m
    rw [e]
    rfl

theorem flDefine_landed (c : Channel) (r : Running) : flDefine c.landed r = flDefine c r := by
  have e (level : Nat) : c.landed.memberOk level = c.memberOk level := funext fun m => c.memberOkGo_landed _ _ m
  unfold flDefine
  simp only [e]
  rfl

/-- An entry of the dispatch table that fl.define may install, but for its members. -/
def entryOk (b : List Byte) (id : Nat) : Bool :=
  (fld b 0 1).testBit 0 && decide (bits (fld b 0 1) 3 1 ≤ 4) && decide (1 ≤ fld b 1 1 % 128) &&
    decide (fld b 1 1 % 128 ≤ 64) && fld b 8 6 % 4 == 0 && decide (0x100 ≤ id)

theorem entryOk_iff (b : List Byte) (id : Nat) : entryOk b id = true ↔
    (fld b 0 1).testBit 0 = true ∧ bits (fld b 0 1) 3 1 ≤ 4 ∧ 1 ≤ fld b 1 1 % 128 ∧ fld b 1 1 % 128 ≤ 64 ∧
      fld b 8 6 % 4 = 0 ∧ 0x100 ≤ id := by
  simp [entryOk, and_assoc]

section
variable {c : Channel} {r : Running} {b : List Byte} (hb : c.get (bits r.cmd.a0.toNat 47 0) 32 = .ok b)
include hb

theorem flDefine_bad_entry (h : entryOk b (bits r.cmd.a1.toNat 15 0) = false) : flDefine c r = .error (.status 0x12 0) := by
  unfold flDefine
  simp only [hb, Ck.ok_bind]
  exact congrArg (· >>= _) (need_false h _)

theorem flDefine_members {l : List Byte} {ok : Nat → Bool} (h : entryOk b (bits r.cmd.a1.toNat 15 0) = true)
    (hl : c.get (fld b 8 6) (4 * (fld b 1 1 % 128)) = .ok l)
    (hm : ∀ i < fld b 1 1 % 128, c.memberOk (bits (fld b 0 1) 3 1) (Member.parse (fld l (4 * i) 4)) = .ok (ok i)) :
    flDefine c r = if (List.range (fld b 1 1 % 128)).all ok then .ok (bits r.cmd.a1.toNat 15 0, b)
      else .error (.status 0x12 0) := by
  have oks : ((List.range (fld b 1 1 % 128)).map fun i => Member.parse (fld l (4 * i) 4)).mapM
      (c.memberOk (bits (fld b 0 1) 3 1)) = .ok ((List.range (fld b 1 1 % 128)).map ok) := by
    rw [List.mapM_map]
    exact Ck.mapM_ok fun i hi => hm i (List.mem_range.mp hi)
  unfold flDefine Channel.memberList
  simp only [hb, hl, Ck.ok_bind, pure_bind, oks, List.all_map]
  unfold entryOk at h
  rw [need_true h, Ck.ok_bind]
  by_cases ha : (List.range (fld b 1 1 % 128)).all ok = true
  · rw [if_pos ha, need_true (by simpa using ha)]
    rfl
  · rw [if_neg ha, need_false (by simpa using ha)]
    rfl
end

/-! ### Behind a finished command -/

/-- d is c with the marks of a finished command tidied up: registers of cores, stacks, ports and faults, the list of running
commands and the collectives. -/
def Tidied (c d : Channel) : Prop :=
  d = { c with
    cores := d.cores, running := d.running, ports := d.ports, stk := d.stk, flt := d.flt, colls := d.colls }

namespace Tidied

variable {c d e : Channel}

theorem refl (c : Channel) : Tidied c c := rfl

theorem trans (h : Tidied c d) (h' : Tidied d e) : Tidied c e := by
  unfold Tidied at *
  rw [h']
  rw [h]

theorem of_noted (h : Noted c d) : Tidied c d := by
  unfold Noted at h
  unfold Tidied
  rw [h]

theorem foldl {α : Type} {f : Channel → α → Channel} (h : ∀ c a, Tidied c (f c a)) (l : List α) (c : Channel) :
    Tidied c (l.foldl f c) := by
  induction l generalizing c with
  | nil => exact refl c
  | cons a l ih => exact (h c a).trans (ih _)

theorem define (h : Tidied c d) (r : Running) : Tidied (c.define r) (d.define r) := by
  unfold Tidied at *
  unfold Channel.define
  split <;> rw [h]

theorem queues (h : Tidied c d) : d.queues = c.queues := by rw [h]
theorem sems (h : Tidied c d) : d.sems = c.sems := by rw [h]
theorem table (h : Tidied c d) : d.table = c.table := by rw [h]
theorem floes (h : Tidied c d) : d.floes = c.floes := by rw [h]
theorem mem (h : Tidied c d) : d.mem = c.mem := by rw [h]
theorem frz (h : Tidied c d) : d.frz = c.frz := by rw [h]
theorem gov (h : Tidied c d) : d.gov = c.gov := by rw [h]

theorem modCtx (c : Channel) (k : Core) (x : Fin 16) (f : Ctx → Ctx) : Tidied c (c.modCtx k x f) := rfl
theorem finish (c : Channel) (r : Running) (res : Result) : Tidied c (c.finish r res) := rfl

theorem cancelDone (c : Channel) (r : Running) : Tidied c (cancelDone c r) := by
  unfold Machine.cancelDone
  split
  · dsimp only
    split
    · exact refl c
    · exact (foldl (fun c t => modCtx c _ _ _) _ c).trans (finish _ _ _)
  · exact refl c

theorem releaseSlots (c : Channel) (r : Running) : Tidied c (releaseSlots c r) := by
  have done (k : Core) (l : List (Nat × Nat)) (c : Channel) : Tidied c (l.foldl (fun c (x, i) =>
      if h : x < 16 then c.modCtx k ⟨x, h⟩ fun t => t.readerDone i else c) c) :=
    foldl (fun c p => by dsimp only; split <;> rfl) l c
  unfold Machine.releaseSlots
  split
  · exact refl c
  · split
    · exact refl c
    · exact (done _ _ c).trans (foldl cancelDone _ _)

theorem classifyEnd (c : Channel) (res : Result) : Tidied c (c.classifyEnd res) := by
  unfold Channel.classifyEnd
  split
  · exact of_noted (Noted.classifyUe c _)
  · exact refl c

end Tidied

@[simp] theorem Channel.define_queues (c : Channel) (r : Running) : (c.define r).queues = c.queues := by
  unfold Channel.define; split <;> rfl
@[simp] theorem Channel.define_sems (c : Channel) (r : Running) : (c.define r).sems = c.sems := by
  unfold Channel.define; split <;> rfl
@[simp] theorem Channel.define_mem (c : Channel) (r : Running) : (c.define r).mem = c.mem := by
  unfold Channel.define; split <;> rfl
@[simp] theorem Channel.define_frz (c : Channel) (r : Running) : (c.define r).frz = c.frz := by
  unfold Channel.define; split <;> rfl
@[simp] theorem Channel.define_floes (c : Channel) (r : Running) : (c.define r).floes = c.floes := by
  unfold Channel.define; split <;> rfl
@[simp] theorem Channel.define_gov (c : Channel) (r : Running) : (c.define r).gov = c.gov := by
  unfold Channel.define; split <;> rfl

/-- The entry that a fl.define holds stands once it completes, under its identifier and no other (R50). -/
theorem Channel.define_lookup {c : Channel} {r : Running} {id : Nat} {b : List Byte} (h : r.defines = some (id, b)) (j : Nat) :
    (c.define r).table.lookup j = if j = id then some b else c.table.lookup j := by
  have others (l : List (Nat × List Byte)) (hj : j ≠ id) : (l.filter fun x => x.1 != id).lookup j = l.lookup j := by
    induction l with
    | nil => rfl
    | cons x l ih =>
      obtain ⟨k, v⟩ := x
      by_cases hk : k = id
      · have e : (j == k) = false := by simpa [hk] using hj
        simp [hk, List.lookup, ih, hk ▸ e]
      · simp [hk, List.lookup, ih]
  unfold Channel.define
  rw [h]
  dsimp only
  by_cases hj : j = id
  · simp [hj, List.lookup]
  · have e : (j == id) = false := by simpa using hj
    rw [if_neg hj, List.lookup, e, others _ hj]

/-- What COMMAND_COMPLETE leaves of the channel before the result goes where it belongs. -/
def Channel.tidy (c : Channel) (ctr : Nat) (src : Src) (r : Running) (res : Result) : Channel :=
  let c := (((releaseSlots c r).define r).disown src).tally ctr
  ({ c with running := c.running.filter (fun x => x.src != src), colls := c.colls.filter fun k => k.src != src } : Channel).classifyEnd
    res

theorem Channel.tidy_tidied (c : Channel) (ctr : Nat) (src : Src) (r : Running) (res : Result) :
    Tidied (c.define r) (c.tidy ctr src r res) := by
  refine ((Tidied.releaseSlots c r).define r).trans (Tidied.trans ?_ (Tidied.classifyEnd _ res))
  rfl

theorem Channel.classifyEnd_running (c : Channel) (res : Result) : (c.classifyEnd res).running = c.running := by
  unfold Channel.classifyEnd
  split
  · exact (Noted.classifyUe c _).running
  · rfl

/-- The command runs no more. -/
theorem Channel.tidy_findRun (c : Channel) (ctr : Nat) (src : Src) (r : Running) (res : Result) :
    (c.tidy ctr src r res).findRun src = none := by
  unfold Channel.findRun Channel.tidy
  rw [Channel.classifyEnd_running]
  simp [List.find?_eq_none]

section
variable {w : Wk} {src : Src} {r : Running} {res : Result} (hf : w.c.findRun src = some r) (hr : r.result = some res)
include hf hr

theorem commandComplete_share {sh : Share} (hs : r.share = some sh) :
    commandComplete w src = { w with c := (w.c.tidy w.ctr src r res).shareDone sh.ref res } := by
  unfold commandComplete
  simp only [hf, hr, hs]
  rfl

theorem commandComplete_input {e : Engine} (he : src = .input e) (hs : r.share = none) :
    commandComplete w src = { w with c := w.c.tidy w.ctr src r res } := by
  subst he
  unfold commandComplete
  simp only [hf, hr, hs]
  rfl

theorem commandComplete_queue {q : QIdx} (hq : src = .queue q) (hs : r.share = none) :
    commandComplete w src = ({ w with c := w.c.tidy w.ctr src r res } : Wk).retire q r.cmd r.seq res (r.cmd.isFloe q) := by
  subst hq
  unfold commandComplete
  simp only [hf, hr, hs]
  rfl
end

/-! ### Retiring a queue's command -/

/-- Whether the signal of a queue's command is made as it completes (R39, 15 R347; log 69). -/
def Channel.signals (c : Channel) (q : QIdx) (k : Command) (res : Result) (floe : Bool) : Bool :=
  res.status = 0 && k.sigen && !(match queueEngine q.val with | some e => c.isFrozen (.engine e) | none => false) &&
    !(k.skewed && !floe)

theorem Channel.signals_iff (c : Channel) (q : QIdx) (k : Command) (res : Result) (floe : Bool) :
    c.signals q k res floe = true ↔ res.status = 0 ∧ k.sigen = true ∧
      (∀ e, queueEngine q.val = some e → c.isFrozen (.engine e) = false) ∧
      ¬(k.opc = 0x42 ∧ k.a0.getLsbD 16 = true ∧ floe = false) := by
  have thawed : (match queueEngine q.val with | some e => c.isFrozen (.engine e) | none => false) = false ↔
      ∀ e, queueEngine q.val = some e → c.isFrozen (.engine e) = false := by
    cases queueEngine q.val <;> simp
  have skewed : (!(k.skewed && !floe)) = true ↔ ¬(k.opc = 0x42 ∧ k.a0.getLsbD 16 = true ∧ floe = false) := by
    rw [Bool.not_eq_true', ← Bool.not_eq_true, not_iff_not]
    simp [Command.skewed, and_assoc]
  unfold Channel.signals
  rw [Bool.and_eq_true, Bool.and_eq_true, Bool.and_eq_true, skewed, Bool.not_eq_true', thawed, decide_eq_true_eq]
  simp only [and_assoc]

/-- The record that a command leaves. -/
def recordOf (k : Command) (seq : W32) (res : Result) (floe : Bool) (t : W64) : Record :=
  { seq := seq, tag := k.tag, res := res, floe := floe, warn := warnOf k.opc res, irq := k.irq && k.cpl, time := t }

/-- What a queue is after its command has retired. -/
def Queue.retired (x : Queue) (k : Command) (seq : W32) (res : Result) (rec : Record) : Queue :=
  let x := if isError res.status then { x with stopped := true, faultSeq := seq } else x
  let x := { x with tail := if k.opc = 0x35 && res.status = 0 then x.tail else none }
  if k.cpl || isError res.status then { x with waiting := x.waiting ++ [rec] } else x

theorem Wk.retire_eq (w : Wk) (q : QIdx) (k : Command) (seq : W32) (res : Result) (floe : Bool) :
    w.retire q k seq res floe = { w.time.1 with
      c := (if w.c.signals q k res floe then w.time.1.c.semAdd k.ssem k.sinc.toNat else w.time.1.c).modQ q fun x =>
        x.retired k seq res (recordOf k seq res floe w.time.2) } := rfl

@[simp] theorem Queue.retired_stopped (x : Queue) (k : Command) (seq : W32) (res : Result) (rec : Record) :
    (x.retired k seq res rec).stopped = (isError res.status || x.stopped) := by
  unfold Queue.retired
  dsimp only
  cases isError res.status <;> split <;> rfl

@[simp] theorem Queue.retired_faultSeq (x : Queue) (k : Command) (seq : W32) (res : Result) (rec : Record) :
    (x.retired k seq res rec).faultSeq = if isError res.status then seq else x.faultSeq := by
  unfold Queue.retired
  dsimp only
  cases isError res.status <;> split <;> rfl

@[simp] theorem Queue.retired_waiting (x : Queue) (k : Command) (seq : W32) (res : Result) (rec : Record) :
    (x.retired k seq res rec).waiting = x.waiting ++ if k.cpl || isError res.status then [rec] else [] := by
  unfold Queue.retired
  dsimp only
  split
  · cases isError res.status <;> rfl
  · cases isError res.status <;> simp

/-- A queue of which a command has retired, beside the others. -/
theorem Wk.retire_queues (w : Wk) (q j : QIdx) (k : Command) (seq : W32) (res : Result) (floe : Bool) :
    (w.retire q k seq res floe).c.queues[j] =
      if j = q then w.c.queues[q].retired k seq res (recordOf k seq res floe w.time.2) else w.c.queues[j] := by
  rw [Wk.retire_eq]
  dsimp only
  rw [Channel.modQ_get]
  split <;> split <;> rfl

theorem Wk.retire_semVal (w : Wk) (q : QIdx) (k : Command) (seq : W32) (res : Result) (floe : Bool) (i : SemIdx) :
    (w.retire q k seq res floe).c.semVal i =
      w.c.semVal i + if i = k.ssem ∧ w.c.signals q k res floe = true then BitVec.ofNat 32 k.sinc.toNat else 0 := by
  rw [Wk.retire_eq]
  cases h : w.c.signals q k res floe with
  | false => simp [Channel.semVal, Wk.time]
  | true =>
    by_cases e : i = k.ssem
    · subst e
      simp [Channel.semVal, Channel.semAdd, Wk.time]
    · have e' : k.ssem.toNat ≠ i.toNat := fun h => e (BitVec.eq_of_toNat_eq h.symm)
      simp [Channel.semVal, Channel.semAdd, Wk.time, e, e']

theorem Wk.retire_mem (w : Wk) (q : QIdx) (k : Command) (seq : W32) (res : Result) (floe : Bool) :
    (w.retire q k seq res floe).c.mem = w.c.mem := by
  rw [Wk.retire_eq]
  dsimp only
  split <;> rfl

theorem Wk.retire_running (w : Wk) (q : QIdx) (k : Command) (seq : W32) (res : Result) (floe : Bool) :
    (w.retire q k seq res floe).c.running = w.c.running := by
  rw [Wk.retire_eq]
  dsimp only
  split <;> rfl

theorem Wk.retire_table (w : Wk) (q : QIdx) (k : Command) (seq : W32) (res : Result) (floe : Bool) :
    (w.retire q k seq res floe).c.table = w.c.table := by
  rw [Wk.retire_eq]
  dsimp only
  split <;> rfl

theorem Channel.shareDone_table (c : Channel) (sh : ShareRef) (res : Result) : (c.shareDone sh res).table = c.table := by
  unfold Channel.shareDone
  split
  · rfl
  · rfl
  · exact (Noted.of_reported (Reported.post c _ _)).table

/-- The table after COMMAND_COMPLETE holds what the command defines. -/
theorem commandComplete_table {w : Wk} {src : Src} {r : Running} {res : Result} (hf : w.c.findRun src = some r)
    (hr : r.result = some res) : (commandComplete w src).c.table = (w.c.define r).table := by
  have tidy := (w.c.tidy_tidied w.ctr src r res).table
  cases hs : r.share with
  | some sh => rw [commandComplete_share hf hr hs, Channel.shareDone_table, tidy]
  | none =>
    cases src with
    | queue q => rw [commandComplete_queue hf hr rfl hs, Wk.retire_table, tidy]
    | input e => rw [commandComplete_input hf hr rfl hs, tidy]

theorem exec_commandComplete {s : State} {ch : Ch} (hu : s.chans[ch].up = true) (src : Src) :
    exec (.commandComplete ch src) s = .next (s.after ch (commandComplete (s.work ch) src)) := by
  change Host.Outcome.next (onUp s ch fun w => commandComplete w src) = _
  rw [onUp_eq hu]

/-! ### The statements -/

theorem exec_semSet {s : State} {ch : Ch} {src : Src} {r : Running} (h : Runs s ch src 0x03 r) :
    exec (.semSet ch src) s = .next (s.put ch ((s.chans[ch].semSet (BitVec.ofNat 8 r.cmd.a0.toNat)
      (BitVec.ofNat 32 (r.cmd.a0.toNat / 2 ^ 32))).finish r {})) := by
  have value : BitVec.ofNat 32 (bits r.cmd.a0.toNat 63 32) = BitVec.ofNat 32 (r.cmd.a0.toNat / 2 ^ 32) := by
    apply BitVec.eq_of_toNat_eq
    simp [bits]
  have index : r.cmd.a0.setWidth 8 = BitVec.ofNat 8 r.cmd.a0.toNat := by
    rw [BitVec.ofNat_toNat]
  have e : exec (.semSet ch src) s = .next (s.put ch ((s.chans[ch].landed.semSet (r.cmd.a0.setWidth 8)
      (BitVec.ofNat 32 (bits r.cmd.a0.toNat 63 32))).finish r {})) :=
    congrArg Host.Outcome.next (onRun_put h rfl rfl rfl)
  rw [e, value, index]
  rfl

/-- fl.define ends with status 0x12 and writes nothing where its entry or a member of it fails. -/
theorem exec_flDefine_refused {s : State} {ch : Ch} {src : Src} {r : Running} (h : Runs s ch src 0x04 r)
    (hd : flDefine s.chans[ch] r = .error (.status 0x12 0)) :
    exec (.flDefine ch src) s = .next (s.put ch (s.chans[ch].finish r { status := 0x12 })) := by
  refine congrArg Host.Outcome.next (onRun_put h (d := s.chans[ch].landed.finish r { status := 0x12 }) ?_ rfl rfl)
  have e : flDefine (s.fresh ch).c r = .error (.status 0x12 0) := (flDefine_landed _ _).trans hd
  dsimp only
  rw [e]
  rfl

theorem exec_flDefine_taken {s : State} {ch : Ch} {src : Src} {r : Running} {d : Nat × List Byte} (h : Runs s ch src 0x04 r)
    (hd : flDefine s.chans[ch] r = .ok d) :
    exec (.flDefine ch src) s = .next (s.put ch (s.chans[ch].finish { r with defines := some d } {})) := by
  refine congrArg Host.Outcome.next (onRun_put h (d := s.chans[ch].landed.finish { r with defines := some d } {}) ?_ rfl rfl)
  have e : flDefine (s.fresh ch).c r = .ok d := (flDefine_landed _ _).trans hd
  dsimp only
  rw [e]
  rfl

/-- A check that answers on every member answers by a test of its index. -/
theorem Ck.exists_answers {f : Nat → Ck Bool} {n : Nat} (h : ∀ i < n, ∃ ok, f i = .ok ok) :
    ∃ ok : Nat → Bool, ∀ i < n, f i = .ok (ok i) := by
  refine ⟨fun i => match f i with | .ok b => b | .error _ => false, fun i hi => ?_⟩
  obtain ⟨ok, e⟩ := h i hi
  simp only [e]

/-- Settles O7: the first rows end their command at once; fl.define is `flDefine` on its entry and its members, and the entry
stands as COMMAND_COMPLETE tidies up. -/
theorem dispatcherOpcodes : Obligations.DispatcherOpcodes := by
  unfold Obligations.DispatcherOpcodes
  refine ⟨fun s ch src r => ⟨fun h => ?_, fun h => ?_, fun h => ?_, fun h => ?_⟩, ?_, ?_⟩
  · exact congrArg Host.Outcome.next (onRun_finish h)
  · exact congrArg Host.Outcome.next (onRun_finish h)
  · exact congrArg Host.Outcome.next (onRun_finish h)
  · exact exec_semSet h
  · rintro s ch src r _ b _ _ _ _ h rfl hb rfl rfl rfl rfl
    have entry := entryOk_iff b (bits r.cmd.a1.toNat 15 0)
    constructor
    · intro he l hl
      have he := entry.mpr he
      constructor
      · intro hm
        have e := flDefine_members hb he hl (ok := fun _ => true) hm
        rw [if_pos (by simp)] at e
        exact exec_flDefine_taken h e
      · rintro hm ⟨i, hi, hbad⟩
        obtain ⟨ok, hok⟩ := Ck.exists_answers hm
        have e := flDefine_members hb he hl hok
        have bad : ok i = false := Except.ok.inj ((hok i hi).symm.trans hbad)
        rw [if_neg fun ha => absurd (List.all_eq_true.mp ha i (List.mem_range.mpr hi)) (by rw [bad]; decide)] at e
        exact exec_flDefine_refused h e
    · intro he
      refine exec_flDefine_refused h (flDefine_bad_entry hb ?_)
      rw [← Bool.not_eq_true]
      exact fun he' => he (entry.mp he')
  · intro s ch src r res id b hu hf hr hd
    refine ⟨_, exec_commandComplete hu src, fun j => ?_⟩
    have e : (commandComplete (s.work ch) src).c.table = (s.chans[ch].define r).table := commandComplete_table hf hr
    rw [State.after_self_table, e, Channel.define_lookup hd]

/-- Settles O14: COMMAND_COMPLETE tidies up behind the command and retires it. -/
theorem commandComplete_spec : Obligations.CommandComplete := by
  unfold Obligations.CommandComplete
  rintro s ch q r res _ _ err rfl rfl hu hf hr hs rfl
  have tidy := s.chans[ch].tidy_tidied s.freeCtr (.queue q) r res
  have queues : (s.chans[ch].tidy s.freeCtr (.queue q) r res).queues = s.chans[ch].queues :=
    tidy.queues.trans (Channel.define_queues _ _)
  have hc : commandComplete (s.work ch) (.queue q) = _ := commandComplete_queue hf hr rfl hs
  refine ⟨_, _, exec_commandComplete hu _, rfl, ?_, ?_, ?_, ?_, fun i => ?_, ?_, fun j hj => ?_⟩
  · rw [State.after_self_findRun, hc, Channel.findRun, Wk.retire_running]
    exact Channel.tidy_findRun _ _ _ _ _
  · rw [State.after_self_queues, hc, Wk.retire_queues, if_pos rfl, Queue.retired_stopped]
    exact congrArg (_ || ·) (congrArg (fun v => v[q].stopped) queues)
  · rw [State.after_self_queues, hc, Wk.retire_queues, if_pos rfl, Queue.retired_faultSeq]
    exact congrArg (ite _ _) (congrArg (fun v => v[q].faultSeq) queues)
  · rw [State.after_self_queues, hc, Wk.retire_queues, if_pos rfl, Queue.retired_waiting]
    have gov := tidy.gov.trans (Channel.define_gov _ _)
    simp only [recordOf, Wk.time, State.work, gov, queues, isError]
  · rw [State.after_self_semVal, hc, Wk.retire_semVal]
    have frz := tidy.frz.trans (Channel.define_frz _ _)
    have sems := tidy.sems.trans (Channel.define_sems _ _)
    have signals := Channel.signals_iff (s.chans[ch].tidy s.freeCtr (.queue q) r res) q r.cmd res (r.cmd.isFloe q)
    simp only [Channel.isFrozen, frz] at signals
    simp only [State.work, Channel.semVal, sems, signals, Channel.isFrozen]
    congr
  · rw [State.after_self_mem, hc, Wk.retire_mem]
    exact tidy.mem.trans (Channel.define_mem _ _)
  · rw [State.after_self_queues, hc, Wk.retire_queues, if_neg hj]
    exact congrArg (fun v => v[j]) queues

end Sys2Proof.Machine
end

