-- ==== Sys2Proof/Proofs/Floes.lean ====
section
/-!
SUPPORT. Floe commands (01 R12 to R15, 02 R51): the delivery of a share, the end of a floe command, the split of a command's
blocks, and how members' results combine.
-/
namespace Sys2Proof.Machine

open Sys2Proof

/-! ### Shares of blocks (R13) -/

/-- Member i's range in one form: it begins behind i shares of the quotient and the extra blocks of those before it. -/
theorem shares_getElem {B M i : Nat} (h : i < (shares B M).length) :
    (shares B M)[i] = (i * (B / M) + min i (B % M), B / M + if i < B % M then 1 else 0) := by
  simp only [shares, List.getElem_map, List.getElem_range]
  split
  · next hi => rw [Nat.min_eq_left hi.le, Nat.mul_add, Nat.mul_one]
  · next hi =>
    obtain ⟨d, rfl⟩ := Nat.exists_eq_add_of_le (Nat.le_of_not_lt hi)
    rw [Nat.min_eq_right (Nat.le_add_right _ _), Nat.add_sub_cancel_left]
    congr 1
    ring

@[simp] theorem shares_length (B M : Nat) : (shares B M).length = M := by simp [shares]

/-- The first i shares together end where share i begins. -/
theorem shares_take_sum (B M : Nat) : ∀ i ≤ M, (((shares B M).take i).map Prod.snd).sum = i * (B / M) + min i (B % M)
  | 0, _ => by simp
  | i + 1, h => by
    have hi : i < (shares B M).length := by rwa [shares_length]
    rw [List.take_add_one, List.getElem?_eq_getElem hi, Option.toList_some, List.map_append, List.sum_append,
      shares_take_sum B M i (Nat.le_of_succ_le h), shares_getElem hi]
    simp only [List.map_cons, List.map_nil, List.sum_cons, List.sum_nil]
    split
    · next hlt => rw [Nat.min_eq_left hlt.le, Nat.min_eq_left (Nat.succ_le_of_lt hlt), Nat.succ_eq_add_one]; ring
    · next hle => rw [Nat.min_eq_right (by omega), Nat.min_eq_right (by omega)]; ring

theorem shares_sum {B M : Nat} (h : 0 < M) : ((shares B M).map Prod.snd).sum = B := by
  have e := shares_take_sum B M M le_rfl
  rw [List.take_of_length_le (by simp), Nat.min_eq_right (Nat.mod_lt B h).le] at e
  rw [e, Nat.div_add_mod]

/-! ### The status of a floe command (R15) -/

/-- The status of parts none of which is an error: 0x1A before 0x19 before 0x00. -/
def mildest (l : List Byte) : Byte := if 0x1A ∈ l then 0x1A else if 0x19 ∈ l then 0x19 else 0x00

theorem not_isError_iff (st : Byte) : isError st = false ↔ st = 0x00 ∨ st = 0x19 ∨ st = 0x1A := by
  simp only [isError, Bool.and_eq_false_iff, bne_eq_false_iff_eq, or_assoc]

theorem mildest_not_error (l : List Byte) : isError (mildest l) = false := by
  unfold mildest
  split_ifs <;> rfl

theorem statusJoin_mild {a b : Byte} (ha : isError a = false) (hb : isError b = false) : statusJoin a b = mildest [a, b] := by
  have swap (x : Byte) : x = a ∨ x = b ↔ a = x ∨ b = x := or_congr eq_comm eq_comm
  simp [statusJoin, ha, hb, mildest, swap]

theorem mildest_cons_cons {a b : Byte} (ha : isError a = false) (hb : isError b = false) (l : List Byte) :
    mildest (mildest [a, b] :: l) = mildest (a :: b :: l) := by
  rcases (not_isError_iff a).mp ha with rfl | rfl | rfl <;> rcases (not_isError_iff b).mp hb with rfl | rfl | rfl <;>
    simp [mildest]

theorem foldl_resJoin_status (opc : Byte) (r : Result) (l : List Result) (hr : isError r.status = false)
    (hl : ∀ x ∈ l, isError x.status = false) :
    (l.foldl (resJoin opc) r).status = mildest (r.status :: l.map Result.status) := by
  induction l generalizing r with
  | nil =>
    rcases (not_isError_iff _).mp hr with h | h | h <;> simp [h, mildest]
  | cons x l ih =>
    have hx := hl x (by simp)
    have e : (resJoin opc r x).status = mildest [r.status, x.status] := statusJoin_mild hr hx
    rw [List.foldl_cons, ih _ (by rw [e]; exact mildest_not_error _) fun y hy => hl y (by simp [hy]), e,
      mildest_cons_cons hr hx, List.map_cons]

theorem opcUnit_cfl {o : Byte} (h : opcUnit o = some .cfl) (a b : W64) : infoJoin o a b = a := by
  have ho : o.toNat = 0x40 ∨ o.toNat = 0x41 ∨ o.toNat = 0x42 := by
    unfold opcUnit at h
    split at h <;> simp_all
  unfold infoJoin
  rcases ho with e | e | e <;> rw [e] <;> rfl

/-- INFO of Confluence's floe commands is the first member's (15 R351). -/
theorem foldl_resJoin_info {opc : Byte} (h : opcUnit opc = some .cfl) (l : List Result) (r : Result) :
    (l.foldl (resJoin opc) r).info = r.info := by
  induction l generalizing r with
  | nil => rfl
  | cons x l ih =>
    rw [List.foldl_cons, ih]
    exact opcUnit_cfl h _ _

/-- The members' results put together, as far as no member is in error. -/
def FloeRun.joined (f : FloeRun) : Result :=
  match f.members.map fun m => m.result.getD {} with
  | [] => {}
  | r :: rest => rest.foldl (resJoin f.cmd.opc) { r with info := infoJoin f.cmd.opc r.info 0 }

/-- The member that a floe command in error names. -/
def FloeRun.failing (f : FloeRun) : Option (MemberState × Nat) :=
  f.members.zipIdx.find? fun (m, _) => (m.result.map fun r => isError r.status).getD false

theorem FloeRun.result_eq (f : FloeRun) : f.result =
    match f.failing with
    | some (m, i) => { f.joined with
        status := 0x18
        info := if opcUnit f.cmd.opc = some .mor then 0 else if opcUnit f.cmd.opc = some .cfl then f.joined.info
          else (m.result.getD {}).info
        member := BitVec.ofNat 32 (m.member.chan.toNat * 2 ^ 16 + i) }
    | none => { f.joined with member := 0 } := rfl

theorem getD_map_isError (m : MemberState) :
    (m.result.map fun r => isError r.status).getD false = isError (m.result.getD {}).status := by
  cases m.result <;> rfl

/-- The lowest-numbered member in error is the one named. -/
theorem FloeRun.failing_eq_some {f : FloeRun} {i : Nat} {m : MemberState} (hi : f.members[i]? = some m)
    (hm : isError (m.result.getD {}).status = true)
    (hl : ∀ j n, j < i → f.members[j]? = some n → isError (n.result.getD {}).status = false) : f.failing = some (m, i) := by
  obtain ⟨hi', rfl⟩ := List.getElem?_eq_some_iff.mp hi
  unfold FloeRun.failing
  rw [List.find?_eq_some_iff_getElem]
  refine ⟨by simpa [getD_map_isError] using hm, i, by simpa using hi', by simp, fun j hj => ?_⟩
  have := hl j _ hj (List.getElem?_eq_getElem (hj.trans hi'))
  simpa [getD_map_isError] using this

theorem FloeRun.failing_eq_none {f : FloeRun} (h : ∀ m ∈ f.members, isError (m.result.getD {}).status = false) :
    f.failing = none := by
  unfold FloeRun.failing
  rw [List.find?_eq_none]
  rintro ⟨m, i⟩ hm
  simpa [getD_map_isError] using h m (List.fst_mem_of_mem_zipIdx hm)

theorem FloeRun.joined_info {f : FloeRun} (h : opcUnit f.cmd.opc = some .cfl) :
    f.joined.info = (((f.members.head?).bind (·.result)).getD {}).info := by
  unfold FloeRun.joined
  cases f.members with
  | nil => rfl
  | cons m l =>
    simp only [List.map_cons, foldl_resJoin_info h, opcUnit_cfl h, List.head?_cons, Option.bind_some]

theorem FloeRun.joined_status {f : FloeRun} (h : ∀ m ∈ f.members, isError (m.result.getD {}).status = false) :
    f.joined.status = mildest (f.members.map fun m => (m.result.getD {}).status) := by
  unfold FloeRun.joined
  cases hm : f.members with
  | nil => rfl
  | cons m l =>
    rw [hm] at h
    simp only [List.map_cons]
    rw [foldl_resJoin_status]
    · simp [List.map_map, Function.comp_def]
    · exact h m (by simp)
    · rintro x hx
      obtain ⟨n, hn, rfl⟩ := List.mem_map.mp hx
      exact h n (by simp [hn])

theorem mildest_map (l : List MemberState) : mildest (l.map fun m => (m.result.getD {}).status) =
    if ∃ m ∈ l, (m.result.getD {}).status = 0x1A then 0x1A
    else if ∃ m ∈ l, (m.result.getD {}).status = 0x19 then 0x19 else 0x00 := by
  simp only [mildest, List.mem_map]

/-! ### Rows -/

theorem exec_floeComplete {s : State} {ch : Ch} (hu : s.chans[ch].up = true) (src : Src) :
    exec (.floeComplete ch src) s = .next (s.after ch (floeComplete (s.work ch) src)) := by
  change Host.Outcome.next (onUp s ch fun w => floeComplete w src) = _
  rw [onUp_eq hu]

theorem floeComplete_queue {w : Wk} {q : QIdx} {f : FloeRun} (hp : f.parent = none)
    (hf : w.c.floes.find? (fun f => f.src == .queue q && f.members.all MemberState.done) = some f) :
    floeComplete w (.queue q) = ({ w with c := { w.c with
      floes := w.c.floes.filter fun x => x.id != f.id
      running := w.c.running.filter fun x => x.src != .queue q } } : Wk).retire q f.cmd f.seq f.result true := by
  unfold floeComplete
  simp only [hf, hp]

theorem Wk.retire_floes (w : Wk) (q : QIdx) (k : Command) (seq : W32) (res : Result) (floe : Bool) :
    (w.retire q k seq res floe).c.floes = w.c.floes := by
  rw [Wk.retire_eq]
  dsimp only
  split <;> rfl

theorem Channel.shareDone_here {c : Channel} {sh : ShareRef} {id : Nat} (h : sh.owner = .here id) (res : Result) :
    c.shareDone sh res = c.memberDone id sh.member res := by
  rw [Channel.shareDone, h]

theorem exec_floeShareDelivery {s : State} {ch : Ch} (hu : s.chans[ch].up = true)
    (hd : s.chans[ch].isFrozen (.engine .dispatcher) = false) {src : Src} {i : Nat} {f : FloeRun} {m : MemberState}
    (hf : s.chans[ch].floes.find? (fun f => f.src == src && ((f.members[i]?).map fun m => !m.delivered).getD false) = some f)
    (hm : f.members[i]? = some m) :
    exec (.floeShareDelivery ch src i) s = .next (s.after ch ((s.work ch).deliver f i m)) := by
  change Host.Outcome.next (onUp s ch fun w =>
    if w.c.isFrozen (.engine .dispatcher) then w else floeShareDelivery w src i) = _
  have hd' : (s.work ch).c.isFrozen (.engine .dispatcher) = false := hd
  have e : floeShareDelivery (s.work ch) src i = (s.work ch).deliver f i m := by
    unfold floeShareDelivery
    simp only [State.work, hf, hm]
  rw [onUp_eq hu, hd', e]
  rfl

/-- The share of a core of this channel goes to the core's engine. -/
theorem Wk.deliver_core {w : Wk} {f : FloeRun} {i : Nat} {m : MemberState} (hl : f.level = 0) (hc : m.member.chan = w.c.chid) :
    w.deliver f i m = { w with c :=
      { w.c.modFloe f.id (fun x => { x with members := x.members.modify i fun y => { y with delivered := true, owed := 1 } })
        with inputs := w.c.inputs ++
          [(coreEngine f.cmd.opc (Fin.ofNat 8 ((m.member.floe.toNat - 1) % 8)),
            { cmd := f.cmd.forShare, blocks := m.blocks, extent := f.extent, ref := ⟨.here f.id, i⟩,
              floe := m.member.floe })] } } := by
  have core : (⟨(m.member.floe.toNat - 1) % 8, Nat.mod_lt _ (by decide)⟩ : Core) =
      Fin.ofNat 8 ((m.member.floe.toNat - 1) % 8) := Fin.ext (Nat.mod_mod _ _).symm
  unfold Wk.deliver FloeRun.share
  dsimp only
  rw [if_pos hc, if_pos hl, core, hl]

/-- Settles O16: shares, FLOE_COMPLETE and COMMAND_COMPLETE of a share are the rows' lemmas; the split and the join of results
are arithmetic. -/
theorem floeSharing : Obligations.FloeSharing := by
  unfold Obligations.FloeSharing
  refine ⟨?_, fun B M h => ⟨shares_length B M, shares_sum h, fun i h h' => ?_⟩, fun f _ _ => ⟨?_, ?_⟩⟩
  · rintro s ch src c f rfl hu
    refine ⟨fun i m hd hf hm hl hc => ?_, ?_, fun r res sh id hf hr hs ho => ?_⟩
    · have e := Wk.deliver_core (w := s.work ch) (i := i) hl hc
      rw [exec_floeShareDelivery hu hd hf hm, e, State.after_eq_put rfl rfl]
      rfl
    · rintro q rfl hp hf
      have hc : floeComplete (s.work ch) (.queue q) = _ := floeComplete_queue hp hf
      refine ⟨_, exec_floeComplete hu _, ?_, ?_, ?_⟩
      · rw [State.after_self_findRun, hc, Channel.findRun, Wk.retire_running]
        simp [List.find?_eq_none]
      · rw [State.after_self_floes, hc, Wk.retire_floes]
        rfl
      · rw [State.after_self_queues, hc, Wk.retire_queues, if_pos rfl, Queue.retired_stopped]
        rfl
    · have hc : commandComplete (s.work ch) src = _ := commandComplete_share hf hr hs
      rw [Channel.shareDone_here ho] at hc
      have tidy := s.chans[ch].tidy_tidied s.freeCtr src r res
      refine ⟨_, exec_commandComplete hu src, ?_, ?_⟩
      · rw [State.after_self_findRun, hc]
        exact Channel.tidy_findRun _ _ _ _ _
      · rw [State.after_self_floes, hc]
        have floes := tidy.floes.trans (Channel.define_floes _ _)
        exact congrArg (List.map _) floes
  · rw [shares_getElem h', shares_take_sum B M i h.le]
    exact ⟨rfl, rfl⟩
  · intro i m r hi hr he hl
    have hm : isError (m.result.getD {}).status = true := by rw [hr]; exact he
    rw [f.result_eq, FloeRun.failing_eq_some hi hm hl]
    refine ⟨rfl, ?_, rfl⟩
    dsimp only
    rw [hr]
    split_ifs with h1 h2
    · rfl
    · exact FloeRun.joined_info h2
    · rfl
  · intro h
    rw [f.result_eq, FloeRun.failing_eq_none h]
    exact ⟨rfl, (FloeRun.joined_status h).trans (mildest_map _)⟩

end Sys2Proof.Machine
end

