-- ==== Sys2Proof/Proofs/HostWrites.lean ====
section
/-!
SUPPORT. The host's register writes (02 R37, R40, R42, R43, R442): byte lanes, doorbells, CQ_CTRL, semaphores, the event ring,
and which register an access reaches.
-/
namespace Sys2Proof.Machine

open Sys2Proof

/-! ### Byte lanes -/

theorem mergeGo_byte (en new : Nat) : ∀ (n i old j : Nat), j < n → mergeGo en new n i old / 256 ^ j % 256 =
    if en.testBit (i + j) then new / 256 ^ (i + j) % 256 else old / 256 ^ j % 256
  | n + 1, i, old, 0, _ => by
    have h : (if en.testBit i then new / 256 ^ i % 256 else old % 256) < 256 := by split <;> omega
    simp only [mergeGo, Nat.pow_zero, Nat.div_one, Nat.add_zero]
    omega
  | n + 1, i, old, j + 1, hj => by
    have h : (if en.testBit i then new / 256 ^ i % 256 else old % 256) < 256 := by split <;> omega
    have ih := mergeGo_byte en new n (i + 1) (old / 256) j (Nat.lt_of_succ_lt_succ hj)
    rw [Nat.add_right_comm] at ih
    have front : mergeGo en new (n + 1) i old / 256 ^ (j + 1) = mergeGo en new n (i + 1) (old / 256) / 256 ^ j := by
      rw [Nat.pow_succ', ← Nat.div_div_eq_div_mul, mergeGo, Nat.add_mul_div_left _ _ (by decide), Nat.div_eq_of_lt h,
        Nat.zero_add]
    rw [front, ih, Nat.div_div_eq_div_mul, ← Nat.pow_succ', Nat.add_assoc]

/-- A byte of a merged value (R442). -/
theorem merge_byte (w : RegWrite) {n i : Nat} (h : i < n) (old : Nat) : merge w n old / 256 ^ i % 256 =
    if w.enable.toNat.testBit i then w.value.toNat / 256 ^ i % 256 else old / 256 ^ i % 256 := by
  have e := mergeGo_byte w.enable.toNat w.value.toNat n 0 old i h
  rwa [Nat.zero_add] at e

theorem testBit_zero_of_byte {a b : Nat} (h : a % 256 = b % 256) : a.testBit 0 = b.testBit 0 := by
  rw [Nat.testBit_zero, Nat.testBit_zero, decide_eq_decide]
  omega

/-- Bit 0 of a merged value. -/
theorem merge_testBit_zero (w : RegWrite) {n : Nat} (h : 0 < n) (old : Nat) :
    (merge w n old).testBit 0 = if w.enable.toNat.testBit 0 then w.value.toNat.testBit 0 else old.testBit 0 := by
  have e := merge_byte w h old
  rw [Nat.pow_zero, Nat.div_one, Nat.div_one, Nat.div_one] at e
  split
  · next he => rw [if_pos he] at e; exact testBit_zero_of_byte e
  · next he => rw [if_neg he] at e; exact testBit_zero_of_byte e

theorem enabledBits_testBit_zero (w : RegWrite) {n : Nat} (h : 0 < n) : (enabledBits w n).testBit 0 = true ↔
    w.enable.toNat.testBit 0 = true ∧ w.value.toNat.testBit 0 = true := by
  rw [enabledBits, merge_testBit_zero w h]
  split
  · next e => exact ⟨fun v => ⟨e, v⟩, And.right⟩
  · next e => exact ⟨nofun, fun v => absurd v.1 e⟩

/-! ### DOORBELL (R40) -/

theorem exec_doorbell {s : State} {ch : Ch} (h : s.hostOk ch = true) (q : QIdx) (w : RegWrite) :
    exec (.doorbell ch q w) s = .next (s.put ch (doorbell s.chans[ch] q w)) := by
  change Host.Outcome.next (onHost s ch fun c => doorbell c q w) = _
  rw [onHost_eq h]

theorem doorbell_nothing {c : Channel} {q : QIdx} {w : RegWrite} (h : reservedQ q = true ∨ touches w 4 = false) :
    doorbell c q w = c := by
  rw [doorbell, if_pos (by rcases h with h | h <;> simp [h])]

theorem msb_iff {n : Nat} (x : BitVec n) : x.msb = true ↔ x.toInt < 0 := by simp [BitVec.msb_eq_toInt]

section
variable {c : Channel} {q : QIdx} {w : RegWrite} {p : W32} (hq : reservedQ q = false) (hw : touches w 4 = true)
  (hp : p = BitVec.ofNat 32 (merge w 4 c.queues[q].pi.toNat))
include hq hw hp

/-- A producer index that fails a test sets the flag of each test that it fails (log 36). -/
theorem doorbell_refused (h : (p - c.queues[q].pi).toInt < 0 ∨ c.queues[q].size < (p - c.queues[q].ci).toNat) :
    doorbell c q w = c.modQ q fun x => { x with
      piBack := x.piBack || decide ((p - c.queues[q].pi).toInt < 0)
      piOver := x.piOver || decide (c.queues[q].size < (p - c.queues[q].ci).toNat) } := by
  subst hp
  rw [doorbell, if_neg (by simp [hq, hw])]
  refine Channel.modQ_congr ?_
  dsimp only
  rw [if_pos (by simpa only [Bool.or_eq_true, msb_iff, decide_eq_true_eq] using h), BitVec.msb_eq_toInt]

theorem doorbell_taken (hb : 0 ≤ (p - c.queues[q].pi).toInt) (ho : (p - c.queues[q].ci).toNat ≤ c.queues[q].size) :
    doorbell c q w = c.modQ q fun x => { x with pi := p } := by
  subst hp
  rw [doorbell, if_neg (by simp [hq, hw])]
  refine Channel.modQ_congr ?_
  dsimp only
  rw [if_neg (by simpa only [Bool.or_eq_true, msb_iff, decide_eq_true_eq, not_or, Int.not_lt, Nat.not_lt] using ⟨hb, ho⟩)]
end

/-! ### CQ_CTRL (R42, R43) -/

/-- The queue after IRQV, RESET and RESUME of a write of CQ_CTRL. -/
def ctrlBase (c : Channel) (q : QIdx) (w : RegWrite) : Queue :=
  let x := c.queues[q]
  let x0 := { x with irqv := BitVec.ofNat 6 (bits (merge w 4 (b2n x.enable + 2 ^ 16 * x.irqv.toNat)) 21 16) }
  let x1 := if (enabledBits w 4).testBit 2 && !x.enable && c.stateQ q == 0 then { x0 with
    pi := 0, ci := 0, cplPi := 0, cplCi := 0, early := [], abTo := none, cfTo := none, tail := none } else x0
  if (enabledBits w 4).testBit 1 && c.stateQ q == 4 then { x1 with stopped := false } else x1

/-- ENABLE as a write of CQ_CTRL leaves it. -/
def ctrlEnable (c : Channel) (q : QIdx) (w : RegWrite) : Bool :=
  (merge w 4 (b2n c.queues[q].enable + 2 ^ 16 * c.queues[q].irqv.toNat)).testBit 0

/-- IRQV, RESET and RESUME leave what ENABLE is judged by. -/
theorem ctrlBase_same (c : Channel) (q : QIdx) (w : RegWrite) :
    (ctrlBase c q w).enable = c.queues[q].enable ∧ (ctrlBase c q w).waiting = c.queues[q].waiting ∧
    ringsOk q (ctrlBase c q w) = ringsOk q c.queues[q] := by
  unfold ctrlBase
  dsimp only
  split <;> split <;> exact ⟨rfl, rfl, rfl⟩

section
variable {c : Channel} {q : QIdx} {w : RegWrite} (hq : reservedQ q = false) (hw : touches w 4 = true)
include hq hw

theorem writeCqCtrl_eq : writeCqCtrl c q w =
    let x := ctrlBase c q w
    let y :=
      if ctrlEnable c q w && !x.enable then
        (if ringsOk q x then { x with enable := true, draining := false } else { x with ringBad := true })
      else if !ctrlEnable c q w && x.enable then
        { x with enable := false, semWait := false, early := [], draining := c.busyQ q || !x.waiting.isEmpty }
      else x
    if y.enable && !c.queues[q].enable then (c.modQ q fun _ => y).leaveCold q else c.modQ q fun _ => y := by
  rw [writeCqCtrl, if_neg (by simp [hq, hw])]
  rfl

theorem writeCqCtrl_same (h : ctrlEnable c q w = c.queues[q].enable) :
    writeCqCtrl c q w = c.modQ q fun _ => ctrlBase c q w := by
  obtain ⟨he, -, -⟩ := ctrlBase_same c q w
  rw [writeCqCtrl_eq hq hw]
  dsimp only
  rw [he, h]
  cases hx : c.queues[q].enable <;> simp [he, hx, -Fin.getElem_fin]

theorem writeCqCtrl_on (h : ctrlEnable c q w = true) (hx : c.queues[q].enable = false) :
    writeCqCtrl c q w = if ringsOk q c.queues[q] then
      (c.modQ q fun _ => { ctrlBase c q w with enable := true, draining := false }).leaveCold q
    else c.modQ q fun _ => { ctrlBase c q w with ringBad := true } := by
  obtain ⟨he, -, hr⟩ := ctrlBase_same c q w
  rw [writeCqCtrl_eq hq hw]
  dsimp only
  rw [he, h, hx, hr]
  cases ringsOk q c.queues[q] <;> simp [-Fin.getElem_fin]

theorem writeCqCtrl_off (h : ctrlEnable c q w = false) (hx : c.queues[q].enable = true) :
    writeCqCtrl c q w = c.modQ q fun _ => { ctrlBase c q w with
      enable := false, semWait := false, early := [], draining := c.busyQ q || !c.queues[q].waiting.isEmpty } := by
  obtain ⟨he, hwait, -⟩ := ctrlBase_same c q w
  rw [writeCqCtrl_eq hq hw]
  dsimp only
  rw [he, h, hx, hwait]
  simp
end

theorem stateQ_eq_four_iff (c : Channel) (q : QIdx) :
    c.stateQ q = 4 ↔ c.queues[q].frozen = false ∧ c.queues[q].stopped = true := by
  unfold Channel.stateQ
  dsimp only
  split_ifs <;> simp_all

/-- IRQV of a write of CQ_CTRL. -/
theorem ofNat_bits_irqv (v : Nat) : BitVec.ofNat 6 (bits v 21 16) = BitVec.ofNat 6 (v / 2 ^ 16) := by
  apply BitVec.eq_of_toNat_eq
  simp [bits]

section
variable {c : Channel} {q : QIdx} {w : RegWrite}

/-- The queue with IRQV as written, and nothing else changed. -/
def ctrlIrqv (c : Channel) (q : QIdx) (w : RegWrite) : Queue :=
  { c.queues[q] with irqv := BitVec.ofNat 6 (merge w 4 (b2n c.queues[q].enable + 2 ^ 16 * c.queues[q].irqv.toNat) / 2 ^ 16) }

theorem ctrlBase_plain (hreset : (enabledBits w 4).testBit 2 = false ∨ c.queues[q].enable = true ∨ c.stateQ q ≠ 0)
    (hresume : (enabledBits w 4).testBit 1 = false ∨ c.stateQ q ≠ 4) : ctrlBase c q w = ctrlIrqv c q w := by
  unfold ctrlBase ctrlIrqv
  dsimp only
  rw [ofNat_bits_irqv, if_neg (by rcases hresume with h | h <;> simp [h]),
    if_neg (by rcases hreset with h | h | h <;> simp [h, -Fin.getElem_fin])]

theorem ctrlBase_reset (hb : (enabledBits w 4).testBit 2 = true) (hx : c.queues[q].enable = false) (hs : c.stateQ q = 0) :
    ctrlBase c q w = { ctrlIrqv c q w with
      pi := 0, ci := 0, cplPi := 0, cplCi := 0, early := [], abTo := none, cfTo := none, tail := none } := by
  unfold ctrlBase ctrlIrqv
  dsimp only
  rw [ofNat_bits_irqv, if_neg (by simp [hs]), if_pos (by simp [hb, hx, hs, -Fin.getElem_fin])]

theorem ctrlBase_resume (hb : (enabledBits w 4).testBit 1 = true) (hs : c.stateQ q = 4) :
    ctrlBase c q w = { ctrlIrqv c q w with stopped := false } := by
  unfold ctrlBase ctrlIrqv
  dsimp only
  rw [ofNat_bits_irqv, if_pos (by simp [hb, hs]), if_neg (by simp [hs])]
end

theorem exec_writeCqCtrl {s : State} {ch : Ch} {q : QIdx} {w : RegWrite} {i : Instr} (h : s.hostOk ch = true)
    (hi : i = .queueEnable ch q w ∨ i = .queueDisable ch q w ∨ i = .queueReset ch q w ∨ i = .queueResume ch q w) :
    exec i s = .next (s.put ch (writeCqCtrl s.chans[ch] q w)) := by
  rcases hi with rfl | rfl | rfl | rfl <;> exact congrArg Host.Outcome.next (onHost_eq h _)

theorem up_of_hostOk {s : State} {ch : Ch} (h : s.hostOk ch = true) : s.chans[ch].up = true := Confined.up_of_hostOk h

/-- A queue whose work is done drains no more. -/
theorem exec_queueDrained {s : State} {ch : Ch} {q : QIdx} (hu : s.chans[ch].up = true)
    (he : s.chans[ch].queues[q].enable = false) (hr : s.chans[ch].findRun (.queue q) = none)
    (hw : s.chans[ch].queues[q].waiting = []) :
    exec (.queueDrained ch q) s = .next (s.put ch (s.chans[ch].modQ q fun x => { x with draining := false })) := by
  refine (congrArg Host.Outcome.next (modUp_eq hu _)).trans ?_
  rw [if_pos (by simp [he, hw, Channel.busyQ, hr, -Fin.getElem_fin])]

/-- Settles O18: byte lanes by `merge_byte`, doorbells and CQ_CTRL by the lemmas of each outcome. -/
theorem queueWrites : Obligations.QueueWrites := by
  unfold Obligations.QueueWrites
  refine ⟨fun w n old i h _ => merge_byte w h old, ?_, ?_⟩
  · rintro s ch q w c x p hs rfl rfl hp
    rw [exec_doorbell hs]
    refine ⟨fun hq hw => ⟨fun hb ho => ?_, fun hb ho => ?_, fun hb ho => ?_, fun hb ho => ?_⟩, fun h => ?_⟩
    · rw [doorbell_refused hq hw hp (.inl hb)]
      simp only [decide_eq_true hb, decide_eq_false ho.not_gt, Bool.or_true, Bool.or_false]
    · rw [doorbell_refused hq hw hp (.inr ho)]
      simp only [decide_eq_false hb.not_gt, decide_eq_true ho, Bool.or_true, Bool.or_false]
    · rw [doorbell_refused hq hw hp (.inl hb)]
      simp only [decide_eq_true hb, decide_eq_true ho, Bool.or_true]
    · rw [doorbell_taken hq hw hp hb ho]
    · rw [doorbell_nothing h, State.put_same]
  · rintro s ch q w c x v hs rfl rfl hq hw hv
    have hv : v = merge w 4 (b2n s.chans[ch].queues[q].enable + 2 ^ 16 * s.chans[ch].queues[q].irqv.toNat) := hv
    refine ⟨?_, fun he hr hwait => exec_queueDrained (up_of_hostOk hs) he hr hwait⟩
    rintro i x0 x1 x2 hi hx0 rfl rfl
    have hx0 : x0 = ctrlIrqv s.chans[ch] q w := by rw [hx0, hv]; rfl
    rw [exec_writeCqCtrl hs hi]
    have hen : v.testBit 0 = ctrlEnable s.chans[ch] q w := by rw [hv]; rfl
    rw [hen, hx0]
    clear hx0 hen hv
    refine ⟨fun hreset hresume => ?_, fun hb hx hst => ?_, fun hb hf hst => ?_⟩
    · have base := ctrlBase_plain hreset (w := w) (hresume.imp_right fun h => by
        rw [ne_eq, stateQ_eq_four_iff]
        rcases h with h | h <;> simp [h, -Fin.getElem_fin])
      rw [← base]
      refine ⟨fun h => ?_, fun h hx => ⟨fun hr => ?_, fun hr => ?_⟩, fun h hx => ?_⟩
      · rw [writeCqCtrl_same hq hw h]
      · rw [writeCqCtrl_on hq hw h hx, if_pos hr]
      · rw [writeCqCtrl_on hq hw h hx, if_neg (ne_true_of_eq_false hr)]
      · rw [writeCqCtrl_off hq hw h hx]
        rfl
    · rw [← ctrlBase_reset hb hx hst]
      refine ⟨fun h => ?_, fun h => ⟨fun hr => ?_, fun hr => ?_⟩⟩
      · rw [writeCqCtrl_same hq hw (h.trans hx.symm)]
      · rw [writeCqCtrl_on hq hw h hx, if_pos hr, ctrlBase_reset hb hx hst]
      · rw [writeCqCtrl_on hq hw h hx, if_neg (ne_true_of_eq_false hr), ctrlBase_reset hb hx hst]
    · have base := ctrlBase_resume hb (w := w) ((stateQ_eq_four_iff _ _).mpr ⟨hf, hst⟩)
      rw [← base]
      refine ⟨fun h => ?_, fun h hx => ⟨fun hr => ?_, fun hr => ?_⟩, fun h hx => ?_⟩
      · rw [writeCqCtrl_same hq hw h]
      · rw [writeCqCtrl_on hq hw h hx, if_pos hr]
      · rw [writeCqCtrl_on hq hw h hx, if_neg (ne_true_of_eq_false hr)]
      · rw [writeCqCtrl_off hq hw h hx]
        rfl

/-! ### Semaphores and NMON_EVR_CI (02 R37, 06 R157) -/

theorem Channel.semVal_semAdd (c : Channel) (s : SemIdx) (n : Nat) (i : SemIdx) :
    (c.semAdd s n).semVal i = if i = s then c.semVal i + BitVec.ofNat 32 n else c.semVal i := by
  by_cases e : i = s
  · simp [Channel.semVal, Channel.semAdd, e]
  · have e' : s.toNat ≠ i.toNat := fun h => e (BitVec.eq_of_toNat_eq h.symm)
    simp [Channel.semVal, Channel.semAdd, e, e']

theorem Channel.semVal_semSet (c : Channel) (s : SemIdx) (v : W32) (i : SemIdx) :
    (c.semSet s v).semVal i = if i = s then v else c.semVal i := by
  by_cases e : i = s
  · simp [Channel.semVal, Channel.semSet, e]
  · have e' : s.toNat ≠ i.toNat := fun h => e (BitVec.eq_of_toNat_eq h.symm)
    simp [Channel.semVal, Channel.semSet, e, e']

theorem semOk_iff (v thr : W32) : semOk v thr = true ↔ 0 ≤ (v - thr).toInt := by
  rw [semOk, Bool.not_eq_true', ← Bool.not_eq_true, msb_iff, Int.not_lt]

theorem writeEvrCi_eq {n : Nmon} {w : RegWrite} {v : W32} (hw : touches w 4 = true)
    (hv : v = BitVec.ofNat 32 (merge w 4 n.evrCi.toNat)) :
    writeEvrCi n w = if (n.evrPi - v).toInt < 0 ∨ (v - n.evrCi).toInt < 0 then { n with ciBad := true }
      else { n with evrCi := v } := by
  subst hv
  rw [writeEvrCi, if_neg (by simp [hw])]
  simp only [Bool.or_eq_true, msb_iff]

theorem exec_nmonEvrCiWrite {s : State} {ch : Ch} (h : s.hostOk ch = true) (w : RegWrite) :
    exec (.nmonEvrCiWrite ch w) s =
      .next (s.put ch { s.chans[ch] with nmon := writeEvrCi s.chans[ch].nmon w }) :=
  congrArg Host.Outcome.next (onHost_eq h _)

/-- Settles O19: what each write leaves, by the two semaphore lemmas and the test of NMON_EVR_CI. -/
theorem semaphoresAndEventRing : Obligations.SemaphoresAndEventRing := by
  unfold Obligations.SemaphoresAndEventRing
  refine ⟨fun s ch sem w hs hw => ⟨?_, ?_, semOk_iff⟩, ?_⟩
  · exact ⟨_, congrArg Host.Outcome.next (onHost_eq hs _), rfl, Channel.semVal_semAdd _ _ _⟩
  · refine ⟨_, (congrArg Host.Outcome.next (onHost_eq hs _)).trans ?_, rfl, Channel.semVal_semSet _ _ _⟩
    rw [if_pos hw]
  · rintro s ch w n v hs rfl hw hv
    rw [exec_nmonEvrCiWrite hs, writeEvrCi_eq hw hv]
    exact ⟨fun h => by rw [if_pos h], fun hp hc => by rw [if_neg (by omega)]⟩

/-! ### BAR0 writes (02 R442) -/

theorem channel_of_function {fn : Fin 9} {ch : Ch} (h : fn.val = 1 + ch.val) : ch = ⟨fn.val - 1, by clear h; omega⟩ :=
  Fin.ext (by simp [h])

theorem registerWrite_channel {s : State} {ch : Ch} {fn : Fin 9} (h : fn.val = 1 + ch.val) {o b size old : Nat}
    (hat : s.chans[ch].regAt o = some (b, size, old)) (n : Nat) (v : W64) : registerWrite s fn o n v =
      if accessOk o n b size then onHost s ch fun c => c.writeReg b (lanes (o - b) n v) else s := by
  have e := channel_of_function h
  rw [registerWrite, dif_neg (by omega)]
  subst e
  dsimp only
  rw [hat]

theorem registerWrite_reserved {s : State} {ch : Ch} {fn : Fin 9} (h : fn.val = 1 + ch.val) {o : Nat}
    (hat : s.chans[ch].regAt o = none) (n : Nat) (v : W64) : registerWrite s fn o n v = s := by
  have e := channel_of_function h
  rw [registerWrite, dif_neg (by omega)]
  subst e
  dsimp only
  rw [hat]

theorem registerWrite_function0 {s : State} {fn : Fin 9} (h : fn.val = 0) (h0 : s.function0 = true) {o b size : Nat}
    (hat : s.func0At o = some (b, size)) (n : Nat) (v : W64) : registerWrite s fn o n v =
      if accessOk o n b size then writeFunc0 s b (lanes (o - b) n v) else s := by
  rw [registerWrite, dif_pos h, hat]
  dsimp only
  rw [h0, Bool.true_and]

/-- The base field of HBD_STAGE_BASE keeps bits 47 to 28. -/
theorem ofNat_stageBase (v : Nat) : BitVec.ofNat 48 (bits v 47 28 * 2 ^ 28) = BitVec.ofNat 48 (v / 2 ^ 28 * 2 ^ 28) := by
  apply BitVec.eq_of_toNat_eq
  have cut : (v / 2 ^ 28 % 2 ^ 20 * 2 ^ 28) % 2 ^ 48 = v / 2 ^ 28 * 2 ^ 28 % 2 ^ 48 := by omega
  simpa [bits] using cut

/-- Settles O21: a write goes through `registerWrite` to the register it names, or nowhere. -/
theorem registerWrites : Obligations.RegisterWrites := by
  unfold Obligations.RegisterWrites
  rintro s ch off n v b size old fn w _ k rfl
  refine ⟨fun hf hs => ?_, fun hf h0 hat => ?_, fun hs => ⟨?_, fun hb => ?_, fun hen hb => ?_⟩⟩
  · have run : exec (.registerWrite fn off n v) s = .next (registerWrite s fn off.toNat n v) := rfl
    refine ⟨fun hat => ?_, fun hat => by rw [run, registerWrite_reserved hf hat]⟩
    rw [run, registerWrite_channel hf hat]
    exact ⟨fun h => by rw [if_pos h, onHost_eq hs]; rfl, fun h => by rw [if_neg (ne_true_of_eq_false h)]⟩
  · have run : exec (.registerWrite fn off n v) s = .next (registerWrite s fn off.toNat n v) := rfl
    rw [run, registerWrite_function0 hf h0 hat]
    exact ⟨fun h => by rw [if_pos h]; rfl, fun h => by rw [if_neg (ne_true_of_eq_false h)]⟩
  · refine (congrArg Host.Outcome.next (onHost_eq hs _)).trans ?_
    rw [writeStageBase]
    dsimp only
    rw [ofNat_stageBase]
  · obtain ⟨en, val⟩ := (enabledBits_testBit_zero w (by decide)).mp hb
    refine (congrArg Host.Outcome.next (onHost_eq hs _)).trans ?_
    rw [writeMorCtrl]
    simp only [merge_testBit_zero w (n := 4) (by decide), en, val, if_true]
  · refine (congrArg Host.Outcome.next (onHost_eq hs _)).trans ?_
    rw [writeMorCtrl]
    simp only [merge_testBit_zero w (n := 4) (by decide), hen, hb, if_true]

end Sys2Proof.Machine
end

