-- ==== Sys2Proof/Proofs/FoldOrder.lean ====
section
/-!
SUPPORT. The fold of a group (15 R334): which leaves a fold has and where its sum is, for each way the model builds one,
and the statement about it.
-/
namespace Sys2Proof.Machine

open Sys2Proof

/-- A fold, if there is one, has the leaves of S, and of them the holder alone keeps what it has. -/
def Fold.Over (S : Set ChanId) : Option Fold → Prop
  | none => S = ∅
  | some f => (∀ x, (f.part x).isSome = true ↔ x ∈ S) ∧ f.holder ∈ S ∧
      ∀ x, (∃ adds, f.part x = some (adds, none)) ↔ x = f.holder

namespace Fold

variable {S T : Set ChanId}

theorem over_leaf (x : ChanId) : Over {x} (some (.leaf x)) := by
  refine ⟨fun y => ?_, rfl, fun y => ?_⟩
  all_goals
    by_cases h : x = y
    · simp [part, holder, h]
    · simp [part, holder, h, Ne.symm h]

/-! A leaf's part in a sum of two folds. -/

section
variable {f g : Fold} {a x : ChanId}

theorem part_add_isSome : ((add f g a).part x).isSome = ((f.part x).isSome || (g.part x).isSome) := by
  cases hf : f.part x <;> cases hg : g.part x <;> simp [part, hf, hg]

/-- A leaf keeps its sum in a fold of two where it kept that of its side and the sum is formed at it. -/
theorem part_add_keeps (h : (f.part x).isSome = false ∨ (g.part x).isSome = false) :
    (∃ adds, (add f g a).part x = some (adds, none)) ↔
      ((∃ adds, f.part x = some (adds, none)) ∨ ∃ adds, g.part x = some (adds, none)) ∧ a = x := by
  cases hf : f.part x with
  | some p =>
    have hg : g.part x = none := by simpa [hf] using h
    obtain ⟨l, d⟩ := p
    cases d <;> by_cases e : a = x <;> simp [part, hf, hg, e]
  | none =>
    cases hg : g.part x with
    | none => simp [part, hf, hg]
    | some p =>
      obtain ⟨l, d⟩ := p
      cases d <;> by_cases e : a = x <;> simp [part, hf, hg, e]

end

/-- The sum of two folds without a common leaf, formed at the holder of one of them. -/
theorem Over.add {f g : Fold} {a : ChanId} (hf : Over S (some f)) (hg : Over T (some g)) (h : Disjoint S T)
    (ha : a = f.holder ∨ a = g.holder) : Over (S ∪ T) (some (.add f g a)) := by
  obtain ⟨leafF, holdF, keepF⟩ := hf
  obtain ⟨leafG, holdG, keepG⟩ := hg
  have one (x : ChanId) : (f.part x).isSome = false ∨ (g.part x).isSome = false := by
    by_cases hx : x ∈ S
    · right
      have := Set.disjoint_left.mp h hx
      rwa [← leafG, Bool.not_eq_true] at this
    · left
      rwa [← leafF, Bool.not_eq_true] at hx
  refine ⟨fun x => ?_, ?_, fun x => ?_⟩
  · rw [part_add_isSome, Bool.or_eq_true, leafF, leafG]; rfl
  · rcases ha with rfl | rfl
    · exact .inl holdF
    · exact .inr holdG
  · rw [part_add_keeps (one x), keepF, keepG]
    refine ⟨fun e => e.2.symm, ?_⟩
    rintro (e : x = a)
    exact ⟨by rw [e]; exact ha, e.symm⟩

theorem Over.pair {o p : Option Fold} (ho : Over S o) (hp : Over T p) (h : Disjoint S T) : Over (S ∪ T) (pair o p) := by
  match o, p with
  | none, p => rw [show S = ∅ from ho, Set.empty_union]; exact hp
  | some f, none => rw [show T = ∅ from hp, Set.union_empty]; exact ho
  | some f, some g => exact Over.add ho hp h (.inl rfl)

/-- The partials of a list folded behind a first one. -/
theorem Over.foldl_add {α : Type} {F : α → Option Fold} {R : α → Set ChanId} :
    ∀ (ks : List α) {S : Set ChanId} {f : Fold}, Over S (some f) → (∀ k ∈ ks, Over (R k) (F k) ∧ Disjoint S (R k)) →
      ks.Pairwise (fun a b => Disjoint (R a) (R b)) →
      Over (S ∪ {x | ∃ k ∈ ks, x ∈ R k}) (some ((ks.filterMap F).foldl (fun s x => .add s x x.holder) f))
  | [], S, f, hf, _, _ => by simpa using hf
  | k :: ks, S, f, hf, h, hd => by
    obtain ⟨hk, hS⟩ := h k List.mem_cons_self
    have rest := fun k' hk' => h k' (List.mem_cons_of_mem _ hk')
    obtain ⟨dk, dks⟩ := List.pairwise_cons.mp hd
    have split : S ∪ {x | ∃ j ∈ k :: ks, x ∈ R j} = (S ∪ R k) ∪ {x | ∃ j ∈ ks, x ∈ R j} := by
      ext x
      simp [or_assoc]
    rw [split]
    cases hF : F k with
    | none =>
      rw [hF] at hk
      rw [List.filterMap_cons_none hF, show R k = ∅ from hk, Set.union_empty]
      exact Over.foldl_add ks hf rest dks
    | some g =>
      rw [hF] at hk
      rw [List.filterMap_cons_some hF, List.foldl_cons]
      exact Over.foldl_add ks (Over.add hf hk hS (.inr rfl))
        (fun j hj => ⟨(rest j hj).1, Set.disjoint_union_left.mpr ⟨(rest j hj).2, dk j hj⟩⟩) dks

theorem over_chain {α : Type} {F : α → Option Fold} {R : α → Set ChanId} :
    ∀ (ks : List α), (∀ k ∈ ks, Over (R k) (F k)) → ks.Pairwise (fun a b => Disjoint (R a) (R b)) →
      Over {x | ∃ k ∈ ks, x ∈ R k} (chain (ks.filterMap F))
  | [], _, _ => by simp [chain, Over]
  | k :: ks, h, hd => by
    obtain ⟨dk, dks⟩ := List.pairwise_cons.mp hd
    have rest := fun k' hk' => h k' (List.mem_cons_of_mem _ hk')
    have hk := h k List.mem_cons_self
    have split : {x | ∃ j ∈ k :: ks, x ∈ R j} = R k ∪ {x | ∃ j ∈ ks, x ∈ R j} := by
      ext x
      simp
    rw [split]
    cases hF : F k with
    | none =>
      rw [hF] at hk
      rw [List.filterMap_cons_none hF, show R k = ∅ from hk, Set.empty_union]
      exact over_chain ks rest dks
    | some g =>
      rw [hF] at hk
      rw [List.filterMap_cons_some hF]
      exact Over.foldl_add ks hk (fun j hj => ⟨rest j hj, dk j hj⟩) dks

/-- A chain over the values of a function φ, each of which has a fold of the leaves that φ takes to it. -/
theorem over_chain_fibres {α : Type} {F : α → Option Fold} (φ : ChanId → α) {ks : List α} (hn : ks.Nodup)
    (hF : ∀ k ∈ ks, Over {x | x ∈ S ∧ φ x = k} (F k)) (hφ : ∀ x ∈ S, φ x ∈ ks) : Over S (chain (ks.filterMap F)) := by
  have all : S = {x | ∃ k ∈ ks, x ∈ {x | x ∈ S ∧ φ x = k}} := by
    ext x
    exact ⟨fun hx => ⟨φ x, hφ x hx, hx, rfl⟩, fun ⟨k, _, hx, _⟩ => hx⟩
  rw [all]
  refine over_chain ks hF (hn.imp fun {a b} hab => Set.disjoint_left.mpr ?_)
  rintro x ⟨_, rfl⟩ ⟨_, e⟩
  exact hab e

/-! The fold of a module. -/

/-- The leaves of a list whose numbers lie from a to below b. -/
def leavesIn (ls : List ChanId) (a b : Nat) : Set ChanId := {x | x ∈ ls ∧ a ≤ x.toNat ∧ x.toNat < b}

theorem Over.pair_leavesIn {ls : List ChanId} {a b c : Nat} {o p : Option Fold} (ho : Over (leavesIn ls a b) o)
    (hp : Over (leavesIn ls b c) p) (hab : a ≤ b) (hbc : b ≤ c) : Over (leavesIn ls a c) (Fold.pair o p) := by
  have all : leavesIn ls a c = leavesIn ls a b ∪ leavesIn ls b c := by
    ext x
    simp only [leavesIn, Set.mem_ofPred_eq, Set.mem_union]
    constructor
    · rintro ⟨hx, h1, h2⟩
      by_cases h : x.toNat < b
      · exact .inl ⟨hx, h1, h⟩
      · exact .inr ⟨hx, by omega, h2⟩
    · rintro (⟨hx, h1, h2⟩ | ⟨hx, h1, h2⟩)
      · exact ⟨hx, h1, by omega⟩
      · exact ⟨hx, by omega, h2⟩
  rw [all]
  refine Over.pair ho hp (Set.disjoint_left.mpr ?_)
  rintro x ⟨-, -, h1⟩ ⟨-, h2, -⟩
  omega

theorem over_at (ls : List ChanId) {a : Nat} (ha : a < 2 ^ 16) : Over (leavesIn ls a (a + 1))
    (if ls.contains (BitVec.ofNat 16 a) then some (.leaf (BitVec.ofNat 16 a)) else none) := by
  have number (x : ChanId) : (a ≤ x.toNat ∧ x.toNat < a + 1) ↔ x = BitVec.ofNat 16 a := by
    rw [← BitVec.toNat_inj, BitVec.toNat_ofNat, Nat.mod_eq_of_lt ha]
    omega
  have all : leavesIn ls a (a + 1) = {x | x ∈ ls ∧ x = BitVec.ofNat 16 a} := by
    ext x
    simp only [leavesIn, Set.mem_ofPred_eq, number]
  rw [all]
  split
  · next h =>
    have one : {x | x ∈ ls ∧ x = BitVec.ofNat 16 a} = {BitVec.ofNat 16 a} := by
      ext x
      refine ⟨And.right, ?_⟩
      rintro rfl
      exact ⟨List.contains_iff_mem.mp h, rfl⟩
    rw [one]
    exact over_leaf _
  · next h =>
    refine Set.eq_empty_of_forall_notMem ?_
    rintro x ⟨hx, rfl⟩
    exact h (List.contains_iff_mem.mpr hx)

theorem modOf_eq_iff (x : ChanId) {m : W16} : modOf x = m ↔ 8 * m.toNat ≤ x.toNat ∧ x.toNat < 8 * m.toNat + 8 := by
  rw [← BitVec.toNat_inj, modOf, BitVec.toNat_ofNat, Nat.mod_eq_of_lt (by omega)]
  omega

theorem over_module (ls : List ChanId) {m : W16} (hm : m.toNat < 8192) :
    Over {x | x ∈ ls ∧ modOf x = m} (module m ls) := by
  have one (i : Nat) (hi : i < 8) := over_at ls (a := 8 * m.toNat + i) (by omega)
  have two (i : Nat) (hi : 2 * i + 1 < 8) := Over.pair_leavesIn (one (2 * i) (by omega)) (one (2 * i + 1) hi)
    (by omega) (by omega)
  have low := Over.pair_leavesIn (two 0 (by omega)) (two 1 (by omega)) (by omega) (by omega)
  have high := Over.pair_leavesIn (two 2 (by omega)) (two 3 (by omega)) (by omega) (by omega)
  have all : {x | x ∈ ls ∧ modOf x = m} = leavesIn ls (8 * m.toNat) (8 * m.toNat + 8) := by
    ext x
    simp only [leavesIn, Set.mem_ofPred_eq, modOf_eq_iff]
  rw [all]
  exact Over.pair_leavesIn low high (by omega) (by omega)

end Fold

/-! ### The group -/

section
variable (c : Channel) (ls : List ChanId)

/-- The modules of a list of leaves, each with its place, in fold order. -/
def Channel.placedOf : List ((Nat × Nat × Nat) × W16) :=
  let ms := (ls.map modOf).dedup
  (ms.map fun m => (c.place ms m, m)).mergeSort fun a b =>
    decide (a.1.1 < b.1.1 ∨ (a.1.1 = b.1.1 ∧ (a.1.2.1 < b.1.2.1 ∨ (a.1.2.1 = b.1.2.1 ∧ a.1.2.2 ≤ b.1.2.2))))

/-- A leaf's module with its place. -/
def Channel.placeOf (x : ChanId) : (Nat × Nat × Nat) × W16 := (c.place (ls.map modOf).dedup (modOf x), modOf x)

theorem Channel.mem_placedOf {p : (Nat × Nat × Nat) × W16} : p ∈ c.placedOf ls ↔ ∃ x ∈ ls, c.placeOf ls x = p := by
  simp [Channel.placedOf, Channel.placeOf, List.mem_mergeSort]

theorem Channel.nodup_placedOf : (c.placedOf ls).Nodup := by
  have inj : Function.Injective fun m : W16 => (c.place (ls.map modOf).dedup m, m) := fun a b h => (Prod.ext_iff.mp h).2
  exact (List.mergeSort_perm _ _).nodup_iff.mpr ((List.nodup_dedup _).map inj)

theorem Channel.placeOf_snd {p : (Nat × Nat × Nat) × W16} (hp : p ∈ c.placedOf ls) {x : ChanId} :
    c.placeOf ls x = p ↔ modOf x = p.2 := by
  obtain ⟨y, -, rfl⟩ := (c.mem_placedOf ls).mp hp
  refine ⟨fun e => congrArg Prod.snd e, fun (e : modOf x = modOf y) => ?_⟩
  rw [Channel.placeOf, e]
  rfl

theorem Channel.module_lt {p : (Nat × Nat × Nat) × W16} (hp : p ∈ c.placedOf ls) : p.2.toNat < 8192 := by
  obtain ⟨x, -, rfl⟩ := (c.mem_placedOf ls).mp hp
  simp only [Channel.placeOf, modOf, BitVec.toNat_ofNat]
  omega

theorem mem_moduleChans {m : W16} (hm : m.toNat < 8192) (x : ChanId) : x ∈ moduleChans m ↔ modOf x = m := by
  rw [Fold.modOf_eq_iff]
  simp only [moduleChans, List.mem_map, List.mem_range]
  constructor
  · rintro ⟨d, hd, rfl⟩
    rw [BitVec.toNat_ofNat, Nat.mod_eq_of_lt (by omega)]
    omega
  · rintro ⟨h1, h2⟩
    exact ⟨x.toNat - 8 * m.toNat, by omega, by apply BitVec.eq_of_toNat_eq; simp; omega⟩

theorem nodup_moduleChans {m : W16} (_hm : m.toNat < 8192) : (moduleChans m).Nodup := by
  refine (List.nodup_map_iff_inj_on List.nodup_range).mpr fun a ha b hb h => ?_
  rw [List.mem_range] at ha hb
  have := congrArg BitVec.toNat h
  simp only [BitVec.toNat_ofNat] at this
  omega

/-- The fold order is the leaves, each once. -/
theorem Channel.foldOf_order : (c.foldOf ls).1.Perm ls.dedup := by
  have order : (c.foldOf ls).1 = (c.placedOf ls).flatMap fun p => (moduleChans p.2).filter fun x => ls.contains x := rfl
  rw [order]
  refine (List.perm_ext_iff_of_nodup ?_ (List.nodup_dedup _)).mpr fun x => ?_
  · refine List.nodup_flatMap.mpr ⟨fun p hp => (nodup_moduleChans (c.module_lt ls hp)).filter _, ?_⟩
    refine List.Pairwise.imp_of_mem ?_ (c.nodup_placedOf ls)
    intro p q hp hq hpq x hx hy
    have hx := (mem_moduleChans (c.module_lt ls hp) x).mp (List.mem_of_mem_filter hx)
    have hy := (mem_moduleChans (c.module_lt ls hq) x).mp (List.mem_of_mem_filter hy)
    exact hpq (((c.placeOf_snd ls hp).mpr hx).symm.trans ((c.placeOf_snd ls hq).mpr hy))
  · rw [List.mem_dedup, List.mem_flatMap]
    constructor
    · rintro ⟨p, -, hx⟩
      simpa using (List.mem_filter.mp hx).2
    · intro hx
      have hp := (c.mem_placedOf ls).mpr ⟨x, hx, rfl⟩
      exact ⟨_, hp, List.mem_filter.mpr ⟨(mem_moduleChans (c.module_lt ls hp) x).mpr rfl, by simpa using hx⟩⟩

/-- The fold has the leaves and ends at its holder: by modules, drifts and fields. -/
theorem Channel.foldOf_over : Fold.Over {x | x ∈ ls} (c.foldOf ls).2 := by
  have module (p) (hp : p ∈ c.placedOf ls) : Fold.Over {x | x ∈ ls ∧ c.placeOf ls x = p} (Fold.module p.2 ls) := by
    simp only [c.placeOf_snd ls hp]
    exact Fold.over_module ls (c.module_lt ls hp)
  have drift (key : Nat × Nat) : Fold.Over
      {x | x ∈ ls ∧ ((c.placeOf ls x).1.1, (c.placeOf ls x).1.2.1) = key}
      (Fold.chain (((c.placedOf ls).filter fun p => (p.1.1, p.1.2.1) == key).filterMap fun p => Fold.module p.2 ls)) := by
    refine Fold.over_chain_fibres (c.placeOf ls) ((c.nodup_placedOf ls).filter _) ?_ ?_
    · intro p hp
      obtain ⟨hp, hkey⟩ := List.mem_filter.mp hp
      have same : {x | x ∈ {x | x ∈ ls ∧ ((c.placeOf ls x).1.1, (c.placeOf ls x).1.2.1) = key} ∧ c.placeOf ls x = p} =
          {x | x ∈ ls ∧ c.placeOf ls x = p} := by
        ext x
        refine ⟨fun h => ⟨h.1.1, h.2⟩, fun h => ⟨⟨h.1, ?_⟩, h.2⟩⟩
        rw [h.2]
        exact eq_of_beq hkey
      rw [same]
      exact module p hp
    · rintro x ⟨hx, e⟩
      exact List.mem_filter.mpr ⟨(c.mem_placedOf ls).mpr ⟨x, hx, rfl⟩, beq_iff_eq.mpr e⟩
  have field (f : Nat) : Fold.Over {x | x ∈ ls ∧ (c.placeOf ls x).1.1 = f}
      (Fold.chain ((((c.placedOf ls).filter fun p => p.1.1 == f).map fun p => p.1.2.1).dedup.filterMap fun d =>
        Fold.chain (((c.placedOf ls).filter fun p => (p.1.1, p.1.2.1) == (f, d)).filterMap fun p => Fold.module p.2 ls))) := by
    refine Fold.over_chain_fibres (fun x => (c.placeOf ls x).1.2.1) (List.nodup_dedup _) ?_ ?_
    · intro d _
      have same : {x | x ∈ {x | x ∈ ls ∧ (c.placeOf ls x).1.1 = f} ∧ (c.placeOf ls x).1.2.1 = d} =
          {x | x ∈ ls ∧ ((c.placeOf ls x).1.1, (c.placeOf ls x).1.2.1) = (f, d)} := by
        ext x
        simp [and_assoc]
      rw [same]
      exact drift (f, d)
    · rintro x ⟨hx, e⟩
      exact List.mem_dedup.mpr (List.mem_map.mpr
        ⟨_, List.mem_filter.mpr ⟨(c.mem_placedOf ls).mpr ⟨x, hx, rfl⟩, beq_iff_eq.mpr e⟩, rfl⟩)
  refine Fold.over_chain_fibres (fun x => (c.placeOf ls x).1.1) (List.nodup_dedup _) (fun f _ => field f) ?_
  intro x hx
  exact List.mem_dedup.mpr (List.mem_map.mpr ⟨_, (c.mem_placedOf ls).mpr ⟨x, hx, rfl⟩, rfl⟩)

end

/-- Settles O37: the order and the fold by the two lemmas above; with a leaf there is a fold. -/
theorem foldOfAGroup : Obligations.FoldOfAGroup := by
  unfold Obligations.FoldOfAGroup
  intro c ls hls
  refine ⟨c.foldOf_order ls, ?_⟩
  have all := c.foldOf_over ls
  obtain ⟨x, hx⟩ := List.exists_mem_of_ne_nil ls hls
  cases hf : (c.foldOf ls).2 with
  | none =>
    rw [hf] at all
    exact absurd (show x ∈ {x | x ∈ ls} from hx) (by rw [show {x | x ∈ ls} = ∅ from all]; exact id)
  | some f =>
    rw [hf] at all
    obtain ⟨leaf, -, keeps⟩ := all
    exact ⟨f, rfl, leaf, fun x _ => keeps x⟩

end Sys2Proof.Machine
end

