-- ==== Sys2Proof/Proofs/ParityAlgebra.lean ====
section
/-!
SUPPORT. The product of `gfMul` (16 R367): it is linear in each factor, so that its laws follow from the eight bytes with
one bit; the sums and multiples of units, and the statement about the parities.
-/
namespace Sys2Proof.Machine

open Sys2Proof

/-! ### Linear maps of bytes -/

/-- A map that keeps sums. -/
def Additive (f : Byte → Byte) : Prop := ∀ x y, f (x ^^^ y) = f x ^^^ f y

/-- A byte where a bit is set, and else zero. -/
def pick (b : Byte) (i : Nat) (x : Byte) : Byte := if b.getLsbD i then x else 0

/-- The sum of bytes v 0 to v 7 that the bits of b pick. -/
def pickSum (b : Byte) (v : Nat → Byte) : Byte :=
  pick b 0 (v 0) ^^^ pick b 1 (v 1) ^^^ pick b 2 (v 2) ^^^ pick b 3 (v 3) ^^^ pick b 4 (v 4) ^^^ pick b 5 (v 5) ^^^
    pick b 6 (v 6) ^^^ pick b 7 (v 7)

theorem eq_pickSum : ∀ b : Byte, b = pickSum b (BitVec.twoPow 8) := by decide +kernel

theorem pick_xor_left (a b : Byte) (i : Nat) (x : Byte) : pick (a ^^^ b) i x = pick a i x ^^^ pick b i x := by
  rw [pick, pick, pick, BitVec.getLsbD_xor]
  cases a.getLsbD i <;> cases b.getLsbD i <;> simp

theorem pick_xor_right (b : Byte) (i : Nat) (x y : Byte) : pick b i (x ^^^ y) = pick b i x ^^^ pick b i y := by
  rw [pick, pick, pick]
  cases b.getLsbD i <;> simp

theorem xor_xor_xor_comm (a b c d : Byte) : a ^^^ b ^^^ (c ^^^ d) = a ^^^ c ^^^ (b ^^^ d) := by
  ac_rfl

theorem pickSum_xor_left (a b : Byte) (v : Nat → Byte) : pickSum (a ^^^ b) v = pickSum a v ^^^ pickSum b v := by
  simp only [pickSum, pick_xor_left]
  ac_rfl

theorem pickSum_xor_right (b : Byte) (u v : Nat → Byte) :
    pickSum b (fun i => u i ^^^ v i) = pickSum b u ^^^ pickSum b v := by
  simp only [pickSum, pick_xor_right]
  ac_rfl

namespace Additive

variable {f g : Byte → Byte}

theorem zero (hf : Additive f) : f 0 = 0 := by
  have e := hf 0 0
  rwa [BitVec.xor_self, BitVec.xor_self] at e

theorem pick (hf : Additive f) (b : Byte) (i : Nat) (x : Byte) :
    f (Sys2Proof.Machine.pick b i x) = Sys2Proof.Machine.pick b i (f x) := by
  rw [Sys2Proof.Machine.pick, Sys2Proof.Machine.pick, apply_ite f, hf.zero]

theorem eq_pickSum (hf : Additive f) (b : Byte) : f b = pickSum b fun i => f (BitVec.twoPow 8 i) := by
  conv_lhs => rw [Sys2Proof.Machine.eq_pickSum b]
  simp only [pickSum, hf _ _, hf.pick]

/-- Two linear maps that agree on the bytes with one bit are one. -/
theorem ext (hf : Additive f) (hg : Additive g) (h : ∀ i : Fin 8, f (BitVec.twoPow 8 i) = g (BitVec.twoPow 8 i)) (b : Byte) :
    f b = g b := by
  have bit (i : Nat) (hi : i < 8) : f (BitVec.twoPow 8 i) = g (BitVec.twoPow 8 i) := h ⟨i, hi⟩
  rw [hf.eq_pickSum, hg.eq_pickSum]
  simp only [pickSum, bit, Nat.reduceLT]

theorem comp (hf : Additive f) (hg : Additive g) : Additive fun x => f (g x) := fun x y =>
  (congrArg f (hg x y)).trans (hf _ _)

end Additive

/-! ### The product -/

/-- A byte times 2. -/
def gfTwice (x : Byte) : Byte := if x.msb then (x <<< 1) ^^^ 0x1D else x <<< 1

/-- A byte times 2, i times. -/
def gfShift (a : Byte) : Nat → Byte
  | 0 => a
  | i + 1 => gfTwice (gfShift a i)

theorem gfTwice_additive : Additive gfTwice := by
  intro x y
  rw [gfTwice, gfTwice, gfTwice, BitVec.msb_xor, BitVec.shiftLeft_xor_distrib]
  cases x.msb <;> cases y.msb
  · rfl
  · simp; ac_rfl
  · simp; ac_rfl
  · exact (xor_xor_xor_comm _ _ _ _).trans (by simp) |>.symm

theorem gfShift_xor (a b : Byte) : ∀ i, gfShift (a ^^^ b) i = gfShift a i ^^^ gfShift b i
  | 0 => rfl
  | i + 1 => by rw [gfShift, gfShift_xor a b i, gfTwice_additive]; rfl

theorem gfMul_eq_pickSum (a b : Byte) : gfMul a b = pickSum b (gfShift a) := by
  have step (i : Nat) (acc x : Byte) : (if b.getLsbD i then acc ^^^ x else acc) = acc ^^^ pick b i x := by
    rw [pick]
    split <;> simp
  have fold : gfMul a b =
      ((List.range 8).foldl (fun (p : Byte × Byte) i => (p.1 ^^^ pick b i p.2, gfTwice p.2)) (0, a)).1 := by
    simp only [gfMul, step]
    rfl
  have range : List.range 8 = [0, 1, 2, 3, 4, 5, 6, 7] := rfl
  have zero : (0 : Byte) ^^^ pick b 0 a = pick b 0 a := BitVec.zero_xor
  rw [fold]
  simp only [range, List.foldl_cons, List.foldl_nil, zero]
  rfl

theorem gfMul_xor_left (b : Byte) : Additive fun a => gfMul a b := by
  intro x y
  change gfMul (x ^^^ y) b = gfMul x b ^^^ gfMul y b
  simp only [gfMul_eq_pickSum]
  rw [← pickSum_xor_right]
  exact congrArg (pickSum b) (funext (gfShift_xor x y))

theorem gfMul_xor_right (a : Byte) : Additive (gfMul a) := by
  intro x y
  simp only [gfMul_eq_pickSum]
  exact pickSum_xor_left x y _

/-- On three bytes with one bit each. -/
theorem gfMul_assoc_bits : ∀ i j k : Fin 8,
    gfMul (gfMul (BitVec.twoPow 8 i) (BitVec.twoPow 8 j)) (BitVec.twoPow 8 k) =
      gfMul (BitVec.twoPow 8 i) (gfMul (BitVec.twoPow 8 j) (BitVec.twoPow 8 k)) := by
  decide +kernel

theorem gfMul_assoc (a b c : Byte) : gfMul (gfMul a b) c = gfMul a (gfMul b c) := by
  refine Additive.ext ((gfMul_xor_left c).comp (gfMul_xor_left b)) (gfMul_xor_left _) (fun i => ?_) a
  refine Additive.ext (f := fun b => gfMul (gfMul _ b) c) (g := fun b => gfMul _ (gfMul b c))
    ((gfMul_xor_left c).comp (gfMul_xor_right _)) ((gfMul_xor_right _).comp (gfMul_xor_left c)) (fun j => ?_) b
  exact Additive.ext (gfMul_xor_right _) ((gfMul_xor_right _).comp (gfMul_xor_right _)) (gfMul_assoc_bits i j) c

theorem one_gfMul (a : Byte) : gfMul 1 a = a :=
  Additive.ext (g := id) (gfMul_xor_right 1) (fun _ _ => rfl) (by decide +kernel) a

theorem gfMul_one (a : Byte) : gfMul a 1 = a :=
  Additive.ext (g := id) (gfMul_xor_left 1) (fun _ _ => rfl) (by decide +kernel) a

/-! ### Powers and inverses -/

theorem gfPow_add (a : Byte) (m : Nat) : ∀ n, gfPow a (n + m) = gfMul (gfPow a n) (gfPow a m)
  | 0 => by rw [Nat.zero_add, gfPow, one_gfMul]
  | n + 1 => by rw [Nat.add_right_comm, gfPow, gfPow_add a m n, gfPow, gfMul_assoc]

/-- A square. -/
def gfSq (a : Byte) : Byte := gfMul a a

theorem gfPow_double (a : Byte) (n : Nat) : gfPow a (n + n) = gfSq (gfPow a n) := gfPow_add a n n

/-- The power 255 by seven squares: 255 = 2 · 127 + 1, and so on. -/
def gfPow255 (a : Byte) : Byte :=
  let next (x : Byte) : Byte := gfMul a (gfSq x)
  next (next (next (next (next (next (next a))))))

theorem gfPow_eq_gfPow255 (a : Byte) : gfPow a 255 = gfPow255 a := by
  have next (n : Nat) : gfPow a (n + n + 1) = gfMul a (gfSq (gfPow a n)) := by rw [gfPow, gfPow_double]
  have one : gfPow a 1 = a := by rw [gfPow, gfPow, gfMul_one]
  rw [next 127, next 63, next 31, next 15, next 7, next 3, next 1, one]
  rfl

theorem gfPow255_of_ne_zero : ∀ a : Byte, a ≠ 0 → gfPow255 a = 1 := by decide +kernel

theorem gfInv_gfMul_cancel {a : Byte} (h : a ≠ 0) (x : Byte) : gfMul (gfInv a) (gfMul a x) = x := by
  have one : gfPow a 1 = a := by rw [gfPow, gfPow, gfMul_one]
  have inverse : gfMul (gfInv a) a = 1 := by
    rw [gfInv]
    conv_lhs => arg 2; rw [← one]
    rw [← gfPow_add, gfPow_eq_gfPow255, gfPow255_of_ne_zero a h]
  rw [← gfMul_assoc, inverse, one_gfMul]

/-- The powers of 2 of sixteen positions are distinct and none is zero. -/
theorem gfPow_two_distinct : ∀ x y : Fin 16, x ≠ y → gfPow 2 x.val ^^^ gfPow 2 y.val ≠ 0 := by decide +kernel

theorem gfPow_two_ne_zero : ∀ x : Fin 16, gfPow 2 x.val ≠ 0 := by decide +kernel

/-! ### Units -/

theorem xorBytes_eq_zipWith (a b : List Byte) : xorBytes a b = List.zipWith (· ^^^ ·) a b := by
  rw [xorBytes, List.zip_eq_zipWith, List.map_zipWith]

theorem xorBytes_length {a b : List Byte} (h : a.length = b.length) : (xorBytes a b).length = a.length := by
  simp [xorBytes, h]

theorem xorBytes_getElem? {a b : List Byte} (i : Nat) :
    (xorBytes a b)[i]? = a[i]?.bind fun x => b[i]?.map fun y => x ^^^ y := by
  rw [xorBytes_eq_zipWith, List.getElem?_zipWith]
  cases a[i]? <;> cases b[i]? <;> rfl

theorem xorBytes_comm (a b : List Byte) : xorBytes a b = xorBytes b a := by
  rw [xorBytes_eq_zipWith, xorBytes_eq_zipWith, List.zipWith_comm]
  simp only [BitVec.xor_comm]

theorem xorBytes_assoc : ∀ a b c : List Byte, xorBytes (xorBytes a b) c = xorBytes a (xorBytes b c)
  | [], _, _ => by simp [xorBytes]
  | _ :: _, [], _ => by simp [xorBytes]
  | _ :: _, _ :: _, [] => by simp [xorBytes]
  | x :: a, y :: b, z :: c => congrArg₂ List.cons (BitVec.xor_assoc x y z) (xorBytes_assoc a b c)

theorem xorBytes_cancel : ∀ {a b : List Byte}, a.length = b.length → xorBytes (xorBytes a b) b = a
  | [], _, _ => by simp [xorBytes]
  | x :: a, y :: b, h => congrArg₂ List.cons
      (show x ^^^ y ^^^ y = x by rw [BitVec.xor_assoc, BitVec.xor_self, BitVec.xor_zero]) (xorBytes_cancel (Nat.succ.inj h))

@[simp] theorem scaleBytes_length (f : Byte) (a : List Byte) : (scaleBytes f a).length = a.length := List.length_map _

theorem scaleBytes_xorBytes (f : Byte) : ∀ a b, scaleBytes f (xorBytes a b) = xorBytes (scaleBytes f a) (scaleBytes f b)
  | [], _ => by simp [xorBytes, scaleBytes]
  | _ :: _, [] => by simp [xorBytes, scaleBytes]
  | x :: a, y :: b => congrArg₂ List.cons (gfMul_xor_right f x y) (scaleBytes_xorBytes f a b)

theorem scaleBytes_xor (f g : Byte) : ∀ a, scaleBytes (f ^^^ g) a = xorBytes (scaleBytes f a) (scaleBytes g a)
  | [] => rfl
  | x :: a => congrArg₂ List.cons (gfMul_xor_left x f g) (scaleBytes_xor f g a)

theorem scaleBytes_gfInv_cancel {f : Byte} (h : f ≠ 0) (a : List Byte) : scaleBytes (gfInv f) (scaleBytes f a) = a := by
  have cancel : gfMul (gfInv f) ∘ gfMul f = id := funext (gfInv_gfMul_cancel h)
  rw [scaleBytes, scaleBytes, List.map_map, cancel, List.map_id]

/-! ### Parities -/

section
variable {n : Nat} {us : List (Nat × List Byte)} (term : Nat × List Byte → List Byte) (h : ∀ u ∈ us, (term u).length = n)
include h

theorem foldl_xorBytes_length : ∀ {a : List Byte}, a.length = n → (us.foldl (fun a u => xorBytes a (term u)) a).length = n := by
  induction us with
  | nil => exact id
  | cons u us ih =>
    intro a ha
    rw [List.foldl_cons]
    exact ih (fun v hv => h v (List.mem_cons_of_mem _ hv))
      ((xorBytes_length (ha.trans (h u List.mem_cons_self).symm)).trans ha)

omit h in
/-- A sum may be added before or after the units. -/
theorem foldl_xorBytes_comm (us : List (Nat × List Byte)) (b : List Byte) : ∀ a : List Byte,
    us.foldl (fun a u => xorBytes a (term u)) (xorBytes a b) = xorBytes (us.foldl (fun a u => xorBytes a (term u)) a) b := by
  induction us with
  | nil => intro a; rfl
  | cons u us ih =>
    intro a
    rw [List.foldl_cons, List.foldl_cons, ← ih, xorBytes_assoc, xorBytes_comm b, ← xorBytes_assoc]

/-- The units added twice are gone. -/
theorem foldl_xorBytes_cancel : ∀ {a : List Byte}, a.length = n →
    us.foldl (fun a u => xorBytes a (term u)) (us.foldl (fun a u => xorBytes a (term u)) a) = a := by
  induction us with
  | nil => intro a _; rfl
  | cons u us ih =>
    intro a ha
    have hu := ha.trans (h u List.mem_cons_self).symm
    have rest := fun v hv => h v (List.mem_cons_of_mem _ hv)
    rw [List.foldl_cons, List.foldl_cons, foldl_xorBytes_comm term us (term u) a, foldl_xorBytes_comm term us (term u),
      foldl_xorBytes_comm term us (term u), ih rest ha, xorBytes_cancel hu]
end

theorem strip_p (a : List Byte) (us : List (Nat × List Byte)) :
    strip a us false = us.foldl (fun a u => xorBytes a u.2) a := rfl

theorem strip_q (a : List Byte) (us : List (Nat × List Byte)) :
    strip a us true = us.foldl (fun a u => xorBytes a (scaleBytes (gfPow 2 u.1) u.2)) a := rfl

/-- Settles O46: what is left of P and Q without the units held is one equation each in the lost ones. -/
theorem rebuildSolves : Obligations.RebuildSolves := by
  unfold Obligations.RebuildSolves
  rintro n x y d e us p q p' q' hd he hus hx hy hxy hp hq rfl rfl
  have lenP : ∀ u ∈ us, (Prod.snd u).length = n := fun u hu => (hus u hu).2
  have lenQ : ∀ u ∈ us, (scaleBytes (gfPow 2 u.1) u.2).length = n := fun u hu => by rw [scaleBytes_length]; exact (hus u hu).2
  have lost : strip p us false = d := by
    rw [strip_p, hp]
    exact foldl_xorBytes_cancel Prod.snd lenP hd
  have lostQ : strip q us true = scaleBytes (gfPow 2 x) d := by
    rw [strip_q, hq]
    exact foldl_xorBytes_cancel _ lenQ ((scaleBytes_length _ _).trans hd)
  have lost2 : strip (xorBytes p e) us false = xorBytes d e := by
    rw [strip_p, foldl_xorBytes_comm Prod.snd, ← strip_p, lost]
  have lost2Q : strip (xorBytes q (scaleBytes (gfPow 2 y) e)) us true =
      xorBytes (scaleBytes (gfPow 2 x) d) (scaleBytes (gfPow 2 y) e) := by
    rw [strip_q, foldl_xorBytes_comm fun u => scaleBytes (gfPow 2 u.1) u.2, ← strip_q, lostQ]
  have hne : gfPow 2 x ≠ 0 := gfPow_two_ne_zero ⟨x, hx⟩
  have hne2 : gfPow 2 x ^^^ gfPow 2 y ≠ 0 := gfPow_two_distinct ⟨x, hx⟩ ⟨y, hy⟩ (fun h => hxy (congrArg Fin.val h))
  have both (b : Bool) :
      solve (xorBytes p e) (xorBytes q (scaleBytes (gfPow 2 y) e)) b [x, y] us = some d := by
    have one : xorBytes (xorBytes (scaleBytes (gfPow 2 x) d) (scaleBytes (gfPow 2 y) e))
        (scaleBytes (gfPow 2 y) (xorBytes d e)) = scaleBytes (gfPow 2 x ^^^ gfPow 2 y) d := by
      rw [scaleBytes_xorBytes, xorBytes_comm (scaleBytes (gfPow 2 y) d), ← xorBytes_assoc,
        xorBytes_cancel (by simp [hd, he]), scaleBytes_xor]
    simp only [solve, lost2, lost2Q, one, scaleBytes_gfInv_cancel hne2]
  refine ⟨?_, ?_, both true, both false⟩
  · simp only [solve, lost, if_true]
  · simp only [solve, lostQ, scaleBytes_gfInv_cancel hne, Bool.false_eq_true, if_false]

end Sys2Proof.Machine
end

