-- ==== Sys2Proof/Proofs/BootChoice.lean ====
section
/-!
SUPPORT. Which firmware slot and which configuration slot boot (18 R402, R405, R406): the outcomes of each choice, and
the statement about them.
-/
namespace Sys2Proof.Machine

open Sys2Proof

/-! ### Firmware -/

section
variable {b : Boot} {i : Nat}

theorem Boot.tryFw_eq_one_iff : b.tryFw i = 1 ↔
    Config.fwHeaderOk (b.fwCells i) = true ∧ fwOk (b.fwCells i) = true ∧ i ∉ b.torn ∧ b.fsvn ≤ Config.fwSvn (b.fwCells i) := by
  rw [Boot.tryFw]
  by_cases ht : i ∈ b.torn <;> by_cases hs : Config.fwSvn (b.fwCells i) < b.fsvn <;>
    cases Config.fwHeaderOk (b.fwCells i) <;> cases fwOk (b.fwCells i) <;> simp [ht, hs, Nat.not_lt.mp]

theorem Boot.firstSlot_le (b : Boot) : b.firstSlot ≤ 1 := by
  rw [Boot.firstSlot]
  split <;> decide

/-- The slot tried first has the higher version of two with a good header. -/
theorem Boot.fwVersion_le_firstSlot (h : b.firstSlot = i) (hi : Config.fwHeaderOk (b.fwCells i) = true)
    (ho : Config.fwHeaderOk (b.fwCells (1 - i)) = true) :
    Config.fwVersion (b.fwCells (1 - i)) ≤ Config.fwVersion (b.fwCells i) := by
  rw [Boot.firstSlot] at h
  dsimp only at h
  split at h
  · next hc =>
    subst h
    simp only [Nat.sub_self] at ho ⊢
    simp [ho] at hc
    exact Nat.le_of_lt hc.2
  · next hc =>
    subst h
    simp only [Nat.sub_zero] at ho ⊢
    simpa [hi, ho] using hc

theorem Boot.chooseFw_fst (b : Boot) : b.chooseFw.1 = if b.tryFw b.firstSlot = 1 then some b.firstSlot
    else if b.tryFw (1 - b.firstSlot) = 1 then some (1 - b.firstSlot) else none := by
  rw [Boot.chooseFw]
  dsimp only
  split <;> rfl

theorem Boot.chooseFw_some (h : b.chooseFw.1 = some i) : b.tryFw i = 1 ∧ i ≤ 1 ∧
    (b.tryFw (1 - i) = 1 → Config.fwVersion (b.fwCells (1 - i)) ≤ Config.fwVersion (b.fwCells i)) := by
  have le := b.firstSlot_le
  rw [Boot.chooseFw_fst] at h
  split at h
  · next hr =>
    obtain rfl := Option.some.inj h
    exact ⟨hr, le, fun ho => Boot.fwVersion_le_firstSlot rfl (Boot.tryFw_eq_one_iff.mp hr).1 (Boot.tryFw_eq_one_iff.mp ho).1⟩
  · next hr =>
    split at h
    · next ho =>
      obtain rfl := Option.some.inj h
      refine ⟨ho, by omega, fun hr' => absurd ?_ hr⟩
      rwa [show 1 - (1 - b.firstSlot) = b.firstSlot by omega] at hr'
    · nomatch h

theorem Boot.chooseFw_none : b.chooseFw.1 = none ↔ b.tryFw 0 ≠ 1 ∧ b.tryFw 1 ≠ 1 := by
  rw [Boot.chooseFw_fst]
  have slots : b.firstSlot = 0 ∨ b.firstSlot = 1 := by have := b.firstSlot_le; omega
  rcases slots with e | e <;> rw [e] <;> by_cases h0 : b.tryFw 0 = 1 <;> by_cases h1 : b.tryFw 1 = 1 <;> simp [h0, h1]

end

/-! ### Configuration -/

section
variable {c d : Channel} {ch : Ch} {i : Nat}

/-- A difference of words that is not negative is not positive the other way round. -/
theorem toInt_sub_comm_nonpos {x y : W32} (h : 0 ≤ (x - y).toInt) : (y - x).toInt ≤ 0 := by
  rw [BitVec.toInt_eq_toNat_cond, BitVec.toNat_sub] at h ⊢
  omega

/-- What the block of a slot makes of the channel: its sequence number and the channel configured. -/
def Channel.made (c : Channel) (ch : Ch) (i : Nat) : Option (W32 × Channel) := do
  let raw ← c.boot.cfgBlock i
  let c' ← c.configure ch raw
  pure (cfgSeq raw, c')

theorem Channel.made_eq_some {p : W32 × Channel} : c.made ch i = some p ↔
    ∃ raw, c.boot.cfgBlock i = some raw ∧ c.configure ch raw = some p.2 ∧ cfgSeq raw = p.1 := by
  obtain ⟨q, d⟩ := p
  simp only [Channel.made, Option.bind_eq_bind, Option.bind_eq_some_iff, Option.pure_def, Option.some.injEq, Prod.mk.injEq]
  exact ⟨fun ⟨raw, h, d', hd, hq, e⟩ => ⟨raw, h, e ▸ hd, hq⟩, fun ⟨raw, h, hd, hq⟩ => ⟨raw, h, d, hd, hq, rfl⟩⟩

theorem Channel.made_eq_none : c.made ch i = none ↔ ∀ raw, c.boot.cfgBlock i = some raw → c.configure ch raw = none := by
  simp only [Channel.made, Option.bind_eq_bind, Option.bind_eq_none_iff, Option.pure_def, reduceCtorEq, imp_false]
  exact forall₂_congr fun raw _ => Option.eq_none_iff_forall_ne_some.symm

/-- The choice between what the blocks of the two slots make; `held` is the cause where neither makes a channel. -/
def chooseMade (m0 m1 : Option (W32 × Channel)) (held : Cause) : Except Cause (Nat × Channel) :=
  match m0, m1 with
  | some (s0, c0), some (s1, c1) => .ok (if (s0 - s1).msb then (1, c1) else (0, c0))
  | some (_, c0), none => .ok (0, c0)
  | none, some (_, c1) => .ok (1, c1)
  | none, none => .error held

theorem Channel.chooseCfg_eq : c.chooseCfg ch = chooseMade (c.made ch 0) (c.made ch 1)
    (if (c.boot.cfgBlock 0).isSome || (c.boot.cfgBlock 1).isSome then .badcfg else .nocfg) := rfl

theorem Channel.chooseCfg_ok (h : c.chooseCfg ch = .ok (i, d)) : i ≤ 1 ∧ ∃ q, c.made ch i = some (q, d) ∧
    ∀ p, c.made ch (1 - i) = some p → (p.1 - q).toInt ≤ 0 := by
  rw [Channel.chooseCfg_eq] at h
  cases h0 : c.made ch 0 with
  | some p0 =>
    cases h1 : c.made ch 1 with
    | some p1 =>
      rw [h0, h1] at h
      unfold chooseMade at h
      dsimp only at h
      split at h
      · next hm =>
        obtain ⟨rfl, rfl⟩ := Prod.mk.inj (Except.ok.inj h)
        refine ⟨le_rfl, p1.1, h1, fun p hp => ?_⟩
        obtain rfl := Option.some.inj (h0.symm.trans hp)
        exact le_of_lt ((msb_iff _).mp hm)
      · next hm =>
        obtain ⟨rfl, rfl⟩ := Prod.mk.inj (Except.ok.inj h)
        refine ⟨Nat.zero_le _, p0.1, h0, fun p hp => ?_⟩
        obtain rfl := Option.some.inj (h1.symm.trans hp)
        exact toInt_sub_comm_nonpos (not_lt.mp fun h => hm ((msb_iff _).mpr h))
    | none =>
      rw [h0, h1] at h
      obtain ⟨rfl, rfl⟩ := Prod.mk.inj (Except.ok.inj h)
      exact ⟨Nat.zero_le _, p0.1, h0, fun p hp => nomatch h1.symm.trans hp⟩
  | none =>
    cases h1 : c.made ch 1 with
    | some p1 =>
      rw [h0, h1] at h
      obtain ⟨rfl, rfl⟩ := Prod.mk.inj (Except.ok.inj h)
      exact ⟨le_rfl, p1.1, h1, fun p hp => nomatch h0.symm.trans hp⟩
    | none =>
      rw [h0, h1] at h
      nomatch h

theorem Channel.chooseCfg_error {k : Cause} (h : c.chooseCfg ch = .error k) : c.made ch 0 = none ∧ c.made ch 1 = none ∧
    k = if (c.boot.cfgBlock 0).isSome || (c.boot.cfgBlock 1).isSome then .badcfg else .nocfg := by
  rw [Channel.chooseCfg_eq] at h
  cases h0 : c.made ch 0 with
  | some p0 => cases h1 : c.made ch 1 <;> (rw [h0, h1] at h; nomatch h)
  | none =>
    cases h1 : c.made ch 1 with
    | some p1 => rw [h0, h1] at h; nomatch h
    | none =>
      rw [h0, h1] at h
      exact ⟨rfl, rfl, (Except.error.inj h).symm⟩

end

/-- Settles O56: the slot chosen and the block chosen, by the lemmas of each choice. -/
theorem bootSelection : Obligations.BootSelection := by
  unfold Obligations.BootSelection
  intro b i c d ch
  refine ⟨Boot.chooseFw_some, Boot.chooseFw_none, ?_, fun h => ?_, fun k h => ?_⟩
  · rintro x rfl
    rw [Boot.tryFw_eq_one_iff, fwOk]
    simp only [Bool.and_eq_true, beq_iff_eq]
    tauto
  · obtain ⟨hi, q, hq, other⟩ := Channel.chooseCfg_ok h
    obtain ⟨raw, hraw, hconf, rfl⟩ := Channel.made_eq_some.mp hq
    exact ⟨hi, raw, hraw, hconf, fun raw' d' hraw' hd' => other (cfgSeq raw', d') (Channel.made_eq_some.mpr ⟨raw', hraw', hd', rfl⟩)⟩
  · obtain ⟨h0, h1, rfl⟩ := Channel.chooseCfg_error h
    refine ⟨?_, ?_, fun j raw hj => ?_⟩
    · cases c.boot.cfgBlock 0 <;> cases c.boot.cfgBlock 1 <;> simp
    · split
      · exact fun _ => rfl
      · exact fun hne => absurd rfl hne
    · have slots : j = 0 ∨ j = 1 := by omega
      rcases slots with rfl | rfl
      · exact Channel.made_eq_none.mp h0 raw
      · exact Channel.made_eq_none.mp h1 raw

end Sys2Proof.Machine
end

