-- ==== Sys2Proof/Proofs/ContextsAndBanks.lean ====
section
/-!
SUPPORT. Stream contexts and accumulator banks (04 R94, 12 R277, R282, R285): what a change of a context or of an array
leaves, the outcomes of a configuration write and of the ring's and the rotation's rows, and the statements about them.
-/
namespace Sys2Proof.Machine

open Sys2Proof

/-! ### One context of a core -/

section
variable (c : Channel) (k : Core) (i : Fin 16) (f : Ctx → Ctx)

theorem Channel.modCtx_get (j : Core) (m : Fin 16) : (c.modCtx k i f).cores[j].esk.ctxs[m] =
    if j = k ∧ m = i then f c.cores[k].esk.ctxs[i] else c.cores[j].esk.ctxs[m] := by
  rw [Channel.modCtx, Channel.modCore_get]
  by_cases hj : j = k
  · subst hj
    rw [if_pos rfl]
    simp only [Fin.getElem_fin, Vector.getElem_set, true_and, Fin.ext_iff, eq_comm]
  · rw [if_neg hj, if_neg (fun h => hj h.1)]

@[simp] theorem Channel.modCtx_self : (c.modCtx k i f).cores[k].esk.ctxs[i] = f c.cores[k].esk.ctxs[i] := by
  rw [Channel.modCtx_get, if_pos ⟨rfl, rfl⟩]

theorem Channel.modCtx_of_ne {j : Core} (h : j ≠ k) (m : Fin 16) :
    (c.modCtx k i f).cores[j].esk.ctxs[m] = c.cores[j].esk.ctxs[m] := by
  rw [Channel.modCtx_get, if_neg (fun e => h e.1)]

@[simp] theorem Channel.modCtx_heldDrop (j : Core) :
    (c.modCtx k i f).cores[j].esk.heldDrop = c.cores[j].esk.heldDrop := by
  rw [Channel.modCtx, Channel.modCore_get]
  split
  · next h => rw [h]
  · rfl

@[simp] theorem Channel.dropHeld_ctxs (n : Nat) (j : Core) : (c.dropHeld k n).cores[j].esk.ctxs = c.cores[j].esk.ctxs := by
  rw [Channel.dropHeld, Channel.modCore_get]
  split
  · next h => rw [h]
  · rfl

@[simp] theorem Channel.dropHeld_heldDrop (n : Nat) :
    (c.dropHeld k n).cores[k].esk.heldDrop = satAdd c.cores[k].esk.heldDrop n := by
  rw [Channel.dropHeld, Channel.modCore_self]

@[simp] theorem Channel.eskCount_ctxs (n m : Nat) (j : Core) : (c.eskCount k n m).cores[j].esk.ctxs = c.cores[j].esk.ctxs := by
  rw [Channel.eskCount, Channel.modCore_get]
  split
  · next h => rw [h]
  · rfl

@[simp] theorem Channel.noteUe_ctxs (a : Nat) (ue : Bool) (j : Core) : (c.noteUe a ue).cores[j].esk.ctxs = c.cores[j].esk.ctxs := by
  rw [Channel.noteUe]
  split
  · rfl
  · split
    · split
      · rw [Channel.modCore_get]
        split
        · next h => rw [h]
        · rfl
      · rfl
    · rfl

@[simp] theorem Channel.noteUe_mem (a : Nat) (ue : Bool) : (c.noteUe a ue).mem = c.mem := by
  rw [Channel.noteUe]
  split
  · rfl
  · split
    · split <;> rfl
    · rfl

omit c k i f in
theorem Vector.set_same {α : Type} {n : Nat} (v : Vector α n) (j : Fin n) : v.set j v[j] = v := Vector.set_getElem_self j.isLt

theorem Channel.modCtx_same {f : Ctx → Ctx} (h : f c.cores[k].esk.ctxs[i] = c.cores[k].esk.ctxs[i]) : c.modCtx k i f = c := by
  have same : { c.cores[k] with esk := { c.cores[k].esk with
      ctxs := c.cores[k].esk.ctxs.set i (f c.cores[k].esk.ctxs[i]) } } = c.cores[k] := by
    rw [h, Vector.set_same]
  rw [Channel.modCtx, Channel.modCore, same, Vector.set_same]

theorem Channel.modCtx_congr {f g : Ctx → Ctx} (h : f c.cores[k].esk.ctxs[i] = g c.cores[k].esk.ctxs[i]) :
    c.modCtx k i f = c.modCtx k i g := by
  rw [Channel.modCtx, Channel.modCtx, Channel.modCore, Channel.modCore, h]
end

/-! ### One slot of a context -/

section
variable (x : Ctx) (f : Slot → Slot)

@[simp] theorem Ctx.modSlot_slot_self {j : Nat} (h : j < x.slots.length) : (x.modSlot j f).slot j = f (x.slot j) := by
  simp [Ctx.modSlot, Ctx.slot, h]

theorem Ctx.modSlot_slot_of_ne {j m : Nat} (h : j ≠ m) : (x.modSlot j f).slot m = x.slot m := by
  simp [Ctx.modSlot, Ctx.slot, h]

/-- A slot emptied is empty, also where there is none. -/
theorem Ctx.modSlot_clear (j : Nat) : (x.modSlot j fun _ => {}).slot j = {} := by
  by_cases h : j < x.slots.length
  · rw [Ctx.modSlot_slot_self x _ h]
  · simp [Ctx.modSlot, Ctx.slot, h]
end

/-! ### Configuration (R277, R284) -/

section
variable {c : Channel} {k : Core} {i : Fin 16} {r : CtxReg} {w : RegWrite} {x y : Ctx}

theorem eskCtxConfig_ignored (hx : c.cores[k].esk.ctxs[i] = x) (h0 : x.state ≠ 0) (h1 : x.state ≠ 1) :
    eskCtxConfig c k i r w = c := by
  subst hx
  rw [eskCtxConfig, if_pos (by simpa using And.intro h0 h1)]

variable (hx : c.cores[k].esk.ctxs[i] = x) (hy : x.writeReg r w = y) (hs : x.state = 0 ∨ x.state = 1)
include hx hy hs

theorem eskCtxConfig_off (hm : y.mode = .off) :
    eskCtxConfig c k i r w = (c.modCtx k i fun _ => y.turnOff).dropHeld k x.heldCount := by
  subst hx hy
  rw [eskCtxConfig, if_neg (by rcases hs with h | h <;> simp [h, -Fin.getElem_fin])]
  exact if_pos hm

theorem eskCtxConfig_valid (hm : y.mode ≠ .off) (hv : ctxValid c k i y = true) :
    eskCtxConfig c k i r w = c.modCtx k i fun _ => if x.mode = .off then
      { y with slots := List.replicate 16 {}, order := [], heldOrder := [], head := 0, tail := 0, steps := 0
               pushed := false, started := false } else y := by
  subst hx hy
  rw [eskCtxConfig, if_neg (by rcases hs with h | h <;> simp [h, -Fin.getElem_fin])]
  refine (if_neg hm).trans ((if_pos hv).trans (Channel.modCtx_congr _ _ _ ?_))
  simp [hm, -Fin.getElem_fin]

theorem eskCtxConfig_invalid (hm : y.mode ≠ .off) (hv : ctxValid c k i y = false) : eskCtxConfig c k i r w =
    (c.modCtx k i fun _ => { y.turnOff with cfgerr := true }).dropHeld k x.heldCount := by
  subst hx hy
  rw [eskCtxConfig, if_neg (by rcases hs with h | h <;> simp [h, -Fin.getElem_fin])]
  exact (if_neg hm).trans (if_neg (ne_true_of_eq_false hv))
end

theorem exec_eskCtxConfig {s : State} {ch : Ch} (hu : s.chans[ch].up = true) (hf : s.chans[ch].isFrozen .host = false)
    (k : Core) (i : Fin 16) (r : CtxReg) (w : RegWrite) :
    exec (.eskCtxConfig ch k i r w) s = .next (s.put ch (eskCtxConfig s.chans[ch] k i r w)) := by
  change Host.Outcome.next (if _ then _ else _) = _
  rw [if_pos (by simp [hu, hf, -Fin.getElem_fin]), State.modCh_eq]

/-! ### Banks (R94) -/

@[simp] theorem CoreState.array_modArray (cs : CoreState) (a : ArrayId) (f : ArrayState → ArrayState) :
    (cs.modArray a f).array a = f (cs.array a) := by
  cases a <;> rfl

@[simp] theorem CoreState.modArray_mor (cs : CoreState) (a : ArrayId) (f : ArrayState → ArrayState) :
    (cs.modArray a f).mor = cs.mor := by
  cases a <;> rfl

@[simp] theorem CoreState.array_withMor (cs : CoreState) (m : Moraine) (a : ArrayId) :
    ({ cs with mor := m } : CoreState).array a = cs.array a := by
  cases a <;> rfl

section
variable {s : State} {ch : Ch} (k : Core) (a : ArrayId) (h : s.chans[ch].up = true)
include h

theorem exec_bankHandover : exec (.bankHandover ch k a) s = .next (s.put ch (bankHandover s.chans[ch] k a)) := by
  change Host.Outcome.next (if _ then _ else _) = _
  rw [if_pos h, State.modCh_eq]

theorem exec_bankRelease : exec (.bankRelease ch k a) s = .next (s.put ch (bankRelease s.chans[ch] k a)) := by
  change Host.Outcome.next (if _ then _ else _) = _
  rw [if_pos h, State.modCh_eq]
end

section
variable {c : Channel} {k : Core} {a : ArrayId} {b : Bank} {rest : List Bank}

theorem bankHandover_gives (hf : (c.cores[k].array a).full = b :: rest) (hh : (c.cores[k].array a).handed.length < 2) :
    (bankHandover c k a).cores[k].array a =
      { c.cores[k].array a with full := rest, handed := (c.cores[k].array a).handed ++ [b] } ∧
    (bankHandover c k a).cores[k].mor.waitacc = (c.cores[k].mor.waitacc && c.cores[k].mor.waitArr != a) ∧
    bankHandover c k a = { c with cores := (bankHandover c k a).cores, running := (bankHandover c k a).running } ∧
    ∀ j, j ≠ k → (bankHandover c k a).cores[j] = c.cores[j] := by
  have e : bankHandover c k a = (c.modCore k fun cs =>
      let cs := cs.modArray a fun x => { x with full := rest, handed := x.handed ++ [b] }
      { cs with mor := { cs.mor with waitacc := cs.mor.waitacc && cs.mor.waitArr != a } }).handDone k := by
    rw [bankHandover, hf]
    exact if_pos hh
  rw [e]
  refine ⟨?_, ?_, rfl, fun j hj => ?_⟩
  · rw [Channel.handDone, Channel.modCore_self, CoreState.array_withMor, CoreState.array_modArray]
  · rw [Channel.handDone, Channel.modCore_self]
    dsimp only
    rw [CoreState.modArray_mor]
  · rw [Channel.handDone, Channel.modCore_get, if_neg hj]

theorem bankHandover_waits (hf : (c.cores[k].array a).full = b :: rest) (hh : 2 ≤ (c.cores[k].array a).handed.length) :
    bankHandover c k a = c := by
  rw [bankHandover, hf]
  exact if_neg (by omega)
end

/-- Settles O22: the outcomes of a configuration write, and the two moves of a bank. -/
theorem contextConfigAndBanks : Obligations.ContextConfigAndBanks := by
  unfold Obligations.ContextConfigAndBanks
  constructor
  · rintro s ch k i r w c x y rfl hu hf hx hy
    rw [exec_eskCtxConfig hu hf]
    refine ⟨fun h0 h1 => ?_, fun hs => ⟨fun hm hv hx0 => ?_, fun hm hv hx0 => ⟨_, ?_, rfl⟩, fun hm hv => ?_, fun hm => ?_⟩⟩
    · rw [eskCtxConfig_ignored hx h0 h1, State.put_same]
    · rw [eskCtxConfig_valid hx hy hs hm hv, if_neg hx0]
    · rw [eskCtxConfig_valid hx hy hs hm hv, if_pos hx0]
    · refine ⟨_, rfl, ?_⟩
      rw [eskCtxConfig_invalid hx hy hs hm hv, Channel.dropHeld_ctxs, Channel.modCtx_self, Channel.dropHeld_heldDrop,
        Channel.modCtx_heldDrop]
      exact ⟨rfl, rfl, rfl⟩
    · refine ⟨_, rfl, ?_⟩
      rw [eskCtxConfig_off hx hy hs hm, Channel.dropHeld_ctxs, Channel.modCtx_self, Channel.dropHeld_heldDrop,
        Channel.modCtx_heldDrop]
      exact ⟨rfl, rfl, rfl⟩
  · rintro s ch k a c x b rest rfl hu rfl
    rw [exec_bankHandover k a hu, exec_bankRelease k a hu]
    refine ⟨fun hf hh => ⟨_, rfl, bankHandover_gives hf hh⟩, fun hf hh => ?_, fun n hr hh => ⟨_, rfl, ?_, rfl, fun j hj => ?_⟩⟩
    · rw [bankHandover_waits hf hh, State.put_same]
    · rw [bankRelease, Channel.modCore_self, CoreState.array_modArray, hr, hh]
    · rw [bankRelease, Channel.modCore_get, if_neg hj]

/-! ### The ring (R282) -/

section
variable {s : State} {ch : Ch} (k : Core) (i : Fin 16) (h : s.chans[ch].up = true)
include h

theorem exec_ringRelease : exec (.ringRelease ch k i) s = .next (s.put ch (ringRelease s.chans[ch] k i)) := by
  change Host.Outcome.next (if _ then _ else _) = _
  rw [if_pos h, State.modCh_eq]

theorem exec_rotatePush : ∃ q j, exec (.rotatePush ch k i) s =
    .next (s.put ch (s.chans[ch].filled q i j fun c => rotatePush c k i)) := by
  refine ⟨s.chans[ch].cores[k].esk.ctxs[i].pred k,
    s.chans[ch].cores[s.chans[ch].cores[k].esk.ctxs[i].pred k].esk.ctxs[i].nxt, ?_⟩
  change Host.Outcome.next (if _ then _ else _) = _
  rw [if_pos h, State.modCh_eq]

theorem exec_rotateSwap : exec (.rotateSwap ch k i) s = .next (s.put ch (rotateSwap s.chans[ch] k i)) := by
  change Host.Outcome.next (if _ then _ else _) = _
  rw [if_pos h, State.modCh_eq]
end

/-- A slot that its readers have left. -/
def Ctx.released (x : Ctx) (j : Nat) : Prop :=
  x.ruse.toNat ≤ (x.slot j).done ∧ ((x.slot j).st = .full ∨ (x.slot j).st = .faulted)

section
variable {n : Nat} {x : Ctx}

theorem ringAdvance_moves (hne : x.head ≠ x.tail) (hr : x.released (x.head.toNat % x.nslot.toNat)) :
    ringAdvance (n + 1) x = ringAdvance n
      { x with slots := x.slots.modify (x.head.toNat % x.nslot.toNat) fun _ => {}, head := x.head + 1 } := by
  obtain ⟨hd, hst⟩ := hr
  rw [ringAdvance]
  exact if_pos (by rcases hst with h | h <;> simp [hne, hd, h])

theorem ringAdvance_stays (h : x.head = x.tail ∨ (x.slot (x.head.toNat % x.nslot.toNat)).done < x.ruse.toNat) :
    ringAdvance n x = x := by
  cases n with
  | zero => rfl
  | succ n =>
    rw [ringAdvance]
    refine if_neg ?_
    rcases h with h | h
    · simp [h]
    · simp [Nat.not_le.mpr h]
end

section
variable {c : Channel} {k : Core} {i : Fin 16} {x : Ctx} (hx : c.cores[k].esk.ctxs[i] = x)
include hx

theorem ringRelease_moves (hm : x.mode = .ring) (hne : x.head ≠ x.tail) (hr : x.released (x.head.toNat % x.nslot.toNat)) :
    ringRelease c k i = c.modCtx k i fun x => ringAdvance 15
      { x with slots := x.slots.modify (x.head.toNat % x.nslot.toNat) fun _ => {}, head := x.head + 1 } := by
  subst hx
  rw [ringRelease]
  refine Channel.modCtx_congr _ _ _ ?_
  rw [if_pos hm, ringAdvance_moves hne hr]

theorem ringRelease_stays
    (h : x.mode ≠ .ring ∨ x.head = x.tail ∨ (x.slot (x.head.toNat % x.nslot.toNat)).done < x.ruse.toNat) :
    ringRelease c k i = c := by
  subst hx
  rw [ringRelease]
  refine Channel.modCtx_same _ _ _ ?_
  rcases h with h | h
  · exact if_neg h
  · rw [ringAdvance_stays h, ite_self]
end

/-! ### The rotation (R285, R287) -/

theorem Mem.readGo_length (d : Byte) : ∀ (m : Mem) (a n : Nat), (Mem.readGo d m a n).length = n
  | _, _, 0 => by rw [Mem.readGo, List.length_nil]
  | [], a, n + 1 => by rw [Mem.readGo, List.length_cons, readGo_length d [] (a + 1) n]
  | (k, b) :: rest, a, n + 1 => by
    rw [Mem.readGo]
    split
    · rw [List.length_cons, readGo_length d rest (a + 1) n]
    · rw [List.length_cons, readGo_length d ((k, b) :: rest) (a + 1) n]

@[simp] theorem Channel.rd_length (c : Channel) (a n : Nat) : (c.rd a n).length = n := Mem.readGo_length _ _ _ _

/-- What the rest of the channel is after a change of the stacks, the cores and what they report. -/
theorem Channel.classifyUe_esk (c : Channel) (a : Nat) (j : Core) : (c.classifyUe a).cores[j].esk = c.cores[j].esk := by
  refine Noted.classifyUe_induct (p := fun c d => d.cores[j].esk = c.cores[j].esk) (fun _ => rfl)
    (fun h h' => h'.trans h) (fun c a => ?_) (fun h => by rw [h.cores]) c a
  rw [Channel.noteUe]
  split
  · rfl
  · split
    · split
      · rw [Channel.modCore_get]
        split
        · next h => rw [h]
        · rfl
      · rfl
    · rfl

theorem Channel.filled_noted (c : Channel) (k : Core) (i : Fin 16) (j : Nat) (f : Channel → Channel) :
    Noted (f c) (c.filled k i j f) := by
  rw [Channel.filled]
  exact Noted.ite (fun _ => Noted.classifyUe _ _) (fun _ => Noted.refl _)

theorem Channel.filled_esk (c : Channel) (k : Core) (i : Fin 16) (j : Nat) (f : Channel → Channel) (m : Core) :
    (c.filled k i j f).cores[m].esk = (f c).cores[m].esk := by
  rw [Channel.filled]
  split
  · exact Channel.classifyUe_esk _ _ m
  · rfl

section
variable (c : Channel) (k : Core) (i : Fin 16) (j : Nat)

theorem fillSignal_ctx (m : Core) (n : Fin 16) : ∃ order, (fillSignal c k i j).cores[m].esk.ctxs[n] =
    { c.cores[m].esk.ctxs[n] with order := order } := by
  rw [fillSignal]
  dsimp only
  rw [Channel.semAdd_cores, Channel.modCtx_get]
  split
  · next h =>
    obtain ⟨rfl, rfl⟩ := h
    exact ⟨_, rfl⟩
  · exact ⟨_, rfl⟩

/-- What a held fault makes of its context. -/
def Ctx.hold (x : Ctx) (j : Nat) (status : Byte) (a : Nat) : Ctx :=
  { x.modSlot j (fun s => { s with
      st := .faulted, heldStatus := status, heldAddr := BitVec.ofNat 48 a, filler := none, halted := none }) with
    heldOrder := x.heldOrder ++ [j] }

/-- A held fault: its context first, its count, the additions due, and the end of the st.prefetch that filled the slot. -/
theorem holdFault_eq (status : Byte) (a : Nat) : holdFault c k i j status a =
    { fillSignal ((c.modCtx k i fun x => x.hold j status a).modCore k fun t =>
        { t with esk := { t.esk with heldTotal := satAdd t.esk.heldTotal 1 } }) k i j with
      running := (holdFault c k i j status a).running } := by
  rw [holdFault]
  dsimp only
  split
  · split <;> rfl
  · rfl

theorem holdFault_mem (status : Byte) (a : Nat) : (holdFault c k i j status a).mem = c.mem := by
  rw [holdFault_eq]
  rfl

theorem holdFault_ctx (status : Byte) (a : Nat) (m : Core) (n : Fin 16) :
    ∃ order, (holdFault c k i j status a).cores[m].esk.ctxs[n] =
      { (if m = k ∧ n = i then c.cores[k].esk.ctxs[i].hold j status a else c.cores[m].esk.ctxs[n]) with order := order } := by
  rw [holdFault_eq]
  obtain ⟨order, e⟩ := fillSignal_ctx ((c.modCtx k i fun x => x.hold j status a).modCore k fun t =>
    { t with esk := { t.esk with heldTotal := satAdd t.esk.heldTotal 1 } }) k i j m n
  refine ⟨order, e.trans ?_⟩
  rw [← Channel.modCtx_get c k i (fun x => x.hold j status a), Channel.modCore_get]
  by_cases h : m = k
  · subst h
    rw [if_pos rfl]
  · rw [if_neg h]
end

section
variable {c : Channel} {k p : Core} {i : Fin 16} {x y : Ctx}

/-- The conditions of a push of CUR of a member into the NXT of its predecessor (R285). -/
structure Pushes (x y : Ctx) (k p : Core) : Prop where
  mode : x.mode = .rotate
  mode' : y.mode = .rotate
  frozen : x.frozen = false
  frozen' : y.frozen = false
  cancelling : x.cancelling = false
  started : x.started = true
  pushed : x.pushed = false
  lastStep : x.lastStep = false
  steps : y.steps = x.steps
  pred : x.pred k = p
  ne : p ≠ k
  full : (x.slot x.cur).st = .full
  cancelAfter : (x.slot x.cur).cancelAfter = false
  empty : (y.slot y.nxt).st = .empty

variable (hx : c.cores[k].esk.ctxs[i] = x) (hy : c.cores[p].esk.ctxs[i] = y) (h : Pushes x y k p)
include hx hy h

theorem rotatePush_copies (hb : c.badIn (x.slotAddr x.cur) x.size.toNat false = none) : rotatePush c k i =
    (((c.wr (y.slotAddr y.nxt) (c.rd (x.slotAddr x.cur) x.size.toNat)).eskCount k x.size.toNat 0).modCtx p i fun t =>
      t.modSlot y.nxt fun s => { s with st := .full }).modCtx k i fun t => { t with pushed := true } := by
  obtain ⟨h1, h2, h3, h4, h5, h6, h7, h8, h9, rfl, h11, h12, h13, h14⟩ := h
  subst hx hy
  rw [rotatePush]
  refine (if_pos ?_).trans ?_
  · simp [h1, h2, h3, h4, h5, h6, h7, h8, h9, h11, h12, h13, h14, -Fin.getElem_fin]
  · dsimp only
    rw [hb]

theorem rotatePush_copies_spec (hb : c.badIn (x.slotAddr x.cur) x.size.toNat false = none) :
    (rotatePush c k i).cores[p].esk.ctxs[i] = y.modSlot y.nxt (fun s => { s with st := .full }) ∧
    (rotatePush c k i).cores[k].esk.ctxs[i] = { x with pushed := true } ∧
    (rotatePush c k i).mem = (c.wr (y.slotAddr y.nxt) (c.rd (x.slotAddr x.cur) x.size.toNat)).mem := by
  have hne := h.ne
  rw [rotatePush_copies hx hy h hb]
  generalize hw : c.wr (y.slotAddr y.nxt) (c.rd (x.slotAddr x.cur) x.size.toNat) = w
  have cores : w.cores = c.cores := by rw [← hw]; rfl
  refine ⟨?_, ?_, rfl⟩
  · rw [Channel.modCtx_of_ne _ _ _ _ hne, Channel.modCtx_self, Channel.eskCount_ctxs, cores, hy]
  · rw [Channel.modCtx_self, Channel.modCtx_of_ne _ _ _ _ hne.symm, Channel.eskCount_ctxs, cores, hx]

theorem rotatePush_holds {a : Nat} (hb : c.badIn (x.slotAddr x.cur) x.size.toNat false = some a) : rotatePush c k i =
    (holdFault (c.noteUe a false) p i y.nxt 0x16 a).modCtx k i fun t => { t with pushed := true } := by
  obtain ⟨h1, h2, h3, h4, h5, h6, h7, h8, h9, rfl, h11, h12, h13, h14⟩ := h
  subst hx hy
  rw [rotatePush]
  refine (if_pos ?_).trans ?_
  · simp [h1, h2, h3, h4, h5, h6, h7, h8, h9, h11, h12, h13, h14, -Fin.getElem_fin]
  · dsimp only
    rw [hb]
end

theorem rotatePush_holds_spec {c : Channel} {k p : Core} {i : Fin 16} {x y : Ctx} (hx : c.cores[k].esk.ctxs[i] = x)
    (hy : c.cores[p].esk.ctxs[i] = y) (h : Pushes x y k p) {a : Nat}
    (hb : c.badIn (x.slotAddr x.cur) x.size.toNat false = some a) (hlen : y.nxt < y.slots.length) :
    ((rotatePush c k i).cores[p].esk.ctxs[i].slot y.nxt).st = .faulted ∧
    ((rotatePush c k i).cores[p].esk.ctxs[i].slot y.nxt).heldStatus = 0x16 ∧
    (rotatePush c k i).cores[k].esk.ctxs[i].pushed = true ∧ (rotatePush c k i).mem = c.mem := by
  obtain ⟨order, e⟩ := holdFault_ctx (c.noteUe a false) p i y.nxt 0x16 a p i
  rw [if_pos ⟨rfl, rfl⟩, Channel.noteUe_ctxs, hy] at e
  have slot : ({ y.hold y.nxt 0x16 a with order := order } : Ctx).slot y.nxt = { y.slot y.nxt with
      st := .faulted, heldStatus := 0x16, heldAddr := BitVec.ofNat 48 a, filler := none, halted := none } :=
    Ctx.modSlot_slot_self y _ hlen
  rw [rotatePush_holds hx hy h hb, Channel.modCtx_of_ne _ _ _ _ h.ne, Channel.modCtx_self, e, slot]
  exact ⟨rfl, rfl, rfl, (holdFault_mem _ _ _ _ _ _).trans (Channel.noteUe_mem _ _ _)⟩

theorem rotateSwap_eq {c : Channel} {k : Core} {i : Fin 16} {x : Ctx} (hx : c.cores[k].esk.ctxs[i] = x)
    (hm : x.mode = .rotate) (hf : x.frozen = false) (hp : x.pushed = true) (hl : x.lastStep = false)
    (hd : x.ruse.toNat ≤ (x.slot x.cur).done) (hn : (x.slot x.nxt).st = .full) : rotateSwap c k i =
      (c.modCtx k i fun t => { (t.modSlot x.cur fun _ => {}).modSlot x.nxt (fun _ => { st := .full }) with
        steps := t.steps + 1, pushed := false }).semAdd x.fullsem 1 := by
  subst hx
  rw [rotateSwap]
  exact if_pos (by simp [hm, hf, hp, hl, hd, hn, -Fin.getElem_fin])

theorem Ctx.nxt_ne_cur (x : Ctx) : x.nxt ≠ x.cur := by
  rw [Ctx.nxt, Ctx.cur]
  omega

/-- Settles O24: each row by the equation of the case. -/
theorem ringsAndRotation : Obligations.RingsAndRotation := by
  unfold Obligations.RingsAndRotation
  rintro s ch k p i c x y j rfl hu hx hy rfl
  obtain ⟨q, j, push⟩ := exec_rotatePush k i hu
  rw [exec_ringRelease k i hu, push, exec_rotateSwap k i hu]
  refine ⟨fun hm hne hd hst => ?_, fun h => ?_, ?_, ?_⟩
  · rw [ringRelease_moves hx hm hne ⟨hd, hst⟩]
    have head : s.chans[ch].modCtx k i (fun t => ringAdvance 15
          { t with slots := t.slots.modify (t.head.toNat % t.nslot.toNat) fun _ => {}, head := t.head + 1 }) =
        s.chans[ch].modCtx k i (fun t => ringAdvance 15
          { t with slots := t.slots.modify (x.head.toNat % x.nslot.toNat) fun _ => {}, head := t.head + 1 }) :=
      Channel.modCtx_congr _ _ _ (by rw [hx])
    rw [head]
  · rw [ringRelease_stays hx h, State.put_same]
  · intro h1 h2 h3 h4 h5 h6 h7 h8 h9 h10 h11 h12 h13 h14 hlen
    have h : Pushes x y k p := ⟨h1, h2, h3, h4, h5, h6, h7, h8, h9, h10, h11, h12, h13, h14⟩
    refine ⟨fun hb => ⟨_, rfl, ?_⟩, fun a hb => ⟨_, rfl, ?_⟩⟩
    · obtain ⟨next, cur, mem⟩ := rotatePush_copies_spec hx hy h hb
      rw [Channel.filled_esk, Channel.filled_esk, (Channel.filled_noted _ _ _ _ _).mem, next, cur, mem,
        Ctx.modSlot_slot_self y _ hlen]
      refine ⟨rfl, rfl, fun b => ?_⟩
      rw [Channel.wr_byte, Channel.rd_length]
    · rw [Channel.filled_esk, Channel.filled_esk, (Channel.filled_noted _ _ _ _ _).mem]
      exact rotatePush_holds_spec hx hy h hb hlen
  · intro hm hf hp hl hd hn
    refine ⟨_, rfl, ?_⟩
    rw [rotateSwap_eq hx hm hf hp hl hd hn, Channel.semAdd_cores, Channel.modCtx_self, hx]
    have cleared : ((x.modSlot x.cur fun _ => {}).modSlot x.nxt fun _ => { st := .full }).slot x.cur = {} := by
      rw [Ctx.modSlot_slot_of_ne _ _ x.nxt_ne_cur, Ctx.modSlot_clear]
    refine ⟨rfl, rfl, congrArg Slot.st cleared, fun q => ?_, rfl⟩
    rw [Channel.semVal_semAdd]
    split
    · rfl
    · exact (BitVec.add_zero _).symm

end Sys2Proof.Machine
end

