-- ==== Sys2Proof/Proofs/FillsCounterexample.lean ====
section
/-!
SUPPORT. A fill over memory that is not in canonical form: the statement about fills takes every state, and a run of
cells out of order reads as other bytes than its cells hold one by one. (In canonical memory `Mem.read_eq` has the two
agree.)
-/
namespace Sys2Proof.Machine

open Sys2Proof

namespace FillsCounterexample

/-- Cells out of order: the byte at 3 is 2, and a read of three bytes from 3 gives 0 first. -/
def cells : Mem := [(5, 1), (3, 2)]

def src : Src := .queue 0

/-- The st.prefetch that fills slot 0 of context 0 of core 0. -/
def running : Running := { src := src, cmd := Command.parse [] }

/-- The slot, which three bytes from address 3 on fill. -/
def slot : Slot := { st := .filling, filler := some src, fillBase := 3, fillSpan := 3 }

def ctx : Ctx := { mode := .native, nslot := 1, base := 0x1000, slots := [slot] }

def core : CoreState := { esk := { ctxs := Vector.ofFn fun i => if i = 0 then ctx else {} } }

def channel : Channel :=
  { boot := { life := .running }, mem := cells, running := [running]
    cores := Vector.ofFn fun k => if k = 0 then core else {} }

def state : State := State.reset.put 0 channel

theorem state_channel : state.chans[(0 : Ch)].landed = channel := by
  rw [state, State.put_self]
  rfl

theorem channel_access : channel.access 3 3 false = .ok channel := by
  have map : channel.accessMap 3 3 false = .ok channel := rfl
  have words : channel.accessWords 3 3 false = .ok channel := by
    have free : ((channel.phys 3 3).any fun r => channel.stopped r.1 r.2) = false := by decide +kernel
    have good : ((channel.phys 3 3).findSome? fun r => channel.badIn r.1 r.2 false) = none := by decide +kernel
    rw [Channel.accessWords]
    rw [free, good]
    rfl
  rw [Channel.access, map]
  exact words

/-- The first byte filled is not the byte of the source. -/
theorem byte_filled : Mem.byte 0 (channel.put 0x1000 (channel.rd 3 3)).mem 0x1000 ≠ Mem.byte 0 channel.mem 3 := by
  decide +kernel

end FillsCounterexample

open FillsCounterexample in
/-- Refutes O23: its last clause has a fill give the bytes of the source one by one in every state, and fails where the
cells of memory are out of order, as in `FillsCounterexample.state`. -/
theorem not_fills : ¬ Obligations.Fills := by
  unfold Obligations.Fills
  intro h
  have ctxs : channel.cores[(0 : Core)].esk.ctxs[(0 : Fin 16)] = ctx := by decide +kernel
  have first : ctx.slot (0 : Fin 16).val = slot := rfl
  have found : channel.findRun running.src = some running := by decide +kernel
  obtain ⟨-, -, moved⟩ := h state 0 0 0 0 0 channel channel ctx slot running 3 3 0 0x1000 _ _ rfl (fun d => Iff.rfl)
    state_channel rfl ctxs first rfl rfl rfl rfl found rfl rfl rfl
  obtain ⟨-, -, bytes⟩ := moved rfl channel_access rfl
  have byte := bytes 0x1000
  rw [if_pos (by decide)] at byte
  exact byte_filled byte

end Sys2Proof.Machine
end

