-- ==== Sys2Proof/Proofs/DataCommands.lean ====
section
/-!
SUPPORT. The commands of the arrays, the converters and the Ablation engines on operands that pass their checks: the
status of what each computes, what its row is then, and the statement about them.
-/
namespace Sys2Proof.Machine

open Sys2Proof

/-! ### The computations end with status 0 -/

theorem fwdFreeze_status (w : Wk) (r : Running) (core : Core) (y : Desc) (e : Epi) (o : FwdFz) (t : Array Plane)
    (ns share : List Nat) (cut : Bool) : (fwdFreeze w r core y e o t ns share cut).2.status = 0 := by
  unfold fwdFreeze
  dsimp only
  split
  · rfl
  · split
    · split <;> rfl
    · split
      · rfl
      · rfl

theorem fwdRun_status (w : Wk) (r : Running) (o : FwdOps) : (fwdRun w r o).2.status = 0 := by
  unfold fwdRun
  dsimp only
  split
  · exact fwdFreeze_status _ _ _ _ _ _ _ _ _ _
  · split <;> rfl

theorem bwdRun_status (w : Wk) (r : Running) (o : BwdOps) : (bwdRun w r o).2.status = 0 := by
  unfold bwdRun
  dsimp only
  split <;> rfl

theorem updRun_status (w : Wk) (r : Running) (o : UpdOps) : (updRun w r o).2.status = 0 := rfl

theorem scatRun_status (c : Channel) (r : Running) (o : ScatOps) : (scatRun c r o).2.status = 0 := rfl

theorem frzRun_status (c : Channel) (step : W32) (e : Stack) (ha a1 a2 : Nat) (seed : W64) (o : FrzOps) :
    (frzRun c step e ha a1 a2 seed o).2.status = 0 := rfl

/-! ### The rows on checked operands -/

section
variable {w : Wk} {r : Running} {d : Channel}

theorem mmFwd_ok {o : FwdOps} (h : fwdOps w.c r = .ok (o, d)) (he : o.err = none) : productWith w r (mmFwd w r) =
    productEnd (fwdRun { w with c := d } r o).1 r (bits r.cmd.a4.toNat 2 1 == 2) (fwdRun { w with c := d } r o).2 := by
  unfold mmFwd
  rw [h]
  change productDone (fwdRun { w with c := d } r o).1 r o.err _ (fwdRun { w with c := d } r o).2 = _
  generalize fwdRun { w with c := d } r o = p
  rw [he]
  rfl

theorem mmBwd2_ok {o : Bwd2Ops} (h : bwd2Ops w.c r = .ok (o, d)) (hx : o.px.err = none) (hw : o.pw.err = none) :
    productWith w r (mmBwd2 w r) = productEnd (bwd2Run { w with c := d } r o).1 r (o.p.drainx == 2 || o.p.drainw == 2)
      (bwd2Run { w with c := d } r o).2 := by
  unfold mmBwd2
  rw [h]
  change productDone _ _ (o.px.err <|> o.pw.err) _ _ = _
  rw [hx, hw]
  rfl

theorem mmBwd_ok {o : BwdOps} (h : bwdOps w.c r = .ok (o, d)) (he : o.pr.err = none) : productWith w r (mmBwd w r) =
    productEnd (bwdRun { w with c := d } r o).1 r (o.drain == 2) (bwdRun { w with c := d } r o).2 := by
  unfold mmBwd
  rw [h]
  change productDone _ _ o.pr.err _ _ = _
  rw [he]
  rfl

theorem cvFreeze_ok {o : ConvOps} (h : freezeOps w.c r = .ok (o, d)) :
    endWith w r (cvFreeze w r) = (freezeRun { w with c := d } r o).1.mod fun c => c.finish r (freezeRun { w with c := d } r o).2 := by
  unfold cvFreeze
  rw [h]
  rfl

theorem cvThaw_ok {o : ConvOps} (h : thawOps w.c r = .ok (o, d)) :
    endWith w r (cvThaw w r) = (thawRun { w with c := d } r o).1.mod fun c => c.finish r (thawRun { w with c := d } r o).2 := by
  unfold cvThaw
  rw [h]
  rfl

theorem abUpdate_ok {o : UpdOps} (h : updOps w.c r = .ok (o, d)) :
    endWith w r (abUpdate w r) = (updRun { w with c := d } r o).1.mod fun c => c.finish r (updRun { w with c := d } r o).2 := by
  unfold abUpdate
  rw [h]
  rfl

theorem abFreezeOn_ok {c : Channel} {copies : List (Nat × List Byte)} (step : W32) {e : Stack} {ha a1 a2 : Nat} {seed : W64}
    {o : FrzOps} (h : frzOps c copies e ha a1 a2 seed = .ok (o, d)) :
    abFreezeOn c copies step e ha a1 a2 seed = .ok (frzRun d step e ha a1 a2 seed o) := by
  unfold abFreezeOn
  rw [h]
  rfl

theorem abFreeze_ok {o : FrzOps} (h : frzOps w.c r.copies (ablOf r) (bits r.cmd.a0.toNat 47 0) (bits r.cmd.a1.toNat 47 0)
      (bits r.cmd.a2.toNat 47 0) r.cmd.a3 = .ok (o, d)) {e : Channel} {res : Result}
    (hr : frzRun d r.step (ablOf r) (bits r.cmd.a0.toNat 47 0) (bits r.cmd.a1.toNat 47 0)
      (bits r.cmd.a2.toNat 47 0) r.cmd.a3 o = (e, res)) :
    endWith w r (abFreeze w r) = { w with c := e.finish r res } := by
  have on := (abFreezeOn_ok r.step h).trans (congrArg Except.ok hr)
  unfold abFreeze
  rw [on]
  rfl

theorem abScatter_ok {o : ScatOps} (h : scatOps w.c r = .ok (o, d)) {e : Channel} {res : Result}
    (hr : scatRun d r o = (e, res)) : endWith w r (abScatter w r) = { w with c := e.finish r res } := by
  unfold abScatter
  rw [h]
  change endWith w r (.ok ({ w with c := (scatRun d r o).1 }, (scatRun d r o).2)) = _
  rw [hr]
  rfl
end

section
variable {s : State} {ch : Ch} {src : Src} {opc : Byte} {r q : Running} {c : Channel} {w : Wk} {i : Instr}
  {f : Wk → Running → Wk}

/-- A row of a core's engine, from what it makes of the checked command. -/
theorem exec_coreRow (h : RunsChecked s ch src opc r c q) (hi : exec i s = .next (onCoreRun s ch src opc f))
    (hf : f { s.fresh ch with c := c } q = w) : exec i s = .next (s.after ch (w.settle src (s.fresh ch))) := by
  rw [hi, onCoreRun_eq h, hf]

/-- A row whose command names no staging slots, from what it makes of the command. -/
theorem exec_row (h : Runs s ch src opc r) (hi : exec i s = .next (onRun s ch src opc f)) (hf : f (s.fresh ch) r = w) :
    exec i s = .next (s.after ch (w.settle src (s.fresh ch))) := by
  rw [hi, onRun_eq h, hf]
end

/-- Settles O8: each row is its check followed by its computation. -/
theorem dataCommandsComplete : Obligations.DataCommandsComplete := by
  unfold Obligations.DataCommandsComplete
  refine ⟨fun s ch src r q c d => ⟨fun o h ho he => ?_, fun o h ho hx hw => ?_, fun o h ho he => ?_⟩,
    fun s ch src r q c d => ⟨fun o h ho => ?_, fun o h ho => ?_, fun o h ho => ?_, fun o h ho => ?_, fun o h ho => ?_⟩⟩
  · exact ⟨_, _, rfl, fwdRun_status _ _ _, exec_coreRow h rfl (mmFwd_ok ho he)⟩
  · exact ⟨_, _, rfl, rfl, exec_coreRow h rfl (mmBwd2_ok ho hx hw)⟩
  · exact ⟨_, _, rfl, bwdRun_status _ _ _, exec_coreRow h rfl (mmBwd_ok ho he)⟩
  · exact ⟨_, _, rfl, rfl, exec_coreRow h rfl (cvFreeze_ok ho)⟩
  · exact ⟨_, _, rfl, rfl, exec_coreRow h rfl (cvThaw_ok ho)⟩
  · exact ⟨_, _, rfl, updRun_status _ _ _, exec_row h rfl (abUpdate_ok ho)⟩
  · refine ⟨_, _, rfl, ?_, exec_row h rfl (abFreeze_ok ho rfl)⟩
    exact frzRun_status d r.step (ablOf r) (bits r.cmd.a0.toNat 47 0) (bits r.cmd.a1.toNat 47 0) (bits r.cmd.a2.toNat 47 0)
      r.cmd.a3 o
  · refine ⟨_, _, rfl, ?_, exec_row h rfl (abScatter_ok ho rfl)⟩
    exact scatRun_status d r o

end Sys2Proof.Machine
end

