-- ==== Sys2Proof/Proofs/Accesses.lean ====
section
/-!
SUPPORT. What checked accesses and writes at the addresses of a command change: translations count, bytes change, and the
rest of the channel stays; and the command whose staging slots have been checked (12 R278).
-/
namespace Sys2Proof.Machine

open Sys2Proof

/-- d is c after accesses and writes at addresses that descriptors give. -/
def Touched (c d : Channel) : Prop :=
  d = { c with agd := d.agd, mem := d.mem, bad := d.bad, poisonHit := d.poisonHit, waitHit := d.waitHit }

namespace Touched

variable {c d e : Channel} {α : Type}

theorem refl (c : Channel) : Touched c c := rfl

theorem trans (h : Touched c d) (h' : Touched d e) : Touched c e := by
  unfold Touched at *
  rw [h', h]

theorem running (h : Touched c d) : d.running = c.running := by rw [h]
theorem cores (h : Touched c d) : d.cores = c.cores := by rw [h]
theorem sems (h : Touched c d) : d.sems = c.sems := by rw [h]

theorem findRun (h : Touched c d) (src : Src) : d.findRun src = c.findRun src := by
  rw [Channel.findRun, Channel.findRun, h.running]

theorem foldlM {f : Channel → α → Ck Channel} (hf : ∀ {c d x}, f c x = .ok d → Touched c d) :
    ∀ {xs : List α} {c d}, xs.foldlM f c = .ok d → Touched c d
  | [], c, d, h => by cases h; exact refl _
  | x :: xs, c, d, h => by
    rw [List.foldlM_cons] at h
    obtain ⟨b, hb, h⟩ := Ck.bind_ok h
    exact (hf hb).trans (foldlM hf h)

theorem foldl {f : Channel → α → Channel} (hf : ∀ c x, Touched c (f c x)) : ∀ (xs : List α) c, Touched c (xs.foldl f c)
  | [], c => refl c
  | x :: xs, c => (hf c x).trans (foldl hf xs (f c x))

theorem checkPage {page a : Nat} {w : Bool} (h : c.checkPage page a w = .ok d) : Touched c d := by
  rw [Channel.checkPage] at h
  split_ifs at h
  cases h
  rfl

theorem accessMap {a n : Nat} {w : Bool} (h : c.accessMap a n w = .ok d) : Touched c d := by
  rw [Channel.accessMap] at h
  split_ifs at h
  · cases h; rfl
  · refine foldlM (fun {c d x} h => ?_) h
    split_ifs at h
    · exact checkPage h
    · cases h; rfl
  · cases h; rfl

theorem accessWords {a n : Nat} {w : Bool} (h : c.accessWords a n w = .ok d) : Touched c d := by
  rw [Channel.accessWords] at h
  split_ifs at h
  · cases h; rfl
  · split at h
    · nomatch h
    · cases h; rfl

theorem access {a n : Nat} {w : Bool} (h : c.access a n w = .ok d) : Touched c d := by
  obtain ⟨b, hb, h⟩ := Ck.bind_ok (x := c.accessMap a n w) h
  exact (accessMap hb).trans (accessWords h)

theorem put (c : Channel) (a : Nat) (bs : List Byte) : Touched c (c.put a bs) := rfl

theorem putRanges : ∀ (rs : List (Nat × Nat)) (c : Channel) (bs : List Byte), Touched c (c.putRanges rs bs)
  | [], c, _ => refl c
  | (a, n) :: rs, c, bs => (put c a (bs.take n)).trans (putRanges rs _ _)

theorem wrV (c : Channel) (a : Nat) (bs : List Byte) : Touched c (c.wrV a bs) := putRanges _ _ _

theorem wrPieces (c : Channel) (ps : List (Nat × List Byte)) : Touched c (c.wrPieces ps) := foldl (fun c _ => wrV c _ _) ps c

theorem touchBlock {t : Desc} {w : Bool} {n : Nat} (h : c.touchBlock t w n = .ok d) : Touched c d := foldlM access h

theorem touch {t : Desc} {w : Bool} {ns : List Nat} (h : c.touch t w ns = .ok d) : Touched c d := foldlM touchBlock h

theorem readRanges {rs : List (Nat × Nat)} {bs : List Byte} (h : c.readRanges rs = .ok (d, bs)) : Touched c d := by
  obtain ⟨b, hb, h⟩ := Ck.bind_ok (x := rs.foldlM (fun c r => c.access r.1 r.2 false) c) h
  cases h
  exact foldlM access hb

theorem touchWalk {t : Desc} {w : Bool} {xs : List (Nat × Nat × Nat)} (h : c.touchWalk t w xs = .ok d) : Touched c d := by
  rw [Channel.touchWalk] at h
  split_ifs at h
  · exact foldlM access h
  · exact touch h

theorem touchPorts {g : Chain} {ds : List (Option Desc)} {els : List El} (h : c.touchPorts g ds els = .ok d) : Touched c d := by
  refine foldlM (fun {c d i} h => ?_) h
  split at h
  · dsimp only at h
    split_ifs at h
    all_goals obtain ⟨b, hb, h⟩ := Ck.bind_ok h
    · exact (touchWalk hb).trans (touchWalk h)
    · cases h
      exact touchWalk hb
    · cases hb
      exact touchWalk h
    · cases hb
      cases h
      rfl
  · cases h; rfl

end Touched

/-! ### The steps of a transfer -/

/-- A step's read only checks and counts. -/
def ReadsOnly {α : Type} (read : StepRead α) : Prop := ∀ {c d m ps}, read c m = .ok (d, ps) → Touched c d

section
variable {s d : Desc} {a2 : Nat}

theorem wideRead_readsOnly : ReadsOnly (wideRead s d a2) := by
  intro c e m ps h
  obtain ⟨⟨b, bs⟩, hb, h⟩ := Ck.bind_ok h
  cases h
  exact Touched.readRanges hb

theorem narrowRead_readsOnly : ReadsOnly (narrowRead s d a2) := by
  intro c e m ps h
  cases m with
  | block n =>
    obtain ⟨b, hb, h⟩ := Ck.bind_ok h
    cases h
    exact Touched.touchBlock hb
  | row p i cols =>
    obtain ⟨⟨b, bs⟩, hb, h⟩ := Ck.bind_ok h
    cases h
    exact Touched.readRanges hb
  | tail n =>
    obtain ⟨⟨b, bs⟩, hb, h⟩ := Ck.bind_ok h
    refine (Touched.readRanges hb).trans ?_
    split_ifs at h
    · cases h; rfl
    · obtain ⟨⟨b', bs'⟩, hb', h⟩ := Ck.bind_ok h
      cases h
      exact Touched.readRanges hb'

theorem exchRead_readsOnly {read : StepRead MoveStep} (hr : ReadsOnly read) : ReadsOnly (exchRead read) := by
  have go : ∀ (ns : List Nat) (x y : Channel × List (Nat × List Byte)),
      ns.foldlM (fun x n => (read x.1 (.block n)).map fun y => (y.1, x.2 ++ y.2)) x = .ok y → Touched x.1 y.1 := by
    intro ns
    induction ns with
    | nil => intro x y h; cases h; rfl
    | cons n ns ih =>
      intro x y h
      rw [List.foldlM_cons] at h
      obtain ⟨b, hb, h⟩ := Ck.bind_ok h
      cases hn : read x.1 (.block n) with
      | error e => rw [hn] at hb; nomatch hb
      | ok z =>
        rw [hn] at hb
        cases hb
        exact (hr hn).trans (ih (z.1, x.2 ++ z.2) _ h)
  intro c e ns ps h
  exact go ns (c, []) (e, ps) h
end

theorem runMoves_touched (conv : List Byte → List Byte) : ∀ (ms : StepMoves) (x : Moved), Touched x.c (runMoves conv ms x).c
  | [], x => Touched.refl _
  | (a, n, b, m) :: rest, x => by
    rw [runMoves]
    split
    · next c h =>
      obtain ⟨e, he, h⟩ := Ck.bind_ok (x := x.c.access a n false) h
      exact (((Touched.access he).trans (Touched.access h)).trans (Touched.wrV _ _ _)).trans (runMoves_touched conv rest _)
    · exact Touched.refl _

theorem runStep_touched {α : Type} {read : StepRead α} (hr : ReadsOnly read) {m : α} {x y : Moved}
    (h : runStep read m x = .ok y) : Touched x.c y.c := by
  obtain ⟨⟨c, ps⟩, hc, h⟩ := Ck.bind_ok h
  obtain ⟨e, he, h⟩ := Ck.bind_ok (x := ps.foldlM (fun c p => c.access p.1 p.2.length true) c) h
  cases h
  exact ((hr hc).trans (Touched.foldlM Touched.access he)).trans (Touched.wrPieces _ _)

theorem runSteps_touched {α : Type} {read : StepRead α} (hr : ReadsOnly read)
    (cut : Option ((List Byte → List Byte) × (α → StepMoves))) :
    ∀ (ms : List α) (x : Moved), Touched x.c (runSteps read cut ms x).c
  | [], x => Touched.refl _
  | m :: rest, x => by
    have go (y : Moved) (h : Touched x.c y.c) : Touched x.c
        (if y.err.isSome then y else runSteps read cut rest { y with part := 0, steps := x.steps + 1 }).c := by
      split
      · exact h
      · exact h.trans (runSteps_touched hr cut rest _)
    rw [runSteps.eq_def]
    dsimp only
    refine go _ ?_
    split
    · exact runMoves_touched _ _ _
    · split
      · exact runMoves_touched _ _ _
      · exact Touched.refl _
    · exact Touched.refl _
    · next h _ => exact runStep_touched hr h

/-! ### The command after the check of its slots (R278) -/

/-- One reader more on each slot of a list. -/
def Channel.addReaders (c : Channel) (k : Core) (as : List (Fin 16 × Nat × SlotAns)) : Channel :=
  as.foldl (fun c (x, i, _) => c.modCtx k x fun t =>
    t.modSlot i fun s => { s with started := s.started + 1, runningNow := s.runningNow + 1 }) c

theorem Channel.addReaders_eq (k : Core) : ∀ (as : List (Fin 16 × Nat × SlotAns)) (c : Channel),
    c.addReaders k as = { c with cores := (c.addReaders k as).cores }
  | [], _ => rfl
  | a :: as, c => by
    rw [Channel.addReaders, List.foldl_cons]
    exact Channel.addReaders_eq k as _

/-- What a check that passes leaves: the command's slots are known, and they have one reader more. -/
theorem checkSlots_none {c d : Channel} {k : Core} {r q : Running} (h : checkSlots c k r = (d, q, none)) :
    (∃ slots, q = { r with slots := slots, checked := true }) ∧
    d = { c with running := (c.setRun q).running, cores := d.cores } := by
  have done (as : List (Fin 16 × Nat × SlotAns)) (hd : (c.addReaders k as).setRun q = d) :
      d = { c with running := (c.setRun q).running, cores := d.cores } := by
    rw [← hd, Channel.addReaders_eq]
    rfl
  rw [checkSlots] at h
  split at h
  · nomatch h
  · dsimp only at h
    split at h
    · nomatch h
    · nomatch h
    · nomatch h
    · obtain ⟨hd, h⟩ := Prod.mk.inj h
      obtain ⟨hq, -⟩ := Prod.mk.inj h
      exact ⟨⟨_, hq.symm⟩, done _ (by rw [← hq]; exact hd)⟩

section
variable {s : State} {ch : Ch} {src : Src} {opc : Byte} {r q : Running} {c : Channel} {enter : Wk → Running → Wk}

theorem Channel.landed_findRun (c : Channel) (src : Src) : c.landed.findRun src = c.findRun src := rfl

/-- A checked command is the one that runs from its source, and no write of it has met anything yet. -/
theorem RunsChecked.spec (h : RunsChecked s ch src opc r c q enter)
    (he : (enter (s.fresh ch) r).c = { s.chans[ch].landed with cores := (enter (s.fresh ch) r).c.cores }) :
    q.src = src ∧ c.findRun src = some q ∧ q.result = none ∧ c.poisonHit = none ∧ c.waitHit = false ∧
    c = { s.chans[ch].landed with running := c.running, cores := c.cores } := by
  have hr := Channel.findRun_src h.runs.run
  obtain ⟨k, -, ⟨-, -, hc⟩ | ⟨-, hc, hq⟩⟩ := h.checked
  · obtain ⟨⟨slots, hq⟩, hd⟩ := checkSlots_none hc
    have hsrc : q.src = src := by rw [hq]; exact hr
    have found : (enter (s.fresh ch) r).c.findRun src = some r := by rw [he]; exact h.runs.run
    refine ⟨hsrc, ?_, ?_, ?_, ?_, ?_⟩
    · rw [hd]
      exact Channel.setRun_findRun found hsrc
    · rw [hq]
      exact h.runs.noResult
    · rw [hd, he]
      rfl
    · rw [hd, he]
      rfl
    · rw [hd, he]
  · subst hc hq
    refine ⟨hr, ?_, h.runs.noResult, ?_, ?_, ?_⟩
    · rw [he]
      exact h.runs.run
    · rw [he]
      rfl
    · rw [he]
      rfl
    · rw [he]
end

end Sys2Proof.Machine
end

