-- ==== Sys2Proof/Proofs/ChainsAndTransfers.lean ====
section
/-!
SUPPORT. Chains and transfers on checked operands (07, 11, 12): what each row is then, how an element walk and a copy end
that no error stops, and the statement about them.
-/
namespace Sys2Proof.Machine

open Sys2Proof

/-! ### Rows with a start (07 R180) -/

section
variable {s : State} {ch : Ch} {src : Src} {opc : Byte} {r q : Running} {c : Channel} {w : Wk} {i : Instr}
  {f enter : Wk → Running → Wk}

/-- As `exec_coreRow`, where the start of the command changes its channel before the check of its slots. -/
theorem exec_coreRow_enter (h : RunsChecked s ch src opc r c q enter)
    (he : ∀ w r, enter w r = { w with c := (enter w r).c }) (hi : exec i s = .next (onCoreRun s ch src opc f enter))
    (hf : f { s.fresh ch with c := c } q = w) : exec i s = .next (s.after ch (w.settle src (s.fresh ch))) := by
  have row : onCoreRun s ch src opc f enter = s.after ch ((f { s.fresh ch with c := c } q).settle src (s.fresh ch)) := by
    unfold onCoreRun
    rw [onRun_eq h.runs]
    obtain ⟨k, hk, ⟨h1, h2, h3⟩ | ⟨h1, rfl, rfl⟩⟩ := h.checked
    · have fresh : (r.begun.isSome || r.checked) = false := by simp [h1, h2]
      simp only [hk, fresh, h3]
      rw [he]
      rfl
    · have again : (q.begun.isSome || q.checked) = true := by rcases h1 with h | h <;> simp [h]
      simp only [hk, again]
      rw [← he]
      rfl
  rw [hi, row, hf]
end

theorem chainEnter_eq (w : Wk) (r : Running) : chainEnter w r = { w with c := (chainEnter w r).c } := rfl

theorem chainEnter_cores (w : Wk) (r : Running) : (chainEnter w r).c = { w.c with cores := (chainEnter w r).c.cores } := by
  rw [chainEnter]
  change (if _ then _ else _ : Channel) = _
  split
  · rfl
  · split <;> rfl

/-! ### What vx.chain runs -/

section
variable {w : Wk} {r : Running} {o : ChainOps} (h : chainOps w.c r = .ok o)
include h

theorem vxChain_iter {i : IterOps} (hg : o.g.iter = true) (hi : iterOps w.c r o = .ok i) :
    productWith w r (vxChain w r) = iterRun w r o i := by
  rw [vxChain, h]
  change productWith w r (if o.g.iter = true then _ else _) = _
  rw [if_pos hg, hi]
  rfl

theorem vxChain_banksWait {p : PortB} (hg : o.g.iter = false) (hp : o.g.bankPort = some p)
    (hb : w.c.banksNow (runCore r) p.array = []) : productWith w r (vxChain w r) = banksWait w r o p.array := by
  rw [vxChain, h]
  change productWith w r (if o.g.iter = true then _ else _) = _
  rw [if_neg (ne_true_of_eq_false hg), hp]
  dsimp only
  rw [hb]
  rfl

theorem vxChain_banksRun {p : PortB} {b : Bank} {more : List Bank} (hg : o.g.iter = false) (hp : o.g.bankPort = some p)
    (hb : w.c.banksNow (runCore r) p.array = b :: more)
    (ho : banksOps o (bankWalk w.c r o.x p.array (b :: more)).banks = .ok ()) :
    productWith w r (vxChain w r) = banksRun w r o p.array (b :: more) := by
  rw [vxChain, h]
  change productWith w r (if o.g.iter = true then _ else _) = _
  rw [if_neg (ne_true_of_eq_false hg), hp]
  dsimp only
  rw [hb]
  dsimp only
  rw [ho]
  rfl

theorem vxChain_walk {lead : Desc} (hg : o.g.iter = false) (hp : o.g.bankPort = none)
    (hl : o.ds.findSome? id = some lead) (ho : walkOps r o lead = .ok ()) :
    productWith w r (vxChain w r) = walkRun w r o lead := by
  rw [vxChain, h]
  change productWith w r (if o.g.iter = true then _ else _) = _
  rw [if_neg (ne_true_of_eq_false hg), hp]
  dsimp only
  rw [hl]
  dsimp only
  rw [ho]
  rfl
end

/-! ### Strips -/

theorem oneStrip_touched (g : Chain) (ds : List (Option Desc)) (core : Nat) (step : W32) (strict : Bool) (cs : ChainSt)
    (els : List El) : Touched cs.c (oneStrip g ds core step strict cs els).c := by
  rw [oneStrip]
  split
  · exact Touched.refl _
  · split
    · exact Touched.refl _
    · next h =>
      dsimp only
      split
      · exact Touched.touchPorts h
      · exact (Touched.touchPorts h).trans (Touched.foldl (fun c x => Touched.wrV c _ _) _ _)

theorem runStrips_touched (g : Chain) (ds : List (Option Desc)) (core : Core) (r : Running) (pause more : Bool)
    (cs : ChainSt) (ss : List (List El)) : Touched cs.c (runStrips g ds core r pause more cs ss).1.c := by
  have go : ∀ (ss : List (List El)) (cs : ChainSt),
      Touched cs.c (ss.foldl (oneStrip g ds core.val r.step r.cmd.strict) cs).c := by
    intro ss
    induction ss with
    | nil => intro cs; exact Touched.refl _
    | cons s ss ih => intro cs; exact (oneStrip_touched _ _ _ _ _ _ _).trans (ih _)
  rw [runStrips]
  exact go _ _

/-- The reductions of a program, each with its slot. -/
def Chain.reds (g : Chain) : List (Stage × Nat) := (g.stages.filter Stage.carries).zipIdx.filter fun p => p.1.op == 0x21

theorem Chain.reds_rising (g : Chain) : (g.reds.map (·.2)).Pairwise (· < ·) := by
  have all : ((g.stages.filter Stage.carries).zipIdx.map (·.2)).Pairwise (· < ·) := by
    rw [List.zipIdx_map_snd]
    exact List.pairwise_lt_range'
  exact all.sublist (List.filter_sublist.map _)

theorem List.head_le_getLast_of_rising {l : List Nat} (h : l.Pairwise (· < ·)) {i j : Nat} (hi : l.head? = some i)
    (hj : l.getLast? = some j) : i ≤ j := by
  cases l with
  | nil => nomatch hi
  | cons x xs =>
    obtain rfl := Option.some.inj hi
    rcases List.mem_cons.mp (List.mem_of_getLast? hj) with e | hj
    · exact e.ge
    · exact le_of_lt ((List.pairwise_cons.mp h).1 j hj)

/-- A chain whose result area is empty has no reduction, and writes no result. -/
theorem Channel.writeRes_of_resArea {g : Chain} (h : g.resArea.2 = 0) (c : Channel) (carries : List Carry) (n : Nat) :
    c.writeRes g carries n = c := by
  have none : g.reds = [] := by
    by_contra hne
    have hne : g.reds.map (·.2) ≠ [] := mt List.map_eq_nil_iff.mp hne
    have hi := List.head?_eq_some_head hne
    have hj := List.getLast?_eq_some_getLast hne
    generalize (g.reds.map (·.2)).head hne = i at hi
    generalize (g.reds.map (·.2)).getLast hne = j at hj
    have le := List.head_le_getLast_of_rising g.reds_rising hi hj
    have area : g.resArea = (g.res + 8 * i, 8 * (j + 1 - i)) := by
      change (match (g.reds.map (·.2)).head?, (g.reds.map (·.2)).getLast? with
        | some i, some j => (g.res + 8 * i, 8 * (j + 1 - i))
        | _, _ => (g.res, 0)) = _
      rw [hi, hj]
    rw [area] at h
    dsimp only at h
    omega
  change g.reds.foldl _ c = c
  rw [none]
  rfl

theorem chainSettle_running (w : Wk) (r : Running) (core : Core) (x : MorCtx) (cs : ChainSt) :
    (chainSettle w r core x cs).c.running = cs.c.running ∧ (chainSettle w r core x cs).c.mem = cs.c.mem ∧
    (chainSettle w r core x cs).c.poisonHit = cs.c.poisonHit ∧ (chainSettle w r core x cs).c.waitHit = cs.c.waitHit :=
  ⟨rfl, rfl, rfl, rfl⟩

theorem chainNext_go (w : Wk) (r : Running) (x : MorCtx) {cs : ChainSt} (go : Wk) (hs : cs.stop = none) (he : cs.err = none) :
    chainNext w r x cs go = go := by
  rw [chainNext, hs, he]

/-! ### A command that ends with a result -/

/-- A row that ends its command with a result, and whose writes have met nothing. -/
theorem State.after_finish_status {s : State} {ch : Ch} {src : Src} {w b : Wk} {c : Channel} {q r : Running} {res : Result}
    (hw : w.c = c.finish q res) (hf : c.findRun src = some r) (hq : q.src = src) (hp : c.poisonHit = none)
    (hh : c.waitHit = false) :
    ((s.after ch (w.settle src b)).chans[ch].findRun src = some { q with result := some res }) ∧
    (s.after ch (w.settle src b)).statusOf ch src = some res.status ∧ (s.after ch (w.settle src b)).chans[ch].mem = c.mem := by
  have clean : w.settle src b = w := Wk.settle_clean (by rw [hw]; exact hp) (by rw [hw]; exact hh) src b
  have found : (s.after ch w).chans[ch].findRun src = some { q with result := some res } := by
    rw [State.after_self_findRun, hw]
    exact Channel.finish_findRun res hf hq
  rw [clean]
  refine ⟨found, ?_, ?_⟩
  · rw [State.statusOf, found]
    rfl
  · rw [State.after_self_mem, hw]
    rfl

/-! ### An element walk -/

section
variable {s : State} {ch : Ch} {src : Src} {r q : Running} {c : Channel} {o : ChainOps} {lead : Desc}

/-- An element walk that neither a STRICT index nor an error stops (07 R169). -/
theorem walk_completes (h : RunsChecked s ch src 0x20 r c q chainEnter) {cs : ChainSt} {paused : Bool}
    (hrun : (cs, paused) = runStrips o.g o.ds (runCore q) q c.cores[runCore q].mor.pause false
      (chainFrom c (runCore q) o.x s.freeCtr)
      (strips (effVlr o.x.vlr.toNat) (walkEls q o.x lead).length (walkEls q o.x lead)))
    (hs : cs.stop = none) (he : cs.err = none) (hp : cs.c.poisonHit = none) (hw : cs.c.waitHit = false)
    (hres : o.g.resArea.2 = 0) {t : State}
    (ht : t = s.after ch ((walkRun { s.fresh ch with c := c } q o lead).settle src (s.fresh ch))) :
    t.statusOf ch src = some 0x00 ∧ t.chans[ch].mem = cs.c.mem := by
  obtain ⟨hsrc, found, -⟩ := h.spec (chainEnter_cores _ _)
  have touched : Touched c cs.c := by
    rw [show cs = (cs, paused).1 from rfl, hrun]
    exact runStrips_touched _ _ _ _ _ _ _ _
  have run : walkRun { s.fresh ch with c := c } q o lead =
      (chainSettle { s.fresh ch with c := c } q (runCore q) o.x cs).mod fun c => c.finish q (chainResult o.x cs q.cont paused) := by
    have e : walkRun { s.fresh ch with c := c } q o lead = chainNext
        (chainSettle { s.fresh ch with c := c } q (runCore q) o.x (cs, paused).1) q o.x (cs, paused).1
        ((chainSettle { s.fresh ch with c := c } q (runCore q) o.x (cs, paused).1).mod fun c =>
          (c.writeRes o.g (cs, paused).1.carries (cs, paused).1.pos).finish q
            (chainResult o.x (cs, paused).1 q.cont (cs, paused).2)) := by
      rw [hrun]
      rfl
    rw [e, chainNext_go _ _ _ _ hs he]
    simp only [Channel.writeRes_of_resArea hres]
  obtain ⟨running, mem, poison, wait⟩ := chainSettle_running { s.fresh ch with c := c } q (runCore q) o.x cs
  have found' : (chainSettle { s.fresh ch with c := c } q (runCore q) o.x cs).c.findRun src = some q := by
    rw [Channel.findRun, running, touched.running]
    exact found
  obtain ⟨-, status, hm⟩ := State.after_finish_status (s := s) (ch := ch) (b := s.fresh ch) (congrArg Wk.c run) found' hsrc
    (poison.trans hp) (wait.trans hw)
  rw [ht]
  exact ⟨status, hm.trans mem⟩

/-! ### A copy -/

/-- A transfer whose steps all move (12 R271). -/
theorem moveCommand_completes {α : Type} {w : Wk} {core : Core} {read : StepRead α}
    {cut : Option ((List Byte → List Byte) × (α → StepMoves))} {run : α → List (Nat × Nat)} {ms : List α}
    {res : Nat → Bool → Result} {m : Moved} (hm : m = runSteps read cut (ms.drop (q.begun.getD 0)) ⟨w.c, 0, q.part, 0, none⟩)
    (he : m.err = none) : ∃ n p, moveCommand w q core read cut run ms res =
      { w with c := (m.c.eskCount core m.bytes n).finish
                 { q with begun := p, part := m.part, moved := q.moved + m.bytes }
                 (res (q.moved + m.bytes) q.haltedOnce) } := by
  subst hm
  rw [moveCommand]
  dsimp only
  rw [he]
  exact ⟨_, _, rfl⟩
end

theorem stCopy_ok {w : Wk} {r : Running} {x y : Desc} {d : Channel} (h : copyOps w.c r = .ok ((x, y), d)) :
    productWith w r (stCopy w r) = copyRun { w with c := d } r x y := by
  rw [stCopy, h]
  rfl

theorem stGatherScatter_ok {scatter : Bool} {w : Wk} {r : Running} {o : GatherOps} {d : Channel}
    (h : gatherOps scatter w.c r = .ok (o, d)) :
    productWith w r (stGatherScatter scatter w r) = gatherRun scatter { w with c := d } r o := by
  rw [stGatherScatter, h]
  rfl

theorem stPut_local {w : Wk} {r : Running} {x y : Desc} (hd : r.putDst = w.c.chid) (h : putLocalOps w.c r = .ok (x, y)) :
    productWith w r (stPut w r) = putLocalRun w r x y := by
  rw [stPut, if_pos (beq_iff_eq.mpr hd), h]
  rfl

theorem stPut_remote {w : Wk} {r : Running} {x : Desc} (hd : r.putDst ≠ w.c.chid)
    (h : w.c.desc (bits r.cmd.a0.toNat 47 0) r.copies = .ok x) : productWith w r (stPut w r) = putRemoteRun w r x := by
  rw [stPut, if_neg (by simpa using hd), h]
  rfl

theorem copyOps_touched {c d : Channel} {r : Running} {p : Desc × Desc} (h : copyOps c r = .ok (p, d)) : Touched c d := by
  obtain ⟨s, -, h⟩ := Ck.bind_ok h
  obtain ⟨t, -, h⟩ := Ck.bind_ok h
  obtain ⟨-, -, h⟩ := Ck.bind_ok h
  obtain ⟨-, -, h⟩ := Ck.bind_ok h
  dsimp only at h
  split_ifs at h
  · obtain ⟨b, hb, h⟩ := Ck.bind_ok h
    cases hb
    cases h
    rfl
  · obtain ⟨b, hb, h⟩ := Ck.bind_ok h
    obtain ⟨e, he, h⟩ := Ck.bind_ok h
    obtain ⟨-, -, h⟩ := Ck.bind_ok h
    cases h
    exact (Touched.foldlM Touched.accessMap hb).trans (Touched.foldlM Touched.accessMap he)

/-- A copy whose steps all move. -/
theorem copy_completes {s : State} {ch : Ch} {src : Src} {r q : Running} {c d : Channel} {x y : Desc}
    (h : RunsChecked s ch src 0x30 r c q) (ho : copyOps c q = .ok ((x, y), d)) {read : StepRead MoveStep} {m : Moved}
    (hread : read = if x.fmt.isWide then wideRead x y q.cmd.a2.toNat else narrowRead x y q.cmd.a2.toNat)
    (hm : m = if inPlace x y q.cmd.a2.toNat then
        runSteps (exchRead read) none ((d.exchanges q x y q.cmd.a2.toNat).drop (q.begun.getD 0)) ⟨d, 0, q.part, 0, none⟩
      else runSteps read (copyCut x y (isIdentity x q.cmd.a2.toNat)) ((y.steps q.split).drop (q.begun.getD 0))
        ⟨d, 0, q.part, 0, none⟩)
    (he : m.err = none) (hp : m.c.poisonHit = none) (hw : m.c.waitHit = false) {t : State}
    (ht : t = s.after ch ((copyRun { s.fresh ch with c := d } q x y).settle src (s.fresh ch))) :
    t.statusOf ch src = some 0x00 ∧ t.chans[ch].mem = m.c.mem ∧
    ((t.chans[ch].findRun src).bind fun p => p.result.map (·.info)) =
      some (BitVec.ofNat 64 ((q.moved + m.bytes) % 2 ^ 40)) := by
  obtain ⟨hsrc, found, -⟩ := h.spec rfl
  have reads : ReadsOnly read := by
    rw [hread]
    split
    · exact wideRead_readsOnly
    · exact narrowRead_readsOnly
  have touched : Touched d m.c := by
    rw [hm]
    split
    · exact runSteps_touched (exchRead_readsOnly reads) _ _ _
    · exact runSteps_touched reads _ _ _
  have found' : m.c.findRun src = some q := by rw [touched.findRun, (copyOps_touched ho).findRun]; exact found
  have run : ∃ n p, copyRun { s.fresh ch with c := d } q x y = { s.fresh ch with
      c := (m.c.eskCount (runCore q) m.bytes n).finish
        { q with begun := p, part := m.part, moved := q.moved + m.bytes }
        { detail := BitVec.ofNat 16 (b2n q.haltedOnce), info := BitVec.ofNat 64 ((q.moved + m.bytes) % 2 ^ 40) } } := by
    rw [copyRun]
    dsimp only
    rw [← hread]
    split at hm
    · next hi =>
      rw [if_pos hi]
      exact moveCommand_completes (w := { s.fresh ch with c := d }) hm he
    · next hi =>
      rw [if_neg hi]
      exact moveCommand_completes (w := { s.fresh ch with c := d }) hm he
  obtain ⟨n, p, run⟩ := run
  obtain ⟨hf, status, mem⟩ := State.after_finish_status (s := s) (ch := ch) (b := s.fresh ch)
    (c := m.c.eskCount (runCore q) m.bytes n) (congrArg Wk.c run) found' hsrc hp hw
  rw [ht]
  refine ⟨status, mem, ?_⟩
  rw [hf]
  rfl

/-- Settles O9: each row by its equation on checked operands, the walk and the copy by the two lemmas above. -/
theorem chainsAndTransfersComplete : Obligations.ChainsAndTransfersComplete := by
  unfold Obligations.ChainsAndTransfersComplete
  refine ⟨fun s ch src r q c o h ho => ⟨fun i hg hi => ?_, fun p hg hp => ⟨fun hb => ?_, fun b more hb hk => ?_⟩,
      fun lead hg hp hl hk => ?_⟩,
    fun s ch src r q c d x y o => ⟨fun h ho => ?_, fun h ho => ?_, fun h ho => ?_, fun h hd ho => ?_, fun h hd ho => ?_⟩⟩
  · exact exec_coreRow_enter h chainEnter_eq rfl (vxChain_iter (w := { s.fresh ch with c := c }) ho hg hi)
  · exact exec_coreRow_enter h chainEnter_eq rfl (vxChain_banksWait (w := { s.fresh ch with c := c }) ho hg hp hb)
  · exact exec_coreRow_enter h chainEnter_eq rfl (vxChain_banksRun (w := { s.fresh ch with c := c }) ho hg hp hb hk)
  · refine ⟨_, _, _, exec_coreRow_enter h chainEnter_eq rfl (vxChain_walk (w := { s.fresh ch with c := c }) ho hg hp hl hk),
      rfl, rfl, fun hs he hpois hwait hres => ?_⟩
    exact walk_completes h rfl hs he hpois hwait hres rfl
  · refine ⟨_, exec_coreRow h rfl (stCopy_ok (w := { s.fresh ch with c := c }) ho), rfl, ?_⟩
    intro read m hread hm he hpois hwait
    exact copy_completes h ho hread hm he hpois hwait rfl
  · exact exec_coreRow h rfl (stGatherScatter_ok (w := { s.fresh ch with c := c }) ho)
  · exact exec_coreRow h rfl (stGatherScatter_ok (w := { s.fresh ch with c := c }) ho)
  · exact exec_coreRow h rfl (stPut_local (w := { s.fresh ch with c := c }) hd ho)
  · exact exec_coreRow h rfl (stPut_remote (w := { s.fresh ch with c := c }) hd ho)

end Sys2Proof.Machine
end

