-- ==== Sys2Proof/Proofs/FailedChecks.lean ====
section
/-!
SUPPORT. A check that fails: how `endWith` and `checkSlots` end a command, the rows that go through them, and the
statement about them.
-/
namespace Sys2Proof.Machine

open Sys2Proof

/-! ### What an error changes -/

/-- d is c after an error has been registered: a descriptor fault, a frozen master, an uncorrectable word, and what these
report. -/
def Failed (c d : Channel) : Prop :=
  d = { c with agd := d.agd, frz := d.frz, queues := d.queues, cores := d.cores, ports := d.ports, flt := d.flt, stk := d.stk }

namespace Failed

variable {c d e : Channel}

theorem refl (c : Channel) : Failed c c := rfl

theorem trans (h : Failed c d) (h' : Failed d e) : Failed c e := by
  unfold Failed at *
  rw [h', h]

theorem running (h : Failed c d) : d.running = c.running := by rw [h]
theorem poisonHit (h : Failed c d) : d.poisonHit = c.poisonHit := by rw [h]
theorem waitHit (h : Failed c d) : d.waitHit = c.waitHit := by rw [h]
theorem mem (h : Failed c d) : d.mem = c.mem := by rw [h]
theorem sems (h : Failed c d) : d.sems = c.sems := by rw [h]

theorem of_noted (h : Noted c d) : Failed c d := by
  unfold Failed
  rw [h]

theorem sees (c : Channel) (e : Err) : Failed c (c.sees e) := by
  rw [Channel.sees]
  split <;> rfl

theorem cachePage (c : Channel) (p : Nat) : Failed c (c.cachePage p) := rfl

theorem foldl {α : Type} {f : Channel → α → Channel} (hf : ∀ c x, Failed c (f c x)) : ∀ (xs : List α) c, Failed c (xs.foldl f c)
  | [], c => refl c
  | x :: xs, c => (hf c x).trans (foldl hf xs (f c x))

theorem freezeQueues (c : Channel) (e : Engine) : Failed c (c.freezeQueues e) := by
  rw [Channel.freezeQueues]
  refine foldl (fun d q => ?_) _ c
  split
  · rfl
  · exact refl d

theorem recorded (c : Channel) (m : Master) (a : Nat) (w : Bool) : Failed c { c with frz := c.frz.record m a w } := rfl

theorem fault (c : Channel) (code a : Nat) : Failed c (c.fault code a) := of_noted (Noted.of_reported (Reported.fault c code a))

theorem faultInTraining (c d : Channel) (a : Nat) (h : Failed c d) : Failed c (if d.inTraining then d.fault 0x04 a else d) := by
  split
  · exact h.trans (fault d 0x04 a)
  · exact h

theorem freeze (c : Channel) (m : Master) (a : Nat) (w : Bool) : Failed c (c.freeze m a w) := by
  have h := recorded c m a w
  cases m with
  | engine e => exact faultInTraining c _ a (h.trans (freezeQueues _ e))
  | context k x => exact faultInTraining c _ a (h.trans rfl)
  | nunatak n => exact h.trans (fault _ 0x04 a)
  | host => exact h

theorem withPterr (c : Channel) (b : Bool) : Failed c { c with agd := { c.agd with pterr := b } } := rfl

theorem fail (c : Channel) (r : Running) (e : Err) : Failed c (c.fail r e).1 := by
  refine (sees c e).trans ?_
  rw [Channel.fail]
  dsimp only
  generalize c.sees e = c
  cases e.kind with
  | fault cause addr => rfl
  | guard addr write => exact freeze c (runMaster r) addr write
  | unmapped addr write => exact (cachePage c (addr / 2 ^ 21)).trans (freeze _ (runMaster r) addr write)
  | frame addr write =>
    exact (cachePage c (addr / 2 ^ 21)).trans ((withPterr _ true).trans (freeze _ (runMaster r) addr write))
  | ue addr => exact of_noted (Noted.noteUe _ _ _)
  | _ => exact refl c

end Failed

theorem fail_status {c : Channel} {r : Running} {e : Err} {st : Byte} (h : errStatus e = some st) :
    (c.fail r e).2.status = st := by
  unfold errStatus at h
  unfold Channel.fail
  dsimp only
  cases he : e.kind with
  | absent => rw [he] at h; nomatch h
  | wait => rw [he] at h; nomatch h
  | _ => rw [he] at h; exact Option.some.inj h

/-! ### The end of a command in error -/

section
variable {w : Wk} {r : Running} {e : Err}

theorem endWith_fails {st : Byte} (h : errStatus e = some st) : endWith w r (.error e) =
    { w with c := (w.c.fail r e).1.finish r (w.c.fail r e).2 } := by
  unfold errStatus at h
  unfold endWith
  dsimp only
  cases he : e.kind with
  | absent => rw [he] at h; nomatch h
  | wait => rw [he] at h; nomatch h
  | _ => rfl

/-- An error without a status halts the command, or leaves it waiting. -/
theorem endWith_stays (h : errStatus e = none) :
    (∃ a, endWith w r (.error e) = w.mod fun c => c.haltRun r e 0 a) ∨ endWith w r (.error e) = w := by
  unfold errStatus at h
  unfold endWith
  dsimp only
  cases he : e.kind with
  | absent a => exact .inl ⟨a, rfl⟩
  | wait => exact .inr rfl
  | _ => rw [he] at h; nomatch h

theorem endWith_clean (w : Wk) (r : Running) (e : Err) : (endWith w r (.error e)).c.poisonHit = w.c.poisonHit ∧
    (endWith w r (.error e)).c.waitHit = w.c.waitHit := by
  cases h : errStatus e with
  | some st =>
    have failed := Failed.fail w.c r e
    rw [endWith_fails h]
    exact ⟨failed.poisonHit, failed.waitHit⟩
  | none =>
    obtain ⟨a, h⟩ | h := endWith_stays (w := w) (r := r) h
    · have seen := (Failed.sees w.c e).trans (Failed.cachePage _ (a / 2 ^ 21))
      rw [h]
      exact ⟨seen.poisonHit, seen.waitHit⟩
    · rw [h]
      exact ⟨rfl, rfl⟩

/-- A check that fails ends its command with the error's status, or leaves it without a result. -/
theorem endWith_status (hf : w.c.findRun r.src = some r) (hr : r.result = none) :
    ((endWith w r (.error e)).c.findRun r.src).bind (fun x => x.result.map fun res => res.status) = errStatus e := by
  have found {d : Channel} (h : Failed w.c d) : d.findRun r.src = some r := by
    rw [Channel.findRun, h.running]
    exact hf
  cases h : errStatus e with
  | some st =>
    rw [endWith_fails h, Channel.finish_findRun _ (found (Failed.fail _ _ _)) rfl]
    exact congrArg some (fail_status h)
  | none =>
    obtain ⟨a, h⟩ | h := endWith_stays (w := w) (r := r) h
    · have halted : (w.c.haltRun r e 0 a).findRun r.src = some { r with halted := some (0, a), haltedOnce := true } :=
        Channel.setRun_findRun (found ((Failed.sees w.c e).trans (Failed.cachePage _ (a / 2 ^ 21)))) rfl
      rw [h]
      change ((w.c.haltRun r e 0 a).findRun r.src).bind _ = _
      rw [halted]
      exact congrArg (Option.map _) hr
    · rw [h, hf]
      exact congrArg (Option.map _) hr
end

/-! ### Rows whose check fails -/

theorem Ck.bind_error {α β : Type} {x : Ck α} {e : Err} {f : α → Ck β} (h : x = .error e) : (x >>= f) = .error e := by
  rw [h]
  rfl

section
variable {s : State} {ch : Ch} {src : Src} {opc : Byte} {r q : Running} {c : Channel} {w : Wk} {i : Instr} {e : Err}
  {ended : Instr → Prop} {st : Option Byte}

/-- A row that ends its command with an error. -/
theorem statusOf_endWith (hf : w.c.findRun src = some q) (hq : q.src = src) (hr : q.result = none)
    (hp : w.c.poisonHit = none) (hh : w.c.waitHit = false) (b : Wk) :
    (s.after ch ((endWith w q (.error e)).settle src b)).statusOf ch src = errStatus e := by
  obtain ⟨hp', hh'⟩ := endWith_clean w q e
  rw [Wk.settle_clean (hp'.trans hp) (hh'.trans hh), State.statusOf, State.after_self_findRun]
  subst hq
  exact endWith_status hf hr

variable (he : ∀ i, ended i ↔ ∃ t, exec i s = .next t ∧ t.statusOf ch src = st)
include he

theorem ended_row {f : Wk → Running → Wk} (h : Runs s ch src opc r) (hi : exec i s = .next (onRun s ch src opc f))
    (hf : f (s.fresh ch) r = endWith (s.fresh ch) r (.error e)) (hs : errStatus e = st) : ended i :=
  (he i).mpr ⟨_, exec_row h hi hf, (statusOf_endWith h.run (Channel.findRun_src h.run) h.noResult rfl rfl _).trans hs⟩

theorem ended_coreRow {f : Wk → Running → Wk} (h : RunsChecked s ch src opc r c q)
    (hi : exec i s = .next (onCoreRun s ch src opc f))
    (hf : f { s.fresh ch with c := c } q = endWith { s.fresh ch with c := c } q (.error e)) (hs : errStatus e = st) :
    ended i := by
  obtain ⟨hsrc, found, hr, hp, hh, -⟩ := h.spec rfl
  exact (he i).mpr ⟨_, exec_coreRow h hi hf, (statusOf_endWith found hsrc hr hp hh _).trans hs⟩

theorem ended_chain (h : RunsChecked s ch src 0x20 r c q chainEnter)
    (hf : vxChain { s.fresh ch with c := c } q = .error e) (hs : errStatus e = st) : ended (.vxChain ch src) := by
  obtain ⟨hsrc, found, hr, hp, hh, -⟩ := h.spec (chainEnter_cores _ _)
  have row := exec_coreRow_enter (i := .vxChain ch src) (w := endWith { s.fresh ch with c := c } q (.error e)) h chainEnter_eq rfl
    (by dsimp only; rw [hf]; rfl)
  exact (he _).mpr ⟨_, row, (statusOf_endWith found hsrc hr hp hh _).trans hs⟩
end

theorem abFreeze_error {w : Wk} {r : Running} {e : Err} (h : frzOps w.c r.copies (ablOf r) (bits r.cmd.a0.toNat 47 0)
    (bits r.cmd.a1.toNat 47 0) (bits r.cmd.a2.toNat 47 0) r.cmd.a3 = .error e) : abFreeze w r = .error e := by
  have on : abFreezeOn w.c r.copies r.step (ablOf r) (bits r.cmd.a0.toNat 47 0) (bits r.cmd.a1.toNat 47 0)
      (bits r.cmd.a2.toNat 47 0) r.cmd.a3 = .error e := by
    unfold abFreezeOn
    exact Ck.bind_error h
  unfold abFreeze
  exact Ck.bind_error on

/-- A collective that has not begun checks its operands first. -/
theorem collective_error {w : Wk} {r : Running} {e : Err} {x : Ck Wk} (hb : r.begun = none) (h : x = .error e) :
    (if r.begun.isSome = true then pure w else x) = .error e := by
  rw [hb]
  exact h

section
variable {w : Wk} {r : Running} {e : Err} {o : ChainOps}

theorem vxChain_args_error (h : chainOps w.c r = .error e) : vxChain w r = .error e := Ck.bind_error h

theorem vxChain_iter_error (h : chainOps w.c r = .ok o) (hg : o.g.iter = true) (hi : iterOps w.c r o = .error e) :
    vxChain w r = .error e := by
  rw [vxChain, h]
  change (if o.g.iter = true then _ else _) = _
  rw [if_pos hg, hi]
  rfl

theorem vxChain_banks_error {p : PortB} {b : Bank} {more : List Bank} (h : chainOps w.c r = .ok o) (hg : o.g.iter = false)
    (hp : o.g.bankPort = some p) (hb : w.c.banksNow (runCore r) p.array = b :: more)
    (ho : banksOps o (bankWalk w.c r o.x p.array (b :: more)).banks = .error e) : vxChain w r = .error e := by
  rw [vxChain, h]
  change (if o.g.iter = true then _ else _) = _
  rw [if_neg (ne_true_of_eq_false hg), hp]
  dsimp only
  rw [hb]
  dsimp only
  rw [ho]
  rfl

theorem vxChain_walk_error {lead : Desc} (h : chainOps w.c r = .ok o) (hg : o.g.iter = false) (hp : o.g.bankPort = none)
    (hl : o.ds.findSome? id = some lead) (ho : walkOps r o lead = .error e) : vxChain w r = .error e := by
  rw [vxChain, h]
  change (if o.g.iter = true then _ else _) = _
  rw [if_neg (ne_true_of_eq_false hg), hp]
  dsimp only
  rw [hl]
  dsimp only
  rw [ho]
  rfl

theorem vxChain_noLead (h : chainOps w.c r = .ok o) (hg : o.g.iter = false) (hp : o.g.bankPort = none)
    (hl : o.ds.findSome? id = none) : vxChain w r = .error (.fault 0xF o.x.prog.toNat) := by
  rw [vxChain, h]
  change (if o.g.iter = true then _ else _) = _
  rw [if_neg (ne_true_of_eq_false hg), hp]
  dsimp only
  rw [hl]
  rfl

theorem inRegion_shorter {a m n : Nat} (h : inRegion a n = true) (hm : m ≤ n) : inRegion a m = true := by
  unfold inRegion at *
  rw [List.any_eq_true] at *
  obtain ⟨g, hg, h⟩ := h
  simp only [Bool.and_eq_true, decide_eq_true_eq] at h
  obtain ⟨⟨first, last⟩, inside⟩ := h
  refine ⟨g, hg, ?_⟩
  simp only [Bool.and_eq_true, decide_eq_true_eq]
  exact ⟨⟨first, by omega⟩, inside⟩

theorem vxSave_misaligned (h : bits r.cmd.a0.toNat 47 0 % 64 ≠ 0) :
    vxSave w r = .error (.fault 0xF (bits r.cmd.a0.toNat 47 0)) := by
  refine Ck.bind_error (if_neg ?_)
  rw [beq_iff_eq]
  exact h

theorem vxSave_outside (h : bits r.cmd.a0.toNat 47 0 % 64 = 0) (hr : inRegion (bits r.cmd.a0.toNat 47 0) 64 = false) :
    vxSave w r = .error (.guard (bits r.cmd.a0.toNat 47 0) true) := by
  have hr' : inRegion (bits r.cmd.a0.toNat 47 0) 2304 = false := by
    by_contra hne
    rw [inRegion_shorter (Bool.eq_true_of_not_eq_false hne) (by decide)] at hr
    nomatch hr
  unfold vxSave
  generalize bits r.cmd.a0.toNat 47 0 = a at *
  dsimp only
  rw [h]
  change (match w.c.liveCtx (runCore r) r.src with | none => _ | some x => _) = _
  cases w.c.liveCtx (runCore r) r.src with
  | none => exact Ck.bind_error (by rw [hr]; rfl)
  | some x => exact Ck.bind_error (by rw [hr']; rfl)
end

/-! ### The check of the slots -/

section
variable {c : Channel} {k : Core} {r : Running}

theorem checkSlots_misaligned {a n cause : Nat}
    (h : (c.blockNames r).find? (fun b => b.1 % b.2.1 != 0) = some (a, n, cause)) :
    checkSlots c k r = ((c.descFault r cause a).1, r, some (c.descFault r cause a).2) := by
  unfold checkSlots
  rw [h]

section
variable {y : Fin 16} {i : Nat} (ha : ∀ b ∈ c.blockNames r, b.1 % b.2.1 = 0)
include ha

theorem blockNames_aligned : (c.blockNames r).find? (fun b => b.1 % b.2.1 != 0) = none := by
  rw [List.find?_eq_none]
  intro b hb
  rw [ha b hb]
  decide

theorem checkSlots_held {st : Byte} {a : Nat}
    (h : (slotAnswers c k r).find? (fun a => a.2.2 != .reader) = some (y, i, .held st a)) :
    checkSlots c k r = (if st = 0x14 then c.freeze (.context k y) a false else c, r,
      some { status := st, info := BitVec.ofNat 64 a }) := by
  unfold checkSlots
  rw [blockNames_aligned ha]
  dsimp only
  rw [h]

theorem checkSlots_bad {a : Nat} (h : (slotAnswers c k r).find? (fun a => a.2.2 != .reader) = some (y, i, .bad a)) :
    checkSlots c k r = ((c.descFault r 0xF a).1, r, some (c.descFault r 0xF a).2) := by
  unfold checkSlots
  rw [blockNames_aligned ha]
  dsimp only
  rw [h]

theorem checkSlots_cancelled (h : (slotAnswers c k r).find? (fun a => a.2.2 != .reader) = some (y, i, .cancelled)) :
    checkSlots c k r = (c, r, some { status := 0x19 }) := by
  unfold checkSlots
  rw [blockNames_aligned ha]
  dsimp only
  rw [h]
end
end

/-- A row whose command the check of the slots ends. -/
theorem exec_slotsEnd {s : State} {ch : Ch} {src : Src} {opc : Byte} {r x : Running} {k : Core} {c : Channel} {res : Result}
    {i : Instr} {w : Wk} {f enter : Wk → Running → Wk} (hi : exec i s = .next (onCoreRun s ch src opc f enter))
    (hw : w = enter (s.fresh ch) r) (h : Runs s ch src opc r) (hk : (srcEngine r.src).bind engineCore = some k) (hb : r.begun = none) (hc : r.checked = false)
    (hs : checkSlots w.c k r = (c, x, some res)) : exec i s = .next (s.after ch (({ w with c := c.finish x res } : Wk).settle src (s.fresh ch))) := by
  subst hw
  have fresh : (r.begun.isSome || r.checked) = false := by rw [hb, hc]; rfl
  rw [hi]
  unfold onCoreRun
  rw [onRun_eq h]
  simp only [hk, fresh, hs]
  rfl

/-- Settles O12: a row whose check fails ends in `endWith`, which gives the error's status; a check of the slots that ends
the command stands before the row. -/
theorem failedChecksEndCommands : Obligations.FailedChecksEndCommands := by
  unfold Obligations.FailedChecksEndCommands
  refine ⟨?_, ?_, fun w r e => endWith_status, ?_, fun c k r => ⟨fun a n cause h => ?_, fun y i n ha h => ?_⟩⟩
  · rintro s ch src r q c d e ended he rfl
    refine ⟨fun h ho => ?_, fun h ho => ?_, fun h ho => ?_, fun h ho => ?_, fun h ho => ?_, fun h ho => ?_, fun h ho => ?_,
      fun o h ho => ⟨fun hg hi => ?_, fun p b more hg hp hb hi => ?_, fun lead hg hp hl hi => ?_, fun hg hp hl hs => ?_⟩, ?_,
      fun h ho => ?_⟩
    · exact ended_row he h rfl (by rw [ho]) rfl
    · exact ended_coreRow he h rfl (congrArg (productWith _ _) (Ck.bind_error ho)) rfl
    · exact ended_coreRow he h rfl (congrArg (productWith _ _) (Ck.bind_error ho)) rfl
    · exact ended_coreRow he h rfl (congrArg (productWith _ _) (Ck.bind_error ho)) rfl
    · exact ended_coreRow he h rfl (congrArg (endWith _ _) (Ck.bind_error ho)) rfl
    · exact ended_coreRow he h rfl (congrArg (endWith _ _) (Ck.bind_error ho)) rfl
    · exact ended_chain he h (vxChain_args_error ho) rfl
    · exact ended_chain he h (vxChain_iter_error ho hg hi) rfl
    · exact ended_chain he h (vxChain_banks_error ho hg hp hb hi) rfl
    · exact ended_chain he h (vxChain_walk_error ho hg hp hl hi) rfl
    · exact ended_chain he h (vxChain_noLead ho hg hp hl) hs.symm
    · rintro a h rfl
      exact ⟨fun ha hs => ended_coreRow he h rfl (congrArg (endWith _ _) (vxSave_misaligned ha)) hs.symm,
        fun ha hr hs => ended_coreRow he h rfl (congrArg (endWith _ _) (vxSave_outside ha hr)) hs.symm⟩
    · exact ended_coreRow he h rfl (congrArg (endWith _ _) (Ck.bind_error ho)) rfl
  · rintro s ch src r q c d e ended he rfl
    refine ⟨fun h ho => ?_, fun h ho => ?_, fun h ho => ?_, fun h ho => ?_, fun h hd ho => ?_, fun h hd ho => ?_,
      fun h hb ho => ?_, fun h hb ho => ?_, fun h hb ho => ?_, fun h ho => ?_, fun h ho => ?_, fun h ho => ?_⟩
    · exact ended_coreRow he h rfl (congrArg (productWith _ _) (Ck.bind_error ho)) rfl
    · exact ended_coreRow he h rfl (congrArg (productWith _ _) (Ck.bind_error ho)) rfl
    · exact ended_coreRow he h rfl (congrArg (productWith _ _) (Ck.bind_error ho)) rfl
    · exact ended_row he h rfl (congrArg (productWith _ _) (Ck.bind_error ho)) rfl
    · exact ended_coreRow he h rfl (congrArg (productWith _ _) ((if_pos (beq_iff_eq.mpr hd)).trans (Ck.bind_error ho))) rfl
    · refine ended_coreRow he h rfl (congrArg (productWith _ _) ((if_neg ?_).trans (Ck.bind_error ho))) rfl
      rw [beq_iff_eq]
      exact hd
    · exact ended_row he h rfl (congrArg (productWith _ _) (collective_error hb (Ck.bind_error ho))) rfl
    · exact ended_row he h rfl (congrArg (productWith _ _) (collective_error hb (Ck.bind_error ho))) rfl
    · exact ended_row he h rfl (congrArg (productWith _ _) (collective_error hb (Ck.bind_error ho))) rfl
    · exact ended_row he h rfl (congrArg (endWith _ _) (Ck.bind_error ho)) rfl
    · exact ended_row he h rfl (congrArg (endWith _ _) (abFreeze_error ho)) rfl
    · exact ended_row he h rfl (congrArg (endWith _ _) (Ck.bind_error ho)) rfl
  · intro s ch src r x k w c res i opc hi h hk hb hc hw hs
    simp only [List.mem_cons, Prod.mk.injEq, List.not_mem_nil, or_false] at hi
    rcases hi with ⟨rfl, rfl⟩ | ⟨rfl, rfl⟩ | ⟨rfl, rfl⟩ | ⟨rfl, rfl⟩ | ⟨rfl, rfl⟩ | ⟨rfl, rfl⟩ | ⟨rfl, rfl⟩ | ⟨rfl, rfl⟩ |
      ⟨rfl, rfl⟩ | ⟨rfl, rfl⟩ | ⟨rfl, rfl⟩ | ⟨rfl, rfl⟩
    case inr.inr.inr.inr.inr.inl => exact exec_slotsEnd rfl (hw.trans (if_pos rfl)) h hk hb hc hs
    all_goals exact exec_slotsEnd rfl (hw.trans (if_neg (by decide))) h hk hb hc hs
  · exact ⟨_, checkSlots_misaligned h, rfl, rfl, rfl, rfl⟩
  · refine ⟨?_, ?_, ?_, ?_⟩
    · rintro st a rfl hst
      rw [checkSlots_held ha h, if_neg hst]
    · rintro a rfl
      rw [checkSlots_held ha h, if_pos rfl]
    · rintro a rfl
      exact ⟨_, checkSlots_bad ha h, rfl⟩
    · rintro rfl
      exact checkSlots_cancelled ha h

end Sys2Proof.Machine
end

