-- ==== Sys2Proof/Proofs/SaveAndRestore.lean ====
section
/-!
SUPPORT. vx.save and vx.restore (07 Table 7.7): the length of the saved block, the channel that a restored context leaves, and
the statement about them.
-/
namespace Sys2Proof.Machine

open Sys2Proof

/-! ### The saved block -/

theorem accBytes_length (z : Int) : (accBytes z).length = 40 := toBytes_length _ _

theorem Carry.bytes_length (k : Carry) (kind : Nat) : (k.bytes kind).length = 48 := by
  unfold Carry.bytes
  split <;> simp [accBytes_length, toBytes_length]

theorem MorCtx.bytes_length (x : MorCtx) (kinds : List Nat) (h : x.lanes.length = 128) : (x.bytes kinds).length = 2304 := by
  simp [MorCtx.bytes, toBytes_length, Carry.bytes_length, List.length_flatMap, h]

/-! ### The restored context -/

/-- The context that a block of Table 7.7 holds. -/
def MorCtx.saved (h : List Byte) (clamp reseed : Bool) : MorCtx :=
  { prog := BitVec.ofNat 48 (fld h 16 6)
    pa := (List.range 4).map fun i => BitVec.ofNat 64 (fld h (24 + 8 * i) 8)
    vlr := BitVec.ofNat 16 (if clamp then MVL else fld h 4 2)
    vl := BitVec.ofNat 16 (fld h 6 2)
    pos := fld h 8 5
    carries := (List.range 4).map fun i => Carry.ofBytes ((h.drop (64 + 48 * i)).take 48)
    permr := (fld h 56 2).testBit 0
    vlclamp := (fld h 56 2).testBit 1 || clamp
    rseed := (fld h 56 2).testBit 2 || reseed
    lrs := (fld h 58 1).testBit 1 }

/-- The lane states of a saved block, as it holds them. -/
def savedLanes (ls : List Byte) : List (BitVec 128) := (List.range 128).map fun l => BitVec.ofNat 128 (fld ls (16 * l) 16)

/-- The lanes of a core as saved, a zero state as 1. -/
def Channel.takeLanes (c : Channel) (k : Core) (ls : List Byte) : Channel :=
  let d := c.modCore k fun x => { x with lanes := { x.lanes with moraine := (savedLanes ls).map fun s => if s = 0 then 1 else s } }
  { d with sas := { d.sas with zfix := d.sas.zfix || (savedLanes ls).any (· == 0) } }

/-- The lanes of a core seeded anew under the next epoch. -/
def Channel.reseedLanes (c : Channel) (k : Core) : Channel :=
  let ep := c.sas.epoch + 1
  let d : Channel := { c with sas := { c.sas with epoch := ep } }
  d.modCore k fun x => { x with lanes := { x.lanes with
    moraine := seedUnit (LaneUnit.moraine k.val) d.sas.lseed ep d.boot.cfg.ident.chid } }

/-- x as the live context of a source, with the lanes of the core. -/
def Channel.takeCtx (c : Channel) (k : Core) (src : Src) (x : MorCtx) (clamp reseed : Bool) : Channel :=
  (c.setCtx k src (some { x with lanes := c.cores[k].lanes.moraine })).modCore k fun y => { y with mor := { y.mor with
    vlclamp := y.mor.vlclamp || clamp, rseed := y.mor.rseed || reseed } }

/-- A context saved at other lanes, restored. -/
def Channel.takeOther (c : Channel) (k : Core) (src : Src) (h : List Byte) (clamp reseed : Bool) : Channel :=
  (if reseed then c.reseedLanes k else c).takeCtx k src (MorCtx.saved h clamp reseed) clamp reseed

section
variable {w : Wk} {r : Running} {h ls : List Byte} (hb : w.c.getBlock (bits r.cmd.a0.toNat 47 0) 256 64 0xF = .ok h)
include hb

theorem vxRestore_version (hv : fld h 0 1 ≠ 1) :
    vxRestore w r = .error (.fault 0xF (bits r.cmd.a0.toNat 47 0)) := by
  unfold vxRestore
  dsimp only
  rw [hb]
  change (need (fld h 0 1 == 1) _ >>= _) = _
  refine Ck.bind_error (if_neg ?_)
  rw [beq_iff_eq]
  exact hv

theorem vxRestore_dead (hv : fld h 0 1 = 1) (hl : (fld h 58 1).testBit 0 = false) :
    vxRestore w r = .ok ({ w with c := w.c.setCtx (runCore r) r.src none }, {}) := by
  unfold vxRestore
  dsimp only
  rw [hb]
  dsimp only [bind, Except.bind]
  rw [hv, hl]
  rfl

theorem vxRestore_same (hv : fld h 0 1 = 1) (hl : (fld h 58 1).testBit 0 = true) (hn : fld h 1 1 = 128) (hm : fld h 2 2 = MVL)
    (hs : w.c.get (bits r.cmd.a0.toNat 47 0 + 256) 2048 = .ok ls) : vxRestore w r = .ok
      ({ w with c := (w.c.takeLanes (runCore r) ls).takeCtx (runCore r) r.src (MorCtx.saved h false false) false false }, {}) := by
  unfold vxRestore
  dsimp only
  rw [hb]
  dsimp only [bind, Except.bind]
  rw [hv, hl, hn, hm, hs]
  rfl

theorem vxRestore_other (hv : fld h 0 1 = 1) (hl : (fld h 58 1).testBit 0 = true) (hn : fld h 1 1 ≠ 128 ∨ fld h 2 2 ≠ MVL) :
    ∃ res : Result, res.status = 0 ∧ vxRestore w r = .ok
      ({ w with
          c := w.c.takeOther (runCore r) r.src h (decide (MVL < fld h 4 2)) ((fld h 58 1).testBit 1) }, res) := by
  have other : (fld h 1 1 == 128 && fld h 2 2 == MVL) = false := by
    rw [Bool.and_eq_false_iff, beq_eq_false_iff_ne, beq_eq_false_iff_ne]
    exact hn
  unfold vxRestore
  dsimp only
  rw [hb]
  dsimp only [bind, Except.bind]
  rw [hv, hl, other]
  exact ⟨_, rfl, rfl⟩
end

/-! ### What the restored context and the lanes are -/

theorem ctxIdx_lt (src : Src) : ctxIdx src < 5 := by
  cases src with
  | queue q => exact lt_trans (Nat.mod_lt _ (by decide)) (by decide)
  | input _ => exact Nat.lt_succ_self 4

section
variable (c : Channel) (k : Core) (src : Src) (x : MorCtx) (clamp reseed : Bool) (h ls : List Byte)

theorem Channel.takeCtx_cores : (c.takeCtx k src x clamp reseed).cores[k].mor.live =
      c.cores[k].mor.live.set (ctxIdx src) (some { x with lanes := c.cores[k].lanes.moraine }) ∧
    (c.takeCtx k src x clamp reseed).cores[k].lanes = c.cores[k].lanes ∧
    (c.takeCtx k src x clamp reseed).cores[k].mor.vlclamp = (c.cores[k].mor.vlclamp || clamp) ∧
    (c.takeCtx k src x clamp reseed).cores[k].mor.rseed = (c.cores[k].mor.rseed || reseed) := by
  simp [Channel.takeCtx, Channel.setCtx, Channel.modCore]

theorem Channel.takeCtx_liveCtx (hl : c.cores[k].mor.live.length = 5) : (c.takeCtx k src x clamp reseed).liveCtx k src =
    some { x with lanes := c.cores[k].lanes.moraine } := by
  rw [Channel.liveCtx, (Channel.takeCtx_cores c k src x clamp reseed).1, List.getD_eq_getElem?_getD,
    List.getElem?_set_self (by rw [hl]; exact ctxIdx_lt src)]
  rfl

/-- Apart from the cores, the bit ZFIX and the epoch a restore changes nothing. -/
theorem Channel.takeCtx_rest : c.takeCtx k src x clamp reseed = { c with cores := (c.takeCtx k src x clamp reseed).cores } := rfl

theorem Channel.takeLanes_rest : c.takeLanes k ls = { c with cores := (c.takeLanes k ls).cores, sas := (c.takeLanes k ls).sas } :=
  rfl

theorem Channel.takeSame_rest (x : MorCtx) : (c.takeLanes k ls).takeCtx k src x clamp reseed =
    { c with cores := ((c.takeLanes k ls).takeCtx k src x clamp reseed).cores
             sas := ((c.takeLanes k ls).takeCtx k src x clamp reseed).sas } := rfl

theorem Channel.takeLanes_core : (c.takeLanes k ls).cores[k].mor = c.cores[k].mor ∧
    (c.takeLanes k ls).cores[k].lanes.moraine = (savedLanes ls).map fun s => if s = 0 then 1 else s := by
  simp [Channel.takeLanes, Channel.modCore]

theorem Channel.reseedLanes_core : (c.reseedLanes k).cores[k].mor = c.cores[k].mor ∧
    (c.reseedLanes k).cores[k].lanes.moraine = seedUnit (LaneUnit.moraine k.val) c.sas.lseed (c.sas.epoch + 1) c.chid := by
  simp [Channel.reseedLanes, Channel.modCore, Channel.chid]
end

theorem ofBytes_lt : ∀ b : List Byte, ofBytes b < 256 ^ b.length
  | [] => Nat.one_pos
  | x :: xs => by
    have head : x.toNat < 256 := x.isLt
    have tail := ofBytes_lt xs
    rw [ofBytes, List.length_cons, Nat.pow_succ]
    omega

theorem fld_lt (b : List Byte) (o n : Nat) : fld b o n < 256 ^ n :=
  (ofBytes_lt _).trans_le (Nat.pow_le_pow_right (by decide) (List.length_take_le _ _))

/-- The saved VLR, clamped to MVL. -/
theorem MorCtx.saved_vlr (h : List Byte) (reseed : Bool) :
    (MorCtx.saved h (decide (MVL < fld h 4 2)) reseed).vlr.toNat = min MVL (fld h 4 2) := by
  have small : fld h 4 2 < 2 ^ 16 := fld_lt h 4 2
  rw [MorCtx.saved, BitVec.toNat_ofNat]
  by_cases above : MVL < fld h 4 2
  · rw [if_pos (decide_eq_true above), min_eq_left above.le]
    rfl
  · rw [if_neg (by simpa using above), min_eq_right (not_lt.mp above), Nat.mod_eq_of_lt small]

/-! ### vx.save -/

theorem vxSave_dead {w : Wk} {r : Running} {a : Nat} (e : bits r.cmd.a0.toNat 47 0 = a) (ha : a % 64 = 0)
    (hl : w.c.liveCtx (runCore r) r.src = none) (hr : inRegion a 64 = true) (hs : w.c.stopped a 64 = false) :
    vxSave w r = .ok ({ w with c := w.c.putN (a + 58) 1 0 }, {}) := by
  unfold vxSave
  dsimp only
  rw [e, hl]
  dsimp only
  rw [ha, hr, hs]
  rfl

theorem vxSave_live {w : Wk} {r : Running} {a : Nat} {x : MorCtx} (e : bits r.cmd.a0.toNat 47 0 = a) (ha : a % 64 = 0)
    (hl : w.c.liveCtx (runCore r) r.src = some x) (hr : inRegion a 2304 = true) (hs : w.c.stopped a 2304 = false) :
    vxSave w r = .ok ({ w with c := w.c.put a (x.bytes (w.c.slotKinds x.prog.toNat)) }, {}) := by
  unfold vxSave
  dsimp only
  rw [e, hl]
  dsimp only
  rw [ha, hr, hs]
  rfl

/-! ### The row of vx.restore -/

/-- A restored block, and what the row leaves of the channel. -/
theorem exec_vxRestore {s : State} {ch : Ch} {src : Src} {r q : Running} {c d : Channel} {res : Result}
    (h : RunsChecked s ch src 0x22 r c q) (ho : vxRestore { s.fresh ch with c := c } q = .ok ({ s.fresh ch with c := d }, res))
    (hd : d = { c with cores := d.cores, sas := d.sas }) :
    ∃ t, exec (.vxRestore ch src) s = .next t ∧ t.statusOf ch src = some res.status ∧ t.chans[ch].cores = d.cores ∧
      t.chans[ch].sas = d.sas ∧ t.chans[ch].mem = c.mem := by
  obtain ⟨hq, found, -, hp, hh, -⟩ := h.spec rfl
  have row := exec_coreRow (i := .vxRestore ch src) h rfl (congrArg (endWith _ _) ho)
  change exec (.vxRestore ch src) s = .next (s.after ch (Wk.settle { s.fresh ch with c := d.finish q res } _ _)) at row
  rw [Wk.settle_clean (by rw [hd]; exact hp) (by rw [hd]; exact hh)] at row
  have run : (s.after ch { s.fresh ch with c := d.finish q res }).chans[ch].findRun src = some { q with result := some res } := by
    rw [State.after_self_findRun]
    exact Channel.finish_findRun res (by rw [hd]; exact found) hq
  refine ⟨_, row, by rw [State.statusOf, run]; rfl, by rw [State.after_self]; rfl, by rw [State.after_self]; rfl, ?_⟩
  rw [State.after_self_mem]
  exact (congrArg Channel.mem hd :)

theorem Channel.liveCtx_congr {c d : Channel} (h : c.cores = d.cores) (k : Core) (src : Src) :
    c.liveCtx k src = d.liveCtx k src := by
  rw [Channel.liveCtx, Channel.liveCtx, h]

section
variable (c : Channel) (k : Core) (src : Src) (h : List Byte) (clamp reseed : Bool)

theorem Channel.takeOther_rest : c.takeOther k src h clamp reseed =
    { c with cores := (c.takeOther k src h clamp reseed).cores, sas := (c.takeOther k src h clamp reseed).sas } := by
  cases reseed <;> rfl

/-- The lanes that a context saved elsewhere finds, and the epoch. -/
theorem Channel.takeOther_seeds : (c.takeOther k src h clamp reseed).sas.epoch = c.sas.epoch + (if reseed then 1 else 0) ∧
    (c.takeOther k src h clamp reseed).sas.zfix = c.sas.zfix := by
  cases reseed
  · exact ⟨(add_zero _).symm, rfl⟩
  · exact ⟨rfl, rfl⟩

/-- The channel before the restored context is stored in it. -/
theorem Channel.takeOther_core : (c.takeOther k src h clamp reseed).cores[k].mor.vlclamp = (c.cores[k].mor.vlclamp || clamp) ∧
    (c.takeOther k src h clamp reseed).cores[k].mor.rseed = (c.cores[k].mor.rseed || reseed) ∧
    (c.takeOther k src h clamp reseed).cores[k].lanes.moraine = (if reseed then
      seedUnit (LaneUnit.moraine k.val) c.sas.lseed (c.takeOther k src h clamp reseed).sas.epoch c.chid
      else c.cores[k].lanes.moraine) := by
  rw [(Channel.takeOther_seeds c k src h clamp reseed).1, Channel.takeOther]
  obtain ⟨-, lanes, vlclamp, rseed⟩ :=
    Channel.takeCtx_cores (if reseed then c.reseedLanes k else c) k src (MorCtx.saved h clamp reseed) clamp reseed
  obtain ⟨mor, seeds⟩ := Channel.reseedLanes_core c k
  rw [lanes, vlclamp, rseed]
  cases reseed
  · exact ⟨rfl, rfl, rfl⟩
  · exact ⟨by rw [← mor]; rfl, by rw [← mor]; rfl, seeds⟩

theorem Channel.takeOther_liveCtx (hl : c.cores[k].mor.live.length = 5) : (c.takeOther k src h clamp reseed).liveCtx k src =
    some { MorCtx.saved h clamp reseed with lanes := (c.takeOther k src h clamp reseed).cores[k].lanes.moraine } := by
  have len : (if reseed then c.reseedLanes k else c).cores[k].mor.live.length = 5 := by
    cases reseed
    · exact hl
    · change (c.reseedLanes k).cores[k].mor.live.length = 5
      rw [(Channel.reseedLanes_core c k).1]
      exact hl
  rw [Channel.takeOther, Channel.takeCtx_liveCtx _ _ _ _ _ _ len, (Channel.takeCtx_cores _ _ _ _ _ _).2.1]
end

/-- Settles O10: vx.save and vx.restore are their checks, then one channel each. -/
theorem contextSaveRestore : Obligations.ContextSaveRestore := by
  unfold Obligations.ContextSaveRestore
  refine ⟨MorCtx.bytes_length, fun s ch src r q c a ha hcmd hsrc => ?_⟩
  obtain rfl : bits q.cmd.a0.toNat 47 0 = a := by rw [ha, hcmd]
  refine ⟨fun h ho hl hr hs => ?_, fun x h ho hl hr hs => ?_, fun b h hb hv hd => ?_, fun b ls h hb hv hd hn hm hs hlen => ?_,
    fun b k clamp reseed h hb hv hd hn hk hlen hcl hre => ?_, fun b h hb hv => ?_⟩
  · exact exec_coreRow h rfl (congrArg (endWith _ _) (vxSave_dead rfl ho hl hr hs))
  · exact exec_coreRow h rfl (congrArg (endWith _ _) (vxSave_live rfl ho hl hr hs))
  · obtain ⟨-, -, -, hp, hh, -⟩ := h.spec rfl
    rw [exec_coreRow h rfl (congrArg (endWith _ _) (vxRestore_dead (w := { s.fresh ch with c := c }) hb hv hd))]
    change Host.Outcome.next (s.after ch (Wk.settle { s.fresh ch with c := (c.setCtx (runCore q) q.src none).finish q {} } _ _)) = _
    rw [Wk.settle_clean hp hh]
    exact congrArg _ (State.after_eq_put rfl rfl)
  · obtain ⟨t, ht, status, cores, -, mem⟩ :=
      exec_vxRestore h (vxRestore_same (w := { s.fresh ch with c := c }) hb hv hd hn hm hs) (Channel.takeSame_rest _ _ _ _ _ _ _)
    obtain ⟨mor, lanes⟩ := Channel.takeLanes_core c (runCore q) ls
    refine ⟨t, { MorCtx.saved b false false with lanes := (c.takeLanes (runCore q) ls).cores[runCore q].lanes.moraine },
      ht, status, ?_, rfl, rfl, rfl, rfl, ?_, ?_, mem⟩
    · rw [Channel.liveCtx_congr cores, Channel.takeCtx_liveCtx _ _ _ _ _ _ (by rw [mor]; exact hlen)]
    · rw [lanes, savedLanes, List.map_map]
      rfl
    · rw [cores, (Channel.takeCtx_cores _ _ _ _ _ _).2.1]
  · obtain ⟨res, hres, ho⟩ := vxRestore_other (w := { s.fresh ch with c := c }) hb hv hd hn
    obtain ⟨t, ht, status, cores, sas, mem⟩ := exec_vxRestore h ho (Channel.takeOther_rest _ _ _ _ _ _)
    subst hk
    rw [← hcl, ← hre] at cores sas
    change t.chans[ch].cores = (c.takeOther (runCore q) q.src b clamp reseed).cores at cores
    change t.chans[ch].sas = (c.takeOther (runCore q) q.src b clamp reseed).sas at sas
    obtain ⟨vlclamp, rseed, lanes⟩ := Channel.takeOther_core c (runCore q) q.src b clamp reseed
    obtain ⟨epoch, zfix⟩ := Channel.takeOther_seeds c (runCore q) q.src b clamp reseed
    refine ⟨t, _, { MorCtx.saved b clamp reseed with
        lanes := (c.takeOther (runCore q) q.src b clamp reseed).cores[runCore q].lanes.moraine },
      ht, by rw [status, hres], rfl, ?_, rfl, rfl, rfl, ?_, hre.symm, rfl, ?_, rfl, ?_, ?_, ?_, ?_, ?_, mem⟩
    · rw [Channel.liveCtx_congr cores, Channel.takeOther_liveCtx _ _ _ _ _ _ hlen]
    · rw [hcl]
      exact MorCtx.saved_vlr b reseed
    · rw [cores, vlclamp]
    · rw [cores, rseed]
    · rw [sas, epoch]
    · rw [sas, zfix]
    · rw [cores, lanes, sas]
    · rw [cores]
  · obtain ⟨hq, found, hr, hp, hh, -⟩ := h.spec rfl
    exact ⟨_, exec_coreRow h rfl (congrArg (endWith _ _) (vxRestore_version (w := { s.fresh ch with c := c }) hb hv)),
      statusOf_endWith (w := { s.fresh ch with c := c }) found hq hr hp hh _⟩

end Sys2Proof.Machine
end

