-- ==== Sys2Proof/Proofs/PrefetchAndCancel.lean ====
section
/-!
SUPPORT. st.prefetch and st.cancel (12 R281, R282, R288, R289): a fill that starts or waits, one context cancelled, and the
statement about them.
-/
namespace Sys2Proof.Machine

open Sys2Proof

/-! ### st.prefetch -/

/-- The context after a fill of a slot has begun. -/
def Ctx.startFill (x : Ctx) (slot : Nat) (z : Slot) : Ctx :=
  { x.modSlot slot fun _ => z with
    order := x.order ++ [(slot, false)]
    tail := if x.mode = .ring then x.tail + 1 else x.tail
    steps := if x.mode = .rotate then 0 else x.steps
    started := if x.mode = .rotate then true else x.started }

/-- What a st.prefetch leaves of its channel. -/
def Channel.startFill (c : Channel) (k : Core) (i : Fin 16) (r : Running) (slot : Nat) (z : Slot) : Channel :=
  (c.modCtx k i fun y => y.startFill slot z).setRun { r with begun := some slot }

/-- The slot that a st.prefetch of a context names. -/
def Ctx.fillSlot (x : Ctx) (arg : Nat) : Nat :=
  match x.mode with
  | .ring => x.tail.toNat % x.nslot.toNat
  | _ => arg

/-- A slot of a context may be filled. -/
def Ctx.slotFree (x : Ctx) (slot : Nat) : Bool :=
  ((x.slot slot).st == .empty || (x.slot slot).st == .cancelled) &&
    (x.mode != .ring || (x.tail - x.head).toNat != x.nslot.toNat)

/-- The checks of a st.prefetch pass (R281). -/
structure Ctx.Takes (x : Ctx) (k : Core) (d : Desc) (arg : Nat) : Prop where
  on : (x.mode != .off && !x.frozen) = true
  fits : decide (d.span ≤ x.size.toNat) = true
  away : (neveOf d.base != some k.val) = true
  native : (x.mode != .native || decide (arg < x.nslot.toNat)) = true
  rotate : (x.mode != .rotate || (arg == 0 && !x.started)) = true

theorem stPrefetch_ok {w : Wk} {r : Running} {d : Desc} {k : Core} {i : Fin 16} {x : Ctx} (hk : runCore r = k)
    (hd : w.c.desc (bits r.cmd.a0.toNat 47 0) r.copies = .ok d) (hi : bits r.cmd.a1.toNat 3 0 = i.val)
    (hx : w.c.cores[k].esk.ctxs[i] = x) (h : x.Takes k d (bits r.cmd.a1.toNat 15 8)) {z : Slot}
    (hz : z = { st := .filling, filler := some r.src, fillBase := d.base, fillSpan := d.span
                help := x.mode == .native && r.cmd.a2.getLsbD 0 && x.mask != 0 }) :
    stPrefetch w r = .ok (if r.begun.isSome || !x.slotFree (x.fillSlot (bits r.cmd.a1.toNat 15 8)) || x.cancelling then w
      else { w with c := w.c.startFill k i r (x.fillSlot (bits r.cmd.a1.toNat 15 8)) z }) := by
  subst hz
  subst hk
  have hi' : (⟨bits r.cmd.a1.toNat 3 0 % 16, Nat.mod_lt _ (by decide)⟩ : Fin 16) = i := by
    rw [Fin.ext_iff]
    dsimp only
    rw [hi, Nat.mod_eq_of_lt i.isLt]
  subst hi'
  subst hx
  unfold stPrefetch
  dsimp only
  rw [hd]
  dsimp only [bind, Except.bind]
  rw [h.on, h.fits, h.away, h.native, h.rotate]
  change (if (r.begun.isSome || !Ctx.slotFree _ (Ctx.fillSlot _ _) || Ctx.cancelling _) = true then _ else _) = _
  split
  · rfl
  · rfl

section
variable {s : State} {ch : Ch} {src : Src} {r : Running} {c : Channel} {k : Core} {i : Fin 16} {x : Ctx}

/-- A row that leaves the channel as it found it changes nothing. -/
theorem State.after_fresh (s : State) (ch : Ch) : s.after ch (s.fresh ch) = s := by
  rw [State.after_eq_put rfl rfl]
  change { s with chans := s.chans.set ch s.chans[ch] } = s
  rw [Vector.set_same]

theorem exec_stPrefetch_waits (h : Runs s ch src 0x33 r) (ho : stPrefetch (s.fresh ch) r = .ok (s.fresh ch)) :
    exec (.stPrefetch ch src) s = .next s := by
  rw [exec_row (i := .stPrefetch ch src) h rfl (congrArg (productWith _ _) ho)]
  change Host.Outcome.next (s.after ch ((s.fresh ch).settle _ _)) = _
  rw [Wk.settle_clean rfl rfl, State.after_fresh]

theorem Channel.startFill_findRun {slot : Nat} {z : Slot} (hr : c.findRun src = some r) :
    (c.startFill k i r slot z).findRun src = some { r with begun := some slot } :=
  Channel.setRun_findRun (c := c.modCtx k i fun y => y.startFill slot z) hr
    (Channel.findRun_src (r := r) hr :)

theorem Channel.startFill_ctx {slot : Nat} {z : Slot} (hx : c.cores[k].esk.ctxs[i] = x) :
    (c.startFill k i r slot z).cores[k].esk.ctxs[i] = x.startFill slot z := by
  change (c.modCtx k i fun y => y.startFill slot z).cores[k].esk.ctxs[i] = _
  rw [Channel.modCtx_self, hx]

theorem exec_stPrefetch_starts {slot : Nat} {z : Slot} (h : Runs s ch src 0x33 r)
    (ho : stPrefetch (s.fresh ch) r = .ok { s.fresh ch with c := (s.fresh ch).c.startFill k i r slot z }) :
    ∃ t, exec (.stPrefetch ch src) s = .next t ∧
      t.chans[ch].cores[k].esk.ctxs[i] = (s.fresh ch).c.cores[k].esk.ctxs[i].startFill slot z ∧
      t.chans[ch].findRun src = some { r with begun := some slot } ∧ t.chans[ch].mem = (s.fresh ch).c.mem := by
  have row := exec_row (i := .stPrefetch ch src) h rfl (congrArg (productWith _ _) ho)
  change exec (.stPrefetch ch src) s =
    .next (s.after ch (Wk.settle { s.fresh ch with c := (s.fresh ch).c.startFill k i r slot z } _ _)) at row
  rw [Wk.settle_clean rfl rfl] at row
  refine ⟨_, row, ?_, ?_, ?_⟩
  · rw [State.after_self]
    exact Channel.startFill_ctx (c := (s.fresh ch).c) (r := r) rfl
  · rw [State.after_self_findRun]
    exact Channel.startFill_findRun (c := (s.fresh ch).c) h.run
  · rw [State.after_self_mem]
    rfl
end

/-! ### st.cancel -/

theorem Channel.setRun_findRun_of_ne {c : Channel} {src : Src} {q : Running} (hq : q.src ≠ src) :
    (c.setRun q).findRun src = c.findRun src := by
  rw [Channel.findRun, Channel.findRun, Channel.setRun]
  dsimp only
  induction c.running with
  | nil => rfl
  | cons x rest ih =>
    rw [List.map_cons, List.find?_cons, List.find?_cons, ih]
    by_cases hx : x.src = q.src
    · rw [if_pos hx, hx, beq_eq_false_iff_ne.mpr hq]
    · rw [if_neg hx]

/-- Commands of other sources end, and the rest of the channel stays. -/
theorem Channel.finishAll (res : Result) (src : Src) : ∀ (ps : List Running) (c : Channel), src ∉ ps.map Running.src →
    (ps.foldl (fun c r => c.finish r res) c).findRun src = c.findRun src ∧
    ps.foldl (fun c r => c.finish r res) c = { c with running := (ps.foldl (fun c r => c.finish r res) c).running }
  | [], _, _ => ⟨rfl, rfl⟩
  | p :: ps, c, h => by
    rw [List.map_cons, List.mem_cons, not_or] at h
    obtain ⟨found, rest⟩ := Channel.finishAll res src ps (c.finish p res) h.2
    rw [List.foldl_cons]
    exact ⟨found.trans (Channel.setRun_findRun_of_ne (Ne.symm h.1)), rest⟩

/-- The channel after one context has been cancelled. -/
def Channel.cancelled (c : Channel) (k : Core) (i : Fin 16) : Channel :=
  (((c.prefetches k i).foldl (fun c r => c.finish r { status := 0x19 }) c).modCtx k i Ctx.cancel).dropHeld k
    c.cores[k].esk.ctxs[i].heldCount

theorem cancelCtx_eq {c : Channel} {k : Core} {i : Fin 16} (hm : c.cores[k].esk.ctxs[i].mode ≠ .off)
    (hf : c.cores[k].esk.ctxs[i].frozen = false) : cancelCtx c k i =
      (c.cancelled k i, (c.prefetches k i).length, c.cores[k].esk.ctxs[i].heldCount) := by
  unfold cancelCtx
  rw [if_neg]
  · rfl
  · rw [hf]
    simpa using hm

theorem Channel.cancelled_spec {c : Channel} {k : Core} {i : Fin 16} {src : Src} (h : src ∉ (c.prefetches k i).map Running.src) :
    (c.cancelled k i).findRun src = c.findRun src ∧
    (c.cancelled k i).cores[k].esk.ctxs[i] = c.cores[k].esk.ctxs[i].cancel ∧
    (c.cancelled k i).cores[k].esk.heldDrop = satAdd c.cores[k].esk.heldDrop c.cores[k].esk.ctxs[i].heldCount ∧
    c.cancelled k i = { c with running := (c.cancelled k i).running, cores := (c.cancelled k i).cores } := by
  obtain ⟨found, rest⟩ := Channel.finishAll { status := 0x19 } src _ c h
  unfold Channel.cancelled
  generalize (c.prefetches k i).foldl (fun c r => c.finish r { status := 0x19 }) c = d at found rest
  refine ⟨found, ?_, ?_, ?_⟩
  · rw [Channel.dropHeld_ctxs, Channel.modCtx_self, rest]
  · rw [Channel.dropHeld_heldDrop, Channel.modCtx_heldDrop, rest]
  · rw [rest]
    rfl

theorem finRange_flatMap_single : ∀ (k : Core) (i : Fin 16),
    (List.finRange 16).flatMap (fun j => if j = i then [(k, j)] else []) = [(k, i)] := by decide

/-- The targets of a st.cancel that names one context, which does not rotate. -/
theorem Channel.cancelTargets_single {c : Channel} {k : Core} {i : Fin 16} {mask : Nat}
    (hb : ∀ j : Fin 16, mask.testBit j.val = decide (j = i)) (hm : c.cores[k].esk.ctxs[i].mode ≠ .rotate) :
    c.cancelTargets k mask = [(k, i)] := by
  rw [← finRange_flatMap_single k i, Channel.cancelTargets]
  congr 1
  funext j
  rw [hb j]
  by_cases e : j = i
  · subst e
    rw [if_pos (decide_eq_true rfl), if_pos rfl, if_neg hm]
  · rw [if_neg (by simpa using e), if_neg e]

/-- A slot of a context that is cancelled (R288). -/
def Slot.cancel (z : Slot) : Slot :=
  match z.st with
  | .filling | .full | .faulted => if 0 < z.runningNow then { z with cancelAfter := true } else { st := .cancelled }
  | _ => z

theorem Slot.cancel_running (z : Slot) : z.cancel.runningNow = z.runningNow := by
  have idle : (if 0 < z.runningNow then { z with cancelAfter := true } else ({ st := .cancelled } : Slot)).runningNow =
      z.runningNow := by
    split
    · rfl
    · next h => exact (Nat.eq_zero_of_not_pos h).symm
  unfold Slot.cancel
  split
  · exact idle
  · exact idle
  · exact idle
  · rfl

theorem Slot.cancel_idle {z : Slot} (h : z.runningNow = 0) : z.cancel.st = .empty ∨ z.cancel.st = .cancelled := by
  have idle : (if 0 < z.runningNow then { z with cancelAfter := true } else ({ st := .cancelled } : Slot)).st = .cancelled := by
    rw [if_neg (by omega)]
  unfold Slot.cancel
  split
  · exact .inr idle
  · exact .inr idle
  · exact .inr idle
  · next filling full faulted =>
    cases hz : z.st with
    | empty => exact .inl rfl
    | cancelled => exact .inr rfl
    | filling => exact absurd hz filling
    | full => exact absurd hz full
    | faulted => exact absurd hz faulted

section
variable (x : Ctx)

theorem Ctx.cancel_slots : x.cancel.slots = x.slots.map Slot.cancel := rfl

theorem Ctx.cancel_inUse : x.cancel.inUse = x.inUse := by
  rw [Ctx.inUse, Ctx.cancel_slots, List.any_map, Ctx.inUse]
  congr 1
  funext z
  rw [Function.comp_apply, Slot.cancel_running]

theorem Ctx.cancel_idle (h : x.inUse = false) : ∀ z ∈ x.cancel.slots, z.st = .empty ∨ z.st = .cancelled := by
  intro z hz
  rw [Ctx.cancel_slots] at hz
  obtain ⟨y, hy, rfl⟩ := List.mem_map.mp hz
  rw [Ctx.inUse, List.any_eq_false] at h
  exact Slot.cancel_idle (by simpa using h y hy)
end

section
variable {w : Wk} {r : Running} {k : Core} {i : Fin 16} {x : Ctx} {res : Result}
  (hk : (srcEngine r.src).bind engineCore = some k) (hb : ∀ j : Fin 16, r.cmd.a0.getLsbD j.val = decide (j = i))
  (hx : w.c.cores[k].esk.ctxs[i] = x) (hoff : x.mode ≠ .off) (hrot : x.mode ≠ .rotate) (hf : x.frozen = false)
  (hs : r.src ∉ (w.c.prefetches k i).map Running.src)
  (hres : res = { info := BitVec.ofNat 64 ((w.c.prefetches k i).length % 2 ^ 16 + 2 ^ 16 * (x.heldCount % 2 ^ 16)) })
include hk hb hx hoff hrot hf hres

theorem stCancel_eq : stCancel w r =
    { w with c := cancelDone ((w.c.cancelled k i).setRun { r with held := some res }) { r with held := some res } } := by
  have hc : runCore r = k := by
    rw [runCore, hk]
    rfl
  unfold stCancel
  dsimp only
  rw [hc, Channel.cancelTargets_single hb (by rw [hx]; exact hrot)]
  dsimp only [List.foldl]
  rw [cancelCtx_eq (by rw [hx]; exact hoff) (by rw [hx]; exact hf), hx]
  dsimp only
  rw [Nat.zero_add, Nat.zero_add, ← hres]
end

section
variable {c : Channel} {r : Running} {k : Core} {i : Fin 16} {res : Result}
  (hk : (srcEngine r.src).bind engineCore = some k) (hb : ∀ j : Fin 16, r.cmd.a0.getLsbD j.val = decide (j = i))
  (hm : c.cores[k].esk.ctxs[i].mode ≠ .rotate)
include hk hb hm

/-- A st.cancel waits while a reader of its context runs. -/
theorem cancelDone_waits (hu : c.cores[k].esk.ctxs[i].inUse = true) :
    cancelDone c { r with held := some res } = c := by
  unfold cancelDone
  dsimp only
  rw [hk]
  dsimp only
  rw [Channel.cancelTargets_single hb hm, if_pos]
  simp only [List.any_cons, hu]
  simp

/-- A st.cancel ends once no reader of its context runs. -/
theorem cancelDone_ends (hc : r.cmd.opc = 0x34) (hr : r.result = none) (hu : c.cores[k].esk.ctxs[i].inUse = false) :
    cancelDone c { r with held := some res } =
      (c.modCtx k i fun x => { x with cancelling := false }).finish { r with held := none } res := by
  unfold cancelDone
  dsimp only
  rw [hk]
  dsimp only
  rw [Channel.cancelTargets_single hb hm, if_neg]
  · rfl
  · rw [List.any_cons, hu, hc, hr]
    simp
end

/-- What st.cancel leaves of its channel. -/
theorem stCancel_spec {w : Wk} {r : Running} {k : Core} {i : Fin 16} {x : Ctx} {res : Result}
    (hk : (srcEngine r.src).bind engineCore = some k) (hb : ∀ j : Fin 16, r.cmd.a0.getLsbD j.val = decide (j = i))
    (hx : w.c.cores[k].esk.ctxs[i] = x) (hoff : x.mode ≠ .off) (hrot : x.mode ≠ .rotate) (hf : x.frozen = false)
    (hs : r.src ∉ (w.c.prefetches k i).map Running.src)
    (hres : res = { info := BitVec.ofNat 64 ((w.c.prefetches k i).length % 2 ^ 16 + 2 ^ 16 * (x.heldCount % 2 ^ 16)) })
    (hc : r.cmd.opc = 0x34) (hr : r.result = none) (hh : r.held = none) (found : w.c.findRun r.src = some r) :
    ∃ d, stCancel w r = { w with c := d } ∧ d = { w.c with running := d.running, cores := d.cores } ∧
      d.cores[k].esk.heldDrop = satAdd w.c.cores[k].esk.heldDrop x.heldCount ∧
      (x.inUse = true → d.cores[k].esk.ctxs[i] = x.cancel ∧ d.findRun r.src = some { r with held := some res }) ∧
      (x.inUse = false → d.cores[k].esk.ctxs[i] = { x.cancel with cancelling := false } ∧
        d.findRun r.src = some { r with result := some res }) := by
  obtain ⟨run, ctx, drop, rest⟩ := Channel.cancelled_spec hs
  rw [stCancel_eq hk hb hx hoff hrot hf hres]
  generalize w.c.cancelled k i = c at *
  obtain ⟨e, he⟩ : ∃ e, e = c.setRun { r with held := some res } := ⟨_, rfl⟩
  have run : e.findRun r.src = some { r with held := some res } := by
    rw [he]
    exact Channel.setRun_findRun (run.trans found) rfl
  have ctx : e.cores[k].esk.ctxs[i] = x.cancel := by
    rw [he, ← hx]
    exact ctx
  have drop : e.cores[k].esk.heldDrop = satAdd w.c.cores[k].esk.heldDrop x.heldCount := by
    rw [he, ← hx]
    exact drop
  have rest : e = { w.c with running := e.running, cores := e.cores } := by
    rw [he, rest]
    rfl
  have hm : e.cores[k].esk.ctxs[i].mode ≠ .rotate := by
    rw [ctx]
    exact hrot
  rw [← he]
  clear he
  have inUse : e.cores[k].esk.ctxs[i].inUse = x.inUse := (congrArg Ctx.inUse ctx).trans (Ctx.cancel_inUse x)
  cases hu : x.inUse with
  | true =>
    rw [cancelDone_waits hk hb hm (inUse.trans hu)]
    exact ⟨_, rfl, rest, drop, fun _ => ⟨ctx, run⟩, nofun⟩
  | false =>
    rw [cancelDone_ends hk hb hm hc hr (inUse.trans hu)]
    refine ⟨_, rfl, ?_, ?_, nofun, fun _ => ⟨?_, ?_⟩⟩
    · rw [rest]
      rfl
    · rw [Channel.finish_cores, Channel.modCtx_heldDrop, drop]
    · rw [Channel.finish_cores, Channel.modCtx_self, ctx]
    · have run : (e.modCtx k i fun x => { x with cancelling := false }).findRun r.src = some { r with held := some res } := run
      rw [Channel.finish_findRun (q := { r with held := none }) res run rfl, ← hh]

/-- Settles O11: both rows are their checks, then a change of one context and of the command. -/
theorem prefetchAndCancel : Obligations.PrefetchAndCancel := by
  unfold Obligations.PrefetchAndCancel
  rintro s ch src r c k i x rfl hk hx
  refine ⟨fun d slot h hd hi hoff hfr hfit haway hmode free hfree => ?_, fun res h hb hoff hrot hfr hs hres => ?_⟩
  · have hc : runCore r = k := by
      rw [runCore, hk]
      rfl
    have takes : x.Takes k d (bits r.cmd.a1.toNat 15 8) := by
      refine ⟨by simp [hoff, hfr], by simpa using hfit, by simpa using haway, ?_, ?_⟩
      · rcases hmode with ⟨m, rfl, lt⟩ | ⟨m, -⟩ | ⟨m, -⟩
        · simpa [m] using lt
        · simp [m]
        · simp [m]
      · rcases hmode with ⟨m, -⟩ | ⟨m, -⟩ | ⟨m, -, arg, st⟩
        · simp [m]
        · simp [m]
        · simp [m, arg, st]
    have hslot : x.fillSlot (bits r.cmd.a1.toNat 15 8) = slot := by
      rcases hmode with ⟨m, e, -⟩ | ⟨m, e⟩ | ⟨m, e, arg, -⟩
      · rw [Ctx.fillSlot, m, e]
      · rw [Ctx.fillSlot, m, e]
      · rw [Ctx.fillSlot, m, e, arg]
    have ok := stPrefetch_ok (w := s.fresh ch) hc hd hi hx takes rfl
    rw [hslot] at ok
    change free = (x.slotFree slot && !x.cancelling) at hfree
    refine ⟨fun hf hbegun => ?_, fun hf => ?_⟩
    · obtain ⟨isFree, notCancelling⟩ := Bool.and_eq_true_iff.mp (hfree.symm.trans hf)
      rw [if_neg (by simp [hbegun, isFree, Bool.not_eq_true' .. ▸ notCancelling])] at ok
      obtain ⟨t, ht, hctx, found, mem⟩ := exec_stPrefetch_starts h ok
      rw [hx] at hctx
      exact ⟨t, _, ht, hctx, rfl, rfl, rfl, found, mem⟩
    · have stays : (r.begun.isSome || !x.slotFree slot || x.cancelling) = true := by
        have := hfree.symm.trans hf
        cases h1 : x.slotFree slot <;> cases h2 : x.cancelling <;> simp_all
      rw [if_pos stays] at ok
      exact exec_stPrefetch_waits h ok
  · obtain rfl := Channel.findRun_src h.run
    obtain ⟨d, hd, rest, drop, used, idle⟩ := stCancel_spec (w := s.fresh ch) hk hb hx hoff hrot hfr hs hres h.code h.noResult
      h.notHeld h.run
    have row := exec_row (i := .stCancel ch r.src) h rfl hd
    rw [Wk.settle_clean (by rw [rest]; rfl) (by rw [rest]; rfl)] at row
    have cores : (s.after ch { s.fresh ch with c := d }).chans[ch].cores = d.cores := by rw [State.after_self]
    have mem : (s.after ch { s.fresh ch with c := d }).chans[ch].mem = (s.fresh ch).c.mem := by
      rw [State.after_self_mem]
      exact (congrArg Channel.mem rest :)
    have sems : (s.after ch { s.fresh ch with c := d }).chans[ch].sems = (s.fresh ch).c.sems := by
      rw [State.after_self_sems]
      exact (congrArg Channel.sems rest :)
    cases hu : x.inUse with
    | true =>
      obtain ⟨ctx, run⟩ := used hu
      refine ⟨_, x.cancel, row, ?_, mem, rfl, rfl, rfl, ?_, sems, nofun, fun _ => ⟨rfl, ?_⟩⟩
      · rw [cores, ctx]
      · rw [cores, drop]
      · rw [State.after_self_findRun, run]
    | false =>
      obtain ⟨ctx, run⟩ := idle hu
      refine ⟨_, { x.cancel with cancelling := false }, row, ?_, mem, rfl, rfl, rfl, ?_, sems, fun _ => ⟨rfl, x.cancel_idle hu, ?_⟩, nofun⟩
      · rw [cores, ctx]
      · rw [cores, drop]
      · rw [State.after_self_findRun, run]

end Sys2Proof.Machine
end

