-- ==== Sys2Proof/Proofs/ChannelFaults.lean ====
section
/-!
SUPPORT. Messages sent and heartbeats (14, 16 R357): what sending changes, what a heartbeat records, the rows that change one
running channel, and the statement about channel faults.
-/
namespace Sys2Proof.Machine

open Sys2Proof

/-! ### Rows that change one running channel -/

section
variable {s : State} {ch : Ch} {c : Channel}

theorem modUp_put (hc : s.chans[ch] = c) (hu : c.up = true) (f : Channel → Channel) : modUp s ch f = s.put ch (f c) := by
  subst hc
  exact modUp_eq hu f

/-- Such a row, from what it makes of the channel. -/
theorem exec_modUp {i : Instr} {f : Channel → Channel} {d : Channel} (hc : s.chans[ch] = c) (hu : c.up = true)
    (hi : exec i s = .next (modUp s ch f)) (hf : f c = d) : exec i s = .next (s.put ch d) := by
  rw [hi, modUp_put hc hu, hf]

theorem exec_modUp_same {i : Instr} {f : Channel → Channel} (hc : s.chans[ch] = c) (hu : c.up = true)
    (hi : exec i s = .next (modUp s ch f)) (hf : f c = c) : exec i s = .next s := by
  subst hc
  rw [exec_modUp rfl hu hi hf, State.put_same]
end

/-! ### What sending changes -/

/-- d is c after messages have been queued at its ports. -/
def Sent (c d : Channel) : Prop := d = { c with ports := d.ports }

namespace Sent

variable {c d e : Channel}

theorem refl (c : Channel) : Sent c c := rfl

theorem trans (h : Sent c d) (h' : Sent d e) : Sent c e := by
  unfold Sent at *
  rw [h', h]

theorem ite {p : Prop} [Decidable p] (h : p → Sent c d) (h' : ¬p → Sent c e) : Sent c (if p then d else e) := by
  split
  · exact h ‹_›
  · exact h' ‹_›

theorem foldl {α : Type} {f : Channel → α → Channel} (h : ∀ c a, Sent c (f c a)) : ∀ (l : List α) c, Sent c (l.foldl f c)
  | [], c => refl c
  | x :: l, c => (h c x).trans (foldl h l (f c x))

theorem flt (h : Sent c d) : d.flt = c.flt := by rw [h]
theorem stp (h : Sent c d) : d.stp = c.stp := by rw [h]

theorem modPort (c : Channel) (p : Port) (f : PortState → PortState) : Sent c (c.modPort p f) := rfl

theorem sendOn {p : Port} {vc : Fin 4} {m : Msg} {o : Option Src} {sh : Option (Nat × Nat)}
    (h : c.sendOn p vc m o sh = some d) : Sent c d := by
  simp only [Channel.sendOn, Option.ite_none_right_eq_some, Option.some.injEq] at h
  rw [← h.2]
  exact modPort c p _

theorem send {vc : Fin 4} {m : Msg} {alt : Bool} {o : Option Src} {sh : Option (Nat × Nat)}
    (h : c.send vc m alt o sh = some d) : Sent c d := by
  unfold Channel.send at h
  split at h
  · exact sendOn h
  · cases h

theorem getD_send (c : Channel) (vc : Fin 4) (m : Msg) (alt : Bool) : Sent c ((c.send vc m alt).getD c) := by
  cases h : c.send vc m alt with
  | none => exact refl c
  | some d => exact send h

theorem post (c : Channel) (vc : Fin 4) (m : Msg) : Sent c (c.post vc m) := getD_send c vc m false

theorem sendCtl (c : Channel) (d : ChanId) (body : List Byte) : Sent c (c.sendCtl d body) :=
  ite (fun _ => refl c) fun _ => post c _ _

theorem sendHbTo (c : Channel) (d : ChanId) (body : List Byte) : Sent c (c.sendHbTo d body) :=
  ite (fun _ => refl c) fun _ => getD_send c _ _ _

theorem sendHbTos (l : List ChanId) (body : List Byte) (c : Channel) : Sent c (l.foldl (fun c d => c.sendHbTo d body) c) :=
  foldl (fun c d => sendHbTo c d body) l c

end Sent

/-! ### Heartbeats -/

section
variable {c : Channel} {h : Heartbeat}

theorem Channel.sendHbBody_quiet (hq : c.stp.st = .done ∨ c.flt.retired = true) : c.sendHbBody h = c := if_pos (by simpa using hq)

/-- A heartbeat that is sent is recorded, and HBSEQ counts on. -/
theorem Channel.sendHbBody_sent (hs : c.stp.st ≠ .done) (hr : c.flt.retired = false) : c.sendHbBody h =
    { c with ports := (c.sendHbBody h).ports, flt := { c.flt with
        sentHb := c.flt.sentHb ++ [h], hbseq := c.flt.hbseq + 1, named := if h.about.isSome then c.flt.named else [] } } := by
  have loud : ¬(decide (c.stp.st = .done) || c.flt.retired) = true := by simp [hs, hr]
  have body : ∃ d, Sent c d ∧ c.sendHbBody h = { d with flt := { d.flt with
      sentHb := d.flt.sentHb ++ [h], hbseq := d.flt.hbseq + 1, named := if h.about.isSome then d.flt.named else [] } } := by
    unfold Channel.sendHbBody
    rw [if_neg loud]
    exact ⟨_, ((Sent.ite (fun _ => Sent.refl c) fun _ => Sent.sendHbTos _ _ c).trans (Sent.sendHbTos _ _ _)).trans
      (Sent.sendHbTos _ _ _), rfl⟩
  obtain ⟨d, hd, e⟩ := body
  rw [e]
  unfold Sent at hd
  rw [hd]

/-- A heartbeat leaves the fault registers. -/
theorem Channel.sendHbBody_fault : (c.sendHbBody h).flt.fault = c.flt.fault ∧ (c.sendHbBody h).flt.fclass = c.flt.fclass ∧
    (c.sendHbBody h).flt.faddr = c.flt.faddr := by
  by_cases hq : c.stp.st = .done ∨ c.flt.retired = true
  · rw [Channel.sendHbBody_quiet hq]
    exact ⟨rfl, rfl, rfl⟩
  · rw [not_or, Bool.not_eq_true] at hq
    rw [Channel.sendHbBody_sent hq.1 hq.2]
    exact ⟨rfl, rfl, rfl⟩
end

/-- The fault registers after a channel fault (R354). -/
def Channel.faulted (c : Channel) (cls a : Nat) : Channel :=
  { c with flt := { c.flt with fault := true, fclass := BitVec.ofNat 8 cls, faddr := BitVec.ofNat 48 a } }

theorem Channel.fault_eq (c : Channel) (cls a : Nat) : c.fault cls a = (c.faulted cls a).sendHbBody (c.faulted cls a).heartbeat :=
  rfl

/-- A channel fault is reported at once, but not in DONE (10 R246). -/
theorem Channel.fault_spec (c : Channel) (cls a : Nat) : (c.fault cls a).flt.fault = true ∧
    (c.fault cls a).flt.fclass = BitVec.ofNat 8 cls ∧ (c.fault cls a).flt.faddr = BitVec.ofNat 48 a ∧
    (c.stp.st ≠ .done → c.flt.retired = false → (c.fault cls a).flt.hbseq = c.flt.hbseq + 1 ∧
      (c.fault cls a).flt.sentHb = c.flt.sentHb ++ [(c.faulted cls a).heartbeat]) ∧
    (c.stp.st = .done → (c.fault cls a).flt.sentHb = c.flt.sentHb ∧ (c.fault cls a).ports = c.ports) := by
  obtain ⟨fault, fclass, faddr⟩ := Channel.sendHbBody_fault (c := c.faulted cls a) (h := (c.faulted cls a).heartbeat)
  rw [← Channel.fault_eq] at fault fclass faddr
  refine ⟨fault, fclass, faddr, fun hs hr => ?_, fun hs => ?_⟩
  · rw [Channel.fault_eq, Channel.sendHbBody_sent (c := c.faulted cls a) hs hr]
    exact ⟨rfl, rfl⟩
  · rw [Channel.fault_eq, Channel.sendHbBody_quiet (c := c.faulted cls a) (.inl hs)]
    exact ⟨rfl, rfl⟩

/-- The registers that show a channel fault, and the heartbeat that tells so. -/
def FaultShown (c d : Channel) (cls : Byte) (a : Addr) : Prop :=
  d.flt.fault = true ∧ d.flt.fclass = cls ∧ d.flt.faddr = a ∧
  (c.stp.st ≠ .done → c.flt.retired = false → d.flt.hbseq = c.flt.hbseq + 1 ∧
    ∃ h, d.flt.sentHb = c.flt.sentHb ++ [h] ∧ h.fault = true ∧ h.fclass = cls ∧ h.faddr = a) ∧
  (c.stp.st = .done → d.flt.sentHb = c.flt.sentHb ∧ d.ports = c.ports) ∧
  d.mem = c.mem ∧ d.sems = c.sems ∧ d.queues = c.queues

theorem FaultShown.fault (c : Channel) (cls a : Nat) :
    FaultShown c (c.fault cls a) (BitVec.ofNat 8 cls) (BitVec.ofNat 48 a) := by
  obtain ⟨fault, fclass, faddr, loud, quiet⟩ := Channel.fault_spec c cls a
  have rest := Noted.of_reported (Reported.fault c cls a)
  exact ⟨fault, fclass, faddr, fun hs hr => ⟨(loud hs hr).1, _, (loud hs hr).2, rfl, rfl, rfl⟩, quiet, rest.mem, rest.sems,
    rest.queues⟩

/-- The record of the diagnostic log is written beside. -/
theorem FaultShown.logged (c : Channel) (cls : Byte) (a : Addr) : FaultShown c (c.loggedFault cls.toNat a.toNat) cls a ∧
    (c.loggedFault cls.toNat a.toNat).boot = c.boot.diagnose cls.toNat a.toNat := by
  have shown := FaultShown.fault c cls.toNat a.toNat
  rw [BitVec.ofNat_toNat, BitVec.ofNat_toNat, BitVec.setWidth_eq, BitVec.setWidth_eq] at shown
  refine ⟨shown, ?_⟩
  rw [Channel.loggedFault, (Noted.of_reported (Reported.fault c cls.toNat a.toNat)).boot]

/-! ### The rows -/

section
variable {s : State} {ch : Ch} {c : Channel} (hc : s.chans[ch] = c) (hu : c.up = true)
include hc hu

theorem exec_logicCheckFailure : exec (.logicCheckFailure ch) s = .next (s.put ch (c.loggedFault 0x03 0)) :=
  exec_modUp hc hu rfl rfl

theorem exec_channelFault {cls : Byte} {a : Addr} (h : isChannelFault cls = true) :
    exec (.channelFault ch cls a) s = .next (s.put ch (c.loggedFault cls.toNat a.toNat)) := exec_modUp hc hu rfl (if_pos h)

theorem exec_channelFault_other {cls : Byte} {a : Addr} (h : isChannelFault cls = false) :
    exec (.channelFault ch cls a) s = .next s := exec_modUp_same hc hu rfl (if_neg (ne_true_of_eq_false h))

theorem exec_linktmoExpiry {p : Port} (hm : c.ports[p].mode = .polvor) (hd : c.ports[p].st = .down)
    (hp : c.ports[p].peerChan.toNat < c.chid.toNat) : exec (.linktmoExpiry ch p) s = .next (s.put ch (c.fault 0x06 0)) := by
  refine exec_modUp hc hu rfl (if_pos ?_)
  rw [hm, hd]
  simpa using hp

theorem exec_linktmoExpiry_lower {p : Port} (hp : c.chid.toNat ≤ c.ports[p].peerChan.toNat) :
    exec (.linktmoExpiry ch p) s = .next s := by
  refine exec_modUp_same hc hu rfl (if_neg ?_)
  rw [Bool.and_eq_true, decide_eq_true_eq, not_and]
  exact fun _ => not_lt.mpr hp

theorem exec_watchdogExpiry : exec (.watchdogExpiry ch) s = .next (s.put ch (watchdogExpiry c)) := exec_modUp hc hu rfl rfl
end

/-- Settles O28: a channel fault sets the registers and then sends a heartbeat, which leaves them. -/
theorem channelFaults : Obligations.ChannelFaults := by
  unfold Obligations.ChannelFaults
  intro s ch c cls a p hc hu
  refine ⟨fun i x b hi => ?_, exec_channelFault_other hc hu, exec_linktmoExpiry_lower hc hu, _, exec_watchdogExpiry hc hu, rfl,
    rfl, rfl, rfl, rfl, fun k => ?_, rfl⟩
  · suffices h : ∃ d, exec i s = .next (s.put ch d) ∧ FaultShown c d x b ∧
        (i ≠ .linktmoExpiry ch p → d.boot = c.boot.diagnose x.toNat b.toNat) by
      obtain ⟨d, row, ⟨fault, fclass, faddr, loud, quiet, rest⟩, boot⟩ := h
      exact ⟨d, row, fault, fclass, faddr, loud, quiet, boot, rest⟩
    obtain ⟨rfl, rfl, rfl⟩ | ⟨rfl, hcls, rfl, rfl⟩ | ⟨rfl, rfl, rfl, hm, hd, hp⟩ := hi
    · obtain ⟨shown, boot⟩ := FaultShown.logged c 3 0
      exact ⟨_, exec_logicCheckFailure hc hu, shown, fun _ => boot⟩
    · obtain ⟨shown, boot⟩ := FaultShown.logged c x b
      exact ⟨_, exec_channelFault hc hu hcls, shown, fun _ => boot⟩
    · exact ⟨_, exec_linktmoExpiry hc hu hm hd hp, FaultShown.fault c 6 0, fun h => absurd rfl h⟩
  · simp [watchdogExpiry, Channel.allCold]

end Sys2Proof.Machine
end

