-- ==== Sys2Proof/Proofs/Flits.lean ====
section
/-!
SUPPORT. A port (14 R311 to R316): what sending changes in it, the idle flits, what a good flit brings, how a fragment joins its
message, and the statement about flits.
-/
namespace Sys2Proof.Machine

open Sys2Proof

/-! ### What sending changes in a port -/

/-- t is s after flits have gone out. -/
def Pumped (s t : PortState) : Prop :=
  t = { s with
    cred := t.cred, crTurn := t.crTurn, txSeq := t.txSeq, nackOut := t.nackOut, replayBuf := t.replayBuf, txq := t.txq
    wire := t.wire, arb := t.arb, txFlits := t.txFlits }

namespace Pumped

variable {s t u : PortState}

theorem refl (s : PortState) : Pumped s s := rfl

theorem trans (h : Pumped s t) (h' : Pumped t u) : Pumped s u := by
  unfold Pumped at *
  rw [h', h]

theorem st (h : Pumped s t) : t.st = s.st := by rw [h]
theorem open_ (h : Pumped s t) : t.open_ = s.open_ := by rw [h]
theorem rxSeq (h : Pumped s t) : t.rxSeq = s.rxSeq := by rw [h]
theorem rxFlits (h : Pumped s t) : t.rxFlits = s.rxFlits := by rw [h]
theorem findOpen (h : Pumped s t) (vc : Fin 4) (id : W16) : t.findOpen vc id = s.findOpen vc id := by
  rw [PortState.findOpen, PortState.findOpen, h.open_]

theorem stamp (s : PortState) (f : Flit) : Pumped s (s.stamp f).1 := rfl

theorem emit (s : PortState) (v : Fin 4) (n : Nat) : Pumped s (s.emit v n) := by
  rw [PortState.emit]
  split
  · exact refl s
  · rfl

theorem pumpGo : ∀ (n : Nat) (s : PortState), Pumped s (s.pumpGo n)
  | 0, s => refl s
  | n + 1, s => by
    rw [PortState.pumpGo]
    split
    · split
      · exact (emit s _ _).trans (pumpGo n _)
      · exact refl s
    · exact refl s

theorem pump (s : PortState) : Pumped s s.pump := pumpGo _ s

end Pumped

/-! ### Idle flits -/

/-- The flit of a slot that no virtual channel takes. -/
def idleFlit : Flit :=
  { kind := 0, vc := 0, seq := 0, ack := 0, nack := false, crcum := 0, crvc := 0, len := 0, msgid := 0, frag := 0
    last := false, payload := [], crc := 0 }

section
variable {s : PortState}

theorem PortState.idle_succ (h : s.st = .up) (n : Nat) : s.idle (n + 1) =
    PortState.idle n { s with wire := s.wire ++ [(s.stamp idleFlit).2], nackOut := false, crTurn := s.crTurn + 1 } := by
  rw [PortState.idle, if_pos h]
  rfl

theorem PortState.idle_one (h : s.st = .up) : s.idle 1 =
    { s with wire := s.wire ++ [(s.stamp idleFlit).2], nackOut := false, crTurn := s.crTurn + 1 } := PortState.idle_succ h 0

/-- The next flit of a port that rejects is an idle one with NACK. -/
theorem PortState.idle_nack (h : s.st = .up) : PortState.idle 1 { s with nackOut := true } =
    { s with
      wire := s.wire ++ [(({ s with nackOut := true } : PortState).stamp idleFlit).2], nackOut := false, crTurn := s.crTurn + 1 } :=
  PortState.idle_one (s := { s with nackOut := true }) h

/-- Idle flits carry what the port had to acknowledge or reject, and leave the rest. -/
theorem PortState.idle_eq : ∀ (n : Nat) (s : PortState), s.idle n =
    { s with wire := (s.idle n).wire, nackOut := (s.idle n).nackOut, crTurn := (s.idle n).crTurn }
  | 0, s => rfl
  | n + 1, s => by
    by_cases h : s.st = .up
    · rw [PortState.idle_succ h, PortState.idle_eq n]
    · rw [PortState.idle, if_neg h]
end

theorem Pumped.idle (n : Nat) (s : PortState) : Pumped s (s.idle n) := by
  unfold Pumped
  rw [PortState.idle_eq]

/-! ### What a good flit brings (R312, R314) -/

/-- ACK and credits: what is sent and what may be sent change. -/
theorem PortState.takeHeader_eq (s : PortState) (f : Flit) : ∃ t, Pumped t (s.takeHeader f) ∧
    t = { s with replayBuf := t.replayBuf, replays := t.replays, ackSeen := t.ackSeen, cred := t.cred, crSeen := t.crSeen } := by
  rw [PortState.takeHeader]
  split
  · exact ⟨_, Pumped.pump _, rfl⟩
  · exact ⟨_, Pumped.pump _, rfl⟩

section
variable (s : PortState) (f : Flit)

theorem PortState.takeHeader_rx : (s.takeHeader f).rxSeq = s.rxSeq ∧ (s.takeHeader f).open_ = s.open_ ∧
    (s.takeHeader f).st = s.st ∧ (s.takeHeader f).rxFlits = s.rxFlits := by
  obtain ⟨t, h, e⟩ := s.takeHeader_eq f
  rw [h.rxSeq, h.open_, h.st, h.rxFlits, e]
  exact ⟨rfl, rfl, rfl, rfl⟩
end

/-! ### How a payload flit is taken (R311, R312, R316) -/

/-- A port that has found a flit bad. -/
def PortState.badFlit (s : PortState) (f : Flit) (unc : Bool) : PortState :=
  { s with
    nackOut := true
    crcErr := if crc32 (flitBytes f) != f.crc then satAdd s.crcErr 1 else s.crcErr
    fecUnc := if unc then satAdd s.fecUnc 1 else s.fecUnc }

/-- A port that has found an idle flit bad. -/
def PortState.badIdle (s : PortState) : PortState := { s with crcErr := satAdd s.crcErr 1, nackOut := true }

/-- A port that has accepted a flit in order. -/
def PortState.inOrder (s : PortState) : PortState := { s with rxSeq := s.rxSeq + 1, rxSome := true, rxFlits := s.rxFlits + 1 }

section
variable {c : Channel} {p : Port} {f : Flit} {unc : Bool} (hu : c.ports[p].st = .up)
include hu

theorem Channel.rxPayload_bad (hb : flitBad f unc = true) : c.rxPayload p f unc =
    (c.modPort p fun s => s.badFlit f unc).modPort p fun s => s.idle 1 := by
  rw [Channel.rxPayload]
  dsimp only
  rw [hu, hb]
  rfl

theorem Channel.rxPayload_outOfOrder (hb : flitBad f unc = false) (hk : f.kind = 1) (hs : f.seq ≠ c.ports[p].rxSeq) :
    c.rxPayload p f unc =
    ((c.modPort p fun s => s.takeHeader f).modPort p fun s => { s with nackOut := true }).modPort p fun s => s.idle 1 := by
  have other : (f.seq != (c.modPort p fun s => s.takeHeader f).ports[p].rxSeq) = true := by
    rw [Channel.modPort_self, (PortState.takeHeader_rx _ _).1, bne_iff_ne]
    exact hs
  rw [Channel.rxPayload]
  dsimp only
  rw [hu, hb, hk, other]
  rfl

theorem Channel.rxPayload_inOrder (hb : flitBad f unc = false) (hk : f.kind = 1) (hs : f.seq = c.ports[p].rxSeq) :
    c.rxPayload p f unc =
    (if c.ports[p].isLate f then ((c.modPort p fun s => s.takeHeader f).modPort p PortState.inOrder).dropLate p f
      else ((c.modPort p fun s => s.takeHeader f).modPort p PortState.inOrder).modPort p fun s => s.takeFragment f).modPort p
        fun s => s.idle 1 := by
  have next : (f.seq != (c.modPort p fun s => s.takeHeader f).ports[p].rxSeq) = false := by
    rw [Channel.modPort_self, (PortState.takeHeader_rx _ _).1, bne_eq_false_iff_eq]
    exact hs
  have late : ((c.modPort p fun s => s.takeHeader f).modPort p PortState.inOrder).ports[p].isLate f = c.ports[p].isLate f := by
    rw [Channel.modPort_self, Channel.modPort_self, PortState.isLate, PortState.isLate, PortState.findOpen, PortState.findOpen]
    change (_ && (List.find? _ (PortState.takeHeader _ f).open_).isNone) = _
    rw [(PortState.takeHeader_rx _ _).2.1]
  rw [Channel.rxPayload, ← late]
  dsimp only
  rw [hu, hb, hk, next]
  rfl
end

/-! ### Fragments -/

section
variable {s : PortState} {f : Flit}

/-- Fragment 0 opens its message. -/
theorem PortState.takeFragment_opens (hf : f.frag = 0) (hn : s.findOpen f.vc f.msgid = none) :
    (s.takeFragment f).findOpen f.vc f.msgid = some
      { vc := f.vc, msgid := f.msgid, bytes := f.payload.take f.len.toNat, frags := 1, complete := f.last, put := f.put } := by
  rw [PortState.findOpen] at hn
  rw [PortState.findOpen, PortState.takeFragment, if_pos hf]
  dsimp only
  rw [List.find?_append, hn]
  simp

/-- A later one is added to it. -/
theorem PortState.takeFragment_adds {m : OpenMsg} (hf : f.frag ≠ 0) (hm : s.findOpen f.vc f.msgid = some m)
    (hc : m.complete = false) (hn : m.frags = f.frag.toNat) : (s.takeFragment f).findOpen f.vc f.msgid = some
      { m with bytes := m.bytes ++ f.payload.take f.len.toNat, frags := m.frags + 1, complete := f.last } := by
  rw [PortState.findOpen] at hm
  have key := List.find?_some hm
  rw [Bool.and_eq_true, beq_iff_eq, beq_iff_eq] at key
  rw [PortState.findOpen, PortState.takeFragment, if_neg hf]
  dsimp only
  rw [List.find?_map]
  have same : ((fun m : OpenMsg => m.vc == f.vc && m.msgid == f.msgid) ∘ fun m : OpenMsg =>
      if m.vc = f.vc && m.msgid == f.msgid && !m.complete && m.frags == f.frag.toNat then
        { m with bytes := m.bytes ++ f.payload.take f.len.toNat, frags := m.frags + 1, complete := f.last }
      else m) = fun m => m.vc == f.vc && m.msgid == f.msgid := by
    funext x
    rw [Function.comp_apply]
    split <;> rfl
  rw [same, hm, Option.map_some, if_pos (by simp [key.1, key.2, hc, hn])]
end

theorem PortState.takeFragment_rx (s : PortState) (f : Flit) : (s.takeFragment f).rxSeq = s.rxSeq ∧
    (s.takeFragment f).rxFlits = s.rxFlits := by
  rw [PortState.takeFragment]
  split
  · exact ⟨rfl, rfl⟩
  · exact ⟨rfl, rfl⟩

theorem PortState.idle_findOpen (n : Nat) (s : PortState) (vc : Fin 4) (id : W16) :
    (s.idle n).findOpen vc id = s.findOpen vc id := (Pumped.idle n s).findOpen vc id

/-! ### The rows -/

section
variable {s : State} {ch : Ch} {c : Channel} {p : Port} {f : Flit} {unc : Bool} (hc : s.chans[ch] = c) (hu : c.up = true)
include hc hu

theorem exec_payloadFlit : exec (.payloadFlit ch p f unc) s = .next (s.put ch (c.rxPayload p f unc)) := exec_modUp hc hu rfl rfl

theorem exec_idleFlit (hs : c.ports[p].st = .up) (hk : f.kind = 0) (hb : flitBad f false = false) :
    exec (.idleFlit ch p f) s = .next (s.put ch (c.modPort p fun x => x.takeHeader f)) := by
  refine exec_modUp hc hu rfl ?_
  rw [hs, hk, hb]
  rfl

theorem exec_idleFlit_bad (hs : c.ports[p].st = .up) (hk : f.kind = 0) (hb : flitBad f false = true) :
    exec (.idleFlit ch p f) s = .next (s.put ch (c.modPort p fun x => x.badIdle.idle 1)) := by
  refine exec_modUp hc hu rfl ?_
  rw [hs, hk, hb]
  rfl
end

/-- A flit accepted in order and not late: what its port then is. -/
theorem Channel.rxPayload_accepted {c : Channel} {p : Port} {f : Flit} {unc : Bool} (hu : c.ports[p].st = .up)
    (hb : flitBad f unc = false) (hk : f.kind = 1) (hs : f.seq = c.ports[p].rxSeq) (hl : c.ports[p].isLate f = false) :
    (c.rxPayload p f unc).ports[p] = (((c.ports[p].takeHeader f).inOrder).takeFragment f).idle 1 := by
  rw [Channel.rxPayload_inOrder hu hb hk hs, if_neg (ne_true_of_eq_false hl)]
  simp only [Channel.modPort_self]

/-- The registers of such a port. -/
theorem PortState.accepted_rx (x : PortState) (f : Flit) :
    ((((x.takeHeader f).inOrder).takeFragment f).idle 1).rxSeq = x.rxSeq + 1 ∧
    ((((x.takeHeader f).inOrder).takeFragment f).idle 1).rxFlits = x.rxFlits + 1 ∧
    ((x.takeHeader f).inOrder).findOpen = x.findOpen := by
  obtain ⟨rxSeq, open_, -, rxFlits⟩ := x.takeHeader_rx f
  obtain ⟨seq, flits⟩ := PortState.takeFragment_rx (x.takeHeader f).inOrder f
  refine ⟨?_, ?_, ?_⟩
  · rw [(Pumped.idle _ _).rxSeq, seq, PortState.inOrder, rxSeq]
  · rw [(Pumped.idle _ _).rxFlits, flits, PortState.inOrder, rxFlits]
  · funext vc id
    rw [PortState.findOpen, PortState.inOrder, open_, PortState.findOpen]

/-- Settles O30: what a flit is decides, of a good one its SEQ, and the next flit carries NACK where it was discarded. -/
theorem flits : Obligations.Flits := by
  unfold Obligations.Flits
  rintro s ch p f unc c x hc hu rfl hs
  refine ⟨fun hb hk hseq => ⟨fun hf hn => ?_, fun m hf hm hcm hfr => ?_⟩, fun hb => ?_, fun hb hk hseq => ?_,
    fun hb hk => ⟨exec_idleFlit hc hu hs hk hb, (PortState.takeHeader_rx _ _).1, (PortState.takeHeader_rx _ _).2.1⟩,
    fun hb hk => ?_⟩
  · have late : c.ports[p].isLate f = false := by simp [PortState.isLate, hf]
    obtain ⟨rxSeq, rxFlits, found⟩ := PortState.accepted_rx c.ports[p] f
    have port := Channel.rxPayload_accepted hs hb hk hseq late
    refine ⟨_, exec_payloadFlit hc hu, by rw [port, rxSeq], by rw [port, rxFlits], ?_⟩
    rw [port, PortState.idle_findOpen]
    exact PortState.takeFragment_opens hf (by rw [found]; exact hn)
  · have late : c.ports[p].isLate f = false := by
      rw [PortState.isLate, hm]
      exact Bool.and_false _
    obtain ⟨rxSeq, -, found⟩ := PortState.accepted_rx c.ports[p] f
    have port := Channel.rxPayload_accepted hs hb hk hseq late
    refine ⟨_, exec_payloadFlit hc hu, by rw [port, rxSeq], ?_⟩
    rw [port, PortState.idle_findOpen]
    exact PortState.takeFragment_adds hf (by rw [found]; exact hm) hcm hfr
  · have port : (c.rxPayload p f unc).ports[p] = (c.ports[p].badFlit f unc).idle 1 := by
      rw [Channel.rxPayload_bad hs hb, Channel.modPort_self, Channel.modPort_self]
    rw [PortState.idle_one (s := c.ports[p].badFlit f unc) hs] at port
    refine ⟨_, ((c.ports[p].badFlit f unc).stamp idleFlit).2, exec_payloadFlit hc hu, ?_⟩
    rw [port]
    exact ⟨rfl, rfl, rfl, rfl, rfl, rfl, rfl⟩
  · obtain ⟨rxSeq, open_, st, -⟩ := PortState.takeHeader_rx c.ports[p] f
    have port : (c.rxPayload p f unc).ports[p] = PortState.idle 1 { c.ports[p].takeHeader f with nackOut := true } := by
      rw [Channel.rxPayload_outOfOrder hs hb hk hseq]
      simp only [Channel.modPort_self]
    rw [PortState.idle_nack (st.trans hs)] at port
    refine ⟨_, _, exec_payloadFlit hc hu, by rw [port]; exact List.getLast?_concat .., rfl, rfl, ?_, ?_⟩
    · rw [port]
      exact rxSeq
    · rw [port]
      exact open_
  · refine ⟨_, (c.ports[p].badIdle.stamp idleFlit).2, exec_idleFlit_bad hc hu hs hk hb, ?_⟩
    rw [Channel.modPort_self, PortState.idle_one (s := c.ports[p].badIdle) hs]
    exact ⟨rfl, rfl, rfl, rfl⟩

end Sys2Proof.Machine
end

