-- ==== Sys2Proof/Proofs/PortSends.lean ====
section
/-!
SUPPORT. What a port sends as it may (14 R312 to R315): the slots that it fills one by one, what each takes and leaves, and the
statement about them.
-/
namespace Sys2Proof.Machine

open Sys2Proof

/-! ### One slot -/

/-- The flit of a queue as it leaves. -/
def PortState.nextFlit (s : PortState) (f : Flit) : Flit := (s.stamp { f with seq := s.txSeq }).2

section
variable {s : PortState} {v : Fin 4} {f : Flit} {rest : List Flit}

theorem PortState.emit_eq (h : s.txq.getD v [] = f :: rest) (n : Nat) : s.emit v n =
    { s with
      nackOut := false, crTurn := s.crTurn + 1
      txq := s.txq.set v rest, cred := s.cred.modify v (· - 1), arb := (v, n), txSeq := s.txSeq + 1
      wire := s.wire ++ [s.nextFlit f], replayBuf := s.replayBuf ++ [s.nextFlit f], txFlits := s.txFlits + 1 } := by
  rw [PortState.emit, h]
  rfl

/-- The slot goes to a virtual channel that can send. -/
theorem PortState.pick_ready {n : Nat} (h : s.pick = some (v, n)) : s.ready v = true := by
  unfold PortState.pick at h
  dsimp only at h
  split at h
  · next c =>
    rw [Bool.and_eq_true] at c
    cases h
    exact c.1
  · obtain ⟨u, hu, e⟩ := Option.map_eq_some_iff.mp h
    cases e
    exact List.find?_some hu

/-- A virtual channel that can send keeps its turn up to its weight. -/
theorem PortState.pick_again {n : Nat} (ha : s.arb = (v, n)) (hv : s.ready v = true) (hn : n < s.weight v) :
    s.pick = some (v, n + 1) := by
  rw [PortState.pick, ha]
  dsimp only
  rw [if_pos (by simp [hv, hn])]

/-- Then the next in the round that can takes the slot. -/
theorem PortState.pick_next {n : Nat} (ha : s.arb = (v, n)) (h : s.ready v = false ∨ s.weight v ≤ n) :
    s.pick = ((roundFrom v).find? s.ready).map fun x => (x, 1) := by
  rw [PortState.pick, ha]
  dsimp only
  rw [if_neg]
  rw [Bool.and_eq_true, decide_eq_true_eq, not_and_or, not_lt, Bool.not_eq_true]
  exact h

theorem PortState.ready_queue (h : s.ready v = true) : ∃ f rest, s.txq.getD v [] = f :: rest := by
  cases hq : s.txq.getD v [] with
  | nil =>
    rw [PortState.ready, hq] at h
    nomatch h
  | cons f rest => exact ⟨f, rest, rfl⟩

theorem PortState.ready_cred (h : s.ready v = true) : s.cred.getD v 0 ≠ 0 := by
  rw [PortState.ready, Bool.and_eq_true, bne_iff_ne] at h
  exact h.2

theorem PortState.ready_iff : s.ready v = (decide (0 < (s.txq.getD v []).length) && decide (0 < (s.cred.getD v 0).toNat)) := by
  have queue : (!(s.txq.getD v []).isEmpty) = decide (0 < (s.txq.getD v []).length) := by
    cases s.txq.getD v [] with
    | nil => rfl
    | cons _ _ => simp
  have cred : (s.cred.getD v 0 != 0) = decide (0 < (s.cred.getD v 0).toNat) := by
    rw [Bool.eq_iff_iff, bne_iff_ne, decide_eq_true_eq, Nat.pos_iff_ne_zero, ne_eq, ne_eq, BitVec.toNat_eq]
    rfl
  rw [PortState.ready, queue, cred]

/-- The round of each virtual channel has all four. -/
theorem mem_roundFrom : ∀ v u : Fin 4, u ∈ roundFrom v := by decide

/-- Where no slot is taken, none can send. -/
theorem PortState.pick_none (h : s.pick = none) (u : Fin 4) : s.ready u = false := by
  unfold PortState.pick at h
  dsimp only at h
  split at h
  · nomatch h
  · rw [Option.map_eq_none_iff, List.find?_eq_none] at h
    exact Bool.eq_false_of_not_eq_true (h u (mem_roundFrom _ u))
end

/-! ### The slots of a port, one by one -/

/-- From s the port fills the slots xs, each with its flit, its virtual channel and the slots that has taken in a row, and is
then t. -/
inductive Pumps : PortState → List (Flit × Fin 4 × Nat) → PortState → Prop
  | rest (s : PortState) : Pumps s [] s
  | slot {s t : PortState} {v : Fin 4} {k : Nat} {f : Flit} {q : List Flit} {xs : List (Flit × Fin 4 × Nat)}
      (up : s.st = .up) (room : s.replayBuf.length < 512) (pick : s.pick = some (v, k)) (queue : s.txq.getD v [] = f :: q)
      (tail : Pumps (s.emit v k) xs t) : Pumps s ((s.nextFlit f, v, k) :: xs) t

theorem PortState.pumpGo_pumps : ∀ (n : Nat) (s : PortState), ∃ xs, Pumps s xs (s.pumpGo n)
  | 0, s => ⟨[], .rest s⟩
  | n + 1, s => by
    rw [PortState.pumpGo]
    split
    · next h =>
      rw [Bool.and_eq_true, decide_eq_true_eq, decide_eq_true_eq] at h
      split
      · next v k hp =>
        obtain ⟨f, q, hq⟩ := PortState.ready_queue (PortState.pick_ready hp)
        obtain ⟨xs, hx⟩ := PortState.pumpGo_pumps n (s.emit v k)
        exact ⟨_, .slot h.1 h.2 hp hq hx⟩
      · exact ⟨[], .rest s⟩
    · exact ⟨[], .rest s⟩

namespace Pumps

variable {s t : PortState} {xs : List (Flit × Fin 4 × Nat)}

theorem wire (h : Pumps s xs t) : t.wire = s.wire ++ xs.map (·.1) ∧ t.replayBuf = s.replayBuf ++ xs.map (·.1) := by
  induction h with
  | rest s => simp
  | slot _ _ _ queue _ ih =>
    rw [PortState.emit_eq queue] at ih
    simpa using ih

theorem replay_le (h : Pumps s xs t) (hs : s.replayBuf.length ≤ 512) : t.replayBuf.length ≤ 512 := by
  induction h with
  | rest s => exact hs
  | slot _ room _ queue _ ih =>
    refine ih ?_
    rw [PortState.emit_eq queue]
    simpa using room

theorem of_nil (h : Pumps s [] t) : t = s := by
  cases h
  rfl

theorem of_not_up (h : Pumps s xs t) (hs : s.st ≠ .up) : t = s := by
  cases h with
  | rest => rfl
  | slot up => exact absurd up hs

theorem seq (h : Pumps s xs t) : ∀ i (hi : i < xs.length),
    xs[i].1.seq = s.txSeq + BitVec.ofNat 12 i ∧ xs[i].1.crc = crc32 (flitBytes xs[i].1) := by
  induction h with
  | rest s => exact fun i hi => absurd hi (Nat.not_lt_zero i)
  | @slot s t v k f q xs up room pick queue tail ih =>
    intro i hi
    cases i with
    | zero => exact ⟨(BitVec.add_zero _).symm, rfl⟩
    | succ i =>
      obtain ⟨e, crc⟩ := ih i (Nat.lt_of_succ_lt_succ hi)
      rw [PortState.emit_eq queue] at e
      refine ⟨?_, crc⟩
      rw [List.getElem_cons_succ, e, BitVec.ofNat_add]
      change s.txSeq + 1 + BitVec.ofNat 12 i = _
      rw [BitVec.add_assoc, BitVec.add_comm 1]
      rfl
end Pumps

/-! ### Queues and credits -/

section
variable {s : PortState} {v : Fin 4} {f : Flit} {q : List Flit} (hq : s.txq.getD v [] = f :: q) (k : Nat)
include hq

/-- A flit that waits after a slot waited before it. -/
theorem PortState.emit_sub {u : Nat} {g : Flit} (h : g ∈ (s.emit v k).txq.getD u []) : g ∈ s.txq.getD u [] := by
  rw [PortState.emit_eq hq, List.getD_eq_getElem?_getD, List.getElem?_set] at h
  split at h
  · next e =>
    subst e
    rw [hq]
    split at h
    · exact List.mem_cons_of_mem f h
    · nomatch h
  · rwa [List.getD_eq_getElem?_getD]

theorem PortState.emit_waiting (h4 : s.txq.length = 4) (u : Fin 4) :
    ((s.emit v k).txq.getD u []).length + (if v = u then 1 else 0) = (s.txq.getD u []).length := by
  rw [PortState.emit_eq hq, List.getD_eq_getElem?_getD, List.getElem?_set]
  by_cases e : v = u
  · subst e
    rw [if_pos rfl, if_pos (by rw [h4]; exact v.isLt), if_pos rfl, hq]
    rfl
  · rw [if_neg (mt Fin.ext e), if_neg e, List.getD_eq_getElem?_getD]
    rfl

theorem PortState.emit_credit (h4 : s.cred.length = 4) (hc : s.cred.getD v 0 ≠ 0) (u : Fin 4) :
    ((s.emit v k).cred.getD u 0).toNat + (if v = u then 1 else 0) = (s.cred.getD u 0).toNat := by
  rw [PortState.emit_eq hq, List.getD_eq_getElem?_getD, List.getElem?_modify]
  by_cases e : v = u
  · subst e
    have inside : v.val < s.cred.length := by rw [h4]; exact v.isLt
    rw [List.getD_eq_getElem?_getD, List.getElem?_eq_getElem inside, Option.getD_some] at hc
    rw [List.getD_eq_getElem?_getD, List.getElem?_eq_getElem inside, if_pos rfl]
    simp only [if_true, Option.map_eq_map, Option.map_some, Option.getD_some]
    generalize s.cred[v.val] = x at hc
    bv_omega
  · simp only [if_neg (mt Fin.ext e), if_neg e, List.getD_eq_getElem?_getD, Option.map_eq_map, Option.map_id', add_zero]

theorem PortState.emit_lengths : (s.emit v k).txq.length = s.txq.length ∧ (s.emit v k).cred.length = s.cred.length := by
  rw [PortState.emit_eq hq]
  exact ⟨List.length_set, List.length_modify _ _ _⟩
end

/-- Flits that wait in all queues. -/
def PortState.waiting (s : PortState) : Nat := (s.txq.map List.length).sum

theorem sum_length_set {f : Flit} {q : List Flit} : ∀ (l : List (List Flit)) (i : Nat), l.getD i [] = f :: q →
    ((l.set i q).map List.length).sum + 1 = (l.map List.length).sum
  | [], i, h => by nomatch h
  | x :: l, 0, h => by
    obtain rfl : x = f :: q := h
    simp only [List.set_cons_zero, List.map_cons, List.sum_cons, List.length_cons]
    omega
  | x :: l, i + 1, h => by
    have ih := sum_length_set l i h
    simp only [List.set_cons_succ, List.map_cons, List.sum_cons]
    omega

theorem PortState.emit_sum {s : PortState} {v : Fin 4} {f : Flit} {q : List Flit} (hq : s.txq.getD v [] = f :: q) (k : Nat) :
    (s.emit v k).waiting + 1 = s.waiting := by
  rw [PortState.waiting, PortState.emit_eq hq]
  exact sum_length_set s.txq v hq

theorem getD_length_le (l : List (List Flit)) (i : Nat) : (l.getD i []).length ≤ (l.map List.length).sum := by
  induction l generalizing i with
  | nil => exact Nat.zero_le _
  | cons x l ih =>
    rw [List.map_cons, List.sum_cons]
    cases i with
    | zero => exact Nat.le_add_right _ _
    | succ i => exact (ih i).trans (Nat.le_add_left _ _)

/-- A port that is UP stops where its replay buffer is full, or no virtual channel can send. -/
theorem PortState.pumpGo_stops : ∀ (n : Nat) (s : PortState), s.waiting ≤ n → s.replayBuf.length ≤ 512 → s.st = .up →
    (s.pumpGo n).replayBuf.length = 512 ∨ ∀ v, (s.pumpGo n).ready v = false
  | 0, s, hn, _, _ => by
    refine .inr fun v => Bool.eq_false_of_not_eq_true fun h => ?_
    obtain ⟨f, q, hq⟩ := PortState.ready_queue h
    have le := getD_length_le s.txq v
    rw [PortState.pumpGo] at hq
    rw [hq, List.length_cons] at le
    exact absurd hn (Nat.not_le.mpr (Nat.lt_of_lt_of_le (Nat.succ_pos _) le))
  | n + 1, s, hn, hr, hu => by
    rw [PortState.pumpGo]
    by_cases room : s.replayBuf.length < 512
    · rw [if_pos (by simp [hu, room])]
      split
      · next v k hp =>
        obtain ⟨f, q, hq⟩ := PortState.ready_queue (PortState.pick_ready hp)
        have sum := PortState.emit_sum hq k
        refine PortState.pumpGo_stops n _ (by omega) ?_ ?_
        · rw [PortState.emit_eq hq]
          simpa using room
        · rw [PortState.emit_eq hq]
          exact hu
      · next hp => exact .inr (PortState.pick_none hp)
    · rw [if_neg (by simp [room])]
      exact .inl (by omega)

/-! ### Where the flits come from, and the round -/

/-- A flit of each queue names its virtual channel. -/
def PortState.Tagged (s : PortState) : Prop := ∀ v : Fin 4, ∀ f ∈ s.txq.getD v [], f.vc = v

/-- Flits of a virtual channel among those sent. -/
def sentOn (fs : List Flit) (u : Fin 4) : Nat := (fs.filter fun f => f.vc = u).length

theorem sentOn_cons (f : Flit) (fs : List Flit) (u : Fin 4) : sentOn (f :: fs) u = sentOn fs u + if f.vc = u then 1 else 0 := by
  rw [sentOn, List.filter_cons]
  by_cases e : f.vc = u
  · rw [if_pos (by simpa using e), if_pos e, List.length_cons]
    rfl
  · rw [if_neg (by simpa using e), if_neg e]
    rfl

namespace Pumps

variable {s t : PortState} {xs : List (Flit × Fin 4 × Nat)}

theorem origin (h : Pumps s xs t) : ∀ x ∈ xs, ∃ v, ∃ g ∈ s.txq.getD v [],
    x.1.payload = g.payload ∧ x.1.msgid = g.msgid ∧ x.1.frag = g.frag ∧ x.1.last = g.last := by
  induction h with
  | rest s => exact fun x hx => absurd hx List.not_mem_nil
  | @slot s t v k f q xs up room pick queue tail ih =>
    intro x hx
    rcases List.mem_cons.mp hx with rfl | hx
    · exact ⟨v, f, by rw [queue]; exact List.mem_cons_self, rfl, rfl, rfl, rfl⟩
    · obtain ⟨u, g, hg, same⟩ := ih x hx
      exact ⟨u, g, PortState.emit_sub queue k hg, same⟩

/-- What the slots take from the queues and the credits of a port whose flits name their virtual channel. -/
theorem counts (h : Pumps s xs t) (htag : s.Tagged) (hq : s.txq.length = 4) (hc : s.cred.length = 4) :
    xs.map (fun x => x.2.1) = xs.map (fun x => x.1.vc) ∧
    ∀ u : Fin 4, (t.cred.getD u 0).toNat + sentOn (xs.map (·.1)) u = (s.cred.getD u 0).toNat ∧
      (t.txq.getD u []).length + sentOn (xs.map (·.1)) u = (s.txq.getD u []).length := by
  induction h with
  | rest s => exact ⟨rfl, fun u => ⟨rfl, rfl⟩⟩
  | @slot s t v k f q xs up room pick queue tail ih =>
    have vc : f.vc = v := htag v f (by rw [queue]; exact List.mem_cons_self)
    obtain ⟨lq, lc⟩ := PortState.emit_lengths queue k
    obtain ⟨slots, left⟩ := ih (fun u g hg => htag u g (PortState.emit_sub queue k hg)) (lq.trans hq) (lc.trans hc)
    refine ⟨?_, fun u => ?_⟩
    · rw [List.map_cons, List.map_cons, slots]
      exact congrArg (· :: _) vc.symm
    · obtain ⟨cred, wait⟩ := left u
      have credit := PortState.emit_credit queue k hc (PortState.ready_cred (PortState.pick_ready pick)) u
      have waiting := PortState.emit_waiting queue k hq u
      rw [List.map_cons, sentOn_cons]
      change _ + (_ + if f.vc = u then 1 else 0) = _ ∧ _ + (_ + if f.vc = u then 1 else 0) = _
      rw [vc]
      omega

/-- The weighted rounds of R315. -/
theorem round (h : Pumps s xs t) (htag : s.Tagged) (hq : s.txq.length = 4) (hc : s.cred.length = 4) :
    ∀ (i n : Nat) (v : Fin 4) (ready : Fin 4 → Bool), i < xs.length → (s.arb :: xs.map (·.2))[i]? = some (v, n) →
      (∀ u, ready u = (decide (sentOn ((xs.map (·.1)).take i) u < (s.txq.getD u []).length) &&
        decide (sentOn ((xs.map (·.1)).take i) u < (s.cred.getD u 0).toNat))) →
      (ready v = true → n < s.weight v → (xs.map (·.2))[i]? = some (v, n + 1)) ∧
      (ready v = false ∨ s.weight v ≤ n → ∃ u, (roundFrom v).find? ready = some u ∧ (xs.map (·.2))[i]? = some (u, 1)) := by
  induction h with
  | rest s => exact fun i n v ready hi => absurd hi (Nat.not_lt_zero i)
  | @slot s t v k f q xs up room pick queue tail ih =>
    intro i n u ready hi harb hready
    cases i with
    | zero =>
      have now : ready = s.ready := by
        funext w
        rw [hready w, PortState.ready_iff]
        rfl
      have arb : s.arb = (u, n) := Option.some.inj harb
      rw [now]
      refine ⟨fun hu hn => ?_, fun hw => ?_⟩
      · rw [PortState.pick_again arb hu hn] at pick
        exact pick.symm
      · rw [PortState.pick_next arb hw] at pick
        obtain ⟨x, hx, e⟩ := Option.map_eq_some_iff.mp pick
        exact ⟨x, hx, congrArg some e.symm⟩
    | succ i =>
      have vc : f.vc = v := htag v f (by rw [queue]; exact List.mem_cons_self)
      obtain ⟨lq, lc⟩ := PortState.emit_lengths queue k
      have weight : (s.emit v k).weight u = s.weight u := by
        rw [PortState.emit_eq queue]
        rfl
      have next := ih (fun u g hg => htag u g (PortState.emit_sub queue k hg)) (lq.trans hq) (lc.trans hc) i n u ready
        (Nat.lt_of_succ_lt_succ hi) (by rw [PortState.emit_eq queue]; exact harb) (fun w => ?_)
      · rw [weight] at next
        exact next
      · have credit := PortState.emit_credit queue k hc (PortState.ready_cred (PortState.pick_ready pick)) w
        have waiting := PortState.emit_waiting queue k hq w
        have head := sentOn_cons (s.nextFlit f) ((xs.map (·.1)).take i) w
        rw [show (s.nextFlit f).vc = v from vc] at head
        rw [hready w, List.map_cons, List.take_succ_cons, head, ← credit, ← waiting]
        congr 1
        · rw [decide_eq_decide]
          omega
        · rw [decide_eq_decide]
          omega
end Pumps

/-- Settles O29: the slots of `Pumps` one by one; the port stops where it must. -/
theorem portSends : Obligations.PortSends := by
  unfold Obligations.PortSends
  intro s hr hc hq
  obtain ⟨xs, h⟩ := s.pumpGo_pumps s.waiting
  change Pumps s xs s.pump at h
  have stops (hu : s.st = .up) := PortState.pumpGo_stops s.waiting s le_rfl hr hu
  change s.st = .up → s.pump.replayBuf.length = 512 ∨ ∀ v, s.pump.ready v = false at stops
  have idle {t : PortState} {v : Fin 4} (hv : t.ready v = false) : t.txq.getD v [] = [] ∨ t.cred.getD v 0 = 0 := by
    rw [PortState.ready, Bool.and_eq_false_iff, bne_eq_false_iff_eq, Bool.not_eq_false', List.isEmpty_iff] at hv
    exact hv
  obtain ⟨wire, replay⟩ := h.wire
  refine ⟨xs.map (·.1), wire, replay, h.replay_le hr, h.of_not_up, fun i hi => ?_, fun f hf => ?_, fun htag => ?_,
    fun hu => (stops hu).imp id fun hv v => idle (hv v), fun hu room ⟨v, hv, hcred⟩ none => ?_⟩
  · rw [List.length_map] at hi
    rw [List.getElem_map]
    exact h.seq i hi
  · obtain ⟨x, hx, rfl⟩ := List.mem_map.mp hf
    exact h.origin x hx
  · obtain ⟨slots, left⟩ := h.counts htag hq hc
    refine ⟨left, xs.map (·.2), ?_, fun i n v ready hi => ?_⟩
    · rw [List.map_map, List.map_map]
      exact slots
    · rw [List.length_map] at hi
      exact h.round htag hq hc i n v ready hi
  · obtain rfl := List.map_eq_nil_iff.mp none
    rw [h.of_nil] at stops
    rcases stops hu with full | stuck
    · omega
    · exact (idle (stuck v)).elim hv hcred

end Sys2Proof.Machine
end

