-- ==== Sys2Proof/Proofs/MessagesArrive.lean ====
section
/-!
SUPPORT. Messages at a port (14 R316 to R318, R445): what queueing a message changes in a port, the outcomes of a complete
message and of one to forward, and the statement about them.
-/
namespace Sys2Proof.Machine

open Sys2Proof

/-! ### Rows of a running channel -/

section
variable {s : State} {ch : Ch} {c d : Channel} {i : Instr} {f : Wk → Wk}

/-- Such a row that draws no free value and sends no MSI-X message, from what it makes of the channel. -/
theorem exec_onUp (hc : s.chans[ch] = c) (hu : c.up = true) (hi : exec i s = .next (onUp s ch f))
    (hf : f (s.work ch) = { s.work ch with c := d }) : exec i s = .next (s.put ch d) := by
  subst hc
  rw [hi, onUp_eq hu, hf]
  exact congrArg _ (State.after_eq_put rfl rfl)

theorem exec_onUp_same (hc : s.chans[ch] = c) (hu : c.up = true) (hi : exec i s = .next (onUp s ch f))
    (hf : f (s.work ch) = s.work ch) : exec i s = .next s := by
  rw [exec_onUp hc hu hi (d := s.chans[ch]) hf, State.put_same]
end

/-! ### What queueing a message changes in a port -/

/-- t is s after messages have been queued, and flits have gone out. -/
def Queued (s t : PortState) : Prop :=
  t = { s with
    cred := t.cred, crTurn := t.crTurn, txSeq := t.txSeq, nackOut := t.nackOut, replayBuf := t.replayBuf, txq := t.txq
    wire := t.wire, arb := t.arb, txFlits := t.txFlits, nextMsgid := t.nextMsgid, inFlight := t.inFlight }

namespace Queued

variable {s t u : PortState}

theorem refl (s : PortState) : Queued s s := rfl

theorem of_pumped (h : Pumped s t) : Queued s t := by
  unfold Queued
  rw [h]

theorem trans (h : Queued s t) (h' : Queued t u) : Queued s u := by
  unfold Queued at *
  rw [h', h]

theorem rxSeq (h : Queued s t) : t.rxSeq = s.rxSeq := by rw [h]
theorem open_ (h : Queued s t) : t.open_ = s.open_ := by rw [h]
theorem lateDrop (h : Queued s t) : t.lateDrop = s.lateDrop := by rw [h]
theorem routeDrop (h : Queued s t) : t.routeDrop = s.routeDrop := by rw [h]
theorem relayed (h : Queued s t) : t.relayed = s.relayed := by rw [h]

theorem enqueue (s : PortState) (vc : Fin 4) (m : Msg) : Queued s (s.enqueue vc m).1 := by
  rw [PortState.enqueue]
  exact trans (t := { s with nextMsgid := s.nextMsgid + 1, txq := s.txq.modify vc (· ++ fragments vc s.nextMsgid m) }) rfl
    (of_pumped (Pumped.pump _))

theorem modPort {c : Channel} {q : Port} {f : PortState → PortState} (h : Queued c.ports[q] (f c.ports[q])) (p : Port) :
    Queued c.ports[p] (c.modPort q f).ports[p] := by
  rw [Channel.modPort_get]
  split
  · next e =>
    subst e
    exact h
  · exact refl _

theorem sendOn {c d : Channel} {q : Port} {vc : Fin 4} {m : Msg} {o : Option Src} {sh : Option (Nat × Nat)}
    (h : c.sendOn q vc m o sh = some d) (p : Port) : Queued c.ports[p] d.ports[p] := by
  simp only [Channel.sendOn, Option.ite_none_right_eq_some, Option.some.injEq] at h
  rw [← h.2]
  refine modPort ?_ p
  split
  · exact (enqueue _ vc m).trans rfl
  · exact enqueue _ vc m

theorem getD_sendOn (c : Channel) (q : Port) (vc : Fin 4) (m : Msg) (o : Option Src) (sh : Option (Nat × Nat)) (p : Port) :
    Queued c.ports[p] ((c.sendOn q vc m o sh).getD c).ports[p] := by
  cases h : c.sendOn q vc m o sh with
  | none => exact refl _
  | some d => exact sendOn h p

theorem post (c : Channel) (vc : Fin 4) (m : Msg) (p : Port) : Queued c.ports[p] (c.post vc m).ports[p] := by
  unfold Channel.post Channel.send
  split
  · exact getD_sendOn c _ vc m none none p
  · exact refl _

theorem sendMnack (c : Channel) (h : MsgHdr) (b : Bool) (p : Port) : Queued c.ports[p] (c.sendMnack h b).ports[p] := by
  unfold Channel.sendMnack
  dsimp only
  split
  · exact refl _
  · exact post c 2 _ p

end Queued

/-! ### Answers -/

theorem Sent.mem {c d : Channel} (h : Sent c d) : d.mem = c.mem := by rw [h]
theorem Sent.inputs {c d : Channel} (h : Sent c d) : d.inputs = c.inputs := by rw [h]
theorem Sent.inbox {c d : Channel} (h : Sent c d) : d.inbox = c.inbox := by rw [h]

theorem Sent.getD_sendOn (c : Channel) (q : Port) (vc : Fin 4) (m : Msg) (o : Option Src) (sh : Option (Nat × Nat)) :
    Sent c ((c.sendOn q vc m o sh).getD c) := by
  cases h : c.sendOn q vc m o sh with
  | none => exact Sent.refl c
  | some d => exact Sent.sendOn h

theorem Sent.sendMack (c : Channel) (h : MsgHdr) (st : Byte) : Sent c (c.sendMack h st) := Sent.post c 2 _

/-- MNACK to another channel is sent; to this one it is at hand at once. -/
theorem Channel.sendMnack_rest (c : Channel) (h : MsgHdr) (b : Bool) :
    c.sendMnack h b = { c with ports := (c.sendMnack h b).ports, inbox := (c.sendMnack h b).inbox } := by
  have sent := Sent.post c 2 ⟨{ c.hdr h.src 7 32 with order := h.order, noroute := b }, hdrBytes h⟩
  unfold Channel.sendMnack
  dsimp only
  split
  · rfl
  · unfold Sent at sent
    rw [sent]

theorem Channel.sendMnack_mem (c : Channel) (h : MsgHdr) (b : Bool) : (c.sendMnack h b).mem = c.mem := by
  rw [Channel.sendMnack_rest]

/-! ### A complete message -/

/-- A message is for this channel, complete, and its turn has come. -/
structure OpenMsg.Here (m : OpenMsg) (c : Channel) (p : Port) : Prop where
  complete : m.complete = true
  here : m.hdr.dst = c.chid
  running : m.halted = none
  turn : c.ports[p].turn m = true

/-- The channel with a message's buffers freed, as a row's writes find it. -/
def Channel.freed (c : Channel) (p : Port) (m : OpenMsg) : Channel := c.landed.modPort p fun y => (y.dropOpen m).idle 4

/-- The body of a message. -/
def OpenMsg.body (m : OpenMsg) : List Byte := (m.bytes.drop 32).take m.hdr.length.toNat

section
variable {w : Wk} {p : Port} {vc : Fin 4} {id : W16} {m : OpenMsg} (hm : w.c.ports[p].findOpen vc id = some m)
include hm

theorem messageComplete_stays (h : m.complete = false ∨ m.hdr.dst ≠ w.c.chid ∨ m.halted.isSome = true ∨
    w.c.ports[p].turn m = false) : messageComplete w p vc id = w := by
  have found : w.c.landed.ports[p].findOpen vc id = some m := hm
  have cond : (!m.complete || m.hdr.dst != w.c.landed.chid || m.halted.isSome || !w.c.landed.ports[p].turn m) = true := by
    rw [Bool.or_eq_true, Bool.or_eq_true, Bool.or_eq_true, Bool.not_eq_true', bne_iff_ne, Bool.not_eq_true', or_assoc, or_assoc]
    exact h
  unfold messageComplete
  dsimp only
  rw [found]
  dsimp only
  rw [if_pos cond]

variable (hh : m.Here w.c p)
include hh

omit hm in
theorem OpenMsg.Here.passes :
    (!m.complete || m.hdr.dst != w.c.landed.chid || m.halted.isSome || !w.c.landed.ports[p].turn m) = false := by
  rw [hh.complete, hh.running, show w.c.landed.ports[p].turn m = true from hh.turn, show w.c.landed.chid = m.hdr.dst from hh.here.symm,
    bne_self_eq_false]
  rfl

theorem messageComplete_contribution (ht : m.hdr.type = 1) (hp : m.hdr.put = none) (hd : m.hdr.desc = 0) :
    messageComplete w p vc id =
      { w with c := { w.c.freed p m with inbox := (w.c.freed p m).inbox ++ [⟨m.hdr, m.body⟩] } } := by
  have found : w.c.landed.ports[p].findOpen vc id = some m := hm
  unfold messageComplete
  dsimp only
  rw [found]
  dsimp only
  rw [if_neg (ne_true_of_eq_false hh.passes), if_pos (by rw [ht, hp, hd]; rfl)]
  rfl

theorem messageComplete_put {c : Channel} (ht : m.hdr.type = 1) (hp : m.hdr.put.isSome = true ∨ m.hdr.desc ≠ 0)
    (hw : (w.c.freed p m).putWrite m.hdr m.body = .ok c) (hc : c.poisonHit = none) :
    messageComplete w p vc id = { w with c := c.sendMack m.hdr 0 } := by
  have found : w.c.landed.ports[p].findOpen vc id = some m := hm
  have put : ¬(m.hdr.type = 1 && m.hdr.put.isNone && m.hdr.desc == 0) = true := by
    rw [Bool.and_eq_true, Bool.and_eq_true, beq_iff_eq]
    rintro ⟨⟨-, h1⟩, h2⟩
    rcases hp with h | h
    · rw [Option.isSome_iff_ne_none] at h
      exact h (Option.isNone_iff_eq_none.mp h1)
    · exact h h2
  have ok : (w.c.landed.modPort p fun s => (s.dropOpen m).idle 4).putWrite m.hdr
    ((m.bytes.drop 32).take m.hdr.length.toNat) = .ok c := hw
  unfold messageComplete
  dsimp only
  rw [found]
  dsimp only
  rw [if_neg (ne_true_of_eq_false hh.passes), if_neg put, if_pos ht, ok]
  dsimp only
  rw [hc, ht]
  rfl

theorem messageComplete_share (ht : m.hdr.type = 2) :
    messageComplete w p vc id = { w with c := ((w.c.freed p m).takeDispatch m.hdr m.body).sendMack m.hdr 0 } := by
  have found : w.c.landed.ports[p].findOpen vc id = some m := hm
  unfold messageComplete
  dsimp only
  rw [found]
  dsimp only
  rw [if_neg (ne_true_of_eq_false hh.passes), ht]
  rfl

theorem messageComplete_unknown (ht : m.hdr.type = 3 ∨ m.hdr.type = 5) (hk : w.c.collOf (redParse m.hdr.src m.body) = none) :
    messageComplete w p vc id = w := by
  have found : w.c.landed.ports[p].findOpen vc id = some m := hm
  have idle : (w.c.landed.collOf (redParse m.hdr.src ((m.bytes.drop 32).take m.hdr.length.toNat))).isNone = true :=
    Option.isNone_iff_eq_none.mpr hk
  unfold messageComplete
  dsimp only
  rw [found]
  dsimp only
  rw [if_neg (ne_true_of_eq_false hh.passes), idle]
  rcases ht with ht | ht
  · rw [ht]
    rfl
  · rw [ht]
    rfl

/-- Every other message is handed on, acknowledged or not. -/
theorem messageComplete_handedOn (h1 : m.hdr.type ≠ 1) (h2 : m.hdr.type ≠ 2)
    (hk : m.hdr.type = 3 ∨ m.hdr.type = 5 → (w.c.collOf (redParse m.hdr.src m.body)).isSome = true) :
    ∃ d, Sent { w.c.freed p m with inbox := (w.c.freed p m).inbox ++ [⟨m.hdr, m.body⟩] } d ∧
      messageComplete w p vc id = { w with c := d } := by
  have found : w.c.landed.ports[p].findOpen vc id = some m := hm
  have other : ¬(m.hdr.type = 1 && m.hdr.put.isNone && m.hdr.desc == 0) = true := by
    rw [Bool.and_eq_true, Bool.and_eq_true, decide_eq_true_eq]
    exact fun h => h1 h.1.1
  unfold messageComplete
  dsimp only
  rw [found]
  dsimp only
  rw [if_neg (ne_true_of_eq_false hh.passes), if_neg other, if_neg h1, if_neg h2]
  split
  · next ht =>
    rw [Bool.or_eq_true, decide_eq_true_eq, decide_eq_true_eq] at ht
    have runs : ¬(w.c.landed.collOf (redParse m.hdr.src ((m.bytes.drop 32).take m.hdr.length.toNat))).isNone = true := by
      rw [Option.isNone_iff_eq_none, ← ne_eq, ← Option.isSome_iff_ne_none]
      exact hk ht
    rw [if_neg runs]
    split
    · exact ⟨_, Sent.sendMack _ _ 0, rfl⟩
    · exact ⟨_, Sent.refl _, rfl⟩
  · split
    · exact ⟨_, Sent.sendMack _ _ 0, rfl⟩
    · exact ⟨_, Sent.refl _, rfl⟩
end

/-! ### A message to forward (R445) -/

section
variable {c : Channel} {p q : Port} {vc : Fin 4} {id : W16} {m : OpenMsg}

/-- A message is for another channel, complete, and its turn has come. -/
structure OpenMsg.Passing (m : OpenMsg) (c : Channel) (p : Port) : Prop where
  complete : m.complete = true
  away : m.hdr.dst ≠ c.chid
  turn : c.ports[p].turn m = true

/-- The channel with the buffers of a message to forward freed. -/
def Channel.released (c : Channel) (p : Port) (m : OpenMsg) : Channel := c.modPort p fun y => (y.dropOpen m).idle 4

/-- The freed buffers change neither the mode nor the state of a port. -/
theorem Channel.released_port (c : Channel) (p : Port) (m : OpenMsg) (j : Port) :
    (c.released p m).ports[j].mode = c.ports[j].mode ∧ (c.released p m).ports[j].st = c.ports[j].st := by
  rw [Channel.released, Channel.modPort_get]
  split
  · next e =>
    subst e
    rw [PortState.idle_eq]
    exact ⟨rfl, rfl⟩
  · exact ⟨rfl, rfl⟩

theorem Channel.released_sendable (c : Channel) (p : Port) (m : OpenMsg) (j : Port) :
    (c.released p m).ports[j].sendable = c.ports[j].sendable := by
  obtain ⟨mode, st⟩ := c.released_port p m j
  rw [PortState.sendable, mode, st, PortState.sendable]

theorem Channel.released_altFor (c : Channel) (p : Port) (m : OpenMsg) (h : MsgHdr) (body : List Byte) :
    (c.released p m).altFor h body = c.altFor h body := by
  have down : (c.released p m).mainDown h.dst = c.mainDown h.dst := by
    rw [Channel.mainDown, Channel.mainDown, show (c.released p m).route h.dst = c.route h.dst from rfl]
    cases c.route h.dst with
    | none => rfl
    | some r =>
      obtain ⟨mode, st⟩ := c.released_port p m r.main
      dsimp only
      rw [mode, st]
  rw [Channel.altFor, down, Channel.altFor]

/-- A port after a message has been queued on it that another port brought. -/
def PortState.relay (s : PortState) (p : Port) (vc : Fin 4) (h : MsgHdr) (body : List Byte) : PortState :=
  { (s.enqueue vc ⟨{ h with hops := h.hops + 1 }, body⟩).1 with
    relayed := ((s.enqueue vc ⟨{ h with hops := h.hops + 1 }, body⟩).1.relayed.filter fun x =>
      (s.enqueue vc ⟨{ h with hops := h.hops + 1 }, body⟩).1.carries x.vc x.msgid) ++ [⟨p, vc, s.nextMsgid, h⟩] }

variable (hm : c.ports[p].findOpen vc id = some m) (hp : m.Passing c p)
include hm hp

theorem messageForward_drops (h : m.hdr.hops = 15 ∨ c.route m.hdr.dst = none) :
    messageForward c p vc id = (c.released p m).routeDrop p m.hdr := by
  unfold messageForward
  dsimp only
  rw [hm]
  dsimp only
  rw [if_neg (by simp [hp.complete, hp.away, hp.turn, -Fin.getElem_fin])]
  have route : (c.modPort p fun s => (s.dropOpen m).idle 4).route m.hdr.dst = c.route m.hdr.dst := rfl
  split
  · rfl
  · next hops =>
    rw [route, h.resolve_left hops]
    rfl

theorem messageForward_route {r : Route} (hops : m.hdr.hops ≠ 15) (hr : c.route m.hdr.dst = some r)
    (hq : q = if c.altFor m.hdr (m.bytes.drop 32) && r.altValid then r.alt else r.main) :
    messageForward c p vc id = if c.ports[q].sendable then
        (c.released p m).modPort q fun s => s.relay p vc m.hdr (m.bytes.drop 32)
      else (c.released p m).routeDrop p m.hdr := by
  have route : (c.modPort p fun s => (s.dropOpen m).idle 4).route m.hdr.dst = c.route m.hdr.dst := rfl
  have alt : (c.modPort p fun s => (s.dropOpen m).idle 4).altFor m.hdr (m.bytes.drop 32) = c.altFor m.hdr (m.bytes.drop 32) :=
    c.released_altFor p m m.hdr (m.bytes.drop 32)
  have sendable : (c.modPort p fun s => (s.dropOpen m).idle 4).ports[q].sendable = c.ports[q].sendable :=
    c.released_sendable p m q
  unfold messageForward
  dsimp only
  rw [hm]
  dsimp only
  rw [if_neg (by simp [hp.complete, hp.away, hp.turn, -Fin.getElem_fin]), if_neg hops, route, hr]
  dsimp only
  rw [← alt] at hq
  subst hq
  rw [← sendable]
  rfl
end

/-- The port that a message came by, and the one that it goes by. -/
theorem Channel.relay_ports (c : Channel) {p q : Port} (m : OpenMsg) (vc : Fin 4) (h : MsgHdr) (body : List Byte) (hq : q ≠ p) :
    ((c.released p m).modPort q fun s => s.relay p vc h body).ports[p] = (c.ports[p].dropOpen m).idle 4 ∧
    ((c.released p m).modPort q fun s => s.relay p vc h body).ports[q] = c.ports[q].relay p vc h body := by
  constructor
  · rw [Channel.modPort_get, if_neg hq.symm, Channel.released, Channel.modPort_self]
  · rw [Channel.modPort_self, Channel.released, Channel.modPort_get, if_neg hq]

theorem PortState.relay_enqueue (s : PortState) (p : Port) (vc : Fin 4) (h : MsgHdr) (body : List Byte) :
    ⟨p, vc, s.nextMsgid, h⟩ ∈ (s.relay p vc h body).relayed ∧
    s.enqueue vc ⟨{ h with hops := h.hops + 1 }, body⟩ = ({ s.relay p vc h body with relayed := s.relayed }, s.nextMsgid) := by
  refine ⟨List.mem_append_right _ (List.mem_singleton.mpr rfl), ?_⟩
  have same := (Queued.enqueue s vc ⟨{ h with hops := h.hops + 1 }, body⟩).relayed
  rw [← same]
  rfl

theorem Channel.routeDrop_counts (c : Channel) (p : Port) (h : MsgHdr) :
    (c.routeDrop p h).ports[p].routeDrop = satAdd c.ports[p].routeDrop 1 := by
  rw [Channel.routeDrop, (Queued.sendMnack _ h true p).routeDrop, Channel.modPort_self]

/-! ### Messages that do not complete -/

/-- A port that has discarded an incomplete message (R318). -/
def PortState.stallDropped (s : PortState) (m : OpenMsg) (vc : Fin 4) (id : W16) : PortState :=
  ({ s.dropOpen m with stallDrop := satAdd s.stallDrop 1, stalled := s.stalled ++ [(vc, id, m.hdr)] } : PortState).idle 4

theorem PortState.stallDropped_spec (s : PortState) (m : OpenMsg) (vc : Fin 4) (id : W16) :
    (s.stallDropped m vc id).open_ = s.open_.filter (fun z => !(z.vc == m.vc && z.msgid == m.msgid)) ∧
    (s.stallDropped m vc id).crFreed = s.crFreed.modify m.vc (· + BitVec.ofNat 16 m.frags) ∧
    (s.stallDropped m vc id).stallDrop = satAdd s.stallDrop 1 := by
  rw [PortState.stallDropped, PortState.idle_eq]
  exact ⟨rfl, rfl, rfl⟩

/-- A late fragment is counted, and answered. -/
theorem Channel.dropLate_spec (c : Channel) (p : Port) (f : Flit) : (c.dropLate p f).mem = c.mem ∧
    (c.dropLate p f).ports[p].lateDrop = satAdd c.ports[p].lateDrop 1 ∧
    (c.dropLate p f).ports[p].rxSeq = c.ports[p].rxSeq ∧ (c.dropLate p f).ports[p].open_ = c.ports[p].open_ := by
  have counted : ((c.modPort p fun s => ({ s with lateDrop := satAdd s.lateDrop 1 } : PortState).free f.vc 1).ports[p]) =
      ({ c.ports[p] with lateDrop := satAdd c.ports[p].lateDrop 1 } : PortState).free f.vc 1 := Channel.modPort_self _ _ _
  have ends {d : Channel} {t : PortState} (hm : d.mem = c.mem) (ht : t.lateDrop = satAdd c.ports[p].lateDrop 1 ∧
      t.rxSeq = c.ports[p].rxSeq ∧ t.open_ = c.ports[p].open_) (h : Queued t d.ports[p]) : d.mem = c.mem ∧
      d.ports[p].lateDrop = satAdd c.ports[p].lateDrop 1 ∧ d.ports[p].rxSeq = c.ports[p].rxSeq ∧
      d.ports[p].open_ = c.ports[p].open_ := ⟨hm, h.lateDrop.trans ht.1, h.rxSeq.trans ht.2.1, h.open_.trans ht.2.2⟩
  rw [Channel.dropLate]
  dsimp only
  split
  · refine ends (Channel.sendMnack_mem _ _ _) ?_ (Queued.sendMnack _ _ false p)
    rw [Channel.modPort_self, counted]
    exact ⟨rfl, rfl, rfl⟩
  · refine ends ?_ ?_ (Queued.getD_sendOn _ p 2 _ none none p)
    · exact (Sent.getD_sendOn _ p 2 _ none none).mem
    · rw [counted]
      exact ⟨rfl, rfl, rfl⟩

/-! ### The rows -/

section
variable {s : State} {ch : Ch} {c : Channel} {p : Port} {vc : Fin 4} {id : W16} (hc : s.chans[ch] = c) (hu : c.up = true)
include hc hu

theorem exec_messageComplete {d : Channel} (h : messageComplete (s.work ch) p vc id = { s.work ch with c := d }) :
    exec (.messageComplete ch p vc id) s = .next (s.put ch d) := exec_onUp hc hu rfl h

theorem exec_messageForward : exec (.messageForward ch p vc id) s = .next (s.put ch (messageForward c p vc id)) :=
  exec_modUp hc hu rfl rfl

theorem exec_stalltmoExpiry {m : OpenMsg} (hm : c.ports[p].findOpen vc id = some m) (hi : m.complete = false) :
    exec (.stalltmoExpiry ch p vc id) s = .next (s.put ch (c.modPort p fun x => x.stallDropped m vc id)) := by
  refine exec_modUp hc hu rfl ?_
  rw [hm]
  dsimp only
  rw [hi]
  rfl

theorem exec_stalltmoExpiry_complete {m : OpenMsg} (hm : c.ports[p].findOpen vc id = some m) (hi : m.complete = true) :
    exec (.stalltmoExpiry ch p vc id) s = .next s := by
  refine exec_modUp_same hc hu rfl ?_
  rw [hm]
  dsimp only
  rw [hi]
  rfl

theorem exec_lateFragment {f : Flit} (hk : f.kind = 1) (hl : c.ports[p].isLate f = true) :
    exec (.lateFragment ch p f) s = .next (s.put ch (c.rxPayload p f false)) := by
  refine exec_modUp hc hu rfl (if_pos ?_)
  rw [hk, hl]
  rfl
end

/-- Settles O31: what a complete message is decides, of one to forward its hops and its route. -/
theorem messagesArrive : Obligations.MessagesArrive := by
  unfold Obligations.MessagesArrive
  refine ⟨?_, ?_⟩
  · rintro s ch p q vc id c c' freed x m h body hc hu rfl hm rfl rfl rfl
    have hw : (s.work ch).c.ports[p].findOpen vc id = some m := by
      rw [State.work, hc]
      exact hm
    refine ⟨fun hcomp hdst hhalt hturn => ?_, fun hstay => ?_, fun hcomp hdst hturn => ?_⟩
    · have here : m.Here (s.work ch).c p := by
        rw [State.work, hc]
        exact ⟨hcomp, hdst, hhalt, hturn⟩
      have work : (s.work ch).c = c := hc
      refine ⟨fun ht hp hput hpois => ?_, fun ht hb => ?_, fun ht hk => ?_, fun h1 h2 hk => ?_⟩
      · exact exec_messageComplete hc hu (messageComplete_put hw here ht hp (by rw [work]; exact hput) hpois)
      · change fld m.body 0 1 = 0 at hb
        have sent := Sent.sendMack (((s.work ch).c.freed p m).takeDispatch m.hdr m.body) m.hdr 0
        refine ⟨_, exec_messageComplete hc hu (messageComplete_share hw here ht), ?_, ?_⟩
        · rw [sent.inputs, Channel.takeDispatch, if_pos hb, work]
          rfl
        · rw [sent.mem, Channel.takeDispatch, if_pos hb, work]
          rfl
      · exact exec_onUp_same hc hu rfl (messageComplete_unknown hw here ht (by rw [work]; exact hk))
      · by_cases ht : m.hdr.type = 1
        · obtain ⟨hput, hdesc⟩ := h1 ht
          refine ⟨_, exec_messageComplete hc hu (messageComplete_contribution hw here ht hput hdesc), ?_, ?_⟩
          · rw [work]
            rfl
          · rw [work]
            rfl
        · obtain ⟨d, sent, e⟩ := messageComplete_handedOn hw here ht h2 (by rw [work]; exact hk)
          refine ⟨d, exec_messageComplete hc hu e, ?_, ?_⟩
          · rw [sent.inbox, work]
            rfl
          · rw [sent.mem, work]
            rfl
    · exact exec_onUp_same hc hu rfl (messageComplete_stays hw (by rw [show (s.work ch).c = c from hc]; exact hstay))
    · have passing : m.Passing c p := ⟨hcomp, hdst, hturn⟩
      refine ⟨fun r hops hr hq => ⟨fun hs hne => ?_, fun hs => ?_⟩, fun h => ?_, ?_⟩
      · have fwd := messageForward_route (q := q) hm passing hops hr (by simpa using hq)
        rw [if_pos hs] at fwd
        obtain ⟨hp, hq'⟩ := c.relay_ports m vc m.hdr (m.bytes.drop 32) hne
        obtain ⟨mem, enq⟩ := c.ports[q].relay_enqueue p vc m.hdr (m.bytes.drop 32)
        refine ⟨_, c.ports[q].nextMsgid, exec_messageForward hc hu, ?_, ?_, ?_, ?_⟩
        · rw [fwd]
          rfl
        · rw [fwd, hp]
        · rw [fwd, hq']
          exact mem
        · rw [fwd, hq']
          exact enq
      · have fwd := messageForward_route (q := q) hm passing hops hr (by simpa using hq)
        rw [if_neg (ne_true_of_eq_false hs)] at fwd
        rw [exec_messageForward hc hu, fwd]
        rfl
      · rw [exec_messageForward hc hu, messageForward_drops hm passing h]
        rfl
      · rw [Channel.routeDrop_counts, Channel.modPort_self, PortState.idle_eq]
        rfl
  · rintro s ch p vc id c x f hc hu rfl
    refine ⟨fun m hm hi => ?_, fun m hm hi => exec_stalltmoExpiry_complete hc hu hm hi, fun hs hk hf hn hb hseq => ?_⟩
    · obtain ⟨open_, freed, drop⟩ := c.ports[p].stallDropped_spec m vc id
      refine ⟨_, exec_stalltmoExpiry hc hu hm hi, rfl, ?_, ?_, ?_⟩
      · rw [Channel.modPort_self, open_]
      · rw [Channel.modPort_self, freed]
      · rw [Channel.modPort_self, drop]
    · have late : c.ports[p].isLate f = true := by
        rw [PortState.isLate, hn, Bool.and_eq_true, bne_iff_ne]
        exact ⟨hf, rfl⟩
      have row := Channel.rxPayload_inOrder hs hb hk hseq
      rw [if_pos late] at row
      obtain ⟨mem, drop, seq, open_⟩ :=
        ((c.modPort p fun s => s.takeHeader f).modPort p PortState.inOrder).dropLate_spec p f
      rw [Channel.modPort_self, Channel.modPort_self] at drop seq open_
      obtain ⟨rxSeq, opened, -, -⟩ := c.ports[p].takeHeader_rx f
      obtain ⟨t, pumped, e⟩ := c.ports[p].takeHeader_eq f
      refine ⟨_, exec_lateFragment hc hu hk late, ?_, ?_, ?_, ?_⟩
      · rw [row, Channel.modPort_self, (Queued.of_pumped (Pumped.idle 1 _)).lateDrop, drop]
        change satAdd (c.ports[p].takeHeader f).lateDrop 1 = _
        rw [(Queued.of_pumped pumped).lateDrop, e]
      · rw [row, Channel.modPort_self, (Pumped.idle 1 _).rxSeq, seq]
        change (c.ports[p].takeHeader f).rxSeq + 1 = _
        rw [rxSeq]
      · rw [row, Channel.modPort_self, (Pumped.idle 1 _).open_, open_]
        exact opened
      · rw [row, Channel.modPort_mem, mem]
        rfl

end Sys2Proof.Machine
end

