-- ==== Sys2Proof/Proofs/Acknowledgements.lean ====
section
/-!
SUPPORT. MACK and MNACK (14 R317, R318, R445): how a command ends by its messages, and the statement about them.
-/
namespace Sys2Proof.Machine

open Sys2Proof

/-! ### The message that an answer is about -/

theorem Channel.popFlight_sent {c c' : Channel} {f : InFlight → Bool} {e : InFlight} (h : c.popFlight f = some (e, c')) :
    Sent c c' := by
  unfold Channel.popFlight at h
  split at h
  · cases h
    exact Sent.modPort c _ _
  · nomatch h

theorem Channel.takeMsg_rest (c : Channel) (t : Byte) : c.takeMsg t = { c with inbox := (c.takeMsg t).inbox } := rfl

theorem Channel.takeMsg_findRun (c : Channel) (t : Byte) (src : Src) : (c.takeMsg t).findRun src = c.findRun src := rfl

theorem Sent.findRun {c d : Channel} (h : Sent c d) (src : Src) : d.findRun src = c.findRun src := by
  rw [Channel.findRun, Channel.findRun, show d.running = c.running by rw [h]]

/-! ### How a command ends by its messages -/

section
variable {c : Channel} {src : Src} {r : Running} {res : Result} (hf : c.findRun src = some r)
include hf

/-- The last message is acknowledged. -/
theorem Channel.ackSender_last (hr : r.result = none) (hh : r.held = some res) (h1 : r.unacked = 1) :
    (c.ackSender src).findRun src = some { r with unacked := 0, held := none, result := some res } := by
  have ends : c.ackSender src = c.finish { r with unacked := 0, held := none } res := by
    unfold Channel.ackSender
    rw [hf]
    dsimp only
    rw [hr, hh, h1]
    rfl
  have hsrc := Channel.findRun_src hf
  rw [ends]
  exact Channel.finish_findRun res hf hsrc

/-- Another one is still on its way. -/
theorem Channel.ackSender_more (h2 : 2 ≤ r.unacked) :
    (c.ackSender src).findRun src = some { r with unacked := r.unacked - 1 } := by
  have waits : c.ackSender src = c.setRun { r with unacked := r.unacked - 1 } := by
    unfold Channel.ackSender
    rw [hf]
    dsimp only
    split
    · omega
    · rfl
  have hsrc := Channel.findRun_src hf
  rw [waits]
  exact Channel.setRun_findRun hf hsrc
end

theorem Channel.endedBy_status (c : Channel) (r : Running) (st : Byte) (free : W64) : (c.endedBy r st free).status = st := by
  unfold Channel.endedBy
  split <;> rfl

/-- What ending a sender leaves alone. -/
theorem Wk.endSender_rest (w : Wk) (src : Src) (st : Byte) : (w.endSender src st).c =
    { w.c with running := (w.endSender src st).c.running, ports := (w.endSender src st).c.ports } := by
  unfold Wk.endSender
  split
  · dsimp only
    split <;> rfl
  · rfl

theorem Wk.endSender_status {w : Wk} {src : Src} {st : Byte} {r : Running} (hf : w.c.findRun src = some r) (hr : r.result = none) :
    ∃ q, (w.endSender src st).c.findRun src = some q ∧ q.result.map (fun res => res.status) = some st := by
  have ends : (w.endSender src st).c = (w.c.disown src).finish { r with held := none, halted := none }
      ((w.c.disown src).endedBy r st (Config.freeInfo w.ctr)) := by
    unfold Wk.endSender
    rw [hf]
    dsimp only
    rw [hr]
    rfl
  have hsrc := Channel.findRun_src hf
  rw [ends]
  exact ⟨_, Channel.finish_findRun (c := w.c.disown src) (q := { r with held := none, halted := none }) _ hf hsrc,
    congrArg some (Channel.endedBy_status _ _ _ _)⟩

section
variable {w : Wk} {e : InFlight} {src : Src} (ho : e.owner = some src) (hs : e.share = none)
include ho hs

theorem Wk.failFlight_eq (st : Byte) : w.failFlight e st = w.endSender src st := by
  unfold Wk.failFlight
  rw [ho, hs]
end

/-! ### The operations -/

section
variable {w : Wk} {h : MsgHdr} {e : InFlight} {c' : Channel} {src : Src}

theorem mack_ok (ht : h.type ≠ 5) (hp : w.c.popFlight (fun e => hdrSame e.msg.hdr h) = some (e, c')) (ho : e.owner = some src) :
    mack w h 0 = { w with c := (c'.takeMsg 6).ackSender src } := by
  unfold mack
  rw [if_neg ht, hp]
  dsimp only
  rw [ho]
  rfl

/-- A receiver's error ends the command, after it has frozen the engine where the guard rejected the write (12 R276). -/
theorem mack_error {st : Byte} (ht : h.type ≠ 5) (hp : w.c.popFlight (fun e => hdrSame e.msg.hdr h) = some (e, c'))
    (hst : st ≠ 0) : ∃ v : Wk, mack w h st = v.failFlight e st ∧ Failed (c'.takeMsg 6) v.c := by
  unfold mack
  rw [if_neg ht, hp]
  dsimp only
  rw [if_neg hst]
  split
  · split
    · exact ⟨_, rfl, Failed.freeze (c'.takeMsg 6) (.engine (.esker _)) (h.desc.toNat % 2 ^ 48) true⟩
    · exact ⟨_, rfl, Failed.refl _⟩
  · exact ⟨_, rfl, Failed.refl _⟩

/-- The test of the message in flight that a MNACK is about. -/
def nackNames (n : NackOf) (e : InFlight) : Bool :=
  match n with
  | .message h _ => hdrSame e.msg.hdr h
  | .fragment p vc id => e.port == p && e.vc == vc && e.msgid == id

variable {n : NackOf} (hp : w.c.popFlight (nackNames n) = some (e, c'))
include hp

theorem mnack_noroute (hn : n = .message h true) : mnack w n = Wk.failFlight { w with c := c'.takeMsg 7 } e 0x17 := by
  subst hn
  unfold mnack
  dsimp only
  rw [show w.c.popFlight (fun e => hdrSame e.msg.hdr h) = some (e, c') from hp]
  rfl

variable (hn : ∀ h, n ≠ .message h true)
include hn

theorem mnack_rollback (hr : (c'.takeMsg 7).stp.st = .rollback) :
    mnack w n = Wk.failFlight { w with c := c'.takeMsg 7 } e 0x1A := by
  unfold mnack
  dsimp only
  cases n with
  | fragment p vc id =>
    dsimp only
    rw [show w.c.popFlight (fun e => e.port == p && e.vc == vc && e.msgid == id) = some (e, c') from hp]
    dsimp only
    rw [if_pos hr]
    rfl
  | message h b =>
    cases b with
    | true => exact absurd rfl (hn h)
    | false =>
      dsimp only
      rw [show w.c.popFlight (fun e => hdrSame e.msg.hdr h) = some (e, c') from hp]
      dsimp only
      rw [if_pos hr]
      rfl

theorem mnack_resends {d : Channel} (hr : (c'.takeMsg 7).stp.st ≠ .rollback)
    (hd : (c'.takeMsg 7).sendOn e.port e.vc e.msg e.owner e.share = some d) : mnack w n = { w with c := d } := by
  unfold mnack
  dsimp only
  cases n with
  | fragment p vc id =>
    dsimp only
    rw [show w.c.popFlight (fun e => e.port == p && e.vc == vc && e.msgid == id) = some (e, c') from hp]
    dsimp only
    rw [if_neg hr, hd]
    rfl
  | message h b =>
    cases b with
    | true => exact absurd rfl (hn h)
    | false =>
      dsimp only
      rw [show w.c.popFlight (fun e => hdrSame e.msg.hdr h) = some (e, c') from hp]
      dsimp only
      rw [if_neg hr, hd]
      rfl
end

/-! ### The rows -/

/-- A row that ends a sender with a status. -/
theorem exec_endSender {s : State} {ch : Ch} {c : Channel} {i : Instr} {f : Wk → Wk} {v : Wk} {src : Src} {r : Running}
    {st : Byte} (hc : s.chans[ch] = c) (hu : c.up = true) (hi : exec i s = .next (onUp s ch f))
    (hf : f (s.work ch) = v.endSender src st) (hv : v.c.findRun src = some r) (hr : r.result = none) :
    ∃ t, exec i s = .next t ∧ t.statusOf ch src = some st ∧ t.chans[ch].mem = v.c.mem := by
  subst hc
  rw [onUp_eq hu, hf] at hi
  obtain ⟨q, found, status⟩ := Wk.endSender_status (st := st) hv hr
  refine ⟨_, hi, ?_, ?_⟩
  · rw [State.statusOf, State.after_self_findRun, found]
    exact status
  · rw [State.after_self_mem, Wk.endSender_rest]

/-- Settles O32: the message in flight that an answer is about is found and taken off, then its command ends or goes on. -/
theorem acknowledgements : Obligations.Acknowledgements := by
  unfold Obligations.Acknowledgements
  intro s ch c c' h e src r res hc hu ho hs hf hr hh
  have work : (s.work ch).c = c := hc
  refine ⟨fun ht hp => ?_, fun n hn => ?_⟩
  · have sent := Channel.popFlight_sent hp
    have found : (c'.takeMsg 6).findRun src = some r := (sent.findRun src).trans hf
    rw [← work] at hp
    refine ⟨fun h1 => ?_, fun h2 => ?_, fun st hst => ?_⟩
    · exact ⟨_, exec_onUp hc hu rfl (mack_ok ht hp ho), Channel.ackSender_last found hr hh h1⟩
    · exact ⟨_, exec_onUp hc hu rfl (mack_ok ht hp ho), Channel.ackSender_more found h2⟩
    · obtain ⟨v, ends, failed⟩ := mack_error ht hp hst
      rw [Wk.failFlight_eq ho hs] at ends
      have run : v.c.findRun src = some r := by
        rw [Channel.findRun, failed.running]
        exact found
      obtain ⟨t, row, status, mem⟩ := exec_endSender (i := .mack ch h st) (f := fun w => mack w h st) hc hu rfl ends run hr
      exact ⟨t, row, status, mem.trans (failed.mem.trans sent.mem)⟩
  · have hp : (s.work ch).c.popFlight (nackNames n) = some (e, c') := by
      rw [work]
      obtain ⟨b, rfl, hp⟩ | ⟨p, vc, id, rfl, hp⟩ := hn
      · exact hp
      · exact hp
    have other (h' : n ≠ .message h true) (m : MsgHdr) : n ≠ .message m true := by
      obtain ⟨b, rfl, -⟩ | ⟨p, vc, id, rfl, -⟩ := hn
      · rintro ⟨⟩
        exact h' rfl
      · nofun
    have sent := Channel.popFlight_sent hp
    have found : (c'.takeMsg 7).findRun src = some r := by
      rw [← hf, ← work]
      exact sent.findRun src
    have stp : (c'.takeMsg 7).stp = c.stp := by
      rw [← work]
      exact sent.stp
    refine ⟨fun hn => ?_, fun hn hst => ?_, fun d hn hst hd => ?_⟩
    · have ends := mnack_noroute (h := h) hp hn
      rw [Wk.failFlight_eq ho hs] at ends
      obtain ⟨t, row, status, -⟩ := exec_endSender (i := .mnack ch n) (f := fun w => mnack w n)
        (v := { s.work ch with c := c'.takeMsg 7 }) hc hu rfl ends found hr
      exact ⟨t, row, status⟩
    · have ends := mnack_rollback hp (other hn) (by rw [stp]; exact hst)
      rw [Wk.failFlight_eq ho hs] at ends
      obtain ⟨t, row, status, -⟩ := exec_endSender (i := .mnack ch n) (f := fun w => mnack w n)
        (v := { s.work ch with c := c'.takeMsg 7 }) hc hu rfl ends found hr
      exact ⟨t, row, status⟩
    · exact exec_onUp hc hu rfl (mnack_resends hp (other hn) (by rw [stp]; exact hst) (by rw [ho, hs]; exact hd))

end Sys2Proof.Machine
end

