-- ==== Sys2Proof/Proofs/LinkLife.lean ====
section
/-!
SUPPORT. Training, failure, retraining and replay of a port (14 R309, R312, R313): link-control flits, what a port that gives up
leaves, and the statement about them.
-/
namespace Sys2Proof.Machine

open Sys2Proof

/-! ### Link-control flits -/

/-- A port that has put a flit on the wire. -/
def PortState.stamped (s : PortState) (f : Flit) : PortState :=
  { s with wire := s.wire ++ [(s.stamp f).2], nackOut := false, crTurn := s.crTurn + 1 }

/-- A link-control flit goes out, and nothing else changes in the port. -/
theorem Channel.sendControl_port (c : Channel) (p : Port) (v : Verdict) : ∃ f : Flit, f.kind = 2 ∧
    c.sendControl p v = c.modPort p fun s => s.stamped f := ⟨_, rfl, rfl⟩

theorem PortState.stamped_wire (s : PortState) (f : Flit) : ∃ g : Flit, (s.stamped f).wire = s.wire ++ [g] ∧ g.kind = f.kind :=
  ⟨(s.stamp f).2, rfl, rfl⟩

theorem Channel.modPort_modPort (c : Channel) (p : Port) (f g : PortState → PortState) :
    (c.modPort p f).modPort p g = c.modPort p fun s => g (f s) := by
  simp [Channel.modPort]

/-! ### A port that takes no messages -/

/-- Nothing can be sent on the port, and no message of it is on its way. -/
structure PortState.Shut (s : PortState) : Prop where
  closed : s.sendable = false
  none : s.inFlight = []

/-- t is s after forwarded messages have been discarded. -/
def Dropped (s t : PortState) : Prop := t = { s with routeDrop := t.routeDrop }

namespace Dropped

variable {s t u : PortState}

theorem refl (s : PortState) : Dropped s s := rfl

theorem trans (h : Dropped s t) (h' : Dropped t u) : Dropped s u := by
  unfold Dropped at *
  rw [h', h]

theorem shut (h : Dropped s t) (hs : s.Shut) : t.Shut := by
  rw [h]
  exact ⟨hs.closed, hs.none⟩
end Dropped

section
variable {c : Channel} {p : Port} (hs : c.ports[p].Shut)
include hs

theorem Channel.sendOn_shut {d : Channel} {j : Port} {vc : Fin 4} {m : Msg} {o : Option Src} {sh : Option (Nat × Nat)}
    (h : c.sendOn j vc m o sh = some d) : d.ports[p] = c.ports[p] := by
  simp only [Channel.sendOn, Option.ite_none_right_eq_some, Option.some.injEq] at h
  rw [← h.2, Channel.modPort_get, if_neg]
  rintro rfl
  rw [hs.closed] at h
  nomatch h.1

theorem Channel.getD_send_shut (vc : Fin 4) (m : Msg) (alt : Bool) :
    ((c.send vc m alt).getD c).ports[p] = c.ports[p] := by
  unfold Channel.send
  cases c.route m.hdr.dst with
  | none => rfl
  | some r =>
    dsimp only
    cases h : c.sendOn (if alt && r.altValid then r.alt else r.main) vc m none none with
    | none => rfl
    | some d => exact Channel.sendOn_shut hs h

theorem Channel.sendHbTo_shut (d : ChanId) (body : List Byte) : (c.sendHbTo d body).ports[p] = c.ports[p] := by
  unfold Channel.sendHbTo
  split
  · rfl
  · exact Channel.getD_send_shut hs _ _ _

theorem Channel.routeDrop_shut (j : Port) (h : MsgHdr) : Dropped c.ports[p] (c.routeDrop j h).ports[p] := by
  have counted : Dropped c.ports[p] (c.modPort j fun s => { s with routeDrop := satAdd s.routeDrop 1 }).ports[p] := by
    rw [Channel.modPort_get]
    split
    · next e =>
      subst e
      rfl
    · rfl
  have shut := counted.shut hs
  unfold Channel.routeDrop Channel.sendMnack
  dsimp only
  split
  · exact counted
  · rw [Channel.post, Channel.getD_send_shut shut]
    exact counted
end

theorem Channel.sendHbTos_shut (l : List ChanId) (body : List Byte) {p : Port} : ∀ {c : Channel}, c.ports[p].Shut →
    (l.foldl (fun c d => c.sendHbTo d body) c).ports[p] = c.ports[p] := by
  induction l with
  | nil => exact fun _ => rfl
  | cons d l ih =>
    intro c hs
    have same := Channel.sendHbTo_shut hs d body
    rw [List.foldl_cons, ih (by rw [same]; exact hs), same]

theorem Channel.sendHbBody_shut {c : Channel} {p : Port} (hs : c.ports[p].Shut) (h : Heartbeat) :
    (c.sendHbBody h).ports[p] = c.ports[p] := by
  have step {d : Channel} (hd : d.ports[p] = c.ports[p]) (l : List ChanId) (b : List Byte) :
      (l.foldl (fun c d => c.sendHbTo d b) d).ports[p] = c.ports[p] :=
    (Channel.sendHbTos_shut l b (by rw [hd]; exact hs)).trans hd
  unfold Channel.sendHbBody
  split
  · rfl
  · refine step (step ?_ _ _) _ _
    split
    · rfl
    · exact step rfl _ _

theorem Channel.reportFault_shut {c : Channel} {p : Port} (hs : c.ports[p].Shut) (cls a : Nat) :
    (c.reportFault cls a).ports[p] = c.ports[p] := by
  unfold Channel.reportFault
  dsimp only
  split
  · exact Channel.sendHbBody_shut
      (c := { c with flt := { c.flt with fclass := BitVec.ofNat 8 cls, faddr := BitVec.ofNat 48 a } }) hs _
  · rfl

/-! ### Messages in flight that fail -/

theorem PortState.map_inFlight_nil {s : PortState} (h : s.inFlight = []) (f : InFlight → InFlight) :
    { s with inFlight := s.inFlight.map f } = s := by
  cases s
  cases h
  rfl

theorem Channel.disown_port (c : Channel) (src : Src) (p : Port) : (c.disown src).ports[p] =
    { c.ports[p] with inFlight := c.ports[p].inFlight.map fun e => if e.owner = some src then { e with owner := none } else e } := by
  simp [Channel.disown]

theorem Wk.endSender_shut {w : Wk} {p : Port} (hs : w.c.ports[p].Shut) (src : Src) (st : Byte) :
    (w.endSender src st).c.ports[p] = w.c.ports[p] := by
  have disowned : (w.c.disown src).ports[p] = w.c.ports[p] := by
    rw [Channel.disown_port, PortState.map_inFlight_nil hs.none]
  unfold Wk.endSender
  split
  · dsimp only
    split
    · exact disowned
    · exact disowned
  · rfl

theorem Wk.failFlight_shut {w : Wk} {p : Port} (hs : w.c.ports[p].Shut) (e : InFlight) (st : Byte) :
    (w.failFlight e st).c.ports[p] = w.c.ports[p] := by
  unfold Wk.failFlight
  cases e.owner with
  | none => cases e.share <;> rfl
  | some src =>
    have same := Wk.endSender_shut hs src st
    cases e.share <;> exact same

theorem Wk.failFlights_shut (l : List InFlight) (st : Byte) {p : Port} : ∀ {w : Wk}, w.c.ports[p].Shut →
    (l.foldl (fun w e => w.failFlight e st) w).c.ports[p] = w.c.ports[p] := by
  induction l with
  | nil => exact fun _ => rfl
  | cons e l ih =>
    intro w hs
    have same := Wk.failFlight_shut hs e st
    rw [List.foldl_cons, ih (by rw [same]; exact hs), same]

theorem Channel.routeDrops_shut (l : List Relay) {p : Port} : ∀ {c : Channel}, c.ports[p].Shut →
    Dropped c.ports[p] (l.foldl (fun c x => c.routeDrop x.arrived x.hdr) c).ports[p] := by
  induction l with
  | nil => exact fun _ => Dropped.refl _
  | cons x l ih =>
    intro c hs
    have dropped := Channel.routeDrop_shut hs x.arrived x.hdr
    rw [List.foldl_cons]
    exact dropped.trans (ih (dropped.shut hs))

/-- A command's run, or how it has ended. -/
def Wk.Ended (w : Wk) (src : Src) (st : Byte) : Prop :=
  ∃ q, w.c.findRun src = some q ∧ q.result.map (fun res => res.status) = some st

def Wk.Runs (w : Wk) (src : Src) : Prop := ∃ r, w.c.findRun src = some r ∧ r.result = none

theorem Wk.endSender_ctr (w : Wk) (src : Src) (st : Byte) : (w.endSender src st).irqs = w.irqs := by
  unfold Wk.endSender
  split
  · dsimp only
    split <;> rfl
  · rfl

/-- The end of one command leaves the others. -/
theorem Wk.endSender_of_ne {w : Wk} {src u : Src} (h : u ≠ src) (st : Byte) :
    (w.endSender u st).c.findRun src = w.c.findRun src := by
  unfold Wk.endSender
  cases hf : w.c.findRun u with
  | none => rfl
  | some r =>
    have hsrc := Channel.findRun_src hf
    dsimp only
    split
    · exact Channel.setRun_findRun_of_ne (c := w.c.disown u) (by rw [hsrc]; exact h)
    · rfl

/-- A command that has ended stays as it ended. -/
theorem Wk.endSender_again {w : Wk} {src : Src} {q : Running} (hf : w.c.findRun src = some q) (hq : q.result.isNone = false)
    (st : Byte) : (w.endSender src st).c.findRun src = some q := by
  unfold Wk.endSender
  rw [hf]
  dsimp only
  rw [if_neg (ne_true_of_eq_false hq)]
  exact hf

theorem Wk.endShare_findRun (w : Wk) (s : Nat × Nat) (st : Byte) (src : Src) :
    (w.endShare s st).c.findRun src = w.c.findRun src := rfl

section
variable {w : Wk} {e : InFlight} {src : Src} {st : Byte}

theorem Wk.failFlight_owned {u : Src} (h : e.owner = some u) :
    (w.failFlight e st).c.findRun src = (w.endSender u st).c.findRun src := by
  unfold Wk.failFlight
  rw [h]
  cases e.share <;> rfl

theorem Wk.failFlight_free (h : e.owner = none) : (w.failFlight e st).c.findRun src = w.c.findRun src := by
  unfold Wk.failFlight
  rw [h]
  cases e.share <;> rfl

theorem Wk.failFlight_of_ne (h : e.owner ≠ some src) : (w.failFlight e st).c.findRun src = w.c.findRun src := by
  cases ho : e.owner with
  | none => exact Wk.failFlight_free ho
  | some u =>
    rw [Wk.failFlight_owned ho]
    exact Wk.endSender_of_ne (by rintro rfl; exact h ho) st

theorem Wk.Ended.failFlight (h : w.Ended src st) : (w.failFlight e st).Ended src st := by
  obtain ⟨q, hf, hq⟩ := h
  by_cases ho : e.owner = some src
  · refine ⟨q, ?_, hq⟩
    rw [Wk.failFlight_owned ho]
    refine Wk.endSender_again hf ?_ st
    cases hres : q.result with
    | none => rw [hres] at hq; nomatch hq
    | some _ => rfl
  · exact ⟨q, by rw [Wk.failFlight_of_ne ho, hf], hq⟩

theorem Wk.Ended.failFlights (l : List InFlight) : ∀ {w : Wk}, w.Ended src st →
    (l.foldl (fun w e => w.failFlight e st) w).Ended src st := by
  induction l with
  | nil => exact id
  | cons e l ih => exact fun h => ih h.failFlight

/-- The command of a message among those that fail ends. -/
theorem Wk.Runs.failFlights (l : List InFlight) : ∀ {w : Wk}, w.Runs src → (∃ e ∈ l, e.owner = some src) →
    (l.foldl (fun w e => w.failFlight e st) w).Ended src st := by
  induction l with
  | nil =>
    rintro w - ⟨e, he, -⟩
    nomatch he
  | cons x l ih =>
    rintro w ⟨r, hf, hr⟩ ⟨e, he, ho⟩
    rw [List.foldl_cons]
    by_cases hx : x.owner = some src
    · refine Wk.Ended.failFlights l ?_
      obtain ⟨q, found, status⟩ := Wk.endSender_status (st := st) hf hr
      exact ⟨q, by rw [Wk.failFlight_owned hx, found], status⟩
    · refine ih ⟨r, by rw [Wk.failFlight_of_ne hx, hf], hr⟩ ⟨e, ?_, ho⟩
      rcases List.mem_cons.mp he with rfl | he
      · exact absurd ho hx
      · exact he
end

theorem Channel.routeDrop_findRun (c : Channel) (p : Port) (h : MsgHdr) (src : Src) :
    (c.routeDrop p h).findRun src = c.findRun src := by
  rw [Channel.routeDrop, Channel.sendMnack_rest]
  rfl

theorem Channel.routeDrops_findRun (l : List Relay) (src : Src) : ∀ c : Channel,
    (l.foldl (fun c x => c.routeDrop x.arrived x.hdr) c).findRun src = c.findRun src := by
  induction l with
  | nil => exact fun _ => rfl
  | cons x l ih =>
    intro c
    rw [List.foldl_cons, ih, Channel.routeDrop_findRun]

/-! ### A port that gives up -/

/-- The port with nothing queued and nothing in flight. -/
def PortState.givenUp (s : PortState) : PortState :=
  { s with inFlight := [], relayed := [], txq := [[], [], [], []], replayBuf := [] }

section
variable {w : Wk} {p : Port}

theorem Wk.failPort_port (hs : w.c.ports[p].sendable = false) : Dropped w.c.ports[p].givenUp (w.failPort p).c.ports[p] := by
  have here : (w.c.modPort p PortState.givenUp).ports[p] = w.c.ports[p].givenUp := Channel.modPort_self _ _ _
  have shut : (w.c.modPort p PortState.givenUp).ports[p].Shut := by
    rw [here]
    exact ⟨hs, rfl⟩
  have same := Wk.failFlights_shut w.c.ports[p].inFlight 0x17 (w := { w with c := w.c.modPort p PortState.givenUp }) shut
  rw [← here, ← same]
  exact Channel.routeDrops_shut _ (by rw [same]; exact shut)

theorem Wk.failPort_ended {e : InFlight} {src : Src} {r : Running} (he : e ∈ w.c.ports[p].inFlight) (ho : e.owner = some src)
    (hf : w.c.findRun src = some r) (hr : r.result = none) : (w.failPort p).Ended src 0x17 := by
  obtain ⟨q, found, status⟩ := Wk.Runs.failFlights (st := 0x17) w.c.ports[p].inFlight
    (w := { w with c := w.c.modPort p PortState.givenUp }) (src := src) ⟨r, hf, hr⟩ ⟨e, he, ho⟩
  exact ⟨q, (Channel.routeDrops_findRun _ src _).trans found, status⟩

theorem Wk.miswired_port : ∃ n, (w.miswired p).c.ports[p] =
    { w.c.ports[p].givenUp with st := .failed, miswire := true, routeDrop := n } := by
  have dropped := Wk.failPort_port (p := p)
    (w := { w with c := w.c.modPort p fun s => { s with st := .failed, miswire := true } }) (by
      rw [Channel.modPort_self, PortState.sendable]
      exact Bool.and_false _)
  rw [Channel.modPort_self] at dropped
  exact ⟨_, dropped⟩

theorem Wk.miswired_ended {e : InFlight} {src : Src} {r : Running} (he : e ∈ w.c.ports[p].inFlight) (ho : e.owner = some src)
    (hf : w.c.findRun src = some r) (hr : r.result = none) : (w.miswired p).Ended src 0x17 := by
  refine Wk.failPort_ended (w := { w with c := w.c.modPort p fun s => { s with st := .failed, miswire := true } }) ?_ ho hf hr
  rw [Channel.modPort_self]
  exact he
end

/-- A port that has gone DOWN, before it gives up what it carries (R313). -/
def PortState.wentDown (s : PortState) : PortState :=
  { s with st := .down, retryx := true, trained := false, open_ := s.open_.filter (·.complete) }

section
variable {w : Wk} {p : Port} (hm : w.c.ports[p].mode = .polvor) (hu : w.c.ports[p].st = .up)
include hm hu

theorem Wk.portDown_eq : (w.portDown p).c =
    ((Wk.failPort { w with c := w.c.modPort p PortState.wentDown } p).c.modPort p PortState.fresh).reportFault 0x06 0 := by
  unfold Wk.portDown
  dsimp only
  rw [hm, hu]
  rfl

theorem Wk.portDown_port : ∃ n, (w.portDown p).c.ports[p] =
    { w.c.ports[p].wentDown.givenUp.fresh with routeDrop := n } := by
  have closed : (w.c.modPort p PortState.wentDown).ports[p].sendable = false := by
    rw [Channel.modPort_self, PortState.sendable]
    exact Bool.and_false _
  have dropped := Wk.failPort_port (w := { w with c := w.c.modPort p PortState.wentDown }) closed
  rw [Channel.modPort_self] at dropped
  rw [Wk.portDown_eq hm hu]
  generalize (Wk.failPort { w with c := w.c.modPort p PortState.wentDown } p).c = d at dropped
  have port : (d.modPort p PortState.fresh).ports[p] = { w.c.ports[p].wentDown.givenUp.fresh with
      routeDrop := d.ports[p].routeDrop } := by
    rw [Channel.modPort_self, dropped]
    rfl
  have shut : (d.modPort p PortState.fresh).ports[p].Shut := by
    rw [port]
    exact ⟨Bool.and_false _, rfl⟩
  rw [Channel.reportFault_shut shut, port]
  exact ⟨_, rfl⟩

theorem Wk.portDown_ended {e : InFlight} {src : Src} {r : Running} (he : e ∈ w.c.ports[p].inFlight) (ho : e.owner = some src)
    (hf : w.c.findRun src = some r) (hr : r.result = none) : (w.portDown p).Ended src 0x17 := by
  obtain ⟨q, found, status⟩ := Wk.failPort_ended (p := p) (w := { w with c := w.c.modPort p PortState.wentDown })
    (by rw [Channel.modPort_self]; exact he) ho hf hr
  refine ⟨q, ?_, status⟩
  rw [Wk.portDown_eq hm hu, Channel.findRun, (Noted.of_reported (Reported.reportFault _ 0x06 0)).running]
  exact found
end

/-! ### Replay (R312) -/

/-- The fields of a flit that a replay leaves. -/
def Flit.kept (f : Flit) : BitVec 12 × Fin 4 × W16 × BitVec 9 × List Byte := (f.seq, f.vc, f.msgid, f.frag, f.payload)

theorem replay_kept (l : List Flit) : ∀ (s : PortState) (out : List Flit),
    ∃ t fs, l.foldl (fun (x : PortState × List Flit) f => ((x.1.stamp f).1, x.2 ++ [(x.1.stamp f).2])) (s, out) = (t, out ++ fs) ∧
      fs.map Flit.kept = l.map Flit.kept ∧ t = { s with nackOut := t.nackOut, crTurn := t.crTurn } := by
  induction l with
  | nil => exact fun s out => ⟨s, [], by rw [List.append_nil]; rfl, rfl, rfl⟩
  | cons f l ih =>
    intro s out
    obtain ⟨t, fs, e, kept, same⟩ := ih (s.stamp f).1 (out ++ [(s.stamp f).2])
    refine ⟨t, (s.stamp f).2 :: fs, ?_, ?_, ?_⟩
    · rw [List.foldl_cons, e, List.append_assoc]
      rfl
    · rw [List.map_cons, kept]
      rfl
    · rw [same]
      rfl

theorem PortState.replayAll_spec (s : PortState) : ∃ fs, s.replayAll.wire = s.wire ++ fs ∧
    fs.map Flit.kept = s.replayBuf.map Flit.kept ∧ s.replayAll.cred = s.cred ∧ s.replayAll.replay = satAdd s.replay 1 ∧
    s.replayAll.replays = s.replays + 1 := by
  obtain ⟨t, fs, e, kept, same⟩ := replay_kept s.replayBuf s []
  have all : s.replayAll = { t with
      wire := t.wire ++ fs, replayBuf := fs, replay := satAdd t.replay 1, replays := t.replays + 1 } := by
    unfold PortState.replayAll
    rw [show s.replayBuf.foldl _ (s, []) = (t, [] ++ fs) from e]
    rfl
  refine ⟨fs, ?_, kept, ?_, ?_, ?_⟩ <;> rw [all, same]

section
variable {w : Wk} {p : Port} (hu : w.c.ports[p].st = .up) (hb : w.c.ports[p].replayBuf ≠ [])
include hu hb

theorem Wk.replay_again (hr : w.c.ports[p].replays < 16) :
    w.replay p = { w with c := w.c.modPort p PortState.replayAll } := by
  unfold Wk.replay
  dsimp only
  rw [if_neg (by simp [hu, hb, -Fin.getElem_fin]), if_neg (Nat.not_le.mpr hr)]

theorem Wk.replay_down (hr : 16 ≤ w.c.ports[p].replays) : w.replay p = w.portDown p := by
  unfold Wk.replay
  dsimp only
  rw [if_neg (by simp [hu, hb, -Fin.getElem_fin]), if_pos hr]
end

/-! ### A port that comes UP -/

/-- A port without queued flits comes UP with the peer's credits as they are. -/
theorem PortState.goUp_empty {s : PortState} (h : s.txq = [[], [], [], []]) {cr : List W16} (hl : cr.length = 4) :
    s.goUp cr = { s with st := .up, trained := true, cred := cr } := by
  have credits : (List.range 4).map (fun i => cr.getD i 0) = cr := by
    refine List.ext_getElem (by simpa using hl.symm) fun i hi hj => ?_
    simp [hj]
  unfold PortState.goUp PortState.pump
  dsimp only
  rw [credits, h]
  rfl

theorem PortState.goUp_state (s : PortState) (cr : List W16) : (s.goUp cr).st = .up ∧ (s.goUp cr).miswire = s.miswire := by
  have pumped := Pumped.pump ({ s with st := .up, trained := true, cred := (List.range 4).map fun i => cr.getD i 0 } : PortState)
  change Pumped _ (s.goUp cr) at pumped
  rw [pumped]
  exact ⟨rfl, rfl⟩

/-! ### The operations -/

section
variable {c : Channel} {p : Port}

theorem linkTrainingDone_polvor (hm : c.ports[p].mode = .polvor) (hs : c.ports[p].st = .training)
    (ht : c.ports[p].trained = false) :
    linkTrainingDone c p = (c.modPort p fun s => { s with trained := true }).sendControl p .none := by
  unfold linkTrainingDone
  dsimp only
  rw [hm, hs, ht]
  rfl

theorem linkTrainingDone_ethernet (hm : c.ports[p].mode = .ethernet) (hs : c.ports[p].st = .training) :
    linkTrainingDone c p = c.modPort p fun s => { s with trained := true, st := .up } := by
  unfold linkTrainingDone
  dsimp only
  rw [hm, hs]
  rfl

theorem PortState.isPeer_iff {s : PortState} {peer : ChanId} {pp : Port} :
    s.isPeer peer pp = true ↔ peer = s.peerChan ∧ pp.val = s.peerPort.toNat := by
  rw [PortState.isPeer, Bool.and_eq_true, beq_iff_eq, beq_iff_eq]

variable {peer : ChanId} {pp : Port} {cr : List W16} {v : Verdict}

section
variable (hm : c.ports[p].mode = .polvor) (hd : c.ports[p].st = .down)
include hm hd

theorem portRetrained_up (hp : c.ports[p].isPeer peer pp = true) : portRetrained c p peer pp cr .isMatch =
    ((c.modPort p PortState.fresh).sendControl p .isMatch).modPort p fun s => s.goUp cr := by
  unfold portRetrained
  dsimp only
  rw [hm, hd, hp]
  rfl

theorem portRetrained_down (hp : (c.ports[p].isPeer peer pp && v == .isMatch) = false) : ∃ u,
    portRetrained c p peer pp cr v = (c.modPort p PortState.fresh).sendControl p u := by
  unfold portRetrained
  dsimp only
  rw [hm, hd, hp]
  exact ⟨_, rfl⟩
end

variable {w : Wk} (hm : w.c.ports[p].mode = .polvor) (hs : w.c.ports[p].st = .training) (ht : w.c.ports[p].trained = true)
include hm hs ht

theorem linkControlFlit_stranger (hp : w.c.ports[p].isPeer peer pp = false) :
    linkControlFlit w p peer pp cr v = (w.miswired p).mod fun c => c.sendControl p .mismatch := by
  unfold linkControlFlit
  dsimp only
  rw [hm, hs, ht, hp]
  rfl

theorem linkControlFlit_peer (hp : w.c.ports[p].isPeer peer pp = true) :
    linkControlFlit w p peer pp cr .mismatch = w.miswired p ∧
    linkControlFlit w p peer pp cr .none = (w.mod fun c => c.sendControl p .isMatch) ∧
    linkControlFlit w p peer pp cr .isMatch = w.mod fun c => (c.sendControl p .isMatch).modPort p fun s => s.goUp cr := by
  unfold linkControlFlit
  dsimp only
  rw [hm, hs, ht, hp]
  exact ⟨rfl, rfl, rfl⟩

/-- A peer or a verdict that does not fit makes the port FAILED. -/
theorem linkControlFlit_fails (h : w.c.ports[p].isPeer peer pp = false ∨ v = .mismatch) :
    ∃ f : Flit, ∃ b : Bool, (linkControlFlit w p peer pp cr v).c =
      if b then (w.miswired p).c.modPort p fun s => s.stamped f else (w.miswired p).c := by
  cases hp : w.c.ports[p].isPeer peer pp with
  | false =>
    obtain ⟨f, -, e⟩ := (w.miswired p).c.sendControl_port p .mismatch
    refine ⟨f, true, ?_⟩
    rw [linkControlFlit_stranger hm hs ht hp]
    exact e
  | true =>
    rw [hp] at h
    obtain rfl := h.resolve_left nofun
    exact ⟨idleFlit, false, by rw [(linkControlFlit_peer hm hs ht hp).1]; rfl⟩
end

theorem State.statusOf_ended {s : State} {ch : Ch} {w : Wk} {src : Src} {st : Byte} (h : w.Ended src st) :
    (s.after ch w).statusOf ch src = some st := by
  obtain ⟨q, found, status⟩ := h
  rw [State.statusOf, State.after_self_findRun, found]
  exact status

/-- Settles O33, row by row. -/
theorem linkLife : Obligations.LinkLife := by
  unfold Obligations.LinkLife
  refine ⟨?_, ?_⟩
  · rintro s ch p c x peer pp cr v hc hu rfl hs
    have work : (s.work ch).c = c := hc
    refine ⟨fun hm ht => ?_, fun hm => exec_modUp hc hu rfl (linkTrainingDone_ethernet hm hs), fun hm ht => ⟨fun hbad => ?_,
      fun hpeer hport => ⟨?_, ?_⟩⟩⟩
    · obtain ⟨f, hk, e⟩ := (c.modPort p fun s => { s with trained := true }).sendControl_port p .none
      have row := exec_modUp (i := .linkTrainingDone ch p) hc hu rfl ((linkTrainingDone_polvor hm hs ht).trans e)
      obtain ⟨g, wire, kind⟩ := PortState.stamped_wire { c.ports[p] with trained := true } f
      refine ⟨_, row, ?_, ?_, g, ?_, kind.trans hk⟩
      · rw [Channel.modPort_self, Channel.modPort_self]
        rfl
      · rw [Channel.modPort_self, Channel.modPort_self]
        exact hs
      · rw [Channel.modPort_self, Channel.modPort_self]
        exact wire
    · have bad : (s.work ch).c.ports[p].isPeer peer pp = false ∨ v = .mismatch := by
        rw [work, ← Bool.not_eq_true, PortState.isPeer_iff, not_and_or, or_assoc]
        exact hbad
      rw [← work] at hm hs ht
      obtain ⟨f, b, fails⟩ := linkControlFlit_fails (cr := cr) hm hs ht bad
      obtain ⟨n, port⟩ := Wk.miswired_port (w := s.work ch) (p := p)
      have row : exec (.linkControlFlit ch p peer pp cr v) s = .next (s.after ch (linkControlFlit (s.work ch) p peer pp cr v)) :=
        congrArg _ (onUp_eq (by rw [hc]; exact hu) _)
      refine ⟨_, row, ?_⟩
      have ends : (s.after ch (linkControlFlit (s.work ch) p peer pp cr v)).chans[ch].ports[p].st = .failed ∧
          (s.after ch (linkControlFlit (s.work ch) p peer pp cr v)).chans[ch].ports[p].miswire = true ∧
          (s.after ch (linkControlFlit (s.work ch) p peer pp cr v)).chans[ch].ports[p].txq = [[], [], [], []] ∧
          (s.after ch (linkControlFlit (s.work ch) p peer pp cr v)).chans[ch].ports[p].inFlight = [] := by
        rw [State.after_self]
        dsimp only
        rw [fails]
        cases b with
        | true =>
          rw [if_pos rfl, Channel.modPort_self, port]
          exact ⟨rfl, rfl, rfl, rfl⟩
        | false =>
          rw [if_neg Bool.false_ne_true, port]
          exact ⟨rfl, rfl, rfl, rfl⟩
      obtain ⟨st, miswire, txq, inFlight⟩ := ends
      refine ⟨st, miswire, txq, inFlight, fun e src r he ho hf hr => State.statusOf_ended ?_⟩
      rw [← work] at he hf
      obtain ⟨q, found, status⟩ := Wk.miswired_ended he ho hf hr
      refine ⟨q, ?_, status⟩
      rw [fails]
      cases b <;> exact found
    · rintro rfl hl
      have peers : (s.work ch).c.ports[p].isPeer peer pp = true := by
        rw [work]
        exact PortState.isPeer_iff.mpr ⟨hpeer, hport⟩
      rw [← work] at hm hs ht
      have up := (linkControlFlit_peer (cr := cr) hm hs ht peers).2.2
      rw [work] at hm hs ht
      obtain ⟨f, -, e⟩ := (s.work ch).c.sendControl_port p .isMatch
      rw [Wk.mod, e, Channel.modPort_modPort, work] at up
      obtain ⟨st, miswire⟩ := PortState.goUp_state (c.ports[p].stamped f) cr
      refine ⟨_, exec_onUp hc hu rfl up, ?_, ?_, fun hq => ?_⟩
      · rw [Channel.modPort_self, st]
      · rw [Channel.modPort_self, miswire]
        rfl
      · rw [Channel.modPort_self, PortState.goUp_empty (s := c.ports[p].stamped f) hq hl]
    · rintro rfl
      have peers : (s.work ch).c.ports[p].isPeer peer pp = true := by
        rw [work]
        exact PortState.isPeer_iff.mpr ⟨hpeer, hport⟩
      rw [← work] at hm hs ht
      have answers := (linkControlFlit_peer (cr := cr) hm hs ht peers).2.1
      rw [work] at hm hs ht
      obtain ⟨f, hk, e⟩ := (s.work ch).c.sendControl_port p .isMatch
      rw [Wk.mod, e, work] at answers
      obtain ⟨g, wire, kind⟩ := PortState.stamped_wire c.ports[p] f
      refine ⟨_, exec_onUp hc hu rfl answers, ?_, g, ?_, kind.trans hk⟩
      · rw [Channel.modPort_self]
        exact hs
      · rw [Channel.modPort_self, wire]
  · rintro s ch p c x f peer pp cr v hc hu rfl hm
    have work : (s.work ch).c = c := hc
    refine ⟨fun hs => ?_, fun hs hq hpeer hport hv hl => ?_, fun hs hbad => ?_, fun hs hb hr => ?_, fun hs hb hr => ?_,
      fun hs hn hb hbuf hr => ?_⟩
    · have row : exec (.portDown ch p) s = .next (s.after ch ((s.work ch).portDown p)) :=
        congrArg _ (onUp_eq (by rw [hc]; exact hu) _)
      rw [← work] at hm hs
      obtain ⟨n, port⟩ := Wk.portDown_port hm hs
      have here : (s.after ch ((s.work ch).portDown p)).chans[ch].ports[p] =
          { (s.work ch).c.ports[p].wentDown.givenUp.fresh with routeDrop := n } := by
        rw [State.after_self]
        exact port
      refine ⟨_, row, by rw [here]; rfl, by rw [here]; rfl, by rw [here]; rfl, by rw [here]; rfl, by rw [here]; rfl, ?_,
        fun e src r he ho hf hr => State.statusOf_ended ?_⟩
      · rw [here, work]
        rfl
      · rw [← work] at he hf
        exact Wk.portDown_ended hm hs he ho hf hr
    · subst hv
      obtain ⟨g, -, e⟩ := (c.modPort p PortState.fresh).sendControl_port p .isMatch
      have up := portRetrained_up (cr := cr) hm hs (PortState.isPeer_iff.mpr ⟨hpeer, hport⟩)
      rw [e, Channel.modPort_modPort, Channel.modPort_modPort] at up
      have port : (c.modPort p fun s => (s.fresh.stamped g).goUp cr).ports[p] =
          { c.ports[p].fresh.stamped g with st := .up, trained := true, cred := cr } := by
        rw [Channel.modPort_self, PortState.goUp_empty (s := c.ports[p].fresh.stamped g) hq hl]
      refine ⟨_, exec_modUp hc hu rfl up, ?_⟩
      rw [port]
      exact ⟨rfl, rfl, rfl, rfl, rfl⟩
    · obtain ⟨u, down⟩ := portRetrained_down (cr := cr) (v := v) (peer := peer) (pp := pp) hm hs (by
        rw [Bool.and_eq_false_iff, ← Bool.not_eq_true, PortState.isPeer_iff, not_and_or, or_assoc, beq_eq_false_iff_ne]
        exact hbad)
      obtain ⟨g, -, e⟩ := (c.modPort p PortState.fresh).sendControl_port p u
      rw [e, Channel.modPort_modPort] at down
      refine ⟨_, exec_modUp hc hu rfl down, ?_, ?_⟩
      · rw [Channel.modPort_self]
        exact hs
      · rw [Channel.modPort_self]
        rfl
    · rw [← work] at hs hb hr
      have again := Wk.replay_again hs hb hr
      rw [work] at again hs hb hr
      obtain ⟨fs, wire, kept, cred, replay, replays⟩ := c.ports[p].replayAll_spec
      refine ⟨_, fs, exec_onUp hc hu rfl again, ?_, kept, ?_, ?_, ?_⟩
      · rw [Channel.modPort_self, wire]
      · rw [Channel.modPort_self, cred]
      · rw [Channel.modPort_self, replay]
      · rw [Channel.modPort_self, replays]
    · rw [← work] at hs hb hr
      have up : s.chans[ch].up = true := by rw [hc]; exact hu
      have one : exec (.ackTimeout ch p) s = .next (s.after ch ((s.work ch).replay p)) := congrArg _ (onUp_eq up _)
      have other : exec (.portDown ch p) s = .next (s.after ch ((s.work ch).portDown p)) := congrArg _ (onUp_eq up _)
      rw [one, other, Wk.replay_down hs hb hr]
    · have taken : ({ s.work ch with c := (s.work ch).c.modPort p fun s => s.takeHeader f } : Wk).replay p =
          { s.work ch with c := c.modPort p fun y => (y.takeHeader f).replayAll } := by
        rw [work]
        rw [Wk.replay_again (w := { s.work ch with c := c.modPort p fun s => s.takeHeader f })]
        · rw [Channel.modPort_modPort]
        · rw [Channel.modPort_self, (PortState.takeHeader_rx _ _).2.2.1, hs]
        · rw [Channel.modPort_self]
          exact hbuf
        · rw [Channel.modPort_self]
          exact hr
      refine exec_onUp hc hu rfl ((if_pos ?_).trans taken)
      rw [work, hs, hn, hb]
      rfl

end Sys2Proof.Machine
end

