-- ==== Sys2Proof/Proofs/Resets.lean ====
section
/-!
SUPPORT. The four resets of one channel (18 R410): what the channel is after one, and that nothing else of the module
changes.
-/
namespace Sys2Proof.Machine

open Sys2Proof

/-- A byte of memory of which only the cells below n are kept. -/
theorem Mem.byte_below (d : Byte) (m : Mem) (n a : Nat) :
    Mem.byte d (m.filter fun x => decide (x.1 < n)) a = if a < n then Mem.byte d m a else d := by
  unfold Mem.byte
  split
  · next h => rw [Mem.lookup_filter_true (p := fun x => decide (x.1 < n)) (by simpa using h)]
  · next h =>
    rw [Mem.lookup_none fun c hc => by have := (List.mem_filter.mp hc).2; simp only [decide_eq_true_eq] at this; omega]
    rfl

/-- A channel reset that is over at once leaves d of c; what function 0's HOLD bit says is told apart. -/
structure Restarts (c d : Channel) : Prop where
  life : d.boot.life = .booting
  cause : d.boot.cause = .none
  bytes : ∀ a, Mem.byte 0 d.mem a = if a < dramSize then Mem.byte 0 c.mem a else 0
  table : d.table = c.table
  queues : d.queues = Vector.replicate 160 {}
  sems : d.sems = Vector.replicate 256 0
  running : d.running = []
  floes : d.floes = []
  stp : d.stp = {}
  flt : d.flt = {}
  frz : d.frz = {}
  flash : c.boot.flBusy = false → d.boot.flash = c.boot.flash
  fsvn : d.boot.fsvn = c.boot.fsvn
  bmcHold : d.boot.bmcHold = c.boot.bmcHold
  limit : d.boot.hss.limit = c.boot.hss.limit
  allow : d.gov.allow = c.gov.allow
  time : ∃ n, d.gov.time = c.gov.time + BitVec.ofNat 64 n
  resetTime : d.gov.resetTime = d.gov.time

/-- Cutting off a flash command changes nothing but the flash, its BUSY bit and the slots written in part. -/
theorem Wk.tear_rest (w : Wk) : w.tear = { w with
    c := { w.c with boot := { w.c.boot with flash := w.tear.c.boot.flash, flBusy := w.tear.c.boot.flBusy, torn := w.tear.c.boot.torn } }
    ctr := w.tear.ctr } := by
  unfold Wk.tear
  dsimp only
  split <;> rfl

theorem Wk.tear_idle {w : Wk} (h : w.c.boot.flBusy = false) : w.tear = w := by
  unfold Wk.tear
  dsimp only
  rw [h]
  rfl

theorem Wk.reset_release_restarts (w : Wk) : Restarts w.c w.reset.release.c where
  life := rfl
  cause := rfl
  bytes a := by
    have e : w.reset.release.c.mem = w.tear.c.mem.filter fun x => decide (x.1 < dramSize) := rfl
    rw [e, Wk.tear_rest]
    exact Mem.byte_below 0 w.c.mem dramSize a
  table := by
    change w.tear.c.table = _
    rw [Wk.tear_rest]
  queues := rfl
  sems := rfl
  running := rfl
  floes := rfl
  stp := rfl
  flt := rfl
  frz := rfl
  flash h := by
    change w.tear.c.boot.flash = _
    rw [Wk.tear_idle h]
  fsvn := by
    change w.tear.c.boot.fsvn = _
    rw [Wk.tear_rest]
  bmcHold := by
    change w.tear.c.boot.bmcHold = _
    rw [Wk.tear_rest]
  limit := by
    change w.tear.c.boot.hss.limit = _
    rw [Wk.tear_rest]
  allow := by
    change w.tear.c.gov.allow = _
    rw [Wk.tear_rest]
  time := by
    refine ⟨Config.elapsed w.reset.ctr, ?_⟩
    change w.tear.c.gov.time + _ = _
    rw [Wk.tear_rest]
  resetTime := rfl

theorem Wk.reset_release_hostHold (w : Wk) : w.reset.release.c.boot.hostHold = w.c.boot.hostHold := by
  change w.tear.c.boot.hostHold = _
  rw [Wk.tear_rest]

/-- A reset sends no message of its own. -/
theorem Wk.reset_release_irqs (w : Wk) : w.reset.release.irqs = w.irqs := by
  change w.tear.irqs = _
  rw [Wk.tear_rest]

/-- What an operation leaves that sends no message. -/
theorem State.after_quiet {s : State} {ch : Ch} {w : Wk} (h : w.irqs = []) :
    s.after ch w = { s.put ch w.c with freeCtr := w.ctr } := by
  simp [State.after, State.put, h]

theorem State.resetChan_eq (s : State) (ch : Ch) : s.resetChan ch =
    { s.put ch (s.work ch).reset.release.c with freeCtr := (s.work ch).reset.release.ctr } :=
  (s.onCh_eq ch _).trans (State.after_quiet (s.work ch).reset_release_irqs)

theorem State.resetChan_of_ne (s : State) {ch k : Ch} (h : k ≠ ch) : (s.resetChan ch).chans[k] = s.chans[k] := by
  rw [State.resetChan_eq]
  exact (s.put_chan ch k _).trans (if_neg h)

theorem State.resetChan_bridge (s : State) (ch : Ch) : (s.resetChan ch).bridge = s.bridge := by
  rw [State.resetChan_eq]
  rfl

theorem State.resetChan_self (s : State) (ch : Ch) : (s.resetChan ch).chans[ch] = { (s.work ch).reset.release.c with
    poisonHit := s.chans[ch].poisonHit, waitHit := s.chans[ch].waitHit } := by
  rw [State.resetChan_eq]
  exact s.put_self ch _

theorem State.resetChan_restarts (s : State) (ch : Ch) : Restarts s.chans[ch] (s.resetChan ch).chans[ch] := by
  rw [State.resetChan_self]
  obtain ⟨⟩ := (s.work ch).reset_release_restarts
  constructor <;> assumption

theorem State.resetChan_hostHold (s : State) (ch : Ch) :
    (s.resetChan ch).chans[ch].boot.hostHold = s.chans[ch].boot.hostHold := by
  rw [State.resetChan_self]
  exact (s.work ch).reset_release_hostHold

/-- A channel whose boot state alone differs, and there only in what function 0 holds of it. -/
def Channel.heldBy (c : Channel) (hold own : Bool) : Channel :=
  { c with boot := { c.boot with hostHold := hold, flown := own } }

theorem Restarts.of_heldBy {c d : Channel} {hold own : Bool} (h : Restarts (c.heldBy hold own) d) : Restarts c d := by
  obtain ⟨⟩ := h
  constructor <;> assumption

/-- What a write of HBD_CH_CTRL gives FLOWN. -/
def Boot.claim (b : Boot) (w : RegWrite) : Bool :=
  if b.life = .held ∧ ¬(b.fwUpdate = true ∧ b.flown = false) then w.value.getLsbD 2 else b.flown

theorem touches_of_enable {w : RegWrite} (h : w.enable.getLsbD 0 = true) : touches w 4 = true := by
  unfold touches
  have h : w.enable.toNat.testBit 0 = true := h
  rw [Nat.testBit_zero, decide_eq_true_eq] at h
  simp only [bne_iff_ne]
  omega

/-- A bit of the lowest byte of a merged value, where that byte is written. -/
theorem merge_testBit_low {w : RegWrite} (h : w.enable.getLsbD 0 = true) (old : Nat) {j : Nat} (hj : j < 8) :
    (merge w 4 old).testBit j = w.value.getLsbD j := by
  have e := merge_byte w (n := 4) (i := 0) (by decide) old
  have h : w.enable.toNat.testBit 0 = true := h
  rw [if_pos h, Nat.pow_zero, Nat.div_one, Nat.div_one] at e
  have low (x : Nat) : x.testBit j = (x % 256).testBit j := by
    rw [show (256 : Nat) = 2 ^ 8 from rfl, Nat.testBit_mod_two_pow, decide_eq_true hj, Bool.true_and]
  rw [low, e, ← low]
  rfl

/-- A write of the lowest byte of HBD_CH_CTRL while function 0 answers. -/
theorem writeChCtrl_eq {s : State} {ch : Ch} {w : RegWrite} {c : Channel} (hc : s.chans[ch] = c) (hf : s.function0 = true)
    (he : w.enable.getLsbD 0 = true) : writeChCtrl s ch w =
      if w.value.getLsbD 1 = true then (s.put ch (c.heldBy (w.value.getLsbD 0) (c.boot.claim w))).resetChan ch
      else s.put ch (c.heldBy (w.value.getLsbD 0) (c.boot.claim w)) := by
  subst hc
  have flown : (if (s.chans[ch].boot.life != .held || !w.enable.getLsbD 0) = true then s.chans[ch].boot.flown
      else (merge w 4 (b2n s.chans[ch].boot.hostHold + 4 * b2n s.chans[ch].boot.flown)).testBit 2 &&
        !(s.chans[ch].boot.fwUpdate && !s.chans[ch].boot.flown)) = s.chans[ch].boot.claim w := by
    rw [merge_testBit_low he _ (by decide), he]
    unfold Boot.claim
    generalize s.chans[ch].boot = b
    by_cases hl : b.life = .held <;> cases hu : b.fwUpdate <;> cases ho : b.flown <;> simp [hl]
  unfold writeChCtrl
  dsimp only
  rw [hf, touches_of_enable he, flown, merge_testBit_low he _ (by decide), he, State.modCh_eq]
  rfl

theorem writeChCtrl_off {s : State} (hf : s.function0 = false) (ch : Ch) (w : RegWrite) : writeChCtrl s ch w = s := by
  unfold writeChCtrl
  dsimp only
  rw [hf]
  rfl

/-- Channel ch is reset, from a state in which at most its own boot state was changed first. -/
structure ResetOf (s : State) (ch : Ch) (hold : Bool) (u : State) : Prop where
  bridge : u.bridge = s.bridge
  others : ∀ k : Ch, k ≠ ch → u.chans[k] = s.chans[k]
  restarts : Restarts s.chans[ch] u.chans[ch]
  hostHold : u.chans[ch].boot.hostHold = hold

theorem State.resetChan_resetOf (s : State) (ch : Ch) : ResetOf s ch s.chans[ch].boot.hostHold (s.resetChan ch) :=
  ⟨s.resetChan_bridge ch, fun _ h => s.resetChan_of_ne h, s.resetChan_restarts ch, s.resetChan_hostHold ch⟩

/-- So it is after a write of HBD_CH_CTRL with RESET. -/
theorem writeChCtrl_resetOf {s : State} {ch : Ch} {w : RegWrite} (hf : s.function0 = true) (he : w.enable.getLsbD 0 = true)
    (hr : w.value.getLsbD 1 = true) : ResetOf s ch (w.value.getLsbD 0) (writeChCtrl s ch w) := by
  rw [writeChCtrl_eq rfl hf he, if_pos hr]
  obtain ⟨hb, ho, hd, hh⟩ := (s.put ch (s.chans[ch].heldBy (w.value.getLsbD 0) (s.chans[ch].boot.claim w))).resetChan_resetOf ch
  have self : (s.put ch (s.chans[ch].heldBy (w.value.getLsbD 0) (s.chans[ch].boot.claim w))).chans[ch] =
      s.chans[ch].heldBy (w.value.getLsbD 0) (s.chans[ch].boot.claim w) := s.put_self ch _
  rw [self] at hd hh
  refine ⟨hb, fun k hk => (ho k hk).trans ?_, hd.of_heldBy, hh⟩
  rw [State.put_chan, if_neg hk]

theorem exec_functionLevelReset {s : State} {ch : Ch} (hf : s.function0 = true) (hu : s.chans[ch].up = true) :
    exec (.functionLevelReset ch) s = .next (s.resetChan ch) := by
  change Host.Outcome.next (if (s.function0 && s.chans[ch].up) = true then s.resetChan ch else s) = _
  rw [hf, hu]
  rfl

theorem exec_bootCtrlReset {s : State} {ch : Ch} {w : RegWrite} (hh : s.hostOk ch = true) (he : w.enable.getLsbD 0 = true)
    (hv : w.value.toNat % 256 = 0xA5) : exec (.bootCtrlReset ch w) s = .next (s.resetChan ch) := by
  have bits : enabledBits w 1 = 0xA5 := by
    have he : w.enable.toNat.testBit 0 = true := he
    rw [enabledBits, merge, mergeGo, mergeGo, if_pos he, Nat.pow_zero, Nat.div_one, hv]
  change Host.Outcome.next (if (s.hostOk ch && w.enable.getLsbD 0 && enabledBits w 1 == 0xA5) = true then s.resetChan ch else s) = _
  rw [hh, he, bits]
  rfl

theorem exec_pldmReset {s : State} {ch : Ch} (h : s.reaches (.channel ch) .mctp = true) :
    exec (.pldmReset ch) s = .next (s.resetChan ch) := by
  change Host.Outcome.next (if s.reaches (.channel ch) .mctp = true then s.resetChan ch else s) = _
  rw [if_pos h]

/-- Settles O54: each of the four rows resets the channel, HBD_CH_RESET after it has taken the HOLD bit written. -/
theorem resets : Obligations.Resets := by
  unfold Obligations.Resets
  intro s ch w i c hc hi
  subst hc
  have reset : ∃ u, exec i s = .next u ∧
      ResetOf s ch (if i = .hbdChReset ch w then w.value.getLsbD 0 else s.chans[ch].boot.hostHold) u := by
    obtain ⟨rfl, hf, hu⟩ | ⟨rfl, hh, he, hv⟩ | ⟨rfl, hf, he, hr⟩ | ⟨rfl, h⟩ := hi
    · exact ⟨_, exec_functionLevelReset hf hu, by rw [if_neg nofun]; exact s.resetChan_resetOf ch⟩
    · exact ⟨_, exec_bootCtrlReset hh he hv, by rw [if_neg nofun]; exact s.resetChan_resetOf ch⟩
    · exact ⟨writeChCtrl s ch w, rfl, by rw [if_pos rfl]; exact writeChCtrl_resetOf hf he hr⟩
    · exact ⟨_, exec_pldmReset h, by rw [if_neg nofun]; exact s.resetChan_resetOf ch⟩
  obtain ⟨u, hu, hb, ho, hd, hh⟩ := reset
  obtain ⟨⟩ := hd
  refine ⟨u, u.chans[ch], hu, rfl, hb, ho, ?_⟩
  refine ⟨?_, ?_, ?_, ?_, ?_, ?_, ?_, ?_, ?_, ?_, ?_, ?_, ?_, ?_, ?_, ?_, ?_, ?_, hh⟩ <;> assumption

/-! ### The flash through function 0 -/

namespace FlashCounterexample

/-- Flash whose cells are out of order: the byte at 0 is 2, and a read of one byte from 0 on gives 0xFF. -/
def flash : Mem := [(1, 1), (0, 2)]

/-- A channel on which function 0's read of the flash at 0 runs. -/
def channel : Channel := { boot := { life := .held, flown := true, flOp := 1, flBusy := true, flash := flash } }

/-- The module, powered. -/
def state : State := { State.reset.put 0 channel with bridge := { State.reset.bridge with switchClosed := true, pgood := true } }

theorem state_channel : state.chans[(0 : Ch)] = channel := by
  change (State.reset.put 0 channel).chans[(0 : Ch)] = channel
  rw [State.put_self]
  rfl

/-- The first byte read is not the byte of the flash. -/
theorem byte_read : (channel.boot.flashBytes 1 0 4096)[0]? ≠ some (Mem.byte 0xFF channel.boot.flash 0) := by
  have first : (Mem.read 0xFF flash 0 4096)[0]? = some 0xFF := rfl
  have id : (channel.boot.flashBytes 1 0 4096)[0]? = some 0xFF := by
    rw [Boot.flashBytes, List.getElem?_map, List.getElem?_zipIdx]
    change ((Mem.read 0xFF flash 0 4096)[0]?.map _).map _ = _
    rw [first]
    rfl
  rw [id]
  decide

end FlashCounterexample

open FlashCounterexample in
/-- Refutes O55: it has a read of the flash give the bytes one by one in every state, and fails where the cells of the
flash are out of order, as in `FlashCounterexample.state`. -/
theorem not_flashThroughFunction0 : ¬ Obligations.FlashThroughFunction0 := by
  unfold Obligations.FlashThroughFunction0
  intro h
  obtain ⟨-, -, -, done, -⟩ := h state 0 ⟨0, 0⟩ (.flashCommandDone 0) 0 0 channel channel.boot state_channel rfl rfl
  obtain ⟨-, kept⟩ := done rfl rfl
  obtain ⟨d, -, -, -, -, -, read, -⟩ := kept rfl
  have byte := read 0
  rw [if_pos (by decide), if_neg (by decide)] at byte
  exact byte_read byte

end Sys2Proof.Machine
end

