-- ==== Sys2Proof/Proofs/Clocks.lean ====
section
/-!
SUPPORT. Clocks (17 R374 to R386): the highest code that fits, a core moved to a code, and what each operation on the clocks
of a channel leaves of its cores.
-/
namespace Sys2Proof.Machine

open Sys2Proof

/-! ### Greatest and least of a list -/

theorem le_foldl_max {a n : Nat} : ∀ {l : List Nat}, n ∈ a :: l → n ≤ l.foldl max a
  | [], h => (List.mem_singleton.mp h).le
  | b :: l, h => by
    rw [List.foldl_cons]
    rcases List.mem_cons.mp h with rfl | h
    · exact (le_max_left n b).trans (le_foldl_max (l := l) List.mem_cons_self)
    · rcases List.mem_cons.mp h with rfl | h
      · exact (le_max_right a n).trans (le_foldl_max (l := l) List.mem_cons_self)
      · exact le_foldl_max (List.mem_cons_of_mem _ h)

theorem foldl_max_mem (a : Nat) (l : List Nat) : l.foldl max a ∈ a :: l := by
  induction l generalizing a with
  | nil => simp
  | cons b l ih =>
    rw [List.foldl_cons]
    rcases List.mem_cons.mp (ih (max a b)) with h | h
    · rw [h]
      rcases le_total a b with hab | hab
      · rw [max_eq_right hab]
        simp
      · rw [max_eq_left hab]
        simp
    · simp [h]

theorem foldl_min_le {a n : Nat} : ∀ {l : List Nat}, n ∈ a :: l → l.foldl min a ≤ n
  | [], h => (List.mem_singleton.mp h).ge
  | b :: l, h => by
    rw [List.foldl_cons]
    rcases List.mem_cons.mp h with rfl | h
    · exact (foldl_min_le (l := l) List.mem_cons_self).trans (min_le_left n b)
    · rcases List.mem_cons.mp h with rfl | h
      · exact (foldl_min_le (l := l) List.mem_cons_self).trans (min_le_right a n)
      · exact foldl_min_le (List.mem_cons_of_mem _ h)

theorem foldl_min_mem (a : Nat) (l : List Nat) : l.foldl min a ∈ a :: l := by
  induction l generalizing a with
  | nil => simp
  | cons b l ih =>
    rw [List.foldl_cons]
    rcases List.mem_cons.mp (ih (min a b)) with h | h
    · rw [h]
      rcases le_total a b with hab | hab
      · rw [min_eq_left hab]
        simp
      · rw [min_eq_right hab]
        simp
    · simp [h]

theorem le_foldl_min {a n : Nat} {l : List Nat} (h : ∀ m ∈ a :: l, n ≤ m) : n ≤ l.foldl min a := h _ (foldl_min_mem a l)

/-! ### The highest code that fits -/

section
variable {top : Nat} {p : Nat → Bool}

theorem mem_codes {k : Nat} : k ∈ ((List.range 65).map (24 + ·)).filter (fun k => decide (k ≤ top) && p k) ↔
    24 ≤ k ∧ k ≤ 88 ∧ k ≤ top ∧ p k = true := by
  simp only [List.mem_filter, List.mem_map, List.mem_range, Bool.and_eq_true, decide_eq_true_eq]
  constructor
  · rintro ⟨⟨a, ha, rfl⟩, ht, hp⟩
    exact ⟨by omega, by omega, ht, hp⟩
  · rintro ⟨hl, hh, ht, hp⟩
    exact ⟨⟨k - 24, by omega, by omega⟩, ht, hp⟩

theorem highest_cases : highest top p = 24 ∨
    24 ≤ highest top p ∧ highest top p ≤ 88 ∧ highest top p ≤ top ∧ p (highest top p) = true :=
  (List.mem_cons.mp (foldl_max_mem 24 _)).imp_right mem_codes.mp

theorem highest_ge : 24 ≤ highest top p := le_foldl_max List.mem_cons_self

theorem highest_le : highest top p ≤ 88 := by
  have := highest_cases (top := top) (p := p)
  omega

theorem highest_le_top : highest top p ≤ max 24 top := by
  have := highest_cases (top := top) (p := p)
  omega

theorem highest_fits : p (highest top p) = true ∨ highest top p = 24 :=
  highest_cases.symm.imp_left fun ⟨_, _, _, h⟩ => h

theorem le_highest {k : Nat} (hl : 24 ≤ k) (hh : k ≤ 88) (ht : k ≤ top) (hp : p k = true) : k ≤ highest top p :=
  le_foldl_max (List.mem_cons_of_mem _ (mem_codes.mpr ⟨hl, hh, ht, hp⟩))
end

/-! ### A core moved to a code -/

@[simp] theorem clampCode_toNat (k : Nat) : (clampCode k).toNat = max 24 (min k 88) := by
  rw [clampCode, BitVec.toNat_ofNat]
  omega

/-- y is x with at most another frequency and voltage. -/
def CorePower.Tuned (x y : CorePower) : Prop := y = { x with f := y.f, volt := y.volt }

namespace CorePower.Tuned

variable {x y z : CorePower}

theorem refl (x : CorePower) : x.Tuned x := rfl

theorem trans (h : x.Tuned y) (h' : y.Tuned z) : x.Tuned z := by
  unfold Tuned at *
  rw [h', h]

theorem pll (h : x.Tuned y) : y.pll = x.pll := by rw [h]
theorem voff (h : x.Tuned y) : y.voff = x.voff := by rw [h]
theorem fmax (h : x.Tuned y) : y.fmax = x.fmax := by rw [h]
theorem cap (h : x.Tuned y) : y.cap = x.cap := by rw [h]; rfl
theorem hotTj (h : x.Tuned y) : y.hotTj = x.hotTj := by rw [h]
theorem tj (h : x.Tuned y) : y.tj = x.tj := by rw [h]
theorem tjTicks (h : x.Tuned y) : y.tjTicks = x.tjTicks := by rw [h]
theorem fails (h : x.Tuned y) : y.fails = x.fails := by rw [h]
theorem degraded (h : x.Tuned y) : y.degraded = x.degraded := by rw [h]

theorem step (x : CorePower) (fused : Nat → Nat) (code : Nat) : x.Tuned (x.step fused code) := by
  unfold CorePower.step
  dsimp only
  split
  · rfl
  · split <;> rfl

theorem glide (fused : Nat → Nat) (code : Nat) : ∀ (n : Nat) (x : CorePower), x.Tuned (x.glide fused code n)
  | 0, x => refl x
  | n + 1, x => (step x fused code).trans (glide fused code n _)

theorem moved (c : Channel) (k : Core) (code : BitVec 7) : c.gov.cores[k].Tuned (c.moved k code) := glide _ _ _ _

end CorePower.Tuned

/-- A step comes nearer by one code; a core that has none yet comes to 24 at once. -/
theorem CorePower.step_f (x : CorePower) (fused : Nat → Nat) (code : Nat) : (x.step fused code).f.toNat =
    if x.f.toNat < code then max 24 (x.f.toNat + 1) % 128 else if code < x.f.toNat then x.f.toNat - 1 else x.f.toNat := by
  unfold CorePower.step
  dsimp only
  split
  · exact BitVec.toNat_ofNat _ _
  · split
    · have := x.f.isLt
      rw [BitVec.toNat_ofNat]
      omega
    · rfl

theorem CorePower.step_same {x : CorePower} {fused : Nat → Nat} {code : Nat} (h : x.f.toNat = code) : x.step fused code = x := by
  unfold CorePower.step
  dsimp only
  rw [if_neg (by omega), if_neg (by omega)]

theorem CorePower.glide_same {x : CorePower} {fused : Nat → Nat} {code : Nat} (h : x.f.toNat = code) :
    ∀ n, x.glide fused code n = x
  | 0 => rfl
  | n + 1 => by
    rw [CorePower.glide, CorePower.step_same h]
    exact CorePower.glide_same h n

theorem CorePower.glide_reaches {fused : Nat → Nat} {code : Nat} (hl : 24 ≤ code) (hh : code ≤ 88) :
    ∀ (n : Nat) (x : CorePower), code ≤ n + max 23 x.f.toNat → x.f.toNat ≤ n + code →
      (x.glide fused code n).f.toNat = code
  | 0, x, h, h' => by
    rw [CorePower.glide]
    omega
  | n + 1, x, h, h' => by
    rw [CorePower.glide]
    have e := x.step_f fused code
    refine CorePower.glide_reaches hl hh n _ ?_ ?_ <;> (rw [e]; split_ifs <;> omega)

/-- A core moved to a permitted code runs at it. -/
theorem Channel.moved_f (c : Channel) (k : Core) {code : BitVec 7} (hl : 24 ≤ code.toNat) (hh : code.toNat ≤ 88) :
    (c.moved k code).f.toNat = code.toNat :=
  CorePower.glide_reaches hl hh 128 _ (by omega) (by have := c.gov.cores[k].f.isLt; omega)

theorem Channel.moved_clamp_f (c : Channel) (k : Core) (n : Nat) : (c.moved k (clampCode n)).f.toNat = max 24 (min n 88) := by
  rw [c.moved_f k] <;> rw [clampCode_toNat] <;> omega

theorem Channel.moved_same {c : Channel} {k : Core} {code : BitVec 7} (h : c.gov.cores[k].f = code) :
    c.moved k code = c.gov.cores[k] := CorePower.glide_same (congrArg BitVec.toNat h) _

/-! ### Vectors of cores -/

theorem Vector.ofFn_get {α : Type} {n : Nat} (f : Fin n → α) (i : Fin n) : (Vector.ofFn f)[i] = f i := by
  simp only [Fin.getElem_fin, Vector.getElem_ofFn, Fin.eta]

theorem Vector.set_get {α : Type} {n : Nat} (v : Vector α n) (i j : Fin n) (x : α) :
    (v.set i x)[j] = if j = i then x else v[j] := by
  simp only [Fin.getElem_fin, Vector.getElem_set, Fin.ext_iff, eq_comm]

theorem Vector.mem_toList_index {α : Type} {n : Nat} (v : Vector α n) (x : α) : x ∈ v.toList ↔ ∃ i : Fin n, v[i] = x := by
  rw [Vector.mem_toList_iff, Vector.mem_iff_getElem]
  exact ⟨fun ⟨i, hi, h⟩ => ⟨⟨i, hi⟩, h⟩, fun ⟨i, h⟩ => ⟨i.val, i.isLt, h⟩⟩

/-! ### Operations on the clocks -/

/-- d is c with at most another F_G and other frequencies and voltages of its cores. -/
structure Retuned (c d : Channel) : Prop where
  rest : d = { c with gov := { c.gov with fg := d.gov.fg, cores := d.gov.cores } }
  cores : ∀ k : Core, c.gov.cores[k].Tuned d.gov.cores[k]

namespace Retuned

variable {c d e : Channel}

theorem refl (c : Channel) : Retuned c c := ⟨rfl, fun _ => .refl _⟩

theorem trans (h : Retuned c d) (h' : Retuned d e) : Retuned c e :=
  ⟨by rw [h'.rest, h.rest], fun k => (h.cores k).trans (h'.cores k)⟩

theorem gov (h : Retuned c d) : d = { c with gov := d.gov } := by rw [h.rest]

theorem gmode (h : Retuned c d) : d.gov.gmode = c.gov.gmode := by rw [h.rest]
theorem ftop (h : Retuned c d) : d.gov.ftop = c.gov.ftop := by rw [h.rest]
theorem fpow (h : Retuned c d) : d.gov.fpow = c.gov.fpow := by rw [h.rest]
theorem wakeTotal (h : Retuned c d) : d.gov.wakeTotal = c.gov.wakeTotal := by rw [h.rest]
theorem pll (h : Retuned c d) (k : Core) : d.gov.cores[k].pll = c.gov.cores[k].pll := (h.cores k).pll

theorem setGroup (c : Channel) (code : BitVec 7) : Retuned c (c.setGroup code) := by
  refine ⟨rfl, fun k => ?_⟩
  unfold Channel.setGroup
  dsimp only
  rw [Vector.ofFn_get]
  split
  · exact .moved c k code
  · exact .refl _

theorem capCores (c : Channel) : Retuned c c.capCores := by
  refine ⟨rfl, fun k => ?_⟩
  unfold Channel.capCores
  dsimp only
  rw [Vector.ofFn_get]
  split
  · exact .moved c k _
  · exact .refl _

end Retuned

/-- The frequencies of the hot cores, in core order. -/
def Channel.hotCodes (c : Channel) : List Nat := (c.gov.cores.toList.filter fun k => k.pll == .hot).map fun k => k.f.toNat

theorem Channel.mem_hotCodes {c : Channel} {n : Nat} :
    n ∈ c.hotCodes ↔ ∃ k : Core, c.gov.cores[k].pll = .hot ∧ c.gov.cores[k].f.toNat = n := by
  simp only [Channel.hotCodes, List.mem_map, List.mem_filter, Vector.mem_toList_index, beq_iff_eq]
  constructor
  · rintro ⟨_, ⟨⟨k, rfl⟩, hk⟩, hn⟩
    exact ⟨k, hk, hn⟩
  · rintro ⟨k, hk, hn⟩
    exact ⟨_, ⟨⟨k, rfl⟩, hk⟩, hn⟩

theorem Channel.lowestHot_none {c : Channel} (h : ∀ k : Core, c.gov.cores[k].pll ≠ .hot) :
    c.lowestHot = { c with gov := { c.gov with fg := BitVec.ofNat 8 (min c.gov.fg.toNat 76) } } := by
  have none : c.hotCodes = [] := List.eq_nil_iff_forall_not_mem.mpr fun n hn => by
    obtain ⟨k, hk, -⟩ := Channel.mem_hotCodes.mp hn
    exact h k hk
  unfold Channel.lowestHot
  rw [show List.map _ _ = c.hotCodes from rfl, none]

theorem Channel.lowestHot_some {c : Channel} {f : Nat} {fs : List Nat} (h : c.hotCodes = f :: fs) :
    c.lowestHot = { c with gov := { c.gov with fg := BitVec.ofNat 8 (fs.foldl min f) } } := by
  unfold Channel.lowestHot
  rw [show List.map _ _ = c.hotCodes from rfl, h]

theorem Channel.lowestHot_eq (c : Channel) : c.lowestHot = { c with gov := { c.gov with fg := c.lowestHot.gov.fg } } := by
  unfold Channel.lowestHot
  split <;> rfl

theorem Channel.lowestHot_cores (c : Channel) : c.lowestHot.gov.cores = c.gov.cores := by rw [Channel.lowestHot_eq]

theorem Retuned.lowestHot (c : Channel) : Retuned c c.lowestHot :=
  ⟨by rw [Channel.lowestHot_eq], fun k => by rw [Channel.lowestHot_cores]; exact .refl _⟩

/-- Where a core is hot, F_G comes to the lowest code among the hot ones. -/
theorem Channel.lowestHot_fg {c : Channel} {k : Core} (h : c.gov.cores[k].pll = .hot) :
    (∃ j : Core, c.gov.cores[j].pll = .hot ∧ c.lowestHot.gov.fg.toNat = c.gov.cores[j].f.toNat) ∧
    ∀ j : Core, c.gov.cores[j].pll = .hot → c.lowestHot.gov.fg.toNat ≤ c.gov.cores[j].f.toNat := by
  have hk : c.gov.cores[k].f.toNat ∈ c.hotCodes := Channel.mem_hotCodes.mpr ⟨k, h, rfl⟩
  obtain ⟨f, fs, e⟩ : ∃ f fs, c.hotCodes = f :: fs := List.exists_cons_of_ne_nil (List.ne_nil_of_mem hk)
  obtain ⟨j, hj, hf⟩ := Channel.mem_hotCodes.mp (e ▸ foldl_min_mem f fs : fs.foldl min f ∈ c.hotCodes)
  have low : c.lowestHot.gov.fg.toNat = fs.foldl min f := by
    rw [Channel.lowestHot_some e]
    have := c.gov.cores[j].f.isLt
    exact (BitVec.toNat_ofNat _ _).trans (Nat.mod_eq_of_lt (by omega))
  refine ⟨⟨j, hj, low.trans hf.symm⟩, fun i hi => ?_⟩
  rw [low]
  exact foldl_min_le (e ▸ Channel.mem_hotCodes.mpr ⟨i, hi, rfl⟩)

theorem Channel.setGroup_fg (c : Channel) (code : BitVec 7) : (c.setGroup code).gov.fg.toNat = code.toNat := by
  change (code.setWidth 8).toNat = _
  have := code.isLt
  rw [BitVec.toNat_setWidth]
  omega

theorem Channel.setGroup_core (c : Channel) (code : BitVec 7) (k : Core) : (c.setGroup code).gov.cores[k] =
    if c.gov.cores[k].pll = .hot then c.moved k code else c.gov.cores[k] := by
  unfold Channel.setGroup
  dsimp only
  rw [Vector.ofFn_get]

theorem Channel.capCores_core (c : Channel) (k : Core) : c.capCores.gov.cores[k] =
    if c.gov.cores[k].pll = .hot ∧ clampCode (min c.gov.cores[k].cap c.gov.ftop.toNat) < c.gov.cores[k].f
    then c.moved k (clampCode (min c.gov.cores[k].cap c.gov.ftop.toNat)) else c.gov.cores[k] := by
  unfold Channel.capCores
  dsimp only
  rw [Vector.ofFn_get]
  simp only [Bool.and_eq_true, decide_eq_true_eq]

/-- Capping lowers a core only, and none above its own cap and FTOP stays so. -/
theorem Channel.capCores_f (c : Channel) (k : Core) :
    c.capCores.gov.cores[k].f.toNat ≤ c.gov.cores[k].f.toNat ∧
    (c.gov.cores[k].pll = .hot → c.capCores.gov.cores[k].f.toNat ≤ max 24 (min c.gov.cores[k].cap c.gov.ftop.toNat)) := by
  rw [Channel.capCores_core]
  split
  · next h =>
    have low := BitVec.lt_def.mp h.2
    have e := c.moved_clamp_f k (min c.gov.cores[k].cap c.gov.ftop.toNat)
    rw [clampCode_toNat] at low
    exact ⟨by omega, fun _ => by omega⟩
  · next h =>
    refine ⟨le_refl _, fun hp => ?_⟩
    have high : ¬ clampCode (min c.gov.cores[k].cap c.gov.ftop.toNat) < c.gov.cores[k].f := fun hl => h ⟨hp, hl⟩
    rw [BitVec.lt_def, clampCode_toNat] at high
    omega

theorem Channel.settle_core_mode {c : Channel} (h : c.gov.gmode = 0) : c.settle = c.capCores.lowestHot := if_pos h

/-- The code that settling gives the group outside CORE mode. -/
def Channel.groupCode (c : Channel) : Nat :=
  if c.heldDown then min (clampCode c.groupTarget).toNat c.gov.fg.toNat else (clampCode c.groupTarget).toNat

theorem Channel.settle_group {c : Channel} (h : c.gov.gmode ≠ 0) : c.settle = c.setGroup (clampCode c.groupCode) := if_neg h

theorem Retuned.settle (c : Channel) : Retuned c c.settle := by
  by_cases h : c.gov.gmode = 0
  · rw [Channel.settle_core_mode h]
    exact (Retuned.capCores c).trans (.lowestHot _)
  · rw [Channel.settle_group h]
    exact .setGroup c _

/-- Outside CORE mode every hot core runs at F_G after settling. -/
theorem Channel.settle_group_f {c : Channel} (h : c.gov.gmode ≠ 0) {k : Core} (hk : c.gov.cores[k].pll = .hot) :
    c.settle.gov.cores[k].f.toNat = c.settle.gov.fg.toNat := by
  rw [Channel.settle_group h, Channel.setGroup_fg, Channel.setGroup_core, if_pos hk, Channel.moved_clamp_f, clampCode_toNat]

/-- What the group's target keeps to. -/
theorem Channel.groupTarget_le (c : Channel) : c.groupTarget ≤ c.gov.fpow.toNat ∧ c.groupTarget ≤ c.gov.ftop.toNat ∧
    (c.gov.gmode = 2 → c.groupTarget ≤ c.fceilNow) ∧
    ∀ k : Core, c.gov.cores[k].pll ≠ .cold → c.groupTarget ≤ c.gov.cores[k].cap := by
  unfold Channel.groupTarget
  dsimp only
  have first := foldl_min_le (a := min c.gov.fpow.toNat
    (if c.gov.gmode = 2 then min c.gov.ftop.toNat c.fceilNow else c.gov.ftop.toNat))
    (l := (c.gov.cores.toList.filter fun k => k.pll != .cold).map CorePower.cap) List.mem_cons_self
  refine ⟨first.trans (min_le_left _ _), first.trans ((min_le_right _ _).trans ?_), fun hm => first.trans ((min_le_right _ _).trans ?_),
    fun k hk => foldl_min_le (List.mem_cons_of_mem _ (List.mem_map.mpr ⟨_, List.mem_filter.mpr
      ⟨(Vector.mem_toList_index _ _).mpr ⟨k, rfl⟩, by simpa using hk⟩, rfl⟩))⟩
  · split
    · exact min_le_left _ _
    · exact le_refl _
  · rw [if_pos hm]
    exact min_le_right _ _

/-- The target is the greatest that keeps to it. -/
theorem Channel.le_groupTarget {c : Channel} {n : Nat} (hp : n ≤ c.gov.fpow.toNat) (ht : n ≤ c.gov.ftop.toNat)
    (hm : c.gov.gmode = 2 → n ≤ c.fceilNow) (hk : ∀ k : Core, c.gov.cores[k].pll ≠ .cold → n ≤ c.gov.cores[k].cap) :
    n ≤ c.groupTarget := by
  refine le_foldl_min fun m hmem => ?_
  rcases List.mem_cons.mp hmem with rfl | hmem
  · refine le_min hp ?_
    split
    · exact le_min ht (hm ‹_›)
    · exact ht
  · obtain ⟨x, hx, rfl⟩ := List.mem_map.mp hmem
    obtain ⟨hx, hcold⟩ := List.mem_filter.mp hx
    obtain ⟨k, rfl⟩ := (Vector.mem_toList_index _ _).mp hx
    exact hk k (by simpa using hcold)

/-- F_G after settling, outside CORE mode. -/
theorem Channel.settle_group_fg {c : Channel} (h : c.gov.gmode ≠ 0) : c.settle.gov.fg.toNat = max 24 (min c.groupCode 88) := by
  rw [Channel.settle_group h, Channel.setGroup_fg, clampCode_toNat]

theorem Channel.groupCode_le (c : Channel) : c.groupCode ≤ max 24 c.groupTarget ∧
    (c.heldDown = true → c.groupCode ≤ c.gov.fg.toNat) ∧ (c.heldDown = false → c.groupCode = max 24 (min c.groupTarget 88)) := by
  unfold Channel.groupCode
  rw [clampCode_toNat]
  split
  · next h => exact ⟨by omega, fun _ => by omega, fun h' => absurd (h.symm.trans h') (by decide)⟩
  · next h => exact ⟨by omega, fun h' => absurd h' h, fun _ => rfl⟩

end Sys2Proof.Machine
end

