-- ==== Sys2Proof/Proofs/Governor.lean ====
section
/-!
SUPPORT. The governor (17 R382, R385): the highest code that the estimate permits, and the clocks of each mode.
-/
namespace Sys2Proof.Machine

open Sys2Proof

/-! ### Rounds of CORE mode -/

/-- What a core runs and its cap, without its code. -/
def fixedPart (x : Activity × Nat × Nat) : Activity × Nat := (x.1, x.2.1)

/-- The estimate of cores at codes of their own. -/
def spread (abl : Activity) (xs : List (Activity × Nat × Nat)) : Nat :=
  estimate (xs.map fun y => (y.1, y.2.2)) abl ((xs.map fun y => y.2.2).foldl min 88)

/-- ys is xs with codes raised, every one within its cap, and within the budget where any was raised. -/
structure Raised (budget : Nat) (abl : Activity) (xs ys : List (Activity × Nat × Nat)) : Prop where
  fixed : ys.map fixedPart = xs.map fixedPart
  caps : (∀ x ∈ xs, x.2.2 ≤ x.2.1) → ∀ y ∈ ys, y.2.2 ≤ y.2.1
  budget : ys = xs ∨ spread abl ys ≤ 10 * budget

namespace Raised

variable {budget : Nat} {abl : Activity} {xs ys zs : List (Activity × Nat × Nat)}

theorem refl (xs : List (Activity × Nat × Nat)) : Raised budget abl xs xs := ⟨rfl, id, .inl rfl⟩

theorem trans (h : Raised budget abl xs ys) (h' : Raised budget abl ys zs) : Raised budget abl xs zs := by
  refine ⟨h'.fixed.trans h.fixed, fun hx => h'.caps (h.caps hx), ?_⟩
  rcases h'.budget with rfl | hz
  · exact h.budget
  · exact .inr hz

theorem foldl {α : Type} {f : List (Activity × Nat × Nat) → α → List (Activity × Nat × Nat)}
    (h : ∀ xs a, Raised budget abl xs (f xs a)) : ∀ (l : List α) xs, Raised budget abl xs (l.foldl f xs)
  | [], xs => refl xs
  | a :: l, xs => (h xs a).trans (foldl h l (f xs a))

theorem one (xs : List (Activity × Nat × Nat)) (i : Nat) : Raised budget abl xs (raiseOne budget abl xs i) := by
  cases hx : xs[i]? with
  | none =>
    simp only [raiseOne, hx]
    exact refl xs
  | some x =>
    obtain ⟨a, cap, f⟩ := x
    simp only [raiseOne, hx]
    split
    · next h =>
      simp only [Bool.and_eq_true, decide_eq_true_eq] at h
      obtain ⟨hf, he⟩ := h
      obtain ⟨hi, hx⟩ := List.getElem?_eq_some_iff.mp hx
      refine ⟨?_, fun hxs y hy => ?_, .inr he⟩
      · have same : fixedPart (a, cap, f + 1) = (xs.map fixedPart)[i]'(by simpa using hi) := by
          rw [List.getElem_map, hx]
          rfl
        rw [List.map_set, same, List.set_getElem_self]
      · rcases List.mem_or_eq_of_mem_set hy with hy | rfl
        · exact hxs y hy
        · exact hf
    · exact refl xs

theorem all (xs : List (Activity × Nat × Nat)) : Raised budget abl xs (raiseAll budget abl xs) :=
  foldl (fun xs _ => foldl (fun xs i => one xs i) _ xs) _ xs

end Raised

/-! ### The clocks of CORE mode -/

/-- A hot core at the code that the rounds give it; no higher than it was, where nothing may rise. -/
def Channel.tuned (c : Channel) (high : Bool) (k : Core) (f : Nat) : CorePower :=
  c.moved k (clampCode (if high || c.gov.cores[k].hotTj then min f c.gov.cores[k].f.toNat else f))

def Channel.tuneOne (high : Bool) (c : Channel) (x : (Core × Activity) × (Activity × Nat × Nat)) : Channel :=
  { c with gov := { c.gov with cores := c.gov.cores.set x.1.1 (c.tuned high x.1.1 x.2.2.2) } }

theorem Channel.tuneOne_core (high : Bool) (c : Channel) (x : (Core × Activity) × (Activity × Nat × Nat)) (k : Core) :
    (c.tuneOne high x).gov.cores[k] = if k = x.1.1 then c.tuned high x.1.1 x.2.2.2 else c.gov.cores[k] :=
  Vector.set_get _ _ _ _

theorem Retuned.tuneOne (high : Bool) (c : Channel) (x : (Core × Activity) × (Activity × Nat × Nat)) :
    Retuned c (c.tuneOne high x) := by
  refine ⟨rfl, fun k => ?_⟩
  rw [Channel.tuneOne_core]
  split
  · next h =>
    subst h
    exact .moved c _ _
  · exact .refl _

/-- A core's own tuning sees nothing of the other cores. -/
theorem Channel.tuned_congr {c d : Channel} (h : Retuned c d) {k : Core} (hk : d.gov.cores[k] = c.gov.cores[k]) (high : Bool)
    (f : Nat) : d.tuned high k f = c.tuned high k f := by
  have fused : d.fused k = c.fused k := by rw [h.rest]; rfl
  simp only [Channel.tuned, Channel.moved, hk, fused]

/-- Every core of a list is tuned once, the others stay. -/
theorem Channel.foldl_tuneOne (high : Bool) (l : List ((Core × Activity) × (Activity × Nat × Nat))) (c : Channel)
    (hl : (l.map fun x => x.1.1).Nodup) : Retuned c (l.foldl (Channel.tuneOne high) c) ∧
      (∀ k, k ∉ l.map (fun x => x.1.1) → (l.foldl (Channel.tuneOne high) c).gov.cores[k] = c.gov.cores[k]) ∧
      ∀ x ∈ l, (l.foldl (Channel.tuneOne high) c).gov.cores[x.1.1] = c.tuned high x.1.1 x.2.2.2 := by
  induction l generalizing c with
  | nil => exact ⟨.refl c, fun _ _ => rfl, nofun⟩
  | cons y l ih =>
    obtain ⟨hy, hl⟩ := List.nodup_cons.mp hl
    obtain ⟨hr, hs, ht⟩ := ih (c.tuneOne high y) hl
    have first := Retuned.tuneOne high c y
    refine ⟨first.trans hr, fun k hk => ?_, fun x hx => ?_⟩
    · obtain ⟨hky, hkl⟩ := not_or.mp (fun h => hk (List.mem_cons.mpr h))
      rw [List.foldl_cons, hs k hkl, Channel.tuneOne_core, if_neg hky]
    · rw [List.foldl_cons]
      rcases List.mem_cons.mp hx with rfl | hx
      · rw [hs _ hy, Channel.tuneOne_core, if_pos rfl]
      · have ne : x.1.1 ≠ y.1.1 := fun e => hy (List.mem_map.mpr ⟨x, hx, e⟩)
        rw [ht x hx, Channel.tuned_congr first (by rw [Channel.tuneOne_core, if_neg ne])]

section
variable (c : Channel) (acts : List Activity)

theorem Channel.mem_hotActs {x : Core × Activity} :
    x ∈ c.hotActs acts ↔ c.gov.cores[x.1].pll = .hot ∧ x.2 = actOf acts x.1.val := by
  obtain ⟨k, a⟩ := x
  simp only [Channel.hotActs, List.mem_filterMap, List.mem_finRange, true_and, Option.ite_none_right_eq_some, Option.some.injEq,
    Prod.mk.injEq]
  constructor
  · rintro ⟨_, hk, rfl, rfl⟩
    exact ⟨hk, rfl⟩
  · rintro ⟨hk, rfl⟩
    exact ⟨k, hk, rfl, rfl⟩

theorem Channel.hotActs_nodup : ((c.hotActs acts).map Prod.fst).Nodup := by
  have e : (c.hotActs acts).map Prod.fst = (List.finRange 8).filter fun k => decide (c.gov.cores[k].pll = .hot) := by
    rw [Channel.hotActs, List.map_filterMap, ← List.filterMap_eq_filter]
    refine congrArg (List.filterMap · _) (funext fun k => ?_)
    simp [Option.guard]
  rw [e]
  exact (List.nodup_finRange 8).filter _

/-- The cap that CORE mode gives a hot core. -/
def Channel.coreCap (k : Core) : Nat := (clampCode (min c.gov.cores[k].cap c.gov.ftop.toNat)).toNat

/-- The hot cores with the codes that the rounds give them. -/
def Channel.rounds : List ((Core × Activity) × (Activity × Nat × Nat)) :=
  (c.hotActs acts).zip (raiseAll c.gov.budget (actOf acts 8) ((c.hotActs acts).map fun x => (x.2, c.coreCap x.1, 24)))

theorem Channel.rounds_length : (raiseAll c.gov.budget (actOf acts 8)
    ((c.hotActs acts).map fun x => (x.2, c.coreCap x.1, 24))).length = (c.hotActs acts).length := by
  have h := congrArg List.length (Raised.all (budget := c.gov.budget) (abl := actOf acts 8)
    ((c.hotActs acts).map fun x => (x.2, c.coreCap x.1, 24))).fixed
  simpa using h

theorem Channel.rounds_cores : (c.rounds acts).map (fun x => x.1.1) = (c.hotActs acts).map Prod.fst := by
  have e : (c.rounds acts).map Prod.fst = c.hotActs acts := List.map_fst_zip (c.rounds_length acts).ge
  conv_rhs => rw [← e, List.map_map]
  rfl

/-- Beside each core stands its own cap. -/
theorem cap_of_mem_zip {hot : List (Core × Activity)} {cap : Core → Nat} {ys : List (Activity × Nat × Nat)}
    (h : ys.map fixedPart = (hot.map fun x => (x.2, cap x.1, 24)).map fixedPart)
    {x : (Core × Activity) × (Activity × Nat × Nat)} (hx : x ∈ hot.zip ys) : x.2.2.1 = cap x.1.1 := by
  obtain ⟨i, hi, rfl⟩ := List.mem_iff_getElem.mp hx
  rw [List.length_zip] at hi
  have e := List.getElem_of_eq h (i := i) (by rw [List.length_map]; omega)
  simp only [List.getElem_map] at e
  rw [List.getElem_zip]
  exact congrArg Prod.snd e

/-- A core gets no code above its cap. -/
theorem Channel.rounds_le {x : (Core × Activity) × (Activity × Nat × Nat)} (h : x ∈ c.rounds acts) :
    x.2.2.2 ≤ c.coreCap x.1.1 := by
  have raised := Raised.all (budget := c.gov.budget) (abl := actOf acts 8)
    ((c.hotActs acts).map fun x => (x.2, c.coreCap x.1, 24))
  have start : ∀ y ∈ (c.hotActs acts).map (fun x => (x.2, c.coreCap x.1, 24)), y.2.2 ≤ y.2.1 := by
    intro y hy
    obtain ⟨z, -, rfl⟩ := List.mem_map.mp hy
    simp only [Channel.coreCap, clampCode_toNat]
    exact le_max_left _ _
  have top := raised.caps start x.2 (List.of_mem_zip (a := x.1) (b := x.2) h).2
  rwa [cap_of_mem_zip raised.fixed h] at top
end

/-! ### GOVERNOR_TICK -/

/-- The channel with FPOW taken anew. -/
def Channel.withFpow (c : Channel) (acts : List Activity) : Channel :=
  { c with gov := { c.gov with fpow := BitVec.ofNat 8 (c.fits acts (fun x => x.pll == PllSt.hot) c.gov.budget) } }

section
variable {c : Channel} {acts : List Activity}

theorem governorTick_group (h : c.gov.gmode ≠ 0) : governorTick c acts = (c.withFpow acts).settle := by
  unfold governorTick
  dsimp only
  rw [if_pos (by simpa using h)]
  rfl

/-- With no core hot, CORE mode gives F_G alone. -/
def Channel.restFg (c : Channel) (acts : List Activity) : Nat :=
  highest 76 fun k => decide (estimate [] (actOf acts 8) k ≤ 10 * c.gov.budget)

theorem governorTick_rest (h : c.gov.gmode = 0) (hn : c.hotActs acts = []) : governorTick c acts =
    { c with gov := { c.gov with
      fpow := (c.withFpow acts).gov.fpow, fg := BitVec.ofNat 8 (c.restFg acts) } } := by
  unfold governorTick
  dsimp only
  rw [if_neg (by simp [h]), hn]
  rfl

theorem governorTick_core (h : c.gov.gmode = 0) (hn : c.hotActs acts ≠ []) : governorTick c acts =
    ((c.rounds acts).foldl (Channel.tuneOne c.gov.overBudget) (c.withFpow acts)).lowestHot := by
  unfold governorTick
  dsimp only
  rw [if_neg (by simp [h]), if_neg (by simpa using hn)]
  rfl

theorem Channel.fits_hot (c : Channel) (acts : List Activity) (w : Nat) : c.fits acts (fun x => x.pll == PllSt.hot) w =
    highest 88 fun k =>
      decide (estimate (((c.hotActs acts).map Prod.snd).map fun a => (a, k)) (actOf acts 8) k ≤ 10 * w) := by
  have e : (c.hotActs acts).map Prod.snd =
      (List.finRange 8).filterMap fun k => if (c.gov.cores[k].pll == .hot) = true then some (actOf acts k.val) else none := by
    rw [Channel.hotActs, List.map_filterMap]
    refine congrArg (List.filterMap · _) (funext fun k => ?_)
    simp
  rw [e]
  rfl

theorem Channel.withFpow_toNat (c : Channel) (acts : List Activity) : (c.withFpow acts).gov.fpow.toNat =
    highest 88 fun k =>
      decide (estimate (((c.hotActs acts).map Prod.snd).map fun a => (a, k)) (actOf acts 8) k ≤ 10 * c.gov.budget) := by
  rw [← c.fits_hot acts]
  have := highest_le (top := 88) (p := fun k => decide
    (estimate (((c.hotActs acts).map Prod.snd).map fun a => (a, k)) (actOf acts 8) k ≤ 10 * c.gov.budget))
  rw [← c.fits_hot acts] at this
  exact (BitVec.toNat_ofNat _ _).trans (Nat.mod_eq_of_lt (by omega))

theorem governorTick_fpow (c : Channel) (acts : List Activity) :
    (governorTick c acts).gov.fpow = (c.withFpow acts).gov.fpow ∧ governorTick c acts = { c with gov := (governorTick c acts).gov } := by
  by_cases h : c.gov.gmode = 0
  · by_cases hn : c.hotActs acts = []
    · rw [governorTick_rest h hn]
      exact ⟨rfl, rfl⟩
    · have r : Retuned (c.withFpow acts) (governorTick c acts) := by
        rw [governorTick_core h hn]
        refine (Channel.foldl_tuneOne c.gov.overBudget (c.rounds acts) (c.withFpow acts) ?_).1.trans (.lowestHot _)
        rw [c.rounds_cores acts]
        exact c.hotActs_nodup acts
      exact ⟨r.fpow, r.gov⟩
  · have r : Retuned (c.withFpow acts) (governorTick c acts) := by
      rw [governorTick_group h]
      exact .settle _
    exact ⟨r.fpow, r.gov⟩

/-- A core in CORE mode after the tick. -/
theorem governorTick_coreMode (h : c.gov.gmode = 0) (acts : List Activity) (k : Core) :
    (c.gov.cores[k].pll = .hot → 24 ≤ (governorTick c acts).gov.cores[k].f.toNat ∧
      (governorTick c acts).gov.cores[k].f.toNat ≤ max 24 (min c.gov.cores[k].cap c.gov.ftop.toNat) ∧
      (c.gov.overBudget = true ∨ c.gov.cores[k].hotTj = true →
        (governorTick c acts).gov.cores[k].f.toNat ≤ max 24 c.gov.cores[k].f.toNat)) ∧
    (c.gov.cores[k].pll ≠ .hot → (governorTick c acts).gov.cores[k] = c.gov.cores[k]) := by
  by_cases hn : c.hotActs acts = []
  · rw [governorTick_rest h hn]
    refine ⟨fun hk => ?_, fun _ => rfl⟩
    exact absurd ((c.mem_hotActs acts).mpr ⟨hk, rfl⟩ : (k, actOf acts k.val) ∈ c.hotActs acts) (by simp [hn])
  · have nodup : ((c.rounds acts).map fun x => x.1.1).Nodup := by
      rw [c.rounds_cores acts]
      exact c.hotActs_nodup acts
    obtain ⟨-, others, tuned⟩ := Channel.foldl_tuneOne c.gov.overBudget (c.rounds acts) (c.withFpow acts) nodup
    rw [governorTick_core h hn, Channel.lowestHot_cores]
    constructor
    · intro hk
      have mem : k ∈ (c.rounds acts).map fun x => x.1.1 := by
        rw [c.rounds_cores acts]
        exact List.mem_map.mpr ⟨(k, actOf acts k.val), (c.mem_hotActs acts).mpr ⟨hk, rfl⟩, rfl⟩
      obtain ⟨x, hx, rfl⟩ := List.mem_map.mp mem
      have cap := c.rounds_le acts hx
      rw [Channel.coreCap, clampCode_toNat] at cap
      have same : (c.withFpow acts).gov.cores[x.1.1] = c.gov.cores[x.1.1] := rfl
      rw [tuned x hx, Channel.tuned, Channel.moved_clamp_f, same]
      refine ⟨le_max_left _ _, ?_, fun ho => ?_⟩
      · split <;> omega
      · rw [if_pos (by simpa using ho)]
        omega
    · intro hk
      refine others k fun hm => hk ?_
      rw [c.rounds_cores acts] at hm
      obtain ⟨y, hy, rfl⟩ := List.mem_map.mp hm
      exact ((c.mem_hotActs acts).mp hy).1

end

/-- Settles O48: outside CORE mode from what settling does, in CORE mode from the rounds. -/
theorem governorTick_spec : Obligations.GovernorTick := by
  unfold Obligations.GovernorTick
  refine ⟨fun s ch acts c g est hc hu hg hest => ?_, fun budget abl xs ys hx hy => ?_⟩
  · subst hg hest
    obtain ⟨hfp, hgov⟩ := governorTick_fpow c acts
    refine ⟨governorTick c acts, exec_modUp hc hu rfl rfl, hgov, ?_⟩
    rw [hfp, c.withFpow_toNat acts]
    refine ⟨highest_ge, highest_le, fun k hl hh hk => le_highest hl hh hh (decide_eq_true hk),
      by simpa using highest_fits (top := 88) (p := fun k => decide
        (estimate (((c.hotActs acts).map Prod.snd).map fun a => (a, k)) (actOf acts 8) k ≤ 10 * c.gov.budget)), fun hm => ?_, fun hm hot => ?_, fun hm cold => ?_, fun hm k => ?_⟩
    · have low := (c.withFpow acts).groupTarget_le
      obtain ⟨hpow, htop, hceil, hcap⟩ := low
      obtain ⟨hle, hdown, hup⟩ := (c.withFpow acts).groupCode_le
      have pow := c.withFpow_toNat acts
      have most := highest_ge (top := 88) (p := fun k =>
        decide (estimate (((c.hotActs acts).map Prod.snd).map fun a => (a, k)) (actOf acts 8) k ≤ 10 * c.gov.budget))
      have fg : (governorTick c acts).gov.fg.toNat = max 24 (min (c.withFpow acts).groupCode 88) := by
        rw [governorTick_group hm]
        exact Channel.settle_group_fg hm
      rw [fg, ← pow]
      rw [← pow] at most
      refine ⟨le_max_left _ _, by omega, ?_, fun h2 => ?_, fun hd => ?_, fun hd n hnp hnt hnc hnk => ?_, fun k hk => ?_, fun k hk => ?_⟩
      · change _ ≤ max 24 (c.withFpow acts).gov.ftop.toNat
        omega
      · have := hceil h2
        change _ ≤ max 24 (c.withFpow acts).fceilNow
        omega
      · have := hdown hd
        change _ ≤ max 24 (c.withFpow acts).gov.fg.toNat
        omega
      · have := hup hd
        have := Channel.le_groupTarget (c := c.withFpow acts) hnp hnt hnc hnk
        have := highest_le (top := 88) (p := fun k =>
          decide (estimate (((c.hotActs acts).map Prod.snd).map fun a => (a, k)) (actOf acts 8) k ≤ 10 * c.gov.budget))
        omega
      · have := hcap k hk
        change _ ≤ max 24 (c.withFpow acts).gov.cores[k].cap
        omega
      · rw [← fg, governorTick_group hm]
        exact Channel.settle_group_f (c := c.withFpow acts) hm hk
    · have hn : c.hotActs acts ≠ [] := by
        obtain ⟨k, hk⟩ := hot
        exact List.ne_nil_of_mem ((c.mem_hotActs acts (x := (k, actOf acts k.val))).mpr ⟨hk, rfl⟩)
      obtain ⟨k, hk⟩ := hot
      have nodup : ((c.rounds acts).map fun x => x.1.1).Nodup := by
        rw [c.rounds_cores acts]
        exact c.hotActs_nodup acts
      obtain ⟨tuned, -, -⟩ := Channel.foldl_tuneOne c.gov.overBudget (c.rounds acts) (c.withFpow acts) nodup
      rw [governorTick_core hm hn, Channel.lowestHot_cores]
      obtain ⟨⟨j, hj, hf⟩, hall⟩ := Channel.lowestHot_fg ((tuned.pll k).trans hk)
      exact ⟨⟨j, (tuned.pll j).symm.trans hj, hf⟩, fun i hi => hall i ((tuned.pll i).trans hi)⟩
    · have hn : c.hotActs acts = [] := List.eq_nil_iff_forall_not_mem.mpr fun x hx => cold x.1 ((c.mem_hotActs acts).mp hx).1
      have le := highest_le_top (top := 76) (p := fun k => decide (estimate [] (actOf acts 8) k ≤ 10 * c.gov.budget))
      have fg : (governorTick c acts).gov.fg.toNat = c.restFg acts := by
        rw [governorTick_rest hm hn]
        exact (BitVec.toNat_ofNat _ _).trans (Nat.mod_eq_of_lt (by rw [Channel.restFg]; omega))
      rw [fg, hn]
      exact ⟨highest_ge, le, fun k hl hh hk => le_highest hl (by omega) hh (decide_eq_true hk),
        by simpa [Channel.restFg] using highest_fits (top := 76) (p := fun k =>
          decide (estimate [] (actOf acts 8) k ≤ 10 * c.gov.budget))⟩
    · exact governorTick_coreMode hm acts k
  · have raised : Raised budget abl xs ys := by
      rw [hy]
      exact .all xs
    exact ⟨raised.fixed, raised.caps hx, raised.budget⟩

end Sys2Proof.Machine
end

