-- ==== Sys2Proof/Proofs/Heat.lean ====
section
/-!
SUPPORT. Heat, droop, PLL states and array rows (17 R376, R377, R393 to R397).
-/
namespace Sys2Proof.Machine

open Sys2Proof

section
variable {s : State} {ch : Ch} {c : Channel}

/-! ### The thermal cut -/

/-- What THCUT_UPDATE makes of the thermal cut. -/
def Channel.cutNext (c : Channel) : Byte :=
  if c.stk.toList.any fun t => decide (90 ≤ t.temp.toNat) then BitVec.ofNat 8 (min 20 (c.gov.thcut.toNat + 1))
  else if c.stk.toList.all fun t => decide (t.temp.toNat ≤ 87) then BitVec.ofNat 8 (c.gov.thcut.toNat - 1)
  else c.gov.thcut

theorem thcutUpdate_eq (c : Channel) : thcutUpdate c = { c with gov := { c.gov with thcut := c.cutNext } } := by
  unfold thcutUpdate Channel.cutNext Channel.modGov
  simp only [List.any_map, List.all_map, Function.comp_def]

theorem Channel.any_stack {p : StackState → Bool} : c.stk.toList.any p = true ↔ ∃ i : Stack, p c.stk[i] = true := by
  simp only [List.any_eq_true, Vector.mem_toList_index]
  constructor
  · rintro ⟨_, ⟨i, rfl⟩, h⟩
    exact ⟨i, h⟩
  · rintro ⟨i, h⟩
    exact ⟨_, ⟨i, rfl⟩, h⟩

theorem Channel.all_stack {p : StackState → Bool} : c.stk.toList.all p = true ↔ ∀ i : Stack, p c.stk[i] = true := by
  simp only [List.all_eq_true, Vector.mem_toList_index]
  constructor
  · exact fun h i => h _ ⟨i, rfl⟩
  · rintro h _ ⟨i, rfl⟩
    exact h i

theorem Channel.cutNext_eq {v : Byte} (hv :
    ((∃ i : Stack, 90 ≤ c.stk[i].temp.toNat) ∧ v.toNat = min 20 (c.gov.thcut.toNat + 1)) ∨
    ((∀ i : Stack, c.stk[i].temp.toNat ≤ 87) ∧ v.toNat = c.gov.thcut.toNat - 1) ∨
    ((∀ i : Stack, c.stk[i].temp.toNat < 90) ∧ (∃ i : Stack, 87 < c.stk[i].temp.toNat) ∧ v = c.gov.thcut)) :
    c.cutNext = v := by
  unfold Channel.cutNext
  simp only [Channel.any_stack, Channel.all_stack, decide_eq_true_eq]
  rcases hv with ⟨hot, hv⟩ | ⟨cool, hv⟩ | ⟨below, above, rfl⟩
  · rw [if_pos hot]
    exact BitVec.eq_of_toNat_eq ((BitVec.toNat_ofNat _ _).trans ((Nat.mod_eq_of_lt (by omega)).trans hv.symm))
  · rw [if_neg (by rintro ⟨i, hi⟩; have := cool i; omega), if_pos cool]
    exact BitVec.eq_of_toNat_eq ((BitVec.toNat_ofNat _ _).trans ((Nat.mod_eq_of_lt (by omega)).trans hv.symm))
  · rw [if_neg (by rintro ⟨i, hi⟩; have := below i; omega), if_neg]
    obtain ⟨i, hi⟩ := above
    intro h
    have := h i
    omega

/-! ### TJ_SAMPLE -/

/-- A core after a reading of its temperature, before any clock falls. -/
def CorePower.read (x : CorePower) (tj : Nat) : CorePower :=
  { x with tj := BitVec.ofNat 8 tj, hotTj := decide (105 ≤ tj) || (x.hotTj && decide (100 < tj)), tjTicks := min 10 (x.tjTicks + 1) }

/-- The channel after it. -/
def Channel.readTj (c : Channel) (k : Core) (x : CorePower) : Channel :=
  { c with gov := { c.gov with cores := c.gov.cores.set k x } }

theorem Channel.readTj_core (c : Channel) (k j : Core) (x : CorePower) :
    (c.readTj k x).gov.cores[j] = if j = k then x else c.gov.cores[j] := Vector.set_get _ _ _ _

theorem hotTj_eq (h : Bool) (tj : Nat) : (if 105 ≤ tj then true else if tj ≤ 100 then false else h) =
    (decide (105 ≤ tj) || (h && decide (100 < tj))) := by
  by_cases h1 : 105 ≤ tj
  · simp [h1]
  · by_cases h2 : tj ≤ 100
    · simp [h1, h2]
    · simp [h1, h2, Nat.not_le.mp h2]

theorem tjSample_quiet {k : Core} {tj : Nat} (h255 : tj ≤ 255) (h : tj < 105 ∨ c.gov.cores[k].tjTicks < 9) :
    tjSample c k tj = c.readTj k (c.gov.cores[k].read tj) := by
  have down : (decide (105 ≤ tj) && min 10 (c.gov.cores[k].tjTicks + 1) == 10) = false := by
    simp only [Bool.and_eq_false_iff, decide_eq_false_iff_not, beq_eq_false_iff_ne]
    omega
  unfold tjSample
  dsimp only
  rw [down, hotTj_eq, min_eq_left h255]
  rfl

/-- The core of a channel whose clock falls for its heat. -/
def Channel.heated (c : Channel) (k : Core) (tj : Nat) : Channel := c.readTj k { c.gov.cores[k].read tj with tjTicks := 0 }

/-- Every core's count begins anew. -/
def Channel.restartTicks (c : Channel) : Channel :=
  { c with gov := { c.gov with cores := c.gov.cores.map fun y => { y with tjTicks := 0 } } }

theorem Channel.restartTicks_core (c : Channel) (j : Core) :
    c.restartTicks.gov.cores[j] = { c.gov.cores[j] with tjTicks := 0 } := by
  simp only [Channel.restartTicks, Fin.getElem_fin, Vector.getElem_map]

theorem tjSample_down {k : Core} {tj : Nat} (h255 : tj ≤ 255) (hot : 105 ≤ tj) (due : 9 ≤ c.gov.cores[k].tjTicks) :
    tjSample c k tj = if c.gov.gmode = 0
      then ((c.heated k tj).readTj k ((c.heated k tj).moved k (clampCode (c.gov.cores[k].f.toNat - 1)))).lowestHot
      else (c.heated k tj).restartTicks.setGroup (clampCode (c.gov.fg.toNat - 1)) := by
  have down : (decide (105 ≤ tj) && min 10 (c.gov.cores[k].tjTicks + 1) == 10) = true := by
    simp only [Bool.and_eq_true, decide_eq_true_eq, beq_iff_eq]
    omega
  unfold tjSample
  dsimp only
  rw [down, hotTj_eq, min_eq_left h255]
  rfl

theorem Retuned.heated_down (c : Channel) (k : Core) (code : BitVec 7) : Retuned c (c.readTj k (c.moved k code)) := by
  refine ⟨rfl, fun j => ?_⟩
  rw [Channel.readTj_core]
  split
  · next h =>
    subst h
    exact .moved c j code
  · exact .refl _

theorem tjSample_core {k : Core} {tj : Nat} (h255 : tj ≤ 255) (hot : 105 ≤ tj) (due : 9 ≤ c.gov.cores[k].tjTicks)
    (hm : c.gov.gmode = 0) : Retuned (c.heated k tj) (tjSample c k tj) ∧
      (c.gov.cores[k].f.toNat ≤ 88 → (tjSample c k tj).gov.cores[k].f.toNat = max 24 (c.gov.cores[k].f.toNat - 1) ∧
        ∀ j : Core, j ≠ k → (tjSample c k tj).gov.cores[j] = c.gov.cores[j]) := by
  rw [tjSample_down h255 hot due, if_pos hm]
  refine ⟨(Retuned.heated_down _ k _).trans (.lowestHot _), fun h88 => ?_⟩
  rw [Channel.lowestHot_cores]
  refine ⟨?_, fun j hj => ?_⟩
  · rw [Channel.readTj_core, if_pos rfl, Channel.moved_clamp_f]
    omega
  · rw [Channel.readTj_core, if_neg hj, Channel.heated, Channel.readTj_core, if_neg hj]

theorem tjSample_group {k : Core} {tj : Nat} (h255 : tj ≤ 255) (hot : 105 ≤ tj) (due : 9 ≤ c.gov.cores[k].tjTicks)
    (hm : c.gov.gmode ≠ 0) : Retuned (c.heated k tj).restartTicks (tjSample c k tj) ∧
      (c.gov.fg.toNat ≤ 88 → (tjSample c k tj).gov.fg.toNat = max 24 (c.gov.fg.toNat - 1) ∧
        ∀ j : Core, c.gov.cores[j].pll = .hot → (tjSample c k tj).gov.cores[j].f.toNat = (tjSample c k tj).gov.fg.toNat) := by
  rw [tjSample_down h255 hot due, if_neg hm]
  refine ⟨.setGroup _ _, fun h88 => ?_⟩
  rw [Channel.setGroup_fg, clampCode_toNat]
  refine ⟨by omega, fun j hj => ?_⟩
  have pll : (c.heated k tj).restartTicks.gov.cores[j].pll = .hot := by
    rw [Channel.restartTicks_core, Channel.heated, Channel.readTj_core]
    split
    · next h =>
      subst h
      exact hj
    · exact hj
  rw [Channel.setGroup_core, if_pos pll, Channel.moved_clamp_f]

/-- What a falling clock leaves of the reading. -/
theorem tjSample_reading {k : Core} {tj : Nat} (h255 : tj ≤ 255) (hot : 105 ≤ tj) (due : 9 ≤ c.gov.cores[k].tjTicks) :
    tjSample c k tj = { c with gov := (tjSample c k tj).gov } ∧
    (tjSample c k tj).gov.cores[k].hotTj = true ∧ (tjSample c k tj).gov.cores[k].tj.toNat = tj ∧
    (tjSample c k tj).gov.cores[k].tjTicks = 0 ∧
    (c.gov.gmode ≠ 0 → ∀ j : Core, (tjSample c k tj).gov.cores[j].tjTicks = 0) := by
  have core : (c.heated k tj).gov.cores[k] = { c.gov.cores[k].read tj with tjTicks := 0 } := by
    rw [Channel.heated, Channel.readTj_core, if_pos rfl]
  have hotTj : (c.gov.cores[k].read tj).hotTj = true := by simp [CorePower.read, hot]
  have temp : (c.gov.cores[k].read tj).tj.toNat = tj := by
    change (BitVec.ofNat 8 tj).toNat = tj
    rw [BitVec.toNat_ofNat]
    omega
  by_cases hm : c.gov.gmode = 0
  · obtain ⟨r, -⟩ := tjSample_core h255 hot due hm
    refine ⟨r.gov, ?_, ?_, ?_, fun h => absurd hm h⟩
    · rw [(r.cores k).hotTj, core]
      exact hotTj
    · rw [(r.cores k).tj, core]
      exact temp
    · rw [(r.cores k).tjTicks, core]
  · obtain ⟨r, -⟩ := tjSample_group h255 hot due hm
    refine ⟨r.gov, ?_, ?_, ?_, fun _ j => ?_⟩
    · rw [(r.cores k).hotTj, Channel.restartTicks_core, core]
      exact hotTj
    · rw [(r.cores k).tj, Channel.restartTicks_core, core]
      exact temp
    · rw [(r.cores k).tjTicks, Channel.restartTicks_core]
    · rw [(r.cores j).tjTicks, Channel.restartTicks_core]

theorem exec_tjSample {k : Core} {tj : Nat} (hc : s.chans[ch] = c) (hu : c.up = true) :
    exec (.tjSample ch k tj) s = .next (s.put ch (tjSample c k tj)) := by
  subst hc
  change Host.Outcome.next (if s.chans[ch].up = true then s.modCh ch fun c => tjSample c k tj else _) = _
  rw [if_pos hu, State.modCh_eq]

theorem exec_tjSample_off {k : Core} {tj : Nat} (hc : s.chans[ch] = c) (hu : c.up = false) :
    exec (.tjSample ch k tj) s = .next (modPowered s ch fun c => tjRead c k tj) := by
  subst hc
  change Host.Outcome.next (if s.chans[ch].up = true then _ else _) = _
  rw [if_neg (by rw [hu]; decide)]

/-! ### Heat holds the clocks -/

theorem settle_heldByHeat (hm : c.gov.gmode ≠ 0) (hot : ∃ j : Core, c.gov.cores[j].hotTj = true) :
    c.settle.gov.fg.toNat ≤ max 24 c.gov.fg.toNat := by
  have held : c.heldDown = true := by
    obtain ⟨j, hj⟩ := hot
    unfold Channel.heldDown
    have any : (c.gov.cores.toList.any fun k => k.hotTj) = true :=
      List.any_eq_true.mpr ⟨_, (Vector.mem_toList_index _ _).mpr ⟨j, rfl⟩, hj⟩
    rw [any, Bool.and_true, Bool.or_eq_true]
    exact .inr (bne_iff_ne.mpr hm)
  have := c.groupCode_le.2.1 held
  rw [Channel.settle_group_fg hm]
  omega

theorem settle_lowers (hm : c.gov.gmode = 0) (j : Core) : c.settle.gov.cores[j].f.toNat ≤ c.gov.cores[j].f.toNat := by
  rw [Channel.settle_core_mode hm, Channel.lowestHot_cores]
  exact (c.capCores_f j).1

/-! ### PLLs -/

/-- A core's PLL state, set. -/
def CorePower.atPll (x : CorePower) (p : PllSt) : CorePower := { x with pll := p }

/-- The code that a core which wakes comes to: a core that waits to cool is not raised. -/
def Channel.wakeCode (c : Channel) (k : Core) : BitVec 7 :=
  if (c.gov.cores[k].hotTj && c.gov.cores[k].f != 0 &&
      decide (c.gov.cores[k].f < clampCode (min c.gov.fg.toNat (min c.gov.cores[k].cap c.gov.ftop.toNat)))) = true
  then c.gov.cores[k].f else clampCode (min c.gov.fg.toNat (min c.gov.cores[k].cap c.gov.ftop.toNat))

/-- The channel of a core that wakes, before its group settles. -/
def Channel.woken (c : Channel) (k : Core) : Channel :=
  { c with gov := { c.gov with
    cores := c.gov.cores.set k ((c.moved k (c.wakeCode k)).atPll .hot)
    wakeTotal := if c.gov.cores[k].pll = .cold then c.gov.wakeTotal + 1 else c.gov.wakeTotal } }

theorem Channel.wake_core (c : Channel) (k : Core) :
    c.wake (.core k) = if c.gov.cores[k].pll = .hot then c else (c.woken k).settle := rfl

theorem Channel.woken_core (c : Channel) (k j : Core) : (c.woken k).gov.cores[j] =
    if j = k then (c.moved k (c.wakeCode k)).atPll .hot else c.gov.cores[j] := Vector.set_get _ _ _ _

theorem Channel.wake_spec (c : Channel) (k : Core) : c.wake (.core k) = { c with gov := (c.wake (.core k)).gov } ∧
    (c.wake (.core k)).gov.cores[k].pll = .hot ∧
    (∀ j : Core, j ≠ k → (c.wake (.core k)).gov.cores[j].pll = c.gov.cores[j].pll) ∧
    (c.wake (.core k)).gov.wakeTotal = c.gov.wakeTotal + if c.gov.cores[k].pll = .cold then 1 else 0 := by
  rw [Channel.wake_core]
  split
  · next h => exact ⟨rfl, h, fun _ _ => rfl, by rw [h]; exact (BitVec.add_zero _).symm⟩
  · have r := Retuned.settle (c.woken k)
    refine ⟨r.gov, ?_, fun j hj => ?_, ?_⟩
    · rw [r.pll, Channel.woken_core, if_pos rfl]
      rfl
    · rw [r.pll, Channel.woken_core, if_neg hj]
    · rw [r.wakeTotal]
      change (if c.gov.cores[k].pll = .cold then c.gov.wakeTotal + 1 else c.gov.wakeTotal) = _
      split
      · rfl
      · exact (BitVec.add_zero _).symm

/-- In CORE mode a core that waits to cool wakes no higher than it was. -/
theorem Channel.wake_hot_f (hm : c.gov.gmode = 0) {k : Core} (hot : c.gov.cores[k].hotTj = true) (h0 : c.gov.cores[k].f ≠ 0) :
    (c.wake (.core k)).gov.cores[k].f.toNat ≤ c.gov.cores[k].f.toNat := by
  rw [Channel.wake_core]
  split
  · exact le_refl _
  · refine (settle_lowers (c := c.woken k) hm k).trans ?_
    rw [Channel.woken_core, if_pos rfl]
    change (c.moved k (c.wakeCode k)).f.toNat ≤ _
    unfold Channel.wakeCode
    split
    · rw [Channel.moved_same rfl]
    · next h =>
      have low : ¬ c.gov.cores[k].f < clampCode (min c.gov.fg.toNat (min c.gov.cores[k].cap c.gov.ftop.toNat)) :=
        fun hl => h (by simp only [hot, bne_iff_ne.mpr h0, decide_eq_true hl, Bool.and_self])
      rw [BitVec.lt_def, clampCode_toNat] at low
      rw [Channel.moved_clamp_f]
      omega

theorem Channel.wake_chanA (c : Channel) : c.wake .chanA = { c with gov := { c.gov with
    pllA := .hot, wakeTotal := c.gov.wakeTotal + if c.gov.pllA = .cold then 1 else 0 } } := by
  unfold Channel.wake
  dsimp only
  by_cases h : c.gov.pllA = .cold
  · simp [h]
  · simp [h]

/-- The channel of a core whose PLL leaves HOT, before its group settles. -/
def Channel.idled (c : Channel) (k : Core) : Channel :=
  (c.readTj k (c.gov.cores[k].atPll .warm)).modCore k CoreState.rowsOff

theorem Channel.modCore_core (c : Channel) (k j : Core) (f : CoreState → CoreState) :
    (c.modCore k f).cores[j] = if j = k then f c.cores[k] else c.cores[j] := Vector.set_get _ _ _ _

theorem pllIdle_core {k : Core} (hp : c.gov.cores[k].pll = .hot) (hk : c.keepsHot k = false) :
    pllIdle c (.core k) = (c.idled k).settle := by
  unfold pllIdle
  dsimp only
  rw [hp, hk]
  rfl

theorem pllIdle_core_kept {k : Core} (h : c.gov.cores[k].pll ≠ .hot ∨ c.keepsHot k = true) : pllIdle c (.core k) = c := by
  unfold pllIdle
  dsimp only
  rw [if_neg]
  simp only [Bool.and_eq_true, decide_eq_true_eq, Bool.not_eq_true']
  rintro ⟨hp, hk⟩
  rcases h with h | h
  · exact h hp
  · exact absurd (h.symm.trans hk) (by decide)

theorem Channel.idled_core (c : Channel) (k j : Core) : (c.idled k).gov.cores[j] =
    if j = k then c.gov.cores[k].atPll .warm else c.gov.cores[j] := Channel.readTj_core c k j _

theorem pllIdle_core_spec {k : Core} (hp : c.gov.cores[k].pll = .hot) (hk : c.keepsHot k = false) :
    pllIdle c (.core k) = { c with gov := (pllIdle c (.core k)).gov, cores := (pllIdle c (.core k)).cores } ∧
    (pllIdle c (.core k)).gov.cores[k].pll = .warm ∧
    (∀ j : Core, j ≠ k → (pllIdle c (.core k)).cores[j] = c.cores[j] ∧
      (pllIdle c (.core k)).gov.cores[j].pll = c.gov.cores[j].pll) ∧
    (c.gov.gmode = 0 → (∀ j : Core, j ≠ k → c.gov.cores[j].pll ≠ .hot) →
      (pllIdle c (.core k)).gov.fg.toNat = min c.gov.fg.toNat 76) ∧
    ∀ b : ArrayId, (pllIdle c (.core k)).cores[k].array b = { c.cores[k].array b with rowsOn := false } := by
  rw [pllIdle_core hp hk]
  have r := Retuned.settle (c.idled k)
  have cores : (c.idled k).settle.cores = (c.idled k).cores := by rw [r.rest]
  have core (j : Core) : (c.idled k).cores[j] = if j = k then c.cores[k].rowsOff else c.cores[j] :=
    Channel.modCore_core _ k j _
  refine ⟨by rw [r.rest]; rfl, ?_, fun j hj => ⟨?_, ?_⟩, fun hm cold => ?_, fun b => ?_⟩
  · rw [r.pll, Channel.idled_core, if_pos rfl]
    rfl
  · rw [cores, core, if_neg hj]
  · rw [r.pll, Channel.idled_core, if_neg hj]
  · have none (j : Core) : (c.idled k).capCores.gov.cores[j].pll ≠ .hot := by
      rw [(Retuned.capCores _).pll, Channel.idled_core]
      split
      · exact nofun
      · exact cold j ‹_›
    rw [Channel.settle_core_mode (c := c.idled k) hm, Channel.lowestHot_none none]
    exact (BitVec.toNat_ofNat _ _).trans (Nat.mod_eq_of_lt (by omega))
  · rw [cores, core, if_pos rfl]
    cases b <;> rfl

theorem colddlyExpiry_spec {k : Core} (hd : c.gov.colddly ≠ 0) (hp : c.gov.cores[k].pll = .warm) (hk : c.coldOk k = true) :
    colddlyExpiry c k = { c with gov := (colddlyExpiry c k).gov } ∧ (colddlyExpiry c k).gov.cores[k].pll = .cold ∧
    ∀ j : Core, j ≠ k → (colddlyExpiry c k).gov.cores[j].pll = c.gov.cores[j].pll := by
  have e : colddlyExpiry c k = (c.readTj k (c.gov.cores[k].atPll .cold)).settle := by
    unfold colddlyExpiry
    dsimp only
    rw [if_pos (by simp only [bne_iff_ne.mpr hd, hp, hk, beq_self_eq_true, Bool.and_self])]
    rfl
  have r := Retuned.settle (c.readTj k (c.gov.cores[k].atPll .cold))
  rw [e]
  refine ⟨r.gov, ?_, fun j hj => ?_⟩
  · rw [r.pll, Channel.readTj_core, if_pos rfl]
    rfl
  · rw [r.pll, Channel.readTj_core, if_neg hj]

theorem colddlyExpiry_kept {k : Core} (h : c.gov.colddly = 0 ∨ c.gov.cores[k].pll ≠ .warm ∨ c.coldOk k = false) :
    colddlyExpiry c k = c := by
  unfold colddlyExpiry
  dsimp only
  rw [if_neg]
  simp only [Bool.and_eq_true, bne_iff_ne, beq_iff_eq]
  rintro ⟨⟨hd, hp⟩, hk⟩
  rcases h with h | h | h
  · exact hd h
  · exact h hp
  · exact absurd (h.symm.trans hk) (by decide)

theorem pllIdle_chanA_kept (h : c.gov.pllA ≠ .hot ∨ c.keepsA = true) : pllIdle c .chanA = c := by
  unfold pllIdle
  dsimp only
  rw [if_neg]
  simp only [Bool.and_eq_true, decide_eq_true_eq, Bool.not_eq_true']
  rintro ⟨hp, hk⟩
  rcases h with h | h
  · exact h hp
  · exact absurd (h.symm.trans hk) (by decide)

theorem pllIdle_chanA (hp : c.gov.pllA = .hot) (hk : c.keepsA = false) :
    pllIdle c .chanA = { c with gov := { c.gov with pllA := .warm } } := by
  unfold pllIdle
  dsimp only
  rw [hp, hk]
  rfl

/-! ### Droop and array rows -/

theorem droopDetect_kept {g : Gov} {k : Core} (h : g.cores[k].pll ≠ .hot ∨ g.cores[k].stretched = true) :
    droopDetect g k = g := by
  unfold droopDetect
  dsimp only
  rw [if_neg]
  simp only [Bool.and_eq_true, decide_eq_true_eq, Bool.not_eq_true']
  rintro ⟨hp, hk⟩
  rcases h with h | h
  · exact h hp
  · exact absurd (h.symm.trans hk) (by decide)

theorem droopDetect_hot {g : Gov} {k : Core} (hp : g.cores[k].pll = .hot) (hk : g.cores[k].stretched = false) :
    droopDetect g k = { g with cores := g.cores.set k { g.cores[k] with stretched := true }, droopTotal := g.droopTotal + 1 } := by
  unfold droopDetect
  dsimp only
  rw [hp, hk]
  rfl

theorem arrayRowDisable_spec (c : Channel) (k : Core) (a : ArrayId) :
    arrayRowDisable c k a = { c with cores := (arrayRowDisable c k a).cores } ∧
    (arrayRowDisable c k a).cores[k].array a = { c.cores[k].array a with rowsOn := false } ∧
    (∀ b, b ≠ a → (arrayRowDisable c k a).cores[k].array b = c.cores[k].array b) ∧
    ∀ j : Core, j ≠ k → (arrayRowDisable c k a).cores[j] = c.cores[j] := by
  refine ⟨rfl, ?_, fun b hb => ?_, fun j hj => ?_⟩ <;> unfold arrayRowDisable <;> rw [Channel.modCore_core]
  · rw [if_pos rfl]
    cases a <;> rfl
  · rw [if_pos rfl]
    cases a with
    | rime => cases b with
      | rime => exact absurd rfl hb
      | firnA => rfl
      | firnB => rfl
    | firnA => cases b with
      | firnA => exact absurd rfl hb
      | rime => rfl
      | firnB => rfl
    | firnB => cases b with
      | firnB => exact absurd rfl hb
      | rime => rfl
      | firnA => rfl
  · rw [if_neg hj]

end

/-- Settles O52: each clause from what its row makes of the channel. -/
theorem heatAndClocks : Obligations.HeatAndClocks := by
  unfold Obligations.HeatAndClocks
  refine ⟨fun s ch k tj c x hc hu hx h255 => ?_, fun s ch k tj c hc hu h255 => ⟨fun hp => ?_, fun hp => ?_⟩,
    fun s ch k a c x hc hu hx => ?_⟩
  · subst hx
    refine ⟨fun v _ hv => exec_modUp hc hu rfl ?_, fun hot due => ?_, fun h => ?_, settle_heldByHeat,
      fun hm => ⟨settle_lowers hm, fun hot h0 acts => ⟨⟨c.wake (.core k), exec_modUp hc hu rfl rfl, Channel.wake_hot_f hm hot h0⟩, ?_⟩⟩⟩
    · rw [thcutUpdate_eq, Channel.cutNext_eq hv]
    · obtain ⟨hgov, hhot, htemp, hticks, hall⟩ := tjSample_reading h255 hot due
      refine ⟨tjSample c k tj, exec_tjSample hc hu, hgov, hhot, htemp, hticks, fun hm => (tjSample_core h255 hot due hm).2,
        fun hm h88 => ?_⟩
      obtain ⟨hfg, hcores⟩ := (tjSample_group h255 hot due hm).2 h88
      exact ⟨hfg, fun j => ⟨hall hm j, hcores j⟩⟩
    · rw [exec_tjSample hc hu, tjSample_quiet h255 h]
      rfl
    · refine ⟨governorTick c acts, exec_modUp hc hu rfl rfl, ?_⟩
      obtain ⟨hhot, hcold⟩ := governorTick_coreMode hm acts k
      by_cases hp : c.gov.cores[k].pll = .hot
      · exact (hhot hp).2.2 (.inr hot)
      · rw [hcold hp]
        exact le_max_right _ _
  · subst hc
    rw [exec_tjSample_off rfl hu, modPowered_eq hp]
    unfold tjRead
    rw [min_eq_left h255]
    rfl
  · rw [exec_tjSample_off hc hu, modPowered, if_neg (by rw [hp]; decide)]
  · subst hx
    refine ⟨fun hp hk => exec_modUp hc hu rfl ?_, fun h => exec_modUp_same hc hu rfl ?_, exec_modUp hc hu rfl rfl,
      ⟨c.wake (.core k), exec_modUp hc hu rfl rfl, c.wake_spec k⟩, exec_modUp hc hu rfl c.wake_chanA,
      fun hp hk => exec_modUp hc hu rfl (pllIdle_chanA hp hk), fun h => exec_modUp_same hc hu rfl (pllIdle_chanA_kept h),
      fun hp hk => ⟨pllIdle c (.core k), exec_modUp hc hu rfl rfl, pllIdle_core_spec hp hk⟩,
      fun h => exec_modUp_same hc hu rfl (pllIdle_core_kept h),
      fun hd hp hk => ⟨colddlyExpiry c k, exec_modUp hc hu rfl rfl, colddlyExpiry_spec hd hp hk⟩,
      fun h => exec_modUp_same hc hu rfl (colddlyExpiry_kept h),
      ⟨arrayRowDisable c k a, exec_modUp hc hu rfl rfl, arrayRowDisable_spec c k a⟩⟩
    · exact congrArg (fun g => { c with gov := g }) (droopDetect_hot hp hk)
    · exact congrArg (fun g => { c with gov := g }) (droopDetect_kept h)

end Sys2Proof.Machine
end

