-- ==== Sys2Proof/Proofs/PowerAndAgeing.lean ====
section
/-!
SUPPORT. Measured power and the backstop, the path monitors and the ageing record (17 R380, R381, R384).
-/
namespace Sys2Proof.Machine

open Sys2Proof

/-! ### The backstop -/

section
variable (g : Gov)

@[simp] theorem Gov.backstopped_samples : g.backstopped.samples = g.samples := by
  unfold Gov.backstopped
  split_ifs <;> rfl

/-- What the backstop's note leaves as it was. -/
theorem Gov.backstopped_rest : g.backstopped = { g with
    backstopActs := g.backstopped.backstopActs, backstop := g.backstopped.backstop
    backstopTotal := g.backstopped.backstopTotal } := by
  unfold Gov.backstopped
  split_ifs <;> rfl

theorem Gov.backstopped_budget : g.backstopped.budget = g.budget := by
  rw [Gov.backstopped_rest]
  rfl

theorem Gov.backstopped_overBudget : g.backstopped.overBudget = g.overBudget := by
  rw [Gov.backstopped_rest]
  rfl

/-- The onset is noted once until both means are within. -/
theorem Gov.backstopped_spec : g.backstopped.backstopActs = g.overBudget ∧
    (g.overBudget = true → g.backstopActs = false →
      g.backstopped.backstop = true ∧ g.backstopped.backstopTotal = satAdd g.backstopTotal 1) ∧
    (g.overBudget = false ∨ g.backstopActs = true →
      g.backstopped.backstop = g.backstop ∧ g.backstopped.backstopTotal = g.backstopTotal) := by
  unfold Gov.backstopped
  cases ho : g.overBudget
  · exact ⟨rfl, nofun, fun _ => ⟨rfl, rfl⟩⟩
  · cases ha : g.backstopActs
    · exact ⟨rfl, fun _ _ => ⟨rfl, rfl⟩, by simp⟩
    · exact ⟨ha, nofun, fun _ => ⟨rfl, rfl⟩⟩

theorem Gov.overBudget_iff {xs ms : List Nat} (hx : xs = g.samples.take 1000000) (hm : ms = g.samples.take 1000) :
    g.overBudget = true ↔
      10 * g.budget * xs.length < xs.sum ∨ 11 * (10 * g.budget) * ms.length < 9 * ms.sum := by
  subst hx hm
  rw [Gov.overBudget, Bool.or_eq_true]
  refine or_congr ?_ decide_eq_true_iff
  rw [Gov.exceeds, decide_eq_true_iff, one_mul, one_mul]
  rfl

/-- The registers after a sample, before the backstop is judged. -/
def Gov.sampled (p : Nat) : Gov :=
  { g with
    samples := (p :: g.samples).take 1000000
    p1ms := BitVec.ofNat 16 (min (mean (((p :: g.samples).take 1000000).take 1000)) 65535)
    p1s := BitVec.ofNat 16 (min (mean ((p :: g.samples).take 1000000)) 65535)
    energy := g.energy + BitVec.ofNat 64 ((g.energyRem + p) / 10000), energyRem := (g.energyRem + p) % 10000 }

theorem powerSample_eq (p : Nat) : powerSample g p = (g.sampled p).backstopped := rfl
end

theorem toNat_ofNat_capped (n : Nat) : (BitVec.ofNat 16 (min n 65535)).toNat = min n 65535 := by
  rw [BitVec.toNat_ofNat]
  omega

theorem powerSample_spec {g : Gov} {p : Nat} {xs ms : List Nat} (hx : xs = (p :: g.samples).take 1000000)
    (hm : ms = xs.take 1000) : (powerSample g p).samples = xs ∧
      (powerSample g p).p1s.toNat = min (xs.sum / xs.length) 65535 ∧
      (powerSample g p).p1ms.toNat = min (ms.sum / ms.length) 65535 ∧
      (powerSample g p).energyRem < 10000 ∧
      (powerSample g p).energy = g.energy + BitVec.ofNat 64 ((g.energyRem + p) / 10000) ∧
      (powerSample g p).energyRem = (g.energyRem + p) % 10000 ∧ (powerSample g p).budget = g.budget ∧
      ((powerSample g p).overBudget = true ↔
        10 * g.budget * xs.length < xs.sum ∨ 11 * (10 * g.budget) * ms.length < 9 * ms.sum) ∧
      (powerSample g p).backstopActs = (powerSample g p).overBudget ∧
      ((powerSample g p).overBudget = true → g.backstopActs = false →
        (powerSample g p).backstop = true ∧ (powerSample g p).backstopTotal = satAdd g.backstopTotal 1) ∧
      ((powerSample g p).overBudget = false ∨ g.backstopActs = true →
        (powerSample g p).backstop = g.backstop ∧ (powerSample g p).backstopTotal = g.backstopTotal) := by
  have p1s : (powerSample g p).p1s = BitVec.ofNat 16 (min (mean xs) 65535) := by
    rw [powerSample_eq, Gov.backstopped_rest, hx]
    rfl
  have p1ms : (powerSample g p).p1ms = BitVec.ofNat 16 (min (mean ms) 65535) := by
    rw [powerSample_eq, Gov.backstopped_rest, hm, hx]
    rfl
  have rem : (powerSample g p).energyRem = (g.energyRem + p) % 10000 := by
    rw [powerSample_eq, Gov.backstopped_rest]
    rfl
  have energy : (powerSample g p).energy = g.energy + BitVec.ofNat 64 ((g.energyRem + p) / 10000) := by
    rw [powerSample_eq, Gov.backstopped_rest]
    rfl
  have samples : (powerSample g p).samples = xs := by
    rw [powerSample_eq, Gov.backstopped_samples, hx]
    rfl
  have budget : (powerSample g p).budget = g.budget := by
    rw [powerSample_eq, Gov.backstopped_budget]
    rfl
  have short : xs.length ≤ 1000000 := by
    rw [hx, List.length_take]
    exact min_le_left _ _
  have past := Gov.overBudget_iff (powerSample g p) (xs := xs) (ms := ms) (by rw [samples, List.take_of_length_le short])
    (by rw [samples, hm])
  rw [budget] at past
  obtain ⟨hacts, hset, hkept⟩ := (g.sampled p).backstopped_spec
  rw [← Gov.backstopped_overBudget] at hacts hset hkept
  refine ⟨samples, by rw [p1s, toNat_ofNat_capped, mean], by rw [p1ms, toNat_ofNat_capped, mean], ?_, energy, rem, budget, past,
    hacts, hset, hkept⟩
  rw [rem]
  exact Nat.mod_lt _ (by decide)

/-! ### One step down -/

section
variable {c : Channel}

/-- Every hot core one code lower. -/
def Channel.allLower (c : Channel) : Channel :=
  { c with gov := { c.gov with cores := Vector.ofFn fun k : Core =>
    if c.gov.cores[k].pll = .hot then c.moved k (clampCode (c.gov.cores[k].f.toNat - 1)) else c.gov.cores[k] } }

theorem Channel.allLower_core (c : Channel) (k : Core) : c.allLower.gov.cores[k] =
    if c.gov.cores[k].pll = .hot then c.moved k (clampCode (c.gov.cores[k].f.toNat - 1)) else c.gov.cores[k] :=
  Vector.ofFn_get _ _

theorem Channel.stepDown_eq (c : Channel) : c.stepDown =
    if c.gov.gmode = 0 then c.allLower.lowestHot else c.setGroup (clampCode (c.gov.fg.toNat - 1)) := rfl

theorem Retuned.stepDown (c : Channel) : Retuned c c.stepDown := by
  rw [Channel.stepDown_eq]
  split
  · refine Retuned.trans ⟨rfl, fun k => ?_⟩ (.lowestHot _)
    rw [Channel.allLower_core]
    split
    · exact .moved c k _
    · exact .refl _
  · exact .setGroup c _

theorem Channel.stepDown_group (hm : c.gov.gmode ≠ 0) (h88 : c.gov.fg.toNat ≤ 88) :
    c.stepDown.gov.fg.toNat = max 24 (c.gov.fg.toNat - 1) ∧
    ∀ k : Core, c.gov.cores[k].pll = .hot → c.stepDown.gov.cores[k].f.toNat = c.stepDown.gov.fg.toNat := by
  rw [Channel.stepDown_eq, if_neg hm, Channel.setGroup_fg, clampCode_toNat]
  refine ⟨by omega, fun k hk => ?_⟩
  rw [Channel.setGroup_core, if_pos hk, Channel.moved_clamp_f]

theorem Channel.stepDown_core (hm : c.gov.gmode = 0) {k : Core} (h88 : c.gov.cores[k].f.toNat ≤ 88)
    (hk : c.gov.cores[k].pll = .hot) : c.stepDown.gov.cores[k].f.toNat = max 24 (c.gov.cores[k].f.toNat - 1) := by
  rw [Channel.stepDown_eq, if_pos hm, Channel.lowestHot_cores, Channel.allLower_core, if_pos hk, Channel.moved_clamp_f]
  omega

theorem Channel.stepDown_cold {k : Core} (hk : c.gov.cores[k].pll ≠ .hot) : c.stepDown.gov.cores[k] = c.gov.cores[k] := by
  by_cases hm : c.gov.gmode = 0
  · rw [Channel.stepDown_eq, if_pos hm, Channel.lowestHot_cores, Channel.allLower_core, if_neg hk]
  · rw [Channel.stepDown_eq, if_neg hm, Channel.setGroup_core, if_neg hk]

/-- The channel with the backstop judged. -/
def Channel.judged (c : Channel) : Channel := { c with gov := c.gov.backstopped }

theorem backstopStep_acts (h : c.gov.overBudget = true) : backstopStep c = c.judged.stepDown := by
  unfold backstopStep
  dsimp only
  rw [Gov.backstopped_overBudget, if_pos h]
  rfl

theorem backstopStep_rests (h : c.gov.overBudget = false) : backstopStep c = { c with gov := { c.gov with backstopActs := false } } := by
  have rest : c.gov.backstopped = { c.gov with backstopActs := false } := by
    unfold Gov.backstopped
    rw [h]
    rfl
  unfold backstopStep
  dsimp only
  rw [Gov.backstopped_overBudget, if_neg (by rw [h]; decide), rest]

theorem Channel.judged_cores (c : Channel) : c.judged.gov.cores = c.gov.cores := by
  change c.gov.backstopped.cores = _
  rw [Gov.backstopped_rest]

theorem Channel.judged_fg (c : Channel) : c.judged.gov.fg = c.gov.fg := by
  change c.gov.backstopped.fg = _
  rw [Gov.backstopped_rest]

theorem Channel.judged_gmode (c : Channel) : c.judged.gov.gmode = c.gov.gmode := by
  change c.gov.backstopped.gmode = _
  rw [Gov.backstopped_rest]

theorem Retuned.backstop {d : Channel} (h : Retuned c d) :
    d.gov.backstop = c.gov.backstop ∧ d.gov.backstopTotal = c.gov.backstopTotal := by
  rw [h.rest]
  exact ⟨rfl, rfl⟩

theorem backstopStep_spec (h : c.gov.overBudget = true) (h88 : c.gov.fg.toNat ≤ 88)
    (hf : ∀ k : Core, c.gov.cores[k].f.toNat ≤ 88) : backstopStep c = { c with gov := (backstopStep c).gov } ∧
      (c.gov.backstopActs = false → (backstopStep c).gov.backstop = true ∧
        (backstopStep c).gov.backstopTotal = satAdd c.gov.backstopTotal 1) ∧
      (c.gov.backstopActs = true → (backstopStep c).gov.backstop = c.gov.backstop ∧
        (backstopStep c).gov.backstopTotal = c.gov.backstopTotal) ∧
      (c.gov.gmode ≠ 0 → (backstopStep c).gov.fg.toNat = max 24 (c.gov.fg.toNat - 1) ∧
        ∀ k : Core, c.gov.cores[k].pll = .hot → (backstopStep c).gov.cores[k].f.toNat = (backstopStep c).gov.fg.toNat) ∧
      (c.gov.gmode = 0 → ∀ k : Core, c.gov.cores[k].pll = .hot →
        (backstopStep c).gov.cores[k].f.toNat = max 24 (c.gov.cores[k].f.toNat - 1)) ∧
      ∀ k : Core, c.gov.cores[k].pll ≠ .hot → (backstopStep c).gov.cores[k] = c.gov.cores[k] := by
  obtain ⟨-, onset, kept⟩ := c.gov.backstopped_spec
  have r := Retuned.stepDown c.judged
  rw [backstopStep_acts h, r.backstop.1, r.backstop.2]
  have group := Channel.stepDown_group (c := c.judged)
  have core (k : Core) := Channel.stepDown_core (c := c.judged) (k := k)
  have cold (k : Core) := Channel.stepDown_cold (c := c.judged) (k := k)
  rw [Channel.judged_fg, Channel.judged_gmode, Channel.judged_cores] at group
  rw [Channel.judged_gmode, Channel.judged_cores] at core
  rw [Channel.judged_cores] at cold
  exact ⟨r.gov, onset h, fun ha => kept (.inr ha), fun hm => group hm h88, fun hm k hk => core k hm (hf k) hk,
    fun k hk => cold k hk⟩

/-! ### Path monitors -/

/-- VOFF after a measurement. -/
def CorePower.voffNext (x : CorePower) (ok : List Bool) : Byte := if ok.all id then x.voff else satAdd x.voff 1

/-- A core after a measurement, before its group settles. -/
def Channel.measured (c : Channel) (k : Core) (ok : List Bool) (at_ : Nat) : CorePower :=
  let x := c.gov.cores[k]
  let fmax := c.fmaxOf k (x.voffNext ok) at_
  let fails := if fmax < 76 then x.fails + 1 else 0
  { x with
    voff := x.voffNext ok, volt := if x.f = 0 then x.volt else x.volt + (x.voffNext ok - x.voff).toNat
    fmax := BitVec.ofNat 7 fmax, fails := fails, degraded := x.degraded || fails == 4 }

theorem CorePower.voffNext_eq (x : CorePower) (ok : List Bool) :
    satAdd x.voff (if ok.all id then 0 else 1) = x.voffNext ok := by
  unfold CorePower.voffNext
  split
  · refine BitVec.eq_of_toNat_eq ((BitVec.toNat_ofNat _ _).trans ?_)
    have := x.voff.isLt
    omega
  · rfl

/-- The channel after a measurement, its group settled. -/
def Channel.retimed (c : Channel) (k : Core) (ok : List Bool) (at_ : Nat) : Channel :=
  (c.readTj k (c.measured k ok at_)).settle

theorem pathMonitorMeasure_eq (c : Channel) (k : Core) (ok : List Bool) (at_ : Nat) : pathMonitorMeasure c k ok at_ =
    if ((c.measured k ok at_).fails == 4) = true then (c.retimed k ok at_).degrade 0x0A 0 (2 ^ k.val)
    else c.retimed k ok at_ := by
  unfold pathMonitorMeasure
  dsimp only
  rw [CorePower.voffNext_eq]
  rfl

theorem Channel.retimed_tuned (c : Channel) (k : Core) (ok : List Bool) (at_ : Nat) :
    (c.measured k ok at_).Tuned (c.retimed k ok at_).gov.cores[k] := by
  have h := (Retuned.settle (c.readTj k (c.measured k ok at_))).cores k
  rwa [Channel.readTj_core, if_pos rfl] at h

/-- No hot core runs above what its F_max allows. -/
theorem Channel.settle_le_cap (c : Channel) {k : Core} (hk : c.gov.cores[k].pll = .hot) :
    c.settle.gov.cores[k].f.toNat ≤ max 24 c.gov.cores[k].cap := by
  by_cases hm : c.gov.gmode = 0
  · have := (c.capCores_f k).2 hk
    rw [Channel.settle_core_mode hm, Channel.lowestHot_cores]
    omega
  · have := c.groupCode_le.1
    have := c.groupTarget_le.2.2.2 k (by rw [hk]; exact nofun)
    rw [Channel.settle_group_f hm hk, Channel.settle_group_fg hm]
    omega

theorem Channel.fmaxOf_toNat (c : Channel) (k : Core) (v : Byte) (n : Nat) :
    (BitVec.ofNat 7 (c.fmaxOf k v n)).toNat = c.fmaxOf k v n := by
  have : c.fmaxOf k v n ≤ 88 := highest_le
  rw [BitVec.toNat_ofNat]
  omega

/-- The fault registers after the report of a degraded core. -/
def Channel.markDegraded (c : Channel) (mask : Nat) : Channel :=
  { c with flt := { c.flt with
    degraded := true, fclass := 0x0A, faddr := 0, degmask := c.flt.degmask ||| BitVec.ofNat 8 mask } }

/-- A degraded core is reported at once. -/
theorem Channel.degrade_spec (c : Channel) (hu : c.up = true) (mask : Nat) :
    (c.degrade 0x0A 0 mask).flt.degraded = true ∧ (c.degrade 0x0A 0 mask).flt.fclass = 0x0A ∧
    (c.degrade 0x0A 0 mask).flt.degmask = c.flt.degmask ||| BitVec.ofNat 8 mask ∧
    (c.stp.st ≠ .done → c.flt.retired = false → ∃ h, (c.degrade 0x0A 0 mask).flt.sentHb = c.flt.sentHb ++ [h] ∧
      h.degraded = true ∧ h.degmask = (c.degrade 0x0A 0 mask).flt.degmask) := by
  have e : c.degrade 0x0A 0 mask = (c.markDegraded mask).sendHb := if_pos hu
  rw [e, Channel.sendHb]
  by_cases hs : c.stp.st = .done ∨ c.flt.retired = true
  · rw [Channel.sendHbBody_quiet (c := c.markDegraded mask) hs]
    refine ⟨rfl, rfl, rfl, fun h h' => ?_⟩
    rcases hs with hs | hs
    · exact absurd hs h
    · exact absurd (hs.symm.trans h') (by decide)
  · rw [not_or, Bool.not_eq_true] at hs
    rw [Channel.sendHbBody_sent (c := c.markDegraded mask) hs.1 hs.2]
    exact ⟨rfl, rfl, rfl, fun _ _ => ⟨_, rfl, rfl, rfl⟩⟩

theorem ageingRecordWrite_byte (c : Channel) (a : Nat) : Mem.byte 0xFF (ageingRecordWrite c).boot.flash a =
    if ageingAddr c.boot.ageCopy ≤ a ∧ a < ageingAddr c.boot.ageCopy + 8 then
      (c.gov.cores.toList.map (·.voff)).getD (a - ageingAddr c.boot.ageCopy) 0
    else Mem.byte 0xFF c.boot.flash a := by
  have len : (c.gov.cores.toList.map (·.voff)).length = 8 := by simp
  change Mem.byte 0xFF (Mem.write 0xFF c.boot.flash (ageingAddr c.boot.ageCopy) (c.gov.cores.toList.map (·.voff))) a = _
  rw [Mem.byte_write, len]
  split
  · have inside : a - ageingAddr c.boot.ageCopy < (c.gov.cores.toList.map (·.voff)).length := by omega
    rw [List.getD_eq_getElem _ _ inside, List.getD_eq_getElem _ _ inside]
  · rfl
end

/-- The registers and the core that a measurement leaves, apart from a report. -/
theorem Channel.retimed_spec (c : Channel) (k : Core) (ok : List Bool) (at_ : Nat) :
    Retuned (c.readTj k (c.measured k ok at_)) (c.retimed k ok at_) := .settle _

theorem pathMonitorMeasure_gov (c : Channel) (k : Core) (ok : List Bool) (at_ : Nat) :
    (pathMonitorMeasure c k ok at_).gov = (c.retimed k ok at_).gov ∧ (pathMonitorMeasure c k ok at_).mem = c.mem ∧
    (pathMonitorMeasure c k ok at_).queues = c.queues := by
  have r := c.retimed_spec k ok at_
  rw [pathMonitorMeasure_eq]
  split
  · have n := Noted.of_reported (Reported.degrade (c.retimed k ok at_) 0x0A 0 (2 ^ k.val))
    refine ⟨n.gov, n.mem.trans ?_, n.queues.trans ?_⟩ <;> rw [r.rest] <;> rfl
  · refine ⟨rfl, ?_, ?_⟩ <;> rw [r.rest] <;> rfl

/-- Settles O49: the parts from what a sample, a step down, a measurement and the record's write make of the channel. -/
theorem powerAndAgeing : Obligations.PowerAndAgeing := by
  unfold Obligations.PowerAndAgeing
  refine ⟨fun s ch p c g xs ms hc hu hg hx hm => ?_, fun s ch k ok at_ c x fits hc hu hx hfits => ⟨?_, ?_⟩⟩
  · subst hg
    exact ⟨⟨powerSample c.gov p, exec_modUp hc hu rfl rfl, powerSample_spec hx hm⟩,
      fun h h88 hf => ⟨backstopStep c, exec_modUp hc hu rfl rfl, backstopStep_spec h h88 hf⟩,
      fun h => exec_modUp hc hu rfl (backstopStep_rests h)⟩
  · subst hx
    obtain ⟨hgov, hmem, hqueues⟩ := pathMonitorMeasure_gov c k ok at_
    have t := c.retimed_tuned k ok at_
    have fmax : (c.retimed k ok at_).gov.cores[k].fmax.toNat = c.fmaxOf k (c.gov.cores[k].voffNext ok) at_ := by
      rw [t.fmax]
      exact c.fmaxOf_toNat k _ at_
    have voff : (c.retimed k ok at_).gov.cores[k].voff = c.gov.cores[k].voffNext ok := t.voff
    have flt : (c.retimed k ok at_).flt = c.flt := by rw [(c.retimed_spec k ok at_).rest]; rfl
    refine ⟨pathMonitorMeasure c k ok at_, (pathMonitorMeasure c k ok at_).gov.cores[k], exec_modUp hc hu rfl rfl, rfl, ?_⟩
    rw [hgov, voff, fmax]
    refine ⟨rfl, highest_ge, highest_le_top, ?_, fun n hl hh hf => ?_, fun hp => ?_, ?_, hmem, hqueues, fun low h3 => ?_, fun h => ?_⟩
    · rcases highest_fits (top := min at_ 88) (p := fun code =>
        decide (c.fused k code + (c.gov.cores[k].voffNext ok).toNat ≤ Config.vmax (8 * c.chid.toNat + k.val))) with h | h
      · exact .inl ((hfits _ _).mpr (of_decide_eq_true h))
      · exact .inr (BitVec.eq_of_toNat_eq (fmax.trans h))
    · exact le_highest hl (by omega) hh (decide_eq_true ((hfits _ _).mp hf))
    · have h := (c.readTj k (c.measured k ok at_)).settle_le_cap (k := k) (by rw [Channel.readTj_core, if_pos rfl]; exact hp)
      rw [Channel.readTj_core, if_pos rfl] at h
      have cap : (c.measured k ok at_).cap = c.fmaxOf k (c.gov.cores[k].voffNext ok) at_ := by
        have ge : 24 ≤ c.fmaxOf k (c.gov.cores[k].voffNext ok) at_ := highest_ge
        have e := c.fmaxOf_toNat k (c.gov.cores[k].voffNext ok) at_
        unfold CorePower.cap
        rw [if_neg]
        · exact e
        · intro h0
          have h0 : BitVec.ofNat 7 (c.fmaxOf k (c.gov.cores[k].voffNext ok) at_) = 0 := h0
          rw [h0] at e
          change 0 = _ at e
          omega
      have ge : 24 ≤ c.fmaxOf k (c.gov.cores[k].voffNext ok) at_ := highest_ge
      rw [cap] at h
      change (c.retimed k ok at_).gov.cores[k].f.toNat ≤ _ at h
      omega
    · rw [t.fails]
      rfl
    · have four : (c.measured k ok at_).fails = 4 := by
        change (if c.fmaxOf k (c.gov.cores[k].voffNext ok) at_ < 76 then c.gov.cores[k].fails + 1 else 0) = 4
        rw [if_pos low, h3]
      have up : (c.retimed k ok at_).up = true := by rw [(c.retimed_spec k ok at_).rest]; exact hu
      have stp : (c.retimed k ok at_).stp = c.stp := by rw [(c.retimed_spec k ok at_).rest]; rfl
      have shown := (c.retimed k ok at_).degrade_spec up (2 ^ k.val)
      rw [flt, stp] at shown
      rw [pathMonitorMeasure_eq, four]
      refine ⟨?_, shown⟩
      rw [t.degraded]
      change (_ || (c.measured k ok at_).fails == 4) = true
      rw [four]
      exact Bool.or_true _
    · have quiet : ((c.measured k ok at_).fails == 4) = false := by
        change ((if c.fmaxOf k (c.gov.cores[k].voffNext ok) at_ < 76 then c.gov.cores[k].fails + 1 else 0) == 4) = false
        rw [beq_eq_false_iff_ne]
        split <;> omega
      rw [pathMonitorMeasure_eq, quiet]
      refine ⟨?_, flt⟩
      rw [t.degraded]
      change (_ || (c.measured k ok at_).fails == 4) = _
      rw [quiet]
      exact Bool.or_false _
  · exact ⟨ageingRecordWrite c, exec_modUp hc hu rfl rfl, rfl, rfl, rfl, ageingRecordWrite_byte c⟩

end Sys2Proof.Machine
end

