-- ==== Sys2Proof/Proofs/Loans.lean ====
section
/-!
SUPPORT. The supply arbiter's grants and loans (17 R388 to R390): sums of what is shared, what a recomputation leaves of each
channel, and the recall of a loan.
-/
namespace Sys2Proof.Machine

open Sys2Proof

/-! ### Shares -/

/-- Where the shares of a pool go in order, they give it up as far as they can. -/
theorem takeUp_sum : ∀ (n : Nat) (xs : List Nat), (takeUp n xs).sum = min n xs.sum
  | _, [] => by simp [takeUp]
  | n, x :: xs => by
    rw [takeUp, List.sum_cons, List.sum_cons, takeUp_sum (n - min n x) xs]
    omega

theorem takeUp_length : ∀ (n : Nat) (xs : List Nat), (takeUp n xs).length = xs.length
  | _, [] => rfl
  | n, x :: xs => by rw [takeUp, List.length_cons, List.length_cons, takeUp_length]

theorem takeUp_getD_le : ∀ (n : Nat) (xs : List Nat) (i : Nat), (takeUp n xs).getD i 0 ≤ xs.getD i 0
  | _, [], i => by simp [takeUp]
  | n, x :: xs, 0 => min_le_right n x
  | n, x :: xs, i + 1 => by
    rw [takeUp, List.getD_cons_succ, List.getD_cons_succ]
    exact takeUp_getD_le (n - min n x) xs i

/-- A share of an even division, by how many asked before. -/
def shareOf (n k before : Nat) : Nat := n / k + if before < n % k then 1 else 0

/-- Shares of n among the channels asked for, where some were asked before them. -/
def evenFrom (n k : Nat) : Nat → List Bool → List Nat
  | _, [] => []
  | b, w :: ws => (if w then shareOf n k b else 0) :: evenFrom n k (b + if w then 1 else 0) ws

theorem evenShares_eq_from (n k : Nat) : ∀ (pre ws : List Bool),
    (ws.zipIdx pre.length).map (fun x => if x.1 then shareOf n k (((pre ++ ws).take x.2).filter id).length else 0) =
      evenFrom n k (pre.filter id).length ws
  | _, [] => rfl
  | pre, w :: ws => by
    have next := evenShares_eq_from n k (pre ++ [w]) ws
    rw [List.length_append, List.length_singleton, List.append_assoc, List.singleton_append] at next
    rw [List.zipIdx_cons, List.map_cons, next, evenFrom, List.take_left]
    congr 1
    cases w <;> simp

theorem evenShares_eq (n : Nat) (ws : List Bool) : evenShares n ws = evenFrom n (ws.filter id).length 0 ws :=
  evenShares_eq_from n (ws.filter id).length [] ws

/-- What is given to those asked, from the one asked after b others on. -/
theorem evenFrom_sum (n k : Nat) : ∀ (b : Nat) (ws : List Bool), (evenFrom n k b ws).sum =
    (n / k) * (ws.filter id).length + (min (b + (ws.filter id).length) (n % k) - min b (n % k))
  | _, [] => by simp [evenFrom]
  | b, false :: ws => by
    rw [evenFrom, List.sum_cons, evenFrom_sum n k _ ws]
    simp
  | b, true :: ws => by
    rw [evenFrom, List.sum_cons, evenFrom_sum n k _ ws]
    simp only [if_true, List.filter_cons, id_eq, List.length_cons, shareOf, Nat.mul_add]
    split <;> omega

/-- The shares together are no more than the pool. -/
theorem evenShares_sum_le (n : Nat) (ws : List Bool) : (evenShares n ws).sum ≤ n := by
  rw [evenShares_eq, evenFrom_sum]
  have e := Nat.div_add_mod n (ws.filter id).length
  rw [Nat.mul_comm] at e
  omega

theorem evenFrom_length (n k : Nat) : ∀ (b : Nat) (ws : List Bool), (evenFrom n k b ws).length = ws.length
  | _, [] => rfl
  | b, w :: ws => by rw [evenFrom, List.length_cons, List.length_cons, evenFrom_length]

theorem evenShares_length (n : Nat) (ws : List Bool) : (evenShares n ws).length = ws.length := by
  rw [evenShares_eq, evenFrom_length]

theorem evenFrom_getD_false (n k : Nat) : ∀ (b : Nat) (ws : List Bool) (i : Nat), ws.getD i false = false →
    (evenFrom n k b ws).getD i 0 = 0
  | _, [], i, _ => by simp [evenFrom]
  | b, w :: ws, 0, h => by
    have h : w = false := h
    subst h
    rfl
  | b, w :: ws, i + 1, h => evenFrom_getD_false n k _ ws i h

/-- A channel that is not asked gets nothing. -/
theorem evenShares_getD_false {n : Nat} {ws : List Bool} {i : Nat} (h : ws.getD i false = false) :
    (evenShares n ws).getD i 0 = 0 := by
  rw [evenShares_eq]
  exact evenFrom_getD_false _ _ _ _ _ h

/-- Lists cut down element by element. -/
def capped (xs ys : List Nat) : List Nat := (xs.zip ys).map fun (a, b) => min a b

theorem capped_sum_le : ∀ (xs ys : List Nat), (capped xs ys).sum ≤ xs.sum
  | [], _ => by simp [capped]
  | _ :: _, [] => by simp [capped]
  | x :: xs, y :: ys => by
    have ih := capped_sum_le xs ys
    have e : capped (x :: xs) (y :: ys) = min x y :: capped xs ys := rfl
    rw [e, List.sum_cons, List.sum_cons]
    omega

theorem capped_length {xs ys : List Nat} (h : xs.length = ys.length) : (capped xs ys).length = xs.length := by
  simp [capped, h]

theorem capped_getD_le : ∀ (xs ys : List Nat) (i : Nat),
    (capped xs ys).getD i 0 ≤ xs.getD i 0 ∧ (capped xs ys).getD i 0 ≤ ys.getD i 0
  | [], _, i => by simp [capped]
  | _ :: _, [], i => by simp [capped]
  | x :: xs, y :: ys, 0 => ⟨min_le_left x y, min_le_right x y⟩
  | x :: xs, y :: ys, i + 1 => capped_getD_le xs ys i

/-! ### Sums over the channels -/

theorem getD_le_sum (xs : List Nat) (i : Nat) : xs.getD i 0 ≤ xs.sum := by
  by_cases h : i < xs.length
  · rw [List.getD_eq_getElem _ _ h]
    exact List.le_sum_of_mem (List.getElem_mem h)
  · rw [List.getD_eq_default _ _ (Nat.le_of_not_lt h)]
    exact Nat.zero_le _

/-- The sum of a list of eight, channel by channel. -/
theorem sum_channels {xs : List Nat} (h : xs.length = 8) : ((List.finRange 8).map fun ch : Ch => xs.getD ch.val 0).sum = xs.sum := by
  congr 1
  refine List.ext_getElem (by simp [h]) fun i h1 h2 => ?_
  rw [List.getElem_map, List.getElem_finRange]
  exact List.getD_eq_getElem _ _ h2

theorem getD_channel {α : Type} (f : Ch → α) (d : α) (ch : Ch) : ((List.finRange 8).map f).getD ch.val d = f ch := by
  rw [List.getD_eq_getElem _ _ (by simp), List.getElem_map, List.getElem_finRange]
  rfl

theorem sum_map_congr {f g : Ch → Nat} (h : ∀ ch, f ch = g ch) : ((List.finRange 8).map f).sum = ((List.finRange 8).map g).sum :=
  congrArg List.sum (List.map_congr_left fun ch _ => h ch)

theorem sum_map_le {f g : Ch → Nat} (h : ∀ ch, f ch ≤ g ch) : ∀ l : List Ch, (l.map f).sum ≤ (l.map g).sum
  | [] => le_refl _
  | x :: l => Nat.add_le_add (h x) (sum_map_le h l)

/-- Parts of an allowance in proportion are together no more than the whole. -/
theorem sum_div_le (a : Nat) (f : Ch → Nat) : ∀ l : List Ch, (l.map fun ch => f ch * 3600 / a).sum ≤ (l.map f).sum * 3600 / a
  | [] => by simp
  | x :: l => by
    rw [List.map_cons, List.sum_cons, List.map_cons, List.sum_cons, Nat.add_mul]
    exact (Nat.add_le_add_left (sum_div_le a f l) _).trans Nat.div_add_div_le_add_div

theorem toNat_ofNat_le {n m : Nat} (h : n ≤ m) (hm : m < 65536) : (BitVec.ofNat 16 n).toNat = n := by
  rw [BitVec.toNat_ofNat]
  omega

theorem eq_zero_of_toNat {x : BitVec 16} (h : x.toNat = 0) : x = 0 := BitVec.eq_of_toNat_eq h

/-! ### Grants -/

theorem State.modAll_chan (s : State) (f : Ch → Channel → Channel) (ch : Ch) : (s.modAll f).chans[ch] = f ch s.chans[ch] :=
  Vector.ofFn_get _ _

/-- The arbiter knows the channel's allowance. -/
def State.known (s : State) (ch : Ch) : Bool := s.bridge.allowKnown.getD ch.val false

section
variable (s : State)

theorem State.regrant_unknown {ch : Ch} (h : s.known ch = false) : s.regrant.chans[ch] =
    { s.chans[ch] with gov := { s.chans[ch].gov with overalloc := decide (3600 < s.sumAllow) } } := by
  unfold State.regrant
  dsimp only
  rw [State.modAll_chan]
  have h : s.bridge.allowKnown.getD ch.val false = false := h
  rw [h]
  rfl

/-- A known channel's grant, and whether the allowances exceed what the supply gives. -/
def Gov.granted (g : Gov) (a : Nat) : Gov :=
  if 3600 < a then { g with grant := BitVec.ofNat 16 (g.allow.toNat * 3600 / a), overalloc := true, borrowed := 0, lent := 0 }
  else { g with grant := g.allow, overalloc := false }

theorem State.regrant_known {ch : Ch} (h : s.known ch = true) : s.regrant.chans[ch] =
    { s.chans[ch] with gov := s.chans[ch].gov.granted s.sumAllow } := by
  unfold State.regrant Gov.granted
  dsimp only
  rw [State.modAll_chan]
  have h : s.bridge.allowKnown.getD ch.val false = true := h
  rw [h, if_neg (by decide)]
  split <;> rfl

theorem Gov.granted_rest (g : Gov) (a : Nat) : g.granted a = { g with
    grant := (g.granted a).grant, overalloc := decide (3600 < a), borrowed := (g.granted a).borrowed, lent := (g.granted a).lent } := by
  unfold Gov.granted
  by_cases h : 3600 < a
  · rw [if_pos h, decide_eq_true h]
  · rw [if_neg h, decide_eq_false h]

theorem Gov.granted_grant (g : Gov) (a : Nat) : (g.granted a).grant.toNat =
    if 3600 < a then g.allow.toNat * 3600 / a else g.allow.toNat := by
  unfold Gov.granted
  split
  · next h =>
    have le : g.allow.toNat * 3600 / a ≤ g.allow.toNat := by
      refine Nat.div_le_of_le_mul ?_
      rw [Nat.mul_comm]
      exact Nat.mul_le_mul_right _ h.le
    exact toNat_ofNat_le le g.allow.isLt
  · rfl

/-! ### Loans -/

/-- The channels that may borrow. -/
def State.wants (t : State) (busy : List Bool) : List Bool :=
  (List.finRange 8).map fun ch => t.known ch && t.chans[ch].up && busy.getD ch.val false && t.chans[ch].powLimited

/-- What each channel may lend. -/
def State.offers (t : State) (busy : List Bool) : List Nat :=
  (List.finRange 8).map fun ch =>
    if t.known ch && t.chans[ch].gov.lend && decide (t.chans[ch].gov.recallTicks = 0) && !t.chans[ch].gov.overalloc &&
      !(t.wants busy).getD ch.val false
    then t.chans[ch].gov.allow.toNat - (t.chans[ch].gov.high + 9) / 10 - 50 else 0

/-- The loans. -/
def State.loans (t : State) (busy : List Bool) : List Nat :=
  capped (evenShares (min 400 (t.offers busy).sum) (t.wants busy)) ((List.finRange 8).map fun ch => t.chans[ch].gov.mayBorrow)

/-- What each lender gives of them. -/
def State.parts (t : State) (busy : List Bool) : List Nat := takeUp (t.loans busy).sum (t.offers busy)

theorem loanRecompute_eq (busy : List Bool) : loanRecompute s busy = s.regrant.modAll fun ch c =>
    if s.regrant.known ch then
      c.modGov fun g => { g with
        borrowed := BitVec.ofNat 16 ((s.regrant.loans busy).getD ch.val 0)
        lent := BitVec.ofNat 16 ((s.regrant.parts busy).getD ch.val 0)
        noarb := false, recallTicks := g.recallTicks - 1 }
    else c := rfl

variable {s} {t : State} {busy : List Bool}

theorem State.wants_length : (t.wants busy).length = 8 := by simp [State.wants]

theorem State.offers_length : (t.offers busy).length = 8 := by simp [State.offers]

theorem State.loans_length : (t.loans busy).length = 8 := by
  rw [State.loans, capped_length] <;> simp [evenShares_length, State.wants_length]

theorem State.parts_length : (t.parts busy).length = 8 := (takeUp_length _ _).trans State.offers_length

theorem State.loans_sum_le : (t.loans busy).sum ≤ min 400 (t.offers busy).sum :=
  (capped_sum_le _ _).trans (evenShares_sum_le _ _)

/-- What is lent is what is borrowed. -/
theorem State.parts_sum : (t.parts busy).sum = (t.loans busy).sum := by
  rw [State.parts, takeUp_sum]
  exact min_eq_left (State.loans_sum_le.trans (min_le_right _ _))

theorem State.loans_le_400 (i : Nat) : (t.loans busy).getD i 0 ≤ 400 :=
  (getD_le_sum _ _).trans (State.loans_sum_le.trans (min_le_left _ _))

theorem State.parts_le_400 (i : Nat) : (t.parts busy).getD i 0 ≤ 400 := by
  refine (getD_le_sum _ _).trans ?_
  rw [State.parts_sum]
  exact State.loans_sum_le.trans (min_le_left _ _)

theorem State.loans_le_may (ch : Ch) : (t.loans busy).getD ch.val 0 ≤ t.chans[ch].gov.mayBorrow := by
  have h := (capped_getD_le (evenShares (min 400 (t.offers busy).sum) (t.wants busy))
    ((List.finRange 8).map fun ch => t.chans[ch].gov.mayBorrow) ch.val).2
  rwa [getD_channel] at h

theorem State.loans_unwanted {ch : Ch} (h : (t.wants busy).getD ch.val false = false) : (t.loans busy).getD ch.val 0 = 0 := by
  have le := (capped_getD_le (evenShares (min 400 (t.offers busy).sum) (t.wants busy))
    ((List.finRange 8).map fun ch => t.chans[ch].gov.mayBorrow) ch.val).1
  rw [evenShares_getD_false h] at le
  exact Nat.le_zero.mp le

/-- A lender: it may lend, wants nothing itself, and gives no more than it offers. -/
theorem State.parts_spec {ch : Ch} (h : (t.parts busy).getD ch.val 0 ≠ 0) :
    t.known ch = true ∧ t.chans[ch].gov.lend = true ∧ t.chans[ch].gov.overalloc = false ∧
      (t.wants busy).getD ch.val false = false ∧
      (t.parts busy).getD ch.val 0 + 50 + (t.chans[ch].gov.high + 9) / 10 ≤ t.chans[ch].gov.allow.toNat := by
  have le : (t.parts busy).getD ch.val 0 ≤ (t.offers busy).getD ch.val 0 := takeUp_getD_le _ _ _
  rw [State.offers, getD_channel] at le
  split at le
  · next hl =>
    simp only [Bool.and_eq_true, Bool.not_eq_true', decide_eq_true_eq] at hl
    obtain ⟨⟨⟨⟨hk, hlend⟩, -⟩, hover⟩, hwant⟩ := hl
    exact ⟨hk, hlend, hover, hwant, by omega⟩
  · exact absurd (Nat.le_zero.mp le) h

theorem State.wants_unknown {ch : Ch} (h : t.known ch = false) : (t.wants busy).getD ch.val false = false := by
  rw [State.wants, getD_channel, h]
  rfl

theorem State.parts_unknown {ch : Ch} (h : t.known ch = false) : (t.parts busy).getD ch.val 0 = 0 := by
  by_contra h0
  exact absurd ((State.parts_spec h0).1.symm.trans h) (by decide)

/-- Where the allowances exceed the supply nothing is lent. -/
theorem State.nothing_lent (h : ∀ ch : Ch, t.known ch = true → t.chans[ch].gov.overalloc = true) (i : Nat) :
    (t.loans busy).getD i 0 = 0 ∧ (t.parts busy).getD i 0 = 0 := by
  have none : (t.offers busy).sum = 0 := by
    rw [← sum_channels State.offers_length]
    refine List.sum_eq_zero fun x hx => ?_
    obtain ⟨ch, -, rfl⟩ := List.mem_map.mp hx
    rw [State.offers, getD_channel, if_neg]
    simp only [Bool.and_eq_true, Bool.not_eq_true']
    rintro ⟨⟨⟨⟨hk, -⟩, -⟩, ho⟩, -⟩
    exact absurd ((h ch hk).symm.trans ho) (by decide)
  have loans : (t.loans busy).sum = 0 := by
    have le := State.loans_sum_le (t := t) (busy := busy)
    rw [none] at le
    exact Nat.le_zero.mp le
  have parts := State.parts_sum (t := t) (busy := busy)
  have hl := getD_le_sum (t.loans busy) i
  have hp := getD_le_sum (t.parts busy) i
  omega

theorem State.regrant_knows (ch : Ch) : s.regrant.known ch = s.known ch := rfl

theorem loanRecompute_unknown {ch : Ch} (h : s.known ch = false) : (loanRecompute s busy).chans[ch] =
    { s.chans[ch] with gov := { s.chans[ch].gov with overalloc := decide (3600 < s.sumAllow) } } := by
  rw [loanRecompute_eq, State.modAll_chan, if_neg (by rw [State.regrant_knows, h]; decide), s.regrant_unknown h]

/-- A known channel's registers after a recomputation. -/
def Gov.relent (g : Gov) (loan part : Nat) : Gov :=
  { g with borrowed := BitVec.ofNat 16 loan, lent := BitVec.ofNat 16 part, noarb := false, recallTicks := g.recallTicks - 1 }

theorem Gov.relent_same (g : Gov) (a b : Nat) : (g.relent a b).noarb = false ∧ (g.relent a b).allow = g.allow ∧
    (g.relent a b).overalloc = g.overalloc ∧ (g.relent a b).grant = g.grant := ⟨rfl, rfl, rfl, rfl⟩

/-- Those of a channel of the module. -/
def State.relent (s : State) (busy : List Bool) (ch : Ch) : Gov :=
  (s.chans[ch].gov.granted s.sumAllow).relent ((s.regrant.loans busy).getD ch.val 0) ((s.regrant.parts busy).getD ch.val 0)

theorem loanRecompute_known {ch : Ch} (h : s.known ch = true) :
    (loanRecompute s busy).chans[ch] = { s.chans[ch] with gov := s.relent busy ch } := by
  rw [loanRecompute_eq, State.modAll_chan, if_pos (by rw [State.regrant_knows, h]), s.regrant_known h]
  rfl

theorem loanRecompute_borrowed {ch : Ch} (h : s.known ch = true) :
    (loanRecompute s busy).chans[ch].gov.borrowed.toNat = (s.regrant.loans busy).getD ch.val 0 := by
  rw [loanRecompute_known h]
  exact toNat_ofNat_le (State.loans_le_400 _) (by decide)

theorem loanRecompute_lent {ch : Ch} (h : s.known ch = true) :
    (loanRecompute s busy).chans[ch].gov.lent.toNat = (s.regrant.parts busy).getD ch.val 0 := by
  rw [loanRecompute_known h]
  exact toNat_ofNat_le (State.parts_le_400 _) (by decide)

theorem loanRecompute_grant {ch : Ch} (h : s.known ch = true) : (loanRecompute s busy).chans[ch].gov.grant.toNat =
    if 3600 < s.sumAllow then s.chans[ch].gov.allow.toNat * 3600 / s.sumAllow else s.chans[ch].gov.allow.toNat := by
  rw [loanRecompute_known h]
  exact Gov.granted_grant _ _

/-- A loan is at most n, and raises no budget past the heat ceiling. -/
theorem Gov.loanCap_le (g : Gov) (n : Nat) : g.loanCap n ≤ n ∧ ∀ p, g.pth = some p → g.loanCap n ≤ p - g.grant.toNat := by
  unfold Gov.loanCap
  cases g.pth with
  | none => exact ⟨le_refl _, nofun⟩
  | some p =>
    refine ⟨min_le_left _ _, fun p' hp => ?_⟩
    cases hp
    exact min_le_right _ _

theorem Gov.granted_pth (g : Gov) (a : Nat) : (g.granted a).pth = g.pth := by
  rw [Gov.granted_rest]
  rfl

theorem Gov.granted_same (g : Gov) (a : Nat) : (g.granted a).loanch = g.loanch ∧ (g.granted a).lend = g.lend ∧
    (g.granted a).allow = g.allow ∧ (g.granted a).high = g.high ∧ (g.granted a).overalloc = decide (3600 < a) := by
  rw [Gov.granted_rest]
  exact ⟨rfl, rfl, rfl, rfl, rfl⟩

theorem State.regrant_overalloc {ch : Ch} (h : s.known ch = true) :
    s.regrant.chans[ch].gov.overalloc = decide (3600 < s.sumAllow) := by
  obtain ⟨-, -, -, -, e⟩ := s.chans[ch].gov.granted_same s.sumAllow
  rw [s.regrant_known h, ← e]

/-- Nothing is lent then. -/
theorem State.regrant_nothing_lent (ha : 3600 < s.sumAllow) (i : Nat) :
    (s.regrant.loans busy).getD i 0 = 0 ∧ (s.regrant.parts busy).getD i 0 = 0 :=
  State.nothing_lent (fun k hk => by rw [s.regrant_overalloc (ch := k) hk, decide_eq_true ha]) i

theorem loanRecompute_gov {ch : Ch} (h : s.known ch = true) : (loanRecompute s busy).chans[ch].gov = s.relent busy ch :=
  congrArg Channel.gov (loanRecompute_known h)

theorem State.regrant_gov {ch : Ch} (h : s.known ch = true) :
    s.regrant.chans[ch].gov = s.chans[ch].gov.granted s.sumAllow := congrArg Channel.gov (s.regrant_known h)

theorem State.relent_same (ch : Ch) : (s.relent busy ch).noarb = false ∧ (s.relent busy ch).allow = s.chans[ch].gov.allow ∧
    (s.relent busy ch).overalloc = decide (3600 < s.sumAllow) ∧
    (s.relent busy ch).grant = (s.chans[ch].gov.granted s.sumAllow).grant := by
  obtain ⟨-, -, hallow, -, hover⟩ := s.chans[ch].gov.granted_same s.sumAllow
  obtain ⟨h, h', h'', h'''⟩ := (s.chans[ch].gov.granted s.sumAllow).relent_same ((s.regrant.loans busy).getD ch.val 0)
    ((s.regrant.parts busy).getD ch.val 0)
  exact ⟨h, h'.trans hallow, h''.trans hover, h'''⟩

/-- A borrower takes no more than LOANCH, and no more than the heat ceiling lets it. -/
theorem State.relent_borrows {ch : Ch} (h : s.known ch = true) :
    (s.regrant.loans busy).getD ch.val 0 ≤ s.chans[ch].gov.loanch.toNat ∧
    ∀ p, s.chans[ch].gov.pth = some p →
      (s.regrant.loans busy).getD ch.val 0 ≤ p - (s.chans[ch].gov.granted s.sumAllow).grant.toNat := by
  obtain ⟨hloanch, -⟩ := s.chans[ch].gov.granted_same s.sumAllow
  have may := State.loans_le_may (t := s.regrant) (busy := busy) ch
  rw [State.regrant_gov h, Gov.mayBorrow] at may
  obtain ⟨most, ceiling⟩ := (s.chans[ch].gov.granted s.sumAllow).loanCap_le (s.chans[ch].gov.granted s.sumAllow).loanch.toNat
  refine ⟨hloanch ▸ may.trans most, fun p hp => may.trans (ceiling p ?_)⟩
  rw [Gov.granted_pth, hp]

/-- A lender may lend, borrows nothing, and gives no more than its allowance leaves. -/
theorem State.relent_lends {ch : Ch} (h : s.known ch = true) (hp : (s.regrant.parts busy).getD ch.val 0 ≠ 0) :
    s.chans[ch].gov.lend = true ∧ (s.regrant.loans busy).getD ch.val 0 = 0 ∧
    (s.regrant.parts busy).getD ch.val 0 + 50 + (s.chans[ch].gov.high + 9) / 10 ≤ s.chans[ch].gov.allow.toNat := by
  obtain ⟨-, hlend, hallow, hhigh, -⟩ := s.chans[ch].gov.granted_same s.sumAllow
  obtain ⟨-, lends, -, unwanted, le⟩ := State.parts_spec hp
  rw [State.regrant_gov h] at lends le
  rw [hallow, hhigh] at le
  exact ⟨hlend ▸ lends, State.loans_unwanted unwanted, le⟩

/-- What a recomputation leaves of a channel that the arbiter knows. -/
theorem loanRecompute_spec {ch : Ch} (h : s.known ch = true) {g : Gov} (hg : g = (loanRecompute s busy).chans[ch].gov) :
    g.noarb = false ∧ g.allow = s.chans[ch].gov.allow ∧ g.overalloc = decide (3600 < s.sumAllow) ∧
    g.grant.toNat = (if 3600 < s.sumAllow then s.chans[ch].gov.allow.toNat * 3600 / s.sumAllow else s.chans[ch].gov.allow.toNat) ∧
    (3600 < s.sumAllow → g.borrowed = 0 ∧ g.lent = 0) ∧ g.borrowed.toNat ≤ s.chans[ch].gov.loanch.toNat ∧
    (∀ p, s.chans[ch].gov.pth = some p → g.borrowed.toNat ≤ p - g.grant.toNat) ∧
    (g.lent ≠ 0 → s.chans[ch].gov.lend = true ∧ g.borrowed = 0 ∧
      g.lent.toNat + 50 + (s.chans[ch].gov.high + 9) / 10 ≤ s.chans[ch].gov.allow.toNat) := by
  have borrowed : g.borrowed.toNat = (s.regrant.loans busy).getD ch.val 0 := hg ▸ loanRecompute_borrowed h
  have lent : g.lent.toNat = (s.regrant.parts busy).getD ch.val 0 := hg ▸ loanRecompute_lent h
  have grant : g.grant.toNat = _ := hg ▸ loanRecompute_grant (busy := busy) h
  obtain ⟨hnoarb, hallow, hover, hgrant⟩ := s.relent_same (busy := busy) ch
  obtain ⟨most, ceiling⟩ := State.relent_borrows (busy := busy) h
  rw [loanRecompute_gov h] at hg
  rw [← hg] at hnoarb hallow hover hgrant
  refine ⟨hnoarb, hallow, hover, grant, fun ha => ?_, borrowed ▸ most, fun p hp => ?_, fun hl => ?_⟩
  · have none := State.regrant_nothing_lent (busy := busy) ha ch.val
    exact ⟨eq_zero_of_toNat (borrowed.trans none.1), eq_zero_of_toNat (lent.trans none.2)⟩
  · rw [borrowed, hgrant]
    exact ceiling p hp
  · obtain ⟨lends, unborrowed, le⟩ := State.relent_lends h fun h0 => hl (eq_zero_of_toNat (lent.trans h0))
    exact ⟨lends, eq_zero_of_toNat (borrowed.trans unborrowed), lent ▸ le⟩

theorem loanRecompute_frame {ch : Ch} (h : s.known ch = true) :
    (loanRecompute s busy).chans[ch] = { s.chans[ch] with gov := (loanRecompute s busy).chans[ch].gov } := by
  rw [loanRecompute_gov h]
  exact loanRecompute_known h

/-- The sum over the known channels of what is nothing elsewhere. -/
theorem sum_known {f : Ch → Nat} {xs : List Nat} (hx : xs.length = 8) (hk : ∀ ch, s.known ch = true → f ch = xs.getD ch.val 0)
    (hu : ∀ ch : Ch, s.known ch = false → xs.getD ch.val 0 = 0) :
    ((List.finRange 8).map fun ch => if s.known ch then f ch else 0).sum = xs.sum := by
  rw [← sum_channels hx]
  refine sum_map_congr fun ch => ?_
  cases h : s.known ch with
  | true => exact (if_pos rfl).trans (hk ch h)
  | false => exact (if_neg (by decide)).trans (hu ch h).symm

theorem loanRecompute_borrowed_sum : ((List.finRange 8).map fun ch =>
    if s.known ch then (loanRecompute s busy).chans[ch].gov.borrowed.toNat else 0).sum = (s.regrant.loans busy).sum :=
  sum_known State.loans_length (fun _ h => loanRecompute_borrowed h) fun _ h => State.loans_unwanted (State.wants_unknown h)

theorem loanRecompute_lent_sum : ((List.finRange 8).map fun ch =>
    if s.known ch then (loanRecompute s busy).chans[ch].gov.lent.toNat else 0).sum = (s.regrant.parts busy).sum :=
  sum_known State.parts_length (fun _ h => loanRecompute_lent h) fun _ h => State.parts_unknown h

theorem loanRecompute_grant_sum : ((List.finRange 8).map fun ch =>
    if s.known ch then (loanRecompute s busy).chans[ch].gov.grant.toNat else 0).sum ≤ 3600 := by
  have allow : s.sumAllow = ((List.finRange 8).map fun ch => if s.known ch then s.chans[ch].gov.allow.toNat else 0).sum := rfl
  by_cases ha : 3600 < s.sumAllow
  · have each (ch : Ch) : (if s.known ch then (loanRecompute s busy).chans[ch].gov.grant.toNat else 0) =
        (if s.known ch then s.chans[ch].gov.allow.toNat else 0) * 3600 / s.sumAllow := by
      cases h : s.known ch with
      | true => rw [if_pos rfl, if_pos rfl, loanRecompute_grant h, if_pos ha]
      | false => rw [if_neg (by decide), if_neg (by decide), Nat.zero_mul, Nat.zero_div]
    rw [sum_map_congr each]
    refine (sum_div_le _ _ _).trans ?_
    rw [← allow]
    exact (Nat.mul_div_cancel_left _ (by omega)).le
  · have each (ch : Ch) : (if s.known ch then (loanRecompute s busy).chans[ch].gov.grant.toNat else 0) =
        if s.known ch then s.chans[ch].gov.allow.toNat else 0 := by
      cases h : s.known ch with
      | true => rw [if_pos rfl, if_pos rfl, loanRecompute_grant h, if_neg ha]
      | false => rfl
    rw [sum_map_congr each, ← allow]
    omega
end

/-! ### LOAN_RECALL -/

section
variable (s : State) (ch : Ch)

/-- What each borrower has. -/
def State.held : List Nat := (List.finRange 8).map fun k => s.chans[k].gov.borrowed.toNat

/-- What the borrowers keep once l watts are gone. -/
def State.heldAfter (l : Nat) : List Nat := capped (evenShares (s.held.sum - l) (s.held.map fun x => x != 0)) s.held

theorem State.heldAfter_length (l : Nat) : (s.heldAfter l).length = 8 := by
  rw [State.heldAfter, capped_length] <;> simp [evenShares_length, State.held]

theorem State.heldAfter_le (l : Nat) (k : Ch) : (s.heldAfter l).getD k.val 0 ≤ s.chans[k].gov.borrowed.toNat := by
  have h := (capped_getD_le (evenShares (s.held.sum - l) (s.held.map fun x => x != 0)) s.held k.val).2
  rw [show s.held.getD k.val 0 = _ from getD_channel _ 0 k] at h
  exact h

/-- The channels with the borrowers' loans cut. -/
def State.cutLoans (l : Nat) : State :=
  s.modAll fun k c => c.modGov fun g => { g with borrowed := BitVec.ofNat 16 ((s.heldAfter l).getD k.val 0) }

/-- A lender's registers after a recall. -/
def Gov.recalled (g : Gov) : Gov := { g with lent := 0, recallTotal := satAdd g.recallTotal 1, recallTicks := 1000 }

/-- The recall is due. -/
def State.recallDue : Prop :=
  s.chans[ch].gov.lent ≠ 0 ∧ (s.chans[ch].gov.allow.toNat - s.chans[ch].gov.lent.toNat - 25) * 10 *
    (s.chans[ch].gov.samples.take 10).length < (s.chans[ch].gov.samples.take 10).sum

theorem State.lent_eq_zero_iff : s.chans[ch].gov.lent.toNat = 0 ↔ s.chans[ch].gov.lent = 0 :=
  ⟨eq_zero_of_toNat, fun h => by rw [h]; rfl⟩

theorem loanRecall_due (h : s.recallDue ch) : loanRecall s ch =
    (s.cutLoans s.chans[ch].gov.lent.toNat).modCh ch fun c => c.modGov Gov.recalled := by
  obtain ⟨hl, hs⟩ := h
  unfold loanRecall
  dsimp only
  rw [if_neg]
  · rfl
  · simp only [Bool.or_eq_true, decide_eq_true_eq, s.lent_eq_zero_iff ch]
    rintro (h0 | hle)
    · exact hl h0
    · exact absurd hs (Nat.not_lt.mpr hle)

theorem loanRecall_rests (h : s.chans[ch].gov.lent = 0 ∨ (s.chans[ch].gov.samples.take 10).sum ≤
    (s.chans[ch].gov.allow.toNat - s.chans[ch].gov.lent.toNat - 25) * 10 * (s.chans[ch].gov.samples.take 10).length) :
    loanRecall s ch = s := by
  unfold loanRecall
  dsimp only
  rw [if_pos]
  simp only [Bool.or_eq_true, decide_eq_true_eq, s.lent_eq_zero_iff ch]
  exact h

theorem State.cutLoans_chan (l : Nat) (k : Ch) : (s.cutLoans l).chans[k] = { s.chans[k] with gov := { s.chans[k].gov with
    borrowed := BitVec.ofNat 16 ((s.heldAfter l).getD k.val 0) } } := State.modAll_chan _ _ _

theorem loanRecall_chan (h : s.recallDue ch) (k : Ch) : (loanRecall s ch).chans[k].gov =
    if k = ch then (s.cutLoans s.chans[ch].gov.lent.toNat).chans[k].gov.recalled
    else (s.cutLoans s.chans[ch].gov.lent.toNat).chans[k].gov := by
  rw [loanRecall_due s ch h, State.modCh_eq, State.put_chan]
  split
  · next e =>
    subst e
    rfl
  · rfl

theorem State.put_chan_mem (s : State) (ch k : Ch) (d : Channel) :
    (s.put ch d).chans[k].mem = if k = ch then d.mem else s.chans[k].mem := by
  rw [State.put_chan]
  split <;> rfl

theorem State.cutLoans_mem (l : Nat) (k : Ch) : (s.cutLoans l).chans[k].mem = s.chans[k].mem := by rw [State.cutLoans_chan]

theorem loanRecall_mem (h : s.recallDue ch) (k : Ch) : (loanRecall s ch).chans[k].mem = s.chans[k].mem := by
  rw [loanRecall_due s ch h, State.modCh_eq, State.put_chan_mem, Channel.modGov_mem, State.cutLoans_mem, State.cutLoans_mem]
  split
  · next e => rw [e]
  · rfl

theorem loanRecall_borrowed (h : s.recallDue ch) (k : Ch) : (loanRecall s ch).chans[k].gov.borrowed.toNat =
    (s.heldAfter s.chans[ch].gov.lent.toNat).getD k.val 0 := by
  have small := (s.heldAfter_le s.chans[ch].gov.lent.toNat k).trans_lt s.chans[k].gov.borrowed.isLt
  have cut : (s.cutLoans s.chans[ch].gov.lent.toNat).chans[k].gov.borrowed.toNat =
      (s.heldAfter s.chans[ch].gov.lent.toNat).getD k.val 0 := by
    rw [State.cutLoans_chan]
    exact (BitVec.toNat_ofNat _ _).trans (Nat.mod_eq_of_lt small)
  rw [loanRecall_chan s ch h]
  split <;> exact cut

theorem loanRecall_spec (h : s.recallDue ch) : (loanRecall s ch).bridge = s.bridge ∧ (loanRecall s ch).chans[ch].gov.lent = 0 ∧
    (loanRecall s ch).chans[ch].gov.recallTotal = satAdd s.chans[ch].gov.recallTotal 1 ∧
    (∀ k : Ch, (loanRecall s ch).chans[k].gov.grant = s.chans[k].gov.grant ∧
      (loanRecall s ch).chans[k].gov.borrowed.toNat ≤ s.chans[k].gov.borrowed.toNat ∧
      (loanRecall s ch).chans[k].mem = s.chans[k].mem ∧
      (k ≠ ch → (loanRecall s ch).chans[k].gov.lent = s.chans[k].gov.lent)) ∧
    ((List.finRange 8).map fun k : Ch => (loanRecall s ch).chans[k].gov.borrowed.toNat).sum ≤
      ((List.finRange 8).map fun k : Ch => s.chans[k].gov.borrowed.toNat).sum - s.chans[ch].gov.lent.toNat := by
  refine ⟨by rw [loanRecall_due s ch h]; rfl, ?_, ?_, fun k => ⟨?_, ?_, loanRecall_mem s ch h k, fun hk => ?_⟩, ?_⟩
  · rw [loanRecall_chan s ch h, if_pos rfl]
    rfl
  · rw [loanRecall_chan s ch h, if_pos rfl, State.cutLoans_chan]
    rfl
  · rw [loanRecall_chan s ch h, State.cutLoans_chan]
    split <;> rfl
  · rw [loanRecall_borrowed s ch h]
    exact s.heldAfter_le _ k
  · rw [loanRecall_chan s ch h, if_neg hk, State.cutLoans_chan]
  · rw [sum_map_congr (loanRecall_borrowed s ch h), sum_channels (s.heldAfter_length _)]
    exact (capped_sum_le _ _).trans (evenShares_sum_le _ _)
end

/-- Settles O50: from what a recomputation leaves of each channel and its sums, and from what a recall leaves. -/
theorem loansAndRecall : Obligations.LoansAndRecall := by
  unfold Obligations.LoansAndRecall
  refine ⟨fun s busy known a tot hk ht ha => ?_, fun s ch c xs hc harb hu hx => ?_⟩
  · have hk : known = s.known := hk
    have ha : a = s.sumAllow := by
      rw [ha, ht, hk]
      rfl
    subst hk ha ht
    have row : exec (.loanRecompute busy) s = .next (if s.arbiterUp then loanRecompute s busy else s) := rfl
    refine ⟨fun hoff => by rw [row, hoff]; rfl, fun hon => ⟨loanRecompute s busy, by rw [row, hon]; rfl, rfl,
      fun ch h => loanRecompute_unknown h, fun ch h => ⟨loanRecompute_frame h, loanRecompute_spec h rfl⟩, loanRecompute_grant_sum, ?_, ?_⟩⟩
    · exact loanRecompute_borrowed_sum.trans (State.parts_sum.symm.trans loanRecompute_lent_sum.symm)
    · refine loanRecompute_lent_sum.trans_le ?_
      rw [State.parts_sum]
      exact State.loans_sum_le.trans (min_le_left _ _)
  · subst hc hx
    have row : exec (.loanRecall ch) s = .next (if s.arbiterUp && s.chans[ch].up then loanRecall s ch else s) := rfl
    rw [row, harb, hu]
    exact ⟨fun hl hs => ⟨loanRecall s ch, rfl, loanRecall_spec s ch ⟨hl, hs⟩⟩,
      fun h => congrArg Host.Outcome.next (loanRecall_rests s ch h)⟩

end Sys2Proof.Machine
end

