-- ==== Sys2Proof/Proofs/MailboxAndPldm.lean ====
section
/-!
SUPPORT. The mailbox, MCTP control and PLDM (18 R421 to R424).
-/
namespace Sys2Proof.Machine

open Sys2Proof

/-! ### The mailbox -/

theorem padTo_length (n : Nat) (bs : List Byte) : (padTo n bs).length = n := by
  rw [padTo, List.length_append, List.length_take, List.length_replicate]
  omega

theorem Boot.identityRecord_length (b : Boot) : b.identityRecord.length = 64 := padTo_length _ _

/-- The bytes of MBX_RSP after a reply. -/
theorem Mem.byte_write_zero (m : Mem) (bs : List Byte) (j : Nat) :
    Mem.byte 0 (Mem.write 0 m 0 bs) j = if j < bs.length then bs.getD j 0 else Mem.byte 0 m j := by
  rw [Mem.byte_write, Nat.zero_add, Nat.sub_zero]
  simp only [Nat.zero_le, true_and]

theorem Boot.reply_byte {b : Boot} {bs : List Byte} {n : Nat} (hn : (bs.take 1024).length = n) (f : Nat → Byte)
    (hf : ∀ j, j < n → bs.getD j 0 = f j) (j : Nat) :
    Mem.byte 0 (Mem.write 0 b.mbxRsp 0 (bs.take 1024)) j = if j < n then f j else Mem.byte 0 b.mbxRsp j := by
  rw [Mem.byte_write_zero, hn]
  split
  · next h =>
    rw [← hf j h]
    rw [List.length_take] at hn
    rw [List.getD_eq_getElem?_getD, List.getD_eq_getElem?_getD, List.getElem?_take_of_lt (by omega)]
  · rfl

/-- The boot state after a request that the mailbox takes. -/
def Boot.mailboxed (b : Boot) (ctr : Nat) : Boot :=
  match b.mbxCodeOf with
  | 1 => b.reply 0 b.identityRecord
  | 2 =>
    let r := Mem.read 0 b.mbxReq 0 12
    b.reply 0 (b.cfgBytes ctr (fld r 4 4) (fld r 8 4))
  | 3 => b.reply 0 b.measures.flatten
  | _ => { b with mbxCode := 1 }

section
variable {k : Wk} {w : RegWrite} {p : Nat → Bool}

theorem Wk.mailbox_idle (h : (enabledBits w 4).testBit 0 = false) : k.mailbox w p = k := by
  unfold Wk.mailbox
  rw [h]
  rfl

theorem Wk.mailbox_busy (h : (enabledBits w 4).testBit 0 = true) (hb : k.c.boot.mbxBusy = true) :
    k.mailbox w p = { k with c := { k.c with boot := { k.c.boot with mbxOvr := true } } } := by
  unfold Wk.mailbox
  dsimp only
  rw [h, hb]
  rfl

theorem Wk.mailbox_takes (h : (enabledBits w 4).testBit 0 = true) (hb : k.c.boot.mbxBusy = false)
    (hp : p k.c.boot.mbxCodeOf = true) :
    k.mailbox w p = { k with c := { k.c with boot := k.c.boot.mailboxed k.ctr }, ctr := k.ctr + 1 } := by
  unfold Wk.mailbox
  dsimp only
  rw [if_neg (by rw [h]; decide), if_neg (by rw [hb]; decide), if_neg (by rw [hp]; decide)]
  rfl
end

section
variable {s : State} {ch : Ch} {w : RegWrite} {i : Instr} {p : Nat → Bool}

/-- A write of MBX_CTRL, of any of the four rows. -/
def IsMailbox (i : Instr) (ch : Ch) (w : RegWrite) (p : Nat → Bool) : Prop :=
  ∀ s : State, exec i s = .next (if s.hostOk ch then s.onCh ch fun k => k.mailbox w p else s)

theorem IsMailbox.identity : IsMailbox (.mbxIdentity ch w) ch w (· == 1) := fun _ => rfl
theorem IsMailbox.configRead : IsMailbox (.mbxConfigRead ch w) ch w (· == 2) := fun _ => rfl
theorem IsMailbox.measurements : IsMailbox (.mbxMeasurements ch w) ch w (· == 3) := fun _ => rfl
theorem IsMailbox.unknown : IsMailbox (.mbxUnknownRequest ch w) ch w fun c => c == 0 || decide (3 < c) := fun _ => rfl

theorem IsMailbox.exec (hi : IsMailbox i ch w p) (hh : s.hostOk ch = true) :
    exec i s = .next (s.after ch ((s.work ch).mailbox w p)) := by rw [hi, hh, if_pos rfl, State.onCh_eq]

theorem IsMailbox.idle (hi : IsMailbox i ch w p) (hh : s.hostOk ch = true) (h : (enabledBits w 4).testBit 0 = false) :
    Machine.exec i s = .next s := by
  rw [hi.exec hh, Wk.mailbox_idle h, State.after_quiet rfl]
  exact congrArg Host.Outcome.next (s.put_same ch)

theorem IsMailbox.busy (hi : IsMailbox i ch w p) (hh : s.hostOk ch = true) (h : (enabledBits w 4).testBit 0 = true)
    (hb : s.chans[ch].boot.mbxBusy = true) : Machine.exec i s =
      .next (s.put ch { s.chans[ch] with boot := { s.chans[ch].boot with mbxOvr := true } }) := by
  rw [hi.exec hh, Wk.mailbox_busy h hb]
  exact congrArg Host.Outcome.next (State.after_quiet rfl)

theorem IsMailbox.takes (hi : IsMailbox i ch w p) (hh : s.hostOk ch = true) (h : (enabledBits w 4).testBit 0 = true)
    (hb : s.chans[ch].boot.mbxBusy = false) (hp : p s.chans[ch].boot.mbxCodeOf = true) {b : Boot}
    (he : s.chans[ch].boot.mailboxed s.freeCtr = b) :
    Machine.exec i s = .next { s.put ch { s.chans[ch] with boot := b } with freeCtr := s.freeCtr + 1 } := by
  subst he
  rw [hi.exec hh, Wk.mailbox_takes (k := s.work ch) h hb hp]
  exact congrArg Host.Outcome.next (State.after_quiet rfl)
end

section
variable {b : Boot} {ctr : Nat}

theorem Boot.mailboxed_identity (h : b.mbxCodeOf = 1) : b.mailboxed ctr = b.reply 0 b.identityRecord := by
  unfold Boot.mailboxed
  rw [h]
  rfl

theorem Boot.mailboxed_config (h : b.mbxCodeOf = 2) : b.mailboxed ctr =
    b.reply 0 (b.cfgBytes ctr (fld (Mem.read 0 b.mbxReq 0 12) 4 4) (fld (Mem.read 0 b.mbxReq 0 12) 8 4)) := by
  unfold Boot.mailboxed
  rw [h]
  rfl

theorem Boot.mailboxed_measures (h : b.mbxCodeOf = 3) : b.mailboxed ctr = b.reply 0 b.measures.flatten := by
  unfold Boot.mailboxed
  rw [h]
  rfl

theorem Boot.mailboxed_unknown (h : b.mbxCodeOf = 0 ∨ 3 < b.mbxCodeOf) : b.mailboxed ctr = { b with mbxCode := 1 } := by
  unfold Boot.mailboxed
  split
  · omega
  · omega
  · omega
  · rfl

theorem Boot.cfgBytes_length (o n : Nat) : (b.cfgBytes ctr o n).length = min n 1024 := by simp [Boot.cfgBytes]

theorem Boot.cfgBytes_getD {o n j : Nat} (hn : n ≤ 1024) (ho : o + n ≤ b.cfg.raw.length) (hj : j < n) :
    (b.cfgBytes ctr o n).getD j 0 = b.cfg.raw.getD (o + j) 0 := by
  have inside : o + j < b.cfg.raw.length := by omega
  rw [List.getD_eq_getElem _ _ (by rw [Boot.cfgBytes_length]; omega), List.getD_eq_getElem _ _ inside]
  simp [Boot.cfgBytes, inside]
end

/-! ### MCTP control -/

section
variable {s : State} {ep : Endpoint}

theorem onMctp_reached (h : s.reaches ep .mctp = true) (f : State → State) : onMctp s ep f = f s := if_pos h

theorem onMctp_unreached (h : s.reaches ep .mctp = false) (f : State → State) : onMctp s ep f = s :=
  if_neg (by rw [h]; decide)

/-- Where any endpoint is reached over MCTP, the bridge is. -/
theorem State.reaches_bridge (h : s.reaches ep .mctp = true) : s.reaches .bridge .mctp = true := by
  unfold State.reaches at *
  simp only [Bool.and_eq_true] at h
  obtain ⟨⟨h, -⟩, -⟩ := h
  rw [h]
  rfl

/-- The endpoint IDs after the bridge has given its pool away. -/
def pooled (eids : List Byte) (e : Byte) : List Byte := eids.take 1 ++ (List.range 8).map fun i => e + BitVec.ofNat 8 i

theorem pooled_spec {eids : List Byte} (h : eids.length = 9) (e : Byte) : (pooled eids e).length = 9 ∧
    (pooled eids e)[0]? = eids[0]? ∧ ∀ ch : Ch, (pooled eids e)[1 + ch.val]? = some (e + BitVec.ofNat 8 ch.val) := by
  have first : (eids.take 1).length = 1 := by simp [h]
  refine ⟨by simp [pooled, h], ?_, fun ch => ?_⟩
  · rw [pooled, List.getElem?_append_left (by omega), List.getElem?_take_of_lt (by decide)]
  · rw [pooled, List.getElem?_append_right (by omega), first, Nat.add_sub_cancel_left]
    simp

theorem pldmDiscovery_frame (s : State) (ep : Endpoint) (code : Byte) : (pldmDiscovery s ep code).chans = s.chans ∧
    (pldmDiscovery s ep code).events = s.events ∧ (pldmDiscovery s ep code).bridge = s.bridge := by
  unfold pldmDiscovery
  split_ifs <;> exact ⟨rfl, rfl, rfl⟩
end

/-! ### PLDM -/

section
variable {s : State} {ch : Ch}

/-- The pair last sent, once one has been. -/
theorem State.lastEvent_sent (s : State) (ch : Ch) (p : Nat × Nat) :
    State.lastEvent { s with events := s.events ++ [(ch.val, p.1, p.2)] } ch = p := by
  unfold State.lastEvent
  simp

theorem platformEvent_quiet (h : s.chans[ch].statePair = s.lastEvent ch) : platformEvent s ch = s := if_pos h

theorem platformEvent_sends (h : s.chans[ch].statePair ≠ s.lastEvent ch) : platformEvent s ch =
    { s with events := s.events ++ [(ch.val, s.chans[ch].statePair.1, s.chans[ch].statePair.2)] } := if_neg h

theorem platformEvent_once (h : s.chans[ch].statePair ≠ s.lastEvent ch) :
    platformEvent (platformEvent s ch) ch = platformEvent s ch := by
  rw [platformEvent_sends h]
  exact platformEvent_quiet (s.lastEvent_sent ch _).symm

theorem exec_platformEventMessage (h : s.reaches (.channel ch) .mctp = true) :
    exec (.platformEventMessage ch) s = .next (platformEvent s ch) := congrArg Host.Outcome.next (onMctp_reached h _)

/-- A row of the boot state of a channel that MCTP reaches. -/
theorem exec_modBoot {i : Instr} {f : Boot → Boot} {b : Boot} (h : s.reaches (.channel ch) .mctp = true)
    (hi : exec i s = .next (modBoot s ch f)) (hf : f s.chans[ch].boot = b) :
    exec i s = .next (s.put ch { s.chans[ch] with boot := b }) := by
  subst hf
  rw [hi, modBoot, onMctp_reached h, State.modCh_eq]

theorem exec_modBoot_same {i : Instr} {f : Boot → Boot} (h : s.reaches (.channel ch) .mctp = true)
    (hi : exec i s = .next (modBoot s ch f)) (hf : f s.chans[ch].boot = s.chans[ch].boot) : exec i s = .next s :=
  (exec_modBoot h hi hf).trans (congrArg Host.Outcome.next (s.put_same ch))

theorem exec_pldmSensorRead (h : s.reaches (.channel ch) .mctp = true) {x : Sensor} {v : Option Nat}
    (hv : s.chans[ch].sensor x = v) : exec (.pldmSensorRead ch x) s =
      .next { s with answer := v.elim [1] fun v => 0 :: toBytes 8 v } := by
  change Host.Outcome.next (onMctp s (.channel ch) _) = _
  rw [onMctp_reached h, hv]
  cases v <;> rfl

/-- The bytes of the flash after a piece of an update. -/
theorem flashed_byte (flash : Mem) (a : Nat) (bs : List Byte) (x : Nat) : Mem.byte 0xFF (Mem.write 0xFF flash a bs) x =
    if a ≤ x ∧ x < a + bs.length then bs.getD (x - a) 0 else Mem.byte 0xFF flash x := by
  rw [Mem.byte_write]
  split
  · have inside : x - a < bs.length := by omega
    rw [List.getD_eq_getElem _ _ inside, List.getD_eq_getElem _ _ inside]
  · rfl

theorem Boot.firmware_data {b : Boot} {o : Nat} {bs : List Byte} (h : b.fwUpdate = true) (hs : o + bs.length ≤ fwSize) :
    b.firmware (.data o bs) = { b with flash := Mem.write 0xFF b.flash (fwBase (1 - b.slot.toNat) + o) bs } :=
  if_pos (by rw [h, decide_eq_true hs]; rfl)

theorem Boot.firmware_data_idle {b : Boot} {o : Nat} {bs : List Byte} (h : b.fwUpdate = false) :
    b.firmware (.data o bs) = b := if_neg (by rw [h]; exact nofun)
end

/-- Settles O60: the mailbox, MCTP control and PLDM, row by row. -/
theorem mailboxAndPldm : Obligations.MailboxAndPldm := by
  unfold Obligations.MailboxAndPldm
  refine ⟨fun s ch w c b i o n hh hc hb => ⟨fun hi => ?_, fun go idle => ⟨fun h => ?_, fun h ho hn h1024 hlen => ?_, fun h => ?_, fun h => ?_⟩⟩,
    fun s ep e r => ⟨fun hr => ⟨?_, ?_, ?_, ?_, fun code => ?_, fun h9 => ?_⟩, fun hr => ?_⟩,
    fun s ch c b x hold o bs i hc hb => ⟨fun hr => ?_, fun hr hi => ?_⟩⟩
  · obtain ⟨p, hi⟩ : ∃ p, IsMailbox i ch w p := by
      rcases hi with rfl | rfl | rfl | rfl
      exacts [⟨_, .identity⟩, ⟨_, .configRead⟩, ⟨_, .measurements⟩, ⟨_, .unknown⟩]
    subst hc hb
    exact ⟨hi.idle hh, hi.busy hh⟩
  · subst hc hb
    exact ⟨_, IsMailbox.identity.takes hh go idle (by rw [h]; rfl) (Boot.mailboxed_identity h),
      Boot.reply_byte (by rw [List.length_take, Boot.identityRecord_length]; decide) _ fun _ _ => rfl⟩
  · subst hc hb
    refine ⟨_, IsMailbox.configRead.takes hh go idle (by rw [h]; rfl) (Boot.mailboxed_config h), ?_⟩
    rw [← ho, ← hn]
    exact Boot.reply_byte (by rw [List.length_take, Boot.cfgBytes_length]; omega) _ fun j hj =>
      Boot.cfgBytes_getD h1024 hlen hj
  · subst hc hb
    exact ⟨_, IsMailbox.measurements.takes hh go idle (by rw [h]; rfl) (Boot.mailboxed_measures h),
      Boot.reply_byte (List.length_take ..) _ fun _ _ => rfl⟩
  · subst hc hb
    exact IsMailbox.unknown.takes hh go idle (by simpa using h) (Boot.mailboxed_unknown h)
  · exact congrArg Host.Outcome.next (onMctp_reached hr _)
  · exact congrArg Host.Outcome.next (onMctp_reached hr _)
  · exact congrArg Host.Outcome.next (onMctp_reached hr _)
  · exact ⟨_, congrArg Host.Outcome.next (onMctp_reached hr _), rfl, rfl, rfl⟩
  · exact ⟨_, congrArg Host.Outcome.next (onMctp_reached hr _), pldmDiscovery_frame s ep code⟩
  · exact ⟨_, congrArg Host.Outcome.next (onMctp_reached (State.reaches_bridge hr) _), rfl, pooled_spec h9 e⟩
  · exact congrArg Host.Outcome.next (onMctp_unreached hr _)
  · subst hc hb
    refine ⟨congrArg Host.Outcome.next (onMctp_reached hr _), fun v hv => exec_pldmSensorRead hr hv,
      fun hv => exec_pldmSensorRead hr hv,
      fun h => ⟨_, (exec_platformEventMessage hr).trans (congrArg Host.Outcome.next (platformEvent_sends h)), rfl, ?_⟩,
      fun h => (exec_platformEventMessage hr).trans (congrArg Host.Outcome.next (platformEvent_quiet h)),
      exec_modBoot hr rfl rfl, fun h => exec_modBoot hr rfl (if_neg (by rw [h]; decide)),
      fun h => exec_modBoot_same hr rfl (if_pos h),
      fun h hs => ⟨_, exec_modBoot hr rfl (Boot.firmware_data h hs), flashed_byte _ _ _⟩,
      fun h => exec_modBoot_same hr rfl (Boot.firmware_data_idle h),
      fun h => exec_modBoot_same hr rfl (if_neg (by rw [h]; decide)), fun h => exec_modBoot hr rfl (if_pos h),
      fun h => exec_modBoot hr rfl (if_neg (by rw [h]; decide)), fun h => exec_modBoot_same hr rfl (if_pos h)⟩
    rw [← platformEvent_sends h]
    refine (exec_platformEventMessage ?_).trans (congrArg Host.Outcome.next (platformEvent_once h))
    rw [platformEvent_sends h]
    exact hr
  · rcases hi with rfl | rfl | rfl | rfl | rfl | rfl | rfl
    all_goals exact congrArg Host.Outcome.next (onMctp_unreached hr _)

end Sys2Proof.Machine
end

