-- ==== Sys2Proof/Proofs/HssIndices.lean ====
section
/-!
SUPPORT. The HSS state (18 R414, R415): its records, the index that a signature takes, the batches and the trees.
-/
namespace Sys2Proof.Machine

open Sys2Proof

/-! ### State records -/

/-- The words of a record before its CRC. -/
def hssWords (limit top seq : Nat) : List Byte := toBytes 4 limit ++ toBytes 4 top ++ toBytes 4 seq

theorem hssRecord_eq (limit top seq : Nat) :
    hssRecord limit top seq = hssWords limit top seq ++ toBytes 4 (crc32c (hssWords limit top seq)).toNat := rfl

theorem hssWords_length (limit top seq : Nat) : (hssWords limit top seq).length = 12 := by simp [hssWords]

@[simp] theorem hssRecord_length (limit top seq : Nat) : (hssRecord limit top seq).length = 16 := by
  rw [hssRecord_eq, List.length_append, hssWords_length, toBytes_length]

theorem hssRecord_crcOk (limit top seq : Nat) : crcOk (hssRecord limit top seq) = true := by
  have small := (crc32c (hssWords limit top seq)).isLt
  have tail : fld (hssRecord limit top seq) 12 4 = (crc32c (hssWords limit top seq)).toNat := by
    rw [hssRecord_eq, fld_append (hssWords_length limit top seq).le, hssWords_length, fld_toBytes_all]
    exact Nat.mod_eq_of_lt small
  have words : (hssRecord limit top seq).take 12 = hssWords limit top seq := by
    rw [hssRecord_eq]
    exact List.take_left' (hssWords_length limit top seq)
  rw [crcOk, hssRecord_length, tail, words]
  exact beq_self_eq_true _

/-- The fields of a record, each of 32 bits. -/
theorem hssRecord_fields (limit top seq : Nat) : fld (hssRecord limit top seq) 0 4 = limit % 256 ^ 4 ∧
    fld (hssRecord limit top seq) 4 4 = top % 256 ^ 4 ∧ fld (hssRecord limit top seq) 8 4 = seq % 256 ^ 4 := by
  rw [hssRecord_eq, hssWords, List.append_assoc, List.append_assoc]
  refine ⟨fld_toBytes .., ?_, ?_⟩
  · rw [fld_skip (by decide), fld_toBytes]
  · rw [fld_skip (by decide), fld_skip (by decide), fld_toBytes]

/-! ### Writing a record -/

/-- Where record seq of the log stands. -/
def hssAt (seq : Nat) : Nat := 0x40000 + 16 * seq % 0x40000

theorem Mem.byte_erased (d : Byte) (m : Mem) (a n x : Nat) :
    Mem.byte d (m.filter fun c => !(decide (a ≤ c.1) && decide (c.1 < a + n))) x =
      if a ≤ x ∧ x < a + n then d else Mem.byte d m x := by
  unfold Mem.byte
  split
  · next h =>
    rw [Mem.lookup_none fun c hc => ?_]
    · rfl
    · have := (List.mem_filter.mp hc).2
      simp only [Bool.not_eq_true', Bool.and_eq_false_iff, decide_eq_false_iff_not] at this
      omega
  · next h =>
    rw [Mem.lookup_filter_true]
    intro b
    simp only [Bool.not_eq_true', Bool.and_eq_false_iff, decide_eq_false_iff_not]
    omega

/-- The flash after the erase of the sector that a record begins. -/
def erasedFor (flash : Mem) (a : Nat) : Mem :=
  if a % 0x10000 = 0 then flash.filter fun c => !(decide (a ≤ c.1) && decide (c.1 < a + 0x10000)) else flash

theorem erasedFor_byte (flash : Mem) {a x : Nat} (h : x < a ∨ a + 0x10000 ≤ x ∨ a % 0x10000 ≠ 0) :
    Mem.byte 0xFF (erasedFor flash a) x = Mem.byte 0xFF flash x := by
  unfold erasedFor
  split
  · rw [Mem.byte_erased, if_neg (by omega)]
  · rfl

section
variable (flash : Mem) (limit top seq : Nat)

theorem hssWrite_eq : hssWrite flash limit top seq =
    Mem.write 0xFF (erasedFor flash (hssAt seq)) (hssAt seq) (hssRecord limit top seq) := by
  unfold hssWrite logWrite
  dsimp only
  rw [hssRecord_length]
  rfl

/-- The record's bytes. -/
theorem hssWrite_inside {j : Nat} (h : j < 16) :
    Mem.byte 0xFF (hssWrite flash limit top seq) (hssAt seq + j) = (hssRecord limit top seq).getD j 0 := by
  have h : j < (hssRecord limit top seq).length := by rwa [hssRecord_length]
  rw [hssWrite_eq, Mem.byte_write_inside h, List.getD_eq_getElem _ _ h]

/-- Nothing else changes but the sector that a record begins. -/
theorem hssWrite_outside {x : Nat} (h : x < hssAt seq ∨ hssAt seq + 16 ≤ x)
    (h' : x < hssAt seq ∨ hssAt seq + 0x10000 ≤ x ∨ hssAt seq % 0x10000 ≠ 0) :
    Mem.byte 0xFF (hssWrite flash limit top seq) x = Mem.byte 0xFF flash x := by
  rw [hssWrite_eq, Mem.byte_write_outside (by rwa [hssRecord_length]), erasedFor_byte flash h']

theorem hssWrite_far {x : Nat} (h : x < hssAt seq ∨ hssAt seq + 0x10000 ≤ x) :
    Mem.byte 0xFF (hssWrite flash limit top seq) x = Mem.byte 0xFF flash x := by
  refine hssWrite_outside flash limit top seq ?_ ?_ <;> omega

/-- The record before stays: the next one begins another sector, or none. -/
theorem hssWrite_before {j : Nat} (h : j < 16) :
    Mem.byte 0xFF (hssWrite flash limit top (seq + 1)) (hssAt seq + j) = Mem.byte 0xFF flash (hssAt seq + j) := by
  refine hssWrite_outside flash limit top (seq + 1) ?_ ?_ <;> (unfold hssAt; omega)
end

/-! ### Indices -/

section
variable {h : Hss} {m : Mem}

theorem Hss.reserve_kept (hk : h.off = true ∨ h.next ≠ h.limit) (wr : Bool) : h.reserve m wr = (h, m) := by
  unfold Hss.reserve
  rw [if_pos (by simpa using hk)]

theorem Hss.reserve_fails (ho : h.off = false) (hn : h.next = h.limit) {wr : Bool} (hf : wr = false ∨ hssAll ≤ h.limit) :
    h.reserve m wr = ({ h with off := true }, m) := by
  unfold Hss.reserve
  rw [if_neg (by simp [ho, hn]), if_pos (by simpa using hf)]

theorem Hss.reserve_writes (ho : h.off = false) (hn : h.next = h.limit) (hl : h.limit < hssAll) : h.reserve m true =
    ({ h with limit := h.limit + 64, seq := h.seq + 1 }, hssWrite m (h.limit + 64) h.trees h.seq) := by
  unfold Hss.reserve
  rw [if_neg (by simp [ho, hn]), if_neg (by simpa using hl)]
  rfl

theorem Hss.grow_eq (h : Hss) (m : Mem) : h.grow m =
    ({ h with trees := h.trees + 1, seq := h.seq + 1 }, hssWrite m h.limit (h.trees + 1) h.seq) := rfl

theorem Hss.build_due (ho : h.off = false) (ht : h.trees < 32768) (hn : h.trees * 32768 ≤ h.next + 1024) :
    h.build m = h.grow m := by
  unfold Hss.build
  rw [if_pos (by simp [ho, ht, hn])]

theorem Hss.build_kept (hn : h.next + 1024 < h.trees * 32768) : h.build m = (h, m) := by
  unfold Hss.build
  rw [if_neg]
  simp only [Bool.and_eq_true, decide_eq_true_eq]
  omega

/-- What is left after a tree has been built where the next index needs one. -/
def Hss.ready (h : Hss) (m : Mem) : Hss × Mem := if h.trees ≤ h.next / 32768 then h.grow m else (h, m)

theorem Hss.index_off {g : Hss} {f : Mem} (hr : h.reserve m true = (g, f)) (ho : g.off = true) : h.index m = (none, g, f) := by
  unfold Hss.index
  rw [hr]
  exact if_pos ho

theorem Hss.index_on {g : Hss} {f : Mem} (hr : h.reserve m true = (g, f)) (ho : g.off = false) :
    h.index m = (some g.next, { (g.ready f).1 with next := g.next + 1 }, (g.ready f).2) := by
  unfold Hss.index
  rw [hr]
  exact if_neg (by rw [ho]; decide)

theorem Hss.ready_same (h : Hss) (m : Mem) : (h.ready m).1.limit = h.limit ∧ (h.ready m).1.off = h.off := by
  unfold Hss.ready
  split <;> exact ⟨rfl, rfl⟩

theorem Hss.ready_kept (ht : h.next / 32768 < h.trees) : h.ready m = (h, m) := if_neg (by omega)

theorem Hss.ready_grows (ht : h.trees ≤ h.next / 32768) : h.ready m = h.grow m := if_pos ht

/-- A signature takes the next index, of a batch with indices left or after the record of the next batch. -/
theorem Hss.index_some {q : Nat} {h' : Hss} {m' : Mem} (hi : h.index m = (some q, h', m')) (hle : h.next ≤ h.limit) :
    h.off = false ∧ q = h.next ∧ ∃ g f, g.off = false ∧ g.next = h.next ∧ g.trees = h.trees ∧
      h' = { (g.ready f).1 with next := q + 1 } ∧ m' = (g.ready f).2 ∧
      ((h.next < h.limit ∧ g = h ∧ f = m) ∨ (h.next = h.limit ∧ g.limit = h.limit + 64 ∧ g.seq = h.seq + 1 ∧
        f = hssWrite m (h.limit + 64) h.trees h.seq)) := by
  cases ho : h.off with
  | true =>
    rw [Hss.index_off (Hss.reserve_kept (.inl ho) true) ho] at hi
    exact absurd (congrArg Prod.fst hi) nofun
  | false =>
    refine ⟨rfl, ?_⟩
    by_cases hn : h.next = h.limit
    · by_cases hl : h.limit < hssAll
      · rw [Hss.index_on (Hss.reserve_writes ho hn hl) ho] at hi
        simp only [Prod.mk.injEq, Option.some.injEq] at hi
        obtain ⟨rfl, rfl, rfl⟩ := hi
        exact ⟨rfl, { h with limit := h.limit + 64, seq := h.seq + 1 }, _, ho, rfl, rfl, rfl, rfl, .inr ⟨hn, rfl, rfl, rfl⟩⟩
      · rw [Hss.index_off (Hss.reserve_fails ho hn (.inr (by omega))) rfl] at hi
        exact absurd (congrArg Prod.fst hi) nofun
    · rw [Hss.index_on (Hss.reserve_kept (.inr hn) true) ho] at hi
      simp only [Prod.mk.injEq, Option.some.injEq] at hi
      obtain ⟨rfl, rfl, rfl⟩ := hi
      exact ⟨rfl, h, m, ho, rfl, rfl, rfl, rfl, .inl ⟨by omega, rfl, rfl⟩⟩

/-- The trees and the records' memory once a tree has been built where the index needs one. -/
theorem Hss.ready_spec (g : Hss) (f : Mem) : (g.next / 32768 < g.trees → (g.ready f).1.trees = g.trees ∧ (g.ready f).2 = f) ∧
    (g.trees ≤ g.next / 32768 → (g.ready f).1.trees = g.trees + 1 ∧
      (g.ready f).2 = hssWrite f g.limit (g.trees + 1) g.seq) :=
  ⟨fun ht => by rw [Hss.ready_kept ht]; exact ⟨rfl, rfl⟩, fun ht => by rw [Hss.ready_grows ht]; exact ⟨rfl, rfl⟩⟩
end

/-- The first part of the statement: what a signature's index leaves. -/
theorem Hss.index_spec (h h' : Hss) (m m' : Mem) (q : Nat) (hle : h.next ≤ h.limit) (hi : h.index m = (some q, h', m')) :
    q = h.next ∧ h'.next = q + 1 ∧ h'.next ≤ h'.limit ∧ h.off = false ∧ h'.off = false ∧
    (h.next < h.limit → h'.limit = h.limit) ∧ (h.next = h.limit → h'.limit = h.limit + 64) ∧
    (h.next / 32768 < h.trees → h'.trees = h.trees) ∧ (h.trees ≤ h.next / 32768 → h'.trees = h.trees + 1) ∧
    (h.next < h.limit → h.next / 32768 < h.trees → m' = m) ∧
    (h.next = h.limit → ∀ j, j < 16 → Mem.byte 0xFF m' (hssAt h.seq + j) = (hssRecord h'.limit h.trees h.seq).getD j 0) ∧
    (h.next < h.limit → h.trees ≤ h.next / 32768 → ∀ j, j < 16 →
      Mem.byte 0xFF m' (hssAt h.seq + j) = (hssRecord h.limit (h.trees + 1) h.seq).getD j 0) := by
  obtain ⟨ho, rfl, g, f, hgo, hgn, hgt, rfl, rfl, hg⟩ := Hss.index_some hi hle
  obtain ⟨hlimit, hoff⟩ := g.ready_same f
  obtain ⟨kept, grown⟩ := g.ready_spec f
  rw [hgn, hgt] at kept grown
  refine ⟨rfl, rfl, ?_, ho, hoff.trans hgo, fun hlt => ?_, fun heq => ?_, fun ht => (kept ht).1, fun ht => (grown ht).1,
    fun hlt ht => ?_, fun heq j hj => ?_, fun hlt ht j hj => ?_⟩
  · change h.next + 1 ≤ (g.ready f).1.limit
    rw [hlimit]
    rcases hg with ⟨hlt, rfl, -⟩ | ⟨heq, hgl, -⟩ <;> omega
  · rcases hg with ⟨-, rfl, -⟩ | ⟨heq, -⟩
    · exact hlimit
    · omega
  · rcases hg with ⟨hlt, -⟩ | ⟨-, hgl, -⟩
    · omega
    · exact hlimit.trans hgl
  · rcases hg with ⟨-, -, rfl⟩ | ⟨heq, -⟩
    · exact (kept ht).2
    · omega
  · rcases hg with ⟨hlt, -⟩ | ⟨-, hgl, hgs, rfl⟩
    · omega
    · change Mem.byte 0xFF (g.ready _).2 _ = (hssRecord (g.ready _).1.limit _ _).getD j 0
      rw [hlimit, hgl]
      rcases Nat.lt_or_ge (h.next / 32768) h.trees with ht | ht
      · rw [(kept ht).2]
        exact hssWrite_inside _ _ _ _ hj
      · rw [(grown ht).2, hgs, hssWrite_before _ _ _ _ hj]
        exact hssWrite_inside _ _ _ _ hj
  · rcases hg with ⟨-, rfl, rfl⟩ | ⟨heq, -⟩
    · rw [(grown ht).2]
      exact hssWrite_inside _ _ _ _ hj
    · omega

/-! ### Rows -/

section
variable {s : State} {ch : Ch} {c : Channel} {h : Hss}

/-- A row of the HSS state of a channel that MCTP reaches. -/
theorem exec_hss {i : Instr} {f : Boot → Boot} {g : Hss} {m : Mem} (hr : s.reaches (.channel ch) .mctp = true)
    (hc : s.chans[ch] = c) (hi : exec i s = .next (modBoot s ch f)) (hf : f c.boot = { c.boot with hss := g, flash := m }) :
    exec i s = .next (s.put ch { c with boot := { c.boot with hss := g, flash := m } }) := by
  subst hc
  exact exec_modBoot hr hi hf

theorem exec_hssBatchReserve {wr : Bool} {g : Hss} {m : Mem} (hr : s.reaches (.channel ch) .mctp = true)
    (hc : s.chans[ch] = c) (hh : c.boot.hss = h) (he : h.reserve c.boot.flash wr = (g, m)) :
    exec (.hssBatchReserve ch wr) s = .next (s.put ch { c with boot := { c.boot with hss := g, flash := m } }) := by
  subst hh
  refine exec_hss hr hc rfl ?_
  dsimp only
  rw [he]

theorem exec_hssTreeBuild {g : Hss} {m : Mem} (hr : s.reaches (.channel ch) .mctp = true)
    (hc : s.chans[ch] = c) (hh : c.boot.hss = h) (he : h.build c.boot.flash = (g, m)) :
    exec (.hssTreeBuild ch) s = .next (s.put ch { c with boot := { c.boot with hss := g, flash := m } }) := by
  subst hh
  refine exec_hss hr hc rfl ?_
  dsimp only
  rw [he]

/-- Nothing changes where the HSS state and the flash stay. -/
theorem State.put_hss_same (hc : s.chans[ch] = c) (hh : c.boot.hss = h) :
    s.put ch { c with boot := { c.boot with hss := h, flash := c.boot.flash } } = s := by
  subst hh hc
  exact s.put_same ch
end

/-- Settles O58. -/
theorem hssIndices : Obligations.HssIndices := by
  unfold Obligations.HssIndices
  refine ⟨fun h h' m m' q hle hi => Hss.index_spec h h' m m' q hle hi, fun limit top seq => ?_, fun h flash r hr => ?_,
    fun s ch c h a hc hh hr ha => ?_⟩
  · obtain ⟨hl, ht, hs⟩ := hssRecord_fields limit top seq
    exact ⟨hssRecord_length .., hssRecord_crcOk .., fun h => hl.trans (Nat.mod_eq_of_lt h),
      fun h => ht.trans (Nat.mod_eq_of_lt h), fun h => hs.trans (Nat.mod_eq_of_lt h)⟩
  · unfold Hss.start
    rw [hr]
  · have ha : a = hssAt h.seq := ha
    subst ha
    refine ⟨fun ho hn hl => ⟨⟨_, exec_hssBatchReserve hr hc hh (Hss.reserve_writes ho hn hl), fun j hj =>
        hssWrite_inside _ _ _ _ hj, fun x hx => hssWrite_far _ _ _ _ hx⟩,
        exec_hssBatchReserve hr hc hh (Hss.reserve_fails ho hn (.inl rfl))⟩,
      fun hk wr => ?_, fun ho ht hn => ⟨_, exec_hssTreeBuild hr hc hh ((Hss.build_due ho ht hn).trans (Hss.grow_eq _ _)),
        fun j hj => hssWrite_inside _ _ _ _ hj, fun x hx => hssWrite_far _ _ _ _ hx⟩, fun hn => ?_⟩
    · rw [exec_hssBatchReserve hr hc hh (Hss.reserve_kept hk wr), State.put_hss_same hc hh]
    · rw [exec_hssTreeBuild hr hc hh (Hss.build_kept hn), State.put_hss_same hc hh]

end Sys2Proof.Machine
end

