-- ==== Sys2Proof/Proofs/SpdmResponders.lean ====
section
/-!
SUPPORT. The SPDM responders (18 R413, R416 to R418): what is kept of a connection, the random bits, and the HSS signature over
the last signed answer.
-/
namespace Sys2Proof.Machine

open Sys2Proof

/-! ### A channel's boot state changed -/

/-- The boot state of channel ch changed. -/
def State.bootCh (s : State) (ch : Ch) (f : Boot → Boot) : State := s.modCh ch fun c => { c with boot := f c.boot }

def Boot.spdm (b : Boot) : Transport → Spdm
  | .doe => b.spdmDoe
  | .mctp => b.spdmMctp

def Boot.withSpdm (x : Spdm) (b : Boot) : Transport → Boot
  | .doe => { b with spdmDoe := x }
  | .mctp => { b with spdmMctp := x }

def Boot.withDrbg (d : Drbg) (b : Boot) : Boot := { b with drbg := d }

def Boot.withHss (h : Hss) (m : Mem) (b : Boot) : Boot := { b with hss := h, flash := m }

section
variable (s : State) (ch : Ch) (tr : Transport)

theorem State.bootCh_eq (f : Boot → Boot) : s.bootCh ch f = s.put ch { s.chans[ch] with boot := f s.chans[ch].boot } :=
  s.modCh_eq ch _

theorem State.bootCh_boot (f : Boot → Boot) : (s.bootCh ch f).chans[ch].boot = f s.chans[ch].boot := by
  rw [State.bootCh_eq, State.put_self]

theorem State.spdm_channel : s.spdm (.channel ch) tr = s.chans[ch].boot.spdm tr := by cases tr <;> rfl

theorem State.setSpdm_channel (x : Spdm) : s.setSpdm (.channel ch) tr x = s.bootCh ch fun b => b.withSpdm x tr := by
  cases tr <;> rfl

theorem State.draw_channel : s.draw (.channel ch) =
    ((s.chans[ch].boot.drbg.draw (1 + ch.val)).1, s.bootCh ch (Boot.withDrbg (s.chans[ch].boot.drbg.draw (1 + ch.val)).2)) := rfl

theorem State.setHss_channel (h : Hss) (m : Mem) : s.setHss (.channel ch) h m = s.bootCh ch (Boot.withHss h m) := rfl
end

/-! ### What an answer leaves of its endpoint -/

/-- t is reached at the endpoint as s is, has the keys, certificate and measurements that s has, and the free values and the
host's memory of s. -/
structure SameTrust (ep : Endpoint) (s t : State) : Prop where
  reaches : ∀ tr, t.reaches ep tr = s.reaches ep tr
  aliasKey : t.aliasKey ep = s.aliasKey ep
  hostMem : t.hostMem = s.hostMem
  freeCtr : t.freeCtr = s.freeCtr

namespace SameTrust

variable {ep : Endpoint} {s t u : State}

theorem trans (h : SameTrust ep s t) (h' : SameTrust ep t u) : SameTrust ep s u :=
  ⟨fun tr => (h'.reaches tr).trans (h.reaches tr), h'.aliasKey.trans h.aliasKey, h'.hostMem.trans h.hostMem,
    h'.freeCtr.trans h.freeCtr⟩

theorem say (s : State) (bs : List Byte) : SameTrust ep s (s.say bs) := ⟨fun _ => rfl, by cases ep <;> rfl, rfl, rfl⟩

theorem bootCh {ch : Ch} {f : Boot → Boot} (hl : ∀ b, (f b).life = b.life) (hk : ∀ b, (f b).aliasKey = b.aliasKey) (s : State) :
    SameTrust (.channel ch) s (s.bootCh ch f) := by
  have life : (s.bootCh ch f).chans[ch].boot.life = s.chans[ch].boot.life := by rw [State.bootCh_boot, hl]
  refine ⟨fun tr => ?_, ?_, by rw [State.bootCh_eq]; rfl, by rw [State.bootCh_eq]; rfl⟩
  · unfold State.reaches Channel.up
    dsimp only
    rw [life]
    cases tr <;> (rw [State.bootCh_eq]; rfl)
  · change (s.bootCh ch f).chans[ch].boot.aliasKey = _
    rw [State.bootCh_boot, hk]
    rfl

theorem setSpdm (s : State) (ep : Endpoint) (tr : Transport) (x : Spdm) : SameTrust ep s (s.setSpdm ep tr x) := by
  cases ep with
  | bridge => cases tr <;> exact ⟨fun _ => rfl, rfl, rfl, rfl⟩
  | channel ch =>
    rw [State.setSpdm_channel]
    cases tr with
    | doe => exact bootCh (f := fun b => b.withSpdm x .doe) (fun _ => rfl) (fun _ => rfl) s
    | mctp => exact bootCh (f := fun b => b.withSpdm x .mctp) (fun _ => rfl) (fun _ => rfl) s

theorem draw (s : State) (ep : Endpoint) : SameTrust ep s (s.draw ep).2 := by
  cases ep with
  | bridge => exact ⟨fun _ => rfl, rfl, rfl, rfl⟩
  | channel ch => exact bootCh (f := Boot.withDrbg (s.chans[ch].boot.drbg.draw (1 + ch.val)).2) (fun _ => rfl) (fun _ => rfl) s

theorem setHss (s : State) (ep : Endpoint) (h : Hss) (m : Mem) : SameTrust ep s (s.setHss ep h m) := by
  cases ep with
  | bridge => exact ⟨fun _ => rfl, rfl, rfl, rfl⟩
  | channel ch => exact bootCh (f := Boot.withHss h m) (fun _ => rfl) (fun _ => rfl) s

end SameTrust

section
variable (s : State) (ep : Endpoint) (tr : Transport)

@[simp] theorem State.setSpdm_spdm (x : Spdm) : (s.setSpdm ep tr x).spdm ep tr = x := by
  cases ep with
  | bridge => cases tr <;> rfl
  | channel ch =>
    rw [State.setSpdm_channel, State.spdm_channel, State.bootCh_boot]
    cases tr <;> rfl

@[simp] theorem State.setSpdm_hss (x : Spdm) : (s.setSpdm ep tr x).hss ep = s.hss ep := by
  cases ep with
  | bridge => cases tr <;> rfl
  | channel ch =>
    change ((s.setSpdm (.channel ch) tr x).chans[ch].boot.hss, (s.setSpdm (.channel ch) tr x).chans[ch].boot.flash) = _
    rw [State.setSpdm_channel, State.bootCh_boot]
    cases tr <;> rfl

@[simp] theorem State.setSpdm_draw (x : Spdm) : ((s.setSpdm ep tr x).draw ep).1 = (s.draw ep).1 := by
  cases ep with
  | bridge => cases tr <;> rfl
  | channel ch =>
    rw [State.draw_channel, State.draw_channel, State.setSpdm_channel, State.bootCh_boot]
    cases tr <;> rfl

@[simp] theorem State.setHss_hss (h : Hss) (m : Mem) : (s.setHss ep h m).hss ep = (h, m) := by
  cases ep with
  | bridge => rfl
  | channel ch =>
    change ((s.setHss (.channel ch) h m).chans[ch].boot.hss, (s.setHss (.channel ch) h m).chans[ch].boot.flash) = _
    rw [State.setHss_channel, State.bootCh_boot]
    rfl

@[simp] theorem State.setHss_spdm (h : Hss) (m : Mem) : (s.setHss ep h m).spdm ep tr = s.spdm ep tr := by
  cases ep with
  | bridge => cases tr <;> rfl
  | channel ch =>
    rw [State.spdm_channel, State.spdm_channel, State.setHss_channel, State.bootCh_boot]
    cases tr <;> rfl

@[simp] theorem State.say_spdm (bs : List Byte) : (s.say bs).spdm ep tr = s.spdm ep tr := by cases ep <;> cases tr <;> rfl
@[simp] theorem State.say_hss (bs : List Byte) : (s.say bs).hss ep = s.hss ep := by cases ep <;> rfl
@[simp] theorem State.say_draw (bs : List Byte) : ((s.say bs).draw ep).1 = (s.draw ep).1 := by cases ep <;> rfl
end

/-! ### Answers -/

section
variable {s s1 s2 : State} {ep : Endpoint} {tr : Transport}

theorem onSpdm_reached (h : s.reaches ep tr = true) (f : State → State) : onSpdm s ep tr f = f s := if_pos h

theorem onSpdm_unreached (h : s.reaches ep tr = false) (f : State → State) : onSpdm s ep tr f = s :=
  if_neg (by rw [h]; decide)

/-- A signed answer: its bytes are signed and kept for the connection, under random bits of their own. -/
theorem State.signed_spec {own key : List Byte} (h1 : s.draw ep = (own, s1)) (h2 : s1.draw ep = (key, s2))
    (content : List Byte → List Byte) :
    (s.signed ep tr content).answer = content own ++ Config.ecdsaSign (s.aliasKey ep) key (content own) ∧
    (s.signed ep tr content).spdm ep tr = { lastSigned := some (s.signed ep tr content).answer } ∧
    (s.signed ep tr content).freeCtr = s.freeCtr ∧ ((s.signed ep tr content).draw ep).1 = (s2.draw ep).1 := by
  have t1 := SameTrust.draw s ep
  have t2 := SameTrust.draw s1 ep
  rw [h1] at t1
  rw [h2] at t2
  have t := t1.trans t2
  have e : s.signed ep tr content = (s2.setSpdm ep tr { lastSigned := some (content own ++
      Config.ecdsaSign (s2.aliasKey ep) key (content own)), hssFor := none }).say
        (content own ++ Config.ecdsaSign (s2.aliasKey ep) key (content own)) := by
    unfold State.signed
    rw [h1]
    dsimp only
    rw [h2]
  rw [t.aliasKey] at e
  rw [e]
  refine ⟨rfl, by rw [State.say_spdm, State.setSpdm_spdm]; rfl, ?_, by rw [State.say_draw, State.setSpdm_draw]⟩
  exact (SameTrust.setSpdm s2 ep tr _).freeCtr.trans t.freeCtr

theorem challenge_slot {slot : Byte} (h : slot ≠ 0) (nonce : List Byte) : challenge s ep tr slot nonce = s.error 1 :=
  if_pos (by simpa using h)

theorem challenge_zero (nonce : List Byte) : challenge s ep tr 0 nonce = s.signed ep tr fun own =>
    [0x03, 0] ++ Config.sha384 (s.certs ep) ++ own ++ nonce ++ Config.sha384 (s.measures ep).flatten := rfl

/-- The blocks that an index of GET_MEASUREMENTS asks for. -/
def asked (ms : List (List Byte)) (index : Byte) : Option (List Byte) :=
  if index = 0 then some [] else if index = 255 then some ms.flatten else ms[index.toNat - 1]?

/-- What is signed for the blocks m. -/
def measured (ms : List (List Byte)) (nonce m own : List Byte) : List Byte :=
  [0x60, BitVec.ofNat 8 ms.length] ++ own ++ nonce ++ m

theorem index_toNat {index : Byte} {n : Nat} (hn : n < 256) : index.toNat = n ↔ index = BitVec.ofNat 8 n :=
  ⟨fun h => BitVec.eq_of_toNat_eq (h.trans ((BitVec.toNat_ofNat _ _).trans (Nat.mod_eq_of_lt hn)).symm),
    fun h => by rw [h]; exact (BitVec.toNat_ofNat _ _).trans (Nat.mod_eq_of_lt hn)⟩

theorem getMeasurements_some {index : Byte} {m : List Byte} (h : asked (s.measures ep) index = some m) (nonce : List Byte) :
    getMeasurements s ep tr index nonce = s.signed ep tr (measured (s.measures ep) nonce m) := by
  unfold asked at h
  unfold getMeasurements
  dsimp only
  split_ifs at h with h0 h255
  · cases h
    subst h0
    rfl
  · cases h
    subst h255
    rfl
  · rw [if_neg fun e => h0 ((index_toNat (by decide)).mp e), if_neg fun e => h255 ((index_toNat (by decide)).mp e), h]
    rfl

theorem getMeasurements_none {index : Byte} (h : asked (s.measures ep) index = none) (nonce : List Byte) :
    getMeasurements s ep tr index nonce = s.error 1 := by
  unfold asked at h
  unfold getMeasurements
  dsimp only
  split_ifs at h with h0 h255
  rw [if_neg fun e => h0 ((index_toNat (by decide)).mp e), if_neg fun e => h255 ((index_toNat (by decide)).mp e), h]

theorem asked_cases {ms : List (List Byte)} {index : Byte} {m : List Byte}
    (h : (index = 0 ∧ m = []) ∨ (index = 255 ∧ m = ms.flatten) ∨ (index ≠ 0 ∧ index ≠ 255 ∧ ms[index.toNat - 1]? = some m)) :
    asked ms index = some m := by
  unfold asked
  rcases h with ⟨rfl, rfl⟩ | ⟨rfl, rfl⟩ | ⟨h0, h255, h⟩
  · rfl
  · rfl
  · rw [if_neg h0, if_neg h255, h]

/-! ### The HSS signature -/

theorem vendorDefined_other {code : Byte} (h : code ≠ 1) : vendorDefined s ep tr code = s.error 7 := if_pos (by simpa using h)

theorem vendorDefined_unsigned (h : (s.spdm ep tr).lastSigned = none) : vendorDefined s ep tr 1 = s.error 1 := by
  unfold vendorDefined
  dsimp only
  rw [if_neg (by decide), h]

theorem vendorDefined_again {x : Spdm} {msg sig : List Byte} (h : s.spdm ep tr = x) (hl : x.lastSigned = some msg)
    (hf : x.hssFor = some sig) : vendorDefined s ep tr 1 = s.say (0x7E :: sig) := by
  unfold vendorDefined
  dsimp only
  rw [if_neg (by decide), h, hl, hf]

theorem vendorDefined_first {x : Spdm} {msg : List Byte} (h : s.spdm ep tr = x) (hl : x.lastSigned = some msg)
    (hf : x.hssFor = none) : vendorDefined s ep tr 1 = hssSigned s ep tr x msg := by
  unfold vendorDefined
  dsimp only
  rw [if_neg (by decide), h, hl, hf]

theorem hssSigned_some {x : Spdm} {msg : List Byte} {q : Nat} {h : Hss} {m : Mem}
    (hi : (s.hss ep).1.index (s.hss ep).2 = (some q, h, m)) : hssSigned s ep tr x msg =
      ((s.setHss ep h m).setSpdm ep tr { x with hssFor := some (hssSignature (epCode ep) q msg) }).say
        (0x7E :: hssSignature (epCode ep) q msg) := by
  unfold hssSigned
  rw [hi]

theorem hssSigned_none {x : Spdm} {msg : List Byte} {h : Hss} {m : Mem}
    (hi : (s.hss ep).1.index (s.hss ep).2 = (none, h, m)) : hssSigned s ep tr x msg =
      ({ s.setHss ep h m with freeCtr := s.freeCtr + 1 } : State).say [0x7F, Config.freeByte s.freeCtr 0] := by
  unfold hssSigned
  rw [hi]

theorem exec_vendorDefined {code : Byte} {t : State} (hr : s.reaches ep tr = true) (ht : vendorDefined s ep tr code = t) :
    exec (.vendorDefinedRequest ep tr code) s = .next t := by
  subst ht
  exact congrArg Host.Outcome.next (onSpdm_reached hr _)

theorem State.withCtr_hss (s : State) (ep : Endpoint) (n : Nat) : State.hss { s with freeCtr := n } ep = s.hss ep := by
  cases ep <;> rfl

theorem State.withCtr_spdm (s : State) (ep : Endpoint) (tr : Transport) (n : Nat) :
    State.spdm { s with freeCtr := n } ep tr = s.spdm ep tr := by cases ep <;> cases tr <;> rfl

/-- The same bytes said again change nothing. -/
theorem State.say_again (s : State) (bs : List Byte) : (s.say bs).say bs = s.say bs := rfl
end

/-- Settles O59: the answers in the order of Table 18.7, then the HSS signature. -/
theorem spdmResponders : Obligations.SpdmResponders := by
  unfold Obligations.SpdmResponders
  refine ⟨fun s ep tr code slot index off len nonce full rest own key s1 s2 h1 h2 => ⟨fun hr => ?_, fun hr i hi => ?_⟩,
    fun s ep tr code msg sig g q h m hr => ⟨fun hs hi hg => ?_, fun hs hi => ?_, fun hs => ?_, fun hs => ?_, fun hc => ?_⟩⟩
  · have row (f : State → State) : Host.Outcome.next (onSpdm s ep tr f) = (.next (f s) : Host.Outcome State Fault Refusal) :=
      congrArg Host.Outcome.next (onSpdm_reached hr f)
    refine ⟨⟨_, row _, rfl, by rw [State.say_spdm, State.setSpdm_spdm], (SameTrust.setSpdm s ep tr _).hostMem,
        (SameTrust.setSpdm s ep tr _).freeCtr⟩, row _, row _, row _, fun hrest hfull => ?_, fun hslot => ⟨?_, ?_⟩,
      ⟨_, _, row _, rfl, ?_⟩, fun m hm => ⟨_, _, row _, rfl, ?_⟩, fun h0 h255 hnone => ?_, row _⟩
    · subst hrest hfull
      exact row _
    · exact (row _).trans (congrArg Host.Outcome.next (if_pos (by simpa using hslot)))
    · exact (row _).trans (congrArg Host.Outcome.next (challenge_slot hslot nonce))
    · rw [challenge_zero]
      exact State.signed_spec h1 h2 _
    · rw [getMeasurements_some (asked_cases hm)]
      exact State.signed_spec h1 h2 _
    · refine (row _).trans (congrArg Host.Outcome.next (getMeasurements_none ?_ nonce))
      rw [asked, if_neg h0, if_neg h255, hnone]
  · rcases hi with rfl | rfl | rfl | rfl | rfl | rfl | rfl | rfl | rfl
    all_goals exact congrArg Host.Outcome.next (onSpdm_unreached hr _)
  · have hg : g = hssSignature (epCode ep) q msg := hg
    subst hg
    have spdm : (((s.setHss ep h m).setSpdm ep tr { lastSigned := some msg, hssFor := some (hssSignature (epCode ep) q msg) }).say
        (0x7E :: hssSignature (epCode ep) q msg)).spdm ep tr =
          { lastSigned := some msg, hssFor := some (hssSignature (epCode ep) q msg) } := by
      rw [State.say_spdm, State.setSpdm_spdm]
    refine ⟨_, exec_vendorDefined hr ((vendorDefined_first hs rfl rfl).trans (hssSigned_some hi)), rfl, ?_, spdm, ?_⟩
    · rw [State.say_hss, State.setSpdm_hss, State.setHss_hss]
    · refine exec_vendorDefined ?_ ((vendorDefined_again spdm rfl rfl).trans (State.say_again _ _))
      rw [((SameTrust.setHss s ep h m).trans ((SameTrust.setSpdm _ ep tr _).trans (SameTrust.say _ _))).reaches, hr]
  · refine ⟨_, exec_vendorDefined hr ((vendorDefined_first hs rfl rfl).trans (hssSigned_none hi)), rfl, ?_, ?_⟩
    · rw [State.say_hss, State.withCtr_hss, State.setHss_hss]
    · rw [State.say_spdm, State.withCtr_spdm, State.setHss_spdm]
  · exact exec_vendorDefined hr (vendorDefined_again hs rfl rfl)
  · exact exec_vendorDefined hr (vendorDefined_unsigned hs)
  · exact exec_vendorDefined hr (vendorDefined_other hc)

end Sys2Proof.Machine
end

