-- ==== Sys2Proof/Proofs/ChannelBoot.lean ====
section
/-!
SUPPORT. The boot of a channel (18 R399 to R412): what a configuration block leaves alone, the ways a boot ends held, and the
one in which it ends running.
-/
namespace Sys2Proof.Machine

open Sys2Proof

/-! ### What a configuration block leaves alone -/

/-- d is c with its memory and the boot state it has. -/
def Settled (c d : Channel) : Prop := d.mem = c.mem ∧ d.boot = c.boot

namespace Settled

variable {c d e : Channel}

theorem refl (c : Channel) : Settled c c := ⟨rfl, rfl⟩

theorem trans (h : Settled c d) (h' : Settled d e) : Settled c e := ⟨h'.1.trans h.1, h'.2.trans h.2⟩

theorem setReg (c : Channel) (o v : Nat) : Settled c (c.setReg o v) := by
  unfold Channel.setReg
  dsimp only
  split_ifs
  · exact refl c
  · exact refl c
  · split <;> exact refl c

theorem foldl {α : Type} {f : Channel → α → Channel} (h : ∀ c a, Settled c (f c a)) : ∀ (l : List α) c, Settled c (l.foldl f c)
  | [], c => refl c
  | a :: l, c => (h c a).trans (foldl h l (f c a))

end Settled

/-- A value that is bound came from something. -/
theorem Option.of_bind {α β : Type} {x : Option α} {f : α → Option β} {b : β} (h : (x >>= f) = some b) : ∃ a, f a = some b := by
  cases x with
  | none => nomatch h
  | some a => exact ⟨a, h⟩

/-- A block that a channel takes leaves its memory, and its boot state but for the configuration. -/
theorem Channel.configure_kept {c d : Channel} {ch : Ch} {raw : List Byte} (h : c.configure ch raw = some d) :
    d.mem = c.mem ∧ d.boot = { c.boot with cfg := d.boot.cfg } := by
  unfold Channel.configure at h
  iterate 6 obtain ⟨_, h⟩ := Option.of_bind h
  dsimp only at h
  split at h
  all_goals
    iterate 3 obtain ⟨_, h⟩ := Option.of_bind h
    split at h
    all_goals
      iterate 5 obtain ⟨_, h⟩ := Option.of_bind h
      obtain rfl := Option.some.inj h
      obtain ⟨hm, hb⟩ := Settled.foldl (fun c (r : Nat × Nat) => Settled.setReg c r.1 r.2) _ (c.modGov fun g => { g with allow := 450 })
      refine ⟨hm, ?_⟩
      dsimp only
      rw [hb]
      rfl

theorem Channel.chooseCfg_kept {c d : Channel} {ch : Ch} {j : Nat} (h : c.chooseCfg ch = .ok (j, d)) :
    d.mem = c.mem ∧ d.boot = { c.boot with cfg := d.boot.cfg } := by
  obtain ⟨-, q, hq, -⟩ := Channel.chooseCfg_ok h
  obtain ⟨raw, -, hd, -⟩ := Channel.made_eq_some.mp hq
  exact Channel.configure_kept hd

/-! ### Parts of a boot -/

/-- A channel whose stacks are known good, with a boot state: DRAM is zeros where it was not initialised before. -/
def Channel.stacked (c : Channel) (init : Bool) (b : Boot) : Channel :=
  if init then { c with boot := b }
  else { c with
    mem := c.mem.filter fun x => decide (dramSize ≤ x.1), bad := c.bad.filter fun k => decide (dramSize ≤ k)
    boot := b }

theorem Channel.initStacks_with (c : Channel) (b : Boot) : { c.initStacks with boot := b } = c.stacked c.boot.memInit b := by
  unfold Channel.initStacks Channel.stacked
  split <;> rfl

theorem Channel.stacked_boot (c : Channel) (i : Bool) (b : Boot) : (c.stacked i b).boot = b := by
  unfold Channel.stacked
  split <;> rfl

theorem Channel.stacked_mem_true (c : Channel) (b : Boot) : (c.stacked true b).mem = c.mem := rfl

/-- Zeros where the stacks are initialised. -/
theorem Channel.stacked_byte (c : Channel) (i : Bool) (b : Boot) {a : Nat} (ha : a < dramSize) :
    Mem.byte 0 (c.stacked i b).mem a = if i = true then Mem.byte 0 c.mem a else 0 := by
  cases i with
  | true => rfl
  | false =>
    change Mem.byte 0 (c.mem.filter fun x => decide (dramSize ≤ x.1)) a = 0
    unfold Mem.byte
    rw [Mem.lookup_none fun x hx => ?_]
    · rfl
    · have := (List.mem_filter.mp hx).2
      simp only [decide_eq_true_eq] at this
      omega

/-- The boot state once the firmware slots have been tried. -/
def Boot.tried (b : Boot) : Boot :=
  { b with
    memInit := true, activated := false
    resa := BitVec.ofNat 4 b.chooseFw.2.1, resb := BitVec.ofNat 4 b.chooseFw.2.2 }

/-- The boot state of a channel that runs slot i, configured from slot j. -/
def Boot.started (b : Boot) (i j : Nat) (cfg : Config) : Boot :=
  { b with
    cfg := cfg, life := .running, cause := .none, cslot := BitVec.ofNat 8 j, cseq := cfgSeq cfg.raw
    svnup := decide (b.fsvn < Config.fwMinSvn (b.fwCells i))
    fsvn := if decide (b.fsvn < Config.fwMinSvn (b.fwCells i)) then min 64 (Config.fwMinSvn (b.fwCells i)) else b.fsvn }

/-- The channel that runs. -/
def Channel.started (c : Channel) (b : Boot) (v : List Byte) : Channel :=
  (({ c with boot := b, gov := c.gov.withAgeing v } : Channel).clearNeve.seedLanes.takeRoles.clearEvents).modGov fun g =>
    { g with pllA := .warm, wakeTotal := g.wakeTotal + 1 }

section
variable {w : Wk} {b : Boot}

/-- How a boot ends: held before the stacks are written, held after it, or running. -/
inductive BootsTo (w : Wk) : Channel → Prop
  | early (k : Cause) (hk : k ≠ .none) (hh : (w.c.boot.hostHold || w.c.boot.bmcHold) = true →
      k = if Config.fusesOk w.ch.val = true then .hold else .fuse) : BootsTo w (w.c.hold k)
  | late (k : Cause) (b : Boot) (hk : k ≠ .none) (hh : (w.c.boot.hostHold || w.c.boot.bmcHold) = false)
      (hf : b.flash = w.c.boot.flash) (hv : b.fsvn = w.c.boot.fsvn) (hs : b.hss = w.c.boot.hss) (hm : b.memInit = true) :
      BootsTo w ((w.c.stacked w.c.boot.memInit b).hold k)
  | runs (i j : Nat) (c : Channel) (hh : (w.c.boot.hostHold || w.c.boot.bmcHold) = false)
      (ho : Config.fusesOk w.ch.val = true) (hi : w.c.boot.chooseFw.1 = some i)
      (hj : (w.c.stacked w.c.boot.memInit (w.c.boot.tried.describes i)).chooseCfg w.ch = .ok (j, c)) :
      BootsTo w (c.started ((w.c.boot.tried.describes i).started i j c.boot.cfg) w.c.boot.ageing)

/-- A boot draws free values at most, and sends nothing. -/
structure Wk.Boots (w u : Wk) : Prop where
  ch : u.ch = w.ch
  irqs : u.irqs = w.irqs
  ends : BootsTo w u.c

theorem Wk.bootUp_boots (w : Wk) : Wk.Boots w w.bootUp := by
  unfold Wk.bootUp
  dsimp only
  split
  · next hf => exact ⟨rfl, rfl, .early .fuse nofun fun _ => by rw [if_neg (by simpa using hf)]⟩
  next hf =>
  have ho : Config.fusesOk w.ch.val = true := by simpa using hf
  split
  · exact ⟨rfl, rfl, .early .hold nofun fun _ => by rw [if_pos ho]⟩
  next hh =>
  have hh : (w.c.boot.hostHold || w.c.boot.bmcHold) = false := by simpa using hh
  split
  · exact ⟨rfl, rfl, .early .meminit nofun fun h => absurd (h.symm.trans hh) (by decide)⟩
  have tried : w.c.boot.tried = { w.c.boot with
      memInit := true, activated := false
      resa := BitVec.ofNat 4 w.c.boot.chooseFw.2.1, resb := BitVec.ofNat 4 w.c.boot.chooseFw.2.2 } := rfl
  have fw : w.c.boot.chooseFw = (w.c.boot.chooseFw.1, w.c.boot.chooseFw.2.1, w.c.boot.chooseFw.2.2) := rfl
  rw [fw]
  dsimp only
  rw [← tried]
  cases hi : w.c.boot.chooseFw.1 with
  | none =>
    refine ⟨rfl, rfl, ?_⟩
    dsimp only
    rw [Channel.initStacks_with]
    exact .late _ _ (by split <;> exact nofun) hh rfl rfl rfl rfl
  | some i =>
    dsimp only
    rw [Channel.initStacks_with]
    cases hj : (w.c.stacked w.c.boot.memInit (w.c.boot.tried.describes i)).chooseCfg w.ch with
    | error k =>
      obtain ⟨-, -, hk⟩ := Channel.chooseCfg_error hj
      exact ⟨rfl, rfl, .late k _ (by rw [hk]; split <;> exact nofun) hh rfl rfl rfl rfl⟩
    | ok p =>
      obtain ⟨j, c⟩ := p
      have run := BootsTo.runs (w := w) i j c hh ho hi hj
      refine ⟨rfl, rfl, ?_⟩
      have hb := (Channel.chooseCfg_kept hj).2
      rw [Channel.stacked_boot] at hb
      dsimp only
      rw [hb]
      exact run
end

/-! ### A boot that ends held -/

/-- Held with a cause, its clocks cold, the flash and the fuses as they were. -/
structure BootHeld (c d : Channel) : Prop where
  life : d.boot.life = .held
  cause : d.boot.cause ≠ .none
  pllA : d.gov.pllA = .cold
  cores : ∀ k : Core, d.gov.cores[k].pll = .cold
  kept : c.boot.memInit = true ∨ d.boot.memInit = false → d.mem = c.mem
  zeros : c.boot.memInit = false → d.boot.memInit = true → ∀ a, a < dramSize → Mem.byte 0 d.mem a = 0
  flash : d.boot.flash = c.boot.flash
  fsvn : d.boot.fsvn = c.boot.fsvn
  hss : d.boot.hss = c.boot.hss

section
variable {c d : Channel}

theorem Channel.allCold_core (c : Channel) (k : Core) : c.allCold.gov.cores[k].pll = .cold := by
  unfold Channel.allCold
  dsimp only
  rw [Fin.getElem_fin, Vector.getElem_map]

theorem BootHeld.early (c : Channel) {k : Cause} (hk : k ≠ .none) : BootHeld c (c.hold k) where
  life := rfl
  cause := hk
  pllA := rfl
  cores := Channel.allCold_core _
  kept _ := rfl
  zeros h h' := absurd (h.symm.trans h') (by decide)
  flash := rfl
  fsvn := rfl
  hss := rfl

theorem Channel.hold_boot (c : Channel) (k : Cause) : (c.hold k).boot = { c.boot with life := .held, cause := k } := rfl

theorem Channel.hold_mem (c : Channel) (k : Cause) : (c.hold k).mem = c.mem := rfl

theorem BootHeld.late (c : Channel) {k : Cause} {b : Boot} (hk : k ≠ .none) (hf : b.flash = c.boot.flash)
    (hv : b.fsvn = c.boot.fsvn) (hs : b.hss = c.boot.hss) (hm : b.memInit = true) :
    BootHeld c ((c.stacked c.boot.memInit b).hold k) := by
  have boot : ((c.stacked c.boot.memInit b).hold k).boot = { b with life := .held, cause := k } := by
    rw [Channel.hold_boot, Channel.stacked_boot]
  refine ⟨by rw [boot], by rw [boot]; exact hk, rfl, Channel.allCold_core _, fun h => ?_, fun h _ a ha => ?_, by rw [boot]; exact hf,
    by rw [boot]; exact hv, by rw [boot]; exact hs⟩
  · rw [boot] at h
    rw [Channel.hold_mem, h.resolve_right fun h' => absurd (hm.symm.trans h') (by decide)]
    rfl
  · rw [Channel.hold_mem, h, Channel.stacked_byte _ _ _ ha, if_neg (by decide)]

/-! ### A boot that ends running -/

/-- Manager roles are kept with the fault registers. -/
def Roled (c d : Channel) : Prop := d = { c with flt := d.flt }

namespace Roled

theorem refl (c : Channel) : Roled c c := rfl

theorem trans {e : Channel} (h : Roled c d) (h' : Roled d e) : Roled c e := by
  unfold Roled at *
  rw [h', h]

theorem modMgr (c : Channel) (l : MgrLevel) (f : Mgr → Mgr) : Roled c (c.modMgr l f) := by cases l <;> rfl

theorem takeRoles (c : Channel) : Roled c c.takeRoles := by
  unfold Channel.takeRoles
  dsimp only
  have role (c : Channel) (l : MgrLevel) (f g : Mgr → Mgr) (p : Prop) [Decidable p] :
      Roled c (if p then (c.modMgr l f).modMgr l g else c.modMgr l f) := by
    split
    · exact (modMgr c l f).trans (modMgr _ l g)
    · exact modMgr c l f
  exact (role c .drift _ _ _).trans (role _ .field _ _ _)

end Roled

/-- What a start leaves of the channel as configured. -/
theorem Channel.started_spec (c : Channel) (b : Boot) (v : List Byte) : (c.started b v).boot = b ∧
    (c.started b v).ports = c.ports ∧ (c.started b v).nmon = c.nmon ∧ (c.started b v).agd = c.agd ∧
    (c.started b v).stp = c.stp ∧ (c.started b v).sas.epoch = 0 ∧ (c.started b v).gov.pllA = .warm ∧
    ∀ a, a < dramSize → a < c.nmon.evrBase.toNat ∨ c.nmon.evrBase.toNat + 32 * 2 ^ c.nmon.evrLog2.toNat ≤ a →
      Mem.byte 0 (c.started b v).mem a = Mem.byte 0 c.mem a := by
  have roled := Roled.takeRoles ({ c with boot := b, gov := c.gov.withAgeing v } : Channel).clearNeve.seedLanes
  unfold Roled at roled
  unfold Channel.started
  rw [roled]
  refine ⟨rfl, rfl, rfl, rfl, rfl, rfl, rfl, fun a ha hr => ?_⟩
  have ring := Mem.byte_erased 0 (c.mem.filter fun x => decide (x.1 < dramSize)) c.nmon.evrBase.toNat
    (32 * 2 ^ c.nmon.evrLog2.toNat) a
  rw [if_neg (by omega), Mem.byte_below, if_pos ha] at ring
  exact ring

/-- The fused security version after a start. -/
theorem Boot.started_fsvn (b : Boot) (i j : Nat) (cfg : Config) (h : b.fsvn ≤ 64) :
    (b.started i j cfg).fsvn = max b.fsvn (min 64 (Config.fwMinSvn (b.fwCells i))) := by
  change (if decide (b.fsvn < Config.fwMinSvn (b.fwCells i)) then min 64 (Config.fwMinSvn (b.fwCells i)) else b.fsvn) = _
  split
  · next hlt =>
    have := of_decide_eq_true hlt
    omega
  · next hge =>
    have := mt decide_eq_true hge
    omega

/-- Running, with the slots that it took and what they configure. -/
structure BootRuns (c : Channel) (ch : Ch) (d : Channel) : Prop where
  life : d.boot.life = .running
  cause : d.boot.cause = .none
  fuses : Config.fusesOk ch.val = true
  took : ∃ (i j : Nat) (b : Boot) (c' : Channel), c.boot.chooseFw.1 = some i ∧ d.boot.slot = BitVec.ofNat 8 i ∧
    b.flash = c.boot.flash ∧ b.torn = c.boot.torn ∧ (c.stacked c.boot.memInit b).chooseCfg ch = .ok (j, c') ∧
    d.boot.cslot = BitVec.ofNat 8 j ∧ d.boot.cfg = c'.boot.cfg ∧ d.ports = c'.ports ∧ d.nmon = c'.nmon ∧ d.agd = c'.agd ∧
    d.stp = c'.stp ∧ (c.boot.fsvn ≤ 64 → d.boot.fsvn = max c.boot.fsvn (min 64 (Config.fwMinSvn (c.boot.fwCells i))))
  epoch : d.sas.epoch = 0
  pllA : d.gov.pllA = .warm
  bytes : ∀ a, a < dramSize → a < d.nmon.evrBase.toNat ∨ d.nmon.evrBase.toNat + 32 * 2 ^ d.nmon.evrLog2.toNat ≤ a →
    Mem.byte 0 d.mem a = if c.boot.memInit = true then Mem.byte 0 c.mem a else 0
  hss : d.boot.hss = c.boot.hss

theorem BootRuns.of_runs {c c' : Channel} {ch : Ch} {i j : Nat} (ho : Config.fusesOk ch.val = true)
    (hi : c.boot.chooseFw.1 = some i)
    (hj : (c.stacked c.boot.memInit (c.boot.tried.describes i)).chooseCfg ch = .ok (j, c')) :
    BootRuns c ch (c'.started ((c.boot.tried.describes i).started i j c'.boot.cfg) c.boot.ageing) := by
  obtain ⟨boot, ports, nmon, agd, stp, epoch, pllA, bytes⟩ :=
    c'.started_spec ((c.boot.tried.describes i).started i j c'.boot.cfg) c.boot.ageing
  have mem := (Channel.chooseCfg_kept hj).1
  refine ⟨by rw [boot]; rfl, by rw [boot]; rfl, ho, ⟨i, j, c.boot.tried.describes i, c', hi, by rw [boot]; rfl, rfl, rfl, hj,
    by rw [boot]; rfl, by rw [boot]; rfl, ports, nmon, agd, stp, fun h => ?_⟩, epoch, pllA, fun a ha hr => ?_, by rw [boot]; rfl⟩
  · rw [boot]
    exact Boot.started_fsvn (c.boot.tried.describes i) i j c'.boot.cfg h
  · rw [nmon] at hr
    rw [bytes a ha hr, mem, Channel.stacked_byte _ _ _ ha]
end

/-! ### CHANNEL_BOOT -/

theorem Hss.start_next (h : Hss) (m : Mem) : (h.start m).next = (h.start m).limit := by
  unfold Hss.start
  split <;> rfl

/-- The channel once Adori has read its logs. -/
def Channel.readLogs (c : Channel) : Channel := { c with boot := c.boot.readLogs }

theorem Channel.readLogs_stacked (c : Channel) (i : Bool) (b : Boot) : c.readLogs.stacked i b = c.stacked i b := by
  unfold Channel.stacked
  split <;> rfl

/-- How a boot ends, from the channel before it. -/
inductive BootEnds (c : Channel) (ch : Ch) (d : Channel) : Prop
  | held (h : BootHeld c.readLogs d) (hh : (c.boot.hostHold || c.boot.bmcHold) = true →
      d.boot.cause = if Config.fusesOk ch.val = true then .hold else .fuse)
  | runs (h : BootRuns c.readLogs ch d) (hh : (c.boot.hostHold || c.boot.bmcHold) = false)

theorem BootsTo.ends {w : Wk} {c d : Channel} (hw : w.c = c.readLogs) (h : BootsTo w d) : BootEnds c w.ch d := by
  cases h with
  | early k hk hh =>
    rw [hw] at hh ⊢
    exact .held (.early _ hk) hh
  | late k b hk hh hf hv hs hm =>
    rw [hw] at hh hf hv hs ⊢
    exact .held (.late _ hk hf hv hs hm) fun h => absurd (h.symm.trans hh) (by decide)
  | runs i j c' hh ho hi hj =>
    rw [hw] at hh hi hj ⊢
    exact .runs (.of_runs ho hi hj) hh

/-- The identity of a boot changes nothing that a boot's end is told by. -/
theorem BootEnds.identify {c d : Channel} {ch : Ch} (h : BootEnds c ch d) (r : Nat) : BootEnds c ch (d.identify r) := by
  cases h with
  | held h hh =>
    obtain ⟨⟩ := h
    exact .held (by constructor <;> assumption) hh
  | runs h hh =>
    obtain ⟨⟩ := h
    exact .runs (by constructor <;> assumption) hh

theorem Channel.identify_aliasKey (c : Channel) (r : Nat) :
    (c.identify r).boot.aliasKey = aliasKeyOf r (c.identify r).boot.measures := rfl

theorem Wk.boot_ends (w : Wk) : BootEnds w.c w.ch w.boot.c ∧ w.boot.irqs = w.irqs ∧
    w.boot.c.boot.aliasKey = aliasKeyOf (1 + w.ch.val) w.boot.c.boot.measures := by
  obtain ⟨hch, hirqs, hends⟩ := Wk.bootUp_boots (w.mod Channel.readLogs)
  exact ⟨(hends.ends rfl).identify _, hirqs, rfl⟩

section
variable {s : State} {ch : Ch} {c : Channel}

/-- The state once the channel's boot is done, before the arbiter hears of it. -/
def State.booted (s : State) (ch : Ch) : State :=
  { s.put ch (s.work ch).boot.c with freeCtr := (s.work ch).boot.ctr }

theorem State.booted_chan (s : State) (ch : Ch) : (s.booted ch).chans[ch] = { (s.work ch).boot.c with
    poisonHit := s.chans[ch].poisonHit, waitHit := s.chans[ch].waitHit } := s.put_self ch _

theorem State.booted_boot (s : State) (ch : Ch) : (s.booted ch).chans[ch].boot = (s.work ch).boot.c.boot := by
  rw [State.booted_chan]

theorem State.booted_of_ne (s : State) {ch k : Ch} (h : k ≠ ch) : (s.booted ch).chans[k] = s.chans[k] :=
  (s.put_chan ch k _).trans (if_neg h)

/-- The arbiter knows the allowance of the channel. -/
def State.told (s : State) (ch : Ch) : State :=
  { s with bridge := { s.bridge with allowKnown := s.bridge.allowKnown.set ch.val true } }

theorem channelBoot_eq (s : State) (ch : Ch) : channelBoot s ch =
    if (s.booted ch).chans[ch].up = true then ((s.booted ch).told ch).regrant else s.booted ch := by
  have e : s.onCh ch Wk.boot = s.booted ch := (s.onCh_eq ch _).trans (State.after_quiet (s.work ch).boot_ends.2.1)
  unfold channelBoot
  dsimp only
  rw [e]
  rfl

theorem exec_channelBoot (hp : s.powered = true) (hm : s.bridge.modRst = false)
    (hl : s.chans[ch].boot.life = .reset ∨ s.chans[ch].boot.life = .booting) :
    exec (.channelBoot ch) s = .next (channelBoot s ch) := by
  refine congrArg Host.Outcome.next (if_pos ?_)
  simpa [hp, hm] using hl

theorem exec_channelBoot_other (hl : s.chans[ch].boot.life = .held ∨ s.chans[ch].boot.life = .running) :
    exec (.channelBoot ch) s = .next s := by
  refine congrArg Host.Outcome.next (if_neg ?_)
  rw [Bool.and_eq_true, Bool.or_eq_true, beq_iff_eq, beq_iff_eq]
  rintro ⟨-, hr | hb⟩
  · rw [hr] at hl
    exact hl.elim nofun nofun
  · rw [hb] at hl
    exact hl.elim nofun nofun

/-- The grants are all that telling the arbiter changes of the channel. -/
theorem told_regrant_chan (hk : s.bridge.allowKnown.length = 8) : ∃ g : Gov, g.pllA = s.chans[ch].gov.pllA ∧
    (s.told ch).regrant.chans[ch] = { s.chans[ch] with gov := g } := by
  have known : (s.told ch).known ch = true := by
    change (s.bridge.allowKnown.set ch.val true).getD ch.val false = true
    rw [List.getD_eq_getElem?_getD, List.getElem?_set_self (by omega)]
    rfl
  refine ⟨_, ?_, State.regrant_known _ known⟩
  rw [Gov.granted_rest]
  rfl

theorem told_regrant_knows (hk : s.bridge.allowKnown.length = 8) : (s.told ch).regrant.bridge.allowKnown.getD ch.val false = true := by
  change (s.bridge.allowKnown.set ch.val true).getD ch.val false = true
  rw [List.getD_eq_getElem?_getD, List.getElem?_set_self (by omega)]
  rfl
end

/-- Settles O57: by the two ways in which a boot ends. -/
theorem channelBoot_spec : Obligations.ChannelBoot := by
  unfold Obligations.ChannelBoot
  intro s ch c hc hp hm hk hv
  subst hc
  refine ⟨fun hl => ?_, exec_channelBoot_other⟩
  obtain ⟨ends, -, key⟩ := (s.work ch).boot_ends
  have boot := s.booted_boot ch
  have hss : (s.work ch).boot.c.boot.hss = s.chans[ch].boot.hss.start s.chans[ch].boot.flash := by
    cases ends with
    | held h => exact h.hss
    | runs h => exact h.hss
  have next : (s.work ch).boot.c.boot.hss.next = (s.work ch).boot.c.boot.hss.limit := by
    rw [hss]
    exact Hss.start_next _ _
  cases ends with
  | held h hh =>
    have down : (s.booted ch).chans[ch].up = false := by
      unfold Channel.up
      rw [boot, h.life]
      rfl
    have e : channelBoot s ch = s.booted ch := by rw [channelBoot_eq, if_neg (by rw [down]; decide)]
    refine ⟨s.booted ch, _, (exec_channelBoot hp hm hl).trans (congrArg Host.Outcome.next e), s.booted_chan ch, rfl, hss, next,
      key, fun hold => ⟨h.life, hh ((Bool.or_eq_true ..).mpr hold)⟩, .inl ⟨h.life, h.cause, h.pllA, h.cores, h.kept, h.zeros, h.flash, h.fsvn,
        fun k hne => s.booted_of_ne hne⟩⟩
  | runs h hh =>
    have up : (s.booted ch).chans[ch].up = true := by
      unfold Channel.up
      rw [boot, h.life]
      rfl
    have e : channelBoot s ch = ((s.booted ch).told ch).regrant := by rw [channelBoot_eq, if_pos up]
    have known : (s.booted ch).bridge.allowKnown.length = 8 := hk
    obtain ⟨g, pllA, chan⟩ := told_regrant_chan (s := s.booted ch) (ch := ch) known
    rw [State.booted_chan] at pllA chan
    obtain ⟨i, j, b, c', hi, hslot, hbf, hbt, hj, hcslot, hcfg, hports, hnmon, hagd, hstp, hfsvn⟩ := h.took
    refine ⟨_, _, (exec_channelBoot hp hm hl).trans (congrArg Host.Outcome.next e), chan, rfl, hss, next, key,
      fun hold => absurd (hh.symm.trans ((Bool.or_eq_true ..).mpr hold)) (by decide), .inr ⟨h.life, h.cause, h.fuses,
        ⟨i, j, b, c', hi, hslot, hbf, hbt, ?_, hcslot, hcfg, hports, hnmon, hagd, hstp, hfsvn hv⟩, h.epoch, pllA.trans h.pllA,
        told_regrant_knows known, h.bytes⟩⟩
    rw [Channel.initStacks_with, ← Channel.readLogs_stacked]
    exact hj

end Sys2Proof.Machine
end

