-- ==== Sys2Proof/Proofs/HostTurns.lean ====
section
/-!
SUPPORT. Records and the host port (02 Table 2.5, 01 R19, R20): the bytes of a record, whose turn it is, the messages that go
out, and the write of a record.
-/
namespace Sys2Proof.Machine

open Sys2Proof

/-! ### The bytes of a record -/

/-- The flags of a record's byte 7. -/
def Record.flags (r : Record) (phase : Bool) : Nat := b2n phase + 2 * b2n r.floe + 4 * b2n r.res.nmev + 8 * b2n r.warn

theorem Record.bytes_eq (r : Record) (q : QIdx) (phase : Bool) : r.bytes q phase =
    toBytes 4 r.seq.toNat ++ (toBytes 2 r.tag.toNat ++ (toBytes 1 r.res.status.toNat ++ (toBytes 1 (r.flags phase) ++
      (toBytes 2 q.val ++ (toBytes 4 r.res.member.toNat ++ (toBytes 2 r.res.detail.toNat ++ (toBytes 8 r.res.info.toNat ++
        toBytes 8 r.time.toNat))))))) := by
  have status : [r.res.status] = toBytes 1 r.res.status.toNat := by simp [toBytes]
  simp only [Record.bytes, status, Record.flags, List.append_assoc]

@[simp] theorem Record.bytes_length (r : Record) (q : QIdx) (phase : Bool) : (r.bytes q phase).length = 32 := by
  simp [Record.bytes_eq]

/-- The four flags come apart. -/
theorem Record.flags_bits (r : Record) (phase : Bool) : r.flags phase < 256 ∧ (r.flags phase).testBit 0 = phase ∧
    (r.flags phase).testBit 1 = r.floe ∧ (r.flags phase).testBit 2 = r.res.nmev ∧ (r.flags phase).testBit 3 = r.warn := by
  unfold Record.flags
  cases phase <;> cases r.floe <;> cases r.res.nmev <;> cases r.warn <;> decide

/-! ### Whose turn it is -/

section
variable {s : State}

/-- How far a function stands behind the one served last. -/
def State.place (s : State) (x : Ch) : Nat := (x - s.bridge.served - 1).val

theorem State.place_inj {j k : Ch} (h : s.place j = s.place k) : j = k :=
  sub_left_injective (sub_left_injective (Fin.ext h : j - s.bridge.served - 1 = k - s.bridge.served - 1))

theorem State.hostTurn_iff {k : Ch} : s.hostTurn k = true ↔ ∀ x : Ch, s.chans[x].hostWaits = true → s.place k ≤ s.place x := by
  unfold State.hostTurn State.place
  rw [List.all_eq_true]
  constructor
  · intro h x hx
    have hx' := h x (List.mem_finRange x)
    rw [hx] at hx'
    exact of_decide_eq_true hx'
  · intro h x _
    cases hx : s.chans[x].hostWaits with
    | false => rfl
    | true => exact decide_eq_true (h x hx)

/-- At most one of the functions that wait has the turn. -/
theorem State.hostTurn_unique {j k : Ch} (hj : s.chans[j].hostWaits = true) (tj : s.hostTurn j = true)
    (hk : s.chans[k].hostWaits = true) (tk : s.hostTurn k = true) : j = k :=
  State.place_inj (le_antisymm (State.hostTurn_iff.mp tj k hk) (State.hostTurn_iff.mp tk j hj))

/-- Where one waits, one has the turn. -/
theorem State.hostTurn_exists {x : Ch} (hx : s.chans[x].hostWaits = true) :
    ∃ k : Ch, s.chans[k].hostWaits = true ∧ s.hostTurn k = true := by
  obtain ⟨k, hk, least⟩ := Finset.exists_min_image (Finset.univ.filter fun k : Ch => s.chans[k].hostWaits = true) s.place
    ⟨x, Finset.mem_filter.mpr ⟨Finset.mem_univ x, hx⟩⟩
  exact ⟨k, (Finset.mem_filter.mp hk).2, State.hostTurn_iff.mpr fun j hj =>
    least j (Finset.mem_filter.mpr ⟨Finset.mem_univ j, hj⟩)⟩

/-- The one that has the turn is the one found. -/
theorem State.find_turn {k : Ch} (hk : s.chans[k].hostWaits = true) (tk : s.hostTurn k = true) :
    ((List.finRange 8).find? fun x => s.chans[x].hostWaits && s.hostTurn x) = some k := by
  cases hf : (List.finRange 8).find? fun x => s.chans[x].hostWaits && s.hostTurn x with
  | none =>
    have h := List.find?_eq_none.mp hf k (List.mem_finRange k)
    rw [hk, tk] at h
    exact absurd rfl h
  | some x =>
    have h := List.find?_some hf
    rw [Bool.and_eq_true] at h
    rw [State.hostTurn_unique h.1 h.2 hk tk]

/-! ### The messages that go out -/

/-- The messages that wait, in all channels. -/
def State.irqCount (s : State) : Nat := (s.chans.toList.map fun c => c.irqWait.length).sum

theorem State.sendIrqs_down (h : s.bridge.hostUp = false) : s.sendIrqs = s := if_neg (by rw [h]; decide)

theorem State.sendIrqs_up (h : s.bridge.hostUp = true) : s.sendIrqs = s.sendIrqsGo s.irqCount := if_pos h

theorem State.sendIrqsGo_record {x : Ch} (hx : s.chans[x].hostWaits = true) (tx : s.hostTurn x = true)
    (hw : s.chans[x].irqWait = []) : ∀ n, s.sendIrqsGo n = s
  | 0 => rfl
  | n + 1 => by simp only [State.sendIrqsGo, State.find_turn hx tx, hw]

theorem State.sendIrqsGo_message {x : Ch} {v : Nat} {rest : List Nat} (hx : s.chans[x].hostWaits = true)
    (tx : s.hostTurn x = true) (hw : s.chans[x].irqWait = v :: rest) (n : Nat) :
    s.sendIrqsGo (n + 1) = (s.sentIrq x v rest).sendIrqsGo n := by
  simp only [State.sendIrqsGo, State.find_turn hx tx, hw]
  rfl

/-- The sum of numbers of a list, one of which falls by one. -/
theorem sum_map_set {α : Type} {f : α → Nat} : ∀ {l : List α} {i : Nat} (hi : i < l.length) {y : α}, f y + 1 = f l[i] →
    ((l.set i y).map f).sum + 1 = (l.map f).sum
  | x :: l, 0, _, y, h => by
    simp only [List.set_cons_zero, List.map_cons, List.sum_cons]
    have h : f y + 1 = f x := h
    omega
  | x :: l, i + 1, hi, y, h => by
    have ih := sum_map_set (l := l) (i := i) (Nat.lt_of_succ_lt_succ hi) h
    simp only [List.set_cons_succ, List.map_cons, List.sum_cons]
    omega

theorem State.sentIrq_count {x : Ch} {v : Nat} {rest : List Nat} (hw : s.chans[x].irqWait = v :: rest) :
    (s.sentIrq x v rest).irqCount + 1 = s.irqCount := by
  unfold State.irqCount State.sentIrq
  rw [Vector.toList_set]
  refine sum_map_set (by simp) ?_
  rw [Vector.getElem_toList]
  change rest.length + 1 = s.chans[x].irqWait.length
  rw [hw, List.length_cons]

theorem State.irqCount_pos {x : Ch} {v : Nat} {rest : List Nat} (hw : s.chans[x].irqWait = v :: rest) : 0 < s.irqCount := by
  have := State.sentIrq_count hw
  omega

/-- Messages go out one by one. -/
theorem State.sendIrqs_message {x : Ch} {v : Nat} {rest : List Nat} (hu : s.bridge.hostUp = true)
    (hx : s.chans[x].hostWaits = true) (tx : s.hostTurn x = true) (hw : s.chans[x].irqWait = v :: rest) :
    s.sendIrqs = (s.sentIrq x v rest).sendIrqs := by
  have up : (s.sentIrq x v rest).bridge.hostUp = true := hu
  rw [State.sendIrqs_up hu, State.sendIrqs_up up, ← State.sentIrq_count hw, State.sendIrqsGo_message hx tx hw]

/-! ### COMPLETION_RECORD_WRITE -/

/-- The channel after the record r of queue q has been written, to address a as bytes b. -/
def Channel.recorded (c : Channel) (q : QIdx) (r : Record) (rest : List Record) (a : Nat) (b : List Byte) : Channel :=
  let d := c.modQ q fun x => { x with waiting := rest, cplPi := x.cplPi + 1 }
  let d := { d with irqWait := d.irqWait ++ if r.irq then [c.queues[q].irqv.toNat] else [] }
  if c.queues[q].cplLoc then d.wr a b else d

/-- The module after it, before the messages that wait go out. -/
def State.recorded (s : State) (ch : Ch) (q : QIdx) (r : Record) (rest : List Record) (a : Nat) (b : List Byte) : State :=
  let t := if s.chans[ch].queues[q].cplLoc then s
    else { s with hostMem := Mem.write 0 s.hostMem a b, bridge := { s.bridge with served := ch } }
  t.modCh ch fun c => c.recorded q r rest a b

/-- Where the next record of a queue goes. -/
def Queue.recordAt (x : Queue) : Nat := x.cplAddr.toNat + 32 * (x.cplPi.toNat % x.cplSize)

/-- The record of queue q of channel ch can be written now. -/
def State.recordDue (s : State) (ch : Ch) (q : QIdx) : Prop :=
  s.chans[ch].recordReady q = true ∧ (s.chans[ch].queues[q].cplLoc = false →
    s.bridge.hostUp = true ∧ s.chans[ch].isFrozen .host = false ∧ s.hostTurn ch = true)

theorem completionRecordWrite_due {ch : Ch} {q : QIdx} {r : Record} {rest : List Record} (h : s.recordDue ch q)
    (hw : s.chans[ch].queues[q].waiting = r :: rest) : completionRecordWrite s ch q =
      (s.recorded ch q r rest s.chans[ch].queues[q].recordAt
        (r.bytes q (phaseOf s.chans[ch].queues[q].cplPi s.chans[ch].queues[q].cplLog2.toNat))).sendIrqs := by
  obtain ⟨ready, host⟩ := h
  unfold completionRecordWrite
  simp only [hw]
  rw [if_neg]
  · cases hl : s.chans[ch].queues[q].cplLoc with
    | true => simp only [State.recorded, State.modCh_eq, hl, if_true, Channel.recorded]; rfl
    | false => simp only [State.recorded, State.modCh_eq, hl, Channel.recorded, Bool.false_eq_true, if_false]; rfl
  · rw [ready]
    cases hl : s.chans[ch].queues[q].cplLoc with
    | true => simp
    | false =>
      obtain ⟨hu, hf, ht⟩ := host hl
      simp [-Fin.getElem_fin, hu, hf, ht]

theorem State.recorded_chan (s : State) (ch k : Ch) (q : QIdx) (r : Record) (rest : List Record) (a : Nat) (b : List Byte) :
    (s.recorded ch q r rest a b).chans[k] = if k = ch then { s.chans[ch].recorded q r rest a b with
      poisonHit := s.chans[ch].poisonHit, waitHit := s.chans[ch].waitHit } else s.chans[k] := by
  unfold State.recorded
  dsimp only
  rw [State.modCh_eq, State.put_chan]
  cases s.chans[ch].queues[q].cplLoc <;> rfl

/-- What the write leaves of the channel but for its memory. -/
theorem Channel.recorded_rest (c : Channel) (q : QIdx) (r : Record) (rest : List Record) (a : Nat) (b : List Byte) :
    (c.recorded q r rest a b).queues = (c.modQ q fun x => { x with waiting := rest, cplPi := x.cplPi + 1 }).queues ∧
    (c.recorded q r rest a b).irqWait = c.irqWait ++ (if r.irq then [c.queues[q].irqv.toNat] else []) ∧
    (c.recorded q r rest a b).boot = c.boot ∧ (c.recorded q r rest a b).frz = c.frz := by
  unfold Channel.recorded
  dsimp only
  cases c.queues[q].cplLoc <;> exact ⟨rfl, rfl, rfl, rfl⟩

theorem Channel.recorded_byte (c : Channel) (q : QIdx) (r : Record) (rest : List Record) (a : Nat) (b : List Byte) (i : Nat) :
    Mem.byte 0 (c.recorded q r rest a b).mem i =
      if c.queues[q].cplLoc = true ∧ a ≤ i ∧ i < a + b.length then b.getD (i - a) 0 else Mem.byte 0 c.mem i := by
  unfold Channel.recorded
  dsimp only
  cases c.queues[q].cplLoc with
  | true => simpa using Channel.wr_byte _ a b i
  | false => simp

theorem State.recorded_host (s : State) (ch : Ch) (q : QIdx) (r : Record) (rest : List Record) (a : Nat) (b : List Byte) :
    (∀ i, Mem.byte 0 (s.recorded ch q r rest a b).hostMem i =
      if s.chans[ch].queues[q].cplLoc = false ∧ a ≤ i ∧ i < a + b.length then b.getD (i - a) 0 else Mem.byte 0 s.hostMem i) ∧
    (s.recorded ch q r rest a b).bridge.served = (if s.chans[ch].queues[q].cplLoc = true then s.bridge.served else ch) ∧
    (s.recorded ch q r rest a b).msix = s.msix := by
  unfold State.recorded
  dsimp only
  rw [State.modCh_eq]
  cases s.chans[ch].queues[q].cplLoc with
  | true => exact ⟨fun i => by simp, rfl, rfl⟩
  | false => exact ⟨fun i => by simpa using Mem.byte_write 0 s.hostMem a b i, rfl, rfl⟩

end

/-- Settles O15: the fields of a record, its write, the turns, and the messages. -/
theorem recordWrite : Obligations.RecordWrite := by
  unfold Obligations.RecordWrite
  refine ⟨fun r q phase => ?_, fun s ch q c x r rest a b hc hx hw hu hfull ha hcase hb => ?_, fun s ch h => ?_, fun s x => ?_⟩
  · obtain ⟨hflags, hphase, hfloe, hnmev, hwarn⟩ := r.flags_bits phase
    have q160 := q.isLt
    have flags : fld (r.bytes q phase) 7 1 = r.flags phase := by
      rw [Record.bytes_eq]
      simp [Nat.mod_eq_of_lt hflags]
    rw [flags]
    refine ⟨r.bytes_length q phase, ?_, ?_, ?_, hphase, hfloe, hnmev, hwarn, ?_, ?_, ?_, ?_, ?_⟩
    all_goals
      rw [Record.bytes_eq]
      simp
      omega
  · subst hc hx ha hb
    have due : s.recordDue ch q := by
      unfold State.recordDue Channel.recordReady
      dsimp only
      rw [hu, hw, hfull]
      rcases hcase with ⟨hl, hst⟩ | ⟨hl, hup, hf, ht⟩
      · rw [hst, hl]
        exact ⟨rfl, nofun⟩
      · rw [hl]
        exact ⟨rfl, fun _ => ⟨hup, hf, ht⟩⟩
    obtain ⟨queues, irqs, -, -⟩ := s.chans[ch].recorded_rest q r rest s.chans[ch].queues[q].recordAt
      (r.bytes q (phaseOf s.chans[ch].queues[q].cplPi s.chans[ch].queues[q].cplLog2.toNat))
    obtain ⟨host, served, msix⟩ := s.recorded_host ch q r rest s.chans[ch].queues[q].recordAt
      (r.bytes q (phaseOf s.chans[ch].queues[q].cplPi s.chans[ch].queues[q].cplLog2.toNat))
    have chan := s.recorded_chan ch ch q r rest s.chans[ch].queues[q].recordAt
      (r.bytes q (phaseOf s.chans[ch].queues[q].cplPi s.chans[ch].queues[q].cplLog2.toNat))
    rw [if_pos rfl] at chan
    have bytes := s.chans[ch].recorded_byte q r rest s.chans[ch].queues[q].recordAt
      (r.bytes q (phaseOf s.chans[ch].queues[q].cplPi s.chans[ch].queues[q].cplLog2.toNat))
    rw [Record.bytes_length] at host bytes
    refine ⟨_, congrArg Host.Outcome.next (completionRecordWrite_due due hw), ?_, ?_, msix, ?_, host, served⟩
    · rw [chan]
      dsimp only
      rw [queues, Channel.modQ_self]
    · rw [chan]
      exact irqs
    · rw [chan]
      exact bytes
  · obtain ⟨k, hk, tk⟩ := State.hostTurn_exists h
    exact ⟨k, hk, tk, fun j hj tj => State.hostTurn_unique hj tj hk tk⟩
  · refine ⟨State.sendIrqs_down, fun hx tx hw => ?_, fun v rest hu hx tx hw => State.sendIrqs_message hu hx tx hw⟩
    unfold State.sendIrqs
    split
    · exact State.sendIrqsGo_record hx tx hw _
    · rfl

end Sys2Proof.Machine
end

