-- ==== Sys2Proof/Proofs/HostPortReturn.lean ====
section
/-!
SUPPORT. The pins and the host port (19 R428 to R434, 18 R420, 01 R20): an operation run on every channel in turn, and the
return of the port, after which no packet waits.
-/
namespace Sys2Proof.Machine

open Sys2Proof

/-! ### An operation on every channel -/

/-- An operation that sends no message of its own, as a reset or a release is. -/
def Wk.Silent (f : Wk → Wk) : Prop := ∀ w, (f w).irqs = w.irqs

theorem Wk.tear_silent (w : Wk) : w.tear.irqs = w.irqs := by rw [Wk.tear_rest]

theorem State.onCh_silent {f : Wk → Wk} (hf : Wk.Silent f) (s : State) (ch : Ch) : s.onCh ch f =
    { s.put ch (f (s.work ch)).c with freeCtr := (f (s.work ch)).ctr } :=
  (s.onCh_eq ch f).trans (State.after_quiet (hf (s.work ch)))

/-- t comes from s by f on the channels of l, each once, at some state of the free choices. -/
structure RunOn (f : Wk → Wk) (l : List Ch) (s t : State) : Prop where
  bridge : t.bridge = s.bridge
  hostMem : t.hostMem = s.hostMem
  within : ∀ k ∈ l, ∃ w : Wk, w.c = s.chans[k] ∧
    t.chans[k] = { (f w).c with poisonHit := s.chans[k].poisonHit, waitHit := s.chans[k].waitHit }
  without : ∀ k, k ∉ l → t.chans[k] = s.chans[k]

theorem State.foldl_runOn {f : Wk → Wk} (hf : Wk.Silent f) : ∀ (l : List Ch) (s : State), l.Nodup →
    RunOn f l s (l.foldl (fun s ch => s.onCh ch f) s)
  | [], _, _ => ⟨rfl, rfl, nofun, fun _ _ => rfl⟩
  | x :: l, s, h => by
    obtain ⟨hx, hl⟩ := List.nodup_cons.mp h
    have chan (k : Ch) : (s.onCh x f).chans[k] = if k = x then { (f (s.work x)).c with
        poisonHit := s.chans[x].poisonHit, waitHit := s.chans[x].waitHit } else s.chans[k] := by
      rw [State.onCh_silent hf]
      exact s.put_chan x k _
    obtain ⟨bridge, hostMem, within, without⟩ := State.foldl_runOn hf l (s.onCh x f) hl
    refine ⟨bridge.trans ?_, hostMem.trans ?_, fun k hk => ?_, fun k hk => ?_⟩
    · rw [State.onCh_silent hf]
      rfl
    · rw [State.onCh_silent hf]
      rfl
    · by_cases e : k = x
      · subst e
        refine ⟨s.work k, rfl, ?_⟩
        rw [List.foldl_cons, without k hx, chan, if_pos rfl]
      · obtain ⟨w, hw, ht⟩ := within k ((List.mem_cons.mp hk).resolve_left e)
        rw [chan, if_neg e] at hw ht
        exact ⟨w, hw, ht⟩
    · rw [List.mem_cons, not_or] at hk
      rw [List.foldl_cons, without k hk.2, chan, if_neg hk.1]

/-- The operation on all eight channels. -/
def State.onAll (s : State) (f : Wk → Wk) : State := (List.finRange 8).foldl (fun s ch => s.onCh ch f) s

theorem State.onAll_eq (s : State) (f : Wk → Wk) : (List.finRange 8).foldl (fun s ch => s.onCh ch f) s = s.onAll f := rfl

theorem State.onAll_bridge {f : Wk → Wk} (hf : Wk.Silent f) (s : State) : (s.onAll f).bridge = s.bridge :=
  (State.foldl_runOn hf _ s (List.nodup_finRange 8)).bridge

theorem State.onAll_hostMem {f : Wk → Wk} (hf : Wk.Silent f) (s : State) : (s.onAll f).hostMem = s.hostMem :=
  (State.foldl_runOn hf _ s (List.nodup_finRange 8)).hostMem

theorem State.onAll_chan {f : Wk → Wk} (hf : Wk.Silent f) (s : State) (k : Ch) : ∃ w : Wk, w.c = s.chans[k] ∧
    (s.onAll f).chans[k] = { (f w).c with poisonHit := s.chans[k].poisonHit, waitHit := s.chans[k].waitHit } :=
  (State.foldl_runOn hf _ s (List.nodup_finRange 8)).within k (List.mem_finRange k)

/-! ### Resets and releases of the module -/

theorem State.resetAll_eq (s : State) (f : Channel → Channel) : s.resetAll f = s.onAll fun w => w.reset.mod f := rfl

theorem State.releaseAll_eq (s : State) : s.releaseAll =
    { s.onAll Wk.release with bridge := { (s.onAll Wk.release).bridge with hostUp := !(s.onAll Wk.release).bridge.perst } } := rfl

theorem Wk.reset_mod_silent (f : Channel → Channel) : Wk.Silent fun w => w.reset.mod f := Wk.tear_silent

theorem Wk.release_silent : Wk.Silent Wk.release := fun _ => rfl

theorem State.switchOpen_bridge (s : State) : s.switchOpen.bridge =
    { s.bridge.afterReset with switchClosed := false, pgood := false } := by
  unfold State.switchOpen
  rw [State.resetAll_eq]
  dsimp only
  rw [s.onAll_bridge (Wk.reset_mod_silent Channel.powerOff)]

/-- What is left of a channel that lost its power. -/
structure Unpowered (c d : Channel) : Prop where
  rest : d = { boot := d.boot, poisonHit := c.poisonHit, waitHit := c.waitHit }
  life : d.boot.life = .reset
  memInit : d.boot.memInit = false
  hostHold : d.boot.hostHold = false
  bmcHold : d.boot.bmcHold = false
  cfg : d.boot.cfg = {}
  fsvn : d.boot.fsvn = c.boot.fsvn
  flash : c.boot.flBusy = false → d.boot.flash = c.boot.flash

theorem Unpowered.registers {c d : Channel} (h : Unpowered c d) : d.mem = [] ∧ d.queues = Vector.replicate 160 {} ∧
    d.sems = Vector.replicate 256 0 ∧ d.running = [] ∧ d.irqWait = [] := by
  rw [h.rest]
  exact ⟨rfl, rfl, rfl, rfl, rfl⟩

theorem State.switchOpen_chan (s : State) (ch : Ch) : Unpowered s.chans[ch] s.switchOpen.chans[ch] := by
  obtain ⟨w, hw, h⟩ := s.onAll_chan (Wk.reset_mod_silent Channel.powerOff) ch
  unfold State.switchOpen
  rw [State.resetAll_eq]
  dsimp only
  rw [h]
  refine ⟨rfl, rfl, rfl, rfl, rfl, rfl, ?_, fun idle => ?_⟩
  · change w.tear.c.boot.fsvn = _
    rw [Wk.tear_rest, hw]
  · change w.tear.c.boot.flash = _
    rw [← hw] at idle ⊢
    rw [Wk.tear_idle idle]

theorem State.releaseAll_bridge (s : State) : s.releaseAll.bridge = { s.bridge with hostUp := !s.bridge.perst } := by
  rw [State.releaseAll_eq]
  dsimp only
  rw [s.onAll_bridge Wk.release_silent]

theorem State.releaseAll_chan (s : State) (ch : Ch) :
    s.releaseAll.chans[ch].boot.life = .booting ∧ s.releaseAll.chans[ch].mem = s.chans[ch].mem := by
  obtain ⟨w, hw, h⟩ := s.onAll_chan Wk.release_silent ch
  rw [State.releaseAll_eq]
  dsimp only
  rw [h, ← hw]
  exact ⟨rfl, rfl⟩

/-- What a module reset does with a channel besides its own reset. -/
def Channel.moduleOff (c : Channel) : Channel :=
  { c with boot := c.boot.noFunction0, gov := { c.gov with allow := 450, grant := 450, overalloc := false } }

theorem moduleReset_eq (s : State) : moduleReset s = { s.onAll fun w => w.reset.mod Channel.moduleOff with
    bridge := { (s.onAll fun w => w.reset.mod Channel.moduleOff).bridge.afterReset with modRst := true } } := rfl

theorem moduleReset_bridge (s : State) : (moduleReset s).bridge = { s.bridge.afterReset with modRst := true } := by
  rw [moduleReset_eq]
  dsimp only
  rw [s.onAll_bridge (Wk.reset_mod_silent Channel.moduleOff)]

theorem moduleReset_chan (s : State) (ch : Ch) : (moduleReset s).chans[ch].boot.life = .reset ∧
    (moduleReset s).chans[ch].boot.hostHold = false ∧ (moduleReset s).chans[ch].boot.bmcHold = s.chans[ch].boot.bmcHold ∧
    (moduleReset s).chans[ch].gov.grant = 450 ∧
    ∀ a, Mem.byte 0 (moduleReset s).chans[ch].mem a = if a < dramSize then Mem.byte 0 s.chans[ch].mem a else 0 := by
  obtain ⟨w, hw, h⟩ := s.onAll_chan (Wk.reset_mod_silent Channel.moduleOff) ch
  rw [moduleReset_eq]
  dsimp only
  rw [h]
  refine ⟨rfl, rfl, ?_, rfl, fun a => ?_⟩
  · change w.tear.c.boot.bmcHold = _
    rw [Wk.tear_rest, hw]
  · have bytes := Mem.byte_below 0 w.tear.c.mem dramSize a
    have keep : w.tear.c.mem = s.chans[ch].mem := by rw [Wk.tear_rest, hw]
    rw [keep] at bytes
    rw [← bytes, ← keep]
    rfl

/-! ### The host port's reset -/

/-- What it does with a channel. -/
def Wk.portReset (w : Wk) : Wk := w.tear.mod fun c => { c with boot := c.boot.noFunction0 }

theorem Wk.portReset_silent : Wk.Silent Wk.portReset := Wk.tear_silent

theorem hostPortReset_eq (s : State) : hostPortReset s = { s.onAll Wk.portReset with
    bridge := { (s.onAll Wk.portReset).bridge with hostUp := false, spdmDoe := {} } } := by
  have e : (fun (s : State) (ch : Ch) => s.onCh ch fun w => w.tear.mod fun c => { c with boot := c.boot.noFunction0 }) =
      fun s ch => s.onCh ch Wk.portReset := rfl
  unfold hostPortReset
  rw [e, State.onAll_eq]

theorem hostPortReset_bridge (s : State) : (hostPortReset s).bridge = { s.bridge with hostUp := false, spdmDoe := {} } := by
  rw [hostPortReset_eq]
  dsimp only
  rw [s.onAll_bridge Wk.portReset_silent]

theorem hostPortReset_hostMem (s : State) : (hostPortReset s).hostMem = s.hostMem := by
  rw [hostPortReset_eq]
  dsimp only
  exact s.onAll_hostMem Wk.portReset_silent

/-- The channel runs on; function 0's registers of it are reset. -/
structure PortReset (c d : Channel) : Prop where
  life : d.boot.life = c.boot.life
  mem : d.mem = c.mem
  queues : d.queues = c.queues
  hostHold : d.boot.hostHold = false
  flown : d.boot.flown = false
  flAddr : d.boot.flAddr = 0
  bmcHold : d.boot.bmcHold = c.boot.bmcHold

theorem hostPortReset_chan (s : State) (ch : Ch) : PortReset s.chans[ch] (hostPortReset s).chans[ch] := by
  obtain ⟨w, hw, h⟩ := s.onAll_chan Wk.portReset_silent ch
  rw [hostPortReset_eq]
  dsimp only
  rw [h, ← hw]
  refine ⟨?_, ?_, ?_, rfl, rfl, rfl, ?_⟩
  · change w.tear.c.boot.life = _
    rw [Wk.tear_rest]
  · change w.tear.c.mem = _
    rw [Wk.tear_rest]
  · change w.tear.c.queues = _
    rw [Wk.tear_rest]
  · change w.tear.c.boot.bmcHold = _
    rw [Wk.tear_rest]

/-! ### The host port's return -/

/-- Records of a channel that wait. -/
def Channel.heldRecords (c : Channel) : Nat := ((List.finRange 160).map fun q => c.queues[q].waiting.length).sum

/-- No message of the function whose turn it is waits: the turn is a record's, or no packet waits. -/
def State.Sent (s : State) : Prop :=
  ∀ x : Ch, s.chans[x].hostWaits = true → s.hostTurn x = true → s.chans[x].irqWait = []

/-- No function has a packet for the host. -/
def State.Quiet (s : State) : Prop := ∀ x : Ch, s.chans[x].hostWaits = false

theorem State.quiet_or (s : State) : s.Quiet ∨ ∃ x : Ch, s.chans[x].hostWaits = true := by
  by_cases busy : ∃ x : Ch, s.chans[x].hostWaits = true
  · exact .inr busy
  · exact .inl fun x => Bool.eq_false_of_not_eq_true fun hx => busy ⟨x, hx⟩

/-- What sending changes of no channel and of no pin. -/
structure Drains (s t : State) : Prop where
  pins : t.bridge = { s.bridge with served := t.bridge.served }
  boot : ∀ k : Ch, t.chans[k].boot = s.chans[k].boot
  frz : ∀ k : Ch, t.chans[k].frz = s.chans[k].frz
  loc : ∀ (k : Ch) (q : QIdx), t.chans[k].queues[q].cplLoc = s.chans[k].queues[q].cplLoc

theorem Drains.refl (s : State) : Drains s s := ⟨rfl, fun _ => rfl, fun _ => rfl, fun _ _ => rfl⟩

theorem Drains.trans {s t u : State} (h : Drains s t) (g : Drains t u) : Drains s u :=
  ⟨by rw [g.pins, h.pins], fun k => (g.boot k).trans (h.boot k), fun k => (g.frz k).trans (h.frz k),
    fun k q => (g.loc k q).trans (h.loc k q)⟩

theorem State.sendIrqs_drains (s : State) : Drains s s.sendIrqs := by
  obtain ⟨state, chan⟩ := s.sendIrqs_frame
  refine ⟨?_, fun k => ?_, fun k => ?_, fun k q => ?_⟩
  · exact congrArg State.bridge state
  all_goals rw [chan k]

theorem State.heldRecords_eq (s : State) : s.heldRecords = ((List.finRange 8).map fun ch => s.chans[ch].heldRecords).sum := rfl

theorem State.sendIrqs_held (s : State) : s.sendIrqs.heldRecords = s.heldRecords := by
  rw [State.heldRecords_eq, State.heldRecords_eq]
  refine congrArg List.sum (List.map_congr_left fun k _ => ?_)
  rw [s.sendIrqs_frame.2 k]
  rfl

/-- Rounds enough for the messages that wait leave none at the turn. -/
theorem State.sendIrqsGo_sent : ∀ (n : Nat) (s : State), s.irqCount ≤ n → (s.sendIrqsGo n).Sent
  | 0, s, h => by
    intro x _ _
    cases hw : s.chans[x].irqWait with
    | nil => exact hw
    | cons v rest => exact absurd (State.irqCount_pos hw) (by omega)
  | n + 1, s, h => by
    intro x hx tx
    by_cases busy : ∃ y : Ch, s.chans[y].hostWaits = true ∧ s.hostTurn y = true ∧ s.chans[y].irqWait ≠ []
    · obtain ⟨y, hy, ty, wy⟩ := busy
      obtain ⟨v, rest, hw⟩ := List.exists_cons_of_ne_nil wy
      have count := State.sentIrq_count hw
      rw [State.sendIrqsGo_message hy ty hw n] at hx tx ⊢
      exact State.sendIrqsGo_sent n _ (by omega) x hx tx
    · have still : s.sendIrqsGo (n + 1) = s := by
        rcases s.sendIrqsGo_cases n with e | ⟨y, v, rest, hy, ty, hw, -⟩
        · exact e
        · exact absurd ⟨y, hy, ty, by rw [hw]; exact List.cons_ne_nil v rest⟩ busy
      rw [still] at hx tx ⊢
      by_contra hw
      exact busy ⟨x, hx, tx, hw⟩

theorem State.sendIrqs_sent {s : State} (h : s.bridge.hostUp = true) : s.sendIrqs.Sent := by
  rw [State.sendIrqs_up h]
  exact State.sendIrqsGo_sent _ s le_rfl

/-- A channel that waits with no message has a record that is ready for the host. -/
theorem Channel.ready_of_hostWaits {c : Channel} (h : c.hostWaits = true) (hw : c.irqWait = []) : c.isFrozen .host = false ∧
    ∃ q : QIdx, c.recordReady q = true ∧ c.queues[q].cplLoc = false := by
  unfold Channel.hostWaits at h
  rw [hw, Bool.and_eq_true, Bool.not_eq_true', List.isEmpty_nil, Bool.not_true, Bool.false_or, List.any_eq_true] at h
  obtain ⟨hf, q, -, hq⟩ := h
  rw [Bool.and_eq_true, Bool.not_eq_true'] at hq
  exact ⟨hf, q, hq⟩

theorem Channel.record_of_ready {c : Channel} {q : QIdx} (h : c.recordReady q = true) :
    ∃ r rest, c.queues[q].waiting = r :: rest := by
  cases hw : c.queues[q].waiting with
  | nil =>
    unfold Channel.recordReady at h
    dsimp only at h
    rw [hw] at h
    simp at h
  | cons r rest => exact ⟨r, rest, rfl⟩

/-- A sum over distinct places of which one falls by one. -/
theorem sum_map_pred {α : Type} {f g : α → Nat} {x : α} (hx : f x + 1 = g x) (h : ∀ y, y ≠ x → f y = g y) :
    ∀ {l : List α}, l.Nodup → x ∈ l → (l.map f).sum + 1 = (l.map g).sum
  | y :: l, hl, hm => by
    obtain ⟨hy, hl⟩ := List.nodup_cons.mp hl
    simp only [List.map_cons, List.sum_cons]
    by_cases e : y = x
    · subst e
      have same : l.map f = l.map g := List.map_congr_left fun z hz => h z fun e => hy (e ▸ hz)
      rw [same]
      omega
    · have ih := sum_map_pred hx h hl ((List.mem_cons.mp hm).resolve_left (Ne.symm e))
      rw [h y e]
      omega

/-- Writing a record leaves one less. -/
theorem Channel.recorded_held {c : Channel} {q : QIdx} {r : Record} {rest : List Record} (a : Nat) (b : List Byte)
    (hw : c.queues[q].waiting = r :: rest) : (c.recorded q r rest a b).heldRecords + 1 = c.heldRecords := by
  refine sum_map_pred (x := q) ?_ (fun y hy => ?_) (List.nodup_finRange 160) (List.mem_finRange q)
  · rw [(c.recorded_rest q r rest a b).1, Channel.modQ_self, hw]
    rfl
  · rw [(c.recorded_rest q r rest a b).1, Channel.modQ_get, if_neg hy]

theorem State.recorded_held {s : State} {ch : Ch} {q : QIdx} {r : Record} {rest : List Record} (a : Nat) (b : List Byte)
    (hw : s.chans[ch].queues[q].waiting = r :: rest) : (s.recorded ch q r rest a b).heldRecords + 1 = s.heldRecords := by
  refine sum_map_pred (x := ch) ?_ (fun y hy => ?_) (List.nodup_finRange 8) (List.mem_finRange ch)
  · rw [State.recorded_chan, if_pos rfl]
    exact Channel.recorded_held a b hw
  · rw [State.recorded_chan, if_neg hy]

theorem State.recorded_drains (s : State) (ch : Ch) (q : QIdx) (r : Record) (rest : List Record) (a : Nat) (b : List Byte) :
    Drains s (s.recorded ch q r rest a b) := by
  obtain ⟨queues, -, boot, frz⟩ := s.chans[ch].recorded_rest q r rest a b
  have chan (k : Ch) := s.recorded_chan ch k q r rest a b
  refine ⟨?_, fun k => ?_, fun k => ?_, fun k p => ?_⟩
  · unfold State.recorded
    dsimp only
    rw [State.modCh_eq]
    cases s.chans[ch].queues[q].cplLoc <;> rfl
  · rw [chan k]
    split
    · next h =>
      subst h
      exact boot
    · rfl
  · rw [chan k]
    split
    · next h =>
      subst h
      exact frz
    · rfl
  · rw [chan k]
    split
    · next h =>
      subst h
      refine (congrArg (fun v : Vector Queue 160 => v[p].cplLoc) queues).trans ?_
      rw [Channel.modQ_get]
      split
      · next e => rw [e]
      · rfl
    · rfl

/-- t is s after one record has gone out. -/
structure OneLess (s t : State) : Prop where
  drains : Drains s t
  sent : t.Sent
  less : t.heldRecords < s.heldRecords

/-- A round of the port's return writes the record whose turn it is. -/
theorem drainOne_record {s : State} (sent : s.Sent) (up : s.bridge.hostUp = true) {x : Ch} (hx : s.chans[x].hostWaits = true) :
    OneLess s (drainOne s) := by
  obtain ⟨k, hk, tk⟩ := State.hostTurn_exists hx
  obtain ⟨hf, p, ready, loc⟩ := Channel.ready_of_hostWaits hk (sent k hk tk)
  cases found : (List.finRange 160).find? fun q => s.chans[k].recordReady q && !s.chans[k].queues[q].cplLoc with
  | none =>
    have h := List.find?_eq_none.mp found p (List.mem_finRange p)
    rw [ready, loc] at h
    exact absurd rfl h
  | some q =>
    have h := List.find?_some found
    rw [Bool.and_eq_true] at h
    obtain ⟨r, rest, hw⟩ := Channel.record_of_ready h.1
    have step : drainOne s = completionRecordWrite s k q := by
      unfold drainOne
      simp only [State.find_turn hk tk, found]
    rw [step, completionRecordWrite_due ⟨h.1, fun _ => ⟨up, hf, tk⟩⟩ hw]
    have drains := s.recorded_drains k q r rest s.chans[k].queues[q].recordAt
      (r.bytes q (phaseOf s.chans[k].queues[q].cplPi s.chans[k].queues[q].cplLog2.toNat))
    refine ⟨drains.trans (State.sendIrqs_drains _), State.sendIrqs_sent ?_, ?_⟩
    · rw [drains.pins]
      exact up
    · rw [State.sendIrqs_held]
      have one := State.recorded_held (s := s) s.chans[k].queues[q].recordAt
        (r.bytes q (phaseOf s.chans[k].queues[q].cplPi s.chans[k].queues[q].cplLog2.toNat)) hw
      exact Nat.lt_of_succ_le one.le

theorem drainOne_idle {s : State} (h : s.Quiet) : drainOne s = s := by
  unfold drainOne
  rw [List.find?_eq_none.mpr fun x _ => by rw [h x, Bool.false_and]; decide]

theorem drains_idle {α : Type} {s : State} (h : s.Quiet) : ∀ l : List α,
    l.foldl (fun s _ => drainOne s) s = s
  | [] => rfl
  | _ :: l => by rw [List.foldl_cons, drainOne_idle h, drains_idle h l]

/-- Rounds enough for the records held leave nothing that waits for the host. -/
theorem drained {α : Type} (l : List α) (s : State) (sent : s.Sent) (up : s.bridge.hostUp = true)
    (h : s.heldRecords ≤ l.length) : Drains s (l.foldl (fun s _ => drainOne s) s) ∧
      (l.foldl (fun s _ => drainOne s) s).Quiet := by
  induction l generalizing s with
  | nil =>
    rcases s.quiet_or with quiet | ⟨x, hx⟩
    · exact ⟨Drains.refl s, quiet⟩
    · exact absurd ((drainOne_record sent up hx).less.trans_le h) (Nat.not_lt_zero _)
  | cons y l ih =>
    rw [List.foldl_cons]
    rcases s.quiet_or with quiet | ⟨x, hx⟩
    · rw [drainOne_idle quiet, drains_idle quiet l]
      exact ⟨Drains.refl s, quiet⟩
    · have one := drainOne_record sent up hx
      have up' : (drainOne s).bridge.hostUp = true := by
        rw [one.drains.pins]
        exact up
      obtain ⟨drains, quiet⟩ := ih (drainOne s) one.sent up' (Nat.le_of_lt_succ (one.less.trans_le h))
      exact ⟨one.drains.trans drains, quiet⟩

/-- The port as it comes up, before the rounds. -/
def State.portUp (s : State) : State := { s with bridge := { s.bridge with hostUp := true } }

theorem hostPortReturn_drained (s : State) :
    Drains s.portUp (hostPortReturn s) ∧ (hostPortReturn s).Quiet := by
  have first := s.portUp.sendIrqs_drains
  have up : s.portUp.sendIrqs.bridge.hostUp = true := by
    rw [first.pins]
    rfl
  have held : s.portUp.sendIrqs.heldRecords ≤ (List.range s.heldRecords).length := by
    rw [State.sendIrqs_held, List.length_range]
    exact le_rfl
  obtain ⟨drains, none⟩ := drained (List.range s.heldRecords) s.portUp.sendIrqs (State.sendIrqs_sent rfl) up held
  exact ⟨first.trans drains, none⟩

/-- A function that no packet waits in, and that is not frozen, holds none. -/
theorem Channel.waits_nothing {c : Channel} (h : c.hostWaits = false) (hf : c.isFrozen .host = false) : c.irqWait = [] ∧
    ∀ q : QIdx, c.up = true → c.queues[q].cplLoc = false → c.queues[q].waiting = [] ∨ c.queues[q].cplFull = true := by
  unfold Channel.hostWaits at h
  rw [hf, Bool.not_false, Bool.true_and, Bool.or_eq_false_iff, Bool.not_eq_false', List.isEmpty_iff,
    List.any_eq_false] at h
  refine ⟨h.1, fun q hu hl => ?_⟩
  have hq := h.2 q (List.mem_finRange q)
  unfold Channel.recordReady at hq
  dsimp only at hq
  rw [hu, hl] at hq
  by_cases hw : c.queues[q].waiting = []
  · exact .inl hw
  · refine .inr ?_
    by_contra hfull
    rw [Bool.not_eq_true] at hfull
    rw [hfull] at hq
    simp [-Fin.getElem_fin, hw] at hq

theorem hostPortReturn_bridge (s : State) : (hostPortReturn s).bridge =
    { s.bridge with hostUp := true, served := (hostPortReturn s).bridge.served } := (hostPortReturn_drained s).1.pins

theorem hostPortReturn_messages (s : State) {ch : Ch} (hf : s.chans[ch].isFrozen .host = false) :
    (hostPortReturn s).chans[ch].irqWait = [] := by
  obtain ⟨drains, none⟩ := hostPortReturn_drained s
  refine (Channel.waits_nothing (none ch) ?_).1
  unfold Channel.isFrozen
  rw [drains.frz ch]
  exact hf

theorem hostPortReturn_records (s : State) {ch : Ch} {q : QIdx} (hu : s.chans[ch].up = true)
    (hf : s.chans[ch].isFrozen .host = false) (hl : s.chans[ch].queues[q].cplLoc = false) :
    (hostPortReturn s).chans[ch].queues[q].waiting = [] ∨ (hostPortReturn s).chans[ch].queues[q].cplFull = true := by
  obtain ⟨drains, none⟩ := hostPortReturn_drained s
  refine (Channel.waits_nothing (none ch) ?_).2 q ?_ ((drains.loc ch q).trans hl)
  · unfold Channel.isFrozen
    rw [drains.frz ch]
    exact hf
  · unfold Channel.up
    rw [drains.boot ch]
    exact hu

/-! ### O53 -/

theorem State.tooHot_iff (s : State) : s.tooHot = true ↔ ∃ ch : Ch, (∃ k : Core, 115 ≤ s.chans[ch].gov.cores[k].tj.toNat) ∨
    ∃ i : Stack, 105 ≤ s.chans[ch].stk[i].temp.toNat := by
  have mem {α : Type} {n : Nat} (v : Vector α n) (p : α → Bool) : v.toList.any p = true ↔ ∃ i : Fin n, p v[i] = true := by
    rw [List.any_eq_true]
    constructor
    · rintro ⟨x, hx, hp⟩
      obtain ⟨i, rfl⟩ := (Vector.mem_toList_index v x).mp hx
      exact ⟨i, hp⟩
    · rintro ⟨i, hp⟩
      exact ⟨v[i], by simp, hp⟩
  unfold State.tooHot
  simp only [List.any_eq_true, List.mem_finRange, true_and, Bool.or_eq_true, mem, decide_eq_true_eq]

theorem exec_thermalTrip (s : State) : exec .thermalTrip s = .next (if s.bridge.switchClosed && s.tooHot then
    { s.switchOpen with bridge := { s.switchOpen.bridge with tripLatched := true } } else s) := rfl

theorem exec_inputSwitchOpen_above (s : State) :
    exec (.inputSwitchOpen true) s = .next (if s.bridge.switchClosed then s.switchOpen else s) := rfl

theorem exec_inputSwitchOpen_below (s : State) : exec (.inputSwitchOpen false) s =
    .next { (if s.bridge.switchClosed then s.switchOpen else s) with
      bridge := { (if s.bridge.switchClosed then s.switchOpen else s).bridge with tripLatched := false } } := rfl

/-- The opening of the input switch, by which command it comes. -/
theorem exec_opens {s : State} {i : Instr} (h : (i = .thermalTrip ∧ s.tooHot = true) ∨ ∃ above, i = .inputSwitchOpen above)
    (closed : s.bridge.switchClosed = true) : ∃ latched : Bool,
    exec i s = .next { s.switchOpen with bridge := { s.switchOpen.bridge with tripLatched := latched } } ∧
    (i = .thermalTrip → latched = true) ∧ (i = .inputSwitchOpen true → latched = s.bridge.tripLatched) ∧
    (i = .inputSwitchOpen false → latched = false) := by
  rcases h with ⟨rfl, hot⟩ | ⟨above, rfl⟩
  · refine ⟨true, ?_, fun _ => rfl, nofun, nofun⟩
    rw [exec_thermalTrip, if_pos (by rw [closed, hot]; rfl)]
  · have opened : (if s.bridge.switchClosed then s.switchOpen else s) = s.switchOpen := if_pos closed
    cases above with
    | true =>
      refine ⟨s.bridge.tripLatched, ?_, nofun, fun _ => rfl, nofun⟩
      have kept : s.bridge.tripLatched = s.switchOpen.bridge.tripLatched := by
        rw [State.switchOpen_bridge]
        rfl
      rw [exec_inputSwitchOpen_above, opened, kept]
    | false =>
      refine ⟨false, ?_, nofun, nofun, fun _ => rfl⟩
      rw [exec_inputSwitchOpen_below, opened]

/-- Settles O53: the pins, the switch, the resets of the module, and the host port. -/
theorem pinsAndHostPort : Obligations.PinsAndHostPort := by
  unfold Obligations.PinsAndHostPort
  refine ⟨fun s => ⟨fun x hx => ⟨fun on => ?_, fun off => ?_⟩, fun h => ?_, fun open_ cool => ?_, s.tooHot_iff, fun cold => ?_,
      fun i hi closed => ?_, fun open_ => ⟨?_, ?_, ?_⟩, fun h => ?_, fun h on => ?_, fun h => ?_, fun off h => ?_,
      fun off h => ?_, fun h on => ?_, fun h => ?_, fun h => ?_, fun r h => ?_, fun r h => ?_⟩,
    fun s => ⟨fun on => ?_, fun off => ?_, fun on h => ?_, fun h => ?_, fun ch => ⟨fun on => ⟨fun h => ?_, fun h => ?_, fun h => ?_⟩,
      fun off => ?_⟩⟩⟩
  · refine ⟨_, congrArg Host.Outcome.next (if_pos on), rfl, fun ch => ?_⟩
    rw [State.modAll_chan]
    cases x with
    | none => rfl
    | some t =>
      exact congrArg (fun t => s.chans[ch].modGov fun g => { g with tin := BitVec.ofNat 8 t }) (min_eq_left (hx t rfl))
  · exact congrArg Host.Outcome.next (if_neg (by rw [off]; decide))
  · refine congrArg Host.Outcome.next (if_pos ?_)
    rcases h with h | h
    · rw [h]
      rfl
    · rw [h, Bool.or_true]
  · refine ⟨_, congrArg Host.Outcome.next (if_neg (by rw [open_, cool]; decide)), ?_⟩
    unfold switchClose
    dsimp only
    split
    · next held => exact ⟨rfl, rfl, fun free => absurd (held.symm.trans free) (by decide), fun _ => rfl⟩
    · next free =>
      rw [State.releaseAll_bridge]
      exact ⟨rfl, rfl, fun _ => ⟨rfl, fun ch => (State.releaseAll_chan _ ch).1⟩, fun held => absurd held free⟩
  · rw [exec_thermalTrip, if_neg (by rw [cold]; simp)]
  · obtain ⟨latched, run, trip, above, below⟩ := exec_opens hi closed
    refine ⟨_, run, ?_⟩
    dsimp only
    rw [State.switchOpen_bridge]
    refine ⟨rfl, rfl, rfl, trip, above, below, fun ch => ?_⟩
    have off := s.switchOpen_chan ch
    generalize s.switchOpen.chans[ch] = d at off ⊢
    obtain ⟨mem, queues, sems, running, irqWait⟩ := off.registers
    exact ⟨off.rest, off.life, mem, queues, sems, running, irqWait, off.memInit, off.hostHold, off.bmcHold, off.cfg, off.fsvn,
      off.flash⟩
  · rw [exec_thermalTrip, if_neg (by rw [open_]; simp)]
  · rw [exec_inputSwitchOpen_above, if_neg (by rw [open_]; decide)]
  · rw [exec_inputSwitchOpen_below, if_neg (by rw [open_]; decide)]
  · exact congrArg Host.Outcome.next (if_pos h)
  · refine ⟨_, congrArg Host.Outcome.next ((if_neg (by rw [h]; decide)).trans (if_pos on)), ?_⟩
    rw [moduleReset_bridge]
    refine ⟨rfl, rfl, fun ch => ?_⟩
    have after := moduleReset_chan s ch
    generalize (moduleReset s).chans[ch] = d at after ⊢
    exact after
  · exact congrArg Host.Outcome.next (if_pos (by rw [h]; rfl))
  · exact congrArg Host.Outcome.next ((if_neg (by rw [h]; decide)).trans (if_neg (by rw [off]; decide)))
  · exact congrArg Host.Outcome.next ((if_neg (by rw [h]; decide)).trans (if_neg (fun on => absurd (off.symm.trans on) (by decide))))
  · refine ⟨_, congrArg Host.Outcome.next ((if_neg (by rw [h]; decide)).trans (if_pos on)), ?_⟩
    rw [State.releaseAll_bridge]
    exact ⟨rfl, rfl, fun ch => State.releaseAll_chan _ ch⟩
  · exact congrArg Host.Outcome.next (if_pos h)
  · refine ⟨_, congrArg Host.Outcome.next (if_neg (by rw [h]; decide)), ?_⟩
    dsimp only
    rw [hostPortReset_bridge]
    refine ⟨rfl, rfl, fun ch => ?_⟩
    have after := hostPortReset_chan s ch
    generalize (hostPortReset s).chans[ch] = d at after ⊢
    exact ⟨after.life, after.mem, after.hostHold, after.flown, after.queues⟩
  · exact congrArg Host.Outcome.next (if_pos (by rw [h]; rfl))
  · by_cases on : s.bridgeOn = true
    · refine ⟨_, congrArg Host.Outcome.next ((if_neg (by rw [h]; decide)).trans (if_pos on)), ?_⟩
      rw [hostPortReturn_bridge]
      exact ⟨rfl, rfl, fun _ => rfl, fun off => absurd (on.symm.trans off) (by decide)⟩
    · exact ⟨_, congrArg Host.Outcome.next ((if_neg (by rw [h]; decide)).trans (if_neg on)), rfl, rfl,
        fun yes => absurd yes on, fun _ => rfl⟩
  · refine ⟨_, congrArg Host.Outcome.next (if_pos on), ?_⟩
    rw [hostPortReset_bridge, hostPortReset_hostMem]
    refine ⟨rfl, rfl, fun ch => ?_⟩
    have after := hostPortReset_chan s ch
    generalize (hostPortReset s).chans[ch] = d at after ⊢
    exact ⟨after.life, after.mem, after.queues, after.hostHold, after.flown, after.flAddr, after.bmcHold⟩
  · exact congrArg Host.Outcome.next (if_neg (by rw [off]; decide))
  · refine ⟨_, congrArg Host.Outcome.next (if_pos (by rw [on, h]; rfl)), ?_, fun ch => hostPortReturn_messages s,
      fun ch q => hostPortReturn_records s⟩
    rw [hostPortReturn_bridge]
  · refine congrArg Host.Outcome.next (if_neg ?_)
    rcases h with h | h
    · rw [h, Bool.false_and]
      decide
    · rw [h, Bool.not_true, Bool.and_false]
      decide
  · refine congrArg Host.Outcome.next ((if_pos on).trans ?_)
    rw [h]
    rfl
  · refine congrArg Host.Outcome.next ((if_pos on).trans ?_)
    rw [h]
    rfl
  · refine congrArg Host.Outcome.next ((if_pos on).trans ?_)
    rcases h with h | h <;> rw [h] <;> rfl
  · exact congrArg Host.Outcome.next (if_neg (by rw [off]; decide))

end Sys2Proof.Machine
end

