-- ==== Sys2Proof/Proofs/MemoryCare.lean ====
section
/-!
SUPPORT. Scrubbing (13 R295, R298, 16 R355): a word of DRAM that the patrol finds uncorrectable is classified, and the words
of the region list that Adori meets as it classifies it count too.
-/
namespace Sys2Proof.Machine

open Sys2Proof

namespace ScrubCounterexample

/-- A running channel whose region list begins at word 0. That word reads as uncorrectable, as word 64 does. -/
def channel : Channel := { boot := { life := .running }, bad := [0, 64], abl := { regCount := 1 } }

/-- The module, powered. -/
def state : State := { State.reset.put 0 channel with bridge := { State.reset.bridge with switchClosed := true, pgood := true } }

theorem state_channel : state.chans[(0 : Ch)] = channel := by
  change (State.reset.put 0 channel).chans[(0 : Ch)] = channel
  rw [State.put_self]
  rfl

/-- The patrol that comes to word 64 counts it and word 0. -/
theorem both_counted : (patrolScrub { ch := 0, c := channel, ctr := state.freeCtr } 0 64 [] false).c.stk[(0 : Stack)].ueTotal = 2 := by
  decide +kernel

end ScrubCounterexample

open ScrubCounterexample in
/-- Refutes O27: a patrol that finds a word uncorrectable adds more than 1 to UE_TOTAL where the region list holds another
uncorrectable word of the stack, as in `ScrubCounterexample.state`. -/
theorem not_memoryCareAndHeat : ¬ Obligations.MemoryCareAndHeat := by
  unfold Obligations.MemoryCareAndHeat
  rintro ⟨care, -⟩
  obtain ⟨-, -, -, patrol, -⟩ := care state 0 0 0 channel channel.stk[(0 : Stack)] 0 0 64 64 [] false 0 rfl state_channel rfl (by decide)
  obtain ⟨-, -, found⟩ := patrol (by decide) (by decide) rfl rfl
  obtain ⟨d, run, -, -, total, -⟩ := found (.inl (by decide))
  have scrubbed : exec (.patrolScrub 0 0 64 [] false) state =
      .next (state.after 0 (patrolScrub (state.work 0) 0 64 [] false)) := rfl
  rw [scrubbed] at run
  have chan := congrArg (fun s : State => s.chans[(0 : Ch)].stk[(0 : Stack)].ueTotal) (Host.Outcome.next.inj run)
  rw [State.after_self, State.put_self, State.work, state_channel] at chan
  rw [both_counted, total] at chan
  exact absurd chan (by decide)

end Sys2Proof.Machine
end

