-- ==== Sys2Proof/Proofs/MemoryFaults.lean ====
section
/-!
SUPPORT. Address guard violations (16 R356) and uncorrectable reads of a command (13 R293 to R297): what a freeze leaves,
and what the decoder of a stack makes of a codeword.
-/
namespace Sys2Proof.Machine

open Sys2Proof

/-! ### Freezing a master -/

section
variable {c : Channel}

theorem Noted.faultInTraining (c : Channel) (a : Nat) : Noted c (if c.inTraining then c.fault 0x04 a else c) :=
  Noted.ite (fun _ => Noted.of_reported (Reported.fault c 0x04 a)) fun _ => Noted.refl c

theorem Channel.freezeQueues_frz (c : Channel) (e : Engine) : (c.freezeQueues e).frz = c.frz :=
  foldl_keeps Channel.frz (fun c q => by split <;> rfl) _ c

theorem Channel.freeze_frz (c : Channel) (m : Master) (a : Nat) (w : Bool) : (c.freeze m a w).frz = c.frz.record m a w := by
  cases m with
  | engine e => exact (Noted.faultInTraining _ a).frz.trans (Channel.freezeQueues_frz _ e)
  | context k x => exact (Noted.faultInTraining _ a).frz
  | nunatak n => exact (Noted.of_reported (Reported.fault _ 0x04 a)).frz
  | host => rfl

/-- Freezing the queues of an engine: each of them shows FROZEN, and one that shows it goes on to. -/
theorem Channel.foldl_frozen (e : Engine) (q : QIdx) : ∀ (l : List QIdx) (c : Channel),
    c.queues[q].frozen = true ∨ (q ∈ l ∧ queueEngine q.val = some e) →
    (l.foldl (fun c q => if queueEngine q.val == some e then c.modQ q fun x => { x with frozen := true } else c) c).queues[q].frozen = true
  | [], c, h => h.resolve_right fun h => nomatch h.1
  | x :: l, c, h => by
    rw [List.foldl_cons]
    refine Channel.foldl_frozen e q l _ ?_
    by_cases ex : queueEngine x.val = some e
    · rw [if_pos (beq_iff_eq.mpr ex), Channel.modQ_get]
      by_cases hx : q = x
      · rw [if_pos hx]
        exact .inl rfl
      · rw [if_neg hx]
        exact h.imp_right fun h => ⟨(List.mem_cons.mp h.1).resolve_left hx, h.2⟩
    · rw [if_neg (by simpa using ex)]
      refine h.imp_right fun h => ⟨(List.mem_cons.mp h.1).resolve_left fun hx => ex ?_, h.2⟩
      rw [← hx]
      exact h.2

theorem Channel.freeze_queues (c : Channel) {e : Engine} {q : QIdx} (h : queueEngine q.val = some e) (a : Nat) (w : Bool) :
    (c.freeze (.engine e) a w).queues[q].frozen = true := by
  have frozen : (({ c with frz := c.frz.record (.engine e) a w } : Channel).freezeQueues e).queues[q].frozen = true :=
    Channel.foldl_frozen e q _ _ (.inr ⟨List.mem_finRange q, h⟩)
  exact (congrArg (fun v : Vector Queue 160 => v[q].frozen) (Noted.faultInTraining _ a).queues).trans frozen

theorem Frz.record_frozen (f : Frz) (m : Master) (a : Nat) (w : Bool) : (f.record m a w).frozen.contains m = true := by
  unfold Frz.record
  dsimp only
  split
  · next h => exact h
  · simp

theorem Frz.record_count (f : Frz) (m : Master) (a : Nat) (w : Bool) : (f.record m a w).count = satAdd f.count 1 := by
  unfold Frz.record
  rfl

theorem Frz.record_first {f : Frz} (h : f.count = 0) (m : Master) (a : Nat) (w : Bool) :
    (f.record m a w).addr = BitVec.ofNat 48 a ∧ (f.record m a w).master = BitVec.ofNat 8 (masterCode m) ∧
      (f.record m a w).write = w := by
  unfold Frz.record
  dsimp only
  rw [if_pos h]
  exact ⟨rfl, rfl, rfl⟩

/-- A violation freezes the master and ends the command it was for. -/
theorem addressGuardViolation_freezes {m : Master} {a : Nat} (hv : violates m a = true) (hf : c.isFrozen m = false) (w : Bool) :
    addressGuardViolation c m a w = (c.victim m).elim (c.freeze m a w) fun r =>
      (c.freeze m a w).finish { r with held := none } { status := 0x14, info := BitVec.ofNat 64 a } := by
  unfold addressGuardViolation
  rw [if_neg (by rw [hv, hf]; decide)]
  dsimp only
  cases c.victim m <;> rfl

theorem addressGuardViolation_frz {m : Master} {a : Nat} (hv : violates m a = true) (hf : c.isFrozen m = false) (w : Bool) :
    (addressGuardViolation c m a w).frz = c.frz.record m a w := by
  rw [addressGuardViolation_freezes hv hf]
  cases c.victim m <;> exact c.freeze_frz m a w

theorem addressGuardViolation_keeps {m : Master} {a : Nat} (hv : violates m a = true) (hf : c.isFrozen m = false) (w : Bool) :
    (addressGuardViolation c m a w).mem = c.mem ∧ (addressGuardViolation c m a w).sems = c.sems := by
  rw [addressGuardViolation_freezes hv hf]
  cases c.victim m <;> exact ⟨(Failed.freeze c m a w).mem, (Failed.freeze c m a w).sems⟩

theorem addressGuardViolation_victim {m : Master} {a : Nat} {r : Running} (hv : violates m a = true) (hf : c.isFrozen m = false)
    (w : Bool) (hr : c.victim m = some r) (found : c.findRun r.src = some r) :
    (addressGuardViolation c m a w).findRun r.src =
      some { r with held := none, result := some { status := 0x14, info := BitVec.ofNat 64 a } } := by
  rw [addressGuardViolation_freezes hv hf, hr]
  refine Channel.finish_findRun (r := r) (q := { r with held := none }) _ ?_ rfl
  unfold Channel.findRun
  rw [(Failed.freeze c m a w).running]
  exact found

theorem addressGuardViolation_queues {e : Engine} {a : Nat} {q : QIdx} (hv : violates (.engine e) a = true)
    (hf : c.isFrozen (.engine e) = false) (w : Bool) (hq : queueEngine q.val = some e) :
    (addressGuardViolation c (.engine e) a w).queues[q].frozen = true := by
  rw [addressGuardViolation_freezes hv hf]
  cases c.victim (.engine e) <;> exact c.freeze_queues hq a w
end

/-! ### A codeword of DRAM -/

/-- What is needed of the codeword k that holds address a of stack i. -/
structure WordAt (a k : Nat) (i : Stack) : Prop where
  word : wordOf a = k
  same : wordOf k = k
  dram : k < dramSize
  stack : k / 0x900000000 % 4 = i.val

theorem WordAt.of_inDram {a k : Nat} {i : Stack} (hd : inDram a 1 = true) (hi : a / 0x900000000 = i.val) (hk : k = a - a % 64) :
    WordAt a k i := by
  have below : a < dramSize := by
    unfold inDram at hd
    simp only [Bool.and_eq_true, decide_eq_true_eq] at hd
    exact hd.2
  have k64 : k % 64 = 0 := by omega
  have kd : k < dramSize := by omega
  have stack := i.isLt
  refine ⟨?_, ?_, kd, by omega⟩
  · rw [wordOf, wordSize, if_pos below, hk]
  · rw [wordOf, wordSize, if_pos kd, k64, Nat.sub_zero]

section
variable {c : Channel} {a k : Nat} {i : Stack} {errs : List (BitVec 7)}

theorem WordAt.index (h : WordAt a k i) : (⟨k / 0x900000000 % 4, Nat.mod_lt _ (by decide)⟩ : Stack) = i := Fin.ext h.stack

/-- What the decoder makes of it, where it does not yet read as uncorrectable. -/
theorem WordAt.decodeAt (h : WordAt a k i) (hb : k ∉ c.bad) : c.decodeAt k errs = c.stk[i].decode k errs := by
  unfold Channel.decodeAt
  rw [h.same, if_neg (by simpa using hb), if_pos h.dram]
  exact congrArg (fun j : Stack => c.stk[j].decode k errs) h.index

theorem WordAt.decodeAt_bad (h : WordAt a k i) (hb : k ∈ c.bad) : c.decodeAt k errs = .uncorrectable := by
  unfold Channel.decodeAt
  rw [h.same, if_pos (by simpa using hb)]

theorem StackState.decode_clean {t : StackState} (h : inError errs = []) : t.decode k errs = .clean := by
  unfold StackState.decode
  rw [h]
  rfl

theorem StackState.decode_one {t : StackState} (h : (inError errs).length = 1)
    (hs : ∀ x ∈ inError errs, (sliceOf k, x) ∉ t.second) : t.decode k errs = .corrected (inError errs) := by
  unfold StackState.decode
  dsimp only
  rw [if_neg, if_neg, if_pos]
  · exact (List.length_filter_le _ _).trans_eq h
  · rw [Bool.not_eq_true, List.any_eq_false]
    intro x hx
    simpa using hs x (List.mem_filter.mp hx).1
  · rw [List.isEmpty_iff]
    intro e
    rw [e] at h
    exact absurd h (by decide)

theorem StackState.decode_several {t : StackState} (h2 : 2 ≤ (inError errs).length) (h7 : (inError errs).length ≤ 7)
    (hm : ∀ m ∈ t.marked, m.1 ≠ sliceOf k) : t.decode k errs = .uncorrectable := by
  have fresh : ((inError errs).filter fun x => !t.marked.contains (sliceOf k, x)) = inError errs := by
    rw [List.filter_eq_self]
    intro x _
    rw [Bool.not_eq_true', List.contains_eq_mem, decide_eq_false_iff_not]
    exact fun hx => hm _ hx rfl
  unfold StackState.decode
  dsimp only
  rw [fresh, if_neg]
  · split
    · rfl
    · rw [if_neg (by omega)]
  · rw [List.isEmpty_iff]
    intro e
    rw [e] at h2
    exact absurd h2 (by decide)

/-- An error at a second failed position of the slice. -/
theorem StackState.decode_second {t : StackState} {x : BitVec 7} (hx : x ∈ inError errs) (hs : (sliceOf k, x) ∈ t.second)
    (hm : (sliceOf k, x) ∉ t.marked) : t.decode k errs = .uncorrectable := by
  unfold StackState.decode
  dsimp only
  rw [if_neg, if_pos]
  · rw [List.any_eq_true]
    exact ⟨x, List.mem_filter.mpr ⟨hx, by simpa using hm⟩, by simpa using hs⟩
  · rw [List.isEmpty_iff]
    intro e
    rw [e] at hx
    exact nomatch hx

theorem Channel.spoil_mem_bad (h : WordAt a k i) : k ∈ (c.spoil k).bad := by
  unfold Channel.spoil
  rw [h.same]
  split
  · next hb => simpa using hb
  · simp

theorem Channel.spoil_rest (c : Channel) (k : Nat) : c.spoil k = { c with bad := (c.spoil k).bad } := by
  unfold Channel.spoil
  split <;> rfl

/-- The note of an uncorrectable codeword counts it in its stack. -/
theorem WordAt.noteUe (h : WordAt a k i) (ue : Bool) : c.noteUe k ue = c.modStack i fun t =>
    { t with ueAddr := BitVec.ofNat 48 k, ueTotal := satAdd t.ueTotal 1, stUe := t.stUe || ue } := by
  unfold Channel.noteUe
  rw [if_pos h.dram, h.index, h.same]

/-- One symbol put right counts in its stack. -/
theorem WordAt.corrected (h : WordAt a k i) (syms : List (BitVec 7)) : ∃ l, c.corrected k syms = c.modStack i fun t =>
    { t with ceTotal := t.ceTotal + 1, corr := l } := by
  unfold Channel.corrected
  rw [if_pos h.dram, h.index]
  exact ⟨_, rfl⟩

end

/-! ### A command's read -/

/-- The read of a command that runs, of a codeword of DRAM. -/
structure Reads (c : Channel) (src : Src) (r : Running) (a : Nat) : Prop where
  found : c.findRun src = some r
  runs : r.result = none
  dram : inDram a 1 = true
  free : c.stopped a 1 = false

section
variable {w : Wk} {src : Src} {r : Running} {a k : Nat} {i : Stack} {errs : List (BitVec 7)}

theorem Reads.reads {c : Channel} (h : Reads c src r a) : c.reads (.command src) a = true := by
  unfold Channel.reads inMemory
  dsimp only
  rw [h.dram, h.free, h.found, Option.map_some, h.runs]
  rfl

theorem uncorrectableRead_clean (h : Reads w.c src r a) (hw : WordAt a k i) (hd : w.c.decodeAt k errs = .clean) :
    uncorrectableRead w (.command src) a errs = w := by
  unfold uncorrectableRead Wk.decode
  rw [if_neg (by rw [h.reads]; decide), hw.word]
  dsimp only
  rw [hd]

theorem uncorrectableRead_corrected {es : List (BitVec 7)} (h : Reads w.c src r a) (hw : WordAt a k i)
    (hd : w.c.decodeAt k errs = .corrected es) :
    uncorrectableRead w (.command src) a errs = w.mod fun c => c.corrected k es := by
  unfold uncorrectableRead Wk.decode
  rw [if_neg (by rw [h.reads]; decide), hw.word]
  dsimp only
  rw [hd]

theorem uncorrectableRead_ends (h : Reads w.c src r a) (hw : WordAt a k i) (hd : w.c.decodeAt k errs = .uncorrectable) :
    uncorrectableRead w (.command src) a errs =
      w.mod fun c => ((c.spoil k).noteUe k false).endUe src (BitVec.ofNat 64 k) := by
  unfold uncorrectableRead Wk.decode
  rw [if_neg (by rw [h.reads]; decide), hw.word]
  dsimp only
  rw [hd]
  rfl

theorem Channel.endUe_runs {c : Channel} (h : c.findRun src = some r) (hr : r.result = none) (info : W64) : c.endUe src info =
    c.finish { r with held := none, halted := none } { status := 0x16, info := info } := by
  unfold Channel.endUe
  rw [h]
  dsimp only
  rw [hr]
  rfl

end

/-- Settles O26: freezes, uncorrectable reads of a command, and corrected ones. -/
theorem memoryFaults : Obligations.MemoryFaults := by
  unfold Obligations.MemoryFaults
  refine ⟨fun s ch m a write c hc hu => ⟨fun hv hf => ?_, fun h => ?_⟩,
    fun s ch src a k errs c r i hc hu found runs dram free stack hk => ?_⟩
  · obtain ⟨mem, sems⟩ := addressGuardViolation_keeps hv hf write
    have frz := addressGuardViolation_frz hv hf write
    refine ⟨_, exec_modUp hc hu rfl rfl, ?_, ?_, fun first => ?_, mem, sems, fun e r hm victim hr => ?_⟩
    · unfold Channel.isFrozen
      rw [frz]
      exact Frz.record_frozen _ _ _ _
    · rw [frz, Frz.record_count]
    · obtain ⟨addr, master, wr⟩ := Frz.record_first first m a.toNat write
      rw [frz, addr, master, wr]
      exact ⟨by simp, rfl, rfl⟩
    · subst hm
      refine ⟨?_, fun q hq => addressGuardViolation_queues hv hf write hq⟩
      rw [addressGuardViolation_victim hv hf write victim hr]
      simp
  · refine exec_modUp_same hc hu rfl (if_pos ?_)
    rcases h with h | h <;> simp [h]
  · have word := WordAt.of_inDram dram stack hk
    have reads : Reads (s.work ch).c src r a.toNat := by
      subst hc
      exact ⟨found, runs, dram, free⟩
    refine ⟨fun h => ?_, fun hb one fresh => ?_, fun hb none => ?_⟩
    · have decoded : (s.work ch).c.decodeAt k errs = .uncorrectable := by
        by_cases hb : k ∈ (s.work ch).c.bad
        · exact word.decodeAt_bad hb
        · rw [word.decodeAt hb]
          subst hc
          rcases h with h | ⟨h2, h7, hm⟩ | ⟨x, hx, hs, hm⟩
          · exact absurd h hb
          · exact StackState.decode_several h2 h7 hm
          · exact StackState.decode_second hx hs hm
      have kept : ((c.spoil k).noteUe k false).findRun src = some r := by
        rw [word.noteUe, c.spoil_rest k]
        exact found
      have run : exec (.uncorrectableRead ch (.command src) ⟨a, errs⟩) s = .next (s.put ch
          (((c.spoil k).noteUe k false).endUe src (BitVec.ofNat 64 k))) := by
        refine exec_onUp hc hu rfl ?_
        subst hc
        exact uncorrectableRead_ends reads word decoded
      refine ⟨_, run, ?_, ?_, ?_, ?_, ?_, ?_⟩
      all_goals rw [Channel.endUe_runs kept runs]
      · exact Channel.finish_findRun (q := { r with held := none, halted := none }) _ kept (Channel.findRun_src (r := r) found)
      · rw [word.noteUe]
        exact Channel.spoil_mem_bad word
      all_goals
        rw [word.noteUe, c.spoil_rest k]
        simp [Channel.modStack]
    · obtain ⟨l, corrected⟩ := word.corrected (c := c) (inError errs)
      have run : exec (.uncorrectableRead ch (.command src) ⟨a, errs⟩) s = .next (s.put ch (c.corrected k (inError errs))) := by
        refine exec_onUp hc hu rfl ?_
        subst hc
        exact uncorrectableRead_corrected reads word ((word.decodeAt hb).trans (StackState.decode_one one fresh))
      refine ⟨_, run, ?_⟩
      rw [corrected]
      simp [Channel.modStack]
    · refine exec_onUp_same hc hu rfl ?_
      subst hc
      exact uncorrectableRead_clean reads word ((word.decodeAt hb).trans (StackState.decode_clean none))

end Sys2Proof.Machine
end

