-- ==== Sys2Proof/Proofs/Ingest.lean ====
section
/-!
SUPPORT. Ethernet ports (14 R323 to R327): what a port makes of a frame, and what the ingest protocol makes of a datagram
that passes the screen.
-/
namespace Sys2Proof.Machine

open Sys2Proof

/-- Two changes of a port that give the same port give the same channel. -/
theorem Channel.modPort_agree {c : Channel} {p : Port} {f g : PortState → PortState} (h : f c.ports[p] = g c.ports[p]) :
    c.modPort p f = c.modPort p g := congrArg (fun t => { c with ports := c.ports.set p t }) h

/-! ### Frames -/

section
variable {x : PortState} {f : Frame} {b : List Byte}

theorem PortState.ethFrame_bad (h : f.fcsOk = false) : x.ethFrame f = { x with ethBadchk := satAdd x.ethBadchk 1 } :=
  if_pos (by rw [h]; rfl)

theorem PortState.ethFrame_full (h : f.fcsOk = true) (hf : f.full = true) :
    x.ethFrame f = { x with ethDrop := satAdd x.ethDrop 1 } := by
  unfold PortState.ethFrame
  rw [h, hf]
  rfl

/-- A good frame that has room and a proper length is judged by what follows its tag. -/
theorem PortState.ethFrame_eq (h : f.fcsOk = true) (hf : f.full = false) (lo : 60 ≤ f.bytes.length) (hi : f.bytes.length ≤ 9212)
    (hb : x.untag f.bytes = some b) : x.ethFrame f =
      if x.arpOk b && (beFld f.bytes 0 6 == x.ethMac.toNat || beFld f.bytes 0 6 == 0xFFFFFFFFFFFF) then
        { x with ethRx := x.ethRx + 1, ethTx := x.ethTx + 1, sentFrames := x.sentFrames ++ [x.arpReply b] }
      else if x.udpOk b && beFld f.bytes 0 6 == x.ethMac.toNat then { x with ethRx := x.ethRx + 1 }
      else x.ethDropped := by
  unfold PortState.ethFrame
  dsimp only
  rw [if_neg (by rw [h]; decide), if_neg, hb]
  rw [hf, Bool.false_or, Bool.or_eq_true, decide_eq_true_eq, decide_eq_true_eq]
  omega

theorem PortState.ethFrame_untagged (h : f.fcsOk = true) (hb : x.untag f.bytes = none) :
    x.ethFrame f = { x with ethDrop := satAdd x.ethDrop 1 } := by
  unfold PortState.ethFrame
  dsimp only
  rw [if_neg (by rw [h]; decide), hb]
  split <;> rfl

/-- IPv4 is not ARP. -/
theorem PortState.not_arpOk (h : x.udpOk b = true) : x.arpOk b = false := by
  unfold PortState.udpOk at h
  simp only [Bool.and_eq_true, beq_iff_eq] at h
  unfold PortState.arpOk
  rw [h.1.1.1.1.1]
  rfl
end

/-- What adding to a semaphore leaves of each. -/
theorem Channel.semAdd_semVal (c : Channel) (s : SemIdx) (n : Nat) (q : SemIdx) :
    (c.semAdd s n).semVal q = c.semVal q + if q = s then BitVec.ofNat 32 n else 0 := by
  unfold Channel.semVal Channel.semAdd
  dsimp only
  rw [Vector.set_get]
  by_cases h : q = s
  · subst h
    rw [if_pos rfl, if_pos rfl]
  · rw [if_neg fun e => h (BitVec.eq_of_toFin_eq e), if_neg h, add_zero]

/-! ### The screen -/

section
variable {s : State} {ch : Ch} {p : Port} {d : Datagram} {c : Channel}

theorem PortState.ethUp_of {x : PortState} (hm : x.mode = .ethernet) (hs : x.st = .up) : x.ethUp = true := by
  unfold PortState.ethUp
  rw [hm, hs]
  rfl

/-- A datagram that passes the screen is its row's. -/
theorem onDatagram_passes {f : Wk → Wk} (hc : s.chans[ch] = c) (hu : c.up = true) (he : c.ports[p].ethUp = true)
    (hs : c.ports[p].screen d = none) : onDatagram s ch p d f = s.after ch (f (s.work ch)) := by
  subst hc
  have up : (s.work ch).c.ports[p].ethUp = true := he
  have passes : (s.work ch).c.ports[p].screen d = none := hs
  unfold onDatagram
  rw [onUp_eq hu]
  refine congrArg (s.after ch) ?_
  dsimp only
  rw [if_neg (by rw [up]; decide), passes]

theorem onDatagram_screened {f : Wk → Wk} {t : PortState} (hc : s.chans[ch] = c) (hu : c.up = true)
    (he : c.ports[p].ethUp = true) (hs : c.ports[p].screen d = some t) :
    onDatagram s ch p d f = s.put ch (c.modPort p fun _ => t) := by
  subst hc
  have up : (s.work ch).c.ports[p].ethUp = true := he
  have caught : (s.work ch).c.ports[p].screen d = some t := hs
  unfold onDatagram
  rw [onUp_eq hu]
  refine Eq.trans (congrArg (s.after ch) ?_)
    (State.after_eq_put (s := s) (w := (s.work ch).mod fun c => c.modPort p fun _ => t) rfl rfl)
  dsimp only
  rw [if_neg (by rw [up]; decide), caught]

theorem PortState.screen_passes {x : PortState} (hk : d.check = dgSum d) (ok : dgOk d = true)
    (ha : (dgWindow d x).admits d.peerIp = true) : x.screen d = none := by
  unfold PortState.screen
  rw [if_neg (by simpa using hk), if_neg (by rw [ok, ha]; decide)]

theorem PortState.screen_check {x : PortState} (hk : d.check ≠ dgSum d) : x.screen d = some x.badChecked :=
  if_pos (by simpa using hk)

end

theorem ofNat_toNat_same {n : Nat} (x : BitVec n) : BitVec.ofNat n x.toNat = x := by simp

/-- A WRITE has 8,192 bytes at most. -/
theorem dgOk_short {d : Datagram} (ok : dgOk d = true) (h1 : d.type = 1) : d.payload.length ≤ 8192 := by
  unfold dgOk at ok
  rw [h1] at ok
  simp only [Bool.and_eq_true, Bool.or_eq_true, beq_iff_eq, decide_eq_true_eq] at ok
  obtain ⟨-, ⟨⟨⟨-, same⟩, short⟩, -⟩ | ⟨four, -⟩⟩ := ok
  · rw [← same]
    exact short
  · exact absurd four (by decide)

/-! ### WRITE -/

section
variable {c : Channel} {p : Port} {d : Datagram}

/-- A first datagram that its window takes, in a message of its own. -/
structure Fresh (c : Channel) (p : Port) (d : Datagram) : Prop where
  wr : (dgWindow d c.ports[p]).wr = true
  new : d.msgid ∉ (dgWindow d c.ports[p]).done
  alone : c.ports[p].ingest.find? (fun m => m.key d) = none
  room : c.ports[p].ingest.length < 16
  seq : d.seq = 0
  inside : d.offset.toNat + d.payload.length ≤ (dgWindow d c.ports[p]).size.toNat
  short : d.payload.length ≤ 8192
  free : c.stopped ((dgWindow d c.ports[p]).base.toNat + d.offset.toNat) d.payload.length = false

/-- The message of one datagram. -/
def dgMessage (d : Datagram) : IngestMsg :=
  { win := d.win.toNat, msgid := d.msgid, parts := [(0, d.offset.toNat, d.payload)]
    lastSeq := if d.flags == 1 then some 0 else none }

theorem dgMessage_eq (h : d.seq = 0) :
    ({ win := d.win.toNat, msgid := d.msgid, parts := [] } : IngestMsg).take d = (dgMessage d) := by
  unfold IngestMsg.take
  rw [h]
  rfl

theorem dgMessage_bytes (d : Datagram) : (dgMessage d).bytes = d.payload.length := by
  simp [dgMessage, IngestMsg.bytes]

/-- A first datagram is the whole message exactly where it is the last. -/
theorem dgMessage_whole (d : Datagram) : (dgMessage d).whole = (d.flags == 1) := by
  unfold IngestMsg.whole dgMessage
  cases d.flags == 1 <;> rfl

theorem ingestWrite_fresh (h : Fresh c p d) : ingestWrite c p d =
    if d.flags == 1 then ingestDone c p (dgMessage d) d
    else c.modPort p fun s => { s with ingest := c.ports[p].ingest ++ [(dgMessage d)] } := by
  have free : ((dgMessage d).parts.any fun q => c.stopped ((dgWindow d c.ports[p]).base.toNat + q.2.1) q.2.2.length) = false := by
    unfold dgMessage
    simp only [List.any_cons, List.any_nil, Bool.or_false]
    exact h.free
  have short := h.short
  have inside := h.inside
  have room := h.room
  unfold ingestWrite
  dsimp only
  rw [if_neg (by rw [h.wr]; decide), if_neg (by simpa using h.new), h.alone, Option.getD_none, dgMessage_eq h.seq,
    dgMessage_bytes, if_neg, if_neg, if_neg, free, Bool.and_false, if_neg Bool.false_ne_true, dgMessage_whole]
  · rfl
  · simpa using room
  · simp [h.seq]
  · simp only [Bool.or_eq_true, decide_eq_true_eq]
    omega

theorem ingestDone_sems (p : Port) (d : Datagram) (c : Channel) (q : SemIdx) :
    (ingestDone c p (dgMessage d) d).semVal q = (c.semAdd (dgWindow d c.ports[p]).sem 1).semVal q := by
  unfold ingestDone dgMessage Channel.semVal
  dsimp only [List.foldl]
  rw [Channel.modPort_sems, Channel.semAdd, Channel.wr_sems]
  rfl

/-- What a message of one datagram leaves. -/
theorem ingestDone_spec (p : Port) (d : Datagram) (c : Channel) :
    (∀ i, Mem.byte 0 (ingestDone c p (dgMessage d) d).mem i =
      if (dgWindow d c.ports[p]).base.toNat + d.offset.toNat ≤ i ∧
          i < (dgWindow d c.ports[p]).base.toNat + d.offset.toNat + d.payload.length
      then d.payload.getD (i - ((dgWindow d c.ports[p]).base.toNat + d.offset.toNat)) 0 else Mem.byte 0 c.mem i) ∧
    (∀ q, (ingestDone c p (dgMessage d) d).semVal q = c.semVal q + if q = (dgWindow d c.ports[p]).sem then 1 else 0) ∧
    (ingestDone c p (dgMessage d) d).ports[p].sentDatagrams =
      c.ports[p].sentDatagrams ++ [dgReply d 2 0 0 c.stp.batch.toNat 0 []] ∧
    d.msgid ∈ (dgWindow d (ingestDone c p (dgMessage d) d).ports[p]).done := by
  refine ⟨fun i => ?_, fun q => ?_, ?_, ?_⟩
  · exact c.wr_byte _ d.payload i
  · exact (ingestDone_sems p d c q).trans (Channel.semAdd_semVal c (dgWindow d c.ports[p]).sem 1 q)
  · unfold ingestDone
    dsimp only
    rw [Channel.modPort_self]
    rfl
  · unfold ingestDone
    dsimp only
    rw [Channel.modPort_self]
    have listed : d.msgid ∈ (d.msgid :: (dgWindow d c.ports[p]).done).take 256 := by simp
    unfold dgWindow PortState.answer
    dsimp only
    rw [Vector.set_get, if_pos rfl]
    exact listed

theorem ingestWrite_denied (h : (dgWindow d c.ports[p]).wr = false) : ingestWrite c p d = c.modPort p (·.nack d 4) :=
  if_pos (by rw [h]; rfl)

end

/-! ### READ -/

section
variable {w : Wk} {p : Port} {d : Datagram}

/-- Adori notes nothing of a range without an uncorrectable word. -/
theorem Channel.adoriRead_sound {c : Channel} {a n : Nat} (h : c.badIn a n false = none) : c.adoriRead [(a, n)] = c := by
  have met : c.badMet [(a, n)] = [] := by
    unfold Channel.badMet
    rw [List.filter_eq_nil_iff]
    intro k hk
    have := List.find?_eq_none.mp h k hk
    simpa using this
  unfold Channel.adoriRead
  rw [met]
  rfl

/-- A READ of a range that is there is answered with its bytes, in one datagram. -/
theorem ingestRead_answers {x : Window} {a : Nat} (hx : dgWindow d w.c.ports[p] = x) (ha : a = x.base.toNat + d.offset.toNat)
    (hr : x.rd = true) (short : d.len.toNat ≤ 8192) (inside : d.offset.toNat + d.len.toNat ≤ x.size.toNat)
    (free : w.c.stopped a d.len.toNat = false) (sound : w.c.badIn a d.len.toNat false = none) :
    ingestRead w p d = w.mod fun c => c.modPort p
      (·.answer (dgReply d 5 1 0 d.offset.toNat d.len.toNat (w.c.rd a d.len.toNat))) := by
  subst hx ha
  unfold ingestRead
  dsimp only
  rw [if_neg (by rw [hr]; decide), if_neg (by simp only [Bool.or_eq_true, decide_eq_true_eq]; omega),
    if_neg (by rw [free]; decide)]
  have still : (w.mod fun c => c.adoriRead [((dgWindow d w.c.ports[p]).base.toNat + d.offset.toNat, d.len.toNat)]) = w := by
    unfold Wk.mod
    dsimp only
    rw [Channel.adoriRead_sound sound]
  have read : w.rdFree ((dgWindow d w.c.ports[p]).base.toNat + d.offset.toNat) d.len.toNat =
      (w, w.c.rd ((dgWindow d w.c.ports[p]).base.toNat + d.offset.toNat) d.len.toNat) := by
    unfold Wk.rdFree
    rw [sound]
  have one : b2n (decide (d.len.toNat ≤ 8192)) = 1 := by
    rw [decide_eq_true short]
    rfl
  rw [still]
  unfold readGo
  dsimp only
  rw [min_eq_left short, read, if_pos short, one]
end

/-- Settles O35: frames, and the datagrams of the ingest protocol. -/
theorem ethernetIngest : Obligations.EthernetIngest := by
  unfold Obligations.EthernetIngest
  refine ⟨fun s ch p f c x b hc hu hx hm hs => ?_, fun s ch p d c x w a hc hu hx hm hs hw ha => ?_⟩
  · have run {t : PortState → PortState} (ht : x.ethFrame f = t x) :
        exec (.ethernetFrame ch p f) s = .next (s.put ch (c.modPort p t)) := by
      refine exec_modUp hc hu rfl ?_
      subst hx
      rw [if_pos (PortState.ethUp_of hm hs)]
      exact Channel.modPort_agree ht
    refine ⟨fun bad => run (PortState.ethFrame_bad bad), fun good full => run (PortState.ethFrame_full good full),
      fun good room lo hi tag => ⟨fun udp mac => run ?_, fun arp all => run ?_, fun udp arp => run ?_⟩,
      fun good tag => run (PortState.ethFrame_untagged good tag)⟩
    all_goals rw [PortState.ethFrame_eq good room lo hi tag]
    · rw [PortState.not_arpOk udp, udp, mac]
      simp
    · rw [arp, all]
      simp
    · rw [arp, udp]
      rfl
  · subst hx
    have up := PortState.ethUp_of hm hs
    have run (h1 : d.type = 1) : exec (.ingestWrite ch p d) s =
        .next (onDatagram s ch p d fun w => w.mod fun c => ingestWrite c p d) := by
      have e : exec (.ingestWrite ch p d) s =
        .next (if d.type == 4 then s else onDatagram s ch p d fun w => w.mod fun c => ingestWrite c p d) := rfl
      rw [e, if_neg (by rw [h1]; decide)]
    have writes (h1 : d.type = 1) (pass : c.ports[p].screen d = none) :
        exec (.ingestWrite ch p d) s = .next (s.put ch (ingestWrite c p d)) := by
      rw [run h1, onDatagram_passes hc hu up pass, State.after_eq_put rfl rfl]
      subst hc
      rfl
    refine ⟨fun check ok admits => ?_, fun check h1 => ?_, fun m rest i hi hm => ?_⟩
    · have pass : c.ports[p].screen d = none := PortState.screen_passes check ok (by rw [hw]; exact admits)
      refine ⟨fun h1 wr new alone room seq inside free => ?_, fun h1 wr => ?_, fun h4 rd short inside free sound => ?_⟩
      · have short : d.payload.length ≤ 8192 := dgOk_short ok h1
        subst hw ha
        have fresh : Fresh c p d := ⟨wr, new, alone, room, seq, inside, short, free⟩
        refine ⟨fun last => ?_, fun first => ?_⟩
        · have whole : ingestWrite c p d = ingestDone c p (dgMessage d) d := by
            rw [ingestWrite_fresh fresh, if_pos (by rw [last]; rfl)]
          obtain ⟨bytes, sems, sent, done⟩ := ingestDone_spec p d c
          rw [writes h1 pass, whole]
          exact ⟨_, rfl, bytes, sems, ⟨_, sent, rfl, rfl, ofNat_toNat_same c.stp.batch⟩, done⟩
        · rw [writes h1 pass, ingestWrite_fresh fresh, if_neg (by rw [first]; decide)]
          have message : dgMessage d = ⟨d.win.toNat, d.msgid, [(0, d.offset.toNat, d.payload)], none⟩ := by
            unfold dgMessage
            rw [first]
            rfl
          rw [message]
          rfl
      · subst hw
        rw [writes h1 pass, ingestWrite_denied wr]
        exact ⟨_, rfl, rfl, rfl⟩
      · have e : exec (.ingestRead ch p d) s =
          .next (if d.type == 4 then onDatagram s ch p d fun w => ingestRead w p d else s) := rfl
        subst hc
        have answers := ingestRead_answers (w := s.work ch) hw ha rd short inside free sound
        rw [e, if_pos (by rw [h4]; rfl), onDatagram_passes rfl hu up pass, answers, State.after_eq_put rfl rfl]
        exact ⟨_, rfl, rfl, rfl, rfl, ofNat_toNat_same d.offset, rfl⟩
    · have caught := PortState.screen_check (x := c.ports[p]) check
      rw [run h1, onDatagram_screened hc hu up caught]
      rfl
    · refine exec_modUp hc hu rfl (Channel.modPort_agree ?_)
      have named : (m.win == i.val && m.msgid == m.msgid) = true := by simp [hm]
      have listed : (c.ports[p].ingest.any fun e => e.win == i.val && e.msgid == m.msgid) = true := by
        rw [hi, List.any_cons, named, Bool.true_or]
      have gone : (c.ports[p].ingest.eraseP fun e => e.win == i.val && e.msgid == m.msgid) = rest := by
        rw [hi]
        exact List.eraseP_cons_of_pos named
      dsimp only
      rw [if_pos listed, gone]

end Sys2Proof.Machine
end

