-- ==== Sys2Proof/Proofs/Streams.lean ====
section
/-!
SUPPORT. Multicast streams (14 R321, R322): what serving one leaves of the channel and of the streams, the window of three
messages, and what a fetch sends.
-/
namespace Sys2Proof.Machine

open Sys2Proof

/-! ### The stream of an identifier -/

section
variable {c : Channel} {id : StreamId} {s t : Stream}

theorem Channel.stream_id (h : c.stream id = some s) : s.id = id := by
  have := List.find?_some h
  simpa using this

theorem Channel.setStream_stream (c : Channel) (s : Stream) (id : StreamId) :
    (c.setStream s).stream id = (c.stream id).map fun x => if x.id = s.id then s else x := by
  unfold Channel.stream Channel.setStream
  dsimp only
  generalize c.streams = l
  induction l with
  | nil => rfl
  | cons x l ih =>
    have same : (if x.id = s.id then s else x).id = x.id := by
      split
      · next h => exact h.symm
      · rfl
    rw [List.map_cons, List.find?_cons, List.find?_cons, same]
    cases x.id == id with
    | true => rfl
    | false => exact ih

/-- The stream of an identifier is what it has been set to. -/
theorem Channel.setStream_self (h : c.stream id = some t) (hs : s.id = id) : (c.setStream s).stream id = some s := by
  rw [Channel.setStream_stream, h, Option.map_some, if_pos ((Channel.stream_id h).trans hs.symm)]

end

/-- The next message of a stream goes to every child that is left. -/
def Wk.sendNext (w : Wk) (id : StreamId) (s : Stream) (m : RedMsg) : Wk :=
  let v := s.live.foldl (fun v p => v.sendColl (v.c.streamSrc id) 3 p.2 5 { m with sender := w.c.chid } id.path (id.root == w.c.chid)) w
  { v with c := v.c.setStream { s with sent := s.live.foldl (fun l p => l.set p.1 (s.next + 1)) s.sent } }

/-! ### What serving a stream changes -/

/-- t is s after some of it has been sent, acknowledged or owed. -/
def Stream.Held (s t : Stream) : Prop := t = { s with sent := t.sent, ackedUp := t.ackedUp, owed := t.owed }

theorem Stream.Held.trans {s t u : Stream} (h : s.Held t) (g : t.Held u) : s.Held u := by
  unfold Stream.Held at *
  rw [g, h]

/-- d is c after streams have been served: ports, commands and collectives apart it changes CFL_TX_BYTES alone, and every
stream is held. -/
structure Served (c d : Channel) : Prop where
  rest : d = { c with
    running := d.running, ports := d.ports, streams := d.streams, colls := d.colls
    cfl := { c.cfl with txBytes := d.cfl.txBytes } }
  drops : ∀ p : Port, d.ports[p].mcDrop = c.ports[p].mcDrop
  streams : ∀ id s, c.stream id = some s → ∃ t, d.stream id = some t ∧ s.Held t

namespace Served

variable {c d e : Channel}

theorem refl (c : Channel) : Served c c := ⟨rfl, fun _ => rfl, fun _ s h => ⟨s, h, rfl⟩⟩

theorem trans (h : Served c d) (g : Served d e) : Served c e := by
  refine ⟨?_, fun p => (g.drops p).trans (h.drops p), fun id s hs => ?_⟩
  · rw [g.rest, h.rest]
  · obtain ⟨t, ht, st⟩ := h.streams id s hs
    obtain ⟨u, hu, tu⟩ := g.streams id t ht
    exact ⟨u, hu, st.trans tu⟩

/-- What leaves the streams as they are. -/
theorem of_streams (hr : d = { c with
      running := d.running, ports := d.ports, colls := d.colls, cfl := { c.cfl with txBytes := d.cfl.txBytes } })
    (hp : ∀ p : Port, d.ports[p].mcDrop = c.ports[p].mcDrop) : Served c d := by
  have same : d.streams = c.streams := by rw [hr]
  refine ⟨?_, hp, fun id s hs => ⟨s, ?_, rfl⟩⟩
  · rw [same]
    exact hr
  · unfold Channel.stream
    rw [same]
    exact hs

theorem of_sent (h : Sent c d) (hp : ∀ p : Port, d.ports[p].mcDrop = c.ports[p].mcDrop) : Served c d :=
  of_streams (by rw [h]) hp

theorem cfl (h : Served c d) : d.cfl = { c.cfl with txBytes := d.cfl.txBytes } := congrArg Channel.cfl h.rest

theorem foldl {α : Type} {f : Wk → α → Wk} (hf : ∀ w x, Served w.c (f w x).c) : ∀ (l : List α) (w : Wk),
    Served w.c (l.foldl f w).c
  | [], w => refl w.c
  | x :: l, w => (hf w x).trans (foldl hf l (f w x))

theorem setStream {id : StreamId} {s t : Stream} (hs : c.stream id = some s) (ht : s.Held t) : Served c (c.setStream t) := by
  have named : t.id = id := by
    rw [ht]
    exact Channel.stream_id (s := s) hs
  refine ⟨rfl, fun _ => rfl, fun i u hu => ?_⟩
  by_cases hi : i = id
  · subst hi
    obtain rfl : s = u := Option.some.inj (hs.symm.trans hu)
    exact ⟨t, Channel.setStream_self hs named, ht⟩
  · refine ⟨u, ?_, rfl⟩
    rw [Channel.setStream_stream, hu, Option.map_some, if_neg]
    rw [Channel.stream_id hu, named]
    exact hi

theorem post (c : Channel) (vc : Fin 4) (m : Msg) : Served c (c.post vc m) :=
  of_sent (Sent.post c vc m) fun p => by rw [Queued.post c vc m p]

theorem ackSender (c : Channel) (src : Src) : Served c (c.ackSender src) := by
  unfold Channel.ackSender
  split
  · dsimp only
    split <;> exact of_streams rfl fun _ => rfl
  · exact refl c

theorem endSender (w : Wk) (src : Src) (st : Byte) : Served w.c (w.endSender src st).c := by
  refine of_streams ?_ fun p => ?_
  · rw [Wk.endSender_rest]
  · unfold Wk.endSender
    split
    · dsimp only
      split <;> simp [Channel.disown]
    · rfl

/-- A message of a collective, sent or not. -/
theorem sendColl (w : Wk) (src : Option Src) (vc : Fin 4) (dst : ChanId) (type : Byte) (m : RedMsg) (alt own : Bool) :
    Served w.c (w.sendColl src vc dst type m alt own).c := by
  unfold Wk.sendColl
  dsimp only
  cases hs : w.c.send vc ⟨w.c.hdr dst type (redBody m).length, redBody m⟩ alt src none with
  | none =>
    cases src with
    | none => exact refl w.c
    | some s => exact endSender w s 0x17
  | some d =>
    have queued (p : Port) : Queued w.c.ports[p] d.ports[p] := by
      unfold Channel.send at hs
      split at hs
      · exact Queued.sendOn hs p
      · nomatch hs
    have sent := of_sent (Sent.send hs) fun p => by rw [queued p]
    dsimp only
    split
    · split <;> exact sent.trans (of_streams rfl fun _ => rfl)
    · exact sent.trans (of_streams rfl fun _ => rfl)

theorem sendColls (l : List (Nat × ChanId)) (w : Wk) (id : StreamId) (vc : Fin 4) (m : RedMsg) (alt own : Bool) :
    Served w.c (l.foldl (fun w p => w.sendColl (w.c.streamSrc id) vc p.2 5 m alt own) w).c :=
  foldl (fun w p => sendColl w _ vc p.2 5 m alt own) l w

theorem sendNext {w : Wk} {id : StreamId} {s : Stream} (hs : w.c.stream id = some s) (m : RedMsg) :
    Served w.c (w.sendNext id s m).c := by
  have sent := sendColls s.live w id 3 { m with sender := w.c.chid } id.path (id.root == w.c.chid)
  obtain ⟨t, ht, st⟩ := sent.streams id s hs
  refine trans sent (setStream ht ?_)
  unfold Stream.Held at *
  rw [st]

theorem pumpStream (id : StreamId) : ∀ (n : Nat) (w : Wk), Served w.c (w.pumpStream id n).c
  | 0, w => refl w.c
  | n + 1, w => by
    unfold Wk.pumpStream
    split
    · exact refl w.c
    · next s hs =>
      dsimp only
      split
      · exact refl w.c
      · next m hm =>
        split
        · exact trans (sendNext hs m) (pumpStream id n (w.sendNext id s m))
        · exact refl w.c

theorem ackStream (id : StreamId) : ∀ (n : Nat) (w : Wk), Served w.c (w.ackStream id n).c
  | 0, w => refl w.c
  | n + 1, w => by
    unfold Wk.ackStream
    split
    · exact refl w.c
    · next s hs =>
      split
      · exact refl w.c
      · next m hm =>
        dsimp only
        split
        · refine trans ?_ (ackStream id n _)
          have step := setStream (t := { s with ackedUp := s.ackedUp + 1 }) hs rfl
          split
          · exact step
          · exact step.trans (post _ 2 _)
        · exact refl w.c

theorem releaseOwed (id : StreamId) : ∀ (n : Nat) (w : Wk), Served w.c (Wk.releaseOwed id n w).c
  | 0, w => refl w.c
  | n + 1, w => by
    unfold Wk.releaseOwed
    split
    · next src _ => exact trans (ackSender w.c src) (releaseOwed id n { w with c := w.c.ackSender src })
    · exact refl w.c

end Served

/-! ### The window of three messages -/

/-- No child has been sent more than three messages past the slowest. -/
def Stream.Windowed (s : Stream) : Prop := ∀ p ∈ s.live, s.sent.getD p.1 0 ≤ s.slowest + 3

/-- Setting places of a list to m leaves m or less at each that is set or that had as much. -/
theorem foldl_set_le {l : List (Nat × ChanId)} {m j : Nat} : ∀ {sent : List Nat}, (∃ p ∈ l, p.1 = j) ∨ sent.getD j 0 ≤ m →
    (l.foldl (fun l p => l.set p.1 m) sent).getD j 0 ≤ m := by
  induction l with
  | nil =>
    intro sent h
    exact h.resolve_left fun ⟨_, hp, _⟩ => nomatch hp
  | cons q l ih =>
    intro sent h
    rw [List.foldl_cons]
    refine ih ?_
    by_cases hq : q.1 = j
    · refine .inr ?_
      rw [hq, List.getD_eq_getElem?_getD, List.getElem?_set_self']
      cases sent[j]? <;> simp
    · refine h.imp ?_ ?_
      · rintro ⟨p, hp, rfl⟩
        exact ⟨p, (List.mem_cons.mp hp).resolve_left fun e => hq (by rw [e]), rfl⟩
      · intro h
        rw [List.getD_eq_getElem?_getD, List.getElem?_set_ne hq, ← List.getD_eq_getElem?_getD]
        exact h

theorem pumpStream_windowed (id : StreamId) : ∀ (n : Nat) (w : Wk) (x : Stream), w.c.stream id = some x → x.Windowed →
    ∃ y, (w.pumpStream id n).c.stream id = some y ∧ y.Windowed
  | 0, w, x, hx, ok => ⟨x, hx, ok⟩
  | n + 1, w, x, hx, ok => by
    unfold Wk.pumpStream
    rw [hx]
    dsimp only
    split
    · exact ⟨x, hx, ok⟩
    · next m hm =>
      split
      · next room =>
        obtain ⟨t, ht, -⟩ := (Served.sendColls x.live w id 3 { m with sender := w.c.chid } id.path (id.root == w.c.chid)).streams id x hx
        refine pumpStream_windowed id n _ _ (Channel.setStream_self ht (Channel.stream_id (s := x) hx)) ?_
        intro p hp
        have slowest : ({ x with sent := x.live.foldl (fun l p => l.set p.1 (x.next + 1)) x.sent } : Stream).slowest = x.slowest := rfl
        rw [slowest]
        exact (foldl_set_le (.inl ⟨p, hp, rfl⟩)).trans room
      · exact ⟨x, hx, ok⟩

/-! ### An acknowledgement -/

section
variable {w : Wk} {id : StreamId} {child : ChanId} {i : Nat} {x : Stream} {e : InFlight} {c' : Channel}

/-- The message that a child's acknowledgement is about is taken from what is in flight. -/
theorem Channel.popFlight_streams {c : Channel} {f : InFlight → Bool} (h : c.popFlight f = some (e, c')) : Served c c' := by
  refine Served.of_sent (Channel.popFlight_sent h) fun p => ?_
  unfold Channel.popFlight at h
  split at h
  · cases h
    rw [Channel.modPort_get]
    split
    · next hp => rw [hp]
    · rfl
  · nomatch h

/-- The channel once a stream's child has acknowledged message i. -/
def Channel.acknowledged (c : Channel) (x : Stream) (i : Nat) : Channel :=
  (c.takeMsg 6).setStream { x with acked := x.acked.modify i (· + 1) }

theorem multicastAck_served (hx : c'.stream id = some x) (hi : x.live.find? (fun p => p.2 == child) = some (i, child))
    (hp : w.c.popFlight (isMcTo id child) = some (e, c')) :
    Served (c'.acknowledged x i) (multicastAck w id child).c := by
  have found : (c'.takeMsg 6).stream id = some x := hx
  have served := (Served.pumpStream id (x.msgs.length + 1) { w with c := c'.acknowledged x i }).trans
    (Served.ackStream id (x.msgs.length + 1) _)
  unfold multicastAck
  rw [hp]
  dsimp only
  rw [found]
  dsimp only
  rw [hi]
  dsimp only
  split
  · split
    · exact served.trans (Served.ackSender _ _)
    · exact served
  · exact served

theorem multicastAck_counts (hx : w.c.stream id = some x) (hi : x.live.find? (fun p => p.2 == child) = some (i, child))
    (hp : w.c.popFlight (isMcTo id child) = some (e, c')) : ∃ y, (multicastAck w id child).c.stream id = some y ∧
      Stream.Held { x with acked := x.acked.modify i (· + 1) } y := by
  have same : c'.streams = w.c.streams := by rw [Channel.popFlight_sent hp]
  have found : c'.stream id = some x := by
    unfold Channel.stream
    rw [same]
    exact hx
  exact (multicastAck_served found hi hp).streams id _ (Channel.setStream_self (t := x) found (Channel.stream_id (s := x) hx))

theorem multicastAck_none (hp : w.c.popFlight (isMcTo id child) = none) : multicastAck w id child = w := by
  unfold multicastAck
  rw [hp]
end

/-! ### A slow child -/

/-- The drop of a slow child counts at its port. -/
def Channel.countDrop (c : Channel) (child : ChanId) : Channel :=
  match c.route child with
  | some r => c.modPort r.main fun p => { p with mcDrop := satAdd p.mcDrop 1 }
  | none => c

/-- The channel once it has dropped child from the stream that is now x. -/
def Channel.straggled (c : Channel) (x : Stream) (child : ChanId) (done : Nat) (wait : W16) : Channel :=
  let b := streamBody x.id done
  let d := (c.setStream x).countDrop child
  let d := d.post 2 ⟨d.hdr child 8 b.length, b⟩
  { d with
    cfl := { d.cfl with stragTotal := satAdd d.cfl.stragTotal 1, stragChan := child, stragWait := wait, strag := true }
    flt := d.flt.name child wait }

/-- The running collective of a stream tells of its straggler. -/
def Channel.markStrag (c : Channel) (id : StreamId) : Channel :=
  match c.collOfStream id with | some k => c.setColl { k with strag := true } | none => c

/-- A root goes on waiting for the n acknowledgements that it owed the child dropped. -/
def Channel.owing (c : Channel) (n : Nat) (id : StreamId) (child : ChanId) : Channel :=
  match c.stream id with
  | some s => if id.root = c.chid && 0 < n then c.setStream { s with owed := s.owed ++ [(child, n)] } else c
  | none => c

/-- The channel as the child dropped leaves it, before the stream goes on to the others. -/
def Wk.dropped (w : Wk) (x : Stream) (id : StreamId) (child : ChanId) (i : Nat) : Wk :=
  let c := w.c.straggled { x with dropped := x.dropped ++ [child] } child (x.acked.getD i 0) (Config.upstreamWait w.ctr)
  let d := Channel.dropFlights id child 8 (c.markStrag id)
  { w with c := d.1.owing d.2 id child, ctr := w.ctr + 1 }

section
variable {c : Channel} {id : StreamId} {child : ChanId} {i : Nat} {x : Stream}

theorem Channel.countDrop_rest (c : Channel) (child : ChanId) : c.countDrop child = { c with ports := (c.countDrop child).ports } := by
  unfold Channel.countDrop
  cases c.route child <;> rfl

theorem Channel.straggled_rest (c : Channel) (x : Stream) (child : ChanId) (done : Nat) (wait : W16) :
    c.straggled x child done wait = { c.setStream x with
      ports := (c.straggled x child done wait).ports
      cfl := { c.cfl with stragTotal := satAdd c.cfl.stragTotal 1, stragChan := child, stragWait := wait, strag := true }
      flt := c.flt.name child wait } := by
  have sent := (Sent.post ((c.setStream x).countDrop child) 2
    ⟨((c.setStream x).countDrop child).hdr child 8 (streamBody x.id done).length, streamBody x.id done⟩)
  unfold Channel.straggled
  dsimp only
  unfold Sent at sent
  rw [sent]
  rw [(c.setStream x).countDrop_rest child]
  rfl

theorem Channel.straggled_drop {r : Route} (h : c.route child = some r) (x : Stream) (done : Nat) (wait : W16) :
    (c.straggled x child done wait).ports[r.main].mcDrop = satAdd c.ports[r.main].mcDrop 1 := by
  have route : (c.setStream x).route child = some r := h
  have kept : (c.straggled x child done wait).ports[r.main].mcDrop = ((c.setStream x).countDrop child).ports[r.main].mcDrop :=
    (Served.post _ 2 _).drops r.main
  rw [kept]
  unfold Channel.countDrop
  rw [route]
  dsimp only
  rw [Channel.modPort_self]
  rfl

theorem Served.dropFlights (id : StreamId) (child : ChanId) : ∀ (n : Nat) (c : Channel),
    Served c (Channel.dropFlights id child n c).1
  | 0, c => refl c
  | n + 1, c => by
    unfold Channel.dropFlights
    cases hp : c.popFlight (isMcTo id child) with
    | none => exact refl c
    | some p => exact trans (Channel.popFlight_streams hp) (dropFlights id child n p.2)

theorem Served.markStrag (c : Channel) (id : StreamId) : Served c (c.markStrag id) := by
  unfold Channel.markStrag
  cases c.collOfStream id with
  | none => exact refl c
  | some k => exact of_streams rfl fun _ => rfl

theorem Served.owing (c : Channel) (n : Nat) (id : StreamId) (child : ChanId) : Served c (c.owing n id child) := by
  unfold Channel.owing
  cases hs : c.stream id with
  | none => exact refl c
  | some s =>
    dsimp only
    split
    · exact setStream hs rfl
    · exact refl c

/-- The drop of a slow child, and what it sets going. -/
theorem mctmoExpiry_eq {w : Wk} (hx : w.c.stream id = some x)
    (hi : x.live.find? (fun p => p.2 == child) = some (i, child)) (late : x.acked.getD i 0 < x.sent.getD i 0) :
    mctmoExpiry w id child = ((w.dropped x id child i).pumpStream id (x.msgs.length + 1)).ackStream id (x.msgs.length + 1) := by
  have named : x.id = id := Channel.stream_id hx
  subst named
  unfold mctmoExpiry
  rw [hx]
  dsimp -zeta only
  rw [hi]
  refine Eq.trans (b := if x.sent.getD i 0 ≤ x.acked.getD i 0 then w else _) rfl ?_
  rw [if_neg (by omega)]
  rfl

theorem mctmoExpiry_served {w : Wk} (hx : w.c.stream id = some x)
    (hi : x.live.find? (fun p => p.2 == child) = some (i, child)) (late : x.acked.getD i 0 < x.sent.getD i 0) :
    Served (w.c.straggled { x with dropped := x.dropped ++ [child] } child (x.acked.getD i 0) (Config.upstreamWait w.ctr))
      (mctmoExpiry w id child).c := by
  rw [mctmoExpiry_eq hx hi late]
  refine Served.trans ?_ ((Served.pumpStream id _ _).trans (Served.ackStream id _ _))
  exact ((Served.markStrag _ id).trans (Served.dropFlights id child 8 _)).trans (Served.owing _ _ id child)
end

/-! ### A fetch -/

theorem Served.sendEach (id : StreamId) (vc : Fin 4) (dst : ChanId) (alt own : Bool) (l : List RedMsg) (w : Wk) : Served w.c
    (l.foldl (fun w m => w.sendColl (w.c.streamSrc id) vc dst 5 { m with sender := w.c.chid } alt own) w).c := by
  induction l generalizing w with
  | nil => exact Served.refl w.c
  | cons m l ih =>
    rw [List.foldl_cons]
    have first := Served.sendColl w (w.c.streamSrc id) vc dst 5 { m with sender := w.c.chid } alt own
    exact Served.trans first (ih _)

/-- The messages in flight at a port, each with its virtual channel. -/
def PortState.flights (s : PortState) : List (Msg × Fin 4) := s.inFlight.map fun e => (e.msg, e.vc)

/-- The message of a stream that goes to dst. -/
def Channel.streamMsg (c : Channel) (dst : ChanId) (m : RedMsg) : Msg :=
  let b := redBody { m with sender := c.chid }
  ⟨c.hdr dst 5 b.length, b⟩

theorem Channel.streamMsg_boot {c d : Channel} (h : d.boot = c.boot) (dst : ChanId) (m : RedMsg) :
    d.streamMsg dst m = c.streamMsg dst m := by
  unfold Channel.streamMsg Channel.hdr Channel.chid
  rw [h]

theorem Queued.sendable {s t : PortState} (h : Queued s t) : t.sendable = s.sendable := by
  unfold PortState.sendable
  rw [h]

theorem PortState.enqueue_inFlight (s : PortState) (vc : Fin 4) (m : Msg) : (s.enqueue vc m).1.inFlight = s.inFlight := by
  rw [PortState.enqueue]
  have pumped := Pumped.pump { s with nextMsgid := s.nextMsgid + 1, txq := s.txq.modify vc (· ++ fragments vc s.nextMsgid m) }
  dsimp only
  rw [pumped]

section
variable {dst : ChanId} {alt own : Bool} {r : Route} {p : Port}

/-- A message that MACK answers, sent on a port that takes it. -/
theorem Channel.send_flights {c : Channel} {vc : Fin 4} {m : Msg} {o : Option Src} (hm : acked m.hdr.type = true)
    (hr : c.route m.hdr.dst = some r) (hp : p = if alt && r.altValid then r.alt else r.main) (hs : c.ports[p].sendable = true) :
    ∃ d, c.send vc m alt o none = some d ∧ d.ports[p].flights = c.ports[p].flights ++ [(m, vc)] ∧ d.ports[p].sendable = true := by
  have sends : c.send vc m alt o none = some (c.modPort p fun _ => { (c.ports[p].enqueue vc m).1 with
      inFlight := (c.ports[p].enqueue vc m).1.inFlight ++ [⟨m, p, vc, (c.ports[p].enqueue vc m).2, o, none⟩] }) := by
    unfold Channel.send
    rw [hr]
    dsimp only
    rw [← hp]
    unfold Channel.sendOn
    rw [if_pos hs, hm]
    rfl
  refine ⟨_, sends, ?_, ?_⟩
  · rw [Channel.modPort_self, PortState.flights, PortState.enqueue_inFlight]
    simp [PortState.flights]
  · rw [Channel.modPort_self]
    exact ((Queued.enqueue c.ports[p] vc m).sendable).trans hs

theorem Wk.sendColl_flights {w : Wk} {src : Option Src} {vc : Fin 4} {m : RedMsg} (hr : w.c.route dst = some r)
    (hp : p = if alt && r.altValid then r.alt else r.main) (hs : w.c.ports[p].sendable = true) :
    (w.sendColl src vc dst 5 { m with sender := w.c.chid } alt own).c.ports[p].flights =
        w.c.ports[p].flights ++ [(w.c.streamMsg dst m, vc)] ∧
      (w.sendColl src vc dst 5 { m with sender := w.c.chid } alt own).c.ports[p].sendable = true := by
  obtain ⟨d, sends, flights, sendable⟩ := Channel.send_flights (c := w.c) (vc := vc) (m := w.c.streamMsg dst m) (o := src)
    rfl hr hp hs
  have kept : (w.sendColl src vc dst 5 { m with sender := w.c.chid } alt own).c.ports = d.ports := by
    unfold Wk.sendColl
    unfold Channel.streamMsg at sends
    dsimp only at sends ⊢
    rw [sends]
    dsimp only
    split
    · split <;> rfl
    · rfl
  have at_p : (w.sendColl src vc dst 5 { m with sender := w.c.chid } alt own).c.ports[p] = d.ports[p] :=
    congrArg (fun v : Vector PortState 4 => v[p]) kept
  rw [at_p]
  exact ⟨flights, sendable⟩

/-- Messages sent one after the other stand in order behind what was in flight. -/
theorem Wk.sendColls_flights {vc : Fin 4} {id : StreamId} (hp : p = if alt && r.altValid then r.alt else r.main) :
    ∀ (l : List RedMsg) (w : Wk), w.c.route dst = some r → w.c.ports[p].sendable = true →
      (l.foldl (fun w m => w.sendColl (w.c.streamSrc id) vc dst 5 { m with sender := w.c.chid } alt own) w).c.ports[p].flights =
        w.c.ports[p].flights ++ l.map fun m => (w.c.streamMsg dst m, vc)
  | [], w, _, _ => by simp
  | m :: l, w, hr, hs => by
    obtain ⟨flights, sendable⟩ := Wk.sendColl_flights (own := own) (src := w.c.streamSrc id) (vc := vc) (m := m) hr hp hs
    have served := Served.sendColl w (w.c.streamSrc id) vc dst 5 { m with sender := w.c.chid } alt own
    have boot : (w.sendColl (w.c.streamSrc id) vc dst 5 { m with sender := w.c.chid } alt own).c.boot = w.c.boot := by
      rw [served.rest]
    have msg (m' : RedMsg) : (w.sendColl (w.c.streamSrc id) vc dst 5 { m with sender := w.c.chid } alt own).c.streamMsg dst m' =
        w.c.streamMsg dst m' := Channel.streamMsg_boot boot dst m'
    have route : (w.sendColl (w.c.streamSrc id) vc dst 5 { m with sender := w.c.chid } alt own).c.route dst = some r := by
      unfold Channel.route
      rw [boot]
      exact hr
    rw [List.foldl_cons, Wk.sendColls_flights hp l _ route sendable, flights, List.map_cons, List.append_assoc,
      List.singleton_append]
    simp only [msg]

end

section
variable {w : Wk} {id : StreamId} {child : ChanId} {first : Nat} {x : Stream}

/-- The work once the child stands on the root's point-to-point list. -/
def Wk.listed (w : Wk) (x : Stream) (child : ChanId) : Wk :=
  { w with c := (w.c.takeMsg 9).setStream { x with
      fetch := x.fetch ++ [child], owed := x.owed.filter fun o => o.1 != child } }

/-- The work once the rest of the stream has been sent to it. -/
def Wk.fetched (w : Wk) (x : Stream) (id : StreamId) (child : ChanId) (first : Nat) : Wk :=
  (x.msgs.drop first).foldl (fun w m => w.sendColl (w.c.streamSrc id) 0 child 5 { m with sender := w.c.chid } id.path true)
    (w.listed x child)

theorem mfetch_eq (hx : w.c.stream id = some x) (root : id.root = w.c.chid) (new : child ∉ x.fetch) :
    mfetch w id child first =
      Wk.releaseOwed id ((x.owed.filter fun o => o.1 == child).map (·.2)).sum (w.fetched x id child first) := by
  have found : (w.c.takeMsg 9).stream id = some x := hx
  unfold mfetch
  dsimp only
  rw [found]
  dsimp only
  rw [if_neg]
  · rfl
  · rw [Bool.or_eq_true, not_or]
    refine ⟨?_, by simpa using new⟩
    rw [bne_iff_ne, not_not]
    exact root

theorem Wk.fetched_served : Served (w.listed x child).c (w.fetched x id child first).c := by
  unfold Wk.fetched
  generalize w.listed x child = v
  exact Served.sendEach id 0 child id.path true _ v

theorem mfetch_stream (hx : w.c.stream id = some x) (root : id.root = w.c.chid) (new : child ∉ x.fetch) :
    ∃ y, (mfetch w id child first).c.stream id = some y ∧ y.fetch = x.fetch ++ [child] ∧ y.msgs = x.msgs := by
  rw [mfetch_eq hx root new]
  have found : (w.c.takeMsg 9).stream id = some x := hx
  obtain ⟨y, hy, held⟩ := (Wk.fetched_served.trans (Served.releaseOwed id _ _)).streams id _
    (Channel.setStream_self found (s := { x with fetch := x.fetch ++ [child], owed := x.owed.filter fun o => o.1 != child })
      (Channel.stream_id (s := x) hx))
  refine ⟨y, hy, ?_, ?_⟩
  all_goals rw [held]

theorem Wk.releaseOwed_ports (id : StreamId) : ∀ (n : Nat) (w : Wk), (Wk.releaseOwed id n w).c.ports = w.c.ports
  | 0, _ => rfl
  | n + 1, w => by
    have same (c : Channel) (src : Src) : (c.ackSender src).ports = c.ports := by
      unfold Channel.ackSender
      split
      · dsimp only
        split <;> rfl
      · rfl
    unfold Wk.releaseOwed
    split
    · exact (Wk.releaseOwed_ports id n _).trans (same _ _)
    · rfl

theorem mfetch_flights {r : Route} {p : Port} (hx : w.c.stream id = some x) (root : id.root = w.c.chid) (new : child ∉ x.fetch)
    (hr : w.c.route child = some r) (hp : p = if id.path && r.altValid then r.alt else r.main)
    (hs : w.c.ports[p].sendable = true) : (mfetch w id child first).c.ports[p].flights =
      w.c.ports[p].flights ++ (x.msgs.drop first).map fun m => (w.c.streamMsg child m, 0) := by
  have at_p : (mfetch w id child first).c.ports[p] = (w.fetched x id child first).c.ports[p] := by
    rw [mfetch_eq hx root new]
    exact congrArg (fun v : Vector PortState 4 => v[p]) (Wk.releaseOwed_ports id _ _)
  rw [at_p]
  exact Wk.sendColls_flights hp (x.msgs.drop first) (w.listed x child) hr hs

end

/-- Settles O34: acknowledgements, slow children, fetches, and the window. -/
theorem multicast : Obligations.Multicast := by
  unfold Obligations.Multicast
  intro s ch id child first i c c' x e hc hu
  have after {j : Instr} {f : Wk → Wk} (hj : exec j s = .next (onCfl s ch f)) (free : c.isFrozen (.engine .confluence) = false) :
      exec j s = .next (s.after ch (f (s.work ch))) := by
    subst hc
    rw [hj, onCfl, onUp_eq hu, if_neg]
    change ¬s.chans[ch].isFrozen (.engine .confluence) = true
    rw [free]
    decide
  refine ⟨fun free hx hi => ⟨fun hp => ?_, fun hp => ?_, fun late => ?_⟩, fun free hx root _ new => ?_, ?_,
    fun w n hx ok => pumpStream_windowed id n w x hx ok⟩
  · subst hc
    obtain ⟨y, hy, held⟩ := multicastAck_counts (w := s.work ch) hx hi hp
    refine ⟨_, y, after rfl free, ?_, ?_, ?_, ?_, ?_⟩
    · rw [State.after_self]
      exact hy
    all_goals rw [held]
  · subst hc
    have same : multicastAck (s.work ch) id child = s.work ch := multicastAck_none (w := s.work ch) hp
    rw [after (f := fun w => multicastAck w id child) rfl free, same, State.after_eq_put rfl rfl]
    exact congrArg _ (s.put_same ch)
  · subst hc
    have served := mctmoExpiry_served (w := s.work ch) hx hi late
    have dropped : ((s.work ch).c.straggled { x with dropped := x.dropped ++ [child] } child (x.acked.getD i 0)
        (Config.upstreamWait (s.work ch).ctr)).stream id = some { x with dropped := x.dropped ++ [child] } := by
      rw [Channel.straggled_rest]
      exact Channel.setStream_self hx (Channel.stream_id (s := x) hx)
    obtain ⟨y, hy, held⟩ := served.streams id _ dropped
    refine ⟨_, y, after rfl free, ?_, ?_, ?_, ?_, ?_, ?_, ?_, fun r hr => ?_⟩
    · rw [State.after_self]
      exact hy
    · rw [held]
    · rw [held]
    · rw [held]
    all_goals rw [State.after_self]
    · dsimp only
      rw [served.cfl, Channel.straggled_rest]
    · dsimp only
      rw [served.cfl, Channel.straggled_rest]
      rfl
    · dsimp only
      rw [served.cfl, Channel.straggled_rest]
    · exact (served.drops r.main).trans (Channel.straggled_drop (c := (s.work ch).c) hr _ _ _)
  · subst hc
    obtain ⟨y, hy, fetch, msgs⟩ := mfetch_stream (w := s.work ch) (first := first) hx root new
    refine ⟨_, y, after rfl free, ?_, fetch, msgs, fun r p hr hp hs => ?_⟩
    · rw [State.after_self]
      exact hy
    · rw [State.after_self]
      refine mfetch_flights (w := s.work ch) hx root new hr ?_ hs
      rw [hp]
      simp
  · exact exec_modUp hc hu rfl rfl

end Sys2Proof.Machine
end

