-- ==== Sys2Proof/Proofs/PagesCounterexample.lean ====
section
/-!
SUPPORT. A page that comes in (11 R262, 13 R303): PAGE_RESUME waits for the stack that holds the entry of the page at which the
transfer is halted, and for no other stack.
-/
namespace Sys2Proof.Machine

open Sys2Proof

theorem State.put_haltedAt (s : State) (ch : Ch) (c : Channel) (t : Transfer) :
    (s.put ch c).chans[ch].haltedAt t = c.haltedAt t := by
  rw [State.put_self]
  cases t <;> rfl

namespace PageCounterexample

def src : Src := .queue 0

/-- A command that is halted at address 0, whose page's entry is the first of the table. -/
def running : Running := { src := src, cmd := Command.parse [], halted := some (0, 0) }

/-- A running channel with its page table at address 0, of whose stacks the second has stopped its accesses. -/
def channel : Channel :=
  { boot := { life := .running }, running := [running], stk := Vector.ofFn fun i => if i = 1 then { overtemp := true } else {} }

def state : State := State.reset.put 0 channel

/-- An address whose page has its entry in the second stack. -/
def other : Nat := 2 ^ 21 * 0x120000000

theorem state_channel : state.chans[(0 : Ch)] = channel := by
  rw [state, State.put_self]
  rfl

theorem channel_up : channel.up = true := by decide +kernel

theorem channel_halted : channel.haltedAt (.command src) = some 0 := by decide +kernel

theorem other_stopped : channel.stopped (channel.agd.ptBase.toNat + 8 * (other / 2 ^ 21)) 8 = true := by decide +kernel

/-- The page comes in, and the command goes on. -/
theorem resumed : (pageResume channel (.command src) 0 []).haltedAt (.command src) = none := by decide +kernel

end PageCounterexample

open PageCounterexample in
/-- Refutes O25: the clause that PAGE_RESUME waits for a stopped stack takes the entry of any page, not of the one at which the
transfer is halted. In `PageCounterexample.state` the transfer is halted at address 0, whose page comes in, while the entry of
another page lies in a stopped stack. -/
theorem not_pages : ¬ Obligations.Pages := by
  unfold Obligations.Pages
  rintro ⟨-, pages⟩
  obtain ⟨-, -, -, -, -, waits, -⟩ := pages state 0 channel (.command src) other 0 _ 0 [] 0 state_channel channel_up rfl
  have run : exec (.pageResume 0 (.command src) 0 []) state = .next (state.put 0 (pageResume channel (.command src) 0 [])) :=
    exec_modUp state_channel channel_up rfl rfl
  have same := Host.Outcome.next.inj (run.symm.trans (waits other_stopped))
  have halted := congrArg (fun s : State => s.chans[(0 : Ch)].haltedAt (.command src)) same
  rw [State.put_haltedAt, resumed, state_channel, channel_halted] at halted
  nomatch halted

end Sys2Proof.Machine
end

