-- ==== Sys2Proof/Proofs/StagingWindow.lean ====
section
/-!
SUPPORT. BAR2 (02 R54, 13 R295, 16 R355): the words that are noted as an access meets them, the outcomes of an access, and the
statement about them.
-/
namespace Sys2Proof.Machine

open Sys2Proof

/-! ### Words that have been noted -/

/-- UE of its stack or Névé is set for the word at k. -/
def Channel.NotedAt (d : Channel) (k : Nat) : Prop :=
  (k < dramSize → ∀ i : Stack, i.val = k / 0x900000000 % 4 → (d.stk[i]).stUe = true) ∧
    (dramSize ≤ k → ∀ m : Core, neveOf k = some m.val → (d.cores[m]).neve.stUe = true)

/-- UE that is set stays set. -/
structure UeKept (c d : Channel) : Prop where
  stack : ∀ i : Stack, c.stk[i].stUe = true → d.stk[i].stUe = true
  neve : ∀ m : Core, c.cores[m].neve.stUe = true → d.cores[m].neve.stUe = true

namespace UeKept

variable {c d e : Channel}

theorem refl (c : Channel) : UeKept c c := ⟨fun _ h => h, fun _ h => h⟩

theorem trans (h : UeKept c d) (g : UeKept d e) : UeKept c e :=
  ⟨fun i x => g.stack i (h.stack i x), fun m x => g.neve m (h.neve m x)⟩

theorem notedAt (h : UeKept c d) {k : Nat} (hn : c.NotedAt k) : d.NotedAt k :=
  ⟨fun hk i hi => h.stack i (hn.1 hk i hi), fun hk m hm => h.neve m (hn.2 hk m hm)⟩

theorem noteUe (c : Channel) (a : Nat) (ue : Bool) : UeKept c (c.noteUe a ue) := by
  unfold Channel.noteUe
  split
  · refine ⟨fun i hi => ?_, fun _ h => h⟩
    rw [Channel.modStack, Vector.set_get]
    split
    · next e =>
      subst e
      exact Bool.or_eq_true_iff.mpr (.inl hi)
    · exact hi
  · split
    · split
      · refine ⟨fun _ h => h, fun m hm => ?_⟩
        rw [Channel.modCore_get]
        split
        · next e =>
          subst e
          exact Bool.or_eq_true_iff.mpr (.inl hm)
        · exact hm
      · exact refl c
    · exact refl c

theorem classifyUe (c : Channel) (a : Nat) : UeKept c (c.classifyUe a) :=
  Noted.classifyUe_induct refl trans (fun c k => noteUe c k true)
    (fun h => ⟨fun i hi => by rw [h.stk]; exact hi, fun m hm => by rw [h.cores]; exact hm⟩) c a

end UeKept

theorem neveOf_lt {a k : Nat} (h : neveOf a = some k) : k < 8 := List.mem_range.mp (List.mem_of_find?_eq_some h)

/-- A word that is noted for Adori or the host sets UE. -/
theorem Channel.noteUe_notedAt (c : Channel) (k : Nat) : (c.noteUe k true).NotedAt k := by
  unfold Channel.noteUe
  refine ⟨fun hk i hi => ?_, fun hk m hm => ?_⟩
  · have stack : (⟨k / 0x900000000 % 4, Nat.mod_lt _ (by decide)⟩ : Stack) = i := Fin.ext hi.symm
    rw [if_pos hk, stack, Channel.modStack, Vector.set_get, if_pos rfl]
    exact Bool.or_true _
  · rw [if_neg (Nat.not_lt.mpr hk), hm]
    dsimp only
    rw [dif_pos m.isLt, Channel.modCore_self]
    exact Bool.or_true _

/-- Every word that Adori's read meets is noted. -/
theorem Channel.adoriRead_notedAt (c : Channel) (rs ws : List (Nat × Nat)) : ∀ k ∈ c.badMet rs ws, (c.adoriRead rs ws).NotedAt k := by
  have one (c : Channel) (k : Nat) : UeKept c ((c.noteUe k true).classifyUe k) :=
    (UeKept.noteUe c k true).trans (UeKept.classifyUe _ k)
  have kept (l : List Nat) (c : Channel) : UeKept c (l.foldl (fun c k => (c.noteUe k true).classifyUe k) c) := by
    induction l generalizing c with
    | nil => exact UeKept.refl c
    | cons k l ih => exact (one c k).trans (ih _)
  have all (l : List Nat) (c : Channel) : ∀ k ∈ l, (l.foldl (fun c k => (c.noteUe k true).classifyUe k) c).NotedAt k := by
    induction l generalizing c with
    | nil => exact fun k hk => nomatch hk
    | cons j l ih =>
      intro k hk
      rcases List.mem_cons.mp hk with rfl | hk
      · exact (kept l _).notedAt ((UeKept.classifyUe _ k).notedAt (c.noteUe_notedAt k))
      · exact ih _ k hk
  exact all _ c

/-! ### The bytes of an access -/

/-- An uncorrectable word that a write covers in part reads so after it. -/
theorem Channel.wr_bad {c : Channel} {a k : Nat} {bs : List Byte} (h : c.badIn a bs.length true = some k) : k ∈ (c.wr a bs).bad := by
  have met := List.find?_some h
  refine List.mem_filter.mpr ⟨List.mem_of_find?_eq_some h, ?_⟩
  rw [Bool.and_eq_true] at met
  rw [Bool.true_and] at met
  exact met.2

/-- The bytes of an uncorrectable word read as all ones. -/
theorem Channel.rdA_ones {c : Channel} {a n k i : Nat} (h : c.badIn a n false = some k) (hi : i < n)
    (hb : (c.badIn (a + i) 1 false).isSome = true) : (c.rdA a n)[i]? = some 0xFF := by
  have len : i < (c.rd a n).length := by rw [Channel.rd_length]; exact hi
  unfold Channel.rdA
  rw [if_neg (by rw [h]; exact Bool.false_ne_true), List.getElem?_map, List.getElem?_zipIdx, List.getElem?_eq_getElem len]
  exact congrArg some (if_pos (by rw [Nat.zero_add]; exact hb))

/-! ### The outcomes of an access -/

section
variable {s : State} {ch : Ch} {c : Channel} {off : BitVec 28} {len : Nat}

theorem exec_bar2Access (hh : s.bridge.hostUp = true) (hc : s.chans[ch] = c) (hu : c.up = true) (write : Option (List Byte)) :
    exec (.bar2Access ch off len write) s =
      .next (bar2 s ch (c.boot.stageBase.toNat + off.toNat) ((write.map List.length).getD len) write) := by
  subst hc
  have row : exec (.bar2Access ch off len write) s = .next (if s.bridge.hostUp && s.chans[ch].up then
      bar2 s ch (s.chans[ch].bar2Addr off) ((write.map List.length).getD len) write else s) := by
    cases write <;> rfl
  rw [row, if_pos (by rw [hh, hu]; rfl)]
  rfl

variable {a n k : Nat} {bs : List Byte} {write : Option (List Byte)}

theorem bar2_frozen (hf : s.chans[ch].isFrozen .host = true) :
    bar2 s ch a n write = if write.isSome then s else s.say (ones n) := by
  unfold bar2
  dsimp only
  rw [if_pos hf]

variable (hf : s.chans[ch].isFrozen .host = false)
include hf

theorem bar2_elsewhere (hr : stagingOk a n = false) : bar2 s ch a n write =
    if write.isSome then s.put ch (s.chans[ch].freeze .host a write.isSome)
    else (s.put ch (s.chans[ch].freeze .host a write.isSome)).say (ones n) := by
  unfold bar2
  dsimp only
  rw [if_neg (ne_true_of_eq_false hf), if_pos (by rw [hr]; rfl), State.modCh_eq]

variable (hr : stagingOk a n = true)
include hr

theorem bar2_waits (hs : s.chans[ch].stopped a n = true) : bar2 s ch a n write =
    s.put ch { s.chans[ch] with hostWait := s.chans[ch].hostWait ++ [(a, n, write)] } := by
  unfold bar2
  dsimp only
  rw [if_neg (ne_true_of_eq_false hf), if_neg (by rw [hr]; decide), if_pos hs, State.modCh_eq]

variable (hs : s.chans[ch].stopped a n = false)
include hs

theorem bar2_write (hb : s.chans[ch].badIn a bs.length true = none) : bar2 s ch a n (some bs) = s.put ch (s.chans[ch].wr a bs) := by
  unfold bar2
  dsimp only
  rw [if_neg (ne_true_of_eq_false hf), if_neg (by rw [hr]; decide), if_neg (ne_true_of_eq_false hs), hb]
  exact State.modCh_eq _ _ _

theorem bar2_write_bad (hb : s.chans[ch].badIn a bs.length true = some k) : bar2 s ch a n (some bs) =
    s.put ch (((s.chans[ch].wr a bs).noteUe k true).classifyUe k) := by
  unfold bar2
  dsimp only
  rw [if_neg (ne_true_of_eq_false hf), if_neg (by rw [hr]; decide), if_neg (ne_true_of_eq_false hs), hb]
  exact State.modCh_eq _ _ _

theorem bar2_read (hb : s.chans[ch].badIn a n false = none) : bar2 s ch a n none = s.say (s.chans[ch].rd a n) := by
  unfold bar2
  dsimp only
  rw [if_neg (ne_true_of_eq_false hf), if_neg (by rw [hr]; decide), if_neg (ne_true_of_eq_false hs), hb]

theorem bar2_read_bad (hb : s.chans[ch].badIn a n false = some k) : bar2 s ch a n none =
    (s.put ch (s.chans[ch].adoriRead [(a, n)])).say (s.chans[ch].rdA a n) := by
  unfold bar2
  dsimp only
  rw [if_neg (ne_true_of_eq_false hf), if_neg (by rw [hr]; decide), if_neg (ne_true_of_eq_false hs), hb]
  exact congrArg (fun t : State => t.say (s.chans[ch].rdA a n)) (State.modCh_eq _ _ _)
end

/-- The host function that reaches elsewhere is frozen, and its access counted. -/
theorem Channel.freeze_host (c : Channel) (a : Nat) (w : Bool) : (c.freeze .host a w).isFrozen .host = true ∧
    (c.freeze .host a w).mem = c.mem ∧ (c.freeze .host a w).frz.count = satAdd c.frz.count 1 := by
  refine ⟨?_, (Failed.freeze c .host a w).mem, ?_⟩
  · unfold Channel.isFrozen
    rw [c.freeze_frz]
    exact Frz.record_frozen _ _ _ _
  · rw [c.freeze_frz]
    exact Frz.record_count _ _ _ _

/-- Settles O20: each clause by the outcome of the access. -/
theorem bar2_reaches_window : Obligations.Bar2 := by
  unfold Obligations.Bar2
  rintro s ch off len a bs c noted hh rfl hu rfl hn
  have noted_iff : noted = Channel.NotedAt := funext fun d => funext fun k => propext (hn d k)
  subst noted_iff
  have write (bs : List Byte) := exec_bar2Access (off := off) (len := len) hh rfl hu (some bs)
  have read := exec_bar2Access (off := off) (len := len) hh rfl hu none
  refine ⟨fun hf hr hs hb => ?_, fun k hf hr hs hb => ?_, fun hf hr hs hb => ?_, fun k hf hr hs hb => ?_, ?_, fun hf hr => ?_,
    fun hf hr => ?_, fun hf => ⟨?_, ?_⟩⟩
  · exact ⟨_, (write bs).trans (congrArg _ (bar2_write hf hr hs hb)), rfl, fun i => Channel.wr_byte _ _ _ _⟩
  · have kept := (Noted.noteUe (s.chans[ch].wr (s.chans[ch].boot.stageBase.toNat + off.toNat) bs) k true).trans (Noted.classifyUe _ k)
    refine ⟨_, (write bs).trans (congrArg _ (bar2_write_bad hf hr hs hb)), ?_, ?_, rfl, fun i => ?_⟩
    · rw [kept.bad]
      exact Channel.wr_bad hb
    · exact (UeKept.classifyUe _ k).notedAt (Channel.noteUe_notedAt _ k)
    · rw [kept.mem]
      exact Channel.wr_byte _ _ _ _
  · exact read.trans (congrArg _ (bar2_read hf hr hs hb))
  · have kept := Noted.adoriRead s.chans[ch] [(s.chans[ch].boot.stageBase.toNat + off.toNat, len)] []
    exact ⟨_, read.trans (congrArg _ (bar2_read_bad hf hr hs hb)), rfl, Channel.adoriRead_notedAt _ _ _, kept.mem, kept.queues,
      kept.sems, fun i hi hi' => Channel.rdA_ones hb hi hi'⟩
  · rintro n wr rfl hf hr hs
    exact (exec_bar2Access hh rfl hu wr).trans (congrArg _ (bar2_waits hf hr hs))
  · exact ⟨_, (write bs).trans (congrArg _ (bar2_elsewhere hf hr)), Channel.freeze_host _ _ _⟩
  · exact ⟨_, read.trans (congrArg _ (bar2_elsewhere hf hr)), Channel.freeze_host _ _ _⟩
  · exact (write bs).trans (congrArg _ (bar2_frozen hf))
  · exact read.trans (congrArg _ (bar2_frozen hf))

end Sys2Proof.Machine
end

