-- ==== Sys2Proof/Proofs/StepEnd.lean ====
section
/-!
SUPPORT. The end of a member's step (10 R234, R238, 16 R367, R368): Adori over sound memory, what issuing a segment leaves,
contributions to the parities, and the statement about them.
-/
namespace Sys2Proof.Machine

open Sys2Proof

/-! ### Sound memory (13 R295, R303) -/

section
variable {c : Channel} (h : c.sound)
include h

theorem Channel.sound.stopped (a n : Nat) : c.stopped a n = false := by
  unfold Channel.stopped
  rw [Bool.and_eq_false_iff, List.any_eq_false]
  refine .inr fun i _ => ?_
  rw [h.served i, Bool.false_and, Bool.false_and]
  exact Bool.false_ne_true

theorem Channel.sound.anyStopped (rs : List (Nat × Nat)) : c.anyStopped rs = false :=
  List.any_eq_false.mpr fun r _ => ne_true_of_eq_false (h.stopped r.1 r.2)

theorem Channel.sound.badIn (a n : Nat) (w : Bool) : c.badIn a n w = none := by
  unfold Channel.badIn
  rw [h.words]
  rfl

/-- Adori finds what stands there. -/
theorem Channel.sound.rdA (a n : Nat) : c.rdA a n = c.rd a n := by
  unfold Channel.rdA
  rw [h.badIn]
  rfl

theorem Channel.sound.adoriRead (rs ws : List (Nat × Nat)) : c.adoriRead rs ws = c := by
  unfold Channel.adoriRead Channel.badMet
  rw [h.words]
  rfl

theorem Channel.sound.adori (rs ws : List (Nat × Nat)) (f : Channel → Channel) : c.adori rs f ws = f c := by
  unfold Channel.adori
  rw [if_neg (ne_true_of_eq_false (h.anyStopped _)), h.adoriRead]

end

/-! ### Issuing -/

/-- d is c after writes to memory and to the queues. -/
def Issued (c d : Channel) : Prop := d = { c with mem := d.mem, bad := d.bad, queues := d.queues }

namespace Issued

variable {c d e : Channel}

theorem refl (c : Channel) : Issued c c := rfl

theorem trans (h : Issued c d) (g : Issued d e) : Issued c e := by
  unfold Issued at *
  rw [g, h]

theorem foldl {α : Type} {f : Channel → α → Channel} (h : ∀ c a, Issued c (f c a)) : ∀ (l : List α) (c : Channel),
    Issued c (l.foldl f c)
  | [], c => refl c
  | a :: l, c => (h c a).trans (foldl h l (f c a))

theorem wr (c : Channel) (a : Nat) (bs : List Byte) : Issued c (c.wr a bs) := rfl
theorem modQ (c : Channel) (q : QIdx) (f : Queue → Queue) : Issued c (c.modQ q f) := rfl

theorem patch (c : Channel) (s : Seg) (bases : Nat → Nat) : Issued c (c.patch s bases) := by
  unfold Channel.patch
  split
  · exact refl c
  · exact foldl (fun c _ => wr c _ _) _ c

theorem issue (c : Channel) (ss : List Seg) (bases : Nat → Nat) : Issued c (c.issue ss bases) := by
  unfold Channel.issue
  refine (foldl (fun c s => patch c s bases) ss c).trans (foldl (fun c q => ?_) _ _)
  dsimp only
  split
  · exact refl c
  · exact (foldl (fun c _ => wr c _ _) _ c).trans (modQ _ _ _)

theorem stp (h : Issued c d) : d.stp = c.stp := by rw [h]

end Issued

/-! ### The update tail (R234) -/

/-- The gate of the update tail. -/
structure Gate (c : Channel) (p : Plan) (ss : List Seg) : Prop where
  plan : c.stp.plan = some p
  tail : c.segments p (4 * p.mb) = some ss
  running : c.stp.st = .running
  faultless : c.flt.fault = false
  unissued : c.stp.att.updIssued = false
  finite : c.stp.att.nf = false
  noSkip : c.stp.skipPending = none
  backward : c.backwardDone p = true
  reduced : ∀ h ∈ c.regions, (c.reductionOf h).isSome = true
  room : c.roomFor ss = true

theorem updIssue_gated {c : Channel} {p : Plan} {ss : List Seg} (hs : c.sound) (h : Gate c p ss) :
    (updIssue c).stp.st = .gated ∧ (updIssue c).stp.att.updIssued = true ∧ (updIssue c).stp.ver = c.stp.ver := by
  have reduced : (c.regions.all fun h => (c.reductionOf h).isSome) = true := List.all_eq_true.mpr h.reduced
  have open_gate : ¬(c.stp.st != .running || c.flt.fault || c.stp.att.updIssued || c.stp.att.nf || c.stp.skipPending.isSome ||
      !c.backwardDone p || !(c.regions.all fun h => (c.reductionOf h).isSome) || !c.roomFor ss) = true := by
    rw [h.running, h.faultless, h.unissued, h.finite, h.noSkip, h.backward, reduced, h.room]
    decide
  unfold updIssue
  rw [h.plan]
  dsimp only
  rw [h.tail]
  dsimp only
  rw [if_neg open_gate, hs.adori]
  refine ⟨rfl, rfl, ?_⟩
  dsimp only
  rw [(Issued.issue _ _ _).stp, (Issued.foldl (fun d r => ?_) _ c).stp]
  split <;> rfl

/-! ### Contributions (16 R367, R368) -/

section
variable {g j : Nat}

theorem holderOf_eq (h : 1 ≤ g) (q : Bool) : holderOf g j q = (if q then j + 1 else j) % g := by
  rw [holderOf, max_eq_right h]

theorem holderOf_p (h : 1 ≤ g) : holderOf g j false = j % g := holderOf_eq h false
theorem holderOf_q (h : 1 ≤ g) : holderOf g j true = (j + 1) % g := holderOf_eq h true

/-- P and Q of a unit lie with two holders. -/
theorem holders_ne (h : 2 ≤ g) : j % g ≠ (j + 1) % g := by
  intro e
  have : (j + 1 - j) % g = 0 := Nat.sub_mod_eq_zero_of_mod_eq e.symm
  rw [Nat.add_sub_cancel_left, Nat.mod_eq_of_lt h] at this
  nomatch this

end

section
variable (c : Channel) (j : Nat) (u : List Byte) (q : Bool)

/-- A contribution joins this channel's own parity, or is sent and waits for its acknowledgement. -/
theorem Channel.contribute_eq : c.contribute j u q = { c with
    ports := (c.contribute j u q).ports
    mem := if holderOf c.flt.g.toNat j q = c.flt.pos.toNat then (c.addParity c.flt.pos.toNat j q u).mem else c.mem
    bad := if holderOf c.flt.g.toNat j q = c.flt.pos.toNat then (c.addParity c.flt.pos.toNat j q u).bad else c.bad
    flt := { c.flt with stripesOut := c.flt.stripesOut ++ [(holderOf c.flt.g.toNat j q, j, q, u)] }
    stp := { c.stp with att := { c.stp.att with stripesSent := c.stp.att.stripesSent ++
      (if holderOf c.flt.g.toNat j q = c.flt.pos.toNat then [] else [(j, q)]) } } } := by
  unfold Channel.contribute
  dsimp only
  split
  · next h =>
    rw [List.append_nil, h]
    rfl
  · have sent := Sent.post { c with
        flt := { c.flt with stripesOut := c.flt.stripesOut ++ [(holderOf c.flt.g.toNat j q, j, q, u)] }
        stp := { c.stp with att := { c.stp.att with stripesSent := c.stp.att.stripesSent ++ [(j, q)] } } } 0
      (Channel.stripeMsg { c with
        flt := { c.flt with stripesOut := c.flt.stripesOut ++ [(holderOf c.flt.g.toNat j q, j, q, u)] }
        stp := { c.stp with att := { c.stp.att with stripesSent := c.stp.att.stripesSent ++ [(j, q)] } } } j q u)
    rw [sent]

/-- A unit of the new image that is owed no more. -/
def Channel.paid : Channel :=
  { c with stp := { c.stp with att := { c.stp.att with stripesOwed := c.stp.att.stripesOwed.filter (· != j) } } }

theorem stripeContribution_eq (hs : c.sound) (hd : c.updCommandsDone = true) (ho : c.stp.att.stripesOwed.contains j = true)
    (hf : c.flt.fault = false) : stripeContribution c j =
      (((c.paid j).contribute j (c.imageUnit (c.stp.ver + 1) j) false).contribute j (c.imageUnit (c.stp.ver + 1) j) true) := by
  unfold stripeContribution
  rw [if_pos (by rw [hd, ho, hf]; rfl)]
  dsimp only
  rw [hs.adori]
  rfl

end

/-! ### A contribution arrives (16 R368) -/

section
variable {c : Channel} {pos j : Nat} {isQ : Bool} {data : List Byte}

/-- A holder adds a unit, times its power of 2 for Q, into its parity and nowhere else. -/
theorem Channel.addParity_byte (hs : c.sound) {b : Nat} (hb : b = c.parityAddr (c.stp.ver + 1) j isQ) (hl : data.length = stripeUnit)
    (i : Nat) : Mem.byte 0 (c.addParity pos j isQ data).mem i = if b ≤ i ∧ i < b + stripeUnit then
      (c.rd b stripeUnit).getD (i - b) 0 ^^^ gfMul (if isQ then gfPow 2 pos else 1) (data.getD (i - b) 0)
      else Mem.byte 0 c.mem i := by
  have pad : padTo stripeUnit data = data := by
    rw [padTo, hl, Nat.sub_self, List.replicate_zero, List.append_nil, List.take_of_length_le hl.le]
  unfold Channel.addParity
  dsimp only
  rw [hs.rdA, pad, ← hb, Channel.wr_byte]
  have len : ((c.rd b stripeUnit).zip data).length = stripeUnit := by
    rw [List.length_zip, Channel.rd_length, hl, min_self]
  rw [List.length_map, len]
  by_cases hi : b ≤ i ∧ i < b + stripeUnit
  · rw [if_pos hi, if_pos hi]
    have lt : i - b < stripeUnit := by omega
    have l1 : i - b < (c.rd b stripeUnit).length := by rw [Channel.rd_length]; exact lt
    have l2 : i - b < data.length := by rw [hl]; exact lt
    rw [List.getD_eq_getElem _ _ (by rw [List.length_map, len]; exact lt), List.getD_eq_getElem _ _ l1, List.getD_eq_getElem _ _ l2,
      List.getElem_map, List.getElem_zip]
  · rw [if_neg hi, if_neg hi]

theorem parityContribution_eq (hs : c.sound) (hf : c.flt.fault = false) (h1 : 1 ≤ c.flt.g.toNat)
    (hp : holderOf c.flt.g.toNat j isQ = c.flt.pos.toNat) (hl : stripeUnit * j < c.flt.stripeLen.toNat) :
    (parityContribution c pos j isQ data).mem = (c.addParity pos j isQ data).mem ∧
    (parityContribution c pos j isQ data).flt.parityAcks = c.flt.parityAcks ++ [(pos, j, isQ)] := by
  unfold parityContribution
  dsimp only
  rw [if_neg, hs.adori]
  · split
    · next m _ => exact ⟨(Sent.sendMack _ m.hdr 0).mem, congrArg Flt.parityAcks (Sent.sendMack _ m.hdr 0).flt⟩
    · exact ⟨rfl, rfl⟩
  · rw [hf, hp]
    simp
    omega

end

/-! ### The report (10 R238) -/

/-- A step that is complete, or withheld, and not yet reported. -/
structure Reportable (c : Channel) : Prop where
  state : c.stp.st = .running ∨ c.stp.st = .gated
  faultless : c.flt.fault = false
  fresh : c.stp.att.reported = false
  finished : (c.stp.att.nf = true ∧ c.stp.att.updIssued = false) ∨
    (c.updCommandsDone = true ∧ c.stp.att.stripesOwed = [] ∧ c.stp.att.stripesSent = [])

/-- The report of a step. -/
def Channel.ownReport (c : Channel) : Report :=
  { step := c.nmon.step, ver := c.stp.ver, nf := c.stp.att.nf && !c.stp.att.updIssued, bad := c.regions.any (·.bad)
    recomp := c.stp.att.everRecomp, chan := c.chid }

theorem stepReport_eq {c : Channel} (hs : c.sound) (h : Reportable c) : (stepReport c).stp = { c.stp with
    st := .reported, att := { c.stp.att with reported := true }, sentReports := c.stp.sentReports ++ [c.ownReport] } := by
  obtain ⟨state, faultless, fresh, finished⟩ := h
  unfold stepReport
  dsimp only
  rw [if_pos, hs.adori, if_neg (ne_true_of_eq_false faultless)]
  · have sent := Sent.sendCtl c (c.flt.mgrChan.getD c.boot.cfg.ident.pdm) (reportBytes c.ownReport)
    exact congrArg (fun s : Stp => { s with
      st := .reported, att := { c.stp.att with reported := true }, sentReports := s.sentReports ++ [c.ownReport] }) sent.stp
  · rw [faultless, fresh]
    rcases finished with ⟨h1, h2⟩ | ⟨h1, h2, h3⟩
    · rw [h1, h2]
      rcases state with h | h <;> rw [h] <;> rfl
    · rw [h1, h2, h3]
      rcases state with h | h <;> simp [h]

/-! ### The statement -/

section
variable {c : Channel} {g j : Nat} (hg : c.flt.g.toNat = g) (h1 : 1 ≤ g) (u : List Byte)
include hg h1

/-- What two contributions of a unit, to P and to Q, leave of the registers. -/
theorem Channel.contribute_both :
    ((c.contribute j u false).contribute j u true).flt.stripesOut =
      c.flt.stripesOut ++ [(j % g, j, false, u), ((j + 1) % g, j, true, u)] ∧
    ((c.contribute j u false).contribute j u true).stp.att.stripesSent = c.stp.att.stripesSent ++
      (if j % g = c.flt.pos.toNat then [] else [(j, false)]) ++ (if (j + 1) % g = c.flt.pos.toNat then [] else [(j, true)]) ∧
    ((c.contribute j u false).contribute j u true).stp.att.stripesOwed = c.stp.att.stripesOwed := by
  rw [Channel.contribute_eq (c.contribute j u false), c.contribute_eq j u false, hg, holderOf_p h1, holderOf_q h1]
  exact ⟨List.append_assoc _ _ _, rfl, rfl⟩

theorem Channel.contribute_both_away (hp : j % g ≠ c.flt.pos.toNat) (hq : (j + 1) % g ≠ c.flt.pos.toNat) :
    ((c.contribute j u false).contribute j u true).mem = c.mem := by
  rw [Channel.contribute_eq (c.contribute j u false), c.contribute_eq j u false, hg, holderOf_p h1, holderOf_q h1]
  dsimp only
  rw [if_neg hq]
  exact if_neg hp

omit h1 in
theorem Channel.contribute_both_here (h2 : 2 ≤ g) {q : Bool} (hq : (if q then j + 1 else j) % g = c.flt.pos.toNat) :
    ((c.contribute j u false).contribute j u true).mem = (c.addParity c.flt.pos.toNat j q u).mem := by
  have ne := holders_ne (j := j) h2
  rw [Channel.contribute_eq (c.contribute j u false), c.contribute_eq j u false, hg, holderOf_p (by omega), holderOf_q (by omega)]
  dsimp only
  cases q with
  | false =>
    have here : j % g = c.flt.pos.toNat := hq
    rw [if_neg (fun e => ne (here.trans e.symm))]
    exact if_pos here
  | true =>
    have here : (j + 1) % g = c.flt.pos.toNat := hq
    have away : ¬j % g = c.flt.pos.toNat := fun e => ne (e.trans here.symm)
    rw [if_pos here]
    unfold Channel.addParity Channel.rdA Channel.badIn
    dsimp only
    rw [if_neg (by exact away), if_neg (by exact away)]
    rfl
end

/-- Settles O39: each row by what it does past its guard; over sound memory Adori's reads leave the channel as it is. -/
theorem stepEnd : Obligations.StepEnd := by
  unfold Obligations.StepEnd
  rintro s ch c a pos j isQ data g b hc hu hs rfl rfl
  refine ⟨fun p ss h1 h2 h3 h4 h5 h6 h7 h8 h9 h10 => ?_, fun hf => ⟨?_, ?_, ?_, ?_⟩, fun hf hd ho h1 => ?_,
    fun hf h1 hp hl hn hb => ?_, fun hst hf hr ho => ?_⟩
  · exact ⟨_, exec_modUp hc hu rfl rfl, updIssue_gated hs ⟨h1, h2, h3, h4, h5, h6, h7, h8, h9, h10⟩⟩
  · refine exec_modUp_same hc hu rfl ?_
    unfold updIssue
    split
    · rfl
    · dsimp only
      split
      · rfl
      · exact if_pos (by rw [hf]; simp)
  · exact exec_modUp_same hc hu rfl (if_neg (by rw [hf]; simp))
  · exact exec_modUp_same hc hu rfl (if_pos (by rw [hf]; simp))
  · exact exec_modUp_same hc hu rfl (if_neg (by rw [hf]; simp))
  · obtain ⟨out, sent, owed⟩ := Channel.contribute_both (c := c.paid j) (j := j) rfl h1 (c.imageUnit (c.stp.ver + 1) j)
    have run := exec_modUp (i := .stripeContribution ch j) hc hu rfl (stripeContribution_eq c j hs hd ho hf)
    refine ⟨_, run, ?_, out, sent, fun hp hq => ?_, fun q h2 hq => ?_⟩
    · rw [owed]
      exact fun h => absurd (List.mem_filter.mp h).2 (by simp)
    · exact Channel.contribute_both_away (c := c.paid j) rfl h1 _ hp hq
    · exact Channel.contribute_both_here (c := c.paid j) rfl _ h2 hq
  · have holder : holderOf c.flt.g.toNat j isQ = c.flt.pos.toNat := by
      rw [holderOf_eq h1, ← hp]
      cases isQ <;> rfl
    obtain ⟨mem, acks⟩ := parityContribution_eq (pos := pos) (data := data) hs hf h1 holder hl
    refine ⟨_, exec_modUp hc hu rfl rfl, fun i => ?_, acks⟩
    rw [mem]
    exact Channel.addParity_byte hs hb hn i
  · have report := stepReport_eq hs ⟨hst, hf, hr, ho⟩
    refine ⟨_, exec_modUp hc hu rfl rfl, ?_, ?_, c.ownReport, ?_, rfl, rfl, rfl, rfl⟩
    · rw [report]
    · rw [report]
    · rw [report]

end Sys2Proof.Machine
end

