-- ==== Sys2Proof/Proofs/Rebuild.lean ====
section
/-!
SUPPORT. Rebuilding (16 R369, R371): a request served by the holder of a parity, a unit written back in place, and the
statement about them.
-/
namespace Sys2Proof.Machine

open Sys2Proof

/-! ### Units that a request names as lost -/

section
variable (c : Channel) (j : Nat)

/-- A unit that is lost is asked for, and a member in ROLLBACK is not READY. -/
theorem Channel.loseUnit_eq : c.loseUnit j = { c with flt := { c.flt with
    lostUnits := (c.flt.lostUnits ++ [j]).dedup, rebuild := true, asked := (c.loseUnit j).flt.asked
    ready := c.flt.ready && c.stp.st != .rollback } } := by
  have some_lost : (c.flt.lostUnits ++ [j]).dedup.isEmpty = false := by
    rw [List.isEmpty_eq_false_iff_exists_mem]
    exact ⟨j, List.mem_dedup.mpr (List.mem_append_right _ (List.mem_singleton_self j))⟩
  unfold Channel.loseUnit Channel.askUnits Channel.lose
  dsimp only
  rw [if_neg (ne_true_of_eq_false some_lost)]

theorem Channel.loseUnit_asked : ∃ h, (h, j) ∈ (c.loseUnit j).flt.asked := by
  have lost : j ∈ (c.flt.lostUnits ++ [j]).dedup := List.mem_dedup.mpr (List.mem_append_right _ (List.mem_singleton_self j))
  have some_lost : (c.flt.lostUnits ++ [j]).dedup.isEmpty = false := List.isEmpty_eq_false_iff_exists_mem.mpr ⟨j, lost⟩
  unfold Channel.loseUnit Channel.askUnits Channel.lose
  dsimp only
  rw [if_neg (ne_true_of_eq_false some_lost)]
  dsimp only
  by_cases ha : ∃ h, (h, j) ∈ c.flt.asked
  · obtain ⟨h, ha⟩ := ha
    exact ⟨h, List.mem_append_left _ ha⟩
  · refine ⟨_, List.mem_append_right _ (List.mem_map.mpr ⟨j, List.mem_filter.mpr ⟨lost, ?_⟩, rfl⟩)⟩
    rw [Bool.not_eq_true', List.any_eq_false]
    rintro ⟨h, k⟩ hx hk
    rw [beq_iff_eq] at hk
    exact ha ⟨h, hk ▸ hx⟩

end

/-! ### A request -/

section
variable {c : Channel} {j pos g : Nat} {req : ChanId} {lost : List Nat} {us own : List (Nat × List Byte)} {other : List Byte}

/-- A request at a channel that holds no parity of the unit, or is retired, serves nothing. -/
theorem rebuildRequest_ignored (h : (j % g ≠ pos ∧ (j + 1) % g ≠ pos) ∨ c.flt.retired = true) (hg : c.flt.g.toNat = g)
    (hp : c.flt.pos.toNat = pos) (h1 : 1 ≤ g) : rebuildRequest c j req lost us other = c := by
  unfold rebuildRequest
  dsimp only
  rw [hg, hp, max_eq_right h1]
  refine if_pos ?_
  rcases h with ⟨h, h'⟩ | h
  · simp [h, h']
  · rw [h, Bool.or_true]

/-- What the holder of a parity serves. -/
theorem rebuildRequest_serves {isP : Bool} {par pp qq : List Byte} {out : List Byte} {d : Channel} (hs : c.sound)
    (hg : c.flt.g.toNat = g) (hp : c.flt.pos.toNat = pos) (h1 : 1 ≤ g) (hr : c.flt.retired = false)
    (hP : isP = decide (j % g = pos)) (hh : j % g = pos ∨ (j + 1) % g = pos)
    (hd : d = if pos ∈ lost then c.loseUnit j else c)
    (hpar : par = c.rd (c.parityAddr c.stp.ver j (!isP)) stripeUnit)
    (hpp : pp = if isP then par else padTo stripeUnit other) (hqq : qq = if isP then padTo stripeUnit other else par)
    (ho : own = (if pos ∈ lost then [] else [(pos, c.imageUnit c.stp.ver j)]) ++
      (us.filter fun u => u.1 != pos && !lost.contains u.1).map fun u => (u.1, padTo stripeUnit u.2))
    (hout : solve pp qq isP lost own = some out) :
    rebuildRequest c j req lost us other =
      { d with flt := { d.flt with served := d.flt.served ++ [(req, j, out)], serveTotal := d.flt.serveTotal + 1 } } := by
  have sound : d.sound := by
    rw [hd]
    split
    · rw [c.loseUnit_eq j]
      exact ⟨hs.words, hs.served⟩
    · exact hs
  have addr : d.parityAddr d.stp.ver j (!isP) = c.parityAddr c.stp.ver j (!isP) := by
    rw [hd]
    split
    · rw [c.loseUnit_eq j]
      rfl
    · rfl
  have bytes (a n : Nat) : d.rd a n = c.rd a n := by
    rw [hd]
    split
    · rw [c.loseUnit_eq j]
      rfl
    · rfl
  have image : d.imageUnit d.stp.ver j = c.imageUnit c.stp.ver j := by
    rw [hd]
    split
    · rw [c.loseUnit_eq j]
      rfl
    · rfl
  have lose : (if lost.contains pos then c.loseUnit j else c) = d := by
    rw [hd]
    exact if_congr List.contains_iff_mem rfl rfl
  have mine : (if lost.contains pos then (us.filter fun u => u.1 != pos && !lost.contains u.1).map fun u => (u.1, padTo stripeUnit u.2)
      else (pos, c.imageUnit c.stp.ver j) :: (us.filter fun u => u.1 != pos && !lost.contains u.1).map fun u => (u.1, padTo stripeUnit u.2)) =
      own := by
    rw [ho]
    by_cases h : pos ∈ lost
    · rw [if_pos (List.contains_iff_mem.mpr h), if_pos h, List.nil_append]
    · rw [if_neg (fun e => h (List.contains_iff_mem.mp e)), if_neg h, List.singleton_append]
  have holds : ¬((!(decide (0 < g) && j % g == pos) && !(decide (0 < g) && (j + 1) % g == pos)) || c.flt.retired) = true := by
    rw [hr, decide_eq_true (Nat.lt_of_succ_le h1)]
    rcases hh with h | h <;> simp [h]
  have which : (decide (0 < g) && j % g == pos) = isP := by
    rw [hP, decide_eq_true (Nat.lt_of_succ_le h1), Bool.true_and]
    rfl
  unfold rebuildRequest
  dsimp only
  rw [hg, hp, max_eq_right h1, if_neg holds, which, lose, sound.adori, sound.rdA, addr, bytes, image, mine, ← hpar, ← hpp, ← hqq, hout]
end

/-! ### A result (16 R369, R371) -/

/-- A unit that is written back in place changes memory alone, and the notes of a row. -/
theorem Channel.writeUnit_touched (c : Channel) (v : W32) (j : Nat) (u : List Byte) : Touched c (c.writeUnit v j u) := by
  unfold Channel.writeUnit
  split
  · exact (Touched.wrV c _ _).trans rfl
  · exact Touched.refl c

theorem Channel.foldl_withFlt {α : Type} {f : Channel → α → Channel} (x : Flt)
    (hf : ∀ c a, f { c with flt := x } a = { f c a with flt := x }) : ∀ (l : List α) (c : Channel),
    l.foldl f { c with flt := x } = { l.foldl f c with flt := x }
  | [], c => rfl
  | a :: l, c => by
    rw [List.foldl_cons, List.foldl_cons, hf]
    exact foldl_withFlt x hf l (f c a)

/-- The switch of STALE regions looks at memory alone. -/
theorem Channel.switchStale_withFlt (c : Channel) (x : Flt) :
    ({ c with flt := x } : Channel).switchStale = { c.switchStale with flt := x } := by
  refine Channel.foldl_withFlt x (fun c h => ?_) c.regions c
  split <;> rfl

theorem Channel.switchStale_issued (c : Channel) : Issued c c.switchStale :=
  Issued.foldl (fun c h => by
    split
    · exact (Issued.wr c _ _).trans (Issued.wr _ _ _)
    · exact Issued.refl c) _ c

/-- A heartbeat leaves the registers but what it counts. -/
theorem Channel.sendHbBody_flt (c : Channel) (h : Heartbeat) : (c.sendHbBody h).flt = { c.flt with
    sentHb := (c.sendHbBody h).flt.sentHb, hbseq := (c.sendHbBody h).flt.hbseq, named := (c.sendHbBody h).flt.named } := by
  by_cases hq : c.stp.st = .done ∨ c.flt.retired = true
  · rw [Channel.sendHbBody_quiet hq]
  · rw [not_or, Bool.not_eq_true] at hq
    rw [Channel.sendHbBody_sent hq.1 hq.2]

/-- READY, with every unit back (R371). -/
theorem Channel.readyNow_all {c : Channel} (h : c.flt.lostUnits = []) : c.readyNow =
    ({ c.switchStale with flt := { c.flt with ready := true, rebuild := false, hbseq := 0, asked := [] } } : Channel).sendHb := by
  have flt : c.switchStale.flt = c.flt := by rw [c.switchStale_issued]
  unfold Channel.readyNow
  rw [if_pos (by rw [h]; rfl)]
  dsimp only
  rw [flt]

theorem Channel.readyNow_some {c : Channel} (h : c.flt.lostUnits ≠ []) : c.readyNow = { c with flt := { c.flt with
    rebuild := true, asked := c.readyNow.flt.asked } } := by
  have some_lost : ¬c.flt.lostUnits.isEmpty = true := fun e => h (List.isEmpty_iff.mp e)
  unfold Channel.readyNow
  rw [if_neg some_lost]
  unfold Channel.askUnits
  dsimp only
  rw [if_neg some_lost]

/-- What READY, or the wait for it, leaves of the units and their count. -/
theorem Channel.goOnReady_units (c : Channel) : c.goOnReady.flt.lostUnits = c.flt.lostUnits ∧
    c.goOnReady.flt.rebuildTotal = c.flt.rebuildTotal := by
  unfold Channel.goOnReady
  split
  · by_cases h : c.flt.lostUnits = []
    · rw [Channel.readyNow_all h, Channel.sendHb, Channel.sendHbBody_flt]
      exact ⟨rfl, rfl⟩
    · rw [Channel.readyNow_some h]
      exact ⟨rfl, rfl⟩
  · exact ⟨rfl, rfl⟩

/-- A member with units still lost is not READY yet. -/
theorem Channel.goOnReady_some {c : Channel} (h : c.flt.lostUnits ≠ []) : c.goOnReady.mem = c.mem ∧ c.goOnReady.flt.ready = c.flt.ready := by
  unfold Channel.goOnReady
  split
  · rw [Channel.readyNow_some h]
    exact ⟨rfl, rfl⟩
  · exact ⟨rfl, rfl⟩

/-- The channel with unit j written back and taken off those lost. -/
def Channel.unitBack (c : Channel) (j : Nat) (u : List Byte) : Channel :=
  { c.writeUnit c.stp.ver j u with flt := { c.flt with
      lostUnits := c.flt.lostUnits.filter (· != j), rebuildTotal := c.flt.rebuildTotal + 65536 } }

/-- What follows a unit that is back. -/
def Channel.afterUnit (c : Channel) : Channel :=
  if c.stp.st = .rollback then c.goOnReady
  else if c.flt.lostUnits.isEmpty then { c.switchStale with flt := { c.switchStale.flt with rebuild := false, asked := [] } }
  else c

theorem Channel.unitBack_mem (c : Channel) (j : Nat) (u : List Byte) : (c.unitBack j u).mem = (c.writeUnit c.stp.ver j u).mem := by
  unfold Channel.unitBack
  rfl

theorem Channel.unitBack_flt (c : Channel) (j : Nat) (u : List Byte) : (c.unitBack j u).flt = { c.flt with
    lostUnits := c.flt.lostUnits.filter (· != j), rebuildTotal := c.flt.rebuildTotal + 65536 } := rfl

theorem Channel.unitBack_eq (c : Channel) (j : Nat) (u : List Byte) :
    ({ c.writeUnit c.stp.ver j u with flt := { (c.writeUnit c.stp.ver j u).flt with
      lostUnits := (c.writeUnit c.stp.ver j u).flt.lostUnits.filter (· != j)
      rebuildTotal := (c.writeUnit c.stp.ver j u).flt.rebuildTotal + 65536 } } : Channel) = c.unitBack j u := by
  have flt : (c.writeUnit c.stp.ver j u).flt = c.flt := by rw [c.writeUnit_touched c.stp.ver j u]
  rw [flt]
  rfl

theorem rebuildResult_eq {c : Channel} {j : Nat} {u : List Byte} (hs : c.sound) (hl : c.flt.lostUnits.contains j = true)
    (hu : u.length = stripeUnit) : rebuildResult c j u = (c.unitBack j u).afterUnit := by
  have pad : padTo stripeUnit u = u := by
    rw [padTo, hu, Nat.sub_self, List.replicate_zero, List.append_nil, List.take_of_length_le hu.le]
  unfold rebuildResult
  rw [if_pos hl, hs.adori]
  dsimp only
  rw [pad, ← c.unitBack_eq j u]
  unfold Channel.afterUnit
  dsimp only

/-- The units and their count stand whatever follows. -/
theorem Channel.afterUnit_units (c : Channel) : c.afterUnit.flt.lostUnits = c.flt.lostUnits ∧
    c.afterUnit.flt.rebuildTotal = c.flt.rebuildTotal := by
  have flt : c.switchStale.flt = c.flt := by rw [c.switchStale_issued]
  unfold Channel.afterUnit
  split
  · exact c.goOnReady_units
  · split
    · rw [flt]
      exact ⟨rfl, rfl⟩
    · exact ⟨rfl, rfl⟩

/-- With units still lost nothing follows but that they are asked for. -/
theorem Channel.afterUnit_some {c : Channel} (h : c.flt.lostUnits ≠ []) : c.afterUnit.mem = c.mem ∧
    c.afterUnit.flt.ready = c.flt.ready := by
  unfold Channel.afterUnit
  split
  · exact Channel.goOnReady_some h
  · rw [if_neg (fun e => h (List.isEmpty_iff.mp e))]
    exact ⟨rfl, rfl⟩

/-- Out of a rollback the last unit switches the STALE regions. -/
theorem Channel.afterUnit_last {c : Channel} (hst : c.stp.st ≠ .rollback) (h : c.flt.lostUnits = []) :
    c.afterUnit.mem = c.switchStale.mem ∧ c.afterUnit.flt.rebuild = false := by
  unfold Channel.afterUnit
  rw [if_neg hst, if_pos (by rw [h]; rfl)]
  exact ⟨rfl, rfl⟩

/-- In a rollback it makes the quiesced member READY besides, and a heartbeat tells so. -/
theorem Channel.afterUnit_ready {c : Channel} (hst : c.stp.st = .rollback) (hq : c.flt.quiesced = true) (hr : c.flt.ready = false)
    (hf : c.flt.fault = false) (hret : c.flt.retired = false) (hz : c.refreezing = false) (h : c.flt.lostUnits = []) :
    c.afterUnit.mem = c.switchStale.mem ∧ c.afterUnit.flt.rebuild = false ∧ c.afterUnit.flt.ready = true ∧
      c.afterUnit.flt.hbseq = 1 ∧ ∃ x, c.afterUnit.flt.sentHb = c.flt.sentHb ++ [x] ∧ x.ready = true := by
  have st : c.switchStale.stp = c.stp := c.switchStale_issued.stp
  unfold Channel.afterUnit
  rw [if_pos hst]
  unfold Channel.goOnReady
  rw [if_pos (by rw [hst, hq, hr, hf, hz]; rfl), Channel.readyNow_all h, Channel.sendHb, Channel.sendHbBody_sent]
  · exact ⟨rfl, rfl, rfl, rfl, _, rfl, rfl⟩
  · change c.switchStale.stp.st ≠ .done
    rw [st, hst]
    decide
  · exact hret

/-- Settles O47: a request by what its holder solves, a result by what follows the unit that is back. -/
theorem rebuild : Obligations.Rebuild := by
  unfold Obligations.Rebuild
  rintro s ch c j g pos req lost us own other data par pp qq isP e hc hu hs hg hp h2
  have h1 : 1 ≤ g := by omega
  refine ⟨fun hr => ?_, fun hP hpar hpp hqq ho hr hh => ⟨?_, fun out hout => ?_⟩, fun hp' hq' => ?_, fun hl hlen he => ?_, fun hl => ?_⟩
  · exact exec_modUp_same hc hu rfl (rebuildRequest_ignored (.inr hr) hg hp h1)
  · rintro (⟨x, rfl⟩ | ⟨x, y, rfl⟩) <;> rfl
  · refine ⟨_, exec_modUp hc hu rfl (rebuildRequest_serves hs hg hp h1 hr hP hh rfl hpar hpp hqq ho hout), ?_⟩
    by_cases hm : pos ∈ lost
    · rw [if_pos hm]
      obtain ⟨h, asked⟩ := c.loseUnit_asked j
      have eq := c.loseUnit_eq j
      generalize c.loseUnit j = d at asked eq ⊢
      rw [eq]
      refine ⟨rfl, rfl, rfl, fun h => absurd hm h, fun _ => ⟨List.mem_dedup.mpr (by simp), rfl, ⟨h, asked⟩, fun hst => ?_⟩⟩
      dsimp only
      rw [hst]
      exact Bool.and_false _
    · rw [if_neg hm]
      exact ⟨rfl, rfl, rfl, fun _ => rfl, fun h => absurd h hm⟩
  · exact exec_modUp_same hc hu rfl (rebuildRequest_ignored (.inl ⟨hp', hq'⟩) hg hp h1)
  · subst he
    have back := c.writeUnit_touched c.stp.ver j data
    have stp : (c.unitBack j data).stp = c.stp := by
      unfold Channel.unitBack
      rw [back]
    have busy : (c.unitBack j data).refreezing = c.refreezing := by
      unfold Channel.unitBack
      rw [back]
      rfl
    have switch : (c.unitBack j data).switchStale.mem = (c.writeUnit c.stp.ver j data).switchStale.mem := by
      unfold Channel.unitBack
      rw [Channel.switchStale_withFlt]
    have lost : (c.unitBack j data).flt.lostUnits = c.flt.lostUnits.filter (· != j) := rfl
    obtain ⟨units, total⟩ := (c.unitBack j data).afterUnit_units
    refine ⟨_, exec_modUp hc hu rfl (rebuildResult_eq hs hl hlen), units, total, fun h => ?_, fun hst h => ?_,
      fun hst hq hr hf hret hz h => ?_⟩
    · obtain ⟨mem, ready⟩ := Channel.afterUnit_some (c := c.unitBack j data) (by rw [lost]; exact h)
      rw [c.unitBack_mem] at mem
      rw [c.unitBack_flt] at ready
      exact ⟨mem, ready⟩
    · rw [← switch]
      exact Channel.afterUnit_last (by rw [stp]; exact hst) (lost.trans h)
    · have ready := Channel.afterUnit_ready (c := c.unitBack j data) (by rw [stp]; exact hst)
      rw [c.unitBack_flt, switch] at ready
      exact ready hq hr hf hret (by rw [busy]; exact hz) h
  · exact exec_modUp_same hc hu rfl (if_neg (by rw [hl]; decide))

end Sys2Proof.Machine
end

