-- ==== Sys2Proof/Proofs/Decisions.lean ====
section
/-!
SUPPORT. Managers (01 R22 to R24, 10 R238 to R240): what a change of one level's manager leaves, tokens sent to direct members,
the outcomes of a report, a decision and a mirror, and the statement about them.
-/
namespace Sys2Proof.Machine

open Sys2Proof

/-! ### One level's manager -/

section
variable (c : Channel) (l : MgrLevel) (f : Mgr → Mgr)

@[simp] theorem Channel.modMgr_self : (c.modMgr l f).mgr l = f (c.mgr l) := by
  cases l <;> rfl

theorem Channel.modMgr_of_ne {k : MgrLevel} (h : k ≠ l) : (c.modMgr l f).mgr k = c.mgr k := by
  cases l with
  | drift =>
    cases k with
    | drift => exact absurd rfl h
    | field => rfl
  | field =>
    cases k with
    | drift => rfl
    | field => exact absurd rfl h

end

/-! ### What a manager's work changes -/

/-- d is c after a manager's work: messages, and the managers' states. -/
def Led (c d : Channel) : Prop :=
  d = { c with ports := d.ports, flt := { c.flt with drift := d.flt.drift, field := d.flt.field } }

namespace Led

variable {c d e : Channel}

theorem refl (c : Channel) : Led c c := rfl

theorem trans (h : Led c d) (g : Led d e) : Led c e := by
  unfold Led at *
  rw [g, h]

theorem of_sent (h : Sent c d) : Led c d := by
  unfold Led Sent at *
  rw [h]

theorem modMgr (c : Channel) (l : MgrLevel) (f : Mgr → Mgr) : Led c (c.modMgr l f) := by
  cases l <;> rfl

theorem sendCtl (c : Channel) (x : ChanId) (b : List Byte) : Led c (c.sendCtl x b) := of_sent (Sent.sendCtl c x b)

theorem stp (h : Led c d) : d.stp = c.stp := by rw [h]
theorem nogroup (h : Led c d) : d.flt.nogroup = c.flt.nogroup := by rw [h]

/-- A decision looks at what this channel is and at the managers that act. -/
theorem oneDrift (h : Led c d) : d.oneDrift = c.oneDrift := by
  rw [h]
  rfl

theorem firstField (h : Led c d) : d.firstField = c.firstField := by
  rw [h]
  rfl

end Led

theorem Sent.mgr {c d : Channel} (h : Sent c d) (l : MgrLevel) : d.mgr l = c.mgr l := by
  rw [h]
  cases l <;> rfl

theorem Channel.authority_congr {c d : Channel} (h : Led c d) (hd : d.flt.drift.acting = c.flt.drift.acting)
    (hf : d.flt.field.acting = c.flt.field.acting) : d.authority = c.authority := by
  unfold Channel.authority
  rw [h.oneDrift, h.firstField, hd, hf]

theorem Channel.modMgr_authority (c : Channel) (l : MgrLevel) (f : Mgr → Mgr) (h : (f (c.mgr l)).acting = (c.mgr l).acting) :
    (c.modMgr l f).authority = c.authority := by
  refine Channel.authority_congr (Led.modMgr c l f) ?_ ?_
  · cases l with
    | drift => exact h
    | field => rfl
  · cases l with
    | drift => rfl
    | field => exact h

/-- The authority acts. -/
theorem Channel.acting_of_authority {c : Channel} {l : MgrLevel} (h : c.authority = some l) : (c.mgr l).acting = true := by
  unfold Channel.authority at h
  split at h
  · split at h
    · next ha =>
      obtain rfl := Option.some.inj h
      exact ha
    · nomatch h
  · split at h
    · next ha =>
      obtain rfl := Option.some.inj h
      rw [Bool.and_eq_true] at ha
      exact ha.1
    · nomatch h

/-! ### A token goes to the direct members (R240) -/

section
variable (g : Mgr) (t : Token) (next : List ChanId) (gone : W16 → Bool)

theorem Mgr.took_latest : (g.took t next gone).latest = g.latest := by
  unfold Mgr.took
  dsimp only
  split <;> rfl
theorem Mgr.took_sent : (g.took t next gone).sent = g.sent := by
  unfold Mgr.took
  dsimp only
  split <;> rfl
theorem Mgr.took_decision : (g.took t next gone).decision = none := by
  unfold Mgr.took
  dsimp only
  split <;> rfl
theorem Mgr.took_decided : (g.took t next gone).decided = (t.kind == .rollback) := by
  unfold Mgr.took
  dsimp only
  split <;> rfl
theorem Mgr.took_acting : (g.took t next gone).acting = g.acting := by
  unfold Mgr.took
  dsimp only
  split <;> rfl

end

section
variable (c : Channel) (l : MgrLevel) (t : Token) (mem : Membership)

/-- The manager's state as a token goes out, before it goes on with the members left. -/
def Channel.tokenSent : Mgr :=
  { c.mgr l with latest := some (t, mem), sent := (c.mgr l).sent ++ (c.directMembers l).map fun d => (d, t) }

theorem Channel.sendToken_eq : ∃ d, Sent c d ∧ c.sendToken l t mem = d.modMgr l fun _ => c.tokenSent l t mem := by
  have sent : Sent c ((c.directMembers l).foldl (fun c d => c.sendCtl d (tokenBytes t)) c) :=
    Sent.foldl (fun c d => Sent.sendCtl c d _) _ c
  refine ⟨_, sent, ?_⟩
  have mgr := sent.mgr l
  unfold Channel.sendToken Channel.tokenSent
  dsimp only
  rw [← mgr]
  cases l <;> rfl

theorem Channel.inherit_led (rem : List W16) : Led c (c.inherit rem) := by
  unfold Channel.inherit
  exact Led.modMgr _ _ _

theorem Channel.inherit_mgr (rem : List W16) : ∃ succ, (c.inherit rem).mgr .field = { c.mgr .field with successors := succ } := by
  unfold Channel.inherit
  exact ⟨_, Channel.modMgr_self _ _ _⟩

/-- A manager that has sent a token goes on with the members that the membership leaves it; the other level's stays. -/
theorem Channel.issueToken_spec : Led c (c.issueToken l t mem) ∧
    (∀ k, k ≠ l → (c.issueToken l t mem).mgr k = c.mgr k) ∧
    ∃ succ next gone, (c.issueToken l t mem).mgr l = Mgr.took { c.tokenSent l t mem with successors := succ } t next gone := by
  obtain ⟨d, sent, token⟩ := c.sendToken_eq l t mem
  unfold Channel.issueToken
  dsimp only
  rw [token]
  have led : Led c (d.modMgr l fun _ => c.tokenSent l t mem) := (Led.of_sent sent).trans (Led.modMgr _ _ _)
  split
  · next hl =>
    subst hl
    refine ⟨(led.trans (Channel.inherit_led _ _)).trans (Led.modMgr _ _ _), fun k hk => ?_, ?_⟩
    · rw [Channel.modMgr_of_ne _ _ _ hk]
      unfold Channel.inherit
      dsimp only
      rw [Channel.modMgr_of_ne _ _ _ hk, Channel.modMgr_of_ne _ _ _ hk, sent.mgr]
    · obtain ⟨succ, e⟩ := (d.modMgr .field fun _ => c.tokenSent .field t mem).inherit_mgr (c.mgr .field).leaving
      rw [Channel.modMgr_self, e, Channel.modMgr_self]
      exact ⟨succ, _, _, rfl⟩
  · refine ⟨led.trans (Led.modMgr _ _ _), fun k hk => ?_, (c.mgr l).successors, ?_⟩
    · rw [Channel.modMgr_of_ne _ _ _ hk, Channel.modMgr_of_ne _ _ _ hk, sent.mgr]
    · rw [Channel.modMgr_self, Channel.modMgr_self]
      exact ⟨_, _, rfl⟩

theorem Channel.issueToken_led : Led c (c.issueToken l t mem) := (c.issueToken_spec l t mem).1

theorem Channel.issueToken_out : ((c.issueToken l t mem).mgr l).latest = some (t, mem) ∧
    ((c.issueToken l t mem).mgr l).sent = (c.mgr l).sent ++ (c.directMembers l).map (fun d => (d, t)) ∧
    ((c.issueToken l t mem).mgr l).decision = none ∧ ((c.issueToken l t mem).mgr l).decided = (t.kind == .rollback) := by
  obtain ⟨-, -, succ, next, gone, e⟩ := c.issueToken_spec l t mem
  rw [e, Mgr.took_latest, Mgr.took_sent, Mgr.took_decision, Mgr.took_decided]
  exact ⟨rfl, rfl, rfl, rfl⟩

end

/-! ### Reports (R238) -/

section
variable {c : Channel} {l : MgrLevel} {r : Report}

/-- A manager's own report for the level above, from the reports it has. -/
def Channel.combined (c : Channel) (r : Report) (rs : List Report) : Report :=
  { r with nf := rs.any (·.nf), bad := rs.any (·.bad), recomp := rs.any (·.recomp), chan := c.chid }

/-- A report is taken as one of its members. -/
def Channel.withReport (c : Channel) (l : MgrLevel) (r : Report) : Channel :=
  (c.takeMsg 4).modMgr l fun m => { m with reports := (c.mgr l).reports ++ [r] }

theorem Channel.withReport_mgr : (c.withReport l r).mgr l = { c.mgr l with reports := (c.mgr l).reports ++ [r] } :=
  (Channel.modMgr_self _ _ _).trans (by cases l <;> rfl)

theorem Channel.withReport_authority : (c.withReport l r).authority = c.authority :=
  Channel.modMgr_authority (c.takeMsg 4) l _ rfl

theorem Channel.withReport_directMembers : (c.withReport l r).directMembers l = c.directMembers l := by
  cases l <;> rfl

/-- A manager sends a combined report to the level above. -/
def Channel.forward (c : Channel) (l : MgrLevel) (f : Report) : Channel :=
  let c := (c.sendCtl (c.above l) (reportBytes f)).modMgr l fun m => { m with forwarded := true }
  { c with stp := { c.stp with sentReports := c.stp.sentReports ++ [f] } }

/-- A report of a member for the step expected is taken, and where all are in, or one is NF, a manager that does not decide
sends its own. -/
theorem reportForward_takes (ha : (c.mgr l).acting = true) (hd : (c.mgr l).decided = false) (hs : r.step = c.expect (c.mgr l))
    (hn : (c.mgr l).reports.all (fun x => x.chan != r.chan) = true) : reportForward c l r =
      if c.authority = some l || (c.mgr l).forwarded || !(r.nf || (c.directMembers l).all fun x =>
        ((c.mgr l).reports ++ [r]).any fun y => y.chan == x) then c.withReport l r
      else (c.withReport l r).forward l ((c.withReport l r).combined r ((c.mgr l).reports ++ [r])) := by
  have takes : ¬(!(c.mgr l).acting || (c.mgr l).decided || r.step != c.expect (c.mgr l) ||
      (c.mgr l).reports.any fun x => x.chan == r.chan) = true := by
    have none : ((c.mgr l).reports.any fun x => x.chan == r.chan) = false := by
      rw [List.any_eq_false]
      intro x hx e
      exact absurd (List.all_eq_true.mp hn x hx) (by rw [beq_iff_eq] at e; rw [e]; simp)
    rw [ha, hd, hs, none]
    simp
  have mgr : (c.takeMsg 4).mgr l = c.mgr l := by cases l <;> rfl
  have expect : (c.takeMsg 4).expect (c.mgr l) = c.expect (c.mgr l) := rfl
  unfold reportForward
  dsimp only
  rw [mgr, expect, if_neg takes]
  have auth : ((c.takeMsg 4).modMgr l fun m => { m with reports := (c.mgr l).reports ++ [r] }).authority = c.authority :=
    Channel.withReport_authority (c := c) (l := l) (r := r)
  have members : ((c.takeMsg 4).modMgr l fun m => { m with reports := (c.mgr l).reports ++ [r] }).directMembers l =
    c.directMembers l := Channel.withReport_directMembers (c := c) (l := l) (r := r)
  rw [auth, members]
  rfl
end

theorem Channel.forward_spec (c : Channel) (l : MgrLevel) (f : Report) :
    (c.forward l f).mgr l = { c.mgr l with forwarded := true } ∧ (c.forward l f).stp.sentReports = c.stp.sentReports ++ [f] := by
  have sent := Sent.sendCtl c (c.above l) (reportBytes f)
  constructor
  · refine Eq.trans (b := ((c.sendCtl (c.above l) (reportBytes f)).modMgr l fun m => { m with forwarded := true }).mgr l) ?_ ?_
    · cases l <;> rfl
    · rw [Channel.modMgr_self, sent.mgr]
  · have stp := (Led.modMgr (c.sendCtl (c.above l) (reportBytes f)) l fun m => { m with forwarded := true }).stp
    unfold Channel.forward
    dsimp only
    rw [stp, sent.stp]

/-! ### The decision (R239, R240) -/

section
variable {c : Channel} {l : MgrLevel} {t : Token} {mem : Membership} {rem : List W16}

/-- With a standby that has acknowledged a decision is mirrored and waits. -/
theorem Channel.adopt_mirrored (h : (c.mgr l).standbyAcked = true) : Led c (c.adopt l t mem rem) ∧
    (c.adopt l t mem rem).mgr l = { c.mgr l with
      decided := true, decision := some (t, mem), leaving := rem, unacked := (c.mgr l).unacked + 1 } ∧
    ∀ k, k ≠ l → (c.adopt l t mem rem).mgr k = c.mgr k := by
  have mirrored (d : Channel) (h : Sent (c.modMgr l fun g => { g with
      decided := true, decision := some (t, mem), leaving := rem, unacked := g.unacked + 1 }) d) : Led c d ∧
      d.mgr l = { c.mgr l with
        decided := true, decision := some (t, mem), leaving := rem, unacked := (c.mgr l).unacked + 1 } ∧
      ∀ k, k ≠ l → d.mgr k = c.mgr k := by
    refine ⟨(Led.modMgr _ _ _).trans (Led.of_sent h), ?_, fun k hk => ?_⟩
    · rw [h.mgr, Channel.modMgr_self]
    · rw [h.mgr, Channel.modMgr_of_ne _ _ _ hk]
  unfold Channel.adopt
  rw [if_pos h]
  dsimp only
  split
  · exact mirrored _ (Sent.sendCtl _ _ _)
  · exact mirrored _ (Sent.refl _)

theorem Channel.adopt_rollback (h : (c.mgr l).standbyAcked = false) (ht : t.kind = .rollback) :
    c.adopt l t mem rem = c.issueToken l t mem := by
  unfold Channel.adopt
  rw [if_neg (ne_true_of_eq_false h), if_pos ht]

theorem Channel.adopt_led : Led c (c.adopt l t mem rem) := by
  cases h : (c.mgr l).standbyAcked with
  | true => exact (Channel.adopt_mirrored h).1
  | false =>
    unfold Channel.adopt
    rw [if_neg (ne_true_of_eq_false h)]
    split
    · exact c.issueToken_led l t mem
    · exact Led.refl c

theorem Channel.adopt_waits (h : (c.mgr l).standbyAcked = false) (ht : t.kind ≠ .rollback) : c.adopt l t mem rem = c := by
  unfold Channel.adopt
  rw [if_neg (ne_true_of_eq_false h), if_neg ht]

/-- The authority may decide: it has not yet, and its own channel is at the step expected. -/
structure Channel.Decides (c : Channel) (l : MgrLevel) (k : TokKind) : Prop where
  authority : c.authority = some l
  undecided : (c.mgr l).decided = false
  training : c.training = true
  started : c.stp.st ≠ .starting
  step : c.nmon.step = c.expect (c.mgr l)
  verdict : c.verdict l = some k

/-- The membership that a decision carries. -/
def Channel.carried (c : Channel) (l : MgrLevel) (k : TokKind) : Membership :=
  if k = .commit then c.shrunk (c.mgr l).removals else c.flt.members

variable {k : TokKind}

theorem authorityDecide_eq (h : c.Decides l k) : authorityDecide c =
    if noneLeft (c.carried l k) then
      ({ c with flt := { c.flt with nogroup := true } } : Channel).adopt l (c.token .rollback c.flt.members.mepoch) c.flt.members
    else c.adopt l (c.token k (c.carried l k).mepoch) (c.carried l k) (if k = .commit then (c.mgr l).removals else []) := by
  have decides : ¬((c.mgr l).decided || !c.training || decide (c.stp.st = .starting) || c.nmon.step != c.expect (c.mgr l)) = true := by
    rw [h.undecided, h.training, h.step, decide_eq_false h.started]
    simp
  unfold authorityDecide
  rw [h.authority]
  dsimp only
  rw [if_neg decides, h.verdict]
  rfl

theorem authorityDecide_decided (ha : c.authority = some l) (hd : (c.mgr l).decided = true) : authorityDecide c = c := by
  unfold authorityDecide
  rw [ha]
  exact if_pos (by rw [hd]; rfl)

end

/-! ### A mirror and its acknowledgement (R240) -/

section
variable {c : Channel} {l : MgrLevel} {t : Token} {mem : Membership} {fs : List ChanId}

theorem mirrorAck_more (ha : c.authority = some l) (hd : (c.mgr l).decision = some (t, mem)) (h : 1 < (c.mgr l).unacked) :
    mirrorAck c ⟨l, none, fs⟩ = c.modMgr l fun g => { g with unacked := g.unacked - 1 } := by
  unfold mirrorAck
  dsimp only
  rw [ha]
  dsimp only
  rw [hd]
  exact if_pos h

theorem mirrorAck_last (ha : c.authority = some l) (hd : (c.mgr l).decision = some (t, mem)) (h : (c.mgr l).unacked ≤ 1) :
    mirrorAck c ⟨l, none, fs⟩ = c.issueToken l t mem := by
  unfold mirrorAck
  dsimp only
  rw [ha]
  dsimp only
  rw [hd]
  exact if_neg (Nat.not_lt.mpr h)

theorem Mgr.takeFailed_eq (m : Mgr) (xs : List ChanId) : m.takeFailed xs =
    { m with table := m.table.map fun e => if e.chan ∈ xs then { e with live := false, failed := true, fclass := 0x0B } else e } := by
  unfold Mgr.takeFailed
  induction xs generalizing m with
  | nil => simp
  | cons x xs ih =>
    rw [List.foldl_cons, ih]
    unfold Mgr.modEntry
    rw [List.map_map]
    congr 1
    refine List.map_congr_left fun e _ => ?_
    dsimp only [Function.comp_apply]
    by_cases h : e.chan = x
    · have mem : e.chan ∈ x :: xs := List.mem_cons.mpr (.inl h)
      rw [if_pos h, if_pos mem]
      dsimp only
      split <;> rfl
    · rw [if_neg h]
      refine if_congr ?_ rfl rfl
      rw [List.mem_cons, or_iff_right h]

theorem mirrorAck_mirror (h : (c.mgr l).standby = true) : ((mirrorAck c ⟨l, some (t, mem), fs⟩).mgr l) =
    { (c.mgr l).takeFailed fs with mirrored := some (t, mem) } := by
  unfold mirrorAck
  dsimp only
  rw [if_pos h, (Sent.sendCtl _ _ _).mgr, Channel.modMgr_self]

theorem mirrorAck_stranger (h : (c.mgr l).standby = false) : mirrorAck c ⟨l, some (t, mem), fs⟩ = c :=
  if_neg (ne_true_of_eq_false h)

end

/-! ### The verdict (R239) -/

section
variable {c : Channel} {l : MgrLevel}

theorem Channel.verdict_rollback (h : (c.mgr l).faultSeen = true ∨ (c.mgr l).reports.any (·.bad) = true) :
    c.verdict l = some .rollback := if_pos (Bool.or_eq_true_iff.mpr h)

theorem Channel.verdict_nf (h : (c.mgr l).faultSeen = false) (hb : (c.mgr l).reports.any (·.bad) = false)
    (hn : (c.mgr l).reports.any (·.nf) = true) :
    c.verdict l = some (if c.stp.skipmax.toNat ≤ c.stp.skips.toNat + 1 then .halt else .skip) := by
  unfold Channel.verdict
  dsimp only
  rw [if_neg (by rw [h, hb]; decide), if_pos hn]

theorem Channel.verdict_commit (h : (c.mgr l).faultSeen = false) (hb : ∀ y ∈ (c.mgr l).reports, y.bad = false ∧ y.nf = false) :
    (∀ x ∈ c.directMembers l, ∃ y ∈ (c.mgr l).reports, y.chan = x) ↔ c.verdict l = some .commit := by
  have bad : (c.mgr l).reports.any (·.bad) = false := List.any_eq_false.mpr fun y hy => ne_true_of_eq_false (hb y hy).1
  have nf : (c.mgr l).reports.any (·.nf) = false := List.any_eq_false.mpr fun y hy => ne_true_of_eq_false (hb y hy).2
  unfold Channel.verdict
  dsimp only
  rw [if_neg (by rw [h, bad]; decide), if_neg (ne_true_of_eq_false nf)]
  constructor
  · intro all
    refine if_pos (List.all_eq_true.mpr fun x hx => List.any_eq_true.mpr ?_)
    obtain ⟨y, hy, e⟩ := all x hx
    exact ⟨y, hy, beq_iff_eq.mpr e⟩
  · intro e x hx
    split at e
    · next all =>
      obtain ⟨y, hy, e⟩ := List.any_eq_true.mp (List.all_eq_true.mp all x hx)
      exact ⟨y, hy, beq_iff_eq.mp e⟩
    · nomatch e

end

/-! ### The statement -/

section
variable {s : State} {ch : Ch} {c : Channel} {i : Instr} {f : Channel → Channel}

/-- A manager's row does nothing on a frozen core n3, and else its work. -/
theorem exec_duty_frozen (hc : s.chans[ch] = c) (hu : c.up = true) (hi : exec i s = .next (modUp s ch fun c => c.duty f))
    (hz : c.isFrozen (.nunatak 3) = true) : exec i s = .next s := exec_modUp_same hc hu hi (if_pos hz)

theorem exec_duty (hc : s.chans[ch] = c) (hu : c.up = true) (hi : exec i s = .next (modUp s ch fun c => c.duty f))
    (hz : c.isFrozen (.nunatak 3) = false) {d : Channel} (hf : f c = d) : exec i s = .next (s.put ch d) :=
  exec_modUp hc hu hi ((if_neg (ne_true_of_eq_false hz)).trans hf)

theorem exec_duty_same (hc : s.chans[ch] = c) (hu : c.up = true) (hi : exec i s = .next (modUp s ch fun c => c.duty f))
    (hz : c.isFrozen (.nunatak 3) = false) (hf : f c = c) : exec i s = .next s :=
  exec_modUp_same hc hu hi ((if_neg (ne_true_of_eq_false hz)).trans hf)
end

/-- Settles O40: each row by its outcome; tokens by what `issueToken` leaves of its level's manager. -/
theorem decisions : Obligations.Decisions := by
  unfold Obligations.Decisions
  rintro s ch c l r m k t mem fs hc hu rfl
  refine ⟨fun hz => ⟨exec_duty_frozen hc hu rfl hz, exec_duty_frozen hc hu rfl hz, exec_duty_frozen hc hu rfl hz⟩, fun hz =>
    ⟨fun ha hd hs hn => ⟨_, exec_duty hc hu rfl hz rfl, ?_, fun hl hw hall => ?_⟩, fun ha hd htr hst hstep hv hmem => ?_,
      ⟨Channel.verdict_rollback, Channel.verdict_nf, Channel.verdict_commit⟩,
      fun hd ha => exec_duty_same hc hu rfl hz (authorityDecide_decided ha hd),
      fun ha hd h => exec_duty hc hu rfl hz (mirrorAck_more ha hd h), fun ha hd h => ?_, fun h => ?_,
      fun h => exec_duty_same hc hu rfl hz (mirrorAck_stranger h)⟩⟩
  · rw [reportForward_takes ha hd hs hn]
    split
    · rw [Channel.withReport_mgr]
    · rw [(Channel.forward_spec _ _ _).1, Channel.withReport_mgr]
  · have forwards : ¬(decide (c.authority = some l) || (c.mgr l).forwarded || !(r.nf || (c.directMembers l).all fun x =>
        ((c.mgr l).reports ++ [r]).any fun y => y.chan == x)) = true := by
      have all : (r.nf || (c.directMembers l).all fun x => ((c.mgr l).reports ++ [r]).any fun y => y.chan == x) = true := by
        rw [Bool.or_eq_true]
        refine hall.imp_right fun h => List.all_eq_true.mpr fun x hx => ?_
        obtain ⟨y, hy, e⟩ := h x hx
        exact List.any_eq_true.mpr ⟨y, hy, beq_iff_eq.mpr e⟩
      rw [decide_eq_false hl, hw, all]
      decide
    rw [reportForward_takes ha hd hs hn, if_neg forwards]
    obtain ⟨mgr, sent⟩ := Channel.forward_spec (c.withReport l r) l ((c.withReport l r).combined r ((c.mgr l).reports ++ [r]))
    have led : Led (c.takeMsg 4) (c.withReport l r) := Led.modMgr _ _ _
    rw [mgr, sent, led.stp]
    refine ⟨rfl, _, rfl, rfl, rfl, ?_⟩
    change (c.withReport l r).chid = c.chid
    rw [led]
    rfl
  · have decides : c.Decides l k := ⟨ha, hd, htr, hst, hstep, hv⟩
    have eq := authorityDecide_eq decides
    have carried : c.carried l k = mem := hmem.symm
    rw [carried] at eq
    refine ⟨fun hn => ?_, fun hn => ⟨fun hs => ?_, fun hs hk => ?_, fun hs hk => ?_⟩⟩
    · rw [if_pos hn] at eq
      refine ⟨_, exec_duty hc hu rfl hz eq, ?_, fun hs => ?_, fun hs => ?_⟩
      · exact Channel.adopt_led.nogroup
      · rw [(Channel.adopt_mirrored (c := { c with flt := { c.flt with nogroup := true } }) (by cases l <;> exact hs)).2.1]
      · rw [Channel.adopt_rollback (c := { c with flt := { c.flt with nogroup := true } }) (by cases l <;> exact hs) rfl]
        exact (Channel.issueToken_out _ _ _ _).1
    · rw [if_neg (by rw [hn]; decide)] at eq
      refine ⟨_, exec_duty hc hu rfl hz eq, ?_⟩
      rw [(Channel.adopt_mirrored hs).2.1]
      exact ⟨rfl, rfl⟩
    · rw [if_neg (by rw [hn]; decide), Channel.adopt_rollback hs hk] at eq
      obtain ⟨latest, sent, -, decided⟩ := c.issueToken_out l (c.token k mem.mepoch) mem
      refine ⟨_, exec_duty hc hu rfl hz eq, ?_, latest, sent⟩
      rw [decided, hk]
      rfl
    · rw [if_neg (by rw [hn]; decide), Channel.adopt_waits hs hk] at eq
      exact exec_duty_same hc hu rfl hz eq
  · obtain ⟨latest, sent, decision, -⟩ := c.issueToken_out l t mem
    exact ⟨_, exec_duty hc hu rfl hz (mirrorAck_last ha hd h), decision, latest, sent⟩
  · refine ⟨_, exec_duty hc hu rfl hz rfl, ?_, ?_⟩
    · rw [mirrorAck_mirror h]
    · rw [mirrorAck_mirror h, Mgr.takeFailed_eq]

end Sys2Proof.Machine
end

