-- ==== Sys2Proof/Proofs/Managers.lean ====
section
/-!
SUPPORT. Managers that change (16 R354, R358 to R360, R364, R373): what is passed upward, what a fault shows to a manager, and
its decisions on it, the standby named, and the statement about them.
-/
namespace Sys2Proof.Machine

open Sys2Proof

/-! ### What a manager's work leaves -/

/-- d is c after a manager's work: messages, heartbeats, NOGROUP and the managers' states. -/
def Ruled (c d : Channel) : Prop :=
  d = { c with
    ports := d.ports
    flt := { c.flt with
      drift := d.flt.drift, field := d.flt.field, nogroup := d.flt.nogroup, sentHb := d.flt.sentHb, hbseq := d.flt.hbseq
      named := d.flt.named } }

namespace Ruled

variable {c d e : Channel}

theorem refl (c : Channel) : Ruled c c := rfl

theorem trans (h : Ruled c d) (g : Ruled d e) : Ruled c e := by
  unfold Ruled at *
  rw [g, h]

theorem of_led (h : Led c d) : Ruled c d := by
  unfold Led at h
  unfold Ruled
  rw [h]

theorem gen (h : Ruled c d) (l : MgrLevel) : d.gen l = c.gen l := by
  rw [h]
  cases l <;> rfl

theorem managerOf (h : Ruled c d) (l : MgrLevel) : d.managerOf l = c.managerOf l := by
  rw [h]
  cases l <;> rfl

theorem takeover (h : Ruled c d) : d.flt.takeover = c.flt.takeover := by rw [h]

theorem chid (h : Ruled c d) : d.chid = c.chid := by
  rw [h]
  rfl

theorem authority (h : Ruled c d) (hd : d.flt.drift.acting = c.flt.drift.acting)
    (hf : d.flt.field.acting = c.flt.field.acting) : d.authority = c.authority := by
  have one : d.oneDrift = c.oneDrift := by
    rw [h]
    rfl
  have first : d.firstField = c.firstField := by
    rw [h]
    rfl
  unfold Channel.authority
  rw [one, first, hd, hf]

end Ruled

/-- Besides, of the managers' states only level l's decision and what it has passed upward have changed. -/
structure Stirs (l : MgrLevel) (c d : Channel) : Prop where
  ruled : Ruled c d
  other : ∀ k, k ≠ l → d.mgr k = c.mgr k
  own : d.mgr l = { c.mgr l with
    decision := (d.mgr l).decision, leaving := (d.mgr l).leaving, decided := (d.mgr l).decided
    unacked := (d.mgr l).unacked, told := (d.mgr l).told }

namespace Stirs

variable {l : MgrLevel} {c d e : Channel}

theorem refl (l : MgrLevel) (c : Channel) : Stirs l c c := ⟨Ruled.refl c, fun _ _ => rfl, rfl⟩

theorem trans (h : Stirs l c d) (g : Stirs l d e) : Stirs l c e := by
  refine ⟨h.ruled.trans g.ruled, fun k hk => (g.other k hk).trans (h.other k hk), ?_⟩
  rw [g.own, h.own]

theorem acting (h : Stirs l c d) : (d.mgr l).acting = (c.mgr l).acting := by rw [h.own]
theorem table (h : Stirs l c d) : (d.mgr l).table = (c.mgr l).table := by rw [h.own]
theorem faultSeen (h : Stirs l c d) : (d.mgr l).faultSeen = (c.mgr l).faultSeen := by rw [h.own]
theorem standbyChan (h : Stirs l c d) : (d.mgr l).standbyChan = (c.mgr l).standbyChan := by rw [h.own]

theorem modMgr (c : Channel) {f : Mgr → Mgr} (hf : f (c.mgr l) = { c.mgr l with
    decision := (f (c.mgr l)).decision, leaving := (f (c.mgr l)).leaving, decided := (f (c.mgr l)).decided
    unacked := (f (c.mgr l)).unacked, told := (f (c.mgr l)).told }) : Stirs l c (c.modMgr l f) := by
  refine ⟨Ruled.of_led (Led.modMgr _ _ _), fun k hk => Channel.modMgr_of_ne _ _ _ hk, ?_⟩
  rw [Channel.modMgr_self]
  exact hf

theorem sendHbBody (c : Channel) (h : Heartbeat) : Stirs l c (c.sendHbBody h) := by
  have mgr (k : MgrLevel) : (c.sendHbBody h).mgr k = c.mgr k := by
    unfold Channel.mgr
    rw [c.sendHbBody_flt h]
  refine ⟨?_, fun k _ => mgr k, by rw [mgr l]⟩
  by_cases hq : c.stp.st = .done ∨ c.flt.retired = true
  · rw [Channel.sendHbBody_quiet hq]
    exact Ruled.refl c
  · rw [not_or, Bool.not_eq_true] at hq
    rw [Channel.sendHbBody_sent hq.1 hq.2]
    rfl

theorem passUp (c : Channel) (x : ChanId) (k : Told) (cls : Byte) : Stirs l c (c.passUp l x k cls) := by
  unfold Channel.passUp
  split
  · exact refl l c
  · exact (modMgr c rfl).trans (sendHbBody _ _)

theorem adopt_start (c : Channel) {t : Token} (ht : t.kind = .start) (mem : Membership) (rem : List W16) :
    Stirs l c (c.adopt l t mem rem) := by
  cases h : (c.mgr l).standbyAcked with
  | true =>
    obtain ⟨led, own, other⟩ := Channel.adopt_mirrored (t := t) (mem := mem) (rem := rem) h
    refine ⟨Ruled.of_led led, other, ?_⟩
    rw [own]
  | false =>
    rw [Channel.adopt_waits h (by rw [ht]; decide)]
    exact refl l c

theorem nogroup (c : Channel) (b : Bool) : Stirs l c { c with flt := { c.flt with nogroup := b } } := by
  refine ⟨rfl, fun k _ => ?_, ?_⟩
  · cases k <;> rfl
  · cases l <;> rfl

theorem tryStart (c : Channel) : Stirs l c (c.tryStart l) := by
  unfold Channel.tryStart
  dsimp only
  split
  · exact refl l c
  · split
    · exact nogroup c true
    · split
      · exact refl l c
      · exact adopt_start c rfl _ _

theorem reviseStart (c : Channel) : Stirs l c (c.reviseStart l) := by
  unfold Channel.reviseStart
  dsimp only
  split
  · split
    · exact (modMgr c rfl).trans (tryStart _)
    · exact refl l c
  · exact refl l c

end Stirs

/-- A fault shows to a manager, which passes it upward and may decide on it anew. -/
theorem Channel.managerFault_stirs (c : Channel) (l : MgrLevel) (x : ChanId) (cls : Byte) (b : Bool) : ∃ rem,
    Stirs l (c.modMgr l fun g => { g with faultSeen := true, removals := rem }) (c.managerFault l x cls b) := by
  have shown : ∃ rem, (c.modMgr l fun g =>
      let g := { g with faultSeen := true }
      if !b || g.table.any fun e => e.chan == x then g else g.plan (modOf x)) =
      c.modMgr l fun g => { g with faultSeen := true, removals := rem } := by
    by_cases h : (!b || (c.mgr l).table.any fun e => e.chan == x) = true
    · refine ⟨(c.mgr l).removals, ?_⟩
      cases l
      · exact congrArg (fun m => { c with flt := { c.flt with drift := m } }) (if_pos h)
      · exact congrArg (fun m => { c with flt := { c.flt with field := m } }) (if_pos h)
    · refine ⟨((c.mgr l).plan (modOf x)).removals, ?_⟩
      cases l
      · exact congrArg (fun m => { c with flt := { c.flt with drift := m } }) (if_neg h)
      · exact congrArg (fun m => { c with flt := { c.flt with field := m } }) (if_neg h)
  obtain ⟨rem, e⟩ := shown
  refine ⟨rem, ?_⟩
  unfold Channel.managerFault
  rw [e]
  exact (Stirs.passUp _ _ _ _).trans (Stirs.reviseStart _)

/-! ### The decision on a fault -/

theorem authorityDecide_cases (c : Channel) : authorityDecide c = c ∨ ∃ l k, c.Decides l k := by
  cases ha : c.authority with
  | none =>
    refine .inl ?_
    unfold authorityDecide
    rw [ha]
  | some l =>
    by_cases hd : ((c.mgr l).decided || !c.training || decide (c.stp.st = .starting) || c.nmon.step != c.expect (c.mgr l)) = true
    · refine .inl ?_
      unfold authorityDecide
      rw [ha]
      exact if_pos hd
    · cases hv : c.verdict l with
      | none =>
        refine .inl ?_
        unfold authorityDecide
        rw [ha]
        dsimp only
        rw [if_neg hd, hv]
      | some k =>
        simp only [Bool.or_eq_true, not_or, Bool.not_eq_true, Bool.not_eq_false', bne_eq_false_iff_eq, decide_eq_true_eq] at hd
        obtain ⟨⟨⟨undecided, training⟩, started⟩, step⟩ := hd
        exact .inr ⟨l, k, ha, undecided, training, started, step, hv⟩

/-- A manager that sees a fault, after a decision: it still sees it, acts, and has no standby that it had not. -/
structure Faulted (l : MgrLevel) (c d : Channel) : Prop where
  ruled : Ruled c d
  faultSeen : (d.mgr l).faultSeen = true
  acting : (d.mgr l).acting = (c.mgr l).acting
  standby : (d.mgr l).standby = (c.mgr l).standby
  standbyChan : (c.mgr l).standbyChan = none → (d.mgr l).standbyChan = none
  /-- an entry is one of before, or one of a member that had none -/
  table : ∀ y ∈ (d.mgr l).table, y ∈ (c.mgr l).table ∨ ∀ e ∈ (c.mgr l).table, e.chan ≠ y.chan

namespace Faulted

variable {l : MgrLevel} {c d : Channel}

theorem of_mgr (h : Ruled c d) (hs : (c.mgr l).faultSeen = true) (hm : d.mgr l = c.mgr l) : Faulted l c d :=
  ⟨h, by rw [hm]; exact hs, by rw [hm], by rw [hm], fun hn => by rw [hm]; exact hn, fun y hy => .inl (by rw [← hm]; exact hy)⟩

theorem of_stirs (h : Stirs l c d) (hs : (c.mgr l).faultSeen = true) : Faulted l c d :=
  ⟨h.ruled, by rw [h.own]; exact hs, by rw [h.own], by rw [h.own], fun hn => by rw [h.own]; exact hn,
    fun y hy => .inl (by rw [h.own] at hy; exact hy)⟩

/-- A ROLLBACK that goes out. -/
theorem issueToken {t : Token} (ht : t.kind = .rollback) (mem : Membership) (hs : (c.mgr l).faultSeen = true) :
    Faulted l c (c.issueToken l t mem) := by
  obtain ⟨led, -, succ, next, gone, e⟩ := c.issueToken_spec l t mem
  have took (g : Mgr) : g.took t next gone = { g with
      reports := [], forwarded := false, decision := none, leaving := [], unacked := 0, decided := true, recovering := true
      table := next.map fun x => (g.table.find? fun e => e.chan == x).getD { chan := x }
      removals := g.removals.filter fun m => !gone m
      standbyChan := g.standbyChan.filter next.contains
      standbyAcked := g.standbyAcked && g.standbyChan.all next.contains } := by
    unfold Mgr.took
    rw [ht]
    rfl
  rw [took] at e
  refine ⟨Ruled.of_led led, by rw [e]; exact hs, by rw [e]; rfl, by rw [e]; rfl, fun hn => ?_, fun y hy => ?_⟩
  · rw [e]
    dsimp only [Channel.tokenSent]
    rw [hn]
    rfl
  · rw [e] at hy
    obtain ⟨x, -, rfl⟩ := List.mem_map.mp hy
    dsimp only [Channel.tokenSent]
    cases hf : (c.mgr l).table.find? fun e => e.chan == x with
    | some y => exact .inl (List.mem_of_find?_eq_some hf)
    | none => exact .inr fun e he => by simpa using List.find?_eq_none.mp hf e he

theorem of_nogroup {b : Bool} (h : Faulted l { c with flt := { c.flt with nogroup := b } } d) : Faulted l c d := by
  have mgr : ({ c with flt := { c.flt with nogroup := b } } : Channel).mgr l = c.mgr l := by cases l <;> rfl
  obtain ⟨ruled, faultSeen, acting, standby, standbyChan, table⟩ := h
  rw [mgr] at acting standby standbyChan table
  exact ⟨Ruled.trans (d := { c with flt := { c.flt with nogroup := b } }) rfl ruled, faultSeen, acting, standby, standbyChan, table⟩

/-- A decision for ROLLBACK at this level. -/
theorem adopt {t : Token} (ht : t.kind = .rollback) (mem : Membership) (rem : List W16) (hs : (c.mgr l).faultSeen = true) :
    Faulted l c (c.adopt l t mem rem) := by
  cases h : (c.mgr l).standbyAcked with
  | true =>
    obtain ⟨led, own, -⟩ := Channel.adopt_mirrored (t := t) (mem := mem) (rem := rem) h
    exact ⟨Ruled.of_led led, by rw [own]; exact hs, by rw [own], by rw [own], fun hn => by rw [own]; exact hn,
      fun y hy => .inl (by rw [own] at hy; exact hy)⟩
  | false =>
    rw [Channel.adopt_rollback h ht]
    exact issueToken ht mem hs

/-- A decision at the other level. -/
theorem adopt_other {k : MgrLevel} (hk : l ≠ k) (t : Token) (mem : Membership) (rem : List W16) (hs : (c.mgr l).faultSeen = true) :
    Faulted l c (c.adopt k t mem rem) := by
  refine of_mgr (Ruled.of_led Channel.adopt_led) hs ?_
  cases h : (c.mgr k).standbyAcked with
  | true => exact (Channel.adopt_mirrored h).2.2 l hk
  | false =>
    by_cases ht : t.kind = .rollback
    · rw [Channel.adopt_rollback h ht]
      exact (c.issueToken_spec k t mem).2.1 l hk
    · rw [Channel.adopt_waits h ht]

theorem authorityDecide (hs : (c.mgr l).faultSeen = true) : Faulted l c (authorityDecide c) := by
  rcases authorityDecide_cases c with h | ⟨k, v, h⟩
  · rw [h]
    exact of_mgr (Ruled.refl c) hs rfl
  · have hs' : (({ c with flt := { c.flt with nogroup := true } } : Channel).mgr l).faultSeen = true := by cases l <;> exact hs
    rw [authorityDecide_eq h]
    by_cases hk : l = k
    · subst hk
      have rollback : v = .rollback := Option.some.inj (h.verdict.symm.trans (Channel.verdict_rollback (.inl hs)))
      subst rollback
      split
      · exact of_nogroup (adopt rfl _ _ hs')
      · exact adopt rfl _ _ hs
    · split
      · exact of_nogroup (adopt_other hk _ _ _ hs')
      · exact adopt_other hk _ _ _ hs

end Faulted

/-- A fault shows to a manager, and the authority decides. -/
theorem Channel.faultDecided (c : Channel) (l : MgrLevel) (x : ChanId) (cls : Byte) (b : Bool) : ∃ rem,
    Faulted l (c.modMgr l fun g => { g with faultSeen := true, removals := rem }) (authorityDecide (c.managerFault l x cls b)) := by
  obtain ⟨rem, stirs⟩ := c.managerFault_stirs l x cls b
  have seen : ((c.managerFault l x cls b).mgr l).faultSeen = true := by
    rw [stirs.faultSeen, Channel.modMgr_self]
  have decided := Faulted.authorityDecide seen
  refine ⟨rem, stirs.ruled.trans decided.ruled, decided.faultSeen, decided.acting.trans stirs.acting,
    decided.standby.trans (by rw [stirs.own]), fun hn => decided.standbyChan (by rw [stirs.standbyChan]; exact hn), fun y hy => ?_⟩
  rw [← stirs.table]
  exact decided.table y hy

/-! ### A silent member (R358) -/

section
variable {c : Channel} {l : MgrLevel} {x : ChanId} {e : MemberEntry}

/-- The manager with the silent member failed. -/
def Mgr.silenced (m : Mgr) (x : ChanId) : Mgr := m.modEntry x fun e => { e with live := false, failed := true, fclass := 0x0B }

section
variable (ha : (c.mgr l).acting = true) (he : e ∈ (c.mgr l).table) (hx : e.chan = x) (hf : e.failed = false)
include ha he hx hf

theorem hbtmoExpiry_member (hs : (c.mgr l).standbyChan ≠ some x) : hbtmoExpiry c l x =
    (c.modMgr l fun g => g.silenced x).managerFault l x 0x0B := by
  have silent : ((c.mgr l).acting && (c.mgr l).table.any fun e => e.chan == x && !e.failed) = true := by
    rw [ha, Bool.true_and]
    exact List.any_eq_true.mpr ⟨e, he, by rw [hx, hf, beq_self_eq_true]; rfl⟩
  unfold hbtmoExpiry
  dsimp only
  rw [if_pos silent, if_neg hs, if_neg hs]
  rfl

theorem hbtmoExpiry_standby (hs : (c.mgr l).standbyChan = some x) : hbtmoExpiry c l x =
    authorityDecide (((c.modMgr l fun g => g.silenced x).modMgr l Mgr.loseStandby).managerFault l x 0x0B) := by
  have silent : ((c.mgr l).acting && (c.mgr l).table.any fun e => e.chan == x && !e.failed) = true := by
    rw [ha, Bool.true_and]
    exact List.any_eq_true.mpr ⟨e, he, by rw [hx, hf, beq_self_eq_true]; rfl⟩
  unfold hbtmoExpiry
  dsimp only
  rw [if_pos silent, if_pos hs, if_pos hs]
  rfl

theorem hbtmoExpiry_spec : ((hbtmoExpiry c l x).mgr l).faultSeen = true ∧
    ((c.mgr l).standbyChan ≠ some x → ((hbtmoExpiry c l x).mgr l).table = (c.mgr l).table.map fun y =>
      if y.chan = x then { y with live := false, failed := true, fclass := 0x0B } else y) ∧
    ((c.mgr l).standbyChan = some x → ((hbtmoExpiry c l x).mgr l).standbyChan = none) := by
  by_cases hs : (c.mgr l).standbyChan = some x
  · obtain ⟨rem, decided⟩ := ((c.modMgr l fun g => g.silenced x).modMgr l Mgr.loseStandby).faultDecided l x 0x0B true
    rw [hbtmoExpiry_standby ha he hx hf hs]
    refine ⟨decided.faultSeen, fun h => absurd hs h, fun _ => decided.standbyChan ?_⟩
    rw [Channel.modMgr_self, Channel.modMgr_self]
    rfl
  · obtain ⟨rem, stirs⟩ := (c.modMgr l fun g => g.silenced x).managerFault_stirs l x 0x0B true
    rw [hbtmoExpiry_member ha he hx hf hs]
    refine ⟨?_, fun _ => ?_, fun h => absurd h hs⟩
    · rw [stirs.faultSeen, Channel.modMgr_self]
    · rw [stirs.table, Channel.modMgr_self, Channel.modMgr_self]
      rfl

end

theorem hbtmoExpiry_atStandby (ha : (c.mgr l).acting = false) (hs : (c.mgr l).standby = true) :
    hbtmoExpiry c l x = c.modMgr l fun g => g.modEntry x fun y => { y with live := false } := by
  unfold hbtmoExpiry
  dsimp only
  rw [if_neg (by rw [ha]; simp), if_pos hs]

theorem hbtmoExpiry_stranger (ha : (c.mgr l).acting = false) (hs : (c.mgr l).standby = false) : hbtmoExpiry c l x = c := by
  unfold hbtmoExpiry
  dsimp only
  rw [if_neg (by rw [ha]; simp), if_neg (by rw [hs]; decide)]

/-! ### A mirror that is not acknowledged (R359) -/

theorem mirrorAckTimeout_stops (ha : (c.mgr l).acting = true) (hs : (c.mgr l).standbyChan = some x) (hm : (c.mgr l).majority = false) :
    mirrorAckTimeout c l = c.modMgr l fun g => { g with acting := false, decision := none } := by
  unfold mirrorAckTimeout
  dsimp only
  rw [ha, hs]
  exact if_neg (by rw [hm]; decide)

theorem mirrorAckTimeout_spec (ha : (c.mgr l).acting = true) (hs : (c.mgr l).standbyChan = some x) (hm : (c.mgr l).majority = true) :
    ((mirrorAckTimeout c l).mgr l).standbyChan = none ∧ ((mirrorAckTimeout c l).mgr l).faultSeen = true := by
  have eq : mirrorAckTimeout c l = authorityDecide ((c.modMgr l fun g =>
      (g.modEntry x fun e => { e with live := false, failed := true, fclass := 0x0C, standby := false }).loseStandby).managerFault
        l x 0x0C) := by
    unfold mirrorAckTimeout
    dsimp only
    rw [ha, hs]
    exact if_pos hm
  obtain ⟨rem, decided⟩ := (c.modMgr l fun g =>
    (g.modEntry x fun e => { e with live := false, failed := true, fclass := 0x0C, standby := false }).loseStandby).faultDecided
      l x 0x0C true
  rw [eq]
  refine ⟨decided.standbyChan ?_, decided.faultSeen⟩
  rw [Channel.modMgr_self, Channel.modMgr_self]
  rfl

end

/-! ### A new standby (R360, R364) -/

section
variable {c : Channel} {l : MgrLevel} {e : MemberEntry} {mir : Option (Token × Membership)} {fs : List ChanId}

/-- A member that a manager may name its standby. -/
def Channel.MayStand (c : Channel) (l : MgrLevel) (z : MemberEntry) : Prop :=
  z.live = true ∧ z.failed = false ∧ modOf z.chan ≠ modOf c.chid ∧
    c.leaving ((c.mgr l).removals ++ (c.mgr l).faulted) (modOf z.chan) = false

theorem Channel.mayStand_iff (z : MemberEntry) : (z.live && !z.failed && modOf z.chan != modOf c.chid &&
    !c.leaving ((c.mgr l).removals ++ (c.mgr l).faulted) (modOf z.chan)) = true ↔ c.MayStand l z := by
  unfold Channel.MayStand
  rw [Bool.and_eq_true, Bool.and_eq_true, Bool.and_eq_true, Bool.not_eq_true', Bool.not_eq_true', bne_iff_ne, and_assoc, and_assoc]

theorem Channel.nextStandby_first {front back : List MemberEntry} (ht : (c.mgr l).table = front ++ e :: back)
    (hf : ∀ z ∈ front, ¬c.MayStand l z) (he : c.MayStand l e) : c.nextStandby l = some e := by
  unfold Channel.nextStandby
  dsimp only
  rw [ht, List.find?_append, List.find?_eq_none.mpr fun z hz => mt (Channel.mayStand_iff z).mp (hf z hz), Option.none_or]
  refine List.find?_cons_of_pos ?_
  exact (Channel.mayStand_iff e).mpr he

theorem Channel.nextStandby_none (h : ∀ z ∈ (c.mgr l).table, ¬c.MayStand l z) : c.nextStandby l = none :=
  List.find?_eq_none.mpr fun z hz => mt (Channel.mayStand_iff z).mp (h z hz)

theorem newStandby_names (ha : (c.mgr l).acting = true) (hs : (c.mgr l).standbyChan = none) (hn : c.nextStandby l = some e) :
    ((newStandby c ⟨l, mir, fs⟩).mgr l).standbyChan = some e.chan ∧ ((newStandby c ⟨l, mir, fs⟩).mgr l).standbyAcked = false ∧
    (newStandby c ⟨l, mir, fs⟩).flt.nogroup = c.flt.nogroup := by
  unfold newStandby
  dsimp only
  rw [if_pos ha, if_neg (by rw [hs]; decide), hn]
  dsimp only
  rw [Channel.modMgr_self]
  refine ⟨rfl, rfl, ?_⟩
  rw [(Led.modMgr _ _ _).nogroup, (Sent.sendCtl _ _ _).flt]

theorem newStandby_none (ha : (c.mgr l).acting = true) (hs : (c.mgr l).standbyChan = none) (hn : c.nextStandby l = none) :
    newStandby c ⟨l, mir, fs⟩ = { c with flt := { c.flt with nogroup := true } } := by
  unfold newStandby
  dsimp only
  rw [if_pos ha, if_neg (by rw [hs]; decide), hn]

theorem newStandby_atStandby (ha : (c.mgr l).acting = false) (hs : (c.mgr l).standby = true) : newStandby c ⟨l, mir, fs⟩ = c := by
  unfold newStandby
  dsimp only
  rw [if_neg (by rw [ha]; decide), if_pos hs]

/-- At the channel named the mirror arrives, with the failures declared. -/
theorem newStandby_arrives (ha : (c.mgr l).acting = false) (hs : (c.mgr l).standby = false) :
    (newStandby c ⟨l, mir, fs⟩).mgr l = { (c.mgr l) with
      standby := true, mirrored := mir
      table := (c.freshTable l).map fun e =>
        if e.chan ∈ fs then { e with live := false, failed := true, fclass := 0x0B } else e } := by
  unfold newStandby
  dsimp only
  rw [if_neg (by rw [ha]; decide), if_neg (by rw [hs]; decide), (Sent.sendHbTo _ _ _).mgr, Channel.modMgr_self, Mgr.takeFailed_eq]

end

/-! ### The new standby's acknowledgement (R360, R373) -/

section
variable {c : Channel} {l : MgrLevel} {x : ChanId} {t : Token} {mem : Membership}

theorem Channel.tryStart_elsewhere (h : c.authority ≠ some l) : c.tryStart l = c := by
  unfold Channel.tryStart
  dsimp only
  refine if_pos ?_
  rw [bne_iff_ne.mpr h]
  rfl

theorem authorityDecide_none (h : c.authority = none) : authorityDecide c = c := by
  unfold authorityDecide
  rw [h]

theorem newStandbyAck_stranger (h : (c.mgr l).acting = false ∨ (c.mgr l).standbyChan ≠ some x) : newStandbyAck c l x = c := by
  unfold newStandbyAck
  refine if_neg ?_
  rw [Bool.and_eq_true, beq_iff_eq, not_and_or, Bool.not_eq_true]
  exact h

/-- A manager that has an acknowledged standby. -/
def Channel.acked (c : Channel) (l : MgrLevel) : Channel := c.modMgr l fun g => { g with standbyAcked := true }

section
variable (ha : (c.mgr l).acting = true) (hs : (c.mgr l).standbyChan = some x)
include ha hs

theorem newStandbyAck_eq : newStandbyAck c l x = (authorityDecide ((c.mgr l).decision.elim (c.acked l) fun d =>
    if (c.acked l).authority = some l then c.acked l else (c.acked l).issueToken l d.1 d.2)).tryStart l := by
  unfold newStandbyAck
  rw [if_pos (by rw [ha, hs, Bool.true_and, beq_self_eq_true])]
  dsimp only
  cases (c.mgr l).decision <;> rfl

theorem newStandbyAck_free (hn : c.authority = none) (hd : (c.mgr l).decision = none) : newStandbyAck c l x = c.acked l := by
  have free : (c.acked l).authority = none := (Channel.modMgr_authority c l (fun g => { g with standbyAcked := true }) rfl).trans hn
  rw [newStandbyAck_eq ha hs, hd, Option.elim_none, authorityDecide_none free, Channel.tryStart_elsewhere (by rw [free]; simp)]

theorem newStandbyAck_sends (hn : c.authority = none) (hd : (c.mgr l).decision = some (t, mem)) :
    newStandbyAck c l x = (c.acked l).issueToken l t mem := by
  have free : (c.acked l).authority = none := (Channel.modMgr_authority c l (fun g => { g with standbyAcked := true }) rfl).trans hn
  have acting (k : MgrLevel) : (((c.acked l).issueToken l t mem).mgr k).acting = ((c.acked l).mgr k).acting := by
    obtain ⟨-, other, succ, next, gone, own⟩ := (c.acked l).issueToken_spec l t mem
    by_cases hk : k = l
    · subst hk
      rw [own, Mgr.took_acting]
      rfl
    · rw [other k hk]
  have free' : ((c.acked l).issueToken l t mem).authority = none :=
    (Channel.authority_congr (Channel.issueToken_led _ _ _ _) (acting .drift) (acting .field)).trans free
  rw [newStandbyAck_eq ha hs, hd, Option.elim_some, if_neg (by rw [free]; simp), authorityDecide_none free',
    Channel.tryStart_elsewhere (by rw [free']; simp)]

end

/-! ### START (R373) -/

/-- The modules that a START removes. -/
def Channel.removed (c : Channel) (l : MgrLevel) : List W16 := ((c.mgr l).removals ++ (c.mgr l).faulted).dedup

/-- What a recovering authority needs to decide START: a standby, a module that stays, and every member that stays READY. -/
structure Channel.Restarts (c : Channel) (l : MgrLevel) : Prop where
  authority : c.authority = some l
  recovering : (c.mgr l).recovering = true
  faultHbtmo : (c.mgr l).faultHbtmo = true
  standby : (c.mgr l).standbyChan.isSome = true
  acked : (c.mgr l).standbyAcked = true
  group : c.flt.nogroup = false
  undecided : (c.mgr l).decision = none
  left : noneLeft (c.shrunk (c.removed l)) = false
  stays : ∃ z ∈ (c.mgr l).table, c.leaving (c.removed l) (modOf z.chan) = false
  ready : ∀ z ∈ (c.mgr l).table, c.leaving (c.removed l) (modOf z.chan) = false → z.ready = true

theorem Channel.tryStart_decides (h : c.Restarts l) : ∃ u : Token, ((c.tryStart l).mgr l).decision = some (u, c.shrunk (c.removed l)) ∧
    u.kind = .start ∧ u.ver = c.stp.ver ∧ u.step = c.nmon.step ∧ u.batch = c.stp.batch ∧
    u.mepoch = (c.shrunk (c.removed l)).mepoch := by
  have starts : ¬(c.authority != some l || c.flt.nogroup || (c.mgr l).decision.isSome || !(c.mgr l).standbyChan.isSome ||
      !(c.mgr l).standbyAcked || !(((c.mgr l).recovering && (c.mgr l).faultHbtmo) ||
        (c.stp.st == .starting && !(c.mgr l).decided && !c.startGiven (c.mgr l)))) = true := by
    rw [h.authority, h.group, h.undecided, h.standby, h.acked, h.recovering, h.faultHbtmo]
    simp
  have stays : ((c.mgr l).table.filter fun e => !c.leaving (c.removed l) (modOf e.chan)).isEmpty = false := by
    obtain ⟨z, hz, hl⟩ := h.stays
    rw [List.isEmpty_eq_false_iff_exists_mem]
    exact ⟨z, List.mem_filter.mpr ⟨hz, by rw [hl]; rfl⟩⟩
  have ready : (((c.mgr l).table.filter fun e => !c.leaving (c.removed l) (modOf e.chan)).all (·.ready)) = true := by
    rw [List.all_eq_true]
    intro z hz
    obtain ⟨hz, hl⟩ := List.mem_filter.mp hz
    exact h.ready z hz (by simpa using hl)
  have left := h.left
  unfold Channel.removed at *
  unfold Channel.tryStart
  dsimp only
  rw [if_neg starts, if_neg (by rw [stays, left]; decide), if_neg (by rw [ready]; decide), (Channel.adopt_mirrored h.acked).2.1]
  exact ⟨_, rfl, rfl, rfl, rfl, rfl, rfl⟩

end

/-! ### A standby that takes over (R359) -/

section
variable {c : Channel} {l : MgrLevel}

/-- The manager's state as its standby takes over, with the primary failed. -/
def Mgr.takesOver (g : Mgr) (primary : ChanId) : Mgr :=
  { (g.modEntry primary fun e => { e with live := false, failed := true, fclass := 0x0C }) with
    acting := true, standby := false, standbyChan := none, standbyAcked := false, latest := g.mirrored
    reports := [], forwarded := false, decision := none, leaving := [], unacked := 0
    decided := (g.mirrored.map fun u => u.1.kind == .rollback).getD false
    recovering := (g.mirrored.map fun u => u.1.kind == .rollback).getD false }

/-- The channel as its standby takes over, before it tells the members. -/
def Channel.takenOver (c : Channel) (l : MgrLevel) : Channel :=
  (({ c with flt := { c.flt with takeover := true } } : Channel).follow l (c.gen l + 1) c.chid).modMgr l fun g =>
    g.takesOver (c.managerOf l)

theorem Channel.takenOver_spec : (c.takenOver l).gen l = c.gen l + 1 ∧ (c.takenOver l).flt.takeover = true ∧
    (c.takenOver l).managerOf l = c.chid ∧ (c.takenOver l).mgr l = (c.mgr l).takesOver (c.managerOf l) := by
  cases l <;> exact ⟨rfl, rfl, rfl, rfl⟩

theorem standbyTakeover_stays (h : (c.mgr l).standby = false ∨ (c.mgr l).majority = false) : standbyTakeover c l = c := by
  refine if_pos ?_
  rcases h with h | h <;> rw [h] <;> simp

theorem standbyTakeover_acts (hs : (c.mgr l).standby = true) (hm : (c.mgr l).majority = true) : ∃ d sent, Sent (c.takenOver l) d ∧
    standbyTakeover c l = authorityDecide ((d.modMgr l fun g => { g with sent := sent }).managerFault l (c.managerOf l) 0x0C) := by
  have go : ¬(!(c.mgr l).standby || !(c.mgr l).majority) = true := by rw [hs, hm]; decide
  have told (b : List Byte) : Sent (c.takenOver l)
      (((c.takenOver l).directMembers l).foldl (fun c d => c.sendCtl d b) (c.takenOver l)) :=
    Sent.foldl (fun c d => Sent.sendCtl c d _) _ _
  have same (d : Channel) : d = d.modMgr l fun g => { g with sent := (d.mgr l).sent } := by cases l <;> rfl
  have more (d : Channel) (xs : List (ChanId × Token)) : (d.modMgr l fun g => { g with sent := g.sent ++ xs }) =
      d.modMgr l fun g => { g with sent := (d.mgr l).sent ++ xs } := by cases l <;> rfl
  unfold standbyTakeover
  dsimp only
  rw [if_neg go]
  cases hm : (c.mgr l).mirrored with
  | none => exact ⟨_, _, told _, congrArg (fun d : Channel => authorityDecide (d.managerFault l (c.managerOf l) 0x0C)) (same _)⟩
  | some u => exact ⟨_, _, told _, congrArg (fun d : Channel => authorityDecide (d.managerFault l (c.managerOf l) 0x0C)) (more _ _)⟩

theorem standbyTakeover_spec (hs : (c.mgr l).standby = true) (hm : (c.mgr l).majority = true) :
    (standbyTakeover c l).gen l = c.gen l + 1 ∧ (standbyTakeover c l).flt.takeover = true ∧
    (standbyTakeover c l).managerOf l = c.chid ∧ ((standbyTakeover c l).mgr l).acting = true ∧
    ((standbyTakeover c l).mgr l).standby = false ∧ ((standbyTakeover c l).mgr l).faultSeen = true ∧
    ((∃ y ∈ (c.mgr l).table, y.chan = c.managerOf l) → ∀ y ∈ ((standbyTakeover c l).mgr l).table, y.chan = c.managerOf l →
      y.failed = true ∧ y.fclass = 0x0C) := by
  obtain ⟨d, out, sent, eq⟩ := standbyTakeover_acts hs hm
  obtain ⟨rem, decided⟩ := (d.modMgr l fun g => { g with sent := out }).faultDecided l (c.managerOf l) 0x0C true
  obtain ⟨gen, takeover, manager, mgr⟩ := Channel.takenOver_spec (c := c) (l := l)
  have ruled : Ruled (c.takenOver l) (standbyTakeover c l) := by
    rw [eq]
    exact (Ruled.of_led (((Led.of_sent sent).trans (Led.modMgr _ _ _)).trans (Led.modMgr _ _ _))).trans decided.ruled
  have before : (((d.modMgr l fun g => { g with sent := out }).modMgr l fun g => { g with faultSeen := true, removals := rem }).mgr l) =
      { (c.mgr l).takesOver (c.managerOf l) with sent := out, faultSeen := true, removals := rem } := by
    rw [Channel.modMgr_self, Channel.modMgr_self, sent.mgr, mgr]
  rw [← eq] at decided
  have acting := decided.acting
  have standby := decided.standby
  have table := decided.table
  rw [before] at acting standby table
  refine ⟨(ruled.gen l).trans gen, ruled.takeover.trans takeover, (ruled.managerOf l).trans manager, acting, standby,
    decided.faultSeen, fun ⟨z, hz, hzc⟩ y hy hyc => ?_⟩
  have failed : ∀ e ∈ ((c.mgr l).takesOver (c.managerOf l)).table, e.chan = c.managerOf l → e.failed = true ∧ e.fclass = 0x0C := by
    intro e he hec
    obtain ⟨u, hu, rfl⟩ := List.mem_map.mp he
    by_cases hc : u.chan = c.managerOf l
    · rw [if_pos hc]
      exact ⟨rfl, rfl⟩
    · rw [if_neg hc] at hec
      exact absurd hec hc
  rcases table y hy with h | h
  · exact failed y h hyc
  · have listed : ({ z with live := false, failed := true, fclass := 0x0C } : MemberEntry) ∈
        ((c.mgr l).takesOver (c.managerOf l)).table := List.mem_map.mpr ⟨z, hz, if_pos hzc⟩
    exact absurd (hzc.trans hyc.symm) (h { z with live := false, failed := true, fclass := 0x0C } listed)

end

/-! ### The statement -/

section
variable {c : Channel} {l : MgrLevel}

theorem firstFaultHbtmo_recovering (ha : c.authority = some l) (hr : (c.mgr l).recovering = true) :
    firstFaultHbtmo c = (c.modMgr l fun g => { g with faultHbtmo := true }).tryStart l := by
  unfold firstFaultHbtmo
  rw [ha]
  exact if_pos hr

/-- Without a standby, or a group, no START is decided. -/
theorem Channel.tryStart_waits (h : (c.mgr l).standbyChan = none ∨ c.flt.nogroup = true) : c.tryStart l = c := by
  unfold Channel.tryStart
  dsimp only
  refine if_pos ?_
  rcases h with h | h <;> rw [h] <;> simp

end

/-- A manager whose standby has acknowledged, and that has waited HBTMO since the first fault. -/
def Channel.cleared (c : Channel) (l : MgrLevel) : Channel :=
  c.modMgr l fun g => { g with faultHbtmo := true, standbyAcked := true }

theorem Channel.cleared_of_acked {c : Channel} {l : MgrLevel} (h : (c.mgr l).standbyAcked = true) :
    (c.modMgr l fun g => { g with faultHbtmo := true }) = c.cleared l := by
  have same : ({ c.mgr l with faultHbtmo := true } : Mgr) = { c.mgr l with faultHbtmo := true, standbyAcked := true } := by
    rw [← h]
  cases l with
  | drift => exact congrArg (fun m => { c with flt := { c.flt with drift := m } }) same
  | field => exact congrArg (fun m => { c with flt := { c.flt with field := m } }) same

theorem Channel.cleared_of_waited {c : Channel} {l : MgrLevel} (h : (c.mgr l).faultHbtmo = true) : c.acked l = c.cleared l := by
  have same : ({ c.mgr l with standbyAcked := true } : Mgr) = { c.mgr l with faultHbtmo := true, standbyAcked := true } := by
    rw [← h]
  cases l with
  | drift => exact congrArg (fun m => { c with flt := { c.flt with drift := m } }) same
  | field => exact congrArg (fun m => { c with flt := { c.flt with field := m } }) same

theorem Channel.cleared_starts {c : Channel} {l : MgrLevel} {x : ChanId} (ha : c.authority = some l) (hr : (c.mgr l).recovering = true)
    (hs : (c.mgr l).standbyChan = some x) (hg : c.flt.nogroup = false) (hd : (c.mgr l).decision = none)
    (hl : noneLeft (c.shrunk (c.removed l)) = false)
    (hst : ∃ z ∈ (c.mgr l).table, c.leaving (c.removed l) (modOf z.chan) = false)
    (hrd : ∀ z ∈ (c.mgr l).table, c.leaving (c.removed l) (modOf z.chan) = false → z.ready = true) :
    ∃ u : Token, (((c.cleared l).tryStart l).mgr l).decision = some (u, c.shrunk (c.removed l)) ∧
      u.kind = .start ∧ u.ver = c.stp.ver ∧ u.step = c.nmon.step ∧ u.batch = c.stp.batch ∧
      u.mepoch = (c.shrunk (c.removed l)).mepoch := by
  have standby : (c.mgr l).standbyChan.isSome = true := by rw [hs]; rfl
  have authority : (c.cleared l).authority = some l :=
    (Channel.modMgr_authority c l (fun g => { g with faultHbtmo := true, standbyAcked := true }) rfl).trans ha
  cases l with
  | drift => exact Channel.tryStart_decides (c := c.cleared .drift) ⟨authority, hr, rfl, standby, rfl, hg, hd, hl, hst, hrd⟩
  | field => exact Channel.tryStart_decides (c := c.cleared .field) ⟨authority, hr, rfl, standby, rfl, hg, hd, hl, hst, hrd⟩

/-- The table at a channel that has been named: its members, of whom those declared failed are. -/
theorem Channel.arrived_table (c : Channel) (l : MgrLevel) (fs : List ChanId) {tab : List MemberEntry} (h : tab = (c.freshTable l).map fun e =>
      if e.chan ∈ fs then { e with live := false, failed := true, fclass := 0x0B } else e) :
    tab.map (·.chan) = c.directMembers l ∧ ∀ y ∈ tab, y.failed = decide (y.chan ∈ fs) := by
  subst h
  constructor
  · unfold Channel.freshTable
    rw [List.map_map, List.map_map]
    refine Eq.trans (List.map_congr_left fun x _ => ?_) (List.map_id _)
    dsimp only [Function.comp_apply]
    split <;> rfl
  · intro y hy
    obtain ⟨e, he, rfl⟩ := List.mem_map.mp hy
    obtain ⟨x, -, rfl⟩ := List.mem_map.mp he
    dsimp only
    by_cases hx : x ∈ fs
    · rw [if_pos hx]
      exact (decide_eq_true hx).symm
    · rw [if_neg hx]
      exact (decide_eq_false hx).symm

/-- Settles O45: each row by its outcome; a fault by what it shows to a manager and what the authority then decides. -/
theorem managersChange : Obligations.ManagersChange := by
  unfold Obligations.ManagersChange
  constructor
  · rintro s ch c l x m e mir fs front back t mem rem stays hc hu hz rfl hstays rfl
    have may (z : MemberEntry) : stays z ↔ c.MayStand l z := hstays z
    refine ⟨fun ha he hx hf => ⟨_, exec_duty hc hu rfl hz rfl, hbtmoExpiry_spec ha he hx hf⟩,
      fun ha hs => exec_duty hc hu rfl hz (hbtmoExpiry_atStandby ha hs),
      fun ha hs => exec_duty_same hc hu rfl hz (hbtmoExpiry_stranger ha hs), fun ha hs hm => ?_,
      fun ha hs hm => ⟨_, exec_duty hc hu rfl hz rfl, mirrorAckTimeout_spec ha hs hm⟩, fun ha hs ht hf he => ?_,
      fun ha hs hn => ?_, fun ha hs => ?_, fun ha hs => exec_duty_same hc hu rfl hz (newStandby_atStandby ha hs),
      fun ha hs hn hd => exec_duty hc hu rfl hz (newStandbyAck_free ha hs hn hd), fun ha hs hn hd => ?_,
      fun h => exec_duty_same hc hu rfl hz (newStandbyAck_stranger h), fun ha hr => ⟨fun h => ?_, fun hs hg hd hl hst hrd => ?_⟩⟩
    · refine ⟨_, exec_duty hc hu rfl hz (mirrorAckTimeout_stops ha hs hm), ?_⟩
      rw [Channel.modMgr_self]
      exact ⟨rfl, rfl⟩
    · exact ⟨_, exec_duty hc hu rfl hz rfl, newStandby_names ha hs
        (Channel.nextStandby_first ht (fun z hz => mt (may z).mpr (hf z hz)) ((may e).mp he))⟩
    · exact exec_duty hc hu rfl hz (newStandby_none ha hs (Channel.nextStandby_none fun z hz => mt (may z).mpr (hn z hz)))
    · refine ⟨_, exec_duty hc hu rfl hz rfl, ?_⟩
      rw [newStandby_arrives ha hs]
      obtain ⟨chans, failed⟩ := c.arrived_table l fs rfl
      exact ⟨rfl, ha, rfl, chans, failed⟩
    · obtain ⟨latest, sent, -⟩ := (c.acked l).issueToken_out l t mem
      refine ⟨_, exec_duty hc hu rfl hz (newStandbyAck_sends ha hs hn hd), latest, ?_⟩
      rw [sent]
      cases l <;> rfl
    · refine exec_duty hc hu rfl hz ((firstFaultHbtmo_recovering ha hr).trans (Channel.tryStart_waits ?_))
      cases l <;> exact h
    · obtain ⟨u, starts⟩ := Channel.cleared_starts ha hr hs hg hd hl hst hrd
      refine ⟨fun hk => ⟨_, u, exec_duty hc hu rfl hz ((firstFaultHbtmo_recovering ha hr).trans ?_), starts⟩,
        fun hact hw hdec => ⟨_, u, exec_duty hc hu rfl hz ?_, starts⟩⟩
      · rw [Channel.cleared_of_acked hk]
      · have authority : (c.acked l).authority = some l :=
          (Channel.modMgr_authority c l (fun g => { g with standbyAcked := true }) rfl).trans ha
        have decided : ((c.acked l).mgr l).decided = true := by cases l <;> exact hdec
        rw [newStandbyAck_eq hact hs, hd, Option.elim_none, authorityDecide_decided authority decided, Channel.cleared_of_waited hw]
  · rintro s ch c l m x mir hc hu rfl
    refine ⟨fun hz => ⟨exec_duty_frozen hc hu rfl hz, exec_duty_frozen hc hu rfl hz, exec_duty_frozen hc hu rfl hz,
      exec_duty_frozen hc hu rfl hz, exec_duty_frozen hc hu rfl hz, exec_duty_frozen hc hu rfl hz⟩,
      fun hz hs hm => ⟨_, exec_duty hc hu rfl hz rfl, standbyTakeover_spec hs hm⟩, fun h => ?_⟩
    cases hz : c.isFrozen (.nunatak 3) with
    | true => exact exec_duty_frozen hc hu rfl hz
    | false => exact exec_duty_same hc hu rfl hz (standbyTakeover_stays h)

end Sys2Proof.Machine
end

