-- ==== Sys2Proof/Proofs/Collectives.lean ====
section
/-!
SUPPORT. Collectives: a command that passes its checks registers its collective and goes on, a begun one waits for its
messages, a message is held or taken, and a skewed barrier signals core by core; the statement about them.
-/
namespace Sys2Proof.Machine

open Sys2Proof

/-! ### The commands -/

section
variable {chans : Vector Channel 8} {w : Wk} {r : Running} {k : Collective} {x : CollCtx} {d : Channel}

theorem cfReduce_ok (hb : r.begun = none) (h : reduceOps chans w.c r = .ok ((k, x), d)) :
    productWith w r (cfReduce chans w r) = reduceRun { w with c := d } r k x := by
  unfold cfReduce
  rw [if_neg (by rw [hb]; exact Bool.false_ne_true), h]
  rfl

theorem cfBcast_ok {a : Option Desc} (hb : r.begun = none) (h : bcastOps chans w.c r = .ok ((k, x, a), d)) :
    productWith w r (cfBcast chans w r) = bcastRun { w with c := d } r k x a := by
  unfold cfBcast
  rw [if_neg (by rw [hb]; exact Bool.false_ne_true), h]
  rfl

theorem cfBarrier_ok (hb : r.begun = none) (h : barrierOps chans w.c r = .ok k) :
    productWith w r (cfBarrier chans w r) = w.start r k { blocks := 0 } := by
  unfold cfBarrier
  rw [if_neg (by rw [hb]; exact Bool.false_ne_true), h]
  rfl

theorem cfReduce_begun (hb : r.begun.isSome = true) : productWith w r (cfReduce chans w r) = w := by
  unfold cfReduce
  rw [if_pos hb]
  rfl

theorem cfBcast_begun (hb : r.begun.isSome = true) : productWith w r (cfBcast chans w r) = w := by
  unfold cfBcast
  rw [if_pos hb]
  rfl

theorem cfBarrier_begun (hb : r.begun.isSome = true) : productWith w r (cfBarrier chans w r) = w := by
  unfold cfBarrier
  rw [if_pos hb]
  rfl
end

/-- A row that leaves the channel as it found it changes nothing. -/
theorem exec_row_same {s : State} {ch : Ch} {src : Src} {opc : Byte} {r : Running} {i : Instr} {f : Wk → Running → Wk}
    (h : Runs s ch src opc r) (hi : exec i s = .next (onRun s ch src opc f)) (hf : f (s.fresh ch) r = s.fresh ch) :
    exec i s = .next s := by
  rw [exec_row h hi hf, Wk.settle_clean rfl rfl]
  exact congrArg Host.Outcome.next ((State.after_eq_put rfl rfl).trans (s.put_same ch))

/-! ### The messages -/

section
variable {w : Wk} {m : RedMsg} {k : Collective} {x : CollCtx} {c d : Channel}

theorem reductionMessage_held (hc : c = (w.c.landed.takeMsg 3).rxCount m) (h : w.c.collOf m = none) :
    reductionMessage w m = { w with c := { c with heldMsgs := w.c.heldMsgs ++ [m] } } := by
  subst hc
  unfold reductionMessage
  dsimp only
  rw [show ((((w.mod Channel.landed).c.takeMsg 3).rxCount m).collOf m) = none from h]
  rfl

theorem resultDown_held (hc : c = (w.c.landed.takeMsg 5).rxCount m) (h : w.c.collOf m = none) :
    resultDown w m = { w with c := { c with heldMsgs := w.c.heldMsgs ++ [m] } } := by
  subst hc
  unfold resultDown
  dsimp only
  rw [show ((((w.mod Channel.landed).c.takeMsg 5).rxCount m).collOf m) = none from h]
  rfl

theorem reductionMessage_taken (hc : c = (w.c.landed.takeMsg 3).rxCount m) (h : w.c.collOf m = some k)
    (hx : c.ctxOf k = some x) : reductionMessage w m =
      ((({ w with c := c.setColl { k with got := k.got ++ [m] } } : Wk).foldAll k.src x).settle k.src
        (w.mod Channel.landed)) := by
  subst hc
  unfold reductionMessage
  dsimp only
  rw [show ((((w.mod Channel.landed).c.takeMsg 3).rxCount m).collOf m) = some k from h]
  dsimp only
  rw [show ((((w.mod Channel.landed).c.takeMsg 3).rxCount m).ctxOf k) = some x from hx]
  rfl

theorem resultDown_taken (hc : c = (w.c.landed.takeMsg 5).rxCount m) (h : w.c.collOf m = some k)
    (hx : c.ctxOf k = some x) (hr : x.reach c m.bucket.toNat m.first.toNat m.sbs.length = .ok d) :
    resultDown w m = ((({ w with c := d } : Wk).resultFor k x m).settle k.src (w.mod Channel.landed)) := by
  subst hc
  unfold resultDown
  dsimp only
  rw [show ((((w.mod Channel.landed).c.takeMsg 5).rxCount m).collOf m) = some k from h]
  dsimp only
  rw [show ((((w.mod Channel.landed).c.takeMsg 5).rxCount m).ctxOf k) = some x from hx]
  dsimp only
  rw [show x.reach (((w.mod Channel.landed).c.takeMsg 5).rxCount m) m.bucket.toNat m.first.toNat m.sbs.length = .ok d from hr]
  rfl
end

/-! ### The skewed release of a barrier -/

/-- The end of a collective touches no semaphore. -/
theorem Wk.collDone_sems (w : Wk) (src : Src) (x : CollCtx) (hx : x.layer = none) : (w.collDone src x).c.sems = w.c.sems := by
  unfold Wk.collDone
  split
  · split
    · rfl
    · rw [hx]
      simp only [apply_ite Channel.sems, Channel.setRun_sems, Channel.finish_sems, ite_self]
  · rfl

theorem skewRelease_semVal {w : Wk} {src : Src} {k : Collective} {r : Running} {core : Core} (hk : w.c.coll src = some k)
    (hr : w.c.findRun src = some r) (hn : r.result = none) (hm : core ∈ k.skew) (q : SemIdx) :
    (skewRelease w src core).c.semVal q =
      (w.c.semAdd (r.cmd.ssem + BitVec.ofNat 8 core.val) r.cmd.sinc.toNat).semVal q := by
  unfold skewRelease
  rw [hk, hr]
  dsimp only
  rw [if_pos (by simp [hm, hn])]
  split
  · exact congrArg (fun v => v[q.toFin]) (Wk.collDone_sems _ _ _ rfl)
  · rfl

/-- A row of Confluence that only changes its channel. -/
theorem onCfl_put {s : State} {ch : Ch} {f : Wk → Wk} {d : Channel} (hu : s.chans[ch].up = true)
    (hz : s.chans[ch].isFrozen (.engine .confluence) = false) (hf : f (s.work ch) = { s.work ch with c := d }) :
    onCfl s ch f = s.put ch d := by
  rw [onCfl_eq hu hz, hf]
  exact State.after_eq_put rfl rfl

/-- Settles O36: each row by its function's cases, and a release by the one addition it makes. -/
theorem collectives : Obligations.Collectives := by
  unfold Obligations.Collectives
  refine ⟨fun s ch src r k x d => ⟨fun h hb ho => exec_row h rfl (cfReduce_ok hb ho),
    fun a h hb ho => exec_row h rfl (cfBcast_ok hb ho), fun h hb ho => exec_row h rfl (cfBarrier_ok hb ho),
    fun hb => ⟨fun h => exec_row_same h rfl (cfReduce_begun hb), fun h => exec_row_same h rfl (cfBcast_begun hb),
      fun h => exec_row_same h rfl (cfBarrier_begun hb)⟩⟩, ?_⟩
  intro s ch m c c3 c5 c6 k x src r core hc hu hz h3 h5
  have work : (s.work ch).c = c := hc
  rw [← hc] at hu hz
  have h3' : c3 = ((s.work ch).c.landed.takeMsg 3).rxCount m := by rw [work, h3]
  have h5' : c5 = ((s.work ch).c.landed.takeMsg 5).rxCount m := by rw [work, h5]
  refine ⟨fun hn => ?_, fun hk => ?_, ⟨?_, ?_⟩, fun hk hr hn hm => ?_⟩
  · have hn' : (s.work ch).c.collOf m = none := by rw [work, hn]
    constructor
    · refine congrArg Host.Outcome.next (onCfl_put hu hz ?_)
      rw [reductionMessage_held h3' hn', work]
    · refine congrArg Host.Outcome.next (onCfl_put hu hz ?_)
      rw [resultDown_held h5' hn', work]
  · have hk' : (s.work ch).c.collOf m = some k := by rw [work, hk]
    constructor
    · intro hx
      exact congrArg Host.Outcome.next ((onCfl_eq hu hz _).trans (congrArg _ (reductionMessage_taken h3' hk' hx)))
    · intro hx hreach
      exact congrArg Host.Outcome.next ((onCfl_eq hu hz _).trans (congrArg _ (resultDown_taken h5' hk' hx hreach)))
  · rw [h3]
    rfl
  · rw [h3]
    rfl
  · refine ⟨_, congrArg Host.Outcome.next (onCfl_eq hu hz _), fun q => ?_⟩
    rw [State.after_self]
    refine Eq.trans (skewRelease_semVal (by rw [work, hk]) (by rw [work, hr]) hn hm q) ?_
    rw [Channel.semAdd_semVal, work]

end Sys2Proof.Machine
end

