-- ==== Sys2Proof/Proofs/TrainingStart.lean ====
section
/-!
SUPPORT. The start of training and the issue of segments (10 R227 to R232): what a plan's validation reads, what a start
leaves, the admission's choice, the producer indices after an issue; the statement about them.
-/
namespace Sys2Proof.Machine

open Sys2Proof

/-! ### A plan's validation reads memory only -/

section
variable {c d : Channel}

/-- The chain of a segment is what memory holds. -/
theorem Channel.chainGo_congr (h : ∀ a n, d.rdA a n = c.rdA a n) (p : Plan) : ∀ (n : Nat) (seen : List Nat) (i : Nat),
    d.chainGo p n seen i = c.chainGo p n seen i
  | 0, _, _ => rfl
  | n + 1, seen, i => by
    have hs : d.seg p i = c.seg p i := congrArg (Seg.parse _) (h _ _)
    rw [Channel.chainGo, Channel.chainGo, hs, Channel.chainGo_congr h p n]

theorem Channel.segments_congr (h : ∀ a n, d.rdA a n = c.rdA a n) (p : Plan) (i : Nat) :
    d.segments p i = c.segments p i := Channel.chainGo_congr h p _ _ _

/-- c with another note of a start that waits. -/
def Channel.startNoted (c : Channel) (b : Bool) : Channel := { c with stp := { c.stp with ctrlOwed := b } }

theorem Channel.planOk_startNoted (c : Channel) (b : Bool) (p : Plan) : (c.startNoted b).planOk p = c.planOk p := by
  have reads : ∀ a n, (c.startNoted b).rdA a n = c.rdA a n := fun _ _ => rfl
  have segs : (c.startNoted b).segments p = c.segments p := funext fun i => Channel.segments_congr reads p i
  have oks : (c.startNoted b).segOk = c.segOk := rfl
  have regions : (c.startNoted b).regions = c.regions := rfl
  have len : (c.startNoted b).imageLen (c.startNoted b).stp.ver = c.imageLen c.stp.ver := rfl
  unfold Channel.planOk
  rw [segs, oks, regions]
  simp only [len]
  rfl
end

/-! ### The start -/

/-- d is c after writes to its memory. -/
def Written (c d : Channel) : Prop := d = { c with mem := d.mem, bad := d.bad }

namespace Written

variable {c d e : Channel}

theorem refl (c : Channel) : Written c c := rfl

theorem trans (h : Written c d) (g : Written d e) : Written c e := by
  unfold Written at *
  rw [g, h]

theorem foldl {α : Type} {f : Channel → α → Channel} (h : ∀ c a, Written c (f c a)) : ∀ (l : List α) (c : Channel),
    Written c (l.foldl f c)
  | [], c => refl c
  | a :: l, c => (h c a).trans (foldl h l (f c a))

theorem wr (c : Channel) (a : Nat) (bs : List Byte) : Written c (c.wr a bs) := rfl

theorem initRecords (c : Channel) (p : Plan) : Written c (c.initRecords p) := by
  unfold Channel.initRecords
  exact (foldl (fun c _ => wr c _ _) _ c).trans (foldl (fun c _ => wr c _ _) _ _)

end Written

/-- The channel as a plan that passes is taken. -/
def Channel.begun (c : Channel) (p : Plan) : Channel :=
  { c with
    stp := { c.stp with st := .starting, plan := some p, commits := 0 }
    gov := { c.gov with voteOwed := false }
    flt := { c.flt with ready := true, hbseq := 0 } }

/-- The records that a first start initialises. -/
def Channel.initialised (c : Channel) (p : Plan) : Channel := if c.stp.st = .idle then c.initRecords p else c

section
variable {c : Channel} {w : RegWrite} {p : Plan}

theorem trainingStart_eq (hs : c.sound) (hw : (enabledBits w 4).testBit 0 = true)
    (hp : p = Plan.parse (c.rd c.stp.planBase.toNat 64)) (hi : c.stp.st = .idle ∨ c.stp.st = .done) : trainingStart c w =
      if c.planOk p then (((c.startNoted false).initialised p).begun p).sendHb
      else { c with stp := { c.stp with planerr := true, ctrlOwed := false } } := by
  have hs' : (c.startNoted false).sound := ⟨hs.words, hs.served⟩
  have go : (((c.startNoted false).stp.st = .idle || (c.startNoted false).stp.st == .done) && (enabledBits w 4).testBit 0) = true := by
    change ((decide (c.stp.st = .idle) || c.stp.st == .done) && _) = true
    rw [hw]
    rcases hi with h | h <;> rw [h] <;> rfl
  unfold trainingStart
  dsimp only
  rw [hs.rdA, ← hp]
  refine (if_pos go).trans ((if_neg (ne_true_of_eq_false (hs'.anyStopped _))).trans ?_)
  rw [← Channel.planOk_startNoted c false p]
  rw [show (Channel.adoriRead { c with stp := { c.stp with ctrlOwed := false } } _ _) = c.startNoted false from hs'.adoriRead _ _]
  rfl

theorem trainingStart_ignored (h1 : c.stp.st ≠ .idle) (h2 : c.stp.st ≠ .done) :
    trainingStart c w = { c with stp := { c.stp with ctrlOwed := false } } := by
  unfold trainingStart
  exact if_neg (by simp [h1, h2])

theorem Written.initialised (c : Channel) (p : Plan) : Written c (c.initialised p) := by
  unfold Channel.initialised
  split
  · exact Written.initRecords c p
  · exact Written.refl c

/-- What a start leaves of the channel, and the heartbeat that tells it. -/
theorem trainingStart_ready (hr : c.flt.retired = false) :
    ∃ d, (((c.startNoted false).initialised p).begun p).sendHb = d ∧ d.stp.st = .starting ∧
      d.stp.plan = some p ∧ d.stp.commits = 0 ∧ d.flt.ready = true ∧ d.flt.hbseq = 1 ∧
      (∃ h, d.flt.sentHb = c.flt.sentHb ++ [h] ∧ h.ready = true ∧ h.hbseq = 0) ∧ d.queues = c.queues ∧
      d.sems = c.sems := by
  have wrote := Written.initialised (c.startNoted false) p
  generalize (c.startNoted false).initialised p = e at wrote
  have hr' : (e.begun p).flt.retired = false := by
    change e.flt.retired = false
    rw [wrote]
    exact hr
  have sent := Channel.sendHbBody_sent (c := e.begun p) (h := (e.begun p).heartbeat) (by exact StpSt.noConfusion) hr'
  refine ⟨_, rfl, ?_⟩
  unfold Channel.sendHb
  rw [sent]
  refine ⟨rfl, rfl, rfl, rfl, rfl, ⟨(e.begun p).heartbeat, ?_, rfl, rfl⟩, ?_, ?_⟩
  · change e.flt.sentHb ++ _ = _
    rw [wrote]
    rfl
  · change e.queues = _
    rw [wrote]
    rfl
  · change e.sems = _
    rw [wrote]
    rfl
end

theorem exec_trainingStart {s : State} {ch : Ch} {c d : Channel} {w : RegWrite} (hh : s.hostOk ch = true)
    (hc : s.chans[ch] = c) (hd : trainingStart c w = d) : exec (.trainingStart ch w) s = .next (s.put ch d) := by
  subst hc hd
  exact congrArg Host.Outcome.next (onHost_eq hh _)

/-! ### The admission -/

section
variable {c : Channel} {p : Plan} {a : Attempt} {i : Nat}

/-- The next micro-batch may issue. -/
structure Admissible (c : Channel) (p : Plan) (a : Attempt) (i : Nat) : Prop where
  plan : c.stp.plan = some p
  attempt : c.stp.att = a
  issuing : c.issuing = true
  next : a.variants.length = i
  more : i < p.mb
  issued : a.fwdIssued = i
  lag : i < p.lag ∨ c.bwdDone (i - p.lag) = true

theorem Admissible.guard (h : Admissible c p a i) : (!c.issuing || decide (p.mb ≤ i) || a.fwdIssued != i ||
    (decide (p.lag ≤ i) && !c.bwdDone (i - p.lag))) = false := by
  have lag : (decide (p.lag ≤ i) && !c.bwdDone (i - p.lag)) = false := by
    rcases h.lag with lag | done
    · rw [decide_eq_false (Nat.not_le.mpr lag), Bool.false_and]
    · rw [done, Bool.not_true, Bool.and_false]
  rw [lag, h.issuing, h.issued, decide_eq_false (Nat.not_le.mpr h.more), bne_self_eq_false]
  rfl

theorem forwardAdmission_full (h : Admissible c p a i) (hr : a.recomp = false)
    (ho : ((a.variants.drop (i + 1 - p.lag)).filter id).length < p.c) :
    forwardAdmission c = { c with stp := { c.stp with att := { a with variants := a.variants ++ [true] } } } := by
  have guard := h.guard
  unfold forwardAdmission
  rw [h.plan]
  dsimp only
  rw [h.attempt, h.next, if_neg (ne_true_of_eq_false guard), hr]
  rw [if_pos (by simp [ho]), Bool.false_and]

theorem forwardAdmission_recomputes (h : Admissible c p a i) (hr : a.recomp = false)
    (ho : p.c ≤ ((a.variants.drop (i + 1 - p.lag)).filter id).length) (hc : p.cr ≠ 0) :
    ∃ d, forwardAdmission c = d ∧ d = { c with stp := d.stp } ∧ d.stp.att.variants = a.variants ++ [false] ∧
      d.stp.att.recomp = true ∧ d.stp.recompMb = satAdd c.stp.recompMb 1 := by
  have guard := h.guard
  refine ⟨_, rfl, ?_⟩
  unfold forwardAdmission
  rw [h.plan]
  dsimp only
  rw [h.attempt, h.next, if_neg (ne_true_of_eq_false guard), hr]
  rw [if_neg (by simp [Nat.not_lt.mpr ho]), if_neg hc]
  exact ⟨rfl, rfl, rfl, rfl⟩
end

/-! ### The issue -/

section
variable {c : Channel} {p : Plan} {ss : List Seg} {i : Nat} {full : Bool}

/-- Commands that a segment puts in a queue. -/
def segCount (ss : List Seg) (q : QIdx) : Nat := ((ss.filter fun s => s.queue == q.val).map (·.count)).sum

theorem Channel.patch_queues (c : Channel) (s : Seg) (bases : Nat → Nat) : (c.patch s bases).queues = c.queues := by
  unfold Channel.patch
  split
  · rfl
  · exact foldl_keeps Channel.queues (fun c i => c.wr_queues _ _) _ _

/-- Puts commands in a ring from its producer index on. -/
def Channel.ringWrites (c : Channel) (x : Queue) (bs : List (List Byte)) : Channel :=
  bs.zipIdx.foldl (fun c (b, i) =>
    c.wr (x.base.toNat + 64 * ((x.pi + BitVec.ofNat 32 i).toNat % x.size)) b) c

theorem Channel.ringWrites_queues (c : Channel) (x : Queue) (bs : List (List Byte)) :
    (c.ringWrites x bs).queues = c.queues := foldl_keeps Channel.queues (fun c _ => c.wr_queues _ _) _ c

/-- One queue's part of an issue. -/
def Channel.fillRing (ss : List Seg) (c : Channel) (q : QIdx) : Channel :=
  let bs := (ss.filter fun s => s.queue == q.val).flatMap fun s =>
    (List.range s.count).map fun i => c.rdA (s.addr + 64 * i) 64
  if bs.isEmpty then c
  else (c.ringWrites c.queues[q] bs).modQ q fun x => { x with pi := x.pi + BitVec.ofNat 32 bs.length }

theorem Channel.issue_eq (c : Channel) (ss : List Seg) (bases : Nat → Nat) :
    c.issue ss bases = (List.finRange 160).foldl (Channel.fillRing ss) (ss.foldl (fun c s => c.patch s bases) c) := rfl

theorem segCommands_length (c : Channel) (ss : List Seg) (q : QIdx) :
    ((ss.filter fun s => s.queue == q.val).flatMap fun s =>
      (List.range s.count).map fun i => c.rdA (s.addr + 64 * i) 64).length = segCount ss q := by
  rw [List.length_flatMap]
  simp only [List.length_map, List.length_range]
  rfl

/-- A queue's producer index moves on by the commands put there. -/
theorem Channel.fillRing_self (ss : List Seg) (c : Channel) (q : QIdx) :
    (c.fillRing ss q).queues[q].pi = c.queues[q].pi + BitVec.ofNat 32 (segCount ss q) := by
  have len := segCommands_length c ss q
  unfold Channel.fillRing
  dsimp only
  split
  next he =>
    rw [← len, List.length_eq_zero_iff.mpr (List.isEmpty_iff.mp he)]
    exact (BitVec.add_zero _).symm
  next =>
    rw [Channel.modQ_self, Channel.ringWrites_queues, len]

theorem Channel.fillRing_of_ne (ss : List Seg) (c : Channel) {q k : QIdx} (h : q ≠ k) :
    (c.fillRing ss k).queues[q] = c.queues[q] := by
  unfold Channel.fillRing
  dsimp only
  split
  · rfl
  · rw [Channel.modQ_get, if_neg h, Channel.ringWrites_queues]

theorem fillRings_pi (ss : List Seg) (q : QIdx) : ∀ (l : List QIdx) (c : Channel), l.Nodup →
    (l.foldl (Channel.fillRing ss) c).queues[q].pi =
      c.queues[q].pi + if q ∈ l then BitVec.ofNat 32 (segCount ss q) else 0
  | [], c, _ => by simp
  | k :: l, c, h => by
    obtain ⟨hk, hl⟩ := List.nodup_cons.mp h
    rw [List.foldl_cons, fillRings_pi ss q l _ hl]
    by_cases hq : q = k
    · subst hq
      rw [Channel.fillRing_self, if_neg hk, if_pos List.mem_cons_self]
      exact BitVec.add_zero _
    · rw [Channel.fillRing_of_ne ss c hq]
      simp only [List.mem_cons, hq, false_or]

theorem Channel.issue_pi (c : Channel) (ss : List Seg) (bases : Nat → Nat) (q : QIdx) :
    (c.issue ss bases).queues[q].pi = c.queues[q].pi + BitVec.ofNat 32 (segCount ss q) := by
  rw [Channel.issue_eq, fillRings_pi ss q _ _ (List.nodup_finRange 160), if_pos (List.mem_finRange q),
    foldl_keeps Channel.queues (fun c s => c.patch_queues s bases)]

theorem segmentIssue_fwd (hs : c.sound) (hp : c.stp.plan = some p) (hi : c.issuing = true)
    (hv : c.stp.att.variants[i]? = some full) (hn : c.stp.att.fwdIssued = i)
    (hg : c.segments p (4 * i + (if full then 0 else 1)) = some ss)
    (hf : (c.entryOf i full (if full then p.c else p.cr)).2 = true) (hr : c.roomFor ss = true) :
    ∃ d, Issued c d ∧ (∀ q : QIdx, d.queues[q].pi = c.queues[q].pi + BitVec.ofNat 32 (segCount ss q)) ∧
      segmentIssue c .fwd = { d with stp := { d.stp with att := { d.stp.att with fwdIssued := i + 1 } } } := by
  refine ⟨c.issue ss (c.bases p i full), Issued.issue c ss _, c.issue_pi ss _, ?_⟩
  unfold segmentIssue
  rw [hp]
  dsimp only
  rw [hn, hv]
  dsimp only
  rw [Nat.add_zero, hg]
  dsimp only
  rw [if_neg (by rw [hi, hf, hr]; exact Bool.false_ne_true), hs.adori]

theorem segmentIssue_bwd (hs : c.sound) (hp : c.stp.plan = some p) (hi : c.issuing = true)
    (hv : c.stp.att.variants[i]? = some full) (hn : c.stp.att.bwdIssued = i)
    (hg : c.segments p (4 * i + 2 + (if full then 0 else 1)) = some ss) (hr : c.roomFor ss = true) :
    (segmentIssue c .bwd).stp.att.bwdIssued = i + 1 ∧ (segmentIssue c .bwd).stp.att.fwdIssued = c.stp.att.fwdIssued := by
  have issued := Issued.issue c ss (c.bases p i full)
  unfold segmentIssue
  rw [hp]
  dsimp only
  rw [hn, hv]
  dsimp only
  rw [hg]
  dsimp only
  rw [if_neg (by rw [hi, hr]; exact Bool.false_ne_true), hs.adori]
  refine ⟨rfl, ?_⟩
  dsimp only
  rw [issued.stp]

theorem segmentIssue_full (hp : c.stp.plan = some p) (hv : c.stp.att.variants[i]? = some full)
    (hn : c.stp.att.fwdIssued = i) (hg : c.segments p (4 * i + (if full then 0 else 1)) = some ss)
    (hr : c.roomFor ss = false) : segmentIssue c .fwd = c := by
  unfold segmentIssue
  rw [hp]
  dsimp only
  rw [hn, hv]
  dsimp only
  rw [Nat.add_zero, hg]
  dsimp only
  rw [if_pos (by rw [hr, Bool.not_false, Bool.or_true])]
end

/-- Settles O38: each row by the guards that its hypotheses pass. -/
theorem trainingAndSegments : Obligations.TrainingAndSegments := by
  unfold Obligations.TrainingAndSegments
  refine ⟨fun s ch w c p hh hc hs hw hp => ⟨fun hi => ⟨fun hr hk => ?_, fun hk => ?_⟩, fun h1 h2 => ?_⟩, ?_⟩
  · obtain ⟨d, hd, left⟩ := trainingStart_ready (c := c) (p := p) hr
    refine ⟨d, ?_, left⟩
    have row := trainingStart_eq hs hw hp hi
    rw [if_pos hk, hd] at row
    exact exec_trainingStart hh hc row
  · have row := trainingStart_eq hs hw hp hi
    rw [if_neg (ne_true_of_eq_false hk)] at row
    exact exec_trainingStart hh hc row
  · exact exec_trainingStart hh hc (trainingStart_ignored h1 h2)
  · intro s ch c p a i ss hc hu hs hp ha hi
    subst ha
    refine ⟨fun h1 h2 h3 h4 => ?_, fun full hv hn hg hf hr => ?_, fun full hv hn hg hr => ?_, fun full hv hn hg hr => ?_⟩
    · have adm : Admissible c p c.stp.att i := ⟨hp, rfl, hi, h1, h2, h3, h4⟩
      refine ⟨fun hr ho => exec_modUp hc hu rfl (forwardAdmission_full adm hr ho), fun hr ho hz => ?_⟩
      obtain ⟨d, row, left⟩ := forwardAdmission_recomputes adm hr ho hz
      exact ⟨d, exec_modUp hc hu rfl row, left⟩
    · obtain ⟨d, issued, pis, row⟩ := segmentIssue_fwd hs hp hi hv hn hg hf hr
      refine ⟨_, exec_modUp hc hu rfl row, ?_, pis⟩
      dsimp only
      rw [issued.stp]
    · exact ⟨_, exec_modUp hc hu rfl rfl, segmentIssue_bwd hs hp hi hv hn hg hr⟩
    · exact exec_modUp_same hc hu rfl (segmentIssue_full hp hv hn hg hr)

end Sys2Proof.Machine
end

