-- ==== Sys2Proof/Proofs/Heartbeats.lean ====
section
/-!
SUPPORT. Heartbeats and their replies (16 R357 to R359, R362, 15 R350): what a send leaves of a member that waits for nothing,
what a manager hears, whom a reply makes a channel follow, and the statement about them.
-/
namespace Sys2Proof.Machine

open Sys2Proof

/-! ### Sending -/

/-- A member that waits for nothing sends its heartbeat and no more. -/
theorem heartbeatSend_plain {w : Wk} (ht : w.c.inTraining = true) (hs : w.c.stp.skipPending = none)
    (ho : w.c.stp.startOwed = false) (hr : w.c.stp.st ≠ .rollback) : heartbeatSend w = { w with c := w.c.sendHb } := by
  have skip : w.goOnSkip = w := by
    unfold Wk.goOnSkip
    rw [hs]
  have ready : w.c.goOnReady = w.c := if_neg (by simp [hr])
  have recover : w.recover = w := by
    unfold Wk.recover
    dsimp only
    rw [if_neg (by simp [hr]), ready]
  have start : w.c.goOnStart = w.c := if_neg (by simp [ho])
  unfold heartbeatSend
  rw [if_pos ht, skip, recover]
  dsimp only
  rw [start]

theorem Channel.inTraining_not_done {c : Channel} (h : c.inTraining = true) : c.stp.st ≠ .done := by
  intro hd
  unfold Channel.inTraining Channel.training at h
  rw [hd] at h
  exact Bool.false_ne_true h

/-! ### Hearing -/

/-- A member is named once more as a straggler. -/
def Mgr.strag (g : Mgr) (x : W32) : Mgr :=
  g.modEntry (BitVec.ofNat 16 (bits x.toNat 31 16)) fun e => { e with stragn := satAdd e.stragn 1 }

theorem Mgr.strags_mem : ∀ (xs : List W32) (g : Mgr) {y : MemberEntry}, y ∈ g.table →
    ∃ n, { y with stragn := n } ∈ (xs.foldl Mgr.strag g).table
  | [], _, y, hy => ⟨y.stragn, hy⟩
  | x :: xs, g, y, hy => by
    by_cases hx : y.chan = BitVec.ofNat 16 (bits x.toNat 31 16)
    · exact Mgr.strags_mem xs (g.strag x) (y := { y with stragn := satAdd y.stragn 1 }) (List.mem_map.mpr ⟨y, hy, if_pos hx⟩)
    · exact Mgr.strags_mem xs (g.strag x) (List.mem_map.mpr ⟨y, hy, if_neg hx⟩)

/-- The stragglers that a heartbeat names anew to a manager. -/
def Mgr.namesOf (g : Mgr) (h : Heartbeat) : List W32 :=
  match g.table.find? fun e => e.chan == h.chan with
  | some e => e.names h
  | none => []

/-- A manager has heard a heartbeat, which names stragglers. -/
def Mgr.hears (g : Mgr) (h : Heartbeat) (named : List W32) : Mgr :=
  named.foldl Mgr.strag (g.modEntry h.chan fun e => e.hear h)

theorem Mgr.hears_mem {g : Mgr} {h : Heartbeat} {e : MemberEntry} (he : e ∈ g.table) (hx : e.chan = h.chan) (named : List W32) :
    ∃ n, { e.hear h with stragn := n } ∈ (g.hears h named).table :=
  Mgr.strags_mem _ _ (List.mem_map.mpr ⟨e, he, if_pos hx⟩)

/-- What an acting manager does about a heartbeat that it has heard. -/
def Channel.answer (c : Channel) (l : MgrLevel) (h : Heartbeat) (unknown : Bool) : Channel :=
  let x := h.about.getD h.chan
  let c :=
    if unknown then c
    else if h.fault then c.managerFault l x h.fclass h.lasting
    else if h.degraded then (c.modMgr l fun g => g.plan (modOf x)).passUp l x .degraded h.fclass
    else c
  let tok := match (c.mgr l).latest with | some (t, _) => tokenBytes t | none => List.replicate 32 0
  let c := c.sendCtl h.chan (hbBytes { c.heartbeat with mgen := c.gen l, standby := (c.mgr l).standbyChan, failed := (c.mgr l).reported } ++ tok)
  c.tryStart l

section
variable {c : Channel} {l : MgrLevel} {h : Heartbeat}

theorem Stirs.of_sent {c d : Channel} (h : Sent c d) : Stirs l c d :=
  ⟨Ruled.of_led (Led.of_sent h), fun k _ => h.mgr k, by rw [h.mgr l]⟩

/-- An answer leaves the table, and a fault has been seen. -/
theorem Channel.answer_heard (c : Channel) (l : MgrLevel) (h : Heartbeat) (b : Bool) :
    ((c.answer l h b).mgr l).table = (c.mgr l).table ∧ (h.fault = true → b = false → ((c.answer l h b).mgr l).faultSeen = true) := by
  have ends (d : Channel) (x : ChanId) (body : List Byte) : Stirs l d ((d.sendCtl x body).tryStart l) :=
    (Stirs.of_sent (Sent.sendCtl _ _ _)).trans (Stirs.tryStart _)
  unfold Channel.answer
  dsimp only
  rw [(ends _ _ _).table, (ends _ _ _).faultSeen]
  cases b with
  | true => exact ⟨rfl, fun _ hb => absurd hb Bool.noConfusion⟩
  | false =>
    rw [if_neg Bool.false_ne_true]
    split
    next hf =>
      obtain ⟨rem, stirs⟩ := c.managerFault_stirs l (h.about.getD h.chan) h.fclass h.lasting
      rw [stirs.table, stirs.faultSeen, Channel.modMgr_self]
      exact ⟨rfl, fun _ _ => rfl⟩
    next hf =>
      refine ⟨?_, fun hf' => absurd hf' hf⟩
      split
      · rw [(Stirs.passUp _ _ _ _).table, Channel.modMgr_self]
        rfl
      · rfl

theorem Channel.takeMsg_mgr (c : Channel) (t : Byte) (l : MgrLevel) : (c.takeMsg t).mgr l = c.mgr l := by
  cases l <;> rfl

theorem Channel.takeMsg_gen (c : Channel) (t : Byte) (l : MgrLevel) : (c.takeMsg t).gen l = c.gen l := by
  cases l <;> rfl

theorem heartbeatReceive_idle (hg : h.mgen.toNat ≤ (c.gen l).toNat) (ha : (c.mgr l).acting = false)
    (hs : (c.mgr l).standby = false) : heartbeatReceive c l h = c.takeMsg 4 := by
  have yields : (c.takeMsg 4).yieldTo l h.mgen = c.takeMsg 4 := if_neg (by rw [Channel.takeMsg_gen]; omega)
  unfold heartbeatReceive
  dsimp only
  rw [yields, Channel.takeMsg_mgr, ha, hs]
  exact if_pos rfl

theorem heartbeatReceive_acts (hg : h.mgen.toNat ≤ (c.gen l).toNat) (ha : (c.mgr l).acting = true)
    (hm : l = .drift ∨ h.chan ∈ c.directMembers .field) : heartbeatReceive c l h =
      ((c.takeMsg 4).modMgr l fun g => g.hears h ((c.mgr l).namesOf h)).answer l h
        ((c.mgr l).table.find? fun e => e.chan == h.chan).isNone := by
  have yields : (c.takeMsg 4).yieldTo l h.mgen = c.takeMsg 4 := if_neg (by rw [Channel.takeMsg_gen]; omega)
  have known : (decide (l = .drift) || ((c.takeMsg 4).directMembers .field).contains h.chan) = true := by
    rcases hm with hm | hm
    · rw [decide_eq_true hm, Bool.true_or]
    · rw [show ((c.takeMsg 4).directMembers .field).contains h.chan = true from List.contains_iff_mem.mpr hm, Bool.or_true]
  have succeeds : (c.takeMsg 4).succeed l h.chan = c.takeMsg 4 := by
    unfold Channel.succeed
    exact if_pos known
  unfold heartbeatReceive
  dsimp only
  rw [yields, succeeds, Channel.takeMsg_mgr, ha]
  exact (if_neg Bool.false_ne_true).trans (if_neg Bool.false_ne_true)

theorem heartbeatReceive_entry {e : MemberEntry} (hg : h.mgen.toNat ≤ (c.gen l).toNat) (ha : (c.mgr l).acting = true)
    (hm : l = .drift ∨ h.chan ∈ c.directMembers .field) (he : e ∈ (c.mgr l).table) (hx : e.chan = h.chan) :
    (∃ n, { e.hear h with stragn := n } ∈ ((heartbeatReceive c l h).mgr l).table) ∧
      (h.fault = true → ((heartbeatReceive c l h).mgr l).faultSeen = true) := by
  have found : ((c.mgr l).table.find? fun e => e.chan == h.chan).isNone = false := by
    rw [Option.isNone_eq_false_iff, List.find?_isSome]
    exact ⟨e, he, beq_iff_eq.mpr hx⟩
  rw [heartbeatReceive_acts hg ha hm, found]
  obtain ⟨table, seen⟩ := Channel.answer_heard ((c.takeMsg 4).modMgr l fun g => g.hears h ((c.mgr l).namesOf h)) l h false
  rw [table, Channel.modMgr_self, Channel.takeMsg_mgr]
  exact ⟨Mgr.hears_mem he hx _, fun hf => seen hf rfl⟩
end

/-! ### Replies -/

/-- A reply that reports failures ends collectives: it changes running commands and what is in flight. -/
theorem Wk.leafFailed_rest (w : Wk) (h : Heartbeat) : (w.leafFailed h).c =
    { w.c with running := (w.leafFailed h).c.running, ports := (w.leafFailed h).c.ports } := by
  have ends : ∀ (l : List Collective) (w : Wk), (l.foldl (fun w k => w.endSender k.src 0x17) w).c =
      { w.c with
        running := (l.foldl (fun w k => w.endSender k.src 0x17) w).c.running
        ports := (l.foldl (fun w k => w.endSender k.src 0x17) w).c.ports } := by
    intro l
    induction l with
    | nil => exact fun _ => rfl
    | cons k l ih =>
      intro w
      rw [List.foldl_cons, ih, Wk.endSender_rest]
  exact ends _ _

theorem Wk.leafFailed_one {w : Wk} {h : Heartbeat} {k : Collective} {z : ChanId} (hk : w.c.colls = [k]) (hz : z ∈ k.leaves)
    (hf : z ∈ h.failed ∨ (h.fault = true ∧ h.lasting = true ∧ z = h.chan)) : w.leafFailed h = w.endSender k.src 0x17 := by
  have out : z ∈ h.failed ++ if h.fault && h.lasting then [h.chan] else [] := by
    rw [List.mem_append]
    refine hf.imp id fun ⟨fault, lasting, hz⟩ => ?_
    rw [fault, lasting, hz]
    exact List.mem_singleton.mpr rfl
  have one : ([k].filter fun k => k.leaves.any (h.failed ++ if h.fault && h.lasting then [h.chan] else []).contains) = [k] := by
    exact List.filter_eq_self.mpr fun x hx =>
      List.any_eq_true.mpr ⟨z, by rw [List.mem_singleton.mp hx]; exact hz, List.contains_iff_mem.mpr out⟩
  unfold Wk.leafFailed
  dsimp only
  rw [hk, one]
  rfl

section
variable {c : Channel} {h : Heartbeat} {a : Above}

/-- d is c with other registers of faults and managers. -/
def FltOnly (c d : Channel) : Prop := d = { c with flt := d.flt }

theorem FltOnly.withFlt {d : Channel} (h : FltOnly c d) (f : Flt) : FltOnly c { d with flt := f } := by
  unfold FltOnly at *
  rw [h]

theorem FltOnly.follow (c : Channel) (l : MgrLevel) (g : W32) (x : ChanId) : FltOnly c ((c.yieldTo l g).follow l g x) := by
  unfold Channel.yieldTo Channel.follow
  cases l with
  | drift =>
    dsimp only
    split <;> rfl
  | field =>
    dsimp only
    split <;> rfl

theorem FltOnly.ite {p : Prop} [Decidable p] {d : Channel} (h : FltOnly c d) : FltOnly c (if p then d else c) := by
  split
  · exact h
  · rfl

/-- A reply changes the registers of faults and managers alone, and tells NOGROUP to a channel in rollback. -/
theorem Channel.takeReply_flt (c : Channel) (a : Above) (h : Heartbeat) : ∃ f : Flt, c.takeReply a h =
    { c with flt := { f with nogroup := f.nogroup || (h.nogroup && c.stp.st == StpSt.rollback) } } := by
  have taken (d : Channel) (hd : FltOnly c d) : ∃ f : Flt,
      { d with flt := { d.flt with nogroup := d.flt.nogroup || (h.nogroup && d.stp.st == StpSt.rollback) } } =
      { c with flt := { f with nogroup := f.nogroup || (h.nogroup && c.stp.st == StpSt.rollback) } } := by
    refine ⟨d.flt, ?_⟩
    rw [hd]
  unfold Channel.takeReply
  dsimp only
  refine taken _ ?_
  cases a with
  | top =>
    have top := (FltOnly.withFlt (c := c) (d := c) rfl { c.flt with tgen := h.mgen, topChan := some h.chan, topSb := none }).ite
      (p := (decide ((c.genOf .top).toNat < h.mgen.toNat) || h.mgen == c.genOf .top && h.chan != c.above .field) = true)
    cases h.standby with
    | none => exact top
    | some x => exact top.withFlt _
  | level l =>
    have level := (FltOnly.follow c l h.mgen h.chan).ite
      (p := (decide ((c.genOf (.level l)).toNat < h.mgen.toNat) || h.mgen == c.genOf (.level l) && h.chan != c.managerOf l) = true)
    cases h.standby with
    | none => cases l <;> exact level
    | some x =>
      cases l with
      | drift => exact level.withFlt _
      | field => exact level.withFlt _

theorem Channel.takeReply_newer (hn : (c.genOf a).toNat < h.mgen.toNat) :
    (a = .level .drift → (c.takeReply a h).flt.mgen = h.mgen ∧ (c.takeReply a h).flt.mgrChan = some h.chan ∧
      (c.takeReply a h).flt.drift.acting = false) ∧
    (a = .level .field → (c.takeReply a h).flt.fgen = h.mgen ∧ (c.takeReply a h).flt.fmgrChan = some h.chan ∧
      (c.takeReply a h).flt.field.acting = false) ∧
    (a = .top → (c.takeReply a h).flt.tgen = h.mgen ∧ (c.takeReply a h).flt.topChan = some h.chan) := by
  refine ⟨?_, ?_, ?_⟩
  · rintro rfl
    have hn' : c.flt.mgen.toNat < h.mgen.toNat := hn
    cases hs : h.standby <;> simp [Channel.takeReply, Channel.yieldTo, Channel.gen, Channel.genOf, hs, hn', Channel.follow, Channel.modMgr]
  · rintro rfl
    have hn' : c.flt.fgen.toNat < h.mgen.toNat := hn
    cases hs : h.standby <;> simp [Channel.takeReply, Channel.yieldTo, Channel.gen, Channel.genOf, hs, hn', Channel.follow, Channel.modMgr]
  · rintro rfl
    have hn' : c.flt.tgen.toNat < h.mgen.toNat := hn
    cases hs : h.standby <;> simp [Channel.takeReply, Channel.genOf, hs, hn']

theorem Channel.takeReply_standby {z : ChanId} (hs : h.standby = some z) :
    (a = .level .drift → (c.takeReply a h).flt.sbChan = some z) ∧
    (a = .level .field → (c.takeReply a h).flt.fsbChan = some z) ∧
    (a = .top → (c.takeReply a h).flt.topSb = some z) := by
  unfold Channel.takeReply
  dsimp only
  rw [hs]
  exact ⟨by rintro rfl; rfl, by rintro rfl; rfl, by rintro rfl; rfl⟩

theorem Channel.takeReply_nogroup (hn : h.nogroup = true) (hst : c.stp.st = .rollback) : (c.takeReply a h).flt.nogroup = true := by
  obtain ⟨f, e⟩ := c.takeReply_flt a h
  rw [e]
  dsimp only
  rw [hn, hst]
  exact Bool.or_true _

theorem Channel.takeReply_findRun (c : Channel) (a : Above) (h : Heartbeat) (src : Src) :
    (c.takeReply a h).findRun src = c.findRun src := by
  obtain ⟨f, e⟩ := c.takeReply_flt a h
  rw [e]
  rfl

/-- A reply of the manager that is followed tells nothing new. -/
theorem Channel.takeReply_same (hg : h.mgen = c.genOf a) (hs : h.standby = none) (hn : h.nogroup = false)
    (hl : ∀ l, a = .level l → h.chan = c.managerOf l) (ht : a = .top → h.chan = c.above .field) : c.takeReply a h = c := by
  have old (x : ChanId) (hx : h.chan = x) :
      (decide ((c.genOf a).toNat < h.mgen.toNat) || h.mgen == c.genOf a && h.chan != x) = false := by
    rw [hg, hx, decide_eq_false (lt_irrefl _), bne_self_eq_false, Bool.and_false, Bool.false_or]
  have quiet (d : Channel) : ({ d with flt := { d.flt with nogroup := d.flt.nogroup || (h.nogroup && d.stp.st == .rollback) } }
      : Channel) = d := by
    rw [hn, Bool.false_and, Bool.or_false]
  unfold Channel.takeReply
  dsimp only
  cases a with
  | top =>
    rw [if_neg (ne_true_of_eq_false (old _ (ht rfl))), hs]
    exact quiet c
  | level l =>
    dsimp only
    rw [if_neg (ne_true_of_eq_false (old _ (hl l rfl))), hs]
    cases l <;> exact quiet c

variable {w : Wk} {m : Membership}

/-- What a reply finds once the collectives with a failed leaf have ended. -/
structure Replied (w v : Wk) (h : Heartbeat) : Prop where
  done : v = Wk.leafFailed { w with c := w.c.takeMsg 4 } h
  gen : v.c.genOf = w.c.genOf
  managerOf : v.c.managerOf = w.c.managerOf
  above : v.c.above = w.c.above
  mgr : v.c.mgr = w.c.mgr
  stp : v.c.stp = w.c.stp

theorem Replied.leafFailed (w : Wk) (h : Heartbeat) : Replied w (Wk.leafFailed { w with c := w.c.takeMsg 4 } h) h := by
  have rest := Wk.leafFailed_rest { w with c := w.c.takeMsg 4 } h
  have flt : (Wk.leafFailed { w with c := w.c.takeMsg 4 } h).c.flt = w.c.flt := by rw [rest]; rfl
  have boot : (Wk.leafFailed { w with c := w.c.takeMsg 4 } h).c.boot = w.c.boot := by rw [rest]; rfl
  refine ⟨rfl, funext fun a => ?_, funext fun l => ?_, funext fun l => ?_, funext fun l => ?_, ?_⟩
  · cases a with
    | top => exact congrArg Flt.tgen flt
    | level l =>
      cases l with
      | drift => exact congrArg Flt.mgen flt
      | field => exact congrArg Flt.fgen flt
  · unfold Channel.managerOf
    rw [flt, boot]
  · unfold Channel.above Channel.chid
    rw [flt, boot]
  · unfold Channel.mgr
    rw [flt]
  · rw [rest]
    rfl

theorem Channel.takeMsg_genOf (c : Channel) (t : Byte) (a : Above) : (c.takeMsg t).genOf a = c.genOf a := by
  cases a with
  | top => rfl
  | level l => cases l <;> rfl

theorem Channel.takeMsg_replyFrom (c : Channel) (t : Byte) (x : ChanId) : (c.takeMsg t).replyFrom x = c.replyFrom x := by
  unfold Channel.replyFrom
  rfl

theorem heartbeatReply_stale {t : Option Token} (hg : h.mgen.toNat < (w.c.genOf (w.c.replyFrom h.chan)).toNat) :
    heartbeatReply w h t m = { w with c := w.c.takeMsg 4 } := by
  unfold heartbeatReply
  dsimp only
  rw [Channel.takeMsg_replyFrom, Channel.takeMsg_genOf]
  exact if_pos hg

/-- A reply that is no older than what is followed, without a token. -/
theorem heartbeatReply_none (hg : (w.c.genOf (w.c.replyFrom h.chan)).toNat ≤ h.mgen.toNat) :
    heartbeatReply w h none m = { Wk.leafFailed { w with c := w.c.takeMsg 4 } h with
      c := (Wk.leafFailed { w with c := w.c.takeMsg 4 } h).c.takeReply (w.c.replyFrom h.chan) h } := by
  unfold heartbeatReply
  dsimp only
  rw [Channel.takeMsg_replyFrom, Channel.takeMsg_genOf]
  exact if_neg (Nat.not_lt.mpr hg)

/-- A START in a reply that tells nothing else new. -/
theorem heartbeatReply_start {t : Token} (hg : h.mgen = w.c.genOf (w.c.replyFrom h.chan)) (ht : t.kind = .start)
    (hd : w.c.flt.drift.standby = false) (hf : w.c.flt.field.standby = false) (hs : h.standby = none) (hn : h.nogroup = false)
    (hl : ∀ l, w.c.replyFrom h.chan = .level l → h.chan = w.c.managerOf l)
    (htop : w.c.replyFrom h.chan = .top → h.chan = w.c.above .field) :
    heartbeatReply w h (some t) m = startToken (Wk.leafFailed { w with c := w.c.takeMsg 4 } h) t m := by
  have left := Replied.leafFailed w h
  have same := Channel.takeReply_same (c := (Wk.leafFailed { w with c := w.c.takeMsg 4 } h).c) (h := h)
    (a := w.c.replyFrom h.chan) (by rw [left.gen]; exact hg) hs hn (by rw [left.managerOf]; exact hl) (by rw [left.above]; exact htop)
  have retires (c : Channel) : c.retireAfter (some t) = c := if_neg (by rw [ht]; simp)
  have drift : ((Wk.leafFailed { w with c := w.c.takeMsg 4 } h).c.mgr .drift).standby = false := by rw [left.mgr]; exact hd
  have field : ((Wk.leafFailed { w with c := w.c.takeMsg 4 } h).c.mgr .field).standby = false := by rw [left.mgr]; exact hf
  unfold heartbeatReply
  dsimp only
  rw [Channel.takeMsg_replyFrom, Channel.takeMsg_genOf]
  refine (if_neg (by rw [hg]; exact lt_irrefl _)).trans ?_
  rw [same, retires, ht, drift, Bool.false_and, if_neg Bool.false_ne_true, field, Bool.false_and, if_neg Bool.false_ne_true]


/-- A collective with a failed leaf has ended, and the reply leaves that. -/
theorem Wk.leafFailed_status {w : Wk} {k : Collective} {z : ChanId} {r : Running} (a : Above) (hk : w.c.colls = [k])
    (hz : z ∈ k.leaves) (hf : z ∈ h.failed ∨ (h.fault = true ∧ h.lasting = true ∧ z = h.chan))
    (hr : w.c.findRun k.src = some r) (hn : r.result = none) : ∃ x q,
      ((Wk.leafFailed { w with c := w.c.takeMsg 4 } h).c.takeReply a h).findRun k.src = some x ∧ x.result = some q ∧
        q.status = 0x17 := by
  rw [Channel.takeReply_findRun, Wk.leafFailed_one (w := { w with c := w.c.takeMsg 4 }) hk hz hf]
  obtain ⟨x, found, status⟩ := Wk.endSender_status (w := { w with c := w.c.takeMsg 4 }) (st := 0x17) hr hn
  obtain ⟨q, hq, hs⟩ := Option.map_eq_some_iff.mp status
  exact ⟨x, q, found, hq, hs⟩
end

section
variable {s : State} {ch : Ch} {c : Channel} {h : Heartbeat} {t : Option Token} {m : Membership}

theorem exec_heartbeatReply (hc : s.chans[ch] = c) (hu : c.up = true) :
    exec (.heartbeatReply ch h t m) s = .next (s.after ch (heartbeatReply (s.work ch) h t m)) := by
  subst hc
  exact congrArg Host.Outcome.next (onUp_eq hu _)
end

/-- Settles O44: a send by `heartbeatSend_plain`, a manager's hearing by its entry, a reply by what it tells of the managers. -/
theorem heartbeats : Obligations.Heartbeats := by
  unfold Obligations.Heartbeats
  rintro s ch c l h t mem m e k r z hc hu rfl
  have work : (s.work ch).c = c := hc
  refine ⟨fun ht hs ho hr hst => ?_, fun ht => exec_onUp_same hc hu rfl (if_neg ?_), fun hz => exec_duty_frozen hc hu rfl hz,
    fun hz hg => ⟨fun ha he hx hab hm _ => ?_, fun ha hs => exec_duty hc hu rfl hz (heartbeatReceive_idle hg ha hs)⟩,
    fun hg => exec_onUp hc hu rfl ?_, fun hg => ?_, fun hg => ⟨?_, fun hk hz hf hr hn => ?_, fun hd hf hs hn ht hl htop => ?_⟩⟩
  · have plain := heartbeatSend_plain (w := s.work ch) (by rw [work]; exact ht) (by rw [work]; exact hs) (by rw [work]; exact ho)
      (by rw [work]; exact hst)
    rw [work] at plain
    refine ⟨_, exec_onUp hc hu rfl plain, ?_⟩
    rw [Channel.sendHb, Channel.sendHbBody_sent (Channel.inTraining_not_done ht) hr]
    exact ⟨rfl, rfl, rfl, rfl⟩
  · rw [work, ht]
    exact Bool.false_ne_true
  · obtain ⟨⟨n, hy⟩, seen⟩ := heartbeatReceive_entry hg ha hm he hx
    refine ⟨_, exec_duty hc hu rfl hz rfl, ⟨_, hy, ?_⟩, seen⟩
    unfold MemberEntry.hear
    rw [hab]
    exact ⟨hx, rfl, rfl, rfl, rfl, rfl, rfl, rfl, rfl⟩
  · rw [heartbeatReply_stale (by rw [work]; exact hg), work]
  · have newer := Channel.takeReply_newer (c := (Wk.leafFailed { s.work ch with c := (s.work ch).c.takeMsg 4 } h).c) (h := h)
      (a := c.replyFrom h.chan) (by rw [(Replied.leafFailed (s.work ch) h).gen, work]; exact hg)
    rw [exec_heartbeatReply hc hu, heartbeatReply_none (by rw [work]; exact hg.le)]
    refine ⟨_, rfl, ?_⟩
    rw [work] at newer ⊢
    exact newer
  · rw [exec_heartbeatReply hc hu, heartbeatReply_none (by rw [work, hg])]
    refine ⟨_, rfl, ?_⟩
    rw [work]
    refine ⟨fun ha hs => (Channel.takeReply_standby hs).1 ha, fun ha hs => (Channel.takeReply_standby hs).2.1 ha,
      fun ha hs => (Channel.takeReply_standby hs).2.2 ha, fun hn hst => Channel.takeReply_nogroup hn ?_⟩
    have stp := (Replied.leafFailed (s.work ch) h).stp
    rw [work] at stp
    rw [stp]
    exact hst
  · obtain ⟨x, q, found, ended⟩ := Wk.leafFailed_status (w := s.work ch) (h := h) ((s.work ch).c.replyFrom h.chan)
      (by rw [work]; exact hk) hz hf (by rw [work]; exact hr) hn
    rw [exec_heartbeatReply hc hu, heartbeatReply_none (by rw [work, hg])]
    exact ⟨_, x, q, rfl, found, ended⟩
  · rw [exec_heartbeatReply hc hu, heartbeatReply_start (by rw [work]; exact hg) ht (by rw [work]; exact hd) (by rw [work]; exact hf) hs hn
      (by rw [work]; exact hl) (by rw [work]; exact htop), work]

end Sys2Proof.Machine
end

