-- ==== Sys2Proof/Proofs/KeptByWork.lean ====
section
/-!
SUPPORT. What the work of tokens leaves of a channel (10 R241, 16 R371): `Stays` says that the training state, the step, the
membership, the governor and the stacks' accesses are as they were, `Kept` that Moraine is paused or not as before, too.
-/
namespace Sys2Proof.Machine

open Sys2Proof

/-- d is c but for memory, commands, messages, engines and time. -/
structure Stays (c d : Channel) : Prop where
  boot : d.boot = c.boot
  stp : d.stp = c.stp
  abl : d.abl = c.abl
  cfl : d.cfl = c.cfl
  step : d.nmon.step = c.nmon.step
  gov : d.gov = { c.gov with time := d.gov.time }
  overtemp : ∀ i : Stack, d.stk[i].overtemp = c.stk[i].overtemp
  members : d.flt.members = c.flt.members
  removed : d.flt.removed = c.flt.removed
  quiesced : d.flt.quiesced = c.flt.quiesced
  catchUp : d.flt.catchUp = c.flt.catchUp

namespace Stays

variable {c d e : Channel}

theorem refl (c : Channel) : Stays c c := ⟨rfl, rfl, rfl, rfl, rfl, rfl, fun _ => rfl, rfl, rfl, rfl, rfl⟩

theorem trans (h : Stays c d) (g : Stays d e) : Stays c e := by
  refine ⟨g.boot.trans h.boot, g.stp.trans h.stp, g.abl.trans h.abl, g.cfl.trans h.cfl, g.step.trans h.step, ?_,
    fun i => (g.overtemp i).trans (h.overtemp i), g.members.trans h.members, g.removed.trans h.removed,
    g.quiesced.trans h.quiesced, g.catchUp.trans h.catchUp⟩
  rw [g.gov, h.gov]

theorem foldl {α : Type} {f : Channel → α → Channel} (h : ∀ c a, Stays c (f c a)) : ∀ (l : List α) (c : Channel),
    Stays c (l.foldl f c)
  | [], c => refl c
  | a :: l, c => (h c a).trans (foldl h l (f c a))

theorem outside (h : Stays c d) (m : Membership) : d.outside m = c.outside m := by
  unfold Channel.outside Channel.chid
  rw [h.boot]

end Stays

/-- Besides, every Moraine is paused or not as before. -/
structure Kept (c d : Channel) : Prop where
  stays : Stays c d
  pause : ∀ k : Core, d.cores[k].mor.pause = c.cores[k].mor.pause

namespace Kept

variable {c d e : Channel}

theorem refl (c : Channel) : Kept c c := ⟨Stays.refl c, fun _ => rfl⟩

theorem trans (h : Kept c d) (g : Kept d e) : Kept c e :=
  ⟨h.stays.trans g.stays, fun k => (g.pause k).trans (h.pause k)⟩

theorem ite {p : Prop} [Decidable p] (h : p → Kept c d) (g : ¬p → Kept c e) : Kept c (if p then d else e) := by
  split
  · exact h ‹_›
  · exact g ‹_›

theorem foldl {α : Type} {f : Channel → α → Channel} (h : ∀ c a, Kept c (f c a)) : ∀ (l : List α) (c : Channel),
    Kept c (l.foldl f c)
  | [], c => refl c
  | a :: l, c => (h c a).trans (foldl h l (f c a))

theorem foldlWk {α : Type} {f : Wk → α → Wk} (h : ∀ w a, Kept w.c (f w a).c) : ∀ (l : List α) (w : Wk),
    Kept w.c (l.foldl f w).c
  | [], w => refl w.c
  | a :: l, w => (h w a).trans (foldlWk h l (f w a))

/-! ### Operations that do not touch these parts -/

theorem aside (boot : d.boot = c.boot) (stp : d.stp = c.stp) (abl : d.abl = c.abl) (cfl : d.cfl = c.cfl) (nmon : d.nmon = c.nmon) (gov : d.gov = c.gov)
    (stk : d.stk = c.stk) (flt : d.flt = c.flt) (cores : d.cores = c.cores) : Kept c d := by
  refine ⟨⟨boot, stp, abl, cfl, by rw [nmon], by rw [gov], fun i => by rw [stk], ?_, ?_, ?_, ?_⟩, fun k => by rw [cores]⟩ <;> rw [flt]

theorem of_written (h : Written c d) : Kept c d := by
  apply aside <;> rw [h]

theorem of_touched (h : Touched c d) : Kept c d := by
  apply aside <;> rw [h]

theorem of_sent (h : Sent c d) : Kept c d := by
  apply aside <;> rw [h]

theorem wr (c : Channel) (a : Nat) (bs : List Byte) : Kept c (c.wr a bs) := of_written (Written.wr c a bs)
theorem wrN (c : Channel) (a n v : Nat) : Kept c (c.wrN a n v) := wr c a _
theorem landed (c : Channel) : Kept c c.landed := aside rfl rfl rfl rfl rfl rfl rfl rfl rfl
theorem modQ (c : Channel) (q : QIdx) (f : Queue → Queue) : Kept c (c.modQ q f) := aside rfl rfl rfl rfl rfl rfl rfl rfl rfl
theorem modPort (c : Channel) (p : Port) (f : PortState → PortState) : Kept c (c.modPort p f) := aside rfl rfl rfl rfl rfl rfl rfl rfl rfl
theorem semAdd (c : Channel) (i : SemIdx) (n : Nat) : Kept c (c.semAdd i n) := aside rfl rfl rfl rfl rfl rfl rfl rfl rfl
theorem setRun (c : Channel) (r : Running) : Kept c (c.setRun r) := aside rfl rfl rfl rfl rfl rfl rfl rfl rfl
theorem modFloe (c : Channel) (i : Nat) (f : FloeRun → FloeRun) : Kept c (c.modFloe i f) := aside rfl rfl rfl rfl rfl rfl rfl rfl rfl

/-! ### Faults and uncorrectable words -/

/-- The registers of faults other than those of the member's part in training. -/
theorem withFlt (c : Channel) {f : Flt} (members : f.members = c.flt.members) (removed : f.removed = c.flt.removed)
    (quiesced : f.quiesced = c.flt.quiesced) (catchUp : f.catchUp = c.flt.catchUp) : Kept c { c with flt := f } :=
  ⟨⟨rfl, rfl, rfl, rfl, rfl, rfl, fun _ => rfl, members, removed, quiesced, catchUp⟩, fun _ => rfl⟩

theorem modCore (c : Channel) (k : Core) {f : CoreState → CoreState} (h : (f c.cores[k]).mor.pause = c.cores[k].mor.pause) :
    Kept c (c.modCore k f) := by
  refine ⟨⟨rfl, rfl, rfl, rfl, rfl, rfl, fun _ => rfl, rfl, rfl, rfl, rfl⟩, fun j => ?_⟩
  rw [Channel.modCore_get]
  split
  next hj => rw [h, hj]
  next => rfl

theorem modStack (c : Channel) (i : Stack) {f : StackState → StackState} (h : (f c.stk[i]).overtemp = c.stk[i].overtemp) :
    Kept c (c.modStack i f) := by
  refine ⟨⟨rfl, rfl, rfl, rfl, rfl, rfl, fun j => ?_, rfl, rfl, rfl, rfl⟩, fun _ => rfl⟩
  rw [Channel.modStack_get]
  split
  next hj => rw [h, hj]
  next => rfl

theorem modCtx (c : Channel) (k : Core) (i : Fin 16) (f : Ctx → Ctx) : Kept c (c.modCtx k i f) := by
  unfold Channel.modCtx
  exact modCore c k rfl

theorem sendHbBody (c : Channel) (h : Heartbeat) : Kept c (c.sendHbBody h) := by
  by_cases hq : c.stp.st = .done ∨ c.flt.retired = true
  · rw [Channel.sendHbBody_quiet hq]
    exact refl c
  · rw [not_or, Bool.not_eq_true] at hq
    rw [Channel.sendHbBody_sent hq.1 hq.2]
    exact ⟨⟨rfl, rfl, rfl, rfl, rfl, rfl, fun _ => rfl, rfl, rfl, rfl, rfl⟩, fun _ => rfl⟩

theorem sendHb (c : Channel) : Kept c c.sendHb := sendHbBody c _

theorem fault (c : Channel) (cls a : Nat) : Kept c (c.fault cls a) := by
  rw [Channel.fault_eq]
  exact (withFlt c (f := (c.faulted cls a).flt) rfl rfl rfl rfl).trans (sendHbBody _ _)

theorem reportFault (c : Channel) (cls a : Nat) : Kept c (c.reportFault cls a) := by
  have noted := withFlt c (f := { c.flt with fclass := BitVec.ofNat 8 cls, faddr := BitVec.ofNat 48 a }) rfl rfl rfl rfl
  unfold Channel.reportFault
  exact ite (fun _ => noted.trans (sendHbBody _ _)) fun _ => noted

theorem noteUe (c : Channel) (a : Nat) (ue : Bool) : Kept c (c.noteUe a ue) := by
  unfold Channel.noteUe
  refine ite (fun _ => modStack c _ rfl) fun _ => ?_
  split
  · split
    · exact modCore c _ rfl
    · exact refl c
  · exact refl c

theorem classifyUe (c : Channel) (a : Nat) : Kept c (c.classifyUe a) := by
  unfold Channel.classifyUe
  refine ite (fun _ => reportFault c _ _) fun _ => ?_
  dsimp only
  have met (l : List Nat) : Kept c (l.foldl (fun c k => (c.noteUe k true).fault 0x01 k) c) :=
    foldl (fun c k => (noteUe c k true).trans (fault _ _ _)) l c
  generalize hd : List.foldl _ c _ = d
  refine (hd ▸ met _ : Kept c d).trans ?_
  have lost (us : List Nat) : Kept d { d with flt := { d.flt with lostUnits := us } } := withFlt d rfl rfl rfl rfl
  exact ite (fun _ => ite (fun _ => fault _ _ _) fun _ => (lost _).trans (reportFault _ _ _)) fun _ =>
    ite (fun _ => reportFault _ _ _) fun _ => fault _ _ _

theorem adoriRead (c : Channel) (rs ws : List (Nat × Nat)) : Kept c (c.adoriRead rs ws) :=
  foldl (fun c k => (noteUe c k true).trans (classifyUe _ k)) _ c

theorem freeze (c : Channel) (m : Master) (a : Nat) (w : Bool) : Kept c (c.freeze m a w) := by
  have recorded : Kept c { c with frz := c.frz.record m a w } := aside rfl rfl rfl rfl rfl rfl rfl rfl rfl
  have trains (d : Channel) (h : Kept c d) : Kept c (if d.inTraining then d.fault 0x04 a else d) :=
    ite (fun _ => h.trans (fault d 0x04 a)) fun _ => h
  cases m with
  | engine e =>
    refine trains _ (recorded.trans ?_)
    exact foldl (fun c q => ite (fun _ => modQ c q _) fun _ => refl c) _ _
  | context k x => exact trains _ (recorded.trans (modCtx _ k x _))
  | nunatak n => exact recorded.trans (fault _ 0x04 a)
  | host => exact recorded

theorem sees (c : Channel) (e : Err) : Kept c (c.sees e) := by
  unfold Channel.sees
  split
  · exact aside rfl rfl rfl rfl rfl rfl rfl rfl rfl
  · exact refl c

theorem fail (c : Channel) (r : Running) (e : Err) : Kept c (c.fail r e).1 := by
  refine (sees c e).trans ?_
  unfold Channel.fail
  dsimp only
  generalize c.sees e = c
  have cached (p : Nat) : Kept c (c.cachePage p) := aside rfl rfl rfl rfl rfl rfl rfl rfl rfl
  have pterr (d : Channel) : Kept d { d with agd := { d.agd with pterr := true } } := aside rfl rfl rfl rfl rfl rfl rfl rfl rfl
  cases e.kind with
  | fault cause addr => exact aside rfl rfl rfl rfl rfl rfl rfl rfl rfl
  | guard addr write => exact freeze c (runMaster r) addr write
  | unmapped addr write => exact (cached (addr / 2 ^ 21)).trans (freeze _ (runMaster r) addr write)
  | frame addr write => exact (cached (addr / 2 ^ 21)).trans ((pterr _).trans (freeze _ (runMaster r) addr write))
  | ue addr => exact noteUe _ _ _
  | _ => exact refl c

/-! ### Events (06 R148) -/

theorem time (w : Wk) : Kept w.c w.time.1.c :=
  ⟨⟨rfl, rfl, rfl, rfl, rfl, rfl, fun _ => rfl, rfl, rfl, rfl, rfl⟩, fun _ => rfl⟩

theorem event (w : Wk) (e : Event) : Kept w.c (w.event e).c := by
  unfold Wk.event
  dsimp only
  split
  · exact ⟨⟨rfl, rfl, rfl, rfl, rfl, rfl, fun _ => rfl, rfl, rfl, rfl, rfl⟩, fun _ => rfl⟩
  · exact ⟨⟨rfl, rfl, rfl, rfl, rfl, rfl, fun _ => rfl, rfl, rfl, rfl, rfl⟩, fun _ => rfl⟩

theorem eventLanded (w : Wk) (e : Event) : Kept w.c ((w.event e).mod Channel.landed).c := (event w e).trans (landed _)

end Kept

/-! ### The work of a commit and of a skip -/

namespace Kept

theorem foldTracker (w : Wk) (commit : Bool) (dls : Int) (k : Trk) : Kept w.c (w.foldTracker commit dls k).c := by
  unfold Wk.foldTracker
  dsimp only
  split
  · exact (wr _ _ _).trans (wr _ _ _)
  · exact ((wr w.c _ _).trans (wr _ _ _)).trans (eventLanded { w with c := _ } _)

theorem foldTrackers (w : Wk) (commit : Bool) (dls : Byte) : Kept w.c (w.foldTrackers commit dls).c :=
  foldlWk (fun w k => foldTracker w commit _ k) _ w

theorem watchLayer (w : Wk) (l : Nat) : Kept w.c (w.watchLayer l).c := by
  have evs (es : List Event) (w : Wk) : Kept w.c ((w.events es).mod Channel.landed).c :=
    (foldlWk (fun w e => event w e) es w).trans (landed _)
  unfold Wk.watchLayer
  exact (wr w.c _ _).trans (evs _ { w with c := _ })

theorem commitGrads (w : Wk) : Kept w.c w.commitGrads.c := by
  unfold Wk.commitGrads
  refine foldlWk (fun w p => ?_) _ w
  dsimp only
  split
  · exact wrN w.c _ _ _
  · exact (wrN w.c _ _ _).trans (eventLanded { w with c := _ } _)

theorem commitRegion (c : Channel) (v : W32) (h : Region) : Kept c (c.commitRegion v h) := by
  unfold Channel.commitRegion
  refine ite (fun _ => refl c) fun _ => ?_
  dsimp only
  exact ite (fun _ => (wrN c _ _ _).trans (wrN _ _ _ _)) fun _ => wrN c _ _ _

theorem steer (c : Channel) (h : Region) : Kept c (c.steer h) := by
  unfold Channel.steer
  exact ite (fun _ => wrN c _ _ _) fun _ => refl c

theorem zeroBank (c : Channel) : Kept c c.zeroBank := foldl (fun c _ => wr c _ _) _ c

theorem askUnits (c : Channel) : Kept c c.askUnits := by
  unfold Channel.askUnits
  exact ite (fun _ => refl c) fun _ => withFlt c rfl rfl rfl rfl

theorem lose (c : Channel) (us : List Nat) : Kept c (c.lose us) := withFlt c rfl rfl rfl rfl

theorem loseStale (c : Channel) : Kept c c.loseStale := by
  unfold Channel.loseStale
  exact ite (fun _ => refl c) fun _ => ((adoriRead c _ _).trans (lose _ _)).trans (askUnits _)

theorem misfitRead (c : Channel) : Kept c c.misfitRead := by
  unfold Channel.misfitRead
  split
  · exact refl c
  · exact adoriRead c _ _

theorem writeLossScale (c : Channel) (p : Plan) : Kept c (c.writeLossScale p) := foldl (fun c _ => wrN c _ _ _) _ c

theorem rewriteFormats (c : Channel) (rs : List (Nat × Nat)) : Kept c (c.rewriteFormats rs) := by
  unfold Channel.rewriteFormats
  refine foldl (fun c r => ?_) rs c
  dsimp only
  split
  · exact refl c
  · exact foldl (fun c _ => ite (fun _ => refl c) fun _ => wrN c _ _ _) _ c

theorem zeroParity (c : Channel) : Kept c c.zeroParity := by
  unfold Channel.zeroParity
  exact ite (fun _ => refl c) fun _ => wr c _ _

end Kept

/-! ### The next attempt -/

/-- The training state of an attempt that waits to start. -/
def Stp.waits (x : Stp) : Stp := { x with st := .applying, startOwed := true, skipPending := none }

/-- The training state of an attempt that begins. -/
def Stp.begins (x : Stp) : Stp :=
  { x with st := .running, att := {}, rolledBack := false, skipPending := none, startOwed := false }

/-- The next attempt begins, or waits to, or there is no plan: nothing else changes of what `Kept` names. -/
theorem Channel.startAttempt_kept (c : Channel) : ∃ d, Kept c d ∧
    (c.startAttempt = d ∨ c.startAttempt = { d with stp := d.stp.waits } ∨ c.startAttempt = { d with stp := d.stp.begins }) := by
  unfold Channel.startAttempt
  cases hp : c.stp.plan with
  | none => exact ⟨c, Kept.refl c, .inl rfl⟩
  | some p =>
    dsimp only
    by_cases hw : (c.refreezing || c.anyStopped (c.startRanges p ++ c.startWrites p)) = true
    · rw [if_pos hw]
      exact ⟨c, Kept.refl c, .inr (.inl rfl)⟩
    · rw [if_neg hw]
      exact ⟨_, (((Kept.adoriRead c _ _).trans (Kept.writeLossScale _ p)).trans (Kept.rewriteFormats _ _)).trans (Kept.zeroParity _),
        .inr (.inr rfl)⟩

/-- No stack has stopped its accesses. -/
theorem Channel.anyStopped_served {c : Channel} (h : ∀ i : Stack, c.stk[i].overtemp = false) (rs : List (Nat × Nat)) :
    c.anyStopped rs = false := by
  refine List.any_eq_false.mpr fun r _ => ne_true_of_eq_false ?_
  unfold Channel.stopped
  rw [Bool.and_eq_false_iff, List.any_eq_false]
  refine .inr fun i _ => ?_
  rw [h i, Bool.false_and, Bool.false_and]
  exact Bool.false_ne_true

/-- With a plan, no ab.freeze of Adori's left and no stack stopped, it begins. -/
theorem Channel.startAttempt_begins {c : Channel} (hp : c.stp.plan.isSome = true) (hr : c.refreezing = false)
    (hs : ∀ i : Stack, c.stk[i].overtemp = false) : ∃ d, Kept c d ∧ c.startAttempt = { d with stp := d.stp.begins } := by
  obtain ⟨p, hp⟩ := Option.isSome_iff_exists.mp hp
  unfold Channel.startAttempt
  rw [hp]
  dsimp only
  rw [hr, Channel.anyStopped_served hs, Bool.or_false, if_neg Bool.false_ne_true]
  exact ⟨_, (((Kept.adoriRead c _ _).trans (Kept.writeLossScale _ p)).trans (Kept.rewriteFormats _ _)).trans (Kept.zeroParity _), rfl⟩

end Sys2Proof.Machine
end

