-- ==== Sys2Proof/Proofs/CommitTokens.lean ====
section
/-!
SUPPORT. COMMIT tokens, the held token and the clock vote (10 R241, 09 R216, 17 R386): what passing a token on leaves, what a
commit makes of the training state, the votes; the statement about them.
-/
namespace Sys2Proof.Machine

open Sys2Proof

/-! ### What Adori reads of a token's work -/

section
variable {c d : Channel} (reads : d.rdA = c.rdA)
include reads

theorem Channel.segments_reads : d.segments = c.segments :=
  funext fun p => funext fun i => Channel.segments_congr (fun a n => congrFun (congrFun reads a) n) p i

theorem Channel.segCmds_reads : d.segCmds = c.segCmds := by
  funext x
  unfold Channel.segCmds
  rw [reads]

theorem Channel.planBlocks_reads : d.planBlocks = c.planBlocks := by
  funext p
  unfold Channel.planBlocks
  rw [Channel.segments_reads reads, Channel.segCmds_reads reads]

theorem Channel.planRanges_reads : d.planRanges = c.planRanges := by
  funext p
  unfold Channel.planRanges
  rw [Channel.segments_reads reads, Channel.planBlocks_reads reads]

theorem Channel.planRecords_reads : d.planRecords = c.planRecords := by
  funext p
  unfold Channel.planRecords
  rw [Channel.segments_reads reads, Channel.segCmds_reads reads, reads]

theorem Channel.regionList_reads (abl : d.abl = c.abl) : d.regionList = c.regionList := by
  unfold Channel.regionList Channel.rdNA
  rw [reads, abl]

theorem Channel.trackers_reads (nmon : d.nmon = c.nmon) : d.trackers = c.trackers := by
  unfold Channel.trackers
  rw [reads, nmon]

theorem Channel.tokenRanges_reads (abl : d.abl = c.abl) (nmon : d.nmon = c.nmon) (plan : d.stp.plan = c.stp.plan) :
    d.tokenRanges = c.tokenRanges := by
  unfold Channel.tokenRanges Channel.headerRanges Channel.statAddr
  rw [Channel.regionList_reads reads abl, Channel.trackers_reads reads nmon, Channel.planRanges_reads reads,
    Channel.planRecords_reads reads, abl, nmon, plan]
end

/-! ### Passing a token on -/

theorem Led.relay (c : Channel) (t : Token) (m : Membership) : Led c (c.relay t m) := by
  have level (c : Channel) (l : MgrLevel) : Led c (
      let g := c.mgr l
      if g.acting && c.authority != some l && (g.latest.all fun u => tokenFollows t u.1) then
        if g.standbyAcked || t.kind == .rollback then c.issueToken l t m
        else c.modMgr l fun g => { g with decision := some (t, m) }
      else c) := by
    dsimp only
    split
    · split
      · exact c.issueToken_led l t m
      · exact Led.modMgr c l _
    · exact Led.refl c
  unfold Channel.relay Channel.duty
  split
  · exact Led.refl c
  · exact (level c .drift).trans (level _ .field)

/-- A channel with a token taken and passed on. -/
def Channel.relayed (c : Channel) (t : Token) (m : Membership) : Channel := (c.takeMsg 4).relay t m

section
variable (c : Channel) (t : Token) (m : Membership)

theorem Channel.relayed_eq : c.relayed t m = { c with
    inbox := (c.takeMsg 4).inbox, ports := (c.relayed t m).ports
    flt := { c.flt with drift := (c.relayed t m).flt.drift, field := (c.relayed t m).flt.field } } := Led.relay (c.takeMsg 4) t m

theorem Channel.relayed_stp : (c.relayed t m).stp = c.stp := by rw [c.relayed_eq t m]
theorem Channel.relayed_nmon : (c.relayed t m).nmon = c.nmon := by rw [c.relayed_eq t m]
theorem Channel.relayed_abl : (c.relayed t m).abl = c.abl := by rw [c.relayed_eq t m]
theorem Channel.relayed_mem : (c.relayed t m).mem = c.mem := by rw [c.relayed_eq t m]
theorem Channel.relayed_stk : (c.relayed t m).stk = c.stk := by rw [c.relayed_eq t m]
theorem Channel.relayed_fault : (c.relayed t m).flt.fault = c.flt.fault := by rw [c.relayed_eq t m]
theorem Channel.relayed_training : (c.relayed t m).training = c.training := by
  unfold Channel.training
  rw [c.relayed_stp t m]
theorem Channel.relayed_newer (u : Token) : (c.relayed t m).newer u = c.newer u := by
  unfold Channel.newer
  rw [c.relayed_stp t m]

theorem Channel.relayed_rdA : (c.relayed t m).rdA = c.rdA := by
  rw [c.relayed_eq t m]
  rfl

theorem Channel.relayed_updating : (c.relayed t m).updating = c.updating := by
  unfold Channel.updating
  rw [Channel.regionList_reads (c.relayed_rdA t m) (c.relayed_abl t m), c.relayed_eq t m]

theorem Channel.relayed_stopped : (c.relayed t m).anyStopped (c.relayed t m).tokenRanges = c.anyStopped c.tokenRanges := by
  rw [Channel.tokenRanges_reads (c.relayed_rdA t m) (c.relayed_abl t m) (c.relayed_nmon t m) (by rw [c.relayed_stp t m])]
  unfold Channel.anyStopped Channel.stopped
  rw [c.relayed_stk t m]
end

/-! ### The token -/

section
variable {w : Wk} {t : Token} {m : Membership} {stop : Bool}

/-- A COMMIT that a member in training takes part in. -/
structure Commits (c : Channel) (t : Token) : Prop where
  kind : t.kind = .commit
  training : c.training = true
  faultless : c.flt.fault = false
  started : c.stp.st ≠ .starting
  noRollback : c.stp.st ≠ .rollback

theorem commitToken_eq (h : Commits w.c t) : commitToken w t m =
    if w.c.newer t then
      if w.c.updating || w.c.anyStopped w.c.tokenRanges then
        { w with c := { w.c.relayed t m with
            abl := { (w.c.relayed t m).abl with heldTok := some (t, m) }, stp := { (w.c.relayed t m).stp with st := .applying } } }
      else ({ w with c := w.c.relayed t m } : Wk).applyCommit t m
    else { w with c := w.c.relayed t m } := by
  have goes : (decide (t.kind = .commit) && (w.c.relayed t m).training && !(w.c.relayed t m).flt.fault &&
      (w.c.relayed t m).stp.st != .starting && (w.c.relayed t m).stp.st != .rollback && (w.c.relayed t m).newer t) =
      w.c.newer t := by
    rw [w.c.relayed_training t m, w.c.relayed_fault t m, w.c.relayed_stp t m, w.c.relayed_newer t m, h.kind, h.training, h.faultless,
      bne_iff_ne.mpr h.started, bne_iff_ne.mpr h.noRollback]
    rfl
  unfold commitToken
  dsimp only
  rw [if_pos h.kind]
  change (if (decide (t.kind = .commit) && (w.c.relayed t m).training && !(w.c.relayed t m).flt.fault &&
      (w.c.relayed t m).stp.st != .starting && (w.c.relayed t m).stp.st != .rollback && (w.c.relayed t m).newer t) = true then
    if ((w.c.relayed t m).updating || (w.c.relayed t m).anyStopped (w.c.relayed t m).tokenRanges) = true then _ else _ else _) = _
  rw [goes, w.c.relayed_updating t m, w.c.relayed_stopped t m]
  rfl

theorem heldTokenApply_eq (ht : w.c.abl.heldTok = some (t, m)) (hu : w.c.updating = false) (hf : w.c.flt.fault = false)
    (hn : w.c.newer t = true) (hs : w.c.anyStopped w.c.tokenRanges = false) : heldTokenApply w = w.applyCommit t m := by
  unfold heldTokenApply
  rw [ht]
  dsimp only
  rw [hu, hf, hn, hs]
  rfl
end

/-! ### What a commit makes of the channel -/

/-- What a commit sets, in two channels alike. -/
structure SameCommit (c d : Channel) : Prop where
  ver : d.stp.ver = c.stp.ver
  batch : d.stp.batch = c.stp.batch
  lsexp : d.stp.lsexp = c.stp.lsexp
  skips : d.stp.skips = c.stp.skips
  commits : d.stp.commits = c.stp.commits
  abl : d.abl = c.abl
  step : d.nmon.step = c.nmon.step
  members : d.flt.members = c.flt.members

namespace SameCommit

variable {c d e : Channel}

theorem trans (h : SameCommit c d) (g : SameCommit d e) : SameCommit c e :=
  ⟨g.ver.trans h.ver, g.batch.trans h.batch, g.lsexp.trans h.lsexp, g.skips.trans h.skips, g.commits.trans h.commits,
    g.abl.trans h.abl, g.step.trans h.step, g.members.trans h.members⟩

theorem of_kept (h : Kept c d) : SameCommit c d :=
  ⟨by rw [h.stays.stp], by rw [h.stays.stp], by rw [h.stays.stp], by rw [h.stays.stp], by rw [h.stays.stp], h.stays.abl,
    h.stays.step, h.stays.members⟩

theorem st (c : Channel) (x : StpSt) : SameCommit c { c with stp := { c.stp with st := x } } := ⟨rfl, rfl, rfl, rfl, rfl, rfl, rfl, rfl⟩

theorem startAttempt (c : Channel) : SameCommit c c.startAttempt := by
  obtain ⟨d, kept, h | h | h⟩ := c.startAttempt_kept <;> rw [h]
  · exact of_kept kept
  · exact (of_kept kept).trans ⟨rfl, rfl, rfl, rfl, rfl, rfl, rfl, rfl⟩
  · exact (of_kept kept).trans ⟨rfl, rfl, rfl, rfl, rfl, rfl, rfl, rfl⟩

theorem copyMisfit (c : Channel) : SameCommit c c.copyMisfit := by
  unfold Channel.copyMisfit
  split
  · exact ⟨rfl, rfl, rfl, rfl, rfl, rfl, rfl, rfl⟩
  · exact ⟨rfl, rfl, rfl, rfl, rfl, rfl, rfl, rfl⟩

end SameCommit

/-- The plan's last step is committed. -/
def Channel.lastStep (c : Channel) : Bool :=
  match c.stp.plan with
  | some p => p.nsteps != 0 && decide (p.nsteps ≤ c.stp.commits)
  | none => true

/-- In DRIFT mode the member votes. -/
def Channel.voted (c : Channel) (n : Nat) : Channel := if c.gov.gmode == 2 then c.castVote n else c

/-- What follows a commit: a member that has left halts, the others vote, end, wait for the vote or go on. -/
def Channel.afterCommit (c : Channel) (out : Bool) (n : Nat) : Channel :=
  if out then ({ c with stp := { c.stp with st := .halted } } : Channel).sendHb
  else
    if c.lastStep then { c.voted n with
      stp := { (c.voted n).stp with st := .done }, flt := { (c.voted n).flt with ready := false } }
    else if c.gov.gmode == 2 then { c.voted n with stp := { (c.voted n).stp with st := .applying } }
    else (c.voted n).startAttempt

theorem Channel.afterCommit_same (c : Channel) (out : Bool) (n : Nat) : SameCommit c (c.afterCommit out n) := by
  have cast : SameCommit c (c.voted n) := by
    unfold Channel.voted
    split <;> exact ⟨rfl, rfl, rfl, rfl, rfl, rfl, rfl, rfl⟩
  unfold Channel.afterCommit
  split
  · exact (SameCommit.st c .halted).trans (SameCommit.of_kept (Kept.sendHb _))
  · split
    · exact cast.trans ⟨rfl, rfl, rfl, rfl, rfl, rfl, rfl, rfl⟩
    · split
      · exact cast.trans (SameCommit.st _ .applying)
      · exact cast.trans (SameCommit.startAttempt _)

/-- In DRIFT mode a member that stays has cast its vote, within FTOP and every cap. -/
theorem Channel.afterCommit_votes {c : Channel} (hd : c.gov.gmode = 2) (n : Nat) :
    (c.afterCommit false n).gov.voteOwed = true ∧
      (c.afterCommit false n).gov.fsus.toNat ≤ (c.afterCommit false n).gov.ftop.toNat ∧
      ∀ k : Core, (c.afterCommit false n).gov.fsus.toNat ≤ ((c.afterCommit false n).gov.cores[k]).cap := by
  have gov : (c.afterCommit false n).gov = (c.castVote n).gov := by
    have voted : c.voted n = c.castVote n := if_pos (by rw [hd]; rfl)
    unfold Channel.afterCommit
    rw [if_neg Bool.false_ne_true, voted]
    split
    · rfl
    · rw [if_pos (by rw [hd]; rfl)]
  have low {x : Nat} (hx : x ∈ c.gov.ftop.toNat :: c.gov.cores.toList.map CorePower.cap) :
      (c.gov.ftop.toNat :: c.gov.cores.toList.map CorePower.cap).foldl min
        (c.fits (Config.meanActivity n) (fun x => x.pll != .cold) c.gov.grant.toNat) ≤ x :=
    foldl_min_le (List.mem_cons_of_mem _ hx)
  have top := low List.mem_cons_self
  have fsus : (c.castVote n).gov.fsus.toNat = (c.gov.ftop.toNat :: c.gov.cores.toList.map CorePower.cap).foldl min
      (c.fits (Config.meanActivity n) (fun x => x.pll != .cold) c.gov.grant.toNat) :=
    (BitVec.toNat_ofNat _ _).trans (Nat.mod_eq_of_lt (by have := c.gov.ftop.isLt; omega))
  rw [gov, fsus]
  refine ⟨rfl, top, fun k => low (List.mem_cons_of_mem _ (List.mem_map_of_mem ?_))⟩
  rw [Vector.mem_toList_index]
  exact ⟨k, rfl⟩

/-- The channel as the token has it. -/
def Channel.atToken (c : Channel) (t : Token) (m : Membership) : Channel :=
  let clean := c.stp.lsclean + 1
  { c with
    nmon := { c.nmon with step := c.nmon.step + 1 }
    flt := { c.flt with members := m, removed := c.outside m }
    stp := { c.stp with
      ver := t.ver, batch := t.batch, lsexp := t.lsexp, lsexpCommit := t.lsexp
      lsclean := if clean = c.stp.lsgrow then 0 else clean
      lscleanCommit := if clean = c.stp.lsgrow then 0 else clean
      skips := 0, commits := c.stp.commits + 1, skipPending := none } }

/-- The regions' version, and no token held. -/
def Channel.atVersion (c : Channel) (v : W32) : Channel := { c with abl := { c.abl with commitVer := v, heldTok := none } }

/-- COMMIT's work over memory that Adori can read: on regions, trackers and statistics, then the token, then what follows. -/
theorem Wk.applyCommit_spec {w : Wk} {t : Token} {m : Membership} (hf : (w.c.adoriRead w.c.tokenRanges).flt.fault = false) :
    ∃ d n, Kept (w.c.atVersion t.ver) d ∧
      (w.applyCommit t m).c = ((d.atToken t m).copyMisfit.loseStale).afterCommit (d.outside m) n := by
  have layers (l : List Nat) (w : Wk) : Kept w.c (l.foldl (fun w l => w.watchLayer l) w).c :=
    Kept.foldlWk (fun w l => Kept.watchLayer w l) l w
  unfold Wk.applyCommit
  extract_lets w1 c1 abl c2 w2 w3 w4 c3 c4 out clean nmon stp flt c5 c6 last drift done
  have regions : Kept w.c c1 := (Kept.adoriRead _ _ _).trans (Kept.foldl (fun c h => Kept.commitRegion c t.ver h) _ _)
  have held : Kept (w.c.atVersion t.ver) c2 := by
    obtain ⟨⟨boot, stp, abl, cfl, step, gov, overtemp, members, removed, quiesced, catchUp⟩, pause⟩ := regions
    exact ⟨⟨boot, stp, congrArg (fun a : Abl => { a with commitVer := t.ver, heldTok := none }) abl, cfl, step, gov, overtemp, members,
      removed, quiesced, catchUp⟩, pause⟩
  have work : Kept c2 w4.c := ((Kept.commitGrads { w1 with c := c2 }).trans (Kept.foldTrackers w2 true t.dls)).trans (layers _ w3)
  have bank : Kept w4.c c4 := (Kept.foldl (fun c h => Kept.steer c h) _ _).trans (Kept.zeroBank _)
  refine ⟨c4, w4.ctr, (held.trans work).trans bank, ?_⟩
  rw [if_neg (ne_true_of_eq_false hf)]
  clear bank work
  clear_value c4 w4
  rfl

/-- What a commit leaves. -/
theorem Wk.applyCommit_same {w : Wk} {t : Token} {m : Membership} (hf : (w.c.adoriRead w.c.tokenRanges).flt.fault = false) :
    ∃ d, Kept (w.c.atVersion t.ver) d ∧ SameCommit (d.atToken t m) (w.applyCommit t m).c := by
  obtain ⟨d, n, kept, e⟩ := Wk.applyCommit_spec (m := m) hf
  refine ⟨d, kept, ?_⟩
  rw [e]
  exact ((SameCommit.copyMisfit _).trans (SameCommit.of_kept (Kept.loseStale _))).trans (Channel.afterCommit_same _ _ _)

theorem Channel.copyMisfit_gov (c : Channel) : c.copyMisfit.gov = c.gov := by
  unfold Channel.copyMisfit
  split <;> rfl

theorem Wk.applyCommit_votes {w : Wk} {t : Token} {m : Membership} (hf : (w.c.adoriRead w.c.tokenRanges).flt.fault = false)
    (hd : w.c.gov.gmode = 2) (ho : w.c.outside m = false) : (w.applyCommit t m).c.gov.voteOwed = true ∧
      (w.applyCommit t m).c.gov.fsus.toNat ≤ (w.applyCommit t m).c.gov.ftop.toNat ∧
      ∀ k : Core, (w.applyCommit t m).c.gov.fsus.toNat ≤ ((w.applyCommit t m).c.gov.cores[k]).cap := by
  obtain ⟨d, n, kept, e⟩ := Wk.applyCommit_spec (m := m) hf
  have stays : d.outside m = false := (kept.stays.outside m).trans ho
  have drift : ((d.atToken t m).copyMisfit.loseStale).gov.gmode = 2 := by
    rw [(Kept.loseStale _).stays.gov]
    dsimp only
    rw [Channel.copyMisfit_gov]
    change d.gov.gmode = 2
    rw [kept.stays.gov]
    exact hd
  rw [e, stays]
  exact Channel.afterCommit_votes drift n

/-! ### The clock vote (17 R386) -/

section
variable {chans : Vector Channel 8} {w : Wk} {c : Channel}

theorem clockVote_waits (h : ∃ d ∈ w.c.votersHere chans, d.stp.ver ≠ w.c.stp.ver) : clockVote chans w = w := by
  obtain ⟨d, hd, hv⟩ := h
  have all : ((w.c.votersHere chans).all fun d => d.stp.ver == w.c.stp.ver) = false :=
    List.all_eq_false.mpr ⟨d, hd, by simpa using hv⟩
  unfold clockVote
  exact if_neg (by rw [all, Bool.and_false]; exact Bool.false_ne_true)

/-- The ceiling that the votes give. -/
def Channel.ceiling (chans : Vector Channel 8) (c : Channel) : Nat := max 24 ((c.votes chans).foldl min 88)

/-- The channel once the votes are in. -/
def Channel.voteDone (chans : Vector Channel 8) (c : Channel) : Channel :=
  ({ c with
    gov := { c.gov with voteOwed := false, fceil := BitVec.ofNat 8 (c.ceiling chans) }
    cfl := { c.cfl with redTotal := c.cfl.redTotal + 1 } } : Channel).settle

theorem clockVote_done (ho : w.c.gov.voteOwed = true) (h : ∀ d ∈ w.c.votersHere chans, d.stp.ver = w.c.stp.ver) :
    clockVote chans w = { w with
      c := if w.c.stp.st = .applying then (w.c.voteDone chans).startAttempt else w.c.voteDone chans } := by
  have all : ((w.c.votersHere chans).all fun d => d.stp.ver == w.c.stp.ver) = true :=
    List.all_eq_true.mpr fun d hd => beq_iff_eq.mpr (h d hd)
  unfold clockVote
  exact if_pos (by rw [ho, all]; rfl)

theorem Channel.ceiling_le (chans : Vector Channel 8) (c : Channel) : c.ceiling chans ≤ 88 := by
  have := foldl_min_le (a := 88) (l := c.votes chans) List.mem_cons_self
  unfold Channel.ceiling
  omega

theorem Channel.ceiling_vote {n : Nat} (h : n ∈ c.votes chans) : c.ceiling chans ≤ max 24 n :=
  max_le_max_left 24 (foldl_min_le (List.mem_cons_of_mem _ h))

theorem Channel.voteDone_eq (chans : Vector Channel 8) (c : Channel) : c.voteDone chans = { c with
    gov := { c.gov with
      voteOwed := false, fceil := BitVec.ofNat 8 (c.ceiling chans), fg := (c.voteDone chans).gov.fg
      cores := (c.voteDone chans).gov.cores }
    cfl := { c.cfl with redTotal := c.cfl.redTotal + 1 } } := (Retuned.settle _).rest

theorem Channel.fceil_toNat (chans : Vector Channel 8) (c : Channel) : (BitVec.ofNat 8 (c.ceiling chans)).toNat = c.ceiling chans :=
  (BitVec.toNat_ofNat _ _).trans (Nat.mod_eq_of_lt (by have := c.ceiling_le chans; omega))

/-- What the vote leaves of the governor and of CFL_RED_TOTAL, whether the next attempt starts or not. -/
structure Voted (chans : Vector Channel 8) (c d : Channel) : Prop where
  owed : d.gov.voteOwed = false
  fceil : d.gov.fceil.toNat = c.ceiling chans
  total : d.cfl.redTotal = c.cfl.redTotal + 1

theorem Voted.voteDone (chans : Vector Channel 8) (c : Channel) : Voted chans c (c.voteDone chans) := by
  rw [c.voteDone_eq chans]
  exact ⟨rfl, c.fceil_toNat chans, rfl⟩

theorem Voted.of_kept {d e : Channel} (h : Voted chans c d) (k : Kept d e) : Voted chans c e :=
  ⟨by rw [k.stays.gov]; exact h.owed, by rw [k.stays.gov]; exact h.fceil, by rw [k.stays.cfl]; exact h.total⟩

theorem Voted.startAttempt {d : Channel} (h : Voted chans c d) : Voted chans c d.startAttempt := by
  obtain ⟨e, kept, h' | h' | h'⟩ := d.startAttempt_kept
  · rw [h']
    exact h.of_kept kept
  · rw [h']
    obtain ⟨owed, fceil, total⟩ := h.of_kept kept
    exact ⟨owed, fceil, total⟩
  · rw [h']
    obtain ⟨owed, fceil, total⟩ := h.of_kept kept
    exact ⟨owed, fceil, total⟩

end

/-- Settles O41: the token by its cases, a commit by what its work keeps and the token sets, the vote by its lowest. -/
theorem commitTokens : Obligations.CommitTokens := by
  unfold Obligations.CommitTokens
  rintro s ch c c1 t m w stop hc hu hc1 hstop
  have work : (s.work ch).c = c := hc
  have stopped : c.anyStopped c.tokenRanges = stop := hstop.symm
  refine ⟨fun hk ht hf hs hr => ?_, fun ht hup hf hs hn => ?_, fun hf => ?_, fun ho hv => ?_, fun ho hv => ?_⟩
  · have commits : Commits (s.work ch).c t := by
      rw [work]
      exact ⟨hk, ht, hf, hs, hr⟩
    have token := commitToken_eq (m := m) commits
    rw [work, stopped] at token
    have row : exec (.commitToken ch t m) s = .next (s.after ch (commitToken (s.work ch) t m)) := by
      refine congrArg Host.Outcome.next (onUp_eq (by rw [hc]; exact hu) _)
    refine ⟨fun hn hup hst => ?_, fun hn hor => ?_, fun hn => ?_⟩
    · rw [hn, hup, hst, if_pos rfl, if_neg (by decide)] at token
      rw [row, token, hc1]
      rfl
    · have waits : (c.updating || stop) = true := by
        rcases hor with h | h <;> rw [h]
        · exact Bool.true_or _
        · exact Bool.or_true _
      rw [hn, waits, if_pos rfl, if_pos rfl] at token
      refine ⟨_, exec_onUp hc hu rfl token, rfl, ?_, ?_, ?_⟩
      · dsimp only
        rw [c.relayed_stp t m]
      · exact c.relayed_nmon t m
      · exact c.relayed_mem t m
    · rw [hn, if_neg Bool.false_ne_true] at token
      rw [hc1]
      exact exec_onUp hc hu rfl token
  · refine congrArg Host.Outcome.next ((onUp_eq (by rw [hc]; exact hu) _).trans (congrArg _ (heldTokenApply_eq ?_ ?_ ?_ ?_ ?_)))
    · rw [work, ht]
    · rw [work, hup]
    · rw [work, hf]
    · rw [work, hn]
    · rw [work, stopped, hs]
  · obtain ⟨d, kept, same⟩ := Wk.applyCommit_same (m := m) (t := t) hf
    refine ⟨same.ver, same.batch, same.lsexp, same.skips, ?_, ?_, ?_, same.members, ?_, Wk.applyCommit_votes hf⟩
    · rw [same.abl]
      exact congrArg Abl.commitVer kept.stays.abl
    · rw [same.abl]
      exact congrArg Abl.heldTok kept.stays.abl
    · rw [same.step]
      exact congrArg (· + 1) kept.stays.step
    · rw [same.commits]
      exact congrArg (fun x : Stp => x.commits + 1) kept.stays.stp
  · exact exec_onUp_same hc hu rfl (clockVote_waits (by rw [work]; exact hv))
  · have done := clockVote_done (chans := s.chans) (w := s.work ch) (by rw [work]; exact ho) (by rw [work]; exact hv)
    rw [work] at done
    have voted : Voted s.chans c (if c.stp.st = .applying then (c.voteDone s.chans).startAttempt else c.voteDone s.chans) := by
      split
      · exact (Voted.voteDone s.chans c).startAttempt
      · exact Voted.voteDone s.chans c
    refine ⟨_, exec_onUp hc hu rfl done, ?_⟩
    rw [State.put_self]
    obtain ⟨owed, fceil, total⟩ := voted
    refine ⟨owed, fceil, ?_, ?_, ?_, ?_, total, ?_, ?_⟩
    · rw [fceil]
      exact le_max_left _ _
    · rw [fceil]
      exact c.ceiling_le s.chans
    · rw [fceil]
      exact Channel.ceiling_vote List.mem_cons_self
    · intro d hd
      rw [fceil]
      exact Channel.ceiling_vote (List.mem_cons_of_mem _ (List.mem_append_left _ (List.mem_map_of_mem hd)))
    · intro hst
      dsimp only
      rw [if_neg hst, c.voteDone_eq s.chans]
    · intro hst hp hr hs
      obtain ⟨d, -, e⟩ := Channel.startAttempt_begins (c := c.voteDone s.chans) (by rw [c.voteDone_eq s.chans]; exact hp)
        (by rw [c.voteDone_eq s.chans]; exact hr) (by rw [c.voteDone_eq s.chans]; exact hs)
      dsimp only
      rw [if_pos hst, e]
      rfl

end Sys2Proof.Machine
end

