-- ==== Sys2Proof/Proofs/OtherTokens.lean ====
section
/-!
SUPPORT. SKIP, HALT, START and ROLLBACK tokens (10 R237, R241, 16 R363, R371, R373): what dropping an attempt and quiescing keep,
what each token makes of the training state, and the statement about them.
-/
namespace Sys2Proof.Machine

open Sys2Proof

/-! ### Ending commands -/

namespace Kept

theorem finish (c : Channel) (r : Running) (res : Result) : Kept c (c.finish r res) := setRun c _

theorem endRunning (c : Channel) (f : Running → Bool) : Kept c (c.endRunning f) := aside rfl rfl rfl rfl rfl rfl rfl rfl rfl

theorem post (c : Channel) (vc : Fin 4) (m : Msg) : Kept c (c.post vc m) := of_sent (Sent.post c vc m)

theorem shareDone (c : Channel) (s : ShareRef) (res : Result) : Kept c (c.shareDone s res) := by
  unfold Channel.shareDone
  split
  · exact refl c
  · exact modFloe c _ _
  · exact post c _ _

theorem dropFloes (c : Channel) (f : FloeRun → Bool) : Kept c (c.dropFloes f) := by
  have fewer : Kept c { c with floes := c.floes.filter fun x => !f x } := aside rfl rfl rfl rfl rfl rfl rfl rfl rfl
  unfold Channel.dropFloes
  dsimp only
  refine (fewer.trans (endRunning _ _)).trans (foldl (fun c x => ?_) _ _)
  split
  · exact shareDone c _ _
  · exact refl c

theorem dropShares (c : Channel) (f : Share → Bool) : Kept c (c.dropShares f) := by
  have fewer : Kept c { c with inputs := c.inputs.filter fun p => !f p.2 } := aside rfl rfl rfl rfl rfl rfl rfl rfl rfl
  exact fewer.trans (foldl (fun c _ => shareDone c _ _) _ _)

theorem retire (w : Wk) (q : QIdx) (k : Command) (seq : W32) (res : Result) (floe : Bool) :
    Kept w.c (w.retire q k seq res floe).c := by
  have timed := time w
  have ends (c : Channel) (p : Bool) (f : Queue → Queue) :
      Kept c ((if p then c.semAdd k.ssem k.sinc.toNat else c).modQ q f) :=
    (ite (fun _ => semAdd _ _ _) fun _ => refl _).trans (modQ _ q f)
  unfold Wk.retire
  generalize w.time = p at timed ⊢
  obtain ⟨v, t⟩ := p
  dsimp only at timed ⊢
  exact timed.trans (ends v.c _ _)

theorem popQ (c : Channel) (q : QIdx) : Kept c (c.popQ q) := modQ c q _

theorem dropHead (w : Wk) (q : QIdx) : Kept w.c (w.dropHead q).c := by
  unfold Wk.dropHead
  dsimp only
  exact (popQ w.c q).trans (retire { w with c := w.c.popQ q } _ _ _ _ _)

theorem dropQueued (q : QIdx) (f : Command → Bool) : ∀ (n : Nat) (w : Wk), Kept w.c (w.dropQueued q f n).c
  | 0, w => refl w.c
  | n + 1, w => by
    unfold Wk.dropQueued
    dsimp only
    split
    · exact refl w.c
    · exact (dropHead w q).trans (dropQueued q f n _)

theorem dropAb (w : Wk) : Kept w.c w.dropAb.c := by
  have ends (c : Channel) : Kept c (((c.endRunning fun r => isAb r.cmd.opc).dropFloes fun x => isAb x.cmd.opc).dropShares
      fun sh => isAb sh.cmd.opc) := ((endRunning c _).trans (dropFloes _ _)).trans (dropShares _ _)
  have queued (qs : List QIdx) (n : Nat) (w : Wk) : Kept w.c (qs.foldl (fun w q => w.dropQueued q (fun k => isAb k.opc) n) w).c :=
    foldlWk (fun w q => dropQueued q _ n w) qs w
  unfold Wk.dropAb
  exact ((ends w.c).trans (queued _ _ { w with c := _ })).trans (foldl (fun c q => modQ c q _) _ _)

/-! ### Refreezing -/

theorem touchedWrite (g : FzCfg) (c : Channel) (a : FzAcc) (b : Bool) : Touched c (g.write c a b) := by
  have blocks : Touched c (a.writes.reverse.foldl (fun c (n, sb) => c.wrSb g.d n sb) c) :=
    Touched.foldl (fun c _ => Touched.wrPieces c _) _ c
  unfold FzCfg.write
  dsimp only
  split
  · split
    · exact blocks.trans (Touched.foldl (fun c _ => Touched.put c _ _) _ _)
    · exact blocks
  · exact blocks

theorem frzRun (c : Channel) (step : W32) (e : Stack) (ha a1 a2 : Nat) (seed : W64) (o : FrzOps) :
    Kept c (Machine.frzRun c step e ha a1 a2 seed o).1 := by
  have write (g : FzCfg) (c : Channel) (a : FzAcc) : Kept c (g.write c a false) := of_touched (touchedWrite g c a false)
  have put (c : Channel) (a n v : Nat) : Kept c (c.putN a n v) := of_touched (Touched.put c a _)
  have engine (c : Channel) (f : AblEngine → AblEngine) : Kept c (c.modEng e f) := aside rfl rfl rfl rfl rfl rfl rfl rfl rfl
  have ends (c : Channel) (v : Nat) (f : AblEngine → AblEngine) : Kept c
      ((((((c.putN (ha + 48) 8 a1).putN (ha + 56) 8 a2).putN (ha + 64) 8 seed.toNat)).putN (ha + 80) 4 v).modEng e f) :=
    ((((put c _ _ _).trans (put _ _ _ _)).trans (put _ _ _ _)).trans (put _ _ _ _)).trans (engine _ f)
  obtain ⟨h, m, fd, td, fns, tns⟩ := o
  unfold Machine.frzRun
  cases fd with
  | none =>
    cases td with
    | none =>
      dsimp only
      exact ends c _ _
    | some td =>
      dsimp only
      exact (write _ c _).trans (ends _ _ _)
  | some fd =>
    cases td with
    | none =>
      dsimp only
      exact (write _ c _).trans (ends _ _ _)
    | some td =>
      dsimp only
      exact ((write _ c _).trans (write _ _ _)).trans (ends _ _ _)

theorem frzOps {c d : Channel} {copies : List (Nat × List Byte)} {e : Stack} {ha a1 a2 : Nat} {seed : W64} {o : FrzOps}
    (h : Machine.frzOps c copies e ha a1 a2 seed = .ok (o, d)) : Touched c d := by
  unfold Machine.frzOps at h
  obtain ⟨r, -, h⟩ := Ck.bind_ok h
  obtain ⟨m, -, h⟩ := Ck.bind_ok h
  obtain ⟨-, -, h⟩ := Ck.bind_ok h
  obtain ⟨-, -, h⟩ := Ck.bind_ok h
  obtain ⟨fd, -, h⟩ := Ck.bind_ok h
  obtain ⟨td, -, h⟩ := Ck.bind_ok h
  obtain ⟨-, -, h⟩ := Ck.bind_ok h
  obtain ⟨c1, h1, h⟩ := Ck.bind_ok h
  have touched := Touched.touch h1
  dsimp only at h
  cases fd with
  | none =>
    obtain ⟨c2, h2, h⟩ := Ck.bind_ok h
    cases h2
    cases td with
    | none =>
      cases h
      exact touched
    | some td =>
      obtain ⟨c3, h3, h⟩ := Ck.bind_ok h
      cases h
      exact touched.trans (Touched.touch h3)
  | some fd =>
    obtain ⟨c2, h2, h⟩ := Ck.bind_ok h
    have touched := touched.trans (Touched.touch h2)
    cases td with
    | none =>
      cases h
      exact touched
    | some td =>
      obtain ⟨c3, h3, h⟩ := Ck.bind_ok h
      cases h
      exact touched.trans (Touched.touch h3)

theorem abFreezeOn {c d : Channel} {copies : List (Nat × List Byte)} {step : W32} {e : Stack} {ha a1 a2 : Nat} {seed : W64}
    {res : Result} (h : Machine.abFreezeOn c copies step e ha a1 a2 seed = .ok (d, res)) : Kept c d := by
  unfold Machine.abFreezeOn at h
  obtain ⟨⟨o, x⟩, hx, h⟩ := Ck.bind_ok h
  cases h
  exact (of_touched (frzOps hx)).trans (frzRun _ _ _ _ _ _ _ _)

theorem refreeze (c : Channel) (h : Region) : Kept c (c.refreeze h) := by
  have later (c : Channel) (x : List (Engine × Share)) : Kept c { c with inputs := x } := aside rfl rfl rfl rfl rfl rfl rfl rfl rfl
  unfold Channel.refreeze
  dsimp only
  refine foldl (fun c e => ?_) _ c
  split
  next d res hd =>
    have run : Kept c d := (landed c).trans (abFreezeOn hd)
    split
    · exact later c _
    · split
      · exact ((run.trans (landed _)).trans (noteUe _ _ _)).trans (classifyUe _ _)
      · exact run
  next x hx =>
    split
    · exact later c _
    · exact later c _
    · exact ((sees c x).trans (noteUe _ _ _)).trans (classifyUe _ _)
    · exact fail c _ x

theorem discardPending (w : Wk) : Kept w.c w.discardPending.c := by
  have pends (c : Channel) : Kept c (c.regions.foldl (fun c h => c.wrN (h.addr + 84) 1 (c.rdNA (h.addr + 84) 1 &&& 0xF9)) c) :=
    foldl (fun c h => wrN c _ _ _) _ c
  have copies (l : List Region) (c : Channel) : Kept c (l.foldl (fun c h => if h.copyver != h.ver then c.refreeze h else c) c) :=
    foldl (fun c h => ite (fun _ => refreeze c h) fun _ => refl c) l c
  unfold Wk.discardPending
  exact ((dropAb w).trans (pends _)).trans (copies _ _)

/-! ### Quiescing (R371) -/

theorem cancelCtx (c : Channel) (k : Core) (i : Fin 16) : Kept c (Machine.cancelCtx c k i).1 := by
  have held (c : Channel) (n : Nat) : Kept c (c.dropHeld k n) := modCore c k rfl
  unfold Machine.cancelCtx
  dsimp only
  split
  · exact refl c
  · exact ((foldl (fun c r => finish c r _) _ c).trans (modCtx _ k i _)).trans (held _ _)

theorem rollbackFloes (c : Channel) : Kept c c.rollbackFloes := by
  have floes (c : Channel) (x : List FloeRun) : Kept c { c with floes := x } := aside rfl rfl rfl rfl rfl rfl rfl rfl rfl
  unfold Channel.rollbackFloes
  exact (dropFloes c _).trans (floes _ _)

theorem dropCf (w : Wk) : Kept w.c w.dropCf.c := by
  have queued (qs : List QIdx) (f : Command → Bool) (n : Nat) (w : Wk) : Kept w.c (qs.foldl (fun w q => w.dropQueued q f n) w).c :=
    foldlWk (fun w q => dropQueued q f n w) qs w
  unfold Wk.dropCf
  extract_lets isCf v qs u
  have shares : Kept w.c v.c := dropShares w.c fun sh => isCf sh.cmd.opc
  have commands : Kept v.c u.c := queued qs _ 65536 v
  exact (shares.trans commands).trans (foldl (fun c q => modQ c q _) qs u.c)

theorem sendMnack (c : Channel) (h : MsgHdr) (b : Bool) : Kept c (c.sendMnack h b) := by
  unfold Channel.sendMnack
  exact ite (fun _ => aside rfl rfl rfl rfl rfl rfl rfl rfl rfl) fun _ => post c _ _

theorem discardMessages (c : Channel) : Kept c c.discardMessages := by
  have gone (c : Channel) (x : List Msg) : Kept c { c with inbox := x, heldMsgs := [] } := aside rfl rfl rfl rfl rfl rfl rfl rfl rfl
  have port (p : Port) (l : List OpenMsg) (c : Channel) : Kept c (l.foldl (fun c m =>
      let c := c.modPort p fun s => s.dropOpen m
      if m.bytes.length < 32 then c else c.sendMnack m.hdr false) c) :=
    foldl (fun c m => (modPort c p _).trans (ite (fun _ => refl _) fun _ => sendMnack _ _ _)) l c
  unfold Channel.discardMessages
  exact (((foldl (fun c p => port p _ c) _ c).trans (foldl (fun c m => sendMnack c _ _) _ _)).trans
    (foldl (fun c m => sendMnack c _ _) _ _)).trans (gone _ _)

theorem switchStale (c : Channel) : Kept c c.switchStale :=
  foldl (fun c _ => ite (fun _ => (wrN c _ _ _).trans (wrN _ _ _ _)) fun _ => refl c) _ c

theorem readyNow (c : Channel) : Kept c c.readyNow := by
  have told (c : Channel) : Kept c { c with flt := { c.flt with ready := true, rebuild := false, hbseq := 0, asked := [] } } :=
    withFlt c rfl rfl rfl rfl
  unfold Channel.readyNow
  exact ite (fun _ => ((switchStale c).trans (told _)).trans (sendHb _)) fun _ => askUnits c

theorem goOnReady (c : Channel) : Kept c c.goOnReady := by
  unfold Channel.goOnReady
  exact ite (fun _ => readyNow c) fun _ => refl c

end Kept

/-- Setting the pause of cores one by one sets it for all of them. -/
theorem foldl_pause {f : Channel → Core → Channel} {b : Bool} (h : ∀ (c : Channel) (k j : Core),
    (f c k).cores[j].mor.pause = if j = k then b else c.cores[j].mor.pause) : ∀ (l : List Core) (c : Channel) (j : Core), j ∈ l →
    (l.foldl f c).cores[j].mor.pause = b := by
  have set : ∀ (l : List Core) (c : Channel) (j : Core), c.cores[j].mor.pause = b → (l.foldl f c).cores[j].mor.pause = b := by
    intro l
    induction l with
    | nil => exact fun c j hj => hj
    | cons k l ih =>
      intro c j hj
      refine ih _ j ?_
      rw [h, hj, ite_self]
  intro l
  induction l with
  | nil => exact fun c j hj => absurd hj List.not_mem_nil
  | cons k l ih =>
    intro c j hj
    rcases List.mem_cons.mp hj with hj | hj
    · exact set l _ j (by rw [h, if_pos hj])
    · exact ih _ j hj

theorem Stays.setPause (c : Channel) (b : Bool) (k : Core) :
    Stays c (c.modCore k fun x => { x with mor := { x.mor with pause := b } }) :=
  ⟨rfl, rfl, rfl, rfl, rfl, rfl, fun _ => rfl, rfl, rfl, rfl, rfl⟩

theorem Channel.setPause_pause (c : Channel) (b : Bool) (k j : Core) :
    (c.modCore k fun x => { x with mor := { x.mor with pause := b } }).cores[j].mor.pause =
      if j = k then b else c.cores[j].mor.pause := by
  rw [Channel.modCore_get]
  split
  · rfl
  · rfl

/-- Every Moraine is paused and every context cancelled. -/
def Channel.pauseAll (c : Channel) : Channel :=
  (List.finRange 8).foldl (fun c k => (List.finRange 16).foldl (fun c i => (cancelCtx c k i).1)
    (c.modCore k fun x => { x with mor := { x.mor with pause := true } })) c

theorem Kept.cancelAll (c : Channel) (k : Core) : Kept c ((List.finRange 16).foldl (fun c i => (Machine.cancelCtx c k i).1) c) :=
  Kept.foldl (fun c i => Kept.cancelCtx c k i) _ c

theorem Channel.pauseAll_stays (c : Channel) : Stays c c.pauseAll :=
  Stays.foldl (fun c k => (Stays.setPause c true k).trans (Kept.cancelAll _ k).stays) _ c

theorem Channel.pauseAll_pause (c : Channel) (k : Core) : c.pauseAll.cores[k].mor.pause = true := by
  unfold Channel.pauseAll
  rw [foldl_pause (fun c k j => by rw [(Kept.cancelAll _ k).pause, c.setPause_pause true k j]) (List.finRange 8) c k
    (List.mem_finRange k)]

theorem Wk.quiesce_kept (w : Wk) : Kept w.c.pauseAll w.quiesce.c := by
  have ends (c : Channel) (f : Running → Bool) : Kept c (c.endRunning f).rollbackFloes := (Kept.endRunning c f).trans (Kept.rollbackFloes _)
  have queued (qs : List QIdx) (n : Nat) (w : Wk) : Kept w.c (qs.foldl (fun w q => w.dropQueued q (fun _ => true) n) w).c :=
    Kept.foldlWk (fun w q => Kept.dropQueued q _ n w) qs w
  have messages (c : Channel) : Kept c c.dropInputs.discardMessages := (Kept.dropShares c _).trans (Kept.discardMessages _)
  unfold Wk.quiesce
  extract_lets c1 c2 w1 w2
  have ended : Kept c1 c2 := ends c1 c1.endsInRollback
  have commands : Kept c2 w1.c := queued c2.planQueues 65536 { w with c := c2 }
  have left : Kept c1 w2.c.dropInputs.discardMessages := ((ended.trans commands).trans (Kept.dropCf w1)).trans (messages w2.c)
  exact left

/-- Once quiesced, every Moraine is paused. -/
theorem Wk.quiesce_stays (w : Wk) : Stays w.c w.quiesce.c ∧ ∀ k : Core, w.quiesce.c.cores[k].mor.pause = true := by
  have kept := w.quiesce_kept
  refine ⟨w.c.pauseAll_stays.trans kept.stays, fun k => ?_⟩
  rw [kept.pause k, w.c.pauseAll_pause k]

/-! ### Recovering -/

/-- A member that is quiesced. -/
def Channel.asQuiesced (c : Channel) : Channel := { c with flt := { c.flt with quiesced := true } }

/-- What a recovery leaves: the rollback goes on, and once quiesced a member that had missed the COMMIT before is at its
version. -/
structure Recovers (c d : Channel) : Prop where
  st : d.stp.st = c.stp.st
  rolledBack : d.stp.rolledBack = c.stp.rolledBack
  total : d.stp.rbTotal = c.stp.rbTotal
  ver : d.stp.ver = if d.flt.quiesced = true then c.flt.catchUp.getD c.stp.ver else c.stp.ver
  step : d.nmon.step = c.nmon.step
  pause : ∀ k : Core, d.cores[k].mor.pause = c.cores[k].mor.pause

namespace Recovers

variable {c d e : Channel}

theorem of_kept (h : Kept c d) (hq : c.flt.quiesced = false) : Recovers c d := by
  refine ⟨by rw [h.stays.stp], by rw [h.stays.stp], by rw [h.stays.stp], ?_, h.stays.step, h.pause⟩
  rw [h.stays.quiesced, hq, h.stays.stp, if_neg Bool.false_ne_true]

theorem trans_kept (h : Recovers c d) (g : Kept d e) : Recovers c e := by
  refine ⟨by rw [g.stays.stp, h.st], by rw [g.stays.stp, h.rolledBack], by rw [g.stays.stp, h.total], ?_,
    g.stays.step.trans h.step, fun k => (g.pause k).trans (h.pause k)⟩
  rw [g.stays.stp, g.stays.quiesced]
  exact h.ver

/-- A member that is quiesced comes to the version that it had missed. -/
theorem reach (c : Channel) (hq : c.flt.quiesced = true) : Recovers c c.reach ∧ c.reach.flt.quiesced = true := by
  unfold Channel.reach
  cases hv : c.flt.catchUp with
  | none => exact ⟨⟨rfl, rfl, rfl, by rw [hv]; exact (ite_self _).symm, rfl, fun _ => rfl⟩, hq⟩
  | some v =>
    dsimp only
    have kept : Kept c (c.regions.foldl (fun c h => c.commitRegion v h) c) := Kept.foldl (fun c h => Kept.commitRegion c v h) _ c
    generalize c.regions.foldl (fun c h => c.commitRegion v h) c = d at kept
    have quiesced : d.flt.quiesced = true := kept.stays.quiesced.trans hq
    refine ⟨⟨?_, ?_, ?_, ?_, kept.stays.step, kept.pause⟩, quiesced⟩
    · dsimp only
      rw [kept.stays.stp]
    · dsimp only
      rw [kept.stays.stp]
    · dsimp only
      rw [kept.stays.stp]
    · rw [hv]
      exact (if_pos quiesced).symm

/-- What a member that reads its memory does first. -/
theorem quiesces (h : Kept c d) : Recovers c d.asQuiesced.sendHb.reach := by
  have hb := Kept.sendHb d.asQuiesced
  obtain ⟨r, quiesced⟩ := reach _ hb.stays.quiesced
  have stp := hb.stays.stp.trans h.stays.stp
  have catchUp := hb.stays.catchUp.trans h.stays.catchUp
  refine ⟨by rw [r.st, stp], by rw [r.rolledBack, stp], by rw [r.total, stp], by rw [r.ver, stp, catchUp], ?_, fun k => ?_⟩
  · exact r.step.trans (hb.stays.step.trans h.stays.step)
  · exact (r.pause k).trans ((hb.pause k).trans (h.pause k))

end Recovers

/-- The state of a member whose attempt is undone. -/
def Channel.undone (c : Channel) : Channel :=
  { c with
    colls := [], streams := [], abl := { c.abl with heldTok := none }
    gov := { c.gov with voteOwed := false }
    stp := { c.stp with
      lsexp := c.stp.lsexpCommit, lsclean := c.stp.lscleanCommit, att := {}, skipPending := none, startOwed := false } }

theorem Recovers.undone {c d : Channel} (h : Recovers c d) : Recovers c d.undone :=
  ⟨h.st, h.rolledBack, h.total, h.ver, h.step, h.pause⟩

/-- A member that has read its memory undoes its attempt. -/
def Wk.undoes (w : Wk) (c : Channel) : Channel :=
  let w := Wk.discardPending { w with c := c.asQuiesced.sendHb.reach }
  let c := (w.c.trackers.foldl (fun c k => c.wr k.tacc (List.replicate (2 * k.n) 0)) w.c).zeroBank
  let c := (c.stp.misfitCopy.foldl (fun c (a, v) => c.wrN a 8 v.toNat) c).undone
  c.lose c.staleUnits

theorem Wk.undoes_spec (w : Wk) {b c : Channel} (h : Kept b c) : Recovers b (w.undoes c) := by
  have zeros (l : List Trk) (c : Channel) : Kept c (l.foldl (fun c k => c.wr k.tacc (List.replicate (2 * k.n) 0)) c) :=
    Kept.foldl (fun c k => Kept.wr c _ _) l c
  have words (l : List (Nat × W64)) (c : Channel) : Kept c (l.foldl (fun c (a, v) => c.wrN a 8 v.toNat) c) :=
    Kept.foldl (fun c k => Kept.wrN c _ _ _) l c
  unfold Wk.undoes
  extract_lets v e f
  have discarded : Recovers b v.c := (Recovers.quiesces h).trans_kept (Kept.discardPending { w with c := c.asQuiesced.sendHb.reach })
  have zeroed : Recovers b e := (discarded.trans_kept (zeros _ _)).trans_kept (Kept.zeroBank _)
  have written : Recovers b f := (zeroed.trans_kept (words _ _)).undone
  exact written.trans_kept (Kept.lose f _)

/-- A member goes on with its rollback once it is quiet and its memory answers. -/
def Wk.recovers (w : Wk) : Bool :=
  w.c.stp.st = .rollback && !w.c.flt.quiesced && !w.c.flt.fault && w.c.quiet &&
    !w.c.anyStopped (w.c.tokenRanges ++ w.c.slotDescRanges)

theorem Wk.recover_c (w : Wk) : w.recover.c =
    (if w.recovers = true then
      if (w.c.adoriRead (w.c.tokenRanges ++ w.c.slotDescRanges)).flt.fault = true then
        w.c.adoriRead (w.c.tokenRanges ++ w.c.slotDescRanges)
      else w.undoes (w.c.adoriRead (w.c.tokenRanges ++ w.c.slotDescRanges))
    else w.c).goOnReady := by
  unfold Wk.recover Wk.recovers
  generalize w.c.adoriRead (w.c.tokenRanges ++ w.c.slotDescRanges) = c
  generalize (w.c.stp.st = .rollback && !w.c.flt.quiesced && !w.c.flt.fault && w.c.quiet &&
    !w.c.anyStopped (w.c.tokenRanges ++ w.c.slotDescRanges) : Bool) = goes
  cases goes
  case false => rfl
  case true =>
    dsimp only
    rw [if_pos rfl, if_pos rfl]
    split
    · rfl
    · unfold Wk.undoes Channel.asQuiesced Channel.undone
      dsimp only

theorem Wk.recover_spec {w : Wk} (hq : w.c.flt.quiesced = false) : Recovers w.c w.recover.c := by
  have read := Kept.adoriRead w.c (w.c.tokenRanges ++ w.c.slotDescRanges) []
  rw [w.recover_c]
  refine Recovers.trans_kept ?_ (Kept.goOnReady _)
  split
  · split
    · exact Recovers.of_kept read hq
    · exact w.undoes_spec read
  · exact Recovers.of_kept (Kept.refl _) hq

end Sys2Proof.Machine
end

