-- ==== Sys2Proof/Proofs/OtherTokens.lean ====
section
/-!
SKIP, HALT, START and ROLLBACK tokens (O42; 10 R241, 16 R371, R373): each token by the member's state, then what its work keeps and
what the token sets.
-/
namespace Sys2Proof.Machine

open Sys2Proof

/-! ### SKIP and HALT -/

/-- A skip waits for the attempt's backward segments. -/
def Channel.skips (c : Channel) (t : Token) : Channel := { c with stp := { c.stp with st := .applying, skipPending := some t } }

/-- The channel with the attempt dropped. -/
def Channel.skipped (c : Channel) (t : Token) : Channel :=
  { c with
    nmon := { c.nmon with step := c.nmon.step + 1 }
    abl := { c.abl with heldTok := none }
    stp := { c.stp with
      lsexp := t.lsexp, lsclean := 0, skips := c.stp.skips + 1, skipTotal := satAdd c.stp.skipTotal 1, skipPending := none } }

section
variable {w : Wk} {t : Token} {k : TokKind} {p : Plan}

theorem skipToken_eq (hk : t.kind = k) (ht : w.c.training = true) (hf : w.c.flt.fault = false) (hs : w.c.stp.st ≠ .starting)
    (hr : w.c.stp.st ≠ .rollback) (step : t.step = w.c.nmon.step) (hn : w.c.newer t = false) :
    skipToken w k t = ({ w with c := (w.c.relayed t w.c.flt.members).skips t } : Wk).goOnSkip := by
  unfold skipToken
  dsimp only
  rw [if_pos hk]
  generalize hd : w.c.relayed t w.c.flt.members = d
  have goes : (decide (t.kind = k) && d.training && !d.flt.fault && d.stp.st != .starting && d.stp.st != .rollback &&
      t.step == d.nmon.step && !d.newer t) = true := by
    rw [← hd, Channel.relayed_training, Channel.relayed_fault, Channel.relayed_stp, Channel.relayed_newer, Channel.relayed_nmon,
      decide_eq_true hk, ht, hf, bne_iff_ne.mpr hs, bne_iff_ne.mpr hr, beq_iff_eq.mpr step, hn]
    rfl
  have taken : (w.c.takeMsg 4).relay t (w.c.takeMsg 4).flt.members = d := hd
  rw [taken]
  exact if_pos goes

theorem Wk.goOnSkip_eq {d : Channel} {stop : Bool} (hs : w.c.stp.skipPending = some t) (hp : w.c.stp.plan = some p)
    (hd : d = (List.range (p.mb + 1)).foldl (fun c _ => segmentIssue c .bwd) w.c) (stopped : stop = d.anyStopped d.tokenRanges) :
    w.goOnSkip = if (d.backwardDone p && !stop) = true then ({ w with c := d } : Wk).applySkip t else { w with c := d } := by
  subst hd stopped
  unfold Wk.goOnSkip
  rw [hs, hp]

/-- The skip over memory that Adori can read. -/
theorem Wk.applySkip_spec (hf : (w.c.adoriRead w.c.tokenRanges).flt.fault = false) : ∃ d, Kept w.c d ∧
    (w.applySkip t).c = if t.kind = .halt then { d.skipped t with stp := { (d.skipped t).stp with st := .halted } }
      else (d.skipped t).startAttempt := by
  unfold Wk.applySkip
  extract_lets w1 w2 c1 nmon abl stp c2
  have kept : Kept w.c c1 := (((Kept.adoriRead w.c _ []).trans (Kept.discardPending w1)).trans
    (Kept.foldTrackers w1.discardPending false t.dls)).trans (Kept.zeroBank w2.c)
  refine ⟨c1, kept, ?_⟩
  rw [if_neg (ne_true_of_eq_false hf)]
  clear kept
  clear_value c1 w2
  rfl

end

/-- What a skip sets, in two channels alike. -/
structure SameSkip (c d : Channel) : Prop where
  ver : d.stp.ver = c.stp.ver
  lsexp : d.stp.lsexp = c.stp.lsexp
  lsclean : d.stp.lsclean = c.stp.lsclean
  skips : d.stp.skips = c.stp.skips
  step : d.nmon.step = c.nmon.step
  total : d.stp.skipTotal = c.stp.skipTotal

theorem SameSkip.of_kept {c d : Channel} (h : Kept c d) : SameSkip c d :=
  ⟨by rw [h.stays.stp], by rw [h.stays.stp], by rw [h.stays.stp], by rw [h.stays.stp], h.stays.step, by rw [h.stays.stp]⟩

theorem SameSkip.startAttempt (c : Channel) : SameSkip c c.startAttempt := by
  obtain ⟨d, kept, h | h | h⟩ := c.startAttempt_kept <;> rw [h] <;> obtain ⟨ver, lsexp, lsclean, skips, step, total⟩ := of_kept kept
  · exact ⟨ver, lsexp, lsclean, skips, step, total⟩
  · exact ⟨ver, lsexp, lsclean, skips, step, total⟩
  · exact ⟨ver, lsexp, lsclean, skips, step, total⟩

/-- What a skip leaves. -/
theorem Wk.applySkip_same {w : Wk} {t : Token} (hf : (w.c.adoriRead w.c.tokenRanges).flt.fault = false) :
    ∃ d, Kept w.c d ∧ SameSkip (d.skipped t) (w.applySkip t).c ∧ (t.kind = .halt → (w.applySkip t).c.stp.st = .halted) := by
  obtain ⟨d, kept, e⟩ := Wk.applySkip_spec (t := t) hf
  refine ⟨d, kept, ?_⟩
  rw [e]
  split
  · exact ⟨⟨rfl, rfl, rfl, rfl, rfl, rfl⟩, fun _ => rfl⟩
  · exact ⟨SameSkip.startAttempt _, fun h => absurd h ‹_›⟩

/-! ### START -/

/-- The channel as START has it, with Moraine as it was. -/
def Channel.startsAt (c : Channel) (t : Token) (m : Membership) (last : W32) : Channel :=
  let first := c.stp.st == .starting
  { c with
    flt := { c.flt with members := m, removed := c.outside m, quiesced := false, recovLast := last }
    stp := { c.stp with
      ver := t.ver, batch := t.batch, lsexp := t.lsexp, lsexpCommit := t.lsexp
      lscleanCommit := if first then c.stp.lsclean else c.stp.lscleanCommit }
    nmon := { c.nmon with step := if first then c.nmon.step else t.step } }

/-- No Moraine is paused. -/
def Channel.unpaused (c : Channel) : Channel :=
  (List.finRange 8).foldl (fun c k => c.modCore k fun x => { x with mor := { x.mor with pause := false } }) c

theorem Channel.unpaused_stays (c : Channel) : Stays c c.unpaused :=
  Stays.foldl (fun c k => Stays.setPause c false k) _ c

theorem Channel.unpaused_pause (c : Channel) (k : Core) : c.unpaused.cores[k].mor.pause = false := by
  unfold Channel.unpaused
  rw [foldl_pause (fun c k j => c.setPause_pause false k j) (List.finRange 8) c k (List.mem_finRange k)]

/-- At the first start the misfit state words are copied. -/
def Channel.firstCopy (c : Channel) (first : Bool) : Channel := if first then c.misfitRead.copyMisfit else c

/-- A halted channel. -/
def Channel.asHalted (c : Channel) : Channel := { c with stp := { c.stp with st := .halted } }

/-- A channel whose module has left halts, another starts the attempt. -/
def Channel.startOrHalt (c : Channel) (out : Bool) : Channel := if out then c.asHalted.sendHb else c.startAttempt

/-- What START sets. -/
structure Taken (c : Channel) (t : Token) (m : Membership) (d : Channel) : Prop where
  ver : d.stp.ver = t.ver
  batch : d.stp.batch = t.batch
  lsexp : d.stp.lsexp = t.lsexp
  members : d.flt.members = m
  removed : d.flt.removed = c.outside m
  step : d.nmon.step = if c.stp.st = .starting then c.nmon.step else t.step
  pause : ∀ k : Core, d.cores[k].mor.pause = false

/-- What lets an attempt start, in two channels alike. -/
structure MayStart (c d : Channel) : Prop where
  plan : d.stp.plan = c.stp.plan
  inputs : d.inputs = c.inputs
  running : d.running = c.running
  overtemp : ∀ i : Stack, d.stk[i].overtemp = c.stk[i].overtemp

section
variable {c d e : Channel} {t : Token} {m : Membership}

theorem Taken.of_kept (h : Taken c t m d) (k : Kept d e) : Taken c t m e :=
  ⟨by rw [k.stays.stp, h.ver], by rw [k.stays.stp, h.batch], by rw [k.stays.stp, h.lsexp], k.stays.members.trans h.members,
    k.stays.removed.trans h.removed, k.stays.step.trans h.step, fun i => (k.pause i).trans (h.pause i)⟩

theorem Taken.withStp (h : Taken c t m d) {x : Stp} (ver : x.ver = d.stp.ver) (batch : x.batch = d.stp.batch)
    (lsexp : x.lsexp = d.stp.lsexp) : Taken c t m { d with stp := x } :=
  ⟨ver.trans h.ver, batch.trans h.batch, lsexp.trans h.lsexp, h.members, h.removed, h.step, h.pause⟩

theorem Taken.startAttempt (h : Taken c t m d) : Taken c t m d.startAttempt := by
  obtain ⟨e, kept, h' | h' | h'⟩ := d.startAttempt_kept <;> rw [h']
  · exact h.of_kept kept
  · exact (h.of_kept kept).withStp rfl rfl rfl
  · exact (h.of_kept kept).withStp rfl rfl rfl

theorem Taken.startOrHalt (h : Taken c t m d) (out : Bool) : Taken c t m (d.startOrHalt out) := by
  unfold Channel.startOrHalt
  split
  · have halts : Taken c t m d.asHalted := h.withStp rfl rfl rfl
    exact halts.of_kept (Kept.sendHb d.asHalted)
  · exact h.startAttempt

theorem Taken.firstCopy (h : Taken c t m d) (first : Bool) : Taken c t m (d.firstCopy first) := by
  unfold Channel.firstCopy Channel.copyMisfit
  split
  · split
    · exact h.of_kept (Kept.misfitRead d)
    · exact (h.of_kept (Kept.misfitRead d)).withStp rfl rfl rfl
  · exact h

theorem MayStart.refl (c : Channel) : MayStart c c := ⟨rfl, rfl, rfl, fun _ => rfl⟩

theorem MayStart.trans (h : MayStart c d) (g : MayStart d e) : MayStart c e :=
  ⟨g.plan.trans h.plan, g.inputs.trans h.inputs, g.running.trans h.running, fun i => (g.overtemp i).trans (h.overtemp i)⟩

theorem MayStart.refreezing (h : MayStart c d) : d.refreezing = c.refreezing := by
  unfold Channel.refreezing
  rw [h.inputs, h.running]

theorem MayStart.foldl {α : Type} {f : Channel → α → Channel} (h : ∀ c a, MayStart c (f c a)) (l : List α) (c : Channel) :
    MayStart c (l.foldl f c) := by
  induction l generalizing c with
  | nil => exact refl c
  | cons a l ih => exact (h c a).trans (ih _)

theorem MayStart.unpaused (c : Channel) : MayStart c c.unpaused := by
  have one (c : Channel) (k : Core) : MayStart c (c.modCore k fun x => { x with mor := { x.mor with pause := false } }) :=
    ⟨rfl, rfl, rfl, fun _ => rfl⟩
  exact foldl one _ c

theorem MayStart.firstCopy (c : Channel) (first : Bool) : MayStart c (c.firstCopy first) := by
  have read : MayStart c c.misfitRead := by
    have stays := (Kept.misfitRead c).stays
    have noted : Noted c c.misfitRead := by
      unfold Channel.misfitRead
      split
      · exact Noted.refl c
      · exact Noted.adoriRead c _ _
    exact ⟨by rw [stays.stp], noted.inputs, noted.running, stays.overtemp⟩
  unfold Channel.firstCopy Channel.copyMisfit
  split
  · split
    · exact read
    · exact read.trans ⟨rfl, rfl, rfl, fun _ => rfl⟩
  · exact refl c

end

section
variable {w : Wk} {t : Token} {m : Membership}

theorem Channel.relayed_nogroup (c : Channel) (t : Token) (m : Membership) : (c.relayed t m).flt.nogroup = c.flt.nogroup := by
  rw [c.relayed_eq t m]

theorem Channel.relayed_ready (c : Channel) (t : Token) (m : Membership) : (c.relayed t m).flt.ready = c.flt.ready := by
  rw [c.relayed_eq t m]

theorem Channel.relayed_outside (c : Channel) (t : Token) (m u : Membership) : (c.relayed t m).outside u = c.outside u := by
  unfold Channel.outside Channel.chid
  rw [c.relayed_eq t m]

theorem MayStart.relayed (c : Channel) (t : Token) (m : Membership) : MayStart c (c.relayed t m) := by
  rw [c.relayed_eq t m]
  exact ⟨rfl, rfl, rfl, fun _ => rfl⟩

theorem startToken_nogroup (hk : t.kind = .start) (hn : w.c.flt.nogroup = true) :
    startToken w t m = { w with c := w.c.relayed t m } := by
  unfold startToken
  dsimp only
  rw [if_pos hk]
  generalize hd : w.c.relayed t m = d
  have taken : (w.c.takeMsg 4).relay t m = d := hd
  have off : d.flt.nogroup = true := by rw [← hd, w.c.relayed_nogroup t m, hn]
  rw [taken]
  refine if_neg (ne_true_of_eq_false ?_)
  rw [off]
  simp only [Bool.not_true, Bool.and_false, Bool.false_and]

theorem startToken_takes (hk : t.kind = .start) (hf : w.c.flt.fault = false) (hn : w.c.flt.nogroup = false)
    (hs : w.c.stp.st = .starting ∨ (w.c.stp.st = .rollback ∧ w.c.flt.ready = true)) : ∃ d last, Kept (w.c.relayed t m) d ∧
      MayStart (w.c.relayed t m) d ∧ (startToken w t m).c =
        ((d.startsAt t m last).unpaused.firstCopy (d.stp.st == .starting)).startOrHalt (d.outside m) := by
  unfold startToken
  dsimp only
  rw [if_pos hk]
  generalize hd : w.c.relayed t m = d
  have goes : (decide (t.kind = .start) && !d.flt.fault && !d.flt.nogroup &&
      (decide (d.stp.st = .starting) || (d.stp.st == .rollback && d.flt.ready))) = true := by
    rw [← hd, Channel.relayed_fault, Channel.relayed_stp, Channel.relayed_nogroup, Channel.relayed_ready, decide_eq_true hk, hf, hn]
    rcases hs with h | ⟨h, hr⟩
    · rw [h]
      rfl
    · rw [h, hr]
      rfl
  have taken : (w.c.takeMsg 4).relay t m = d := hd
  rw [taken]
  dsimp only
  rw [if_pos goes]
  have kept := Kept.time { w with c := d }
  have may : MayStart d (Wk.time { w with c := d }).1.c := ⟨rfl, rfl, rfl, fun _ => rfl⟩
  generalize Wk.time { w with c := d } = p at kept may
  obtain ⟨v, now⟩ := p
  have st : d.stp.st = v.c.stp.st := by rw [kept.stays.stp]
  refine ⟨v.c, if d.stp.st == .starting then v.c.flt.recovLast else
    BitVec.ofNat 32 (min ((now - v.c.flt.rbTime).toNat / 50) (2 ^ 32 - 1)), kept, may, ?_⟩
  rw [st]
  rfl

end

/-- What START leaves of a channel that takes it. -/
theorem startToken_taken {w : Wk} {t : Token} {m : Membership} (hk : t.kind = .start) (hf : w.c.flt.fault = false)
    (hn : w.c.flt.nogroup = false) (hs : w.c.stp.st = .starting ∨ (w.c.stp.st = .rollback ∧ w.c.flt.ready = true)) :
    Taken w.c t m (startToken w t m).c ∧ ∃ d, MayStart w.c d ∧ (startToken w t m).c = d.startOrHalt (w.c.outside m) := by
  obtain ⟨d, last, kept, may, e⟩ := startToken_takes (m := m) hk hf hn hs
  have out : d.outside m = w.c.outside m := (kept.stays.outside m).trans (w.c.relayed_outside t m m)
  have st : d.stp.st = w.c.stp.st := by rw [kept.stays.stp, w.c.relayed_stp t m]
  have step : d.nmon.step = w.c.nmon.step := by rw [kept.stays.step, w.c.relayed_nmon t m]
  have unpaused := (d.startsAt t m last).unpaused_stays
  have taken : Taken w.c t m (d.startsAt t m last).unpaused := by
    refine ⟨by rw [unpaused.stp]; rfl, by rw [unpaused.stp]; rfl, by rw [unpaused.stp]; rfl, unpaused.members,
      unpaused.removed.trans out, unpaused.step.trans ?_, Channel.unpaused_pause _⟩
    have first : (d.startsAt t m last).nmon.step = if (d.stp.st == .starting) = true then d.nmon.step else t.step := rfl
    rw [first, st, step]
    simp only [beq_iff_eq]
  rw [e, out]
  have begun : MayStart d (d.startsAt t m last) := ⟨rfl, rfl, rfl, fun _ => rfl⟩
  exact ⟨(taken.firstCopy _).startOrHalt _, _, (((MayStart.relayed w.c t m).trans may).trans begun).trans
    ((MayStart.unpaused _).trans (MayStart.firstCopy _ _)), rfl⟩

/-! ### ROLLBACK -/

/-- A ROLLBACK stops the attempt. -/
def Channel.rollsBack (c : Channel) (t : Token) (now : W64) : Channel :=
  { c with
    stp := { c.stp with st := .rollback, rolledBack := true, rbTotal := satAdd c.stp.rbTotal 1 }
    flt := { c.flt with
      ready := false, quiesced := false, rbTime := now, catchUp := if c.newer t then some t.ver else none } }

section
variable {w : Wk} {t : Token}

theorem rollbackToken_again (hk : t.kind = .rollback) (hr : w.c.stp.st = .rollback) (hf : w.c.flt.fault = false) :
    rollbackToken w t = ({ w with c := w.c.relayed t w.c.flt.members } : Wk).recover := by
  unfold rollbackToken
  dsimp only
  rw [if_pos hk]
  generalize hd : w.c.relayed t w.c.flt.members = d
  have taken : (w.c.takeMsg 4).relay t (w.c.takeMsg 4).flt.members = d := hd
  have st : d.stp.st = .rollback := by rw [← hd, Channel.relayed_stp, hr]
  have passes : (t.kind != .rollback || !d.training || decide (d.stp.st = .starting) || d.flt.fault) = false := by
    have training : d.training = true := by
      unfold Channel.training
      rw [st]
    rw [← hd, Channel.relayed_fault, Channel.relayed_stp, hf, hd, training, hk, hr]
    rfl
  rw [taken]
  dsimp only
  rw [if_neg (ne_true_of_eq_false passes), if_pos st]

theorem rollbackToken_stops (hk : t.kind = .rollback) (ht : w.c.training = true) (hs : w.c.stp.st ≠ .starting)
    (hr : w.c.stp.st ≠ .rollback) (hf : w.c.flt.fault = false) : ∃ (v : Wk) (now : W64),
      Kept (w.c.relayed t w.c.flt.members) v.c ∧
      rollbackToken w t = ({ v with c := v.c.rollsBack t now } : Wk).quiesce.recover := by
  unfold rollbackToken
  dsimp only
  rw [if_pos hk]
  generalize hd : w.c.relayed t w.c.flt.members = d
  have taken : (w.c.takeMsg 4).relay t (w.c.takeMsg 4).flt.members = d := hd
  have st : d.stp.st = w.c.stp.st := by rw [← hd, Channel.relayed_stp]
  have passes : (t.kind != .rollback || !d.training || decide (d.stp.st = .starting) || d.flt.fault) = false := by
    rw [st, ← hd, Channel.relayed_fault, Channel.relayed_training, hf, ht, decide_eq_false hs, hk]
    rfl
  rw [taken]
  dsimp only
  rw [if_neg (ne_true_of_eq_false passes), if_neg (by rw [st]; exact hr)]
  exact ⟨(Wk.time { w with c := d }).1, (Wk.time { w with c := d }).2, Kept.time { w with c := d }, rfl⟩

/-- What a ROLLBACK leaves. -/
theorem rollbackToken_spec (hk : t.kind = .rollback) (ht : w.c.training = true) (hs : w.c.stp.st ≠ .starting)
    (hr : w.c.stp.st ≠ .rollback) (hf : w.c.flt.fault = false) : ∃ d, (rollbackToken w t).c = d ∧ d.stp.st = .rollback ∧
      d.stp.rolledBack = true ∧ d.stp.rbTotal = satAdd w.c.stp.rbTotal 1 ∧
      d.stp.ver = (if d.flt.quiesced = true ∧ w.c.newer t = true then t.ver else w.c.stp.ver) ∧
      d.nmon.step = w.c.nmon.step ∧ ∀ k : Core, d.cores[k].mor.pause = true := by
  obtain ⟨v, now, kept, e⟩ := rollbackToken_stops hk ht hs hr hf
  have stp : v.c.stp = w.c.stp := kept.stays.stp.trans (w.c.relayed_stp t _)
  have newer : v.c.newer t = w.c.newer t := by
    unfold Channel.newer
    rw [stp]
  obtain ⟨quiesced, paused⟩ := Wk.quiesce_stays { v with c := v.c.rollsBack t now }
  rw [e]
  generalize ({ v with c := v.c.rollsBack t now } : Wk).quiesce = x at quiesced paused
  have back := Wk.recover_spec (w := x) quiesced.quiesced
  refine ⟨_, rfl, ?_, ?_, ?_, ?_, ?_, fun k => (back.pause k).trans (paused k)⟩
  · rw [back.st, quiesced.stp]
    rfl
  · rw [back.rolledBack, quiesced.stp]
    rfl
  · rw [back.total, quiesced.stp, ← stp]
    rfl
  · have ver : (v.c.rollsBack t now).stp.ver = v.c.stp.ver := rfl
    have catchUp : (v.c.rollsBack t now).flt.catchUp = if v.c.newer t = true then some t.ver else none := rfl
    rw [back.ver, quiesced.stp, quiesced.catchUp, ver, catchUp, newer, stp]
    cases x.recover.c.flt.quiesced <;> cases w.c.newer t <;> rfl
  · exact back.step.trans (quiesced.step.trans (kept.stays.step.trans (congrArg Nmon.step (w.c.relayed_nmon t _))))

end

/-! ### The obligation -/

/-- Settles O42: each token by the member's state; a skip and a rollback by what their work keeps, a start by what it sets. -/
theorem otherTokens : Obligations.OtherTokens := by
  unfold Obligations.OtherTokens
  refine ⟨?_, ?_⟩
  · rintro s ch c c1 d t p w i stop hc hu hi ht hf hs hr step hn hp hc1 hd hstop
    have work : (s.work ch).c = c := hc
    have token (k : TokKind) (hk : t.kind = k) : skipToken (s.work ch) k t =
        if (d.backwardDone p && !stop) = true then ({ s.work ch with c := d } : Wk).applySkip t else { s.work ch with c := d } := by
      rw [skipToken_eq hk (by rw [work, ht]) (by rw [work, hf]) (by rw [work]; exact hs) (by rw [work]; exact hr)
        (by rw [work, step]) (by rw [work, hn])]
      refine Wk.goOnSkip_eq rfl ?_ ?_ hstop
      · dsimp only [Channel.skips]
        rw [work, Channel.relayed_stp, hp]
      · rw [hd, hc1, work]
        dsimp only [Channel.skips]
        rw [Channel.relayed_stp]
        rfl
    have row : ∃ k, t.kind = k ∧ exec i s = .next (onUp s ch fun w => skipToken w k t) := by
      rcases hi with ⟨rfl, hk⟩ | ⟨rfl, hk⟩
      · exact ⟨_, hk, rfl⟩
      · exact ⟨_, hk, rfl⟩
    obtain ⟨k, hk, row⟩ := row
    have token := token k hk
    refine ⟨fun hb hst => ?_, fun hor => ?_, fun hr => ?_⟩
    · rw [hb, hst, Bool.not_false, Bool.true_and, if_pos rfl] at token
      rw [row, onUp_eq (by rw [hc]; exact hu), token]
    · have waits : (d.backwardDone p && !stop) = false := by
        rcases hor with h | h <;> rw [h]
        · exact Bool.false_and _
        · exact Bool.and_false _
      rw [waits, if_neg Bool.false_ne_true] at token
      exact exec_onUp hc hu row token
    · obtain ⟨x, kept, same, halted⟩ := Wk.applySkip_same (t := t) hr
      refine ⟨?_, same.lsexp, same.lsclean, ?_, ?_, ?_, halted⟩
      · rw [same.ver, ← kept.stays.stp]
        rfl
      · rw [same.skips, ← kept.stays.stp]
        rfl
      · rw [same.step, ← kept.stays.step]
        rfl
      · rw [same.total, ← kept.stays.stp]
        rfl
  · rintro s ch c t m hc hu
    have work : (s.work ch).c = c := hc
    have up : s.chans[ch].up = true := by rw [hc]; exact hu
    refine ⟨fun hk hn => ?_, fun hk hf hn hs => ?_, fun hk ht hs hf => ⟨fun hr => ?_, fun hr => ?_⟩⟩
    · have token := startToken_nogroup (w := s.work ch) (m := m) hk (by rw [work, hn])
      rw [work] at token
      exact exec_onUp hc hu rfl token
    · obtain ⟨taken, d, may, e⟩ := startToken_taken (w := s.work ch) (m := m) hk (by rw [work, hf]) (by rw [work, hn])
        (by rw [work]; exact hs)
      rw [work] at taken may e
      refine ⟨_, _, congrArg Host.Outcome.next (onUp_eq up _), State.after_self _ _ _, taken.ver, taken.batch, taken.lsexp,
        taken.members, taken.removed, taken.step, taken.pause, fun out => ?_, fun out plan idle cool => ?_⟩
      · dsimp only
        rw [e, out]
        unfold Channel.startOrHalt
        rw [if_pos rfl, (Kept.sendHb d.asHalted).stays.stp]
        rfl
      · obtain ⟨x, -, begins⟩ := Channel.startAttempt_begins (c := d) (by rw [may.plan]; exact plan) (may.refreezing.trans idle)
          fun i => (may.overtemp i).trans (cool i)
        dsimp only
        rw [e, out]
        unfold Channel.startOrHalt
        rw [if_neg Bool.false_ne_true, begins]
        exact ⟨rfl, rfl⟩
    · obtain ⟨d, e, st, rolledBack, total, ver, step, pause⟩ := rollbackToken_spec (w := s.work ch) hk (by rw [work]; exact ht)
        (by rw [work]; exact hs) (by rw [work]; exact hr) (by rw [work]; exact hf)
      rw [work] at total ver step
      subst e
      exact ⟨_, _, congrArg Host.Outcome.next (onUp_eq up _), State.after_self _ _ _, st, rolledBack, total, ver, step, pause⟩
    · have token := rollbackToken_again (w := s.work ch) (t := t) hk (by rw [work]; exact hr) (by rw [work]; exact hf)
      rw [work] at token
      exact congrArg Host.Outcome.next ((onUp_eq up _).trans (congrArg _ token))

end Sys2Proof.Machine
end

