-- ==== Sys2Proof/Proofs/SourcesPassed.lean ====
section
/-!
SUPPORT. The sources of an engine that it passes over (02 R29 to R31): what trying a queue's head or the dispatch input does in each
case, and the channel that is left.
-/
namespace Sys2Proof.Machine

open Sys2Proof

/-! ### Marks of a queue -/

/-- The queue that waits on its semaphore. -/
def Queue.marked (x : Queue) (early : List (Nat × List Byte)) : Queue := { x with semWait := true, early := early }

/-- What decides whether a queue's head waits does not look at the marks. -/
structure SameHeads (c d : Channel) : Prop where
  rest : d = { c with queues := d.queues }
  queue : ∀ j : QIdx, ∃ b ear, d.queues[j] = { c.queues[j] with semWait := b, early := ear }

namespace SameHeads

variable {c d e : Channel}

theorem refl (c : Channel) : SameHeads c c := ⟨rfl, fun j => ⟨c.queues[j].semWait, c.queues[j].early, rfl⟩⟩

theorem trans (h : SameHeads c d) (g : SameHeads d e) : SameHeads c e := by
  refine ⟨by rw [g.rest, h.rest], fun j => ?_⟩
  obtain ⟨b, ear, hd⟩ := h.queue j
  obtain ⟨b', ear', he⟩ := g.queue j
  exact ⟨b', ear', by rw [he, hd]⟩

theorem marked (c : Channel) (q : QIdx) (early : List (Nat × List Byte)) : SameHeads c (c.modQ q fun x => x.marked early) := by
  refine ⟨rfl, fun j => ?_⟩
  rw [Channel.modQ_get]
  split
  · rename_i hj
    subst hj
    exact ⟨true, early, rfl⟩
  · exact ⟨c.queues[j].semWait, c.queues[j].early, rfl⟩

theorem offers (h : SameHeads c d) (j : QIdx) : d.offers j = c.offers j := by
  obtain ⟨b, ear, hj⟩ := h.queue j
  unfold Channel.offers
  rw [hj, h.rest]
  rfl

theorem headOf (h : SameHeads c d) (j : QIdx) : d.headOf j = c.headOf j := by
  obtain ⟨b, ear, hj⟩ := h.queue j
  unfold Channel.headOf
  rw [hj, h.rest]
  rfl

theorem offersLive (h : SameHeads c d) (j : QIdx) : d.offersLive j ↔ c.offersLive j := by
  obtain ⟨b, ear, hj⟩ := h.queue j
  unfold Channel.offersLive
  rw [h.offers j, h.headOf j, hj, h.rest]
  exact Iff.rfl

theorem waitsOnSem (h : SameHeads c d) (j : QIdx) : d.waitsOnSem j ↔ c.waitsOnSem j := by
  unfold Channel.waitsOnSem
  rw [h.offersLive j, h.headOf j, h.rest]
  exact Iff.rfl

end SameHeads

/-! ### A queue's head -/

/-- What a queue looks like to its engine that cannot look at its head. -/
def Channel.shut (c : Channel) (q : QIdx) : Bool :=
  let x := c.queues[q]
  !x.enable || x.stopped || x.frozen || x.pi == x.ci || c.busyQ q || x.cplBlocked || c.stopped x.headAddr 64

theorem Channel.shut_eq (c : Channel) (q : QIdx) : c.shut q = !c.offers q := by
  unfold Channel.shut Channel.offers
  simp only [Bool.not_and, Bool.not_not, bne]

/-- The descriptors that a waiting head's engine has read. -/
def Channel.earlyFor (c : Channel) (e : Engine) (q : QIdx) : List (Nat × List Byte) :=
  match e with
  | .esker _ => if c.queues[q].early.isEmpty then captureDescs c (.queue q) (c.headOf q) else c.queues[q].early
  | _ => []

/-- A command of a queue that ends as it is taken. -/
def Channel.takes (c : Channel) (q : QIdx) (k : Command) (res : Result) : Running :=
  { src := .queue q, seq := c.queues[q].ci, cmd := k, step := c.nmon.step, stpVer := c.stp.ver, result := some res }

section
variable {w : Wk} {e : Engine} {q : QIdx}

theorem Wk.tryQueue_shut (h : w.c.offers q = false) : w.tryQueue e q = (w, false) := by
  unfold Wk.tryQueue
  exact if_pos ((w.c.shut_eq q).trans (by rw [h]; rfl))

section
variable (ho : w.c.offers q = true)
include ho

theorem Wk.tryQueue_unread {a : Nat} (hb : w.c.badIn w.c.queues[q].headAddr 64 false = some a) : w.tryQueue e q =
    ({ w with c := { (w.c.popQ q).noteUe a false with running := ((w.c.popQ q).noteUe a false).running ++
        [w.c.takes q (Command.parse []) { status := 0x16, info := BitVec.ofNat 64 a }] } }, true) := by
  have opened : ¬w.c.shut q = true := by rw [w.c.shut_eq q, ho]; decide
  unfold Wk.tryQueue
  dsimp only
  rw [hb]
  exact if_neg opened

theorem Wk.tryQueue_aborts (hb : w.c.badIn w.c.queues[q].headAddr 64 false = none)
    (ha : w.c.queues[q].aborts (w.c.headOf q) = true) : w.tryQueue e q =
      ({ w with c := { w.c.popQ q with running := (w.c.popQ q).running ++ [w.c.takes q (w.c.headOf q) { status := 0x1A }] } },
        true) := by
  have opened : ¬w.c.shut q = true := by rw [w.c.shut_eq q, ho]; decide
  unfold Wk.tryQueue
  dsimp only
  rw [hb]
  exact (if_neg opened).trans (if_pos ha)
end

section
variable (h : w.c.offersLive q)
include h

/-- A head that can be read and belongs to no ended attempt waits, is held up, or starts. -/
theorem Wk.tryQueue_live : w.tryQueue e q =
    if ((w.c.headOf q).waiten && !semOk (w.c.semVal (w.c.headOf q).wsem) (w.c.headOf q).wval) = true then
      ({ w with c := w.c.modQ q fun x => x.marked (w.c.earlyFor e q) }, false)
    else if (!w.c.canStart e (w.c.headOf q) ||
        (e == .dispatcher && w.c.floeWaits (w.c.headOf q) (w.c.headOf q).floe none none false)) = true then (w, false)
    else (({ w with c := w.c.popQ q } : Wk).begin e (.queue q) w.c.queues[q].ci (w.c.headOf q) none w.c.queues[q].early, true) := by
  obtain ⟨ho, hb, ha⟩ := h
  have opened : ¬w.c.shut q = true := by rw [w.c.shut_eq q, ho]; decide
  unfold Wk.tryQueue
  dsimp only
  rw [hb]
  exact (if_neg opened).trans (if_neg (ne_true_of_eq_false ha))

theorem Wk.tryQueue_starts (hw : ¬w.c.waitsOnSem q) (hh : ¬w.c.heldUp e q) : w.tryQueue e q =
    (({ w with c := w.c.popQ q } : Wk).begin e (.queue q) w.c.queues[q].ci (w.c.headOf q) none w.c.queues[q].early, true) := by
  have goes : (w.c.headOf q).waiten = true → semOk (w.c.semVal (w.c.headOf q).wsem) (w.c.headOf q).wval = true := fun hk =>
    Bool.not_eq_false _ ▸ fun hs => hw ⟨h, hk, hs⟩
  rw [Wk.tryQueue_live h, if_neg, if_neg]
  · intro held
    refine hh ⟨h, goes, ?_⟩
    rcases Bool.or_eq_true _ _ ▸ held with hc | hc
    · exact .inl (Bool.not_eq_true' _ ▸ hc)
    · obtain ⟨he, hf⟩ := Bool.and_eq_true _ _ ▸ hc
      exact .inr ⟨beq_iff_eq.mp he, hf⟩
  · intro waits
    obtain ⟨hk, hs⟩ := Bool.and_eq_true _ _ ▸ waits
    rw [goes hk] at hs
    exact absurd hs (by decide)
end

theorem Wk.tryQueue_waits (h : w.c.waitsOnSem q) : w.tryQueue e q =
    ({ w with c := w.c.modQ q fun x => x.marked (w.c.earlyFor e q) }, false) := by
  obtain ⟨live, hk, hs⟩ := h
  rw [Wk.tryQueue_live live, if_pos (by rw [hk, hs]; rfl)]

theorem Wk.tryQueue_held (h : w.c.heldUp e q) : w.tryQueue e q = (w, false) := by
  obtain ⟨live, goes, held⟩ := h
  rw [Wk.tryQueue_live live, if_neg, if_pos]
  · rcases held with hc | ⟨he, hf⟩
    · rw [hc]
      rfl
    · rw [hf, he]
      exact Bool.or_true _
  · intro waits
    obtain ⟨hk, hs⟩ := Bool.and_eq_true _ _ ▸ waits
    rw [goes hk] at hs
    exact absurd hs (by decide)

end

/-! ### The dispatch input -/

theorem Wk.tryInput_idle {w : Wk} {e : Engine} (h : w.c.inputIdle e) : w.tryInput e = (w, false) := by
  unfold Channel.inputIdle at h
  unfold Wk.tryInput
  dsimp only
  cases hi : w.c.inputs.find? fun p => p.1 == e with
  | none => rfl
  | some p =>
    obtain ⟨e', sh⟩ := p
    rw [hi] at h
    dsimp only at h ⊢
    by_cases he : e = .dispatcher
    · rw [if_pos he] at h ⊢
      exact if_pos h
    · rw [if_neg he] at h ⊢
      refine if_pos ?_
      rcases h with h | h <;> rw [h]
      · exact Bool.true_or _
      · exact Bool.or_true _

/-! ### Passing over -/

section
variable {e : Engine} {c m : Channel} {l : List Nat}

/-- The sources passed over change nothing but the marks of queues. -/
theorem PassedOver.sameHeads (h : PassedOver e c l m) : SameHeads c m := by
  induction h with
  | done c => exact SameHeads.refl c
  | queue c m q l _ _ ih => exact ih
  | waits c m q l early _ _ _ ih => exact (SameHeads.marked c q early).trans ih
  | input c m l _ _ ih => exact ih

/-- A queue that is not passed over, or does not wait, is left as it was. -/
theorem PassedOver.keeps (h : PassedOver e c l m) (j : QIdx) (hj : j.val ∉ l ∨ ¬c.waitsOnSem j) : m.queues[j] = c.queues[j] := by
  induction h with
  | done c => rfl
  | queue c m q l _ _ ih => exact ih (hj.imp_left fun h hm => h (List.mem_cons_of_mem _ hm))
  | waits c m q l early hw _ _ ih =>
    have other : j ≠ q := by
      rintro rfl
      rcases hj with hj | hj
      · exact hj List.mem_cons_self
      · exact hj hw
    have same := SameHeads.marked c q early
    refine (ih (hj.imp (fun h hm => h (List.mem_cons_of_mem _ hm)) fun h hm => h ((same.waitsOnSem j).mp hm))).trans ?_
    rw [Channel.modQ_get, if_neg other]
  | input c m l _ _ ih => exact ih (hj.imp_left fun h hm => h (List.mem_cons_of_mem _ hm))

/-- Once marked, a queue that waits stays marked. -/
theorem PassedOver.stays_marked (h : PassedOver e c l m) (j : QIdx) (hj : c.queues[j].semWait = true) :
    m.queues[j].semWait = true := by
  induction h with
  | done c => exact hj
  | queue c m q l _ _ ih => exact ih hj
  | waits c m q l early _ _ _ ih =>
    refine ih ?_
    rw [Channel.modQ_get]
    split
    · rfl
    · exact hj
  | input c m l _ _ ih => exact ih hj

/-- A queue that is passed over as it waits is marked. -/
theorem PassedOver.marks (h : PassedOver e c l m) (j : QIdx) (hj : j.val ∈ l) (hw : c.waitsOnSem j) :
    m.queues[j].semWait = true := by
  induction h with
  | done c => exact absurd hj List.not_mem_nil
  | queue c m q l hq _ ih =>
    rcases List.mem_cons.mp hj with hj | hj
    · obtain ⟨⟨ho, live⟩, hk, hs⟩ := hw
      have same : j = q := Fin.ext hj
      subst same
      rcases hq with hq | ⟨_, goes, _⟩
      · exact absurd (ho.symm.trans hq) (by decide)
      · exact absurd ((goes hk).symm.trans hs) (by decide)
    · exact ih hj hw
  | waits c m q l early _ _ passed ih =>
    have same := SameHeads.marked c q early
    rcases List.mem_cons.mp hj with hj | hj
    · refine passed.stays_marked j ?_
      rw [Channel.modQ_get, if_pos (Fin.ext hj)]
    · exact ih hj ((same.waitsOnSem j).mpr hw)
  | input c m l _ _ ih =>
    rcases List.mem_cons.mp hj with hj | hj
    · exact absurd hj (by omega)
    · exact ih hj hw

/-- A source tried: the work after, and whether a command started. -/
def Wk.tries (w : Wk) (e : Engine) (i : Nat) : Wk × Bool := if h : i < 160 then w.tryQueue e ⟨i, h⟩ else w.tryInput e

theorem Wk.tries_queue (w : Wk) (e : Engine) (q : QIdx) : w.tries e q.val = w.tryQueue e q := dif_pos q.isLt

theorem Wk.tries_input (w : Wk) (e : Engine) : w.tries e 160 = w.tryInput e := rfl

theorem Wk.serve_cons (w : Wk) (e : Engine) (i : Nat) (rest : List Nat) : w.serve e (i :: rest) =
    if (w.tries e i).2 then (w.tries e i).1.mod fun c => { c with rr := (e, i) :: c.rr.filter fun p => p.1 != e }
    else (w.tries e i).1.serve e rest := rfl

/-- An engine that has passed over sources goes on with the rest. -/
theorem PassedOver.serve (h : PassedOver e c l m) (w : Wk) (hw : w.c = c) (rest : List Nat) :
    w.serve e (l ++ rest) = ({ w with c := m } : Wk).serve e rest := by
  induction h generalizing w with
  | done c =>
    subst hw
    rfl
  | queue c m q l hq _ ih =>
    have nothing : w.tries e q.val = (w, false) := by
      subst hw
      rw [w.tries_queue e q]
      rcases hq with hq | hq
      · exact Wk.tryQueue_shut hq
      · exact Wk.tryQueue_held hq
    rw [List.cons_append, Wk.serve_cons, nothing]
    exact ih w hw
  | waits c m q l early hq he _ ih =>
    subst hw he
    rw [List.cons_append, Wk.serve_cons, w.tries_queue e q, Wk.tryQueue_waits hq]
    exact ih { w with c := w.c.modQ q fun x => x.marked (w.c.earlyFor e q) } rfl
  | input c m l hi _ ih =>
    subst hw
    rw [List.cons_append, Wk.serve_cons, w.tries_input e, Wk.tryInput_idle hi]
    exact ih w rfl

end

end Sys2Proof.Machine
end

