-- ==== Sys2Proof/Proofs/CommandStart.lean ====
section
/-!
COMMAND_START (O13; 02 R29 to R33): the sources passed over, what the start of a command leaves, and the row of each head.
-/
namespace Sys2Proof.Machine

open Sys2Proof

/-! ### What starts -/

/-- A command joins those that run. -/
def Channel.addRun (c : Channel) (r : Running) : Channel := { c with running := c.running ++ [r] }

theorem Channel.findRun_addRun {c : Channel} {r : Running} (h : c.findRun r.src = none) : (c.addRun r).findRun r.src = some r := by
  unfold Channel.findRun Channel.addRun at *
  rw [List.find?_append, h, List.find?_cons, beq_self_eq_true]
  rfl

/-- A floe command joins those that run. -/
def Channel.addFloe (c : Channel) (src : Src) (seq : W32) (k : Command) (level : Nat) (ms : List MemberState) (ext : Option Nat)
    (from_ : Option ShareRef) : Channel :=
  { c with floes := c.floes ++ [⟨c.nextFloe, src, seq, k, level, ms, ext, from_⟩], nextFloe := c.nextFloe + 1 }

/-- The units that a command of an engine holds. -/
def Channel.unitsFor (c : Channel) (e : Engine) (k : Command) : List ArrUnit :=
  match e with
  | .array _ => c.unitsOf k
  | _ => []

/-- The channel as an engine takes a command: its clock and rows are on. -/
def Channel.entered (c : Channel) (e : Engine) (k : Command) : Channel := (c.wakeFor e k).rowsFor e (c.unitsFor e k)

/-- A command as it starts. -/
def Channel.startRun (c : Channel) (e : Engine) (src : Src) (seq : W32) (k : Command) (sh : Option Share)
    (early : List (Nat × List Byte)) : Running :=
  { src := src, seq := seq, cmd := k, share := sh, step := (c.entered e k).nmon.step, stpVer := (c.entered e k).stp.ver
    copies := if early.isEmpty then captureDescs (c.entered e k) src k else early, units := c.unitsFor e k
    begun := if k.opc = 0x50 then some ((c.entered e k).regionStart (bits k.a1.toNat 47 0)) else none }

/-- A command that ends as it starts. -/
def Running.ends (r : Running) (res : Result) : Running := { r with result := some res }

/-- A command ends as it starts with an error. -/
def Channel.refuse (c : Channel) (r : Running) (x : Err) : Channel := (c.fail r x).1.addRun (r.ends (c.fail r x).2)

/-- d is c but for clocks and rows. -/
def OnlyTuned (c d : Channel) : Prop := d = { c with gov := d.gov, cores := d.cores }

theorem OnlyTuned.wake (c : Channel) (p : PllId) : OnlyTuned c (c.wake p) := by
  unfold Channel.wake
  cases p with
  | chanA => rfl
  | core k =>
    dsimp only
    split
    · rfl
    · unfold OnlyTuned
      rw [(Retuned.settle _).gov]

theorem OnlyTuned.wakeFor (c : Channel) (e : Engine) (k : Command) : OnlyTuned c (c.wakeFor e k) := by
  unfold Channel.wakeFor
  cases e with
  | array m => exact wake c _
  | moraine m => exact wake c _
  | esker m => exact wake c _
  | confluence => rfl
  | dispatcher => rfl
  | ablation a =>
    dsimp only
    split
    · exact wake c _
    · rfl

theorem OnlyTuned.entered (c : Channel) (e : Engine) (k : Command) : OnlyTuned c (c.entered e k) := by
  have woken := wakeFor c e k
  unfold Channel.entered
  generalize c.wakeFor e k = d at woken
  unfold Channel.rowsFor
  unfold OnlyTuned at *
  cases e with
  | array m =>
    dsimp only [Channel.modCore]
    rw [woken]
  | _ => exact woken

/-! ### What the start of a command leaves -/

/-- What holds of a command's start whatever the opcode. -/
structure Enters (c : Channel) (src : Src) (seq : W32) (k : Command) (sh : Option Share) (d : Channel) (r : Running) : Prop where
  found : d.findRun src = some r
  cmd : r.cmd = k
  seq : r.seq = seq
  step : r.step = c.nmon.step
  share : r.share = sh
  sems : d.sems = c.sems
  mem : d.mem = c.mem
  inputs : d.inputs = c.inputs

/-- The start of a command by its opcode (02 R33). -/
structure Begun (c : Channel) (e : Engine) (src : Src) (seq : W32) (k : Command) (sh : Option Share) (d : Channel) (r : Running) :
    Prop where
  enters : Enters c src seq k sh d r
  absent : opcUnit k.opc = none → r.result = some { status := 0x10 }
  refused : ∀ u, opcUnit k.opc = some u → accepts e u = false → r.result = some { status := 0x1B }
  runs : ∀ u, opcUnit k.opc = some u → accepts e u = true → e ≠ .dispatcher ∨ u = .dsp → r.result = none
  floe : ∀ u f ms ext, opcUnit k.opc = some u → e = .dispatcher → u ≠ .dsp →
    (c.wakeFor e k).makeFloe k k.floe none none false = .ok (f, ms, ext) →
      r.result = none ∧ d.floes = c.floes ++ [⟨c.nextFloe, src, seq, k, f.level, ms, ext, none⟩]
  undefined : ∀ u, opcUnit k.opc = some u → e = .dispatcher → u ≠ .dsp →
    (c.wakeFor e k).makeFloe k k.floe none none false = .error (.status 0x12 0) →
      r.result = some { status := 0x12 } ∧ d.floes = c.floes
  queues : e ≠ .dispatcher ∨ (∃ y, (c.wakeFor e k).makeFloe k k.floe none none false = .ok y) → d.queues = c.queues

theorem accepts_dsp {e : Engine} (h : accepts e .dsp = true) : e = .dispatcher := by
  cases e with
  | dispatcher => rfl
  | _ => exact absurd h Bool.false_ne_true

theorem accepts_dispatcher (u : Unit4) : accepts .dispatcher u = true := by cases u <;> rfl

/-- An engine starts every opcode that it accepts. -/
theorem accepts_takes {e : Engine} {u : Unit4} (h : accepts e u = true) : (!accepts e u || (u == .dsp && e != .dispatcher)) = false := by
  rw [h, Bool.not_true, Bool.false_or, Bool.and_eq_false_iff]
  by_cases hd : u = .dsp
  · subst hd
    rw [accepts_dsp h]
    exact .inr rfl
  · exact .inl (beq_eq_false_iff_ne.mpr hd)

theorem dispatches {u : Unit4} (h : u ≠ .dsp) : (decide (Engine.dispatcher = .dispatcher) && u != .dsp) = true := by
  rw [decide_eq_true rfl, Bool.true_and, bne_iff_ne.mpr h]

section
variable {w : Wk} {e : Engine} {src : Src} {seq : W32} {k : Command} {sh : Option Share} {early : List (Nat × List Byte)}

theorem Channel.startRun_step {c : Channel} : (c.startRun e src seq k sh early).step = c.nmon.step := by
  have tuned := OnlyTuned.entered c e k
  unfold OnlyTuned at tuned
  have same : (c.startRun e src seq k sh early).step = (c.entered e k).nmon.step := rfl
  rw [same, tuned]

/-- A command joins those of a channel that has begun with it. -/
theorem Enters.addRun {c d : Channel} {r : Running} (hr : r = c.startRun e src seq k sh early ∨
      ∃ res, r = (c.startRun e src seq k sh early).ends res) (h : c.findRun src = none) (running : d.running = c.running)
    (sems : d.sems = c.sems) (mem : d.mem = c.mem) (inputs : d.inputs = c.inputs) : Enters c src seq k sh (d.addRun r) r := by
  have none : d.findRun src = none := by
    unfold Channel.findRun at *
    rw [running, h]
  have step : (c.startRun e src seq k sh early).step = c.nmon.step := Channel.startRun_step
  rcases hr with rfl | ⟨res, rfl⟩
  · exact ⟨Channel.findRun_addRun none, rfl, rfl, step, rfl, sems, mem, inputs⟩
  · exact ⟨Channel.findRun_addRun none, rfl, rfl, step, rfl, sems, mem, inputs⟩

/-- A command is begun on a channel with its clocks and rows on. -/
theorem Enters.entered {c : Channel} {r : Running} (h : c.findRun src = none)
    (hr : r = c.startRun e src seq k sh early ∨ ∃ res, r = (c.startRun e src seq k sh early).ends res) :
    Enters c src seq k sh ((c.entered e k).addRun r) r := by
  have tuned := OnlyTuned.entered c e k
  unfold OnlyTuned at tuned
  exact addRun hr h (by rw [tuned]) (by rw [tuned]) (by rw [tuned]) (by rw [tuned])

theorem Wk.begin_absent (h : opcUnit k.opc = none) : w.begin e src seq k sh early =
    { w with c := (w.c.entered e k).addRun ((w.c.startRun e src seq k sh early).ends { status := 0x10 }) } := by
  unfold Wk.begin
  dsimp only
  rw [h]
  rfl

section
variable {u : Unit4} (hu : opcUnit k.opc = some u)
include hu

theorem Wk.begin_refused (ha : accepts e u = false) : w.begin e src seq k sh early =
    { w with c := (w.c.entered e k).addRun ((w.c.startRun e src seq k sh early).ends { status := 0x1B }) } := by
  unfold Wk.begin
  dsimp only
  rw [hu]
  dsimp only
  rw [if_pos (by rw [ha]; rfl)]
  rfl

theorem Wk.begin_own (ha : accepts e u = true) (he : e ≠ .dispatcher ∨ u = .dsp) : w.begin e src seq k sh early =
    { w with c := (w.c.entered e k).addRun (w.c.startRun e src seq k sh early) } := by
  have own : (decide (e = .dispatcher) && u != .dsp) = false := by
    rcases he with he | he
    · rw [decide_eq_false he, Bool.false_and]
    · rw [he]
      exact Bool.and_false _
  unfold Wk.begin
  dsimp only
  rw [hu]
  dsimp only
  rw [accepts_takes ha, own, if_neg Bool.false_ne_true, if_neg Bool.false_ne_true]
  rfl

theorem Wk.begin_floe (hd : u ≠ .dsp) {f : Floe} {ms : List MemberState} {ext : Option Nat}
    (h : (w.c.wakeFor .dispatcher k).makeFloe k k.floe none none false = .ok (f, ms, ext)) :
    w.begin .dispatcher src seq k sh early =
      { w with c := ((w.c.entered .dispatcher k).addFloe src seq k f.level ms ext none).addRun
                      (w.c.startRun .dispatcher src seq k sh early) } := by
  unfold Wk.begin
  dsimp only
  rw [hu]
  dsimp only
  rw [accepts_takes (accepts_dispatcher u), if_neg Bool.false_ne_true, if_pos (dispatches hd)]
  split
  case h_1 heq =>
    cases heq.symm.trans h
    rfl
  case h_2 heq => cases heq.symm.trans h

theorem Wk.begin_noFloe (hd : u ≠ .dsp) {x : Err}
    (h : (w.c.wakeFor .dispatcher k).makeFloe k k.floe none none false = .error x) :
    w.begin .dispatcher src seq k sh early =
      { w with c := (w.c.entered .dispatcher k).refuse (w.c.startRun .dispatcher src seq k sh early) x } := by
  unfold Wk.begin
  dsimp only
  rw [hu]
  dsimp only
  rw [accepts_takes (accepts_dispatcher u), if_neg Bool.false_ne_true, if_pos (dispatches hd)]
  split
  case h_1 heq => cases heq.symm.trans h
  case h_2 heq =>
    cases heq.symm.trans h
    rfl
end

/-- What a command's start leaves, whatever the opcode. -/
def Wk.Begins (w : Wk) (e : Engine) (src : Src) (seq : W32) (k : Command) (sh : Option Share) (early : List (Nat × List Byte)) : Prop :=
  ∃ d r, w.begin e src seq k sh early = { w with c := d } ∧ Begun w.c e src seq k sh d r

theorem Channel.entered_queues (c : Channel) (e : Engine) (k : Command) (r : Running) : ((c.entered e k).addRun r).queues = c.queues := by
  have tuned := OnlyTuned.entered c e k
  unfold OnlyTuned at tuned
  rw [tuned]
  rfl

section
variable (h : w.c.findRun src = none)
include h

theorem Wk.begins_absent (hu : opcUnit k.opc = none) : w.Begins e src seq k sh early := by
  have no {u : Unit4} {p : Prop} (hv : opcUnit k.opc = some u) : p := absurd (hu.symm.trans hv) nofun
  exact ⟨_, _, Wk.begin_absent hu, Enters.entered h (.inr ⟨_, rfl⟩), fun _ => rfl, fun _ hv => no hv, fun _ hv => no hv,
    fun _ _ _ _ hv => no hv, fun _ hv => no hv, fun _ => w.c.entered_queues e k _⟩

section
variable {u : Unit4} (hu : opcUnit k.opc = some u)
include hu

theorem Wk.begins_refused (ha : accepts e u = false) : w.Begins e src seq k sh early := by
  have no_none {p : Prop} (hv : opcUnit k.opc = none) : p := absurd (hv.symm.trans hu) nofun
  have no {p : Prop} (hd : e = .dispatcher) : p := by
    subst hd
    exact absurd ((accepts_dispatcher u).symm.trans ha) (by decide)
  refine ⟨_, _, Wk.begin_refused hu ha, Enters.entered h (.inr ⟨_, rfl⟩), no_none, fun _ _ _ => rfl, fun v hv hn _ => ?_,
    fun _ _ _ _ _ hd => no hd, fun _ _ hd => no hd, fun _ => w.c.entered_queues e k _⟩
  rw [Option.some.inj (hv.symm.trans hu), ha] at hn
  exact absurd hn (by decide)

theorem Wk.begins_own (ha : accepts e u = true) (he : e ≠ .dispatcher ∨ u = .dsp) : w.Begins e src seq k sh early := by
  have no_none {p : Prop} (hv : opcUnit k.opc = none) : p := absurd (hv.symm.trans hu) nofun
  have no {v : Unit4} {p : Prop} (hv : opcUnit k.opc = some v) (hd : e = .dispatcher) (hn : v ≠ .dsp) : p := by
    rw [Option.some.inj (hv.symm.trans hu)] at hn
    exact absurd he (by rw [not_or, not_not]; exact ⟨hd, hn⟩)
  refine ⟨_, _, Wk.begin_own hu ha he, Enters.entered h (.inl rfl), no_none, fun v hv hn => ?_, fun _ _ _ _ => rfl,
    fun _ _ _ _ hv hd hn _ => no hv hd hn, fun _ hv hd hn _ => no hv hd hn, fun _ => w.c.entered_queues e k _⟩
  rw [Option.some.inj (hv.symm.trans hu), ha] at hn
  exact absurd hn (by decide)

theorem Wk.begins_dispatched (hd : u ≠ .dsp) : w.Begins .dispatcher src seq k sh early := by
  have no_none {p : Prop} (hv : opcUnit k.opc = none) : p := absurd (hv.symm.trans hu) nofun
  have no {v : Unit4} {p : Prop} (hn : accepts .dispatcher v = false) : p :=
    absurd ((accepts_dispatcher v).symm.trans hn) (by decide)
  cases hf : (w.c.wakeFor .dispatcher k).makeFloe k k.floe none none false with
  | ok y =>
    obtain ⟨f, ms, ext⟩ := y
    have entered : Enters w.c src seq k sh (((w.c.entered .dispatcher k).addFloe src seq k f.level ms ext none).addRun
        (w.c.startRun .dispatcher src seq k sh early)) (w.c.startRun .dispatcher src seq k sh early) :=
      Enters.addRun (.inl rfl) h rfl rfl rfl rfl
    refine ⟨_, _, Wk.begin_floe hu hd hf, entered, no_none, fun _ _ hn => no hn, fun _ _ _ _ => rfl,
      fun _ _ _ _ _ _ _ hf' => ?_, fun _ _ _ _ hf' => ?_, fun _ => rfl⟩
    · cases hf.symm.trans hf'
      exact ⟨rfl, rfl⟩
    · cases hf.symm.trans hf'
  | error x =>
    have failed := Failed.fail (w.c.entered .dispatcher k) (w.c.startRun .dispatcher src seq k sh early) x
    have inputs : ((w.c.entered .dispatcher k).fail (w.c.startRun .dispatcher src seq k sh early) x).1.inputs = w.c.inputs := by
      unfold Failed at failed
      rw [failed]
      rfl
    refine ⟨_, _, Wk.begin_noFloe hu hd hf, Enters.addRun (.inr ⟨_, rfl⟩) h failed.running failed.sems failed.mem inputs, no_none,
      fun _ _ hn => no hn, fun v hv _ hn => ?_, fun _ _ _ _ _ _ _ hf' => ?_, fun _ _ _ _ hf' => ?_, fun hq => ?_⟩
    · rcases hn with hn | hn
      · exact absurd rfl hn
      · exact absurd ((Option.some.inj (hv.symm.trans hu)).symm.trans hn) hd
    · cases hf.symm.trans hf'
    · cases hf.symm.trans hf'
      exact ⟨rfl, rfl⟩
    · rcases hq with hq | ⟨y, hy⟩
      · exact absurd rfl hq
      · cases hf.symm.trans hy
end

theorem Wk.begins : w.Begins e src seq k sh early := by
  cases hu : opcUnit k.opc with
  | none => exact Wk.begins_absent h hu
  | some u =>
    cases ha : accepts e u with
    | false => exact Wk.begins_refused h hu ha
    | true =>
      by_cases he : e ≠ .dispatcher ∨ u = .dsp
      · exact Wk.begins_own h hu ha he
      · rw [not_or, not_not] at he
        obtain ⟨rfl, hd⟩ := he
        exact Wk.begins_dispatched h hu hd
end
end

/-! ### Shares at the dispatch input (01 R12, 02 R51) -/

/-- The first share of an engine is taken from its input. -/
def Channel.dropInput (c : Channel) (e : Engine) : Channel := { c with inputs := c.inputs.eraseP fun p => p.1 == e }

/-- The membership of a floe does not look at the inputs. -/
theorem Channel.memberOkGo_dropInput (c : Channel) (e : Engine) (n level : Nat) (m : Member) :
    (c.dropInput e).memberOkGo n level m = c.memberOkGo n level m := by
  induction n generalizing level m with
  | zero => rfl
  | succ n ih =>
    have below : (c.dropInput e).memberOkGo n = c.memberOkGo n := funext fun l => funext fun m => ih l m
    unfold Channel.memberOkGo
    rw [below]
    rfl

theorem Channel.shareFloe_dropInput (c : Channel) (e : Engine) (sh : Share) : (c.dropInput e).shareFloe sh = c.shareFloe sh := by
  unfold Channel.shareFloe Channel.memberOk
  rw [c.memberOkGo_dropInput e]
  rfl

section
variable {w : Wk} {e : Engine} {sh : Share}

theorem Wk.tryInput_starts (he : e ≠ .dispatcher) (hi : (w.c.inputs.find? fun p => p.1 == e) = some (e, sh))
    (hf : w.c.findRun (.input e) = none) (hs : w.c.canStart e sh.cmd = true) : w.tryInput e =
      (({ w with c := w.c.dropInput e } : Wk).begin e (.input e) 0 sh.cmd (some sh), true) := by
  unfold Wk.tryInput
  dsimp only
  rw [hi]
  dsimp only
  rw [if_neg he, hf, hs]
  rfl

theorem Wk.tryInput_floe {f : Floe} {ms : List MemberState} {ext : Option Nat}
    (hi : (w.c.inputs.find? fun p => p.1 == .dispatcher) = some (.dispatcher, sh)) (hf : w.c.shareFloe sh = .ok (f, ms, ext)) :
    w.tryInput .dispatcher = ({ w with c :=
      (w.c.dropInput .dispatcher).addFloe (.input .dispatcher) 0 sh.cmd f.level ms ext (some sh.ref) }, true) := by
  have goes : ¬w.c.shareWaits sh = true := by
    unfold Channel.shareWaits
    rw [hf]
    exact Bool.false_ne_true
  have made : (w.c.dropInput .dispatcher).shareFloe sh = .ok (f, ms, ext) := (w.c.shareFloe_dropInput _ sh).trans hf
  have begins : ({ w with c := w.c.dropInput .dispatcher } : Wk).beginShare sh =
      { w with c := (w.c.dropInput .dispatcher).addFloe (.input .dispatcher) 0 sh.cmd f.level ms ext (some sh.ref) } := by
    unfold Wk.beginShare
    dsimp only
    rw [made]
    rfl
  unfold Wk.tryInput
  dsimp only
  rw [hi]
  dsimp only
  rw [if_pos rfl, if_neg goes]
  exact congrArg (·, true) begins
end

/-! ### The row -/

theorem Channel.findRun_offers {m : Channel} {q : QIdx} (h : m.offers q = true) : m.findRun (.queue q) = none := by
  unfold Channel.offers Channel.busyQ at h
  simp only [Bool.and_eq_true, Bool.not_eq_true', Option.isSome_eq_false_iff, Option.isNone_iff_eq_none] at h
  exact h.1.1.2

theorem Channel.popQ_ci (c : Channel) (q : QIdx) : (c.popQ q).queues[q].ci = c.queues[q].ci + 1 := by
  unfold Channel.popQ
  rw [Channel.modQ_self]

theorem Channel.popQ_keeps (c : Channel) (q : QIdx) : c.popQ q = { c with queues := (c.popQ q).queues } := rfl

/-- The source served last. -/
def Channel.servedLast (c : Channel) (e : Engine) (i : Nat) : Channel := { c with rr := (e, i) :: c.rr.filter fun p => p.1 != e }

section
variable {s : State} {ch : Ch} {e : Engine} {front rest : List Nat} {c m : Channel}

/-- The channel d is what the start at source i of an engine leaves. -/
structure ServedBy (t : State) (ch : Ch) (e : Engine) (i : Nat) (d : Channel) : Prop where
  last : t.chans[ch].rr.lookup e = some i
  queues : t.chans[ch].queues = d.queues
  inputs : t.chans[ch].inputs = d.inputs
  floes : t.chans[ch].floes = d.floes
  sems : t.chans[ch].sems = d.sems
  mem : t.chans[ch].mem = d.mem
  found : ∀ src, t.chans[ch].findRun src = d.findRun src

theorem ServedBy.after (s : State) (ch : Ch) (w : Wk) (e : Engine) (i : Nat) :
    ServedBy (s.after ch (w.mod fun c => c.servedLast e i)) ch e i w.c := by
  refine ⟨?_, State.after_self_queues _ _ _, State.after_self_inputs _ _ _, State.after_self_floes _ _ _,
    State.after_self_sems _ _ _, State.after_self_mem _ _ _, State.after_self_findRun _ _ _⟩
  rw [State.after_self_rr]
  exact (List.lookup_cons_self : ((e, i) :: w.c.rr.filter fun p => p.1 != e).lookup e = some i)

section
variable (hc : s.chans[ch] = c) (hu : c.up = true) (hz : c.isFrozen (.engine e) = false) (passed : PassedOver e c front m)
include hc hu hz passed

theorem exec_commandStart {rest : List Nat} (hs : c.sources e = front ++ rest) :
    exec (.commandStart ch e) s = .next (s.after ch (({ s.work ch with c := m } : Wk).serve e rest)) := by
  have work : (s.work ch).c = c := hc
  refine congrArg Host.Outcome.next ((onUp_eq (by rw [hc]; exact hu) _).trans (congrArg _ ?_))
  rw [work, hz, if_neg Bool.false_ne_true, hs]
  exact passed.serve (s.work ch) work rest

theorem commandStart_serves {i : Nat} (hs : c.sources e = front ++ i :: rest) {d : Channel}
    (ht : ({ s.work ch with c := m } : Wk).tries e i = ({ s.work ch with c := d }, true)) :
    ∃ t, exec (.commandStart ch e) s = .next t ∧ ServedBy t ch e i d := by
  refine ⟨_, ?_, ServedBy.after s ch { s.work ch with c := d } e i⟩
  rw [exec_commandStart hc hu hz passed hs, Wk.serve_cons, ht]
  rfl

/-- A head that is not live is taken, and its command ends at once. -/
theorem commandStart_ends {q : QIdx} (hs : c.sources e = front ++ q.val :: rest) {d : Channel} {r : Running} (hr : r.src = .queue q)
    (ht : ({ s.work ch with c := m } : Wk).tryQueue e q = ({ s.work ch with c := d.addRun r }, true))
    (idle : d.findRun (.queue q) = none) (queues : d.queues = (m.popQ q).queues) :
    ∃ t, exec (.commandStart ch e) s = .next t ∧ t.chans[ch].findRun (.queue q) = some r ∧
      t.chans[ch].queues[q].ci = m.queues[q].ci + 1 ∧ t.chans[ch].rr.lookup e = some q.val := by
  obtain ⟨t, ht, served⟩ := commandStart_serves hc hu hz passed hs ((Wk.tries_queue _ e q).trans ht)
  refine ⟨t, ht, ?_, ?_, served.last⟩
  · rw [served.found, ← hr]
    exact Channel.findRun_addRun (by rw [hr]; exact idle)
  · rw [served.queues]
    exact (congrArg (fun v => Queue.ci v[q]) queues).trans (m.popQ_ci q)

/-- A live head that neither waits nor is held up begins. -/
theorem commandStart_begins {q : QIdx} (hs : c.sources e = front ++ q.val :: rest) (live : m.offersLive q) (hw : ¬m.waitsOnSem q)
    (hh : ¬m.heldUp e q) : ∃ t d r, exec (.commandStart ch e) s = .next t ∧ ServedBy t ch e q.val d ∧
      Begun (m.popQ q) e (.queue q) m.queues[q].ci (m.headOf q) none d r := by
  have idle : m.findRun (.queue q) = none := Channel.findRun_offers live.1
  obtain ⟨d, r, begins, begun⟩ := Wk.begins (w := { s.work ch with c := m.popQ q }) (e := e) (src := .queue q)
    (seq := m.queues[q].ci) (k := m.headOf q) (sh := none) (early := m.queues[q].early) idle
  have tries := Wk.tryQueue_starts (w := { s.work ch with c := m }) live hw hh
  obtain ⟨t, ht, served⟩ := commandStart_serves hc hu hz passed hs
    ((Wk.tries_queue _ e q).trans (tries.trans (congrArg (·, true) begins)))
  exact ⟨t, d, r, ht, served, begun⟩

/-- A share that its engine can take begins. -/
theorem commandStart_share {sh : Share} (hs : c.sources e = front ++ 160 :: rest) (he : e ≠ .dispatcher)
    (hi : (m.inputs.find? fun p => p.1 == e) = some (e, sh)) (idle : m.findRun (.input e) = none)
    (hstart : m.canStart e sh.cmd = true) : ∃ t d r, exec (.commandStart ch e) s = .next t ∧ ServedBy t ch e 160 d ∧
      Begun (m.dropInput e) e (.input e) 0 sh.cmd (some sh) d r := by
  obtain ⟨d, r, begins, begun⟩ := Wk.begins (w := { s.work ch with c := m.dropInput e }) (e := e) (src := .input e)
    (seq := 0) (k := sh.cmd) (sh := some sh) (early := []) idle
  have tries := Wk.tryInput_starts (w := { s.work ch with c := m }) he hi idle hstart
  obtain ⟨t, ht, served⟩ := commandStart_serves hc hu hz passed hs (tries.trans (congrArg (·, true) begins))
  exact ⟨t, d, r, ht, served, begun⟩
end
end

/-- Settles O13: the sources passed over leave the marks of queues; the next that can start does, as its head or share has it. -/
theorem commandStart : Obligations.CommandStart := by
  unfold Obligations.CommandStart
  refine ⟨fun e c m l passed => ⟨passed.sameHeads.rest, fun j =>
    ⟨passed.sameHeads.queue j, passed.keeps j, passed.marks j⟩⟩, ?_⟩
  rintro s ch e front rest c m hc hu hz passed
  have same : m = { c with queues := m.queues } := passed.sameHeads.rest
  have inputs : m.inputs = c.inputs := by rw [same]
  have sems : m.sems = c.sems := by rw [same]
  have mem : m.mem = c.mem := by rw [same]
  have floes : m.floes = c.floes := by rw [same]
  have next : m.nextFloe = c.nextFloe := by rw [same]
  have step : m.nmon.step = c.nmon.step := by rw [same]
  refine ⟨fun hs => ?_, fun q x k hs hx hk ho => ?_, fun sh hs hi => ⟨fun he hf hstart => ?_, fun f ms ext he hf => ?_⟩⟩
  · rw [exec_commandStart hc hu hz passed (rest := []) (by rw [hs, List.append_nil])]
    exact congrArg Host.Outcome.next (State.after_eq_put rfl rfl)
  · subst hx hk
    refine ⟨fun a hb => ?_, fun hb ha => ?_, fun c2 hc2 live hw hh => ?_⟩
    · have noted := Noted.noteUe (m.popQ q) a false
      have idle : ((m.popQ q).noteUe a false).findRun (.queue q) = none := by
        unfold Channel.findRun
        rw [noted.running]
        exact Channel.findRun_offers (m := m) ho
      obtain ⟨t, ht, found, ci, last⟩ := commandStart_ends hc hu hz passed hs
        (r := m.takes q (Command.parse []) { status := 0x16, info := BitVec.ofNat 64 a }) rfl
        (Wk.tryQueue_unread (w := { s.work ch with c := m }) ho hb) idle noted.queues
      exact ⟨t, _, ht, found, rfl, ci, last⟩
    · obtain ⟨t, ht, found, ci, last⟩ := commandStart_ends hc hu hz passed hs (r := m.takes q (m.headOf q) { status := 0x1A }) rfl
        (Wk.tryQueue_aborts (w := { s.work ch with c := m }) ho hb ha) (Channel.findRun_offers (m := m) ho) rfl
      exact ⟨t, _, ht, found, rfl, rfl, ci, last⟩
    · subst hc2
      obtain ⟨t, d, r, ht, served, enters, absent, refused, runs, floe, undefined, queues⟩ :=
        commandStart_begins hc hu hz passed hs live hw hh
      refine ⟨t, r, ht, (served.found _).trans enters.found, enters.cmd, enters.seq, enters.step.trans step, enters.share, served.last,
        (served.sems.trans enters.sems).trans sems, (served.mem.trans enters.mem).trans mem, absent, refused, runs,
        fun u f ms ext hu' he hd hf => ?_, fun u hu' he hd hf => ?_, fun hq => ?_⟩
      · obtain ⟨res, made⟩ := floe u f ms ext hu' he hd hf
        refine ⟨res, (served.floes.trans made).trans ?_⟩
        rw [← floes, ← next]
        rfl
      · obtain ⟨res, made⟩ := undefined u hu' he hd hf
        exact ⟨res, (served.floes.trans made).trans floes⟩
      · have left : t.chans[ch].queues = (m.popQ q).queues := served.queues.trans (queues hq)
        rw [left]
        exact ⟨Channel.modQ_self m q _, fun j hj => (Channel.modQ_get m q _ j).trans (if_neg hj)⟩
  · have idle : m.findRun (.input e) = none := by
      rw [same]
      exact hf
    obtain ⟨t, d, r, ht, served, begun⟩ := commandStart_share hc hu hz passed hs he (by rw [inputs, hi]) idle hstart
    have enters := begun.enters
    exact ⟨t, r, ht, (served.found _).trans enters.found, enters.cmd, enters.share, enters.step.trans step,
      fun u hu' ha => begun.runs u hu' ha (.inl he), (served.inputs.trans enters.inputs).trans (by rw [← inputs]; rfl),
      served.queues.trans (begun.queues (.inl he)), served.last, (served.sems.trans enters.sems).trans sems,
      (served.mem.trans enters.mem).trans mem⟩
  · subst he
    obtain ⟨t, ht, served⟩ := commandStart_serves hc hu hz passed hs
      (Wk.tryInput_floe (w := { s.work ch with c := m }) (by rw [← hi, ← inputs]) hf)
    refine ⟨t, ht, served.inputs.trans (by rw [← inputs]; rfl), served.queues, served.last, served.sems.trans sems,
      served.mem.trans mem, _, ?_, rfl⟩
    rw [served.floes, ← next]
    exact List.mem_append_right _ List.mem_cons_self

end Sys2Proof.Machine
end
